-- ==== Sys2Proof/Word.lean ====
section
/-! DEFINITION. The word types of the device: 32-bit registers (R8) and bytes (R13), and their plainest arithmetic. -/
namespace Sys2Proof

/-- A register word (R8). -/
abbrev Word := BitVec 32

/-- A byte of memory or of a message (R13: multi-byte fields are little-endian). -/
abbrev Byte := BitVec 8

end Sys2Proof
end

