-- ==== Sys2Proof/Syntax.lean ====
section
/-! DEFINITION. The commands of the block: one constructor per row of spec/opcode_table.json. An operand is what the
outside gives the device at that step: a record, a level, a measured code, a message. A step the device takes of itself
has none. -/
namespace Sys2Proof

/-- A mailbox message (R332) without its status field: the mailbox it stands in, FLAGS, SEQUENCE, TAG and the bytes that
follow the header (payload and, with FLAGS.SIGNED, trailer). The opcode is the constructor's. -/
structure Msg where
  mb : Fin 16
  flags : BitVec 16
  seq : BitVec 32
  tag : BitVec 16
  body : List Byte
  deriving DecidableEq, Repr

/-- One upstream character of a cell as its decimators take it (R84, R302): its far-end sample time (ns of the time base), its
slot, and the character, received or held. -/
structure CellBit where
  t : Nat
  slot : Fin 256
  b : Byte
  deriving DecidableEq, Repr

/-- A raw level of a feedback input that has just changed (R249): the first sample of it (ns of the time base), and how many
consecutive samples have shown it. -/
structure Held where
  t : Nat
  n : Nat
  deriving DecidableEq, Repr

/-- A raw Hall code that has just changed, as the samples of the foreground and of the safety island have shown it (R249,
R252). -/
structure HallSeen where
  fg : Held
  island : Held
  deriving DecidableEq, Repr

/-- A raw code of a SAR conversion, and whether it was converted without error (R244). -/
structure SarRaw where
  code : BitVec 16
  ok : Bool
  deriving DecidableEq, Repr

/-- Consecutive upstream characters of a lane, the first at the far-end sample time `t` (R84, R123). -/
structure UpRun where
  t : Nat
  chars : List Byte
  deriving DecidableEq, Repr

/-- A pair frame as it is received (R452, R461): the DEVICE_ID of the sender, and the bytes. -/
structure PairRx where
  sender : BitVec 64
  bytes : List Byte
  deriving DecidableEq, Repr

/-- A reassembled UDP datagram (R344): source address and port, whether its checksums hold, its bytes. -/
structure Datagram where
  src : BitVec 32
  srcPort : BitVec 16
  dstPort : BitVec 16
  sumOk : Bool
  data : List Byte
  deriving DecidableEq, Repr

/-- What ECC finds in a word that is read. -/
inductive EccResult where
  | clean
  | corrected
  | uncorrectable
  deriving DecidableEq, Repr

/-- Who makes a bus access (R33, R35). -/
inductive Initiator where
  | hearth (pair : Fin 2)
  | dma (ch : Fin 16)
  | debug
  | window
  deriving DecidableEq, Repr

/-- What the test of one memory found (R402, R404): signature, completion count, the failing cells in the order found, row
and bit (of an MRAM macro its damaged lines, address and 0), and whether an MRAM line needed a correction. -/
structure BistMem where
  mem : Fin 39
  misr : BitVec 32
  ops : BitVec 32
  corrected : Bool
  fails : List (Nat × Nat)
  deriving DecidableEq, Repr

/-- What the OTP array holds when it is loaded (R403, R408, R429): factory contents. An unprogrammed hash is an empty list. -/
structure OtpImage where
  deviceId : BitVec 64
  stepping : BitVec 16
  gradeFuses : BitVec 3
  origin : Bool
  vendorHash : List (List Byte)
  caHash : List Byte
  integratorHash : List (List Byte)
  vendorRevoked : BitVec 2
  integratorRevoked : BitVec 4
  idKey : Bool
  rollback : Nat
  mac : List (BitVec 48)
  bandgap : BitVec 16
  fuses : List (BitVec 32)
  bistMisr : List (BitVec 32)
  bistOps : List (BitVec 32)
  deriving DecidableEq, Repr

/-- The fields of an IEEE 1588 message that R459 uses; times in ns. -/
structure PtpMsg where
  seq : BitVec 16
  origin : Nat
  correction : Int
  ingress : Nat
  twoStep : Bool
  domain : BitVec 8
  deriving DecidableEq, Repr

/-- The commands. -/
inductive Instr where
  /-- R24: At each control period start the committed update set and shadow copies take effect, and the per-period
  counts, the damper and the modulator sequence are updated. -/
  | periodStart
  /-- R18: At the sample instant the SAR units are triggered, the decimator windows close, and the safety island
  and docking engine take their per-period samples. -/
  | sampleInstant (bits : List (List CellBit))
  /-- R293: 600 ns before the sample instant each enabled SAR unit aborts background work and aligns foreground
  entry 0 to the sample instant. -/
  | sarPreTrigger (u : Fin 4)
  /-- R23: At data-ready the signal table is filled under the validity and age rules, and the control schedule and
  hearth procedures start. -/
  | dataReady
  /-- R230: The control engine's end step completes and writes F_EL. -/
  | scheduleComplete
  /-- R18: At the apply point the voltage references are latched and handed to the dispatch engine, which starts
  its 480-cycle run. -/
  | applyPoint
  /-- R180: The dispatch engine finishes phase I and its result is handed to the modulator, which computes pulses
  and carries. -/
  | dispatchComplete
  /-- R25: At the commit deadline the modulator commits the update set for the next period, or repeats the
  previous one. -/
  | commitDeadline
  /-- R25: The fourth consecutive repeated update set requests the safe state. -/
  | dispatchStall
  /-- R183: A cell voltage entry is invalid for more than AGE_MAX periods, so the cell is not usable. -/
  | cellStale (c : Fin 128)
  /-- R184: A string reference stays invalid beyond AGE_MAX in a dispatched mode and a safe state is requested. -/
  | vrefStale (s : Fin 6)
  /-- R187: No SOC_COMMIT has taken effect for four windows, so the state-of-charge deviation is set to 0. -/
  | socStale
  /-- R187: A cell has no valid module temperature from the last two auxiliary cycles and its key becomes 4095. -/
  | tempMissing (c : Fin 128)
  /-- R201: At a balancing window boundary the window statistics are latched and ROT advances. -/
  | windowEnd
  /-- R199: A cell reading stays outside the consensus band for OUTLIER_PERIODS periods. -/
  | cellCurrentOutlier (c : Fin 128)
  /-- R199: Sensor A or D disagrees with the consensus for SENS_PERIODS periods. -/
  | sensorDisagree (s : Fin 6) (d : Bool)
  /-- R199: No consensus forms for SENS_PERIODS periods in a driven mode. -/
  | noConsensus (s : Fin 6)
  /-- R225: The flux observer locks after 64 consecutive good runs. -/
  | observerLocked
  /-- R225: A locked observer loses lock on its error count or on low flux. -/
  | observerLost
  /-- R236: A host entry is not rewritten within TIMEOUT and takes FALLBACK. -/
  | hostInputTimeout (e : Fin 32)
  /-- R128: A tripped cell's exclusion of EXCL_PERIODS periods ends. -/
  | exclusionEnd (c : Fin 128)
  /-- R127: A soft-comparator filter count reaches k; the leg is sent 100, held, and counted toward the budgets. -/
  | softTrip (sw : Fin 512) (run : UpRun)
  /-- R126: A merged cross-blank window reaches XB_MAX and is closed. -/
  | xblankOverrun (s : Fin 6)
  /-- R129: After RETRY_MIN_OFF the device sends TRIP_CLEAR for a hard-tripped switch. -/
  | retryMinOffElapsed (h : Fin 256)
  /-- R121: A HARD_TRIP record arrives; the named legs are sent 100, held and counted. -/
  | hardTripRecord (l : Fin 128) (p : BitVec 24) (t : Nat)
  /-- R115: An ECHO record is accepted or discarded for the trim and conduction delay. -/
  | echoRecord (l : Fin 128) (p : BitVec 24)
  /-- R87: An IDENT record supplies part of the front-end serial. -/
  | identRecord (l : Fin 128) (p : BitVec 24)
  /-- R88: A HEALTH record updates a health code, such as contactor state or error counts. -/
  | healthRecord (l : Fin 128) (p : BitVec 24)
  /-- R82: An ACK record completes or fails the outstanding downstream message. -/
  | ackRecord (l : Fin 128) (p : BitVec 24)
  /-- R86: An AUX_MARK record gives the auxiliary channel index of the new dwell. -/
  | auxMarkRecord (l : Fin 128) (p : BitVec 24)
  /-- R87: A reserved upstream record type is received and counted as an error. -/
  | unknownRecord (l : Fin 128) (type : BitVec 8)
  /-- R307: At the end of each dwell the auxiliary sinc3 result is taken as a channel value, or skipped. -/
  | auxDwellEnd (c : Fin 128) (chars : List Byte)
  /-- R87: An upstream frame completes; its CRC-16 is checked and RTT and alignment are updated. -/
  | upstreamFrame (l : Fin 128) (slot0 : Option (BitVec 10)) (chars : List (BitVec 10)) (rtt : Nat)
  /-- R81: The link starts a queued downstream message at an opportunity that clears the scheduled changes. -/
  | messageStart (l : Fin 128)
  /-- R82: No ACK arrives within 2 frames; the message is retried, or the lane is faulty after 3 retries. -/
  | messageAttemptFailed (l : Fin 128)
  /-- R91: A lane meets the training conditions and becomes VALID. -/
  | laneTrainingComplete (l : Fin 128)
  /-- R93: Training exceeds 5 ms or fails its timing limits, and the lane becomes SILENT. -/
  | laneTrainingTimeout (l : Fin 128)
  /-- R93: One second after SILENT the lane restarts training. -/
  | silentRetry (l : Fin 128)
  /-- R93: Four upstream frames without a comma return a VALID lane to TRAINING. -/
  | laneDown (l : Fin 128)
  /-- R96: The lane's error window exceeds 64 and the cell is retired. -/
  | laneFaulty (l : Fin 128)
  /-- R95: Every 62.5 ms the lane error count moves to a new bucket. -/
  | errorBucketRoll (l : Fin 128)
  /-- R96: Every 1 ms BYPASS_CLOSE is resent until the contactor reports closed. -/
  | bypassCloseTimer (c : Fin 128)
  /-- R96: The contactor is not reported closed within 20 ms of the first BYPASS_CLOSE. -/
  | bypassUnconfirmed (c : Fin 128)
  /-- R41: The identity outcomes of every role-1 and role-2 cell are known, and STRING_MAP_SET completes. -/
  | mapApplied
  /-- R136: The safety island receives a request or own cause, selects the sub-state and asserts a FORCE line. -/
  | safeRequest
  /-- R138: FORCE_DT after leaving a high-side code, a leg under FORCE_SHORT goes to 111. -/
  | forceDtElapsed (h : Fin 256)
  /-- R143: Every 100 µs the safety cores rewrite the decision latch. -/
  | decisionLatchUpdate
  /-- R143: A lockstep mismatch, clock loss or VDD_SAFE fault makes the output stage assert the latched FORCE
  line. -/
  | safetyIslandFault
  /-- R145: Violating torque samples run longer than TQ_TIME. -/
  | torqueViolation
  /-- R146: Hall-angle disagreements run longer than TQ_TIME. -/
  | angleDisagree
  /-- R147: CRASH_N is low for 2 µs; a FORCE line and BLEED_DRV are asserted. -/
  | crash
  /-- R142: CRASH_N is high for 1 s, which ends the CRASH condition. -/
  | crashClear
  /-- R148: While BLEED_DRV is asserted, unit D converts the bleed nodes every 1 ms. -/
  | bleedConversion (rawA : BitVec 16) (rawB : BitVec 16)
  /-- R148: The nodes are not below 60 V within 2 s of the assertion. -/
  | bleedTimeout
  /-- R327: A 10 µs window of the MODULATION clock count falls outside ±5 %. -/
  | clockFault (count : Nat)
  /-- R53: A mode-change ramp reaches below 1 % of rating and the target pattern takes effect. -/
  | rampComplete
  /-- R53: A ramp has not ended within 2 s and a safe state is requested. -/
  | rampTimeout
  /-- R261: The fourth consecutive miss, or EXTRAP_N periods without a source, requests a safe state. -/
  | angleLost
  /-- R264: The back-EMF check ends after two electrical periods or 20 ms and selects the next phase. -/
  | checkWindowEnd
  /-- R265: After 8 periods in SYNC the procedure hands over to RUN or enters BRAKE. -/
  | startSyncDone
  /-- R265: ALIGN ends after T_ALIGN and RAMP begins. -/
  | tAlignElapsed
  /-- R265: T_RAMP_MAX elapses without hand-over and the start fails. -/
  | handoverTimeout
  /-- R265: Thirty seconds in BRAKE ends the start with failure. -/
  | brakeTimeout
  /-- R60: The grid magnitude has been at least 500 ‰ for 20 ms. -/
  | gridVoltagePresent
  /-- R60: The grid magnitude has stayed below 100 ‰ for 20 ms. -/
  | gridVoltageAbsent
  /-- R60: Neither entry condition holds within 100 ms, so GRID_SYNC_FAILED NO_GRID is raised. -/
  | gridNoGridTimeout
  /-- R60: The synchronisation tolerances hold for SYNC_T and the procedure hands over to GRUN. -/
  | gridSyncHeld
  /-- R60: SYNC_TMAX elapses in GSYNC and the procedure returns to NONE. -/
  | gridSyncTimeout
  /-- R62: A grid condition holds longer than its time and SAFE_OPEN is requested. -/
  | gridTrip
  /-- R242: At an excitation peak the sine and cosine pair is converted and the tracking loop updates. -/
  | resolverUpdate (sin : SarRaw) (cos : SarRaw)
  /-- R244: The resolver becomes LOCKED after 64 good updates. -/
  | resolverLocked
  /-- R244: Low amplitude in 4 updates unlocks the resolver. -/
  | resolverLos
  /-- R244: Clipped amplitude in 4 updates unlocks the resolver. -/
  | resolverClip
  /-- R244: Tracking error over LOT_N updates unlocks the resolver. -/
  | resolverLot
  /-- R245: A filtered Hall code change is classified as a step, an impossible code or a jump. -/
  | hallEdge (code : BitVec 3) (r : HallSeen)
  /-- R247: A filtered axle input edge changes the axle count. -/
  | axleEdge (a : Bool) (b : Bool) (r : Held)
  /-- R248: A MARKER edge into its active level latches the axle count. -/
  | markerEdge (level : Bool) (r : Held)
  /-- R248: An ENDSTOP edge is passed to the docking engine. -/
  | endstopEdge (level : Bool) (r : Held)
  /-- R250: An input has more than CHAT_MAX rejected transitions in a 1 ms gate. -/
  | chatter (input : Fin 7) (t : Nat)
  /-- R251: MARKER or ENDSTOP stays active longer than its STUCK time. -/
  | stuckActive (endstop : Bool)
  /-- R246: STOP_TIME passes without an edge and the speed becomes 0 with STOPPED set. -/
  | speedStopped (axle : Bool)
  /-- R283: A compare pulse on DOK_OUT_n ends after PULSE_MS. -/
  | dockPulseEnd (n : Fin 4)
  /-- R290: A SAR conversion completes; its record is written, and the next entry or a restart follows. -/
  | sarConversionDone (u : Fin 4) (raw : BitVec 16)
  /-- R296: A timer-channel trigger starts the background segment or is handled by POLICY. -/
  | backgroundTrigger (u : Fin 3)
  /-- R173: A timer channel's ZERO, PERIOD or compare event acts through its prescaler. -/
  | tchEvent (n : Fin 64)
  /-- R174: A channel's pending set is applied at its update boundary. -/
  | tchUpdateBoundary (n : Fin 64)
  /-- R316: At the end of each lock window the PLL counts judge lock, loss and reference validity. -/
  | lockWindowEnd (p : Fin 4) (count : Nat) (bypass : Nat) (phi : Int) (ppm : Int)
  /-- R315: Twenty bypass cycles pass without a reference edge, so the reference becomes invalid. -/
  | referenceGap (src : Fin 2)
  /-- R28: An island reaches its handshake boundary and switches between the PLL clock and the bypass clock. -/
  | islandClockSwitch (i : Fin 12)
  /-- R323: The slew brings the phase within 100 ps and the PLL becomes LOCKED. -/
  | phaseRestored (p : Fin 4)
  /-- R320: Time in holdover reaches HOLDOVER_MAX. -/
  | holdoverExceeded
  /-- R328: The 32 kHz crystal has no edge for 1 ms and the wall clock runs on the RC. -/
  | wallclockDegraded
  /-- R328: The crystal has run for 1 s and the wall clock returns to it. -/
  | aonCrystalReturn
  /-- R336: A write to MBX_DOORBELL rings a mailbox doorbell. -/
  | doorbell (m : Fin 16)
  /-- R342: The quad-SPI WRITE instruction writes bytes into a free mailbox buffer. -/
  | qspiWrite (addr : BitVec 24) (data : List Byte)
  /-- R342: The quad-SPI READ instruction reads bytes from a buffer. -/
  | qspiRead (addr : BitVec 24) (n : Nat)
  /-- R342: The quad-SPI DOORBELL instruction rings a mailbox at CS_N rise. -/
  | qspiDoorbell (m : Byte)
  /-- R342: The quad-SPI STATUS instruction returns mailbox state, ready bits and events. -/
  | qspiStatus
  /-- R342: The quad-SPI CLEAR_READY instruction clears REPLY_READY bits. -/
  | qspiClearReady (mask : BitVec 16)
  /-- R342: An invalid quad-SPI transaction is ignored and counted. -/
  | spiError
  /-- R344: A reassembled mailbox datagram rings its mailbox, or is dropped. -/
  | udpDatagram (port : Fin 2) (d : Datagram)
  /-- R344: A datagram not reassembled within 50 ms is dropped. -/
  | fragmentTimeout (port : Fin 2)
  /-- R344: The device answers an ARP request. -/
  | arpRequest (port : Fin 2) (target : BitVec 32) (sender : BitVec 32) (senderMac : BitVec 48)
  /-- R344: The device answers an ICMP echo request. -/
  | icmpEcho (port : Fin 2) (src : BitVec 32) (dst : BitVec 32) (data : List Byte)
  /-- R346: A CAN FD segment is assembled into a message; the LAST segment rings the doorbell. -/
  | canSegment (port : Fin 4) (id : BitVec 29) (data : List Byte)
  /-- R337: The hearth takes a posted command, replays a repeated sequence or executes it. -/
  | mailboxTaken (ecc : Option (BitVec 32))
  /-- R339: A command without reply or ACCEPTED after 100 ms ends with TIMEOUT. -/
  | commandTimeout (m : Fin 16)
  /-- R357: A DMA channel is granted and transfers a burst of at most 64 bytes. -/
  | dmaBurst (ch : Fin 16) (ecc : Option (BitVec 32))
  /-- R358: A faulted channel is aborted after FAULT_TIMEOUT. -/
  | dmaFaultTimeout (ch : Fin 16)
  /-- R373: A ledger flush starts on FLUSH_S or on a request, no sooner than 1 s after the previous one. -/
  | ledgerFlush
  /-- R373: The flush's slot writes and anchor complete, and the commands waiting on it complete. -/
  | flushDone (badBanks : BitVec 3)
  /-- R370: Once per second the hearth adds to each cell's temperature histogram. -/
  | tempHistogramTick
  /-- R376: Every ledger copy is rewritten unchanged at least once in 30 days. -/
  | ledgerRefresh
  /-- R384: The scrubber reads a word and writes back or reports an ECC error. -/
  | scrubStep (err : EccResult)
  /-- R385: The MRAM read-check reads a row and rewrites or reports errors. -/
  | mramReadCheck (err : EccResult)
  /-- R386: A unit is calibrated every 10 s, or forced after 60 s, and CNV_u_CAL is updated. -/
  | sarCalibration (u : Fin 3) (gnd : BitVec 16) (bandgap : BitVec 16) (r1 : BitVec 16) (r2 : BitVec 16)
  /-- R387: Every 100 ms temperature-tracked comparator thresholds are recomputed and queued. -/
  | thresholdTracking
  /-- R388: An equalisation trial starts on a lane. -/
  | eqTrialStart (l : Fin 128)
  /-- R388: After each 1 s hold the trial steps, keeps the best setting or is abandoned. -/
  | eqTrialStep (isl : Fin 2)
  /-- R389: Every 60 s the wear weights are recomputed for the next SOC_COMMIT. -/
  | wearUpdate
  /-- R393: Every TRACE_DIV periods the traced signals are written to the trace ring. -/
  | traceSample
  /-- R405: BIST starts once its preconditions hold, or after they have held for 1 ms. -/
  | bistStart
  /-- R398: A BIST stage completes and its verdicts are formed; the next stage or the result follows. -/
  | bistStageDone (otpOk : Bool) (results : List BistMem)
  /-- R406: A precondition is lost during BIST and the running stage stops. -/
  | bistInterrupt (cond : Fin 9)
  /-- R407: The retest after a soft repair completes with PASS_REPAIRED or FAIL. -/
  | bistRetestDone (mem : Fin 39) (pass : Bool)
  /-- R414: Every rail has been good for 100 µs and the startup timeline begins. -/
  | railsGood
  /-- R414: A rail stays in the ±5 % to ±10 % band for 100 µs. -/
  | railWarning (r : Fin 7)
  /-- R414: A rail outside ±10 % for 2 µs resets the device, inhibits NV writes or trips the safety output stage. -/
  | railFault (r : Fin 7)
  /-- R420: RST_N is low for 1 µs and a PIN reset restarts every domain. -/
  | pinReset
  /-- R421: The watchdog expires; SAFE_REQ_FW is asserted or authority is relinquished, and the reset waits. -/
  | watchdogExpiry
  /-- R421: A hearth lockstep mismatch requests a safe state and a deferred reset. -/
  | lockstepMismatch (pair : Fin 2)
  /-- R421: The pending reset proceeds after 100 ms at or below N_SR or 30 s without speed. -/
  | deferredResetRelease
  /-- R425: A commanded reset takes place within 10 ms of its flush. -/
  | commandedReset
  /-- R419: After the flush every domain except PD_0 is turned off. -/
  | sleepEntry
  /-- R419: An enabled wake source causes a SYSTEM reset with cause WAKE. -/
  | wake (src : Fin 4)
  /-- R418: On entry to STANDBY, after the flush, parked link and conversion domains are turned off. -/
  | domainPark
  /-- R417: A domain finishes powering on and its configuration is reloaded. -/
  | domainUp (d : Fin 10)
  /-- R423: The AON and OTP load step completes. -/
  | otpLoadDone (ok : Bool) (otp : OtpImage)
  /-- R436: The boot ROM chooses and verifies a first-stage image and hands over. -/
  | bootVerifyDone
  /-- R423: The firmware checks its image, selects the ledger, loads the configuration and applies the map. -/
  | firmwareUp
  /-- R424: The identity check completes, READY rises and the mode becomes STANDBY. -/
  | readyReached
  /-- R438: A firmware load session ends 10 s after its last command. -/
  | fwSessionTimeout
  /-- R444: An unlock challenge expires 60 s after issue. -/
  | challengeExpiry
  /-- R444: The 60 s lockout after three failed responses ends. -/
  | authLockoutEnd
  /-- R444: The unlock duration expires and the port relocks. -/
  | debugDurationExpiry
  /-- R444: Verification of a port-submitted response completes and grants a level or counts a failure. -/
  | authVerifyDone
  /-- R445: A breakpoint or watchpoint halts a core pair. -/
  | debugBreak (pair : Fin 2) (addr : BitVec 32) (access : Fin 3)
  /-- R442: The debugger makes a line reset on DBG_IO. -/
  | lineReset
  /-- R442: A debug port request is answered with ACK and data. -/
  | debugTransaction (req : BitVec 8) (data : BitVec 32) (parity : Bool)
  /-- R445: HALT_REQ halts the selected pair at an instruction boundary. -/
  | ddpHaltReq
  /-- R445: RESUME restarts the selected pair. -/
  | ddpResume
  /-- R445: STEP executes one instruction of the selected pair. -/
  | ddpStep
  /-- R444: AUTH_CHAL issues a challenge readable from DDP_AUTH. -/
  | ddpAuthChal
  /-- R444: AUTH_SUBMIT starts verification of the written response. -/
  | ddpAuthSubmit
  /-- R444: LOCK returns the port to level 0. -/
  | ddpLock
  /-- R449: A DDP_AUTH access reads the next challenge word or writes the next response word. -/
  | ddpAuthAccess (write : Bool) (w : BitVec 32)
  /-- R449: A DDP_MEM_DATA access performs a bus access and may increment the address. -/
  | ddpMemDataAccess (write : Bool) (w : BitVec 32)
  /-- R449: A DDP_REG_DATA access reads or writes the selected core register, breakpoint or watchpoint. -/
  | ddpRegDataAccess (write : Bool) (w : BitVec 32)
  /-- R456: AUTH_IN falls and stays low for 1 µs, and a shadow device takes authority. -/
  | authInLow
  /-- R450: AUTH_IN high for 1 µs returns a device in authority to SHADOW. -/
  | authInHigh
  /-- R452: A pair frame is received and checked, and its state is held for the next period. -/
  | pairFrame (f : PairRx)
  /-- R452: HB_MISS consecutive missing frames are counted. -/
  | pairHbLost
  /-- R452: A pair-link lane's error window exceeds 64 and the lane is retired. -/
  | pairLaneFaulty (lane : Fin 4)
  /-- R450: After READY the partner is absent for 50 or 100 ms and the device takes authority. -/
  | pairPartnerAbsent
  /-- R454: The shadow comparison exceeds tolerances for CMP_N periods. -/
  | pairDisagree
  /-- R455: AUTH_IN is not high within 1 ms of relinquishing, and the safe-state and reset rules apply. -/
  | relinquishTimeout
  /-- R457: A SYNC_IN edge gives Δ and may request a phase slew. -/
  | syncInEdge (t : Nat)
  /-- R458: No SYNC_IN edge arrives for 2 × SYNC_DIV periods. -/
  | syncLost
  /-- R459: The master sends a Sync message at its interval. -/
  | ptpSyncSend
  /-- R459: A slave receives a Sync message and adjusts the plant-time offset. -/
  | ptpSyncReceive (m : PtpMsg)
  /-- R462: A pending plant command's action is applied at the first period start at or after AT. -/
  | plantCommandDue
  /-- R9: A write to a register without a row of its own acts by its access type. -/
  | registerWrite (a : BitVec 32) (v : BitVec 32) (by_ : Initiator)
  /-- R179: A read of a _LO word latches the matching _HI word. -/
  | latchedRead (a : BitVec 32)
  /-- R33: An access outside the map, or not a whole word, ends with a bus error. -/
  | unmappedAccess (a : BitVec 32) (by_ : Initiator)
  /-- R31: A write to the SAF_ window or to unit D registers ends with a bus error and is counted. -/
  | safWriteAttempt (a : BitVec 32)
  /-- R30: An access to a powered-off domain ends with a bus error and is recorded. -/
  | offDomainAccess (a : BitVec 32) (by_ : Initiator)
  /-- R400: An access to a memory clamped for self-test ends with a bus error. -/
  | clampAccess (mem : Fin 39)
  /-- R99: A write of 1 to LNK_LANE_nnn_CTRL.RETRAIN starts training. -/
  | lnkRetrain (l : Fin 128)
  /-- R98: A write to the lane injector configuration arms it, or is ignored with DENIED. -/
  | lnkInjCfgWrite (l : Fin 128) (v : BitVec 32)
  /-- R174: A write of 1 to COMMIT copies a timer channel's shadow into the pending set. -/
  | tchCommit (n : Fin 64)
  /-- R174: A write of CNT_MODE from 0 to 1 or 2 applies the shadow and starts the counter. -/
  | tchCntModeStart (n : Fin 64) (mode : Fin 4)
  /-- R186: A write of 1 to DSP_CTRL.SOC_COMMIT commits the soc and wear shadows, which also feed the rainflow
  count. -/
  | socCommit
  /-- R295: A write of 1 to CNV_u_CTRL.START is a software background trigger. -/
  | cnvStart (u : Fin 3)
  /-- R297: A write to CNV_u_URGENT posts a firmware urgent conversion. -/
  | urgentRequest (u : Fin 3) (v : BitVec 32)
  /-- R355: A write of 1 to STU_CTRL.FLUSH empties the translation cache. -/
  | stuFlush
  /-- R358: START begins a DMA transfer from IDLE or ABORTED. -/
  | stuStart (ch : Fin 16)
  /-- R358: RESUME restarts a faulted channel at the faulting word. -/
  | stuResume (ch : Fin 16)
  /-- R358: ABORT ends a faulted channel. -/
  | stuAbort (ch : Fin 16)
  /-- R382: SNAP takes a snapshot of the accumulators at the next period start. -/
  | lgrSnap
  /-- R382: FLUSH requests a ledger flush. -/
  | lgrFlush
  /-- R422: A write of 1 to PWR_WDOG.KICK restarts the watchdog. -/
  | watchdogKick
  /-- R349: Returns grade, firmware, identity and time information. -/
  | systemInfo (m : Msg)
  /-- R350: Returns the payload unchanged. -/
  | echo (m : Msg)
  /-- R425: Requests a SYSTEM or HEARTH reset or SLEEP after a ledger flush. -/
  | reset (m : Msg)
  /-- R351: Lists present or unacknowledged alarms. -/
  | alarmList (m : Msg)
  /-- R352: Acknowledges alarms by ID. -/
  | alarmAck (m : Msg)
  /-- R347: Assigns mailboxes to ports and sets the network and CAN parameters. -/
  | hostPortSet (m : Msg)
  /-- R489: Returns the host port configuration. -/
  | hostPortGet (m : Msg)
  /-- R41: Checks and applies a string map, then runs retraining and identity checks. -/
  | stringMapSet (m : Msg)
  /-- R489: Returns the stored string map. -/
  | stringMapGet (m : Msg)
  /-- R113: Sets the profile sets and per-half-bridge dead times and trim enables. -/
  | gateProfileSet (m : Msg)
  /-- R489: Returns the gate profiles. -/
  | gateProfileGet (m : Msg)
  /-- R153: Sets filters, blanking, retry, cross-blank and thresholds. -/
  | protectionSet (m : Msg)
  /-- R489: Returns the protection configuration. -/
  | protectionGet (m : Msg)
  /-- R155: Sets the speed rule threshold, torque monitor and bleed configuration. -/
  | safetyLimitsSet (m : Msg)
  /-- R489: Returns the safety limits or their defaults. -/
  | safetyLimitsGet (m : Msg)
  /-- R176: Sets Tc, timing, mode thresholds, pulse limits and carriers. -/
  | modulationSet (m : Msg)
  /-- R489: Returns the modulation configuration. -/
  | modulationGet (m : Msg)
  /-- R178: Writes and commits a timer channel's settings. -/
  | timerSet (m : Msg)
  /-- R178: Returns a timer channel's applied set. -/
  | timerGet (m : Msg)
  /-- R203: Sets the dispatch scaling, weights and consensus parameters. -/
  | dispatchSet (m : Msg)
  /-- R489: Returns the dispatch configuration. -/
  | dispatchGet (m : Msg)
  /-- R205: Changes the balancing weights while running. -/
  | dispatchWeights (m : Msg)
  /-- R206: Returns the last window's per-string statistics. -/
  | dispatchStats (m : Msg)
  /-- R232: Loads the control engine schedule, slots, units and scales. -/
  | controlSet (m : Msg)
  /-- R489: Returns the control configuration. -/
  | controlGet (m : Msg)
  /-- R234: Loads the motor model and forms the plausibility coefficients. -/
  | motorModelSet (m : Msg)
  /-- R489: Returns the motor model. -/
  | motorModelGet (m : Msg)
  /-- R56: Sets the peak power and the mode-change ramps. -/
  | driveLimitsSet (m : Msg)
  /-- R489: Returns the drive limits. -/
  | driveLimitsGet (m : Msg)
  /-- R253: Configures the resolver, Halls, axle and input filtering. -/
  | feedbackSet (m : Msg)
  /-- R489: Returns the feedback configuration. -/
  | feedbackGet (m : Msg)
  /-- R269: Configures the start procedure. -/
  | startSet (m : Msg)
  /-- R489: Returns the start configuration or its defaults. -/
  | startGet (m : Msg)
  /-- R271: Aborts a start procedure in progress. -/
  | startAbort (m : Msg)
  /-- R271: Returns the start procedure status. -/
  | startStatus (m : Msg)
  /-- R285: Configures the docking move engine and enables it. -/
  | dockSet (m : Msg)
  /-- R489: Returns the docking configuration. -/
  | dockGet (m : Msg)
  /-- R277: Starts or redirects a docking move to a target. -/
  | dockMove (m : Msg)
  /-- R277: Stops a move on the stop ramp and pauses it. -/
  | dockStop (m : Msg)
  /-- R277: Resumes a paused move. -/
  | dockResume (m : Msg)
  /-- R280: Starts a homing move to the marker. -/
  | dockHome (m : Msg)
  /-- R284: Arms or disarms a position compare. -/
  | dockCompare (m : Msg)
  /-- R286: Sets the axis position frame. -/
  | dockSetPos (m : Msg)
  /-- R286: Returns the docking state and positions. -/
  | dockStatus (m : Msg)
  /-- R308: Loads the SAR tables, decimator and sensor D settings. -/
  | conversionSet (m : Msg)
  /-- R489: Returns the conversion configuration. -/
  | conversionGet (m : Msg)
  /-- R310: Loads the per-cell calibration and records it in the ledger. -/
  | cellCalSet (m : Msg)
  /-- R489: Returns the per-cell calibration. -/
  | cellCalGet (m : Msg)
  /-- R329: Sets the reference selection, slew rate and holdover limit. -/
  | clockSet (m : Msg)
  /-- R489: Returns the clock configuration. -/
  | clockGet (m : Msg)
  /-- R330: Returns the PLL states, phase and holdover data. -/
  | clockStatus (m : Msg)
  /-- R426: Sets the park options, wake sources and watchdog period. -/
  | powerSet (m : Msg)
  /-- R489: Returns the power configuration. -/
  | powerGet (m : Msg)
  /-- R396: Configures push, trace, threshold tracking and wear gains. -/
  | telemetrySet (m : Msg)
  /-- R489: Returns the telemetry configuration. -/
  | telemetryGet (m : Msg)
  /-- R58: Configures grid operation and its protection thresholds. -/
  | gridSet (m : Msg)
  /-- R489: Returns the grid configuration. -/
  | gridGet (m : Msg)
  /-- R63: Sets the active and reactive power setpoints. -/
  | gridSetpoint (m : Msg)
  /-- R64: Returns the grid procedure status. -/
  | gridStatus (m : Msg)
  /-- R53: Requests a mode transition under the transition table. -/
  | modeSet (m : Msg)
  /-- R491: Returns the mode, SAFE sub-state and pending transition. -/
  | modeGet (m : Msg)
  /-- R149: Deasserts BLEED_DRV when the nodes are below 60 V and CRASH_N is inactive. -/
  | bleedRelease (m : Msg)
  /-- R236: Writes host signal entries. -/
  | loopInputSet (m : Msg)
  /-- R237: Changes a loop slot's mode and bank. -/
  | slotModeSet (m : Msg)
  /-- R396: Returns event log records after a serial. -/
  | eventLogRead (m : Msg)
  /-- R396: Returns trace records from the read position. -/
  | traceRead (m : Msg)
  /-- R394: Returns delta-coded cell voltages. -/
  | cellTelemetry (m : Msg)
  /-- R381: Returns a ledger record or time log entries. -/
  | ledgerRead (m : Msg)
  /-- R379: Flushes the ledger and returns a signed meter reading. -/
  | meterReading (m : Msg)
  /-- R378: Logs a host UTC time pair against ledger time. -/
  | timeSet (m : Msg)
  /-- R381: Erases the ledger and commissions it with the first anchor. -/
  | commission (m : Msg)
  /-- R381: Flushes the ledger and returns signed ledger records. -/
  | ledgerExport (m : Msg)
  /-- R381: Accepts a certificate or imports an exported ledger. -/
  | ledgerImport (m : Msg)
  /-- R380: Returns char list entries. -/
  | charListGet (m : Msg)
  /-- R438: Opens a firmware load session with a signed header. -/
  | fwLoadBegin (m : Msg)
  /-- R438: Writes a chunk of the image body. -/
  | fwLoadData (m : Msg)
  /-- R438: Verifies the image and marks its slot TRIAL. -/
  | fwLoadCommit (m : Msg)
  /-- R440: Returns the identity certificate or a signed attestation report. -/
  | attest (m : Msg)
  /-- R444: Issues an unlock challenge through the mailbox. -/
  | debugChallenge (m : Msg)
  /-- R444: Verifies a signed response and sets the debug level. -/
  | debugUnlock (m : Msg)
  /-- R444: Returns the debug port to level 0. -/
  | debugLock (m : Msg)
  /-- R441: Changes the grade to GA, or adds or revokes a key. -/
  | recommission (m : Msg)
  /-- R354: Reads register words through the register window. -/
  | regRead (m : Msg)
  /-- R354: Writes register words through the register window. -/
  | regWrite (m : Msg)
  /-- R150: Self-tests the soft and hard comparators of a cell's switches. -/
  | comparatorTest (m : Msg)
  /-- R348: Writes a lane's fault injector configuration. -/
  | laneInject (m : Msg)
  /-- R463: Injects dropped or delayed pair frames. -/
  | pairInject (m : Msg)
  /-- R410: Reruns BIST by reset, or tests the stage-4 memories in place. -/
  | bistRun (m : Msg)
  /-- R411: Returns the BIST verdicts and soft repairs. -/
  | bistResult (m : Msg)
  /-- R412: Burns selected soft repairs into OTP. -/
  | fuseRepair (m : Msg)
  /-- R461: Configures the redundant pair. -/
  | pairSet (m : Msg)
  /-- R461: Returns the PAI_ registers. -/
  | pairStatus (m : Msg)
  /-- R461: Relinquishes authority to a ready partner. -/
  | pairTakeover (m : Msg)
  /-- R461: Configures plant synchronisation, PTP and the interleave index. -/
  | plantSet (m : Msg)
  /-- R461: Returns the PAI_ registers. -/
  | plantStatus (m : Msg)
  /-- R462: Schedules a mode change or host-entry write at a plant time. -/
  | plantCommand (m : Msg)
  /-- R43: Every 1 ms BYPASS_OPEN is resent to an admitted, formerly silent cell until health code 0x01 reports
  the contactor open. -/
  | bypassOpenTimer (c : Fin 128)
  /-- R150: A comparator self-test bound (1 256 ns, 3.6 µs or 64 µs) runs out, the switch's result is recorded,
  and the test moves on or completes with DONE. -/
  | selftestDeadline (c : Fin 128) (char : Byte)
  /-- R327: A 10 µs watch window of the MODULATION clock counts within ±5 %, which ends the CLOCK_FAULT condition. -/
  | clockFaultClear (count : Nat)
  /-- R344: The SGMII auto-negotiation link status of an Ethernet port changes to up or down. -/
  | ethLinkStatus (port : Fin 2) (up : Bool)
  /-- R459: A slave receives the two-step Follow_Up that carries the precise Sync origin timestamp. -/
  | ptpFollowUpReceive (m : PtpMsg)
  /-- R459: The master receives a Delay_Req, timestamps it and answers with Delay_Resp. -/
  | ptpDelayReqReceive (m : PtpMsg)
  /-- R459: A slave receives a Delay_Resp and updates its path delay for the plant-time offset. -/
  | ptpDelayRespReceive (m : PtpMsg)
  /-- R304: Every R counted bits a decimator produces a free-running output, which feeds the trace and the
  ledger's diode-sign decision. -/
  | freeRunningOutput (c : Fin 128) (v : Int) (i : Int)
  /-- R414: A rail that was outside its window comes back within ±5 %, ending NV write inhibition or a warning
  excursion. -/
  | railReturn (r : Fin 7)
  /-- R420: RST_N returns high and the startup timeline resumes at the AON and OTP load. -/
  | pinResetRelease
  /-- R452: A pair-link lane becomes VALID or stops being VALID, which may take the pair link UP or down. -/
  | pairLaneValid (lane : Fin 4) (valid : Bool)
  deriving DecidableEq, Repr

end Sys2Proof
end

