-- ==== Sys2Proof/Decode.lean ====
section
/-! DEFINITION. Decoding. No row of spec/opcode_table.json gives bits: a command of this block is an event or a message,
not a word, so no word spells one. -/
namespace Sys2Proof

/-- The command that a word of the table's bits spells: the table gives no bits, so none. (DESIGN CHOICE log 177) -/
def decodeTableWord (_nbits _w : Nat) : Option Instr := none

end Sys2Proof
end

