-- ==== Sys2Proof/Machine/Arith.lean ====
section
/-! DEFINITION. Integer arithmetic of the spec: rounding to nearest with ties to even, saturation (R12), sign extension,
bit fields and the integer square root. -/
namespace Sys2Proof.Machine

/-- `n / d` rounded to nearest, ties to even (R12); a zero divisor gives 0. -/
def rne (n : Int) (d : Nat) : Int :=
  let q := n / (d : Int)
  let r := n % (d : Int)
  if 2 * r < d then q else if (d : Int) < 2 * r then q + 1 else if q % 2 = 0 then q else q + 1

/-- `n / d` rounded to nearest, ties to even, for a divisor of either sign. -/
def rneI (n d : Int) : Int := if 0 ≤ d then rne n d.toNat else rne (-n) (-d).toNat

/-- Arithmetic right shift by `k` with the rounding of R12. -/
def rneShift (n : Int) (k : Nat) : Int := rne n (2 ^ k)

/-- Natural-number quotient with the rounding of R12. -/
def rneNat (n d : Nat) : Nat := (rne n d).toNat

/-- Truncation toward zero of `n / d`. -/
def truncDiv (n : Int) (d : Nat) : Int := if 0 ≤ n then n / (d : Int) else -((-n) / (d : Int))

/-- Upward rounding of a quotient of naturals. -/
def ceilDiv (n d : Nat) : Nat := (n + d - 1) / d

/-- Saturation to a closed range (R12). -/
def clampI (lo hi x : Int) : Int := if x < lo then lo else if hi < x then hi else x

/-- Saturation of a natural number. -/
def clampN (lo hi x : Nat) : Nat := if x < lo then lo else if hi < x then hi else x

/-- Saturation to a signed format of `w` bits. -/
def satS (w : Nat) (x : Int) : Int := clampI (-(2 ^ (w - 1) : Nat)) ((2 ^ (w - 1) : Nat) - 1) x

/-- Saturation to an unsigned format of `w` bits. -/
def satU (w : Nat) (x : Int) : Nat := (clampI 0 ((2 ^ w : Nat) - 1) x).toNat

/-- Saturation of a count to `w` bits. -/
def satN (w : Nat) (x : Nat) : Nat := min x (2 ^ w - 1)

/-- The signed value of the low `w` bits of `n`. -/
def toS (w n : Nat) : Int :=
  let m := n % 2 ^ w
  if m < 2 ^ (w - 1) then m else (m : Int) - (2 ^ w : Nat)

/-- The two's complement of `x` in `w` bits. -/
def ofS (w : Nat) (x : Int) : Nat := (x % (2 ^ w : Nat)).toNat

/-- Bits `lo + len - 1` to `lo` of `n`. -/
def bitsOf (n lo len : Nat) : Nat := n / 2 ^ lo % 2 ^ len

/-- Bit `i` of `n`. -/
def bitOf (n i : Nat) : Bool := n / 2 ^ i % 2 == 1

/-- `n` with bit `i` set. -/
def setBit (n i : Nat) : Nat := if bitOf n i then n else n + 2 ^ i

/-- `n` with bit `i` cleared. -/
def clrBit (n i : Nat) : Nat := if bitOf n i then n - 2 ^ i else n

/-- A Boolean as a number. -/
def b2n (b : Bool) : Nat := if b then 1 else 0

/-- Number of bits set among the low `k` bits. -/
def popcount : Nat → Nat → Nat
  | 0, _ => 0
  | k + 1, n => n % 2 + popcount k (n / 2)

/-- One bit of the square root, highest first, `k` bits to go. -/
def isqrtGo : Nat → Nat → Nat → Nat
  | 0, _, r => r
  | k + 1, n, r =>
    let t := r + 2 ^ k
    if t * t ≤ n then isqrtGo k n t else isqrtGo k n r

/-- Floor of the square root, for arguments below 2^128. -/
def isqrt (n : Nat) : Nat := isqrtGo 64 n 0

/-- Square root rounded to nearest. -/
def isqrtRne (n : Nat) : Nat :=
  let r := isqrt n
  if r * r + r < n then r + 1 else r

/-- Absolute value as a natural number. -/
def absN (x : Int) : Nat := x.natAbs

/-- −1, 0 or 1. -/
def sgnI (x : Int) : Int := if x < 0 then -1 else if x = 0 then 0 else 1

/-- The difference of two electrical angles as a signed 16-bit number (R12: 1/65 536 turn). -/
def angDiff (a b : Nat) : Int := toS 16 (ofS 16 ((a : Int) - b))

/-- Sum of a list of integers. -/
def sumI (l : List Int) : Int := l.foldl (· + ·) 0

/-- Sum of a list of naturals. -/
def sumN (l : List Nat) : Nat := l.foldl (· + ·) 0

/-- Insertion into a list sorted by `le`, after its equals. -/
def insertBy {α : Type} (le : α → α → Bool) (x : α) : List α → List α
  | [] => [x]
  | y :: t => if le y x then y :: insertBy le x t else x :: y :: t

/-- Stable insertion sort. -/
def sortBy {α : Type} (le : α → α → Bool) : List α → List α
  | [] => []
  | x :: t =>
    let r := sortBy le t
    -- `x` came before the rest, so it goes before its equals
    insertBy (fun a b => le a b && !le b a) x r

/-- The last `n` elements of a list. -/
def lastN {α : Type} (n : Nat) (l : List α) : List α := l.drop (l.length - n)

/-- Element `i` replaced (a list that is shorter is left alone). -/
def setAt {α : Type} (i : Nat) (v : α) : List α → List α
  | [] => []
  | x :: t => match i with
    | 0 => v :: t
    | j + 1 => x :: setAt j v t

end Sys2Proof.Machine
end

