-- ==== Sys2Proof/Machine/Double.lean ====
section
/-! DEFINITION. Double-precision floating point, the arithmetic of the grid procedure (R61): the values of IEEE 754 binary64
with rounding to nearest, ties to even. -/
namespace Sys2Proof.Machine

/-- A binary64 value: sign, magnitude `m · 2^e`; an infinity; not a number. -/
inductive Dbl where
  | fin (neg : Bool) (m : Nat) (e : Int)
  | inf (neg : Bool)
  | nan
  deriving DecidableEq, Repr

/-- Bits of a natural number, for numbers below 2^4096. -/
def bitLen (n : Nat) : Nat := if n = 0 then 0 else Nat.log2 n + 1

/-- A magnitude `num / den · 2^e` rounded to 53 bits (fewer below 2^-1022). -/
def dblRound (neg : Bool) (num den : Nat) (e : Int) : Dbl :=
  if num = 0 then .fin neg 0 0
  else
    -- scaled so that the quotient has at least 56 bits
    let up := 56 + bitLen den - min (56 + bitLen den) (bitLen num)
    let q := num * 2 ^ up / den
    let sticky := num * 2 ^ up % den != 0
    let l := bitLen q
    let e0 := e - up
    -- the exponent of the last place
    let lsb := max (e0 + (l : Int) - 53) (-1074)
    let sh := (lsb - e0).toNat
    let r := rneNat (2 * q + b2n sticky) (2 ^ (sh + 1))
    if 1024 < lsb + (bitLen r : Int) then .inf neg else .fin neg r lsb

def Dbl.neg : Dbl → Dbl
  | .fin s m e => .fin (!s) m e
  | .inf s => .inf (!s)
  | .nan => .nan

/-- The signed mantissa of a finite value at an exponent not above its own. -/
def Dbl.at (s : Bool) (m : Nat) (e lo : Int) : Int := (if s then -1 else 1) * (m * 2 ^ (e - lo).toNat : Nat)

/-- (DESIGN CHOICE log 113) -/
def Dbl.add (x y : Dbl) : Dbl := match x, y with
  | .nan, _ => .nan
  | _, .nan => .nan
  | .inf s, .inf t => if s = t then .inf s else .nan
  | .inf s, _ => .inf s
  | _, .inf t => .inf t
  | .fin s m e, .fin t n f =>
    let lo := min e f
    let v : Int := Dbl.at s m e lo + Dbl.at t n f lo
    if v = 0 then .fin (s && t) 0 0 else dblRound (decide (v < 0)) v.natAbs 1 lo

def Dbl.sub (x y : Dbl) : Dbl := x.add y.neg

/-- (DESIGN CHOICE log 113) -/
def Dbl.mul (x y : Dbl) : Dbl := match x, y with
  | .nan, _ => .nan
  | _, .nan => .nan
  | .inf s, .inf t => .inf (s != t)
  | .inf s, .fin t n _ => if n = 0 then .nan else .inf (s != t)
  | .fin s m _, .inf t => if m = 0 then .nan else .inf (s != t)
  | .fin s m e, .fin t n f => dblRound (s != t) (m * n) 1 (e + f)

/-- (DESIGN CHOICE log 113) -/
def Dbl.div (x y : Dbl) : Dbl := match x, y with
  | .nan, _ => .nan
  | _, .nan => .nan
  | .inf _, .inf _ => .nan
  | .inf s, .fin t _ _ => .inf (s != t)
  | .fin s _ _, .inf t => .fin (s != t) 0 0
  | .fin s m e, .fin t n f =>
    if n = 0 then (if m = 0 then .nan else .inf (s != t)) else dblRound (s != t) m n (e - f)

/-- Square root. (DESIGN CHOICE log 113) -/
def Dbl.sqrt : Dbl → Dbl
  | .nan => .nan
  | .inf s => if s then .nan else .inf false
  | .fin s m e =>
    if m = 0 then .fin s 0 0
    else if s then .nan
    else
      -- an even exponent, and a radicand of at least 120 bits
      let k := 120 - min 120 (bitLen m)
      let k1 := if (e - (k : Int)) % 2 = 0 then k else k + 1
      let n := m * 2 ^ k1
      let r := isqrtGo 90 n 0
      dblRound false (2 * r + b2n (r * r != n)) 2 ((e - (k1 : Int)) / 2)

/-- Whether `x < y`. -/
def Dbl.lt (x y : Dbl) : Bool := match x, y with
  | .nan, _ => false
  | _, .nan => false
  | .inf s, .inf t => s && !t
  | .inf s, _ => s
  | _, .inf t => !t
  | .fin s m e, .fin t n f =>
    let lo := min e f
    decide (Dbl.at s m e lo < Dbl.at t n f lo)

def Dbl.le (x y : Dbl) : Bool := x.lt y || (match x, y with
  | .fin s m e, .fin t n f =>
    let lo := min e f
    decide (Dbl.at s m e lo = Dbl.at t n f lo)
  | .inf s, .inf t => s == t
  | _, _ => false)

def Dbl.abs : Dbl → Dbl
  | .fin _ m e => .fin false m e
  | .inf _ => .inf false
  | .nan => .nan

def Dbl.zero : Dbl := .fin false 0 0

/-- The quotient of two integers, rounded. -/
def dblQ (n : Int) (d : Nat) : Dbl := dblRound (decide (n < 0)) n.natAbs d 0

def dblI (n : Int) : Dbl := dblQ n 1

/-- The value times `k`, rounded to an integer with ties to even and limited to ± `lim`; not a number gives `nan`.
(DESIGN CHOICE log 180) -/
def Dbl.toInt (x : Dbl) (k : Nat) (lim : Int) (nan : Int) : Int := match x with
  | .nan => nan
  | .inf s => if s then -lim else lim
  | .fin s m e =>
    let v : Int := if 0 ≤ e then ((m * k * 2 ^ e.toNat : Nat) : Int) else rne ((m * k : Nat) : Int) (2 ^ (-e).toNat)
    clampI (-lim) lim (if s then -v else v)

/-- The 64 bits of a value. -/
def Dbl.bits : Dbl → BitVec 64
  | .nan => 0x7FF8000000000000
  | .inf s => BitVec.ofNat 64 (b2n s * 2 ^ 63 + 0x7FF0000000000000)
  | .fin s m e =>
    if m = 0 then BitVec.ofNat 64 (b2n s * 2 ^ 63)
    else
      let l := bitLen m
      let ex := e + (l : Int) - 1
      if ex < -1022 then BitVec.ofNat 64 (b2n s * 2 ^ 63 + m * 2 ^ (e + 1074).toNat)
      else BitVec.ofNat 64 (b2n s * 2 ^ 63 + (ex + 1023).toNat * 2 ^ 52 + m * 2 ^ (53 - l) % 2 ^ 52)

/-- The value that 64 bits encode. -/
def dblOf (b : BitVec 64) : Dbl :=
  let n : Nat := b.toNat
  let s : Bool := n / 2 ^ 63 == 1
  let ex : Nat := n / 2 ^ 52 % 2048
  let f : Nat := n % 2 ^ 52
  if ex = 2047 then (if f = 0 then .inf s else .nan)
  else if ex = 0 then .fin s f (-1074)
  else .fin s (f + 2 ^ 52) ((ex : Int) - 1075)

end Sys2Proof.Machine
end

