-- ==== Sys2Proof/Machine/Bytes.lean ====
section
/-! DEFINITION. Byte strings: little-endian fields (R13), the CRC-8 of R79, the CRC-16 of R88 and the CRC-32 of the
hearth's records. -/
namespace Sys2Proof.Machine

/-- Byte `i` of a payload; 0 beyond its end. -/
def u8 (b : List Byte) (i : Nat) : Nat := (b.getD i 0).toNat

/-- Little-endian value of the bytes of a list. -/
def leNat : List Byte → Nat
  | [] => 0
  | x :: t => x.toNat + 256 * leNat t

/-- Big-endian value of the bytes of a list. -/
def beNat (l : List Byte) : Nat := l.foldl (fun a x => a * 256 + x.toNat) 0

/-- Little-endian unsigned field of `n` bytes at offset `i`. -/
def uN (n : Nat) (b : List Byte) (i : Nat) : Nat := leNat ((b.drop i).take n)

def u16 (b : List Byte) (i : Nat) : Nat := uN 2 b i
def u32 (b : List Byte) (i : Nat) : Nat := uN 4 b i
def u48 (b : List Byte) (i : Nat) : Nat := uN 6 b i
def u64 (b : List Byte) (i : Nat) : Nat := uN 8 b i
def i16 (b : List Byte) (i : Nat) : Int := toS 16 (u16 b i)
def i32 (b : List Byte) (i : Nat) : Int := toS 32 (u32 b i)
def i64 (b : List Byte) (i : Nat) : Int := toS 64 (u64 b i)

/-- The `n` low bytes of a number, least significant first. -/
def le : Nat → Nat → List Byte
  | 0, _ => []
  | k + 1, v => BitVec.ofNat 8 v :: le k (v / 256)

/-- The `n` low bytes of a number, most significant first. -/
def be (n v : Nat) : List Byte := (le n v).reverse

/-- A signed number in `n` bytes, least significant first. -/
def leI (n : Nat) (v : Int) : List Byte := le n (ofS (8 * n) v)

/-- `n` zero bytes. -/
def zeros (n : Nat) : List Byte := List.replicate n 0

/-- The bytes of `n` reply words (R334). -/
def words (l : List Nat) : List Byte := l.flatMap (le 4)

/-- Whether the `n` bytes at offset `i` are 0. -/
def zeroAt (b : List Byte) (i n : Nat) : Bool := ((b.drop i).take n).all (fun x => x == 0)

/-- The offset of a field of `n` bytes that is not 0 (R490). (DEDUCED log 188) -/
def firstNonZero (b : List Byte) (i n : Nat) : Option Nat := if zeroAt b i n then none else some i

/-- Offset of the first of the `n` bytes at offset `i` that is not 0. -/
def firstByte (b : List Byte) (i n : Nat) : Option Nat :=
  ((b.drop i).take n).findIdx? (fun x => x != 0) |>.map (· + i)

/-- A list padded with zero bytes, or cut, to `n` bytes. -/
def fit (n : Nat) (b : List Byte) : List Byte := (b.take n) ++ zeros (n - b.length)

/-- The bytes of `b` replaced from offset `i` on by `v`. -/
def splice (b : List Byte) (i : Nat) (v : List Byte) : List Byte := b.take i ++ v ++ b.drop (i + v.length)

/-- `k` steps of a bit-serial CRC of width `w`, most significant bit first. -/
def crcStep (w poly : Nat) : Nat → Nat → Nat
  | 0, r => r
  | k + 1, r =>
    let r2 := r * 2
    crcStep w poly k (if 2 ^ w ≤ r2 then (r2 % 2 ^ w) ^^^ poly else r2)

/-- CRC of a byte string, each byte most significant bit first. -/
def crcMsb (w poly init : Nat) (b : List Byte) : Nat :=
  b.foldl (fun r x => crcStep w poly 8 (r ^^^ (x.toNat * 2 ^ (w - 8)))) init

/-- CRC-8 of R79: polynomial 0x07, initial value 0xFF. -/
def crc8 (b : List Byte) : Nat := crcMsb 8 0x07 0xFF b

/-- CRC-16 of R88: polynomial 0x1021, initial value 0xFFFF. -/
def crc16 (b : List Byte) : Nat := crcMsb 16 0x1021 0xFFFF b

/-- `k` steps of a reflected CRC. -/
def crcStepR (poly : Nat) : Nat → Nat → Nat
  | 0, r => r
  | k + 1, r => crcStepR poly k (if r % 2 = 1 then (r / 2) ^^^ poly else r / 2)

/-- CRC-32 of IEEE 802.3, reflected, with initial value and final XOR of all ones. -/
def crc32 (b : List Byte) : Nat :=
  (b.foldl (fun r x => crcStepR 0xEDB88320 8 (r ^^^ x.toNat)) 0xFFFFFFFF) ^^^ 0xFFFFFFFF

end Sys2Proof.Machine
end

