-- ==== Sys2Proof/Machine/Crypto.lean ====
section
/-! DEFINITION. SHA-384 and the ECDSA P-384 verification that the verify engine of the SEC_ block runs (R429, R431 to
R434, R372). The spec names both algorithms; their constants are those of FIPS 180-4 and FIPS 186-4. -/
namespace Sys2Proof.Machine

def sha384K0 : List Nat :=
  [0x428A2F98D728AE22, 0x7137449123EF65CD, 0xB5C0FBCFEC4D3B2F, 0xE9B5DBA58189DBBC,
   0x3956C25BF348B538, 0x59F111F1B605D019, 0x923F82A4AF194F9B, 0xAB1C5ED5DA6D8118,
   0xD807AA98A3030242, 0x12835B0145706FBE, 0x243185BE4EE4B28C, 0x550C7DC3D5FFB4E2,
   0x72BE5D74F27B896F, 0x80DEB1FE3B1696B1, 0x9BDC06A725C71235, 0xC19BF174CF692694,
   0xE49B69C19EF14AD2, 0xEFBE4786384F25E3, 0x0FC19DC68B8CD5B5, 0x240CA1CC77AC9C65]

def sha384K1 : List Nat :=
  [0x2DE92C6F592B0275, 0x4A7484AA6EA6E483, 0x5CB0A9DCBD41FBD4, 0x76F988DA831153B5,
   0x983E5152EE66DFAB, 0xA831C66D2DB43210, 0xB00327C898FB213F, 0xBF597FC7BEEF0EE4,
   0xC6E00BF33DA88FC2, 0xD5A79147930AA725, 0x06CA6351E003826F, 0x142929670A0E6E70,
   0x27B70A8546D22FFC, 0x2E1B21385C26C926, 0x4D2C6DFC5AC42AED, 0x53380D139D95B3DF,
   0x650A73548BAF63DE, 0x766A0ABB3C77B2A8, 0x81C2C92E47EDAEE6, 0x92722C851482353B]

def sha384K2 : List Nat :=
  [0xA2BFE8A14CF10364, 0xA81A664BBC423001, 0xC24B8B70D0F89791, 0xC76C51A30654BE30,
   0xD192E819D6EF5218, 0xD69906245565A910, 0xF40E35855771202A, 0x106AA07032BBD1B8,
   0x19A4C116B8D2D0C8, 0x1E376C085141AB53, 0x2748774CDF8EEB99, 0x34B0BCB5E19B48A8,
   0x391C0CB3C5C95A63, 0x4ED8AA4AE3418ACB, 0x5B9CCA4F7763E373, 0x682E6FF3D6B2B8A3,
   0x748F82EE5DEFB2FC, 0x78A5636F43172F60, 0x84C87814A1F0AB72, 0x8CC702081A6439EC]

def sha384K3 : List Nat :=
  [0x90BEFFFA23631E28, 0xA4506CEBDE82BDE9, 0xBEF9A3F7B2C67915, 0xC67178F2E372532B,
   0xCA273ECEEA26619C, 0xD186B8C721C0C207, 0xEADA7DD6CDE0EB1E, 0xF57D4F7FEE6ED178,
   0x06F067AA72176FBA, 0x0A637DC5A2C898A6, 0x113F9804BEF90DAE, 0x1B710B35131C471B,
   0x28DB77F523047D84, 0x32CAAB7B40C72493, 0x3C9EBE0A15C9BEBC, 0x431D67C49C100D4C,
   0x4CC5D4BECB3E42B6, 0x597F299CFC657E2A, 0x5FCB6FAB3AD6FAEC, 0x6C44198C4A475817]

/-- The 80 round constants. (PRESUMED log 20) -/
def sha384K : List Nat := sha384K0 ++ sha384K1 ++ sha384K2 ++ sha384K3

/-- The initial hash value. (PRESUMED log 20) -/
def sha384H : List Nat :=
  [0xCBBB9D5DC1059ED8, 0x629A292A367CD507, 0x9159015A3070DD17, 0x152FECD8F70E5939,
   0x67332667FFC00B31, 0x8EB44A8768581511, 0xDB0C2E0D64F98FA7, 0x47B5481DBEFA4FA4]

/-- Addition modulo 2^64. -/
def add64 (a b : Nat) : Nat := (a + b) % 2 ^ 64

/-- Rotation of a 64-bit word to the right. -/
def rotr64 (k x : Nat) : Nat := x / 2 ^ k + x % 2 ^ k * 2 ^ (64 - k)

/-- The message schedule, newest word first: `k` words to go. -/
def sha384Sched : Nat → List Nat → List Nat
  | 0, w => w
  | k + 1, w =>
    let w2 := w.getD 1 0
    let w15 := w.getD 14 0
    let s1 := rotr64 19 w2 ^^^ rotr64 61 w2 ^^^ (w2 / 2 ^ 6)
    let s0 := rotr64 1 w15 ^^^ rotr64 8 w15 ^^^ (w15 / 2 ^ 7)
    sha384Sched k (add64 (add64 s1 (w.getD 6 0)) (add64 s0 (w.getD 15 0)) :: w)

/-- One round. -/
def sha384Round (s : List Nat) (kw : Nat × Nat) : List Nat :=
  match s with
  | [a, b, c, d, e, f, g, h] =>
    let e1 := rotr64 14 e ^^^ rotr64 18 e ^^^ rotr64 41 e
    let ch := (e &&& f) ^^^ ((e ^^^ (2 ^ 64 - 1)) &&& g)
    let t1 := add64 (add64 (add64 h e1) (add64 ch kw.1)) kw.2
    let e0 := rotr64 28 a ^^^ rotr64 34 a ^^^ rotr64 39 a
    let mj := (a &&& b) ^^^ (a &&& c) ^^^ (b &&& c)
    [add64 t1 (add64 e0 mj), a, b, c, add64 d t1, e, f, g]
  | _ => s

/-- One 128-byte block. -/
def sha384Block (hs : List Nat) (blk : List Byte) : List Nat :=
  let w0 := (List.range 16).map (fun i => beNat ((blk.drop (8 * i)).take 8))
  let w := (sha384Sched 64 w0.reverse).reverse
  List.zipWith add64 hs ((sha384K.zip w).foldl sha384Round hs)

/-- Blocks of a padded message, `k` of them. -/
def sha384Blocks : Nat → List Nat → List Byte → List Nat
  | 0, hs, _ => hs
  | k + 1, hs, b => sha384Blocks k (sha384Block hs (b.take 128)) (b.drop 128)

/-- SHA-384 of a byte string: 48 bytes. (PRESUMED log 20) -/
def sha384 (b : List Byte) : List Byte :=
  let n := b.length
  let pad := (239 - n % 128) % 128
  let m := b ++ (0x80#8 :: zeros pad) ++ be 16 (8 * n)
  ((sha384Blocks (m.length / 128) sha384H m).take 6).flatMap (be 8)

/-- The field prime of P-384. (PRESUMED log 20) -/
def p384P : Nat := 2 ^ 384 - 2 ^ 128 - 2 ^ 96 + 2 ^ 32 - 1

/-- The group order. (PRESUMED log 20) -/
def p384N : Nat :=
  0xFFFFFFFFFFFFFFFFFFFFFFFFFFFFFFFFFFFFFFFFFFFFFFFFC7634D81F4372DDF581A0DB248B0A77AECEC196ACCC52973

/-- The coefficient b; a is −3. -/
def p384B : Nat :=
  0xB3312FA7E23EE7E4988E056BE3F82D19181D9C6EFE8141120314088F5013875AC656398D8A2ED19D2A85C8EDD3EC2AEF

/-- The base point. (PRESUMED log 20) -/
def p384G : Nat × Nat :=
  (0xAA87CA22BE8B05378EB1C71EF320AD746E1D3B628BA79B9859F741E082542A385502F25DBF55296C3A545E3872760AB7,
   0x3617DE4A96262C6F5D9E98BF9292DC29F8F41DBD289A147CE9DA3113B5F0B8C00A60B1CE1D7E819D7A431D7C90EA0E5F)

/-- `b ^ e mod m`, `k` bits of the exponent to go. -/
def powMod : Nat → Nat → Nat → Nat → Nat
  | 0, _, _, _ => 1
  | k + 1, b, e, m =>
    let r := powMod k (b * b % m) (e / 2) m
    if e % 2 = 1 then r * b % m else r

/-- The inverse modulo a prime of 384 bits. -/
def invMod (x m : Nat) : Nat := powMod 384 (x % m) (m - 2) m

/-- A point of the curve in Jacobian coordinates: `(x, y, z)` stands for `(x / z², y / z³)`, z = 0 for the point at
infinity. -/
abbrev JPoint := Nat × Nat × Nat

/-- Difference modulo the field prime. -/
def subP (a b : Nat) : Nat := (a + (p384P - b % p384P)) % p384P

/-- Product modulo the field prime. -/
def mulP (a b : Nat) : Nat := a * b % p384P

/-- The double of a point (the coefficient a is −3). -/
def p384Dbl (p : JPoint) : JPoint :=
  let d := mulP p.2.2 p.2.2
  let g := mulP p.2.1 p.2.1
  let b := mulP p.1 g
  let a := mulP (3 * subP p.1 d) (p.1 + d)
  let x := subP (a * a) (8 * b)
  (x, subP (a * subP (4 * b) x) (8 * g * g), mulP (2 * p.2.1) p.2.2)

/-- Sum of two points. -/
def p384Add (p q : JPoint) : JPoint :=
  if p.2.2 = 0 then q
  else if q.2.2 = 0 then p
  else
    let zp := mulP p.2.2 p.2.2
    let zq := mulP q.2.2 q.2.2
    let u := mulP p.1 zq
    let s := mulP (mulP p.2.1 q.2.2) zq
    let h := subP (q.1 * zp) u
    let r := subP (mulP q.2.1 p.2.2 * zp) s
    if h = 0 then (if r = 0 then p384Dbl p else (1, 1, 0))
    else
      let h2 := mulP h h
      let h3 := mulP h h2
      let v := mulP u h2
      let x := subP (r * r) (h3 + 2 * v)
      (x, subP (r * subP v x) (s * h3), mulP (mulP p.2.2 q.2.2) h)

/-- `m × p + n × q`, `k` bits to go from the highest on. -/
def p384Mul2 (m n : Nat) (p q : JPoint) : Nat → JPoint → JPoint
  | 0, a => a
  | k + 1, a =>
    let d := p384Dbl a
    let d1 := if m / 2 ^ k % 2 = 1 then p384Add d p else d
    p384Mul2 m n p q k (if n / 2 ^ k % 2 = 1 then p384Add d1 q else d1)

/-- ECDSA verification: public key, digest of 48 bytes, r and s. (PRESUMED log 20) -/
def ecdsaVerify (key digest : List Byte) (r s : Nat) : Bool :=
  let qx := beNat ((key.drop 1).take 48)
  let qy := beNat ((key.drop 49).take 48)
  let z := beNat digest
  let onCurve := decide ((qy * qy) % p384P = (qx * qx * qx + (p384P - 3) * qx + p384B) % p384P)
  let ok := u8 key 0 == 4 && decide (key.length = 97) && onCurve && decide (qx < p384P) && decide (qy < p384P)
    && decide (0 < r) && decide (r < p384N) && decide (0 < s) && decide (s < p384N)
  ok &&
    (let w := invMod s p384N
     let g : JPoint := (p384G.1, p384G.2, 1)
     let a := p384Mul2 (z * w % p384N) (r * w % p384N) g (qx, qy, 1) 384 (1, 1, 0)
     a.2.2 != 0 && decide (mulP a.1 (invMod (mulP a.2.2 a.2.2) p384P) % p384N = r))

end Sys2Proof.Machine
end

