-- ==== Sys2Proof/Config.lean ====
section
/-! DEFINITION. What the spec leaves open: values no proof can see (log entries 2 and following). Each is a constant
without a body, applied to what it depends on, or to a counter of the state for a fresh value each time. -/
namespace Sys2Proof.Config

/-- The bytes of the boot ROM (R33); the spec gives no contents. (DESIGN CHOICE log 7) -/
opaque romByte : Nat → Byte

/-- The signature the signing engine forms over a digest (R430); it rests on the identity key, which cannot be read.
(DESIGN CHOICE log 21) -/
opaque signature : List Byte → Nat → List Byte

/-- A fresh 32-bit value where the spec leaves one open. (DESIGN CHOICE log 2) -/
opaque freeWord : Nat → BitVec 32

/-- A fresh 64-bit value where the spec leaves one open. (DESIGN CHOICE log 2) -/
opaque freeWord64 : Nat → BitVec 64

/-- The on-die random source (R444): the 32 bytes of the n-th draw. (DESIGN CHOICE log 21) -/
opaque random : Nat → List Byte

/-- The certificate of the identity key (R440), DER, at most 1 024 bytes. (DESIGN CHOICE log 21) -/
opaque certificate : List Byte

/-- Verification of a device certificate against the hash of the CA key (R440): the serial number and the public key it
carries, none where it does not verify. The spec names X.509 and gives no encoding. (DESIGN CHOICE log 21) -/
opaque certKey : List Byte → List Byte → Option (Nat × List Byte)

/-- A plausibility coefficient whose value num / den no coefficient holds (R235): mantissa and shift.
(DESIGN CHOICE log 86) -/
opaque bigCoef : Nat → Nat → BitVec 32

/-- Sine, cosine and arctangent of double-precision values (R61): the spec gives their accuracy nowhere.
(DESIGN CHOICE log 113) -/
opaque sinD : BitVec 64 → BitVec 64
/-- (DESIGN CHOICE log 113) -/
opaque cosD : BitVec 64 → BitVec 64
/-- (DESIGN CHOICE log 113) -/
opaque atan2D : BitVec 64 → BitVec 64 → BitVec 64

/-- The SOURCE code of a trace source (R393): 0 to 7 the signal entries of TRACE_SIG, 8 to 11 the cells of TRACE_CELL.
(DESIGN CHOICE log 132) -/
opaque traceSource : Nat → BitVec 8

/-- The 8 data bytes of a trace record from what its source gave (R393). (DESIGN CHOICE log 132) -/
opaque traceData : Nat → List Byte → List Byte

/-- A register of a core after it executed an instruction or ran (R445): the spec gives the cores' instructions no
meaning. (DESIGN CHOICE log 162) -/
opaque coreReg : Nat → Nat → BitVec 32

end Sys2Proof.Config
end

