-- ==== Sys2Proof/Machine/Regs.lean ====
section
/-! DEFINITION. The register maps of the spec (R8, R9, R99, R100, R119, R157, R158, R179, R207, R238, R255, R287,
R311, R312, R331, R362, R363, R382, R397, R413, R428, R448, R449, R465): for every register its address, for every
named field its place, and one row per register (or array of registers) with its reset value and the access masks of
R9. Names are the manual's, without the instance index. -/
namespace Sys2Proof.Machine

/-- A bit field: word address, lowest bit, number of bits (R8). -/
structure Field where
  addr : Nat
  lo : Nat
  len : Nat
  deriving DecidableEq, Repr

/-- One row of a register map (R9): registers at `base + stride * i` for `i < count`; reset value; the bits that are
read-write or power-on read-write (`rw`), write-one-to-clear (`w1c`), write-only (`wo`). The other bits are read-only. -/
structure RegRow where
  base : Nat
  stride : Nat
  count : Nat
  reset : Nat
  rw : Nat
  w1c : Nat
  wo : Nat
  deriving DecidableEq, Repr

abbrev LNK_LANE_CTRL.a (n : Nat) : Nat := 0x40020000 + 0x80 * n
abbrev LNK_LANE_CTRL.ENABLE (n : Nat) : Field := ⟨LNK_LANE_CTRL.a n, 0, 1⟩
abbrev LNK_LANE_CTRL.DRIVE (n : Nat) : Field := ⟨LNK_LANE_CTRL.a n, 1, 1⟩
abbrev LNK_LANE_CTRL.RETRAIN (n : Nat) : Field := ⟨LNK_LANE_CTRL.a n, 2, 1⟩
abbrev LNK_LANE_STATUS.a (n : Nat) : Nat := 0x40020004 + 0x80 * n
abbrev LNK_LANE_STATUS.STATE (n : Nat) : Field := ⟨LNK_LANE_STATUS.a n, 0, 3⟩
abbrev LNK_LANE_STATUS.ALIGNED (n : Nat) : Field := ⟨LNK_LANE_STATUS.a n, 3, 1⟩
abbrev LNK_LANE_STATUS.PAD_ACKED (n : Nat) : Field := ⟨LNK_LANE_STATUS.a n, 4, 1⟩
abbrev LNK_LANE_STATUS.MSG_BUSY (n : Nat) : Field := ⟨LNK_LANE_STATUS.a n, 5, 1⟩
abbrev LNK_LANE_STATUS.MSG_TRIES (n : Nat) : Field := ⟨LNK_LANE_STATUS.a n, 6, 2⟩
abbrev LNK_LANE_STATUS.FAR_ROLE (n : Nat) : Field := ⟨LNK_LANE_STATUS.a n, 8, 2⟩
abbrev LNK_LANE_STATUS.BYPASS_CLOSED (n : Nat) : Field := ⟨LNK_LANE_STATUS.a n, 10, 1⟩
abbrev LNK_LANE_STATUS.HARD_LATCH (n : Nat) : Field := ⟨LNK_LANE_STATUS.a n, 11, 4⟩
abbrev LNK_LANE_EVENT.a (n : Nat) : Nat := 0x40020008 + 0x80 * n
abbrev LNK_LANE_EVENT.DOWN (n : Nat) : Field := ⟨LNK_LANE_EVENT.a n, 0, 1⟩
abbrev LNK_LANE_EVENT.FAULTY (n : Nat) : Field := ⟨LNK_LANE_EVENT.a n, 1, 1⟩
abbrev LNK_LANE_EVENT.MSG_FAIL (n : Nat) : Field := ⟨LNK_LANE_EVENT.a n, 2, 1⟩
abbrev LNK_LANE_EVENT.TIMING_FAIL (n : Nat) : Field := ⟨LNK_LANE_EVENT.a n, 3, 1⟩
abbrev LNK_LANE_EVENT.HARD_TRIP (n : Nat) : Field := ⟨LNK_LANE_EVENT.a n, 4, 1⟩
abbrev LNK_LANE_EVENT.SPACING (n : Nat) : Field := ⟨LNK_LANE_EVENT.a n, 5, 1⟩
abbrev LNK_LANE_EVENT.UNKNOWN_RECORD (n : Nat) : Field := ⟨LNK_LANE_EVENT.a n, 6, 1⟩
abbrev LNK_LANE_EVENT.BYPASS_UNCONFIRMED (n : Nat) : Field := ⟨LNK_LANE_EVENT.a n, 7, 1⟩
abbrev LNK_LANE_EVENT.PROTOCOL_ERROR (n : Nat) : Field := ⟨LNK_LANE_EVENT.a n, 8, 1⟩
abbrev LNK_LANE_RTT.a (n : Nat) : Nat := 0x4002000C + 0x80 * n
abbrev LNK_LANE_RTT.RTT (n : Nat) : Field := ⟨LNK_LANE_RTT.a n, 0, 16⟩
abbrev LNK_LANE_PAD.a (n : Nat) : Nat := 0x40020010 + 0x80 * n
abbrev LNK_LANE_PAD.DN_PAD (n : Nat) : Field := ⟨LNK_LANE_PAD.a n, 0, 10⟩
abbrev LNK_LANE_PAD.UP_PAD (n : Nat) : Field := ⟨LNK_LANE_PAD.a n, 16, 10⟩
abbrev LNK_LANE_ERR_WINDOW.a (n : Nat) : Nat := 0x40020014 + 0x80 * n
abbrev LNK_LANE_ERR_WINDOW.SUM (n : Nat) : Field := ⟨LNK_LANE_ERR_WINDOW.a n, 0, 8⟩
abbrev LNK_LANE_ERR_WINDOW.BUCKET (n : Nat) : Field := ⟨LNK_LANE_ERR_WINDOW.a n, 8, 4⟩
abbrev LNK_LANE_ERR_COUNT.a (n : Nat) : Nat := 0x40020018 + 0x80 * n
abbrev LNK_LANE_ERR_COUNT.CODE_VIOL (n : Nat) : Field := ⟨LNK_LANE_ERR_COUNT.a n, 0, 16⟩
abbrev LNK_LANE_ERR_COUNT.CRC_FAIL (n : Nat) : Field := ⟨LNK_LANE_ERR_COUNT.a n, 16, 16⟩
abbrev LNK_LANE_SERIAL_LO.a (n : Nat) : Nat := 0x4002001C + 0x80 * n
abbrev LNK_LANE_SERIAL_LO.SERIAL (n : Nat) : Field := ⟨LNK_LANE_SERIAL_LO.a n, 0, 32⟩
abbrev LNK_LANE_SERIAL_HI.a (n : Nat) : Nat := 0x40020020 + 0x80 * n
abbrev LNK_LANE_SERIAL_HI.SERIAL (n : Nat) : Field := ⟨LNK_LANE_SERIAL_HI.a n, 0, 32⟩
abbrev LNK_LANE_INJ_CFG.a (n : Nat) : Nat := 0x40020024 + 0x80 * n
abbrev LNK_LANE_INJ_CFG.MODE (n : Nat) : Field := ⟨LNK_LANE_INJ_CFG.a n, 0, 2⟩
abbrev LNK_LANE_INJ_CFG.DIR (n : Nat) : Field := ⟨LNK_LANE_INJ_CFG.a n, 2, 1⟩
abbrev LNK_LANE_INJ_CFG.BIT (n : Nat) : Field := ⟨LNK_LANE_INJ_CFG.a n, 3, 4⟩
abbrev LNK_LANE_INJ_CFG.RATE (n : Nat) : Field := ⟨LNK_LANE_INJ_CFG.a n, 7, 5⟩
abbrev LNK_LANE_INJ_CFG.LIMIT (n : Nat) : Field := ⟨LNK_LANE_INJ_CFG.a n, 12, 16⟩
abbrev LNK_LANE_INJ_STATUS.a (n : Nat) : Nat := 0x40020028 + 0x80 * n
abbrev LNK_LANE_INJ_STATUS.INJECTED (n : Nat) : Field := ⟨LNK_LANE_INJ_STATUS.a n, 0, 24⟩
abbrev LNK_LANE_INJ_STATUS.DENIED (n : Nat) : Field := ⟨LNK_LANE_INJ_STATUS.a n, 24, 1⟩
abbrev LNK_LANE_INJ_STATUS.ACTIVE (n : Nat) : Field := ⟨LNK_LANE_INJ_STATUS.a n, 25, 1⟩
abbrev LNK_LANE_EQ.a (n : Nat) : Nat := 0x4002002C + 0x80 * n
abbrev LNK_LANE_EQ.TX_EMPH (n : Nat) : Field := ⟨LNK_LANE_EQ.a n, 0, 8⟩
abbrev LNK_LANE_EQ.RX_EQ (n : Nat) : Field := ⟨LNK_LANE_EQ.a n, 8, 8⟩
abbrev LNK_LANE_EQ.AUTO (n : Nat) : Field := ⟨LNK_LANE_EQ.a n, 16, 1⟩
abbrev LNK_VALID_MAP_0.a : Nat := 0x40030000
abbrev LNK_VALID_MAP_0.VALID : Field := ⟨LNK_VALID_MAP_0.a, 0, 32⟩
abbrev LNK_VALID_MAP_1.a : Nat := 0x40030004
abbrev LNK_VALID_MAP_1.VALID : Field := ⟨LNK_VALID_MAP_1.a, 0, 32⟩
abbrev LNK_VALID_MAP_2.a : Nat := 0x40030008
abbrev LNK_VALID_MAP_2.VALID : Field := ⟨LNK_VALID_MAP_2.a, 0, 32⟩
abbrev LNK_VALID_MAP_3.a : Nat := 0x4003000C
abbrev LNK_VALID_MAP_3.VALID : Field := ⟨LNK_VALID_MAP_3.a, 0, 32⟩
abbrev LNK_FAULTY_MAP_0.a : Nat := 0x40030010
abbrev LNK_FAULTY_MAP_0.FAULTY : Field := ⟨LNK_FAULTY_MAP_0.a, 0, 32⟩
abbrev LNK_FAULTY_MAP_1.a : Nat := 0x40030014
abbrev LNK_FAULTY_MAP_1.FAULTY : Field := ⟨LNK_FAULTY_MAP_1.a, 0, 32⟩
abbrev LNK_FAULTY_MAP_2.a : Nat := 0x40030018
abbrev LNK_FAULTY_MAP_2.FAULTY : Field := ⟨LNK_FAULTY_MAP_2.a, 0, 32⟩
abbrev LNK_FAULTY_MAP_3.a : Nat := 0x4003001C
abbrev LNK_FAULTY_MAP_3.FAULTY : Field := ⟨LNK_FAULTY_MAP_3.a, 0, 32⟩
abbrev LNK_FRAME_COUNT.a : Nat := 0x40030020
abbrev LNK_FRAME_COUNT.FRAMES : Field := ⟨LNK_FRAME_COUNT.a, 0, 32⟩
abbrev GDP_CTRL.a : Nat := 0x40040000
abbrev GDP_CTRL.TRIM_EN : Field := ⟨GDP_CTRL.a, 0, 1⟩
abbrev GDP_MARGIN.a : Nat := 0x40040004
abbrev GDP_MARGIN.PL_MARGIN : Field := ⟨GDP_MARGIN.a, 0, 8⟩
abbrev GDP_MARGIN.DT_MARGIN : Field := ⟨GDP_MARGIN.a, 16, 8⟩
abbrev GDP_EVENT.a : Nat := 0x40040008
abbrev GDP_EVENT.INTERLOCK_REJECT : Field := ⟨GDP_EVENT.a, 0, 1⟩
abbrev GDP_EVENT.STEP_DEFERRED : Field := ⟨GDP_EVENT.a, 1, 1⟩
abbrev GDP_EVENT.TRIM_LIMIT : Field := ⟨GDP_EVENT.a, 2, 1⟩
abbrev GDP_EVENT.ECHO_SATURATED : Field := ⟨GDP_EVENT.a, 3, 1⟩
abbrev GDP_REJECT_LAST.a : Nat := 0x4004000C
abbrev GDP_REJECT_LAST.HB : Field := ⟨GDP_REJECT_LAST.a, 0, 8⟩
abbrev GDP_REJECT_LAST.REQ : Field := ⟨GDP_REJECT_LAST.a, 8, 3⟩
abbrev GDP_REJECT_LAST.KIND : Field := ⟨GDP_REJECT_LAST.a, 11, 1⟩
abbrev GDP_REJECT_LAST.COUNT : Field := ⟨GDP_REJECT_LAST.a, 16, 16⟩
abbrev GDP_SET_ON.a (k : Nat) : Nat := 0x40040100 + 0x8 * k
abbrev GDP_SET_ON.T_PC (k : Nat) : Field := ⟨GDP_SET_ON.a k, 0, 5⟩
abbrev GDP_SET_ON.T_PL (k : Nat) : Field := ⟨GDP_SET_ON.a k, 8, 9⟩
abbrev GDP_SET_OFF.a (k : Nat) : Nat := 0x40040104 + 0x8 * k
abbrev GDP_SET_OFF.T_PC (k : Nat) : Field := ⟨GDP_SET_OFF.a k, 0, 5⟩
abbrev GDP_SET_OFF.T_PL (k : Nat) : Field := ⟨GDP_SET_OFF.a k, 8, 9⟩
abbrev GDP_HB_CFG.a (n : Nat) : Nat := 0x40041000 + 0x10 * n
abbrev GDP_HB_CFG.SET (n : Nat) : Field := ⟨GDP_HB_CFG.a n, 0, 3⟩
abbrev GDP_HB_CFG.TRIM_EN (n : Nat) : Field := ⟨GDP_HB_CFG.a n, 3, 1⟩
abbrev GDP_HB_CFG.DT_RISE (n : Nat) : Field := ⟨GDP_HB_CFG.a n, 4, 10⟩
abbrev GDP_HB_CFG.DT_FALL (n : Nat) : Field := ⟨GDP_HB_CFG.a n, 14, 10⟩
abbrev GDP_HB_TRIM_PL.a (n : Nat) : Nat := 0x40041004 + 0x10 * n
abbrev GDP_HB_TRIM_PL.PL_ON (n : Nat) : Field := ⟨GDP_HB_TRIM_PL.a n, 0, 9⟩
abbrev GDP_HB_TRIM_PL.PL_OFF (n : Nat) : Field := ⟨GDP_HB_TRIM_PL.a n, 16, 9⟩
abbrev GDP_HB_TRIM_DT.a (n : Nat) : Nat := 0x40041008 + 0x10 * n
abbrev GDP_HB_TRIM_DT.DT_RISE (n : Nat) : Field := ⟨GDP_HB_TRIM_DT.a n, 0, 10⟩
abbrev GDP_HB_TRIM_DT.DT_FALL (n : Nat) : Field := ⟨GDP_HB_TRIM_DT.a n, 16, 10⟩
abbrev GDP_HB_STAT.a (n : Nat) : Nat := 0x4004100C + 0x10 * n
abbrev GDP_HB_STAT.CODE (n : Nat) : Field := ⟨GDP_HB_STAT.a n, 0, 3⟩
abbrev GDP_HB_STAT.IN_TRANSITION (n : Nat) : Field := ⟨GDP_HB_STAT.a n, 3, 1⟩
abbrev GDP_HB_STAT.REJECTS (n : Nat) : Field := ⟨GDP_HB_STAT.a n, 8, 8⟩
abbrev GDP_HB_STAT.DEFERRALS (n : Nat) : Field := ⟨GDP_HB_STAT.a n, 16, 8⟩
abbrev GDP_HB_STAT.TRIM_AT_LIMIT (n : Nat) : Field := ⟨GDP_HB_STAT.a n, 24, 1⟩
abbrev PRT_CTRL.a : Nat := 0x40050000
abbrev PRT_CTRL.SOFT_EN : Field := ⟨PRT_CTRL.a, 0, 1⟩
abbrev PRT_CTRL.RETRY_EN : Field := ⟨PRT_CTRL.a, 1, 1⟩
abbrev PRT_TRIP_CFG.a : Nat := 0x40050004
abbrev PRT_TRIP_CFG.FILTER : Field := ⟨PRT_TRIP_CFG.a, 0, 8⟩
abbrev PRT_TRIP_CFG.RETRY_MIN_OFF : Field := ⟨PRT_TRIP_CFG.a, 8, 10⟩
abbrev PRT_EXCL_CFG.a : Nat := 0x40050008
abbrev PRT_EXCL_CFG.EXCL_PERIODS : Field := ⟨PRT_EXCL_CFG.a, 0, 16⟩
abbrev PRT_EXCL_CFG.XB_MAX : Field := ⟨PRT_EXCL_CFG.a, 16, 16⟩
abbrev PRT_FORCE_CFG.a : Nat := 0x4005000C
abbrev PRT_FORCE_CFG.FORCE_DT : Field := ⟨PRT_FORCE_CFG.a, 0, 11⟩
abbrev PRT_EVENT.a : Nat := 0x40050010
abbrev PRT_EVENT.SOFT_TRIP : Field := ⟨PRT_EVENT.a, 0, 1⟩
abbrev PRT_EVENT.HARD_TRIP : Field := ⟨PRT_EVENT.a, 1, 1⟩
abbrev PRT_EVENT.HB_RETIRED : Field := ⟨PRT_EVENT.a, 2, 1⟩
abbrev PRT_EVENT.STRING_FAULT : Field := ⟨PRT_EVENT.a, 3, 1⟩
abbrev PRT_EVENT.XBLANK_OVERRUN : Field := ⟨PRT_EVENT.a, 4, 1⟩
abbrev PRT_EVENT.SELFTEST_FAIL : Field := ⟨PRT_EVENT.a, 5, 1⟩
abbrev PRT_EVENT.BYPASS_FAILED : Field := ⟨PRT_EVENT.a, 6, 1⟩
abbrev PRT_EVENT.CELL_OV_UNBYPASSED : Field := ⟨PRT_EVENT.a, 7, 1⟩
abbrev PRT_EVENT.SAFE_REQ : Field := ⟨PRT_EVENT.a, 8, 1⟩
abbrev PRT_LAST_TRIP.a : Nat := 0x40050014
abbrev PRT_LAST_TRIP.HB : Field := ⟨PRT_LAST_TRIP.a, 0, 8⟩
abbrev PRT_LAST_TRIP.MASK : Field := ⟨PRT_LAST_TRIP.a, 8, 4⟩
abbrev PRT_LAST_TRIP.KIND : Field := ⟨PRT_LAST_TRIP.a, 12, 1⟩
abbrev PRT_LAST_TRIP.COUNT : Field := ⟨PRT_LAST_TRIP.a, 16, 16⟩
abbrev PRT_LAST_TRIP_TIME.a : Nat := 0x40050018
abbrev PRT_LAST_TRIP_TIME.TIME : Field := ⟨PRT_LAST_TRIP_TIME.a, 0, 32⟩
abbrev PRT_XB_CFG.a (s : Nat) : Nat := 0x40050040 + 0x8 * s
abbrev PRT_XB_CFG.EN (s : Nat) : Field := ⟨PRT_XB_CFG.a s, 0, 1⟩
abbrev PRT_XB_CFG.TCH (s : Nat) : Field := ⟨PRT_XB_CFG.a s, 1, 6⟩
abbrev PRT_XB_CFG.PRE (s : Nat) : Field := ⟨PRT_XB_CFG.a s, 8, 8⟩
abbrev PRT_XB_CFG.POST (s : Nat) : Field := ⟨PRT_XB_CFG.a s, 16, 9⟩
abbrev PRT_STR_STAT.a (s : Nat) : Nat := 0x40050044 + 0x8 * s
abbrev PRT_STR_STAT.RECENT (s : Nat) : Field := ⟨PRT_STR_STAT.a s, 0, 3⟩
abbrev PRT_STR_STAT.FAULT (s : Nat) : Field := ⟨PRT_STR_STAT.a s, 3, 1⟩
abbrev PRT_STR_STAT.OVERRUNS (s : Nat) : Field := ⟨PRT_STR_STAT.a s, 8, 8⟩
abbrev PRT_STR_STAT.TRIPS (s : Nat) : Field := ⟨PRT_STR_STAT.a s, 16, 16⟩
abbrev PRT_HB_CFG.a (n : Nat) : Nat := 0x40051000 + 0x10 * n
abbrev PRT_HB_CFG.BLANK (n : Nat) : Field := ⟨PRT_HB_CFG.a n, 0, 11⟩
abbrev PRT_HB_CFG.RETRY_EN (n : Nat) : Field := ⟨PRT_HB_CFG.a n, 11, 1⟩
abbrev PRT_HB_STAT.a (n : Nat) : Nat := 0x40051004 + 0x10 * n
abbrev PRT_HB_STAT.STATE (n : Nat) : Field := ⟨PRT_HB_STAT.a n, 0, 2⟩
abbrev PRT_HB_STAT.LAST_MASK (n : Nat) : Field := ⟨PRT_HB_STAT.a n, 4, 4⟩
abbrev PRT_HB_STAT.LAST_KIND (n : Nat) : Field := ⟨PRT_HB_STAT.a n, 8, 1⟩
abbrev PRT_HB_STAT.WINDOW_TRIPS (n : Nat) : Field := ⟨PRT_HB_STAT.a n, 9, 3⟩
abbrev PRT_HB_STAT.TRIPS (n : Nat) : Field := ⟨PRT_HB_STAT.a n, 16, 16⟩
abbrev PRT_HB_TRIP_T.a (n : Nat) : Nat := 0x40051008 + 0x10 * n
abbrev PRT_HB_TRIP_T.TIME (n : Nat) : Field := ⟨PRT_HB_TRIP_T.a n, 0, 32⟩
abbrev PRT_HB_TEST.a (n : Nat) : Nat := 0x4005100C + 0x10 * n
abbrev PRT_HB_TEST.HS_SOFT (n : Nat) : Field := ⟨PRT_HB_TEST.a n, 0, 3⟩
abbrev PRT_HB_TEST.HS_HARD (n : Nat) : Field := ⟨PRT_HB_TEST.a n, 3, 3⟩
abbrev PRT_HB_TEST.LS_SOFT (n : Nat) : Field := ⟨PRT_HB_TEST.a n, 6, 3⟩
abbrev PRT_HB_TEST.LS_HARD (n : Nat) : Field := ⟨PRT_HB_TEST.a n, 9, 3⟩
abbrev SAF_STATUS.a : Nat := 0x40120000
abbrev SAF_STATUS.FORCE : Field := ⟨SAF_STATUS.a, 0, 2⟩
abbrev SAF_STATUS.LATCH : Field := ⟨SAF_STATUS.a, 2, 2⟩
abbrev SAF_STATUS.BLEED_DRV : Field := ⟨SAF_STATUS.a, 4, 1⟩
abbrev SAF_STATUS.CRASH : Field := ⟨SAF_STATUS.a, 5, 1⟩
abbrev SAF_STATUS.TQ_ACTIVE : Field := ⟨SAF_STATUS.a, 6, 1⟩
abbrev SAF_CAUSE.a : Nat := 0x40120004
abbrev SAF_CAUSE.CRASH : Field := ⟨SAF_CAUSE.a, 0, 1⟩
abbrev SAF_CAUSE.TORQUE_VIOLATION : Field := ⟨SAF_CAUSE.a, 1, 1⟩
abbrev SAF_CAUSE.ANGLE_DISAGREE : Field := ⟨SAF_CAUSE.a, 2, 1⟩
abbrev SAF_CAUSE.REQ_MOD : Field := ⟨SAF_CAUSE.a, 3, 1⟩
abbrev SAF_CAUSE.REQ_FW : Field := ⟨SAF_CAUSE.a, 4, 1⟩
abbrev SAF_CAUSE.INTERNAL : Field := ⟨SAF_CAUSE.a, 5, 1⟩
abbrev SAF_CAUSE.BLEED_TIMEOUT : Field := ⟨SAF_CAUSE.a, 6, 1⟩
abbrev SAF_SPEED.a : Nat := 0x40120008
abbrev SAF_SPEED.VALUE : Field := ⟨SAF_SPEED.a, 0, 32⟩
abbrev SAF_TORQUE.a : Nat := 0x4012000C
abbrev SAF_TORQUE.VALUE : Field := ⟨SAF_TORQUE.a, 0, 32⟩
abbrev SAF_BLEED.a : Nat := 0x40120010
abbrev SAF_BLEED.NODE_A : Field := ⟨SAF_BLEED.a, 0, 16⟩
abbrev SAF_BLEED.NODE_B : Field := ⟨SAF_BLEED.a, 16, 16⟩
abbrev SAF_BLEED_TIME.a : Nat := 0x40120014
abbrev SAF_BLEED_TIME.MS : Field := ⟨SAF_BLEED_TIME.a, 0, 32⟩
abbrev SAF_WRITE_ATTEMPTS.a : Nat := 0x40120018
abbrev SAF_WRITE_ATTEMPTS.COUNT : Field := ⟨SAF_WRITE_ATTEMPTS.a, 0, 32⟩
abbrev MOD_CTRL.a : Nat := 0x40060000
abbrev MOD_CTRL.MODE_LOCK : Field := ⟨MOD_CTRL.a, 0, 2⟩
abbrev MOD_TC.a : Nat := 0x40060004
abbrev MOD_TC.TC : Field := ⟨MOD_TC.a, 0, 17⟩
abbrev MOD_TIMING.a : Nat := 0x40060008
abbrev MOD_TIMING.SAMPLE_OFS : Field := ⟨MOD_TIMING.a, 0, 13⟩
abbrev MOD_TIMING.APPLY : Field := ⟨MOD_TIMING.a, 16, 13⟩
abbrev MOD_MODE_CFG.a : Nat := 0x4006000C
abbrev MOD_MODE_CFG.F1_UP : Field := ⟨MOD_MODE_CFG.a, 0, 10⟩
abbrev MOD_MODE_CFG.F2_UP : Field := ⟨MOD_MODE_CFG.a, 10, 10⟩
abbrev MOD_MODE_CFG.HYST : Field := ⟨MOD_MODE_CFG.a, 20, 7⟩
abbrev MOD_PULSE_CFG.a : Nat := 0x40060010
abbrev MOD_PULSE_CFG.MIN_PULSE : Field := ⟨MOD_PULSE_CFG.a, 0, 11⟩
abbrev MOD_PULSE_CFG.STAGGER : Field := ⟨MOD_PULSE_CFG.a, 11, 11⟩
abbrev MOD_STATUS.a : Nat := 0x40060014
abbrev MOD_STATUS.MODE : Field := ⟨MOD_STATUS.a, 0, 2⟩
abbrev MOD_STATUS.COMMITTED : Field := ⟨MOD_STATUS.a, 2, 1⟩
abbrev MOD_STATUS.REPEATING : Field := ⟨MOD_STATUS.a, 3, 1⟩
abbrev MOD_STATUS.F_EL : Field := ⟨MOD_STATUS.a, 16, 16⟩
abbrev MOD_EVENT.a : Nat := 0x40060018
abbrev MOD_EVENT.DISPATCH_LATE : Field := ⟨MOD_EVENT.a, 0, 1⟩
abbrev MOD_EVENT.PARTIAL_SET : Field := ⟨MOD_EVENT.a, 1, 1⟩
abbrev MOD_EVENT.MODE_CHANGE : Field := ⟨MOD_EVENT.a, 2, 1⟩
abbrev MOD_EVENT.PULSE_CARRIED : Field := ⟨MOD_EVENT.a, 3, 1⟩
abbrev MOD_EVENT.PULSE_SHIFTED : Field := ⟨MOD_EVENT.a, 4, 1⟩
abbrev MOD_EVENT.OWNER_DENIED : Field := ⟨MOD_EVENT.a, 5, 1⟩
abbrev MOD_EVENT.STAGGER_OVERFLOW : Field := ⟨MOD_EVENT.a, 6, 1⟩
abbrev MOD_EVENT.CARRY_SAT : Field := ⟨MOD_EVENT.a, 7, 1⟩
abbrev MOD_PERIOD_COUNT.a : Nat := 0x4006001C
abbrev MOD_PERIOD_COUNT.PERIODS : Field := ⟨MOD_PERIOD_COUNT.a, 0, 32⟩
abbrev MOD_TIME_LO.a : Nat := 0x40060020
abbrev MOD_TIME_LO.TIME : Field := ⟨MOD_TIME_LO.a, 0, 32⟩
abbrev MOD_TIME_HI.a : Nat := 0x40060024
abbrev MOD_TIME_HI.TIME : Field := ⟨MOD_TIME_HI.a, 0, 32⟩
abbrev MOD_STR_CFG.a (s : Nat) : Nat := 0x40060040 + 0x10 * s
abbrev MOD_STR_CFG.K (s : Nat) : Field := ⟨MOD_STR_CFG.a s, 0, 1⟩
abbrev MOD_STR_CFG.P (s : Nat) : Field := ⟨MOD_STR_CFG.a s, 1, 2⟩
abbrev MOD_STR_CFG.PHASE_OFS (s : Nat) : Field := ⟨MOD_STR_CFG.a s, 4, 17⟩
abbrev MOD_STR_STAT.a (s : Nat) : Nat := 0x40060044 + 0x10 * s
abbrev MOD_STR_STAT.N (s : Nat) : Field := ⟨MOD_STR_STAT.a s, 0, 6⟩
abbrev MOD_STR_STAT.SIGN (s : Nat) : Field := ⟨MOD_STR_STAT.a s, 6, 1⟩
abbrev MOD_STR_STAT.SHIFTED (s : Nat) : Field := ⟨MOD_STR_STAT.a s, 8, 8⟩
abbrev MOD_STR_STAT.CARRIED (s : Nat) : Field := ⟨MOD_STR_STAT.a s, 16, 16⟩
abbrev MOD_STR_CARRY.a (s : Nat) : Nat := 0x40060048 + 0x10 * s
abbrev MOD_STR_CARRY.CARRY (s : Nat) : Field := ⟨MOD_STR_CARRY.a s, 0, 32⟩
abbrev MOD_TCH_CFG.a (n : Nat) : Nat := 0x40061000 + 0x20 * n
abbrev MOD_TCH_CFG.CNT_MODE (n : Nat) : Field := ⟨MOD_TCH_CFG.a n, 0, 2⟩
abbrev MOD_TCH_CFG.SYNC (n : Nat) : Field := ⟨MOD_TCH_CFG.a n, 2, 1⟩
abbrev MOD_TCH_CFG.PARTIAL_IGN (n : Nat) : Field := ⟨MOD_TCH_CFG.a n, 3, 1⟩
abbrev MOD_TCH_CFG.OWNER (n : Nat) : Field := ⟨MOD_TCH_CFG.a n, 4, 1⟩
abbrev MOD_TCH_CFG.COMMIT (n : Nat) : Field := ⟨MOD_TCH_CFG.a n, 5, 1⟩
abbrev MOD_TCH_CFG.IRQ_EN (n : Nat) : Field := ⟨MOD_TCH_CFG.a n, 8, 4⟩
abbrev MOD_TCH_CFG.TRG_EN (n : Nat) : Field := ⟨MOD_TCH_CFG.a n, 12, 4⟩
abbrev MOD_TCH_PERIOD.a (n : Nat) : Nat := 0x40061004 + 0x20 * n
abbrev MOD_TCH_PERIOD.VALUE (n : Nat) : Field := ⟨MOD_TCH_PERIOD.a n, 0, 32⟩
abbrev MOD_TCH_CMP_A.a (n : Nat) : Nat := 0x40061008 + 0x20 * n
abbrev MOD_TCH_CMP_A.VALUE (n : Nat) : Field := ⟨MOD_TCH_CMP_A.a n, 0, 32⟩
abbrev MOD_TCH_CMP_B.a (n : Nat) : Nat := 0x4006100C + 0x20 * n
abbrev MOD_TCH_CMP_B.VALUE (n : Nat) : Field := ⟨MOD_TCH_CMP_B.a n, 0, 32⟩
abbrev MOD_TCH_PRESC.a (n : Nat) : Nat := 0x40061010 + 0x20 * n
abbrev MOD_TCH_PRESC.ZERO (n : Nat) : Field := ⟨MOD_TCH_PRESC.a n, 0, 8⟩
abbrev MOD_TCH_PRESC.PERIOD (n : Nat) : Field := ⟨MOD_TCH_PRESC.a n, 8, 8⟩
abbrev MOD_TCH_PRESC.CMP_A (n : Nat) : Field := ⟨MOD_TCH_PRESC.a n, 16, 8⟩
abbrev MOD_TCH_PRESC.CMP_B (n : Nat) : Field := ⟨MOD_TCH_PRESC.a n, 24, 8⟩
abbrev MOD_TCH_COUNT.a (n : Nat) : Nat := 0x40061014 + 0x20 * n
abbrev MOD_TCH_COUNT.COUNT (n : Nat) : Field := ⟨MOD_TCH_COUNT.a n, 0, 32⟩
abbrev MOD_TCH_STAT.a (n : Nat) : Nat := 0x40061018 + 0x20 * n
abbrev MOD_TCH_STAT.ZERO (n : Nat) : Field := ⟨MOD_TCH_STAT.a n, 0, 1⟩
abbrev MOD_TCH_STAT.PERIOD (n : Nat) : Field := ⟨MOD_TCH_STAT.a n, 1, 1⟩
abbrev MOD_TCH_STAT.CMP_A (n : Nat) : Field := ⟨MOD_TCH_STAT.a n, 2, 1⟩
abbrev MOD_TCH_STAT.CMP_B (n : Nat) : Field := ⟨MOD_TCH_STAT.a n, 3, 1⟩
abbrev MOD_TCH_STAT.PARTIAL_SET (n : Nat) : Field := ⟨MOD_TCH_STAT.a n, 4, 1⟩
abbrev MOD_TCH_STAT.PENDING (n : Nat) : Field := ⟨MOD_TCH_STAT.a n, 5, 1⟩
abbrev MOD_TCH_STAT.CMP_UNREACHABLE (n : Nat) : Field := ⟨MOD_TCH_STAT.a n, 6, 1⟩
abbrev MOD_TCH_STAT.DIR (n : Nat) : Field := ⟨MOD_TCH_STAT.a n, 7, 1⟩
abbrev DSP_CTRL.a : Nat := 0x40070000
abbrev DSP_CTRL.STICKY_AUTO : Field := ⟨DSP_CTRL.a, 0, 1⟩
abbrev DSP_CTRL.HOLD_RANK : Field := ⟨DSP_CTRL.a, 1, 1⟩
abbrev DSP_CTRL.CONS_EN : Field := ⟨DSP_CTRL.a, 2, 1⟩
abbrev DSP_CTRL.SOC_COMMIT : Field := ⟨DSP_CTRL.a, 3, 1⟩
abbrev DSP_KEY_W1.a : Nat := 0x40070004
abbrev DSP_KEY_W1.KS : Field := ⟨DSP_KEY_W1.a, 0, 16⟩
abbrev DSP_KEY_W1.KT : Field := ⟨DSP_KEY_W1.a, 16, 8⟩
abbrev DSP_KEY_W1.KW : Field := ⟨DSP_KEY_W1.a, 24, 8⟩
abbrev DSP_KEY_W2.a : Nat := 0x40070008
abbrev DSP_KEY_W2.OFFSET : Field := ⟨DSP_KEY_W2.a, 0, 12⟩
abbrev DSP_KEY_W2.T_KNEE : Field := ⟨DSP_KEY_W2.a, 16, 16⟩
abbrev DSP_STICKY.a : Nat := 0x4007000C
abbrev DSP_STICKY.STICKY : Field := ⟨DSP_STICKY.a, 0, 8⟩
abbrev DSP_STICKY.STICKY_MIN : Field := ⟨DSP_STICKY.a, 8, 8⟩
abbrev DSP_STICKY.STEP : Field := ⟨DSP_STICKY.a, 16, 6⟩
abbrev DSP_FSW.a : Nat := 0x40070010
abbrev DSP_FSW.F_SW_LO : Field := ⟨DSP_FSW.a, 0, 16⟩
abbrev DSP_FSW.F_SW_HI : Field := ⟨DSP_FSW.a, 16, 16⟩
abbrev DSP_DIR_CFG.a : Nat := 0x40070014
abbrev DSP_DIR_CFG.DIR_DB : Field := ⟨DSP_DIR_CFG.a, 0, 16⟩
abbrev DSP_DIR_CFG.AGE_MAX : Field := ⟨DSP_DIR_CFG.a, 16, 5⟩
abbrev DSP_VSCALE.a : Nat := 0x40070018
abbrev DSP_VSCALE.V_FS : Field := ⟨DSP_VSCALE.a, 0, 32⟩
abbrev DSP_CONS_CFG.a : Nat := 0x4007001C
abbrev DSP_CONS_CFG.TOL_CELL : Field := ⟨DSP_CONS_CFG.a, 0, 16⟩
abbrev DSP_CONS_CFG.TOL_SENS : Field := ⟨DSP_CONS_CFG.a, 16, 16⟩
abbrev DSP_CONS_TIME.a : Nat := 0x40070020
abbrev DSP_CONS_TIME.SENS_PERIODS : Field := ⟨DSP_CONS_TIME.a, 0, 16⟩
abbrev DSP_CONS_TIME.OUTLIER_PERIODS : Field := ⟨DSP_CONS_TIME.a, 16, 16⟩
abbrev DSP_STATUS.a : Nat := 0x40070024
abbrev DSP_STATUS.WINDOW_POS : Field := ⟨DSP_STATUS.a, 0, 10⟩
abbrev DSP_STATUS.ROT : Field := ⟨DSP_STATUS.a, 16, 7⟩
abbrev DSP_STATUS.SOC_STALE : Field := ⟨DSP_STATUS.a, 23, 1⟩
abbrev DSP_EVENT.a : Nat := 0x40070028
abbrev DSP_EVENT.VREF_CLIPPED : Field := ⟨DSP_EVENT.a, 0, 1⟩
abbrev DSP_EVENT.CELL_STALE : Field := ⟨DSP_EVENT.a, 1, 1⟩
abbrev DSP_EVENT.TEMP_MISSING : Field := ⟨DSP_EVENT.a, 2, 1⟩
abbrev DSP_EVENT.SOC_STALE : Field := ⟨DSP_EVENT.a, 3, 1⟩
abbrev DSP_EVENT.VREF_STALE : Field := ⟨DSP_EVENT.a, 4, 1⟩
abbrev DSP_EVENT.NO_CONSENSUS : Field := ⟨DSP_EVENT.a, 5, 1⟩
abbrev DSP_EVENT.SENSOR_DISAGREE : Field := ⟨DSP_EVENT.a, 6, 1⟩
abbrev DSP_EVENT.CURRENT_OUTLIER : Field := ⟨DSP_EVENT.a, 7, 1⟩
abbrev DSP_EVENT.STICKY_ADJUSTED : Field := ⟨DSP_EVENT.a, 8, 1⟩
abbrev DSP_EVENT.WINDOW_END : Field := ⟨DSP_EVENT.a, 9, 1⟩
abbrev DSP_SOC_STATUS.a : Nat := 0x4007002C
abbrev DSP_SOC_STATUS.ERR_BOUND : Field := ⟨DSP_SOC_STATUS.a, 0, 16⟩
abbrev DSP_STR_RESULT.a (s : Nat) : Nat := 0x40070040 + 0x20 * s
abbrev DSP_STR_RESULT.SIGN (s : Nat) : Field := ⟨DSP_STR_RESULT.a s, 0, 1⟩
abbrev DSP_STR_RESULT.N (s : Nat) : Field := ⟨DSP_STR_RESULT.a s, 1, 6⟩
abbrev DSP_STR_RESULT.DIR (s : Nat) : Field := ⟨DSP_STR_RESULT.a s, 7, 1⟩
abbrev DSP_STR_RESULT.F_RAW (s : Nat) : Field := ⟨DSP_STR_RESULT.a s, 8, 15⟩
abbrev DSP_STR_RESULT.U (s : Nat) : Field := ⟨DSP_STR_RESULT.a s, 23, 6⟩
abbrev DSP_STR_RESULT.CLIPPED (s : Nat) : Field := ⟨DSP_STR_RESULT.a s, 29, 1⟩
abbrev DSP_STR_RESULT.HELD (s : Nat) : Field := ⟨DSP_STR_RESULT.a s, 30, 1⟩
abbrev DSP_STR_VREF.a (s : Nat) : Nat := 0x40070044 + 0x20 * s
abbrev DSP_STR_VREF.VALUE (s : Nat) : Field := ⟨DSP_STR_VREF.a s, 0, 32⟩
abbrev DSP_STR_CONS.a (s : Nat) : Nat := 0x40070048 + 0x20 * s
abbrev DSP_STR_CONS.VALUE (s : Nat) : Field := ⟨DSP_STR_CONS.a s, 0, 32⟩
abbrev DSP_STR_VOTE.a (s : Nat) : Nat := 0x4007004C + 0x20 * s
abbrev DSP_STR_VOTE.N_READ (s : Nat) : Field := ⟨DSP_STR_VOTE.a s, 0, 6⟩
abbrev DSP_STR_VOTE.N_BAND (s : Nat) : Field := ⟨DSP_STR_VOTE.a s, 6, 6⟩
abbrev DSP_STR_VOTE.CONS_VALID (s : Nat) : Field := ⟨DSP_STR_VOTE.a s, 12, 1⟩
abbrev DSP_STR_VOTE.A_AGREE (s : Nat) : Field := ⟨DSP_STR_VOTE.a s, 13, 1⟩
abbrev DSP_STR_VOTE.D_AGREE (s : Nat) : Field := ⟨DSP_STR_VOTE.a s, 14, 1⟩
abbrev DSP_STR_VOTE.RUN (s : Nat) : Field := ⟨DSP_STR_VOTE.a s, 16, 16⟩
abbrev DSP_STR_WINDOW.a (s : Nat) : Nat := 0x40070050 + 0x20 * s
abbrev DSP_STR_WINDOW.SWAPS (s : Nat) : Field := ⟨DSP_STR_WINDOW.a s, 0, 16⟩
abbrev DSP_STR_WINDOW.F_SW (s : Nat) : Field := ⟨DSP_STR_WINDOW.a s, 16, 16⟩
abbrev DSP_STR_SOC.a (s : Nat) : Nat := 0x40070054 + 0x20 * s
abbrev DSP_STR_SOC.SOC_MEAN (s : Nat) : Field := ⟨DSP_STR_SOC.a s, 0, 16⟩
abbrev DSP_STR_SOC.SOC_SPREAD (s : Nat) : Field := ⟨DSP_STR_SOC.a s, 16, 16⟩
abbrev DSP_C_SOC.a (c : Nat) : Nat := 0x40071000 + 0x10 * c
abbrev DSP_C_SOC.SOC (c : Nat) : Field := ⟨DSP_C_SOC.a c, 0, 16⟩
abbrev DSP_C_SOC.WEAR (c : Nat) : Field := ⟨DSP_C_SOC.a c, 16, 10⟩
abbrev DSP_C_KEY.a (c : Nat) : Nat := 0x40071004 + 0x10 * c
abbrev DSP_C_KEY.KEY (c : Nat) : Field := ⟨DSP_C_KEY.a c, 0, 12⟩
abbrev DSP_C_KEY.INCUMBENT (c : Nat) : Field := ⟨DSP_C_KEY.a c, 12, 1⟩
abbrev DSP_C_KEY.USABLE (c : Nat) : Field := ⟨DSP_C_KEY.a c, 13, 1⟩
abbrev DSP_C_KEY.RANK (c : Nat) : Field := ⟨DSP_C_KEY.a c, 14, 6⟩
abbrev DSP_C_KEY.STR (c : Nat) : Field := ⟨DSP_C_KEY.a c, 20, 3⟩
abbrev DSP_C_STAT.a (c : Nat) : Nat := 0x40071008 + 0x10 * c
abbrev DSP_C_STAT.INS_PERIODS (c : Nat) : Field := ⟨DSP_C_STAT.a c, 0, 11⟩
abbrev DSP_C_STAT.SWAPS_IN (c : Nat) : Field := ⟨DSP_C_STAT.a c, 16, 8⟩
abbrev DSP_C_STAT.OUTLIER (c : Nat) : Field := ⟨DSP_C_STAT.a c, 24, 1⟩
abbrev DSP_C_STAT.STALE (c : Nat) : Field := ⟨DSP_C_STAT.a c, 25, 1⟩
abbrev DSP_C_STAT.TEMP_MISSING (c : Nat) : Field := ⟨DSP_C_STAT.a c, 26, 1⟩
abbrev DSP_C_TEMP.a (c : Nat) : Nat := 0x4007100C + 0x10 * c
abbrev DSP_C_TEMP.TEMP (c : Nat) : Field := ⟨DSP_C_TEMP.a c, 0, 16⟩
abbrev CEN_CTRL.a : Nat := 0x40080000
abbrev CEN_CTRL.RUN : Field := ⟨CEN_CTRL.a, 0, 1⟩
abbrev CEN_CTRL.MODEL_LOADED : Field := ⟨CEN_CTRL.a, 1, 1⟩
abbrev CEN_STATUS.a : Nat := 0x40080004
abbrev CEN_STATUS.CYCLES : Field := ⟨CEN_STATUS.a, 0, 13⟩
abbrev CEN_STATUS.BYPASS : Field := ⟨CEN_STATUS.a, 13, 1⟩
abbrev CEN_STATUS.OVERRUN : Field := ⟨CEN_STATUS.a, 14, 1⟩
abbrev CEN_STATUS.SCHED_LEN : Field := ⟨CEN_STATUS.a, 16, 6⟩
abbrev CEN_EVENT.a : Nat := 0x40080008
abbrev CEN_EVENT.SLOT_FROZEN : Field := ⟨CEN_EVENT.a, 0, 1⟩
abbrev CEN_EVENT.PRESET_DONE : Field := ⟨CEN_EVENT.a, 1, 1⟩
abbrev CEN_EVENT.LIMIT_ACTIVE : Field := ⟨CEN_EVENT.a, 2, 1⟩
abbrev CEN_EVENT.OBSERVER_LOCKED : Field := ⟨CEN_EVENT.a, 3, 1⟩
abbrev CEN_EVENT.OBSERVER_LOST : Field := ⟨CEN_EVENT.a, 4, 1⟩
abbrev CEN_EVENT.MODEL_IMPLAUSIBLE : Field := ⟨CEN_EVENT.a, 5, 1⟩
abbrev CEN_EVENT.CONTROL_OVERRUN : Field := ⟨CEN_EVENT.a, 6, 1⟩
abbrev CEN_EVENT.SOURCE_CHANGED : Field := ⟨CEN_EVENT.a, 7, 1⟩
abbrev CEN_EVENT.HOST_INPUT_TIMEOUT : Field := ⟨CEN_EVENT.a, 8, 1⟩
abbrev CEN_LIMIT.a : Nat := 0x4008000C
abbrev CEN_LIMIT.LIMIT : Field := ⟨CEN_LIMIT.a, 0, 13⟩
abbrev CEN_LIMIT.WINDOW : Field := ⟨CEN_LIMIT.a, 16, 13⟩
abbrev CEN_LAST_RUN.a : Nat := 0x40080010
abbrev CEN_LAST_RUN.END_NS : Field := ⟨CEN_LAST_RUN.a, 0, 16⟩
abbrev CEN_LAST_RUN.RUNS : Field := ⟨CEN_LAST_RUN.a, 16, 16⟩
abbrev CEN_I_FS.a : Nat := 0x40080014
abbrev CEN_I_FS.FS : Field := ⟨CEN_I_FS.a, 0, 32⟩
abbrev CEN_N_FS.a : Nat := 0x40080018
abbrev CEN_N_FS.FS : Field := ⟨CEN_N_FS.a, 0, 32⟩
abbrev CEN_T_FS.a : Nat := 0x4008001C
abbrev CEN_T_FS.FS : Field := ⟨CEN_T_FS.a, 0, 32⟩
abbrev CEN_P_FS.a : Nat := 0x40080020
abbrev CEN_P_FS.FS : Field := ⟨CEN_P_FS.a, 0, 32⟩
abbrev CEN_ISEL.a : Nat := 0x40080024
abbrev CEN_ISEL.AUTO : Field := ⟨CEN_ISEL.a, 0, 6⟩
abbrev CEN_ISEL.SUBST : Field := ⟨CEN_ISEL.a, 8, 6⟩
abbrev CEN_PLS.a : Nat := 0x40080028
abbrev CEN_PLS.RINT : Field := ⟨CEN_PLS.a, 0, 16⟩
abbrev CEN_PLS.ACTIVE : Field := ⟨CEN_PLS.a, 16, 1⟩
abbrev CEN_OBS.a : Nat := 0x4008002C
abbrev CEN_OBS.LOCKED : Field := ⟨CEN_OBS.a, 0, 1⟩
abbrev CEN_OBS.RUN : Field := ⟨CEN_OBS.a, 8, 8⟩
abbrev CEN_OBS.ERR : Field := ⟨CEN_OBS.a, 16, 16⟩
abbrev CEN_SIG.a (n : Nat) : Nat := 0x40080400 + 0x4 * n
abbrev CEN_SIG.VALUE (n : Nat) : Field := ⟨CEN_SIG.a n, 0, 16⟩
abbrev CEN_SIG.VALID (n : Nat) : Field := ⟨CEN_SIG.a n, 16, 1⟩
abbrev CEN_SIG.AGE (n : Nat) : Field := ⟨CEN_SIG.a n, 17, 4⟩
abbrev CEN_SLOT_STAT.a (k : Nat) : Nat := 0x40080800 + 0x10 * k
abbrev CEN_SLOT_STAT.SAT (k : Nat) : Field := ⟨CEN_SLOT_STAT.a k, 0, 2⟩
abbrev CEN_SLOT_STAT.INHIBIT (k : Nat) : Field := ⟨CEN_SLOT_STAT.a k, 2, 1⟩
abbrev CEN_SLOT_STAT.MANUAL (k : Nat) : Field := ⟨CEN_SLOT_STAT.a k, 3, 1⟩
abbrev CEN_SLOT_STAT.BANK (k : Nat) : Field := ⟨CEN_SLOT_STAT.a k, 4, 1⟩
abbrev CEN_SLOT_STAT.FROZEN (k : Nat) : Field := ⟨CEN_SLOT_STAT.a k, 5, 1⟩
abbrev CEN_SLOT_STAT.PRESET (k : Nat) : Field := ⟨CEN_SLOT_STAT.a k, 6, 1⟩
abbrev CEN_SLOT_STAT.HELD (k : Nat) : Field := ⟨CEN_SLOT_STAT.a k, 7, 1⟩
abbrev CEN_SLOT_OUT.a (k : Nat) : Nat := 0x40080804 + 0x10 * k
abbrev CEN_SLOT_OUT.U (k : Nat) : Field := ⟨CEN_SLOT_OUT.a k, 0, 16⟩
abbrev CEN_SLOT_OUT.E (k : Nat) : Field := ⟨CEN_SLOT_OUT.a k, 16, 16⟩
abbrev CEN_SLOT_IACC_LO.a (k : Nat) : Nat := 0x40080808 + 0x10 * k
abbrev CEN_SLOT_IACC_LO.IACC (k : Nat) : Field := ⟨CEN_SLOT_IACC_LO.a k, 0, 32⟩
abbrev CEN_SLOT_IACC_HI.a (k : Nat) : Nat := 0x4008080C + 0x10 * k
abbrev CEN_SLOT_IACC_HI.IACC (k : Nat) : Field := ⟨CEN_SLOT_IACC_HI.a k, 0, 32⟩
abbrev CEN_CFG_IMAGE.a (w : Nat) : Nat := 0x40084000 + 0x4 * w
abbrev CEN_CFG_IMAGE.DATA (w : Nat) : Field := ⟨CEN_CFG_IMAGE.a w, 0, 32⟩
abbrev CEN_MODEL_IMAGE.a (w : Nat) : Nat := 0x40084900 + 0x4 * w
abbrev CEN_MODEL_IMAGE.DATA (w : Nat) : Field := ⟨CEN_MODEL_IMAGE.a w, 0, 32⟩
abbrev FBK_CTRL.a : Nat := 0x40090000
abbrev FBK_CTRL.RES_EN : Field := ⟨FBK_CTRL.a, 0, 1⟩
abbrev FBK_CTRL.HALL_EN : Field := ⟨FBK_CTRL.a, 1, 1⟩
abbrev FBK_CTRL.AXLE_EN : Field := ⟨FBK_CTRL.a, 2, 1⟩
abbrev FBK_CTRL.HALL_DIR : Field := ⟨FBK_CTRL.a, 3, 1⟩
abbrev FBK_CTRL.AXLE_MODE : Field := ⟨FBK_CTRL.a, 4, 1⟩
abbrev FBK_CTRL.AXLE_DIR : Field := ⟨FBK_CTRL.a, 5, 1⟩
abbrev FBK_CTRL.SPEED_SRC : Field := ⟨FBK_CTRL.a, 6, 2⟩
abbrev FBK_CTRL.EXC_SEL : Field := ⟨FBK_CTRL.a, 8, 2⟩
abbrev FBK_RES_CFG.a : Nat := 0x40090004
abbrev FBK_RES_CFG.EXC_AMP : Field := ⟨FBK_RES_CFG.a, 0, 12⟩
abbrev FBK_RES_CFG.RES_PP : Field := ⟨FBK_RES_CFG.a, 12, 5⟩
abbrev FBK_RES_PHASE.a : Nat := 0x40090008
abbrev FBK_RES_PHASE.EXC_DELAY : Field := ⟨FBK_RES_PHASE.a, 0, 16⟩
abbrev FBK_RES_PHASE.RES_OFFSET : Field := ⟨FBK_RES_PHASE.a, 16, 16⟩
abbrev FBK_RES_K.a : Nat := 0x4009000C
abbrev FBK_RES_K.K1 : Field := ⟨FBK_RES_K.a, 0, 16⟩
abbrev FBK_RES_K.K2 : Field := ⟨FBK_RES_K.a, 16, 16⟩
abbrev FBK_RES_KSH.a : Nat := 0x40090010
abbrev FBK_RES_KSH.KW : Field := ⟨FBK_RES_KSH.a, 0, 16⟩
abbrev FBK_RES_KSH.K1_SH : Field := ⟨FBK_RES_KSH.a, 16, 4⟩
abbrev FBK_RES_KSH.K2_SH : Field := ⟨FBK_RES_KSH.a, 20, 4⟩
abbrev FBK_RES_KSH.KW_SH : Field := ⟨FBK_RES_KSH.a, 24, 4⟩
abbrev FBK_RES_THR.a : Nat := 0x40090014
abbrev FBK_RES_THR.LOS_THR : Field := ⟨FBK_RES_THR.a, 0, 16⟩
abbrev FBK_RES_THR.CLIP_THR : Field := ⟨FBK_RES_THR.a, 16, 16⟩
abbrev FBK_RES_LOT.a : Nat := 0x40090018
abbrev FBK_RES_LOT.LOT_THR : Field := ⟨FBK_RES_LOT.a, 0, 16⟩
abbrev FBK_RES_LOT.LOT_N : Field := ⟨FBK_RES_LOT.a, 16, 8⟩
abbrev FBK_HALL_CFG.a : Nat := 0x4009001C
abbrev FBK_HALL_CFG.HALL_OFFSET : Field := ⟨FBK_HALL_CFG.a, 0, 16⟩
abbrev FBK_AXLE_EPR.a : Nat := 0x40090020
abbrev FBK_AXLE_EPR.EPR256 : Field := ⟨FBK_AXLE_EPR.a, 0, 32⟩
abbrev FBK_SPEED_CFG.a : Nat := 0x40090024
abbrev FBK_SPEED_CFG.CO_EDGES : Field := ⟨FBK_SPEED_CFG.a, 0, 11⟩
abbrev FBK_SPEED_CFG.STOP_TIME : Field := ⟨FBK_SPEED_CFG.a, 16, 16⟩
abbrev FBK_IN_FILT.a : Nat := 0x40090028
abbrev FBK_IN_FILT.HALL : Field := ⟨FBK_IN_FILT.a, 0, 8⟩
abbrev FBK_IN_FILT.AXLE : Field := ⟨FBK_IN_FILT.a, 8, 8⟩
abbrev FBK_IN_FILT.MARKER : Field := ⟨FBK_IN_FILT.a, 16, 8⟩
abbrev FBK_IN_FILT.ENDSTOP : Field := ⟨FBK_IN_FILT.a, 24, 8⟩
abbrev FBK_IN_CFG.a : Nat := 0x4009002C
abbrev FBK_IN_CFG.MARKER_LOW : Field := ⟨FBK_IN_CFG.a, 0, 1⟩
abbrev FBK_IN_CFG.ENDSTOP_LOW : Field := ⟨FBK_IN_CFG.a, 1, 1⟩
abbrev FBK_IN_CFG.CHAT_MAX : Field := ⟨FBK_IN_CFG.a, 8, 8⟩
abbrev FBK_IN_STUCK.a : Nat := 0x40090030
abbrev FBK_IN_STUCK.MARKER : Field := ⟨FBK_IN_STUCK.a, 0, 16⟩
abbrev FBK_IN_STUCK.ENDSTOP : Field := ⟨FBK_IN_STUCK.a, 16, 16⟩
abbrev FBK_RES_STAT.a : Nat := 0x40090040
abbrev FBK_RES_STAT.PHI : Field := ⟨FBK_RES_STAT.a, 0, 16⟩
abbrev FBK_RES_STAT.LOCKED : Field := ⟨FBK_RES_STAT.a, 16, 1⟩
abbrev FBK_RES_STAT.LOS : Field := ⟨FBK_RES_STAT.a, 17, 1⟩
abbrev FBK_RES_STAT.CLIP : Field := ⟨FBK_RES_STAT.a, 18, 1⟩
abbrev FBK_RES_STAT.LOT : Field := ⟨FBK_RES_STAT.a, 19, 1⟩
abbrev FBK_RES_STAT.RUN : Field := ⟨FBK_RES_STAT.a, 20, 8⟩
abbrev FBK_HALL_STAT.a : Nat := 0x40090044
abbrev FBK_HALL_STAT.CODE : Field := ⟨FBK_HALL_STAT.a, 0, 3⟩
abbrev FBK_HALL_STAT.SECTOR : Field := ⟨FBK_HALL_STAT.a, 3, 3⟩
abbrev FBK_HALL_STAT.DIR : Field := ⟨FBK_HALL_STAT.a, 6, 1⟩
abbrev FBK_HALL_STAT.ANGLE_VALID : Field := ⟨FBK_HALL_STAT.a, 7, 1⟩
abbrev FBK_HALL_STAT.ANGLE : Field := ⟨FBK_HALL_STAT.a, 16, 16⟩
abbrev FBK_AXLE_COUNT.a : Nat := 0x40090048
abbrev FBK_AXLE_COUNT.COUNT : Field := ⟨FBK_AXLE_COUNT.a, 0, 32⟩
abbrev FBK_MARKER_POS.a : Nat := 0x4009004C
abbrev FBK_MARKER_POS.COUNT : Field := ⟨FBK_MARKER_POS.a, 0, 32⟩
abbrev FBK_SPEED_RES.a : Nat := 0x40090050
abbrev FBK_SPEED_RES.SPEED : Field := ⟨FBK_SPEED_RES.a, 0, 32⟩
abbrev FBK_SPEED_HALL.a : Nat := 0x40090054
abbrev FBK_SPEED_HALL.SPEED : Field := ⟨FBK_SPEED_HALL.a, 0, 32⟩
abbrev FBK_SPEED_AXLE.a : Nat := 0x40090058
abbrev FBK_SPEED_AXLE.SPEED : Field := ⟨FBK_SPEED_AXLE.a, 0, 32⟩
abbrev FBK_SPEED_STAT.a : Nat := 0x4009005C
abbrev FBK_SPEED_STAT.RES_VALID : Field := ⟨FBK_SPEED_STAT.a, 0, 1⟩
abbrev FBK_SPEED_STAT.HALL_VALID : Field := ⟨FBK_SPEED_STAT.a, 1, 1⟩
abbrev FBK_SPEED_STAT.AXLE_VALID : Field := ⟨FBK_SPEED_STAT.a, 2, 1⟩
abbrev FBK_SPEED_STAT.HALL_FREQ : Field := ⟨FBK_SPEED_STAT.a, 3, 1⟩
abbrev FBK_SPEED_STAT.AXLE_FREQ : Field := ⟨FBK_SPEED_STAT.a, 4, 1⟩
abbrev FBK_SPEED_STAT.HALL_STOPPED : Field := ⟨FBK_SPEED_STAT.a, 5, 1⟩
abbrev FBK_SPEED_STAT.AXLE_STOPPED : Field := ⟨FBK_SPEED_STAT.a, 6, 1⟩
abbrev FBK_SPEED_STAT.GATE_AXLE : Field := ⟨FBK_SPEED_STAT.a, 16, 16⟩
abbrev FBK_IN_STAT.a : Nat := 0x40090060
abbrev FBK_IN_STAT.LEVEL : Field := ⟨FBK_IN_STAT.a, 0, 7⟩
abbrev FBK_IN_STAT.MARKER_STUCK : Field := ⟨FBK_IN_STAT.a, 8, 1⟩
abbrev FBK_IN_STAT.ENDSTOP_STUCK : Field := ⟨FBK_IN_STAT.a, 9, 1⟩
abbrev FBK_ERR_COUNT.a : Nat := 0x40090064
abbrev FBK_ERR_COUNT.IMPOSSIBLE : Field := ⟨FBK_ERR_COUNT.a, 0, 8⟩
abbrev FBK_ERR_COUNT.JUMPS : Field := ⟨FBK_ERR_COUNT.a, 8, 8⟩
abbrev FBK_ERR_COUNT.QUAD : Field := ⟨FBK_ERR_COUNT.a, 16, 8⟩
abbrev FBK_ERR_COUNT.CHATTER : Field := ⟨FBK_ERR_COUNT.a, 24, 8⟩
abbrev FBK_EVENT.a : Nat := 0x40090068
abbrev FBK_EVENT.RESOLVER_LOS : Field := ⟨FBK_EVENT.a, 0, 1⟩
abbrev FBK_EVENT.RESOLVER_CLIP : Field := ⟨FBK_EVENT.a, 1, 1⟩
abbrev FBK_EVENT.RESOLVER_LOT : Field := ⟨FBK_EVENT.a, 2, 1⟩
abbrev FBK_EVENT.RESOLVER_LOCKED : Field := ⟨FBK_EVENT.a, 3, 1⟩
abbrev FBK_EVENT.HALL_IMPOSSIBLE : Field := ⟨FBK_EVENT.a, 4, 1⟩
abbrev FBK_EVENT.HALL_JUMP : Field := ⟨FBK_EVENT.a, 5, 1⟩
abbrev FBK_EVENT.QUAD_ERROR : Field := ⟨FBK_EVENT.a, 6, 1⟩
abbrev FBK_EVENT.MARKER_EDGE : Field := ⟨FBK_EVENT.a, 7, 1⟩
abbrev FBK_EVENT.ENDSTOP_EDGE : Field := ⟨FBK_EVENT.a, 8, 1⟩
abbrev FBK_EVENT.CHATTER : Field := ⟨FBK_EVENT.a, 9, 1⟩
abbrev FBK_EVENT.STUCK_ACTIVE : Field := ⟨FBK_EVENT.a, 10, 1⟩
abbrev DOK_CTRL.a : Nat := 0x400A0000
abbrev DOK_CTRL.EN : Field := ⟨DOK_CTRL.a, 0, 1⟩
abbrev DOK_CTRL.MARKER_CHECK : Field := ⟨DOK_CTRL.a, 1, 1⟩
abbrev DOK_STATUS.a : Nat := 0x400A0004
abbrev DOK_STATUS.STATE : Field := ⟨DOK_STATUS.a, 0, 3⟩
abbrev DOK_STATUS.HOMED : Field := ⟨DOK_STATUS.a, 3, 1⟩
abbrev DOK_STATUS.DIR : Field := ⟨DOK_STATUS.a, 4, 1⟩
abbrev DOK_STATUS.SLEWING : Field := ⟨DOK_STATUS.a, 5, 1⟩
abbrev DOK_STATUS.ARMED : Field := ⟨DOK_STATUS.a, 8, 8⟩
abbrev DOK_STATUS.OUT : Field := ⟨DOK_STATUS.a, 16, 4⟩
abbrev DOK_EVENT.a : Nat := 0x400A0008
abbrev DOK_EVENT.ARRIVED : Field := ⟨DOK_EVENT.a, 0, 1⟩
abbrev DOK_EVENT.HOMED : Field := ⟨DOK_EVENT.a, 1, 1⟩
abbrev DOK_EVENT.HOME_NOT_FOUND : Field := ⟨DOK_EVENT.a, 2, 1⟩
abbrev DOK_EVENT.ENDSTOP_HIT : Field := ⟨DOK_EVENT.a, 3, 1⟩
abbrev DOK_EVENT.MARKER_MISMATCH : Field := ⟨DOK_EVENT.a, 4, 1⟩
abbrev DOK_EVENT.COMPARE_FIRED : Field := ⟨DOK_EVENT.a, 5, 1⟩
abbrev DOK_EVENT.COMPARE_PASSED : Field := ⟨DOK_EVENT.a, 6, 1⟩
abbrev DOK_EVENT.OVERSHOOT : Field := ⟨DOK_EVENT.a, 7, 1⟩
abbrev DOK_EVENT.MOVE_ABORTED : Field := ⟨DOK_EVENT.a, 8, 1⟩
abbrev DOK_POS.a : Nat := 0x400A000C
abbrev DOK_POS.VALUE : Field := ⟨DOK_POS.a, 0, 32⟩
abbrev DOK_TARGET.a : Nat := 0x400A0010
abbrev DOK_TARGET.VALUE : Field := ⟨DOK_TARGET.a, 0, 32⟩
abbrev DOK_SPEED.a : Nat := 0x400A0014
abbrev DOK_SPEED.V : Field := ⟨DOK_SPEED.a, 0, 32⟩
abbrev DOK_OVERSHOOT.a : Nat := 0x400A0018
abbrev DOK_OVERSHOOT.VALUE : Field := ⟨DOK_OVERSHOOT.a, 0, 32⟩
abbrev DOK_ARRIVE_ERR.a : Nat := 0x400A001C
abbrev DOK_ARRIVE_ERR.VALUE : Field := ⟨DOK_ARRIVE_ERR.a, 0, 32⟩
abbrev DOK_MARKER_DIFF.a : Nat := 0x400A0020
abbrev DOK_MARKER_DIFF.VALUE : Field := ⟨DOK_MARKER_DIFF.a, 0, 32⟩
abbrev DOK_CMP_POS.a (k : Nat) : Nat := 0x400A0040 + 0x8 * k
abbrev DOK_CMP_POS.POS (k : Nat) : Field := ⟨DOK_CMP_POS.a k, 0, 32⟩
abbrev DOK_CMP_CFG.a (k : Nat) : Nat := 0x400A0044 + 0x8 * k
abbrev DOK_CMP_CFG.DIR (k : Nat) : Field := ⟨DOK_CMP_CFG.a k, 0, 2⟩
abbrev DOK_CMP_CFG.ACTION (k : Nat) : Field := ⟨DOK_CMP_CFG.a k, 2, 2⟩
abbrev DOK_CMP_CFG.OUT (k : Nat) : Field := ⟨DOK_CMP_CFG.a k, 4, 2⟩
abbrev DOK_CMP_CFG.FIRE_IF_PASSED (k : Nat) : Field := ⟨DOK_CMP_CFG.a k, 6, 1⟩
abbrev DOK_CMP_CFG.ARMED (k : Nat) : Field := ⟨DOK_CMP_CFG.a k, 7, 1⟩
abbrev DOK_CFG_IMAGE.a (w : Nat) : Nat := 0x400A0100 + 0x4 * w
abbrev DOK_CFG_IMAGE.DATA (w : Nat) : Field := ⟨DOK_CFG_IMAGE.a w, 0, 32⟩
abbrev CNV_U_CTRL.a (u : Nat) : Nat := 0x400B0000 + 0x1000 * u
abbrev CNV_U_CTRL.EN (u : Nat) : Field := ⟨CNV_U_CTRL.a u, 0, 1⟩
abbrev CNV_U_CTRL.LP_EN (u : Nat) : Field := ⟨CNV_U_CTRL.a u, 1, 1⟩
abbrev CNV_U_CTRL.LOOP (u : Nat) : Field := ⟨CNV_U_CTRL.a u, 2, 1⟩
abbrev CNV_U_CTRL.POLICY (u : Nat) : Field := ⟨CNV_U_CTRL.a u, 3, 2⟩
abbrev CNV_U_CTRL.START (u : Nat) : Field := ⟨CNV_U_CTRL.a u, 5, 1⟩
abbrev CNV_U_CTRL.TRIG_SRC (u : Nat) : Field := ⟨CNV_U_CTRL.a u, 6, 1⟩
abbrev CNV_U_CTRL.TRIG_TCH (u : Nat) : Field := ⟨CNV_U_CTRL.a u, 7, 6⟩
abbrev CNV_U_CTRL.FG_LEN (u : Nat) : Field := ⟨CNV_U_CTRL.a u, 13, 7⟩
abbrev CNV_U_CTRL.LEN (u : Nat) : Field := ⟨CNV_U_CTRL.a u, 20, 7⟩
abbrev CNV_U_STATUS.a (u : Nat) : Nat := 0x400B0004 + 0x1000 * u
abbrev CNV_U_STATUS.ENTRY (u : Nat) : Field := ⟨CNV_U_STATUS.a u, 0, 6⟩
abbrev CNV_U_STATUS.BUSY (u : Nat) : Field := ⟨CNV_U_STATUS.a u, 6, 1⟩
abbrev CNV_U_STATUS.FG (u : Nat) : Field := ⟨CNV_U_STATUS.a u, 7, 1⟩
abbrev CNV_U_STATUS.LP (u : Nat) : Field := ⟨CNV_U_STATUS.a u, 8, 1⟩
abbrev CNV_U_STATUS.QUEUED (u : Nat) : Field := ⟨CNV_U_STATUS.a u, 9, 1⟩
abbrev CNV_U_STATUS.URG_PENDING (u : Nat) : Field := ⟨CNV_U_STATUS.a u, 10, 1⟩
abbrev CNV_U_STATUS.REMAIN (u : Nat) : Field := ⟨CNV_U_STATUS.a u, 16, 9⟩
abbrev CNV_U_EVENT.a (u : Nat) : Nat := 0x400B0008 + 0x1000 * u
abbrev CNV_U_EVENT.TRIG_IGNORED (u : Nat) : Field := ⟨CNV_U_EVENT.a u, 0, 1⟩
abbrev CNV_U_EVENT.TRIG_RESTART (u : Nat) : Field := ⟨CNV_U_EVENT.a u, 1, 1⟩
abbrev CNV_U_EVENT.ABORTED (u : Nat) : Field := ⟨CNV_U_EVENT.a u, 2, 1⟩
abbrev CNV_U_EVENT.DMA_HALF (u : Nat) : Field := ⟨CNV_U_EVENT.a u, 3, 1⟩
abbrev CNV_U_EVENT.DMA_FULL (u : Nat) : Field := ⟨CNV_U_EVENT.a u, 4, 1⟩
abbrev CNV_U_EVENT.OVERFLOW (u : Nat) : Field := ⟨CNV_U_EVENT.a u, 5, 1⟩
abbrev CNV_U_EVENT.URGENT_BUSY (u : Nat) : Field := ⟨CNV_U_EVENT.a u, 6, 1⟩
abbrev CNV_U_EVENT.URGENT_DONE (u : Nat) : Field := ⟨CNV_U_EVENT.a u, 7, 1⟩
abbrev CNV_U_EVENT.FG_LATE (u : Nat) : Field := ⟨CNV_U_EVENT.a u, 8, 1⟩
abbrev CNV_U_COUNT.a (u : Nat) : Nat := 0x400B000C + 0x1000 * u
abbrev CNV_U_COUNT.IGNORED (u : Nat) : Field := ⟨CNV_U_COUNT.a u, 0, 16⟩
abbrev CNV_U_COUNT.DROPPED (u : Nat) : Field := ⟨CNV_U_COUNT.a u, 16, 16⟩
abbrev CNV_U_CAL.a (u : Nat) : Nat := 0x400B0010 + 0x1000 * u
abbrev CNV_U_CAL.OFS (u : Nat) : Field := ⟨CNV_U_CAL.a u, 0, 16⟩
abbrev CNV_U_CAL.GTRIM (u : Nat) : Field := ⟨CNV_U_CAL.a u, 16, 16⟩
abbrev CNV_U_DMA_BASE.a (u : Nat) : Nat := 0x400B0014 + 0x1000 * u
abbrev CNV_U_DMA_BASE.BASE (u : Nat) : Field := ⟨CNV_U_DMA_BASE.a u, 0, 32⟩
abbrev CNV_U_DMA_CFG.a (u : Nat) : Nat := 0x400B0018 + 0x1000 * u
abbrev CNV_U_DMA_CFG.LOG2SIZE (u : Nat) : Field := ⟨CNV_U_DMA_CFG.a u, 0, 5⟩
abbrev CNV_U_DMA_WR.a (u : Nat) : Nat := 0x400B001C + 0x1000 * u
abbrev CNV_U_DMA_WR.WR (u : Nat) : Field := ⟨CNV_U_DMA_WR.a u, 0, 20⟩
abbrev CNV_U_DMA_RD.a (u : Nat) : Nat := 0x400B0020 + 0x1000 * u
abbrev CNV_U_DMA_RD.RD (u : Nat) : Field := ⟨CNV_U_DMA_RD.a u, 0, 20⟩
abbrev CNV_U_URGENT.a (u : Nat) : Nat := 0x400B0024 + 0x1000 * u
abbrev CNV_U_URGENT.CH (u : Nat) : Field := ⟨CNV_U_URGENT.a u, 0, 7⟩
abbrev CNV_U_URGENT.SAMPLE (u : Nat) : Field := ⟨CNV_U_URGENT.a u, 7, 4⟩
abbrev CNV_U_URG_RESULT.a (u : Nat) : Nat := 0x400B0028 + 0x1000 * u
abbrev CNV_U_URG_RESULT.CODE (u : Nat) : Field := ⟨CNV_U_URG_RESULT.a u, 0, 16⟩
abbrev CNV_U_URG_RESULT.DONE (u : Nat) : Field := ⟨CNV_U_URG_RESULT.a u, 16, 1⟩
abbrev CNV_U_LAST.a (u : Nat) : Nat := 0x400B002C + 0x1000 * u
abbrev CNV_U_LAST.RECORD (u : Nat) : Field := ⟨CNV_U_LAST.a u, 0, 32⟩
abbrev CNV_U_LAST_T.a (u : Nat) : Nat := 0x400B0030 + 0x1000 * u
abbrev CNV_U_LAST_T.RECORD (u : Nat) : Field := ⟨CNV_U_LAST_T.a u, 0, 32⟩
abbrev CNV_U_E_CH.a (u k : Nat) : Nat := 0x400B0400 + 0x1000 * u + 0x10 * k
abbrev CNV_U_E_CH.CH (u k : Nat) : Field := ⟨CNV_U_E_CH.a u k, 0, 7⟩
abbrev CNV_U_E_CH.SAMPLE (u k : Nat) : Field := ⟨CNV_U_E_CH.a u k, 7, 4⟩
abbrev CNV_U_E_CH.REPEAT (u k : Nat) : Field := ⟨CNV_U_E_CH.a u k, 11, 8⟩
abbrev CNV_U_E_CH.AVG (u k : Nat) : Field := ⟨CNV_U_E_CH.a u k, 19, 1⟩
abbrev CNV_U_E_CH.DMA (u k : Nat) : Field := ⟨CNV_U_E_CH.a u k, 20, 1⟩
abbrev CNV_U_E_TIME.a (u k : Nat) : Nat := 0x400B0404 + 0x1000 * u + 0x10 * k
abbrev CNV_U_E_TIME.DELAY (u k : Nat) : Field := ⟨CNV_U_E_TIME.a u k, 0, 16⟩
abbrev CNV_U_E_TIME.ZERO (u k : Nat) : Field := ⟨CNV_U_E_TIME.a u k, 16, 16⟩
abbrev CNV_U_E_DEST.a (u k : Nat) : Nat := 0x400B0408 + 0x1000 * u + 0x10 * k
abbrev CNV_U_E_DEST.DEST (u k : Nat) : Field := ⟨CNV_U_E_DEST.a u k, 0, 8⟩
abbrev CNV_U_E_DEST.DEST_EN (u k : Nat) : Field := ⟨CNV_U_E_DEST.a u k, 8, 1⟩
abbrev CNV_U_E_DEST.K_E (u k : Nat) : Field := ⟨CNV_U_E_DEST.a u k, 9, 4⟩
abbrev CNV_U_E_DEST.K_M (u k : Nat) : Field := ⟨CNV_U_E_DEST.a u k, 16, 16⟩
abbrev CNV_DEC_CFG.a : Nat := 0x400B7000
abbrev CNV_DEC_CFG.OSR_V : Field := ⟨CNV_DEC_CFG.a, 0, 2⟩
abbrev CNV_DEC_CFG.OSR_I : Field := ⟨CNV_DEC_CFG.a, 2, 2⟩
abbrev CNV_FE_V_FS.a : Nat := 0x400B7004
abbrev CNV_FE_V_FS.VALUE : Field := ⟨CNV_FE_V_FS.a, 0, 32⟩
abbrev CNV_FE_I_FS.a : Nat := 0x400B7008
abbrev CNV_FE_I_FS.VALUE : Field := ⟨CNV_FE_I_FS.a, 0, 32⟩
abbrev CNV_DAC.a : Nat := 0x400B700C
abbrev CNV_DAC.CODE : Field := ⟨CNV_DAC.a, 0, 12⟩
abbrev CNV_DAC.EN : Field := ⟨CNV_DAC.a, 12, 1⟩
abbrev CNV_EVENT.a : Nat := 0x400B7010
abbrev CNV_EVENT.AUX_SKIP : Field := ⟨CNV_EVENT.a, 0, 1⟩
abbrev CNV_EVENT.CRC_MARK : Field := ⟨CNV_EVENT.a, 1, 1⟩
abbrev CNV_AUX_GAIN.a (k : Nat) : Nat := 0x400B7040 + 0x8 * k
abbrev CNV_AUX_GAIN.VALUE (k : Nat) : Field := ⟨CNV_AUX_GAIN.a k, 0, 32⟩
abbrev CNV_AUX_OFS.a (k : Nat) : Nat := 0x400B7044 + 0x8 * k
abbrev CNV_AUX_OFS.VALUE (k : Nat) : Field := ⟨CNV_AUX_OFS.a k, 0, 32⟩
abbrev CNV_C_CAL_V.a (c : Nat) : Nat := 0x400B8000 + 0x20 * c
abbrev CNV_C_CAL_V.GAIN (c : Nat) : Field := ⟨CNV_C_CAL_V.a c, 0, 16⟩
abbrev CNV_C_CAL_V.OFS (c : Nat) : Field := ⟨CNV_C_CAL_V.a c, 16, 16⟩
abbrev CNV_C_CAL_I.a (c : Nat) : Nat := 0x400B8004 + 0x20 * c
abbrev CNV_C_CAL_I.GAIN (c : Nat) : Field := ⟨CNV_C_CAL_I.a c, 0, 16⟩
abbrev CNV_C_CAL_I.OFS (c : Nat) : Field := ⟨CNV_C_CAL_I.a c, 16, 16⟩
abbrev CNV_C_V_MEAN.a (c : Nat) : Nat := 0x400B8008 + 0x20 * c
abbrev CNV_C_V_MEAN.VALUE (c : Nat) : Field := ⟨CNV_C_V_MEAN.a c, 0, 32⟩
abbrev CNV_C_I_MEAN.a (c : Nat) : Nat := 0x400B800C + 0x20 * c
abbrev CNV_C_I_MEAN.VALUE (c : Nat) : Field := ⟨CNV_C_I_MEAN.a c, 0, 32⟩
abbrev CNV_C_V_SAMP.a (c : Nat) : Nat := 0x400B8010 + 0x20 * c
abbrev CNV_C_V_SAMP.VALUE (c : Nat) : Field := ⟨CNV_C_V_SAMP.a c, 0, 32⟩
abbrev CNV_C_I_SAMP.a (c : Nat) : Nat := 0x400B8014 + 0x20 * c
abbrev CNV_C_I_SAMP.VALUE (c : Nat) : Field := ⟨CNV_C_I_SAMP.a c, 0, 32⟩
abbrev CNV_C_STAT.a (c : Nat) : Nat := 0x400B8018 + 0x20 * c
abbrev CNV_C_STAT.V_VALID (c : Nat) : Field := ⟨CNV_C_STAT.a c, 0, 1⟩
abbrev CNV_C_STAT.I_VALID (c : Nat) : Field := ⟨CNV_C_STAT.a c, 1, 1⟩
abbrev CNV_C_STAT.CRC_SUSPECT (c : Nat) : Field := ⟨CNV_C_STAT.a c, 2, 1⟩
abbrev CNV_C_STAT.MARK_FINAL (c : Nat) : Field := ⟨CNV_C_STAT.a c, 3, 1⟩
abbrev CNV_C_STAT.AUX_SKIPS (c : Nat) : Field := ⟨CNV_C_STAT.a c, 8, 8⟩
abbrev CNV_C_STAT.BITS (c : Nat) : Field := ⟨CNV_C_STAT.a c, 16, 16⟩
abbrev CNV_C_AUX_01.a (c : Nat) : Nat := 0x400BC000 + 0x10 * c
abbrev CNV_C_AUX_01.EVEN (c : Nat) : Field := ⟨CNV_C_AUX_01.a c, 0, 16⟩
abbrev CNV_C_AUX_01.ODD (c : Nat) : Field := ⟨CNV_C_AUX_01.a c, 16, 16⟩
abbrev CNV_C_AUX_23.a (c : Nat) : Nat := 0x400BC004 + 0x10 * c
abbrev CNV_C_AUX_23.EVEN (c : Nat) : Field := ⟨CNV_C_AUX_23.a c, 0, 16⟩
abbrev CNV_C_AUX_23.ODD (c : Nat) : Field := ⟨CNV_C_AUX_23.a c, 16, 16⟩
abbrev CNV_C_AUX_45.a (c : Nat) : Nat := 0x400BC008 + 0x10 * c
abbrev CNV_C_AUX_45.EVEN (c : Nat) : Field := ⟨CNV_C_AUX_45.a c, 0, 16⟩
abbrev CNV_C_AUX_45.ODD (c : Nat) : Field := ⟨CNV_C_AUX_45.a c, 16, 16⟩
abbrev CNV_C_AUX_67.a (c : Nat) : Nat := 0x400BC00C + 0x10 * c
abbrev CNV_C_AUX_67.EVEN (c : Nat) : Field := ⟨CNV_C_AUX_67.a c, 0, 16⟩
abbrev CNV_C_AUX_67.ODD (c : Nat) : Field := ⟨CNV_C_AUX_67.a c, 16, 16⟩
abbrev CLK_CTRL.a : Nat := 0x40000000
abbrev CLK_CTRL.REF_SEL : Field := ⟨CLK_CTRL.a, 0, 1⟩
abbrev CLK_SLEW.a : Nat := 0x40000004
abbrev CLK_SLEW.RATE : Field := ⟨CLK_SLEW.a, 0, 10⟩
abbrev CLK_HOLDOVER_CFG.a : Nat := 0x40000008
abbrev CLK_HOLDOVER_CFG.MAX_S : Field := ⟨CLK_HOLDOVER_CFG.a, 0, 12⟩
abbrev CLK_STATUS.a : Nat := 0x4000000C
abbrev CLK_STATUS.REF_VALID : Field := ⟨CLK_STATUS.a, 0, 1⟩
abbrev CLK_STATUS.ORIGIN_SET : Field := ⟨CLK_STATUS.a, 1, 1⟩
abbrev CLK_STATUS.WALL_DEGRADED : Field := ⟨CLK_STATUS.a, 2, 1⟩
abbrev CLK_STATUS.ON_BYPASS : Field := ⟨CLK_STATUS.a, 8, 5⟩
abbrev CLK_EVENT.a : Nat := 0x40000010
abbrev CLK_EVENT.REF_LOST : Field := ⟨CLK_EVENT.a, 0, 1⟩
abbrev CLK_EVENT.PLL_FAULT : Field := ⟨CLK_EVENT.a, 1, 1⟩
abbrev CLK_EVENT.REF_RETURNED : Field := ⟨CLK_EVENT.a, 2, 1⟩
abbrev CLK_EVENT.PHASE_RESTORED : Field := ⟨CLK_EVENT.a, 3, 1⟩
abbrev CLK_EVENT.HOLDOVER_EXCEEDED : Field := ⟨CLK_EVENT.a, 4, 1⟩
abbrev CLK_EVENT.SLEW_ABANDONED : Field := ⟨CLK_EVENT.a, 5, 1⟩
abbrev CLK_EVENT.WALLCLOCK_DEGRADED : Field := ⟨CLK_EVENT.a, 6, 1⟩
abbrev CLK_PLL_STAT.a (k : Nat) : Nat := 0x40000020 + 0x8 * k
abbrev CLK_PLL_STAT.STATE (k : Nat) : Field := ⟨CLK_PLL_STAT.a k, 0, 3⟩
abbrev CLK_PLL_STAT.RUN (k : Nat) : Field := ⟨CLK_PLL_STAT.a k, 4, 2⟩
abbrev CLK_PLL_STAT.DEV (k : Nat) : Field := ⟨CLK_PLL_STAT.a k, 8, 8⟩
abbrev CLK_PLL_STAT.LOSSES (k : Nat) : Field := ⟨CLK_PLL_STAT.a k, 16, 16⟩
abbrev CLK_PLL_COUNT.a (k : Nat) : Nat := 0x40000024 + 0x8 * k
abbrev CLK_PLL_COUNT.COUNT (k : Nat) : Field := ⟨CLK_PLL_COUNT.a k, 0, 20⟩
abbrev CLK_PHASE.a : Nat := 0x40000040
abbrev CLK_PHASE.PHI : Field := ⟨CLK_PHASE.a, 0, 16⟩
abbrev CLK_PHASE.REMAIN : Field := ⟨CLK_PHASE.a, 16, 16⟩
abbrev CLK_HOLD_TIME.a : Nat := 0x40000044
abbrev CLK_HOLD_TIME.MS : Field := ⟨CLK_HOLD_TIME.a, 0, 32⟩
abbrev CLK_HOLD_PPM.a : Nat := 0x40000048
abbrev CLK_HOLD_PPM.PPM : Field := ⟨CLK_HOLD_PPM.a, 0, 16⟩
abbrev CLK_WALL_LO.a : Nat := 0x4000004C
abbrev CLK_WALL_LO.SECONDS : Field := ⟨CLK_WALL_LO.a, 0, 32⟩
abbrev CLK_WALL_HI.a : Nat := 0x40000050
abbrev CLK_WALL_HI.SECONDS : Field := ⟨CLK_WALL_HI.a, 0, 32⟩
abbrev MBX_CTRL.a : Nat := 0x400C0000
abbrev MBX_CTRL.IRQ_MASK : Field := ⟨MBX_CTRL.a, 0, 16⟩
abbrev MBX_CTRL.ALARM_IRQ_EN : Field := ⟨MBX_CTRL.a, 16, 1⟩
abbrev MBX_STATE.a : Nat := 0x400C0004
abbrev MBX_STATE.STATE : Field := ⟨MBX_STATE.a, 0, 32⟩
abbrev MBX_DOORBELL.a : Nat := 0x400C0008
abbrev MBX_DOORBELL.MAILBOX : Field := ⟨MBX_DOORBELL.a, 0, 4⟩
abbrev MBX_REPLY_READY.a : Nat := 0x400C000C
abbrev MBX_REPLY_READY.READY : Field := ⟨MBX_REPLY_READY.a, 0, 16⟩
abbrev MBX_EVENT.a : Nat := 0x400C0010
abbrev MBX_EVENT.DOORBELL_REFUSED : Field := ⟨MBX_EVENT.a, 0, 1⟩
abbrev MBX_EVENT.SPI_ERROR : Field := ⟨MBX_EVENT.a, 1, 1⟩
abbrev MBX_EVENT.UDP_DROPPED : Field := ⟨MBX_EVENT.a, 2, 1⟩
abbrev MBX_EVENT.CAN_SEGMENT_ERROR : Field := ⟨MBX_EVENT.a, 3, 1⟩
abbrev MBX_EVENT.ALARM : Field := ⟨MBX_EVENT.a, 4, 1⟩
abbrev MBX_EVENT.REPLAYED : Field := ⟨MBX_EVENT.a, 5, 1⟩
abbrev MBX_COUNT.a : Nat := 0x400C0014
abbrev MBX_COUNT.REFUSED : Field := ⟨MBX_COUNT.a, 0, 16⟩
abbrev MBX_COUNT.DROPPED : Field := ⟨MBX_COUNT.a, 16, 16⟩
abbrev MBX_MB_CFG.a (m : Nat) : Nat := 0x400C0040 + 0x8 * m
abbrev MBX_MB_CFG.PORT (m : Nat) : Field := ⟨MBX_MB_CFG.a m, 0, 4⟩
abbrev MBX_MB_CFG.PRIV (m : Nat) : Field := ⟨MBX_MB_CFG.a m, 4, 1⟩
abbrev MBX_MB_CFG.LAST_VALID (m : Nat) : Field := ⟨MBX_MB_CFG.a m, 5, 1⟩
abbrev MBX_MB_LAST.a (m : Nat) : Nat := 0x400C0044 + 0x8 * m
abbrev MBX_MB_LAST.SEQUENCE (m : Nat) : Field := ⟨MBX_MB_LAST.a m, 0, 32⟩
abbrev STU_CTRL.a : Nat := 0x400D0000
abbrev STU_CTRL.FLUSH : Field := ⟨STU_CTRL.a, 0, 1⟩
abbrev STU_EVENT.a : Nat := 0x400D0004
abbrev STU_EVENT.FAULT : Field := ⟨STU_EVENT.a, 0, 1⟩
abbrev STU_EVENT.ABORTED : Field := ⟨STU_EVENT.a, 1, 1⟩
abbrev STU_EVENT.ECC : Field := ⟨STU_EVENT.a, 2, 1⟩
abbrev STU_FAULT_MAP.a : Nat := 0x400D0008
abbrev STU_FAULT_MAP.FAULTED : Field := ⟨STU_FAULT_MAP.a, 0, 16⟩
abbrev STU_FAULT_TIMEOUT.a : Nat := 0x400D000C
abbrev STU_FAULT_TIMEOUT.MS : Field := ⟨STU_FAULT_TIMEOUT.a, 0, 10⟩
abbrev STU_CH_CFG.a (n : Nat) : Nat := 0x400D0100 + 0x40 * n
abbrev STU_CH_CFG.PRIO (n : Nat) : Field := ⟨STU_CH_CFG.a n, 0, 3⟩
abbrev STU_CH_CFG.XLATE (n : Nat) : Field := ⟨STU_CH_CFG.a n, 3, 1⟩
abbrev STU_CH_CFG.EN (n : Nat) : Field := ⟨STU_CH_CFG.a n, 4, 1⟩
abbrev STU_CH_TTB.a (n : Nat) : Nat := 0x400D0104 + 0x40 * n
abbrev STU_CH_TTB.BASE (n : Nat) : Field := ⟨STU_CH_TTB.a n, 12, 20⟩
abbrev STU_CH_SRC.a (n : Nat) : Nat := 0x400D0108 + 0x40 * n
abbrev STU_CH_SRC.VALUE (n : Nat) : Field := ⟨STU_CH_SRC.a n, 0, 32⟩
abbrev STU_CH_DST.a (n : Nat) : Nat := 0x400D010C + 0x40 * n
abbrev STU_CH_DST.VALUE (n : Nat) : Field := ⟨STU_CH_DST.a n, 0, 32⟩
abbrev STU_CH_LEN.a (n : Nat) : Nat := 0x400D0110 + 0x40 * n
abbrev STU_CH_LEN.VALUE (n : Nat) : Field := ⟨STU_CH_LEN.a n, 0, 32⟩
abbrev STU_CH_CMD.a (n : Nat) : Nat := 0x400D0114 + 0x40 * n
abbrev STU_CH_CMD.START (n : Nat) : Field := ⟨STU_CH_CMD.a n, 0, 1⟩
abbrev STU_CH_CMD.RESUME (n : Nat) : Field := ⟨STU_CH_CMD.a n, 1, 1⟩
abbrev STU_CH_CMD.ABORT (n : Nat) : Field := ⟨STU_CH_CMD.a n, 2, 1⟩
abbrev STU_CH_STAT.a (n : Nat) : Nat := 0x400D0118 + 0x40 * n
abbrev STU_CH_STAT.STATE (n : Nat) : Field := ⟨STU_CH_STAT.a n, 0, 3⟩
abbrev STU_CH_STAT.CAUSE (n : Nat) : Field := ⟨STU_CH_STAT.a n, 3, 3⟩
abbrev STU_CH_STAT.SIDE (n : Nat) : Field := ⟨STU_CH_STAT.a n, 6, 1⟩
abbrev STU_CH_STAT.FAULTS (n : Nat) : Field := ⟨STU_CH_STAT.a n, 8, 16⟩
abbrev STU_CH_FAULT_ADDR.a (n : Nat) : Nat := 0x400D011C + 0x40 * n
abbrev STU_CH_FAULT_ADDR.VALUE (n : Nat) : Field := ⟨STU_CH_FAULT_ADDR.a n, 0, 32⟩
abbrev STU_CH_DONE.a (n : Nat) : Nat := 0x400D0120 + 0x40 * n
abbrev STU_CH_DONE.VALUE (n : Nat) : Field := ⟨STU_CH_DONE.a n, 0, 32⟩
abbrev STU_CH_REMAIN.a (n : Nat) : Nat := 0x400D0124 + 0x40 * n
abbrev STU_CH_REMAIN.VALUE (n : Nat) : Field := ⟨STU_CH_REMAIN.a n, 0, 32⟩
abbrev LGR_CTRL.a : Nat := 0x400E0000
abbrev LGR_CTRL.EN : Field := ⟨LGR_CTRL.a, 0, 1⟩
abbrev LGR_CTRL.SNAP : Field := ⟨LGR_CTRL.a, 1, 1⟩
abbrev LGR_CTRL.FLUSH : Field := ⟨LGR_CTRL.a, 2, 1⟩
abbrev LGR_CTRL.FLUSH_S : Field := ⟨LGR_CTRL.a, 4, 12⟩
abbrev LGR_STATUS.a : Nat := 0x400E0004
abbrev LGR_STATUS.COMMISSIONED : Field := ⟨LGR_STATUS.a, 0, 1⟩
abbrev LGR_STATUS.FLUSHING : Field := ⟨LGR_STATUS.a, 1, 1⟩
abbrev LGR_STATUS.CHAIN_OK : Field := ⟨LGR_STATUS.a, 2, 1⟩
abbrev LGR_STATUS.UNVERIFIED : Field := ⟨LGR_STATUS.a, 8, 8⟩
abbrev LGR_STATUS.LOST : Field := ⟨LGR_STATUS.a, 16, 8⟩
abbrev LGR_STATUS.BAD_COPIES : Field := ⟨LGR_STATUS.a, 24, 8⟩
abbrev LGR_EVENT.a : Nat := 0x400E0008
abbrev LGR_EVENT.COPY_DIVERGENCE : Field := ⟨LGR_EVENT.a, 0, 1⟩
abbrev LGR_EVENT.CHAIN_BREAK : Field := ⟨LGR_EVENT.a, 1, 1⟩
abbrev LGR_EVENT.SOD_LOST : Field := ⟨LGR_EVENT.a, 2, 1⟩
abbrev LGR_EVENT.BANK_FAULT : Field := ⟨LGR_EVENT.a, 3, 1⟩
abbrev LGR_EVENT.DARK_INTERVAL : Field := ⟨LGR_EVENT.a, 4, 1⟩
abbrev LGR_EVENT.CHAR_LIST_FULL : Field := ⟨LGR_EVENT.a, 5, 1⟩
abbrev LGR_EVENT.RECORD_DISCARDED : Field := ⟨LGR_EVENT.a, 6, 1⟩
abbrev LGR_EVENT.FLUSH_DONE : Field := ⟨LGR_EVENT.a, 7, 1⟩
abbrev LGR_HEAD_SEQ_LO.a : Nat := 0x400E000C
abbrev LGR_HEAD_SEQ_LO.SEQ : Field := ⟨LGR_HEAD_SEQ_LO.a, 0, 32⟩
abbrev LGR_HEAD_SEQ_HI.a : Nat := 0x400E0010
abbrev LGR_HEAD_SEQ_HI.SEQ : Field := ⟨LGR_HEAD_SEQ_HI.a, 0, 32⟩
abbrev LGR_ANCHOR_SEQ_LO.a : Nat := 0x400E0014
abbrev LGR_ANCHOR_SEQ_LO.SEQ : Field := ⟨LGR_ANCHOR_SEQ_LO.a, 0, 32⟩
abbrev LGR_ANCHOR_SEQ_HI.a : Nat := 0x400E0018
abbrev LGR_ANCHOR_SEQ_HI.SEQ : Field := ⟨LGR_ANCHOR_SEQ_HI.a, 0, 32⟩
abbrev LGR_C_E_OUT_LO.a (c : Nat) : Nat := 0x400E1000 + 0x40 * c
abbrev LGR_C_E_OUT_LO.VALUE (c : Nat) : Field := ⟨LGR_C_E_OUT_LO.a c, 0, 32⟩
abbrev LGR_C_E_OUT_HI.a (c : Nat) : Nat := 0x400E1004 + 0x40 * c
abbrev LGR_C_E_OUT_HI.VALUE (c : Nat) : Field := ⟨LGR_C_E_OUT_HI.a c, 0, 32⟩
abbrev LGR_C_E_IN_LO.a (c : Nat) : Nat := 0x400E1008 + 0x40 * c
abbrev LGR_C_E_IN_LO.VALUE (c : Nat) : Field := ⟨LGR_C_E_IN_LO.a c, 0, 32⟩
abbrev LGR_C_E_IN_HI.a (c : Nat) : Nat := 0x400E100C + 0x40 * c
abbrev LGR_C_E_IN_HI.VALUE (c : Nat) : Field := ⟨LGR_C_E_IN_HI.a c, 0, 32⟩
abbrev LGR_C_E_OUT_RES_LO.a (c : Nat) : Nat := 0x400E1010 + 0x40 * c
abbrev LGR_C_E_OUT_RES_LO.VALUE (c : Nat) : Field := ⟨LGR_C_E_OUT_RES_LO.a c, 0, 32⟩
abbrev LGR_C_E_OUT_RES_HI.a (c : Nat) : Nat := 0x400E1014 + 0x40 * c
abbrev LGR_C_E_OUT_RES_HI.VALUE (c : Nat) : Field := ⟨LGR_C_E_OUT_RES_HI.a c, 0, 32⟩
abbrev LGR_C_E_IN_RES_LO.a (c : Nat) : Nat := 0x400E1018 + 0x40 * c
abbrev LGR_C_E_IN_RES_LO.VALUE (c : Nat) : Field := ⟨LGR_C_E_IN_RES_LO.a c, 0, 32⟩
abbrev LGR_C_E_IN_RES_HI.a (c : Nat) : Nat := 0x400E101C + 0x40 * c
abbrev LGR_C_E_IN_RES_HI.VALUE (c : Nat) : Field := ⟨LGR_C_E_IN_RES_HI.a c, 0, 32⟩
abbrev LGR_C_Q_OUT_LO.a (c : Nat) : Nat := 0x400E1020 + 0x40 * c
abbrev LGR_C_Q_OUT_LO.VALUE (c : Nat) : Field := ⟨LGR_C_Q_OUT_LO.a c, 0, 32⟩
abbrev LGR_C_Q_OUT_HI.a (c : Nat) : Nat := 0x400E1024 + 0x40 * c
abbrev LGR_C_Q_OUT_HI.VALUE (c : Nat) : Field := ⟨LGR_C_Q_OUT_HI.a c, 0, 32⟩
abbrev LGR_C_Q_IN_LO.a (c : Nat) : Nat := 0x400E1028 + 0x40 * c
abbrev LGR_C_Q_IN_LO.VALUE (c : Nat) : Field := ⟨LGR_C_Q_IN_LO.a c, 0, 32⟩
abbrev LGR_C_Q_IN_HI.a (c : Nat) : Nat := 0x400E102C + 0x40 * c
abbrev LGR_C_Q_IN_HI.VALUE (c : Nat) : Field := ⟨LGR_C_Q_IN_HI.a c, 0, 32⟩
abbrev LGR_C_Q_OUT_RES.a (c : Nat) : Nat := 0x400E1030 + 0x40 * c
abbrev LGR_C_Q_OUT_RES.VALUE (c : Nat) : Field := ⟨LGR_C_Q_OUT_RES.a c, 0, 32⟩
abbrev LGR_C_Q_IN_RES.a (c : Nat) : Nat := 0x400E1034 + 0x40 * c
abbrev LGR_C_Q_IN_RES.VALUE (c : Nat) : Field := ⟨LGR_C_Q_IN_RES.a c, 0, 32⟩
abbrev LGR_C_STAT.a (c : Nat) : Nat := 0x400E1038 + 0x40 * c
abbrev LGR_C_STAT.METERED (c : Nat) : Field := ⟨LGR_C_STAT.a c, 0, 1⟩
abbrev LGR_C_STAT.SUSPECT (c : Nat) : Field := ⟨LGR_C_STAT.a c, 1, 1⟩
abbrev LGR_C_CD.a (c : Nat) : Nat := 0x400E103C + 0x40 * c
abbrev LGR_C_CD.LEFT (c : Nat) : Field := ⟨LGR_C_CD.a c, 0, 10⟩
abbrev LGR_C_CD.RIGHT (c : Nat) : Field := ⟨LGR_C_CD.a c, 16, 10⟩
abbrev TLM_CTRL.a : Nat := 0x40140000
abbrev TLM_CTRL.PUSH_EN : Field := ⟨TLM_CTRL.a, 0, 1⟩
abbrev TLM_CTRL.TRACE_EN : Field := ⟨TLM_CTRL.a, 1, 1⟩
abbrev TLM_CTRL.SCRUB_EN : Field := ⟨TLM_CTRL.a, 2, 1⟩
abbrev TLM_CTRL.CAL_EN : Field := ⟨TLM_CTRL.a, 3, 1⟩
abbrev TLM_CTRL.THR_EN : Field := ⟨TLM_CTRL.a, 4, 1⟩
abbrev TLM_CTRL.WEAR_EN : Field := ⟨TLM_CTRL.a, 5, 1⟩
abbrev TLM_STATUS.a : Nat := 0x40140004
abbrev TLM_STATUS.ALARMS : Field := ⟨TLM_STATUS.a, 0, 10⟩
abbrev TLM_STATUS.FOLDING : Field := ⟨TLM_STATUS.a, 10, 1⟩
abbrev TLM_STATUS.FLUSH_HOLD : Field := ⟨TLM_STATUS.a, 11, 1⟩
abbrev TLM_STATUS.LOG_RECORDS : Field := ⟨TLM_STATUS.a, 16, 12⟩
abbrev TLM_EVENT.a : Nat := 0x40140008
abbrev TLM_EVENT.LOG_LOSS : Field := ⟨TLM_EVENT.a, 0, 1⟩
abbrev TLM_EVENT.TRACE_GAP : Field := ⟨TLM_EVENT.a, 1, 1⟩
abbrev TLM_EVENT.ALARM_FOLD : Field := ⟨TLM_EVENT.a, 2, 1⟩
abbrev TLM_EVENT.SCRUB_CE : Field := ⟨TLM_EVENT.a, 3, 1⟩
abbrev TLM_EVENT.SCRUB_UE : Field := ⟨TLM_EVENT.a, 4, 1⟩
abbrev TLM_EVENT.MRAM_CE : Field := ⟨TLM_EVENT.a, 5, 1⟩
abbrev TLM_EVENT.MRAM_UE : Field := ⟨TLM_EVENT.a, 6, 1⟩
abbrev TLM_EVENT.CAL_OUT_OF_RANGE : Field := ⟨TLM_EVENT.a, 7, 1⟩
abbrev TLM_LOSS_AB.a : Nat := 0x4014000C
abbrev TLM_LOSS_AB.LOW : Field := ⟨TLM_LOSS_AB.a, 0, 16⟩
abbrev TLM_LOSS_AB.HIGH : Field := ⟨TLM_LOSS_AB.a, 16, 16⟩
abbrev TLM_LOSS_CD.a : Nat := 0x40140010
abbrev TLM_LOSS_CD.LOW : Field := ⟨TLM_LOSS_CD.a, 0, 16⟩
abbrev TLM_LOSS_CD.HIGH : Field := ⟨TLM_LOSS_CD.a, 16, 16⟩
abbrev TLM_TRACE_GAPS.a : Nat := 0x40140014
abbrev TLM_TRACE_GAPS.LOST : Field := ⟨TLM_TRACE_GAPS.a, 0, 32⟩
abbrev TLM_SCRUB.a : Nat := 0x40140018
abbrev TLM_SCRUB.CE : Field := ⟨TLM_SCRUB.a, 0, 16⟩
abbrev TLM_SCRUB.UE : Field := ⟨TLM_SCRUB.a, 16, 16⟩
abbrev TLM_MRAM.a : Nat := 0x4014001C
abbrev TLM_MRAM.CE : Field := ⟨TLM_MRAM.a, 0, 16⟩
abbrev TLM_MRAM.UE : Field := ⟨TLM_MRAM.a, 16, 16⟩
abbrev BST_STATUS.a : Nat := 0x400F0000
abbrev BST_STATUS.REASON : Field := ⟨BST_STATUS.a, 0, 8⟩
abbrev BST_STATUS.STAGE : Field := ⟨BST_STATUS.a, 8, 3⟩
abbrev BST_STATUS.RUNNING : Field := ⟨BST_STATUS.a, 11, 1⟩
abbrev BST_STATUS.STARTS : Field := ⟨BST_STATUS.a, 12, 4⟩
abbrev BST_STATUS.RAIL : Field := ⟨BST_STATUS.a, 16, 3⟩
abbrev BST_STATUS.FUSE_FREE : Field := ⟨BST_STATUS.a, 24, 8⟩
abbrev BST_EVENT.a : Nat := 0x400F0004
abbrev BST_EVENT.DONE : Field := ⟨BST_EVENT.a, 0, 1⟩
abbrev BST_EVENT.INCOMPLETE : Field := ⟨BST_EVENT.a, 1, 1⟩
abbrev BST_EVENT.FAIL : Field := ⟨BST_EVENT.a, 2, 1⟩
abbrev BST_EVENT.SOFT_REPAIR : Field := ⟨BST_EVENT.a, 3, 1⟩
abbrev BST_EVENT.CLAMP_ACCESS : Field := ⟨BST_EVENT.a, 4, 1⟩
abbrev BST_EVENT.FUSE_ENTRY_BAD : Field := ⟨BST_EVENT.a, 5, 1⟩
abbrev BST_EVENT.FUSE_CONFLICT : Field := ⟨BST_EVENT.a, 6, 1⟩
abbrev BST_TIME.a : Nat := 0x400F0008
abbrev BST_TIME.US : Field := ⟨BST_TIME.a, 0, 32⟩
abbrev BST_MEM_RESULT.a (n : Nat) : Nat := 0x400F0100 + 0x10 * n
abbrev BST_MEM_RESULT.RESULT (n : Nat) : Field := ⟨BST_MEM_RESULT.a n, 0, 3⟩
abbrev BST_MEM_RESULT.SOFT (n : Nat) : Field := ⟨BST_MEM_RESULT.a n, 3, 3⟩
abbrev BST_MEM_RESULT.FUSED (n : Nat) : Field := ⟨BST_MEM_RESULT.a n, 6, 3⟩
abbrev BST_MEM_RESULT.FAILS (n : Nat) : Field := ⟨BST_MEM_RESULT.a n, 16, 16⟩
abbrev BST_MEM_MISR.a (n : Nat) : Nat := 0x400F0104 + 0x10 * n
abbrev BST_MEM_MISR.VALUE (n : Nat) : Field := ⟨BST_MEM_MISR.a n, 0, 32⟩
abbrev BST_MEM_OPS.a (n : Nat) : Nat := 0x400F0108 + 0x10 * n
abbrev BST_MEM_OPS.VALUE (n : Nat) : Field := ⟨BST_MEM_OPS.a n, 0, 32⟩
abbrev PWR_CTRL.a : Nat := 0x40010000
abbrev PWR_CTRL.PARK_LINKS : Field := ⟨PWR_CTRL.a, 0, 1⟩
abbrev PWR_CTRL.PARK_CONV : Field := ⟨PWR_CTRL.a, 1, 1⟩
abbrev PWR_STATUS.a : Nat := 0x40010004
abbrev PWR_STATUS.ON : Field := ⟨PWR_STATUS.a, 0, 10⟩
abbrev PWR_STATUS.PARKED : Field := ⟨PWR_STATUS.a, 10, 1⟩
abbrev PWR_STATUS.RESET_PENDING : Field := ⟨PWR_STATUS.a, 11, 1⟩
abbrev PWR_EVENT.a : Nat := 0x40010008
abbrev PWR_EVENT.RAIL_WARNING : Field := ⟨PWR_EVENT.a, 0, 1⟩
abbrev PWR_EVENT.NV_RAIL_FAULT : Field := ⟨PWR_EVENT.a, 1, 1⟩
abbrev PWR_EVENT.OFF_ACCESS : Field := ⟨PWR_EVENT.a, 2, 1⟩
abbrev PWR_EVENT.DOMAIN_UP : Field := ⟨PWR_EVENT.a, 3, 1⟩
abbrev PWR_RESET_CAUSE.a : Nat := 0x4001000C
abbrev PWR_RESET_CAUSE.KIND : Field := ⟨PWR_RESET_CAUSE.a, 0, 2⟩
abbrev PWR_RESET_CAUSE.CAUSE : Field := ⟨PWR_RESET_CAUSE.a, 8, 4⟩
abbrev PWR_RESET_CAUSE.RAIL : Field := ⟨PWR_RESET_CAUSE.a, 12, 3⟩
abbrev PWR_RESET_CAUSE.WDOG_RUN : Field := ⟨PWR_RESET_CAUSE.a, 16, 8⟩
abbrev PWR_RAIL_STAT.a : Nat := 0x40010010
abbrev PWR_RAIL_STAT.GOOD : Field := ⟨PWR_RAIL_STAT.a, 0, 7⟩
abbrev PWR_RAIL_STAT.WARN : Field := ⟨PWR_RAIL_STAT.a, 8, 7⟩
abbrev PWR_WDOG.a : Nat := 0x40010014
abbrev PWR_WDOG.MS : Field := ⟨PWR_WDOG.a, 0, 10⟩
abbrev PWR_WDOG.KICK : Field := ⟨PWR_WDOG.a, 16, 1⟩
abbrev PWR_WAKE_CFG.a : Nat := 0x40010018
abbrev PWR_WAKE_CFG.SRC : Field := ⟨PWR_WAKE_CFG.a, 0, 4⟩
abbrev PWR_WAKE_AFTER.a : Nat := 0x4001001C
abbrev PWR_WAKE_AFTER.SECONDS : Field := ⟨PWR_WAKE_AFTER.a, 0, 32⟩
abbrev PWR_FAULT_ADDR.a : Nat := 0x40010020
abbrev PWR_FAULT_ADDR.ADDR : Field := ⟨PWR_FAULT_ADDR.a, 0, 32⟩
abbrev PWR_FAULT_DOMAIN.a : Nat := 0x40010024
abbrev PWR_FAULT_DOMAIN.DOMAIN : Field := ⟨PWR_FAULT_DOMAIN.a, 0, 4⟩
abbrev PWR_FAULT_DOMAIN.COUNT : Field := ⟨PWR_FAULT_DOMAIN.a, 16, 16⟩
abbrev SEC_STATUS.a : Nat := 0x40100000
abbrev SEC_STATUS.GRADE : Field := ⟨SEC_STATUS.a, 0, 1⟩
abbrev SEC_STATUS.ORIGIN : Field := ⟨SEC_STATUS.a, 1, 1⟩
abbrev SEC_STATUS.BOOT_SLOT : Field := ⟨SEC_STATUS.a, 2, 1⟩
abbrev SEC_STATUS.SLOT0 : Field := ⟨SEC_STATUS.a, 3, 3⟩
abbrev SEC_STATUS.SLOT1 : Field := ⟨SEC_STATUS.a, 6, 3⟩
abbrev SEC_STATUS.ROLLBACK : Field := ⟨SEC_STATUS.a, 9, 7⟩
abbrev SEC_STATUS.DEBUG_LEVEL : Field := ⟨SEC_STATUS.a, 16, 2⟩
abbrev SEC_STATUS.UNSIGNED : Field := ⟨SEC_STATUS.a, 18, 1⟩
abbrev SEC_KEYS.a : Nat := 0x40100004
abbrev SEC_KEYS.VK_PROG : Field := ⟨SEC_KEYS.a, 0, 2⟩
abbrev SEC_KEYS.VK_REVOKED : Field := ⟨SEC_KEYS.a, 2, 2⟩
abbrev SEC_KEYS.IK_PROG : Field := ⟨SEC_KEYS.a, 4, 4⟩
abbrev SEC_KEYS.IK_REVOKED : Field := ⟨SEC_KEYS.a, 8, 4⟩
abbrev SEC_EVENT.a : Nat := 0x40100008
abbrev SEC_EVENT.SIG_FAIL : Field := ⟨SEC_EVENT.a, 0, 1⟩
abbrev SEC_EVENT.BLOB_SEQ_OLD : Field := ⟨SEC_EVENT.a, 1, 1⟩
abbrev SEC_EVENT.FW_FALLBACK : Field := ⟨SEC_EVENT.a, 2, 1⟩
abbrev SEC_EVENT.ROLLBACK_ADVANCED : Field := ⟨SEC_EVENT.a, 3, 1⟩
abbrev SEC_EVENT.AUTH_FAIL : Field := ⟨SEC_EVENT.a, 4, 1⟩
abbrev SEC_EVENT.UNLOCKED : Field := ⟨SEC_EVENT.a, 5, 1⟩
abbrev SEC_EVENT.RELOCKED : Field := ⟨SEC_EVENT.a, 6, 1⟩
abbrev SEC_EVENT.GRADE_CHANGED : Field := ⟨SEC_EVENT.a, 7, 1⟩
abbrev SEC_EVENT.KEY_CHANGED : Field := ⟨SEC_EVENT.a, 8, 1⟩
abbrev SEC_AUTH.a : Nat := 0x4010000C
abbrev SEC_AUTH.FAILS : Field := ⟨SEC_AUTH.a, 0, 2⟩
abbrev SEC_AUTH.LOCKOUT_S : Field := ⟨SEC_AUTH.a, 8, 8⟩
abbrev SEC_AUTH.UNLOCKS : Field := ⟨SEC_AUTH.a, 16, 16⟩
abbrev DDP_ID.a : Nat := 0x40110000
abbrev DDP_ID.ID : Field := ⟨DDP_ID.a, 0, 32⟩
abbrev DDP_CTRL.a : Nat := 0x40110004
abbrev DDP_CTRL.PAIR_SEL : Field := ⟨DDP_CTRL.a, 0, 1⟩
abbrev DDP_CTRL.HALT_REQ : Field := ⟨DDP_CTRL.a, 1, 1⟩
abbrev DDP_CTRL.RESUME : Field := ⟨DDP_CTRL.a, 2, 1⟩
abbrev DDP_CTRL.STEP : Field := ⟨DDP_CTRL.a, 3, 1⟩
abbrev DDP_CTRL.STEP_IRQ_MASK : Field := ⟨DDP_CTRL.a, 4, 1⟩
abbrev DDP_CTRL.AUTH_CHAL : Field := ⟨DDP_CTRL.a, 5, 1⟩
abbrev DDP_CTRL.AUTH_SUBMIT : Field := ⟨DDP_CTRL.a, 6, 1⟩
abbrev DDP_CTRL.LOCK : Field := ⟨DDP_CTRL.a, 7, 1⟩
abbrev DDP_CTRL.MEM_INC : Field := ⟨DDP_CTRL.a, 8, 1⟩
abbrev DDP_STAT.a : Nat := 0x40110008
abbrev DDP_STAT.LEVEL : Field := ⟨DDP_STAT.a, 0, 2⟩
abbrev DDP_STAT.AUTH_BUSY : Field := ⟨DDP_STAT.a, 2, 1⟩
abbrev DDP_STAT.HALTED_0 : Field := ⟨DDP_STAT.a, 3, 1⟩
abbrev DDP_STAT.HALTED_1 : Field := ⟨DDP_STAT.a, 4, 1⟩
abbrev DDP_STAT.CAUSE : Field := ⟨DDP_STAT.a, 5, 3⟩
abbrev DDP_STAT.INDEX : Field := ⟨DDP_STAT.a, 8, 3⟩
abbrev DDP_STAT.MEM_ERR : Field := ⟨DDP_STAT.a, 11, 1⟩
abbrev DDP_STAT.DENIED : Field := ⟨DDP_STAT.a, 12, 1⟩
abbrev DDP_STAT.DRIVE_LOCK : Field := ⟨DDP_STAT.a, 13, 1⟩
abbrev DDP_STAT.PARITY_ERR : Field := ⟨DDP_STAT.a, 14, 1⟩
abbrev DDP_AUTH.a : Nat := 0x4011000C
abbrev DDP_AUTH.WORD : Field := ⟨DDP_AUTH.a, 0, 32⟩
abbrev DDP_MEM_ADDR.a : Nat := 0x40110010
abbrev DDP_MEM_ADDR.VALUE : Field := ⟨DDP_MEM_ADDR.a, 0, 32⟩
abbrev DDP_MEM_DATA.a : Nat := 0x40110014
abbrev DDP_MEM_DATA.VALUE : Field := ⟨DDP_MEM_DATA.a, 0, 32⟩
abbrev DDP_REG_SEL.a : Nat := 0x40110018
abbrev DDP_REG_SEL.INDEX : Field := ⟨DDP_REG_SEL.a, 0, 7⟩
abbrev DDP_REG_DATA.a : Nat := 0x4011001C
abbrev DDP_REG_DATA.DATA : Field := ⟨DDP_REG_DATA.a, 0, 32⟩
abbrev DDP_EVENT.a : Nat := 0x40110020
abbrev DDP_EVENT.HALTED : Field := ⟨DDP_EVENT.a, 0, 1⟩
abbrev DDP_EVENT.AUTH_DONE : Field := ⟨DDP_EVENT.a, 1, 1⟩
abbrev DDP_EVENT.AUTH_FAIL : Field := ⟨DDP_EVENT.a, 2, 1⟩
abbrev DDP_EVENT.MEM_ERR : Field := ⟨DDP_EVENT.a, 3, 1⟩
abbrev DDP_EVENT.RELOCKED : Field := ⟨DDP_EVENT.a, 4, 1⟩
abbrev PAI_CTRL.a : Nat := 0x40130000
abbrev PAI_CTRL.PAIR_EN : Field := ⟨PAI_CTRL.a, 0, 1⟩
abbrev PAI_CTRL.TAKEOVER_EN : Field := ⟨PAI_CTRL.a, 1, 1⟩
abbrev PAI_CTRL.ROLE : Field := ⟨PAI_CTRL.a, 2, 1⟩
abbrev PAI_CTRL.PLANT_EN : Field := ⟨PAI_CTRL.a, 3, 1⟩
abbrev PAI_CTRL.SYNC_FOLLOW : Field := ⟨PAI_CTRL.a, 4, 1⟩
abbrev PAI_CTRL.TIME_MASTER : Field := ⟨PAI_CTRL.a, 5, 1⟩
abbrev PAI_CTRL.INDEX : Field := ⟨PAI_CTRL.a, 6, 10⟩
abbrev PAI_CTRL.HB_MISS : Field := ⟨PAI_CTRL.a, 28, 4⟩
abbrev PAI_STATUS.a : Nat := 0x40130004
abbrev PAI_STATUS.AUTH : Field := ⟨PAI_STATUS.a, 0, 2⟩
abbrev PAI_STATUS.AUTH_IN : Field := ⟨PAI_STATUS.a, 2, 1⟩
abbrev PAI_STATUS.AUTH_OUT : Field := ⟨PAI_STATUS.a, 3, 1⟩
abbrev PAI_STATUS.READY_SELF : Field := ⟨PAI_STATUS.a, 4, 1⟩
abbrev PAI_STATUS.READY_PARTNER : Field := ⟨PAI_STATUS.a, 5, 1⟩
abbrev PAI_STATUS.HASH_EQUAL : Field := ⟨PAI_STATUS.a, 6, 1⟩
abbrev PAI_STATUS.ALIGNED : Field := ⟨PAI_STATUS.a, 7, 1⟩
abbrev PAI_STATUS.PTP : Field := ⟨PAI_STATUS.a, 8, 2⟩
abbrev PAI_STATUS.TAKEOVERS : Field := ⟨PAI_STATUS.a, 16, 16⟩
abbrev PAI_EVENT.a : Nat := 0x40130008
abbrev PAI_EVENT.TAKEOVER : Field := ⟨PAI_EVENT.a, 0, 1⟩
abbrev PAI_EVENT.AUTHORITY_LOST : Field := ⟨PAI_EVENT.a, 1, 1⟩
abbrev PAI_EVENT.HB_LOST : Field := ⟨PAI_EVENT.a, 2, 1⟩
abbrev PAI_EVENT.LANE_FAULTY : Field := ⟨PAI_EVENT.a, 3, 1⟩
abbrev PAI_EVENT.DISAGREE : Field := ⟨PAI_EVENT.a, 4, 1⟩
abbrev PAI_EVENT.UNALIGNED : Field := ⟨PAI_EVENT.a, 5, 1⟩
abbrev PAI_EVENT.SYNC_LOST : Field := ⟨PAI_EVENT.a, 6, 1⟩
abbrev PAI_EVENT.PTP_STEP : Field := ⟨PAI_EVENT.a, 7, 1⟩
abbrev PAI_LINK.a : Nat := 0x4013000C
abbrev PAI_LINK.VALID : Field := ⟨PAI_LINK.a, 0, 4⟩
abbrev PAI_LINK.FAULTY : Field := ⟨PAI_LINK.a, 4, 4⟩
abbrev PAI_LINK.UP : Field := ⟨PAI_LINK.a, 8, 1⟩
abbrev PAI_LINK.MISSING : Field := ⟨PAI_LINK.a, 16, 16⟩
abbrev PAI_SYNC.a : Nat := 0x40130010
abbrev PAI_SYNC.DELTA : Field := ⟨PAI_SYNC.a, 0, 32⟩
abbrev PAI_P_LO.a : Nat := 0x40130014
abbrev PAI_P_LO.P : Field := ⟨PAI_P_LO.a, 0, 32⟩
abbrev PAI_P_HI.a : Nat := 0x40130018
abbrev PAI_P_HI.P : Field := ⟨PAI_P_HI.a, 0, 32⟩

/-- Rows of the block at 0x40000000, part 0. -/
def regRows_4000_0 : List RegRow :=
  [⟨0x40000000, 0x4, 1, 0x0, 0x1, 0x0, 0x0⟩,
   ⟨0x40000004, 0x4, 1, 0xFA, 0x3FF, 0x0, 0x0⟩,
   ⟨0x40000008, 0x4, 1, 0xA, 0xFFF, 0x0, 0x0⟩,
   ⟨0x4000000C, 0x4, 1, 0x0, 0x0, 0x0, 0x0⟩,
   ⟨0x40000010, 0x4, 1, 0x0, 0x0, 0x7F, 0x0⟩,
   ⟨0x40000020, 0x8, 4, 0x0, 0x0, 0x0, 0x0⟩,
   ⟨0x40000024, 0x8, 4, 0x0, 0x0, 0x0, 0x0⟩,
   ⟨0x40000040, 0x4, 1, 0x0, 0x0, 0x0, 0x0⟩,
   ⟨0x40000044, 0x4, 1, 0x0, 0x0, 0x0, 0x0⟩,
   ⟨0x40000048, 0x4, 1, 0x0, 0x0, 0x0, 0x0⟩,
   ⟨0x4000004C, 0x4, 1, 0x0, 0xFFFFFFFF, 0x0, 0x0⟩,
   ⟨0x40000050, 0x4, 1, 0x0, 0xFFFFFFFF, 0x0, 0x0⟩]
def regRows_4000 : List RegRow := regRows_4000_0
/-- Rows of the block at 0x40010000, part 0. -/
def regRows_4001_0 : List RegRow :=
  [⟨0x40010000, 0x4, 1, 0x0, 0x3, 0x0, 0x0⟩,
   ⟨0x40010004, 0x4, 1, 0x3FF, 0x0, 0x0, 0x0⟩,
   ⟨0x40010008, 0x4, 1, 0x0, 0x0, 0xF, 0x0⟩,
   ⟨0x4001000C, 0x4, 1, 0x0, 0x0, 0x0, 0x0⟩,
   ⟨0x40010010, 0x4, 1, 0x7F, 0x0, 0x0, 0x0⟩,
   ⟨0x40010014, 0x4, 1, 0x64, 0x3FF, 0x0, 0x10000⟩,
   ⟨0x40010018, 0x4, 1, 0x1, 0xF, 0x0, 0x0⟩,
   ⟨0x4001001C, 0x4, 1, 0x0, 0xFFFFFFFF, 0x0, 0x0⟩,
   ⟨0x40010020, 0x4, 1, 0x0, 0x0, 0x0, 0x0⟩,
   ⟨0x40010024, 0x4, 1, 0x0, 0x0, 0x0, 0x0⟩]
def regRows_4001 : List RegRow := regRows_4001_0
/-- Rows of the block at 0x40020000, part 0. -/
def regRows_4002_0 : List RegRow :=
  [⟨0x40020000, 0x80, 128, 0x0, 0x3, 0x0, 0x4⟩,
   ⟨0x40020004, 0x80, 128, 0x0, 0x0, 0x0, 0x0⟩,
   ⟨0x40020008, 0x80, 128, 0x0, 0x0, 0x1FF, 0x0⟩,
   ⟨0x4002000C, 0x80, 128, 0x0, 0x0, 0x0, 0x0⟩,
   ⟨0x40020010, 0x80, 128, 0x0, 0x0, 0x0, 0x0⟩,
   ⟨0x40020014, 0x80, 128, 0x0, 0x0, 0x0, 0x0⟩,
   ⟨0x40020018, 0x80, 128, 0x0, 0x0, 0x0, 0x0⟩,
   ⟨0x4002001C, 0x80, 128, 0x0, 0x0, 0x0, 0x0⟩,
   ⟨0x40020020, 0x80, 128, 0x0, 0x0, 0x0, 0x0⟩,
   ⟨0x40020024, 0x80, 128, 0x0, 0xFFFFFFF, 0x0, 0x0⟩,
   ⟨0x40020028, 0x80, 128, 0x0, 0x0, 0x0, 0x0⟩,
   ⟨0x4002002C, 0x80, 128, 0x10000, 0x1FFFF, 0x0, 0x0⟩]
def regRows_4002 : List RegRow := regRows_4002_0
/-- Rows of the block at 0x40030000, part 0. -/
def regRows_4003_0 : List RegRow :=
  [⟨0x40030000, 0x4, 1, 0x0, 0x0, 0x0, 0x0⟩,
   ⟨0x40030004, 0x4, 1, 0x0, 0x0, 0x0, 0x0⟩,
   ⟨0x40030008, 0x4, 1, 0x0, 0x0, 0x0, 0x0⟩,
   ⟨0x4003000C, 0x4, 1, 0x0, 0x0, 0x0, 0x0⟩,
   ⟨0x40030010, 0x4, 1, 0x0, 0x0, 0x0, 0x0⟩,
   ⟨0x40030014, 0x4, 1, 0x0, 0x0, 0x0, 0x0⟩,
   ⟨0x40030018, 0x4, 1, 0x0, 0x0, 0x0, 0x0⟩,
   ⟨0x4003001C, 0x4, 1, 0x0, 0x0, 0x0, 0x0⟩,
   ⟨0x40030020, 0x4, 1, 0x0, 0x0, 0x0, 0x0⟩]
def regRows_4003 : List RegRow := regRows_4003_0
/-- Rows of the block at 0x40040000, part 0. -/
def regRows_4004_0 : List RegRow :=
  [⟨0x40040000, 0x4, 1, 0x0, 0x1, 0x0, 0x0⟩,
   ⟨0x40040004, 0x4, 1, 0x140008, 0xFF00FF, 0x0, 0x0⟩,
   ⟨0x40040008, 0x4, 1, 0x0, 0x0, 0xF, 0x0⟩,
   ⟨0x4004000C, 0x4, 1, 0x0, 0x0, 0x0, 0x0⟩,
   ⟨0x40040100, 0x8, 8, 0x320C, 0x1FF1F, 0x0, 0x0⟩,
   ⟨0x40040104, 0x8, 8, 0x320C, 0x1FF1F, 0x0, 0x0⟩,
   ⟨0x40041000, 0x10, 256, 0x190640, 0xFFFFFF, 0x0, 0x0⟩,
   ⟨0x40041004, 0x10, 256, 0x320032, 0x0, 0x0, 0x0⟩,
   ⟨0x40041008, 0x10, 256, 0x640064, 0x0, 0x0, 0x0⟩,
   ⟨0x4004100C, 0x10, 256, 0x0, 0x0, 0x0, 0x0⟩]
def regRows_4004 : List RegRow := regRows_4004_0
/-- Rows of the block at 0x40050000, part 0. -/
def regRows_4005_0 : List RegRow :=
  [⟨0x40050000, 0x4, 1, 0x2, 0x3, 0x0, 0x0⟩,
   ⟨0x40050004, 0x4, 1, 0x3230, 0x3FFFF, 0x0, 0x0⟩,
   ⟨0x40050008, 0x4, 1, 0x13880190, 0xFFFFFFFF, 0x0, 0x0⟩,
   ⟨0x4005000C, 0x4, 1, 0x1F4, 0x7FF, 0x0, 0x0⟩,
   ⟨0x40050010, 0x4, 1, 0x0, 0x0, 0x1FF, 0x0⟩,
   ⟨0x40050014, 0x4, 1, 0x0, 0x0, 0x0, 0x0⟩,
   ⟨0x40050018, 0x4, 1, 0x0, 0x0, 0x0, 0x0⟩,
   ⟨0x40050040, 0x8, 6, 0x0, 0x1FFFF7F, 0x0, 0x0⟩,
   ⟨0x40050044, 0x8, 6, 0x0, 0x0, 0x8, 0x0⟩,
   ⟨0x40051000, 0x10, 256, 0x19F4, 0xFFF, 0x0, 0x0⟩,
   ⟨0x40051004, 0x10, 256, 0x0, 0x0, 0x0, 0x0⟩,
   ⟨0x40051008, 0x10, 256, 0x0, 0x0, 0x0, 0x0⟩,
   ⟨0x4005100C, 0x10, 256, 0x924, 0x0, 0x0, 0x0⟩]
def regRows_4005 : List RegRow := regRows_4005_0
/-- Rows of the block at 0x40060000, part 0. -/
def regRows_4006_0 : List RegRow :=
  [⟨0x40060000, 0x4, 1, 0x0, 0x3, 0x0, 0x0⟩,
   ⟨0x40060004, 0x4, 1, 0x61A8, 0x1FFFF, 0x0, 0x0⟩,
   ⟨0x40060008, 0x4, 1, 0x4B00000, 0x1FFF1FFF, 0x0, 0x0⟩,
   ⟨0x4006000C, 0x4, 1, 0xA64096, 0x7FFFFFF, 0x0, 0x0⟩,
   ⟨0x40060010, 0x4, 1, 0x32032, 0x3FFFFF, 0x0, 0x0⟩,
   ⟨0x40060014, 0x4, 1, 0x0, 0x0, 0x0, 0x0⟩,
   ⟨0x40060018, 0x4, 1, 0x0, 0x0, 0xFF, 0x0⟩,
   ⟨0x4006001C, 0x4, 1, 0x0, 0x0, 0x0, 0x0⟩,
   ⟨0x40060020, 0x4, 1, 0x0, 0x0, 0x0, 0x0⟩,
   ⟨0x40060024, 0x4, 1, 0x0, 0x0, 0x0, 0x0⟩,
   ⟨0x40060040, 0x10, 6, 0x0, 0x1FFFF7, 0x0, 0x0⟩,
   ⟨0x40060044, 0x10, 6, 0x0, 0x0, 0x0, 0x0⟩,
   ⟨0x40060048, 0x10, 6, 0x0, 0x0, 0x0, 0x0⟩,
   ⟨0x40061000, 0x20, 64, 0x0, 0xFF0F, 0x0, 0x20⟩,
   ⟨0x40061004, 0x20, 64, 0x0, 0xFFFFFFFF, 0x0, 0x0⟩,
   ⟨0x40061008, 0x20, 64, 0x0, 0xFFFFFFFF, 0x0, 0x0⟩,
   ⟨0x4006100C, 0x20, 64, 0x0, 0xFFFFFFFF, 0x0, 0x0⟩,
   ⟨0x40061010, 0x20, 64, 0x0, 0xFFFFFFFF, 0x0, 0x0⟩,
   ⟨0x40061014, 0x20, 64, 0x0, 0x0, 0x0, 0x0⟩,
   ⟨0x40061018, 0x20, 64, 0x0, 0x0, 0x5F, 0x0⟩]
def regRows_4006 : List RegRow := regRows_4006_0
/-- Rows of the block at 0x40070000, part 0. -/
def regRows_4007_0 : List RegRow :=
  [⟨0x40070000, 0x4, 1, 0x6, 0x7, 0x0, 0x8⟩,
   ⟨0x40070004, 0x4, 1, 0x40140271, 0xFFFFFFFF, 0x0, 0x0⟩,
   ⟨0x40070008, 0x4, 1, 0xFA00800, 0xFFFF0FFF, 0x0, 0x0⟩,
   ⟨0x4007000C, 0x4, 1, 0x80020, 0x3FFFFF, 0x0, 0x0⟩,
   ⟨0x40070010, 0x4, 1, 0xBB803E8, 0xFFFFFFFF, 0x0, 0x0⟩,
   ⟨0x40070014, 0x4, 1, 0x407D0, 0x1FFFFF, 0x0, 0x0⟩,
   ⟨0x40070018, 0x4, 1, 0x1312D0, 0xFFFFFFFF, 0x0, 0x0⟩,
   ⟨0x4007001C, 0x4, 1, 0xFA00BB8, 0xFFFFFFFF, 0x0, 0x0⟩,
   ⟨0x40070020, 0x4, 1, 0x4000028, 0xFFFFFFFF, 0x0, 0x0⟩,
   ⟨0x40070024, 0x4, 1, 0x0, 0x0, 0x0, 0x0⟩,
   ⟨0x40070028, 0x4, 1, 0x0, 0x0, 0x3FF, 0x0⟩,
   ⟨0x4007002C, 0x4, 1, 0xFFFF, 0xFFFF, 0x0, 0x0⟩,
   ⟨0x40070040, 0x20, 6, 0x0, 0x0, 0x0, 0x0⟩,
   ⟨0x40070044, 0x20, 6, 0x0, 0x0, 0x0, 0x0⟩,
   ⟨0x40070048, 0x20, 6, 0x0, 0x0, 0x0, 0x0⟩,
   ⟨0x4007004C, 0x20, 6, 0x0, 0x0, 0x0, 0x0⟩,
   ⟨0x40070050, 0x20, 6, 0x0, 0x0, 0x0, 0x0⟩,
   ⟨0x40070054, 0x20, 6, 0x0, 0x0, 0x0, 0x0⟩,
   ⟨0x40071000, 0x10, 128, 0x8000, 0x3FFFFFF, 0x0, 0x0⟩,
   ⟨0x40071004, 0x10, 128, 0x0, 0x0, 0x0, 0x0⟩]
/-- Rows of the block at 0x40070000, part 1. -/
def regRows_4007_1 : List RegRow :=
  [⟨0x40071008, 0x10, 128, 0x0, 0x0, 0x0, 0x0⟩,
   ⟨0x4007100C, 0x10, 128, 0x0, 0x0, 0x0, 0x0⟩]
def regRows_4007 : List RegRow := regRows_4007_0 ++ regRows_4007_1
/-- Rows of the block at 0x40080000, part 0. -/
def regRows_4008_0 : List RegRow :=
  [⟨0x40080000, 0x4, 1, 0x0, 0x3, 0x0, 0x0⟩,
   ⟨0x40080004, 0x4, 1, 0x0, 0x0, 0x0, 0x0⟩,
   ⟨0x40080008, 0x4, 1, 0x0, 0x0, 0x1FF, 0x0⟩,
   ⟨0x4008000C, 0x4, 1, 0x0, 0x0, 0x0, 0x0⟩,
   ⟨0x40080010, 0x4, 1, 0x0, 0x0, 0x0, 0x0⟩,
   ⟨0x40080014, 0x4, 1, 0xF4240, 0xFFFFFFFF, 0x0, 0x0⟩,
   ⟨0x40080018, 0x4, 1, 0x186A0, 0xFFFFFFFF, 0x0, 0x0⟩,
   ⟨0x4008001C, 0x4, 1, 0x7A120, 0xFFFFFFFF, 0x0, 0x0⟩,
   ⟨0x40080020, 0x4, 1, 0xF4240, 0xFFFFFFFF, 0x0, 0x0⟩,
   ⟨0x40080024, 0x4, 1, 0x3F, 0x3F, 0x0, 0x0⟩,
   ⟨0x40080028, 0x4, 1, 0x0, 0x0, 0x0, 0x0⟩,
   ⟨0x4008002C, 0x4, 1, 0x0, 0x0, 0x0, 0x0⟩,
   ⟨0x40080400, 0x4, 256, 0x0, 0x0, 0x0, 0x0⟩,
   ⟨0x40080800, 0x10, 32, 0x0, 0x0, 0x0, 0x0⟩,
   ⟨0x40080804, 0x10, 32, 0x0, 0x0, 0x0, 0x0⟩,
   ⟨0x40080808, 0x10, 32, 0x0, 0x0, 0x0, 0x0⟩,
   ⟨0x4008080C, 0x10, 32, 0x0, 0x0, 0x0, 0x0⟩,
   ⟨0x40084000, 0x4, 568, 0x0, 0xFFFFFFFF, 0x0, 0x0⟩,
   ⟨0x40084900, 0x4, 7, 0x0, 0xFFFFFFFF, 0x0, 0x0⟩]
def regRows_4008 : List RegRow := regRows_4008_0
/-- Rows of the block at 0x40090000, part 0. -/
def regRows_4009_0 : List RegRow :=
  [⟨0x40090000, 0x4, 1, 0x100, 0x3FF, 0x0, 0x0⟩,
   ⟨0x40090004, 0x4, 1, 0x1800, 0x1FFFF, 0x0, 0x0⟩,
   ⟨0x40090008, 0x4, 1, 0x0, 0xFFFFFFFF, 0x0, 0x0⟩,
   ⟨0x4009000C, 0x4, 1, 0x0, 0xFFFFFFFF, 0x0, 0x0⟩,
   ⟨0x40090010, 0x4, 1, 0x1004000, 0xFFFFFFF, 0x0, 0x0⟩,
   ⟨0x40090014, 0x4, 1, 0x799A199A, 0xFFFFFFFF, 0x0, 0x0⟩,
   ⟨0x40090018, 0x4, 1, 0x80800, 0xFFFFFF, 0x0, 0x0⟩,
   ⟨0x4009001C, 0x4, 1, 0x0, 0xFFFF, 0x0, 0x0⟩,
   ⟨0x40090020, 0x4, 1, 0x0, 0xFFFFFFFF, 0x0, 0x0⟩,
   ⟨0x40090024, 0x4, 1, 0x640040, 0xFFFF07FF, 0x0, 0x0⟩,
   ⟨0x40090028, 0x4, 1, 0x8080808, 0xFFFFFFFF, 0x0, 0x0⟩,
   ⟨0x4009002C, 0x4, 1, 0x1000, 0xFF03, 0x0, 0x0⟩,
   ⟨0x40090030, 0x4, 1, 0x0, 0xFFFFFFFF, 0x0, 0x0⟩,
   ⟨0x40090040, 0x4, 1, 0x0, 0x0, 0x0, 0x0⟩,
   ⟨0x40090044, 0x4, 1, 0x38, 0x0, 0x0, 0x0⟩,
   ⟨0x40090048, 0x4, 1, 0x0, 0x0, 0x0, 0x0⟩,
   ⟨0x4009004C, 0x4, 1, 0x0, 0x0, 0x0, 0x0⟩,
   ⟨0x40090050, 0x4, 1, 0x0, 0x0, 0x0, 0x0⟩,
   ⟨0x40090054, 0x4, 1, 0x0, 0x0, 0x0, 0x0⟩,
   ⟨0x40090058, 0x4, 1, 0x0, 0x0, 0x0, 0x0⟩]
/-- Rows of the block at 0x40090000, part 1. -/
def regRows_4009_1 : List RegRow :=
  [⟨0x4009005C, 0x4, 1, 0x0, 0x0, 0x0, 0x0⟩,
   ⟨0x40090060, 0x4, 1, 0x0, 0x0, 0x0, 0x0⟩,
   ⟨0x40090064, 0x4, 1, 0x0, 0x0, 0x0, 0x0⟩,
   ⟨0x40090068, 0x4, 1, 0x0, 0x0, 0x7FF, 0x0⟩]
def regRows_4009 : List RegRow := regRows_4009_0 ++ regRows_4009_1
/-- Rows of the block at 0x400A0000, part 0. -/
def regRows_400A_0 : List RegRow :=
  [⟨0x400A0000, 0x4, 1, 0x0, 0x3, 0x0, 0x0⟩,
   ⟨0x400A0004, 0x4, 1, 0x0, 0x0, 0x0, 0x0⟩,
   ⟨0x400A0008, 0x4, 1, 0x0, 0x0, 0x1FF, 0x0⟩,
   ⟨0x400A000C, 0x4, 1, 0x0, 0x0, 0x0, 0x0⟩,
   ⟨0x400A0010, 0x4, 1, 0x0, 0x0, 0x0, 0x0⟩,
   ⟨0x400A0014, 0x4, 1, 0x0, 0x0, 0x0, 0x0⟩,
   ⟨0x400A0018, 0x4, 1, 0x0, 0x0, 0x0, 0x0⟩,
   ⟨0x400A001C, 0x4, 1, 0x0, 0x0, 0x0, 0x0⟩,
   ⟨0x400A0020, 0x4, 1, 0x0, 0x0, 0x0, 0x0⟩,
   ⟨0x400A0040, 0x8, 8, 0x0, 0xFFFFFFFF, 0x0, 0x0⟩,
   ⟨0x400A0044, 0x8, 8, 0x3, 0x7F, 0x0, 0x0⟩,
   ⟨0x400A0100, 0x4, 9, 0x0, 0xFFFFFFFF, 0x0, 0x0⟩]
def regRows_400A : List RegRow := regRows_400A_0
/-- Rows of the block at 0x400B0000, part 0. -/
def regRows_400B_0 : List RegRow :=
  [⟨0x400B0000, 0x1000, 4, 0x0, 0x7FFFFDF, 0x0, 0x20⟩,
   ⟨0x400B0004, 0x1000, 4, 0x0, 0x0, 0x0, 0x0⟩,
   ⟨0x400B0008, 0x1000, 4, 0x0, 0x0, 0x1FF, 0x0⟩,
   ⟨0x400B000C, 0x1000, 4, 0x0, 0x0, 0x0, 0x0⟩,
   ⟨0x400B0010, 0x1000, 4, 0x0, 0xFFFFFFFF, 0x0, 0x0⟩,
   ⟨0x400B0014, 0x1000, 4, 0x0, 0xFFFFFFFF, 0x0, 0x0⟩,
   ⟨0x400B0018, 0x1000, 4, 0x0, 0x1F, 0x0, 0x0⟩,
   ⟨0x400B001C, 0x1000, 4, 0x0, 0x0, 0x0, 0x0⟩,
   ⟨0x400B0020, 0x1000, 4, 0x0, 0xFFFFF, 0x0, 0x0⟩,
   ⟨0x400B0024, 0x1000, 4, 0x0, 0x0, 0x0, 0x7FF⟩,
   ⟨0x400B0028, 0x1000, 4, 0x0, 0x0, 0x0, 0x0⟩,
   ⟨0x400B002C, 0x1000, 4, 0x0, 0x0, 0x0, 0x0⟩,
   ⟨0x400B0030, 0x1000, 4, 0x0, 0x0, 0x0, 0x0⟩,
   ⟨0x400B0400, 0x10, 64, 0x0, 0x1FFFFF, 0x0, 0x0⟩,
   ⟨0x400B1400, 0x10, 64, 0x0, 0x1FFFFF, 0x0, 0x0⟩,
   ⟨0x400B2400, 0x10, 64, 0x0, 0x1FFFFF, 0x0, 0x0⟩,
   ⟨0x400B3400, 0x10, 64, 0x0, 0x1FFFFF, 0x0, 0x0⟩,
   ⟨0x400B0404, 0x10, 64, 0x0, 0xFFFFFFFF, 0x0, 0x0⟩,
   ⟨0x400B1404, 0x10, 64, 0x0, 0xFFFFFFFF, 0x0, 0x0⟩,
   ⟨0x400B2404, 0x10, 64, 0x0, 0xFFFFFFFF, 0x0, 0x0⟩]
/-- Rows of the block at 0x400B0000, part 1. -/
def regRows_400B_1 : List RegRow :=
  [⟨0x400B3404, 0x10, 64, 0x0, 0xFFFFFFFF, 0x0, 0x0⟩,
   ⟨0x400B0408, 0x10, 64, 0x0, 0xFFFF1FFF, 0x0, 0x0⟩,
   ⟨0x400B1408, 0x10, 64, 0x0, 0xFFFF1FFF, 0x0, 0x0⟩,
   ⟨0x400B2408, 0x10, 64, 0x0, 0xFFFF1FFF, 0x0, 0x0⟩,
   ⟨0x400B3408, 0x10, 64, 0x0, 0xFFFF1FFF, 0x0, 0x0⟩,
   ⟨0x400B7000, 0x4, 1, 0xA, 0xF, 0x0, 0x0⟩,
   ⟨0x400B7004, 0x4, 1, 0x0, 0xFFFFFFFF, 0x0, 0x0⟩,
   ⟨0x400B7008, 0x4, 1, 0x0, 0xFFFFFFFF, 0x0, 0x0⟩,
   ⟨0x400B700C, 0x4, 1, 0x0, 0x1FFF, 0x0, 0x0⟩,
   ⟨0x400B7010, 0x4, 1, 0x0, 0x0, 0x3, 0x0⟩,
   ⟨0x400B7040, 0x8, 7, 0x0, 0xFFFFFFFF, 0x0, 0x0⟩,
   ⟨0x400B7044, 0x8, 7, 0x0, 0xFFFFFFFF, 0x0, 0x0⟩,
   ⟨0x400B8000, 0x20, 128, 0x8000, 0xFFFFFFFF, 0x0, 0x0⟩,
   ⟨0x400B8004, 0x20, 128, 0x8000, 0xFFFFFFFF, 0x0, 0x0⟩,
   ⟨0x400B8008, 0x20, 128, 0x0, 0x0, 0x0, 0x0⟩,
   ⟨0x400B800C, 0x20, 128, 0x0, 0x0, 0x0, 0x0⟩,
   ⟨0x400B8010, 0x20, 128, 0x0, 0x0, 0x0, 0x0⟩,
   ⟨0x400B8014, 0x20, 128, 0x0, 0x0, 0x0, 0x0⟩,
   ⟨0x400B8018, 0x20, 128, 0x0, 0x0, 0x0, 0x0⟩,
   ⟨0x400BC000, 0x10, 128, 0x0, 0x0, 0x0, 0x0⟩]
/-- Rows of the block at 0x400B0000, part 2. -/
def regRows_400B_2 : List RegRow :=
  [⟨0x400BC004, 0x10, 128, 0x0, 0x0, 0x0, 0x0⟩,
   ⟨0x400BC008, 0x10, 128, 0x0, 0x0, 0x0, 0x0⟩,
   ⟨0x400BC00C, 0x10, 128, 0x0, 0x0, 0x0, 0x0⟩]
def regRows_400B : List RegRow := regRows_400B_0 ++ regRows_400B_1 ++ regRows_400B_2
/-- Rows of the block at 0x400C0000, part 0. -/
def regRows_400C_0 : List RegRow :=
  [⟨0x400C0000, 0x4, 1, 0x1FFFF, 0x1FFFF, 0x0, 0x0⟩,
   ⟨0x400C0004, 0x4, 1, 0x0, 0x0, 0x0, 0x0⟩,
   ⟨0x400C0008, 0x4, 1, 0x0, 0x0, 0x0, 0xF⟩,
   ⟨0x400C000C, 0x4, 1, 0x0, 0x0, 0xFFFF, 0x0⟩,
   ⟨0x400C0010, 0x4, 1, 0x0, 0x0, 0x3F, 0x0⟩,
   ⟨0x400C0014, 0x4, 1, 0x0, 0x0, 0x0, 0x0⟩,
   ⟨0x400C0040, 0x8, 1, 0x10, 0x1F, 0x0, 0x0⟩,
   ⟨0x400C0048, 0x8, 3, 0x0, 0x1F, 0x0, 0x0⟩,
   ⟨0x400C0060, 0x8, 4, 0x1, 0x1F, 0x0, 0x0⟩,
   ⟨0x400C0080, 0x8, 4, 0x2, 0x1F, 0x0, 0x0⟩,
   ⟨0x400C00A0, 0x8, 4, 0x3, 0x1F, 0x0, 0x0⟩,
   ⟨0x400C0044, 0x8, 16, 0x0, 0x0, 0x0, 0x0⟩]
def regRows_400C : List RegRow := regRows_400C_0
/-- Rows of the block at 0x400D0000, part 0. -/
def regRows_400D_0 : List RegRow :=
  [⟨0x400D0000, 0x4, 1, 0x0, 0x0, 0x0, 0x1⟩,
   ⟨0x400D0004, 0x4, 1, 0x0, 0x0, 0x7, 0x0⟩,
   ⟨0x400D0008, 0x4, 1, 0x0, 0x0, 0x0, 0x0⟩,
   ⟨0x400D000C, 0x4, 1, 0xA, 0x3FF, 0x0, 0x0⟩,
   ⟨0x400D0100, 0x40, 16, 0x0, 0x1F, 0x0, 0x0⟩,
   ⟨0x400D0104, 0x40, 16, 0x0, 0xFFFFF000, 0x0, 0x0⟩,
   ⟨0x400D0108, 0x40, 16, 0x0, 0xFFFFFFFF, 0x0, 0x0⟩,
   ⟨0x400D010C, 0x40, 16, 0x0, 0xFFFFFFFF, 0x0, 0x0⟩,
   ⟨0x400D0110, 0x40, 16, 0x0, 0xFFFFFFFF, 0x0, 0x0⟩,
   ⟨0x400D0114, 0x40, 16, 0x0, 0x0, 0x0, 0x7⟩,
   ⟨0x400D0118, 0x40, 16, 0x0, 0x0, 0x0, 0x0⟩,
   ⟨0x400D011C, 0x40, 16, 0x0, 0x0, 0x0, 0x0⟩,
   ⟨0x400D0120, 0x40, 16, 0x0, 0x0, 0x0, 0x0⟩,
   ⟨0x400D0124, 0x40, 16, 0x0, 0x0, 0x0, 0x0⟩]
def regRows_400D : List RegRow := regRows_400D_0
/-- Rows of the block at 0x400E0000, part 0. -/
def regRows_400E_0 : List RegRow :=
  [⟨0x400E0000, 0x4, 1, 0xA0, 0xFFF1, 0x0, 0x6⟩,
   ⟨0x400E0004, 0x4, 1, 0x0, 0x0, 0x0, 0x0⟩,
   ⟨0x400E0008, 0x4, 1, 0x0, 0x0, 0xFF, 0x0⟩,
   ⟨0x400E000C, 0x4, 1, 0x0, 0x0, 0x0, 0x0⟩,
   ⟨0x400E0010, 0x4, 1, 0x0, 0x0, 0x0, 0x0⟩,
   ⟨0x400E0014, 0x4, 1, 0x0, 0x0, 0x0, 0x0⟩,
   ⟨0x400E0018, 0x4, 1, 0x0, 0x0, 0x0, 0x0⟩,
   ⟨0x400E1000, 0x40, 128, 0x0, 0xFFFFFFFF, 0x0, 0x0⟩,
   ⟨0x400E1004, 0x40, 128, 0x0, 0xFFFFFFFF, 0x0, 0x0⟩,
   ⟨0x400E1008, 0x40, 128, 0x0, 0xFFFFFFFF, 0x0, 0x0⟩,
   ⟨0x400E100C, 0x40, 128, 0x0, 0xFFFFFFFF, 0x0, 0x0⟩,
   ⟨0x400E1010, 0x40, 128, 0x0, 0xFFFFFFFF, 0x0, 0x0⟩,
   ⟨0x400E1014, 0x40, 128, 0x0, 0xFFFFFFFF, 0x0, 0x0⟩,
   ⟨0x400E1018, 0x40, 128, 0x0, 0xFFFFFFFF, 0x0, 0x0⟩,
   ⟨0x400E101C, 0x40, 128, 0x0, 0xFFFFFFFF, 0x0, 0x0⟩,
   ⟨0x400E1020, 0x40, 128, 0x0, 0xFFFFFFFF, 0x0, 0x0⟩,
   ⟨0x400E1024, 0x40, 128, 0x0, 0xFFFFFFFF, 0x0, 0x0⟩,
   ⟨0x400E1028, 0x40, 128, 0x0, 0xFFFFFFFF, 0x0, 0x0⟩,
   ⟨0x400E102C, 0x40, 128, 0x0, 0xFFFFFFFF, 0x0, 0x0⟩,
   ⟨0x400E1030, 0x40, 128, 0x0, 0xFFFFFFFF, 0x0, 0x0⟩]
/-- Rows of the block at 0x400E0000, part 1. -/
def regRows_400E_1 : List RegRow :=
  [⟨0x400E1034, 0x40, 128, 0x0, 0xFFFFFFFF, 0x0, 0x0⟩,
   ⟨0x400E1038, 0x40, 128, 0x0, 0x0, 0x0, 0x0⟩,
   ⟨0x400E103C, 0x40, 128, 0x0, 0x0, 0x0, 0x0⟩]
def regRows_400E : List RegRow := regRows_400E_0 ++ regRows_400E_1
/-- Rows of the block at 0x400F0000, part 0. -/
def regRows_400F_0 : List RegRow :=
  [⟨0x400F0000, 0x4, 1, 0x0, 0x0, 0x0, 0x0⟩,
   ⟨0x400F0004, 0x4, 1, 0x0, 0x0, 0x7F, 0x0⟩,
   ⟨0x400F0008, 0x4, 1, 0x0, 0x0, 0x0, 0x0⟩,
   ⟨0x400F0100, 0x10, 39, 0x0, 0x0, 0x0, 0x0⟩,
   ⟨0x400F0104, 0x10, 39, 0x0, 0x0, 0x0, 0x0⟩,
   ⟨0x400F0108, 0x10, 39, 0x0, 0x0, 0x0, 0x0⟩]
def regRows_400F : List RegRow := regRows_400F_0
/-- Rows of the block at 0x40100000, part 0. -/
def regRows_4010_0 : List RegRow :=
  [⟨0x40100000, 0x4, 1, 0x0, 0x0, 0x0, 0x0⟩,
   ⟨0x40100004, 0x4, 1, 0x0, 0x0, 0x0, 0x0⟩,
   ⟨0x40100008, 0x4, 1, 0x0, 0x0, 0x1FF, 0x0⟩,
   ⟨0x4010000C, 0x4, 1, 0x0, 0x0, 0x0, 0x0⟩]
def regRows_4010 : List RegRow := regRows_4010_0
/-- Rows of the block at 0x40110000, part 0. -/
def regRows_4011_0 : List RegRow :=
  [⟨0x40110000, 0x4, 1, 0xD7E7128, 0x0, 0x0, 0x0⟩,
   ⟨0x40110004, 0x4, 1, 0x100, 0x111, 0x0, 0xEE⟩,
   ⟨0x40110008, 0x4, 1, 0x0, 0x0, 0x0, 0x0⟩,
   ⟨0x4011000C, 0x4, 1, 0x0, 0xFFFFFFFF, 0x0, 0x0⟩,
   ⟨0x40110010, 0x4, 1, 0x0, 0xFFFFFFFF, 0x0, 0x0⟩,
   ⟨0x40110014, 0x4, 1, 0x0, 0xFFFFFFFF, 0x0, 0x0⟩,
   ⟨0x40110018, 0x4, 1, 0x0, 0x7F, 0x0, 0x0⟩,
   ⟨0x4011001C, 0x4, 1, 0x0, 0xFFFFFFFF, 0x0, 0x0⟩,
   ⟨0x40110020, 0x4, 1, 0x0, 0x0, 0x1F, 0x0⟩]
def regRows_4011 : List RegRow := regRows_4011_0
/-- Rows of the block at 0x40120000, part 0. -/
def regRows_4012_0 : List RegRow :=
  [⟨0x40120000, 0x4, 1, 0x4, 0x0, 0x0, 0x0⟩,
   ⟨0x40120004, 0x4, 1, 0x0, 0x0, 0x0, 0x0⟩,
   ⟨0x40120008, 0x4, 1, 0x0, 0x0, 0x0, 0x0⟩,
   ⟨0x4012000C, 0x4, 1, 0x0, 0x0, 0x0, 0x0⟩,
   ⟨0x40120010, 0x4, 1, 0x0, 0x0, 0x0, 0x0⟩,
   ⟨0x40120014, 0x4, 1, 0x0, 0x0, 0x0, 0x0⟩,
   ⟨0x40120018, 0x4, 1, 0x0, 0x0, 0x0, 0x0⟩]
def regRows_4012 : List RegRow := regRows_4012_0
/-- Rows of the block at 0x40130000, part 0. -/
def regRows_4013_0 : List RegRow :=
  [⟨0x40130000, 0x4, 1, 0x10000002, 0xF000FFFF, 0x0, 0x0⟩,
   ⟨0x40130004, 0x4, 1, 0x0, 0x0, 0x0, 0x0⟩,
   ⟨0x40130008, 0x4, 1, 0x0, 0x0, 0xFF, 0x0⟩,
   ⟨0x4013000C, 0x4, 1, 0x0, 0x0, 0x0, 0x0⟩,
   ⟨0x40130010, 0x4, 1, 0x0, 0x0, 0x0, 0x0⟩,
   ⟨0x40130014, 0x4, 1, 0x0, 0x0, 0x0, 0x0⟩,
   ⟨0x40130018, 0x4, 1, 0x0, 0x0, 0x0, 0x0⟩]
def regRows_4013 : List RegRow := regRows_4013_0
/-- Rows of the block at 0x40140000, part 0. -/
def regRows_4014_0 : List RegRow :=
  [⟨0x40140000, 0x4, 1, 0x3C, 0x3F, 0x0, 0x0⟩,
   ⟨0x40140004, 0x4, 1, 0x0, 0x0, 0x0, 0x0⟩,
   ⟨0x40140008, 0x4, 1, 0x0, 0x0, 0xFF, 0x0⟩,
   ⟨0x4014000C, 0x4, 1, 0x0, 0x0, 0x0, 0x0⟩,
   ⟨0x40140010, 0x4, 1, 0x0, 0x0, 0x0, 0x0⟩,
   ⟨0x40140014, 0x4, 1, 0x0, 0x0, 0x0, 0x0⟩,
   ⟨0x40140018, 0x4, 1, 0x0, 0x0, 0x0, 0x0⟩,
   ⟨0x4014001C, 0x4, 1, 0x0, 0x0, 0x0, 0x0⟩]
def regRows_4014 : List RegRow := regRows_4014_0

/-- The rows of the 64 KiB block that holds an address (R34). -/
def regRowsOf (blk : Nat) : List RegRow :=
  if blk = 0x4000 then regRows_4000 else
  if blk = 0x4001 then regRows_4001 else
  if blk = 0x4002 then regRows_4002 else
  if blk = 0x4003 then regRows_4003 else
  if blk = 0x4004 then regRows_4004 else
  if blk = 0x4005 then regRows_4005 else
  if blk = 0x4006 then regRows_4006 else
  if blk = 0x4007 then regRows_4007 else
  if blk = 0x4008 then regRows_4008 else
  if blk = 0x4009 then regRows_4009 else
  if blk = 0x400A then regRows_400A else
  if blk = 0x400B then regRows_400B else
  if blk = 0x400C then regRows_400C else
  if blk = 0x400D then regRows_400D else
  if blk = 0x400E then regRows_400E else
  if blk = 0x400F then regRows_400F else
  if blk = 0x4010 then regRows_4010 else
  if blk = 0x4011 then regRows_4011 else
  if blk = 0x4012 then regRows_4012 else
  if blk = 0x4013 then regRows_4013 else
  if blk = 0x4014 then regRows_4014 else
  []

/-- Whether a row describes the register at word address `a`. -/
def RegRow.covers (r : RegRow) (a : Nat) : Bool :=
  decide (r.base ≤ a) && decide ((a - r.base) % r.stride = 0) && decide ((a - r.base) / r.stride < r.count)

/-- The row of the register at word address `a`, if a register occupies it (R33). -/
def regRow (a : Nat) : Option RegRow := (regRowsOf (a / 0x10000)).find? (fun r => r.covers a)

/-- The reset value of the register at word address `a`; an offset no register occupies reads 0 (R33). -/
def regReset (a : Nat) : Word :=
  match regRow a with
  | some r => BitVec.ofNat 32 r.reset
  | none => 0

end Sys2Proof.Machine
end

