-- ==== Sys2Proof/Machine/SMap.lean ====
section
/-! DEFINITION. Sparse maps in one canonical form: addresses strictly rising, and no entry equal to what an unlisted
address reads as. Memory (R33), the register file and the per-instance tables are such maps. -/
namespace Sys2Proof.Machine

/-- A list of (address, value) pairs. -/
abbrev SMap (α : Type) := List (Nat × α)

/-- The value at `k`: the entry's, or what an unlisted address reads as. -/
def mapGet {α : Type} (d : Nat → α) : SMap α → Nat → α
  | [], k => d k
  | (a, v) :: t, k => if k = a then v else if k < a then d k else mapGet d t k

/-- Removal of the entry at `k`; what follows it lies above `k`. -/
def mapDel {α : Type} : SMap α → Nat → SMap α
  | [], _ => []
  | (a, v) :: t, k =>
    if k = a then t.filter (fun e => decide (a < e.1)) else if k < a then (a, v) :: t else (a, v) :: mapDel t k

/-- Insertion or replacement of the entry at `k`. -/
def mapIns {α : Type} : SMap α → Nat → α → SMap α
  | [], k, w => [(k, w)]
  | (a, v) :: t, k, w =>
    if k = a then (k, w) :: t else if k < a then (k, w) :: (a, v) :: t else (a, v) :: mapIns t k w

/-- The map with the value `w` at `k`; writing what an unlisted address reads as removes the entry. -/
def mapSet {α : Type} [DecidableEq α] (d : Nat → α) (m : SMap α) (k : Nat) (w : α) : SMap α :=
  if w = d k then mapDel m k else mapIns m k w

/-- Every address is above `k`, the addresses rise strictly, and no entry is an unlisted address's value. -/
def mapWfFrom {α : Type} [DecidableEq α] (d : Nat → α) : Nat → SMap α → Bool
  | _, [] => true
  | k, (a, v) :: t => decide (k ≤ a) && decide (v ≠ d a) && mapWfFrom d (a + 1) t

/-- The canonical form. -/
def mapWf {α : Type} [DecidableEq α] (d : Nat → α) (m : SMap α) : Bool := mapWfFrom d 0 m

/-- The values of `l` written from `k` upward. -/
def mapSetAll {α : Type} [DecidableEq α] (d : Nat → α) : SMap α → Nat → List α → SMap α
  | m, _, [] => m
  | m, k, v :: t => mapSetAll d (mapSet d m k v) (k + 1) t

/-- The `n` values from `k` upward. -/
def mapGetAll {α : Type} (d : Nat → α) (m : SMap α) : Nat → Nat → List α
  | _, 0 => []
  | k, n + 1 => mapGet d m k :: mapGetAll d m (k + 1) n

/-- The map without the entries from `lo` up to `hi − 1`. -/
def mapClear {α : Type} (m : SMap α) (lo hi : Nat) : SMap α :=
  m.filter (fun e => decide (e.1 < lo) || decide (hi ≤ e.1))

end Sys2Proof.Machine
end

