-- ==== Sys2Proof/Machine/State.lean ====
section
/-! DEFINITION. The state of the device as plain data: the register file (every register of the maps, Regs.lean), the
memory, the queue of waiting commands, and what the spec gives the device beside its registers, block by block. -/
namespace Sys2Proof.Machine

/-- The alarm names of R391, in the order of their groups; groups 10 to 14 as R409, R427, R447, R464 and R64 list them. -/
inductive AlarmName where
  | laneDown | laneFaulty | bypassUnconfirmed | cellIdentityMismatch | cellSilent
  | interlockReject | gateTrimLimit | softTrip | hbRetired | stringFault | xblankOverrun | comparatorSelftestFail | bypassFailed | cellOvervoltageUnbypassed
  | crash | torqueViolation | angleDisagree | safetyIslandFault | bleedTimeout | clockFault | hostSafeRequest | rampTimeout
  | dispatchLate | dispatchStall | stringDerated | stringBelowFloor | vrefStale | vrefClipped | cellStale | socStale | tempMissing | cellCurrentOutlier | sensorDisagree | noConsensus | stickyAdjusted
  | controlOverrun | currentSourceChanged | observerLocked | observerLost | modelImplausible | plausibilitySafe | hostInputTimeout | startPhase | startFailed | selectorLate | angleLost | angleSourceChanged | limpActive
  | resolverLos | resolverClip | resolverLot | hallImpossible | hallJump | chatter | stuckActive | moveAborted | dockArrived | dockOvershoot | homed | homeNotFound | endstopHit | markerMismatch | compareFired | comparePassed
  | refLost | pllFault | phaseRestored | holdoverExceeded | wallclockDegraded | modeChanged | mapApplied
  | copyDivergence | ledgerChainBreak | ledgerSodLost | ledgerBankFault | recordDiscarded | charListFull
  | memoryUncorrectable | mramUncorrectable | calOutOfRange | alarmTableFold
  | bistSoftRepair | bistMramCorrected | bistMramDamaged | bistRestarted | fuseEntryBad | fuseConflict | clampAccess
  | railWarning | nvRailFault | watchdogExpired | hearthLockstep | lastReset | domainOffAccess
  | fwFallback | fwSlotDamaged | rollbackAdvanced | debugUnlocked | debugAuthFail | debugHalt | gradeChanged | keyRegistered | keyRevoked
  | pairTakeover | pairTakeoverUnready | pairAuthorityLost | pairPartnerAbsent | pairHbLost | pairLaneFaulty | pairDisagree | pairDegraded | plantUnaligned | syncLost | ptpStep
  | gridPhase | gridSyncFailed | gridTrip
  deriving DecidableEq, Repr

/-- NAME_CODE: 0x0100 times the group plus the position in it (R391). (DEDUCED log 182) -/
def AlarmName.code : AlarmName → Nat
  | .laneDown => 0x100
  | .laneFaulty => 0x101
  | .bypassUnconfirmed => 0x102
  | .cellIdentityMismatch => 0x103
  | .cellSilent => 0x104
  | .interlockReject => 0x200
  | .gateTrimLimit => 0x201
  | .softTrip => 0x202
  | .hbRetired => 0x203
  | .stringFault => 0x204
  | .xblankOverrun => 0x205
  | .comparatorSelftestFail => 0x206
  | .bypassFailed => 0x207
  | .cellOvervoltageUnbypassed => 0x208
  | .crash => 0x300
  | .torqueViolation => 0x301
  | .angleDisagree => 0x302
  | .safetyIslandFault => 0x303
  | .bleedTimeout => 0x304
  | .clockFault => 0x305
  | .hostSafeRequest => 0x306
  | .rampTimeout => 0x307
  | .dispatchLate => 0x400
  | .dispatchStall => 0x401
  | .stringDerated => 0x402
  | .stringBelowFloor => 0x403
  | .vrefStale => 0x404
  | .vrefClipped => 0x405
  | .cellStale => 0x406
  | .socStale => 0x407
  | .tempMissing => 0x408
  | .cellCurrentOutlier => 0x409
  | .sensorDisagree => 0x40A
  | .noConsensus => 0x40B
  | .stickyAdjusted => 0x40C
  | .controlOverrun => 0x500
  | .currentSourceChanged => 0x501
  | .observerLocked => 0x502
  | .observerLost => 0x503
  | .modelImplausible => 0x504
  | .plausibilitySafe => 0x505
  | .hostInputTimeout => 0x506
  | .startPhase => 0x507
  | .startFailed => 0x508
  | .selectorLate => 0x509
  | .angleLost => 0x50A
  | .angleSourceChanged => 0x50B
  | .limpActive => 0x50C
  | .resolverLos => 0x600
  | .resolverClip => 0x601
  | .resolverLot => 0x602
  | .hallImpossible => 0x603
  | .hallJump => 0x604
  | .chatter => 0x605
  | .stuckActive => 0x606
  | .moveAborted => 0x607
  | .dockArrived => 0x608
  | .dockOvershoot => 0x609
  | .homed => 0x60A
  | .homeNotFound => 0x60B
  | .endstopHit => 0x60C
  | .markerMismatch => 0x60D
  | .compareFired => 0x60E
  | .comparePassed => 0x60F
  | .refLost => 0x700
  | .pllFault => 0x701
  | .phaseRestored => 0x702
  | .holdoverExceeded => 0x703
  | .wallclockDegraded => 0x704
  | .modeChanged => 0x705
  | .mapApplied => 0x706
  | .copyDivergence => 0x800
  | .ledgerChainBreak => 0x801
  | .ledgerSodLost => 0x802
  | .ledgerBankFault => 0x803
  | .recordDiscarded => 0x804
  | .charListFull => 0x805
  | .memoryUncorrectable => 0x900
  | .mramUncorrectable => 0x901
  | .calOutOfRange => 0x902
  | .alarmTableFold => 0x903
  | .bistSoftRepair => 0xA00
  | .bistMramCorrected => 0xA01
  | .bistMramDamaged => 0xA02
  | .bistRestarted => 0xA03
  | .fuseEntryBad => 0xA04
  | .fuseConflict => 0xA05
  | .clampAccess => 0xA06
  | .railWarning => 0xB00
  | .nvRailFault => 0xB01
  | .watchdogExpired => 0xB02
  | .hearthLockstep => 0xB03
  | .lastReset => 0xB04
  | .domainOffAccess => 0xB05
  | .fwFallback => 0xC00
  | .fwSlotDamaged => 0xC01
  | .rollbackAdvanced => 0xC02
  | .debugUnlocked => 0xC03
  | .debugAuthFail => 0xC04
  | .debugHalt => 0xC05
  | .gradeChanged => 0xC06
  | .keyRegistered => 0xC07
  | .keyRevoked => 0xC08
  | .pairTakeover => 0xD00
  | .pairTakeoverUnready => 0xD01
  | .pairAuthorityLost => 0xD02
  | .pairPartnerAbsent => 0xD03
  | .pairHbLost => 0xD04
  | .pairLaneFaulty => 0xD05
  | .pairDisagree => 0xD06
  | .pairDegraded => 0xD07
  | .plantUnaligned => 0xD08
  | .syncLost => 0xD09
  | .ptpStep => 0xD0A
  | .gridPhase => 0xE00
  | .gridSyncFailed => 0xE01
  | .gridTrip => 0xE02

/-- The classes of R17. -/
inductive AlarmClass where
  | a | b | c
  deriving DecidableEq, Repr

/-- The class each rule gives its alarm; CLASS of R351 as 0 A, 1 B, 2 C. -/
def AlarmName.cls : AlarmName → AlarmClass
  | .stringFault | .bypassFailed | .cellOvervoltageUnbypassed | .crash | .torqueViolation | .angleDisagree | .safetyIslandFault | .bleedTimeout | .clockFault | .hostSafeRequest | .rampTimeout | .dispatchStall | .stringBelowFloor | .vrefStale | .controlOverrun | .plausibilitySafe | .angleLost | .watchdogExpired | .hearthLockstep | .debugHalt | .pairTakeoverUnready | .gridTrip => .a
  | .softTrip | .xblankOverrun | .vrefClipped | .stickyAdjusted | .observerLocked | .startPhase | .chatter | .dockArrived | .dockOvershoot | .homed | .compareFired | .phaseRestored | .modeChanged | .mapApplied | .copyDivergence | .alarmTableFold | .bistSoftRepair | .bistMramCorrected | .clampAccess | .lastReset | .domainOffAccess | .rollbackAdvanced | .debugUnlocked | .gradeChanged | .keyRegistered | .keyRevoked | .ptpStep | .gridPhase => .c
  | _ => .b

/-- The request path of a safe-state cause (R142). -/
inductive ReqPath where
  | island | output | mod | fw
  deriving DecidableEq, Repr

/-- The request path R142 gives a class A alarm. -/
def AlarmName.path : AlarmName → Option ReqPath
  | .crash | .torqueViolation | .angleDisagree | .bleedTimeout | .clockFault => some .island
  | .safetyIslandFault => some .output
  | .stringFault | .dispatchStall | .vrefStale => some .mod
  | .stringBelowFloor | .rampTimeout | .hostSafeRequest | .bypassFailed | .cellOvervoltageUnbypassed | .controlOverrun | .plausibilitySafe | .angleLost | .gridTrip | .watchdogExpired | .hearthLockstep | .debugHalt | .pairTakeoverUnready => some .fw
  | _ => none

/-- Whether R142 gives the cause the event kind: it clears when its alarm is acknowledged. -/
def AlarmName.isEvent : AlarmName → Bool
  | .torqueViolation | .angleDisagree | .stringFault | .dispatchStall | .rampTimeout | .hostSafeRequest | .vrefStale | .controlOverrun | .plausibilitySafe | .angleLost | .gridTrip | .watchdogExpired | .hearthLockstep | .debugHalt | .pairTakeoverUnready => true
  | _ => false

/-- Raised by no command: no step of the spec stops the device (a bus error is answered to its initiator, R33). Kept as
the name of an access to an address that no region holds; safe. -/
inductive Fault where
  | absentAddress (addr : Nat)
  deriving DecidableEq, Repr

/-- `notModelled`: the command has no meaning yet; raised by Dispatch only; safe. -/
inductive Refusal where
  | notModelled (mnemonic : String)
  deriving DecidableEq, Repr

/-- The operating modes of R49. -/
inductive Mode where
  | off | standby | hold | open_ | drive | chargeDc | grid | test | safe
  deriving DecidableEq, Repr

/-- The outcome of the identity check of a cell (R41, R42); `unknown` until it is known. -/
inductive Admission where
  | unknown | admitted | mismatched | silent | retired
  deriving DecidableEq, Repr

/-! ### Mailboxes (chapter 14) -/

/-- The command a mailbox is running, with where its reply goes (R332, R344, R346): port code of R341, source address and
UDP port. -/
structure CmdRef where
  mb : Nat
  op : Nat
  flags : Nat
  seq : Nat
  tag : Nat
  port : Nat
  addr : Nat
  udp : Nat
  deriving DecidableEq, Repr

/-- A reply (R332 to R334). -/
structure Reply where
  ref : CmdRef
  completion : Bool
  status : Nat
  payload : List Byte
  deriving DecidableEq, Repr

/-- A message that left the device during the last command: port (0 quad-SPI, 1 and 2 Ethernet, 3 to 6 CAN, 7 debug port,
8 pair link), address, UDP port or identifier, bytes. -/
structure TxMsg where
  port : Nat
  addr : Nat
  udp : Nat
  bytes : List Byte
  deriving DecidableEq, Repr

/-- A write of the last command that memory still has to take: bytes from an address upward, or a range that reads as
unlisted again. -/
inductive MemOp where
  | write (a : Nat) (b : List Byte)
  | clear (lo hi : Nat)
  deriving DecidableEq, Repr

/-- One mailbox beside its registers (R336, R337, R341). -/
structure Mbox where
  bell : Nat            -- doorbell time, ns
  addr : Nat            -- source of the posted command
  udp : Nat
  cur : Option CmdRef   -- command RUNNING or PENDING
  taken : Nat           -- when it was taken
  stored : Option Reply -- reply kept for a replay
  newCfg : Option (Nat × Nat × Nat) -- PORT, PRIV, PEER waiting for FREE
  peer : Nat            -- permitted source (R347)
  canNext : Option Nat  -- next CAN segment index expected
  canTime : Nat
  canBytes : List Byte
  deriving DecidableEq, Repr

/-- (DESIGN CHOICE log 3) -/
def Mbox.reset : Mbox := ⟨0, 0, 0, none, 0, none, none, 0, none, 0, []⟩

/-- The mailbox block and the host ports. -/
structure Mbx where
  boxes : SMap Mbox
  tx : List TxMsg            -- sent during the last command
  canWait : List TxMsg       -- CAN frames that wait for the end of the bypass clock (R29)
  ethUp : List Bool          -- SGMII link status of the two ports
  deriving DecidableEq, Repr

/-! ### Alarms, event log, trace (chapter 16) -/

/-- An entry of the alarm table (R351, R391). `flags` are the instances of a fold entry whose cause is present, `unrec`
the repeats no log record carries yet, `recAt` the time of the entry's last record (µs). -/
structure Alarm where
  id : Nat
  name : AlarmName
  inst : Nat
  fold : Bool
  cause : Bool
  acked : Bool
  occ : Nat
  first : Nat
  last : Nat
  data : List Nat
  flags : List Nat
  unrec : Nat
  recAt : Nat
  deriving DecidableEq, Repr

/-- A record of the event log (R392); class 3 is D. -/
structure LogRec where
  serial : Nat
  code : Nat
  cls : Nat
  time : Nat
  inst : Nat
  count : Nat
  data : List Nat
  deriving DecidableEq, Repr

/-- A record of the trace ring (R393). -/
structure TraceRec where
  source : Nat
  seq : Nat
  time : Nat
  data : List Byte
  deriving DecidableEq, Repr

/-- An equalisation trial (R388): lane, code under trial (0 TX_EMPH, 1 RX_EQ, 2 and 3 the far end's receive and transmit
codes), phase (0 at +1, 1 at −1), the original code, the errors of the second before it and of its two settings, when its
present setting began. -/
structure EqTrial where
  lane : Nat
  which : Nat
  phase : Nat
  orig : Nat
  errs : List Nat
  stepAt : Nat
  deriving DecidableEq, Repr

/-- Telemetry and background work. -/
structure Tlm where
  alarms : List Alarm        -- oldest first
  nextId : Nat
  foldEpisode : Bool
  log : List LogRec          -- oldest first
  serial : Nat               -- last SERIAL
  sumCounts : SMap Nat       -- event summary: occurrences per NAME_CODE
  sumRecs : List LogRec      -- newest 246 class A and B records
  trace : List TraceRec      -- records of the ring not yet read
  traceSeq : Nat
  traceLost : List (Nat × Nat) -- per source: records lost since the last read
  traceSpan : Nat × Nat      -- time span of the loss
  traceDiv : Nat             -- period of the next sample
  traceDec : SMap Nat        -- per cell: free-running outputs since the last one kept
  recon : SMap Int           -- per (mailbox, cell): value the host reconstructed (R394)
  eq : List (Option EqTrial) -- per link island
  eqNext : SMap Nat          -- per lane: which of the four codes is next
  eqLast : SMap Nat          -- per lane: when its last trial began, ns + 1
  far : SMap Nat             -- per lane: far-end EQ codes in force
  scrubAddr : Nat
  mramAddr : Nat
  calLast : List Nat         -- per unit A to C: time of the last calibration
  calRefused : List Nat
  thrForce : SMap Nat        -- per switch and kind: threshold code in force
  thrLast : Nat
  wearLast : Nat
  deriving DecidableEq, Repr

/-! ### Operating mode, limits and grid (chapter 2) -/

/-- A mode change that was accepted and has not taken effect (R51, R53). -/
structure Pending where
  target : Mode
  option : Nat
  vDc : Int
  iDc : Int
  ref : Option CmdRef
  accepted : Nat
  ramp : Bool
  taken : Bool          -- a commit deadline has committed the target's update set
  deriving DecidableEq, Repr

/-- Operating mode: code, SAFE sub-state (0 none, 1 SAFE_SHORT, 2 SAFE_OPEN), the mode SAFE was entered from, the pending
transition, the time of the last change of code (µs), the period of the last accepted MODE_SET, ramps (R56). -/
structure ModeSt where
  code : Mode
  sub : Nat
  from_ : Mode
  pend : Option Pending
  changed : Nat
  reqPeriod : Option Nat
  safeRefs : List CmdRef -- MODE_SET SAFE that the entry to SAFE completes
  vDc : Int             -- CHARGE_DC output reference, mV
  vTarget : Int         -- mV
  iLim : Int            -- current limit in force of CHARGE_DC and GRID, mA
  tqOut : Int           -- torque ramp value, 0.01 N·m
  uCount : List Nat     -- u_s of the last period start
  vLim : Int            -- mV
  damp : Nat            -- d in 2^-15
  pLim : Int            -- W
  deriving DecidableEq, Repr

/-- One cell as the map and the identity check see it, with its bypass commands (R41 to R45, R96, R131). -/
structure Cell where
  adm : Admission
  excl : Option Nat       -- excluded until this period (R128)
  exclSince : Option Nat  -- the dispatch of this period on leaves it out
  gone : Bool             -- permanently unusable (R131, R96)
  legHold : Nat           -- retired by trip: 0 both legs 100, 1 left leg held in 111, 2 right leg held in 111
  untested : Nat          -- half-bridges UNTESTED (bit 0 left, bit 1 right)
  bcOn : Bool             -- BYPASS_CLOSE every 1 ms
  bcFirst : Option Nat
  bcNext : Nat
  unconf : Bool           -- BYPASS_UNCONFIRMED present
  wasSilent : Bool        -- found silent, and not admitted since (R43)
  boOn : Bool             -- BYPASS_OPEN every 1 ms
  boNext : Nat
  deriving DecidableEq, Repr

/-- (DESIGN CHOICE log 3) -/
def Cell.reset : Cell :=
  ⟨.unknown, none, none, false, 0, 0, false, none, 0, false, false, false, 0⟩

/-- The grid procedure (R60 to R64): phase 0 NONE, 1 GSYNC, 2 GFORM, 3 GRUN, and the phase from the next period start on;
doubles as their 64 bits; working setpoints in pW; since when the voltage is present, absent, within the tolerances, and
the conditions of R62 hold; f_g of the last 100 ms, newest first; whether the current slots return to AUTO at the next
data-ready. -/
structure Grid where
  phase : Nat
  next : Option Nat
  option : Nat
  lastTrip : Nat
  phaseAt : Nat
  th : BitVec 64
  wi : BitVec 64
  thF : BitVec 64
  vq : BitVec 64
  vd : BitVec 64
  m : BitVec 64
  e : Int                -- phase error, counts
  fG : BitVec 64
  fSet : BitVec 64
  vRamp : BitVec 64
  p : BitVec 64
  q : BitVec 64
  pRef : Int
  qRef : Int
  pWork : Int
  qWork : Int
  presentSince : Option Nat
  absentSince : Option Nat
  syncSince : Option Nat
  condSince : List (Option Nat)
  fHist : List (Nat × BitVec 64)
  auto : Bool
  fMod : Nat             -- frequency the modulator takes, 0.1 Hz (R163), of the last period start
  deriving DecidableEq, Repr

/-! ### Cell link (chapter 3) -/

/-- A downstream message (R78, R83). -/
structure DnMsg where
  op : Nat
  arg : Nat
  deriving DecidableEq, Repr

/-- One lane beside its registers. -/
structure Lane where
  commaRun : Nat          -- consecutive frames with a comma or a held character in slot 0
  crcRun : Nat            -- consecutive frames whose CRC-16 matched
  missRun : Nat           -- consecutive frames without a comma
  lastCrc : Option Nat    -- CRC-16 of the last frame received
  rtts : List Nat         -- round trips of the last 16 frames, 0.25 ns
  tch : Int               -- t_ch of the pad in force, 0.125 ns
  padSent : Bool          -- PAD_SET queued in this training
  ident : Nat             -- IDENT parts received
  serial : Nat            -- being assembled
  serialKnown : Bool
  health : SMap Nat       -- last value of each health code
  seen : Nat              -- health codes received
  trainAt : Nat
  silentAt : Nat
  msg : Option DnMsg      -- outstanding message
  msgCrc : Nat
  msgStart : Nat          -- boundary of its first character
  msgEnd : Nat            -- when its last character leaves
  abortAt : Nat           -- boundary of the K28.7 that aborted a message, + 1 (R81)
  tries : Nat
  resend : Bool           -- attempt failed or aborted: to be sent again
  queue : List DnMsg
  buckets : List Nat      -- 16 buckets of 62.5 ms, present first
  bucketAt : Nat
  rd : Bool               -- running disparity of the upstream code (R66), true positive
  lastChar : Nat          -- the last upstream character: its flags and bits (R67, R84)
  refused : Nat × Nat × Nat -- refusals reported to the hearth: how many, OP and status of the last (R82)
  injLeft : Nat           -- upstream characters to the next injection (R98)
  injMade : Nat           -- injections since INJ_CFG was written
  injAt : Nat             -- from when the injector counts downstream characters
  deriving DecidableEq, Repr

/-- (DESIGN CHOICE log 3) -/
def Lane.reset : Lane :=
  ⟨0, 0, 0, none, [], 0, false, 0, 0, false, [], 0, 0, 0, none, 0, 0, 0, 0, 0, false, [], List.replicate 16 0, 0, false, 0,
    (0, 0, 0), 0, 0, 0⟩

/-! ### Gate generator and protection (chapters 4 and 5) -/

/-- A transition that has been expanded for a leg (R102, R108): its target request, its edge time, its steps. -/
structure Trans where
  req : Nat
  te : Nat
  steps : List (Nat × Nat)
  deriving DecidableEq, Repr

/-- One half-bridge: the codes that took or take effect with their gate times (oldest first), the transition in progress,
the first off-edge step of each switch with the programmed span of that off-edge, and its trips. -/
structure Hb where
  tl : List (Nat × Nat)
  trans : Option Trans
  hsOff : Option (Nat × Nat)
  lsOff : Option (Nat × Nat)
  held : Bool
  hardMask : Nat          -- latched switches of a hard trip to be cleared (bit 0 high side, bit 1 low side)
  tripT : Nat             -- trip time of the last trip
  trips : List Nat        -- trip times of the last three trips, newest first
  clearAt : Option Nat    -- when TRIP_CLEAR is due
  forceAt : Option Nat    -- when FORCE_SHORT brings the leg to 111
  echo : List (Nat × Nat) -- PL_ON, PL_OFF, DT_RISE, DT_FALL: sum and count of the echoes (R116)
  due : List Nat          -- means waiting for the next period start, + 1; 0 none
  deriving DecidableEq, Repr

/-- (DESIGN CHOICE log 3) -/
def Hb.reset : Hb :=
  ⟨[(0, 4)], none, none, none, false, 0, 0, [], none, none, [(0, 0), (0, 0), (0, 0), (0, 0)], [0, 0, 0, 0]⟩

/-- The cross-blank windows of a string (R125, R126): start, end, and 0, 1 for a window cut at XB_MAX, 2
once its overrun is counted; and the half-bridges and trip times of recent trips (R134). -/
structure XBlank where
  wins : List (Nat × Nat × Nat)
  trips : List (Nat × Nat)
  deriving DecidableEq, Repr

/-- (DESIGN CHOICE log 3) -/
def XBlank.reset : XBlank := ⟨[], []⟩

/-- A comparator self-test in progress (R150). -/
structure SelfTest where
  ref : CmdRef
  cell : Nat
  mask : Nat
  kind : Nat
  sw : Nat               -- switch under test
  stage : Nat            -- 0 soft force, 1 soft release, 2 hard force, 3 hard release and clear, 4 latch check
  deadline : Nat
  results : List Nat     -- soft and hard result per switch
  deriving DecidableEq, Repr

/-- Protection beside its registers. -/
structure Prt where
  xb : SMap XBlank
  test : Option SelfTest
  soft : SMap Nat        -- soft threshold base per switch
  hard : SMap Nat
  deriving DecidableEq, Repr

/-- The safety island (R31, R136 to R149). -/
structure Saf where
  req : List AlarmName   -- requests and own causes not yet acted on
  crashIn : Bool         -- CRASH_N counts as active
  bleedAt : Nat
  bleedNext : Nat
  bleedOk : Bool         -- both nodes were below 60 V at some conversion since the assertion
  tqRun : Nat            -- ns of the run of violating samples
  tqHit : Bool           -- the run has raised TORQUE_VIOLATION
  angRun : Nat           -- ns of the run of disagreements
  angHit : Bool
  model : List Byte      -- motor model copied at entry to DRIVE
  limits : List Byte     -- SAFETY_LIMITS copy
  tCmd : Int             -- torque reference at the previous apply point
  internal : Bool        -- SAFETY_ISLAND_FAULT
  latchAt : Nat
  release : Bool         -- FORCE line released at the next period start
  deriving DecidableEq, Repr

/-! ### Modulator (chapter 6) -/

/-- What one cell does in a period: its contribution at the start and its changes, offsets in ns (R165 to R167). -/
structure CellPlan where
  c0 : Int
  ev : List (Nat × Int)
  deriving DecidableEq, Repr

/-- A string's part of an update set (R161, R168): polarity, full count, ranking, plans. -/
structure StrPlan where
  sgn : Int
  n : Nat
  rank : List Nat
  pwm : List Nat
  deriving DecidableEq, Repr

/-- An update set (R25, R171): static request for every string member, or the cells' plans. -/
structure UpdateSet where
  static : Option Nat
  strs : List (Option StrPlan)
  plans : SMap CellPlan
  overflow : Bool
  deriving DecidableEq, Repr

/-- A timer channel beside its shadow registers (R172 to R174). -/
structure Tch where
  count : Nat
  down : Bool
  at_ : Nat              -- time base at which `count` held
  pend : Option (List Nat) -- PERIOD, CMP_A, CMP_B, PRESC
  applied : List Nat
  pre : List Nat         -- prescaler counters
  fired : List Nat       -- time + 1 at which ZERO, PERIOD, CMP_A, CMP_B last fired
  deriving DecidableEq, Repr

/-- (DESIGN CHOICE log 3) -/
def Tch.reset : Tch := ⟨0, false, 0, none, [0, 0, 0, 0], [0, 0, 0, 0], [0, 0, 0, 0]⟩

/-- The modulator beside its registers. -/
structure Modu where
  period : Nat           -- period starts since the origin
  start : Nat            -- time of the last period start
  stage : Nat            -- last foreground step of the period taken
  force : UpdateSet      -- in force in this period
  next : Option UpdateSet -- computed for the next period
  repeats : Nat
  cells : SMap Int       -- contribution of each cell at the end of the period
  tch : SMap Tch
  trig : SMap Nat        -- time + 1 of the last trigger pulse per channel
  dispatched : Bool      -- a dispatch result was handed over in this period
  modeNext : Nat         -- modulation mode of the next period (R163)
  deriving DecidableEq, Repr

/-! ### The string map (chapter 2) -/

/-- A string entry of the map (R37). -/
structure StrEnt where
  phase : Nat
  positions : Nat
  minCells : Nat
  floor : Nat
  deriving DecidableEq, Repr

/-- A cell entry of the map (R37). -/
structure CellEnt where
  role : Nat
  str : Nat
  pos : Nat
  serial : Nat
  deriving DecidableEq, Repr

def CellEnt.none : CellEnt := ⟨0, 0, 0, 0⟩

/-- The map in force, and the STRING_MAP_SET that still waits for the identity check (R41). -/
structure StringMap where
  id : Nat
  count : Nat
  spare : Nat
  vNom : Int
  vMin : Int
  vMax : Int
  capacity : Nat
  vReq : Int
  strs : List StrEnt
  cells : SMap CellEnt
  applying : Option CmdRef
  checking : Bool
  deriving DecidableEq, Repr

/-- (DESIGN CHOICE log 3) -/
def StringMap.none : StringMap := ⟨0, 0, 0, 0, 0, 0, 0, 0, [], [], .none, false⟩

/-! ### Cell dispatch (chapter 7) -/

/-- What one dispatch found for a string (R194). -/
structure StrOut where
  sgn : Int
  n : Nat
  fRaw : Nat
  u : Nat
  dir : Nat
  vref : Int
  clipped : Bool
  held : Bool
  rank : List Nat
  deriving DecidableEq, Repr

/-- What one dispatch found for a cell: key before the bonus, incumbency, usability, voltage entry stale, rank, STR field,
temperature in use. -/
structure CellOut where
  cell : Nat
  key : Nat
  inc : Bool
  usable : Bool
  stale : Bool
  rank : Nat
  str : Nat
  temp : Option Int
  deriving DecidableEq, Repr

/-- One string's vote (R198). -/
structure VoteOut where
  nRead : Nat
  nBand : Nat
  cons : Option Int
  agreeA : Bool
  agreeD : Bool
  out : List Nat
  readers : List Nat
  deriving DecidableEq, Repr

/-- A dispatch whose result is not handed over yet. -/
structure DispOut where
  strs : List (Option StrOut)
  cells : List CellOut
  votes : List (Option VoteOut)
  deriving DecidableEq, Repr

/-- What the engine keeps of a string from one dispatch to the next: polarity, last valid reference with its age, whether
VREF_STALE is due, direction, ranked list, cells given an insertion, mode of the dispatch, dispatches the order was held,
window boundary since then, whether it ran in a driven mode, last consensus (none where the last vote formed none), swaps of
the running window; runs of consecutive periods with and without the conditions of R199 (sensor A, sensor D, no
consensus); u_s and direction at the last window boundary. -/
structure DispStr where
  sgn : Int
  ref : Int
  refAge : Nat
  staleDue : Bool
  dir : Nat
  rank : List Nat
  gave : List Nat
  mode : Nat
  held : Nat
  wb : Bool
  driven : Bool
  cons : Option Int
  swaps : Nat
  run : List Nat
  ok : List Nat
  uWin : Nat
  dirWin : Nat
  deriving DecidableEq, Repr

/-- (DESIGN CHOICE log 3) -/
def DispStr.reset : DispStr := ⟨1, 0, 0, false, 0, [], [], 3, 0, false, false, none, 0, [0, 0, 0], [0, 0, 0], 0, 0⟩

/-- The dispatch engine beside its registers: strings; the result in work; the usable sets of the results handed over and in
force; soc and wear in force and committed (SOC plus 65 536 × WEAR); windows without a commit, the
period at which the last one took effect; the last window boundary
taken; per cell: full periods and swaps of the running window, runs outside and inside the band; the period after the one whose dispatch
formed the last votes. -/
structure Disp where
  strs : SMap DispStr
  out : Option DispOut
  usedNext : List (List Nat)
  used : List (List Nat)
  soc : SMap Nat
  socNext : SMap Nat
  noCommit : Nat
  commitAt : Option Nat
  winDone : Nat
  stickySet : Bool
  ins : SMap Nat
  swapsIn : SMap Nat
  outRun : SMap Nat
  outOk : SMap Nat
  voted : Nat
  deriving DecidableEq, Repr

/-! ### The control engine (chapter 8) -/

/-- A host entry's deadline (R236): when it times out, and the value it then takes. -/
structure Hin where
  deadline : Option Nat
  fallback : Int
  deriving DecidableEq, Repr

/-- The control engine beside its registers: d_prev per slot; y_prev per unit, none where the next run takes its input; the
mode and bank SLOT_MODE_SET last set per slot (1 + mode + 2 × bank); the observer (R224); the plausibility model (R226):
prediction, previous voltages, whether the previous run had valid inputs, runs since entry to DRIVE; whether the last period
dispatched; data-ready of a run whose end step has not completed; the host entries' deadlines. -/
structure Ctl where
  dPrev : SMap Int
  yPrev : SMap (Option Int)
  slotHost : SMap Nat
  lamA : Int
  lamB : Int
  va : Int
  vb : Int
  th : Nat
  wAcc : Int
  idp : Int
  iqp : Int
  vdp : Int
  vqp : Int
  plsValid : Bool
  driveRuns : Nat
  driven : Bool
  runAt : Option Nat
  hin : SMap Hin
  deriving DecidableEq, Repr

/-- (DESIGN CHOICE log 3) -/
def Ctl.reset : Ctl := ⟨[], [], [], 0, 0, 0, 0, 0, 0, 0, 0, 0, 0, false, 0, false, none, []⟩

/-! ### Position and speed feedback (chapter 9) -/

/-- A pulse source (R246): the edges of the last millisecond with their direction, newest first; the times of the edges in
the present direction back to the restart of the span, newest first (t_last at the head); the direction, 0 unknown. -/
structure Pulse where
  gate : List (Nat × Int)
  span : List Nat
  dir : Int
  deriving DecidableEq, Repr

/-- (DESIGN CHOICE log 3) -/
def Pulse.reset : Pulse := ⟨[], [0], 0⟩

/-- The settings of the safety island's Hall decoder (R252): HALL_EN, HALL_DIR, HALL_OFFSET, STOP_TIME,
POLE_PAIRS, and FILT in its own samples. -/
structure HallCfg where
  en : Bool
  dir : Bool
  offset : Nat
  stop : Nat
  pp : Nat
  filt : Nat
  deriving DecidableEq, Repr

/-- The feedback block beside its registers: w_acc of the tracking loop, its last updates (peak time, phi, d8; newest
first), runs of updates with low amplitude, clipping and tracking error; the Hall and axle sources; the angle formed at the
sample instant; the last CHATTER per input (time + 1); the rejected
transitions of the last millisecond (input, time); since when MARKER and ENDSTOP are active; the last MARKER edge that latched;
the resolver pair being converted (peak number and time) and the last peak whose pair has begun; the safety island's own
decoder: settings, sector (7 none), code, source. -/
structure Fbk where
  wAcc : Int
  hist : List (Nat × Nat × Int)
  runLos : Nat
  runClip : Nat
  runLot : Nat
  hall : Pulse
  axle : Pulse
  theta : Option Nat
  chatAt : List Nat
  rejects : List (Nat × Nat)
  activeAt : List (Option Nat)
  markerAt : Option Nat
  pair : Option (Nat × Nat)
  served : Nat
  sCfg : HallCfg
  sSector : Nat
  sCode : Nat
  sHall : Pulse
  deriving DecidableEq, Repr

/-- (DESIGN CHOICE log 3) -/
def Fbk.reset : Fbk :=
  ⟨0, [], 0, 0, 0, Pulse.reset, Pulse.reset, none, List.replicate 7 0, [], [none, none], none, none, 0,
    ⟨false, false, 0, 100, 1, 22⟩, 7, 0,
    Pulse.reset⟩

/-! ### The start procedure (chapter 10) -/

/-- The start procedure (R256 to R267): phase and angle source by their codes, the mode it came from, the CHECK
accumulators, the imposed motion, the outcome of the last start. -/
structure Start where
  phase : Nat
  next : Option (Nat × Nat)  -- phase and source from the next period start on
  srcNext : Option (Nat × Int) -- in RUN: source from the next period start on, and the angle step
  src : Nat
  from_ : Mode
  phaseAt : Nat
  periods : Nat
  adv : Int
  lastAng : Option Nat
  ampSum : Nat
  ampN : Nat
  tFirst : Nat
  tLast : Nat
  resSum : Int
  resN : Nat
  nEmf : Int
  amp : Int
  theta : Nat                -- angle of the EMF or of EXTRAP extrapolation
  nS : Int                   -- speed of the selected source, 0.1 rpm
  nImp : Int
  acc : Nat
  delta : Nat
  extrap : Nat
  reason : Nat
  misses : Nat
  ran : Bool                 -- the procedure ran at this period's data-ready
  tq : Int                   -- value of TQ_HIN being ramped, 0.01 N·m
  failing : Nat              -- reason of a start that is ramping down, 7 ALIGN follows, 0 none
  deriving DecidableEq, Repr

/-- (DESIGN CHOICE log 3) -/
def Start.reset : Start :=
  ⟨0, none, none, 0, .off, 0, 0, 0, none, 0, 0, 0, 0, 0, 0, 0, 0, 0, 0, 0, 0, 0, 0, 0, 0, true, 0, 0⟩

/-! ### Docking moves (chapter 11) -/

/-- A filtered MARKER or ENDSTOP edge as the move engine is given it (R248): the input, whether the new level is the active
one, the time of its first sample, the extended axle count there. -/
structure DokEdge where
  endstop : Bool
  active : Bool
  t : Nat
  cnt : Int
  deriving DecidableEq, Repr

/-- The move engine beside its registers. Positions in nm, speeds in nm/s: extended count, count term of the last run,
offset, p, v, direction, T, T' of a reversal, V_MAX of the move, phase (0 accel, 1 cruise, 2 decel, 3 creep); what STOPPING
leads to (0 PAUSED, 1 end-stop, 2 homed, 3 home not found); the outstanding move and DOCK_STOP; whether the move accepted a
marker edge; the input edges no run has seen yet; start of homing; largest overshoot; diff and
what is left of it to slew; direction in which the end-stop edge arrived; compares that fire at the next sample instant; ends
of output pulses; whether the arrival error is still to be latched; actions of this sample instant that outputs still take
(output, action); DOCK_RESUME commands that complete as the move. -/
structure Dok where
  ext : Int
  ct : Int
  offset : Int
  p : Int
  v : Int
  dir : Int
  t : Int
  tNew : Int
  vMax : Int
  phase : Nat
  why : Nat
  move : Option CmdRef
  stop : Option CmdRef
  edge : Bool
  edges : List DokEdge
  homeFrom : Int
  over_ : Int
  slewDiff : Int
  slewLeft : Int
  endDir : Int
  fire : List Bool
  pulseEnd : List (Option Nat)
  arriving : Bool
  outDue : List (Nat × Nat)
  resumes : List CmdRef
  deriving DecidableEq, Repr

/-- (DESIGN CHOICE log 3) -/
def Dok.reset : Dok :=
  ⟨0, 0, 0, 0, 0, 1, 0, 0, 0, 0, 0, none, none, false, [], 0, 0, 0, 0, 0, List.replicate 8 false,
    List.replicate 4 none, false, [], []⟩

/-! ### Conversion (chapter 12) -/

/-- The values of one cell's decimators: taken at the last sample instant (period means and samples, mV and mA), those that
stand since data-ready, whether they are valid and their age (R23), the last valid mean voltage; the CRC marks of the
standing values and of those being collected (R306); the auxiliary channels with the time each value was taken (R307), and the
index of the present dwell. -/
structure CellVal where
  newV : Int
  newI : Int
  newVs : Int
  newIs : Int
  got : Bool
  v : Int
  i : Int
  vs : Int
  is : Int
  valid : Bool
  age : Nat
  vLast : Int
  suspect : Bool
  susNext : Bool
  aux : List (Option (Int × Nat))
  auxIdx : Option Nat
  deriving DecidableEq, Repr

/-- (DESIGN CHOICE log 3) -/
def CellVal.reset : CellVal :=
  ⟨0, 0, 0, 0, false, 0, 0, 0, 0, false, 15, 0, false, false, List.replicate 8 none, none⟩

/-- A table entry being converted: entry, conversions owed, sum of an average, first hold edge (half ns). -/
structure SarWork where
  entry : Nat
  left : Nat
  sum : Nat
  first : Option Nat
  deriving DecidableEq, Repr

/-- A SAR unit (R288 to R299) beside its registers: what converts (0 nothing, 1 foreground, 2 background, 3 firmware urgent,
4 the resolver pair), its work, the time the conversion in progress completes (half ns), the background work that waits with
the time of the abort that interrupted it (half ns; none where it has not begun), whether it was restarted before its result,
the sample instant (half ns) of a foreground segment that waits, the pending urgent request (channel, SAMPLE), the
destinations the foreground delivered in this period, the record FIFO, and the time (half ns, plus 1) at which the background
segment last completed. -/
structure SarUnit where
  phase : Nat
  work : SarWork
  due : Nat
  bg : Option (SarWork × Option Nat)
  restarted : Bool
  fgWait : Option Nat
  urgent : Option (Nat × Nat)
  fg : List (Nat × Int)
  fifo : List (Nat × Nat)
  bgEnd : Nat
  deriving DecidableEq, Repr

/-- (DESIGN CHOICE log 3) -/
def SarUnit.reset : SarUnit := ⟨0, ⟨0, 0, 0, none⟩, 0, none, false, none, none, [], [], 0⟩

/-- The conversion subsystem beside its registers; unit 3 is D. -/
structure Cnv where
  vals : SMap CellVal
  units : SMap SarUnit
  sensD : List (Option Int)  -- sensor D per string, S.15 of I_FS, of this period
  sampleAt : Nat             -- the last sample instant
  deriving DecidableEq, Repr

/-! ### Clocks (chapter 13) -/

/-- The clocks beside their registers: the wall clock in ns at the time base count `wallRef` (R377), when the reference was
lost (R320), the SLEWING start and the offset there, the clock changes that wait per island (R28: 0 none, 1 to bypass, 2 to the PLL; order of
R27), whether a gap fell in the running lock window (R315), whether HOLDOVER_EXCEEDED was raised for this loss, the free value that
rates the RC oscillator (R328). -/
structure Clk where
  wallNs : Nat
  wallRef : Nat
  lossAt : Option Nat
  slewAt : Nat
  slewFrom : Int
  change : List Nat
  gap : Bool
  exceeded : Bool
  rc : Nat
  deriving DecidableEq, Repr

/-! ### Stream translation and DMA (chapter 14) -/

/-- The STU beside its registers: cached translations (TTB, page, level-2 entry), the channel granted last per priority,
when each channel entered FAULTED, when one was last resumed (the time plus 1, 0 for never). -/
structure Stu where
  cache : List (Nat × Nat × Nat)
  last : List Nat
  faultAt : SMap Nat
  resumedAt : SMap Nat
  deriving DecidableEq, Repr

/-! ### Lifetime ledger (chapter 15) -/

/-- A cell record (R369) without its accumulators' place in the hardware: energies in µJ and fJ / 255, charges in µC and
pC / 255. -/
structure LedRec where
  serial : Nat
  cell : Nat
  state : Nat
  flags : Nat
  opened : Nat
  calGen : Nat
  e : List Nat             -- E_OUT, E_IN, E_OUT_RES, E_IN_RES, Q_OUT, Q_IN, Q_OUT_RES, Q_IN_RES
  tempS : List Nat         -- 16 histogram entries
  tempMissing : Nat
  suspect : Nat
  unmetered : Nat
  cycleHalf : List Nat     -- 64 entries
  rfStack : List Nat       -- open reversals, oldest first
  deriving DecidableEq, Repr

def LedRec.free : LedRec :=
  ⟨0, 0, 0, 0, 0, 0, List.replicate 8 0, List.replicate 16 0, 0, 0, 0, List.replicate 64 0, []⟩

/-- A char list entry (R380). -/
structure CharEnt where
  type : Nat
  index : Nat
  reason : Nat
  serial : Nat
  time : Nat
  mapId : Nat
  detail : List Byte
  deriving DecidableEq, Repr

/-- A time log entry (R377): the 24 bytes. -/
structure TimeEnt where
  a : Nat
  b : Nat
  kind : Nat
  utc : Int
  deriving DecidableEq, Repr

/-- An import of R381 in the meta table. -/
structure ImportEnt where
  device : Nat
  anchor : Nat
  srcTime : Nat
  time : Nat
  cell : Nat
  serial : Nat
  deriving DecidableEq, Repr

/-- The body of a sod (R372). -/
inductive SodBody where
  | recs (l : List LedRec)
  | chars (l : List CharEnt)
  | times (l : List TimeEnt)
  | counts (l : List (Nat × Nat))
  | events (l : List LogRec)
  | metaSlot (commissioned : Bool) (id : Nat) (utc : Int) (mapId : Nat) (imports : List ImportEnt)
  | anchor (manifest : List (Nat × List Byte)) (prev sig : List Byte)
  deriving DecidableEq, Repr

/-- One copy of a sod in one bank (R372); `ok` is false for a torn copy, whose CRC fails. -/
structure Sod where
  slot : Nat
  seq : Nat
  time : Nat
  anchorSeq : Nat
  prev : List Byte
  body : SodBody
  ok : Bool
  deriving DecidableEq, Repr

def Sod.none : Sod := ⟨0, 0, 0, 0, [], .recs [], false⟩

/-- What waits for the end of a flush (R373). -/
inductive FlushWait where
  | event
  | meter (ref : CmdRef) (first count : Nat) (nonce : List Byte)
  | export_ (ref : CmdRef) (first count : Nat)
  | import_ (ref : CmdRef) (results : List Byte)
  | commission (ref : CmdRef)
  | reset (kind cause : Nat)
  | grade (ref : CmdRef)
  | park
  deriving DecidableEq, Repr

/-- The hardware accumulators of one cell (E_OUT, E_IN, E_OUT_RES, E_IN_RES, Q_OUT, Q_IN, Q_OUT_RES, Q_IN_RES), the
period's class sums (R364, R365: n, ones among the voltage and the current bits for k = +1 and k = −1), the sign of the
latest free-running current output, the echo midpoints of the last 16 echoes of each leg in half ns, and whether this
period's values were delivered and are CRC-suspect (R366). -/
structure LedAcc where
  e : List Nat
  cls : List (Nat × Nat × Nat)
  sign : Int
  cdL : List Nat
  cdR : List Nat
  got : Bool
  suspect : Bool
  deriving DecidableEq, Repr

/-- (DESIGN CHOICE log 3) -/
def LedAcc.reset : LedAcc := ⟨List.replicate 8 0, [(0, 0, 0), (0, 0, 0)], 0, [], [], false, false⟩

/-- The ledger. -/
structure Lgr where
  recs : SMap LedRec           -- live records, working images
  archive : List LedRec        -- oldest first
  chars : List CharEnt
  times : List TimeEnt
  commissioned : Bool
  commId : Nat
  commUtc : Int
  mapId : Nat
  imports : List ImportEnt
  acc : SMap LedAcc
  sods : SMap Sod              -- copies, key 64 × bank + slot
  seq : Nat                    -- last SEQ
  anchor : Nat                 -- SEQ of the newest anchor
  anchorSlot : Nat
  due : List FlushWait         -- requests for a flush that has not started
  active : List FlushWait      -- requests the running flush completes
  running : Bool
  lastStart : Option Nat
  lastFlushTime : Nat          -- ledger time of the last flush
  lastUtc : Option (Nat × Int × Nat) -- last pair logged: ledger time, UTC, device time when logged
  utcSeen : Option (Nat × Int)
  aonLost : Bool               -- a TIME_SET completes the dark interval of an AON loss
  cert : Option (List Byte)
  refreshAt : Nat
  toExport : List Nat          -- cells whose records take EXPORTED at the next flush (R381)
  deriving DecidableEq, Repr

/-! ### Self-test and repair (chapter 17) -/

/-- BIST beside its registers: the fuse repairs loaded (entries of R408), the soft repairs in the same format with those
burned in this boot, memories awaiting their retest, when the stage (or the retest) and the start began, whether a start was
deferred or interrupted, since when the preconditions hold, interrupted starts, whether OTP's expected values could not be
read, the BIST_RUN KIND 1 that runs, first failing cell per memory (row, and bit from bit 16), the first 16 damaged MRAM lines. -/
structure Bist where
  fused : List Nat
  soft : List Nat
  burned : List Nat
  retest : List Nat
  stageAt : Nat
  startAt : Nat
  deferred : Bool
  holdSince : Option Nat
  interrupts : Nat
  otpBad : Bool
  inPlace : Option CmdRef
  firstFail : SMap Nat
  lines : List Nat
  deriving DecidableEq, Repr

/-- (DESIGN CHOICE log 3) -/
def Bist.reset : Bist := ⟨[], [], [], [], 0, 0, false, none, 0, false, none, [], []⟩

/-! ### Power, reset and startup (chapter 18) -/

/-- Power and startup: the step of R423 in progress (0 waiting for rails good, 1 to 7 the steps, 8 READY, 9 stopped), the
resets that wait, the watchdog, parking and sleep. -/
structure Pwr where
  step : Nat
  stepAt : Nat
  rstN : Bool                  -- RST_N is high
  resetDue : Option (Nat × Nat × Nat) -- commanded reset: kind (0 SYSTEM, 1 HEARTH, 2 SLEEP), cause, earliest time
  defer : Option Nat           -- cause of a deferred reset (R421)
  slowSince : Option Nat
  noSpeedSince : Option Nat
  wdogAt : Option Nat          -- when the watchdog expires; none while it does not run
  wdogLeft : Option Nat        -- what is left of it while a core pair is halted (R445)
  wdogMs : Nat                 -- ms in force
  railAt : Nat                 -- when a rail last became good
  parkDue : Bool
  sleeping : Bool
  sleepWall : Nat
  unparking : Bool             -- a MODE_SET out of STANDBY waits for the parked domains
  domainAt : SMap Nat          -- time + 1 at which a domain that is powering up was switched
  nvBad : Bool
  hearthZero : Bool
  deriving DecidableEq, Repr

/-! ### Security and debug port (chapter 19) -/

/-- A firmware load session (R438). -/
structure FwSession where
  mb : Nat
  slot : Nat
  hdr : List Byte
  got : Nat
  last : Nat
  deriving DecidableEq, Repr

/-- An unlock challenge (R444). -/
structure Challenge where
  bytes : List Byte
  issued : Nat
  deriving DecidableEq, Repr

/-- The SEC_ block: OTP contents loaded, image slots (R435, state codes of SEC_STATUS), sessions and unlocks. -/
structure Sec where
  otp : OtpImage
  loaded : Bool
  slots : List Nat
  trial : List Bool            -- trial marks (R436)
  img : List Byte              -- header of the running image
  session : Option FwSession
  chal : Option Challenge
  chalIdx : Nat                -- next challenge word read through DDP_AUTH
  resp : List Nat              -- response words written, oldest first
  submit : Option (List Byte)  -- response under verification
  unlockEnd : Option Nat
  lockEnd : Option Nat         -- end of a lockout
  starts : Nat                 -- startups since power-on
  deriving DecidableEq, Repr

/-- An OTP array with nothing programmed. (DESIGN CHOICE log 3) -/
def OtpImage.blank : OtpImage := ⟨0, 0, 0, false, [], [], [], 0, 0, false, 0, [], 0, [], [], []⟩

/-- The debug port beside its registers: halted pairs; registers of each pair (index of DDP_REG_SEL + 128 × pair). -/
structure Dbg where
  halted : List Bool
  causes : List (Nat × Nat)    -- per pair: CAUSE and INDEX
  regs : SMap Word
  lineReset : Bool             -- a line reset is needed before the next transaction
  lastAck : Nat
  lastData : Word
  deriving DecidableEq, Repr

/-! ### Pair and plant (chapter 20) -/

/-- The pair and plant block beside its registers: the last valid frame of the partner; whether one came since the last
data-ready, and whether it stands for the next period start; runs of valid and of missing frames and of disagreement; when
AUTH_OUT rose, READY was reached, the last valid frame came; the relinquishing in progress (since, cause: 0 PAIR_TAKEOVER,
1 DISPATCH_STALL, 2 CONTROL_OVERRUN, 3 WATCHDOG, 4 LOCKSTEP, the waiting commands, the instance of its alarm); the frame
injection (kind, frames left with 0 unlimited, delay); the last SYNC_IN edge; the phase slew requested toward Δ = 0 (Δ in
ns, rate in ps/ms, since); the last SYNC_OUT pulse; IEEE 1588: sequence and time of the next Sync, the Sync received (sequence, ingress, correction), origin and ingress of the last complete pair, the
Delay_Req sent (sequence, egress), the mean path delay; the pending PLANT_COMMAND (AT, ACTION, ARG). -/
structure Pair where
  frame : List Byte
  got : Bool
  held : Bool
  okRun : Nat
  missRun : Nat
  cmpRun : Nat
  raisedAt : Option Nat
  readyAt : Option Nat
  validAt : Nat
  rel : Option (Nat × Nat × List CmdRef × Nat)
  inj : Option (Nat × Nat × Nat)
  edgeAt : Option Nat
  slew : Option (Int × Nat × Nat)
  syncOut : Option Nat
  ptpSeq : Nat
  ptpNext : Nat
  sync : Option (Nat × Nat × Int)
  pairT : Option (Nat × Nat)
  delayReq : Option (Nat × Nat)
  delay : Int
  plant : Option (CmdRef × Int × Nat × List Byte)
  deriving DecidableEq, Repr

/-- (DESIGN CHOICE log 3) -/
def Pair.reset : Pair :=
  ⟨[], false, false, 0, 0, 0, none, none, 0, none, none, none, none, none, 0, 0, none, none, none, 0, none⟩


/-- A configuration record in force in MRAM (R360): the SET payload, whether it is UNSIGNED (R39), the highest BLOB_SEQ
applied (R433). -/
structure CfgRec where
  stored : Bool
  payload : List Byte
  unsigned : Bool
  blobSeq : Nat
  deriving DecidableEq, Repr

def CfgRec.none : CfgRec := ⟨false, [], false, 0⟩

/-- A shadow copy waiting for the next period start (R24), in the order of the commits. -/
inductive ShadowOp where
  | load (op : Nat) (payload : List Byte)
  | hin (e : Nat) (value : Int)
  | slot (k : Nat) (mode bank : Nat)
  | weights (payload : List Byte)
  | setpoint (p q : Int)
  | soc
  | snap
  | reg (a v : Nat)
  deriving DecidableEq, Repr

/-- Everything of the device but its memory and the queue of waiting commands. `now` is the time base in ns. -/
structure Core where
  now : Nat
  free : Nat                 -- the model's own: index of the next free value
  regs : SMap Word
  evSet : SMap Nat           -- per event bit (32 × address + bit): time + 1 of the last hardware set (R10)
  gateRegs : Option (SMap Word) -- the registers of the next period while its requests are expanded (R114, R117)
  latch : SMap Word          -- _HI words latched by a read of _LO
  memOps : List MemOp        -- writes of this command that memory has not taken; empty between commands
  cfg : SMap CfgRec          -- per SET opcode
  inForce : SMap (List Byte) -- per SET opcode: the payload its block works with (R24)
  shadow : List ShadowOp
  mode : ModeSt
  cells : SMap Cell
  grid : Grid
  lanes : SMap Lane
  hbs : SMap Hb
  prt : Prt
  saf : Saf
  modu : Modu
  mbx : Mbx
  tlm : Tlm
  map : StringMap
  disp : Disp
  ctl : Ctl
  fbk : Fbk
  start : Start
  dok : Dok
  cnv : Cnv
  clk : Clk
  stu : Stu
  lgr : Lgr
  bist : Bist
  pwr : Pwr
  sec : Sec
  dbg : Dbg
  pair : Pair
  deriving DecidableEq, Repr

/-- The machine: the commands that wait, first in, first out; the memory (R33); the rest. -/
structure State where
  pending : List Instr
  mem : SMap Byte
  core : Core
  deriving DecidableEq, Repr

/-- What a command answers. -/
abbrev Res := Host.Outcome State Fault Refusal

/-- The update set before the first one is committed: the static pattern of STANDBY and OFF (R171). -/
def UpdateSet.reset : UpdateSet := ⟨some 0, List.replicate 6 none, [], false⟩

/-- The device right after power-on reset: every register at its reset value (an unlisted register reads so), the mode
OFF, the startup timeline waiting for its rails (R423). (DESIGN CHOICE log 2, 3, 178) -/
def Core.reset : Core where
  now := 0
  free := 0
  regs := []
  evSet := []
  gateRegs := none
  latch := []
  memOps := []
  cfg := []
  inForce := []
  shadow := []
  mode := ⟨.off, 0, .off, none, 0, none, [], 0, 0, 0, 0, List.replicate 6 0, 0, 32768, 0⟩
  cells := []
  grid := ⟨0, none, 0, 0, 0, 0, 0, 0, 0, 0, 0, 0, 0, 0, 0, 0, 0, 0, 0, 0, 0, none, none, none, List.replicate 8 none, [],
    false, 0⟩
  lanes := []
  hbs := []
  prt := ⟨[], none, [], []⟩
  saf := ⟨[], false, 0, 0, false, 0, false, 0, false, [], [], 0, false, 0, false⟩
  modu := ⟨0, 0, 0, UpdateSet.reset, none, 0, [], [], [], false, 0⟩
  mbx := ⟨[], [], [], [false, false]⟩
  tlm := ⟨[], 1, false, [], 0, [], [], [], 0, [], (0, 0), 0, [], [], [none, none], [], [], [], 0, 0, [0, 0, 0], [0, 0, 0],
    [], 0, 0⟩
  map := StringMap.none
  disp := ⟨[], none, List.replicate 6 [], List.replicate 6 [], [], [], 0, none, 0, false, [], [], [], [], 0⟩
  ctl := Ctl.reset
  fbk := Fbk.reset
  start := Start.reset
  dok := Dok.reset
  cnv := ⟨[], [], List.replicate 6 none, 0⟩
  clk := ⟨0, 0, none, 0, 0, List.replicate 12 0, false, false, 0⟩
  stu := ⟨[], List.replicate 8 15, [], []⟩
  lgr := ⟨[], [], [], [], false, 0, 0, 0, [], [], [], 0, 0, 34, [], [], false, none, 0, none, none, false, none, 0, []⟩
  bist := Bist.reset
  pwr := ⟨0, 0, true, none, none, none, none, none, none, 1000, 0, false, false, 0, false, [], false, false⟩
  sec := ⟨OtpImage.blank, false, [0, 0], [false, false], [], none, none, 0, [], none, none, none, 0⟩
  dbg := ⟨[false, false], [(0, 0), (0, 0)], [], false, 0, 0⟩
  pair := Pair.reset

/-- Right after reset: nothing listed in memory, nothing waiting. (DESIGN CHOICE log 178) -/
def State.reset : State := ⟨[], [], Core.reset⟩

end Sys2Proof.Machine
end

