-- ==== Sys2Proof/Machine/Ops.lean ====
section
/-! DEFINITION. The named operations every block shares: registers and their fields, memory, time, the alarm table and
the event log (R391, R392), safe-state requests (R136, R142), replies (R333 to R337), outgoing messages, and how a
command runs. -/
namespace Sys2Proof.Machine

/-! ### Registers -/

/-- The word of a register. -/
def Core.reg (c : Core) (a : Nat) : Word := mapGet regReset c.regs a

/-- A register set to a word. -/
def Core.setReg (c : Core) (a : Nat) (w : Word) : Core := { c with regs := mapSet regReset c.regs a w }

/-- The value of a field. -/
def Core.getF (c : Core) (f : Field) : Nat := bitsOf (c.reg f.addr).toNat f.lo f.len

/-- A word with `len` bits from `lo` on replaced by the low bits of `v`. -/
def putBits (w lo len v : Nat) : Nat :=
  w % 2 ^ lo + v % 2 ^ len * 2 ^ lo + w / 2 ^ (lo + len) * 2 ^ (lo + len)

/-- A field set to a value (its low bits). -/
def Core.setF (c : Core) (f : Field) (v : Nat) : Core :=
  c.setReg f.addr (BitVec.ofNat 32 (putBits (c.reg f.addr).toNat f.lo f.len v))

/-- The signed value of a field. -/
def Core.getI (c : Core) (f : Field) : Int := toS f.len (c.getF f)

/-- A field set to the two's complement of a value, saturated to the field's width (R12). -/
def Core.setI (c : Core) (f : Field) (v : Int) : Core := c.setF f (ofS f.len (satS f.len v))

/-- A one-bit field. -/
def Core.flag (c : Core) (f : Field) : Bool := c.getF f == 1

/-- A one-bit field set. -/
def Core.setFlag (c : Core) (f : Field) (b : Bool) : Core := c.setF f (b2n b)

/-- A hardware set of an event bit, and when it was set: it wins over a clear in the same clock (R10). -/
def Core.event (c : Core) (f : Field) : Core :=
  { c.setF f 1 with evSet := mapSet (fun _ => 0) c.evSet (32 * f.addr + f.lo) (c.now + 1) }

/-- A saturating counter increased. -/
def Core.bump (c : Core) (f : Field) (n : Nat) : Core := c.setF f (satN f.len (c.getF f + n))

/-- One bit `i` of a field used as a bit map. -/
def Core.getBit (c : Core) (f : Field) (i : Nat) : Bool := bitOf (c.getF f) i

def Core.putBit (c : Core) (f : Field) (i : Nat) (b : Bool) : Core :=
  c.setF f (if b then setBit (c.getF f) i else clrBit (c.getF f) i)

/-! ### Instances -/

def Core.cell (c : Core) (n : Nat) : Cell := mapGet (fun _ => Cell.reset) c.cells n
def Core.setCell (c : Core) (n : Nat) (x : Cell) : Core :=
  { c with cells := mapSet (fun _ => Cell.reset) c.cells n x }
def Core.modCell (c : Core) (n : Nat) (f : Cell → Cell) : Core := c.setCell n (f (c.cell n))

def Core.lane (c : Core) (n : Nat) : Lane := mapGet (fun _ => Lane.reset) c.lanes n
def Core.setLane (c : Core) (n : Nat) (x : Lane) : Core :=
  { c with lanes := mapSet (fun _ => Lane.reset) c.lanes n x }
def Core.modLane (c : Core) (n : Nat) (f : Lane → Lane) : Core := c.setLane n (f (c.lane n))

def Core.hb (c : Core) (n : Nat) : Hb := mapGet (fun _ => Hb.reset) c.hbs n
def Core.setHb (c : Core) (n : Nat) (x : Hb) : Core := { c with hbs := mapSet (fun _ => Hb.reset) c.hbs n x }
def Core.modHb (c : Core) (n : Nat) (f : Hb → Hb) : Core := c.setHb n (f (c.hb n))

def Core.box (c : Core) (m : Nat) : Mbox := mapGet (fun _ => Mbox.reset) c.mbx.boxes m
def Core.setBox (c : Core) (m : Nat) (x : Mbox) : Core :=
  { c with mbx := { c.mbx with boxes := mapSet (fun _ => Mbox.reset) c.mbx.boxes m x } }

def Core.tch (c : Core) (n : Nat) : Tch := mapGet (fun _ => Tch.reset) c.modu.tch n
def Core.setTch (c : Core) (n : Nat) (x : Tch) : Core :=
  { c with modu := { c.modu with tch := mapSet (fun _ => Tch.reset) c.modu.tch n x } }

/-! ### Time -/

/-- Device time in µs (R13). -/
def Core.us (c : Core) : Nat := c.now / 1000

/-- The control period in ns (R160). -/
def Core.tc (c : Core) : Nat := max 1 (c.getF MOD_TC.TC)

/-- A fresh index for a free value. (DESIGN CHOICE log 2) -/
def Core.fresh (c : Core) : Core := { c with free := c.free + 1 }

/-! ### Memory (R33) -/

/-- An unlisted byte reads as 0: SRAM, tightly coupled memory and mailbox buffers are zeroed at startup (R336, R401,
R420); MRAM likewise. (DESIGN CHOICE log 6) -/
def memDefault : Nat → Byte := fun _ => 0

/-- The memory as the map of R33 lays it out. -/
abbrev Memory := SMap Byte

/-- The canonical form of the memory. -/
def Memory.wf (m : Memory) : Bool := mapWf memDefault m

/-- The regions of R33. -/
inductive Region where
  | rom | tcm0 | tcm1 | sram | mbx | mram | regs | none
  deriving DecidableEq, Repr

/-- The region that holds an address (R33). -/
def regionOf (a : Nat) : Region :=
  if a < 0x10000 then .rom
  else if 0x01000000 ≤ a ∧ a < 0x01080000 then .tcm0
  else if 0x01080000 ≤ a ∧ a < 0x01100000 then .tcm1
  else if 0x20000000 ≤ a ∧ a < 0x20800000 then .sram
  else if 0x20800000 ≤ a ∧ a < 0x20810000 then .mbx
  else if 0x30000000 ≤ a ∧ a < 0x31000000 then .mram
  else if 0x40000000 ≤ a ∧ a < 0x40150000 then .regs
  else .none

/-- A byte of memory; the boot ROM's contents are a constant of Config. (DESIGN CHOICE log 6, 7) -/
def readByte (m : Memory) (a : Nat) : Byte :=
  if regionOf a = .rom then Config.romByte a else mapGet memDefault m a

/-- `n` bytes of memory. -/
def readBytes (m : Memory) : Nat → Nat → List Byte
  | _, 0 => []
  | a, n + 1 => readByte m a :: readBytes m (a + 1) n

/-- A little-endian word of memory. -/
def readWord (m : Memory) (a : Nat) : Nat := leNat (readBytes m a 4)

/-- One write of a command taken by memory. -/
def applyMemOp (m : Memory) : MemOp → Memory
  | .write a b => mapSetAll memDefault m a b
  | .clear lo hi => mapClear m lo hi

/-- A write to memory, taken when the command ends. -/
def Core.writeMem (c : Core) (a : Nat) (b : List Byte) : Core := { c with memOps := c.memOps ++ [.write a b] }

/-- A range of memory zeroed. -/
def Core.clearMem (c : Core) (lo hi : Nat) : Core := { c with memOps := c.memOps ++ [.clear lo hi] }

/-- How a command runs: its effect on the device, with the memory it reads, then its writes to memory. What the device
sends is kept for this command only. (DESIGN CHOICE log 4) -/
def run (f : Core → Memory → Core) (s : State) : State :=
  let c := f { s.core with memOps := [], mbx := { s.core.mbx with tx := [] } } s.mem
  { s with mem := c.memOps.foldl applyMemOp s.mem, core := { c with memOps := [] } }

/-- The answer of a command that runs. (DESIGN CHOICE log 4) -/
def go (f : Core → Memory → Core) (s : State) : Res := .next (run f s)

/-- One nanosecond passes. (DESIGN CHOICE log 1) -/
def tick (s : State) : State := { s with core := { s.core with now := s.core.now + 1 } }

/-- Bit of ON_BYPASS for an island in the order of R27 (1 HEARTH, 2 FABRIC, 3 CONTROL, 7 CONVERSION, 9 HOST). -/
def bypassBit (i : Nat) : Option Nat :=
  match i with
  | 1 => some 0
  | 2 => some 1
  | 3 => some 2
  | 7 => some 3
  | 9 => some 4
  | _ => none

/-- A domain is on. -/
def Core.domainOn (c : Core) (d : Nat) : Bool := c.getBit PWR_STATUS.ON d

/-- An island is on the bypass clock. -/
def Core.onBypass (c : Core) (i : Nat) : Bool :=
  match bypassBit i with
  | some b => bitOf (c.getF CLK_STATUS.ON_BYPASS) b
  | none => false

/-- A port of a CAN FD controller (R341). -/
def canPort (p : Nat) : Bool := decide (3 ≤ p ∧ p ≤ 6)

/-- A message that leaves the device; a CAN frame waits while the HOST island is on the bypass clock (R29). -/
def Core.send (c : Core) (t : TxMsg) : Core :=
  if canPort t.port && c.onBypass 9 then { c with mbx := { c.mbx with canWait := c.mbx.canWait ++ [t] } }
  else { c with mbx := { c.mbx with tx := c.mbx.tx ++ [t] } }

/-! ### Configuration records (R360, R489) -/

def Core.cfgRec (c : Core) (op : Nat) : CfgRec := mapGet (fun _ => CfgRec.none) c.cfg op
def Core.setCfg (c : Core) (op : Nat) (r : CfgRec) : Core :=
  { c with cfg := mapSet (fun _ => CfgRec.none) c.cfg op r }

/-- The payload stored for a SET command; empty where none is. -/
def Core.cfgP (c : Core) (op : Nat) : List Byte := (c.cfgRec op).payload

/-- Whether a SET of the command has been accepted into the configuration in force. -/
def Core.cfgSet (c : Core) (op : Nat) : Bool := (c.cfgRec op).stored

/-- The payload of a SET command that its block works with: taken at a period start, or at firmware up (R24, R423).
(DEDUCED log 214) -/
def Core.forceP (c : Core) (op : Nat) : List Byte := mapGet (fun _ => []) c.inForce op

/-- A payload of the command is in force. (DEDUCED log 214) -/
def Core.cfgInUse (c : Core) (op : Nat) : Bool := !(c.forceP op).isEmpty

/-- A payload comes into force. -/
def Core.putForce (c : Core) (op : Nat) (p : List Byte) : Core :=
  { c with inForce := mapSet (fun _ => []) c.inForce op p }

def Core.addShadow (c : Core) (o : ShadowOp) : Core := { c with shadow := c.shadow ++ [o] }

/-! ### The event log (R392) -/

/-- Removal of the oldest record of the lowest class present, D below A; the class removed. -/
def dropLog (l : List LogRec) : List LogRec × Nat :=
  let k := if l.any (·.cls == 3) then 3 else if l.any (·.cls == 2) then 2 else if l.any (·.cls == 1) then 1 else 0
  (l.eraseP (·.cls == k), k)

/-- The loss counter of a class. -/
def lossField (k : Nat) : Field :=
  if k = 0 then TLM_LOSS_AB.LOW else if k = 1 then TLM_LOSS_AB.HIGH else if k = 2 then TLM_LOSS_CD.LOW
  else TLM_LOSS_CD.HIGH

/-- A record enters the log; a class A or B record also the ledger's event summary. -/
def Core.logRecord (c : Core) (code cls inst count : Nat) (data : List Nat) : Core :=
  let r : LogRec := ⟨c.tlm.serial + 1, code, cls, c.us, inst, min count 65535, data⟩
  let full := decide (2048 ≤ c.tlm.log.length)
  let d := dropLog c.tlm.log
  let c1 := if full then (c.bump (lossField d.2) 1).event TLM_EVENT.LOG_LOSS else c
  let log := (if full then d.1 else c.tlm.log) ++ [r]
  let sum := cls ≤ 1
  let counts := if sum then
      mapSet (fun _ => 0) c.tlm.sumCounts code ((mapGet (fun _ => 0) c.tlm.sumCounts code + count) % 2 ^ 32)
    else c.tlm.sumCounts
  let recs := if sum then lastN 246 (c.tlm.sumRecs ++ [r]) else c.tlm.sumRecs
  let c2 := { c1 with tlm := { c1.tlm with log := log, serial := r.serial, sumCounts := counts, sumRecs := recs } }
  c2.setF TLM_STATUS.LOG_RECORDS log.length

/-- CLASS of R351 and R392. -/
def AlarmClass.num : AlarmClass → Nat
  | .a => 0
  | .b => 1
  | .c => 2

/-! ### The alarm table (R351, R391) -/

/-- Keyed entries in use. -/
def keyedCount (l : List Alarm) : Nat := (l.filter (fun a => !a.fold)).length

/-- TLM_STATUS and the end of a fold episode follow the table. -/
def Core.refreshAlarms (c : Core) : Core :=
  let k := keyedCount c.tlm.alarms
  let c1 := (c.setF TLM_STATUS.ALARMS c.tlm.alarms.length).setFlag TLM_STATUS.FOLDING (decide (448 ≤ k))
  if k < 448 then { c1 with tlm := { c1.tlm with foldEpisode := false } } else c1

/-- An entry as a log record carrying `count` occurrences. -/
def Core.logAlarm (c : Core) (a : Alarm) (count : Nat) : Core :=
  c.logRecord a.name.code a.name.cls.num a.inst count a.data

/-- The entry that an occurrence of `(nm, inst)` counts in: its keyed entry, else the fold entry of its name.
(DEDUCED log 23) -/
def alarmHit (l : List Alarm) (nm : AlarmName) (inst : Nat) : Option Alarm :=
  match l.find? (fun a => !a.fold && a.name == nm && a.inst == inst) with
  | some a => some a
  | none => l.find? (fun a => a.fold && a.name == nm)

/-- The key of an entry: its name, its instance, and whether it is a fold entry (R391). -/
def sameAlarm (a x : Alarm) : Bool := x.name == a.name && x.inst == a.inst && x.fold == a.fold

def replaceAlarm (l : List Alarm) (a : Alarm) : List Alarm := l.map (fun x => if sameAlarm a x then a else x)

/-- A repeat of an existing entry. (DEDUCED log 23; DESIGN CHOICE log 61) -/
def Core.repeatAlarm (c : Core) (a : Alarm) (inst : Nat) (data : List Nat) (present : Bool) : Core :=
  let fl := if a.fold && present then (if a.flags.contains inst then a.flags else a.flags ++ [inst]) else a.flags
  let a1 := { a with
    occ := (a.occ + 1) % 2 ^ 32, last := c.us, acked := false, data := data, flags := fl
    cause := if a.fold then !fl.isEmpty else a.cause || present }
  let write := decide (a.recAt + 1000000 ≤ c.us)
  let a2 := if write then { a1 with unrec := 0, recAt := c.us } else { a1 with unrec := a1.unrec + 1 }
  let c1 := { c with tlm := { c.tlm with alarms := replaceAlarm c.tlm.alarms a2 } }
  if write then c1.logAlarm a2 (a.unrec + 1) else c1

/-- The next ALARM_ID that no entry holds (R351); the table has at most 640 entries. (DESIGN CHOICE log 61) -/
def freeAlarmId (l : List Alarm) (n : Nat) : Nat :=
  (((List.range 641).map (fun k => (n + k) % 65536)).find? (fun i => !l.any (fun a => a.id == i))).getD n

/-- A new entry of the table. (DESIGN CHOICE log 61) -/
def Core.newAlarm (c : Core) (nm : AlarmName) (inst : Nat) (fold : Bool) (data : List Nat) (present : Bool)
    (flags : List Nat) : Core :=
  let i := freeAlarmId c.tlm.alarms c.tlm.nextId
  let a : Alarm := ⟨i, nm, inst, fold, present, false, 1, c.us, c.us, data, flags, 0, c.us⟩
  let c1 := { c with tlm := { c.tlm with alarms := c.tlm.alarms ++ [a], nextId := (i + 1) % 65536 } }
  (c1.logAlarm a 1).refreshAlarms

/-- One occurrence of an alarm in the table. -/
def Core.raiseEntry (c : Core) (nm : AlarmName) (inst : Nat) (data : List Nat) (present : Bool) : Core :=
  match alarmHit c.tlm.alarms nm inst with
  | some a => c.repeatAlarm a inst data present
  | none =>
    if keyedCount c.tlm.alarms < 448 then c.newAlarm nm inst false data present []
    else c.newAlarm nm 0xFFFF true data present (if present then [inst] else [])

/-- An alarm is raised: the table, MBX_EVENT.ALARM for classes A and B (R343), and ALARM_TABLE_FOLD at the first fold of
an episode. `data` are the first three values its rule names, 32 bits each. (DESIGN CHOICE log 60) -/
def Core.raise (c : Core) (nm : AlarmName) (inst : Nat) (data : List Nat) (present : Bool) : Core :=
  let folds := (alarmHit c.tlm.alarms nm inst).isNone && decide (448 ≤ keyedCount c.tlm.alarms)
  let c1 := c.raiseEntry nm inst (fit3 data) present
  let c2 := if nm.cls = .c then c1 else c1.event MBX_EVENT.ALARM
  if folds && !c.tlm.foldEpisode then
    let c3 := { c2 with tlm := { c2.tlm with foldEpisode := true } }
    (c3.event TLM_EVENT.ALARM_FOLD).raiseEntry .alarmTableFold 0xFFFF [0, 0, 0] false
  else c2
where
  fit3 (d : List Nat) : List Nat := [d.getD 0 0 % 2 ^ 32, d.getD 1 0 % 2 ^ 32, d.getD 2 0 % 2 ^ 32]

/-- A value an alarm carries, sign-extended to 32 bits. -/
def dI (x : Int) : Nat := ofS 32 x

/-- The causes of an entry end as its name and instance say; an acknowledged entry without a cause leaves the list.
(DEDUCED log 23) -/
def Core.clearCause (c : Core) (nm : AlarmName) (inst : Nat) : Core :=
  match alarmHit c.tlm.alarms nm inst with
  | none => c
  | some a =>
    let fl := a.flags.filter (· != inst)
    let still := a.fold && !fl.isEmpty
    let a1 := { a with flags := fl, cause := still }
    let c1 := if a.unrec = 0 || !a.cause || still then c else c.logAlarm a a.unrec
    let a2 := if a.unrec = 0 || !a.cause || still then a1 else { a1 with unrec := 0, recAt := c.us }
    let l := replaceAlarm c1.tlm.alarms a2
    let l2 := if a2.acked && !a2.cause then l.filter (fun x => !sameAlarm a2 x) else l
    { c1 with tlm := { c1.tlm with alarms := l2 } }.refreshAlarms

/-- Whether an alarm's cause is present. -/
def Core.causeOn (c : Core) (nm : AlarmName) (inst : Nat) : Bool :=
  match alarmHit c.tlm.alarms nm inst with
  | none => false
  | some a => if a.fold then a.flags.contains inst else a.cause

/-- Unacknowledged class A alarms. -/
def Core.unackedA (c : Core) : Nat := (c.tlm.alarms.filter (fun a => a.name.cls == .a && !a.acked)).length

/-- The cause of a class A alarm has not cleared: its condition lasts or it is not acknowledged (R142). (DEDUCED log 59) -/
def Alarm.causing (a : Alarm) : Bool := a.cause || !a.acked

/-- Safe-state causes still present (R142), a request of PWR_ that waits for its reset among them (R421). (DEDUCED log 59) -/
def Core.causesA (c : Core) : Nat :=
  (c.tlm.alarms.filter (fun a => a.name.cls == .a && a.causing)).length + b2n c.pwr.defer.isSome

/-! ### Safe-state requests (R136, R142) -/

/-- SAF_CAUSE follows the causes of the table: a bit is set by a request and clears when its cause clears. (DEDUCED log 59) -/
def Core.refreshCause (c : Core) : Core :=
  let on (p : ReqPath) := c.tlm.alarms.any (fun a => a.causing && a.name.path == some p)
  let nm (n : AlarmName) := c.tlm.alarms.any (fun a => a.causing && a.name == n)
  let c1 := c.setFlag SAF_CAUSE.CRASH (nm .crash)
  let c2 := c1.setFlag SAF_CAUSE.TORQUE_VIOLATION (nm .torqueViolation)
  let c3 := c2.setFlag SAF_CAUSE.ANGLE_DISAGREE (nm .angleDisagree)
  let c4 := c3.setFlag SAF_CAUSE.INTERNAL c.saf.internal
  let c5 := c4.setFlag SAF_CAUSE.BLEED_TIMEOUT (nm .bleedTimeout)
  let c6 := c5.setFlag SAF_CAUSE.REQ_MOD (c.flag SAF_CAUSE.REQ_MOD && on .mod)
  c6.setFlag SAF_CAUSE.REQ_FW (c.flag SAF_CAUSE.REQ_FW && (on .fw || c.pwr.defer.isSome))

/-- A request reaches the safety island: its line is recorded, and in every mode except OFF and SAFE the request waits
for the island to act (R142); in SAFE it cancels a pending transition (R54). -/
def Core.request (c : Core) (nm : AlarmName) : Core :=
  let c1 := if nm.path = some .mod then (c.event SAF_CAUSE.REQ_MOD).event PRT_EVENT.SAFE_REQ
    else if nm.path = some .fw then c.event SAF_CAUSE.REQ_FW else c
  if c.mode.code = .off ∨ (c.mode.code = .safe ∧ c.mode.pend.isNone) then c1
  else { c1 with saf := { c1.saf with req := c1.saf.req ++ [nm] } }

/-- A class A alarm with its safe-state request (R142). Its cause is present: an event cause until it is acknowledged, a
condition cause until its condition ends. -/
def Core.raiseA (c : Core) (nm : AlarmName) (inst : Nat) (data : List Nat) : Core :=
  ((c.raise nm inst data true).request nm).refreshCause

/-- A condition ends. -/
def Core.endCause (c : Core) (nm : AlarmName) (inst : Nat) : Core := (c.clearCause nm inst).refreshCause

/-! ### Modes -/

/-- The mode codes of R49. -/
def Mode.code : Mode → Nat
  | .off => 0
  | .standby => 1
  | .hold => 2
  | .open_ => 3
  | .drive => 4
  | .chargeDc => 5
  | .grid => 6
  | .test => 7
  | .safe => 8

/-- The mode of a code of R49. -/
def Mode.ofCode (n : Nat) : Option Mode :=
  [Mode.off, .standby, .hold, .open_, .drive, .chargeDc, .grid, .test, .safe][n]?

/-- The mode is DRIVE, CHARGE_DC or GRID. -/
def Core.running (c : Core) : Bool := c.mode.code == .drive || c.mode.code == .chargeDc || c.mode.code == .grid

/-- The start procedure is in a dispatched phase: SYNC to RUN (R256, R257). -/
def Core.startDispatched (c : Core) : Bool := decide (2 ≤ c.start.phase ∧ c.start.phase ≤ 5)

/-- The grid procedure is in GFORM or GRUN (R60). -/
def Core.gridDispatched (c : Core) : Bool := decide (2 ≤ c.grid.phase)

/-- The foreground dispatches: the running modes and the dispatched phases (R171, R257, R60). -/
def Core.dispatched (c : Core) : Bool := c.running || c.startDispatched || c.gridDispatched

/-- The phases that count as DRIVE (R257). -/
def Core.asDrive (c : Core) : Bool := c.mode.code == .drive || c.startDispatched

/-- STANDBY, HOLD, OPEN or TEST: where configuration commands are accepted. -/
def cfgMode (m : Mode) : Bool := m == .standby || m == .hold || m == .open_ || m == .test

/-- Every mode except OFF. -/
def notOff (m : Mode) : Bool := m != .off

/-- Every mode. -/
def anyMode (_ : Mode) : Bool := true

/-! ### Replies (R332 to R337) -/

/-- Status codes of R340. -/
abbrev stDONE := 0x0000
abbrev stACCEPTED := 0x0001
abbrev stPARTIAL := 0x0002
abbrev stBAD_OPCODE := 0x0010
abbrev stBAD_LENGTH := 0x0011
abbrev stBAD_FIELD := 0x0012
abbrev stBAD_STATE := 0x0013
abbrev stBUSY := 0x0014
abbrev stDENIED := 0x0020
abbrev stSIGNATURE_FAIL := 0x0021
abbrev stFAULT_ACTIVE := 0x0030
abbrev stMEMORY_FAULT := 0x0031
abbrev stTIMEOUT := 0x0040

/-- The buffer of a mailbox (R335). -/
def mbBuf (m : Nat) : Nat := 0x20800000 + 0x1000 * m

/-- The state field of a mailbox: 0 FREE, 1 POSTED, 2 RUNNING, 3 PENDING (R336). -/
def mbState (m : Nat) : Field := ⟨MBX_STATE.a, 2 * m, 2⟩

/-- The header of a reply (R332, R333): REPLY is set, COMPLETION in a completion reply. (DEDUCED log 18) -/
def Reply.header (r : Reply) : List Byte :=
  le 2 r.ref.op ++ le 2 (if r.completion then 6 else 4) ++ le 4 r.ref.seq ++ le 4 r.payload.length ++ le 2 r.status
    ++ le 2 r.ref.tag

/-- The reply is written into its buffer, payload before header (R334), and sent where the command came over Ethernet or
CAN (R336). -/
def Core.emit (c : Core) (r : Reply) : Core :=
  let b := mbBuf r.ref.mb
  let c1 := (c.writeMem (b + 16) r.payload).writeMem b r.header
  let c2 := c1.putBit MBX_REPLY_READY.READY r.ref.mb true
  if r.ref.port = 0 then c2 else c2.send ⟨r.ref.port, r.ref.addr, r.ref.udp, r.header ++ r.payload⟩

/-- A mailbox becomes FREE; an assignment that waited for it takes effect (R341). -/
def Core.freeBox (c : Core) (m : Nat) : Core :=
  let b := c.box m
  let c1 := c.setF (mbState m) 0
  match b.newCfg with
  | none => c1.setBox m { b with cur := none }
  | some (port, priv, peer) =>
    ((c1.setF (MBX_MB_CFG.PORT m) port).setF (MBX_MB_CFG.PRIV m) priv).setBox m
      { b with cur := none, newCfg := none, peer := peer }

/-- A reply to a command: ACCEPTED leaves the mailbox PENDING, every other status frees it (R336); the reply is kept for
a replay (R337). -/
def Core.reply (c : Core) (ref : CmdRef) (status : Nat) (payload : List Byte) : Core :=
  let done := (c.box ref.mb).cur.isSome && decide (c.getF (mbState ref.mb) = 3)
  let r : Reply := ⟨ref, done, status, payload⟩
  let c1 := c.emit r
  let c2 := c1.setBox ref.mb { c1.box ref.mb with stored := some r }
  if status = stACCEPTED then
    (c2.setF (mbState ref.mb) 3).setBox ref.mb { c2.box ref.mb with cur := some ref }
  else c2.freeBox ref.mb

/-- A reply of words. -/
def Core.replyW (c : Core) (ref : CmdRef) (status : Nat) (l : List Nat) : Core := c.reply ref status (words l)

/-- ACCEPTED, unless an ACCEPTED reply stands already (an action of PLANT_COMMAND, R462). -/
def Core.accept (c : Core) (ref : CmdRef) : Core :=
  if (c.box ref.mb).cur = some ref ∧ c.getF (mbState ref.mb) = 3 then c else c.replyW ref stACCEPTED []

/-- DONE without reply words. -/
def Core.done (c : Core) (ref : CmdRef) : Core := c.reply ref stDONE []

/-- BAD_STATE with the mode in force. -/
def Core.badState (c : Core) (ref : CmdRef) : Core := c.replyW ref stBAD_STATE [c.mode.code.code]

/-- DENIED with its reason. -/
def Core.denied (c : Core) (ref : CmdRef) (reason : Nat) : Core := c.replyW ref stDENIED [reason]

/-- FAULT_ACTIVE with the number of unacknowledged class A alarms. -/
def Core.faultActive (c : Core) (ref : CmdRef) : Core := c.replyW ref stFAULT_ACTIVE [c.unackedA]

/-- BAD_FIELD with check number, byte offset and word 2 (R490). -/
def Core.badField (c : Core) (ref : CmdRef) (f : Nat × Nat × Nat) : Core :=
  c.replyW ref stBAD_FIELD [f.1, f.2.1, f.2.2]

/-- A completion that only a waiting command has. -/
def Core.complete (c : Core) (ref : Option CmdRef) (status : Nat) (l : List Nat) : Core :=
  match ref with
  | none => c
  | some r => c.replyW r status l

end Sys2Proof.Machine
end

