-- ==== Sys2Proof/Machine/Command.lean ====
section
/-! DEFINITION. How the device runs a mailbox command: the checks of R340 in order, the verify engine (R431 to R434),
configuration records and their UNSIGNED mark (R39, R113, R360). -/
namespace Sys2Proof.Machine

/-- What the table of R348 and a command's own rule say of it. `priv`: needs PRIV; `grade`: some 0 VA only, some 1 GA
only; `modes`: where it is accepted; `sig`: 0 no signature, 1 a signed or an unsigned blob (R113), 2 required; `len`:
payload length it takes, `expect` the length reported when it differs (0 if variable); `shadow`: refused while the device
is in SHADOW (R453). -/
structure CmdSpec where
  op : Nat
  priv : Bool := false
  grade : Option Nat := none
  modes : Mode → Bool
  sig : Nat := 0
  len : Nat → Bool
  expect : Nat := 0
  shadow : Bool := false

/-- A command that passed checks 1 to 7 of R340: its payload without trailer, whether it was signed, KEY_KIND, KEY_SLOT,
TARGET_ID and BLOB_SEQ of its trailer, and the trailer. -/
structure Cmd where
  ref : CmdRef
  p : List Byte
  signed : Bool
  kind : Nat
  slot : Nat
  target : Nat
  seq : Nat
  trailer : List Byte
  deriving DecidableEq, Repr

/-- The grade: 0 VA, 1 GA (R1). -/
def Core.grade (c : Core) : Nat := c.getF SEC_STATUS.GRADE

/-- A fixed payload length. -/
def lenIs (n : Nat) : Nat → Bool := fun k => k == n

/-- Any payload length. -/
def lenAny (_ : Nat) : Bool := true

/-- The configuration opcodes of R433. -/
def isCfgOp (op : Nat) : Bool := op / 0x100 == 2 || op == 0x0106 || op == 0x0801 || op == 0x0810

/-- The key kinds and the binding R434 permits: vendor, integrator, device-bound. -/
def sigRule (op : Nat) : Bool × Bool × Bool :=
  if isCfgOp op then (true, true, false)
  else if op = 0x0504 then (false, true, true)
  else if op = 0x0732 then (true, true, true)
  else if op = 0x0601 then (true, false, false)
  else if op = 0x0620 then (true, false, true)
  else if op = 0x0612 then (true, true, true)
  else (true, true, false)

/-- Length of a signature trailer (R431). -/
def trailerLen : Nat := 220

/-- The key hash of a slot; empty where it is not programmed or is revoked. -/
def Core.keyHash (c : Core) (kind slot : Nat) : List Byte :=
  if kind = 0 then (if c.sec.otp.vendorRevoked.getLsbD slot then [] else c.sec.otp.vendorHash.getD slot [])
  else (if c.sec.otp.integratorRevoked.getLsbD slot then [] else c.sec.otp.integratorHash.getD slot [])

/-- Checks 1 to 6 of R432 for a payload and its trailer. -/
def Core.trailerOk (c : Core) (op : Nat) (p t : List Byte) : Bool :=
  let kind := u8 t 4
  let slot := u8 t 5
  let target := u64 t 8
  let key := (t.drop 24).take 97
  let rule := sigRule op
  decide (t.length = trailerLen) && u32 t 0 == 0x54524C31 && zeroAt t 6 2 && zeroAt t 18 2 && zeroAt t 121 3
    && u16 t 16 == op
    && (target == 0 || target == c.sec.otp.deviceId.toNat)
    && decide (kind ≤ 1) && decide (slot < (if kind = 0 then 2 else 4))
    && !(c.keyHash kind slot).isEmpty && sha384 key == c.keyHash kind slot
    && (if kind = 0 then rule.1 else rule.2.1)
    && (!rule.2.2 || target == c.sec.otp.deviceId.toNat)
    && ecdsaVerify key (sha384 (p ++ t.take 124)) (beNat ((t.drop 124).take 48)) (beNat ((t.drop 172).take 48))

/-- Check 7 of R432: BLOB_SEQ is not lower than the highest one applied (R433). -/
def Core.blobSeqOk (c : Core) (op : Nat) (t : List Byte) : Bool :=
  !isCfgOp op || decide ((c.cfgRec op).blobSeq ≤ u32 t 20)

/-- The first failure of checks 2 to 7 of R340: a status with its reply words, or the command that may run. -/
inductive Taken where
  | refuse (status : Nat) (l : List Nat) (sigFail old : Bool)
  | go (c : Cmd)
  deriving DecidableEq, Repr

/-- ROM, tightly coupled memory of pair 0, mailbox buffers and SRAM bank 0 passed: the boot ROM can serve mailbox 0. -/
def Core.romServes (c : Core) : Bool :=
  [0, 1, 17, 18, 19].all (fun m => let r := c.getF (BST_MEM_RESULT.RESULT m); r == 1 || r == 2)

/-- The boot ROM serves mailbox 0: while it verifies an image, and after a startup that stopped with working memories
(R353, R409, R422, R436). (DESIGN CHOICE log 22) -/
def Core.romOn (c : Core) : Bool :=
  c.mode.code == .off && (c.pwr.step == 4 || (c.pwr.step == 9 && c.getF BST_STATUS.REASON != 0x11)) && c.romServes

/-- The commands OFF accepts: SYSTEM_INFO, ECHO and BIST_RESULT (R349, R350, R409, R411), and the recovery commands while the boot ROM serves (R353, R436).
(DESIGN CHOICE log 22) -/
def Core.offServes (c : Core) (op : Nat) : Bool :=
  op == 0x0101 || op == 0x0102 || op == 0x0731 || (c.romOn && (op == 0x0103 || op == 0x0601 || op == 0x0602 || op == 0x0603))

/-- Some processor takes posted commands of a mailbox: the firmware, or for mailbox 0 the boot ROM; in OFF only mailbox 0 is
served (R353). (DESIGN CHOICE log 22) -/
def Core.served (c : Core) (mb : Nat) : Bool :=
  c.mode.code != .off || (mb == 0 && (c.romOn || decide (5 ≤ c.pwr.step ∧ c.pwr.step ≤ 7)))

/-- Checks 2 to 7 of R340. (DEDUCED log 16, 17; DESIGN CHOICE log 8) -/
def Core.check (c : Core) (sp : CmdSpec) (ref : CmdRef) (body : List Byte) : Taken :=
  let sgn := bitOf ref.flags 0
  let cut := body.length - trailerLen
  let p := if sgn then body.take cut else body
  let t := if sgn then body.drop cut else []
  if ref.flags / 2 ≠ 0 then .refuse stBAD_FIELD [0, 2, 0] false false
  else if 4080 < body.length then .refuse stBAD_LENGTH [sp.expect] false false
  else if sp.priv && c.getF (MBX_MB_CFG.PRIV ref.mb) = 0 then .refuse stDENIED [1] false false
  else if sp.grade.any (· != c.grade) then .refuse stDENIED [2] false false
  else if !sp.modes c.mode.code || (c.mode.code == .off && !c.offServes sp.op) then .refuse stBAD_STATE [c.mode.code.code] false false
  else if sgn && !c.trailerOk sp.op p t then .refuse stSIGNATURE_FAIL [] true false
  else if sgn && !c.blobSeqOk sp.op t then .refuse stSIGNATURE_FAIL [] true true
  else if !sgn && sp.sig = 2 then .refuse stDENIED [3] false false
  else if !sp.len p.length then .refuse stBAD_LENGTH [sp.expect] false false
  else if sp.shadow && c.getF PAI_STATUS.AUTH = 1 then .refuse stDENIED [6] false false
  else .go ⟨ref, p, sgn, u8 t 4, u8 t 5, u64 t 8, u32 t 20, t⟩

/-- A message taken for execution: RUNNING, its SEQUENCE recorded (R336, R337). -/
def Core.take (c : Core) (op : Nat) (m : Msg) : Core × CmdRef :=
  let mb := m.mb.val
  let b := c.box mb
  let ref : CmdRef := ⟨mb, op, m.flags.toNat, m.seq.toNat, m.tag.toNat, c.getF (MBX_MB_CFG.PORT mb), b.addr, b.udp⟩
  let c1 := c.setF (mbState mb) 2
  let c2 := (c1.setReg (MBX_MB_LAST.a mb) m.seq).setF (MBX_MB_CFG.LAST_VALID mb) 1
  (c2.setBox mb { b with cur := some ref, taken := c.now, stored := none }, ref)

/-- A failed unlock response (R444): after three in a row challenges are refused for 60 s. -/
def Core.authFail (c : Core) : Core :=
  let n := min 3 (c.getF SEC_AUTH.FAILS + 1)
  let c1 := ((c.setF SEC_AUTH.FAILS n).event SEC_EVENT.AUTH_FAIL).event DDP_EVENT.AUTH_FAIL
  if n = 3 ∧ c.sec.lockEnd.isNone then
    { c1 with sec := { c1.sec with lockEnd := some (c.now + 60000000000) } }.raise .debugAuthFail 0xFFFF [] true
  else c1

/-- A refusal of R340; a DEBUG_UNLOCK whose trailer fails counts as a failed response (R444). -/
def Core.refuse (c : Core) (ref : CmdRef) (status : Nat) (l : List Nat) (sigFail old : Bool) : Core :=
  let c1 := if sigFail then c.event SEC_EVENT.SIG_FAIL else c
  let c2 := if old then c1.event SEC_EVENT.BLOB_SEQ_OLD else c1
  let c3 := if sigFail ∧ ref.op = 0x0612 then c2.authFail else c2
  c3.replyW ref status l

/-- A doorbell refused while the mailbox is not FREE: counted; over Ethernet or CAN a header-only BUSY (R336). -/
def Core.refuseBell (c : Core) (ref : CmdRef) : Core :=
  let c1 := (c.event MBX_EVENT.DOORBELL_REFUSED).bump MBX_COUNT.REFUSED 1
  if ref.port = 0 then c1
  else c1.send ⟨ref.port, ref.addr, ref.udp, (Reply.mk ref false stBUSY []).header⟩

/-- The reply stored for the sequence of a message is written or sent again (R337), to the source of that message (R344). -/
def Core.replay (c : Core) (mb addr udp : Nat) : Core :=
  (match (c.box mb).stored with
  | some r => c.emit { r with ref := { r.ref with addr := addr, udp := udp } }
  | none => c).event MBX_EVENT.REPLAYED

/-- The message repeats the sequence executed last on its mailbox (R337). -/
def Core.repeated (c : Core) (m : Msg) : Bool :=
  c.flag (MBX_MB_CFG.LAST_VALID m.mb.val) && c.reg (MBX_MB_LAST.a m.mb.val) == m.seq

/-- The header of a message as the host wrote it (R332). -/
def msgHeader (m : Msg) (op : Nat) : List Byte :=
  le 2 op ++ le 2 m.flags.toNat ++ le 4 m.seq.toNat ++ le 4 m.body.length ++ le 2 0 ++ le 2 m.tag.toNat

/-- A doorbell on a FREE mailbox (R336). -/
def Core.bell (c : Core) (mb : Nat) : Core :=
  let b := c.box mb
  (c.setF (mbState mb) 1).setBox mb { b with bell := c.now }

/-- A command message stands in its mailbox and is taken: R337, then the checks of R340, then the command's own meaning. A
mailbox that is not FREE refuses it (R336); one that no processor serves keeps it POSTED (R353). (DEDUCED log 16) -/
def Core.command (c : Core) (sp : CmdSpec) (m : Msg) (f : Cmd → Core → Core) : Core :=
  let mb := m.mb.val
  let st := c.getF (mbState mb)
  if st = 3 ∧ c.repeated m then c.replay mb (c.box mb).addr (c.box mb).udp
  else if 1 ≤ st then
    c.refuseBell ⟨mb, sp.op, m.flags.toNat, m.seq.toNat, m.tag.toNat, c.getF (MBX_MB_CFG.PORT mb), (c.box mb).addr,
      (c.box mb).udp⟩
  else if !c.served mb then
    ((c.writeMem (mbBuf mb + 16) m.body).writeMem (mbBuf mb) (msgHeader m sp.op)).bell mb
  else if c.repeated m then (c.replay mb (c.box mb).addr (c.box mb).udp).freeBox mb
  else
    let t := c.take sp.op m
    match t.1.check sp t.2 m.body with
    | .refuse st l sf old => t.1.refuse t.2 st l sf old
    | .go cmd => f cmd t.1

/-- A failed check: check number, byte offset, word 2 (R490). -/
abbrev Fail := Nat × Nat × Nat

/-- A check `n`: fails at offset `off` unless `ok`. -/
def chk (n off : Nat) (ok : Bool) : Option Fail := if ok then none else some (n, off, 0)

/-- The first failure of a list of checks. -/
def firstFail (l : List (Option Fail)) : Option Fail := l.findSome? id

/-- A check whose failing offset, if any, is given. -/
def chkAt (n : Nat) (off : Option Nat) : Option Fail := off.map (fun o => (n, o, 0))

/-- The lowest offset of several that fail. -/
def lowest (l : List (Option Nat)) : Option Nat :=
  l.foldl (fun a x => match a, x with
    | none, y => y
    | some a, some b => some (min a b)
    | some a, none => some a) none

/-- SEC_STATUS.UNSIGNED follows the records in force. -/
def Core.refreshUnsigned (c : Core) : Core :=
  c.setFlag SEC_STATUS.UNSIGNED (c.cfg.any (fun e => e.2.unsigned))

/-- A configuration record made current in MRAM (R360): its UNSIGNED mark (R39, R113) and its BLOB_SEQ (R433). -/
def Core.storeCfg (c : Core) (cmd : Cmd) : Core :=
  let old := c.cfgRec cmd.ref.op
  (c.setCfg cmd.ref.op ⟨true, cmd.p, !cmd.signed, if cmd.signed then cmd.seq else old.blobSeq⟩).refreshUnsigned

/-- The BLOB_SEQ of a signed configuration blob that leaves no record (R433). -/
def Core.noteBlob (c : Core) (cmd : Cmd) : Core :=
  if cmd.signed then c.setCfg cmd.ref.op { c.cfgRec cmd.ref.op with blobSeq := cmd.seq } else c

/-- An MRAM or OTP write that VDD_NV inhibits (R414): MEMORY_FAULT, the place of the record is not given.
(DESIGN CHOICE log 19) -/
def Core.nvFault (c : Core) (ref : CmdRef) : Core :=
  c.fresh.replyW ref stMEMORY_FAULT [0, (Config.freeWord c.free).toNat, 3]

/-- A configuration command: its own checks, then the record, the shadow of the next period start and DONE (R113, R360).
Nothing changes when a check fails. -/
def Core.configure (c : Core) (cmd : Cmd) (bad : Option Fail) : Core :=
  match bad with
  | some f => c.badField cmd.ref f
  | none =>
    if c.pwr.nvBad then c.nvFault cmd.ref else ((c.storeCfg cmd).addShadow (.load cmd.ref.op cmd.p)).done cmd.ref

/-- The payload a GET command reports: the SET payload in force, or the defaults (R489). -/
def Core.getCfg (c : Core) (setOp : Nat) (defaults : List Byte) (cmd : Cmd) : Core :=
  c.reply cmd.ref stDONE (if c.cfgSet setOp then c.cfgP setOp else defaults)

/-- The specification of a GET command: every mode except OFF, no payload, no signature (R489). -/
def getSpec (op : Nat) : CmdSpec := { op := op, modes := notOff, len := lenIs 0 }

/-- The specification of a configuration SET command (R113). -/
def setSpec (op n : Nat) : CmdSpec := { op := op, modes := cfgMode, sig := 1, len := lenIs n, expect := n }

end Sys2Proof.Machine
end

