-- ==== Sys2Proof/Machine/Secure.lean ====
section
/-! DEFINITION. What several blocks need of security, debug and the redundant pair: the hash of the configuration (R440), a
device that lowers AUTH_OUT (R455), the halting of core pairs and the relocking of the debug port (R444 to R446). -/
namespace Sys2Proof.Machine

/-- CONFIG_HASH of R440: the records in force in ascending opcode, each as its SET payload. (DEDUCED log 168) -/
def Core.configHash (c : Core) : List Byte := sha384 ((c.cfg.filter (fun e => e.2.stored)).flatMap (fun e => e.2.payload))

/-! ### Authority (R450, R455) -/

def Core.modPair (c : Core) (f : Pair → Pair) : Core := { c with pair := f c.pair }

/-- AUTH of PAI_STATUS: 0 STANDALONE, 1 SHADOW, 2 AUTHORITY. -/
def Core.auth (c : Core) : Nat := c.getF PAI_STATUS.AUTH

/-- A device in AUTHORITY whose partner's last frame showed TAKEOVER_READY (R455). -/
def Core.canRelinquish (c : Core) : Bool := c.auth == 2 && c.flag PAI_STATUS.READY_PARTNER && c.pair.rel.isNone

/-- AUTH_OUT is lowered; `by_` 0 PAIR_TAKEOVER, 1 DISPATCH_STALL, 2 CONTROL_OVERRUN, 3 WATCHDOG, 4 LOCKSTEP.
(DEDUCED log 165) -/
def Core.relinquish (c : Core) (by_ : Nat) (refs : List CmdRef) (inst : Nat) : Core :=
  (c.setF PAI_STATUS.AUTH_OUT 0).modPair (fun p => { p with rel := some (c.now, by_, refs, inst) })

/-- A class A alarm whose safe-state request the relinquishing replaces where it is possible (R455). (DEDUCED log 165) -/
def Core.raiseOrRelinquish (c : Core) (nm : AlarmName) (inst : Nat) (data : List Nat) (by_ : Nat) : Core :=
  if c.canRelinquish then ((c.raise nm inst data true).refreshCause).relinquish by_ [] inst else c.raiseA nm inst data

/-! ### Halted core pairs and the watchdog (R422, R445) -/

def Core.modDbg (c : Core) (f : Dbg → Dbg) : Core := { c with dbg := f c.dbg }
def Core.modPwr (c : Core) (f : Pwr → Pwr) : Core := { c with pwr := f c.pwr }

/-- A core pair is halted. -/
def Core.anyHalted (c : Core) : Bool := c.dbg.halted.any id

/-- The watchdog does not count while a pair is halted. -/
def Core.watchHold (c : Core) : Core :=
  match c.anyHalted, c.pwr.wdogAt, c.pwr.wdogLeft with
  | true, some t, _ => c.modPwr (fun p => { p with wdogAt := none, wdogLeft := some (t - c.now) })
  | false, _, some k => c.modPwr (fun p => { p with wdogAt := some (c.now + k), wdogLeft := none })
  | _, _, _ => c

/-- The pairs' halts in DDP_STAT. -/
def Core.haltStat (c : Core) : Core :=
  let k := c.dbg.causes.getD (c.getF DDP_CTRL.PAIR_SEL) (0, 0)
  let c1 := (c.setFlag DDP_STAT.HALTED_0 (c.dbg.halted.getD 0 false)).setFlag DDP_STAT.HALTED_1 (c.dbg.halted.getD 1 false)
  (c1.setF DDP_STAT.CAUSE k.1).setF DDP_STAT.INDEX k.2

/-- A pair resumes. -/
def Core.resumePair (c : Core) (n : Nat) : Core :=
  ((c.modDbg (fun d => { d with halted := setAt n false d.halted, causes := setAt n (0, 0) d.causes })).watchHold).haltStat

/-! ### Levels of the debug port (R443, R444) -/

/-- The level in force. -/
def Core.setLevel (c : Core) (n : Nat) : Core := (c.setF DDP_STAT.LEVEL n).setF SEC_STATUS.DEBUG_LEVEL n

/-- Breakpoints and watchpoints lose their enable. -/
def Core.clearBreaks (c : Core) : Core :=
  c.modDbg (fun d => { d with regs := d.regs.map (fun e =>
    let i := e.1 % 128
    if 64 ≤ i ∧ i < 76 then (e.1, BitVec.ofNat 32 (clrBit e.2.toNat 0)) else e) |>.filter (fun e => e.2 != 0) })

/-- The port returns to level 0 (R444). -/
def Core.relock (c : Core) : Core :=
  let c1 := (((c.setLevel 0).clearBreaks).resumePair 0).resumePair 1
  let c2 := { c1 with sec := { c1.sec with unlockEnd := none } }
  if c.getF DDP_STAT.LEVEL = 0 then c2 else (c2.event SEC_EVENT.RELOCKED).event DDP_EVENT.RELOCKED

/-- A VA device in DRIVE, or on the way to it (R446). (DEDUCED log 159) -/
def Core.driveLock (c : Core) : Bool :=
  c.grade == 0 && (c.mode.code == .drive || (c.mode.pend.map (·.target)) == some .drive)

end Sys2Proof.Machine
end

