-- ==== Sys2Proof/Machine/Ledger.lean ====
section
/-! DEFINITION. The lifetime ledger (R364 to R382): the layouts of its records, sods and anchors, the flush, the selection
at startup, and the commands that read and write it. -/
namespace Sys2Proof.Machine

/-! ### Time (R377) -/

/-- The wall clock in ns; on the RC oscillator it runs at a rate within ±2 % that is a free value (R328).
(DESIGN CHOICE log 207) -/
def Core.wallTime (c : Core) : Nat :=
  let d := c.now - c.clk.wallRef
  c.clk.wallNs + (if c.flag CLK_STATUS.WALL_DEGRADED then d * (98000 + (Config.freeWord c.clk.rc).toNat % 4001) / 100000 else d)

/-- The wall clock in seconds: ledger time. (DEDUCED log 156) -/
def Core.wall (c : Core) : Nat := c.wallTime / 1000000000 % 2 ^ 48

/-- The wall clock set by the commissioning path (R331, R377). (DEDUCED log 156) -/
def Core.setWall (c : Core) (t : Nat) : Core := { c with clk := { c.clk with wallNs := t * 1000000000, wallRef := c.now } }

/-! ### Layouts -/

/-- The 448 bytes of a record (R369). -/
def LedRec.bytes (r : LedRec) : List Byte :=
  let e (i : Nat) := r.e.getD i 0
  le 8 r.serial ++ le 1 r.cell ++ le 1 r.state ++ le 2 r.flags ++ le 6 r.opened ++ le 2 r.calGen ++ zeros 4
    ++ le 8 (e 0) ++ le 8 (e 1) ++ le 8 (e 2) ++ le 8 (e 3) ++ le 8 (e 4) ++ le 8 (e 5) ++ le 4 (e 6) ++ le 4 (e 7)
    ++ r.tempS.flatMap (le 4) ++ le 4 r.tempMissing ++ le 4 r.suspect ++ le 4 r.unmetered ++ zeros 4
    ++ r.cycleHalf.flatMap (le 4) ++ le 1 r.rfStack.length ++ zeros 1 ++ fit 30 (r.rfStack.flatMap (le 2))

/-- The record that 448 bytes hold (R369). -/
def LedRec.ofBytes (b : List Byte) : LedRec :=
  ⟨u64 b 0, u8 b 8, u8 b 9, u16 b 10, u48 b 12, u16 b 18,
   [u64 b 24, u64 b 32, u64 b 40, u64 b 48, u64 b 56, u64 b 64, u32 b 72, u32 b 76],
   (List.range 16).map (fun i => u32 b (80 + 4 * i)), u32 b 144, u32 b 148, u32 b 152,
   (List.range 64).map (fun i => u32 b (160 + 4 * i)),
   (List.range (min (u8 b 416) 15)).map (fun i => u16 b (418 + 2 * i))⟩

/-- The 32 bytes of a char list entry (R380). (PRESUMED log 124) -/
def CharEnt.bytes (x : CharEnt) : List Byte :=
  le 1 x.type ++ le 1 x.index ++ le 1 x.reason ++ zeros 1 ++ le 8 x.serial ++ le 6 x.time ++ zeros 2 ++ le 4 x.mapId
    ++ fit 8 x.detail

/-- The 24 bytes of a time log entry (R377). (PRESUMED log 124) -/
def TimeEnt.bytes (x : TimeEnt) : List Byte := le 6 x.a ++ le 6 x.b ++ le 1 x.kind ++ zeros 3 ++ leI 8 x.utc

/-- The 32 bytes of an event log record (R392). -/
def LogRec.bytes (r : LogRec) : List Byte :=
  le 4 r.serial ++ le 2 r.code ++ le 1 r.cls ++ zeros 1 ++ le 8 r.time ++ le 2 r.inst ++ le 2 r.count
    ++ fit 12 (words r.data)

/-- The 32 bytes of an import entry (R381). (PRESUMED log 124) -/
def ImportEnt.bytes (x : ImportEnt) : List Byte :=
  le 8 x.device ++ le 8 x.anchor ++ le 6 x.srcTime ++ le 6 x.time ++ le 2 x.cell ++ zeros 2

/-- The body of a sod (R372); the layout of the meta body is the model's. (PRESUMED log 124) -/
def SodBody.bytes : SodBody → List Byte
  | .recs l => fit 3964 (l.flatMap LedRec.bytes)
  | .chars l => fit 3964 (l.flatMap CharEnt.bytes)
  | .times l => fit 3964 (l.flatMap TimeEnt.bytes)
  | .counts l =>
    let m := (List.range 991).map (fun i => mapGet (fun _ => 0) l i)
    fit 3964 (m.flatMap (le 4))
  | .events l => fit 3964 (l.flatMap LogRec.bytes)
  | .metaSlot k i u m l =>
    fit 3964 (le 4 (b2n k) ++ le 4 i ++ leI 8 u ++ le 4 m ++ zeros 4 ++ l.flatMap ImportEnt.bytes)
  | .anchor m p s => fit 3964 (m.flatMap (fun e => le 8 e.1 ++ fit 48 e.2) ++ fit 48 p ++ fit 96 s)

/-- TYPE of a slot (R372). -/
def sodType (slot : Nat) : Nat :=
  if slot < 16 then 1 else if slot < 24 then 2 else if slot < 26 then 3 else if slot < 28 then 4 else if slot < 32 then 5
  else if slot = 32 then 6 else 7

/-- Bytes 0 to 4 091 of a sod (R372). -/
def Sod.bytes (x : Sod) : List Byte :=
  le 4 0x4C444F53 ++ le 1 (sodType x.slot) ++ le 1 x.slot ++ le 2 1 ++ le 8 x.seq ++ le 6 x.time ++ zeros 2
    ++ le 8 x.anchorSeq ++ fit 48 x.prev ++ zeros 48 ++ x.body.bytes

/-- The hash of a sod. -/
def Sod.hash (x : Sod) : List Byte := sha384 x.bytes

/-- The 4 096 bytes of a sod with its CRC. -/
def Sod.image (x : Sod) : List Byte := x.bytes ++ le 4 (crc32 x.bytes)

/-! ### Contents of the slots -/

def Core.ledRec (c : Core) (n : Nat) : LedRec := mapGet (fun _ => LedRec.free) c.lgr.recs n
def Core.setLedRec (c : Core) (n : Nat) (r : LedRec) : Core :=
  { c with lgr := { c.lgr with recs := mapSet (fun _ => LedRec.free) c.lgr.recs n r } }

def Core.ledAcc (c : Core) (n : Nat) : LedAcc := mapGet (fun _ => LedAcc.reset) c.lgr.acc n
def Core.setLedAcc (c : Core) (n : Nat) (a : LedAcc) : Core :=
  { c with lgr := { c.lgr with acc := mapSet (fun _ => LedAcc.reset) c.lgr.acc n a } }

/-- A copy of a slot in a bank. (DESIGN CHOICE log 123) -/
def Core.sod (c : Core) (bank slot : Nat) : Sod := mapGet (fun _ => Sod.none) c.lgr.sods (64 * bank + slot)
/-- (DESIGN CHOICE log 123) -/
def Core.setSod (c : Core) (bank slot : Nat) (x : Sod) : Core :=
  { c with lgr := { c.lgr with sods := mapSet (fun _ => Sod.none) c.lgr.sods (64 * bank + slot) x } }

/-- What a slot holds now (R372). -/
def Core.slotBody (c : Core) (slot : Nat) : SodBody :=
  if slot < 16 then .recs ((List.range 8).map (fun j => c.ledRec (8 * slot + j)))
  else if slot < 24 then .recs ((c.lgr.archive.drop (8 * (slot - 16))).take 8)
  else if slot < 26 then .chars ((c.lgr.chars.drop (123 * (slot - 24))).take 123)
  else if slot < 28 then .times ((c.lgr.times.drop (165 * (slot - 26))).take 165)
  else if slot < 30 then
    .counts ((c.tlm.sumCounts.map (fun e => (e.1 / 256 * 64 + e.1 % 256, e.2))).filter
      (fun e => e.1 / 991 == slot - 28) |>.map (fun e => (e.1 % 991, e.2)))
  else if slot < 32 then .events ((c.tlm.sumRecs.drop (123 * (slot - 30))).take 123)
  else .metaSlot c.lgr.commissioned c.lgr.commId c.lgr.commUtc c.lgr.mapId c.lgr.imports

/-- What a slot holds that was never written. -/
def blankBody (slot : Nat) : SodBody :=
  if slot < 16 then .recs (List.replicate 8 LedRec.free)
  else if slot < 24 then .recs []
  else if slot < 26 then .chars []
  else if slot < 28 then .times []
  else if slot < 30 then .counts []
  else if slot < 32 then .events []
  else .metaSlot false 0 0 0 []

/-- The copies of a slot whose CRC holds. -/
def Core.goodCopies (c : Core) (slot : Nat) : List Sod := ([0, 1, 2].map (fun b => c.sod b slot)).filter (·.ok)

/-- The copy of highest SEQ. -/
def newestSod (l : List Sod) : Option Sod :=
  l.foldl (fun a x => match a with
    | none => some x
    | some y => if y.seq < x.seq then some x else some y) none

/-- The version of a slot that stands in MRAM. -/
def Core.curSod (c : Core) (slot : Nat) : Option Sod := newestSod (c.goodCopies slot)

/-- One logical write of a slot with the next SEQ: the copies of the banks that accept it; a bank that fails every retry
keeps a torn copy (R373). (DESIGN CHOICE log 123) -/
def Core.writeSod (c : Core) (bad : Nat) (slot : Nat) (prev : List Byte) (body : SodBody) : Core :=
  let x : Sod := ⟨slot, c.lgr.seq + 1, c.wall, c.lgr.anchor, prev, body, true⟩
  let c1 := { c with lgr := { c.lgr with seq := x.seq } }
  [0, 1, 2].foldl (fun a b => a.setSod b slot (if bitOf bad b then { x with ok := false } else x)) c1

/-- Step 2 of R373 for one slot. -/
def Core.flushSlot (c : Core) (bad slot : Nat) : Core :=
  let body := c.slotBody slot
  match c.curSod slot with
  | none => if body = blankBody slot then c else c.writeSod bad slot [] body
  | some x => if x.body = body then c else c.writeSod bad slot x.hash body

/-- The manifest of an anchor: SEQ and hash of slots 0 to 32. -/
def Core.manifest (c : Core) : List (Nat × List Byte) :=
  (List.range 33).map (fun s => match c.curSod s with
    | none => (0, zeros 48)
    | some x => (x.seq, x.hash))

/-- Step 3 of R373: the anchor, into the slot that does not hold the newest one. -/
def Core.writeAnchor (c : Core) (bad : Nat) : Core :=
  let slot := if c.lgr.anchorSlot = 33 then 34 else 33
  let prev := match c.curSod c.lgr.anchorSlot with
    | none => zeros 48
    | some x => x.hash
  let m := c.manifest
  let unsigned : Sod := ⟨slot, c.lgr.seq + 1, c.wall, c.lgr.anchor, zeros 48, .anchor m prev (zeros 96), true⟩
  let sig := Config.signature (sha384 (unsigned.bytes.take 2024)) c.free
  let c1 := c.fresh.writeSod bad slot (zeros 48) (.anchor m prev sig)
  { c1 with lgr := { c1.lgr with anchor := c1.lgr.seq, anchorSlot := slot, lastFlushTime := c.wall } }

/-- The SEQ registers (R382). -/
def Core.ledgerRegs (c : Core) : Core :=
  let w (x : Nat) := BitVec.ofNat 32 x
  let c1 := (c.setReg LGR_HEAD_SEQ_LO.a (w c.lgr.seq)).setReg LGR_HEAD_SEQ_HI.a (w (c.lgr.seq / 2 ^ 32))
  let c2 := (c1.setReg LGR_ANCHOR_SEQ_LO.a (w c.lgr.anchor)).setReg LGR_ANCHOR_SEQ_HI.a (w (c.lgr.anchor / 2 ^ 32))
  (c2.setFlag LGR_STATUS.COMMISSIONED c.lgr.commissioned).setFlag LGR_STATUS.FLUSHING c.lgr.running

/-- The accumulators of one cell in its snapshot registers (R382). -/
def Core.snapCell (c : Core) (n : Nat) : Core :=
  let e := (c.ledAcc n).e
  let w (i k : Nat) := BitVec.ofNat 32 (e.getD i 0 / 2 ^ (32 * k))
  let l : List (Nat × Word) :=
    [(LGR_C_E_OUT_LO.a n, w 0 0), (LGR_C_E_OUT_HI.a n, w 0 1), (LGR_C_E_IN_LO.a n, w 1 0), (LGR_C_E_IN_HI.a n, w 1 1),
     (LGR_C_E_OUT_RES_LO.a n, w 2 0), (LGR_C_E_OUT_RES_HI.a n, w 2 1), (LGR_C_E_IN_RES_LO.a n, w 3 0),
     (LGR_C_E_IN_RES_HI.a n, w 3 1), (LGR_C_Q_OUT_LO.a n, w 4 0), (LGR_C_Q_OUT_HI.a n, w 4 1), (LGR_C_Q_IN_LO.a n, w 5 0),
     (LGR_C_Q_IN_HI.a n, w 5 1), (LGR_C_Q_OUT_RES.a n, w 6 0), (LGR_C_Q_IN_RES.a n, w 7 0)]
  l.foldl (fun a p => a.setReg p.1 p.2) c

/-- The snapshot of LGR_CTRL.SNAP, of every cell. -/
def Core.snapAll (c : Core) : Core := (c.lgr.acc.map (·.1)).foldl Core.snapCell c

/-- Step 1 of R373: the accumulators enter the working images. -/
def Core.imagesFromAcc (c : Core) : Core :=
  (c.lgr.recs.map (·.1)).foldl (fun a n =>
    let r := a.ledRec n
    if r.state = 0 then a else a.setLedRec n { r with e := (a.ledAcc n).e }) c

/-- The records that an export returned take EXPORTED at the next flush (R381). -/
def Core.markExported (c : Core) : Core :=
  let c1 := c.lgr.toExport.foldl (fun a n =>
    let r := a.ledRec n
    if r.state = 0 then a else a.setLedRec n { r with flags := setBit r.flags 3 }) c
  { c1 with lgr := { c1.lgr with toExport := [] } }

/-! ### Requests for a flush (R373) -/

/-- A flush is asked for; requests of one second share it. (DEDUCED log 130) -/
def Core.wantFlush (c : Core) (w : FlushWait) : Core := { c with lgr := { c.lgr with due := c.lgr.due ++ [w] } }

/-- FLUSH_S in force (R382). -/
def Core.flushS (c : Core) : Nat := clampN 1 3600 (c.getF LGR_CTRL.FLUSH_S)

/-- A flush may start: one is due, and the previous one started at least 1 s ago. (DEDUCED log 130) -/
def Core.flushReady (c : Core) : Bool :=
  let since (d : Nat) := match c.lgr.lastStart with
    | none => true
    | some t => decide (t + d ≤ c.now)
  !c.lgr.running && since 1000000000 &&
    (!c.lgr.due.isEmpty || (c.flag LGR_CTRL.EN && since (c.flushS * 1000000000)))

/-- R373: a flush starts. (DEDUCED log 130) -/
def execLedgerFlush (s : State) : Res :=
  go (fun c _ =>
    if c.flushReady then
      let c1 := c.snapAll.imagesFromAcc.markExported
      { c1 with lgr := { c1.lgr with running := true, lastStart := some c.now, active := c1.lgr.due, due := [] } }.ledgerRegs
        |>.setFlag TLM_STATUS.FLUSH_HOLD true
    else c) s

/-! ### Readings (R379, R381) -/

/-- The 64 bytes that a reading and an export start with. -/
def Core.readingHeader (c : Core) (format first count : Nat) (nonce : List Byte) : List Byte :=
  let u := match c.lgr.lastUtc with
    | none => (0, (0 : Int))
    | some x => (x.1, x.2.1)
  le 2 format ++ le 1 first ++ le 1 count ++ zeros 4 ++ le 8 c.sec.otp.deviceId.toNat ++ le 6 c.wall ++ zeros 2
    ++ leI 8 u.2 ++ le 6 u.1 ++ zeros 2 ++ le 8 c.lgr.anchor ++ fit 16 nonce

/-- One entry of a reading: 40 bytes, zeros where the cell has no record. -/
def LedRec.reading (r : LedRec) : List Byte :=
  let wh (x : Nat) := x / 3600000000
  let mwh (x : Nat) := x % 3600000000 / 3600000
  let o := r.e.getD 0 0
  let i := r.e.getD 1 0
  if r.state = 0 then zeros 40
  else le 8 r.serial ++ le 1 r.cell ++ le 1 r.state ++ le 2 r.flags ++ le 8 (wh o) ++ le 2 (mwh o) ++ le 2 (mwh i)
    ++ le 8 (wh i) ++ le 2 r.calGen ++ le 2 (min r.suspect 65535) ++ zeros 4

/-- A signature over bytes, as R372. (DESIGN CHOICE log 21) -/
def Core.sign (c : Core) (b : List Byte) : List Byte := fit 96 (Config.signature (sha384 b) c.free)

/-- The reply of METER_READING. -/
def Core.meterReply (c : Core) (first count : Nat) (nonce : List Byte) : List Byte :=
  let b := c.readingHeader 1 first count nonce
    ++ ((List.range count).flatMap (fun j => (c.ledRec (first + j)).reading))
  b ++ c.sign b

/-- The reply of LEDGER_EXPORT. -/
def Core.exportReply (c : Core) (first count : Nat) : List Byte :=
  let h := match c.curSod c.lgr.anchorSlot with
    | none => zeros 48
    | some x => x.hash
  let b := c.readingHeader 2 first count [] ++ h ++ ((List.range count).flatMap (fun j => (c.ledRec (first + j)).bytes))
  b ++ c.sign b

/-- What waited for a flush goes on. -/
def Core.flushWaiter (c : Core) : FlushWait → Core
  | .event => c
  | .meter ref first count nonce => (c.reply ref stDONE (c.meterReply first count nonce)).fresh
  | .export_ ref first count =>
    let c1 := (c.reply ref stDONE (c.exportReply first count)).fresh
    { c1 with lgr := { c1.lgr with toExport := c1.lgr.toExport ++ (List.range count).map (first + ·) } }
  | .import_ ref res => c.reply ref stDONE res
  | .commission ref => c.done ref
  | .reset kind cause => { c with pwr := { c.pwr with resetDue := some (kind, cause, c.now) } }
  | .grade ref =>
    let c1 := if (c.box ref.mb).cur = some ref then c.done ref else c
    { c1 with pwr := { c1.pwr with resetDue := some (0, 5, c1.now) } }
  | .park => { c with pwr := { c.pwr with parkDue := true } }

/-- The writes of a flush (R373). (DESIGN CHOICE log 123) -/
def Core.flushWrites (c : Core) (bad : Nat) : Core :=
  let c1 := (List.range 33).foldl (fun a s => a.flushSlot bad s) c
  (c1.writeAnchor bad).ledgerRegs

/-- A power cut or a reset falls into a running flush (R375): of its copy writes, slot by slot and bank by bank, a number that
is a free value stands, and the one in progress is torn. (DESIGN CHOICE log 123) -/
def Core.flushCut (c : Core) : Core :=
  if !c.lgr.running then c
  else
    let f := c.flushWrites 0
    let plan := (List.range 35).flatMap (fun s => [0, 1, 2].filterMap (fun b =>
      if f.sod b s = c.sod b s then none else some (b, s, f.sod b s)))
    let k := (Config.freeWord c.free).toNat % (plan.length + 1)
    let done := (plan.take k).foldl (fun a w => a.setSod w.1 w.2.1 w.2.2) c.fresh
    let c1 := { done with lgr := { done.lgr with seq := f.lgr.seq } }
    match plan[k]? with
    | none => c1
    | some w => c1.setSod w.1 w.2.1 { w.2.2 with ok := false }

/-- A bank that failed every retry. -/
def Core.bankFaults (c : Core) (bad : Nat) : Core :=
  [0, 1, 2].foldl (fun a b =>
    if bitOf bad b then (a.event LGR_EVENT.BANK_FAULT).raise .ledgerBankFault b [b] true
    else a.clearCause .ledgerBankFault b) c

/-- R373: the flush ends; `badBanks` are the banks whose copy writes failed every retry, all of them while VDD_NV inhibits
writes (R414). -/
def execFlushDone (badBanks : BitVec 3) (s : State) : Res :=
  go (fun c _ =>
    if c.lgr.running then
      let c1 := if c.pwr.nvBad then c.bankFaults 7 else (c.flushWrites badBanks.toNat).bankFaults badBanks.toNat
      let l := c1.lgr.active
      let c2 := { c1 with lgr := { c1.lgr with running := false, active := [] } }
      let c3 := ((c2.event LGR_EVENT.FLUSH_DONE).setFlag LGR_STATUS.FLUSHING false).setFlag TLM_STATUS.FLUSH_HOLD false
      l.foldl Core.flushWaiter c3
    else c) s

/-- R376: every copy of every slot is rewritten at least once in 30 days; a copy that fails its check is rewritten from
the selected content. -/
def execLedgerRefresh (s : State) : Res :=
  go (fun c _ =>
    if c.lgr.running || decide (c.now < c.lgr.refreshAt) then c
    else
      let c1 := (List.range 35).foldl (fun a slot => match a.curSod slot with
        | none => a
        | some x => [0, 1, 2].foldl (fun b k =>
            if b.sod k slot = x then b else (b.setSod k slot x).bump LGR_STATUS.BAD_COPIES 1) a) c
      { c1 with lgr := { c1.lgr with refreshAt := c.now + 30 * 86400 * 1000000000 } }) s

/-! ### Records (R371) -/

/-- A record moves to the archive (R371). -/
def Core.archiveRec (c : Core) (r : LedRec) : Core :=
  let r1 := { r with state := 3 }
  let l := c.lgr.archive
  if l.length < 64 then { c with lgr := { c.lgr with archive := l ++ [r1] } }
  else match l.find? (fun x => bitOf x.flags 3) with
    | some _ => { c with lgr := { c.lgr with archive := l.eraseP (fun x => bitOf x.flags 3) ++ [r1] } }
    | none =>
      let o := l.headD LedRec.free
      let c1 := { c with lgr := { c.lgr with archive := l.drop 1 ++ [r1] } }
      (c1.event LGR_EVENT.RECORD_DISCARDED).raise .recordDiscarded 0 [o.serial, o.e.getD 0 0, o.e.getD 1 0] true

/-- A serial is admitted at a cell: a record opens when the cell has none for it (R371); one that was lost reopens at zero
with FLAGS.LOST (R374). (DEDUCED log 127) -/
def Core.openRecord (c : Core) (n serial : Nat) : Core :=
  let r := c.ledRec n
  if r.state ≠ 0 ∧ r.serial = serial then c
  else
    let c1 := if r.state ≠ 0 then (c.setLedRec n LedRec.free).archiveRec r else c
    let lost := if r.state = 0 then r.flags else 0
    let c2 := c1.setLedRec n { LedRec.free with serial := serial, cell := n, state := 1, flags := lost, opened := c1.wall }
    c2.setLedAcc n { c2.ledAcc n with e := List.replicate 8 0 }

/-! ### The char list (R380) -/

/-- A retirement is entered on the char list and a flush is asked for. -/
def Core.charEntry (c : Core) (type index reason serial : Nat) (trips : List Nat) : Core :=
  let x : CharEnt := ⟨type, index, reason, serial, c.wall, c.lgr.mapId, (trips.take 4).flatMap (le 2)⟩
  let c1 := if c.lgr.chars.length < 246 then { c with lgr := { c.lgr with chars := c.lgr.chars ++ [x] } }
    else (c.event LGR_EVENT.CHAR_LIST_FULL).raise .charListFull 0
      [type + 256 * index + 65536 * reason, serial, x.time] true
  c1.wantFlush .event

/-- The record of a retired cell takes STATE 2. -/
def Core.retireRecord (c : Core) (n : Nat) : Core :=
  let r := c.ledRec n
  if r.state = 1 then c.setLedRec n { r with state := 2 } else c

/-- The char list holds a serial as that of a retired cell. -/
def Core.onCharList (c : Core) (serial : Nat) : Bool :=
  c.lgr.chars.any (fun x => x.type != 4 && x.serial == serial) ||
    c.lgr.recs.any (fun e => e.2.state == 2 && e.2.serial == serial)

/-- The list names the serial for a lane fault (types of R380). -/
def Core.charLane (c : Core) (serial : Nat) : Bool := c.lgr.chars.any (fun x => x.type == 1 && x.serial == serial)

/-! ### Selection at startup (R374, R377) -/

/-- The newest anchor: the good copy of highest SEQ of either anchor slot. -/
def Core.newestAnchor (c : Core) : Option Sod := newestSod (c.goodCopies 33 ++ c.goodCopies 34)

/-- A copy qualifies under an anchor (R374, point 2). -/
def qualifies (anchor : Option Sod) (slot : Nat) (x : Sod) : Bool :=
  match anchor with
  | some a => match a.body with
    | .anchor m _ _ =>
      let e := m.getD slot (0, zeros 48)
      (x.seq == e.1 && x.hash == e.2) || (x.anchorSeq == a.seq && fit 48 x.prev == e.2)
    | _ => false
  | none => false

/-- Records of a body that take a flag. -/
def SodBody.flagged (bit : Nat) : SodBody → SodBody
  | .recs l => .recs (l.map (fun r => if r.state = 0 then r else { r with flags := setBit r.flags bit }))
  | b => b

/-- A selected body enters the working images. -/
def Core.loadBody (c : Core) (slot : Nat) : SodBody → Core
  | .recs l =>
    if slot < 16 then
      (l.zip (List.range 8)).foldl (fun a p =>
        (a.setLedRec (8 * slot + p.2) p.1).setLedAcc (8 * slot + p.2) { a.ledAcc (8 * slot + p.2) with e := p.1.e }) c
    else { c with lgr := { c.lgr with archive := c.lgr.archive ++ l } }
  | .chars l => { c with lgr := { c.lgr with chars := c.lgr.chars ++ l } }
  | .times l => { c with lgr := { c.lgr with times := c.lgr.times ++ l } }
  | .counts l =>
    { c with tlm := { c.tlm with sumCounts := l.foldl (fun m e =>
        let i := e.1 + 991 * (slot - 28)
        mapSet (fun _ => 0) m (i / 64 * 256 + i % 64) e.2) c.tlm.sumCounts } }
  | .events l => { c with tlm := { c.tlm with sumRecs := c.tlm.sumRecs ++ l } }
  | .metaSlot k i u m im => { c with lgr := { c.lgr with commissioned := k, commId := i, commUtc := u, mapId := m, imports := im } }
  | .anchor _ _ _ => c

/-- Selection of one slot (R374); the flag is false when no copy qualified. -/
def Core.selectSlot (c : Core) (anchor : Option Sod) (slot : Nat) : Core × Bool :=
  let good := c.goodCopies slot
  let copies := [0, 1, 2].map (fun b => c.sod b slot)
  let seqs := copies.map (fun x => if x.ok then x.seq else 0)
  let div := good.any (fun x => good.any (fun y => x != y))
  let c1 := if div then (c.event LGR_EVENT.COPY_DIVERGENCE).raise .copyDivergence slot seqs false else c
  let rewrite (c : Core) (x : Sod) := [0, 1, 2].foldl (fun a b =>
    if a.sod b slot = x then a else (a.setSod b slot x).bump LGR_STATUS.BAD_COPIES 1) c
  match newestSod (good.filter (qualifies anchor slot)) with
  | some x => ((rewrite c1 x).loadBody slot x.body, true)
  | none => match newestSod good with
    | some x =>
      let c2 := (c1.event LGR_EVENT.CHAIN_BREAK).raise .ledgerChainBreak slot seqs true
      (((rewrite c2 x).loadBody slot (x.body.flagged 1)).bump LGR_STATUS.UNVERIFIED 1, false)
    | none =>
      let written := copies.any (fun x => x != Sod.none) || (match anchor with
        | some a => match a.body with
          | .anchor m _ _ => (m.getD slot (0, [])).1 != 0
          | _ => false
        | none => false)
      if written then
        let c2 := (c1.event LGR_EVENT.SOD_LOST).raise .ledgerSodLost slot [slot] true
        let lost := if slot < 16 then (List.range 8).foldl (fun a j =>
            a.setLedRec (8 * slot + j) { LedRec.free with flags := 4 }) c2 else c2
        (lost.bump LGR_STATUS.LOST 1, false)
      else (c1, true)

/-- The dark interval entry of a startup (R377); the entry of an AON loss stays open until a TIME_SET completes it. -/
def Core.darkInterval (c : Core) (aonLost : Bool) : Core :=
  let utc := match (c.lgr.times.filter (fun t => t.kind == 0 || t.kind == 3)).getLast? with
    | none => 0
    | some t => t.utc
  let t : TimeEnt := ⟨c.lgr.lastFlushTime, c.wall, if aonLost then 2 else 1, utc⟩
  let l := lastN 330 (c.lgr.times ++ [t])
  let open_ := ((l.filter (fun t => t.kind == 2 || t.kind == 3)).getLast?.map (·.kind)) == some 2
  ({ c with lgr := { c.lgr with times := l, aonLost := open_ } }).event LGR_EVENT.DARK_INTERVAL

/-- R374 and R377 at startup; then metering starts with the selected totals (R374, R382). -/
def Core.selectLedger (c : Core) : Core :=
  let anchor := c.newestAnchor
  let r := (List.range 33).foldl (fun (p : Core × Bool) s =>
    let q := p.1.selectSlot anchor s
    (q.1, p.2 && q.2)) (c, true)
  let newest := newestSod ((List.range 35).flatMap c.goodCopies)
  let c1 := r.1.setFlag LGR_STATUS.CHAIN_OK r.2
  let pairs := c1.lgr.times.filter (fun (t : TimeEnt) => t.kind == 0 || t.kind == 3)
  let utc := pairs.getLast?.map (fun (t : TimeEnt) => (t.a, t.utc, 0))
  let c2 := { c1 with lgr := { c1.lgr with
    seq := (newest.map Sod.seq).getD 0
    anchor := (anchor.map Sod.seq).getD 0
    anchorSlot := (anchor.map Sod.slot).getD 34
    lastFlushTime := (anchor.map Sod.time).getD 0
    lastUtc := utc } }
  let lost := c2.wall = 0 && newest.isSome
  let c3 := if lost then c2.setWall ((newest.map Sod.time).getD 0 + 1) else c2
  ((if anchor.isSome then c3.darkInterval lost else c3).ledgerRegs.snapAll).setF LGR_CTRL.EN 1

/-! ### Commands -/

/-- R378: TIME_SET. -/
def execTimeSet (m : Msg) (s : State) : Res :=
  go (fun c _ => c.command { op := 0x0503, modes := notOff, len := lenIs 16, expect := 16 } m fun cmd c =>
    let utc := i64 cmd.p 0
    match chkAt 3 (firstNonZero cmd.p 10 6) with
    | some f => c.badField cmd.ref f
    | none =>
      let t := c.wall
      let log := match c.lgr.utcSeen, c.lgr.lastUtc with
        | none, _ => true
        | _, none => true
        | _, some (t0, u0, _) => decide (t0 + 3600 ≤ t) || decide (2 ≤ (((utc - u0) - ((t : Int) - t0)).natAbs))
      let l1 := if c.lgr.aonLost then c.lgr.times ++ [⟨t, t, 3, utc⟩] else c.lgr.times
      let l2 := if log then l1 ++ [⟨t, t, 0, utc⟩] else l1
      let c1 := { c with lgr := { c.lgr with
        times := lastN 330 l2, aonLost := false, utcSeen := some (t, utc)
        lastUtc := if log || c.lgr.aonLost then some (t, utc, c.now) else c.lgr.lastUtc } }
      c1.done cmd.ref) s

/-- R379: METER_READING. -/
def execMeterReading (m : Msg) (s : State) : Res :=
  go (fun c _ => c.command { op := 0x0502, modes := notOff, len := lenIs 20, expect := 20 } m fun cmd c =>
    let first := u8 cmd.p 0
    let count := u8 cmd.p 1
    match firstFail [chk 1 0 (decide (first < 128)), chk 2 1 (decide (1 ≤ count ∧ count ≤ 64 ∧ first + count ≤ 128)),
      chkAt 3 (firstNonZero cmd.p 2 2)] with
    | some f => c.badField cmd.ref f
    | none => (c.replyW cmd.ref stACCEPTED []).wantFlush (.meter cmd.ref first count ((cmd.p.drop 4).take 16))) s

/-- R381: LEDGER_EXPORT. -/
def execLedgerExport (m : Msg) (s : State) : Res :=
  go (fun c _ => c.command { op := 0x0505, modes := notOff, len := lenIs 4, expect := 4 } m fun cmd c =>
    let first := u8 cmd.p 0
    let count := u8 cmd.p 1
    match firstFail [chk 1 0 (decide (first < 128)), chk 2 1 (decide (1 ≤ count ∧ count ≤ 8 ∧ first + count ≤ 128)),
      chkAt 3 (firstNonZero cmd.p 2 2)] with
    | some f => c.badField cmd.ref f
    | none => (c.replyW cmd.ref stACCEPTED []).wantFlush (.export_ cmd.ref first count)) s

/-- R381: LEDGER_READ. -/
def execLedgerRead (m : Msg) (s : State) : Res :=
  go (fun c _ => c.command { op := 0x0501, modes := notOff, len := lenIs 4, expect := 4 } m fun cmd c =>
    let t := u8 cmd.p 0
    let i := u16 cmd.p 2
    match firstFail [chk 1 0 (decide (t ≤ 2)), chkAt 2 (firstNonZero cmd.p 1 1),
      chk 3 2 (decide (t = 2) || decide (t = 0 ∧ i < 128) || decide (t = 1 ∧ i < 64))] with
    | some f => c.badField cmd.ref f
    | none =>
      c.reply cmd.ref stDONE (if t = 0 then (c.ledRec i).bytes
        else if t = 1 then (c.lgr.archive.getD i LedRec.free).bytes
        else ((c.lgr.times.drop i).take 160).flatMap TimeEnt.bytes)) s

/-- R380: CHAR_LIST_GET. -/
def execCharListGet (m : Msg) (s : State) : Res :=
  go (fun c _ => c.command { op := 0x0507, modes := notOff, len := lenIs 4, expect := 4 } m fun cmd c =>
    match chkAt 2 (firstNonZero cmd.p 2 2) with
    | some f => c.badField cmd.ref f
    | none =>
      let l := (c.lgr.chars.drop (u16 cmd.p 0)).take 127
      c.reply cmd.ref stDONE (le 2 c.lgr.chars.length ++ le 2 l.length ++ l.flatMap CharEnt.bytes)) s

/-- R381: COMMISSION. -/
def execCommission (m : Msg) (s : State) : Res :=
  go (fun c _ => c.command
      { op := 0x0504, priv := true, modes := (· == .standby), sig := 2, len := lenIs 16, expect := 16 } m fun cmd c =>
    if c.lgr.commissioned then c.denied cmd.ref 6
    else match chkAt 3 (firstNonZero cmd.p 12 4) with
    | some f => c.badField cmd.ref f
    | none => if c.pwr.nvBad then c.nvFault cmd.ref else
      let utc := i64 cmd.p 0
      let c0 := c.setWall 0
      let c1 := { c0 with tlm := { c0.tlm with sumCounts := [], sumRecs := [] } }
      let c2 := { c1 with lgr := { c1.lgr with
        recs := [], archive := [], chars := [], imports := [], acc := [], sods := []
        anchor := 0, anchorSlot := 34, toExport := [], commissioned := true, commId := u32 cmd.p 8, commUtc := utc
        times := [⟨0, 0, 0, utc⟩], lastUtc := some (0, utc, c.now), utcSeen := some (0, utc), aonLost := false } }
      let c3 := (List.range 128).foldl (fun a n =>
        if (a.cell n).adm = .admitted then a.openRecord n (a.lane n).serial else a) c2
      ((c3.setFlag LGR_STATUS.COMMISSIONED true).replyW cmd.ref stACCEPTED []).wantFlush (.commission cmd.ref)) s

end Sys2Proof.Machine
end

