-- ==== Sys2Proof/Machine/Clocks.lean ====
section
/-! DEFINITION. Clocks (R313 to R331): reference, PLL states, island clocks, phase restoration, holdover, the time base
origin, the wall clock's source, and the clock commands. -/
namespace Sys2Proof.Machine

/-- Expected count of a lock window (R313). -/
def pllExpect (p : Nat) : Nat := [262144, 163840, 204800, 163840].getD p 0

/-- STATE codes of R316. -/
abbrev pllACQUIRE := 1
abbrev pllLOCKED := 2
abbrev pllFREE := 3
abbrev pllBANKED := 4
abbrev pllFREQ := 5
abbrev pllSLEW := 6

def Core.pll (c : Core) (p : Nat) : Nat := c.getF (CLK_PLL_STAT.STATE p)
def Core.setPll (c : Core) (p s : Nat) : Core := c.setF (CLK_PLL_STAT.STATE p) s

/-- An island is to change its clock (R28, R321, R322): 1 to bypass, 2 to the PLL; a change in the same state is dropped. -/
def Core.wantClock (c : Core) (i dir : Nat) : Core :=
  let d := if c.onBypass i = (dir == 1) then 0 else dir
  { c with clk := { c.clk with change := setAt i d c.clk.change } }

/-- Islands of a PLL that change to bypass when it is lost (R27, R318). -/
def pllIslands (p : Nat) : List Nat := if p = 0 then [1, 2, 3, 7] else if p = 2 then [9] else []

/-- ms spent in holdover (R320). -/
def Core.holdMs (c : Core) : Nat :=
  match c.clk.lossAt with
  | some t => min ((c.now - t) / 1000000) (2 ^ 32 - 1)
  | none => c.getF CLK_HOLD_TIME.MS

/-- The offset still to slew, in 10 ps (R323). -/
def Core.slewRemain (c : Core) : Int :=
  if c.pll 1 = pllSLEW then
    let moved := clampN 1 1000 (c.getF CLK_SLEW.RATE) * (c.now - c.clk.slewAt) / 10000000
    let a := c.clk.slewFrom
    if 0 ≤ a then max 0 (a - moved) else min 0 (a + moved)
  else 0

/-- A PLL leaves LOCKED (R317, R319). -/
def Core.pllLost (c : Core) (p : Nat) (fault : Bool) : Core :=
  let c1 := (c.setPll p (if p = 0 then pllFREE else pllBANKED)).bump (CLK_PLL_STAT.LOSSES p) 1
  let c2 := (pllIslands p).foldl (fun a i => a.wantClock i 1) (c1.setF (CLK_PLL_STAT.RUN p) 0)
  let c3 := if p ≠ 1 then c2 else { c2 with clk := { c2.clk with lossAt := some (c2.clk.lossAt.getD c.now), exceeded := false } }
  if fault then (c3.event CLK_EVENT.PLL_FAULT).raise .pllFault p [p, c.us] true
  else (c3.event CLK_EVENT.REF_LOST).raise .refLost p [p, c.us] true

/-- PLL_L and PLL_T, which are in one of some states, take the state of PLL_M (R319). -/
def Core.follow (c : Core) (from_ : List Nat) (s : Nat) : Core :=
  [2, 3].foldl (fun a q => if from_.contains (a.pll q) then a.setPll q s else a) c

/-- A PLL that was acquiring frequency or slewing banks again (R317, R322); PLL_L and PLL_T follow PLL_M (R319). -/
def Core.pllAbandon (c : Core) (p : Nat) : Core :=
  let c1 := ((c.setPll p pllBANKED).setF (CLK_PLL_STAT.RUN p) 0).event CLK_EVENT.SLEW_ABANDONED
  if p = 1 then c1.follow [pllFREQ, pllSLEW] pllBANKED else c1

/-- The reference stops being valid (R315, R317). (DEDUCED log 117) -/
def Core.refLoss (c : Core) : Core :=
  [0, 1, 2, 3].foldl (fun a p =>
    if a.pll p = pllLOCKED then a.pllLost p false
    else if a.pll p = pllFREQ ∨ a.pll p = pllSLEW then a.pllAbandon p else a) (c.setF CLK_STATUS.REF_VALID 0)

/-- REF_SEL has changed: a loss of the old reference (R322); the new one is judged from the next window on.
(DEDUCED log 117) -/
def Core.refChange (c : Core) : Core :=
  let c1 := c.refLoss
  { c1 with clk := { c1.clk with gap := true } }

/-- PD_7 is on: not in SLEEP and not before the rails are good. -/
def Core.pd7 (c : Core) : Bool := decide (1 ≤ c.pwr.step) && !c.pwr.sleeping

/-- The reference becomes valid (R317). (DEDUCED log 117) -/
def Core.refReturn (c : Core) : Core :=
  let c1 := (c.setF CLK_STATUS.REF_VALID 1).event CLK_EVENT.REF_RETURNED
  let c2 := [0, 1, 2, 3].foldl (fun a p => a.clearCause .refLost p) c1
  [0, 1, 2, 3].foldl (fun a p =>
    let s := a.pll p
    if s = 0 ∧ a.pd7 then a.setPll p pllACQUIRE
    else if s = pllFREE then (a.setPll p pllACQUIRE).setF (CLK_PLL_STAT.RUN p) 0
    else if s = pllBANKED then (a.setPll p pllFREQ).setF (CLK_PLL_STAT.RUN p) 0 else a) c2

/-- R324: the time base takes its origin; what the device holds in times of the time base starts from it. (DEDUCED log 118) -/
def Core.setOrigin (c : Core) : Core :=
  if c.flag CLK_STATUS.ORIGIN_SET ∨ c.pll 1 ≠ pllLOCKED ∨ c.pll 2 ≠ pllLOCKED ∨ c.pll 3 ≠ pllLOCKED then c
  else
    let c1 := { c with
      evSet := []
      clk := { c.clk with wallNs := c.wallTime, wallRef := 0 }
      pwr := { c.pwr with stepAt := 0, railAt := 0, slowSince := none, noSpeedSince := none, wdogAt := none }
      lgr := { c.lgr with lastStart := none, refreshAt := 0 }
      modu := { c.modu with period := 0, start := 0, stage := 0 }
      bist := { c.bist with holdSince := c.bist.holdSince.map (fun _ => 0), stageAt := 0, startAt := 0 }
      now := 0 }
    (c1.setF CLK_STATUS.ORIGIN_SET 1).setReg MOD_PERIOD_COUNT.a 0

/-- A PLL enters LOCKED (R317, R321, R323). -/
def Core.pllLock (c : Core) (p : Nat) : Core :=
  let c1 := (c.setPll p pllLOCKED).clearCause .pllFault p
  ((pllIslands p).foldl (fun a i => a.wantClock i 2) c1).setOrigin

/-! ### The preconditions of BIST (R405) -/

/-- The reason of R405 that keeps BIST from starting: 1 PLL_A not LOCKED, 2 the BIST clock (PLL_A ÷ 4) out of range over the
last lock window, 3 a rail out of its window; 0 none. -/
def Core.bistReason (c : Core) : Nat :=
  if c.pll 0 ≠ pllLOCKED then 1
  else if 655 < ((c.getF (CLK_PLL_COUNT.COUNT 0) / 4 : Nat) - (65536 : Int)).natAbs then 2
  else if c.getF PWR_RAIL_STAT.GOOD ≠ 0x7F then 3 else 0

/-- Since when the preconditions hold. -/
def Core.bistWatch (c : Core) : Core :=
  { c with bist := { c.bist with holdSince := if c.bistReason = 0 then some (c.bist.holdSince.getD c.now) else none } }

/-- R315, first condition. -/
def windowOk (bypass : Nat) : Bool := decide (50 * ((bypass : Int) - 16384).natAbs ≤ 16384)

/-- R313 to R317: a lock window of a PLL ends. `count` output cycles, `bypass` cycles of the bypass clock in the window;
`phi` and `ppm` are what the device measures on entry to SLEWING (10 ps, 0.01 ppm). The windows of PLL_A judge the
reference. (DEDUCED log 117; DESIGN CHOICE log 176) -/
def execLockWindowEnd (p : Fin 4) (count : Nat) (bypass : Nat) (phi : Int) (ppm : Int) (s : State) : Res :=
  go (fun c _ => Core.bistWatch <|
    let k := p.val
    if !c.pd7 then c
    else
      let ok := windowOk bypass && !c.clk.gap
      let c0 := if k = 0 then { c with clk := { c.clk with gap := false } } else c
      let c1 := if k = 0 ∧ ok ∧ !c0.flag CLK_STATUS.REF_VALID then c0.refReturn
        else if k = 0 ∧ !ok ∧ c0.flag CLK_STATUS.REF_VALID then c0.refLoss else c0
      let dev : Int := (count : Int) - pllExpect k
      let run := if dev.natAbs ≤ 2 then min 3 (c1.getF (CLK_PLL_STAT.RUN k) + 1) else 0
      let c2 := ((c1.setF (CLK_PLL_COUNT.COUNT k) count).setF (CLK_PLL_STAT.DEV k) (ofS 8 (clampI (-127) 127 dev))).setF
        (CLK_PLL_STAT.RUN k) run
      let far := decide (8 < dev.natAbs)
      let valid := c2.flag CLK_STATUS.REF_VALID
      let st := c2.pll k
      if st = pllACQUIRE ∧ valid ∧ run = 3 then c2.pllLock k
      else if st = pllLOCKED ∧ far then
        let c3 := c2.pllLost k true
        if k = 1 then (if c3.pll 2 = pllLOCKED then c3.wantClock 9 1 else c3).follow [pllLOCKED] pllBANKED else c3
      else if st = pllBANKED ∧ valid ∧ (k ≤ 1 ∨ c2.pll 1 ≠ pllBANKED) then (c2.setPll k pllFREQ).setF (CLK_PLL_STAT.RUN k) 0
      else if (st = pllFREQ ∨ st = pllSLEW) ∧ far then c2.pllAbandon k
      else if st = pllFREQ ∧ run = 3 then
        if k = 1 then
          let c3 := ((c2.setPll 1 pllSLEW).setI CLK_PHASE.PHI phi).setI CLK_HOLD_PPM.PPM ppm
          let c4 := c3.follow [pllFREQ] pllSLEW
          { c4 with clk := { c4.clk with slewAt := c.now, slewFrom := phi } }
        else if c2.pll 1 = pllLOCKED ∨ c2.pll 1 = pllSLEW then c2.setPll k pllSLEW else c2
      else c2) s

/-- R315: 20 bypass cycles without an edge of a reference input (0 XIN, 1 REF_IN). (DEDUCED log 117) -/
def execReferenceGap (src : Fin 2) (s : State) : Res :=
  go (fun c _ => Core.bistWatch <|
    if c.getF CLK_CTRL.REF_SEL ≠ src.val then c
    else
      let c1 := { c with clk := { c.clk with gap := true } }
      if c1.flag CLK_STATUS.REF_VALID then c1.refLoss else c1) s

/-- R28, R29, R318, R321: an island changes its clock at a handshake boundary. -/
def execIslandClockSwitch (i : Fin 12) (s : State) : Res :=
  go (fun c _ =>
    let d := c.clk.change.getD i.val 0
    match bypassBit i.val with
    | none => c
    | some b =>
      if d = 0 then c
      else
        let c1 := { c with clk := { c.clk with change := setAt i.val 0 c.clk.change } }
        let c2 := c1.putBit CLK_STATUS.ON_BYPASS b (d == 1)
        let c3 := if i.val = 3 then c2.setFlag CEN_STATUS.BYPASS (d == 1) else c2
        if i.val ≠ 9 then c3
        else if d = 1 then { c3 with mbx := { c3.mbx with ethUp := [false, false] } }
        else { c3 with mbx := { c3.mbx with tx := c3.mbx.tx ++ c3.mbx.canWait, canWait := [] } }) s

/-- R323: a PLL ends its slew within 100 ps; PLL_L and PLL_T return with PLL_M (R319). -/
def execPhaseRestored (p : Fin 4) (s : State) : Res :=
  go (fun c _ =>
    if p.val = 0 ∨ c.pll p.val ≠ pllSLEW ∨ (p.val = 1 ∧ 10 < c.slewRemain.natAbs) ∨ (1 < p.val ∧ c.pll 1 ≠ pllLOCKED) then c
    else if p.val = 1 then
      let ms := c.holdMs
      let back (q : Nat) : Bool := [pllBANKED, pllFREQ, pllSLEW].contains q
      let c1 := ([1, 2, 3].foldl (fun a q => if back (a.pll q) then a.pllLock q else a) c).setF CLK_HOLD_TIME.MS ms
      let c2 := { c1 with clk := { c1.clk with lossAt := none, exceeded := false } }
      let c3 := c2.clearCause .holdoverExceeded 0
      (c3.event CLK_EVENT.PHASE_RESTORED).raise .phaseRestored 1 [1] false
    else (((c.pllLock p.val).event CLK_EVENT.PHASE_RESTORED).raise .phaseRestored p.val [p.val] false)) s

/-- HOLDOVER_MAX in force, ms. -/
def Core.holdMax (c : Core) : Nat := 1000 * clampN 1 3600 (c.getF CLK_HOLDOVER_CFG.MAX_S)

/-- R320: the holdover limit is reached. -/
def execHoldoverExceeded (s : State) : Res :=
  go (fun c _ =>
    if c.clk.lossAt.isSome ∧ !c.clk.exceeded ∧ c.holdMax ≤ c.holdMs then
      let c1 := { c with clk := { c.clk with exceeded := true } }
      (c1.event CLK_EVENT.HOLDOVER_EXCEEDED).raise .holdoverExceeded 0 [c.holdMs] true
    else c) s

/-- R327: a 10 µs window of the MODULATION clock watch outside ±5 %. -/
def execClockFault (count : Nat) (s : State) : Res :=
  go (fun c _ =>
    if 125 < ((count : Int) - 2500).natAbs ∧ !c.causeOn .clockFault 0 then c.raiseA .clockFault 0 [count] else c) s

/-- R327, R142: a window within ±5 % ends the cause. -/
def execClockFaultClear (count : Nat) (s : State) : Res :=
  go (fun c _ => if ((count : Int) - 2500).natAbs ≤ 125 then c.endCause .clockFault 0 else c) s

/-- R328: 1 ms without a crystal edge; the wall clock counts on the RC oscillator. (DEDUCED log 156; DESIGN CHOICE log 207) -/
def execWallclockDegraded (s : State) : Res :=
  go (fun c _ =>
    if c.flag CLK_STATUS.WALL_DEGRADED then c
    else
      let c1 := { c with clk := { c.clk with wallNs := c.wallTime, wallRef := c.now, rc := c.free } }
      ((c1.fresh.setF CLK_STATUS.WALL_DEGRADED 1).event CLK_EVENT.WALLCLOCK_DEGRADED).raise .wallclockDegraded 0 [] true) s

/-- R328: the crystal has run for 1 s. -/
def execAonCrystalReturn (s : State) : Res :=
  go (fun c _ =>
    if c.flag CLK_STATUS.WALL_DEGRADED then
      let c1 := { c with clk := { c.clk with wallNs := c.wallTime, wallRef := c.now } }
      (c1.setF CLK_STATUS.WALL_DEGRADED 0).clearCause .wallclockDegraded 0
    else c) s

/-! ### Commands -/

/-- A change of SLEW_RATE acts from now on (R323). -/
def Core.slewSettle (c : Core) : Core :=
  if c.pll 1 = pllSLEW then { c with clk := { c.clk with slewFrom := c.slewRemain, slewAt := c.now } } else c

/-- The settings of a CLOCK_SET payload; a change of REF_SEL is a loss of the old reference (R322). -/
def Core.loadClock (c : Core) (p : List Byte) : Core :=
  let change := decide (u8 p 0 ≠ c.getF CLK_CTRL.REF_SEL)
  let c1 := ((c.slewSettle.setF CLK_CTRL.REF_SEL (u8 p 0)).setF CLK_SLEW.RATE (u16 p 2)).setF CLK_HOLDOVER_CFG.MAX_S (u16 p 4)
  if change then c1.refChange else c1

/-- R329: CLOCK_SET. -/
def execClockSet (m : Msg) (s : State) : Res :=
  go (fun c _ => c.command (setSpec 0x02A0 8) m fun cmd c =>
    let p := cmd.p
    c.configure cmd (firstFail [chk 1 0 (decide (u8 p 0 < 2)), chkAt 2 (firstNonZero p 1 1),
      chk 3 2 (decide (1 ≤ u16 p 2 ∧ u16 p 2 ≤ 1000)), chk 4 4 (decide (1 ≤ u16 p 4 ∧ u16 p 4 ≤ 3600)),
      chkAt 5 (firstNonZero p 6 2)])) s

/-- R329: CLOCK_GET. -/
def execClockGet (m : Msg) (s : State) : Res :=
  go (fun c _ => c.command (getSpec 0x02A1) m fun cmd c =>
    c.getCfg 0x02A0 (zeros 2 ++ le 2 250 ++ le 2 10 ++ zeros 2) cmd) s

/-- R330: CLOCK_STATUS. -/
def execClockStatus (m : Msg) (s : State) : Res :=
  go (fun c _ => c.command (getSpec 0x0423) m fun cmd c =>
    c.reply cmd.ref stDONE
      (le 1 (c.pll 0) ++ le 1 (c.pll 1) ++ le 1 (c.pll 2) ++ le 1 (c.pll 3) ++ le 1 (c.reg CLK_STATUS.a).toNat
        ++ le 1 (c.getF CLK_STATUS.ON_BYPASS) ++ zeros 2 ++ le 2 (c.getF CLK_PHASE.PHI) ++ leI 2 (satS 16 c.slewRemain)
        ++ le 2 (c.getF CLK_HOLD_PPM.PPM) ++ zeros 2 ++ le 4 c.holdMs ++ le 6 c.wall ++ zeros 6)) s

end Sys2Proof.Machine
end

