-- ==== Sys2Proof/Machine/Strings.lean ====
section
/-! DEFINITION. The string map in use (R37), which cells are usable (R46, R182), and the damper (R46). -/
namespace Sys2Proof.Machine

/-! ### The map -/

def Core.cellEnt (c : Core) (n : Nat) : CellEnt := mapGet (fun _ => CellEnt.none) c.map.cells n
def Core.strEnt (c : Core) (s : Nat) : StrEnt := c.map.strs.getD s ⟨0, 0, 0, 0⟩

/-- Role of a cell: 0 absent, 1 string member, 2 floating spare. -/
def Core.role (c : Core) (n : Nat) : Nat := (c.cellEnt n).role

/-- The string of a string member. -/
def Core.strOf (c : Core) (n : Nat) : Nat := (c.cellEnt n).str

/-- The cells of a string, by cell index. -/
def Core.members (c : Core) (s : Nat) : List Nat :=
  (c.map.cells.filter (fun e => e.2.role == 1 && e.2.str == s)).map (·.1)

/-- All string members. -/
def Core.allMembers (c : Core) : List Nat := (c.map.cells.filter (fun e => e.2.role == 1)).map (·.1)

/-- Cells with role 1 or 2. -/
def Core.mappedCells (c : Core) : List Nat := (c.map.cells.filter (fun e => e.2.role != 0)).map (·.1)

/-- ENABLE of the mapped lanes (R99), and DRIVE of the role-1 lanes of a device that is not in SHADOW (R451). -/
def Core.laneCtrl (c : Core) : Core :=
  (List.range 128).foldl (fun a n => (a.setFlag (LNK_LANE_CTRL.ENABLE n) (c.role n != 0)).setFlag (LNK_LANE_CTRL.DRIVE n)
    (c.role n == 1 && c.auth != 1)) c

/-- The strings in use. -/
def Core.strings (c : Core) : List Nat := List.range c.map.count

/-- The map a STRING_MAP_SET payload describes (R37). -/
def mapOfPayload (b : List Byte) : StringMap :=
  let ents := (List.range 128).map (fun n =>
    let o := 128 + 16 * n
    (n, (⟨u8 b o, u8 b (o + 1), u8 b (o + 2), u64 b (o + 4)⟩ : CellEnt)))
  { id := u32 b 0, count := u8 b 4, spare := u8 b 5, vNom := i32 b 8, vMin := i32 b 12, vMax := i32 b 16
    capacity := u32 b 20, vReq := i32 b 24
    strs := (List.range 6).map (fun s => ⟨u8 b (32 + 16 * s), u8 b (33 + 16 * s), u8 b (34 + 16 * s), u8 b (35 + 16 * s)⟩)
    cells := ents.foldl (fun m e => mapSet (fun _ => CellEnt.none) m e.1 e.2) []
    applying := none, checking := false }

/-! ### Cell values -/

def Core.cellVal (c : Core) (n : Nat) : CellVal := mapGet (fun _ => CellVal.reset) c.cnv.vals n
def Core.setCellVal (c : Core) (n : Nat) (v : CellVal) : Core :=
  { c with cnv := { c.cnv with vals := mapSet (fun _ => CellVal.reset) c.cnv.vals n v } }

def Core.laneState (c : Core) (n : Nat) : Nat := c.getF (LNK_LANE_STATUS.STATE n)

/-- The exclusion of a trip covers a period (R128). -/
def Core.excludedAt (c : Core) (n q : Nat) : Bool :=
  match (c.cell n).exclSince, (c.cell n).excl with
  | some a, some b => decide (a ≤ q ∧ q < b)
  | _, _ => false

/-- The conditions of R182 for the period `q`, the voltage entry apart. -/
def Core.sound (c : Core) (n q : Nat) : Bool :=
  c.role n == 1 && decide (c.strOf n < c.map.count) && (c.cell n).adm == .admitted && !(c.cell n).boOn
    && c.laneState n == 2 && !(c.cell n).gone && !c.excludedAt n q && (c.cell n).untested == 0

/-- AGE_MAX in force (R207). (DEDUCED log 66) -/
def Core.ageMax (c : Core) : Nat := clampN 1 16 (c.getF DSP_DIR_CFG.AGE_MAX)

/-- The voltage entry of a cell as the dispatch uses it (R183); none where it is too old. (DEDUCED log 66) -/
def Core.cellV (c : Core) (n : Nat) : Option Int :=
  let v := c.cellVal n
  if v.valid ∧ 0 < v.v then some v.v else if v.age ≤ c.ageMax ∧ 0 < v.vLast then some v.vLast else none

/-- A usable cell for the period `q` (R182). -/
def Core.usable (c : Core) (n q : Nat) : Bool := c.sound n q && (c.cellV n).isSome

/-- The usable cells of a string. -/
def Core.usableOf (c : Core) (s q : Nat) : List Nat := (c.members s).filter (fun n => c.usable n q)

/-- u_s as counted at the last period start (R46). -/
def Core.uCount (c : Core) (s : Nat) : Nat := c.mode.uCount.getD s 0

/-- Some string in use has fewer usable cells than its FLOOR (R48, R55). -/
def Core.belowFloor (c : Core) : Bool := c.strings.any (fun s => decide (c.uCount s < (c.strEnt s).floor))

/-! ### The damper (R46) -/

/-- The usable cells of a string that the dispatch in force found (R182, R196). -/
def Core.inUse (c : Core) (s : Nat) : List Nat := c.disp.used.getD s []

/-- v_avail of a string: the sum of the period-mean voltages of its usable cells. -/
def Core.vAvail (c : Core) (s : Nat) : Int := sumI ((c.inUse s).map (fun n => (c.cellVal n).vLast))

/-- The least of a list, 0 for none. -/
def leastI (l : List Int) : Int :=
  match l with
  | [] => 0
  | x :: t => t.foldl min x

/-- v_lim: the least string of the least phase. -/
def Core.vLimNow (c : Core) : Int := leastI (c.strings.map (fun s => c.vAvail s))

/-- d, in 2^-15. -/
def Core.dampNow (c : Core) : Nat :=
  c.strings.foldl (fun d s =>
    let u := (c.inUse s).length
    let m := (c.strEnt s).minCells
    if u < m then min d (rneNat (u * 32768) m) else d) 32768

/-- P_MAX of DRIVE_LIMITS_SET (R56). -/
def Core.pMax (c : Core) : Nat := u32 (c.forceP 0x0254) 0

/-- The damper quantities of a period start (R46). -/
def Core.damper (c : Core) : Core :=
  let d := c.dampNow
  { c with mode := { c.mode with
    uCount := (List.range 6).map (fun s => if s < c.map.count then (c.inUse s).length else 0)
    vLim := c.vLimNow, damp := d, pLim := rne (d * c.pMax) 32768 } }

/-- STRING_DERATED and STRING_BELOW_FLOOR of a string (R47, R48). -/
def Core.deratingOf (c : Core) (s : Nat) : Core :=
  let u := c.uCount s
  let e := c.strEnt s
  if c.dispatched then
    let c1 := if u < e.floor then
        if c.causeOn .stringBelowFloor s then c else c.raiseA .stringBelowFloor s [s, u]
      else c.endCause .stringBelowFloor s
    if e.floor ≤ u ∧ u < e.minCells then
      if c1.causeOn .stringDerated s then c1 else c1.raise .stringDerated s [s, u, c.mode.damp] true
    else c1.clearCause .stringDerated s
  else
    let c1 := c.clearCause .stringDerated s
    if e.floor ≤ u then c1.endCause .stringBelowFloor s else c1

def Core.derating (c : Core) : Core := c.strings.foldl Core.deratingOf c


end Sys2Proof.Machine
end

