-- ==== Sys2Proof/Machine/Gate.lean ====
section
/-! DEFINITION. The gate-profile generator (R101 to R119): expansion of requests, dead time, overlap of transitions, the
interlock, protective changes, the adaptive trim, GATE_PROFILE_SET, and the ECHO record. -/
namespace Sys2Proof.Machine

/-! ### Codes and requests -/

/-- The classes of R102. -/
inductive LegClass where
  | h | l | o | z
  deriving DecidableEq, Repr

/-- The class of a state code (R71, R102). -/
def classOf (code : Nat) : LegClass :=
  if code = 0 then .o else if code = 4 then .z else if code ≤ 3 then .h else .l

/-- Target code of a request (R101); none is rejected. -/
def reqTarget (r : Nat) : Option Nat :=
  match r % 4 with
  | 0 => some (if r / 4 % 2 = 1 then 4 else 0)
  | 1 => some 3
  | 2 => some 7
  | _ => none

abbrev rqOffStrong := 0
abbrev rqHigh := 1
abbrev rqLow := 2
abbrev rqOffWeak := 4

/-- The nearest multiple of 2 ns, an odd nanosecond to the multiple of 4 (R76, R104). -/
def roundGate (t : Nat) : Nat := if t % 2 = 0 then t else if t % 4 = 3 then t + 1 else t - 1

/-- The launch boundary of a change at a gate time (R74, R76). -/
def launchOf (t : Nat) : Nat := (t - 128) / 8 * 8

/-- The code in force just before a gate time. -/
def codeBefore (tl : List (Nat × Nat)) (t : Nat) : Nat :=
  tl.foldl (fun a e => if e.1 < t then e.2 else a) ((tl.headD (0, 4)).2)

/-- The code in force at a gate time. -/
def codeAt (tl : List (Nat × Nat)) (t : Nat) : Nat := codeBefore tl (t + 1)

/-- The segments of a transition in ns (R102). -/
structure GateVals where
  a : Nat
  b : Nat
  c : Nat
  p : Nat
  tdr : Nat
  tdf : Nat
  deriving DecidableEq, Repr

/-- The adaptive trim applies to a half-bridge (R116, R117). -/
def Core.trimOn (c : Core) (h : Nat) : Bool := c.flag GDP_CTRL.TRIM_EN && c.flag (GDP_HB_CFG.TRIM_EN h)

/-- The values in force of a half-bridge (R102); while the requests of the next period are expanded, the values in force
then (R114, R117). (DEDUCED log 43) -/
def Core.gateVals (c0 : Core) (h : Nat) : GateVals :=
  let c := match c0.gateRegs with
    | some r => { c0 with regs := r }
    | none => c0
  let k := c.getF (GDP_HB_CFG.SET h)
  let t := c.trimOn h
  let pick (x y : Field) := 2 * c.getF (if t then x else y)
  ⟨2 * c.getF (GDP_SET_OFF.T_PC k), pick (GDP_HB_TRIM_PL.PL_OFF h) (GDP_SET_OFF.T_PL k), 2 * c.getF (GDP_SET_ON.T_PC k),
   pick (GDP_HB_TRIM_PL.PL_ON h) (GDP_SET_ON.T_PL k), pick (GDP_HB_TRIM_DT.DT_RISE h) (GDP_HB_CFG.DT_RISE h),
   pick (GDP_HB_TRIM_DT.DT_FALL h) (GDP_HB_CFG.DT_FALL h)⟩

/-- Of steps at one offset only the later one is sent (R103). -/
def lastOfEach : List (Nat × Nat) → List (Nat × Nat)
  | [] => []
  | x :: t => match t with
    | [] => [x]
    | y :: _ => if x.1 = y.1 then lastOfEach t else x :: lastOfEach t

/-- A step whose code equals the code in force is not a change (R103). (DEDUCED log 37) -/
def noRepeat : Nat → List (Nat × Nat) → List (Nat × Nat)
  | _, [] => []
  | x, e :: t => if e.2 = x then noRepeat x t else e :: noRepeat e.2 t

/-- The steps of R102 with R103: offsets and codes; `x` is the code in force before. (DEDUCED log 37) -/
def expandSteps (x : Nat) (target : Nat) (v : GateVals) : List (Nat × Nat) :=
  let off := [(0, 0), (v.a, 4), (v.a + v.b, 0)]
  let on (k first : Nat) := [(k, first), (k + v.c, first + 1), (k + v.c + v.p, first + 2)]
  let l := match classOf x, target with
    | .h, 7 => off ++ on (v.a + v.b + v.tdf) 5
    | .l, 3 => off ++ on (v.a + v.b + v.tdr) 1
    | .h, 0 => off
    | .l, 0 => off
    | .h, 4 => [(0, 0), (v.a, 4)]
    | .l, 4 => [(0, 0), (v.a, 4)]
    | .o, 3 => on 0 1
    | .z, 3 => on 0 1
    | .o, 7 => on 0 5
    | .z, 7 => on 0 5
    | .o, 4 => [(0, 4)]
    | .z, 0 => [(0, 0)]
    | _, _ => []
  noRepeat x (lastOfEach l)

/-- Every pair of successive codes of a timeline is legal: no direct change between a high-side and a low-side code
(R72, R110). -/
def legalTl : List (Nat × Nat) → Bool
  | [] => true
  | x :: t => match t with
    | [] => true
    | y :: _ =>
      !((classOf x.2 == .h && classOf y.2 == .l) || (classOf x.2 == .l && classOf y.2 == .h)) && legalTl t

/-- History older than 16 µs is dropped but for the code then in force. (DEDUCED log 35) -/
def pruneTl (now : Nat) (tl : List (Nat × Nat)) : List (Nat × Nat) :=
  match tl with
  | [] => []
  | x :: t => match t with
    | [] => [x]
    | y :: _ => if y.1 + 16384 < now then pruneTl now t else x :: t

/-- A step is pending while its launch boundary has not been reached (R108). (DEDUCED log 36) -/
def pendingStep (now t : Nat) : Bool := decide (now < launchOf t)

/-- A rejected request or change (R110). -/
def Core.gateReject (c : Core) (h req kind : Nat) : Core :=
  let c1 := (c.event GDP_EVENT.INTERLOCK_REJECT).setF GDP_REJECT_LAST.HB h
  let c2 := ((c1.setF GDP_REJECT_LAST.REQ req).setF GDP_REJECT_LAST.KIND kind).bump GDP_REJECT_LAST.COUNT 1
  (c2.bump (GDP_HB_STAT.REJECTS h) 1).raise .interlockReject h [h, req, kind] true

/-- A deferral of R107 or R109. -/
def Core.gateDeferred (c : Core) (h : Nat) : Core := (c.bump (GDP_HB_STAT.DEFERRALS h) 1).event GDP_EVENT.STEP_DEFERRED

/-- The timeline without the pending steps from a gate time on (R108). (DEDUCED log 36) -/
def dropFrom (now t : Nat) (tl : List (Nat × Nat)) : List (Nat × Nat) :=
  tl.filter (fun e => decide (e.1 < t) || !pendingStep now e.1)

/-- A request placed on a leg: edge time `te`, first step at `first` or later (R102, R107, R108, R110). (DEDUCED log 36) -/
def Core.placeTrans (c : Core) (h req te first : Nat) : Core :=
  match reqTarget req with
  | none => c.gateReject h req 0
  | some target =>
    let hb := c.hb h
    let v := c.gateVals h
    let tl := dropFrom c.now te hb.tl
    let x := codeBefore tl te
    let rel := expandSteps x target v
    let raw := rel.map (fun e => (first + e.1, e.2))
    let offAt := (raw.headD (first, 0)).1
    let hsOff := if classOf x = .h ∧ !raw.isEmpty then some (offAt, v.a + v.b + v.tdf) else hb.hsOff
    let lsOff := if classOf x = .l ∧ !raw.isEmpty then some (offAt, v.a + v.b + v.tdr) else hb.lsOff
    let isOn (e : Nat × Nat) : Bool := classOf e.2 == .h || classOf e.2 == .l
    let offs := raw.filter (fun e => !isOn e)
    let ons := raw.filter isOn
    let prev := ((tl ++ offs).getLast?.map (fun (e : Nat × Nat) => e.1)).getD 0
    let opp := if target = 3 then lsOff else hsOff
    let bound := max (match opp with
      | none => 0
      | some (t, span) => t + span) (if (tl ++ offs).length ≤ 1 then 0 else prev + 24)
    let onAt := (ons.headD (bound, 0)).1
    let shift := if ons.isEmpty then 0 else bound - onAt
    let steps := offs ++ ons.map (fun e => (e.1 + shift, e.2))
    let c1 := if 0 < shift then c.gateDeferred h else c
    let tl1 := tl ++ steps
    if legalTl tl1 then
      let c2 := c1.setHb h { hb with
        tl := pruneTl c.now tl1, trans := some ⟨req, te, steps⟩, hsOff := hsOff, lsOff := lsOff }
      if tl1 = hb.tl then c2 else c2.setF (GDP_HB_STAT.CODE h) ((tl1.getLast?.map (fun (e : Nat × Nat) => e.2)).getD 0)
    else
      let c2 := (c1.setHb h { hb with tl := tl, trans := none }).gateReject h 0 1
      if tl = hb.tl then c2 else c2.setF (GDP_HB_STAT.CODE h) ((tl.getLast?.map (fun (e : Nat × Nat) => e.2)).getD 0)

/-- The transition in progress of a leg at an edge time (R108). -/
def Hb.inProgress (b : Hb) (te : Nat) : Option Trans :=
  match b.trans with
  | some t => if t.steps.any (fun e => decide (te ≤ e.1)) then some t else none
  | none => none

/-- The change a transition makes to the cell's contribution (R109, R159). -/
def transDelta (h before req : Nat) : Int :=
  let hi (b : Bool) : Int := if b then 1 else 0
  let d := hi (reqTarget req == some 3) - hi (classOf before == .h)
  if h % 2 = 0 then d else -d

/-- Level-ns added to the carry of a cell's string (R109, R168). (DEDUCED log 39) -/
def Core.addCarry (c : Core) (cell : Nat) (d : Int) : Core :=
  if d = 0 then c
  else
    let f := MOD_STR_CARRY.CARRY (c.strOf cell)
    let x := c.getI f + d
    let y := clampI (-(c.tc : Int)) c.tc x
    (if x = y then c else c.event MOD_EVENT.CARRY_SAT).setI f y

def firstStep (l : List (Nat × Nat)) : Nat := (l.headD (0, 0)).1
def lastStep (l : List (Nat × Nat)) : Nat := ((l.getLast?.map (fun (e : Nat × Nat) => e.1))).getD 0

/-- The two legs of one cell share one character stream (R109): a request placed with regard to the other leg.
(DEDUCED log 38) -/
def Core.placeBoth (c : Core) (h req te : Nat) : Core :=
  let o := if h % 2 = 0 then h + 1 else h - 1
  let before := codeBefore (dropFrom c.now te (c.hb h).tl) te
  let c1 := c.placeTrans h req te te
  match (c1.hb h).trans, (c1.hb o).trans with
  | some t1, some t2 =>
    let s1 := t1.steps
    let s2 := t2.steps
    if t1.te ≠ te ∨ s1.isEmpty ∨ s2.isEmpty ∨ s1.map (·.1) = s2.map (·.1) then c1
    else if firstStep s1 < lastStep s2 + 24 ∧ firstStep s2 < lastStep s1 + 24 then
      if t2.te ≤ te then
        let at_ := lastStep s2 + 24
        let c2 := (c.placeTrans h req te at_).gateDeferred h
        c2.addCarry (h / 2) (((at_ : Int) - te) * transDelta h before req)
      else
        let at_ := lastStep s1 + 24
        let ob := codeBefore (dropFrom c.now t2.te (c1.hb o).tl) t2.te
        let c2 := (c1.placeTrans o t2.req t2.te at_).gateDeferred o
        c2.addCarry (h / 2) (((at_ : Int) - t2.te) * transDelta o ob t2.req)
    else c1
  | _, _ => c1

/-! ### Changes on the link (R75, R81) -/

/-- The first launch boundary allowed after another: two slots later, slot 0 not counted (R75). -/
def nextLaunch (b : Nat) : Nat := if b % 2048 = 0 ∨ b % 2048 = 2040 then b + 24 else b + 16

/-- A step that the link has begun to send by a character boundary (R108). (DEDUCED log 36) -/
def sentBy (now b t : Nat) : Bool := decide (launchOf t < b) || !pendingStep now t

/-- The changes of a cell, by gate time with leg and code, as the link sends them: one that comes closer than two slots after
the one before it is moved to the first slot allowed (R75); equal gate times share one pair. `p` is the gate time of the
change before, as asked for and as sent. (DESIGN CHOICE log 191) -/
def spaceOut (now : Nat) (p : Option (Nat × Nat)) : List (Nat × Nat × Nat) → List (Nat × Nat × Nat)
  | [] => []
  | (g, x) :: t =>
    let g1 := match p with
      | none => g
      | some (asked, sent) =>
        if g = asked then sent
        else if pendingStep now g && decide (launchOf g < nextLaunch (launchOf sent)) then nextLaunch (launchOf sent) + 128 + g % 8
        else g
    (g1, x) :: spaceOut now (some (g, g1)) t

/-- The link keeps the changes of a cell two slots apart; SPACING tells that it moved one (R75, R99). -/
def Core.linkSpace (c : Core) (n : Nat) : Core :=
  let leg (k : Nat) := (c.hb (2 * n + k)).tl.map (fun e => (e.1, k, e.2))
  let l := sortBy (fun (a b : Nat × Nat × Nat) => decide (a.1 ≤ b.1)) (leg 0 ++ leg 1)
  let m := spaceOut c.now none l
  if m = l then c
  else
    let tl (k : Nat) := (m.filter (fun e => e.2.1 == k)).map (fun e => (e.1, e.2.2))
    ((c.modHb (2 * n) (fun b => { b with tl := tl 0 })).modHb (2 * n + 1) (fun b => { b with tl := tl 1 })).event
      (LNK_LANE_EVENT.SPACING n)

/-- A change takes the slot at a boundary from the lane's message (R81): one in flight ends with K28.7 in that slot, which
takes 8 ns; one that has not begun waits. -/
def Core.preempt (c : Core) (n b : Nat) : Core × Nat :=
  let l := c.lane n
  if l.msg.isSome ∧ !l.resend ∧ b < l.msgEnd then
    if l.msgStart < b then (c.setLane n { l with resend := true, abortAt := b + 1 }, 8)
    else if l.msgStart ≤ b + 8 then (c.setLane n { l with resend := true }, 0) else (c, 0)
  else (c, if l.abortAt = b + 1 then 8 else 0)

/-- A scheduled change that reaches the link after a message over its launch boundary has started (R81). -/
def Core.lateChange (c : Core) (n : Nat) : Core :=
  let l := c.lane n
  if l.msg.isNone ∨ l.resend then c
  else
    let hit (g : Nat) : Bool := pendingStep c.now g && decide (l.msgStart ≤ launchOf g ∧ launchOf g < l.msgEnd)
    let gs := ((c.hb (2 * n)).tl ++ (c.hb (2 * n + 1)).tl).filter (fun e => hit e.1)
    match gs with
    | [] => c
    | e :: t =>
      let b := t.foldl (fun m x => min m (launchOf x.1)) (launchOf e.1)
      if c.now < l.msgStart then c.setLane n { l with resend := true }
      else
        let p := c.preempt n b
        let move (l : List (Nat × Nat)) := l.map (fun e => if pendingStep c.now e.1 ∧ launchOf e.1 = b then (e.1 + p.2, e.2) else e)
        (p.1.modHb (2 * n) (fun x => { x with tl := move x.tl })).modHb (2 * n + 1) (fun x => { x with tl := move x.tl })

/-! ### Cross-blank windows (R125, R126) -/

def Core.xb (c : Core) (s : Nat) : XBlank := mapGet (fun _ => XBlank.reset) c.prt.xb s
def Core.setXb (c : Core) (s : Nat) (x : XBlank) : Core :=
  { c with prt := { c.prt with xb := mapSet (fun _ => XBlank.reset) c.prt.xb s x } }

/-- XB_MAX in force (R157). (DEDUCED log 43) -/
def Core.xbMax (c : Core) : Nat := clampN 500 20000 (c.getF PRT_EXCL_CFG.XB_MAX)

/-- A window joins the windows of a string (R125, R126): it waits out the 256 ns after a cut window, merges with windows
it overlaps or touches, and is cut at XB_MAX. (DEDUCED log 44) -/
def addWin (xbMax : Nat) (wins : List (Nat × Nat × Nat)) (lo hi : Nat) : List (Nat × Nat × Nat) :=
  let inside := wins.any (fun w => w.2.2 != 0 && decide (w.1 ≤ lo ∧ lo < w.2.1))
  let lo1 := wins.foldl (fun a w => if w.2.2 ≠ 0 ∧ w.2.1 ≤ a ∧ a < w.2.1 + 256 then w.2.1 + 256 else a) lo
  if inside ∨ hi ≤ lo1 then wins
  else
    let touches (w : Nat × Nat × Nat) : Bool := w.2.2 == 0 && decide (lo1 ≤ w.2.1 ∧ w.1 ≤ hi)
    let m := (wins.filter touches).foldl (fun (a : Nat × Nat) w => (min a.1 w.1, max a.2 w.2.1)) (lo1, hi)
    let rest := wins.filter (fun w => !touches w)
    rest ++ [if m.1 + xbMax < m.2 then (m.1, m.1 + xbMax, 1) else (m.1, m.2, 0)]

/-- A cross-blank window of a string is opened. (DEDUCED log 44) -/
def Core.openWin (c : Core) (s lo hi : Nat) : Core :=
  if c.flag (PRT_XB_CFG.EN s) then
    let x := c.xb s
    let old := x.wins.filter (fun w => decide (c.now < w.2.1 + 100000))
    c.setXb s { x with wins := addWin c.xbMax old lo hi }
  else c

/-- A code that leaves both switches off. -/
def offCode (k : Nat) : Bool := classOf k == .o || classOf k == .z

/-- The changes between an off and an on code of a timeline from a gate time on. -/
def onOffChanges (from_ : Nat) : List (Nat × Nat) → List Nat
  | [] => []
  | x :: t => match t with
    | [] => []
    | y :: _ =>
      if offCode x.2 != offCode y.2 && decide (from_ ≤ y.1) then y.1 :: onOffChanges from_ t else onOffChanges from_ t

/-- A protective change of a leg to a code at a gate time: every step still pending when it is sent is dropped, an off-edge is
recorded for the switch that was on (R108, R111), a message in flight is aborted, which takes 8 ns more (R81), and a change
between off and on opens its window (R125). (DEDUCED log 36) -/
def Core.forceCode (c : Core) (h code at0 : Nat) : Core :=
  let n := h / 2
  let p := c.preempt n (launchOf at0)
  let at_ := at0 + p.2
  let b := c.hb h
  let v := c.gateVals h
  let tl := b.tl.filter (fun e => sentBy c.now (launchOf at0) e.1)
  let x := codeBefore tl at_
  let b1 := { b with
    tl := pruneTl c.now (if x = code then tl else tl ++ [(at_, code)]), trans := none
    hsOff := if classOf x = .h ∧ classOf code ≠ .h then some (at_, v.a + v.b + v.tdf) else b.hsOff
    lsOff := if classOf x = .l ∧ classOf code ≠ .l then some (at_, v.a + v.b + v.tdr) else b.lsOff }
  let c1 := (((if x = code then c else p.1).setHb h b1).setF (GDP_HB_STAT.CODE h) code).linkSpace n
  let s := c.strOf n
  if offCode x != offCode code ∧ c.role n = 1 then c1.openWin s at_ (at_ + 2 * c.getF (PRT_XB_CFG.POST s)) else c1

/-- The gate time of an unscheduled change sent at the next character boundary (R81, R74). (DEDUCED log 34) -/
def Core.unscheduledAt (c : Core) : Nat := (c.now + 7) / 8 * 8 + 128

/-- A request placed on a leg and sent on the cell's link: the link's spacing (R75), and a message that stands in the way
(R81). (DEDUCED log 38) -/
def Core.placeShared (c : Core) (h req te : Nat) : Core := ((c.placeBoth h req te).lateChange (h / 2)).linkSpace (h / 2)

/-! ### Held legs (R111, R129) -/

/-- RETRY_MIN_OFF in ns (R129, R157). -/
def Core.retryMinOff (c : Core) : Nat :=
  let r := c.getF PRT_TRIP_CFG.RETRY_MIN_OFF
  1000 * (if r = 0 ∨ 1000 < r then 1000 else r)

/-- Retry is enabled for a half-bridge (R129). -/
def Core.retryOn (c : Core) (h : Nat) : Bool := c.flag PRT_CTRL.RETRY_EN && c.flag (PRT_HB_CFG.RETRY_EN h)

/-- A request for HIGH or LOW ends the hold of a tripped leg (R129). -/
def Core.retryClears (c : Core) (h req te : Nat) : Bool :=
  let b := c.hb h
  b.held && (reqTarget req == some 3 || reqTarget req == some 7) && c.retryOn h && b.hardMask == 0
    && decide (b.tripT + c.retryMinOff ≤ te) && !(c.cell (h / 2)).gone

/-- STATE of a half-bridge that is not held (R157). -/
def Core.hbNormal (c : Core) (h : Nat) : Core :=
  c.setF (PRT_HB_STAT.STATE h) (if bitOf (c.cell (h / 2)).untested (h % 2) then 3 else 0)

/-- A request of the modulator for a leg (R101 to R111). A lane that is not VALID carries the codes of R93 and R96 instead. -/
def Core.gateRequest (c : Core) (h req te0 : Nat) : Core :=
  let te := roundGate te0
  let b := c.hb h
  if c.getF SAF_STATUS.FORCE ≠ 0 ∨ c.laneState (h / 2) ≠ 2 then c
  else if b.held ∧ !c.retryClears h req te then c
  else if reqTarget req = none then c.gateReject h req 0
  else
    let c1 := if b.held then (c.setHb h { b with held := false }).hbNormal h else c
    match (c1.hb h).inProgress te with
    | some t => if reqTarget t.req = reqTarget req then c1 else c1.placeShared h req te
    | none => c1.placeShared h req te

/-! ### FORCE_SHORT on a leg (R138) -/

/-- The gate time at which a timeline last left a high-side code. -/
def leftHigh : List (Nat × Nat) → Option Nat
  | [] => none
  | x :: t => match t with
    | [] => none
    | y :: _ =>
      match leftHigh t with
      | some g => some g
      | none => if classOf x.2 = .h ∧ classOf y.2 ≠ .h then some y.1 else none

/-- FORCE_DT in force, in ns (R157). -/
def Core.forceDt (c : Core) : Nat := 2 * max 20 (c.getF PRT_FORCE_CFG.FORCE_DT)

/-- The gate time of a change forced now: the first character boundary after the two-stage synchroniser. (DEDUCED log 34) -/
def Core.forceGate (c : Core) : Nat := (c.now + 16 + 7) / 8 * 8 + 128

/-- R138 for one leg. -/
def Core.forceShortLeg (c : Core) (h : Nat) : Core :=
  let at_ := c.forceGate
  let b := c.hb h
  let tl := b.tl.filter (fun e => sentBy c.now (launchOf at_) e.1)
  let x := codeBefore tl at_
  if b.held then c
  else match classOf x with
  | .h =>
    let c1 := c.forceCode h 4 at_
    c1.modHb h (fun b => { b with forceAt := some ((leftHigh b.tl).getD at_ + c.forceDt) })
  | .l => c.forceCode h 7 at_
  | _ => match leftHigh tl with
    | none => c.forceCode h 7 at_
    | some g =>
      if g + c.forceDt ≤ at_ then c.forceCode h 7 at_
      else (c.forceCode h x at_).modHb h (fun b => { b with forceAt := some (g + c.forceDt) })

/-! ### The adaptive trim (R115 to R118) -/

/-- ECHO: sums of 16 accepted echoes; a full sum waits for the period start. -/
def Hb.addEcho (b : Hb) (i e : Nat) : Hb :=
  let x := b.echo.getD i (0, 0)
  if x.2 + 1 < 16 then { b with echo := setAt i (x.1 + e, x.2 + 1) b.echo }
  else { b with echo := setAt i (0, 0) b.echo, due := setAt i ((x.1 + e + 8) / 16 + 1) b.due }

/-- The conduction delay of a leg from its last 16 echo midpoints in half ns (R364). -/
def conductionDelay (l : List Nat) : Nat := if l.length < 16 then 0 else rneNat (sumN l) (2 * 16 * 8) * 8

/-- R115, R116, R364: an ECHO record. (DESIGN CHOICE log 192) -/
def execEchoRecord (l : Fin 128) (p : BitVec 24) (s : State) : Res :=
  go (fun c _ =>
    let w := p.toNat
    let sw := bitsOf w 22 2
    let off := bitOf w 21
    let delay := bitsOf w 11 10
    let dur := bitsOf w 0 11
    let h := 2 * l.val + sw / 2
    let low := sw % 2 = 1
    if c.laneState l.val ≠ 2 then c
    else if delay = 1023 ∨ dur = 2047 then c.event GDP_EVENT.ECHO_SATURATED
    else
      let e := 2 * delay + dur
      let c1 := if c.trimOn h then c.modHb h (fun b =>
          let b1 := b.addEcho (if off then 1 else 0) e
          if off then b1.addEcho (if low then 2 else 3) e else b1) else c
      let a := c1.ledAcc l.val
      let a1 := if sw / 2 = 0 then { a with cdL := lastN 16 (a.cdL ++ [e]) } else { a with cdR := lastN 16 (a.cdR ++ [e]) }
      ((c1.setLedAcc l.val a1).setF (LGR_C_CD.LEFT l.val) (conductionDelay a1.cdL)).setF (LGR_C_CD.RIGHT l.val)
        (conductionDelay a1.cdR)) s

/-- The pieces of R116 for one trimmed value: which (0 PL_ON, 1 PL_OFF, 2 DT_RISE, 3 DT_FALL), the mean in half ns. The
answer is the new value, whether it was clamped, and the unclamped target. -/
def trimNew (which mEnd pcOn pcOff plOffTrim plMargin dtMargin old prog : Nat) : Nat × Bool × Nat :=
  let need : Int :=
    if which = 0 then (mEnd : Int) - 4 * pcOn + 4 * plMargin
    else if which = 1 then (mEnd : Int) - 4 * pcOff + 4 * plMargin
    else max ((mEnd : Int) - 4 * (pcOff + plOffTrim : Nat)) 0 + 4 * dtMargin
  let target := ((max need 0 + 3) / 4).toNat
  let new := (old : Int) + rne ((target : Int) - old) 4
  let lo0 := ceilDiv (3 * prog) 4
  let hi := min (5 * prog / 4) (if which ≤ 1 then 511 else 1023)
  let lo := if 0 < prog then max lo0 12 else lo0
  let y := (min (max new (lo : Int)) (hi : Int)).toNat
  let z := if 2 ≤ which ∧ pcOff + plOffTrim + y < 20 then 20 - pcOff - plOffTrim else y
  (z, decide ((y : Int) ≠ new), target)

/-- One update of a trimmed value at a period start (R116, R118). (DESIGN CHOICE log 192) -/
def Core.trimOne (c : Core) (h which : Nat) : Core :=
  let d := (c.hb h).due.getD which 0
  if d = 0 then c
  else
    let k := c.getF (GDP_HB_CFG.SET h)
    let c1 := c.modHb h (fun b => { b with due := setAt which 0 b.due })
    let fld := if which = 0 then GDP_HB_TRIM_PL.PL_ON h else if which = 1 then GDP_HB_TRIM_PL.PL_OFF h
      else if which = 2 then GDP_HB_TRIM_DT.DT_RISE h else GDP_HB_TRIM_DT.DT_FALL h
    let prog := c.getF (if which = 0 then GDP_SET_ON.T_PL k else if which = 1 then GDP_SET_OFF.T_PL k
      else if which = 2 then GDP_HB_CFG.DT_RISE h else GDP_HB_CFG.DT_FALL h)
    if prog = 0 then c1
    else
      let r := trimNew which (d - 1) (c.getF (GDP_SET_ON.T_PC k)) (c.getF (GDP_SET_OFF.T_PC k))
        (c.getF (GDP_HB_TRIM_PL.PL_OFF h)) (c.getF GDP_MARGIN.PL_MARGIN) (c.getF GDP_MARGIN.DT_MARGIN) (c.getF fld) prog
      let c2 := (c1.setF fld r.1).setFlag (GDP_HB_STAT.TRIM_AT_LIMIT h) r.2.1
      if r.2.1 then (c2.event GDP_EVENT.TRIM_LIMIT).raise .gateTrimLimit h [h, which, r.2.2] true
      else c2.clearCause .gateTrimLimit h

/-- The trim updates of a period start, in the order of R116. -/
def Core.trimAll (c : Core) : Core :=
  (c.hbs.map (·.1)).foldl (fun a h => if a.trimOn h then [0, 1, 2, 3].foldl (fun b w => b.trimOne h w) a else a) c

/-! ### GATE_PROFILE_SET and GATE_PROFILE_GET (R112 to R114) -/

/-- The settings of a GATE_PROFILE_SET payload in the registers; every trimmed value returns to the programmed one. -/
def Core.loadGate (c : Core) (p : List Byte) : Core :=
  let c1 := (c.setF GDP_MARGIN.PL_MARGIN (u16 p 0 / 2)).setF GDP_MARGIN.DT_MARGIN (u16 p 2 / 2)
  let c2 := (List.range 8).foldl (fun a k =>
    let o := 8 + 8 * k
    (((a.setF (GDP_SET_ON.T_PC k) (u16 p o / 2)).setF (GDP_SET_ON.T_PL k) (u16 p (o + 2) / 2)).setF
      (GDP_SET_OFF.T_PC k) (u16 p (o + 4) / 2)).setF (GDP_SET_OFF.T_PL k) (u16 p (o + 6) / 2)) c1
  (List.range 256).foldl (fun a h =>
    let o := 72 + 8 * h
    let k := u8 p o
    let a1 := ((a.setF (GDP_HB_CFG.SET h) k).setF (GDP_HB_CFG.TRIM_EN h) (u8 p (o + 1))).setF (GDP_HB_CFG.DT_RISE h)
      (u16 p (o + 2) / 2)
    let a2 := (a1.setF (GDP_HB_CFG.DT_FALL h) (u16 p (o + 4) / 2)).setF (GDP_HB_TRIM_PL.PL_ON h) (u16 p (10 + 8 * k) / 2)
    ((a2.setF (GDP_HB_TRIM_PL.PL_OFF h) (u16 p (14 + 8 * k) / 2)).setF (GDP_HB_TRIM_DT.DT_RISE h) (u16 p (o + 2) / 2)).setF
      (GDP_HB_TRIM_DT.DT_FALL h) (u16 p (o + 4) / 2)) c2

/-- The lowest of the offsets that fail a test. -/
def firstBad (l : List Nat) (ok : Nat → Bool) : Option Nat := l.find? (fun o => !ok o)

/-- The checks of R114. -/
def gateChecks (p : List Byte) : Option Fail :=
  let hbs := List.range 256
  let sets := List.range 8
  let setTimes := sets.flatMap (fun k => [8 + 8 * k, 10 + 8 * k, 12 + 8 * k, 14 + 8 * k])
  let dts := hbs.flatMap (fun h => [74 + 8 * h, 76 + 8 * h])
  let even (o : Nat) := decide (u16 p o % 2 = 0)
  let bound (o : Nat) : Nat := if o < 4 then 510 else if o < 72 then (if (o - 8) % 4 = 0 then 62 else 1022) else 2046
  firstFail
    [chkAt 1 (lowest [firstNonZero p 4 4, firstBad (hbs.map (fun h => 72 + 8 * h)) (fun o => decide (u8 p o < 8)),
       firstBad (hbs.map (fun h => 73 + 8 * h)) (fun o => decide (u8 p o < 2)),
       firstBad (hbs.map (fun h => 78 + 8 * h)) (fun o => u16 p o == 0)]),
     chkAt 2 (firstBad ([0, 2] ++ setTimes ++ dts) (fun o => even o && decide (u16 p o ≤ bound o))),
     chkAt 3 (firstBad (setTimes ++ dts) (fun o => u16 p o == 0 || decide (24 ≤ u16 p o))),
     chkAt 4 (firstBad dts (fun o =>
       let k := u8 p (72 + 8 * ((o - 72) / 8))
       decide (40 ≤ u16 p (12 + 8 * k) + u16 p (14 + 8 * k) + u16 p o)))]

/-- R113, R114: GATE_PROFILE_SET. -/
def execGateProfileSet (m : Msg) (s : State) : Res :=
  go (fun c _ => c.command (setSpec 0x0210 2120) m fun cmd c => c.configure cmd (gateChecks cmd.p)) s

/-- The defaults of GATE_PROFILE_GET (R112, R489). -/
def gateDefaults : List Byte :=
  le 2 16 ++ le 2 40 ++ zeros 4 ++ (List.range 8).flatMap (fun _ => le 2 24 ++ le 2 100 ++ le 2 24 ++ le 2 100)
    ++ (List.range 256).flatMap (fun _ => zeros 2 ++ le 2 200 ++ le 2 200 ++ zeros 2)

/-- R113: GATE_PROFILE_GET. -/
def execGateProfileGet (m : Msg) (s : State) : Res :=
  go (fun c _ => c.command (getSpec 0x0211) m fun cmd c => c.getCfg 0x0210 gateDefaults cmd) s

end Sys2Proof.Machine
end

