-- ==== Sys2Proof/Machine/Line.lean ====
section
/-! DEFINITION. The characters of the cell link (R66, R70, R84): the 8b/10b code with its running disparity, and the fields of
state and upstream characters. -/
namespace Sys2Proof.Machine

/-- A character: K28.5 and its kind by the byte 0xBC, or a data character. -/
inductive LineChar where
  | k (b : Nat)
  | d (b : Nat)
  deriving DecidableEq, Repr

/-- K28.y. -/
abbrev k28 (y : Nat) : LineChar := .k (32 * y + 28)

/-- abcdei of D.0 to D.31 and of K28 with negative running disparity. (PRESUMED log 190) -/
def sixTab : List Nat :=
  [0b100111, 0b011101, 0b101101, 0b110001, 0b110101, 0b101001, 0b011001, 0b111000, 0b111001, 0b100101, 0b010101, 0b110100,
   0b001101, 0b101100, 0b011100, 0b010111, 0b011011, 0b100011, 0b010011, 0b110010, 0b001011, 0b101010, 0b011010, 0b111010,
   0b110011, 0b100110, 0b010110, 0b110110, 0b001110, 0b101110, 0b011110, 0b101011, 0b001111]

/-- fghj of D.x.0 to D.x.6, D.x.P7 and D.x.A7 with negative running disparity. (PRESUMED log 190) -/
def fourTab : List Nat := [0b1011, 0b1001, 0b0101, 0b1100, 0b1101, 0b1010, 0b0110, 0b1110, 0b0111]

/-- fghj of K28.0 to K28.7 after 001111. (PRESUMED log 190) -/
def kTab : List Nat := [0b0100, 0b1001, 0b0101, 0b0011, 0b0010, 0b1010, 0b0110, 0b1000]

def onesIn (n x : Nat) : Nat := ((List.range n).filter (fun i => bitOf x i)).length

/-- The six-bit group of an index of `sixTab` in a running disparity (true positive). -/
def six (rd : Bool) (i : Nat) : Nat :=
  let x := sixTab.getD i 0
  if rd && (onesIn 6 x != 3 || x == 0b111000) then 63 - x else x

/-- The four-bit group of an index of `fourTab` in a running disparity. -/
def four (rd : Bool) (i : Nat) : Nat :=
  let x := fourTab.getD i 0
  if rd && (onesIn 4 x != 2 || x == 0b1100) then 15 - x else x

/-- Running disparity after a six-bit group. -/
def rdSix (rd : Bool) (x : Nat) : Bool :=
  if 3 < onesIn 6 x ∨ x = 0b000111 then true else if onesIn 6 x < 3 ∨ x = 0b111000 then false else rd

/-- Running disparity after a four-bit group. -/
def rdFour (rd : Bool) (y : Nat) : Bool :=
  if 2 < onesIn 4 y ∨ y = 0b0011 then true else if onesIn 4 y < 2 ∨ y = 0b1100 then false else rd

/-- D.x.A7 stands for D.x.P7. -/
def altSeven (rd : Bool) (x : Nat) : Bool := if rd then [11, 13, 14].contains x else [17, 18, 20].contains x

/-- The 10-bit group of a character, bit 9 sent first, and the running disparity after it. (PRESUMED log 190) -/
def encode10 (rd : Bool) (ch : LineChar) : Nat × Bool :=
  let b := match ch with
    | .k b => b
    | .d b => b
  let y := b / 32 % 8
  let x := match ch with
    | .k _ => six rd 32
    | .d b => six rd (b % 32)
  let r := rdSix rd x
  let z := match ch with
    | .k _ => if rd then 15 - kTab.getD y 0 else kTab.getD y 0
    | .d b => four r (if y = 7 ∧ altSeven r (b % 32) then 8 else y)
  (16 * x + z, rdFour r z)

/-- The character of a 10-bit group in a running disparity, none for a violation, and the running disparity after it. K
characters but K28.y stand nowhere on a lane (R66). (PRESUMED log 190) -/
def decode10 (rd : Bool) (code : Nat) : Option LineChar × Bool :=
  let x := code / 16 % 64
  let z := code % 16
  let r := rdSix rd x
  let ch := match (List.range 33).find? (fun i => six rd i == x) with
    | none => none
    | some i =>
      if i = 32 then
        ((List.range 8).find? (fun y => (if rd then 15 - kTab.getD y 0 else kTab.getD y 0) == z)).map k28
      else match (List.range 9).find? (fun j => four r j == z) with
        | none => none
        | some j =>
          if (j = 7 ∧ altSeven r i) ∨ (j = 8 ∧ !altSeven r i) then none else some (.d (32 * min j 7 + i))
  (ch, rdFour r z)

/-- A 10-bit group with one bit inverted; bit 0 is the one sent first. (DESIGN CHOICE log 174) -/
def flipBit (code i : Nat) : Nat := code ^^^ 2 ^ (9 - i)

/-- The fields of an upstream character (R84). -/
structure UpFields where
  fLH : Bool
  fLL : Bool
  fRH : Bool
  fRL : Bool
  vb : Bool
  ib : Bool
  ab : Bool
  mb : Bool
  deriving DecidableEq, Repr

/-- R84. -/
def upFields (b : Byte) : UpFields :=
  let f (i : Nat) : Bool := bitOf b.toNat i
  ⟨f 7, f 6, f 5, f 4, f 3, f 2, f 1, f 0⟩

/-- The soft-comparator flag of a switch of the cell: 0 and 1 high and low side of the left leg, 2 and 3 of the right. -/
def UpFields.flag (u : UpFields) (i : Nat) : Bool :=
  match i with
  | 0 => u.fLH
  | 1 => u.fLL
  | 2 => u.fRH
  | _ => u.fRL

/-- A state character (R70). -/
def stateChar (sl sr fd : Nat) : Nat := 32 * (sl % 8) + 4 * (sr % 8) + fd % 4

end Sys2Proof.Machine
end

