-- ==== Sys2Proof/Machine/Link.lean ====
section
/-! DEFINITION. The cell link (R65 to R100): lane states, training and latency, upstream frames and records, downstream
messages, the error window, the identity check (R42 to R45) and the bypass commands (R96). -/
namespace Sys2Proof.Machine

/-! ### Lane states -/

/-- Bit of a lane in a map word (R100). -/
def mapBit (base l : Nat) : Field := ⟨base + 4 * (l / 32), l % 32, 1⟩

/-- The code of an equalisation trial (R388). (DEDUCED log 137) -/
def Core.eqCode (c : Core) (l which : Nat) : Nat :=
  let far := mapGet (fun _ => 0) c.tlm.far l
  match which with
  | 0 => c.getF (LNK_LANE_EQ.TX_EMPH l)
  | 1 => c.getF (LNK_LANE_EQ.RX_EQ l)
  | 2 => far % 256
  | _ => far / 256

/-- The island of a lane is on (R30, R34): PD_4 for the first 64 lanes, PD_5 for the others. -/
def Core.laneOn (c : Core) (l : Nat) : Bool := c.getBit PWR_STATUS.ON (4 + l / 64)

/-- An equalisation code set; the far end's two go out as EQ_TRIM (R83). A lane whose island is off takes nothing (R30). -/
def Core.setEqCode (c : Core) (l which v : Nat) : Core :=
  if !c.laneOn l then c else match which with
  | 0 => c.setF (LNK_LANE_EQ.TX_EMPH l) v
  | 1 => c.setF (LNK_LANE_EQ.RX_EQ l) v
  | k =>
    let far := mapGet (fun _ => 0) c.tlm.far l
    let w := if k = 2 then far / 256 * 256 + v else far % 256 + 256 * v
    { c with tlm := { c.tlm with far := mapSet (fun _ => 0) c.tlm.far l w } }.modLane l (fun x =>
      { x with queue := x.queue ++ [(⟨0x85, w⟩ : DnMsg)] })

def Core.setTrial (c : Core) (isl : Nat) (t : Option EqTrial) : Core :=
  { c with tlm := { c.tlm with eq := setAt isl t c.tlm.eq } }

/-- The trial of a lane. -/
def Core.trialOf (c : Core) (l : Nat) : Option EqTrial := (c.tlm.eq.getD (l / 64) none).filter (fun t => t.lane == l)

/-- A trial is abandoned: the original code returns (R388). -/
def Core.eqAbandon (c : Core) (l : Nat) : Core :=
  match c.trialOf l with
  | none => c
  | some t => (c.setTrial (l / 64) none).setEqCode l t.which t.orig

/-- Errors of a lane in trial; two abandon it (R388). -/
def Core.eqErrors (c : Core) (l n : Nat) : Core :=
  match c.trialOf l with
  | none => c
  | some t =>
    let e := setAt (t.phase + 1) (t.errs.getD (t.phase + 1) 0 + n) t.errs
    if 2 ≤ e.getD 1 0 + e.getD 2 0 then c.eqAbandon l else c.setTrial (l / 64) (some { t with errs := e })

/-- STATE of a lane with the maps that follow it (R93, R100); a trial ends when the lane leaves VALID. -/
def Core.setLaneState (c : Core) (l st : Nat) : Core :=
  let c1 := ((c.setF (LNK_LANE_STATUS.STATE l) st).setFlag (mapBit LNK_VALID_MAP_0.a l) (st == 2)).setFlag
    (mapBit LNK_FAULTY_MAP_0.a l) (st == 4)
  if st = 2 then c1 else c1.eqAbandon l

/-- Both legs of a cell sent a code at the next character boundary. -/
def Core.forceCell (c : Core) (n code : Nat) : Core :=
  (c.forceCode (2 * n) code c.unscheduledAt).forceCode (2 * n + 1) code c.unscheduledAt

/-- The states sent while a lane trains (R93); a FORCE line puts 100 in their place (R32, R138). -/
def Core.trainCode (c : Core) : Nat :=
  if c.getF SAF_STATUS.FORCE = 0 ∧ (c.mode.code = .off ∨ c.mode.code = .standby) then 0 else 4

/-- The lanes in training follow the mode (R93). -/
def Core.trainFollow (c : Core) : Core :=
  (List.range 128).foldl (fun a l => if a.laneState l = 1 then a.forceCell l a.trainCode else a) c

/-- Training starts (R91, R93); the event bit TIMING_FAIL starts from 0 with it. (DESIGN CHOICE log 193) -/
def Core.startTraining (c : Core) (l : Nat) : Core :=
  let x := c.lane l
  let c1 := c.setLane l { x with
    commaRun := 0, crcRun := 0, missRun := 0, lastCrc := none, rtts := [], padSent := false, ident := 0, serial := 0
    serialKnown := false, health := [], seen := 0, trainAt := c.now, msg := none, resend := false, tries := 0, queue := [], rd := false, lastChar := 0, abortAt := 0 }
  let c2 := ((c1.setLaneState l 1).setF (LNK_LANE_STATUS.PAD_ACKED l) 0).setF (LNK_LANE_STATUS.ALIGNED l) 0
  let c3 := ((c2.setF (LNK_LANE_STATUS.MSG_BUSY l) 0).setF (LNK_LANE_STATUS.MSG_TRIES l) 0).setF
    (LNK_LANE_EVENT.TIMING_FAIL l) 0
  c3.forceCell l c.trainCode

/-! ### Errors (R95) -/

/-- The errors of the window. -/
def Lane.errors (x : Lane) : Nat := sumN x.buckets

/-- Errors counted in the present bucket. -/
def Core.laneError (c : Core) (l n : Nat) : Core :=
  let x := c.lane l
  let x1 := { x with buckets := (x.buckets.headD 0 + n) :: x.buckets.drop 1 }
  ((c.setLane l x1).setF (LNK_LANE_ERR_WINDOW.SUM l) (min 255 x1.errors)).eqErrors l n

/-- R95: the error count moves to a new bucket every 62.5 ms. -/
def execErrorBucketRoll (l : Fin 128) (s : State) : Res :=
  go (fun c _ =>
    let x := c.lane l.val
    if x.bucketAt + 62500000 ≤ c.now then
      let x1 := { x with buckets := 0 :: x.buckets.take 15, bucketAt := x.bucketAt + 62500000 }
      ((c.setLane l.val x1).setF (LNK_LANE_ERR_WINDOW.SUM l.val) (min 255 x1.errors)).setF
        (LNK_LANE_ERR_WINDOW.BUCKET l.val) (c.getF (LNK_LANE_ERR_WINDOW.BUCKET l.val) + 1)
    else c) s

/-! ### Downstream messages (R78 to R83) -/

/-- Argument bytes of an opcode (R78). -/
def msgArgLen (op : Nat) : Nat := [0, 1, 2, 4].getD (op / 64) 0

/-- The bytes of a message from OP to its CRC-8. -/
def DnMsg.bytes (d : DnMsg) : List Byte :=
  let b := BitVec.ofNat 8 d.op :: le (msgArgLen d.op) d.arg
  b ++ [BitVec.ofNat 8 (crc8 b)]

/-- Fill characters between equal neighbours (R78). -/
def stuffing : List Byte → Nat
  | [] => 0
  | x :: t => match t with
    | [] => 0
    | y :: _ => (if x = y then 1 else 0) + stuffing t

/-- The bytes of a message with the K28.3 between equal neighbours. -/
def stuffed : List Byte → List LineChar
  | [] => []
  | x :: t => match t with
    | [] => [.d x.toNat]
    | y :: _ => .d x.toNat :: (if x = y then [k28 3] else []) ++ stuffed t

/-- The characters of a message (R78). -/
def DnMsg.chars (d : DnMsg) : List LineChar := [k28 1, k28 3] ++ stuffed d.bytes

/-- Characters a message spans, with K28.1 and its K28.3 (R78, R81). -/
def DnMsg.span (d : DnMsg) : Nat := 2 + d.bytes.length + stuffing d.bytes

/-- The actuating opcodes of R83. -/
def actuating (op : Nat) : Bool := [0x03, 0x41, 0x42, 0x82, 0x83, 0x84, 0xC1].contains op

/-- A message waits for a lane; a newer threshold of the same switch replaces a waiting one (R387). A device in SHADOW sends
no actuating message (R451); a lane whose island is off takes none (R30), a FAULTY one only BYPASS_CLOSE (R96).
(DEDUCED log 138) -/
def Core.queueMsg (c : Core) (l op arg : Nat) : Core :=
  if (c.auth = 1 && actuating op) || !c.laneOn l || (c.laneState l == 4 && op != 0x83) then c else c.modLane l (fun x =>
    let same (d : DnMsg) : Bool := (op == 0x82 || op == 0x84) && d.op == op && d.arg / 2 ^ 14 == arg / 2 ^ 14
    { x with queue := x.queue.filter (fun d => !same d) ++ [⟨op, arg⟩] })

/-- The next message of a lane: one to be sent again, else the oldest that waits. -/
def Lane.nextMsg (x : Lane) : Option DnMsg :=
  match x.msg with
  | some d => if x.resend then some d else none
  | none => x.queue.head?

/-- The first character boundary from now on that is not slot 0. -/
def nextSlot (now : Nat) : Nat :=
  let b := (now + 7) / 8 * 8
  if b % 2048 = 0 then b + 8 else b

/-- The slots of the pair of a change with a launch boundary; K28.6 in slot 0 stands before its pair (R74, R75). -/
def pairSlots (b : Nat) : List Nat :=
  if b % 2048 = 0 then [b, b + 8, b + 16] else if b % 2048 = 2040 then [b, b + 16] else [b, b + 8]

/-- A change of the cell has its launch boundary in a span of characters, or still occupies one of them (R75, R81). -/
def Core.changeIn (c : Core) (n a b : Nat) : Bool :=
  [2 * n, 2 * n + 1].any (fun h => (c.hb h).tl.any (fun e =>
    (pairSlots (launchOf e.1)).any (fun s => decide (a ≤ s ∧ s < b))))

/-- The outstanding message of a lane is over. -/
def Core.endMsg (c : Core) (l : Nat) : Core :=
  ((c.modLane l (fun x => { x with msg := none, resend := false, tries := 0 })).setF (LNK_LANE_STATUS.MSG_BUSY l) 0).setF
    (LNK_LANE_STATUS.MSG_TRIES l) 0

/-- An attempt failed (R82): an error, and a retry, or the lane is permanently faulty (`tries` 4). BYPASS_CLOSE is outside
the retry limit (R96). -/
def Core.attemptFailed (c : Core) (l : Nat) : Core :=
  let x := c.lane l
  match x.msg with
  | none => c
  | some d =>
    let c1 := (c.laneError l 1).event (LNK_LANE_EVENT.MSG_FAIL l)
    if d.op = 0x83 then c1.endMsg l
    else
      let t := min 4 (x.tries + 1)
      (c1.modLane l (fun y => { y with tries := t, resend := decide (t ≤ 3) })).setF (LNK_LANE_STATUS.MSG_TRIES l) (min 3 t)

/-- R82: no ACK within 2 frames of the message's last character. -/
def execMessageAttemptFailed (l : Fin 128) (s : State) : Res :=
  go (fun c _ =>
    let x := c.lane l.val
    if x.msg.isSome && !x.resend && decide (x.tries < 4) && decide (x.msgEnd + 4096 ≤ c.now) then c.attemptFailed l.val
    else c) s

/-! ### Latency (R89, R90) -/

/-- The last value of a health code. -/
def Lane.healthOf (x : Lane) (code : Nat) : Nat := mapGet (fun _ => 0) x.health code

/-- pad_d and pad_u in 0.25 ns, and whether the limits of R89 hold. -/
def Lane.pads (x : Lane) (tch : Int) : Int × Int × Bool :=
  let rx := x.healthOf 5
  let dr := x.healthOf 6
  let up := x.healthOf 7
  let d := (2 * (480 - (rx : Int) - dr) - tch) / 2
  let u := (2 * (512 - (up : Int)) - tch) / 2
  (d, u, decide (32 ≤ d ∧ 0 ≤ u ∧ rx ≤ 160 ∧ dr ≤ 96 ∧ up ≤ 160))

/-- Pads: pad_u in the device, PAD_SET to the front-end, whose pad is in force once acknowledged (R99). -/
def Core.usePads (c : Core) (l : Nat) (tch d u : Int) : Core :=
  let c1 := (c.modLane l (fun x => { x with tch := tch, padSent := true })).queueMsg l 0x81 (d.toNat % 1024)
  c1.setF (LNK_LANE_PAD.UP_PAD l) u.toNat

/-- RTT from 16 frames, and the pads that follow from it: the first in training, a new one when t_ch moved by 0.5 ns or
more. -/
def Core.latency (c : Core) (l : Nat) : Core :=
  let x := c.lane l
  if x.rtts.length < 16 then c
  else
    let rtt := rneNat (sumN x.rtts) 16
    let c1 := c.setF (LNK_LANE_RTT.RTT l) (min rtt 65535)
    let tch : Int := (rtt : Int) - 256
    let known := bitOf x.seen 5 && bitOf x.seen 6 && bitOf x.seen 7
    let p := x.pads tch
    let st := c.laneState l
    if st = 1 ∧ known ∧ !x.padSent then
      if p.2.2 then c1.usePads l tch p.1 p.2.1 else c1.event (LNK_LANE_EVENT.TIMING_FAIL l)
    else if st = 2 ∧ 4 ≤ (tch - x.tch).natAbs then c1.usePads l tch p.1 p.2.1
    else c1

/-! ### The fault injector (R98, R99) -/

/-- Injection is permitted: in TEST, or with the debug port at level 2 (R443) outside DRIVE. (DEDUCED log 172) -/
def Core.injectable (c : Core) : Bool :=
  c.mode.code == .test || (c.getF SEC_STATUS.DEBUG_LEVEL == 2 && c.mode.code != .drive)

/-- Characters per injection. -/
def Core.injRate (c : Core) (l : Nat) : Nat := 2 ^ min 20 (c.getF (LNK_LANE_INJ_CFG.RATE l))

/-- The injector of a lane takes the `k` characters of a frame's slots 1 to 255: the positions it acts on, its next state.
(DESIGN CHOICE log 174) -/
def injectGo (rate limit : Nat) : Nat → Nat → Nat → Nat → List Nat × Nat × Nat
  | 0, _, left, made => ([], left, made)
  | k + 1, i, left, made =>
    if limit ≠ 0 ∧ limit ≤ made then ([], left, made)
    else if left = 0 then
      let r := injectGo rate limit k (i + 1) (rate - 1) (made + 1)
      (i :: r.1, r.2)
    else injectGo rate limit k (i + 1) (left - 1) made

/-- Upstream characters as they reach the receiver behind the injector: a dropped one is a code violation, none; a corrupted
one has its bit inverted (R98). (DESIGN CHOICE log 174) -/
def Core.inject (c : Core) (l : Nat) (codes : List (BitVec 10)) : Core × List (Option Nat) :=
  let plain := codes.map (fun k => some k.toNat)
  let mode := c.getF (LNK_LANE_INJ_CFG.MODE l)
  if c.flag (LNK_LANE_INJ_STATUS.ACTIVE l) && c.injectable && c.flag (LNK_LANE_INJ_CFG.DIR l) && mode != 3 && !codes.isEmpty then
    let x := c.lane l
    let limit := c.getF (LNK_LANE_INJ_CFG.LIMIT l)
    let r := injectGo (c.injRate l) limit (codes.length - 1) 1 x.injLeft x.injMade
    let c1 := (c.setLane l { x with injLeft := r.2.1, injMade := r.2.2 }).bump (LNK_LANE_INJ_STATUS.INJECTED l) r.1.length
    let c2 := if limit ≠ 0 ∧ limit ≤ r.2.2 then c1.setF (LNK_LANE_INJ_STATUS.ACTIVE l) 0 else c1
    let bit := c.getF (LNK_LANE_INJ_CFG.BIT l)
    (c2, (plain.zip (List.range plain.length)).map (fun e =>
      if r.1.contains e.2 then (if mode = 1 then none else e.1.map (fun k => flipBit k bit)) else e.1))
  else (c, plain)

/-- Slots other than slot 0 whose boundary lies after `a` and not after `b`. -/
def slotsIn (a b : Nat) : Nat := (b / 8 - b / 2048) - (a / 8 - a / 2048)

/-- The injector acts on downstream characters: it is running with DIR 0 and MODE 1 or 2. (DESIGN CHOICE log 174) -/
def Core.injDown (c : Core) (l : Nat) : Bool :=
  c.flag (LNK_LANE_INJ_STATUS.ACTIVE l) && !c.flag (LNK_LANE_INJ_CFG.DIR l)
    && (c.getF (LNK_LANE_INJ_CFG.MODE l) == 1 || c.getF (LNK_LANE_INJ_CFG.MODE l) == 2)

/-- Injections a limit leaves. -/
def capInj (limit made n : Nat) : Nat := if limit = 0 then n else min n (limit - made)

/-- The injections made in downstream characters by now are counted; a reached limit stops the injector (R98, R99).
(DESIGN CHOICE log 174) -/
def Core.injSettle (c : Core) (l : Nat) : Core :=
  if !c.injDown l then c
  else
    let x := c.lane l
    let limit := c.getF (LNK_LANE_INJ_CFG.LIMIT l)
    let n := capInj limit x.injMade (slotsIn x.injAt c.now / c.injRate l)
    let c1 := (c.setLane l { x with injMade := x.injMade + n, injAt := if n = 0 then x.injAt else c.now }).bump
      (LNK_LANE_INJ_STATUS.INJECTED l) n
    if limit ≠ 0 ∧ limit ≤ x.injMade + n then c1.setF (LNK_LANE_INJ_STATUS.ACTIVE l) 0 else c1

/-- A write of INJ_CFG. (DESIGN CHOICE log 174) -/
def Core.injWrite (c0 : Core) (l : Nat) (v : Nat) : Core :=
  let c := c0.injSettle l
  if !c.injectable ∨ 10 ≤ bitsOf v 3 4 then c.setF (LNK_LANE_INJ_STATUS.DENIED l) 1
  else
    let c1 := (c.setReg (LNK_LANE_INJ_CFG.a l) (BitVec.ofNat 32 (v % 2 ^ 28))).setF (LNK_LANE_INJ_STATUS.DENIED l) 0
    let c2 := c1.setFlag (LNK_LANE_INJ_STATUS.ACTIVE l) (v % 4 != 0)
    let c3 := c2.modLane l (fun x => { x with injLeft := c2.injRate l - 1, injMade := 0, injAt := c.now })
    if v % 4 = 0 then c3 else c3.eqAbandon l

/-- Leaving TEST, or the end of the permission, stops the injectors; their counts are kept. (DESIGN CHOICE log 174) -/
def Core.injStop (c : Core) : Core :=
  (List.range 128).foldl (fun a l =>
    if a.flag (LNK_LANE_INJ_STATUS.ACTIVE l) then (a.injSettle l).setF (LNK_LANE_INJ_STATUS.ACTIVE l) 0 else a) c

/-- The injectors stop where they are permitted no more (R98). -/
def Core.injCheck (c : Core) : Core := if c.injectable then c else c.injStop

/-! ### The characters sent (R66, R70, R75, R78, R94) -/

/-- A downstream slot as it leaves the device: electrical idle; a character; a character replaced by a code violation, or with
one bit of its code inverted, by the injector (R98). -/
inductive DownSlot where
  | idle
  | char (x : LineChar)
  | violation
  | inverted (x : LineChar) (bit : Nat)
  deriving DecidableEq, Repr

/-- The code of a leg and the gate time of its last change as the link sends them in a slot. -/
def sentCode (tl : List (Nat × Nat)) (b : Nat) : Nat × Nat :=
  tl.foldl (fun a e => if launchOf e.1 ≤ b then (e.2, e.1) else a) ((tl.headD (0, 4)).2, 0)

/-- The state character of a cell in the slot at a boundary (R70): both codes, and the fine delay of the latest change, which
is the remainder of its launch instant (R76, R104). -/
def Core.stateSlot (c : Core) (n b : Nat) : LineChar :=
  let l := sentCode (c.hb (2 * n)).tl b
  let r := sentCode (c.hb (2 * n + 1)).tl b
  .d (stateChar l.1 r.1 (max l.2 r.2 % 8 / 2))

/-- The character of the slot at a boundary before the injector: K28.5, or K28.6 ahead of a change (R75), in slot 0; K28.7
where a message was aborted (R81); the characters of the message (R78); state characters on a driving lane, K28.0 on a
listening one (R94). -/
def Core.plainSlot (c : Core) (l b : Nat) : LineChar :=
  let x := c.lane l
  let drive := c.flag (LNK_LANE_CTRL.DRIVE l)
  if b % 2048 = 0 then
    if drive && ((c.hb (2 * l)).tl ++ (c.hb (2 * l + 1)).tl).any (fun e => launchOf e.1 == b) then k28 6 else k28 5
  else if x.abortAt = b + 1 then k28 7
  else if x.msgStart ≤ b ∧ b < x.msgEnd ∧ !x.resend then match x.msg with
    | some d => d.chars.getD ((b - x.msgStart) / 8) (k28 3)
    | none => if drive then c.stateSlot l b else k28 0
  else if drive then c.stateSlot l b else k28 0

/-- The injector acts on the slot at a boundary. (DESIGN CHOICE log 174) -/
def Core.injHits (c : Core) (l b : Nat) : Bool :=
  let x := c.lane l
  let k := slotsIn x.injAt b
  let limit := c.getF (LNK_LANE_INJ_CFG.LIMIT l)
  b % 2048 != 0 && 0 < k && k % c.injRate l == 0 && (limit == 0 || decide (x.injMade + k / c.injRate l ≤ limit))

/-- Both characters of a swap belong to the message (R98). -/
def Lane.swaps (x : Lane) (b : Nat) : Bool := x.msg.isSome && !x.resend && decide (x.msgStart ≤ b ∧ b + 8 < x.msgEnd)

/-- What leaves the device in the slot at a boundary. -/
def Core.downSlot (c : Core) (l b : Nat) : DownSlot :=
  if c.laneState l = 0 ∨ !c.laneOn l then .idle
  else
    let ch := c.plainSlot l b
    let on := c.flag (LNK_LANE_INJ_STATUS.ACTIVE l) && c.injectable
    if c.injDown l && c.injectable && c.injHits l b then
      if c.getF (LNK_LANE_INJ_CFG.MODE l) = 1 then .violation else .inverted ch (c.getF (LNK_LANE_INJ_CFG.BIT l))
    else if on && c.getF (LNK_LANE_INJ_CFG.MODE l) == 3 && (c.lane l).swaps b && c.injHits l b then .char (c.plainSlot l (b + 8))
    else if on && c.getF (LNK_LANE_INJ_CFG.MODE l) == 3 && 8 ≤ b && (c.lane l).swaps (b - 8) && c.injHits l (b - 8) then
      .char (c.plainSlot l (b - 8))
    else .char ch

/-- The swaps in a message that starts are counted (R98, R99). (DESIGN CHOICE log 174) -/
def Core.injSwaps (c : Core) (l : Nat) : Core :=
  let x := c.lane l
  if c.flag (LNK_LANE_INJ_STATUS.ACTIVE l) && c.injectable && c.getF (LNK_LANE_INJ_CFG.MODE l) == 3 then
    let hits := (List.range ((x.msgEnd - x.msgStart) / 8)).filter (fun i =>
      x.swaps (x.msgStart + 8 * i) && c.injHits l (x.msgStart + 8 * i))
    c.bump (LNK_LANE_INJ_STATUS.INJECTED l) hits.length
  else c

/-- R98: INJ_CFG written. -/
def execLnkInjCfgWrite (l : Fin 128) (v : BitVec 32) (s : State) : Res :=
  go (fun c _ => c.injWrite l.val v.toNat) s

/-- R348: LANE_INJECT. -/
def execLaneInject (m : Msg) (s : State) : Res :=
  go (fun c _ => c.command { op := 0x0720, modes := notOff, len := lenIs 8, expect := 8 } m fun cmd c =>
    match firstFail [chk 1 0 (decide (u8 cmd.p 0 < 128)), chkAt 2 (firstNonZero cmd.p 1 3)] with
    | some f => c.badField cmd.ref f
    | none => if c.injectable then (c.injWrite (u8 cmd.p 0) (u32 cmd.p 4)).done cmd.ref else c.denied cmd.ref 4) s

/-- R81: a message starts at an opportunity that clears the scheduled changes. -/
def execMessageStart (l : Fin 128) (s : State) : Res :=
  go (fun c _ =>
    let x := c.lane l.val
    let st := c.laneState l.val
    if st = 0 ∨ st = 3 then c
    else match x.nextMsg with
    | none => c
    | some d =>
      let b := nextSlot c.now
      let e := b + 8 * d.span
      if 256 < b % 2048 / 8 + d.span ∨ c.changeIn l.val b e then c
      else
        let first := x.msg.isNone
        let x1 := { x with
          msg := some d, msgCrc := crc8 (BitVec.ofNat 8 d.op :: le (msgArgLen d.op) d.arg), msgStart := b, msgEnd := e
          resend := false
          queue := if first then x.queue.drop 1 else x.queue, tries := if first then 0 else x.tries }
        (((c.setLane l.val x1).setF (LNK_LANE_STATUS.MSG_BUSY l.val) 1).setF (LNK_LANE_STATUS.MSG_TRIES l.val)
          (min 3 x1.tries)).injSwaps l.val) s

/-! ### Upstream frames (R84, R87, R88, R93, R95, R306) -/

/-- The receiver over the 10-bit groups of a frame (R66, R67): running disparity and last character before them; a group that
is no character, or a character out of its place, repeats the last one. The values of slots 1 to 255 in order, the running
disparity after them, and how many were violations; then whether slot 0 carried its comma. -/
def receive : Nat → Bool → Nat → List (Option Nat) → List Byte × Bool × Nat × Bool
  | _, rd, _, [] => ([], rd, 0, false)
  | slot, rd, last, none :: t =>
    let r := receive (slot + 1) rd last t
    (if slot = 0 then r.1 else BitVec.ofNat 8 last :: r.1, r.2.1, r.2.2.1 + 1, r.2.2.2)
  | slot, rd, last, some code :: t =>
    let d := decode10 rd code
    match slot, d.1 with
    | 0, some ch =>
      let r := receive 1 d.2 last t
      (r.1, r.2.1, r.2.2.1 + (if ch = k28 5 then 0 else 1), ch == k28 5)
    | 0, none =>
      let r := receive 1 d.2 last t
      (r.1, r.2.1, r.2.2.1 + 1, false)
    | k + 1, some (.d b) =>
      let r := receive (k + 2) d.2 b t
      (BitVec.ofNat 8 b :: r.1, r.2.1, r.2.2.1, r.2.2.2)
    | k + 1, _ =>
      let r := receive (k + 2) d.2 last t
      (BitVec.ofNat 8 last :: r.1, r.2.1, r.2.2.1 + 1, r.2.2.2)

/-- The CRC-16 in the message bits of slots 1 to 16. -/
def frameCrc (b : List Byte) : Nat := (b.take 16).foldl (fun a x => 2 * a + b2n (upFields x).mb) 0

/-- R306: the frame before the one that completes now failed its CRC-16; it marks the values of every period it
contributed a bit to. (DEDUCED log 77) -/
def Core.markSuspect (c : Core) (n : Nat) : Core :=
  let v := c.cellVal n
  let closed := decide (c.now ≤ c.cnv.sampleAt + 4096)
  let next := decide (c.cnv.sampleAt + 2048 < c.now)
  let a := c.ledAcc n
  let c1 := (c.setCellVal n { v with suspect := v.suspect || closed, susNext := v.susNext || next }).setLedAcc n { a with
    suspect := a.suspect || (closed && a.got) }
  (c1.setFlag (CNV_C_STAT.CRC_SUSPECT n) (v.suspect || closed)).event CNV_EVENT.CRC_MARK

/-- R87: an upstream frame completes: the 256 10-bit groups received, or none at all where no upstream character arrived
(R93). A held character in slot 0 is no comma for the loss of alignment (R93), but breaks no training (R91); ALIGNED is held
while commas come. (DESIGN CHOICE log 176, 193, 196) -/
def execUpstreamFrame (l : Fin 128) (slot0 : Option (BitVec 10)) (chars : List (BitVec 10)) (rtt : Nat) (s : State) : Res :=
  go (fun c0 _ =>
    let codes := slot0.toList ++ chars
    let n := l.val
    let st := c0.laneState n
    if st ≠ 1 ∧ st ≠ 2 then c0
    else
      let inj := c0.inject n codes
      let c := inj.1
      let x := c.lane n
      let r := receive 0 x.rd x.lastChar inj.2
      let b := r.1
      let silent := codes.isEmpty
      let comma := r.2.2.2
      let viol := r.2.2.1
      let bad := !silent && (match x.lastCrc with
        | some k => k != frameCrc b
        | none => false)
      let x1 := { x with
        commaRun := if silent then 0 else x.commaRun + 1
        missRun := if comma then 0 else x.missRun + 1
        crcRun := if bad || silent then 0 else if x.lastCrc.isSome then x.crcRun + 1 else 0
        lastCrc := if silent then none else some (crc16 b), rtts := if silent then x.rtts else lastN 16 (x.rtts ++ [rtt])
        rd := r.2.1, lastChar := (b.getLast?.map (·.toNat)).getD x.lastChar }
      let c1 := (c.setLane n x1).bump (LNK_LANE_ERR_COUNT.CODE_VIOL n) viol
      let c2 := if bad then (c1.bump (LNK_LANE_ERR_COUNT.CRC_FAIL n) 1).markSuspect n else c1
      let c3 := c2.laneError n (viol + b2n bad)
      (c3.setFlag (LNK_LANE_STATUS.ALIGNED n) (decide (x1.missRun < 4 ∧ 0 < x1.commaRun))).latency n) s

/-- R88: an IDENT record. -/
def execIdentRecord (l : Fin 128) (p : BitVec 24) (s : State) : Res :=
  go (fun c _ =>
    let n := l.val
    let w := p.toNat
    let part := bitsOf w 22 2
    if part = 3 ∨ (c.laneState n ≠ 1 ∧ c.laneState n ≠ 2) then c
    else
      let x := c.lane n
      let len := if part = 2 then 20 else 22
      let old := bitsOf x.serial (22 * part) len
      let serial := x.serial - old * 2 ^ (22 * part) + bitsOf w 0 len * 2 ^ (22 * part)
      let x1 := { x with serial := serial, ident := setBit x.ident part, serialKnown := setBit x.ident part == 7 }
      let c1 := c.setLane n x1
      if x1.serialKnown then
        (c1.setReg (LNK_LANE_SERIAL_LO.a n) (BitVec.ofNat 32 serial)).setReg (LNK_LANE_SERIAL_HI.a n)
          (BitVec.ofNat 32 (serial / 2 ^ 32))
      else c1) s

/-- R87: an unknown record type. -/
def execUnknownRecord (l : Fin 128) (type : BitVec 8) (s : State) : Res :=
  go (fun c _ =>
    if 7 ≤ type.toNat ∧ (c.laneState l.val = 1 ∨ c.laneState l.val = 2) then
      (c.laneError l.val 1).event (LNK_LANE_EVENT.UNKNOWN_RECORD l.val)
    else c) s

/-! ### Bypass commands (R42, R43, R96, R131) -/

/-- BYPASS_CLOSE every 1 ms from now on. (DEDUCED log 48) -/
def Core.startBypass (c : Core) (n : Nat) : Core :=
  if c.role n = 1 ∧ !c.flag (LNK_LANE_STATUS.BYPASS_CLOSED n) ∧ !(c.cell n).bcOn then
    c.modCell n (fun x => { x with bcOn := true, bcFirst := none, bcNext := c.now, boOn := false })
  else c

/-- An alarm of R132: it asks for a safe state only in DRIVE, CHARGE_DC and GRID. (DEDUCED log 48, 62) -/
def Core.bypassAlarm (c : Core) (nm : AlarmName) (n : Nat) (data : List Nat) : Core :=
  if c.causeOn nm n then c
  else if c.running then c.raiseA nm n data
  else (c.raise nm n data true).refreshCause

/-- BYPASS_UNCONFIRMED, and BYPASS_FAILED on a lane that is not VALID (R96, R132). (DEDUCED log 49) -/
def Core.unconfirmed (c : Core) (n : Nat) : Core :=
  let c1 := (c.event (LNK_LANE_EVENT.BYPASS_UNCONFIRMED n)).raise .bypassUnconfirmed n [n] true
  let c2 := c1.modCell n (fun x => { x with unconf := true })
  if c2.laneState n = 2 then c2 else (c2.event PRT_EVENT.BYPASS_FAILED).bypassAlarm .bypassFailed n [n]

/-- R96: BYPASS_CLOSE is sent again. -/
def execBypassCloseTimer (c : Fin 128) (s : State) : Res :=
  go (fun k _ =>
    let n := c.val
    let x := k.cell n
    if x.bcOn ∧ x.bcNext ≤ k.now ∧ k.role n = 1 then
      (k.queueMsg n 0x83 ((k.lane n).serial % 65536)).modCell n (fun x =>
        { x with bcNext := k.now + 1000000, bcFirst := some (x.bcFirst.getD k.now) })
    else k) s

/-- R96: the contactor is not reported closed within 20 ms. -/
def execBypassUnconfirmed (c : Fin 128) (s : State) : Res :=
  go (fun k _ =>
    let x := k.cell c.val
    match x.bcFirst with
    | some t => if x.bcOn ∧ !x.unconf ∧ t + 20000000 ≤ k.now then k.unconfirmed c.val else k
    | none => k) s

/-- R43: BYPASS_OPEN every 1 ms until the contactor is reported open. -/
def execBypassOpenTimer (c : Fin 128) (s : State) : Res :=
  go (fun k _ =>
    let x := k.cell c.val
    if x.boOn ∧ x.boNext ≤ k.now then
      (k.queueMsg c.val 0x03 0).modCell c.val (fun x => { x with boNext := k.now + 1000000 })
    else k) s

/-! ### The identity check (R42 to R45) -/

/-- The other leg of a cell retired for a trip goes to 111 while the lane is VALID, no FORCE line stands and the contactor is
not reported closed (R131, point 3; R32). (DEDUCED log 47) -/
def Core.resumeHold (c : Core) (n : Nat) : Core :=
  let k := (c.cell n).legHold
  if k = 0 ∨ c.laneState n ≠ 2 ∨ c.getF SAF_STATUS.FORCE ≠ 0 ∨ c.flag (LNK_LANE_STATUS.BYPASS_CLOSED n) then c
  else
    let h := 2 * n + (k - 1)
    let s := c.strOf n
    let c1 := c.placeShared h rqLow (roundGate c.unscheduledAt)
    ((onOffChanges c.now (c1.hb h).tl).foldl (fun a g => a.openWin s g (g + 2 * a.getF (PRT_XB_CFG.POST s))) c1).modHb h
      (fun b => { b with held := true })

/-- The outcome of a cell whose lane is VALID (R42 to R45). A member admitted while FORCE_SHORT stands joins it (R32, R138). -/
def Core.identity (c : Core) (n : Nat) : Core :=
  let serial := (c.lane n).serial
  let was := (c.cell n).wasSilent
  let hold (c : Core) := c.forceCell n 4
  if c.onCharList serial then
    let c1 := hold (c.modCell n (fun x => { x with adm := .retired, gone := true }))
    let c2 := (c1.clearCause .cellSilent n).clearCause .cellIdentityMismatch n
    if c.charLane serial then c2.setLaneState n 4 else c2.resumeHold n
  else if serial = (c.cellEnt n).serial then
    let c1 := ((c.clearCause .cellSilent n).clearCause .cellIdentityMismatch n).clearCause .laneDown n
    let c2 := c1.modCell n (fun x => { x with
      adm := .admitted, gone := false, legHold := 0, bcOn := false, bcFirst := none, unconf := false, wasSilent := false })
    let c3 := c2.clearCause .bypassUnconfirmed n
    let opens := was && c.role n == 1 && (c.lane n).healthOf 1 != 0
    let c4 := if opens then hold (c3.modCell n (fun x => { x with boOn := true, boNext := c.now }))
      else if c.role n = 2 then hold c3
      else if 2 ≤ c.getF SAF_STATUS.FORCE then (c3.forceShortLeg (2 * n)).forceShortLeg (2 * n + 1)
      else c3
    c4.openRecord n serial
  else
    let c1 := hold (c.modCell n (fun x => { x with adm := .mismatched }))
    ((c1.clearCause .cellSilent n).raise .cellIdentityMismatch n [(c.cellEnt n).serial, serial] true).startBypass n

/-- The treatment of a silent cell (R41 to R43): no serial is reported, so the outcome is silent whatever the cell was.
(DEDUCED log 49) -/
def Core.silentCell (c : Core) (n : Nat) : Core :=
  let c1 := c.modCell n (fun x => { x with adm := .silent, wasSilent := true })
  let c2 := (c1.forceCell n 4).raise .cellSilent n [n] true
  if c.role n = 1 then c2.unconfirmed n else c2

/-- R91: training completes. -/
def execLaneTrainingComplete (l : Fin 128) (s : State) : Res :=
  go (fun c _ =>
    let n := l.val
    let x := c.lane n
    if c.laneState n = 1 ∧ 8 ≤ x.commaRun ∧ 7 ≤ x.crcRun ∧ x.rtts.length = 16 ∧ c.flag (LNK_LANE_STATUS.PAD_ACKED n)
        ∧ x.serialKnown then
      ((c.setLaneState n 2).clearCause .laneDown n).identity n
    else c) s

/-- R93: training fails; the lane becomes SILENT. -/
def execLaneTrainingTimeout (l : Fin 128) (s : State) : Res :=
  go (fun c _ =>
    let n := l.val
    if c.laneState n = 1 ∧ ((c.lane n).trainAt + 5000000 ≤ c.now ∨ c.flag (LNK_LANE_EVENT.TIMING_FAIL n)) then
      ((c.setLaneState n 3).modLane n (fun x => { x with silentAt := c.now })).silentCell n
    else c) s

/-- R93: a SILENT lane trains again after 1 s. -/
def execSilentRetry (l : Fin 128) (s : State) : Res :=
  go (fun c _ =>
    if c.laneState l.val = 3 ∧ (c.lane l.val).silentAt + 1000000000 ≤ c.now then c.startTraining l.val else c) s

/-- R93: four frames without a comma. -/
def execLaneDown (l : Fin 128) (s : State) : Res :=
  go (fun c _ =>
    let n := l.val
    if c.laneState n = 2 ∧ 4 ≤ (c.lane n).missRun then
      let c1 := ((c.laneError n 16).event (LNK_LANE_EVENT.DOWN n)).raise .laneDown n [n] true
      c1.startTraining n
    else c) s

/-- R99: RETRAIN of LNK_LANE_CTRL, in every state but DISABLED. (DESIGN CHOICE log 193) -/
def execLnkRetrain (l : Fin 128) (s : State) : Res :=
  go (fun c _ => if c.laneState l.val = 0 then c else c.startTraining l.val) s

/-- R96: the error limit or the message rule makes a lane FAULTY; the cell is retired. -/
def execLaneFaulty (l : Fin 128) (s : State) : Res :=
  go (fun c _ =>
    let n := l.val
    let x := c.lane n
    let st := c.laneState n
    if (st = 1 ∨ st = 2) ∧ (64 < x.errors ∨ x.tries = 4) then
      let c1 := ((c.setLaneState n 4).event (LNK_LANE_EVENT.FAULTY n)).raise .laneFaulty n [n, n, x.errors] true
      let c2 := ((c1.endMsg n).modLane n (fun y => { y with queue := [] })).modCell n (fun y => { y with
        adm := .retired, gone := true, legHold := 0 })
      let c3 := (c2.forceCell n 4).startBypass n
      let c4 := c3.charEntry 1 n (if 64 < x.errors then 4 else 5) x.serial []
      c4.retireRecord n
    else c) s

/-! ### Clamped link memories (R410) -/

/-- Every lane that is not disabled or faulty stops; its front-end falls to 100 (R92). -/
def Core.stopLanes (c : Core) : Core :=
  (List.range 128).foldl (fun a l =>
    let st := a.laneState l
    if st = 0 ∨ st = 4 then a else (a.startTraining l).forceCell l 4) c

/-- The lanes train again. -/
def Core.retrainLanes (c : Core) : Core :=
  (List.range 128).foldl (fun a l =>
    let st := a.laneState l
    if st = 0 ∨ st = 4 then a else a.startTraining l) c

/-- The end of BIST_RUN KIND 1: the memories are released, the lanes train again, the command completes. -/
def Core.bistRelease (c : Core) (status : Nat) (l : List Byte) : Core :=
  let ref := c.bist.inPlace
  let c1 := { c with bist := { c.bist with inPlace := none, retest := [] } }
  let c2 := ((c1.setF BST_STATUS.RUNNING 0).setF BST_STATUS.STAGE 0).retrainLanes
  match ref with
  | none => c2
  | some r => c2.reply r status l

/-- A test that was cut short: its memories take INCOMPLETE (R406, R410). (DEDUCED log 144) -/
def Core.bistIncomplete (c : Core) (mems : List Nat) : Core :=
  (mems.foldl (fun a m => a.setF (BST_MEM_RESULT.RESULT m) 4) c).event BST_EVENT.INCOMPLETE

/-- A safe-state cause ends BIST_RUN KIND 1 (R410). -/
def Core.bistAbort (c : Core) : Core :=
  if c.bist.inPlace.isNone then c
  else (c.bistIncomplete [30, 31, 32, 33, 34]).bistRelease stFAULT_ACTIVE (words [c.unackedA])

end Sys2Proof.Machine
end

