-- ==== Sys2Proof/Machine/Protect.lean ====
section
/-! DEFINITION. Protection in the MODULATION island (R120 to R135, R150 to R157): soft and hard trips, blanking,
exclusion, budgets and retirement, the comparator self-test, PROTECTION_SET, and the HEALTH and ACK records. -/
namespace Sys2Proof.Machine

/-! ### Blanking (R124, R125) -/

/-- Gate times of the first on-steps of a leg (R124): 001 or 101 after an off code, or what stands in its place where the
pre-charge is 0 (R103); the 111 that FORCE_SHORT sends (R138) is none. (DEDUCED log 194) -/
def onStarts : List (Nat × Nat) → List Nat
  | [] => []
  | x :: t => match t with
    | [] => []
    | y :: _ => if offCode x.2 && !offCode y.2 && y.2 != 7 then y.1 :: onStarts t else onStarts t

/-- The flags of a leg are blanked at a far-end sample time (R124). -/
def Core.blanked (c : Core) (h t : Nat) : Bool :=
  let d := 2 * c.getF (PRT_HB_CFG.BLANK h)
  (onStarts (c.hb h).tl).any (fun a => decide (a ≤ t ∧ t < a + d))

/-- The windows of a string's scheduled changes from a gate time on (R125). (DEDUCED log 44) -/
def Core.scheduleWins (c : Core) (s from_ : Nat) : Core :=
  if c.flag (PRT_XB_CFG.EN s) then
    let pre := 2 * c.getF (PRT_XB_CFG.PRE s)
    let post := 2 * c.getF (PRT_XB_CFG.POST s)
    let times := (c.members s).flatMap (fun n => [2 * n, 2 * n + 1].flatMap (fun h => onOffChanges from_ (c.hb h).tl))
    (sortBy (fun a b => decide (a ≤ b)) times).foldl (fun a g => a.openWin s (g - pre) (g + post)) c
  else c

/-- The flags of a string are masked at a far-end sample time. -/
def Core.masked (c : Core) (s t : Nat) : Bool := (c.xb s).wins.any (fun w => decide (w.1 ≤ t ∧ t < w.2.1))

/-- R126: a merged window reaches XB_MAX and is closed. (DEDUCED log 44) -/
def execXblankOverrun (s : Fin 6) (st : State) : Res :=
  go (fun c _ =>
    let x := c.xb s.val
    match x.wins.find? (fun w => w.2.2 == 1 && decide (w.2.1 ≤ c.now)) with
    | none => c
    | some w =>
      let c1 := c.setXb s.val { x with wins := x.wins.map (fun v => if v = w then (w.1, w.2.1, 2) else v) }
      ((c1.bump (PRT_STR_STAT.OVERRUNS s.val) 1).event PRT_EVENT.XBLANK_OVERRUN).raise .xblankOverrun s.val
        [s.val] false) st

/-! ### Trips (R121, R127 to R135) -/

/-- The apply point of the present period on the time base (R21). -/
def Core.applyAt (c : Core) : Nat := c.modu.start + c.getF MOD_TIMING.APPLY * 25 / 2

/-- EXCL_PERIODS in force. -/
def Core.exclPeriods (c : Core) : Nat := max 1 (c.getF PRT_EXCL_CFG.EXCL_PERIODS)

/-- The cell of a trip is left out of the dispatch at the first apply point after the decision (R128). (DEDUCED log 151) -/
def Core.exclude (c : Core) (n : Nat) : Core :=
  let q := if c.now < c.applyAt then c.modu.period + 1 else c.modu.period + 2
  c.modCell n (fun x => { x with
    exclSince := some (match x.exclSince, x.excl with
      | some a, some b => if a ≤ q ∧ q ≤ b then a else q
      | _, _ => q)
    excl := some (q + c.exclPeriods) })

/-- R128: the exclusion ends. -/
def execExclusionEnd (c : Fin 128) (s : State) : Res :=
  go (fun k _ =>
    match (k.cell c.val).excl with
    | some b => if b ≤ k.modu.period then k.modCell c.val (fun x => { x with excl := none, exclSince := none }) else k
    | none => k) s

/-- The half-bridge's own part of a trip: registers, hold, trip times (R127, R130). -/
def Core.recordTrip (c : Core) (h mask kind t : Nat) : Core :=
  let b := c.hb h
  let c1 := ((c.setF PRT_LAST_TRIP.HB h).setF PRT_LAST_TRIP.MASK mask).setF PRT_LAST_TRIP.KIND kind
  let c2 := (c1.bump PRT_LAST_TRIP.COUNT 1).setReg PRT_LAST_TRIP_TIME.a (BitVec.ofNat 32 t)
  let c3 := (c2.setF (PRT_HB_STAT.LAST_MASK h) mask).setF (PRT_HB_STAT.LAST_KIND h) kind
  let c4 := c3.bump (PRT_HB_STAT.TRIPS h) 1
  let c5 := c4.setReg (PRT_HB_TRIP_T.a h) (BitVec.ofNat 32 t)
  let c6 := if c.role (h / 2) = 1 then c5.bump (PRT_STR_STAT.TRIPS (c.strOf (h / 2))) 1 else c5
  c6.setHb h { b with trips := (t :: b.trips).take 4, tripT := t }

/-- The leg of a trip goes to 100 and is held (R111, R121, R127). Under FORCE_SHORT a soft trip changes no gate code, and
holds nothing (R135). (DEDUCED log 195) -/
def Core.holdLeg (c : Core) (h : Nat) (soft : Bool) : Core :=
  if soft && decide (2 ≤ c.getF SAF_STATUS.FORCE) then c
  else ((c.forceCode h 4 c.unscheduledAt).modHb h (fun b => { b with held := true })).setF (PRT_HB_STAT.STATE h) 1

/-- R131, R133: a cell is retired for a trip of half-bridge `h`; `both` holds both legs in 100. (DEDUCED log 47) -/
def Core.retire (c : Core) (h reason : Nat) (both : Bool) : Core :=
  let n := h / 2
  if (c.cell n).gone then c
  else
    let o := if h % 2 = 0 then h + 1 else h - 1
    let serial := (c.lane n).serial
    let trips := (c.hb h).trips
    let c1 := (c.event PRT_EVENT.HB_RETIRED).raise .hbRetired h [h, n, reason] true
    let low := !both && c1.laneState n == 2 && !c1.flag (LNK_LANE_STATUS.BYPASS_CLOSED n)
    let c2 := c1.modCell n (fun x => { x with
      adm := .retired, gone := true, legHold := if low then (if h % 2 = 0 then 2 else 1) else 0 })
    let c3 := (c2.holdLeg h false).setF (PRT_HB_STAT.STATE h) 2
    let c4 := if low then (c3.resumeHold n).modHb o (fun b => { b with held := true }) else c3.holdLeg o false
    let c5 := (if both then c4.setF (PRT_HB_STAT.STATE o) 2 else c4).startBypass n
    let c6 := if both then c5.charEntry 2 n 2 serial trips else c5.charEntry 0 h reason serial trips
    c6.retireRecord n

/-- R130: the trip just recorded is permanent by the budget. (DEDUCED log 46) -/
def Core.overBudget (c : Core) (h : Nat) : Bool :=
  match (c.hb h).trips with
  | [t, _, _, u] => decide (t ≤ u + 100000000)
  | _ => false

/-- R134: string escalation of a decided trip. -/
def Core.escalate (c : Core) (h t : Nat) : Core :=
  if c.role (h / 2) ≠ 1 then c else
  let s := c.strOf (h / 2)
  let x := c.xb s
  let l := (x.trips.filter (fun e => e.1 != h && decide (t ≤ e.2 + 100000000))) ++ [(h, t)]
  let k := (l.filter (fun e => decide (t ≤ e.2 + 1000000))).length
  let c1 := (c.setXb s { x with trips := l }).setF (PRT_STR_STAT.RECENT s) (min 7 k)
  if 3 ≤ k then
    ((c1.event (PRT_STR_STAT.FAULT s)).event PRT_EVENT.STRING_FAULT).raiseA .stringFault s [s, k]
  else c1

/-- The other leg of the cell tripped within 1 µs (R133). -/
def Core.bothLegs (c : Core) (h t : Nat) : Bool :=
  match (c.hb (if h % 2 = 0 then h + 1 else h - 1)).trips with
  | u :: _ => decide (t ≤ u + 1000 ∧ u ≤ t + 1000)
  | [] => false

/-- The half-bridge's part of a decided trip: record, hold, exclusion (R121, R127, R128). -/
def Core.tripLeg (c : Core) (h mask kind t : Nat) : Core :=
  ((c.recordTrip h mask kind t).holdLeg h (kind == 0)).exclude (h / 2)

/-- A decided trip of one half-bridge, with retirement (R130, R133) and escalation (R134). -/
def Core.trip (c : Core) (h mask kind t : Nat) : Core :=
  let c1 := c.tripLeg h mask kind t
  let c2 := if c1.bothLegs h t then c1.retire h 2 true
    else if !c1.retryOn h then c1.retire h 3 false
    else if c1.overBudget h then c1.retire h 1 false
    else c1
  c2.escalate h t

/-- One record names switches of both legs (R133): both trip, and the cell is retired at once with both legs in 100. -/
def Core.tripBoth (c : Core) (n mask t : Nat) : Core :=
  let c1 := ((c.tripLeg (2 * n) mask 1 t).tripLeg (2 * n + 1) mask 1 t).retire (2 * n) 2 true
  (c1.escalate (2 * n) t).escalate (2 * n + 1) t

/-- A switch is under self-test (R150). -/
def Core.underTest (c : Core) (n i : Nat) : Bool :=
  match c.prt.test with
  | some x => x.cell == n && bitOf x.mask i
  | none => false

/-- Flags of a cell are evaluated (R122). (DEDUCED log 45) -/
def Core.flagsCount (c : Core) (n : Nat) : Bool := c.role n == 1 && (c.cell n).adm == .admitted

/-- A flag of switch `i` (0 high, 1 low of the left leg, 2 and 3 of the right) is eligible and not masked at a far-end
sample time (R122). -/
def Core.eligible (c : Core) (n i t : Nat) : Bool :=
  let h := 2 * n + i / 2
  let k := classOf (codeAt (c.hb h).tl t)
  (if i % 2 = 0 then k == .h else k == .l) && !c.blanked h t && !c.masked (c.strOf n) t

/-- k of R123. -/
def Core.filterK (c : Core) : Nat := c.getF PRT_TRIP_CFG.FILTER / 8 + 1

/-- R123, R127: a soft trip of switch `sw`: the k upstream characters (R84) from the far-end sample time `run.t` on carry its
flag, each eligible; it is decided 40 ns after the effective arrival of the k-th. (DESIGN CHOICE log 196) -/
def execSoftTrip (sw : Fin 512) (run : UpRun) (s : State) : Res :=
  go (fun c _ =>
    let n := sw.val / 4
    let i := sw.val % 4
    let h := 2 * n + i / 2
    let k := c.filterK
    let t0 := run.t
    if c.flag PRT_CTRL.SOFT_EN ∧ c.flagsCount n ∧ !c.underTest n i ∧ run.chars.length = k ∧ run.chars.all (fun b => (upFields b).flag i)
        ∧ c.now = t0 + 128 + 8 * (k - 1) + 40 ∧ (List.range k).all (fun j => c.eligible n i (t0 + 8 * j)) then
      let c1 := (c.event PRT_EVENT.SOFT_TRIP).raise .softTrip h [h, i, t0] false
      c1.trip h (2 ^ i) 0 t0
    else c) s

/-! ### The comparator self-test (R150, R151) -/

/-- The result fields of a half-bridge's switch (R157): soft and hard. -/
def testField (n i : Nat) (hard : Bool) : Field :=
  let h := 2 * n + i / 2
  if i % 2 = 0 then (if hard then PRT_HB_TEST.HS_HARD h else PRT_HB_TEST.HS_SOFT h)
  else (if hard then PRT_HB_TEST.LS_HARD h else PRT_HB_TEST.LS_SOFT h)

/-- The request of the mode's static pattern (R171). -/
def Core.staticReq (c : Core) : Nat :=
  match c.mode.code with
  | .hold => rqLow
  | .open_ => rqOffWeak
  | .safe => if c.mode.sub = 1 then rqLow else rqOffWeak
  | _ => rqOffStrong

/-- UNTESTED of both half-bridges of a cell follows the results (R151): set by a result 1 to 3, cleared when every switch
of the half-bridge passed in this test. -/
def Core.untested (c : Core) (n : Nat) (mask kind : Nat) : Core :=
  [0, 1].foldl (fun a leg =>
    let sws := [2 * leg, 2 * leg + 1]
    let res := sws.flatMap (fun i =>
      if bitOf mask i then (if kind ≠ 1 then [a.getF (testField n i false)] else []) ++
        (if kind ≠ 0 then [a.getF (testField n i true)] else []) else [])
    let fail := res.any (fun r => r != 0)
    let all := sws.all (fun i => bitOf mask i) && !fail
    let u := (a.cell n).untested
    let u1 := if fail then setBit u leg else if all then clrBit u leg else u
    let b := a.modCell n (fun x => { x with untested := u1 })
    let d := if fail then b.setF (PRT_HB_STAT.STATE (2 * n + leg)) 3
      else if (a.hb (2 * n + leg)).held then b else b.hbNormal (2 * n + leg)
    if fail then (d.event PRT_EVENT.SELFTEST_FAIL).raise .comparatorSelftestFail (2 * n + leg) [2 * n + leg, n] true
    else if all then d.clearCause .comparatorSelftestFail (2 * n + leg) else d) c

/-- The switch after `sw` that the mask selects. -/
def nextSwitch (mask sw : Nat) : Option Nat := [0, 1, 2, 3].find? (fun i => decide (sw ≤ i) && bitOf mask i)

/-- A SELFTEST message for the switch under test: force or release, soft or hard. -/
def Core.sendSelftest (c : Core) (x : SelfTest) (force hard : Bool) : Core :=
  c.queueMsg x.cell 0x42 (x.sw + 4 * b2n force + 8 * b2n hard)

/-- The test of a switch begins, or the test ends with DONE when no switch is left. (DEDUCED log 50) -/
def Core.testFrom (c : Core) (x : SelfTest) (sw : Nat) : Core :=
  match nextSwitch x.mask sw with
  | some i =>
    let hard := x.kind = 1
    let y := { x with sw := i, stage := if hard then 2 else 0, deadline := 0 }
    ({ c with prt := { c.prt with test := some y } }).sendSelftest y true hard
  | none =>
    let c1 := ({ c with prt := { c.prt with test := none } }).untested x.cell x.mask x.kind
    let r := [0, 1, 2, 3].map (fun i => BitVec.ofNat 8
      (if bitOf x.mask i then (if x.kind ≠ 1 then c1.getF (testField x.cell i false) else 4)
        + 8 * (if x.kind ≠ 0 then c1.getF (testField x.cell i true) else 4) else 36))
    c1.reply x.ref stDONE r

/-- The hard result of the switch under test is known: the leg returns to the mode's pattern, the next switch follows.
(DEDUCED log 50) -/
def Core.hardDone (c : Core) (x : SelfTest) (r : Nat) : Core :=
  let h := 2 * x.cell + x.sw / 2
  let c1 := c.setF (testField x.cell x.sw true) r
  let c2 := if (c.hb h).held then c1 else c1.hbNormal h
  (if c.role x.cell = 1 then c2.gateRequest h c.staticReq c.unscheduledAt else c2).testFrom x (x.sw + 1)

/-- The soft result of the switch under test is known. (DEDUCED log 50) -/
def Core.softDone (c : Core) (x : SelfTest) (r : Nat) : Core :=
  let c1 := c.setF (testField x.cell x.sw false) r
  if x.kind = 2 then
    let y := { x with stage := 2, deadline := 0 }
    ({ c1 with prt := { c1.prt with test := some y } }).sendSelftest y true true
  else c1.testFrom x (x.sw + 1)

/-- R150: the bound of a stage has passed; `char` is the upstream character that arrived last by then. (DEDUCED log 50) -/
def execSelftestDeadline (c : Fin 128) (char : Byte) (s : State) : Res :=
  go (fun k _ =>
    match k.prt.test with
    | none => k
    | some x =>
      let flag := (upFields char).flag x.sw
      let l := k.lane x.cell
      let bound := if x.stage ≤ 1 then 1256 else if x.stage = 2 then 3600 else 64000
      let sent : Bool := match l.msg with
        | some d => d.op == 0x42 && !l.resend
        | none => false
      let at_ := if x.deadline ≠ 0 then some x.deadline else if sent && decide (x.stage ≤ 2) then some (l.msgEnd - 8 + bound) else none
      let setTest (k : Core) (y : SelfTest) : Core := { k with prt := { k.prt with test := some y } }
      if x.cell ≠ c.val then k
      else if l.tries = 4 then
        if x.stage ≤ 1 then k.softDone { x with kind := x.kind } 3 else k.hardDone x 3
      else match at_ with
      | none => k
      | some t =>
        if k.now < t then k
        else match x.stage with
        | 0 =>
          let y := { x with stage := 1, deadline := 0, results := [b2n flag] }
          (setTest k y).sendSelftest y false false
        | 1 => k.softDone x (if x.results.headD 0 = 0 then 1 else if flag then 2 else 0)
        | 2 =>
          let y := { x with stage := 5, deadline := 0 }
          ((setTest k y).sendSelftest y false true).hardDone x 1
        | 4 => k.hardDone x 2
        | _ => k) s

/-- The HARD_TRIP record of a switch under test (R150). -/
def Core.testTripped (c : Core) (x : SelfTest) : Core :=
  let y := { x with stage := 3, deadline := 0 }
  let c1 := ({ c with prt := { c.prt with test := some y } }).forceCode (2 * x.cell + x.sw / 2) 4 c.unscheduledAt
  (c1.sendSelftest y false true).queueMsg x.cell 0x41 (2 ^ x.sw)

/-! ### Hard trips (R121) -/

/-- R121, R133: a HARD_TRIP record whose first slot starts at gate time `t`. -/
def execHardTripRecord (l : Fin 128) (p : BitVec 24) (t : Nat) (s : State) : Res :=
  go (fun c _ =>
    let n := l.val
    let w := p.toNat
    let sws := bitsOf w 20 4
    let latch := bitsOf w 16 4
    let t0 := t - 8 * bitsOf w 0 16
    let c0 := (c.event (LNK_LANE_EVENT.HARD_TRIP n)).setF (LNK_LANE_STATUS.HARD_LATCH n) latch
    let testing := match c.prt.test with
      | some x => x.cell == n && x.stage == 2 && bitOf sws x.sw
      | none => false
    let real := sumN ([0, 1, 2, 3].map (fun i => if bitOf sws i && !c.underTest n i then 2 ^ i else 0))
    if c.laneState n = 0 then c
    else
      let c1 := match c0.prt.test with
        | some x => if testing then c0.testTripped x else c0
        | none => c0
      let latched (a : Core) (g : Nat) := a.modHb (2 * n + g) (fun b => { b with
        hardMask := bitsOf latch (2 * g) 2, clearAt := some (t0 + a.retryMinOff) })
      if real = 0 then c1
      else
        let c2 := c1.event PRT_EVENT.HARD_TRIP
        if real % 4 = 0 then (latched c2 1).trip (2 * n + 1) real 1 t0
        else if real / 4 = 0 then (latched c2 0).trip (2 * n) real 1 t0
        else (latched (latched c2 0) 1).tripBoth n real t0) s

/-- R129: TRIP_CLEAR is sent once RETRY_MIN_OFF has elapsed. -/
def execRetryMinOffElapsed (h : Fin 256) (s : State) : Res :=
  go (fun c _ =>
    let b := c.hb h.val
    match b.clearAt with
    | some t =>
      if b.held ∧ b.hardMask ≠ 0 ∧ c.retryOn h.val ∧ t ≤ c.now ∧ !(c.cell (h.val / 2)).gone then
        (c.queueMsg (h.val / 2) 0x41 (b.hardMask * 4 ^ (h.val % 2))).modHb h.val (fun b => { b with clearAt := none })
      else c
    | none => c) s

/-! ### ACK and HEALTH records -/

/-- A refused TRIP_CLEAR counts as a trip toward the budget, and is sent again after RETRY_MIN_OFF (R129). (DEDUCED log 46) -/
def Core.clearRefused (c : Core) (h : Nat) : Core :=
  let c1 := (c.recordTrip h (2 ^ (2 * (h % 2))) 1 c.now).modHb h (fun b => { b with clearAt := some (c.now + c.retryMinOff) })
  if !c1.retryOn h then c1.retire h 3 false else if c1.overBudget h then c1.retire h 1 false else c1

/-- A refusal reaches the hearth (R82). (DESIGN CHOICE log 197) -/
def Core.reportRefusal (c : Core) (l op status : Nat) : Core :=
  c.modLane l (fun x => { x with refused := (x.refused.1 + 1, op, status) })

/-- What an answered message does (R82, R129, R150). -/
def Core.acked (c : Core) (l : Nat) (d : DnMsg) (status : Nat) : Core :=
  let legs := (if d.arg % 4 ≠ 0 then [2 * l] else []) ++ (if d.arg / 4 % 4 ≠ 0 then [2 * l + 1] else [])
  let testing := match c.prt.test with
    | some x => if x.cell = l ∧ (d.op ≠ 0x41 ∨ (d.arg = 2 ^ x.sw ∧ !bitOf (c.hb (2 * l + x.sw / 2)).hardMask (x.sw % 2))) then some x
      else none
    | none => none
  match d.op, status with
  | 0x81, 0 => (c.setF (LNK_LANE_STATUS.PAD_ACKED l) 1).setF (LNK_LANE_PAD.DN_PAD l) (d.arg % 1024)
  | 0x41, 0 =>
    let c1 := legs.foldl (fun a h => a.modHb h (fun b => { b with
      hardMask := (List.range 2).foldl (fun m i => if bitOf d.arg (2 * (h % 2) + i) then clrBit m i else m) b.hardMask })) c
    match testing with
    | some x => if x.stage = 3 then
        { c1 with prt := { c1.prt with test := some { x with stage := 4, deadline := c.now + 64000 } } } else c1
    | none => c1
  | 0x41, _ => match testing with
    | some x => if x.stage = 3 then c.hardDone x 2 else c
    | none => legs.foldl (fun a h => if (a.hb h).held then a.clearRefused h else a) c
  | 0x42, _ => match testing with
    | some x => if x.stage ≤ 2 then
        let bound := if x.stage ≤ 1 then 1256 else 3600
        { c with prt := { c.prt with test := some { x with deadline := (c.lane l).msgEnd - 8 + bound } } } else c
    | none => c
  | 0x82, 0 => { c with tlm := { c.tlm with
      thrForce := mapSet (fun _ => 0) c.tlm.thrForce (2 * (4 * l + d.arg / 2 ^ 14)) (d.arg % 4096 + 1) } }
  | 0x84, 0 => { c with tlm := { c.tlm with
      thrForce := mapSet (fun _ => 0) c.tlm.thrForce (2 * (4 * l + d.arg / 2 ^ 14) + 1) (d.arg % 4096 + 1) } }
  | 0x85, 0 => { c with tlm := { c.tlm with far := mapSet (fun _ => 0) c.tlm.far l d.arg } }
  | _, _ => c

/-- R82: an ACK record. (DEDUCED log 46) -/
def execAckRecord (l : Fin 128) (p : BitVec 24) (s : State) : Res :=
  go (fun c _ =>
    let x := c.lane l.val
    let w := p.toNat
    let status := bitsOf w 0 8
    match x.msg with
    | none => c
    | some d =>
      if d.op ≠ bitsOf w 16 8 ∨ x.msgCrc ≠ bitsOf w 8 8 ∨ x.resend ∨ x.tries = 4 then c
      else if status = 3 then c.attemptFailed l.val
      else
        let c1 := (c.endMsg l.val).acked l.val d status
        if status = 0 then c1 else c1.reportRefusal l.val d.op status) s

/-- The contactor of a cell is reported closed (R96, R131, R132). (DEDUCED log 48) -/
def Core.contactorClosed (c : Core) (n : Nat) : Core :=
  let x := c.cell n
  let c1 := c.modCell n (fun x => { x with bcOn := false, unconf := false, legHold := 0 })
  let c2 := ((c1.clearCause .bypassUnconfirmed n).endCause .bypassFailed n).endCause .cellOvervoltageUnbypassed n
  if x.legHold ≠ 0 then (c2.forceCode (2 * n + (x.legHold - 1)) 4 c.unscheduledAt) else c2

/-- R88: a HEALTH record. -/
def execHealthRecord (l : Fin 128) (p : BitVec 24) (s : State) : Res :=
  go (fun c _ =>
    let n := l.val
    let code := bitsOf p.toNat 16 8
    let v := bitsOf p.toNat 0 16
    if c.laneState n ≠ 1 ∧ c.laneState n ≠ 2 ∧ c.laneState n ≠ 4 then c
    else
      let c0 := c.modLane n (fun x => { x with
        health := mapSet (fun _ => 0) x.health code v, seen := setBit x.seen code })
      match code with
      | 1 =>
        let c1 := c0.setFlag (LNK_LANE_STATUS.BYPASS_CLOSED n) (v == 1)
        if v = 1 then c1.contactorClosed n
        else if v = 0 then c1.modCell n (fun x => { x with boOn := false }) else c1
      | 2 =>
        let c1 := c0.setF (LNK_LANE_STATUS.HARD_LATCH n) v
        match c1.prt.test with
        | some x => if x.cell = n ∧ x.stage = 4 ∧ !bitOf v x.sw then c1.hardDone x 0 else c1
        | none => c1
      | 3 => c0.laneError n v
      | 4 => c0.laneError n v
      | 5 => c0.latency n
      | 6 => c0.latency n
      | 7 => c0.latency n
      | 9 => c0.setF (LNK_LANE_STATUS.FAR_ROLE n) v
      | 10 => if v = 0 then c0 else c0.event (LNK_LANE_EVENT.PROTOCOL_ERROR n)
      | _ => c0) s

/-- CELL_OVERVOLTAGE_UNBYPASSED at data-ready (R132). -/
def Core.overvoltage (c : Core) : Core :=
  c.mappedCells.foldl (fun a n =>
    if (a.cell n).unconf ∧ a.laneState n = 2 ∧ (a.cellVal n).valid ∧ a.map.vMax < (a.cellVal n).v then
      (a.event PRT_EVENT.CELL_OV_UNBYPASSED).bypassAlarm .cellOvervoltageUnbypassed n [n, dI (a.cellVal n).v]
    else a) c

/-! ### Threshold codes (R153, R387) -/

/-- A valid auxiliary value of a cell: taken in the last two auxiliary cycles, 524.288 µs (R186, R187). -/
def Core.auxNow (c : Core) (n k : Nat) : Option Int :=
  match (c.cellVal n).aux.getD k none with
  | some (x, t) => if c.now ≤ t + 524288 then some x else none
  | none => none

/-- The threshold code of a switch (R387): `i` = 4 × cell + switch index, `hard` picks the comparator. -/
def Core.thrCode (c : Core) (i : Nat) (hard : Bool) : Nat :=
  let base := mapGet (fun _ => 0) (if hard then c.prt.hard else c.prt.soft) i
  let t := c.forceP 0x02C0
  match c.auxNow (i / 4) (2 + i % 4 / 2) with
  | none => base
  | some x =>
    let tk := i16 t (if hard then 26 else 24)
    (clampI 0 4095 ((base : Int) + rne (tk * (x - i16 t 28)) 25600)).toNat

/-- A threshold message is queued when the code differs by `d` or more from the one in force. (DEDUCED log 138) -/
def Core.trackSwitch (c : Core) (i : Nat) (hard : Bool) (d : Nat) : Core :=
  let code := c.thrCode i hard
  let inForce := mapGet (fun _ => 0) c.tlm.thrForce (2 * i + b2n hard)
  if c.laneState (i / 4) = 2 ∧ (inForce = 0 ∨ d ≤ (((code : Int) + 1) - inForce).natAbs) then
    c.queueMsg (i / 4) (if hard then 0x84 else 0x82) (i % 4 * 2 ^ 14 + code)
  else c

/-! ### PROTECTION_SET, PROTECTION_GET (R153, R154) -/

/-- The timer channels that the enabled cross-blank windows name belong to protection (R125, R175). -/
def Core.ownTimers (c : Core) : Core :=
  (List.range 64).foldl (fun a t => a.setFlag (MOD_TCH_CFG.OWNER t) ((List.range 6).any (fun s =>
    c.flag (PRT_XB_CFG.EN s) && c.getF (PRT_XB_CFG.TCH s) == t))) c

/-- The settings of a PROTECTION_SET payload. -/
def Core.loadProtection (c : Core) (p : List Byte) : Core :=
  let c1 := ((c.setF PRT_TRIP_CFG.FILTER (u16 p 0)).setF PRT_FORCE_CFG.FORCE_DT (u16 p 2 / 2)).setF
    PRT_TRIP_CFG.RETRY_MIN_OFF (u16 p 4)
  let c2 := ((c1.setF PRT_EXCL_CFG.EXCL_PERIODS (u16 p 6)).setF PRT_EXCL_CFG.XB_MAX (u16 p 8)).setF PRT_CTRL.RETRY_EN
    (u16 p 10)
  let c3 := c2.setF PRT_CTRL.SOFT_EN 1
  let c4 := (List.range 6).foldl (fun a s =>
    let o := 16 + 8 * s
    (((a.setF (PRT_XB_CFG.EN s) (u8 p o)).setF (PRT_XB_CFG.TCH s) (u8 p (o + 1))).setF (PRT_XB_CFG.PRE s)
      (u16 p (o + 2) / 2)).setF (PRT_XB_CFG.POST s) (u16 p (o + 4) / 2)) c3
  let c5 := c4.ownTimers
  let c6 := (List.range 256).foldl (fun a h =>
    (a.setF (PRT_HB_CFG.BLANK h) (u16 p (64 + 4 * h) / 2)).setF (PRT_HB_CFG.RETRY_EN h) (u8 p (66 + 4 * h))) c5
  let thr (k : Nat) := (List.range 512).foldl (fun m i => mapSet (fun _ => 0) m i (u16 p (1088 + 4 * i + k))) []
  let c7 := { c6 with prt := { c6.prt with soft := thr 0, hard := thr 2 } }
  (List.range 512).foldl (fun a i => (a.trackSwitch i false 1).trackSwitch i true 1) c7

/-- The least FORCE_DT of R139, in ns, for the profiles in force. -/
def Core.forceDtMin (c : Core) : Nat :=
  (List.range 256).foldl (fun m h =>
    let k := c.getF (GDP_HB_CFG.SET h)
    let dt := max (c.getF (GDP_HB_CFG.DT_RISE h)) (c.getF (GDP_HB_CFG.DT_FALL h))
    let x := 4 * 2 * c.getF (GDP_SET_OFF.T_PC k) + 5 * 2 * (c.getF (GDP_SET_OFF.T_PL k) + dt)
    max m (2 * ceilDiv x 8)) 0

/-- The checks of R154. (DEDUCED log 41) -/
def Core.protectionChecks (c : Core) (p : List Byte) : Option Fail :=
  let ss := List.range 6
  let hs := List.range 256
  let range (o lo hi : Nat) := decide (lo ≤ u16 p o ∧ u16 p o ≤ hi)
  let even (o : Nat) := decide (u16 p o % 2 = 0)
  let enabled := ss.filter (fun s => u8 p (16 + 8 * s) == 1)
  let tch (s : Nat) := u8 p (17 + 8 * s)
  firstFail
    [chkAt 1 (lowest [firstBad [10] (fun _ => decide (u16 p 10 < 2)),
       firstNonZero p 12 4, firstBad (ss.map (fun s => 16 + 8 * s)) (fun o => decide (u8 p o < 2)),
       firstBad (ss.map (fun s => 22 + 8 * s)) (fun o => u16 p o == 0),
       firstBad (hs.map (fun h => 66 + 4 * h)) (fun o => decide (u8 p o < 2)),
       firstBad (hs.map (fun h => 67 + 4 * h)) (fun o => u8 p o == 0)]),
     chkAt 2 (firstBad [0, 4, 6, 8] (fun o => if o = 0 then range 0 0 255 else if o = 4 then range 4 1 1000
       else if o = 6 then range 6 1 65535 else range 8 500 20000)),
     chk 3 2 (even 2 && range 2 40 4094 && decide (c.forceDtMin ≤ u16 p 2)),
     chkAt 4 (firstBad (ss.flatMap (fun s => [18 + 8 * s, 20 + 8 * s]) ++ hs.map (fun h => 64 + 4 * h)) (fun o =>
       even o && decide (u16 p o ≤ (if 64 ≤ o then 4094 else if o % 8 = 2 then 510 else 1022)))),
     chkAt 5 ((enabled.find? (fun s => decide (63 < tch s) || enabled.any (fun r => decide (r < s) && tch r == tch s)
       || (c.getF (MOD_TCH_CFG.CNT_MODE (tch s)) != 0 && !c.flag (MOD_TCH_CFG.OWNER (tch s))))).map (fun s => 17 + 8 * s)),
     chkAt 6 (firstBad ((List.range 1024).map (fun i => 1088 + 2 * i)) (fun o => decide (u16 p o ≤ 4095)))]

/-- R153, R154: PROTECTION_SET. -/
def execProtectionSet (m : Msg) (s : State) : Res :=
  go (fun c _ => c.command (setSpec 0x0220 3136) m fun cmd c => c.configure cmd (c.protectionChecks cmd.p)) s

/-- The defaults of PROTECTION_GET (R157, R489). -/
def protectionDefaults : List Byte :=
  le 2 48 ++ le 2 1000 ++ le 2 50 ++ le 2 400 ++ le 2 5000 ++ le 2 1 ++ zeros 4 ++ zeros 48
    ++ (List.range 256).flatMap (fun _ => le 2 1000 ++ le 2 1) ++ zeros 2048

/-- R153: PROTECTION_GET. -/
def execProtectionGet (m : Msg) (s : State) : Res :=
  go (fun c _ => c.command (getSpec 0x0221) m fun cmd c => c.getCfg 0x0220 protectionDefaults cmd) s

end Sys2Proof.Machine
end

