-- ==== Sys2Proof/Machine/Modulator.lean ====
section
/-! DEFINITION. The modulator (R159 to R171): pulses and carries of a string, the stagger of level changes, the requests to
the gate generator; and the timer channels (R172 to R178). -/
namespace Sys2Proof.Machine

/-! ### One string's plan (R161 to R168) -/

/-- What dispatch hands over for a string (R161). -/
structure StrIn where
  sgn : Int
  n : Nat
  fRaw : Nat
  rank : List Nat
  deriving DecidableEq, Repr

/-- The running sums of R168: carry within the period, dropped pulses, shifted pulses, the insertion intervals of each PWM
slot. -/
structure PwmAcc where
  c : Int
  carried : Nat
  shifted : Nat
  iv : List (List (Nat × Nat))
  deriving DecidableEq, Repr

/-- An interval added to slot `i`. -/
def PwmAcc.insert (a : PwmAcc) (i lo hi : Nat) : PwmAcc :=
  if lo < hi then { a with iv := setAt i (a.iv.getD i [] ++ [(lo, hi)]) a.iv } else a

/-- A width `w` placed about a centre and shifted whole into its window (R164). -/
def placePulse (ws tcar centre w : Nat) : Nat × Bool :=
  let lo : Int := (centre : Int) - (w / 2 : Nat)
  let hi := lo + w
  if lo < 0 then (ws, true) else if (tcar : Int) < hi then (ws + tcar - w, true) else (ws + lo.toNat, false)

/-- A pulse of slot `i` in a window (R165, R168). -/
def PwmAcc.pulse (a : PwmAcc) (wMin ws tcar centre i w : Nat) : PwmAcc :=
  if w = 0 then a
  else if w < wMin ∧ 0 < w then { a with c := a.c + w, carried := a.carried + 1 }
  else if tcar < w + wMin ∧ w < tcar then
    ({ a with c := a.c + ((w : Int) - tcar), carried := a.carried + 1 }).insert i ws (ws + tcar)
  else
    let p := placePulse ws tcar centre w
    ({ a with shifted := a.shifted + b2n p.2 }).insert i p.1 (p.1 + w)

/-- A notch of the PWM cell in a window (R166, R168). -/
def PwmAcc.notch (a : PwmAcc) (wMin ws tcar centre w : Nat) : PwmAcc :=
  if w = 0 then a.insert 0 ws (ws + tcar)
  else if w < wMin then ({ a with c := a.c - w, carried := a.carried + 1 }).insert 0 ws (ws + tcar)
  else
    let p := placePulse ws tcar centre w
    (({ a with shifted := a.shifted + b2n p.2 }).insert 0 ws p.1).insert 0 (p.1 + w) (ws + tcar)

/-- One window (R165, R166, R168); `fine` distinguishes FINE from COARSE, `wMin i` is w_min for slot `i`. -/
def pwmWindow (fine : Bool) (tcar ofs p pEff : Nat) (q : Int) (wMin : Nat → Nat) (a : PwmAcc) (j : Nat) : PwmAcc :=
  let ws := j * tcar
  let r0 := q + a.c
  let c1 : Int := if r0 < 0 then r0 else if (tcar : Int) < r0 then r0 - tcar else 0
  let req := (clampI 0 tcar r0).toNat
  let centre (i : Nat) := (ofs + tcar / 2 + i * tcar / p) % tcar
  let a1 := { a with c := c1 }
  if pEff = 0 then { a1 with c := c1 + req }
  else if fine then
    (List.range pEff).foldl (fun b i =>
      b.pulse (wMin i) ws tcar (centre i) i (req / pEff + (if i < req % pEff then 1 else 0))) a1
  else if 2 * req ≤ tcar then a1.pulse (wMin 0) ws tcar (centre 0) 0 req
  else a1.notch (wMin 0) ws tcar (centre 0) (tcar - req)

/-- Intervals that touch become one. -/
def joinIv : List (Nat × Nat) → List (Nat × Nat)
  | [] => []
  | x :: t => match joinIv t with
    | [] => [x]
    | y :: r => if x.2 = y.1 then (x.1, y.2) :: r else x :: y :: r

/-- The plan of a cell that is inserted in some intervals of the period. -/
def planOf (sgn : Int) (tc : Nat) (iv : List (Nat × Nat)) : CellPlan :=
  let l := joinIv iv
  ⟨if (l.headD (1, 1)).1 = 0 then sgn else 0,
   l.flatMap (fun x => (if x.1 = 0 then [] else [(x.1, sgn)]) ++ (if tc ≤ x.2 then [] else [(x.2, 0)]))⟩

/-- w_min of R168 for the leg of a PWM cell that switches. -/
def Core.wMin (c : Core) (n : Nat) (sgn : Int) : Nat :=
  let v := c.gateVals (if 0 ≤ sgn then 2 * n else 2 * n + 1)
  max (2 * c.getF MOD_PULSE_CFG.MIN_PULSE) (max v.tdr v.tdf)

/-- The 10 bits of a number reversed (R460). -/
def rev10 (k : Nat) : Nat := (List.range 10).foldl (fun a i => a + k / 2 ^ i % 2 * 2 ^ (9 - i)) 0

/-- PHASE_OFS of a string with the interleave of a plant (R164, R460). -/
def Core.phaseOfs (c : Core) (s tcar : Nat) : Nat :=
  let o := c.getF (MOD_STR_CFG.PHASE_OFS s)
  if c.flag PAI_CTRL.PLANT_EN then (o + rev10 (c.getF PAI_CTRL.INDEX) * tcar / 1024) % tcar else o

/-- The plan of a string for the next period, and its carry, dropped and shifted counts. -/
def Core.stringPlan (c : Core) (s mode : Nat) (x : StrIn) : StrPlan × List (Nat × CellPlan) × Int × Nat × Nat :=
  let tc := c.tc
  let carry := c.getI (MOD_STR_CARRY.CARRY s)
  let c0 := x.sgn * carry
  let u := x.rank.length
  let whole (k : Nat) : List (Nat × CellPlan) :=
    (x.rank.take k).map (fun n => (n, planOf x.sgn tc [(0, tc)])) ++ (x.rank.drop k).map (fun n => (n, ⟨0, []⟩))
  if mode = 2 then
    let q := rne (x.fRaw * tc) 32768
    let y := q + c0
    let lev := (y + (tc / 2 : Nat)) / (tc : Int)
    let n := (clampI 0 u ((x.n : Int) + lev)).toNat
    (⟨x.sgn, n, x.rank, []⟩, whole n, x.sgn * (y - ((n : Int) - x.n) * tc), 0, 0)
  else
    let k := c.getF (MOD_STR_CFG.K s) + 1
    let p := c.getF (MOD_STR_CFG.P s) + 1
    let tcar := tc / k
    let avail := x.rank.drop x.n
    let pEff := min (if mode = 0 then p else 1) avail.length
    let q := rne (x.fRaw * tcar) 32768
    let a := (List.range k).foldl
      (pwmWindow (mode == 0) tcar (c.phaseOfs s tcar) p pEff q (fun i => c.wMin (avail.getD i 0) x.sgn))
      ⟨c0, 0, 0, List.replicate pEff []⟩
    let pwm := avail.take pEff
    let plans := (whole x.n).filter (fun e => !pwm.contains e.1)
      ++ (pwm.zip a.iv).map (fun e => (e.1, planOf x.sgn tc e.2))
    (⟨x.sgn, x.n, x.rank, pwm⟩, plans, x.sgn * a.c, a.carried, a.shifted)

/-- R168 for one string: its plan enters the update set, its carry and counts the registers. -/
def Core.planString (c : Core) (mode s : Nat) (x : StrIn) (u : UpdateSet) : Core × UpdateSet :=
  let r := c.stringPlan s mode x
  let tc : Int := c.tc
  let carry := clampI (-tc) tc r.2.2.1
  let c1 := (c.setI (MOD_STR_CARRY.CARRY s) carry).bump (MOD_STR_STAT.CARRIED s) r.2.2.2.1
  let c2 := c1.bump (MOD_STR_STAT.SHIFTED s) r.2.2.2.2
  let c3 := if carry = r.2.2.1 then c2 else c2.event MOD_EVENT.CARRY_SAT
  let c4 := if r.2.2.2.1 = 0 then c3 else c3.event MOD_EVENT.PULSE_CARRIED
  let c5 := if r.2.2.2.2 = 0 then c4 else c4.event MOD_EVENT.PULSE_SHIFTED
  (c5, { u with
    strs := setAt s (some r.1) u.strs
    plans := r.2.1.foldl (fun m e => mapSet (fun _ => (⟨0, []⟩ : CellPlan)) m e.1 e.2) u.plans })

/-! ### The period-start sequence (R169) -/

/-- Contribution of a plan at an offset. -/
def CellPlan.at (p : CellPlan) (t : Nat) : Int := p.ev.foldl (fun a e => if e.1 ≤ t then e.2 else a) p.c0

/-- Level-ns of a plan up to an offset. -/
def CellPlan.area (p : CellPlan) (upTo : Nat) : Int :=
  let r := p.ev.foldl (fun (a : Int × Nat × Int) e =>
    let t := min e.1 upTo
    (a.1 + a.2.2 * ((t : Int) - a.2.1), t, e.2)) (0, 0, p.c0)
  r.1 + r.2.2 * ((upTo : Int) - r.2.1)

/-- STAGGER in ns (R169, R179). -/
def Core.stagger (c : Core) : Nat := 2 * max 100 (c.getF MOD_PULSE_CFG.STAGGER)

/-- The removal and insertion lists of a string (R169): `old` gives the contribution at the end of the period. -/
def staggerLists (old : Nat → Int) (new : Nat → Int) (members rank excl : List Nat) : List Nat × List Nat :=
  let leaves (n : Nat) : Bool := old n != 0 && new n != old n && !excl.contains n
  let enters (n : Nat) : Bool := new n != 0 && new n != old n && !excl.contains n
  ((members.filter (fun n => leaves n && !rank.contains n)) ++ (rank.reverse.filter leaves), rank.filter enters)

/-- What a cell does in the period once its level changes are staggered: the old state until its removal slot, bypass until
its insertion slot, its plan from there. A slot beyond Tc / 2 is not used. (DEDUCED log 40) -/
def staggered (old : Int) (p : CellPlan) (rem ins : Option Nat) (limit : Nat) : CellPlan × Bool :=
  let late (t : Option Nat) : Bool := match t with
    | some x => decide (limit < x)
    | none => false
  let from_ (t : Nat) (before : CellPlan) : CellPlan :=
    ⟨before.c0, before.ev.filter (fun e => decide (e.1 < t)) ++ [(t, p.at t)] ++ p.ev.filter (fun e => decide (t < e.1))⟩
  match rem, ins with
  | none, none => (p, false)
  | some r, none => if late rem then (⟨old, []⟩, true) else (from_ r ⟨old, []⟩, false)
  | none, some i => if late ins then (⟨old, []⟩, true) else (from_ i ⟨old, []⟩, false)
  | some r, some i =>
    if late rem || late ins then (⟨old, []⟩, true) else (from_ i ⟨old, [(r, 0)]⟩, false)

/-- The requests of a leg pair for a contribution (R159). -/
def legReqs (x : Int) : Nat × Nat := if 0 < x then (rqHigh, rqLow) else if x < 0 then (rqLow, rqHigh) else (rqLow, rqLow)

/-- The requests of a cell over a period that starts at `t0`: the legs whose request changes, and both at the first offset
of a period whose predecessor was static. -/
def Core.cellRequests (c : Core) (n t0 : Nat) (old : Int) (p : CellPlan) (fresh : Option Nat) : Core :=
  let ev := (if p.c0 = old then [] else [(0, p.c0)]) ++ p.ev
  let ask (c : Core) (leg t r : Nat) : Core := c.gateRequest (2 * n + leg) r (t0 + t)
  let r := ev.foldl (fun (a : Core × Int) e =>
    let x := legReqs a.2
    let y := legReqs e.2
    let c1 := if x.1 = y.1 ∨ fresh.any (fun f => decide (e.1 ≤ f)) then a.1 else ask a.1 0 e.1 y.1
    (if x.2 = y.2 ∨ fresh.any (fun f => decide (e.1 ≤ f)) then c1 else ask c1 1 e.1 y.2, e.2))
    (match fresh with
      | none => (c, old)
      | some f =>
        let y := legReqs (p.at f)
        (ask (ask c 0 f y.1) 1 f y.2, old))
  r.1

/-- What `Modu.cells` holds for a cell that a static pattern left and no slot has taken yet. -/
def cellStatic : Int := 2

/-- R169 for one string whose plan stands in the update set: stagger, requests, carry; `count` is false while a set is
repeated (R171). -/
def Core.startString (c : Core) (s t0 : Nat) (u : UpdateSet) (count fresh : Bool) (excl : List Nat) : Core × Bool :=
  match u.strs.getD s none with
  | none => (c, false)
  | some sp =>
    let still (n : Nat) : Bool := fresh || mapGet (fun _ => 0) c.modu.cells n == cellStatic
    let old (n : Nat) : Int := if still n then 0 else mapGet (fun _ => 0) c.modu.cells n
    let plan (n : Nat) : CellPlan := mapGet (fun _ => (⟨0, []⟩ : CellPlan)) u.plans n
    let members := (c.members s).filter (fun n => (c.cell n).adm == .admitted && !excl.contains n)
    let l := staggerLists old (fun n => (plan n).c0) members sp.rank excl
    let prev := match c.modu.force.strs.getD s none with
      | some p => p.sgn
      | none => sp.sgn
    let st := c.stagger
    let slot (l : List Nat) (n base : Nat) : Option Nat := (l.findIdx? (· == n)).map (fun k => (base + k) * st)
    let insBase := if prev = sp.sgn then 0 else l.1.length
    members.foldl (fun (a : Core × Bool) n =>
      let rem := slot l.1 n 0
      let ins := slot l.2 n insBase
      let e := staggered (old n) (plan n) rem ins (a.1.tc / 2)
      let first := match rem, ins with
        | some r, _ => r
        | none, some i => i
        | none, none => 0
      let c1 := if e.2 then a.1 else a.1.cellRequests n t0 (old n) e.1 (if still n then some first else none)
      let c2 := if count then c1.addCarry n ((plan n).area a.1.tc - e.1.area a.1.tc) else c1
      let end_ := if e.2 && still n then cellStatic else e.1.at a.1.tc
      let c3 := { c2 with modu := { c2.modu with cells := mapSet (fun _ => 0) c2.modu.cells n end_ } }
      (c3, a.2 || e.2)) (c, false)

/-- Excluded string members are requested LOW on both legs at slot 0 (R128, R169). (DEDUCED log 151) -/
def Core.bypassExcluded (c : Core) (t0 : Nat) (excl : List Nat) : Core :=
  excl.foldl (fun a n =>
    let b := (a.gateRequest (2 * n) rqLow t0).gateRequest (2 * n + 1) rqLow t0
    { b with modu := { b.modu with cells := mapSet (fun _ => 0) b.modu.cells n 0 } }) c

/-- String members that R128 excludes in a period, admitted and not retired. (DEDUCED log 151) -/
def Core.excludedCells (c : Core) (q : Nat) : List Nat :=
  c.allMembers.filter (fun n => c.excludedAt n q && (c.cell n).adm == .admitted && !(c.cell n).gone)

/-- The static pattern of R171 on every string member that is admitted. -/
def Core.staticPattern (c : Core) (req t0 : Nat) : Core :=
  let c1 := c.allMembers.foldl (fun a n =>
    if (a.cell n).adm = .admitted ∧ !(a.cell n).gone ∧ !(a.cell n).boOn then
      (a.gateRequest (2 * n) req t0).gateRequest (2 * n + 1) req t0
    else a) c
  let c2 := (List.range 6).foldl (fun a s => a.setF (MOD_STR_CARRY.CARRY s) 0) c1
  { c2 with modu := { c2.modu with cells := [] } }

/-! ### Timer channels (R172 to R175) -/

/-- Applied value `i` of a channel: PERIOD, CMP_A, CMP_B, PRESC. -/
def Tch.val (x : Tch) (i : Nat) : Nat := x.applied.getD i 0

/-- Counting mode in force: 0 stopped, 1 up, 2 up-down. (DEDUCED log 42) -/
def Core.tchMode (c : Core) (n : Nat) : Nat := let m := c.getF (MOD_TCH_CFG.CNT_MODE n); if m = 3 then 0 else m

/-- The counter of a channel at a time, and whether it counts down. -/
def Core.tchCount (c : Core) (n t : Nat) : Nat × Bool :=
  let x := c.tch n
  let p := x.val 0
  let d := t - x.at_
  if c.tchMode n = 0 ∨ p = 0 then (0, false)
  else if c.tchMode n = 1 then ((x.count + d) % p, false)
  else
    let pos := ((if x.down then 2 * p - x.count else x.count) + d) % (2 * p)
    if pos ≤ p then (pos, pos == p) else (2 * p - pos, true)

/-- An event kind of a channel happens at a count (R172). -/
def Core.tchHits (c : Core) (n kind count : Nat) : Bool :=
  let x := c.tch n
  let up := c.tchMode n == 1
  let p := x.val 0
  let reach (v : Nat) : Bool := if up then decide (v < p) else decide (v ≤ p)
  match kind with
  | 0 => count == 0
  | 1 => if up then count + 1 == p else count == p
  | 2 => reach (x.val 1) && count == x.val 1
  | _ => reach (x.val 2) && count == x.val 2

/-- STAT flag of an event kind. -/
def tchStat (n kind : Nat) : Field :=
  match kind with
  | 0 => MOD_TCH_STAT.ZERO n
  | 1 => MOD_TCH_STAT.PERIOD n
  | 2 => MOD_TCH_STAT.CMP_A n
  | _ => MOD_TCH_STAT.CMP_B n

/-- One occurrence of an event: every (PRESC + 1)th sets its flag and pulses its trigger (R173). -/
def Core.tchFire (c : Core) (n kind : Nat) : Core :=
  let x := c.tch n
  if x.fired.getD kind 0 = c.now + 1 then c
  else
    let presc := x.val 3 / 256 ^ kind % 256
    let k := x.pre.getD kind 0
    let x1 := { x with fired := setAt kind (c.now + 1) x.fired, pre := setAt kind (if k < presc then k + 1 else 0) x.pre }
    let c1 := c.setTch n x1
    if k < presc then c1
    else
      let c2 := c1.event (tchStat n kind)
      if bitOf (c2.getF (MOD_TCH_CFG.TRG_EN n)) kind then
        { c2 with modu := { c2.modu with trig := mapSet (fun _ => 0) c2.modu.trig n (c2.now + 1) } }
      else c2

/-- R172, R173: events of a channel; all that fall in the tick fire in it. -/
def execTchEvent (n : Fin 64) (s : State) : Res :=
  go (fun c _ =>
    if c.tchMode n.val = 0 ∨ (c.tch n.val).val 0 = 0 then c
    else
      let k := (c.tchCount n.val c.now).1
      [0, 1, 2, 3].foldl (fun a kind => if a.tchHits n.val kind k then a.tchFire n.val kind else a) c) s

/-- An update set applies (R174): PARTIAL_SET, unreachable compares, prescalers. (DEDUCED log 42) -/
def Core.tchApply (c : Core) (n : Nat) (new : List Nat) : Core :=
  let x := c.tch n
  let p := new.getD 0 0
  let cmpDiff := decide (new.getD 1 0 ≠ x.val 1 ∨ new.getD 2 0 ≠ x.val 2)
  let partial_ := (decide (p ≠ x.val 0) != cmpDiff) && !c.flag (MOD_TCH_CFG.PARTIAL_IGN n)
  let far (v : Nat) : Bool := if c.tchMode n = 2 then decide (p < v) else decide (p ≤ v)
  let c1 := c.setTch n { x with
    pend := none, applied := new, pre := if new.getD 3 0 = x.val 3 then x.pre else [0, 0, 0, 0] }
  let c2 := c1.setF (MOD_TCH_STAT.PENDING n) 0
  let c3 := if partial_ then (c2.event (MOD_TCH_STAT.PARTIAL_SET n)).event MOD_EVENT.PARTIAL_SET else c2
  if far (new.getD 1 0) || far (new.getD 2 0) then c3.event (MOD_TCH_STAT.CMP_UNREACHABLE n) else c3

/-- The update boundary of a channel at the present time, the counter at 0. -/
def Core.tchBoundary (c : Core) (n : Nat) : Core :=
  let c1 := c.setTch n { c.tch n with count := 0, down := false, at_ := c.now }
  match (c.tch n).pend with
  | some l => c1.tchApply n l
  | none => c1

/-- R174: a channel reaches its update boundary. -/
def execTchUpdateBoundary (n : Fin 64) (s : State) : Res :=
  go (fun c _ =>
    let p := (c.tch n.val).val 0
    if c.tchMode n.val ≠ 0 ∧ p ≠ 0 ∧ (c.tchCount n.val c.now).1 = 0 then c.tchBoundary n.val else c) s

/-- Channels with SYNC = 1 at a control period start (R172). -/
def Core.tchSync (c : Core) : Core :=
  (List.range 64).foldl (fun a n =>
    if a.flag (MOD_TCH_CFG.SYNC n) ∧ a.tchMode n ≠ 0 then (a.tchBoundary n).tchFire n 0 else a) c

/-- The shadow of a channel. -/
def Core.tchShadow (c : Core) (n : Nat) : List Nat :=
  [c.getF (MOD_TCH_PERIOD.VALUE n), c.getF (MOD_TCH_CMP_A.VALUE n), c.getF (MOD_TCH_CMP_B.VALUE n),
   (c.reg (MOD_TCH_PRESC.a n)).toNat]

/-- A channel that protection owns (R175). (DEDUCED log 41) -/
def Core.tchOwned (c : Core) (n : Nat) : Bool := c.flag (MOD_TCH_CFG.OWNER n)

/-- The shadow becomes the pending set (R174). -/
def Core.tchCommit (c : Core) (n : Nat) : Core :=
  (c.setTch n { c.tch n with pend := some (c.tchShadow n) }).setF (MOD_TCH_STAT.PENDING n) 1

/-- CNT_MODE written (R172, R174); the value it holds already changes nothing. -/
def Core.tchSetMode (c : Core) (n mode : Nat) : Core :=
  if c.getF (MOD_TCH_CFG.CNT_MODE n) = mode then c else
  let was := c.tchMode n
  let now_ := c.tchCount n c.now
  let c1 := c.setF (MOD_TCH_CFG.CNT_MODE n) mode
  if was = 0 ∧ c1.tchMode n ≠ 0 then
    (c1.setTch n { c1.tch n with count := 0, down := false, at_ := c.now }).tchApply n (c1.tchShadow n)
  else c1.setTch n { c1.tch n with count := if c1.tchMode n = 0 then 0 else now_.1, down := false, at_ := c.now }

/-- R174: COMMIT written. -/
def execTchCommit (n : Fin 64) (s : State) : Res :=
  go (fun c _ => if c.tchOwned n.val then c.event MOD_EVENT.OWNER_DENIED else c.tchCommit n.val) s

/-- R174: CNT_MODE written. -/
def execTchCntModeStart (n : Fin 64) (mode : Fin 4) (s : State) : Res :=
  go (fun c _ => if c.tchOwned n.val then c.event MOD_EVENT.OWNER_DENIED else c.tchSetMode n.val mode.val) s

/-- R178: TIMER_SET. -/
def execTimerSet (m : Msg) (s : State) : Res :=
  go (fun c _ => c.command { op := 0x0232, modes := notOff, len := lenIs 20, expect := 20 } m fun cmd c =>
    let p := cmd.p
    let n := u8 p 0
    match firstFail [chk 1 0 (decide (n < 64) && !c.tchOwned n), chk 2 1 (decide (u8 p 1 < 16)),
      chk 3 2 (decide (u8 p 2 < 16)), chk 4 3 (decide (u8 p 3 < 16)), chk 5 4 (decide (2 ≤ u32 p 4))] with
    | some f => c.badField cmd.ref f
    | none =>
      let c1 := ((c.noteBlob cmd).setReg (MOD_TCH_PERIOD.a n) (BitVec.ofNat 32 (u32 p 4))).setReg (MOD_TCH_CMP_A.a n)
        (BitVec.ofNat 32 (u32 p 8))
      let c2 := (c1.setReg (MOD_TCH_CMP_B.a n) (BitVec.ofNat 32 (u32 p 12))).setReg (MOD_TCH_PRESC.a n)
        (BitVec.ofNat 32 (u32 p 16))
      let c3 := (c2.setF (MOD_TCH_CFG.SYNC n) (u8 p 1 / 4)).setF (MOD_TCH_CFG.PARTIAL_IGN n) (u8 p 1 / 8)
      let c4 := (c3.setF (MOD_TCH_CFG.IRQ_EN n) (u8 p 2)).setF (MOD_TCH_CFG.TRG_EN n) (u8 p 3)
      let start := decide (c.tchMode n = 0) && decide (u8 p 1 % 4 = 1 ∨ u8 p 1 % 4 = 2)
      let c5 := if start then c4.tchSetMode n (u8 p 1 % 4) else (c4.tchCommit n).tchSetMode n (u8 p 1 % 4)
      c5.done cmd.ref) s

/-- R178: TIMER_GET. -/
def execTimerGet (m : Msg) (s : State) : Res :=
  go (fun c _ => c.command { op := 0x0233, modes := notOff, len := lenIs 1, expect := 1 } m fun cmd c =>
    let n := u8 cmd.p 0
    if n < 64 then
      let x := c.tch n
      let cfg := c.getF (MOD_TCH_CFG.CNT_MODE n) + 4 * c.getF (MOD_TCH_CFG.SYNC n) + 8 * c.getF (MOD_TCH_CFG.PARTIAL_IGN n)
      c.reply cmd.ref stDONE (le 1 n ++ le 1 cfg ++ le 1 (c.getF (MOD_TCH_CFG.IRQ_EN n)) ++
        le 1 (c.getF (MOD_TCH_CFG.TRG_EN n)) ++ le 4 (x.val 0) ++ le 4 (x.val 1) ++ le 4 (x.val 2) ++ le 4 (x.val 3))
    else c.badField cmd.ref (1, 0, 0)) s

/-! ### MODULATION_SET and MODULATION_GET (R176, R177) -/

/-- The settings of a MODULATION_SET payload. -/
def Core.loadModulation (c : Core) (p : List Byte) : Core :=
  let c1 := ((c.setF MOD_TC.TC (u32 p 0)).setF MOD_TIMING.SAMPLE_OFS (u16 p 4)).setF MOD_TIMING.APPLY (u16 p 6)
  let c2 := ((c1.setF MOD_MODE_CFG.F1_UP (u16 p 8)).setF MOD_MODE_CFG.F2_UP (u16 p 10)).setF MOD_MODE_CFG.HYST (u8 p 12)
  let c3 := ((c2.setF MOD_CTRL.MODE_LOCK (u8 p 13)).setF MOD_PULSE_CFG.MIN_PULSE (u16 p 14 / 2)).setF
    MOD_PULSE_CFG.STAGGER (u16 p 16 / 2)
  (List.range 6).foldl (fun a s =>
    let o := 20 + 8 * s
    ((a.setF (MOD_STR_CFG.K s) (u8 p o - 1)).setF (MOD_STR_CFG.P s) (u8 p (o + 1) - 1)).setF (MOD_STR_CFG.PHASE_OFS s)
      (u32 p (o + 4))) c3

/-- The checks of R177; `fits` is check 4, whether the schedule in force fits the new window (R22). -/
def modulationChecks (p : List Byte) (fits : Bool) : Option Fail :=
  let tc := u32 p 0
  let ss := List.range 6
  let even (o : Nat) := decide (u16 p o % 2 = 0)
  firstFail
    [chkAt 1 (lowest [firstBad [13] (fun o => decide (u8 p o < 4)), firstNonZero p 18 2,
       firstBad (ss.map (fun s => 22 + 8 * s)) (fun o => u16 p o == 0)]),
     chk 2 0 (decide (12500 ≤ tc ∧ tc ≤ 100000 ∧ tc % 4 = 0)),
     chk 3 6 (decide (u16 p 4 + 96 ≤ u16 p 6 ∧ 25 * u16 p 6 + 12500 ≤ 2 * tc)),
     if fits then none else some (4, 0xFFFFFFFF, 0),
     if 1 ≤ u16 p 8 ∧ u16 p 8 < u16 p 10 ∧ u16 p 10 ≤ 1000 then chk 5 12 (decide (u8 p 12 ≤ 50))
       else some (5, if u16 p 8 = 0 then 8 else 10, 0),
     chkAt 6 (firstBad [14, 16] (fun o => even o && decide (u16 p o ≤ 4094 ∧ (o = 14 ∨ 200 ≤ u16 p o)))),
     chkAt 7 (lowest (ss.map (fun s =>
       let o := 20 + 8 * s
       if !decide (1 ≤ u8 p o ∧ u8 p o ≤ 2) then some o
       else if !decide (1 ≤ u8 p (o + 1) ∧ u8 p (o + 1) ≤ 4) then some (o + 1)
       else if tc / u8 p o ≤ u32 p (o + 4) then some (o + 4) else none)))]

/-- The defaults of MODULATION_GET (R179, R489): K and P of the reset registers are 1. -/
def modulationDefaults : List Byte :=
  le 4 25000 ++ le 2 0 ++ le 2 1200 ++ le 2 150 ++ le 2 400 ++ le 1 10 ++ le 1 0 ++ le 2 100 ++ le 2 200 ++ zeros 2
    ++ (List.range 6).flatMap (fun _ => le 1 1 ++ le 1 1 ++ zeros 6)

/-- R176: MODULATION_GET. -/
def execModulationGet (m : Msg) (s : State) : Res :=
  go (fun c _ => c.command (getSpec 0x0231) m fun cmd c => c.getCfg 0x0230 modulationDefaults cmd) s

end Sys2Proof.Machine
end

