-- ==== Sys2Proof/Machine/Stu.lean ====
section
/-! DEFINITION. The stream translation unit and the DMA channels (R355 to R359, R363). -/
namespace Sys2Proof.Machine

/-- Memory with the writes of the running command. -/
def Core.view (c : Core) (mem : Memory) : Memory := c.memOps.foldl applyMemOp mem

/-! ### Translation (R355) -/

/-- A fault: cause of R340. -/
abbrev Cause := Nat

/-- Where DMA reaches (R33). -/
def dmaReach (a : Nat) (write : Bool) : Bool :=
  match regionOf a with
  | .tcm0 => true
  | .tcm1 => true
  | .sram => true
  | .mbx => true
  | .mram => !write
  | _ => false

/-- A table entry of R355; tables lie in SRAM or tightly coupled memory. -/
def tableEntry (mem : Memory) (a : Nat) : Option Nat :=
  match regionOf a with
  | .tcm0 => some (readWord mem a)
  | .tcm1 => some (readWord mem a)
  | .sram => some (readWord mem a)
  | _ => none

/-- The walk of a page: its level-2 entry, or the cause of the fault. -/
def walk (mem : Memory) (ttb page : Nat) : Except Cause Nat :=
  match tableEntry mem (ttb * 4096 + 4 * (page / 1024)) with
  | none => .error 3
  | some e1 =>
    if e1 % 2 = 0 then .error 1
    else match tableEntry mem (e1 / 4096 * 4096 + 4 * (page % 1024)) with
    | none => .error 3
    | some e2 => if e2 % 2 = 0 then .error 1 else .ok e2

/-- A translation enters the cache of 64; which one it replaces is left open. (DESIGN CHOICE log 122) -/
def Core.cacheXlate (c : Core) (ttb page e : Nat) : Core :=
  let l := c.stu.cache
  if l.length < 64 then { c with stu := { c.stu with cache := l ++ [(ttb, page, e)] } }
  else
    let k := (Config.freeWord c.free).toNat % 64
    { c.fresh with stu := { c.stu with cache := setAt k (ttb, page, e) l } }

/-- The physical address of a stream word, or the cause of its fault. (DEDUCED log 175) -/
def Core.xlate (c : Core) (mem : Memory) (ch a : Nat) (write : Bool) : Core × Except Cause Nat :=
  if !c.flag (STU_CH_CFG.XLATE ch) then (c, if dmaReach a write then .ok a else .error 3)
  else
    let ttb := c.getF (STU_CH_TTB.BASE ch)
    let page := a / 4096
    let use (e : Nat) : Except Cause Nat :=
      if !bitOf e (if write then 2 else 1) then .error 2
      else
        let p := e / 4096 * 4096 + a % 4096
        if dmaReach p write then .ok p else .error 3
    match c.stu.cache.find? (fun x => x.1 == ttb && x.2.1 == page) with
    | some x => (c, use x.2.2)
    | none => match walk mem ttb page with
      | .error k => (c, .error k)
      | .ok e => (c.cacheXlate ttb page e, use e)

/-- R355: FLUSH. -/
def execStuFlush (s : State) : Res :=
  go (fun c _ => { c with stu := { c.stu with cache := [] } }) s

/-! ### Channels (R357, R358) -/

abbrev chIDLE := 0
abbrev chACTIVE := 1
abbrev chFAULTED := 2
abbrev chABORTED := 3

def Core.chState (c : Core) (ch : Nat) : Nat := c.getF (STU_CH_STAT.STATE ch)
def Core.setCh (c : Core) (ch st : Nat) : Core :=
  (c.setF (STU_CH_STAT.STATE ch) st).putBit STU_FAULT_MAP.FAULTED ch (st == chFAULTED)

/-- A channel stops at a faulting word (R358): `side` 0 read, 1 write. -/
def Core.chFault (c : Core) (ch a cause side : Nat) : Core :=
  let c1 := (c.setCh ch chFAULTED).setReg (STU_CH_FAULT_ADDR.a ch) (BitVec.ofNat 32 a)
  let c2 := ((c1.setF (STU_CH_STAT.CAUSE ch) cause).setF (STU_CH_STAT.SIDE ch) side).bump (STU_CH_STAT.FAULTS ch) 1
  let c3 := if cause = 4 then c2.event STU_EVENT.ECC else c2
  { (c3.event STU_EVENT.FAULT) with stu := { c.stu with faultAt := mapSet (fun _ => 0) c.stu.faultAt ch c.now } }

/-- A channel asks for a burst (R357). -/
def Core.requests (c : Core) (ch : Nat) : Bool := c.flag (STU_CH_CFG.EN ch) && c.chState ch == chACTIVE

/-- The channel after `last` among those that request at a priority, in turn. -/
def nextTurn (l : List Nat) (last : Nat) : Option Nat :=
  match l.find? (fun x => decide (last < x)) with
  | some x => some x
  | none => l.head?

/-- The next burst goes to a channel (R357). -/
def Core.granted (c : Core) (ch : Nat) : Bool :=
  let p := c.getF (STU_CH_CFG.PRIO ch)
  let all := (List.range 16).filter (fun k => c.requests k)
  let same := all.filter (fun k => c.getF (STU_CH_CFG.PRIO k) == p)
  c.requests ch && all.all (fun k => decide (c.getF (STU_CH_CFG.PRIO k) ≤ p))
    && nextTurn same (c.stu.last.getD p 0) == some ch

/-- The channel took its turn. -/
def Core.tookTurn (c : Core) (ch : Nat) : Core :=
  { c with stu := { c.stu with last := setAt (c.getF (STU_CH_CFG.PRIO ch)) ch c.stu.last } }

/-- One word of a burst; the channel is FAULTED where the word faults. -/
def Core.dmaWord (c : Core) (mem : Memory) (ch : Nat) (ecc : Option Nat) : Core :=
  if c.chState ch ≠ chACTIVE then c
  else
    let done := c.getF (STU_CH_DONE.VALUE ch)
    let rem := c.getF (STU_CH_REMAIN.VALUE ch)
    let src := (c.getF (STU_CH_SRC.VALUE ch) / 4 * 4 + done) % 2 ^ 32
    let dst := (c.getF (STU_CH_DST.VALUE ch) / 4 * 4 + done) % 2 ^ 32
    if rem = 0 then c.setCh ch chIDLE
    else
      let m := c.view mem
      match c.xlate m ch src false with
      | (c1, .error k) => c1.chFault ch src k 0
      | (c1, .ok ps) =>
        if ecc = some src then c1.chFault ch src 4 0
        else match c1.xlate m ch dst true with
        | (c2, .error k) => c2.chFault ch dst k 1
        | (c2, .ok pd) =>
          let c3 := c2.writeMem pd (readBytes m ps 4)
          let c4 := (c3.setReg (STU_CH_DONE.a ch) (BitVec.ofNat 32 (done + 4))).setReg (STU_CH_REMAIN.a ch)
            (BitVec.ofNat 32 (rem - 4))
          if rem ≤ 4 then c4.setCh ch chIDLE else c4

/-! ### The result buffers of the SAR units (R299) -/

def Core.unit (c : Core) (u : Nat) : SarUnit := mapGet (fun _ => SarUnit.reset) c.cnv.units u
def Core.setUnit (c : Core) (u : Nat) (x : SarUnit) : Core :=
  { c with cnv := { c.cnv with units := mapSet (fun _ => SarUnit.reset) c.cnv.units u x } }

/-- Size of a unit's buffer; 0 while it has none. -/
def Core.bufSize (c : Core) (u : Nat) : Nat :=
  let k := c.getF (CNV_U_DMA_CFG.LOG2SIZE u)
  if 8 ≤ k ∧ k ≤ 20 then 2 ^ k else 0

/-- A record is dropped. -/
def Core.dropRecord (c : Core) (u n : Nat) : Core :=
  if n = 0 then c else (c.bump (CNV_U_COUNT.DROPPED u) n).event (CNV_U_EVENT.OVERFLOW u)

/-- A record waits for the unit's DMA channel. -/
def Core.pushRecord (c : Core) (u w0 w1 : Nat) : Core :=
  let x := c.unit u
  if c.bufSize u = 0 then c
  else if 16 ≤ x.fifo.length then c.dropRecord u 1
  else
    let c1 := c.setUnit u { x with fifo := x.fifo ++ [(w0, w1)] }
    if c1.chState (13 + u) = chIDLE then c1.setCh (13 + u) chACTIVE else c1

/-- The oldest record of a unit's FIFO moves into its buffer, or is dropped where it would overrun. (DEDUCED log 121) -/
def Core.moveRecord (c : Core) (mem : Memory) (u : Nat) : Core :=
  let ch := 13 + u
  let x := c.unit u
  let size := c.bufSize u
  match x.fifo with
  | [] => if c.chState ch = chACTIVE then c.setCh ch chIDLE else c
  | r :: rest =>
    if c.chState ch ≠ chACTIVE then c
    else if size = 0 then (c.setUnit u { x with fifo := [] }).setCh ch chIDLE
    else
      let wr_ := c.getF (CNV_U_DMA_WR.WR u)
      let rd := c.getF (CNV_U_DMA_RD.RD u) / 8 * 8
      let next := (wr_ + 8) % size
      let c0 := c.setUnit u { x with fifo := rest }
      let idle (c : Core) : Core := if rest.isEmpty then c.setCh ch chIDLE else c
      if next = rd then idle (c0.dropRecord u 1)
      else
        let base := c.getF (CNV_U_DMA_BASE.BASE u) / size * size
        let a := base + wr_
        match c.xlate (c.view mem) ch a true with
        | (c1, .error k) => c1.chFault ch a k 1
        | (c1, .ok p) =>
          let c2 := (c1.setUnit u { x with fifo := rest }).writeMem p (le 4 r.1 ++ le 4 r.2)
          let c3 := (c2.setF (CNV_U_DMA_WR.WR u) next).setReg (STU_CH_DONE.a ch)
            (BitVec.ofNat 32 (c.getF (STU_CH_DONE.VALUE ch) + 8))
          let c4 := if next = size / 2 then c3.event (CNV_U_EVENT.DMA_HALF u) else c3
          idle (if next = 0 then c4.event (CNV_U_EVENT.DMA_FULL u) else c4)

/-- R357, R358: a channel is granted and transfers at most 64 bytes. `ecc` is the stream address of a source word in which
an uncorrectable error is found. -/
def execDmaBurst (ch : Fin 16) (ecc : Option (BitVec 32)) (s : State) : Res :=
  go (fun c mem =>
    if c.granted ch.val then
      let c1 := c.tookTurn ch.val
      if 13 ≤ ch.val then (List.range 8).foldl (fun a _ => a.moveRecord mem (ch.val - 13)) c1
      else (List.range 16).foldl (fun a _ => a.dmaWord mem ch.val (ecc.map BitVec.toNat)) c1
    else c) s

/-- R358: START, from IDLE or ABORTED. -/
def Core.chStart (c : Core) (ch : Nat) : Core :=
  if c.chState ch = chIDLE ∨ c.chState ch = chABORTED then
    let len := c.getF (STU_CH_LEN.VALUE ch) / 4 * 4
    ((c.setCh ch chACTIVE).setReg (STU_CH_DONE.a ch) 0).setReg (STU_CH_REMAIN.a ch)
      (BitVec.ofNat 32 (if 13 ≤ ch then 0 else len))
  else c

/-- The command that runs, the owner of the copies of channel 9 (R338, R356). -/
def Core.runningRef (c : Core) : Option CmdRef :=
  (List.range 16).findSome? (fun m => if c.getF (mbState m) = 2 then (c.box m).cur else none)

/-- What a transfer's owner loses when its channel is aborted (R359). (DEDUCED log 121) -/
def Core.chLost (c : Core) (ch : Nat) : Core :=
  if 13 ≤ ch then
    let x := c.unit (ch - 13)
    (c.setUnit (ch - 13) { x with fifo := [] }).dropRecord (ch - 13) x.fifo.length
  else if ch ≤ 4 then c.bump MBX_COUNT.DROPPED 1
  else if ch = 9 then
    c.complete c.runningRef stPARTIAL
      [c.getF (STU_CH_DONE.VALUE 9), c.getF (STU_CH_FAULT_ADDR.VALUE 9), c.getF (STU_CH_STAT.CAUSE 9)]
  else c

/-- A channel was resumed in this clock of the FABRIC island. (DESIGN CHOICE log 198) -/
def Core.justResumed (c : Core) (ch : Nat) : Bool :=
  let f := if c.onBypass 2 then 100 else 400
  match mapGet (fun _ => 0) c.stu.resumedAt ch with
  | 0 => false
  | t + 1 => c.chState ch == chACTIVE && t * f / 1000 == c.now * f / 1000

/-- R358: ABORT, from FAULTED; it wins over a RESUME of the same FABRIC clock. -/
def Core.chAbort (c : Core) (ch : Nat) : Core :=
  if c.chState ch = chFAULTED ∨ c.justResumed ch then (c.setCh ch chABORTED).chLost ch else c

/-- R358: RESUME, from FAULTED. -/
def Core.chResume (c : Core) (ch : Nat) : Core :=
  if c.chState ch = chFAULTED then
    { c.setCh ch chACTIVE with stu := { c.stu with resumedAt := mapSet (fun _ => 0) c.stu.resumedAt ch (c.now + 1) } }
  else c

/-- R358: START written. -/
def execStuStart (ch : Fin 16) (s : State) : Res := go (fun c _ => c.chStart ch.val) s

/-- R358: RESUME written. -/
def execStuResume (ch : Fin 16) (s : State) : Res := go (fun c _ => c.chResume ch.val) s

/-- R358: ABORT written. -/
def execStuAbort (ch : Fin 16) (s : State) : Res := go (fun c _ => c.chAbort ch.val) s

/-- R358: FAULT_TIMEOUT has elapsed in FAULTED. -/
def execDmaFaultTimeout (ch : Fin 16) (s : State) : Res :=
  go (fun c _ =>
    let t := mapGet (fun _ => 0) c.stu.faultAt ch.val
    if c.chState ch.val = chFAULTED ∧ t + clampN 1 1000 (c.getF STU_FAULT_TIMEOUT.MS) * 1000000 ≤ c.now then
      ((c.setF (STU_CH_STAT.CAUSE ch.val) 5).event STU_EVENT.ABORTED).chAbort ch.val
    else c) s

end Sys2Proof.Machine
end

