-- ==== Sys2Proof/Machine/Convert.lean ====
section
/-! DEFINITION. Conversion (R288 to R312): the SAR units with their tables, urgent requests and records, the remote
decimators, CONVERSION_SET and CELL_CAL_SET. -/
namespace Sys2Proof.Machine

/-! ### Timing of a unit (R290, R300) -/

/-- A pending change out of STANDBY and HOLD (R300). (DEDUCED log 29) -/
def Pending.leavesLp (p : Pending) : Bool := p.target != .standby && p.target != .hold

/-- Low-power mode is in force on a unit (R300); 20 µs after a change out of STANDBY or HOLD was accepted the units run at
full rate. -/
def Core.sarLp (c : Core) (u : Nat) : Bool :=
  let leaving := match c.mode.pend with
    | some p => p.leavesLp && decide (p.accepted + 20000 ≤ c.now)
    | none => false
  u != 3 && c.flag (CNV_U_CTRL.LP_EN u) && !leaving && (c.mode.code == .standby || c.mode.code == .hold)

/-- Half nanoseconds per unit clock cycle: 80 MHz, the bypass clock, or 10 MHz. -/
def Core.sarCycle (c : Core) (u : Nat) : Nat :=
  if c.sarLp u then 200 else if u ≠ 3 ∧ c.onBypass 7 then 20 else 25

/-- Cycles from the start of an acquisition to its hold edge. -/
def Core.acqCycles (c : Core) (u sample : Nat) : Nat := 4 + 2 * sample + (if c.sarLp u then 20 else 0)

/-- R291: correction of a raw code. -/
def sarCorrect (raw : Nat) (ofs gtrim : Int) : Nat :=
  (clampI 0 65535 (rne (((raw : Int) - ofs) * (32768 + gtrim)) 32768)).toNat

/-- A raw result of a unit corrected with the values in force. -/
def Core.sarCode (c : Core) (u raw : Nat) : Nat := sarCorrect raw (c.getI (CNV_U_CAL.OFS u)) (c.getI (CNV_U_CAL.GTRIM u))

/-- A channel code is an input of a unit (R288, R289). (DEDUCED log 184) -/
def sarChannel (u ch : Nat) : Bool :=
  if u = 3 then decide (40 ≤ ch ∧ ch ≤ 47) || ch == 64 || ch == 65 || ch == 67 || ch == 74
  else decide (ch < 40) || decide (64 ≤ ch ∧ ch ≤ 79)

/-! ### Work of a unit -/

/-- STATUS follows the unit. -/
def Core.sarStatus (c : Core) (u : Nat) : Core :=
  let x := c.unit u
  let c1 := (c.setFlag (CNV_U_STATUS.BUSY u) (x.phase != 0)).setFlag (CNV_U_STATUS.FG u) (x.phase == 1)
  let c2 := if x.phase = 1 ∨ x.phase = 2 then (c1.setF (CNV_U_STATUS.ENTRY u) x.work.entry).setF (CNV_U_STATUS.REMAIN u) x.work.left
    else match x.bg with
      | some (w, _) => (c1.setF (CNV_U_STATUS.ENTRY u) w.entry).setF (CNV_U_STATUS.REMAIN u) w.left
      | none => c1.setF (CNV_U_STATUS.REMAIN u) 0
  (c2.setFlag (CNV_U_STATUS.URG_PENDING u) x.urgent.isSome).setFlag (CNV_U_STATUS.LP u) (c.sarLp u)

/-- A unit put into a state. -/
def Core.putUnit (c : Core) (u : Nat) (x : SarUnit) : Core := (c.setUnit u x).sarStatus u

/-- A clock edge of a unit at or after a time (half ns). (DESIGN CHOICE log 198) -/
def Core.sarEdge (c : Core) (u t : Nat) : Nat := (t + c.sarCycle u - 1) / c.sarCycle u * c.sarCycle u

/-- A table entry with every conversion owed. -/
def Core.sarEntry (c : Core) (u k : Nat) : SarWork := ⟨k, c.getF (CNV_U_E_CH.REPEAT u k) + 1, 0, none⟩

/-- Half ns of the acquisition of an entry's conversion, and of a conversion with SAMPLE `n`. -/
def Core.acqTime (c : Core) (u k : Nat) : Nat := c.acqCycles u (c.getF (CNV_U_E_CH.SAMPLE u k)) * c.sarCycle u
def Core.convTime (c : Core) (u n : Nat) : Nat := (c.acqCycles u n + 16) * c.sarCycle u

/-- A conversion of table entry `w` begins: its acquisition starts at the clock edge `t` (half ns). -/
def Core.sarBegin (c : Core) (u phase : Nat) (w : SarWork) (t : Nat) : Core :=
  c.putUnit u { c.unit u with
    phase := phase, work := w, due := t + c.convTime u (c.getF (CNV_U_E_CH.SAMPLE u w.entry)) }

/-- Bounds of the segments (R292). -/
def Core.fgLen (c : Core) (u : Nat) : Nat := min 64 (c.getF (CNV_U_CTRL.FG_LEN u))
def Core.tableLen (c : Core) (u : Nat) : Nat := min 64 (c.getF (CNV_U_CTRL.LEN u))

/-- An entry begins after its DELAY, counted from the clock edge `t` (half ns). -/
def Core.sarEntryStart (c : Core) (u phase k t : Nat) : Core :=
  c.sarBegin u phase (c.sarEntry u k) (t + c.getF (CNV_U_E_TIME.DELAY u k) * c.sarCycle u)

/-- A result record (R299): corrected code, channel, entry, flags, time of the hold edge in half ns. -/
def recordWords (code ch entry : Nat) (fg restarted avg : Bool) (hold : Nat) : Nat × Nat :=
  (code + ch * 2 ^ 16 + entry * 2 ^ 23 + b2n fg * 2 ^ 29 + b2n restarted * 2 ^ 30 + b2n avg * 2 ^ 31, hold / 2 % 2 ^ 32)

/-- A record is the unit's last one, and enters its buffer where DMA is wanted. -/
def Core.sarRecord (c : Core) (u : Nat) (w : Nat × Nat) (dma : Bool) : Core :=
  let c1 := (c.setReg (CNV_U_LAST.a u) (BitVec.ofNat 32 w.1)).setReg (CNV_U_LAST_T.a u) (BitVec.ofNat 32 w.2)
  if dma && u != 3 then c1.pushRecord u w.1 w.2 else c1

/-- The background conversion is aborted at a time (half ns); its entry waits (R293, R297). (DEDUCED log 78) -/
def Core.sarAbort (c : Core) (u at_ : Nat) : Core :=
  let x := c.unit u
  if x.phase = 2 then
    (c.setUnit u { x with phase := 0, bg := some (x.work, some at_) }).event (CNV_U_EVENT.ABORTED u)
  else c

/-- Background work goes on at the clock edge `t`: an interrupted entry restarts without its DELAY, with a restart record
(R297, R298); an entry that has not begun waits for its DELAY (R292). (DEDUCED log 78) -/
def Core.sarResume (c : Core) (u : Nat) (w : SarWork) (at_ : Option Nat) (t : Nat) : Core :=
  let c0 := c.setUnit u { c.unit u with bg := none }
  match at_ with
  | none => c0.sarEntryStart u 2 w.entry t
  | some a =>
    let hold := t + c.acqTime u w.entry
    let code := min 65535 ((hold - a) / c.sarCycle u)
    let c1 := c0.sarRecord u (recordWords code 127 w.entry false false false hold) true
    (c1.setUnit u { c1.unit u with restarted := true }).sarBegin u 2 w t

/-- T_exc in ns. -/
def Core.tExc (c : Core) : Nat :=
  match c.getF FBK_CTRL.EXC_SEL with
  | 0 => 200000
  | 2 => 50000
  | _ => 100000

/-- The latest excitation peak at or before a time: its number and its time. -/
def Core.peak (c : Core) (t : Nat) : Option (Nat × Nat) :=
  let first := c.tExc / 4 + 2 * c.getF FBK_RES_PHASE.EXC_DELAY
  let h := c.tExc / 2
  if t < first then none else some ((t - first) / h, first + (t - first) / h * h)

/-- The excitation runs (R240). -/
def Core.excitation (c : Core) : Bool := c.flag FBK_CTRL.RES_EN && c.domainOn 6

/-- The latest peak, if its pair has not begun (R241). -/
def Core.pairDue (c : Core) : Option (Nat × Nat) :=
  match c.peak c.now with
  | some (n, t) => if c.excitation && decide (c.fbk.served < t) then some (n, t) else none
  | none => none

/-- The pair of a peak begins on unit A: two conversions with SAMPLE 0 from the clock edge at or after `at_` (R241, R294). -/
def Core.pairBegin (c : Core) (n t at_ : Nat) : Core :=
  { c with fbk := { c.fbk with pair := some (n, t), served := t } }.putUnit 0 { c.unit 0 with
    phase := 4, due := c.sarEdge 0 at_ + 2 * c.convTime 0 0 }

/-- At a peak that finds unit A free or in background work the pair begins at once (R241, R297). (DEDUCED log 78) -/
def Core.pairCatch (c : Core) (u : Nat) : Core :=
  if u = 0 ∧ ((c.unit 0).phase = 0 ∨ (c.unit 0).phase = 2) then
    match c.pairDue with
    | some (n, t) => (c.sarAbort 0 (2 * t)).pairBegin n t (2 * t)
    | none => c
  else c

/-- The foreground segment begins: entry 0 holds at the first clock edge at or after the sample instant `si` (half ns) that
an acquisition from `at_` on allows (R20, R293). (DEDUCED log 78) -/
def Core.fgBegin (c : Core) (u si at_ : Nat) : Core :=
  let hold := c.sarEdge u (max si (at_ + c.acqTime u 0))
  c.putUnit u { c.unit u with phase := 1, fgWait := none, work := c.sarEntry u 0, due := hold + 16 * c.sarCycle u }

/-- What a unit that is free from `at_` on (half ns) converts next (R297): a foreground segment that waits, on unit A the
resolver pair, a firmware request, background work. (DEDUCED log 78) -/
def Core.sarNext (c : Core) (u at_ : Nat) : Core :=
  let x := c.unit u
  match x.fgWait with
  | some si => c.fgBegin u si at_
  | none => match (if u = 0 then c.pairDue else none) with
  | some (n, t) => c.pairBegin n t (max at_ (2 * t))
  | none => match x.urgent with
  | some (_, sample) => c.putUnit u { x with phase := 3, due := c.sarEdge u at_ + c.convTime u sample }
  | none => match x.bg with
    | some (w, a) => c.sarResume u w a (c.sarEdge u at_)
    | none => c.putUnit u { x with phase := 0 }

/-- Work of the unit's owner interrupts the background at the present instant, and the unit goes on (R297). -/
def Core.sarInterrupt (c : Core) (u at_ : Nat) : Core :=
  if (c.unit u).phase = 2 then (c.sarAbort u at_).sarNext u (2 * c.now) else c

/-- The destination value of a foreground result (R293). -/
def Core.fgValue (c : Core) (u k code : Nat) : Int :=
  let x := sat16 ((code : Int) - c.getF (CNV_U_E_TIME.ZERO u k))
  wr (cmul ⟨c.getI (CNV_U_E_DEST.K_M u k), c.getF (CNV_U_E_DEST.K_E u k)⟩ x)

/-- The strings that name a sensor D channel, in string order (R301). -/
def sensDStrings (p : List Byte) (count : Nat) : List Nat := (List.range count).filter (fun s => u8 p (72 + s) != 255)

/-- The CONVERSION_SET payload in force. -/
def Core.convP (c : Core) : List Byte := c.forceP 0x0290

/-- A foreground result: the destination's value, or on unit D a string's sensor value (R293, R301). -/
def Core.fgResult (c : Core) (u k code : Nat) : Core :=
  if u = 3 then
    match (sensDStrings c.convP c.map.count)[k]? with
    | none => c
    | some s =>
      let o := 80 + 6 * s
      let x := sat16 ((code : Int) - u16 c.convP o)
      let v := wr (cmul ⟨i16 c.convP (o + 2), min 8 (u8 c.convP (o + 4))⟩ x)
      { c with cnv := { c.cnv with sensD := setAt s (some v) c.cnv.sensD } }
  else if c.flag (CNV_U_E_DEST.DEST_EN u k) then
    let x := c.unit u
    let d := c.getF (CNV_U_E_DEST.DEST u k)
    c.setUnit u { x with fg := x.fg.filter (fun e => e.1 != d) ++ [(d, c.fgValue u k code)] }
  else c

/-- A segment's entry is over at `t` (half ns): the next entry, a new pass of the background segment, or the end. -/
def Core.sarAdvance (c : Core) (u t : Nat) : Core :=
  let x := c.unit u
  let k := x.work.entry + 1
  if x.phase = 1 then
    if k < c.fgLen u then c.sarEntryStart u 1 k t else (c.setUnit u { x with phase := 0 }).sarNext u t
  else if k < c.tableLen u then c.sarEntryStart u 2 k t
  else if c.flag (CNV_U_CTRL.LOOP u) ∨ c.flag (CNV_U_STATUS.QUEUED u) then
    (c.setF (CNV_U_STATUS.QUEUED u) 0).sarEntryStart u 2 (c.fgLen u) t
  else (c.setUnit u { x with phase := 0, bgEnd := t + 1 }).sarNext u t

/-- A table conversion completes with a corrected code (R290, R292, R299). -/
def Core.sarTableDone (c : Core) (u code : Nat) : Core :=
  let x := c.unit u
  let k := x.work.entry
  let fg := x.phase = 1
  let avg := c.flag (CNV_U_E_CH.AVG u k)
  let hold := x.due - 16 * c.sarCycle u
  let first := x.work.first.getD hold
  let left := x.work.left - 1
  let sum := x.work.sum + code
  let result : Bool := !avg || left == 0
  let res := if avg then rneNat sum (c.getF (CNV_U_E_CH.REPEAT u k) + 1) else code
  let ch := c.getF (CNV_U_E_CH.CH u k)
  let w : SarWork := if avg && !result then ⟨k, left, sum, some first⟩ else ⟨k, left, 0, none⟩
  let c1 := c.setUnit u { x with work := w, restarted := x.restarted && !result }
  let c2 := if result then
      c1.sarRecord u (recordWords res ch k fg x.restarted avg (if avg then first else hold)) (c.flag (CNV_U_E_CH.DMA u k))
    else c1
  let c3 := if fg ∧ left = 0 then c2.fgResult u k res else c2
  if left = 0 then (c3.sarAdvance u x.due).sarStatus u else c3.sarBegin u x.phase w x.due

/-- R290: a conversion of a SAR unit completes with a raw code. -/
def execSarConversionDone (u : Fin 4) (raw : BitVec 16) (s : State) : Res :=
  go (fun d _ =>
    let c := d.pairCatch u.val
    let x := c.unit u.val
    if x.phase = 0 ∨ x.phase = 4 ∨ 2 * c.now < x.due then c
    else
      let code := c.sarCode u.val raw.toNat
      if x.phase = 3 then
        let c1 := ((c.setF (CNV_U_URG_RESULT.CODE u.val) code).setF (CNV_U_URG_RESULT.DONE u.val) 1).event
          (CNV_U_EVENT.URGENT_DONE u.val)
        (c1.setUnit u.val { x with phase := 0, urgent := none }).sarNext u.val x.due
      else c.sarTableDone u.val code) s

/-- The next sample instant, half ns (R21, R160). -/
def Core.sampleHalf (c : Core) : Nat :=
  let si := 2 * c.modu.start + c.getF MOD_TIMING.SAMPLE_OFS * 25
  if 2 * c.now ≤ si then si else si + 2 * c.tc

/-- R293: the pre-trigger of a unit, 600 ns before the sample instant: background work is aborted, and the foreground begins,
or waits for the urgent conversion that runs. -/
def execSarPreTrigger (u : Fin 4) (s : State) : Res :=
  go (fun d _ =>
    let n := u.val
    let c := d.pairCatch n
    let si := c.sampleHalf
    let x := c.unit n
    if !c.flag (CNV_U_CTRL.EN n) ∨ c.sarLp n ∨ 2 * c.now + 1200 < si ∨ x.phase = 1 ∨ x.fgWait.isSome then c
    else
      let c1 := c.sarAbort n (si - 1200)
      let y := { c1.unit n with fg := [], fgWait := if c.fgLen n = 0 then none else some si }
      let c2 := c1.putUnit n y
      if y.phase = 0 then c2.sarNext n (si - 1200) else c2) s

/-- The sensor D values of a period begin with its sample instant (R301). -/
def Core.sampleD (c : Core) : Core := { c with cnv := { c.cnv with sensD := List.replicate 6 none } }

/-- The signal entries that a foreground segment may deliver (R293). -/
def fgDests : List Nat := [0, 1, 2, 3, 4, 5, 0x0F, 0x10, 0x11, 0x12, 0x13, 0x14, 0x26, 0x27]

/-- What the foreground of a unit holds at data-ready; a destination its table names and that has not completed is late
(R293). -/
def Core.fgTake (c : Core) (u : Nat) : Core × List (Nat × Int) :=
  let x := c.unit u
  if !c.flag (CNV_U_CTRL.EN u) then (c.setUnit u { x with fg := [] }, [])
  else
    let late := (List.range (c.fgLen u)).any (fun k =>
      c.flag (CNV_U_E_DEST.DEST_EN u k) && !x.fg.any (fun e => e.1 == c.getF (CNV_U_E_DEST.DEST u k)))
    let c1 := if late && !c.sarLp u then c.event (CNV_U_EVENT.FG_LATE u) else c
    (c1.setUnit u { c1.unit u with fg := [] }, x.fg)

/-- The foreground results at data-ready; every entry without one is not delivered (R23, R293). -/
def Core.deliverFg (c : Core) : Core :=
  let r := [0, 1, 2].foldl (fun (a : Core × List (Nat × Int)) u => ((a.1.fgTake u).1, a.2 ++ (a.1.fgTake u).2)) (c, [])
  fgDests.foldl (fun a d => match r.2.find? (fun e => e.1 == d) with
    | some e => a.sigWrite d e.2
    | none => a.sigMiss d) r.1

/-! ### Background triggers (R295, R296) -/

/-- A background trigger of a unit; one in the unit clock that completes the segment finds it running (R296).
(DEDUCED log 78) -/
def Core.sarTrigger (d : Core) (u : Nat) : Core :=
  let c := d.pairCatch u
  let x := c.unit u
  let ignore (c : Core) := (c.bump (CNV_U_COUNT.IGNORED u) 1).event (CNV_U_EVENT.TRIG_IGNORED u)
  let busy := x.phase == 2 || x.bg.isSome
  let ended := x.bgEnd != 0 && (x.bgEnd - 1) / c.sarCycle u == 2 * c.now / c.sarCycle u
  let start (c : Core) : Core :=
    if x.phase = 2 ∨ x.phase = 0 then c.sarEntryStart u 2 (c.fgLen u) (c.sarEdge u (2 * c.now))
    else c.putUnit u { x with bg := some (c.sarEntry u (c.fgLen u), none) }
  if !c.flag (CNV_U_CTRL.EN u) ∨ c.tableLen u ≤ c.fgLen u then c
  else if busy || ended then
    match c.getF (CNV_U_CTRL.POLICY u) with
    | 1 => if c.flag (CNV_U_STATUS.QUEUED u) then ignore c else if busy then c.setF (CNV_U_STATUS.QUEUED u) 1 else start c
    | 2 => start (c.event (CNV_U_EVENT.TRIG_RESTART u))
    | _ => ignore c
  else start c

/-- R295: START written. -/
def execCnvStart (u : Fin 3) (s : State) : Res :=
  go (fun c _ => if c.getF (CNV_U_CTRL.TRIG_SRC u.val) = 0 then c.sarTrigger u.val else c) s

/-- R296: the trigger output of the timer channel that the unit names. -/
def execBackgroundTrigger (u : Fin 3) (s : State) : Res :=
  go (fun c _ =>
    let t := c.getF (CNV_U_CTRL.TRIG_TCH u.val)
    if c.getF (CNV_U_CTRL.TRIG_SRC u.val) = 1 ∧ mapGet (fun _ => 0) c.modu.trig t = c.now + 1 then c.sarTrigger u.val
    else c) s

/-! ### Urgent requests (R297) -/

/-- A firmware urgent request. (DEDUCED log 80) -/
def Core.urgent (d : Core) (u ch sample : Nat) : Core :=
  let c := d.pairCatch u
  let x := c.unit u
  if x.urgent.isSome then c.event (CNV_U_EVENT.URGENT_BUSY u)
  else if !sarChannel u ch then c
  else
    let c1 := (c.setF (CNV_U_URG_RESULT.DONE u) 0).setUnit u { x with urgent := some (ch, sample) }
    let c2 := c1.sarAbort u (2 * c.now)
    if (c2.unit u).phase = 0 then c2.sarNext u (2 * c.now) else c2.sarStatus u

/-- R297: a write to CNV_u_URGENT. (DEDUCED log 80) -/
def execUrgentRequest (u : Fin 3) (v : BitVec 32) (s : State) : Res :=
  go (fun c _ => c.urgent u.val (v.toNat % 128) (v.toNat / 128 % 16)) s

/-! ### The decimators (R302 to R307) -/

/-- R303. (DEDUCED log 76) -/
def periodMean (fs gain ofs : Int) (ones n : Nat) : Int :=
  rne (fs * gain * (2 * (ones : Int) - n)) (32768 * n) + ofs

/-- Weight `k` of a sinc³ filter of ratio `r`: its impulse response, 3 r − 2 long. (DEDUCED log 76) -/
def sinc3 (r k : Nat) : Nat :=
  let j := if 3 * r - 3 - k < k then 3 * r - 3 - k else k
  let tri (x : Nat) : Nat := (x + 1) * (x + 2) / 2
  if j < r then tri j else tri j - 3 * tri (j - r)

/-- y of a sinc³ filter over its window. (DEDUCED log 76) -/
def sincSum (r : Nat) : Nat → List Bool → Int
  | _, [] => 0
  | k, b :: t => (if b then (sinc3 r k : Int) else -(sinc3 r k : Int)) + sincSum r (k + 1) t

/-- R304. (DEDUCED log 76) -/
def periodSample (fs gain ofs : Int) (r : Nat) (bits : List Bool) : Int :=
  rne (fs * gain * sincSum r 0 (lastN (3 * r - 2) bits)) (32768 * (r * r * r)) + ofs

/-- R of an OSR code. -/
def osr (k : Nat) : Nat := 32 * 2 ^ (k % 4)

/-- Scaling of a cell's voltage and current. -/
def Core.vScale (c : Core) (n : Nat) : Int × Int × Int :=
  (toS 32 (c.getF CNV_FE_V_FS.VALUE), c.getF (CNV_C_CAL_V.GAIN n), c.getI (CNV_C_CAL_V.OFS n))
def Core.iScale (c : Core) (n : Nat) : Int × Int × Int :=
  (toS 32 (c.getF CNV_FE_I_FS.VALUE), c.getF (CNV_C_CAL_I.GAIN n), c.getI (CNV_C_CAL_I.OFS n))

def ones (l : List Bool) : Nat := (l.filter id).length

/-- The voltage and the current bit of a counted character (R84). -/
def CellBit.vb (b : CellBit) : Bool := (upFields b.b).vb
def CellBit.ib (b : CellBit) : Bool := (upFields b.b).ib

/-- The position of a leg for the ledger (R364): H or L. -/
def legHigh (code : Nat) (left : Bool) (sign : Int) : Bool :=
  match classOf code with
  | .h => true
  | .l => false
  | _ => if left then decide (sign ≤ 0) else decide (0 < sign)

/-- The conduction factor k at a far-end sample time (R364). -/
def Core.kFactor (c : Core) (n t : Nat) : Int :=
  let a := c.ledAcc n
  let l := legHigh (codeAt (c.hb (2 * n)).tl (t - conductionDelay a.cdL)) true a.sign
  let r := legHigh (codeAt (c.hb (2 * n + 1)).tl (t - conductionDelay a.cdR)) false a.sign
  if l && !r then 1 else if !l && r then -1 else 0

/-- The class counts of a period (R365). -/
def Core.classSums (c : Core) (n : Nat) (bits : List CellBit) : List (Nat × Nat × Nat) :=
  [1, -1].map (fun k =>
    let l := bits.filter (fun b => c.kFactor n b.t == k)
    (l.length, ones (l.map CellBit.vb), ones (l.map CellBit.ib)))

/-- The characters that a window from the sample instant `t0` to the sample instant `t1` counts: those of slots 1 to 255 whose
effective arrival falls after the one and at or before the other (R85, R90, R303). -/
def counted (t0 t1 : Nat) (chars : List CellBit) : List CellBit :=
  chars.filter (fun b => b.slot != 0 && decide (t0 < b.t + 128 ∧ b.t + 128 ≤ t1))

/-- The decimators of one cell close their windows on the bits counted since the last sample instant (R303, R304).
(DEDUCED log 77) -/
def Core.closeCell (c : Core) (n : Nat) (bits : List CellBit) : Core :=
  let v := c.cellVal n
  let fv := c.vScale n
  let fi := c.iScale n
  let rv := osr (c.getF CNV_DEC_CFG.OSR_V)
  let ri := osr (c.getF CNV_DEC_CFG.OSR_I)
  let vb := bits.map CellBit.vb
  let ib := bits.map CellBit.ib
  let got := c.laneState n == 2 && decide (3 * rv - 2 ≤ bits.length ∧ 3 * ri - 2 ≤ bits.length)
  let c1 := (c.setF (CNV_C_STAT.BITS n) bits.length).setFlag (CNV_C_STAT.CRC_SUSPECT n) v.susNext
  let acc := c.ledAcc n
  let c2 := c1.setLedAcc n { acc with got := got, suspect := v.susNext, cls := if got then c.classSums n bits else [] }
  c2.setCellVal n (if got then { v with
      newV := periodMean fv.1 fv.2.1 fv.2.2 (ones vb) bits.length
      newI := periodMean fi.1 fi.2.1 fi.2.2 (ones ib) bits.length
      newVs := periodSample fv.1 fv.2.1 fv.2.2 rv vb, newIs := periodSample fi.1 fi.2.1 fi.2.2 ri ib
      got := true, suspect := v.susNext, susNext := false }
    else { v with got := false, suspect := v.susNext, susNext := false })

/-- The values of one cell are delivered, or not (R23, R302). -/
def Core.deliverCell (c : Core) (n : Nat) : Core :=
  let v := c.cellVal n
  let w (x : Int) : Word := BitVec.ofNat 32 (ofS 32 x)
  let c1 := (c.setFlag (CNV_C_STAT.V_VALID n) v.got).setFlag (CNV_C_STAT.I_VALID n) v.got
  if v.got then
    let c2 := (c1.setReg (CNV_C_V_MEAN.a n) (w v.newV)).setReg (CNV_C_I_MEAN.a n) (w v.newI)
    let c3 := (c2.setReg (CNV_C_V_SAMP.a n) (w v.newVs)).setReg (CNV_C_I_SAMP.a n) (w v.newIs)
    c3.setCellVal n { v with
      v := v.newV, i := v.newI, vs := v.newVs, is := v.newIs, valid := true, got := false
      age := if 0 < v.newV then 0 else v.age + 1, vLast := if 0 < v.newV then v.newV else v.vLast }
  else c1.setCellVal n { v with valid := false, age := v.age + 1 }

/-- The field of an auxiliary channel (R312). -/
def auxField (n k : Nat) : Field :=
  match k with
  | 0 => CNV_C_AUX_01.EVEN n
  | 1 => CNV_C_AUX_01.ODD n
  | 2 => CNV_C_AUX_23.EVEN n
  | 3 => CNV_C_AUX_23.ODD n
  | 4 => CNV_C_AUX_45.EVEN n
  | 5 => CNV_C_AUX_45.ODD n
  | _ => CNV_C_AUX_67.EVEN n

/-- R86: an AUX_MARK record. -/
def execAuxMarkRecord (l : Fin 128) (p : BitVec 24) (s : State) : Res :=
  go (fun c _ =>
    let n := l.val
    let k := bitsOf p.toNat 21 3
    let v := c.cellVal n
    if c.laneState n ≠ 1 ∧ c.laneState n ≠ 2 then c
    else c.setCellVal n { v with auxIdx := some k }) s

/-- R307: a dwell ends; `chars` are the 766 characters whose bits its window counts. (DESIGN CHOICE log 196) -/
def execAuxDwellEnd (c : Fin 128) (chars : List Byte) (s : State) : Res :=
  go (fun d _ =>
    let bits := chars.map (fun b => (upFields b).ab)
    let n := c.val
    let v := d.cellVal n
    if d.laneState n ≠ 2 ∨ bits.length ≠ 766 then d
    else match v.auxIdx with
    | none => (d.event CNV_EVENT.AUX_SKIP).bump (CNV_C_STAT.AUX_SKIPS n) 1
    | some k =>
      let d1 := d.setCellVal n { v with auxIdx := none }
      if k = 7 then d1
      else
        let code := sat16 (rne (sincSum 256 0 bits * 32768) (256 * 256 * 256))
        let x := rne (d.getI (CNV_AUX_GAIN.VALUE k) * code) 32768 + d.getI (CNV_AUX_OFS.VALUE k)
        (d1.setI (auxField n k) x).setCellVal n { v with auxIdx := none, aux := setAt k (some (x, d.now)) v.aux }) s

/-! ### CONVERSION_SET, CONVERSION_GET (R308, R309) -/

/-- One table of a unit in the registers. (DEDUCED log 79) -/
def Core.loadTable (c : Core) (p : List Byte) (u : Nat) : Core :=
  let h := 128 + 800 * u
  let log2 := u8 p (h + 8)
  let c1 := ((c.setF (CNV_U_CTRL.LEN u) (u8 p h)).setF (CNV_U_CTRL.FG_LEN u) (u8 p (h + 1))).setF (CNV_U_CTRL.TRIG_SRC u)
    (u8 p (h + 2))
  let c2 := ((c1.setF (CNV_U_CTRL.TRIG_TCH u) (u8 p (h + 3))).setF (CNV_U_CTRL.POLICY u) (u8 p (h + 4))).setF
    (CNV_U_CTRL.LOOP u) (u8 p (h + 5))
  let c3 := ((c2.setF (CNV_U_CTRL.LP_EN u) (u8 p (h + 6))).setF (CNV_U_DMA_CFG.LOG2SIZE u) log2).setReg (CNV_U_DMA_BASE.a u)
    (BitVec.ofNat 32 (u32 p (h + 12)))
  let c4 := (List.range 64).foldl (fun a k =>
    let o := h + 32 + 12 * k
    let f := u8 p (o + 6)
    let ch := u8 p o % 128 + u8 p (o + 1) % 16 * 2 ^ 7 + (u16 p (o + 2) - 1) % 256 * 2 ^ 11 + f % 4 * 2 ^ 19
    let dst := u8 p (o + 7) + f / 4 % 2 * 2 ^ 8 + f / 16 * 2 ^ 9 + u16 p (o + 10) * 2 ^ 16
    ((a.setReg (CNV_U_E_CH.a u k) (BitVec.ofNat 32 ch)).setReg (CNV_U_E_TIME.a u k)
      (BitVec.ofNat 32 (u16 p (o + 4) + u16 p (o + 8) * 2 ^ 16))).setReg (CNV_U_E_DEST.a u k) (BitVec.ofNat 32 dst)) c3
  let c5 := (c4.setFlag (CNV_U_CTRL.EN u) (u8 p h != 0)).setF (CNV_U_STATUS.QUEUED u) 0
  let x := c5.unit u
  let pair := u == 0 && x.phase == 4
  let c6 := c5.putUnit u { SarUnit.reset with
    fifo := x.fifo, urgent := x.urgent, phase := if pair then 4 else 0, due := if pair then x.due else 0 }
  if pair then c6 else c6.sarNext u (2 * c.now)

/-- The table of unit D (R301): the named channels in string order, then bandgap, ground, VDD_SAFE and die sensor 0 in a
loop; it is built where it changes. (DEDUCED log 79) -/
def Core.loadTableD (c : Core) (p : List Byte) : Core :=
  let fg := (sensDStrings p c.map.count).map (fun s => u8 p (72 + s))
  let l := fg ++ [64, 65, 74, 67]
  if c.flag (CNV_U_CTRL.EN 3) ∧ c.getF (CNV_U_CTRL.LEN 3) = l.length
      ∧ (List.range l.length).map (fun k => (c.reg (CNV_U_E_CH.a 3 k)).toNat) = l then c else
  let c1 := (l.zip (List.range l.length)).foldl (fun a e => a.setReg (CNV_U_E_CH.a 3 e.2) (BitVec.ofNat 32 e.1)) c
  let c2 := ((c1.setF (CNV_U_CTRL.LEN 3) l.length).setF (CNV_U_CTRL.FG_LEN 3) fg.length).setF (CNV_U_CTRL.LOOP 3) 1
  let c3 := (c2.setF (CNV_U_CTRL.EN 3) 1).setUnit 3 SarUnit.reset
  c3.sarEntryStart 3 2 fg.length (c3.sarEdge 3 (2 * c.now))

/-- The settings of a CONVERSION_SET payload but for unit D. (DEDUCED log 79) -/
def Core.loadConversion (c : Core) (p : List Byte) : Core :=
  let w (o : Nat) : Word := BitVec.ofNat 32 (u32 p o)
  let c1 := ((c.setF CNV_DEC_CFG.OSR_V (u8 p 0)).setF CNV_DEC_CFG.OSR_I (u8 p 1)).setReg CNV_FE_V_FS.a (w 4)
  let c2 := (List.range 7).foldl (fun a k =>
    (a.setReg (CNV_AUX_GAIN.a k) (w (16 + 8 * k))).setReg (CNV_AUX_OFS.a k) (w (20 + 8 * k))) (c1.setReg CNV_FE_I_FS.a (w 8))
  [0, 1, 2].foldl (fun a u => a.loadTable p u) c2

/-- C_FG of a unit's table (R294). -/
def fgCost (p : List Byte) (u : Nat) : Nat :=
  let h := 128 + 800 * u
  let n := u8 p (h + 1)
  let cost (k : Nat) : Nat :=
    let o := h + 32 + 12 * k
    u16 p (o + 4) + u16 p (o + 2) * (20 + 2 * u8 p (o + 1))
  if n = 0 then 0 else 1 + sumN ((List.range n).map cost) - (4 + 2 * u8 p (h + 33))

/-- The offset of the field of a table entry that holds the byte at offset `o`; the table starts at `a` (R308, R490). -/
def entryField (a o : Nat) : Nat := if [3, 5, 9, 11].contains ((o - a) % 12) then o - 1 else o

/-- The checks of R309. -/
def Core.conversionChecks (c : Core) (p : List Byte) : Option Fail :=
  let us := [0, 1, 2]
  let h (u : Nat) := 128 + 800 * u
  let ent (u k : Nat) := h u + 32 + 12 * k
  let len (u : Nat) := u8 p (h u)
  let fg (u : Nat) := u8 p (h u + 1)
  let inTab (u : Nat) := (List.range (min 64 (len u))).map (fun k => ent u k)
  let all := us.flatMap inTab
  let sens (s : Nat) := u8 p (72 + s)
  let dests := us.flatMap (fun u => (List.range (min 64 (len u))).map (fun k => (u, k)))
    |>.filter (fun e => bitOf (u8 p (ent e.1 e.2 + 6)) 2)
  let destOk (d : Nat) : Bool := decide (d ≤ 5) || decide (0x0F ≤ d ∧ d ≤ 0x14) || d == 0x26 || d == 0x27
  firstFail
    [chkAt 1 (lowest [firstBad [0, 1] (fun o => decide (u8 p o ≤ 3)), firstNonZero p 2 2,
       firstBad [4, 8] (fun o => decide (0 < i32 p o)), firstNonZero p 12 4,
       firstBad ((List.range 6).map (fun s => 72 + s)) (fun o =>
         let s := o - 72
         (decide (40 ≤ sens s ∧ sens s ≤ 47) || (sens s == 255 && decide (c.map.count ≤ s)))
           && (sens s == 255 || (List.range s).all (fun r => sens r != sens s))),
       firstNonZero p 78 2, firstBad ((List.range 6).map (fun s => 85 + 6 * s)) (fun o => u8 p o == 0), firstNonZero p 116 12,
       lowest (us.map (fun u => lowest [firstNonZero p (h u + 7) 1, firstNonZero p (h u + 9) 3, firstNonZero p (h u + 16) 16])),
       firstBad ((us.flatMap (fun u => (List.range 64).map (fun k => ent u k + 6)))) (fun o => !bitOf (u8 p o) 3)]),
     chkAt 2 (lowest (us.map (fun u => lowest
       [if 64 < len u then some (h u) else none, if len u < fg u then some (h u + 1) else none,
        if 1 < u8 p (h u + 2) then some (h u + 2) else none,
        if 63 < u8 p (h u + 3) ∨ c.flag (MOD_TCH_CFG.OWNER (u8 p (h u + 3))) then some (h u + 3) else none,
        if 2 < u8 p (h u + 4) then some (h u + 4) else none, firstBad [h u + 5, h u + 6] (fun o => decide (u8 p o ≤ 1)),
        (let k := u8 p (h u + 8)
         if k ≠ 0 ∧ (k < 8 ∨ 20 < k) then some (h u + 8)
         else if u32 p (h u + 12) % 2 ^ k = 0 then none else some (h u + 12)),
        (firstByte p (ent u (min 64 (len u))) (12 * (64 - min 64 (len u)))).map (entryField (ent u 0))]))),
     chkAt 3 (lowest [firstBad all (fun o => sarChannel 0 (u8 p o)), firstBad all (fun o => decide (u8 p (o + 1) ≤ 15))
         |>.map (· + 1),
       firstBad all (fun o => decide (1 ≤ u16 p (o + 2) ∧ u16 p (o + 2) ≤ 256)) |>.map (· + 2),
       (us.flatMap (fun u => (inTab u).map (fun o => (u, o)))).find? (fun e =>
         decide (8 < u8 p (e.2 + 6) / 16) || (bitOf (u8 p (e.2 + 6)) 1 && u8 p (h e.1 + 8) == 0)) |>.map (fun e => e.2 + 6),
       firstBad ((List.range 6).map (fun s => 84 + 6 * s)) (fun o => decide (u8 p o ≤ 8))]),
     chkAt 4 (lowest [dests.find? (fun e => decide (fg e.1 ≤ e.2)) |>.map (fun e => ent e.1 e.2 + 6),
       dests.find? (fun e => !destOk (u8 p (ent e.1 e.2 + 7)) ||
         (dests.takeWhile (· != e)).any (fun g => u8 p (ent g.1 g.2 + 7) == u8 p (ent e.1 e.2 + 7)))
         |>.map (fun e => ent e.1 e.2 + 7),
       us.find? (fun u => decide (0 < fg u) && u16 p (ent u 0 + 4) != 0) |>.map (fun u => ent u 0 + 4)]),
     (us.find? (fun u => decide (80 < fgCost p u))).map (fun u => (5, 0xFFFFFFFF, u))]

/-- R308, R309: CONVERSION_SET. -/
def execConversionSet (m : Msg) (s : State) : Res :=
  go (fun c _ => c.command (setSpec 0x0290 2528) m fun cmd c => c.configure cmd (c.conversionChecks cmd.p)) s

/-- The defaults of CONVERSION_GET (R312, R489). (DEDUCED log 82) -/
def conversionDefaults : List Byte := le 1 2 ++ le 1 2 ++ zeros 2526

/-- R308: CONVERSION_GET. (DEDUCED log 82) -/
def execConversionGet (m : Msg) (s : State) : Res :=
  go (fun c _ => c.command (getSpec 0x0291) m fun cmd c => c.getCfg 0x0290 conversionDefaults cmd) s

/-! ### CELL_CAL_SET, CELL_CAL_GET (R310, R368) -/

/-- The settings of a CELL_CAL_SET payload. (DEDUCED log 83) -/
def Core.loadCellCal (c : Core) (p : List Byte) : Core :=
  (List.range 128).foldl (fun a n =>
    (a.setReg (CNV_C_CAL_V.a n) (BitVec.ofNat 32 (u32 p (8 * n)))).setReg (CNV_C_CAL_I.a n)
      (BitVec.ofNat 32 (u32 p (8 * n + 4)))) c

/-- The defaults of CELL_CAL_GET. -/
def cellCalDefaults : List Byte := (List.range 256).flatMap (fun _ => le 4 0x8000)

/-- R310: every GAIN within 10 % of 32 768. -/
def cellCalChecks (p : List Byte) : Option Fail :=
  let rs := (List.range 128).map (fun n => 8 * n)
  let ok (o : Nat) : Bool := decide (29491 ≤ u16 p o ∧ u16 p o ≤ 36045)
  firstFail [chkAt 1 (firstBad rs ok), chkAt 3 (firstBad rs (fun o => ok (o + 4)))]

/-- CAL_GEN of each cell whose calibration changed, with an event of class D (R368, R392). (DEDUCED log 83) -/
def Core.calGen (c : Core) (old new : List Byte) : Core :=
  (List.range 128).foldl (fun a n =>
    let r := a.ledRec n
    if (old.drop (8 * n)).take 8 = (new.drop (8 * n)).take 8 ∨ r.state = 0 then a
    else a.setLedRec n { r with calGen := (r.calGen + 1) % 65536 }) c

/-- An event that no alarm is: a class D note; where its rule names no NAME_CODE, the code is a free value (R368, R392).
(DESIGN CHOICE log 84) -/
def Core.note (c : Core) (inst : Nat) (data : List Nat) : Core :=
  c.fresh.logRecord ((Config.freeWord c.free).toNat % 65536) 3 inst 1 data

/-- R310, R368: CELL_CAL_SET. -/
def execCellCalSet (m : Msg) (s : State) : Res :=
  go (fun c _ => c.command (setSpec 0x0292 1024) m fun cmd c =>
    match cellCalChecks cmd.p with
    | some f => c.badField cmd.ref f
    | none =>
      let old := if c.cfgSet 0x0292 then c.cfgP 0x0292 else cellCalDefaults
      (if c.pwr.nvBad then c else (c.calGen old cmd.p).note 0xFFFF [0, 0, 0]).configure cmd none) s

/-- R310: CELL_CAL_GET. -/
def execCellCalGet (m : Msg) (s : State) : Res :=
  go (fun c _ => c.command (getSpec 0x0293) m fun cmd c => c.getCfg 0x0292 cellCalDefaults cmd) s

end Sys2Proof.Machine
end

