-- ==== Sys2Proof/Machine/CellDispatch.lean ====
section
/-! DEFINITION. The dispatch engine (R180 to R207): keys, ranking, level count, consensus, window statistics, and its
commands. -/
namespace Sys2Proof.Machine

def Core.dstr (c : Core) (s : Nat) : DispStr := mapGet (fun _ => DispStr.reset) c.disp.strs s
def Core.setDstr (c : Core) (s : Nat) (x : DispStr) : Core :=
  { c with disp := { c.disp with strs := mapSet (fun _ => DispStr.reset) c.disp.strs s x } }

/-! ### Keys (R186 to R191) -/

/-- soc and wear of a cell in force (R186). -/
def Core.soc (c : Core) (n : Nat) : Nat := mapGet (fun _ => 32768) c.disp.soc n % 65536
def Core.wear (c : Core) (n : Nat) : Nat := mapGet (fun _ => 32768) c.disp.soc n / 65536 % 1024

/-- temp_c (R186): the higher of the valid readings of the two module sensors. -/
def Core.tempC (c : Core) (n : Nat) : Option Int :=
  match c.auxNow n 0, c.auxNow n 1 with
  | some a, some b => some (max a b)
  | some a, none => some a
  | none, some b => some b
  | none, none => none

/-- Direction of a string (R185): 0 DISCHARGE, 1 CHARGE. -/
def Core.direction (c : Core) (s : Nat) (sgn : Int) : Nat :=
  let d := c.dstr s
  let i := if c.sigValid s then some (rne (c.sigRaw s * c.iFs) 32768) else d.cons
  match i with
  | none => d.dir
  | some x =>
    let p := sgn * x
    let db : Int := c.getF DSP_DIR_CFG.DIR_DB
    if db ≤ p then 0 else if p ≤ -db then 1 else d.dir

/-- Mean of soc over the usable cells. -/
def Core.socMean (c : Core) (l : List Nat) : Nat := rneNat (sumN (l.map c.soc)) l.length

/-- The key of R188. -/
def Core.key (c : Core) (n dir mean : Nat) : Nat :=
  match c.tempC n with
  | none => 4095
  | some t =>
    let d : Int := if c.flag DSP_STATUS.SOC_STALE then 0 else (c.soc n : Int) - mean
    let k := rne (c.getF DSP_KEY_W1.KS * d) 4096
    let ofs : Int := c.getF DSP_KEY_W2.OFFSET
    let st := if dir = 0 then ofs - k else ofs + k
    let tt := rne (c.getF DSP_KEY_W1.KT * max (t - c.getI DSP_KEY_W2.T_KNEE) 0) 100
    let wt := rne (c.getF DSP_KEY_W1.KW * c.wear n : Nat) 256
    (clampI 0 4095 (st + tt + wt)).toNat

/-- ROT_IDX of a cell (R189). -/
def Core.rotIdx (c : Core) (n : Nat) : Nat := (n + 128 - c.getF DSP_STATUS.ROT) % 128

/-- The sort word of a usable cell (R189). -/
def Core.sortWord (c : Core) (s n key : Nat) (inc : Bool) : Nat :=
  s * 2 ^ 19 + (if inc then key - c.getF DSP_STICKY.STICKY else key) * 2 ^ 7 + c.rotIdx n

/-- P_eff of a string whose ranking holds `u` cells, `n` of them full (R165, R190). -/
def Core.pEff (c : Core) (s mode n u : Nat) : Nat :=
  if mode = 0 then min (c.getF (MOD_STR_CFG.P s) + 1) (u - n) else if mode = 1 then min 1 (u - n) else 0

/-! ### Level count (R193) -/

/-- N, the running sum and the voltages that remain. -/
def levelGo (a : Int) : Int → Nat → List Int → Nat × Int × List Int
  | cum, n, [] => (n, cum, [])
  | cum, n, v :: t => if cum + v ≤ a then levelGo a (cum + v) (n + 1) t else (n, cum, v :: t)

/-- N, f_raw and whether the reference is clipped. -/
def levelCount (a : Int) (vs : List Int) : Nat × Nat × Bool :=
  match levelGo a 0 0 vs with
  | (n, cum, []) => (n, 0, decide (cum < a))
  | (n, cum, v :: _) => (n, (min (rne (32768 * (a - cum)) v.toNat) 32767).toNat, false)

/-! ### One string -/

/-- The reference of a string after its hand-off `x` (R184): the string's record with the reference it uses. -/
def Core.takeRef (c : Core) (s : Nat) (x : Option Int) : DispStr :=
  let d := c.dstr s
  match x with
  | some v => { d with ref := v, refAge := 0, staleDue := false }
  | none => { d with refAge := d.refAge + 1, staleDue := c.dispatched && decide (c.ageMax < d.refAge + 1) }

/-- The dispatch of one string for period `q` in the modulation mode `mode`. -/
def Core.dispatchString (c : Core) (q mode s : Nat) (x : Option Int) : Core × StrOut × List CellOut :=
  let d := c.takeRef s x
  let vref := rne (d.ref * c.vFs) 32768
  let sgn : Int := if 0 < d.ref then 1 else if d.ref < 0 then -1 else d.sgn
  let flip := decide (sgn ≠ d.sgn)
  let dir := c.direction s sgn
  let us := c.usableOf s q
  let mean := c.socMean us
  let incs := if flip || (c.running && !d.driven) then [] else d.gave
  let inc (n : Nat) : Bool := incs.contains n
  let key (n : Nat) : Nat := c.key n dir mean
  let stair : Bool := mode == 2 && c.flag DSP_CTRL.HOLD_RANK
  let hold := stair && d.mode == 2 && !flip && !(d.wb && decide (1024 ≤ d.held))
  let sorted := (sortBy (fun a b => decide (a.1 ≤ b.1)) (us.map (fun n => (c.sortWord s n (key n) (inc n), n)))).map (·.2)
  let kept := d.rank.filter (fun n => us.contains n)
  let rank := if hold then kept ++ us.filter (fun n => !kept.contains n) else sorted
  let lc := levelCount vref.natAbs (rank.map (fun n => (c.cellV n).getD 0))
  let gave := rank.take (lc.1 + c.pEff s mode lc.1 rank.length)
  let lost := (incs.filter (fun n => !gave.contains n)).length
  let swapped := if incs.isEmpty then [] else (gave.filter (fun n => !incs.contains n)).take lost
  let bump (m : SMap Nat) (l : List Nat) : SMap Nat :=
    l.foldl (fun a n => mapSet (fun _ => 0) a n (mapGet (fun _ => 0) a n + 1)) m
  let c1 := c.setDstr s { d with
    sgn := sgn, dir := dir, rank := rank, gave := gave, mode := mode, held := if hold then d.held + 1 else 0, wb := false
    driven := c.running, swaps := d.swaps + swapped.length }
  let c2 := { c1 with disp := { c1.disp with
    ins := bump c1.disp.ins (rank.take lc.1), swapsIn := bump c1.disp.swapsIn swapped } }
  let c3 := if lc.2.2 then (c2.event DSP_EVENT.VREF_CLIPPED).raise .vrefClipped s [s, vref.natAbs] true
    else c2.clearCause .vrefClipped s
  (c3, ⟨sgn, lc.1, lc.2.1, us.length, dir, vref, lc.2.2, hold, rank⟩,
   (c.members s).map (fun n =>
    let u := us.contains n
    ⟨n, if u then key n else 4095, inc n, u, (c.cellV n).isNone, if u then rank.idxOf n + 1 else 0, if u then s else 7,
      c.tempC n⟩))

/-- The word of a cell that belongs to no string in use (R189). (DEDUCED log 199) -/
def Core.idleOut (c : Core) (n : Nat) : CellOut := ⟨n, 4095, false, false, false, 0, 7, c.tempC n⟩

/-! ### Consensus (R197, R198) -/

/-- The readings of a string in the order of the 29-bit words. -/
def Core.readings (c : Core) (s : Nat) : List (Nat × Int) :=
  let l := (c.members s).filter (fun n =>
    (c.cell n).adm == .admitted && !(c.cell n).gone && c.laneState n == 2 && (c.cellVal n).valid && !(c.cellVal n).suspect)
  let word (n : Nat) : Nat := (clampI 0 524287 (rne ((c.cellVal n).is) 4 + 262144)).toNat * 128 + n
  (sortBy (fun a b => decide (a.1 ≤ b.1)) (l.map (fun n => (word n, n)))).map (fun e => (e.2, (c.cellVal e.2).is))

/-- The vote of a string. -/
def Core.vote (c : Core) (s : Nat) : VoteOut :=
  let l := c.readings s
  let n := l.length
  let mA (x : Int) : Int := rne (x * c.iFs) 32768
  let valA := if c.sigValid s then some (mA (c.sigRaw s)) else none
  let valD := (c.cnv.sensD.getD s none).map mA
  let m := ((l.getD ((n - 1) / 2) (0, 0))).2
  let tol : Int := max 100 (c.getF DSP_CONS_CFG.TOL_CELL)
  let inside (e : Nat × Int) : Bool := decide ((e.2 - m).natAbs ≤ tol)
  let band := l.filter inside
  let ok := c.flag DSP_CTRL.CONS_EN && decide (3 ≤ n) && decide (n / 2 + 1 ≤ band.length)
  let cons := if ok then some (rne (sumI (band.map (·.2))) band.length) else none
  let tolS : Int := max 100 (c.getF DSP_CONS_CFG.TOL_SENS)
  let agree (v : Option Int) : Bool := match v, cons with
    | some x, some k => decide ((x - k).natAbs ≤ tolS)
    | _, _ => false
  ⟨n, if c.flag DSP_CTRL.CONS_EN ∧ 3 ≤ n then band.length else 0, cons, agree valA, agree valD,
   if ok then (l.filter (fun e => !inside e)).map (·.1) else [], l.map (·.1)⟩

/-- The engine's run at the apply point: references `xs` per string, for the next period (R180, R181). -/
def Core.dispatchRun (c : Core) (mode : Nat) (xs : List (Option Int)) : Core :=
  let q := c.modu.period + 1
  let r := c.strings.foldl (fun (a : Core × List (Option StrOut) × List CellOut) s =>
    let y := a.1.dispatchString q mode s (xs.getD s none)
    (y.1, a.2.1 ++ [some y.2.1], a.2.2 ++ y.2.2)) (c, [], [])
  let votes := c.strings.map (fun s => some (c.vote s))
  let idle := (List.range 128).filter (fun n => !c.allMembers.contains n)
  { r.1 with disp := { r.1.disp with out := some ⟨r.2.1, r.2.2 ++ idle.map c.idleOut, votes⟩ } }

/-! ### Hand-over of a result (phase I) -/

/-- A run counter and its opposite. -/
def countRun (c : Bool) (x : Nat × Nat) : Nat × Nat := if c then (x.1 + 1, 0) else (0, x.2 + 1)

def Core.sensPeriods (c : Core) : Nat := max 1 (c.getF DSP_CONS_TIME.SENS_PERIODS)
def Core.outlierPeriods (c : Core) : Nat := max 1 (c.getF DSP_CONS_TIME.OUTLIER_PERIODS)

/-- The vote of a string enters the registers, the signal table and the runs of R199. -/
def Core.putVote (c : Core) (s : Nat) (v : VoteOut) : Core :=
  let d := c.dstr s
  let r (i : Nat) (cond : Bool) := countRun cond (d.run.getD i 0, d.ok.getD i 0)
  let ra := r 0 (v.cons.isSome && !v.agreeA)
  let rd := r 1 (v.cons.isSome && !v.agreeD)
  let rn := r 2 (v.cons.isNone && c.running)
  let any := r 3 (v.cons.isNone || !v.agreeA || !v.agreeD)
  let c1 := c.setDstr s { d with cons := v.cons, run := [ra.1, rd.1, rn.1, any.1], ok := [ra.2, rd.2, rn.2, any.2] }
  let c2 := ((c1.setF (DSP_STR_VOTE.N_READ s) v.nRead).setF (DSP_STR_VOTE.N_BAND s) v.nBand).setFlag
    (DSP_STR_VOTE.CONS_VALID s) v.cons.isSome
  let c3 := ((c2.setFlag (DSP_STR_VOTE.A_AGREE s) v.agreeA).setFlag (DSP_STR_VOTE.D_AGREE s) v.agreeD).setF
    (DSP_STR_VOTE.RUN s) (min 65535 any.1)
  let c4 := match v.cons with
    | some k => c3.setReg (DSP_STR_CONS.a s) (BitVec.ofNat 32 (ofS 32 k))
    | none => c3
  let past (k : Nat) : Bool := decide (c.sensPeriods ≤ k)
  let c5 := if past ra.2 then c4.clearCause .sensorDisagree (2 * s) else c4
  let c6 := if past rd.2 then c5.clearCause .sensorDisagree (2 * s + 1) else c5
  let c7 := if past rn.2 then c6.clearCause .noConsensus s else c6
  (c.members s).foldl (fun a n =>
    let o := v.out.contains n
    let x := countRun o (mapGet (fun _ => 0) a.disp.outRun n, mapGet (fun _ => 0) a.disp.outOk n)
    let b := { a with disp := { a.disp with
      outRun := mapSet (fun _ => 0) a.disp.outRun n x.1, outOk := mapSet (fun _ => 0) a.disp.outOk n x.2 } }
    let e := if v.readers.contains n then b.setFlag (DSP_C_STAT.OUTLIER n) o else b
    if past x.2 then e.clearCause .cellCurrentOutlier n else e) c7

/-- The entries ICONS_s and VOTE_s at data-ready (R211, R212): the votes of the last period's dispatch. -/
def Core.deliverVotes (c : Core) : Core :=
  c.strings.foldl (fun a s =>
    if c.disp.voted = c.modu.period ∧ c.flag (DSP_STR_VOTE.CONS_VALID s) then
      (a.sigPut (0x17 + s) (ofS 16 (toSig c.iFs (c.getI (DSP_STR_CONS.VALUE s)))) 1).sigPut (0x1D + s)
        (c.getF (DSP_STR_VOTE.A_AGREE s) + 2 * c.getF (DSP_STR_VOTE.D_AGREE s)) 1
    else (a.sigMiss (0x17 + s)).sigMiss (0x1D + s)) c

/-- A string's result in its registers. -/
def Core.putStr (c : Core) (s : Nat) (o : StrOut) : Core :=
  let w := b2n (decide (o.sgn < 0)) + 2 * min o.n 63 + 2 ^ 7 * o.dir + 2 ^ 8 * o.fRaw + 2 ^ 23 * min o.u 63
    + 2 ^ 29 * b2n o.clipped + 2 ^ 30 * b2n o.held
  (c.setReg (DSP_STR_RESULT.a s) (BitVec.ofNat 32 w)).setReg (DSP_STR_VREF.a s) (BitVec.ofNat 32 (ofS 32 o.vref))

/-- A cell's result in its registers; an entry that is usable again and a temperature that is there end their alarms. -/
def Core.putCell (c : Core) (o : CellOut) : Core :=
  let w := o.key + 2 ^ 12 * b2n o.inc + 2 ^ 13 * b2n o.usable + 2 ^ 14 * min o.rank 63 + 2 ^ 20 * o.str
  let c1 := (c.setReg (DSP_C_KEY.a o.cell) (BitVec.ofNat 32 w)).setFlag (DSP_C_STAT.STALE o.cell) o.stale
  let c2 := if o.stale then c1 else c1.clearCause .cellStale o.cell
  match o.temp with
  | some t => ((c2.setI (DSP_C_TEMP.TEMP o.cell) t).setF (DSP_C_STAT.TEMP_MISSING o.cell) 0).clearCause .tempMissing o.cell
  | none => c2

/-- The result of the dispatch as the modulator takes it (R161, R194). -/
def StrOut.toIn (o : StrOut) : StrIn := ⟨o.sgn, o.n, o.fRaw, o.rank⟩

/-- The registers of a result; those of a string that is not in use hold none. (DEDUCED log 199) -/
def Core.publish (c : Core) (o : DispOut) : Core :=
  let idx := List.range o.strs.length
  let c0 := ((List.range 6).filter (fun s => !(o.strs.getD s none).isSome)).foldl (fun a s =>
    ((a.setReg (DSP_STR_RESULT.a s) 0).setReg (DSP_STR_VREF.a s) 0).setReg (DSP_STR_VOTE.a s) 0) c
  let c1 := (o.strs.zip idx).foldl (fun a e => match e.1 with
    | some x => a.putStr e.2 x
    | none => a) c0
  let c2 := o.cells.foldl Core.putCell c1
  let c3 := (o.votes.zip (List.range o.votes.length)).foldl (fun a e => match e.1 with
    | some v => a.putVote e.2 v
    | none => a) c2
  { c3 with disp := { c3.disp with
    out := none, voted := c.modu.period + 1, usedNext := (List.range 6).map (fun s => match o.strs.getD s none with
      | some x => x.rank
      | none => []) } }

/-! ### Alarms of the engine -/

/-- R183: a cell's voltage entry is too old. -/
def execCellStale (c : Fin 128) (s : State) : Res :=
  go (fun k _ =>
    let n := c.val
    if k.role n = 1 ∧ (k.cellV n).isNone ∧ !k.causeOn .cellStale n then
      ((k.setF (DSP_C_STAT.STALE n) 1).event DSP_EVENT.CELL_STALE).raise .cellStale n [n, (k.cellVal n).age] true
    else k) s

/-- R184: the reference of a string has been invalid for more than AGE_MAX periods at a dispatch. -/
def execVrefStale (s : Fin 6) (st : State) : Res :=
  go (fun c _ =>
    let d := c.dstr s.val
    if d.staleDue ∧ c.dispatched then
      ((c.setDstr s.val { d with staleDue := false }).event DSP_EVENT.VREF_STALE).raiseA .vrefStale s.val [s.val, d.refAge]
    else c) st

/-- R187: four windows have passed without a SOC_COMMIT. -/
def execSocStale (s : State) : Res :=
  go (fun c _ =>
    if 4 ≤ c.disp.noCommit ∧ !c.flag DSP_STATUS.SOC_STALE then
      ((c.setF DSP_STATUS.SOC_STALE 1).event DSP_EVENT.SOC_STALE).raise .socStale 0xFFFF [c.disp.noCommit] true
    else c) s

/-- R187: a cell has no valid module temperature. -/
def execTempMissing (c : Fin 128) (s : State) : Res :=
  go (fun k _ =>
    let n := c.val
    if k.role n = 1 ∧ (k.tempC n).isNone ∧ !k.causeOn .tempMissing n then
      ((k.setF (DSP_C_STAT.TEMP_MISSING n) 1).event DSP_EVENT.TEMP_MISSING).raise .tempMissing n [n] true
    else k) s

/-- R199: a reading has been outside the band for OUTLIER_PERIODS periods. -/
def execCellCurrentOutlier (c : Fin 128) (s : State) : Res :=
  go (fun k _ =>
    let n := c.val
    if k.outlierPeriods ≤ mapGet (fun _ => 0) k.disp.outRun n ∧ !k.causeOn .cellCurrentOutlier n then
      (k.event DSP_EVENT.CURRENT_OUTLIER).raise .cellCurrentOutlier n
        [n, dI (k.cellVal n).is, (k.getF (DSP_STR_CONS.VALUE (k.strOf n)))] true
    else k) s

/-- R199: sensor A or D (`d`) has disagreed for SENS_PERIODS periods. The instance is 2 × string + sensor. -/
def execSensorDisagree (s : Fin 6) (d : Bool) (st : State) : Res :=
  go (fun c _ =>
    let k := b2n d
    let i := 2 * s.val + k
    let v : Int := if d then rne ((c.cnv.sensD.getD s.val none).getD 0 * c.iFs) 32768 else rne (c.sigRaw s.val * c.iFs) 32768
    if c.sensPeriods ≤ (c.dstr s.val).run.getD k 0 ∧ !c.causeOn .sensorDisagree i then
      (c.event DSP_EVENT.SENSOR_DISAGREE).raise .sensorDisagree i [s.val, k, dI v] true
    else c) st

/-- R199: no consensus has formed for SENS_PERIODS periods in a driven mode. -/
def execNoConsensus (s : Fin 6) (st : State) : Res :=
  go (fun c _ =>
    if c.sensPeriods ≤ (c.dstr s.val).run.getD 2 0 ∧ !c.causeOn .noConsensus s.val then
      (c.event DSP_EVENT.NO_CONSENSUS).raise .noConsensus s.val
        [s.val, c.getF (DSP_STR_VOTE.N_READ s.val), c.getF (DSP_STR_VOTE.N_BAND s.val)] true
    else c) st

/-! ### Windows (R187, R191, R201, R202) -/

/-- Statistics of one string at a window boundary. -/
def Core.windowStr (c : Core) (s : Nat) : Core :=
  let d := c.dstr s
  let l := c.inUse s
  let f := if l.isEmpty then 0 else rneNat (d.swaps * 1000000000) (l.length * 1024 * c.tc)
  let socs := l.map c.soc
  let lo := socs.foldl min 65535
  let hi := socs.foldl max 0
  let c1 := (c.setF (DSP_STR_WINDOW.SWAPS s) (min 65535 d.swaps)).setF (DSP_STR_WINDOW.F_SW s) (min 65535 f)
  let c2 := (c1.setF (DSP_STR_SOC.SOC_MEAN s) (c.socMean l)).setF (DSP_STR_SOC.SOC_SPREAD s) (hi - lo)
  c2.setDstr s { d with swaps := 0, wb := true, uWin := l.length, dirWin := d.dir }

/-- Automatic stickiness (R202). -/
def Core.stickyAuto (c : Core) : Core :=
  let n := c.map.count
  if !c.flag DSP_CTRL.STICKY_AUTO ∨ n = 0 ∨ c.disp.stickySet then c
  else
    let total := sumN (c.strings.map (fun s => c.getF (DSP_STR_WINDOW.F_SW s)))
    let st := c.getF DSP_STICKY.STICKY
    let step := max 1 (c.getF DSP_STICKY.STEP)
    let new := if n * c.getF DSP_FSW.F_SW_HI < total then min (st + step) 255
      else if total < n * c.getF DSP_FSW.F_SW_LO then max (st - step) (c.getF DSP_STICKY.STICKY_MIN) else st
    if new = st then c
    else ((c.setF DSP_STICKY.STICKY new).event DSP_EVENT.STICKY_ADJUSTED).raise .stickyAdjusted 0xFFFF [st, new] false

/-- R201: a balancing window ends at the period start just taken. -/
def execWindowEnd (s : State) : Res :=
  go (fun c _ =>
    if c.modu.period % 1024 ≠ 0 ∨ c.disp.winDone = c.modu.period then c
    else
      let c1 := (List.range 128).foldl (fun a n =>
        (a.setF (DSP_C_STAT.INS_PERIODS n) (mapGet (fun _ => 0) c.disp.ins n)).setF (DSP_C_STAT.SWAPS_IN n)
          (min 255 (mapGet (fun _ => 0) c.disp.swapsIn n))) c
      let c2 := (List.range 6).foldl Core.windowStr c1
      let due := match c.disp.commitAt with
        | some q => decide (c.modu.period ≤ q + 1024)
        | none => false
      let c3 := { c2 with disp := { c2.disp with
        ins := [], swapsIn := [], winDone := c.modu.period, noCommit := if due then 0 else c.disp.noCommit + 1 } }
      (c3.setF DSP_STATUS.ROT (c.getF DSP_STATUS.ROT + 1)).stickyAuto.event DSP_EVENT.WINDOW_END) s

/-! ### State of charge (R186, R370) -/

/-- The committed soc and wear take effect at a period start. -/
def Core.applySoc (c : Core) : Core :=
  ({ c with disp := { c.disp with soc := c.disp.socNext, noCommit := 0, commitAt := some c.modu.period } }.setF DSP_STATUS.SOC_STALE 0).clearCause .socStale
    0xFFFF

/-- A cycle of range `r` counted (R370): 2 for a full cycle, 1 for a half. -/
def countCycle (h : List Nat) (r k : Nat) : List Nat :=
  let i := min (r * 64 / 65536) 63
  setAt i ((h.getD i 0 + k) % 2 ^ 32) h

/-- The rainflow rule of ASTM E1049 on the open reversals, newest first; `n` bounds the rounds. -/
def rainflowGo : Nat → List Nat → List Nat → List Nat × List Nat
  | 0, st, h => (st, h)
  | n + 1, st, h =>
    match st with
    | c :: b :: a :: rest =>
      let x := (c - b) + (b - c)
      let y := (b - a) + (a - b)
      if x < y then (st, h)
      else if rest.isEmpty then rainflowGo n [c, b] (countCycle h y 1)
      else rainflowGo n (c :: rest) (countCycle h y 2)
    | _ => (st, h)

/-- A point of the state-of-charge sequence (R370). The newest entry of the stack is the running extreme: a point that goes
on in its direction replaces it, a point that turns back by 64 units or more is a new reversal. -/
def LedRec.rainflow (r : LedRec) (x : Nat) : LedRec :=
  let st := r.rfStack.reverse
  match st with
  | [] => { r with rfStack := [x] }
  | e :: t =>
    let far := decide (64 ≤ (x - e) + (e - x))
    let goesOn := match t with
      | [] => false
      | d :: _ => (decide (d ≤ e) && decide (e ≤ x)) || (decide (e ≤ d) && decide (x ≤ e))
    if goesOn then
      let g := rainflowGo 15 (x :: t) r.cycleHalf
      { r with rfStack := g.1.reverse, cycleHalf := g.2 }
    else if !far then r
    else
      let full := 15 ≤ r.rfStack.length
      let kept := if full then r.rfStack.drop 1 else r.rfStack
      let h := if full then countCycle r.cycleHalf
          ((r.rfStack.getD 0 0 - r.rfStack.getD 1 0) + (r.rfStack.getD 1 0 - r.rfStack.getD 0 0)) 1 else r.cycleHalf
      let g := rainflowGo 15 (x :: kept.reverse) h
      { r with rfStack := g.1.reverse, cycleHalf := g.2 }

/-- SOC_COMMIT written (R186, R370): the shadows wait for the period start, and each cell's soc is a point of its
sequence. -/
def Core.socCommit (c : Core) : Core :=
  let m := (List.range 128).foldl (fun m n => mapSet (fun _ => 32768) m n ((c.reg (DSP_C_SOC.a n)).toNat % 2 ^ 26)) []
  let c1 := { c with disp := { c.disp with socNext := m } }
  let c2 := (c1.lgr.recs.map (·.1)).foldl (fun a n =>
    let r := a.ledRec n
    if r.state = 1 then a.setLedRec n (r.rainflow (c.getF (DSP_C_SOC.SOC n))) else a) c1
  c2.addShadow .soc

/-- R186: a write of 1 to SOC_COMMIT. -/
def execSocCommit (s : State) : Res := go (fun c _ => c.socCommit) s

/-! ### DISPATCH_SET, DISPATCH_GET, DISPATCH_WEIGHTS, DISPATCH_STATS (R203 to R206) -/

/-- The settings of a DISPATCH_SET payload. -/
def Core.loadDispatch (c : Core) (p : List Byte) : Core :=
  let c1 := ((c.setReg DSP_VSCALE.a (BitVec.ofNat 32 (u32 p 0))).setF DSP_KEY_W1.KS (u16 p 4)).setF DSP_KEY_W1.KT (u8 p 6)
  let c2 := ((c1.setF DSP_KEY_W1.KW (u8 p 7)).setF DSP_KEY_W2.OFFSET (u16 p 8)).setF DSP_KEY_W2.T_KNEE (u16 p 10)
  let c3 := ((c2.setF DSP_STICKY.STICKY (u8 p 12)).setF DSP_STICKY.STICKY_MIN (u8 p 13)).setF DSP_STICKY.STEP (u8 p 14)
  let c4 := (c3.setF DSP_CTRL.STICKY_AUTO (u8 p 15)).setF DSP_CTRL.HOLD_RANK (u8 p 15 / 2)
  let c5 := ((c4.setF DSP_CTRL.CONS_EN (u8 p 15 / 4)).setF DSP_FSW.F_SW_LO (u16 p 16)).setF DSP_FSW.F_SW_HI (u16 p 18)
  let c6 := ((c5.setF DSP_DIR_CFG.DIR_DB (u16 p 20)).setF DSP_DIR_CFG.AGE_MAX (u8 p 22)).setF DSP_CONS_CFG.TOL_CELL
    (u16 p 24)
  let c7 := ((c6.setF DSP_CONS_CFG.TOL_SENS (u16 p 26)).setF DSP_CONS_TIME.SENS_PERIODS (u16 p 28)).setF
    DSP_CONS_TIME.OUTLIER_PERIODS (u16 p 30)
  { c7 with disp := { c7.disp with stickySet := true } }

/-- The checks of R204. -/
def dispatchChecks (p : List Byte) : Option Fail :=
  firstFail
    [chkAt 1 (lowest [if u8 p 15 < 8 then none else some 15, firstNonZero p 23 1, firstNonZero p 32 8]),
     chk 2 0 (decide (1 ≤ u32 p 0 ∧ u32 p 0 ≤ 4000000)), chk 3 8 (decide (u16 p 8 ≤ 4095)),
     chkAt 4 (lowest [if u8 p 13 ≤ u8 p 12 then none else some 13,
       if 1 ≤ u8 p 14 ∧ u8 p 14 ≤ 63 then none else some 14]),
     chk 5 18 (decide (u16 p 16 < u16 p 18 ∧ u16 p 18 ≤ 20000)), chk 6 22 (decide (1 ≤ u8 p 22 ∧ u8 p 22 ≤ 16)),
     chkAt 7 (firstBad [24, 26, 28, 30] (fun o => decide ((if o < 28 then 100 else 1) ≤ u16 p o)))]

/-- R203, R204: DISPATCH_SET. -/
def execDispatchSet (m : Msg) (s : State) : Res :=
  go (fun c _ => c.command (setSpec 0x0240 40) m fun cmd c => c.configure cmd (dispatchChecks cmd.p)) s

/-- The defaults of DISPATCH_GET (R207, R489). -/
def dispatchDefaults : List Byte :=
  le 4 1250000 ++ le 2 625 ++ le 1 20 ++ le 1 64 ++ le 2 2048 ++ le 2 4000 ++ le 1 32 ++ le 1 0 ++ le 1 8 ++ le 1 6
    ++ le 2 1000 ++ le 2 3000 ++ le 2 2000 ++ le 1 4 ++ zeros 1 ++ le 2 3000 ++ le 2 4000 ++ le 2 40 ++ le 2 1024 ++ zeros 8

/-- R203: DISPATCH_GET. -/
def execDispatchGet (m : Msg) (s : State) : Res :=
  go (fun c _ => c.command (getSpec 0x0241) m fun cmd c => c.getCfg 0x0240 dispatchDefaults cmd) s

/-- The weights of DISPATCH_WEIGHTS at a period start. -/
def Core.loadWeights (c : Core) (p : List Byte) : Core :=
  let c1 := ((c.setF DSP_KEY_W1.KS (u16 p 0)).setF DSP_KEY_W1.KT (u8 p 2)).setF DSP_KEY_W1.KW (u8 p 3)
  let c2 := ((c1.setF DSP_KEY_W2.OFFSET (u16 p 4)).setF DSP_KEY_W2.T_KNEE (u16 p 6)).setF DSP_STICKY.STICKY (u8 p 8)
  { c2 with disp := { c2.disp with stickySet := true } }

/-- R205: DISPATCH_WEIGHTS. -/
def execDispatchWeights (m : Msg) (s : State) : Res :=
  go (fun c _ => c.command
      { op := 0x0242, modes := fun k => k != .off && k != .safe, len := lenIs 12, expect := 12, shadow := true } m fun cmd c =>
    match firstFail [chkAt 1 (firstNonZero cmd.p 9 3), chk 3 4 (decide (u16 cmd.p 4 ≤ 4095)),
      chk 4 8 (decide (c.getF DSP_STICKY.STICKY_MIN ≤ u8 cmd.p 8))] with
    | some f => c.badField cmd.ref f
    | none => ((c.noteBlob cmd).addShadow (.weights cmd.p)).done cmd.ref) s

/-- One record of DISPATCH_STATS. -/
def Core.statsRecord (c : Core) (s : Nat) : List Byte :=
  if s < c.map.count then
    le 2 (c.getF (DSP_STR_WINDOW.SWAPS s)) ++ le 2 (c.getF (DSP_STR_WINDOW.F_SW s)) ++ le 2 (c.getF (DSP_STR_SOC.SOC_MEAN s))
      ++ le 2 (c.getF (DSP_STR_SOC.SOC_SPREAD s)) ++ le 1 (c.dstr s).uWin ++ le 1 (c.dstr s).dirWin
      ++ le 4 (c.getF (DSP_STR_CONS.VALUE s)) ++ zeros 2
  else zeros 16

/-- R206: DISPATCH_STATS. -/
def execDispatchStats (m : Msg) (s : State) : Res :=
  go (fun c _ => c.command (getSpec 0x0420) m fun cmd c =>
    c.reply cmd.ref stDONE ((List.range 6).flatMap c.statsRecord)) s

end Sys2Proof.Machine
end

