-- ==== Sys2Proof/Machine/Control.lean ====
section
/-! DEFINITION. The control engine (R208 to R238): the configuration image, loop slots, transform units, flux observer,
plausibility model, the schedule with its timing test, and its commands. -/
namespace Sys2Proof.Machine

/-! ### The images in force (R238) -/

/-- `k` words of registers from word address `a` on, as bytes. -/
def Core.regBytes (c : Core) : Nat → Nat → List Byte
  | _, 0 => []
  | a, k + 1 => le 4 (c.reg a).toNat ++ c.regBytes (a + 4) k

/-- Bytes written into registers from word address `a` on; `k` words. -/
def Core.putRegBytes (c : Core) (a : Nat) (b : List Byte) : Nat → Core
  | 0 => c
  | k + 1 => (c.setReg a (BitVec.ofNat 32 (uN 4 b 0))).putRegBytes (a + 4) (b.drop 4) k

/-- The CONTROL_SET payload in force. -/
def Core.ctlImage (c : Core) : List Byte := c.regBytes (CEN_CFG_IMAGE.a 0) 568

/-- The MOTOR_MODEL_SET payload in force. -/
def Core.modelImage (c : Core) : List Byte := c.regBytes (CEN_MODEL_IMAGE.a 0) 7

/-- Entries of SCHED_LEN, and one schedule entry: operation, A, B (R232). -/
def schedLen (p : List Byte) : Nat := min 64 (u8 p 16)
def schedEntry (p : List Byte) (j : Nat) : Nat × Nat × Nat := (u8 p (32 + 4 * j), u8 p (33 + 4 * j), u8 p (34 + 4 * j))
def sched (p : List Byte) : List (Nat × Nat × Nat) := (List.range (schedLen p)).map (schedEntry p)

/-- Record of a slot and of a transform unit. -/
def slotRec (p : List Byte) (k : Nat) : List Byte := (p.drop (288 + 48 * k)).take 48
def xuRec (p : List Byte) (u : Nat) : List Byte := (p.drop (1824 + 32 * u)).take 32
def obsRec (p : List Byte) : List Byte := (p.drop 2208).take 32
def plsRec (p : List Byte) : List Byte := (p.drop 2240).take 32

/-- IN, OUT and P of a transform record. -/
def xIn (r : List Byte) (i : Nat) : Nat := u8 r (2 + i)
def xOut (r : List Byte) (i : Nat) : Nat := u8 r (8 + i)
def xP (r : List Byte) (i : Nat) : Int := i16 r (14 + 2 * i)

/-! ### Cost (R222, R228, R229) -/

/-- Cycles of a schedule entry. -/
def opCost (p : List Byte) (e : Nat × Nat × Nat) : Nat :=
  match e.1 with
  | 1 => if u8 (slotRec p e.2.1) 0 = 2 then 64 else 48
  | 2 =>
    let r := xuRec p e.2.1
    match u8 r 0 with
    | 1 => 24
    | 2 => 40
    | 3 => 56
    | 4 => if xP r 0 = 0 then 72 else 80
    | 5 => 24
    | 6 => 40
    | _ => 20
  | 3 => 400
  | 4 => 220
  | _ => 8

/-- C of a schedule. -/
def schedCost (p : List Byte) : Nat := 12 + sumN ((sched p).map (opCost p)) + 24

/-- The window of R229 in half ns, for an apply point and a sample offset in 12.5 ns. -/
def windowHalf (apply ofs : Nat) : Nat := 25 * (apply - ofs) - 2400

/-- The cycle limit of R229. -/
def cycleLimit (apply ofs : Nat) : Nat :=
  let w := windowHalf apply ofs
  min 8000 (min (w * 400 / 2000) (w * 99 / 2000))

/-- CEN_STATUS, CEN_LIMIT and the island's clock follow the schedule and the timing in force. -/
def Core.cenStatus (c : Core) : Core :=
  let ap := c.getF MOD_TIMING.APPLY
  let ofs := c.getF MOD_TIMING.SAMPLE_OFS
  let c1 := (c.setF CEN_LIMIT.LIMIT (cycleLimit ap ofs)).setF CEN_LIMIT.WINDOW (windowHalf ap ofs / 25)
  c1.setFlag CEN_STATUS.BYPASS (c.onBypass 3)

/-! ### Loop slots (R216 to R221) -/

/-- A coefficient of a bank: mantissa `i` (KP, KI, KD) with its shift. (DEDUCED log 91) -/
def slotCoef (r : List Byte) (bank i : Nat) : Coef :=
  let o := 8 + 12 * bank
  ⟨i16 r (o + 2 * i), min 8 (u16 r (o + 6) / 16 ^ i % 16)⟩
def slotMax (r : List Byte) (bank : Nat) : Int := i16 r (16 + 12 * bank)
def slotMin (r : List Byte) (bank : Nat) : Int := i16 r (18 + 12 * bank)

/-- I of a slot. -/
def Core.slotI (c : Core) (k : Nat) : Int :=
  toS 40 (c.getF (CEN_SLOT_IACC_LO.IACC k) + c.getF (CEN_SLOT_IACC_HI.IACC k) % 256 * 2 ^ 32)

def Core.setSlotI (c : Core) (k : Nat) (x : Int) : Core :=
  (c.setF (CEN_SLOT_IACC_LO.IACC k) (ofS 32 x)).setF (CEN_SLOT_IACC_HI.IACC k) (ofS 32 (x / 2 ^ 32))

def Core.slotU (c : Core) (k : Nat) : Int := c.getI (CEN_SLOT_OUT.U k)

def Core.dPrev (c : Core) (k : Nat) : Int := mapGet (fun _ => 0) c.ctl.dPrev k
def Core.setDPrev (c : Core) (k : Nat) (x : Int) : Core :=
  { c with ctl := { c.ctl with dPrev := mapSet (fun _ => 0) c.ctl.dPrev k x } }

/-- The reset state of a slot (R221). -/
def Core.slotReset (c : Core) (k : Nat) : Core :=
  let man := bitOf ((c.reg (CEN_CFG_IMAGE.a (72 + 12 * k))).toNat / 256) 2
  let c1 := ((c.setSlotI k 0).setDPrev k 0).setReg (CEN_SLOT_OUT.a k) 0
  let c2 := ((c1.setF (CEN_SLOT_STAT.SAT k) 0).setF (CEN_SLOT_STAT.INHIBIT k) 0).setF (CEN_SLOT_STAT.PRESET k) 0
  ((c2.setFlag (CEN_SLOT_STAT.MANUAL k) man).setF (CEN_SLOT_STAT.FROZEN k) 0).setF (CEN_SLOT_STAT.HELD k) 1

/-- A slot's MODE and BANK change at a period start (R219, R221). -/
def Core.slotMode (c : Core) (k mode bank : Nat) : Core :=
  let man := c.flag (CEN_SLOT_STAT.MANUAL k)
  let bankNew := decide (bank ≠ c.getF (CEN_SLOT_STAT.BANK k))
  let preset := !c.flag (CEN_SLOT_STAT.HELD k) && decide (mode = 0) && (man || bankNew)
  let c1 := (c.setF (CEN_SLOT_STAT.MANUAL k) mode).setF (CEN_SLOT_STAT.BANK k) bank
  if preset then c1.setF (CEN_SLOT_STAT.PRESET k) 1 else c1

/-- The outputs of a slot. -/
def Core.slotOut (c : Core) (r : List Byte) (u : Int) : Core :=
  let c1 := if u8 r 5 = 255 then c else c.sigWrite (u8 r 5) u
  if bitOf (u8 r 1) 1 ∧ u8 r 6 ≠ 255 then c1.sigWrite (u8 r 6) (sat16 (-u)) else c1

/-- A frozen slot (R220). (DEDUCED log 87) -/
def Core.slotFreeze (c : Core) (k : Nat) (r : List Byte) : Core :=
  let c1 := (c.setF (CEN_SLOT_STAT.FROZEN k) 1).event CEN_EVENT.SLOT_FROZEN
  let c2 := if u8 r 5 = 255 then c1 else c1.sigMiss (u8 r 5)
  if bitOf (u8 r 1) 1 ∧ u8 r 6 ≠ 255 then c2.sigMiss (u8 r 6) else c2

/-- SAT of a register code. -/
def satCode (s : Int) : Nat := if 0 < s then 1 else if s < 0 then 2 else 0

/-- Every input of a slot is valid (R220): reference, feedback, a feed-forward in use, in MANUAL the manual value.
(DEDUCED log 87) -/
def Core.slotInputs (c : Core) (r : List Byte) (man : Bool) : Bool :=
  c.sigValid (u8 r 2) && c.sigValid (u8 r 3) && (!bitOf (u8 r 1) 3 || c.sigValid (u8 r 4))
    && (!man || (u8 r 7 != 255 && c.sigValid (u8 r 7)))

/-- A slot in MANUAL (R218). (DEDUCED log 87) -/
def Core.slotManual (c : Core) (k : Nat) (r : List Byte) : Core :=
  let bank := c.getF (CEN_SLOT_STAT.BANK k)
  if !c.slotInputs r true then c.slotFreeze k r
  else
    let m := c.sigRaw (u8 r 7)
    let u := clampI (slotMin r bank) (slotMax r bank) m
    let c1 := (c.setF (CEN_SLOT_STAT.SAT k) (satCode (m - u))).setF (CEN_SLOT_STAT.INHIBIT k) 0
    let e := sat16 (c.sigRaw (u8 r 2) - c.sigRaw (u8 r 3))
    let c2 := (c1.setDPrev k (if bitOf (u8 r 1) 0 then sat16 (-c.sigRaw (u8 r 3)) else e)).setI (CEN_SLOT_OUT.E k) e
    ((c2.setI (CEN_SLOT_OUT.U k) u).setF (CEN_SLOT_STAT.FROZEN k) 0).slotOut r u

/-- What a run of an AUTO slot computes (R217). -/
structure SlotRun where
  u : Int
  i : Int
  dx : Int
  e : Int
  sat : Int
  inhibit : Bool
  deriving DecidableEq, Repr

/-- R217: one run from reference `rf`, feedback `y`, feed-forward `ff`, the integrator, d_prev and u_prev; with `preset` the
SAT and INHIBIT of the last run, `sat0` and `inh0`, are kept. -/
def slotRun (r : List Byte) (bank : Nat) (rf y ff i0 dp up0 : Int) (preset : Bool) (sat0 : Int) (inh0 : Bool) : SlotRun :=
  let e := sat16 (rf - y)
  let dx := if bitOf (u8 r 1) 0 then sat16 (-y) else e
  let kp := cmul (slotCoef r bank 0) e
  let kd := if u8 r 0 = 2 then cmul (slotCoef r bank 2) (sat16 (dx - dp)) else 0
  let lo := up (slotMin r bank)
  let hi := up (slotMax r bank)
  let i1 := if preset then clampI lo hi (sum40 [up up0, -kp, -kd, -up ff]) else i0
  let v := sum40 [i1, kp, kd, up ff]
  let new : Int := if hi < v then 1 else if v < lo then -1 else 0
  let u := clampI (slotMin r bank) (slotMax r bank) (wr v)
  let sat := if preset then sat0 else new
  let inh := if preset then inh0 else (decide (sat = 1) && decide (0 < e)) || (decide (sat = -1) && decide (e < 0))
  let i2 := if inh then i1 else clampI lo hi (sat40 (i1 + cmul (slotCoef r bank 1) e))
  ⟨u, i2, dx, e, sat, inh⟩

/-- A slot in AUTO. -/
def Core.slotAuto (c : Core) (k : Nat) (r : List Byte) : Core :=
  let ffEn := bitOf (u8 r 1) 3
  if !c.slotInputs r false then c.slotFreeze k r
  else
    let preset := c.flag (CEN_SLOT_STAT.PRESET k)
    let s := c.getF (CEN_SLOT_STAT.SAT k)
    let x := slotRun r (c.getF (CEN_SLOT_STAT.BANK k)) (c.sigRaw (u8 r 2)) (c.sigRaw (u8 r 3))
      (if ffEn then c.sigRaw (u8 r 4) else 0) (c.slotI k) (c.dPrev k) (c.slotU k) preset
      (if s = 1 then 1 else if s = 2 then -1 else 0) (c.flag (CEN_SLOT_STAT.INHIBIT k))
    let c1 := ((c.setSlotI k x.i).setDPrev k x.dx).setI (CEN_SLOT_OUT.U k) x.u
    let c2 := (c1.setI (CEN_SLOT_OUT.E k) x.e).setF (CEN_SLOT_STAT.SAT k) (satCode x.sat)
    let c3 := ((c2.setFlag (CEN_SLOT_STAT.INHIBIT k) x.inhibit).setF (CEN_SLOT_STAT.FROZEN k) 0).setF
      (CEN_SLOT_STAT.PRESET k) 0
    (if preset then c3.event CEN_EVENT.PRESET_DONE else c3).slotOut r x.u

/-- One run of a slot. (DEDUCED log 87) -/
def Core.slotStep (c : Core) (p : List Byte) (k : Nat) : Core :=
  let r := slotRec p k
  if c.flag (CEN_SLOT_STAT.HELD k) then c.slotOut r 0
  else if c.flag (CEN_SLOT_STAT.MANUAL k) then c.slotManual k r
  else c.slotAuto k r

/-! ### Transform units (R222, R223) -/

/-- Inputs a record uses. -/
def xuIns (r : List Byte) : List Nat :=
  match u8 r 0 with
  | 1 => if xP r 0 = 1 then [0, 1] else [0, 1, 2]
  | 2 => [0, 1, 2]
  | 3 => [0, 1, 2, 3]
  | 4 => [0, 1, 2]
  | 5 => [0]
  | 6 => [0]
  | _ => [0, 1, 2].filter (fun i => xIn r i != 255)

/-- Number of outputs of a record. -/
def xuOuts (r : List Byte) : List Nat :=
  match u8 r 0 with
  | 1 => [0, 1]
  | 2 => [0, 1]
  | 3 => [0, 1, 2, 3, 4]
  | 4 => if xP r 0 = 0 then [0, 1] else [0]
  | 5 => [0]
  | 6 => [0]
  | _ => [0, 1, 2].filter (fun i => xIn r i != 255)

/-- Park rotation and its inverse. -/
def park (x y : Int) (t : Nat) : Int × Int :=
  (wr (sum40 [x * cos16 t, y * sin16 t]), wr (sum40 [y * cos16 t, -(x * sin16 t)]))
def ipark (d q : Int) (t : Nat) : Int × Int :=
  (wr (sum40 [d * cos16 t, -(q * sin16 t)]), wr (sum40 [d * sin16 t, q * cos16 t]))

/-- LIMIT VECTOR. (DEDUCED log 88) -/
def limitVector (prop : Bool) (x y limit : Int) : Int × Int :=
  let l := max limit 0
  if x * x + y * y ≤ l * l then (x, y)
  else if prop then
    let m : Int := isqrt (x * x + y * y).toNat
    (rneI (x * l) m, rneI (y * l) m)
  else
    let x1 := clampI (-l) l x
    let r : Int := isqrt (l * l - x1 * x1).toNat
    (x1, sgnI y * min (absN y : Int) r)

/-- LIMIT POWER: parameters P1 to P4. (DEDUCED log 88) -/
def limitPower (p1 p2 p3 p4 x w0 limit : Int) : Int :=
  let w := max (absN w0 : Int) p4
  let lim := min p1 (if 0 ≤ p3 then rneI (p2 * 2 ^ p3.toNat * limit) w else rneI (p2 * limit) (w * 2 ^ (-p3).toNat))
  min (max x (-lim)) lim

/-- The outputs of a unit from its input values, the previous RATE output and the field-weakening table; and whether a LIMIT
clamped. (DEDUCED log 88, 91) -/
def xform (r : List Byte) (tab : List Byte) (v : List Int) (prev : Option Int) : List Int × Bool :=
  let x (i : Nat) := v.getD i 0
  let u (i : Nat) : Nat := ofS 16 (x i)
  match u8 r 0 with
  | 1 =>
    if xP r 0 = 1 then ([x 0, wr (sum40 [18919 * x 0, 18919 * x 1, 18919 * x 1])], false)
    else ([wr (sum40 [21845 * x 0, -10923 * x 1, -10923 * x 2]), wr (sum40 [18919 * x 1, -18919 * x 2])], false)
  | 2 => let d := park (x 0) (x 1) (u 2); ([d.1, d.2], false)
  | 3 =>
    let t := turn (u 2) (rne (cmul ⟨xP r 0, (clampI 0 8 (xP r 1)).toNat⟩ (x 3)) 32768)
    let a := ipark (x 0) (x 1) t
    ([a.1, a.2, a.1, wr (sum40 [-16384 * a.1, 28378 * a.2]), wr (sum40 [-16384 * a.1, -28378 * a.2])], false)
  | 4 =>
    if xP r 0 = 0 then
      let y := limitVector (xP r 1 != 0) (x 0) (x 1) (x 2)
      ([sat16 y.1, sat16 y.2], decide (y ≠ (x 0, x 1)))
    else
      let y := limitPower (xP r 1) (xP r 2) (xP r 3) (xP r 4) (x 0) (x 1) (x 2)
      ([sat16 y], decide (y ≠ x 0))
  | 5 => match prev with
    | none => ([x 0], false)
    | some y => ([add16 y (min (max (sat16 (x 0 - y)) (-xP r 1)) (xP r 0))], false)
  | 6 =>
    let a := min (absN (x 0)) 32767
    let i := a / 512
    let f := a % 512
    let t (k : Nat) : Int := i16 tab (2 * k)
    ([sat16 (t i + rne ((t (min (i + 1) 63) - t i) * f) 512)], false)
  | _ =>
    ([0, 1, 2].map (fun n => wr (cmul ⟨xP r (2 * n), (clampI 0 8 (xP r (2 * n + 1))).toNat⟩ (x n))), false)

/-- One run of a transform unit (R213, R223). -/
def Core.xuStep (c : Core) (p : List Byte) (k : Nat) : Core :=
  let r := xuRec p k
  let outs := (xuOuts r).filter (fun i => xOut r i != 255)
  if (xuIns r).all (fun i => c.sigValid (xIn r i)) then
    let prev := mapGet (fun _ => none) c.ctl.yPrev k
    let res := xform r ((p.drop 2080).take 128) ((List.range 6).map (fun i => if xIn r i = 255 then 0 else c.sigRaw (xIn r i))) prev
    let c1 := outs.foldl (fun a i => a.sigWrite (xOut r i) (res.1.getD i 0)) c
    let c2 := if u8 r 0 = 5 then
        { c1 with ctl := { c1.ctl with yPrev := mapSet (fun _ => none) c1.ctl.yPrev k (some (res.1.getD 0 0)) } }
      else c1
    if res.2 then c2.event CEN_EVENT.LIMIT_ACTIVE else c2
  else outs.foldl (fun a i => a.sigMiss (xOut r i)) c

/-! ### Flux observer (R224, R225) -/

/-- A coefficient of the observer record: 0 G_TS to 6 K_TH. (DEDUCED log 91) -/
def obsCoef (r : List Byte) (i : Nat) : Coef := ⟨i16 r (4 + 2 * i), min 8 (u32 r 18 / 16 ^ i % 16)⟩

/-- One run of OBS (R224); the run counter of R225 goes on. -/
def Core.obsStep (c : Core) (p : List Byte) : Core :=
  let r := obsRec p
  if [0, 1, 2, 3].all (fun i => c.sigValid (u8 r i)) then
    let k := obsCoef r
    let x := c.ctl
    let ia := c.sigRaw (u8 r 2)
    let ib := c.sigRaw (u8 r 3)
    let la := sum40 [x.lamA, cmul (k 0) x.va, -cmul (k 1) ia, -cmul (k 2) (wr x.lamA)]
    let lb := sum40 [x.lamB, cmul (k 0) x.vb, -cmul (k 1) ib, -cmul (k 2) (wr x.lamB)]
    let fa := sat16 (wr la - wr (cmul (k 3) ia))
    let fb := sat16 (wr lb - wr (cmul (k 3) ib))
    let err := wr (sum40 [fb * cos16 x.th, -(fa * sin16 x.th)])
    let wa := sat40 (x.wAcc + cmul (k 5) err)
    let w := wr wa
    let th := turn x.th (rne (sat40 (cmul (k 6) w + cmul (k 4) err)) 32768)
    let fm : Int := isqrt (fa * fa + fb * fb).toNat
    let c1 := { c with ctl := { x with
      lamA := la, lamB := lb, va := c.sigRaw (u8 r 0), vb := c.sigRaw (u8 r 1), th := th, wAcc := wa } }
    let locked := c.flag CEN_OBS.LOCKED
    let counts := if locked then decide (i16 r 24 < absN err) else decide ((absN err : Int) ≤ i16 r 22) && decide (i16 r 26 ≤ fm)
    let c2 := (c1.setI CEN_OBS.ERR err).setF CEN_OBS.RUN (if counts then min 255 (c.getF CEN_OBS.RUN + 1) else 0)
    let c3 := c2.sigWrite 0x4D (sat16 fm)
    if locked then (c3.sigPut 0x4B th 0).sigWrite 0x4C w else (c3.sigMiss 0x4B).sigMiss 0x4C
  else ((c.sigMiss 0x4B).sigMiss 0x4C).sigMiss 0x4D

/-- R225: 64 consecutive good runs lock the observer. -/
def execObserverLocked (s : State) : Res :=
  go (fun c _ =>
    if !c.flag CEN_OBS.LOCKED ∧ 64 ≤ c.getF CEN_OBS.RUN then
      let c1 := ((c.setF CEN_OBS.LOCKED 1).setF CEN_OBS.RUN 0).clearCause .observerLost 0
      (c1.event CEN_EVENT.OBSERVER_LOCKED).raise .observerLocked 0 [] false
    else c) s

/-- R225: a locked observer is lost. -/
def execObserverLost (s : State) : Res :=
  go (fun c _ =>
    let r := obsRec c.ctlImage
    if c.flag CEN_OBS.LOCKED ∧ (max 1 (u8 r 28) ≤ c.getF CEN_OBS.RUN ∨ c.sigRaw 0x4D < i16 r 26) then
      let c1 := (c.setF CEN_OBS.LOCKED 0).setF CEN_OBS.RUN 0
      (c1.event CEN_EVENT.OBSERVER_LOST).raise .observerLost 0 [c.getF CEN_OBS.ERR] true
    else c) s

/-! ### Plausibility model (R226, R227, R235) -/

/-- π × 10^40. (DESIGN CHOICE log 86) -/
def piNum : Nat := 31415926535897932384626433832795028841972
def piDen : Nat := 10 ^ 40

/-- The smallest shift for which the mantissa of num / den fits, and that mantissa (R235). (DESIGN CHOICE log 86) -/
def coefOf (num den : Nat) : Option Coef :=
  (List.range 9).findSome? (fun e =>
    let m := rne (num * 32768) (den * 2 ^ e)
    if m ≤ 32767 then some ⟨m, e⟩ else none)

/-- The values of R235 as quotients: g_d, g_q, g_dr, g_qr, g_dx, g_qx, g_qe. (DESIGN CHOICE log 86) -/
def plsValues (m : List Byte) (tc vFs iFs nFs : Nat) : List (Nat × Nat) :=
  let rs := u32 m 0
  let ld := u32 m 4
  let lq := u32 m 8
  let psi := u32 m 12
  let wn := nFs * u8 m 16 * 2 * piNum
  let wd := 600 * piDen
  [(tc * vFs, ld * iFs), (tc * vFs, lq * iFs), (tc * rs, ld * 10 ^ 6), (tc * rs, lq * 10 ^ 6),
   (tc * wn * lq, 10 ^ 9 * wd * ld), (tc * wn * ld, 10 ^ 9 * wd * lq), (tc * wn * psi, wd * lq * iFs * 1000)]

/-- A coefficient in force. A value that no coefficient holds, possible only where Tc or a full scale changed after the
model was accepted, is one the spec does not state. (DESIGN CHOICE log 86) -/
def plsCoef (v : Nat × Nat) : Coef :=
  match coefOf v.1 v.2 with
  | some k => k
  | none =>
    let w := (Config.bigCoef v.1 v.2).toNat
    ⟨toS 16 w, w / 65536 % 16 % 9⟩

/-- PLS is active in this run (R227), its inputs being valid. -/
def Core.plsActive (c : Core) : Bool :=
  c.mode.code == .drive && c.flag CEN_CTRL.MODEL_LOADED && c.ctl.plsValid && c.ctl.driveRuns != 1
    && c.modu.repeats == 0 && c.getF SAF_STATUS.FORCE == 0

/-- One run of PLS. -/
def Core.plsStep (c : Core) (p : List Byte) : Core :=
  let r := plsRec p
  if [0, 1, 2, 3, 4].all (fun i => c.sigValid (u8 r i)) then
    let x := c.ctl
    let id := c.sigRaw (u8 r 0)
    let iq := c.sigRaw (u8 r 1)
    let om := c.sigRaw (u8 r 4)
    let act := c.plsActive
    let res : Int := max (absN (sat16 (id - x.idp))) (absN (sat16 (iq - x.iqp)))
    let rint : Int := c.getF CEN_PLS.RINT
    let rint1 := if act then clampI 0 32767 (rint + res - i16 r 6) else rint
    let g := (plsValues c.modelImage c.tc c.vFs c.iFs c.nFs).map plsCoef
    let k (i : Nat) : Coef := g.getD i ⟨0, 0⟩
    let wq := wr (om * iq)
    let wd := wr (om * id)
    let idp := wr (sum40 [up id, cmul (k 0) x.vdp, -cmul (k 2) id, cmul (k 4) wq])
    let iqp := wr (sum40 [up iq, cmul (k 1) x.vqp, -cmul (k 3) iq, -cmul (k 5) wd, -cmul (k 6) om])
    let c1 := { c with ctl := { x with
      idp := idp, iqp := iqp, vdp := c.sigRaw (u8 r 2), vqp := c.sigRaw (u8 r 3), plsValid := true } }
    let c2 := ((c1.setF CEN_PLS.RINT rint1.toNat).setFlag CEN_PLS.ACTIVE act).sigWrite 0x4E rint1
    if act ∧ i16 r 8 ≤ rint1 ∧ !c.causeOn .modelImplausible 0 then
      let c3 := (c2.event CEN_EVENT.MODEL_IMPLAUSIBLE).raise .modelImplausible 0 [res.toNat] true
      if bitOf (u8 r 5) 0 then c3.raiseA .plausibilitySafe 0 [res.toNat] else c3
    else c2
  else
    let c1 := { c with ctl := { c.ctl with plsValid := false } }
    (c1.setF CEN_PLS.ACTIVE 0).sigMiss 0x4E

/-! ### The schedule (R228 to R231) -/

/-- One operation. (DEDUCED log 85) -/
def Core.opStep (p : List Byte) (c : Core) (e : Nat × Nat × Nat) : Core :=
  match e.1 with
  | 1 => c.slotStep p (e.2.1 % 32)
  | 2 => c.xuStep p (e.2.1 % 8)
  | 3 => c.obsStep p
  | 4 => c.plsStep p
  | 5 => c.setReg (CEN_SIG.a e.2.2) (c.reg (CEN_SIG.a e.2.1))
  | _ => c

/-- The schedule starts at data-ready; its operations and its end step are still to complete. (DEDUCED log 85) -/
def Core.runSchedule (c : Core) : Core :=
  if c.flag CEN_CTRL.RUN then
    { c with ctl := { c.ctl with
      runAt := some c.now, driveRuns := if c.mode.code = .drive then c.ctl.driveRuns + 1 else 0 } }
  else c

/-- F_EL of the end step (R231). (DEDUCED log 92) -/
def Core.endStep (c : Core) : Core :=
  let src := (c.reg (CEN_CFG_IMAGE.a 4)).toNat / 256 % 256
  if c.sigValid src then
    c.sigPut 0x44 (min 65535 (rne (absN (c.sigRaw src) * c.nFs * c.polePairs : Nat) (32768 * 60)).toNat) 0
  else c.sigMiss 0x44

/-- R230: the operations have run and the end step completes. (DEDUCED log 85; DESIGN CHOICE log 5) -/
def execScheduleComplete (s : State) : Res :=
  go (fun c _ => match c.ctl.runAt with
    | none => c
    | some t =>
      let p := c.ctlImage
      let c0 := (sched p).foldl (Core.opStep p) c
      let c1 := { c0 with ctl := { c0.ctl with runAt := none } }.endStep
      let c2 := (c1.setF CEN_LAST_RUN.END_NS (min 65535 (c.now - t))).setF CEN_LAST_RUN.RUNS (c.getF CEN_LAST_RUN.RUNS + 1)
      c2.setF CEN_STATUS.OVERRUN 0) s

/-- The entries that an operation writes. -/
def opWrites (p : List Byte) (e : Nat × Nat × Nat) : List Nat :=
  let named (l : List Nat) : List Nat := l.filter (· != 255)
  match e.1 with
  | 1 =>
    let r := slotRec p (e.2.1 % 32)
    named ([u8 r 5] ++ (if bitOf (u8 r 1) 1 then [u8 r 6] else []))
  | 2 => let r := xuRec p (e.2.1 % 8); named ((xuOuts r).map (xOut r))
  | 3 => [0x4B, 0x4C, 0x4D]
  | 4 => [0x4E]
  | 5 => [e.2.2]
  | _ => []

/-- R230: the run is stopped at the apply point. How many operations had completed is a free value; the entries of the others
are not delivered (R23). (DEDUCED log 92; DESIGN CHOICE log 200) -/
def Core.overrun (c : Core) : Core :=
  if c.ctl.runAt.isSome then
    let p := c.ctlImage
    let k := (Config.freeWord c.free).toNat % (schedLen p + 1)
    let c0 := ((sched p).take k).foldl (Core.opStep p) c.fresh
    let c1 := (((sched p).drop k).flatMap (opWrites p)).foldl Core.sigMiss c0
    let c2 := { c1 with ctl := { c1.ctl with runAt := none } }.sigMiss 0x44
    (c2.setF CEN_STATUS.OVERRUN 1).event CEN_EVENT.CONTROL_OVERRUN |>.raiseOrRelinquish .controlOverrun 0 [c.getF CEN_STATUS.CYCLES] 2
  else c

/-- The references of the strings in use (R231); none where not valid. -/
def Core.handOff (c : Core) : List (Option Int) :=
  (List.range 6).map (fun s =>
    let ph := (c.strEnt s).phase
    if s < c.map.count ∧ 1 ≤ ph ∧ c.sigValid (0x3F + ph) then
      some (add16 (c.sigRaw (0x3F + ph)) (if c.sigValid (0x45 + s) then c.sigRaw (0x45 + s) else 0))
    else none)

/-- The engine at a period start: slots held or released (R221), RATE units restarted at entry to a driven mode (R223). -/
def Core.engineStart (c : Core) : Core :=
  let d := c.dispatched
  let c1 := (List.range 32).foldl (fun a k =>
    if d then (if a.flag (CEN_SLOT_STAT.HELD k) then a.setF (CEN_SLOT_STAT.HELD k) 0 else a)
    else if a.flag (CEN_SLOT_STAT.HELD k) then a else a.slotReset k) c
  { c1 with ctl := { c1.ctl with driven := d, yPrev := if d && !c1.ctl.driven then [] else c1.ctl.yPrev } }

/-! ### Selected currents (R212) -/

/-- IS_s of a string in use, its source and the phase entries. (DEDUCED log 71; DESIGN CHOICE log 70) -/
def Core.selectCurrent (c : Core) (s : Nat) : Core :=
  let auto := c.getBit CEN_ISEL.AUTO s
  let sub := c.causeOn .sensorDisagree (2 * s)
  let source (c : Core) (cons : Bool) : Core :=
    if c.getBit CEN_ISEL.SUBST s = cons then c
    else ((c.putBit CEN_ISEL.SUBST s cons).event CEN_EVENT.SOURCE_CHANGED).raise .currentSourceChanged s [s, b2n cons] false
  if !auto ∨ (c.sigValid s ∧ !sub) then
    (if c.sigValid s then c.sigPut (6 + s) (ofS 16 (c.sigRaw s)) (c.sigAge s) else c.sigMiss (6 + s)) |> (source · false)
  else if c.sigValid (0x17 + s) then source (c.sigPut (6 + s) (ofS 16 (c.sigRaw (0x17 + s))) 1) true
  else c.sigMiss (6 + s)

/-- I_U, I_V, I_W. -/
def Core.phaseCurrent (c : Core) (ph : Nat) : Core :=
  let l := c.strings.filter (fun s => (c.strEnt s).phase == ph)
  let e := 0x0B + ph
  if !l.isEmpty ∧ l.all (fun s => c.sigValid (6 + s)) then
    c.sigPut e (ofS 16 (l.foldl (fun a s => sat16 (a + c.sigRaw (6 + s))) 0)) (l.foldl (fun a s => max a (c.sigAge (6 + s))) 0)
  else c.sigMiss e

/-- (DEDUCED log 71) -/
def Core.selectCurrents (c : Core) : Core := [1, 2, 3].foldl Core.phaseCurrent (c.strings.foldl Core.selectCurrent c)

/-! ### CONTROL_SET, CONTROL_GET (R232, R233) -/

/-- Entries that hold flags or integers (R211). -/
def flagEntry (e : Nat) : Bool := decide (0x1D ≤ e ∧ e ≤ 0x22) || e == 0x44

/-- Entries an operation may write (R233). -/
def outEntry (e : Nat) : Bool :=
  decide (0x40 ≤ e ∧ e ≤ 0x43) || decide (0x45 ≤ e ∧ e ≤ 0x4A) || decide (0x4F ≤ e ∧ e ≤ 0x5F) || decide (0x80 ≤ e ∧ e ≤ 0xFF)

/-- Offsets of the input fields of schedule entry `j` that its operation uses. A slot that names no MAN_SRC has none. -/
def opInputs (p : List Byte) (j : Nat) : List Nat :=
  let e := schedEntry p j
  match e.1 with
  | 1 =>
    let o := 288 + 48 * e.2.1
    [o + 2, o + 3] ++ (if bitOf (u8 p (o + 1)) 3 then [o + 4] else []) ++ (if u8 p (o + 7) = 255 then [] else [o + 7])
  | 2 => (xuIns (xuRec p e.2.1)).map (fun i => 1824 + 32 * e.2.1 + 2 + i)
  | 3 => [2208, 2209, 2210, 2211]
  | 4 => [2240, 2241, 2242, 2243, 2244]
  | _ => []

/-- Offsets of its output fields. -/
def opOutputs (p : List Byte) (j : Nat) : List Nat :=
  let e := schedEntry p j
  let named (l : List Nat) : List Nat := l.filter (fun o => u8 p o != 255)
  match e.1 with
  | 1 =>
    let o := 288 + 48 * e.2.1
    named ([o + 5] ++ (if bitOf (u8 p (o + 1)) 1 then [o + 6] else []))
  | 2 => named ((xuOuts (xuRec p e.2.1)).map (fun i => 1824 + 32 * e.2.1 + 8 + i))
  | 5 => [34 + 4 * j]
  | _ => []

/-- Check 1 of R233. (DEDUCED log 88) -/
def controlCheck1 (p : List Byte) : Option Nat :=
  let ks := List.range 32
  let us := List.range 8
  let allowed (u t : Nat) : Bool := t == 0 || (if u < 6 then t == u + 1 else t == 2 || t == 4 || t == 5 || t == 7)
  lowest
    [if u8 p 18 < 64 then none else some 18, firstNonZero p 19 13,
     firstBad ((List.range 64).map (fun j => 35 + 4 * j)) (fun o => u8 p o == 0),
     lowest (ks.map (fun k =>
       let o := 288 + 48 * k
       lowest [if u8 p o ≤ 2 then none else some o, if u8 p (o + 1) < 16 then none else some (o + 1),
         if u16 p (o + 14) < 4096 then none else some (o + 14), if u16 p (o + 26) < 4096 then none else some (o + 26),
         firstNonZero p (o + 32) 16])),
     lowest (us.map (fun u =>
       let o := 1824 + 32 * u
       lowest [if allowed u (u8 p o) then none else some o, firstNonZero p (o + 1) 1, firstNonZero p (o + 26) 6])),
     if u32 p 2226 < 2 ^ 28 then none else some 2226, firstNonZero p 2237 3,
     if u8 p 2245 < 2 then none else some 2245, firstNonZero p 2250 22]

/-- Checks 2 and 3 of R233. -/
def controlCheck2 (p : List Byte) : Option Nat :=
  let n := schedLen p
  lowest
    [firstBad [0, 12] (fun o => decide (0 < u32 p o)), firstBad [4, 8] (fun o => decide (0 < i32 p o)),
     if 1 ≤ u8 p 16 ∧ u8 p 16 ≤ 64 then none else some 16,
     firstBad ((List.range n).map (fun j => 32 + 4 * j)) (fun o => decide (1 ≤ u8 p o ∧ u8 p o ≤ 5)),
     firstByte p (32 + 4 * n) (4 * (64 - n))]

def controlCheck3 (p : List Byte) : Option Nat :=
  lowest ((List.range (schedLen p)).map (fun j =>
    let e := schedEntry p j
    let o := 32 + 4 * j
    let again := (List.range j).any (fun i =>
      let f := schedEntry p i
      f.1 == e.1 && (e.1 == 3 || e.1 == 4 || ((e.1 == 1 || e.1 == 2) && f.2.1 == e.2.1)))
    match e.1 with
    | 1 => if 32 ≤ e.2.1 ∨ u8 (slotRec p e.2.1) 0 = 0 ∨ again then some (o + 1) else if e.2.2 = 0 then none else some (o + 2)
    | 2 => if 8 ≤ e.2.1 ∨ u8 (xuRec p e.2.1) 0 = 0 ∨ again then some (o + 1) else if e.2.2 = 0 then none else some (o + 2)
    | 5 => none
    | _ => if again then some o else if e.2.1 ≠ 0 then some (o + 1) else if e.2.2 ≠ 0 then some (o + 2) else none))

/-- Checks 4 and 5 of R233. -/
def controlCheck4 (p : List Byte) : Option Nat :=
  lowest ((List.range (schedLen p)).map (fun j =>
    let e := schedEntry p j
    if e.1 = 5 then (if flagEntry e.2.1 then some (33 + 4 * j) else none)
    else lowest ((opInputs p j).map (fun o => if flagEntry (u8 p o) ∨ u8 p o = 255 then some o else none))))

def controlCheck5 (p : List Byte) : Option Nat :=
  let outs := (List.range (schedLen p)).flatMap (opOutputs p)
  lowest (outs.map (fun o =>
    if !outEntry (u8 p o) ∨ outs.any (fun q => decide (q < o) && u8 p q == u8 p o) then some o else none))

/-- Check 6 of R233: every shift and every bound that the payload's table states; the limits of a slot that is configured, and
LOSS_N where the observer is scheduled. (DEDUCED log 88) -/
def controlCheck6 (p : List Byte) : Option Nat :=
  let slot (k : Nat) : Option Nat :=
    let o := 288 + 48 * k
    lowest ([0, 1].map (fun b =>
      let q := o + 8 + 12 * b
      if [0, 1, 2].all (fun i => decide (u16 p (q + 6) / 16 ^ i % 16 ≤ 8)) then
        (if u8 p o = 0 ∨ i16 p (q + 10) < i16 p (q + 8) then none else some (q + 10))
      else some (q + 6)))
  let xu (u : Nat) : Option Nat :=
    let r := xuRec p u
    let o := 1824 + 32 * u + 14
    let sh (i : Nat) : Option Nat := if 0 ≤ xP r i ∧ xP r i ≤ 8 then none else some (o + 2 * i)
    match u8 r 0 with
    | 3 => sh 1
    | 4 => lowest [if 0 ≤ xP r 1 then none else some (o + 2), if xP r 3 ≤ 8 then none else some (o + 6),
        if 1 ≤ xP r 4 then none else some (o + 8)]
    | 5 => lowest [if 0 ≤ xP r 0 then none else some o, if 0 ≤ xP r 1 then none else some (o + 2)]
    | 7 => lowest [sh 1, sh 3, sh 5]
    | _ => none
  lowest ((List.range 32).map slot ++ (List.range 8).map xu ++
    [if (List.range 7).all (fun i => decide (u32 p 2226 / 16 ^ i % 16 ≤ 8)) then none else some 2226,
     firstBad [2230, 2232, 2234] (fun o => decide (0 ≤ i16 p o)),
     if ((sched p).map (·.1)).contains 3 ∧ u8 p 2236 = 0 then some 2236 else none,
     firstBad [2246, 2248] (fun o => decide (0 ≤ i16 p o))])

/-- The checks of R233. -/
def Core.controlChecks (c : Core) (p : List Byte) : Option Fail :=
  firstFail [chkAt 1 (controlCheck1 p), chkAt 2 (controlCheck2 p), chkAt 3 (controlCheck3 p), chkAt 4 (controlCheck4 p),
    chkAt 5 (controlCheck5 p), chkAt 6 (controlCheck6 p), if flagEntry (u8 p 17) then some (7, 17, 0) else none,
    if schedCost p ≤ cycleLimit (c.getF MOD_TIMING.APPLY) (c.getF MOD_TIMING.SAMPLE_OFS) then none
      else some (8, 0xFFFFFFFF, 0)]

/-- R232: CONTROL_SET. -/
def execControlSet (m : Msg) (s : State) : Res :=
  go (fun c _ => c.command (setSpec 0x0250 2272) m fun cmd c => c.configure cmd (c.controlChecks cmd.p)) s

/-- The defaults of CONTROL_GET (R238, R489). -/
def controlDefaults : List Byte :=
  le 4 1000000 ++ le 4 100000 ++ le 4 500000 ++ le 4 1000000 ++ zeros 2 ++ le 1 0x3F ++ zeros 2253

/-- R232: CONTROL_GET. -/
def execControlGet (m : Msg) (s : State) : Res :=
  go (fun c _ => c.command (getSpec 0x0251) m fun cmd c => c.getCfg 0x0250 controlDefaults cmd) s

/-- The settings of a CONTROL_SET payload (R232): the image, the scales, every slot in its reset state, every unit in its
initial state. -/
def Core.loadControl (c : Core) (p : List Byte) : Core :=
  let c1 := c.putRegBytes (CEN_CFG_IMAGE.a 0) p 568
  let c2 := ((c1.setF CEN_I_FS.FS (u32 p 0)).setF CEN_N_FS.FS (u32 p 4)).setF CEN_T_FS.FS (u32 p 8)
  let c3 := ((c2.setF CEN_P_FS.FS (u32 p 12)).setF CEN_ISEL.AUTO (u8 p 18)).setF CEN_CTRL.RUN 1
  let c4 := (c3.setF CEN_STATUS.CYCLES (schedCost p)).setF CEN_STATUS.SCHED_LEN (schedLen p)
  let c5 := (List.range 32).foldl Core.slotReset c4
  let c6 := ((c5.setF CEN_PLS.RINT 0).setF CEN_OBS.LOCKED 0).setF CEN_OBS.RUN 0
  { c6 with ctl := { c6.ctl with
    yPrev := [], lamA := 0, lamB := 0, wAcc := 0, th := 0, plsValid := false, runAt := none } }

/-! ### MOTOR_MODEL_SET, MOTOR_MODEL_GET (R234, R235) -/

/-- The checks of R234 and the test of R235. -/
def Core.modelChecks (c : Core) (p : List Byte) : Option Fail :=
  let l := (plsValues p c.tc c.vFs c.iFs c.nFs)
  firstFail [chk 1 0 (decide (0 < u32 p 0)), chk 2 4 (decide (0 < u32 p 4)), chk 3 8 (decide (0 < u32 p 8)),
    chk 4 12 (decide (0 < u32 p 12)), chk 5 16 (decide (1 ≤ u8 p 16 ∧ u8 p 16 ≤ 32)), chkAt 6 (firstNonZero p 17 3),
    chk 7 20 (decide (0 < i32 p 20)), chkAt 8 (firstNonZero p 24 4),
    if l.any (fun v => decide (256 * v.2 ≤ v.1)) ∨ l.all (fun v => decide ((plsCoef v).m = 0)) then
      some (9, 0xFFFFFFFF, 0) else none]

/-- R234: MOTOR_MODEL_SET. -/
def execMotorModelSet (m : Msg) (s : State) : Res :=
  go (fun c _ => c.command (setSpec 0x0252 28) m fun cmd c => c.configure cmd (c.modelChecks cmd.p)) s

/-- R234: MOTOR_MODEL_GET. -/
def execMotorModelGet (m : Msg) (s : State) : Res :=
  go (fun c _ => c.command (getSpec 0x0253) m fun cmd c => c.getCfg 0x0252 (zeros 28) cmd) s

/-- The motor model in force. -/
def Core.loadModel (c : Core) (p : List Byte) : Core :=
  (c.putRegBytes (CEN_MODEL_IMAGE.a 0) p 7).setF CEN_CTRL.MODEL_LOADED 1

/-! ### Host entries (R236) -/

/-- Full scale of a UNIT. -/
def Core.unitFs (c : Core) (u : Nat) : Nat :=
  match u with
  | 1 => c.tFs
  | 2 => c.nFs
  | 3 => c.iFs
  | 4 => c.vFs
  | _ => c.pFs

/-- A value in its UNIT as a signal. -/
def Core.unitSig (c : Core) (u : Nat) (x : Int) : Int := if u = 0 then sat16 x else toSig (c.unitFs u) x

/-- A host entry is written; its deadline starts anew. (DEDUCED log 90) -/
def Core.hostWrite (c : Core) (e : Nat) (x : Int) (ms : Nat) (fb : Int) : Core :=
  let h : Hin := ⟨if ms = 0 then none else some (c.now + ms * 1000000), fb⟩
  { c with ctl := { c.ctl with hin := mapSet (fun _ => (⟨none, 0⟩ : Hin)) c.ctl.hin e h } }.addShadow (.hin e x)

/-- The first failing field of a LOOP_INPUT_SET payload: COUNT, reserved, then the first record that fails.
(DEDUCED log 89) -/
def hostInputFail (p : List Byte) : Option Fail :=
  let n := u8 p 0
  let s15 (o : Nat) : Bool := decide (-32768 ≤ i32 p o ∧ i32 p o ≤ 32767)
  firstFail ([chk 1 0 (decide (1 ≤ n ∧ n ≤ 32)), chkAt 2 (firstNonZero p 1 3)] ++
    (List.range n).map (fun j =>
      let o := 4 + 12 * j
      firstFail [chk 3 o (decide (0x60 ≤ u8 p o ∧ u8 p o ≤ 0x7F)), chk 4 (o + 1) (decide (u8 p (o + 1) ≤ 5)),
        chk 6 (o + 4) (u8 p (o + 1) != 0 || s15 (o + 4)), chk 7 (o + 8) (u8 p (o + 1) != 0 || s15 (o + 8))]))

/-- The writes of a LOOP_INPUT_SET payload. (DEDUCED log 89) -/
def Core.hostInputs (c : Core) (p : List Byte) : Core :=
  (List.range (u8 p 0)).foldl (fun a j =>
    let o := 4 + 12 * j
    a.hostWrite (u8 p o) (a.unitSig (u8 p (o + 1)) (i32 p (o + 4))) (u16 p (o + 2)) (a.unitSig (u8 p (o + 1)) (i32 p (o + 8)))) c

/-- R236: a host entry times out. (DEDUCED log 90) -/
def execHostInputTimeout (e : Fin 32) (s : State) : Res :=
  go (fun c _ =>
    let k := 0x60 + e.val
    let h := mapGet (fun _ => (⟨none, 0⟩ : Hin)) c.ctl.hin k
    match h.deadline with
    | none => c
    | some t =>
      if c.now ≤ t then c
      else
        let c1 := (c.hostWrite k h.fallback 0 h.fallback)
        (c1.event CEN_EVENT.HOST_INPUT_TIMEOUT).raise .hostInputTimeout k [k] false) s

/-- A later command for a slot takes the place of one that still waits (R24, R237). -/
def Core.dropSlot (c : Core) (k : Nat) : Core :=
  { c with shadow := c.shadow.filter (fun o => match o with
    | .slot j _ _ => j != k
    | _ => true) }

/-- R237: SLOT_MODE_SET. -/
def execSlotModeSet (m : Msg) (s : State) : Res :=
  go (fun c _ => c.command { op := 0x0321, modes := notOff, len := lenIs 4, expect := 4, shadow := true } m fun cmd c =>
    let p := cmd.p
    let k := u8 p 0
    match firstFail [chk 1 0 (decide (k < 32) && u8 (slotRec c.ctlImage k) 0 != 0),
      chk 2 1 (decide (u8 p 1 ≤ 1)), chk 3 2 (decide (u8 p 2 ≤ 1)), chkAt 4 (firstNonZero p 3 1)] with
    | some f => c.badField cmd.ref f
    | none =>
      let c1 := { c with ctl := { c.ctl with slotHost := mapSet (fun _ => 0) c.ctl.slotHost k (1 + u8 p 1 + 2 * u8 p 2) } }
      ((c1.dropSlot k).addShadow (.slot k (u8 p 1) (u8 p 2))).done cmd.ref) s

end Sys2Proof.Machine
end

