-- ==== Sys2Proof/Machine/Feedback.lean ====
section
/-! DEFINITION. Position and speed feedback (R239 to R255): the resolver's tracking loop, Hall decoding, speed by period and
by frequency, the axle count, marker and end-stop inputs, and FEEDBACK_SET. -/
namespace Sys2Proof.Machine

/-! ### Resolver (R240 to R244) -/

/-- RES_PP in force (R253): a payload may hold 32, which the register's five bits show as 0. (DEDUCED log 43, 201) -/
def Core.resPp (c : Core) : Nat :=
  let k := c.getF FBK_RES_CFG.RES_PP
  if k = 0 ∧ c.cfgInUse 0x0260 ∧ u8 (c.forceP 0x0260) 23 = 32 then 32 else max 1 k

/-- LOT_N in force. (DEDUCED log 43) -/
def Core.lotN (c : Core) : Nat := max 1 (c.getF FBK_RES_LOT.LOT_N)

/-- K1, K2 and KW. -/
def Core.resK1 (c : Core) : Coef := ⟨c.getI FBK_RES_K.K1, min 8 (c.getF FBK_RES_KSH.K1_SH)⟩
def Core.resK2 (c : Core) : Coef := ⟨c.getI FBK_RES_K.K2, min 8 (c.getF FBK_RES_KSH.K2_SH)⟩
def Core.resKw (c : Core) : Coef := ⟨c.getI FBK_RES_KSH.KW, min 8 (c.getF FBK_RES_KSH.KW_SH)⟩

/-- FBK_RES_STAT.LOS, CLIP and LOT: a condition of R244 is present. (DEDUCED log 94) -/
def Core.resolverFlags (c : Core) : Core :=
  ((c.setFlag FBK_RES_STAT.LOS (decide (4 ≤ c.fbk.runLos))).setFlag FBK_RES_STAT.CLIP (decide (4 ≤ c.fbk.runClip))).setFlag
    FBK_RES_STAT.LOT (decide (c.lotN ≤ c.fbk.runLot))

/-- The alarm of a condition of R244 that an update ends loses its cause. (DEDUCED log 94) -/
def Core.resolverEnd (c : Core) (los clip lot : Bool) : Core :=
  let c1 := if los then c else c.clearCause .resolverLos 0
  let c2 := if clip then c1 else c1.clearCause .resolverClip 0
  if lot then c2 else c2.clearCause .resolverLot 0

/-- One update of the tracking loop (R242) and of the counts of R244; `ok` says that the pair was converted without error. -/
def Core.resolverStep (c : Core) (n tPk : Nat) (sin cos : Int) (ok : Bool) : Core :=
  let sg : Int := if n % 2 = 0 then 1 else -1
  let s := sat16 (sg * sin)
  let k := sat16 (sg * cos)
  let amp := isqrt (s * s + k * k).toNat
  let phi := c.getF FBK_RES_STAT.PHI
  let err := wr (sum40 [s * cos16 phi, -(k * sin16 phi)])
  let wa := sat40 (c.fbk.wAcc + cmul c.resK2 err)
  let w := wr wa
  let d8 := rne (sat40 (cmul c.resKw w)) 128
  let phi1 := turn phi (rne (sat40 (cmul c.resKw w + cmul c.resK1 err)) 32768)
  let los := decide (amp < c.getF FBK_RES_THR.LOS_THR)
  let clip := decide (c.getF FBK_RES_THR.CLIP_THR < amp)
  let lot := decide (c.getF FBK_RES_LOT.LOT_THR < absN err)
  let run (b : Bool) (k : Nat) : Nat := if b then k + 1 else 0
  let good := ok && !los && !clip && !lot
  let c1 := { c with fbk := { c.fbk with
    wAcc := wa, hist := ((tPk, phi1, d8) :: c.fbk.hist).take 4
    runLos := run los c.fbk.runLos, runClip := run clip c.fbk.runClip, runLot := run lot c.fbk.runLot } }
  let c2 := (c1.setF FBK_RES_STAT.PHI phi1).resolverFlags
  (c2.resolverEnd los clip lot).setF FBK_RES_STAT.RUN (if good then min 255 (c.getF FBK_RES_STAT.RUN + 1) else 0)

/-- A raw code of the resolver's differential channels as S.15 (R242, R291). (DEDUCED log 201) -/
def Core.resCode (c : Core) (raw : BitVec 16) : Int := (c.sarCode 0 raw.toNat : Int) - 32768

/-- R241, R242: unit A completes the pair of an excitation peak, raw codes of sine and cosine, and the loop updates.
(DESIGN CHOICE log 176) -/
def execResolverUpdate (sin cos : SarRaw) (s : State) : Res :=
  go (fun d _ =>
    let c := d.pairCatch 0
    let x := c.unit 0
    match c.fbk.pair with
    | none => c
    | some (n, t) =>
      if x.phase ≠ 4 ∨ 2 * c.now < x.due then c
      else
        let c1 := { c with fbk := { c.fbk with pair := none } }.setUnit 0 { x with phase := 0 }
        let c2 := if c.excitation then c1.resolverStep n t (c.resCode sin.code) (c.resCode cos.code) (sin.ok && cos.ok) else c1
        c2.sarNext 0 x.due) s

/-- R244: 64 good updates lock the resolver. -/
def execResolverLocked (s : State) : Res :=
  go (fun c _ =>
    if c.flag FBK_CTRL.RES_EN ∧ !c.flag FBK_RES_STAT.LOCKED ∧ 64 ≤ c.getF FBK_RES_STAT.RUN then
      (c.setF FBK_RES_STAT.LOCKED 1).event FBK_EVENT.RESOLVER_LOCKED
    else c) s

/-- A LOCKED resolver becomes unlocked. -/
def Core.resolverUnlock (c : Core) (f : Field) (nm : AlarmName) : Core :=
  ((c.setF FBK_RES_STAT.LOCKED 0).event f).raise nm 0 [] true

/-- R244: low amplitude. -/
def execResolverLos (s : State) : Res :=
  go (fun c _ =>
    if c.flag FBK_RES_STAT.LOCKED ∧ 4 ≤ c.fbk.runLos then c.resolverUnlock FBK_EVENT.RESOLVER_LOS .resolverLos else c) s

/-- R244: clipped amplitude. -/
def execResolverClip (s : State) : Res :=
  go (fun c _ =>
    if c.flag FBK_RES_STAT.LOCKED ∧ 4 ≤ c.fbk.runClip then c.resolverUnlock FBK_EVENT.RESOLVER_CLIP .resolverClip else c) s

/-- R244: tracking error. -/
def execResolverLot (s : State) : Res :=
  go (fun c _ =>
    if c.flag FBK_RES_STAT.LOCKED ∧ c.lotN ≤ c.fbk.runLot then c.resolverUnlock FBK_EVENT.RESOLVER_LOT .resolverLot else c) s

/-- The resolver's angle and speed at a sample instant (R243). Where POLE_PAIRS is no multiple of RES_PP the quotient is
rounded. (DEDUCED log 93) -/
def Core.resolverSample (c : Core) (ts : Nat) : Core :=
  match c.fbk.hist.find? (fun e => decide (e.1 + 5000 ≤ ts)) with
  | none => { c with fbk := { c.fbk with theta := none } }.setF FBK_SPEED_STAT.RES_VALID 0
  | some (tPk, phi, d8) =>
    if !c.flag FBK_RES_STAT.LOCKED then { c with fbk := { c.fbk with theta := none } }.setF FBK_SPEED_STAT.RES_VALID 0
    else
      let h := c.tExc / 2
      let ext := rne (d8 * (ts - tPk : Nat)) (256 * h)
      let th := turn (c.getF FBK_RES_PHASE.RES_OFFSET) (rne (((phi : Int) + ext) * c.polePairs) c.resPp)
      let sp := rne (d8 * (600 * 10 ^ 9 : Nat)) (256 * 65536 * c.resPp * h)
      ({ c with fbk := { c.fbk with theta := some th } }.setI FBK_SPEED_RES.SPEED sp).setF FBK_SPEED_STAT.RES_VALID 1

/-! ### Pulse sources (R246) -/

/-- An edge in a direction. (DEDUCED log 96) -/
def Pulse.add (x : Pulse) (t : Nat) (d : Int) : Pulse :=
  let gate := (t, d) :: x.gate.filter (fun e => decide (t < e.1 + 1000000))
  if x.dir = d ∨ x.dir = 0 then ⟨gate, (t :: x.span).take 8, d⟩ else ⟨gate, [t], d⟩

/-- The span restarts at a time with the direction unknown. (DEDUCED log 96) -/
def Pulse.restart (x : Pulse) (t : Nat) : Pulse := { x with span := [t], dir := 0 }

/-- What R246 finds: frequency method, validity, STOPPED, speed in 0.1 rpm, n_all. -/
structure PulseOut where
  freq : Bool
  valid : Bool
  stopped : Bool
  speed : Int
  nAll : Nat
  deriving DecidableEq, Repr

/-- k_span, t_last and t_first of a source with span length `e`. (DEDUCED log 96) -/
def Pulse.kSpan (x : Pulse) (e : Nat) : Nat := min e (x.span.length - 1)
def Pulse.tLast (x : Pulse) : Nat := x.span.headD 0
def Pulse.tFirst (x : Pulse) (e : Nat) : Nat := x.span.getD (x.kSpan e) 0

/-- R246 at a sample instant. -/
def Pulse.measure (x : Pulse) (ts e co stop epr : Nat) (freq0 : Bool) : PulseOut :=
  let g := x.gate.filter (fun k => decide (k.1 ≤ ts ∧ ts < k.1 + 1000000))
  let n := g.length
  let net := sumI (g.map (·.2))
  let freq := if freq0 then !decide (n < co - co / 8) else decide (co + co / 8 ≤ n)
  let stopped := decide (x.tLast + stop * 1000000 < ts)
  let k := x.kSpan e
  let span := x.tLast - x.tFirst e
  let since := ts - x.tLast
  let speed : Int :=
    if stopped then 0
    else if freq then rne (net * (1000 * 600 * 256 : Nat)) epr
    else if k * since ≤ span then x.dir * rne (k * (10 ^ 9 * 600 * 256) : Nat) (max 1 span * epr)
    else x.dir * rne (10 ^ 9 * 600 * 256 : Nat) (max 1 since * epr)
  ⟨freq, (decide (0 < k) || stopped) && decide (0 < epr), stopped, speed, n⟩

/-- CO_EDGES and STOP_TIME in force. (DEDUCED log 43) -/
def Core.coEdges (c : Core) : Nat := clampN 8 1024 (c.getF FBK_SPEED_CFG.CO_EDGES)
/-- (DEDUCED log 43) -/
def Core.stopTime (c : Core) : Nat := max 1 (c.getF FBK_SPEED_CFG.STOP_TIME)

/-- Span length of the axle input. -/
def Core.axleSpan (c : Core) : Nat := if c.flag FBK_CTRL.AXLE_MODE then 1 else 4

/-! ### Halls (R245) -/

/-- Sector of a code in the table of R245, mirrored for HALL_DIR. -/
def hallSector (rev : Bool) (code : Nat) : Option Nat :=
  let k : Option Nat := match code with
    | 1 => some 0
    | 2 => some 2
    | 3 => some 1
    | 4 => some 4
    | 5 => some 5
    | 6 => some 3
    | _ => none
  k.map (fun k => if rev then (6 - k) % 6 else k)

/-- Centre of a sector. -/
def hallCentre (offset k : Nat) : Nat := (offset + k * 65536 / 6) % 65536

/-- How a change from sector `k0` to `k` moves: +1, −1, or 0 for a jump. -/
def hallStep (k0 k : Nat) : Int := if k = (k0 + 1) % 6 then 1 else if k0 = (k + 1) % 6 then -1 else 0

/-- The Hall angle at a time (R245). -/
def hallAngle (offset k : Nat) (x : Pulse) (ts : Nat) : Nat :=
  let ck := hallCentre offset k
  let n := x.kSpan 6
  if n = 0 then ck
  else
    let b := turn ck (-(x.dir * 5461))
    let ext := min (rne (65536 * n * (ts - x.tLast) : Nat) (6 * max 1 (x.tLast - x.tFirst 6))) 10922
    turn b (x.dir * ext)

/-- A filtered code change in a decoder that holds sector `k0` (7 none): the source, the sector, and 0 for a step or a first
sector, 1 for an impossible code, 2 for a jump. -/
def hallDecode (rev : Bool) (x : Pulse) (k0 code t : Nat) : Pulse × Nat × Nat :=
  match hallSector rev code with
  | none => (x, k0, 1)
  | some k =>
    if k0 = 7 ∨ k = k0 then (x, k, 0)
    else
      let d := hallStep k0 k
      if d = 0 then (x.restart t, k, 2) else (x.add t d, k, 0)

/-- The Hall part of a sample instant. -/
def Core.hallSample (c : Core) (ts : Nat) : Core :=
  let en := c.flag FBK_CTRL.HALL_EN
  let k := c.getF FBK_HALL_STAT.SECTOR
  let ok := en && (hallSector false (c.getF FBK_HALL_STAT.CODE)).isSome
  let m := c.fbk.hall.measure ts 6 c.coEdges c.stopTime (6 * 256 * c.polePairs) (c.flag FBK_SPEED_STAT.HALL_FREQ)
  let valid := ok && m.valid
  let c1 := c.setFlag FBK_HALL_STAT.ANGLE_VALID ok
  let c2 := if ok then c1.setF FBK_HALL_STAT.ANGLE (hallAngle (c.getF FBK_HALL_CFG.HALL_OFFSET) k c.fbk.hall ts) else c1
  let c3 := (c2.setFlag FBK_SPEED_STAT.HALL_FREQ m.freq).setFlag FBK_SPEED_STAT.HALL_VALID valid
  let c4 := c3.setFlag FBK_SPEED_STAT.HALL_STOPPED (m.stopped && ok)
  if valid then c4.setI FBK_SPEED_HALL.SPEED m.speed else c4

/-- The axle part of a sample instant. -/
def Core.axleSample (c : Core) (ts : Nat) : Core :=
  let en := c.flag FBK_CTRL.AXLE_EN
  let m := c.fbk.axle.measure ts c.axleSpan c.coEdges c.stopTime (c.getF FBK_AXLE_EPR.EPR256) (c.flag FBK_SPEED_STAT.AXLE_FREQ)
  let valid := en && m.valid
  let c1 := (c.setFlag FBK_SPEED_STAT.AXLE_FREQ m.freq).setFlag FBK_SPEED_STAT.AXLE_VALID valid
  let c2 := (c1.setFlag FBK_SPEED_STAT.AXLE_STOPPED (m.stopped && en)).setF FBK_SPEED_STAT.GATE_AXLE (min 65535 m.nAll)
  if valid then c2.setI FBK_SPEED_AXLE.SPEED m.speed else c2

/-- The feedback block at a sample instant (R239). -/
def Core.feedbackSample (c : Core) (ts : Nat) : Core := ((c.resolverSample ts).hallSample ts).axleSample ts

/-- SPEED_SRC in force. -/
def Core.speedSrc (c : Core) : Nat := let s := c.getF FBK_CTRL.SPEED_SRC; if s = 3 then 0 else s

/-- THETA_RES and SPEED_FBK at data-ready (R239). -/
def Core.deliverFeedback (c : Core) : Core :=
  let c1 := match c.fbk.theta with
    | some t => c.sigPut 0x15 t 0
    | none => c.sigMiss 0x15
  let sp : Bool × Int := match c.speedSrc with
    | 1 => (c.flag FBK_SPEED_STAT.HALL_VALID, c.getI FBK_SPEED_HALL.SPEED)
    | 2 => (c.flag FBK_SPEED_STAT.AXLE_VALID, c.getI FBK_SPEED_AXLE.SPEED)
    | _ => (c.flag FBK_SPEED_STAT.RES_VALID, c.getI FBK_SPEED_RES.SPEED)
  if sp.1 then c1.sigWrite 0x16 (toSig c.nFs sp.2) else c1.sigMiss 0x16

/-! ### The safety island's copy (R252) -/

/-- The settings in force, as the safety island takes them. -/
def Core.hallCfg (c : Core) : HallCfg :=
  ⟨c.flag FBK_CTRL.HALL_EN, c.flag FBK_CTRL.HALL_DIR, c.getF FBK_HALL_CFG.HALL_OFFSET, c.stopTime, c.polePairs,
    (5 * (c.getF FBK_IN_FILT.HALL + 1) + 1) / 2 - 1⟩

/-- The copy taken at a period start outside DRIVE, and at entry to it; a change of enable or direction restarts the
decoder. While PD_6 is off no copy can be taken (R30). -/
def Core.takeHallCfg (c : Core) : Core :=
  let n := c.hallCfg
  if n = c.fbk.sCfg ∨ !c.domainOn 6 then c
  else if n.en = c.fbk.sCfg.en ∧ n.dir = c.fbk.sCfg.dir then { c with fbk := { c.fbk with sCfg := n } }
  else { c with fbk := { c.fbk with
    sCfg := n, sHall := c.fbk.sHall.restart c.now, sSector := (hallSector n.dir c.fbk.sCode).getD 7 } }

/-- A raw level can have shown `r.n` samples, `step` half ns apart, by now (R249). -/
def Core.shown (c : Core) (step : Nat) (r : Held) : Bool := decide (0 < r.n ∧ 2 * r.t + (r.n - 1) * step ≤ 2 * c.now)

/-- A code that the safety island's own samples show (R252): its filters pass it, and its decoder takes it.
(DEDUCED log 183) -/
def Core.safeHallEdge (c : Core) (code : Nat) (r : Held) : Core :=
  if c.fbk.sCode = code ∨ !c.shown 10 r ∨ r.n ≤ c.fbk.sCfg.filt then c
  else
    let x := hallDecode c.fbk.sCfg.dir c.fbk.sHall c.fbk.sSector code r.t
    { c with fbk := { c.fbk with sCode := code, sSector := x.2.1, sHall := x.1 } }

/-- The safety island's Hall speed at a time, 0.1 rpm. -/
def Core.safeHallSpeed (c : Core) (ts : Nat) : Option Int :=
  let k := c.fbk.sCfg
  let m := c.fbk.sHall.measure ts 6 1000000 k.stop (6 * 256 * k.pp) false
  if k.en && (hallSector false c.fbk.sCode).isSome && m.valid then some m.speed else none

/-! ### Input edges (R245 to R251). Inputs are numbered as the bits of FBK_IN_STAT.LEVEL. -/

/-- Half ns between samples of a feedback input: the CONVERSION clock, or the bypass clock (R249). -/
def Core.inputStep (c : Core) : Nat := if c.onBypass 7 then 20 else 25

/-- Rejected transitions of some inputs at a time; those of the last millisecond are kept (R250). (DESIGN CHOICE log 99) -/
def Core.reject (c : Core) (inputs : List Nat) (t : Nat) : Core :=
  { c with fbk := { c.fbk with
    rejects := inputs.map (fun i => (i, t)) ++ c.fbk.rejects.filter (fun e => decide (c.now < e.2 + 1000000)) } }

/-- The inputs of a group from bit `lo` on whose levels differ between two codes. -/
def differing (lo n a b : Nat) : List Nat :=
  ((List.range n).filter (fun i => bitOf a i != bitOf b i)).map (fun i => lo + i)

/-- R245, R252: a raw Hall code as the foreground's samples and the safety island's have shown it. One that the
filter passes is a Hall edge at its first sample. (DEDUCED log 98, 183; DESIGN CHOICE log 176) -/
def execHallEdge (code : BitVec 3) (r : HallSeen) (s : State) : Res :=
  go (fun d _ =>
    let k := code.toNat
    let c := d.safeHallEdge k r.island
    let old := c.getF FBK_HALL_STAT.CODE
    if old = k ∨ !c.shown c.inputStep r.fg then c
    else if r.fg.n ≤ c.getF FBK_IN_FILT.HALL then c.reject (differing 0 3 old k) r.fg.t
    else
      let c1 := c.setF FBK_HALL_STAT.CODE k
      let c2 := c1.setF FBK_IN_STAT.LEVEL (c.getF FBK_IN_STAT.LEVEL / 8 * 8 + k)
      if !c.flag FBK_CTRL.HALL_EN then c2
      else
        let x := hallDecode (c.flag FBK_CTRL.HALL_DIR) c.fbk.hall (c.getF FBK_HALL_STAT.SECTOR) k r.fg.t
        let c3 := ({ c2 with fbk := { c2.fbk with hall := x.1 } }.setF FBK_HALL_STAT.SECTOR x.2.1).setFlag FBK_HALL_STAT.DIR
          (x.1.dir == -1)
        match x.2.2 with
        | 1 =>
          let c4 := (c3.setF FBK_HALL_STAT.ANGLE_VALID 0).setF FBK_SPEED_STAT.HALL_VALID 0
          ((c4.bump FBK_ERR_COUNT.IMPOSSIBLE 1).event FBK_EVENT.HALL_IMPOSSIBLE).raise .hallImpossible 0 [k] false
        | 2 => ((c3.bump FBK_ERR_COUNT.JUMPS 1).event FBK_EVENT.HALL_JUMP).raise .hallJump 0 [old, k] false
        | _ => c3) s

/-- A counted axle edge at `t`. A marker edge of the same sample or a later one, latched before, takes it in (R248). -/
def Core.axleCount (c : Core) (d : Int) (t : Nat) : Core :=
  let d1 := if c.flag FBK_CTRL.AXLE_DIR then -d else d
  let c1 := { c with
    fbk := { c.fbk with axle := c.fbk.axle.add t d1 }
    dok := { c.dok with
      ext := c.dok.ext + d1
      edges := c.dok.edges.map (fun (e : DokEdge) => if t ≤ e.t then { e with cnt := e.cnt + d1 } else e) } }
  let c2 := c1.setF FBK_AXLE_COUNT.COUNT (ofS 32 (c.getI FBK_AXLE_COUNT.COUNT + d1))
  match c.fbk.markerAt with
  | some m => if t ≤ m then c2.setF FBK_MARKER_POS.COUNT (ofS 32 (c.getI FBK_MARKER_POS.COUNT + d1)) else c2
  | none => c2

/-- Position of a quadrature level pair: the count rises through (A, B) = 00, 10, 11, 01, as it does in pulse-plus-direction
for a rising A with B low. (PRESUMED log 97) -/
def quadPos (a b : Bool) : Nat := if a then (if b then 2 else 1) else (if b then 3 else 0)

/-- R247: raw axle levels, one or both of which changed at the sample `r.t`; where the filter passes them they count.
(PRESUMED log 97) -/
def execAxleEdge (a b : Bool) (r : Held) (s : State) : Res :=
  go (fun c _ =>
    let lv := c.getF FBK_IN_STAT.LEVEL
    let a0 := bitOf lv 3
    let b0 := bitOf lv 4
    if (a0 = a ∧ b0 = b) ∨ !c.shown c.inputStep r then c
    else if r.n ≤ c.getF FBK_IN_FILT.AXLE then c.reject (differing 3 2 (b2n a0 + 2 * b2n b0) (b2n a + 2 * b2n b)) r.t
    else
      let c1 := (c.putBit FBK_IN_STAT.LEVEL 3 a).putBit FBK_IN_STAT.LEVEL 4 b
      if !c.flag FBK_CTRL.AXLE_EN then c1
      else if c.flag FBK_CTRL.AXLE_MODE then
        if a && !a0 then c1.axleCount (if b then -1 else 1) r.t else c1
      else if a0 != a && b0 != b then (c1.event FBK_EVENT.QUAD_ERROR).bump FBK_ERR_COUNT.QUAD 1
      else c1.axleCount (if quadPos a b = (quadPos a0 b0 + 1) % 4 then 1 else -1) r.t) s

/-- The level at which MARKER (0) or ENDSTOP (1) is active (R248). -/
def Core.activeLevel (c : Core) (i : Nat) : Bool := !c.flag (if i = 1 then FBK_IN_CFG.ENDSTOP_LOW else FBK_IN_CFG.MARKER_LOW)

/-- A level change of MARKER (0) or ENDSTOP (1): active levels, and the end of STUCK (R251); whether it is into the active
level. -/
def Core.inputLevel (c : Core) (i : Nat) (level : Bool) (t : Nat) : Core × Bool :=
  let active := level == c.activeLevel i
  let c1 := c.putBit FBK_IN_STAT.LEVEL (5 + i) level
  let c2 := { c1 with fbk := { c1.fbk with activeAt := setAt i (if active then some t else none) c1.fbk.activeAt } }
  (if active then c2
   else (c2.setF (if i = 1 then FBK_IN_STAT.ENDSTOP_STUCK else FBK_IN_STAT.MARKER_STUCK) 0).clearCause .stuckActive i, active)

/-- The axle edges counted already that lie after a time. -/
def Core.countedAfter (c : Core) (t : Nat) : Int :=
  sumI ((c.fbk.axle.gate.filter (fun e => decide (t < e.1))).map (·.2))

/-- An edge of MARKER or ENDSTOP is passed to the move engine (R248). -/
def Core.passEdge (c : Core) (endstop active : Bool) (t : Nat) : Core :=
  { c with dok := { c.dok with edges := c.dok.edges ++ [⟨endstop, active, t, c.dok.ext - c.countedAfter t⟩] } }

/-- R248: a raw MARKER level; an edge into the active level latches the count at its first sample. -/
def execMarkerEdge (level : Bool) (r : Held) (s : State) : Res :=
  go (fun c _ =>
    if bitOf (c.getF FBK_IN_STAT.LEVEL) 5 = level ∨ !c.shown c.inputStep r then c
    else if r.n ≤ c.getF FBK_IN_FILT.MARKER then c.reject [5] r.t
    else
      let x := c.inputLevel 0 level r.t
      let c1 := x.1.passEdge false x.2 r.t
      if x.2 then
        let c2 := c1.setF FBK_MARKER_POS.COUNT (ofS 32 (c.getI FBK_AXLE_COUNT.COUNT - c.countedAfter r.t))
        { c2 with fbk := { c2.fbk with markerAt := some r.t } }.event FBK_EVENT.MARKER_EDGE
      else c1) s

/-- R248: a raw ENDSTOP level; an edge is passed to the move engine. -/
def execEndstopEdge (level : Bool) (r : Held) (s : State) : Res :=
  go (fun c _ =>
    if bitOf (c.getF FBK_IN_STAT.LEVEL) 6 = level ∨ !c.shown c.inputStep r then c
    else if r.n ≤ c.getF FBK_IN_FILT.ENDSTOP then c.reject [6] r.t
    else
      let x := c.inputLevel 1 level r.t
      let c1 := (x.1.passEdge true x.2 r.t).event FBK_EVENT.ENDSTOP_EDGE
      if x.2 then { c1 with dok := { c1.dok with endDir := c1.dok.dir } } else c1) s

/-- Rejected transitions of an input in the 1 ms gate that ends at `t` (R246, R250). (DESIGN CHOICE log 99) -/
def Core.rejected (c : Core) (input t : Nat) : Nat :=
  (c.fbk.rejects.filter (fun e => e.1 == input && decide (e.2 ≤ t ∧ t < e.2 + 1000000))).length

/-- R250: an input has had more than CHAT_MAX rejected transitions within the 1 ms gate of R246 that ends at a sample instant
`t`; once per gate. (DESIGN CHOICE log 99) -/
def execChatter (input : Fin 7) (t : Nat) (s : State) : Res :=
  go (fun c _ =>
    let last := c.fbk.chatAt.getD input.val 0
    if c.now < t ∨ c.rejected input.val t ≤ max 1 (c.getF FBK_IN_CFG.CHAT_MAX) ∨ (last ≠ 0 ∧ t + 1 < last + 1000000) then c
    else
      let c1 := { c with fbk := { c.fbk with chatAt := setAt input.val (t + 1) c.fbk.chatAt } }
      ((c1.event FBK_EVENT.CHATTER).bump FBK_ERR_COUNT.CHATTER 1).raise .chatter input.val [input.val] false) s

/-- R251: MARKER or ENDSTOP has been active for longer than its STUCK time. -/
def execStuckActive (endstop : Bool) (s : State) : Res :=
  go (fun c _ =>
    let i := b2n endstop
    let ms := c.getF (if endstop then FBK_IN_STUCK.ENDSTOP else FBK_IN_STUCK.MARKER)
    let f := if endstop then FBK_IN_STAT.ENDSTOP_STUCK else FBK_IN_STAT.MARKER_STUCK
    match c.fbk.activeAt.getD i none with
    | none => c
    | some t =>
      if ms = 0 ∨ c.now ≤ t + ms * 1000000 ∨ c.flag f then c
      else ((c.setF f 1).event FBK_EVENT.STUCK_ACTIVE).raise .stuckActive i [5 + i] true) s

/-- R246: STOP_TIME passes without an edge. -/
def execSpeedStopped (axle : Bool) (s : State) : Res :=
  go (fun c _ =>
    let x := if axle then c.fbk.axle else c.fbk.hall
    if c.now ≤ x.tLast + c.stopTime * 1000000 then c
    else if axle then
      if c.flag FBK_CTRL.AXLE_EN then
        ((c.setF FBK_SPEED_STAT.AXLE_STOPPED 1).setFlag FBK_SPEED_STAT.AXLE_VALID (decide (0 < c.getF FBK_AXLE_EPR.EPR256))).setF
          FBK_SPEED_AXLE.SPEED 0
      else c
    else if c.flag FBK_CTRL.HALL_EN ∧ (hallSector false (c.getF FBK_HALL_STAT.CODE)).isSome then
      ((c.setF FBK_SPEED_STAT.HALL_STOPPED 1).setF FBK_SPEED_STAT.HALL_VALID 1).setF FBK_SPEED_HALL.SPEED 0
    else c) s

/-! ### FEEDBACK_SET, FEEDBACK_GET (R253, R254) -/

/-- RES_EN from 0 to 1: the loop's state resets; set to 0 it unlocks (R242, R244). No condition of R244 is present then.
(DEDUCED log 94, 95) -/
def Core.resolverEnable (c : Core) (was : Bool) : Core :=
  let is := c.flag FBK_CTRL.RES_EN
  if is = was then c
  else
    let c1 := { c with fbk := { c.fbk with wAcc := 0, hist := [], runLos := 0, runClip := 0, runLot := 0, served := c.now } }
    let c2 := (c1.setF FBK_RES_STAT.PHI (if is then 0 else c.getF FBK_RES_STAT.PHI)).setF FBK_RES_STAT.LOCKED 0
    (c2.resolverFlags.setF FBK_RES_STAT.RUN 0).resolverEnd false false false

/-- The Hall source restarts (R246): its sector is that of the present code. -/
def Core.hallRestart (c : Core) : Core :=
  { c with fbk := { c.fbk with hall := c.fbk.hall.restart c.now } }.setF FBK_HALL_STAT.SECTOR
    ((hallSector (c.flag FBK_CTRL.HALL_DIR) (c.getF FBK_HALL_STAT.CODE)).getD 7)

/-- A polarity that changes the active level of MARKER or ENDSTOP starts or ends the time it is held active (R251). -/
def Core.polarity (c old : Core) (i : Nat) : Core :=
  if c.activeLevel i = old.activeLevel i then c
  else
    let active := bitOf (c.getF FBK_IN_STAT.LEVEL) (5 + i) == c.activeLevel i
    { c with fbk := { c.fbk with activeAt := setAt i (if active then some c.now else none) c.fbk.activeAt } }

/-- What follows new values of the FBK_ settings, `old` the device before (R242, R245 to R247, R251): a source that is enabled
restarts, the resolver resets or unlocks, the Hall sector follows HALL_DIR. (DEDUCED log 95) -/
def Core.feedbackFollow (c old : Core) : Core :=
  let on (f : Field) : Bool := c.flag f && !old.flag f
  let c1 := c.resolverEnable (old.flag FBK_CTRL.RES_EN)
  let c2 := if on FBK_CTRL.HALL_EN ∨ c.flag FBK_CTRL.HALL_DIR ≠ old.flag FBK_CTRL.HALL_DIR then c1.hallRestart else c1
  let c3 := if on FBK_CTRL.AXLE_EN then
      { c2 with
        fbk := { c2.fbk with axle := c2.fbk.axle.restart c2.now, markerAt := none }
        dok := { c2.dok with ext := 0 } }.setF FBK_AXLE_COUNT.COUNT 0
    else c2
  (c3.polarity old 0).polarity old 1

/-- The settings of a FEEDBACK_SET payload; sources whose enable, mode, direction or scaling changed restart (R253).
(DEDUCED log 95, 98) -/
def Core.loadFeedback (c : Core) (p : List Byte) : Core :=
  let old := (c.reg FBK_CTRL.a).toNat
  let resOld := (c.getF FBK_CTRL.EXC_SEL, c.getF FBK_RES_PHASE.EXC_DELAY, c.resPp)
  let eprOld := c.getF FBK_AXLE_EPR.EPR256
  let w (n : Nat) : Word := BitVec.ofNat 32 n
  let sh := u16 p 14
  let c1 := (c.setReg FBK_CTRL.a (w (u8 p 0 + u8 p 1 % 4 * 256))).setReg FBK_RES_CFG.a (w (u16 p 2 % 4096 + u8 p 23 % 32 * 4096))
  let c2 := ((c1.setReg FBK_RES_PHASE.a (w (u32 p 4))).setReg FBK_RES_K.a (w (u32 p 8))).setReg FBK_RES_KSH.a
    (w (u16 p 12 + sh % 4096 * 65536))
  let c3 := (c2.setReg FBK_RES_THR.a (w (u32 p 16))).setReg FBK_RES_LOT.a (w (u16 p 20 + u8 p 22 * 65536))
  let c4 := ((c3.setReg FBK_HALL_CFG.a (w (u16 p 24))).setReg FBK_AXLE_EPR.a (w (u32 p 28))).setReg FBK_SPEED_CFG.a
    (w (u16 p 26 % 2048 + u16 p 32 * 65536))
  let c5 := ((c4.setReg FBK_IN_FILT.a (w (u32 p 34))).setReg FBK_IN_CFG.a (w (u8 p 38 % 4 + u8 p 39 * 256))).setReg
    FBK_IN_STUCK.a (w (u32 p 40))
  let c6 := c5.feedbackFollow c
  let flip (i : Nat) : Bool := bitOf old i != bitOf (u8 p 0) i
  let c7 := if (c6.getF FBK_CTRL.EXC_SEL, c6.getF FBK_RES_PHASE.EXC_DELAY, c6.resPp) = resOld then c6
    else (c6.resolverEnable (!c6.flag FBK_CTRL.RES_EN))
  let c8 := if flip 1 ∨ flip 3 then
      let a := c7.hallRestart
      { a with fbk := { a.fbk with hall := { a.fbk.hall with gate := [] } } }
    else c7
  if flip 2 ∨ flip 4 ∨ flip 5 ∨ eprOld ≠ c8.getF FBK_AXLE_EPR.EPR256 then
    { c8 with fbk := { c8.fbk with axle := ⟨[], [c8.now], 0⟩ } }
  else c8

/-- The checks of R254. -/
def feedbackChecks (p : List Byte) : Option Fail :=
  let half : Nat := match u8 p 1 with
    | 0 => 100000
    | 1 => 50000
    | _ => 25000
  firstFail
    [chkAt 1 (lowest [if u8 p 0 < 192 then none else some 0, if u8 p 1 ≤ 2 then none else some 1,
       if u16 p 14 < 4096 then none else some 14, if u8 p 38 < 4 then none else some 38, firstNonZero p 44 4]),
     chkAt 2 (lowest [if u16 p 2 ≤ 4095 then none else some 2, if 2 * u16 p 4 < half then none else some 4]),
     chkAt 3 (lowest [if [0, 1, 2].all (fun i => decide (u16 p 14 / 16 ^ i % 16 ≤ 8)) then none else some 14,
       if u16 p 16 < u16 p 18 then none else some 18, if u16 p 18 ≤ 32767 then none else some 18,
       if 1 ≤ u8 p 22 then none else some 22, if 1 ≤ u8 p 23 ∧ u8 p 23 ≤ 32 then none else some 23]),
     chkAt 4 (lowest [if 8 ≤ u16 p 26 ∧ u16 p 26 ≤ 1024 then none else some 26,
       if bitOf (u8 p 0) 2 ∧ u32 p 28 = 0 then some 28 else none,
       if 1 ≤ u16 p 32 ∧ u16 p 32 ≤ 10000 then none else some 32]),
     chk 5 39 (decide (1 ≤ u8 p 39))]

/-- R253: FEEDBACK_SET. -/
def execFeedbackSet (m : Msg) (s : State) : Res :=
  go (fun c _ => c.command (setSpec 0x0260 48) m fun cmd c => c.configure cmd (feedbackChecks cmd.p)) s

/-- The defaults of FEEDBACK_GET (R255, R489). -/
def feedbackDefaults : List Byte :=
  zeros 1 ++ le 1 1 ++ le 2 2048 ++ zeros 8 ++ le 2 16384 ++ le 2 0x100 ++ le 2 6554 ++ le 2 31130 ++ le 2 2048 ++ le 1 8
    ++ le 1 1 ++ zeros 2 ++ le 2 64 ++ zeros 4 ++ le 2 100 ++ le 1 8 ++ le 1 8 ++ le 1 8 ++ le 1 8 ++ zeros 1 ++ le 1 16
    ++ zeros 8

/-- R253: FEEDBACK_GET. -/
def execFeedbackGet (m : Msg) (s : State) : Res :=
  go (fun c _ => c.command (getSpec 0x0261) m fun cmd c => c.getCfg 0x0260 feedbackDefaults cmd) s

/-! ### What a docking move needs of the rest (R274) -/

def Core.modDok (c : Core) (f : Dok → Dok) : Core := { c with dok := f c.dok }

/-- The state of the move engine becomes `st` (R277). -/
def Core.dockState (c : Core) (st : Nat) : Core := c.setF DOK_STATUS.STATE st

/-- The target of the outstanding move: T' while REVERSING (R277, R278). -/
def Core.dockTarget (c : Core) : Int := if c.getF DOK_STATUS.STATE = 7 then c.dok.tNew else c.dok.t

/-- The remaining distance, µm, as a reply word (R274). -/
def Core.dockRem (c : Core) : Nat := dI (satS 32 (rne (c.dok.dir * (c.dockTarget - c.dok.p)) 1000))

/-- The outstanding move ends with a status, and each DOCK_RESUME of it. (DEDUCED log 110) -/
def Core.dockEnd (c : Core) (status : Nat) (l : List Nat) : Core :=
  let c1 := (c.modDok (fun d => { d with move := none, resumes := [] })).complete c.dok.move status l
  c.dok.resumes.foldl (fun a r => a.replyW r status l) c1

/-- The mode leaves DRIVE: the move ends at once (R274). (DEDUCED log 111) -/
def Core.dockAbort (c : Core) : Core :=
  if c.getF DOK_STATUS.STATE = 0 then c
  else
    let rem := c.dockRem
    let c1 := ((c.dockState 0).setF DOK_SPEED.V 0).modDok (fun d => { d with v := 0, arriving := false, stop := none })
    let c2 := if c.dok.move.isSome then (c1.event DOK_EVENT.MOVE_ABORTED).raise .moveAborted 0 [rem] false else c1
    (c2.dockEnd stPARTIAL [rem]).complete c.dok.stop stPARTIAL [rem]

end Sys2Proof.Machine
end

