-- ==== Sys2Proof/Machine/Island.lean ====
section
/-! DEFINITION. The safety island (R136 to R149, R155): the speed rule, the FORCE lines, the torque monitor, the angle
check, the crash input, the discharge, and its commands. -/
namespace Sys2Proof.Machine

/-! ### The speed rule (R140) -/

/-- n_sel, 0.1 rpm: the larger magnitude of the valid speeds. (DEDUCED log 51) -/
def Core.nSel (c : Core) : Option Nat :=
  match c.safeHallSpeed c.now, c.speedFbk with
  | some a, some b => some (max a.natAbs b.natAbs)
  | some a, none => some a.natAbs
  | none, some b => some b.natAbs
  | none, none => none

/-- The copy of SAFETY_LIMITS_SET; while there is none the defaults of R155. -/
def Core.nSr (c : Core) : Int := i32 c.saf.limits 0
def Core.limitsIn (c : Core) : Bool := !c.saf.limits.isEmpty
def Core.tqTime (c : Core) : Nat := 1000000 * (if c.limitsIn then u16 c.saf.limits 16 else 10)
def Core.bleedAin (c : Core) (b : Nat) : Nat := if c.limitsIn then u8 c.saf.limits (19 + b) else 0xFF

/-- n_sel exceeds the speed rule threshold; a speed that is not valid counts as above it. (DEDUCED log 32, 51) -/
def Core.aboveNsr (c : Core) : Bool := match c.nSel with
  | none => true
  | some n => decide (c.nSr < n)

/-- The sub-state the speed rule selects from a mode: 1 SAFE_SHORT, 2 SAFE_OPEN. (DEDUCED log 32) -/
def Core.speedRule (c : Core) (from_ : Mode) : Nat :=
  if from_ = .chargeDc ∨ from_ = .grid then 2
  else if c.flag SAF_CAUSE.CRASH ∨ c.aboveNsr then 1
  else 2

/-! ### The FORCE lines (R32, R137, R138) -/

/-- R137. -/
def Core.forceOpenGates (c : Core) : Core :=
  c.mappedCells.foldl (fun a n => (a.forceCode (2 * n) 4 a.forceGate).forceCode (2 * n + 1) 4 a.forceGate) c

/-- String members whose gates FORCE_SHORT drives (R138). -/
def Core.forcedCells (c : Core) : List Nat :=
  c.allMembers.filter (fun n => (c.cell n).adm == .admitted && !(c.cell n).gone)

/-- R138. -/
def Core.forceShortGates (c : Core) : Core :=
  c.forcedCells.foldl (fun a n => (a.forceShortLeg (2 * n)).forceShortLeg (2 * n + 1)) c

/-- A FORCE line is asserted: 1 SHORT, 2 OPEN; with both, FORCE_SHORT wins (R32). -/
def Core.assertForce (c : Core) (sub : Nat) : Core :=
  let f := c.getF SAF_STATUS.FORCE
  if sub = 1 then
    if 2 ≤ f then c else (c.forceShortGates).setF SAF_STATUS.FORCE (f + 2)
  else if f % 2 = 1 then c
  else (if f = 0 then c.forceOpenGates else c).setF SAF_STATUS.FORCE (f + 1)

/-- R138: FORCE_DT has elapsed and a leg under FORCE_SHORT goes to 111. -/
def execForceDtElapsed (h : Fin 256) (s : State) : Res :=
  go (fun c _ =>
    let b := c.hb h.val
    match b.forceAt with
    | none => c
    | some t =>
      if c.now < launchOf t then c
      else
        let c1 := c.modHb h.val (fun b => { b with forceAt := none })
        if b.held ∨ c.getF SAF_STATUS.FORCE < 2 then c1 else c1.forceCode h.val 7 (max t c.unscheduledAt)) s

/-! ### The discharge (R148, R149) -/

/-- BLEED_DRV is asserted. -/
def Core.bleedOn (c : Core) : Core :=
  if c.flag SAF_STATUS.BLEED_DRV then c
  else
    let none_ := c.bleedAin 0 == 0xFF && c.bleedAin 1 == 0xFF
    let c1 := (c.setF SAF_STATUS.BLEED_DRV 1).setReg SAF_BLEED_TIME.a 0
    { c1 with saf := { c1.saf with bleedAt := c.now, bleedNext := c.now + 1000000, bleedOk := none_ } }

/-- The voltage of a node from a conversion of unit D: code × BLEED_FS / 65 535, in 1/65 535 mV. (DEDUCED log 184) -/
def Core.bleedNode (c : Core) (b raw : Nat) : Nat := c.sarCode 3 raw * u32 c.saf.limits (24 + 4 * b)

/-- A node counts as below 60 V. -/
def Core.bleedBelow (c : Core) (b raw : Nat) : Bool :=
  c.bleedAin b == 0xFF || decide (c.bleedNode b raw < 60000 * 65535)

/-- The nodes are converted (R148). (DEDUCED log 62) -/
def Core.bleedConvert (c : Core) (rawA rawB : Nat) : Core :=
  let low := c.bleedBelow 0 rawA && c.bleedBelow 1 rawB
  let v (b raw : Nat) := if c.bleedAin b = 0xFF then 0 else satN 16 (rneNat (c.bleedNode b raw) 6553500)
  let c1 := (c.setF SAF_BLEED.NODE_A (v 0 rawA)).setF SAF_BLEED.NODE_B (v 1 rawB)
  let c2 := c1.setF SAF_BLEED_TIME.MS (satN 32 ((c.now - c.saf.bleedAt) / 1000000))
  let c3 := { c2 with saf := { c2.saf with bleedOk := c2.saf.bleedOk || low } }
  if low then c3.endCause .bleedTimeout 0 else c3

/-- R148, R301: the 1 ms cycle; the two conversions have just interrupted the background of unit D. -/
def execBleedConversion (rawA rawB : BitVec 16) (s : State) : Res :=
  go (fun c _ =>
    if c.flag SAF_STATUS.BLEED_DRV ∧ c.saf.bleedNext ≤ c.now then
      let c1 := (c.bleedConvert rawA.toNat rawB.toNat).sarInterrupt 3 (2 * c.now - 1000)
      { c1 with saf := { c1.saf with bleedNext := c.saf.bleedNext + 1000000 } }
    else c) s

/-- R148: the nodes are not below 60 V within 2 s of the assertion. -/
def execBleedTimeout (s : State) : Res :=
  go (fun c _ =>
    if c.flag SAF_STATUS.BLEED_DRV ∧ c.saf.bleedAt + 2000000000 ≤ c.now ∧ !c.saf.bleedOk ∧ !c.causeOn .bleedTimeout 0 then
      c.raiseA .bleedTimeout 0 []
    else c) s

/-- R149: BLEED_RELEASE. The codes of the conversions on receipt are free values. (DESIGN CHOICE log 52) -/
def execBleedRelease (m : Msg) (s : State) : Res :=
  go (fun c _ => c.command { op := 0x0312, modes := notOff, len := lenIs 0 } m fun cmd c =>
    if !c.flag SAF_STATUS.BLEED_DRV then c.done cmd.ref
    else
      let a := (Config.freeWord c.free).toNat % 65536
      let b := (Config.freeWord (c.free + 1)).toNat % 65536
      let c1 := c.fresh.fresh.bleedConvert a b
      if c.bleedBelow 0 a && c.bleedBelow 1 b && !c.saf.crashIn then
        ((c1.setF SAF_STATUS.BLEED_DRV 0).setReg SAF_BLEED_TIME.a 0).done cmd.ref
      else c1.badState cmd.ref) s

/-! ### Entry to SAFE (R53, R54, R136) -/

/-- MODE_CHANGED (R51). -/
def Core.modeChanged (c : Core) (old new : Mode) : Core := c.raise .modeChanged 0 [old.code, new.code, c.us] false

/-- A phase of the start procedure begins: START_PHASE (R256). -/
def Core.enterPhase (c : Core) (phase src : Nat) : Core :=
  let old := c.start.phase
  let c1 := { c with start := { c.start with phase := phase, src := src, next := none, phaseAt := c.now, periods := 0 } }
  if old = phase then c1 else c1.raise .startPhase 0 [old, phase, c.us] false

/-- A phase of the grid procedure begins: GRID_PHASE (R60). A condition of R62 that holds goes on holding. -/
def Core.enterGrid (c : Core) (phase : Nat) : Core :=
  let old := c.grid.phase
  let c1 := { c with grid := { c.grid with
    phase := phase, next := none, phaseAt := c.now, syncSince := none
    condSince := if phase = 0 ∨ old = 0 then List.replicate 8 none else c.grid.condSince } }
  if old = phase then c1 else c1.raise .gridPhase 0 [old, phase, c.us] false

/-- The pending transition ends with a status. -/
def Core.endPending (c : Core) (status : Nat) (l : List Nat) : Core :=
  match c.mode.pend with
  | none => c
  | some p => ({ c with mode := { c.mode with pend := none } }).complete p.ref status l

/-- The hearth records SAFE (R53): the pending transition completes with FAULT_ACTIVE (R54), every procedure ends, and a
MODE_SET SAFE completes. (DESIGN CHOICE log 212) -/
def Core.recordSafe (c : Core) (from_ : Mode) (sub : Nat) : Core :=
  let c0 := if c.mode.code = .test then c.injStop else if c.mode.code = .drive then c.dockAbort else c
  let c1 := c0.bistAbort.endPending stFAULT_ACTIVE [c.unackedA]
  let c2 := (c1.enterPhase 0 0).enterGrid 0
  let old := c2.mode.code
  let refs := c2.mode.safeRefs
  let c3 := { c2 with
    mode := { c2.mode with code := .safe, sub := sub, from_ := from_, changed := c.us, safeRefs := [], vDc := 0, iLim := 0 }
    modu := { c2.modu with next := none, cells := [], force := { UpdateSet.reset with static := some (if sub = 1 then rqLow else rqOffWeak) } }
    saf := { c2.saf with req := [] }
    start := { c2.start with failing := 0, tq := 0, srcNext := none } }
  refs.foldl (fun a r => a.done r) (c3.trainFollow.modeChanged old .safe)

/-- The mode SAFE is entered from, for the speed rule: a grid trip counts as GRID in every phase (R62). (DEDUCED log 58) -/
def Core.safeFrom (c : Core) : Mode :=
  if c.saf.req.any (· == .gridTrip) then .grid else c.mode.code

/-- The safety island acts on a request or a cause of its own (R136). (DEDUCED log 30) -/
def Core.enterSafe (c : Core) (sub : Nat) : Core :=
  let from_ := c.safeFrom
  let c1 := (c.assertForce sub).recordSafe from_ (if sub = 1 ∨ 2 ≤ c.getF SAF_STATUS.FORCE then 1 else 2)
  if bitOf (u8 c1.saf.limits 18) 0 then c1.bleedOn else c1

/-- R136: the safety island receives a request or a cause of its own, selects the sub-state and asserts a FORCE line. In
SAFE a request changes neither mode nor sub-state, but cancels a pending transition (R54, R142). -/
def execSafeRequest (s : State) : Res :=
  go (fun c _ =>
    if c.saf.req.isEmpty then c
    else if c.mode.code = .off then { c with saf := { c.saf with req := [] } }
    else if c.mode.code = .safe then
      let c1 := c.endPending stFAULT_ACTIVE [c.unackedA]
      { c1 with saf := { c1.saf with req := [], release := false } }
    else c.enterSafe (c.speedRule c.safeFrom)) s

/-- R141: in SAFE_OPEN the speed rule is evaluated again. (DEDUCED log 56) -/
def Core.reevaluate (c : Core) : Core :=
  if c.mode.code = .safe ∧ c.mode.sub = 2 ∧ c.speedRule c.mode.from_ = 1 then
    let c1 := c.assertForce 1
    { c1 with
      mode := { c1.mode with sub := 1 }
      modu := { c1.modu with force := { UpdateSet.reset with static := some rqLow } } }
  else c

/-- R143: the running safety cores rewrite the decision latch every 100 µs. -/
def execDecisionLatchUpdate (s : State) : Res :=
  go (fun c _ =>
    if c.saf.internal ∨ c.now < c.saf.latchAt + 100000 then c
    else
      let from_ := if c.mode.code = .safe then c.mode.from_ else c.mode.code
      let c1 := c.setF SAF_STATUS.LATCH (if c.speedRule from_ = 1 then 2 else 1)
      { c1 with saf := { c1.saf with latchAt := c.now } }) s

/-- R143: a lockstep mismatch, a loss of the island's clock or a fault on VDD_SAFE: the output stage asserts the FORCE
line that the latch names. (DEDUCED log 57) -/
def Core.islandFault (c : Core) : Core :=
  if c.saf.internal then c
  else
    let sub := if c.getF SAF_STATUS.LATCH = 2 then 1 else 2
    let c1 := { c with saf := { c.saf with internal := true } }
    let c2 := (c1.raise .safetyIslandFault 0 [] true).refreshCause
    if c.mode.code = .off then c2.assertForce sub
    else if c.mode.code = .safe then (c2.endPending stFAULT_ACTIVE [c2.unackedA]).assertForce sub
    else c2.enterSafe sub

def execSafetyIslandFault (s : State) : Res := go (fun c _ => c.islandFault) s

/-! ### The crash input (R147) -/

/-- R147: CRASH_N has been low for 2 µs. In SAFE_OPEN the rule is evaluated again at once (R141). (DEDUCED log 56) -/
def execCrash (s : State) : Res :=
  go (fun c _ =>
    if c.saf.crashIn then c
    else
      let c1 := ({ c with saf := { c.saf with crashIn := true } }).setF SAF_STATUS.CRASH 1
      ((c1.raiseA .crash 0 []).bleedOn).reevaluate) s

/-- R142: CRASH_N has been high for 1 s. (DESIGN CHOICE log 213) -/
def execCrashClear (s : State) : Res :=
  go (fun c _ =>
    if c.saf.crashIn then
      (({ c with saf := { c.saf with crashIn := false } }).setF SAF_STATUS.CRASH 0).endCause .crash 0
    else c) s

/-! ### The torque monitor (R145) -/

/-- 10^18, the scale of the sines below. -/
def trigOne : Nat := 10 ^ 18

/-- Terms of a sine or cosine series: `k` more, next factor `n`, present term. -/
def trigTerms (x2 : Int) : Nat → Nat → Int → Int
  | 0, _, t => t
  | k + 1, n, t => t + trigTerms x2 k (n + 2) (-(rne (t * x2) (trigOne * (n * (n + 1)))))

/-- sin and cos of `r` counts of the first quarter turn, times 10^18. (DESIGN CHOICE log 55) -/
def trigQuarter (r : Nat) : Int × Int :=
  let x := rne ((r : Int) * piNum * trigOne) (32768 * piDen)
  let x2 := rne (x * x) trigOne
  (trigTerms x2 16 2 x, trigTerms x2 16 1 trigOne)

/-- sin and cos of an angle in counts, times 10^18. (DESIGN CHOICE log 55) -/
def trig (ang : Nat) : Int × Int :=
  let s := trigQuarter (ang % 16384)
  match ang / 16384 % 4 with
  | 0 => s
  | 1 => (s.2, -s.1)
  | 2 => (-s.1, -s.2)
  | _ => (-s.2, s.1)

/-- The foreground rotor angle: ANGLE_HIN where START_SET names it, else THETA_RES (R259). -/
def Core.rotorAngle (c : Core) : Option Nat :=
  let e := if c.cfgInUse 0x0270 ∧ u8 (c.forceP 0x0270) 1 ≠ 0xFF then u8 (c.forceP 0x0270) 1 else 0x15
  if c.sigValid e then some (c.getF (CEN_SIG.VALUE e)) else none

/-- The phase currents of sensor D: sums over the strings of a phase, S.15 of I_FS. -/
def Core.phaseD (c : Core) (ph : Nat) : Option Int :=
  let l := c.strings.filter (fun s => (c.strEnt s).phase == ph)
  l.foldl (fun a s => match a, c.cnv.sensD.getD s none with
    | some x, some y => some (x + y)
    | _, _ => none) (some 0)

/-- T of R145 in 0.01 N·m. (DEDUCED log 54; DESIGN CHOICE log 55) -/
def Core.torqueD (c : Core) : Option Int :=
  match c.rotorAngle, c.phaseD 1, c.phaseD 2, c.phaseD 3 with
  | some th, some a, some b, some d =>
    let m := c.saf.model
    let t := trig th
    let r3 : Int := isqrt (3 * 10 ^ 36)
    let al := (2 * a - b - d) * c.iFs
    let be := (b - d) * c.iFs
    let dn : Nat := 3 * 10 ^ 36 * 32768
    let id := al * t.2 * trigOne + be * r3 * t.1
    let iq := be * r3 * t.2 - al * t.1 * trigOne
    let psi : Int := u32 m 12
    let dl : Int := (u32 m 4 : Int) - u32 m 8
    some (rne (150 * u8 m 16 * (psi * iq * dn * 10 ^ 6 + dl * id * iq)) (10 ^ 15 * dn * dn))
  | _, _, _, _ => none

/-- A violating torque (R145); in ALIGN and RAMP only the envelope counts (R257). -/
def Core.violating (c : Core) (t : Int) : Bool :=
  let l := c.saf.limits
  let imposed := c.start.phase = 4 ∨ c.start.phase = 5
  (!imposed && decide (i32 l 12 < ((t - c.saf.tCmd).natAbs : Int))) || decide (t < -i32 l 8) || decide (i32 l 4 < t)

/-- The torque monitor takes a sample (R145). (DEDUCED log 54; DESIGN CHOICE log 53) -/
def Core.monitorTorque (c : Core) : Core :=
  let on := c.asDrive && bitOf (u8 c.saf.limits 18) 1
  let c1 := c.setFlag SAF_STATUS.TQ_ACTIVE on
  let reset (c : Core) : Core := { c with saf := { c.saf with tqRun := 0, tqHit := false } }
  if on then
    match c.torqueD with
    | none => reset c1
    | some t =>
      let c2 := c1.setI SAF_TORQUE.VALUE t
      if c.violating t then { c2 with saf := { c2.saf with tqRun := c.saf.tqRun + c.tc } } else reset c2
  else reset c1

/-- The angle differs from the sector of the safety island's Hall decoder, widened by 30° on each side, or the code is
impossible (R146). -/
def Core.angleOff (c : Core) (ang : Nat) : Bool :=
  let f := c.fbk
  (hallSector f.sCfg.dir f.sCode).isNone ||
    (decide (f.sSector < 6) && decide (10923 < (angDiff ang (hallCentre f.sCfg.offset f.sSector)).natAbs))

/-- The angle check takes a sample (R146). (DEDUCED log 54; DESIGN CHOICE log 53) -/
def Core.checkAngle (c : Core) : Core :=
  if !c.asDrive then { c with saf := { c.saf with angRun := 0, angHit := false } }
  else if !c.fbk.sCfg.en ∨ c.start.phase = 4 ∨ c.start.phase = 5 then c
  else match c.rotorAngle with
  | none => c
  | some a =>
    if c.angleOff a then { c with saf := { c.saf with angRun := c.saf.angRun + c.tc } }
    else { c with saf := { c.saf with angRun := 0, angHit := false } }

/-- R145: violating samples have run for longer than TQ_TIME. -/
def execTorqueViolation (s : State) : Res :=
  go (fun c _ =>
    if c.tqTime < c.saf.tqRun ∧ !c.saf.tqHit then
      ({ c with saf := { c.saf with tqHit := true } }).raiseA .torqueViolation 0 []
    else c) s

/-- R146: disagreements have run for longer than TQ_TIME. -/
def execAngleDisagree (s : State) : Res :=
  go (fun c _ =>
    if c.tqTime < c.saf.angRun ∧ !c.saf.angHit then
      ({ c with saf := { c.saf with angHit := true } }).raiseA .angleDisagree 0 []
    else c) s

/-- What the safety island does at a sample instant: n_sel and the new judgement of SAFE_OPEN (R140, R141). -/
def Core.islandSample (c : Core) : Core := (c.setI SAF_SPEED.VALUE (c.nSel.getD 0)).reevaluate

/-- The torque monitor and the angle check take the sample whose currents unit D has converted. (DESIGN CHOICE log 53) -/
def Core.islandMonitor (c : Core) : Core := c.monitorTorque.checkAngle

/-- Entry to DRIVE: the copy of the motor model (R145, R257). -/
def Core.islandCopy (c : Core) (wasDrive : Bool) : Core :=
  if c.asDrive ∧ !wasDrive then
    { c with saf := { c.saf with model := c.modelImage, tqRun := 0, tqHit := false, angRun := 0, angHit := false } }
  else c

/-! ### SAFETY_LIMITS_SET, SAFETY_LIMITS_GET (R155) -/

/-- The field checks of R155, numbered from 1 (R490). -/
def safetyChecks (p : List Byte) : Option Fail :=
  let ain (o : Nat) := u8 p o == 0xFF || decide (40 ≤ u8 p o ∧ u8 p o ≤ 47)
  firstFail
    [chk 1 0 (decide (0 < i32 p 0)), chk 2 4 (decide (0 < i32 p 4)), chk 3 8 (decide (0 < i32 p 8)),
     chk 4 12 (decide (0 < i32 p 12)), chk 5 16 (decide (1 ≤ u16 p 16 ∧ u16 p 16 ≤ 1000)), chk 6 18 (decide (u8 p 18 < 4)),
     chk 7 19 (ain 19), chk 8 20 (ain 20), chkAt 9 (firstNonZero p 21 3), chk 10 24 (decide (0 < i32 p 24)),
     chk 11 28 (decide (0 < i32 p 28))]

/-- R155: SAFETY_LIMITS_SET. -/
def execSafetyLimitsSet (m : Msg) (s : State) : Res :=
  go (fun c _ => c.command (setSpec 0x0222 32) m fun cmd c => c.configure cmd (safetyChecks cmd.p)) s

/-- The values of R155 while no SAFETY_LIMITS_SET is in force. -/
def safetyDefaults : List Byte := zeros 16 ++ le 2 10 ++ [0, 0xFF, 0xFF] ++ zeros 11

/-- R155: SAFETY_LIMITS_GET. -/
def execSafetyLimitsGet (m : Msg) (s : State) : Res :=
  go (fun c _ => c.command (getSpec 0x0223) m fun cmd c => c.getCfg 0x0222 safetyDefaults cmd) s

/-- The safety island's copy of SAFETY_LIMITS_SET. -/
def Core.loadSafety (c : Core) (p : List Byte) : Core := { c with saf := { c.saf with limits := p } }

/-! ### COMPARATOR_TEST (R150, R156) -/

/-- Speed below 2 % of base speed, in 0.1 rpm (R53, R150): without a motor model only a speed of 0 is. (DEDUCED log 33) -/
def Core.nearlyStill (c : Core) : Bool := match c.nSel with
  | none => false
  | some n => if c.flag CEN_CTRL.MODEL_LOADED then decide (50 * n < c.nBase) else decide (n = 0)

/-- R150: COMPARATOR_TEST. -/
def execComparatorTest (m : Msg) (s : State) : Res :=
  go (fun c _ => c.command
      { op := 0x0710, modes := fun x => x == .hold || x == .open_, len := lenIs 4, expect := 4 } m fun cmd c =>
    let n := u8 cmd.p 0
    match firstFail [chk 1 0 (decide (n < 128)), chk 2 1 (decide (u8 cmd.p 1 < 16)), chk 3 2 (decide (u8 cmd.p 2 ≤ 2)),
      chkAt 4 (firstNonZero cmd.p 3 1)] with
    | some f => c.badField cmd.ref f
    | none =>
      if !c.nearlyStill ∨ (c.cell n).adm ≠ .admitted ∨ (c.cell n).gone then c.badState cmd.ref
      else if c.prt.test.isSome then c.replyW cmd.ref stBUSY []
      else (c.replyW cmd.ref stACCEPTED []).testFrom ⟨cmd.ref, n, u8 cmd.p 1, u8 cmd.p 2, 0, 0, 0, []⟩ 0) s

end Sys2Proof.Machine
end

