-- ==== Sys2Proof/Machine/StartProc.lean ====
section
/-! DEFINITION. The start procedure (R256 to R271): the back-EMF check, synchronising, braking, kindling, the selection of
the running angle source, and its commands. -/
namespace Sys2Proof.Machine

def Core.modStart (c : Core) (f : Start → Start) : Core := { c with start := f c.start }

/-! ### Settings (R269) -/

/-- The defaults of START_GET. -/
def startDefaults : List Byte :=
  [0, 0xFF, 0xFF, 0xFF, 0xFF, 0xFF, 0, 1, 2, 8, 8, 0] ++ le 4 100000 ++ le 2 200 ++ le 2 10 ++ le 2 3000 ++ zeros 2
    ++ le 4 100000 ++ le 4 10000

/-- The START_SET payload in force. -/
def Core.startP (c : Core) : List Byte := if c.cfgInUse 0x0270 then c.forceP 0x0270 else startDefaults

def Core.stFlag (c : Core) (i : Nat) : Bool := bitOf (u8 c.startP 0) i
def Core.angleHin (c : Core) : Nat := u8 c.startP 1
def Core.speedHin (c : Core) : Nat := u8 c.startP 2
def Core.tqHin (c : Core) : Nat := u8 c.startP 3
def Core.vdHin (c : Core) : Nat := u8 c.startP 4
def Core.vqHin (c : Core) : Nat := u8 c.startP 5
def Core.tqSlot (c : Core) : Nat := u8 c.startP 6
def Core.dSlot (c : Core) : Nat := u8 c.startP 7
def Core.qSlot (c : Core) : Nat := u8 c.startP 8

/-- ANGLE_HIN is named: the drive is not resolver-only (R259). -/
def Core.angleNamed (c : Core) : Bool := c.angleHin != 0xFF

/-- Forward: +1, or −1 with DIR_REV. -/
def Core.startDir (c : Core) : Int := if c.stFlag 2 then -1 else 1

/-- N_HO in 0.1 rpm. -/
def Core.nHo (c : Core) : Int := rne (u8 c.startP 10 * c.nBase : Nat) 100

/-- PSI of the motor model in µWb. -/
def Core.psi (c : Core) : Nat := (c.reg (CEN_MODEL_IMAGE.a 3)).toNat

/-! ### Writes of the procedure (R259, R266) -/

/-- A value for a host entry from the next period start on; 0xFF names none. -/
def Core.putHin (c : Core) (e : Nat) (x : Int) : Core := if e = 0xFF then c else c.addShadow (.hin e x)

/-- Counts per period at a speed (R259). -/
def Core.angStep (c : Core) (n : Int) : Int := rne (n * (c.polePairs * 65536 * c.tc : Nat)) (600 * 10 ^ 9)

/-- ANGLE_HIN and SPEED_HIN for an angle and a speed at this sample instant. -/
def Core.writeAngle (c : Core) (th : Nat) (n : Int) : Core :=
  let c1 := c.modStart (fun s => { s with theta := th, nS := n })
  if c.angleNamed then
    (c1.putHin c.angleHin (toS 16 (turn th (c.angStep n)))).putHin c.speedHin (sat16 (rne (n * 32768) c.nFs))
  else c1

/-- A slot takes MODE 0 AUTO or 1 MANUAL at the next period start, its bank kept. -/
def Core.putSlot (c : Core) (k mode : Nat) : Core := c.addShadow (.slot k mode (c.getF (CEN_SLOT_STAT.BANK k)))

/-- TQ_SLOT returns to what SLOT_MODE_SET last set, or to START_MAN (R267). -/
def Core.returnTq (c : Core) : Core :=
  let k := c.tqSlot
  let h := mapGet (fun _ => 0) c.ctl.slotHost k
  if h = 0 then c.addShadow (.slot k (b2n (bitOf (u8 (slotRec c.ctlImage k) 1) 2)) 0)
  else c.addShadow (.slot k ((h - 1) % 2) ((h - 1) / 2))

/-- The torque value moves toward a target by the step of one period and is written to TQ_HIN (R263, R266). -/
def Core.torqueToward (c : Core) (ramp : Nat) (target : Int) : Core :=
  let d := rne (ramp * c.tc : Nat) 1000000
  let t := c.start.tq
  let x := if t < target then min (t + d) target else max (t - d) target
  (c.modStart (fun s => { s with tq := x })).putHin c.tqHin (toSig c.tFs x)

def Core.tqRamp (c : Core) : Nat := u32 c.startP 28

/-- TQ_SLOT goes to MANUAL; the value starts from `x`, 0.01 N·m. -/
def Core.takeTq (c : Core) (x : Int) : Core := (c.putSlot c.tqSlot 1).modStart (fun s => { s with tq := x })

/-- The slot's last output in 0.01 N·m (R263). -/
def Core.tqNow (c : Core) : Int := rne (c.slotU c.tqSlot * c.tFs) 32768

/-- What precedes SYNC (R266): D and Q slots in MANUAL at the back-EMF of a speed, torque 0. -/
def Core.syncPrep (c : Core) (n : Int) : Core :=
  let v := sat16 (rne (n * (2 * piNum * c.polePairs * c.psi * 32768 : Nat)) (600 * 1000 * piDen * c.vFs))
  let c1 := ((c.putSlot c.dSlot 1).putSlot c.qSlot 1).putHin c.vdHin 0
  ((c1.putHin c.vqHin v).putHin c.tqHin 0).modStart (fun s => { s with tq := 0 })

/-- The phase and the source from the next period start on. -/
def Core.nextPhase (c : Core) (phase src : Nat) : Core := c.modStart (fun s => { s with next := some (phase, src) })

/-- The angle source changes; LIMP_ACTIVE follows the Hall source (R262). -/
def Core.limp (c : Core) (old new : Nat) : Core :=
  if new = 3 ∧ old ≠ 3 then c.raise .limpActive 0 [] true
  else if old = 3 ∧ new ≠ 3 then c.clearCause .limpActive 0 else c

/-! ### Sources (R262) -/

/-- A source is lost when the resolver leaves LOCKED, the observer raises OBSERVER_LOST, the Hall angle stops being valid. -/
def Core.resLocked (c : Core) : Bool := c.flag FBK_RES_STAT.LOCKED
def Core.hallOk (c : Core) : Bool := c.stFlag 1 && c.angleNamed && c.flag FBK_HALL_STAT.ANGLE_VALID
def Core.obsNamed (c : Core) : Bool := c.angleNamed && (sched c.ctlImage).any (fun e => e.1 == 3)
def Core.obsOk (c : Core) : Bool := c.obsNamed && c.flag CEN_OBS.LOCKED

/-- Angle and speed of a source that is not lost; one that has no new value keeps the last. (DEDUCED log 104) -/
def Core.sourceNow (c : Core) (src : Nat) : Option (Nat × Int) :=
  match src with
  | 1 => if c.resLocked then some (c.fbk.theta.getD (c.getF (CEN_SIG.VALUE 0x15)),
      if c.flag FBK_SPEED_STAT.RES_VALID then c.getI FBK_SPEED_RES.SPEED else c.start.nS) else none
  | 2 => if c.flag CEN_OBS.LOCKED then
      some (c.getF (CEN_SIG.VALUE 0x4B), rne (c.sigRaw 0x4C * c.nFs) 32768) else none
  | 3 => if c.flag FBK_HALL_STAT.ANGLE_VALID then some (c.getF FBK_HALL_STAT.ANGLE,
      if c.flag FBK_SPEED_STAT.HALL_VALID then c.getI FBK_SPEED_HALL.SPEED else c.start.nS) else none
  | 5 => some (turn c.start.theta (c.angStep c.start.nS), c.start.nS)
  | _ => none

/-- A source's values are written; where it has none the entries hold. -/
def Core.writeFrom (c : Core) (src : Nat) : Core := match c.sourceNow src with
  | some x => c.writeAngle x.1 x.2
  | none => c

/-- The entries of ALIGN: the fixed angle and speed 0 (R259, R266). -/
def Core.alignWrites (c : Core) : Core :=
  ((c.putHin c.angleHin (toS 16 (turn (u16 c.startP 22) (-16384)))).putHin c.speedHin 0).modStart (fun s => { s with nS := 0 })

/-- The imposed angle of RAMP, theta_cmd. -/
def Core.thetaCmd (c : Core) : Nat := (rneShift c.start.acc 16 % 65536).toNat

/-- In RAMP the imposed speed and angle advance and are written (R266). (DEDUCED log 105) -/
def Core.rampWrites (c : Core) : Core :=
  let dir := c.startDir
  let n := min (c.start.nImp + rne (u16 c.startP 18 * c.tc : Nat) 1000000) c.nHo
  let d := rne (n * (c.polePairs * 2 ^ 32 * c.tc : Nat)) (600 * 10 ^ 9)
  let c1 := c.modStart (fun s => { s with nImp := n, acc := (((s.acc : Int) + dir * d) % 2 ^ 32).toNat, nS := dir * n })
  (c1.putHin c.angleHin (toS 16 (turn c1.thetaCmd (-16384)))).putHin c.speedHin (sat16 (rne (dir * n * 32768) c.nFs))

/-- The values of ANGLE_HIN and SPEED_HIN that R259 has written at every data-ready of a dispatched phase and of DRIVE: of the
source selected for the period they take effect in. -/
def Core.phaseWrites (c : Core) : Core :=
  let s := c.start
  let here : Core := match s.phase with
    | 4 => c.alignWrites
    | 5 => c.rampWrites
    | 0 => c
    | 1 => c
    | _ => c.writeFrom s.src
  match s.next with
  | some (4, _) => c.alignWrites
  | some (3, src) => c.writeFrom src
  | some (6, src) => c.writeFrom src
  | _ => here

/-! ### Failure (R265) -/

/-- A failed start whose torque is 0 ends at the next period start: source mode's pattern, or HOLD instead of OPEN.
(DEDUCED log 103) -/
def Core.finishFail (c : Core) : Core := c.nextPhase 0 (b2n (c.mode.code == .open_ && c.aboveNsr))

/-- START_FAILED; TQ_HIN then ramps to 0. (DEDUCED log 103) -/
def Core.failStart (c : Core) (reason : Nat) : Core :=
  let c1 := c.modStart (fun s => { s with reason := reason, failing := reason, next := none })
  let c2 := c1.raise .startFailed 0 [reason, dI c.start.nEmf, dI c.start.amp] false
  if c2.start.tq = 0 then c2.finishFail else c2

/-! ### The back-EMF check (R264) -/

/-- The mean terminal voltage of a phase times the number of its strings, mV. (DEDUCED log 100) -/
def Core.phaseSum (c : Core) (ph : Nat) : Option Int :=
  let l := c.strings.filter (fun s => (c.strEnt s).phase == ph)
  l.foldl (fun a s => match a with
    | some x => if c.sigValid (0x0F + s) then some (x + rne (c.sigRaw (0x0F + s) * c.vFs) 32768) else none
    | none => none) (if l.isEmpty then none else some 0)

/-- The greatest angle of a quarter turn, in counts, not beyond the direction of `(x, y)`, both at least 0. -/
def angleGo (x y : Int) : Nat → Nat → Nat
  | 0, r => r
  | k + 1, r =>
    let t := r + 2 ^ k
    let q := trigQuarter t
    if t ≤ 16384 ∧ q.1 * x ≤ q.2 * y then angleGo x y k t else angleGo x y k r

/-- The angle of `(x, y)` in counts, rounded down. (DESIGN CHOICE log 101) -/
def angleOf (x y : Int) : Nat :=
  if 0 ≤ x ∧ 0 ≤ y then angleGo x y 15 0 % 65536
  else if x < 0 ∧ 0 ≤ y then (16384 + angleGo y (-x) 15 0) % 65536
  else if x < 0 then (32768 + angleGo (-x) (-y) 15 0) % 65536
  else (49152 + angleGo (-y) x 15 0) % 65536

/-- One sample of CHECK. The angle is within one count: which of the two counts is a free value.
(DEDUCED log 100; DESIGN CHOICE log 101) -/
def Core.checkSample (c : Core) : Core :=
  match c.phaseSum 1, c.phaseSum 2, c.phaseSum 3 with
  | some u, some v, some w =>
    let k := c.map.count / 3
    let euv := u - v
    let evw := v - w
    let r3 : Int := isqrt (3 * 10 ^ 36)
    let ang := (angleOf ((2 * euv + evw) * trigOne) (evw * r3) + (Config.freeWord c.free).toNat % 2) % 65536
    let q := (euv * euv + euv * evw + evw * evw).toNat
    let amp := isqrt (4 * q * 2 ^ 32 / (9 * k * k))
    let s := c.start
    let res := c.flag FBK_RES_STAT.LOCKED && c.flag FBK_SPEED_STAT.RES_VALID
    c.fresh.modStart (fun _ => { s with
      adv := match s.lastAng with
        | some a => s.adv + angDiff ang a
        | none => s.adv
      lastAng := some ang
      ampSum := s.ampSum + amp
      ampN := s.ampN + 1
      tFirst := if s.ampN = 0 then c.cnv.sampleAt else s.tFirst
      tLast := c.cnv.sampleAt
      resSum := if res then s.resSum + c.getI FBK_SPEED_RES.SPEED else s.resSum
      resN := if res then s.resN + 1 else s.resN })
  | _, _, _ => c

/-- n_emf, 0.1 rpm. (DEDUCED log 100) -/
def Core.emfSpeed (c : Core) : Int :=
  let s := c.start
  if s.tFirst < s.tLast then rne (s.adv * (600 * 10 ^ 9)) (65536 * c.polePairs * (s.tLast - s.tFirst)) else 0

/-- Standstill (R264). -/
def Core.atStandstill (c : Core) (n : Int) : Bool :=
  let s := c.start
  decide (50 * n.natAbs < c.nBase) ||
    decide (2 * s.ampSum * 30000000 * piDen < c.psi * c.nBase * c.polePairs * 2 * piNum * s.ampN * 65536)

/-- The amplitude lies within 25 % of what the speed gives. -/
def Core.emfPlausible (c : Core) (n : Int) : Bool :=
  let s := c.start
  let e := c.psi * n.natAbs * 2 * piNum * c.polePairs * s.ampN * 65536
  let a := s.ampSum * 600000 * piDen
  decide (3 * e ≤ 4 * a ∧ 4 * a ≤ 5 * e)

/-- The rotor angle at the last sample. -/
def Core.thetaEmf (c : Core) (n : Int) : Nat := turn (c.start.lastAng.getD 0) (if n < 0 then 16384 else -16384)

/-- The resolver's mean speed, direction and angle agree with the back-EMF. -/
def Core.emfAgrees (c : Core) (n : Int) (still : Bool) : Bool :=
  let s := c.start
  decide (100 * (s.resSum - n * s.resN).natAbs ≤ max (c.nBase * s.resN) (5 * s.resSum.natAbs)) &&
    (still || (decide (sgnI s.resSum = sgnI n) && (match c.fbk.theta with
      | some t => decide ((angDiff t (c.thetaEmf n)).natAbs ≤ 5461)
      | none => false)))

/-- SYNC follows with a source. -/
def Core.toSync (c : Core) (src : Nat) (th : Nat) (n : Int) : Core :=
  ((c.modStart (fun s => { s with theta := th, nS := n })).limp c.start.src src).syncPrep n |>.nextPhase 2 src

/-- R264, R265: the window ends and the next phase is selected. -/
def execCheckWindowEnd (s : State) : Res :=
  go (fun c _ =>
    let s := c.start
    if s.phase ≠ 1 ∨ s.next.isSome ∨ s.failing ≠ 0 ∨ !s.ran
        ∨ (s.adv.natAbs < 131072 ∧ c.cnv.sampleAt < s.phaseAt + 20000000) then c
    else
      let n := c.emfSpeed
      let c1 := c.modStart (fun s => { s with nEmf := n, amp := rne s.ampSum (max 1 s.ampN * 65536) })
      let still := c1.atStandstill n
      let with_ (src : Nat) : Core :=
        let x := (c1.sourceNow src).getD (0, 0)
        c1.toSync src x.1 x.2
      if !still ∧ !c1.emfPlausible n then c1.failStart 2
      else if c1.flag FBK_RES_STAT.LOCKED ∧ !c1.emfAgrees n still then c1.failStart 1
      else if c1.resLocked then with_ 1
      else if c1.hallOk then with_ 3
      else if !still ∧ c1.obsNamed then c1.toSync 5 (c1.thetaEmf n) n
      else if still ∧ c1.obsNamed ∧ c1.stFlag 0 then ((c1.takeTq 0).putHin c.tqHin 0).alignWrites.nextPhase 4 4
      else c1.failStart 3) s

/-! ### SYNC and BRAKE -/

/-- The speed is turning against the start direction: 2 % of N_BASE or more. (DEDUCED log 102) -/
def Core.backward (c : Core) (n : Int) : Bool := decide (c.startDir * n < 0 ∧ c.nBase ≤ 50 * n.natAbs)

/-- Hand-over to RUN at the next period start (R267). -/
def Core.handOver (c : Core) (src : Nat) : Core := (c.limp c.start.src src).returnTq.nextPhase 6 src

/-- SYNC is over with a source: RUN if forward or at standstill, else BRAKE. -/
def Core.afterSync (c : Core) (src : Nat) : Core :=
  if c.backward c.start.nS then c.takeTq 0 |>.nextPhase 3 src else c.handOver src

/-- R265: 8 periods of SYNC are done. -/
def execStartSyncDone (s : State) : Res :=
  go (fun c _ =>
    let s := c.start
    if s.phase = 2 ∧ (s.src = 1 ∨ s.src = 3) ∧ 8 ≤ s.periods ∧ s.next = none ∧ s.failing = 0 then c.afterSync s.src else c) s

/-- The data-ready of SYNC. -/
def Core.syncReady (c : Core) : Core :=
  let c1 := if c.start.periods = 0 then (c.putSlot c.dSlot 0).putSlot c.qSlot 0 else c
  if c.start.src = 5 ∧ c.obsOk then (c1.writeFrom 2).afterSync 2 else c1.phaseWrites

/-- The data-ready of BRAKE (R265, R266). -/
def Core.brakeReady (c : Core) : Core :=
  let c1 := c.phaseWrites
  let n := c1.start.nS
  let b := i32 c.startP 24
  let slow := if c.start.src = 2 then decide ((n.natAbs : Int) < c.nHo) else decide (50 * n.natAbs < c.nBase)
  if slow then
    if c.start.src ≠ 2 then c1.handOver c.start.src
    else if c.stFlag 0 then c1.modStart (fun s => { s with failing := 7 })
    else c1.failStart 3
  else c1.torqueToward c.tqRamp (if 0 < n then -b else if n < 0 then b else 0)

/-- R265: 30 s in BRAKE. -/
def execBrakeTimeout (s : State) : Res :=
  go (fun c _ =>
    let s := c.start
    if s.phase = 3 ∧ s.next = none ∧ (s.failing = 0 ∨ s.failing = 7) ∧ s.phaseAt + 30000000000 ≤ c.now then c.failStart 5
    else c) s

/-! ### ALIGN and RAMP (R266) -/

/-- t_i in 0.01 N·m. -/
def Core.alignTorque (c : Core) : Int := rne (150 * c.polePairs * c.psi * u32 c.startP 12 : Nat) (10 ^ 9)

/-- The data-ready of ALIGN. -/
def Core.alignReady (c : Core) : Core := c.phaseWrites.torqueToward c.tqRamp c.alignTorque

/-- R265: T_ALIGN has elapsed and RAMP follows from ALIGN_ANGLE. (DEDUCED log 105) -/
def execTAlignElapsed (s : State) : Res :=
  go (fun c _ =>
    let s := c.start
    if s.phase = 4 ∧ s.next = none ∧ s.failing = 0 ∧ s.phaseAt + u16 c.startP 16 * 1000000 ≤ c.now then
      (c.modStart (fun s => { s with nImp := 0, acc := u16 c.startP 22 * 65536 })).nextPhase 5 4
    else c) s

/-- The data-ready of RAMP: imposed speed and angle, rotor lag, hand-over (R266, R267). (DEDUCED log 105) -/
def Core.rampReady (c : Core) : Core :=
  let c1 := c.rampWrites
  let delta := if c.sigValid 0x4B then turn c1.thetaCmd (-(c.getF (CEN_SIG.VALUE 0x4B) : Int)) else c.start.delta
  if c.nHo ≤ c1.start.nImp ∧ c.obsOk ∧ 0 < delta ∧ delta < 16384 then
    let t := wr (toSig c.tFs c.alignTorque * sin16 delta)
    (((c1.writeFrom 2).modStart (fun s => { s with delta := delta })).putHin c.tqHin t).handOver 2
  else c1.torqueToward c.tqRamp c.alignTorque

/-- R265: T_RAMP_MAX has elapsed in RAMP, or in SYNC on the extrapolated back-EMF. -/
def execHandoverTimeout (s : State) : Res :=
  go (fun c _ =>
    let s := c.start
    if (s.phase = 5 ∨ (s.phase = 2 ∧ s.src = 5)) ∧ s.next = none ∧ s.failing = 0
        ∧ s.phaseAt + u16 c.startP 20 * 1000000 ≤ c.now then c.failStart 4
    else c) s

/-! ### RUN (R262, R263) -/

/-- The best source that is valid; 6 EXTRAP. (DEDUCED log 106) -/
def Core.bestSource (c : Core) : Nat := if c.resLocked then 1 else if c.obsOk then 2 else if c.hallOk then 3 else 6

/-- ANGLE_SOURCE_CHANGED (R262). -/
def Core.sourceChanged (c : Core) (old new : Nat) (step : Int) : Core :=
  (c.raise .angleSourceChanged 0 [old, new, dI step] false).limp old new

/-- The data-ready of RUN: the source of the next period is selected and written. (DEDUCED log 104) -/
def Core.runReady (c : Core) : Core :=
  let s := c.start
  let old := s.src
  let new := c.bestSource
  let cont := turn s.theta (c.angStep s.nS)
  let next (c : Core) (step : Int) : Core := c.modStart (fun x => { x with srcNext := if old = new then none else some (new, step) })
  if new = 6 then
    let c1 := if old = 6 then c.modStart (fun x => { x with extrap := x.extrap + 1 })
      else (c.modStart (fun x => { x with extrap := 0 })).takeTq c.tqNow
    ((next c1 0).writeAngle cont s.nS).torqueToward c.tqRamp 0
  else match c.sourceNow new with
  | none => c
  | some x =>
    let c1 := if old = 6 ∧ c.mode.pend.isNone then c.returnTq else c
    (next c1 (angDiff x.1 cont)).writeAngle x.1 x.2

/-- The source found at the last data-ready takes effect at a period start (R262). -/
def Core.sourceAdvance (c : Core) : Core := match c.start.srcNext with
  | none => c
  | some (new, step) =>
    (c.modStart (fun x => { x with src := new, srcNext := none })).sourceChanged c.start.src new step

/-- R261, R262: the fourth consecutive miss, or EXTRAP_N periods without a source. (DEDUCED log 104) -/
def execAngleLost (s : State) : Res :=
  go (fun c _ =>
    let s := c.start
    if (4 ≤ s.misses ∨ (s.phase = 6 ∧ s.src = 6 ∧ u8 c.startP 9 ≤ s.extrap)) ∧ c.mode.code ≠ .safe
        ∧ !c.causeOn .angleLost 0 then c.raiseA .angleLost 0 []
    else c) s

/-! ### The procedure's share of a period -/

/-- A failed start, or one that leaves BRAKE for ALIGN, ramps its torque to 0. (DEDUCED log 103) -/
def Core.failReady (c : Core) : Core :=
  let c1 := c.phaseWrites.torqueToward c.tqRamp 0
  if c1.start.tq ≠ 0 then c1
  else if c.start.failing = 7 then (c1.modStart (fun s => { s with failing := 0 })).nextPhase 4 4
  else c1.finishFail

/-- The start procedure at a data-ready. -/
def Core.startReady (c : Core) : Core :=
  let c1 := if c.start.next.isSome then c.phaseWrites
    else if c.start.failing ≠ 0 then c.failReady
    else match c.start.phase with
    | 1 => c.checkSample
    | 2 => c.syncReady
    | 3 => c.brakeReady
    | 4 => c.alignReady
    | 5 => c.rampReady
    | 6 => c.runReady
    | _ => c
  c1.modStart (fun s => { s with ran := true, periods := s.periods + 1 })

/-- A period start that the procedure missed (R261). -/
def Core.startMiss (c : Core) : Core :=
  let c1 := if c.start.phase < 2 ∨ c.start.ran then c.modStart (fun s => { s with misses := 0 })
    else (c.modStart (fun s => { s with misses := s.misses + 1 })).raise .selectorLate 0 [] false
  c1.modStart (fun s => { s with ran := false })

/-- The mode code changes (R51, R491). The lanes in training follow it (R93), and leaving TEST stops the injectors, as does the
end of their permission (R98). Entry to STANDBY flushes the ledger (R373), and parks after it (R418); a certificate
is held until the mode leaves STANDBY (R381). -/
def Core.setMode (c : Core) (new : Mode) : Core :=
  let old := c.mode.code
  let c1 := if old = .drive ∧ new ≠ .drive then c.dockAbort else c
  let c0 := if old = .test then c1.injStop else c1
  let c2 := (({ c0 with mode := { c0.mode with code := new, sub := 0, changed := c.us } }).injCheck.trainFollow).modeChanged
    old new
  let park := c.flag PWR_CTRL.PARK_LINKS || c.flag PWR_CTRL.PARK_CONV
  if new = .standby then c2.wantFlush (if park then .park else .event)
  else if old = .standby then { c2 with lgr := { c2.lgr with cert := none } } else c2

/-- The phase decided before takes effect at a period start (R257, R265). -/
def Core.startAdvance (c : Core) : Core :=
  let waits := match c.mode.pend with
    | some p => c.start.phase = 0 && !p.taken
    | none => false
  match c.start.next with
  | none => c.sourceAdvance
  | some (ph, src) =>
    if waits then c
    else
      let c1 := c.enterPhase ph (if ph = 0 then 0 else src)
      if ph = 6 then (c1.setMode .drive).endPending stDONE []
      else if ph = 0 then
        let r := c.start.failing
        let c2 := (c1.limp c.start.src 0).modStart (fun s => { s with failing := 0, tq := 0 })
        let c3 := if src = 1 then c2.setMode .hold else c2
        if r = 4 ∨ r = 5 then c3.endPending stTIMEOUT [0] else c3.endPending stBAD_STATE [c3.mode.code.code]
      else c1

/-- A start begins (R257, R265): SYNC on the resolver from HOLD above N_SR, else CHECK. -/
def Core.startBegin (c : Core) : Core :=
  let s : Start := { Start.reset with
    from_ := c.mode.code, reason := c.start.reason, nEmf := c.start.nEmf, amp := c.start.amp, delta := c.start.delta
    phaseAt := c.start.phaseAt }
  let c1 := { c with start := s }
  if c.mode.code = .hold ∧ c.aboveNsr then
    let x := (c1.sourceNow 1).getD (0, 0)
    c1.toSync 1 x.1 x.2
  else c1.nextPhase 1 0

/-- The entries the procedure owns (R260). (DEDUCED log 106) -/
def Core.startOwns (c : Core) : List Nat :=
  let s := c.start
  let l := [c.angleHin, c.speedHin] ++
    (if s.phase ≠ 0 ∧ (s.phase ≠ 6 ∨ s.src = 6) then [c.tqHin, c.vdHin, c.vqHin] else [])
  l.filter (· != 0xFF)

/-! ### Commands (R269 to R271) -/

/-- The checks of R270. -/
def Core.startChecks (c : Core) (p : List Byte) : Option Fail :=
  let b (o : Nat) := u8 p o
  let named (o : Nat) := decide (0x60 ≤ b o ∧ b o ≤ 0x7F)
  let both := b 1 == 0xFF && b 2 == 0xFF
  let bad2 (o : Nat) : Bool :=
    !(named o || (decide (o ≤ 2) && b o == 0xFF))
      || (o == 2 && (b 1 == 0xFF) != (b 2 == 0xFF))
      || (!(both && decide (o ≤ 2)) && (List.range o).any (fun k => decide (1 ≤ k) && b k == b o))
  let slot (o : Nat) := slotRec c.ctlImage (b o)
  let bad3 (o : Nat) : Bool :=
    decide (31 < b o) || (List.range o).any (fun k => decide (6 ≤ k) && b k == b o) || !c.flag CEN_CTRL.RUN
      || !(u8 (slot o) 0 == 1 || u8 (slot o) 0 == 2) || u8 (slot o) 7 != b (o - 3)
  let ok4 (o : Nat) : Bool := match o with
    | 9 => decide (1 ≤ b 9 ∧ b 9 ≤ 8)
    | 10 => decide (1 ≤ b 10 ∧ b 10 ≤ 50)
    | 12 => decide (0 < u32 p 12)
    | 16 => decide (10 ≤ u16 p 16 ∧ u16 p 16 ≤ 5000)
    | 18 => decide (0 < u16 p 18)
    | 20 => decide (100 ≤ u16 p 20 ∧ u16 p 20 ≤ 30000)
    | 24 => decide (0 < i32 p 24)
    | _ => decide (0 < u32 p 28)
  firstFail
    [chkAt 1 (lowest [if b 0 < 8 then none else some 0, firstNonZero p 11 1]),
     chkAt 2 (firstBad [1, 2, 3, 4, 5] (fun o => !bad2 o)), chkAt 3 (firstBad [6, 7, 8] (fun o => !bad3 o)),
     chkAt 4 (firstBad [9, 10, 12, 16, 18, 20, 24, 28] ok4),
     if bitOf (b 0) 0 ∧ b 1 = 0xFF then some (5, 1, 0) else none]

/-- R269: START_SET. -/
def execStartSet (m : Msg) (s : State) : Res :=
  go (fun c _ => c.command (setSpec 0x0270 32) m fun cmd c => c.configure cmd (c.startChecks cmd.p)) s

/-- R269: START_GET. -/
def execStartGet (m : Msg) (s : State) : Res :=
  go (fun c _ => c.command (getSpec 0x0271) m fun cmd c => c.getCfg 0x0270 startDefaults cmd) s

/-- R271: START_ABORT. -/
def execStartAbort (m : Msg) (s : State) : Res :=
  go (fun c _ => c.command { op := 0x0331, modes := notOff, len := lenIs 0 } m fun cmd c =>
    let s := c.start
    if 1 ≤ s.phase ∧ s.phase ≤ 5 then
      (if s.failing = 0 ∨ s.failing = 7 then c.failStart 6 else c).done cmd.ref
    else c.badState cmd.ref) s

/-- R271: START_STATUS. (DEDUCED log 104) -/
def execStartStatus (m : Msg) (s : State) : Res :=
  go (fun c _ => c.command { op := 0x0421, modes := notOff, len := lenIs 0 } m fun cmd c =>
    let s := c.start
    c.reply cmd.ref stDONE (le 1 s.phase ++ le 1 s.src ++ le 1 s.reason ++ zeros 1 ++ leI 4 s.nS ++ leI 4 s.nEmf
      ++ leI 4 s.amp ++ le 2 s.delta ++ le 1 (min 255 s.extrap) ++ zeros 1
      ++ le 4 (satN 32 ((c.now - s.phaseAt) / 1000000)))) s

end Sys2Proof.Machine
end

