-- ==== Sys2Proof/Machine/GridProc.lean ====
section
/-! DEFINITION. The grid procedure (R57 to R64): the tracker, the droop oscillator, the trip conditions, and its commands. -/
namespace Sys2Proof.Machine

def Core.modGrid (c : Core) (f : Grid → Grid) : Core := { c with grid := f c.grid }

/-! ### Settings (R57) -/

def Core.gridP (c : Core) : List Byte := c.forceP 0x02D0
def Core.pRated (c : Core) : Nat := u32 c.gridP 56

/-- π, 2π and √2 / √3 as doubles. -/
def dPi2 : Dbl := dblOf 0x401921FB54442D18
def dSqrt2 : Dbl := (dblI 2).sqrt
def dSqrt3 : Dbl := (dblI 3).sqrt

def Core.vNomD (c : Core) : Dbl := dblQ (u32 c.gridP 0) 1000
def Core.fNomD (c : Core) : Dbl := dblQ (u16 c.gridP 4) 100
def Core.tcD (c : Core) : Dbl := dblQ c.tc 1000000000

/-- vn of R61. -/
def Core.vnD (c : Core) : Dbl := (c.vNomD.mul dSqrt2).div dSqrt3

/-- i_r of R61 for a GRID_SET payload, in mA. -/
def ratedCurrent (p : List Byte) : Nat := isqrtRne (2 * u32 p 56 ^ 2 * 10 ^ 12 / (3 * u32 p 0 ^ 2))

/-- i_r of the settings in force. -/
def Core.iRated (c : Core) : Nat := ratedCurrent c.gridP

/-- (DESIGN CHOICE log 113) -/
def sinD (x : Dbl) : Dbl := dblOf (Config.sinD x.bits)
/-- (DESIGN CHOICE log 113) -/
def cosD (x : Dbl) : Dbl := dblOf (Config.cosD x.bits)
/-- (DESIGN CHOICE log 113) -/
def atan2D (y x : Dbl) : Dbl := dblOf (Config.atan2D y.bits x.bits)

/-- `x` modulo `y`, for a positive finite `y`. -/
def Dbl.mod (x y : Dbl) : Dbl := match x, y with
  | .fin s m e, .fin _ n f =>
    if n = 0 then .nan
    else
      let lo := min e f
      dblRound false ((Dbl.at s m e lo) % (Dbl.at false n f lo)).toNat 1 lo
  | _, _ => .nan

/-- An angle in counts. (DESIGN CHOICE log 180) -/
def Core.countsOf (c : Core) (x : Dbl) : Int :=
  ((x.mul (dblI 65536)).div dPi2).toInt 1 (2 ^ 40) (Config.freeWord c.free).toNat

/-- A value in thousandths, as LOOP_INPUT_SET carries it. (DESIGN CHOICE log 180) -/
def Core.milli (c : Core) (x : Dbl) : Int := x.toInt 1000 (2 ^ 31 - 1) (toS 32 (Config.freeWord c.free).toNat)

/-! ### Inputs -/

/-- VG_AB and VG_BC in V, where both are valid (R59). -/
def Core.gridVolts (c : Core) : Option (Dbl × Dbl) :=
  if c.sigValid 0x26 ∧ c.sigValid 0x27 then
    some (dblQ (c.sigRaw 0x26 * c.vFs) 32768000, dblQ (c.sigRaw 0x27 * c.vFs) 32768000)
  else none

/-- The phase voltage on two axes. -/
def alphaBeta (v : Dbl × Dbl) : Dbl × Dbl := (((dblI 2).mul v.1 |>.add v.2).div (dblI 3), v.2.div dSqrt3)

/-- A vector in the frame of an angle. -/
def parkD (a b th : Dbl) : Dbl × Dbl :=
  ((a.mul (cosD th)).add (b.mul (sinD th)), (a.neg.mul (sinD th)).add (b.mul (cosD th)))

/-- The currents in A on two axes; 0 where an entry is not valid. -/
def Core.gridAmps (c : Core) : Dbl × Dbl :=
  let i (k : Nat) : Dbl := if c.sigValid (0x0C + k) then dblQ (c.sigRaw (0x0C + k) * c.iFs) 32768000 else Dbl.zero
  ((((dblI 2).mul (i 0)).sub (i 1) |>.sub (i 2)).div (dblI 3), ((i 1).sub (i 2)).div dSqrt3)

/-! ### The tracker (R61) -/

/-- m in per mille. -/
def Core.gridM (c : Core) (vd vq : Dbl) : Dbl := ((dblI 1000).mul ((vd.mul vd).add (vq.mul vq)).sqrt).div c.vnD

/-- One run of the tracker. (DESIGN CHOICE log 113) -/
def Core.track (c : Core) (ab : Dbl × Dbl) : Core :=
  let g := c.grid
  let th := dblOf g.th
  let v := parkD ab.1 ab.2 th
  let e := v.2.div c.vnD
  let wn := (dPi2).mul (dblI (u16 c.gridP 12))
  let wi := (dblOf g.wi).add (((wn.mul wn).mul e).mul c.tcD)
  let w := (((dPi2).mul c.fNomD).add (((dblQ 1414 1000).mul wn).mul e)).add wi
  let th1 := (th.add (w.mul c.tcD)).mod dPi2
  c.fresh.modGrid (fun g => { g with
    vd := v.1.bits, vq := v.2.bits, m := (c.gridM v.1 v.2).bits, wi := wi.bits, th := th1.bits
    fG := (w.div dPi2).bits, e := c.countsOf (atan2D v.2 v.1) })

/-- Magnitude and measured vector while no tracker runs: the frame of angle 0. (DESIGN CHOICE log 113) -/
def Core.measure (c : Core) (ab : Dbl × Dbl) : Core :=
  c.modGrid (fun g => { g with th := 0, vd := ab.1.bits, vq := ab.2.bits, m := (c.gridM ab.1 ab.2).bits })

/-- The grid voltage is present or absent (R60). (DEDUCED log 114) -/
def Core.presence (c : Core) : Core :=
  let m := dblOf c.grid.m
  let since (b : Bool) (x : Option Nat) : Option Nat := if b then some (x.getD c.now) else none
  c.modGrid (fun g => { g with
    presentSince := since ((dblI 500).le m) g.presentSince
    absentSince := since (m.lt (dblI 100)) g.absentSince })

/-! ### Droop (R61) -/

/-- The working setpoints in W and var. -/
def Core.pSet (c : Core) : Dbl := dblQ c.grid.pWork (10 ^ 12)
def Core.qSet (c : Core) : Dbl := dblQ c.grid.qWork (10 ^ 12)

/-- Measured powers from voltages and currents in one frame. -/
def powersD (v i : Dbl × Dbl) : Dbl × Dbl :=
  ((dblQ 3 2).mul ((v.1.mul i.1).add (v.2.mul i.2)), (dblQ 3 2).mul ((v.2.mul i.1).sub (v.1.mul i.2)))

/-- The measured powers in the frame of an angle. -/
def Core.measuredPower (c : Core) (ab : Dbl × Dbl) (th : Dbl) : Core :=
  let i := c.gridAmps
  let r := powersD (parkD ab.1 ab.2 th) (parkD i.1 i.2 th)
  c.modGrid (fun g => { g with p := r.1.bits, q := r.2.bits })

/-- `x (1 − droop (a − b) / p_rated)`. -/
def Core.droop (c : Core) (x : Dbl) (o : Nat) (a b : Dbl) : Dbl :=
  x.mul ((dblI 1).sub ((((dblI (u16 c.gridP o)).div (dblI 10000)).mul (a.sub b)).div (dblI c.pRated)))

/-- One run of the droop oscillator; in GFORM the voltage rises by V_RAMP per ms (R56). -/
def Core.oscillate (c : Core) (ab : Dbl × Dbl) : Core :=
  let thF := dblOf c.grid.thF
  let c1 := c.measuredPower ab thF
  let f := c.droop c.fNomD 52 (dblOf c1.grid.p) c.pSet
  let th1 := (thF.add (((dPi2).mul f).mul c.tcD)).mod dPi2
  let r0 := (dblOf c.grid.vRamp).add (dblQ (u32 (c.forceP 0x0254) 12 * c.tc) (10 ^ 9))
  let r := if r0.lt c.vnD then r0 else c.vnD
  c1.modGrid (fun g => { g with
    fSet := f.bits, thF := th1.bits, vRamp := if c.grid.phase = 2 then r.bits else g.vRamp })

/-! ### Writes (R61) -/

/-- A current in A, a voltage in V, and a frequency as a speed, into entries. -/
def Core.putAmps (c : Core) (e : Nat) (x : Dbl) : Core := c.putHin e (toSig c.iFs (c.milli x))
def Core.putVolts (c : Core) (e : Nat) (x : Dbl) : Core := c.putHin e (toSig c.vFs (c.milli x))
/-- (DESIGN CHOICE log 180) -/
def Core.putFreq (c : Core) (f : Dbl) : Core :=
  c.putHin c.speedHin (toSig c.nFs (((f.mul (dblI 600)).div (dblI c.polePairs)).toInt 1 (2 ^ 31 - 1)
    (toS 32 (Config.freeWord c.free).toNat)))

/-- The current limit of the mode, in A. (DEDUCED log 179) -/
def Core.iLimD (c : Core) : Dbl := dblQ c.mode.iLim 1000

/-- The writes of grid-following in GRUN (R61). While the mode's current limit ramps to 0 (R60) it bounds the references; the
angle is that of the run just made. (DEDUCED log 179; DESIGN CHOICE log 202) -/
def Core.writeFollowing (c : Core) : Core :=
  let vd := dblOf c.grid.vd
  let d3 := (dblI 3).mul vd
  let id := ((dblI 2).mul c.pSet).div d3
  let iq := ((dblI (-2)).mul c.qSet).div d3
  let mag := ((id.mul id).add (iq.mul iq)).sqrt
  let k := if c.mode.iLim ≠ c.iRated ∧ c.iLimD.lt mag then c.iLimD.div mag else dblI 1
  let c1 := ((c.putAmps (u8 c.gridP 8) (id.mul k)).fresh.putAmps (u8 c.gridP 9) (iq.mul k)).fresh
  let c2 := (c1.putHin c.angleHin (toS 16 (ofS 16 (c1.countsOf (dblOf c.grid.th))))).fresh
  (c2.putVolts (u8 c.gridP 10) vd).fresh

/-- The writes of grid-forming. (DEDUCED log 179) -/
def Core.writeForming (c : Core) : Core :=
  let v := if c.grid.phase = 2 then dblOf c.grid.vRamp else c.droop c.vnD 54 (dblOf c.grid.q) c.qSet
  let i := if c.grid.phase = 2 then dblQ c.iRated 1000 else c.iLimD
  let c1 := ((c.putAmps (u8 c.gridP 8) i).fresh.putAmps (u8 c.gridP 9) i).fresh
  let c2 := (c1.putHin c.angleHin (toS 16 (ofS 16 (c1.countsOf (dblOf c.grid.thF))))).fresh
  (c2.putVolts (u8 c.gridP 10) v).fresh

/-! ### The trip conditions (R62) -/

/-- Frequency in 0.01 Hz that conditions 5 and 6 judge. (DESIGN CHOICE log 180) -/
def Core.tripFreq (c : Core) : Int :=
  (if c.grid.option = 1 then dblOf c.grid.fSet else dblOf c.grid.fG).toInt 100 (2 ^ 31 - 1) 0

/-- f_g of 100 ms earlier, where known. -/
def Core.fEarlier (c : Core) : Option Dbl :=
  (c.grid.fHist.find? (fun e => decide (e.1 + 100000000 ≤ c.now))).map (fun e => dblOf e.2)

/-- |f_g − f_g 100 ms earlier| × 10, in mHz per s. -/
def Core.rocof (c : Core) : Dbl := match c.fEarlier with
  | none => Dbl.zero
  | some f => (((dblOf c.grid.fG).sub f).abs.mul (dblI 1000)).mul (dblI 10)

/-- Condition `k` (1 to 8) is checked in the present phase. -/
def Core.condOn (c : Core) (k : Nat) : Bool :=
  let p := c.grid.phase
  match k with
  | 1 | 2 => p == 3
  | 3 | 5 | 6 => p == 2 || p == 3
  | 4 => p != 0
  | _ => p == 3 && c.grid.option == 0

/-- Condition `k` holds. (DEDUCED log 114) -/
def Core.condHolds (c : Core) (k : Nat) : Bool :=
  let m := dblOf c.grid.m
  let t (o : Nat) : Dbl := dblI (u16 c.gridP o)
  match k with
  | 1 => m.lt (t 24)
  | 2 => m.lt (t 26)
  | 3 => (t 28).lt m
  | 4 => (t 30).lt m
  | 5 => decide (c.tripFreq < u16 c.gridP 40)
  | 6 => decide ((u16 c.gridP 42 : Int) < c.tripFreq)
  | 7 => u16 c.gridP 48 != 0 && (t 48).lt c.rocof
  | _ => decide (5461 < c.grid.e.natAbs)

/-- The trip time of condition `k`, ns. -/
def Core.condTime (c : Core) (k : Nat) : Nat :=
  1000000 * (if k = 8 then 20 else u16 c.gridP ([0, 32, 34, 36, 38, 44, 46, 50].getD k 0))

/-- The value GRID_TRIP carries. -/
def Core.condValue (c : Core) (k : Nat) : Int :=
  if k ≤ 4 then (dblOf c.grid.m).toInt 1 (2 ^ 31 - 1) 0
  else if k ≤ 6 then c.tripFreq
  else if k = 7 then c.rocof.toInt 1 (2 ^ 31 - 1) 0 else c.grid.e

/-- The conditions judged at a data-ready. (DEDUCED log 114) -/
def Core.judgeGrid (c : Core) : Core :=
  c.modGrid (fun g => { g with condSince := (List.range 8).map (fun i =>
    if c.condOn (i + 1) && c.condHolds (i + 1) then some ((g.condSince.getD i none).getD c.cnv.sampleAt) else none) })

/-- R62: a condition has held for longer than its time. -/
def execGridTrip (s : State) : Res :=
  go (fun c _ =>
    let held (k : Nat) : Bool := match c.grid.condSince.getD (k - 1) none with
      | some t => c.condOn k && decide (t + c.condTime k < c.cnv.sampleAt)
      | none => false
    match [1, 2, 3, 4, 5, 6, 7, 8].find? held with
    | none => c
    | some k =>
      if c.saf.req.contains .gridTrip ∨ c.mode.code = .safe then c
      else (c.modGrid (fun g => { g with lastTrip := k })).raiseA .gridTrip 0 [k, dI (c.condValue k), c.us]) s

/-! ### The procedure at a data-ready and at a period start -/

/-- Within the synchronisation tolerances (R60). -/
def Core.inSync (c : Core) : Bool :=
  let m := dblOf c.grid.m
  let df := ((dblOf c.grid.fG).sub c.fNomD).abs
  decide (c.grid.e.natAbs ≤ u16 c.gridP 18) && (df.mul (dblI 1000)).le (dblI (u16 c.gridP 16))
    && (dblI (u16 c.gridP 24)).le m && m.le (dblI (u16 c.gridP 28))

/-- A run of the procedure with the voltages of the sample. -/
def Core.gridRun (c : Core) (ab : Dbl × Dbl) : Core :=
  let c1 := (c.track ab).presence
  let forming := c.grid.option = 1
  let c2 := if forming then c1.oscillate ab else c1.measuredPower ab (dblOf c.grid.th)
  let c3 := c2.modGrid (fun g => { g with
    fHist := ((c.now, g.fG) :: g.fHist).filter (fun e => decide (c.now ≤ e.1 + 100000000 + c.tc))
    syncSince := if c.grid.phase = 1 ∧ c2.inSync then some (g.syncSince.getD c.cnv.sampleAt) else none })
  let c4 := if c.grid.auto ∧ c.grid.phase = 3 then
      ((c3.putSlot c.dSlot 0).putSlot c.qSlot 0).modGrid (fun g => { g with auto := false }) else c3
  let c5 := if forming then c4.writeForming else if c.grid.phase = 3 then c4.writeFollowing else c4
  let c6 := c5.putFreq (if forming then dblOf c5.grid.fSet else dblOf c5.grid.fG)
  let c7 := if c.grid.phase = 2 ∧ c.grid.next = none ∧ c6.vnD.le (dblOf c6.grid.vRamp) then
      c6.modGrid (fun g => { g with next := some 3 }) else c6
  c7.judgeGrid

/-- The grid procedure at a data-ready; without both voltages it makes no run. (DESIGN CHOICE log 203) -/
def Core.gridReady (c : Core) : Core :=
  if !c.cfgInUse 0x02D0 then c
  else match c.gridVolts with
  | none => c
  | some v => if c.grid.phase = 0 then (c.measure (alphaBeta v)).presence else c.gridRun (alphaBeta v)

/-- A working setpoint moves toward the accepted one (R63). -/
def Core.gridSetpoints (c : Core) : Core :=
  let d : Int := u16 c.gridP 14 * c.pRated * c.tc
  let go (x t : Int) : Int := if x < t then min (x + d) t else max (x - d) t
  c.modGrid (fun g => { g with pWork := go g.pWork (g.pRef * 10 ^ 12), qWork := go g.qWork (g.qRef * 10 ^ 12) })

/-- The phase decided before takes effect at a period start; the tracker starts from the measured angle (R60). -/
def Core.gridAdvance (c : Core) : Core :=
  match c.grid.next with
  | none => c
  | some ph =>
    let c1 := c.enterGrid ph
    if ph = 3 then
      let c2 := { c1 with mode := { c1.mode with iLim := c.iRated } }
      (c2.setMode .grid).endPending stDONE []
    else if ph = 1 then
      c1.modGrid (fun g => { g with th := ((atan2D (dblOf g.vq) (dblOf g.vd)).mod dPi2).bits })
    else c1

/-- The pending MODE_SET GRID, while no phase has begun (R60). -/
def Core.gridWaiting (c : Core) : Option Pending :=
  match c.mode.pend with
  | some p => if p.target = .grid ∧ c.grid.phase = 0 ∧ c.grid.next = none then some p else none
  | none => none

/-- R60: the voltage has been present for 20 ms. -/
def execGridVoltagePresent (s : State) : Res :=
  go (fun c _ => match c.gridWaiting, c.grid.presentSince with
    | some p, some t =>
      if t + 20000000 ≤ c.now then
        c.modGrid (fun g => { g with
          next := some 1, option := p.option, wi := 0, fHist := [] })
      else c
    | _, _ => c) s

/-- R60: the network is dead for 20 ms and a black start is permitted. -/
def execGridVoltageAbsent (s : State) : Res :=
  go (fun c _ => match c.gridWaiting, c.grid.absentSince with
    | some p, some t =>
      if t + 20000000 ≤ c.now ∧ p.option = 1 ∧ bitOf (u8 c.gridP 6) 1 then
        c.modGrid (fun g => { g with
          next := some 2, option := 1, th := 0, thF := 0, wi := 0, vRamp := 0, fHist := [] })
      else c
    | _, _ => c) s

/-- The voltage has been present, or a network that may be started dead, for 20 ms within 100 ms of acceptance (R60). -/
def Core.gridFound (c : Core) (p : Pending) : Bool :=
  let held (x : Option Nat) : Bool := match x with
    | some t => decide (t + 20000000 ≤ p.accepted + 100000000)
    | none => false
  held c.grid.presentSince || (held c.grid.absentSince && p.option == 1 && bitOf (u8 c.gridP 6) 1)

/-- R60: neither entry condition within 100 ms. -/
def execGridNoGridTimeout (s : State) : Res :=
  go (fun c _ => match c.gridWaiting with
    | some p =>
      if p.accepted + 100000000 ≤ c.now ∧ !c.gridFound p then
        (c.raise .gridSyncFailed 0 [1] false).endPending stBAD_STATE [c.mode.code.code]
      else c
    | none => c) s

/-- R60, R61: the tolerances have held for SYNC_T; hand-over at the next period start. (DESIGN CHOICE log 202) -/
def execGridSyncHeld (s : State) : Res :=
  go (fun c _ => match c.grid.syncSince with
    | some t =>
      if c.grid.phase = 1 ∧ c.grid.next = none ∧ t + u16 c.gridP 20 * 1000000 ≤ c.now then
        let c1 := (c.putSlot c.dSlot 1).putSlot c.qSlot 1
        let c2 := (c1.putVolts c.vdHin (dblOf c.grid.vd)).putVolts c.vqHin (dblOf c.grid.vq)
        let c3 := (c2.putHin c.angleHin (toS 16 (ofS 16 (c2.countsOf (dblOf c.grid.th))))).fresh
        c3.modGrid (fun g => { g with next := some 3, auto := true, thF := g.th })
      else c
    | none => c) s

/-- R60: SYNC_TMAX has elapsed. -/
def execGridSyncTimeout (s : State) : Res :=
  go (fun c _ =>
    if c.grid.phase = 1 ∧ c.grid.next = none ∧ c.grid.phaseAt + u16 c.gridP 22 * 1000000 ≤ c.now then
      ((c.raise .gridSyncFailed 0 [2] false).enterGrid 0).endPending stTIMEOUT [0]
    else c) s

/-- The entries the procedure owns (R60). -/
def Core.gridOwns (c : Core) : List Nat :=
  if c.grid.phase = 0 then []
  else [c.angleHin, c.speedHin, c.vdHin, c.vqHin, u8 c.gridP 8, u8 c.gridP 9, u8 c.gridP 10].filter (· != 0xFF)

/-! ### Commands -/

/-- The checks of R58. -/
def Core.gridChecks (c : Core) (p : List Byte) : Option Fail :=
  let w := u16 p
  let time (o : Nat) : Bool := decide (1 ≤ w o ∧ w o ≤ 60000)
  let hin (o : Nat) : Bool := decide (0x60 ≤ u8 p o ∧ u8 p o ≤ 0x7F)
    && !(List.range o).any (fun k => decide (8 ≤ k) && u8 p k == u8 p o)
    && !(c.cfgSet 0x0270 && [1, 2, 3, 4, 5].any (fun k => u8 (c.cfgP 0x0270) k == u8 p o))
  let vo := u32 p 0 * w 30
  let strs := c.strings.map c.strEnt
  let vMin := c.map.vMin.toNat
  firstFail
    [chkAt 1 (lowest [if u8 p 6 < 4 ∧ !(bitOf (u8 p 6) 1 && !bitOf (u8 p 6) 0) then none else some 6, firstNonZero p 7 1,
       firstNonZero p 11 1, firstNonZero p 60 4]),
     chkAt 2 (firstBad [0, 4, 56] (fun o => if o = 0 then decide (0 < u32 p 0) else if o = 4 then w 4 == 5000 || w 4 == 6000
       else decide (0 < u32 p 56 ∧ u32 p 56 ≤ u32 (c.cfgP 0x0254) 0))),
     chkAt 3 (firstBad [8, 9, 10] hin),
     chkAt 4 (firstBad [12, 14, 18, 20, 22] (fun o => if o = 12 then decide (1 ≤ w 12 ∧ w 12 ≤ 200)
       else if o = 14 then decide (1 ≤ w 14 ∧ w 14 ≤ 10000) else if o = 18 then decide (1 ≤ w 18 ∧ w 18 ≤ 5461)
       else if o = 20 then decide (1 ≤ w 20 ∧ w 20 ≤ 10000) else decide (w 20 ≤ w 22 ∧ w 22 ≤ 60000))),
     chkAt 5 (firstBad [24, 26, 28, 30, 32, 34, 36, 38, 40, 42, 44, 46, 50] (fun o => match o with
       | 24 => decide (w 24 < 1000)
       | 26 => decide (w 26 < w 24)
       | 28 => decide (1000 < w 28)
       | 30 => decide (w 28 < w 30)
       | 40 => decide (w 40 < w 4)
       | 42 => decide (w 4 < w 42)
       | _ => time o)),
     chk 6 30 (strs.all (fun e => decide (2 * vo ^ 2 ≤ 3 * (1000 * e.minCells * vMin) ^ 2))),
     chk 7 30 (strs.all (fun e => decide (2 * vo ^ 2 ≤ (2000 * e.floor * vMin) ^ 2)))]

/-- R57: GRID_SET. -/
def execGridSet (m : Msg) (s : State) : Res :=
  go (fun c _ => c.command { setSpec 0x02D0 64 with grade := some 1 } m fun cmd c => c.configure cmd (c.gridChecks cmd.p)) s

/-- R57: GRID_GET. -/
def execGridGet (m : Msg) (s : State) : Res :=
  go (fun c _ => c.command { getSpec 0x02D1 with grade := some 1 } m fun cmd c => c.getCfg 0x02D0 (zeros 64) cmd) s

/-- R63: GRID_SETPOINT. -/
def execGridSetpoint (m : Msg) (s : State) : Res :=
  go (fun c _ => c.command { op := 0x0350, modes := notOff, grade := some 1, len := lenIs 12, expect := 12 } m fun cmd c =>
    let p := i32 cmd.p 0
    let q := i32 cmd.p 4
    match firstFail [chkAt 3 (firstNonZero cmd.p 8 4), chk 4 4 (decide (p * p + q * q ≤ ((c.pRated ^ 2 : Nat) : Int)))] with
    | some f => c.badField cmd.ref f
    | none => (c.addShadow (.setpoint p q)).done cmd.ref) s

/-- R64: GRID_STATUS. -/
def execGridStatus (m : Msg) (s : State) : Res :=
  go (fun c _ => c.command { op := 0x0424, modes := notOff, len := lenIs 0 } m fun cmd c =>
    let g := c.grid
    let i (b : BitVec 64) (k : Nat) : Int := (dblOf b).toInt k (2 ^ 31 - 1) 0
    let vll := ((dblOf g.m).mul (dblI (u32 c.gridP 0))).div (dblI 1000)
    c.reply cmd.ref stDONE (le 1 g.phase ++ le 1 g.option ++ le 1 g.lastTrip ++ zeros 1
      ++ leI 4 (i (if g.option = 1 then g.fSet else g.fG) 1000) ++ leI 4 (vll.toInt 1 (2 ^ 31 - 1) 0)
      ++ leI 4 (i g.p 1) ++ leI 4 (i g.q 1) ++ le 4 (satN 32 ((c.now - g.phaseAt) / 1000000)))) s

end Sys2Proof.Machine
end

