-- ==== Sys2Proof/Machine/MapCmd.lean ====
section
/-! DEFINITION. STRING_MAP_SET, STRING_MAP_GET and the application of a map (R37 to R45). -/
namespace Sys2Proof.Machine

/-! ### The checks of R40 -/

/-- STRING_COUNT, string entries and cell entries of a payload. -/
def mapCount (p : List Byte) : Nat := u8 p 4
def strOfs (s : Nat) : Nat := 32 + 16 * s
def cellOfs (n : Nat) : Nat := 128 + 16 * n

/-- Check 1: reserved bytes, PHASE and ROLE codes, STRING_COUNT, unused string entries. -/
def mapCheck1 (p : List Byte) : Option Nat :=
  let k := mapCount p
  lowest
    [if k = 3 ∨ k = 6 then none else some 4, firstNonZero p 6 2, firstNonZero p 28 4,
     lowest ((List.range 6).map (fun s =>
       let o := strOfs s
       if s < k then lowest [if 1 ≤ u8 p o ∧ u8 p o ≤ 3 then none else some o, firstNonZero p (o + 4) 12]
       else lowest [firstNonZero p o 1, firstNonZero p (o + 1) 1, firstNonZero p (o + 2) 1, firstNonZero p (o + 3) 1,
         firstNonZero p (o + 4) 12])),
     lowest ((List.range 128).map (fun n =>
       let o := cellOfs n
       lowest [if u8 p o ≤ 2 then none else some o, firstNonZero p (o + 3) 1, firstNonZero p (o + 12) 4]))]

/-- Checks 2, 3 and 5: phases, positions, cell counts. -/
def mapCheck2 (p : List Byte) : Option Nat :=
  let ss := List.range (mapCount p)
  let named (ph : Nat) : Nat := (ss.filter (fun s => u8 p (strOfs s) == ph)).length
  (ss.find? (fun s => decide (mapCount p / 3 < named (u8 p (strOfs s))))).map strOfs

def mapCheck3 (p : List Byte) : Option Nat :=
  let n := u8 p (strOfs 0 + 1)
  firstBad ((List.range (mapCount p)).map (fun s => strOfs s + 1)) (fun o => decide (1 ≤ n ∧ n ≤ 48 ∧ u8 p o = n))

def mapCheck5 (p : List Byte) : Option Nat :=
  lowest ((List.range (mapCount p)).map (fun s =>
    let o := strOfs s
    lowest [if u8 p (o + 2) ≤ u8 p (o + 1) then none else some (o + 2),
      if 1 ≤ u8 p (o + 3) ∧ u8 p (o + 3) ≤ u8 p (o + 2) then none else some (o + 3)]))

/-- The cell of lower index that names the same position as role-1 cell `n`. -/
def mapTwin (p : List Byte) (n : Nat) : Bool :=
  (List.range n).any (fun k =>
    u8 p (cellOfs k) == 1 && u8 p (cellOfs k + 1) == u8 p (cellOfs n + 1) && u8 p (cellOfs k + 2) == u8 p (cellOfs n + 2))

/-- Check 7 for one cell. -/
def mapCheck7Cell (p : List Byte) (n : Nat) : Option Nat :=
  let o := cellOfs n
  if u8 p o = 1 then
    if mapCount p ≤ u8 p (o + 1) then some (o + 1)
    else if u8 p (strOfs (u8 p (o + 1)) + 1) ≤ u8 p (o + 2) ∨ mapTwin p n then some (o + 2) else none
  else if u8 p (o + 1) ≠ 0 then some (o + 1)
  else if u8 p (o + 2) ≠ 0 then some (o + 2) else none

/-- The first position that no cell fills: its string and itself. -/
def mapHole (p : List Byte) : Option (Nat × Nat) :=
  (List.range (mapCount p)).findSome? (fun s =>
    ((List.range (u8 p (strOfs s + 1))).find? (fun k => !(List.range 128).any (fun n =>
      u8 p (cellOfs n) == 1 && u8 p (cellOfs n + 1) == s && u8 p (cellOfs n + 2) == k))).map (fun k => (s, k)))

def mapCheck7 (p : List Byte) : Option Fail :=
  match (List.range 128).findSome? (mapCheck7Cell p) with
  | some o => some (7, o, 0)
  | none => (mapHole p).map (fun e => (7, strOfs e.1 + 1, 256 * e.1 + e.2))

/-- Check 9: the SERIAL that fails first. (DEDUCED log 24) -/
def mapCheck9 (p : List Byte) : Option Nat :=
  firstBad ((List.range 128).map (fun n => cellOfs n + 4)) (fun o =>
    let n := (o - 132) / 16
    if u8 p (cellOfs n) = 0 then u64 p o == 0
    else u64 p o != 0 && (List.range n).all (fun k => u8 p (cellOfs k) == 0 || u64 p (cellOfs k + 4) != u64 p o))

/-- R40. (DEDUCED log 24) -/
def mapChecks (p : List Byte) : Option Fail :=
  let ss := List.range (mapCount p)
  let spares := ((List.range 128).filter (fun n => u8 p (cellOfs n) == 2)).length
  firstFail
    [chkAt 1 (mapCheck1 p), chkAt 2 (mapCheck2 p), chkAt 3 (mapCheck3 p),
     chkAt 4 (lowest [if 24000 ≤ i32 p 8 ∧ i32 p 8 ≤ 64000 then none else some 8,
       if i32 p 12 < i32 p 8 then none else some 12, if i32 p 8 < i32 p 16 ∧ i32 p 16 ≤ 80000 then none else some 16,
       if 0 < u32 p 20 then none else some 20]),
     chkAt 5 (mapCheck5 p),
     chkAt 6 (firstBad (ss.map (fun s => strOfs s + 3)) (fun o => decide (i32 p 24 ≤ u8 p o * i32 p 12))),
     mapCheck7 p, chk 8 5 (spares == u8 p 5), chkAt 9 (mapCheck9 p)]

/-! ### Application (R41 to R45, R93) -/

/-- A lane whose cell the map leaves out. -/
def Core.disableLane (c : Core) (n : Nat) : Core :=
  if c.laneState n = 0 then c.setCell n Cell.reset
  else
    let c1 := (c.forceCell n 4).setLaneState n 0
    let c2 := c1.modLane n (fun x => { x with msg := none, queue := [], resend := false, tries := 0 })
    (c2.setF (LNK_LANE_STATUS.MSG_BUSY n) 0).setCell n Cell.reset

/-- Steps 2 and 3 of R41 for one cell; `was` is its role under the old map. The bypass commands are for role 1 only (R45).
(DEDUCED log 25) -/
def Core.applyCell (c : Core) (was n : Nat) : Core :=
  let c1 := (c.clearCause .cellIdentityMismatch n).clearCause .laneFaulty n
  let st := c.laneState n
  if c.role n = 0 then c1.disableLane n
  else
    let c2 := c1.modCell n (fun x =>
      if c.role n = 1 then { x with adm := .unknown } else { x with adm := .unknown, bcOn := false, bcFirst := none, boOn := false })
    if st = 4 ∨ st = 0 ∨ c.role n ≠ was then c2.startTraining n
    else if st = 2 then c2.identity n
    else if st = 3 then c2.silentCell n
    else c2

/-- A map becomes the one in force. (DEDUCED log 25) -/
def Core.applyMap (c : Core) (p : List Byte) (ref : Option CmdRef) : Core :=
  let old := c.map
  let c1 := (List.range 6).foldl (fun a s => (a.clearCause .stringDerated s).endCause .stringBelowFloor s) c
  let c2 := { c1 with
    map := { mapOfPayload p with applying := ref, checking := true }
    lgr := { c1.lgr with mapId := u32 p 0 } }
  ((List.range 128).foldl (fun a n => a.applyCell (mapGet (fun _ => CellEnt.none) old.cells n).role n) c2).laneCtrl

/-- The outcome of every cell with role 1 or 2 is known. -/
def Core.identityKnown (c : Core) : Bool := c.mappedCells.all (fun n => (c.cell n).adm != .unknown)

/-- The numbers of cells admitted, mismatched, silent and retired. -/
def Core.identityCounts (c : Core) : List Nat :=
  [Admission.admitted, .mismatched, .silent, .retired].map (fun k =>
    (c.mappedCells.filter (fun n => (c.cell n).adm == k)).length)

/-- R41: MAP_APPLIED, and the completion of STRING_MAP_SET. -/
def execMapApplied (s : State) : Res :=
  go (fun c _ =>
    if c.map.checking ∧ c.identityKnown then
      let l := c.identityCounts
      let ref := c.map.applying
      let c1 := ({ c with map := { c.map with applying := none, checking := false } }).raise .mapApplied 0 (c.map.id :: l)
        false
      c1.complete ref stDONE l
    else c) s

/-- R37 to R41: STRING_MAP_SET. (DEDUCED log 26) -/
def execStringMapSet (m : Msg) (s : State) : Res :=
  go (fun c _ => c.command { setSpec 0x0201 2176 with modes := (· == .standby) } m fun cmd c =>
    if c.map.applying.isSome then c.replyW cmd.ref stBUSY []
    else match mapChecks cmd.p with
    | some f => c.badField cmd.ref f
    | none =>
      if c.pwr.nvBad then c.nvFault cmd.ref
      else ((c.storeCfg cmd).replyW cmd.ref stACCEPTED []).applyMap cmd.p (some cmd.ref)) s

/-- R37: STRING_MAP_GET. -/
def execStringMapGet (m : Msg) (s : State) : Res :=
  go (fun c _ => c.command (getSpec 0x0202) m fun cmd c => c.getCfg 0x0201 (zeros 2176) cmd) s

end Sys2Proof.Machine
end

