-- ==== Sys2Proof/Machine/Modes.lean ====
section
/-! DEFINITION. Operating modes (R49 to R56, R491): MODE_SET with its refusals, the ramps, the patterns of the next period;
DRIVE_LIMITS_SET, MODULATION_SET and LOOP_INPUT_SET. -/
namespace Sys2Proof.Machine

def Core.modMode (c : Core) (f : ModeSt → ModeSt) : Core := { c with mode := f c.mode }

/-! ### Limits (R56) -/

def Core.limP (c : Core) : List Byte := c.forceP 0x0254
def Core.tqRampM (c : Core) : Nat := u32 c.limP 4
def Core.iRamp (c : Core) : Nat := u32 c.limP 8
def Core.vRampM (c : Core) : Nat := u32 c.limP 12

/-- R56: DRIVE_LIMITS_SET. -/
def execDriveLimitsSet (m : Msg) (s : State) : Res :=
  go (fun c _ => c.command (setSpec 0x0254 16) m fun cmd c =>
    c.configure cmd (firstFail [chk 1 0 (decide (0 < u32 cmd.p 0 ∧ u32 cmd.p 0 ≤ c.pFs)), chk 2 4 (decide (0 < u32 cmd.p 4)),
      chk 3 8 (decide (0 < u32 cmd.p 8)), chk 4 12 (decide (0 < u32 cmd.p 12))])) s

/-- R56: DRIVE_LIMITS_GET. -/
def execDriveLimitsGet (m : Msg) (s : State) : Res :=
  go (fun c _ => c.command (getSpec 0x0255) m fun cmd c => c.getCfg 0x0254 (zeros 16) cmd) s

/-! ### MODULATION_SET (R176) -/

/-- R176: MODULATION_SET. -/
def execModulationSet (m : Msg) (s : State) : Res :=
  go (fun c _ => c.command (setSpec 0x0230 68) m fun cmd c =>
    let fits := decide (schedCost c.ctlImage ≤ cycleLimit (u16 cmd.p 6) (u16 cmd.p 4))
    c.configure cmd (modulationChecks cmd.p fits)) s

/-! ### LOOP_INPUT_SET (R236, R260) -/

/-- A LOOP_INPUT_SET payload (R236). (DEDUCED log 89) -/
def Core.loopInput (c : Core) (ref : CmdRef) (p : List Byte) : Core :=
  let n := 4 + 12 * u8 p 0
  let owned := c.startOwns ++ c.gridOwns
  if p.length ≠ n then c.replyW ref stBAD_LENGTH [n]
  else match hostInputFail p with
  | some f => c.badField ref f
  | none =>
    if (List.range (u8 p 0)).any (fun j => owned.contains (u8 p (4 + 12 * j))) then c.badState ref
    else (c.hostInputs p).done ref

/-- R236: LOOP_INPUT_SET. (DEDUCED log 89) -/
def execLoopInputSet (m : Msg) (s : State) : Res :=
  go (fun c _ => c.command { op := 0x0320, modes := notOff, len := lenAny, shadow := true } m fun cmd c =>
    c.loopInput cmd.ref cmd.p) s

/-! ### Refusals of entry (R55 and the rules it gathers) -/

/-- A foreground entry of unit A to C writes a signal entry (R59). -/
def Core.fgWrites (c : Core) (e : Nat) : Bool :=
  [0, 1, 2].any (fun u => c.flag (CNV_U_CTRL.EN u) && (List.range (c.fgLen u)).any (fun k =>
    c.flag (CNV_U_E_DEST.DEST_EN u k) && c.getF (CNV_U_E_DEST.DEST u k) == e))

/-- A ramp from `x` at `r` per ms takes 2 s or more (R56). -/
def slowRamp (x r : Nat) : Bool := decide (2000 * r ≤ x)

/-- The BAD_STATE conditions of every entry: floor (R55), limits (R56), commissioning (R381), gate profiles (R112), FORCE_DT
(R139), discharge (R149), soft trips (R157), full scale (R204), schedule (R232), conversion (R308). (DEDUCED log 27, 115) -/
def Core.entryBad (c : Core) : Bool :=
  c.map.count == 0 || c.belowFloor || !c.cfgSet 0x0254 || !c.lgr.commissioned || !c.cfgSet 0x0210
    || decide (c.forceDt < c.forceDtMin) || c.flag SAF_STATUS.BLEED_DRV || !c.flag PRT_CTRL.SOFT_EN
    || c.strings.any (fun s => decide (c.vFs < (c.strEnt s).positions * c.map.vMax.toNat))
    || !c.cfgSet 0x0250 || !c.cfgSet 0x0290

/-- The speed source that FEEDBACK_SET names is enabled (R254). -/
def Core.speedSrcOn (c : Core) : Bool := match c.speedSrc with
  | 1 => c.flag FBK_CTRL.HALL_EN
  | 2 => c.flag FBK_CTRL.AXLE_EN
  | _ => c.flag FBK_CTRL.RES_EN

/-- The conditions of DRIVE: model (R55), SAFETY_LIMITS_SET with TQ_EN (R145), ramp (R56), resolver (R243), speed source
(R254), pair (R454), start (R258), no halted core pair (R446). (DEDUCED log 27, 107, 214) -/
def Core.driveBad (c : Core) : Bool :=
  !c.flag CEN_CTRL.MODEL_LOADED
    || !(c.cfgSet 0x0222 && bitOf (u8 (c.cfgP 0x0222) 18) 1)
    || slowRamp (u32 (c.cfgP 0x0222) 4) (u32 (c.cfgP 0x0254) 4)
    || (c.flag FBK_CTRL.RES_EN && c.polePairs % c.resPp != 0) || !c.speedSrcOn
    || (c.flag PAI_CTRL.PAIR_EN && c.flag PAI_LINK.UP && !c.flag PAI_STATUS.HASH_EQUAL)
    || !c.cfgSet 0x0270 || c.anyHalted
    || (c.mode.code == .hold && c.aboveNsr && !c.flag FBK_RES_STAT.LOCKED)
    || (c.mode.code == .open_ && c.nSel.isSome && c.aboveNsr)

/-- The conditions of GRID (R55, R59). (DEDUCED log 27, 115, 214) -/
def Core.gridBad (c : Core) : Bool :=
  !c.cfgSet 0x02D0 || !c.cfgSet 0x0270 || u8 (c.cfgP 0x0270) 1 == 0xFF || !c.fgWrites 0x26 || !c.fgWrites 0x27
    || slowRamp (ratedCurrent (c.cfgP 0x02D0)) (u32 (c.cfgP 0x0254) 8)

/-- A role-1 cell whose failed bypass is a safe-state cause (R132). -/
def Core.bypassCause (c : Core) : Bool :=
  c.allMembers.any (fun n => c.causeOn .bypassFailed n || c.causeOn .cellOvervoltageUnbypassed n)

/-- The refusal of an entry to DRIVE, CHARGE_DC or GRID, if any. (DEDUCED log 17, 27, 214) -/
def Core.entryRefusal (c : Core) (t : Mode) (opt : Nat) (vDc iDc : Int) (ref : CmdRef) : Option Core :=
  if 0 < c.unackedA then some (c.faultActive ref)
  else if c.flag SEC_STATUS.UNSIGNED then some (c.denied ref 3)
  else if c.entryBad || (t == .drive && c.driveBad) || (t == .grid && c.gridBad)
      || (t == .chargeDc && slowRamp iDc.toNat (u32 (c.cfgP 0x0254) 8)) then some (c.badState ref)
  else if c.bypassCause then some (c.faultActive ref)
  else if t = .chargeDc ∧ c.mode.vLim < vDc then some (c.badField ref (4, 4, 0))
  else if t = .grid ∧ opt = 1 ∧ !bitOf (u8 (c.cfgP 0x02D0) 6) 0 then some (c.badField ref (2, 1, 0))
  else none

/-! ### Acceptance (R51, R53, R54) -/

/-- A MODE_SET out of STANDBY while parked powers the parked domains (R418). -/
def Core.unpark (c : Core) : Core :=
  if c.flag PWR_STATUS.PARKED then
    let off := [4, 5, 6].filter (fun d => !c.getBit PWR_STATUS.ON d)
    c.modPwr (fun p => { p with
      unparking := true, domainAt := off.foldl (fun m d => mapSet (fun _ => 0) m d (c.now + 1)) p.domainAt })
  else c

/-- The parked domains are on again and every identity is known: the transition may go on. -/
def Core.unparkDone (c : Core) : Core :=
  if c.pwr.unparking && [4, 5, 6].all (fun d => c.getBit PWR_STATUS.ON d) && c.identityKnown then
    (c.modPwr (fun p => { p with unparking := false })).setF PWR_STATUS.PARKED 0
  else c

/-- An accepted MODE_SET: ACCEPTED and a pending transition. -/
def Core.acceptMode (c : Core) (ref : CmdRef) (p : Pending) : Core :=
  let c1 := (c.accept ref).modMode (fun m => { m with pend := some p, reqPeriod := some c.modu.period })
  if c.mode.code = .standby then c1.unpark else c1

/-- What acceptance starts: the start procedure, or the ramp out of the present mode (R56). -/
def Core.beginChange (c : Core) (t : Mode) : Core :=
  if t = .drive then
    let c0 := if c.grade = 0 then c.relock.injCheck else c
    let c1 := c0.startBegin
    if c.flag PAI_CTRL.PAIR_EN ∧ !c.flag PAI_LINK.UP then c1.raise .pairDegraded 0 [] true else c1
  else if c.mode.code = .drive then
    (c.putSlot c.tqSlot 1).modMode (fun m => { m with tqOut := c.tqNow })
  else c

/-- The transitions of R53 whose target needs no further check. -/
def plainChange (from_ t : Mode) : Bool := match from_, t with
  | .standby, .hold | .standby, .open_ | .standby, .test | .hold, .open_ | .open_, .hold | .hold, .standby | .open_, .standby
  | .test, .standby | .drive, .hold | .drive, .open_ | .chargeDc, .hold | .chargeDc, .open_ | .grid, .hold | .grid, .open_ => true
  | _, _ => false

/-- An entry to a driven mode that R53 lists. -/
def drivenChange (from_ t : Mode) : Bool :=
  (from_ == .hold || from_ == .open_) && (t == .drive || t == .chargeDc || t == .grid)

/-- The field checks of R50; a mode that the grade does not enable is refused before OPTION. (DEDUCED log 27) -/
def Core.modeFields (c : Core) (p : List Byte) (ref : CmdRef) : Option Core :=
  let t := u8 p 0
  let cdc := t == 5
  let bad (f : Option Fail) : Option Core := f.map (fun f => c.badField ref f)
  match bad (chk 1 0 (decide (1 ≤ t ∧ t ≤ 8))) with
  | some x => some x
  | none =>
    if ((t = 4 ∨ t = 5) ∧ c.grade = 1) ∨ (t = 6 ∧ c.grade = 0) then some (c.denied ref 2)
    else bad (firstFail
      [chk 2 1 (decide (u8 p 1 ≤ if t = 6 then 1 else 0)), chkAt 3 (firstNonZero p 2 2),
       chk 4 4 (if cdc then decide (1 ≤ i32 p 4 ∧ i32 p 4 ≤ 750000) else decide (i32 p 4 = 0)),
       chk 5 8 (if cdc then decide (0 < i32 p 8) else decide (i32 p 8 = 0))])

/-- MODE_SET SAFE (R53, R142). (DEDUCED log 30) -/
def Core.requestSafe (c : Core) (ref : CmdRef) : Core :=
  if c.mode.code = .safe then (if 0 < c.causesA then c.faultActive ref else c.badState ref)
  else
    let c1 := (c.accept ref).modMode (fun m => { m with
      safeRefs := m.safeRefs ++ [ref], reqPeriod := some c.modu.period })
    c1.raiseA .hostSafeRequest 0 []

/-- A transition out of SAFE (R53, R144): the FORCE line is released at the next period start. -/
def Core.leaveSafe (c : Core) (ref : CmdRef) (t : Mode) : Core :=
  if 0 < c.causesA ∨ 0 < c.unackedA then c.faultActive ref
  else if t ≠ (if c.mode.sub = 1 then .hold else .open_) then c.badState ref
  else
    let c1 := c.acceptMode ref ⟨t, 0, 0, 0, some ref, c.now, false, true⟩
    { c1 with saf := { c1.saf with release := true } }

/-- MODE_SET in a mode other than SAFE, to a target other than SAFE. -/
def Core.changeMode (c : Core) (ref : CmdRef) (t : Mode) (opt : Nat) (vDc iDc : Int) : Core :=
  let from_ := c.mode.code
  let driven := from_ == .drive || from_ == .chargeDc || from_ == .grid
  if plainChange from_ t then
    if t = .open_ ∧ (from_ = .hold ∨ from_ = .drive) ∧ c.aboveNsr then c.badState ref
    else (c.acceptMode ref ⟨t, 0, 0, c.mode.iLim, some ref, c.now, driven, false⟩).beginChange t
  else if drivenChange from_ t then
    if t = .chargeDc ∧ !c.nearlyStill then c.badState ref
    else match c.entryRefusal t opt vDc iDc ref with
    | some x => x
    | none => (c.acceptMode ref ⟨t, opt, vDc, iDc, some ref, c.now, false, false⟩).beginChange t
  else c.badState ref

/-- A MODE_SET payload (R41, R50 to R55, R410). Of the requests of one period only an accepted one shuts out the later ones.
(DESIGN CHOICE log 204) -/
def Core.modeSet (c : Core) (ref : CmdRef) (p : List Byte) : Core :=
  match c.modeFields p ref, Mode.ofCode (u8 p 0) with
  | some x, _ => x
  | none, none => c.badField ref (1, 0, 0)
  | none, some t =>
    if c.bist.inPlace.isSome ∨ c.map.applying.isSome then c.replyW ref stBUSY []
    else if t = .safe then c.requestSafe ref
    else if c.mode.pend.isSome ∨ c.mode.reqPeriod = some c.modu.period then
      c.replyW ref stBUSY []
    else if c.mode.code = .safe then c.leaveSafe ref t
    else c.changeMode ref t (u8 p 1) (i32 p 4) (i32 p 8)

/-- R50 to R55: MODE_SET. -/
def execModeSet (m : Msg) (s : State) : Res :=
  go (fun c _ => c.command { op := 0x0301, modes := notOff, len := lenIs 12, expect := 12, shadow := true } m fun cmd c =>
    c.modeSet cmd.ref cmd.p) s

/-- R491: MODE_GET. -/
def execModeGet (m : Msg) (s : State) : Res :=
  go (fun c _ => c.command (getSpec 0x0302) m fun cmd c =>
    let pend := match c.mode.pend with
      | some p => p.target.code
      | none => 0xFF
    c.reply cmd.ref stDONE (le 1 c.mode.code.code ++ le 1 c.mode.sub ++ le 1 pend ++ zeros 1 ++ le 8 c.mode.changed)) s

/-! ### Ramps (R53, R56) -/

/-- A value moved toward 0 by at most `d`. -/
def towardZero (x d : Int) : Int := if 0 < x then max 0 (x - d) else min 0 (x + d)

/-- A step of a ramp given per ms. (DEDUCED log 28) -/
def Core.rampStep (c : Core) (r : Nat) : Int := rne (r * c.tc : Nat) 1000000

/-- The ramps of a mode change at a data-ready, and the rise of the output voltage in CHARGE_DC.
(DEDUCED log 28; DESIGN CHOICE log 31) -/
def Core.modeRamp (c : Core) : Core :=
  let leaving : Bool := match c.mode.pend with
    | some p => p.target == .hold || p.target == .open_
    | none => false
  match c.mode.code with
  | .drive =>
    if leaving then
      let x := towardZero c.mode.tqOut (c.rampStep c.tqRampM)
      (c.modMode (fun m => { m with tqOut := x })).putHin c.tqHin (toSig c.tFs x)
    else c
  | .chargeDc =>
    if leaving then c.modMode (fun m => { m with iLim := towardZero m.iLim (c.rampStep c.iRamp) })
    else c.modMode (fun m => { m with vDc := min m.vTarget (m.vDc + c.rampStep c.vRampM) })
  | .grid => if leaving then c.modMode (fun m => { m with iLim := towardZero m.iLim (c.rampStep c.iRamp) }) else c
  | _ => c

/-- The magnitude of the ramp in progress and the rating it is judged by. -/
def Core.rampNow (c : Core) (p : Pending) : Nat × Nat :=
  if c.mode.code = .drive then (c.mode.tqOut.natAbs, u32 (c.forceP 0x0222) 4) else (c.mode.iLim.natAbs, p.iDc.natAbs)

/-- The magnitude is below 1 % of rating. (DEDUCED log 28) -/
def Core.rampSmall (c : Core) (p : Pending) : Bool :=
  let r := c.rampNow p
  r.1 == 0 || decide (100 * r.1 < r.2)

/-- R53: the ramp has come below 1 % of rating. The change takes effect at the period start after the magnitude is 0.
(DEDUCED log 28) -/
def execRampComplete (s : State) : Res :=
  go (fun c _ => match c.mode.pend with
    | some p => if p.ramp ∧ c.rampSmall p then c.modMode (fun m => { m with pend := some { p with ramp := false } }) else c
    | none => c) s

/-- R53: 2 s after acceptance the magnitude is not below 1 % of rating. -/
def execRampTimeout (s : State) : Res :=
  go (fun c _ => match c.mode.pend with
    | some p =>
      if p.ramp ∧ p.accepted + 2000000000 ≤ c.now ∧ !c.rampSmall p ∧ !c.saf.req.contains .rampTimeout then
        c.raiseA .rampTimeout 0 []
      else c
    | none => c) s

/-! ### A change takes effect (R51, R300) -/

/-- At a commit deadline the update set of the next period is that of the pending target: no ramp goes on, no domain is
still coming up (R411), and a change out of low-power operation was accepted at least 20 µs before that period (R300).
(DEDUCED log 28, 29) -/
def Core.commitChange (c0 : Core) : Core :=
  let c := c0.unparkDone
  match c.mode.pend with
  | none => c
  | some p =>
    let lp := [0, 1, 2].any (fun u => c.flag (CNV_U_CTRL.LP_EN u)) && (c.mode.code == .standby || c.mode.code == .hold)
      && p.leavesLp
    let ok := !p.ramp && (!c.running || decide ((c.rampNow p).1 = 0)) && !c.pwr.unparking
      && (!lp || decide (p.accepted + 20000 ≤ c.modu.start + c.tc))
    if ok && !p.taken then c.modMode (fun m => { m with pend := some { p with taken := true } }) else c

/-- The pattern of a mode that the foreground does not drive (R171). -/
def staticOf (m : Mode) (sub : Nat) : Nat := match m with
  | .hold => rqLow
  | .open_ => rqOffWeak
  | .safe => if sub = 1 then rqLow else rqOffWeak
  | _ => rqOffStrong

/-- The static request of the next period (R171, R256, R265, R266); none where its update set is dispatched. -/
def Core.nextStatic (c : Core) : Option Nat :=
  let own := staticOf c.mode.code c.mode.sub
  let leaving : Option Mode := match c.mode.pend with
    | some p => if p.taken && (p.target == .hold || p.target == .open_ || p.target == .standby || p.target == .test) then
        some p.target else none
    | none => none
  let begun : Bool := decide (0 < c.start.phase) || (match c.mode.pend with
    | some p => p.taken
    | none => false)
  match leaving, c.start.next with
  | some t, _ => some (staticOf t 0)
  | none, some (0, src) => some (if src = 1 then rqLow else own)
  | none, some (1, _) => some (if begun then rqOffWeak else own)
  | none, some _ => if c.dispatched then none else some own
  | none, none => if c.start.phase = 1 then some rqOffWeak else if c.dispatched then none else some own

/-- The values of CHARGE_DC at its entry, and of the modes it is left for. (DESIGN CHOICE log 31) -/
def Core.enterValues (c : Core) (p : Pending) : Core :=
  if p.target = .chargeDc then c.modMode (fun m => { m with vDc := 0, vTarget := p.vDc, iLim := p.iDc })
  else c.modMode (fun m => { m with vDc := 0, vTarget := 0, iLim := 0, tqOut := 0 })

/-- The FORCE lines are released (R144). -/
def Core.releaseForce (c : Core) : Core :=
  if c.saf.release then
    let c1 := (c.hbs.map (·.1)).foldl (fun a h => a.modHb h (fun b => { b with forceAt := none })) c
    let c2 := ({ c1 with saf := { c1.saf with release := false } }).setF SAF_STATUS.FORCE 0
    (List.range 128).foldl (fun a n => a.resumeHold n) c2
  else c

/-- A committed change of mode takes effect at a period start (R51). DRIVE and GRID follow their procedures. -/
def Core.applyChange (c : Core) : Core :=
  match c.mode.pend with
  | none => c
  | some p =>
    if !p.taken || p.target == .drive || p.target == .grid then c
    else
      let c1 := (c.releaseForce.setMode p.target).enterValues p
      let c2 := if c.start.phase = 0 then c1 else c1.enterPhase 0 0
      let c3 := if c.grid.phase = 0 then c2 else c2.enterGrid 0
      (c3.limp c.start.src 0).endPending stDONE []

end Sys2Proof.Machine
end

