-- ==== Sys2Proof/Machine/Dock.lean ====
section
/-! DEFINITION. Docking moves (R272 to R287): the position frame, the profile, the states, homing, the marker, the position
compares and their outputs, and the DOCK commands. Positions in nm, speeds in nm/s, accelerations in nm/s². -/
namespace Sys2Proof.Machine

/-! ### Settings in force (R285, R287) -/

def Core.dockImage (c : Core) : List Byte := c.regBytes (DOK_CFG_IMAGE.a 0) 36
def Core.cpm256 (c : Core) : Nat := max 1 (u32 c.dockImage 0)
def mmS (x : Nat) : Int := (x : Int) * 1000000
def Core.vStart (c : Core) : Int := mmS (u16 c.dockImage 4)
def Core.vStop (c : Core) : Int := mmS (u16 c.dockImage 6)
def Core.vSplit (c : Core) : Int := mmS (u16 c.dockImage 8)
def Core.vLimit (c : Core) : Int := mmS (u16 c.dockImage 10)
def Core.dockA1 (c : Core) : Int := mmS (u16 c.dockImage 12)
def Core.dockA2 (c : Core) : Int := mmS (u16 c.dockImage 14)
def Core.creepLen (c : Core) : Int := mmS (u16 c.dockImage 16)
def Core.vHome (c : Core) : Int := mmS (u16 c.dockImage 18)
def Core.homeMax (c : Core) : Int := mmS (u32 c.dockImage 20)
def Core.homePos (c : Core) : Int := i32 c.dockImage 24 * 1000000
def Core.dockWindow (c : Core) : Int := mmS (u16 c.dockImage 28)
def Core.pulseMs (c : Core) : Nat := u16 c.dockImage 32

/-! ### Position (R272, R273) -/

/-- The count term of p for an extended count. -/
def Core.countTerm (c : Core) (n : Int) : Int := rne (n * 256 * 10 ^ 9) c.cpm256

/-- The motor speed of an axis speed, 0.1 rpm (R273). -/
def Core.speed01 (c : Core) (v : Int) : Int :=
  let epr := c.getF FBK_AXLE_EPR.EPR256
  if epr = 0 then 0 else rne (v * 600 * c.cpm256) (10 ^ 9 * epr)

/-- A register of 0.1 mm, saturating (R287). -/
def Core.putPos (c : Core) (f : Field) (x : Int) : Core := c.setI f (rne x 100000)

/-- The registers of the move engine follow it. -/
def Core.dockRegs (c : Core) : Core :=
  let d := c.dok
  let c1 := ((c.putPos DOK_POS.VALUE d.p).putPos DOK_TARGET.VALUE d.t).setI DOK_SPEED.V (rne (d.dir * d.v) 1000)
  (c1.setFlag DOK_STATUS.DIR (decide (d.dir < 0))).setFlag DOK_STATUS.SLEWING (d.slewLeft != 0)

/-- SPEED_REF_DOK at data-ready (R273). -/
def Core.dockSpeedRef (c : Core) : Core :=
  if c.flag DOK_CTRL.EN then c.sigWrite 0x25 (toSig c.nFs (c.speed01 (c.dok.dir * c.dok.v))) else c.sigMiss 0x25

def Core.dockSt (c : Core) : Nat := c.getF DOK_STATUS.STATE

/-- States in which the axis is taken as moving (R284). -/
def Core.dockMoving (c : Core) : Bool :=
  c.dockSt == 1 || c.dockSt == 2 || c.dockSt == 3 || c.dockSt == 6 || c.dockSt == 7

/-! ### Slew and marker (R280 to R282) -/

/-- The part of a slew that this period's travel `d` of the count term takes. -/
def Core.dockSlew (c : Core) (d : Int) : Core :=
  let left := c.dok.slewLeft
  if left = 0 then c
  else
    let step := rne (c.dok.slewDiff * d.natAbs) 100000000
    let s := if 0 < left then clampI 0 left step else clampI left 0 step
    c.modDok (fun k => { k with offset := k.offset - s, slewLeft := left - s })

/-- A move ends on the stop ramp; what it leads to is in `why`. -/
def Core.dockStopping (c : Core) (why : Nat) : Core := (c.modDok (fun d => { d with why := why })).dockState 3

/-- The accepted edge of homing (R280). -/
def Core.homed (c : Core) (cnt : Int) : Core :=
  let c1 := c.modDok (fun d => { d with offset := c.homePos - c.countTerm cnt, slewLeft := 0, edge := true })
  (((c1.setF DOK_STATUS.HOMED 1).event DOK_EVENT.HOMED).raise .homed 0 [] false).dockStopping 2

/-- A homing move is outstanding. -/
def Core.homingNow (c : Core) : Bool := (c.dok.move.map (·.op)) == some 0x0343

/-- The first accepted edge of another move (R282). (DEDUCED log 112) -/
def Core.markerCheck (c : Core) (cnt : Int) : Core :=
  let c1 := c.modDok (fun d => { d with offset := d.offset - d.slewLeft, slewLeft := 0, edge := true })
  let diff := c1.countTerm cnt + c1.dok.offset - c.homePos
  let c2 := c1.putPos DOK_MARKER_DIFF.VALUE diff
  if diff.natAbs ≤ c.dockWindow then c2.modDok (fun d => { d with slewDiff := diff, slewLeft := diff })
  else (c2.event DOK_EVENT.MARKER_MISMATCH).raise .markerMismatch 0
    [dI cnt, dI (rne ((c.homePos - c1.dok.offset) * c.cpm256) (256 * 10 ^ 9))] false

/-- An edge of MARKER into its active level (R281, R282): of homing while it runs (R280), else of the outstanding move until it
ends. (DEDUCED log 108) -/
def Core.dockMarker (c : Core) (edges : List DokEdge) : Core :=
  match edges.find? (fun e => !e.endstop && e.active) with
  | none => c
  | some e =>
    if c.dok.edge then c
    else if c.dockSt = 6 then c.homed e.cnt
    else if c.dok.move.isSome ∧ !c.homingNow then
      if c.flag DOK_CTRL.MARKER_CHECK ∧ c.flag DOK_STATUS.HOMED then c.markerCheck e.cnt
      else c.modDok (fun d => { d with edge := true })
    else c

/-- An edge of ENDSTOP into its active level (R277). (DEDUCED log 108) -/
def Core.dockEndstop (c : Core) (edges : List DokEdge) : Core :=
  if edges.any (fun e => e.endstop && e.active) ∧ (c.dockSt = 1 ∨ c.dockSt = 2 ∨ c.dockSt = 6 ∨ c.dockSt = 7) then
    let c1 := c.modDok (fun d => { d with t := c.dockTarget })
    ((c1.event DOK_EVENT.ENDSTOP_HIT).raise .endstopHit 0 [] false).dockStopping 1
  else c

/-! ### The profile (R275) -/

/-- Speed gained or lost in one period. -/
def Core.dockStep (c : Core) (a : Int) : Int := rne (a * c.tc) (10 ^ 9)

/-- `x` and brake(v), both times the same positive factor, so that they compare exactly. -/
def Core.brakeSides (c : Core) (x v : Int) : Int × Int :=
  let a1 := c.dockA1
  let a2 := c.dockA2
  if c.vSplit < v then
    (x * 2 * a1 * a2, (v * v - c.vSplit * c.vSplit) * a1 + (c.vSplit * c.vSplit - c.vStop * c.vStop) * a2)
  else if c.vStop < v then (x * 2 * a1, v * v - c.vStop * c.vStop)
  else (x, 0)

/-- `x ≤ brake(v)`. -/
def Core.withinBrake (c : Core) (x v : Int) : Bool := decide ((c.brakeSides x v).1 ≤ (c.brakeSides x v).2)

/-- `x < brake(v)`. -/
def Core.insideBrake (c : Core) (x v : Int) : Bool := decide ((c.brakeSides x v).1 < (c.brakeSides x v).2)

/-- The rate of the stop ramp and of the deceleration at a speed. -/
def Core.decelAt (c : Core) (v : Int) : Int := if c.vSplit < v then c.dockA2 else c.dockA1

/-- One run of the profile in MOVING or CREEP; phases 0 accel, 1 cruise, 2 decel, 3 creep. -/
def Core.profile (c : Core) : Core :=
  let d := c.dok
  let dist := d.dir * (d.t - d.p)
  let rem := dist - c.creepLen
  let ph0 := if d.phase < 2 ∧ c.withinBrake (rem - c.dockStep d.v) d.v then 2 else d.phase
  let v1 := if ph0 = 0 then min (d.v + c.dockStep (if d.v < c.vSplit then c.dockA1 else c.dockA2)) d.vMax else d.v
  let ph1 := if ph0 = 0 ∧ v1 = d.vMax then 1 else ph0
  let v2 := if ph1 = 2 then max (v1 - c.dockStep (c.decelAt v1)) c.vStop else v1
  let ph2 := if ph1 = 2 ∧ rem ≤ 0 then 3 else ph1
  let v3 := if ph2 = 3 then c.vStop else v2
  let c1 := (c.modDok (fun k => { k with v := v3, phase := ph2 })).dockState (if ph2 = 3 then 2 else 1)
  if ph2 = 3 ∧ dist ≤ 0 then (c1.modDok (fun k => { k with v := 0, arriving := true })).dockState 5 else c1

/-- One run of homing (R280). (DEDUCED log 109) -/
def Core.homing (c : Core) : Core :=
  let d := c.dok
  if c.homeMax ≤ d.dir * (d.ct - d.homeFrom) then
    ((c.event DOK_EVENT.HOME_NOT_FOUND).raise .homeNotFound 0 [] false).dockStopping 3
  else c.modDok (fun k => { k with v := min (d.v + c.dockStep c.dockA1) c.vHome })

/-- The stop ramp (R277). -/
def Core.stopRamp (c : Core) : Core := c.modDok (fun d => { d with v := max 0 (d.v - c.dockStep (c.decelAt d.v)) })

/-- At rest (R277). -/
def Core.atRest (c : Core) : Bool :=
  c.dok.v == 0 && c.flag FBK_SPEED_STAT.AXLE_VALID
    && decide ((c.getI FBK_SPEED_AXLE.SPEED).natAbs ≤ (c.speed01 c.vStop).natAbs)

/-- Travel to the target is forward where nothing is left. -/
def dirTo (t p : Int) : Int := if t < p then -1 else 1

/-- A move toward `t` starts at V_START (R275, R277). -/
def Core.startMove (c : Core) (t : Int) : Core :=
  (c.modDok (fun d => { d with
    t := t, dir := dirTo t d.p, v := c.vStart, phase := 0, arriving := false })).dockState 1

/-- STOPPING has come to rest. (DEDUCED log 109) -/
def Core.stopped (c : Core) : Core :=
  match c.dok.why with
  | 0 => ((c.modDok (fun d => { d with stop := none })).dockState 4).complete c.dok.stop stDONE []
  | 1 => if (c.dok.move.map (·.op)) = some 0x0343 then (c.dockState 0).dockEnd stPARTIAL [AlarmName.endstopHit.code]
    else (c.dockState 0).dockEnd stPARTIAL [c.dockRem]
  | 2 => (c.dockState 0).dockEnd stDONE []
  | _ => (c.dockState 0).dockEnd stTIMEOUT [dI (satS 32 (rne (c.dok.dir * (c.dok.ct - c.dok.homeFrom)) 1000))]

/-- REVERSING: the overshoot is recorded; at rest the new move starts (R278). -/
def Core.reversing (c : Core) : Core :=
  let c1 := c.modDok (fun d => { d with over_ := max d.over_ (d.dir * (d.p - d.tNew)) })
  if c.atRest then
    let o := c1.dok.over_
    let c2 := c1.putPos DOK_OVERSHOOT.VALUE o
    let c3 := if 0 < o then (c2.event DOK_EVENT.OVERSHOOT).raise .dockOvershoot 0 [dI (satS 32 (rne o 100000))] false else c2
    c3.startMove c3.dok.tNew
  else c1.stopRamp

/-- R276: the arrival error. -/
def Core.arrival (c : Core) : Core :=
  if c.dok.arriving ∧ c.flag FBK_SPEED_STAT.AXLE_STOPPED then
    let e := c.dok.p - c.dok.t
    let c1 := (c.modDok (fun d => { d with arriving := false })).putPos DOK_ARRIVE_ERR.VALUE e
    ((c1.event DOK_EVENT.ARRIVED).raise .dockArrived 0 [dI (satS 32 (rne e 100000))] false).dockEnd stDONE
      [dI (satS 32 (rne e 1000))]
  else c

/-- The state's own run. -/
def Core.dockRunState (c : Core) : Core :=
  match c.dockSt with
  | 1 => c.profile
  | 2 => c.profile
  | 3 => if c.atRest then c.stopped else c.stopRamp
  | 5 => c.arrival
  | 6 => c.homing
  | 7 => c.reversing
  | _ => c

/-! ### Position compares (R283, R284) -/

/-- c_k in nm. -/
def Core.cmpPos (c : Core) (k : Nat) : Int := c.getI (DOK_CMP_POS.POS k) * 100000

def Core.setArmed (c : Core) (k : Nat) (b : Bool) : Core :=
  (c.putBit DOK_STATUS.ARMED k b).setFlag (DOK_CMP_CFG.ARMED k) b

/-- One compare at a sample instant. (DEDUCED log 112) -/
def Core.compare (c : Core) (p0 p1 : Int) (k : Nat) : Core :=
  let x := c.cmpPos k
  let f := c.getF (DOK_CMP_CFG.DIR k)
  let fwd := decide (p0 < x ∧ x ≤ p1) && (f == 0 || f == 1)
  let back := decide (x < p0 ∧ p1 ≤ x) && (f == 0 || f == 2)
  if c.getBit DOK_STATUS.ARMED k && (c.dok.fire.getD k false || fwd || back) then
    let a := c.getF (DOK_CMP_CFG.ACTION k)
    let c1 := (c.setArmed k false).modDok (fun d => { d with
      fire := setAt k false d.fire
      outDue := if a = 0 then d.outDue else d.outDue ++ [(c.getF (DOK_CMP_CFG.OUT k), a)] })
    (c1.event DOK_EVENT.COMPARE_FIRED).raise .compareFired k [k, dI (satS 32 (rne p1 100000))] false
  else c

/-- The outputs act 1.2 µs after the sample instant; of several actions on one output the last stands. (DEDUCED log 108) -/
def Core.dockOutputs (c : Core) : Core :=
  let c1 := c.dok.outDue.foldl (fun a e =>
    (a.putBit DOK_STATUS.OUT e.1 (e.2 != 2)).modDok (fun d => { d with
      pulseEnd := setAt e.1 (if e.2 = 3 then some (c.cnv.sampleAt + 1200 + c.pulseMs * 1000000) else none) d.pulseEnd })) c
  c1.modDok (fun d => { d with outDue := [] })

/-- R283: PULSE_MS passes on an output. -/
def execDockPulseEnd (n : Fin 4) (s : State) : Res :=
  go (fun c _ => match c.dok.pulseEnd.getD n.val none with
    | some t =>
      if t ≤ c.now then
        (c.putBit DOK_STATUS.OUT n.val false).modDok (fun d => { d with pulseEnd := setAt n.val none d.pulseEnd })
      else c
    | none => c) s

/-- The edges of MARKER and ENDSTOP up to the sample instant leave the queue (R248). -/
def Core.dockEdges (c : Core) : List DokEdge × Core :=
  let due (e : DokEdge) : Bool := decide (e.t ≤ c.cnv.sampleAt)
  (c.dok.edges.filter due, c.modDok (fun d => { d with edges := d.edges.filter (fun e => !due e) }))

/-- The engine's run at a sample instant (R272 to R284), after the axle source. (DEDUCED log 108) -/
def Core.dockRun (c0 : Core) : Core :=
  let x := c0.dockEdges
  let c := x.2
  if !c.flag DOK_CTRL.EN then c
  else
    let ct := c.countTerm c.dok.ext
    let p0 := c.dok.p
    let c1 := (c.dockSlew (ct - c.dok.ct)).modDok (fun d => { d with ct := ct })
    let c2 := c1.dockMarker x.1
    let c3 := ((c2.modDok (fun d => { d with p := ct + d.offset })).dockEndstop x.1).dockRunState
    ((List.range 8).foldl (fun a k => a.compare p0 a.dok.p k) c3).dockRegs

/-! ### Commands (R285, R286) -/

/-- The settings of a DOCK_SET payload. -/
def Core.loadDock (c : Core) (p : List Byte) : Core :=
  (((List.range 9).foldl (fun a w => a.setReg (DOK_CFG_IMAGE.a w) (BitVec.ofNat 32 (u32 p (4 * w)))) c).setF DOK_CTRL.EN 1).setFlag
    DOK_CTRL.MARKER_CHECK (bitOf (u8 p 30) 0)

/-- The checks of R285. -/
def dockChecks (p : List Byte) : Option Fail :=
  let vs := u16 p 4
  let vo := u16 p 6
  let sp := u16 p 8
  let vl := u16 p 10
  firstFail [chkAt 1 (lowest [if 4 ≤ u8 p 30 then some 30 else none, firstNonZero p 31 1, firstNonZero p 34 2]),
    chk 2 0 (decide (0 < u32 p 0)), chk 3 10 (decide (0 < vo ∧ vo ≤ vs ∧ vs ≤ sp ∧ sp < vl ∧ vl ≤ 5000)),
    chkAt 4 (lowest [if u16 p 12 = 0 then some 12 else none, if u16 p 14 = 0 then some 14 else none]),
    chkAt 5 (lowest [if u16 p 18 = 0 ∨ sp < u16 p 18 then some 18 else none, if u32 p 20 = 0 then some 20 else none]),
    chk 6 28 (decide (u16 p 28 ≤ 90)), chk 7 32 (decide (1 ≤ u16 p 32 ∧ u16 p 32 ≤ 1000))]

/-- R285: DOCK_SET. -/
def execDockSet (m : Msg) (s : State) : Res :=
  go (fun c _ => c.command (setSpec 0x0280 36) m fun cmd c => c.configure cmd (dockChecks cmd.p)) s

/-- R285: DOCK_GET. -/
def execDockGet (m : Msg) (s : State) : Res :=
  go (fun c _ => c.command (getSpec 0x0281) m fun cmd c => c.getCfg 0x0280 (zeros 36) cmd) s

/-- The specification of an operation command (R286, R453). (DEDUCED log 111) -/
def dockSpec (op n : Nat) (modes : Mode → Bool) : CmdSpec :=
  { op := op, modes := modes, len := lenIs n, expect := n, shadow := true }

/-- What R274 asks of a move besides DRIVE. -/
def Core.dockReady (c : Core) : Bool :=
  c.cfgSet 0x0280 && c.flag FBK_CTRL.AXLE_EN && decide (0 < c.getF FBK_AXLE_EPR.EPR256)

/-- ENDSTOP is at its active level and a move in `dir` is the direction its edge arrived in (R279). -/
def Core.endBlocks (c : Core) (dir : Int) : Bool :=
  (c.fbk.activeAt.getD 1 none).isSome && c.dok.endDir == dir

/-- A new move takes the place of the one before, which completes with PARTIAL. -/
def Core.replaceMove (c : Core) (ref : CmdRef) : Core :=
  let c1 := if c.dok.move.isSome then c.dockEnd stPARTIAL [c.dockRem] else c
  (c1.modDok (fun d => { d with move := some ref, edge := false })).reply ref stACCEPTED []

/-- A move of less than 1 µm is done (R275); its error is that of R276. -/
def Core.doneAtOnce (c : Core) (t : Int) : Core :=
  if (t - c.dok.p).natAbs < 1000 then c.dockEnd stDONE [dI (satS 32 (rne (c.dok.p - t) 1000))] else c

/-- A DOCK_MOVE to `t` with speed limit `vm` (R275, R277). An engine that moves goes on to a target that the move has reached
already. (DESIGN CHOICE log 205) -/
def Core.dockMove (c : Core) (ref : CmdRef) (t vm : Int) : Core :=
  let st := c.dockSt
  if st = 1 ∨ st = 2 then
    let dir := c.dok.dir
    let near := c.insideBrake (dir * (t - c.dok.p) - c.creepLen) c.dok.v
    let c1 := ((c.replaceMove ref).doneAtOnce t).modDok (fun d => { d with vMax := vm })
    if near then (c1.modDok (fun d => { d with tNew := t, over_ := dir * (d.p - t) })).dockState 7
    else (c1.modDok (fun d => { d with t := t })).dockState 1
  else
    let c1 := (c.replaceMove ref).modDok (fun d => { d with vMax := vm })
    if (t - c.dok.p).natAbs < 1000 then
      ((c1.modDok (fun d => { d with t := t, v := 0, arriving := false })).dockState 5).doneAtOnce t
    else c1.startMove t

/-- R286: DOCK_MOVE. -/
def execDockMove (m : Msg) (s : State) : Res :=
  go (fun c _ => c.command (dockSpec 0x0340 8 (· == .drive)) m fun cmd c =>
    let p := cmd.p
    let t := i32 p 0 * 1000000
    let vm := if u16 p 4 = 0 then c.vLimit else mmS (u16 p 4)
    let st := c.dockSt
    match firstFail [chk 2 4 (decide (c.vStart ≤ vm ∧ vm ≤ c.vLimit)), chkAt 3 (firstNonZero p 6 2)] with
    | some f => c.badField cmd.ref f
    | none =>
      if c.homingNow then c.replyW cmd.ref stBUSY []
      else if !c.dockReady || c.endBlocks (dirTo t c.dok.p) || !(st == 0 || st == 1 || st == 2 || st == 4 || st == 5) then
        c.badState cmd.ref
      else (c.dockMove cmd.ref t vm).dockRegs) s

/-- R286: DOCK_STOP. (DEDUCED log 110) -/
def execDockStop (m : Msg) (s : State) : Res :=
  go (fun c _ => c.command (dockSpec 0x0341 0 notOff) m fun cmd c =>
    let st := c.dockSt
    if st = 1 ∨ st = 2 ∨ st = 7 then
      let c1 := if st = 7 then c.modDok (fun d => { d with t := d.tNew }) else c
      (((c1.modDok (fun d => { d with stop := some cmd.ref })).dockStopping 0).reply cmd.ref stACCEPTED []).dockRegs
    else c.badState cmd.ref) s

/-- R286: DOCK_RESUME. (DEDUCED log 110) -/
def execDockResume (m : Msg) (s : State) : Res :=
  go (fun c _ => c.command (dockSpec 0x0342 0 (· == .drive)) m fun cmd c =>
    if c.dockSt = 4 ∧ c.dockReady then
      let c1 := (c.modDok (fun d => { d with resumes := d.resumes ++ [cmd.ref] })).reply cmd.ref stACCEPTED []
      (c1.startMove c.dok.t).dockRegs
    else c.badState cmd.ref) s

/-- R280, R286: DOCK_HOME. -/
def execDockHome (m : Msg) (s : State) : Res :=
  go (fun c _ => c.command (dockSpec 0x0343 0 (· == .drive)) m fun cmd c =>
    let dir : Int := if bitOf (u8 c.dockImage 30) 1 then -1 else 1
    if c.homingNow then c.replyW cmd.ref stBUSY []
    else if !c.dockReady || c.endBlocks dir || !(c.dockSt == 0 || c.dockSt == 5) then c.badState cmd.ref
    else
      let c1 := (c.replaceMove cmd.ref).modDok (fun d => { d with
        dir := dir, v := min c.vStart c.vHome, homeFrom := d.ct, arriving := false, t := d.p + dir * c.homeMax })
      (c1.dockState 6).dockRegs) s

/-- A compare is armed or disarmed (R284). -/
def Core.armCompare (c : Core) (k : Nat) : Core :=
  let f := c.getF (DOK_CMP_CFG.DIR k)
  let x := c.cmpPos k
  let p := c.dok.p
  let dir := c.dok.dir
  let passed := c.dockMoving && decide (dir * (x - p) < 0) && (f == 0 || (f == 1) == decide (0 < dir))
  let now := decide (x = p) || (passed && c.flag (DOK_CMP_CFG.FIRE_IF_PASSED k))
  let c1 := (c.setArmed k (f != 3)).modDok (fun d => { d with fire := setAt k (now && f != 3) d.fire })
  if passed && f != 3 && !now then (c1.event DOK_EVENT.COMPARE_PASSED).raise .comparePassed k [k] false else c1

/-- R284, R286: DOCK_COMPARE. -/
def execDockCompare (m : Msg) (s : State) : Res :=
  go (fun c _ => c.command (dockSpec 0x0344 8 notOff) m fun cmd c =>
    let p := cmd.p
    let k := u8 p 0
    let g := u8 p 1
    match firstFail [chk 1 0 (decide (k < 8)), chk 2 1 (decide (g < 128)), chkAt 3 (firstNonZero p 2 2)] with
    | some f => c.badField cmd.ref f
    | none =>
      if !c.flag DOK_CTRL.EN then c.badState cmd.ref
      else
        let c1 := (c.setReg (DOK_CMP_CFG.a k) (BitVec.ofNat 32 g)).setI (DOK_CMP_POS.POS k) (i32 p 4 * 10)
        (c1.armCompare k).done cmd.ref) s

/-- R286: DOCK_SET_POS. -/
def execDockSetPos (m : Msg) (s : State) : Res :=
  go (fun c _ => c.command (dockSpec 0x0345 4 notOff) m fun cmd c =>
    let st := c.dockSt
    let x := i32 cmd.p 0 * 1000000
    if st = 0 ∨ st = 4 ∨ st = 5 then
      let c1 := c.modDok (fun d => { d with offset := x - d.ct, p := x, slewLeft := 0 })
      ((c1.setF DOK_STATUS.HOMED 0).dockRegs).done cmd.ref
    else c.badState cmd.ref) s

/-- R286: DOCK_STATUS. (DEDUCED log 111) -/
def execDockStatus (m : Msg) (s : State) : Res :=
  go (fun c _ => c.command (dockSpec 0x0422 0 notOff) m fun cmd c =>
    c.reply cmd.ref stDONE ([DOK_STATUS.a, DOK_POS.a, DOK_TARGET.a, DOK_SPEED.a, DOK_OVERSHOOT.a, DOK_ARRIVE_ERR.a].flatMap
      (fun a => le 4 (c.reg a).toNat))) s

end Sys2Proof.Machine
end

