-- ==== Sys2Proof/Machine/Bist.lean ====
section
/-! DEFINITION. Self-test and repair (R398 to R413): the stages, verdicts, soft and fuse repairs, deferral and
interruption, and the BIST commands. -/
namespace Sys2Proof.Machine

def Core.modBist (c : Core) (f : Bist → Bist) : Core := { c with bist := f c.bist }

/-! ### Memories (R398, R399) -/

/-- The memories of a stage. -/
def stageMems (k : Nat) : List Nat := match k with
  | 1 => [0, 35, 36, 37, 38]
  | 2 => (List.range 17).map (· + 1)
  | 3 => [18, 19, 20, 21]
  | 4 => (List.range 13).map (· + 22)
  | _ => []

/-- The memories that BIST_RUN KIND 1 tests. -/
def inPlaceMems : List Nat := [30, 31, 32, 33, 34]

/-- The memories under test. -/
def Core.clamped (c : Core) : List Nat :=
  if !c.flag BST_STATUS.RUNNING then []
  else if c.bist.inPlace.isSome then inPlaceMems else stageMems (c.getF BST_STATUS.STAGE)

/-- Test time of a stage, ns, with clamping and release. -/
def stageTime (k : Nat) : Nat := [0, 3276800, 3604480, 3604480, 450560].getD k 0 + 10000

/-- Test time of one memory alone, ns, with clamping and release: by its words; 0 words where the spec gives only a most. -/
def retestTime (m : Nat) : Nat :=
  (if 1 ≤ m ∧ m ≤ 16 ∨ 18 ≤ m ∧ m ≤ 21 then 3604480 else if m = 17 then 450560 else if m = 34 then 168960 else 0) + 10000

/-- Spare rows and columns. -/
def spares (m : Nat) : Nat × Nat :=
  if 1 ≤ m ∧ m ≤ 16 ∨ 18 ≤ m ∧ m ≤ 21 then (4, 2)
  else if m = 17 ∨ 22 ≤ m ∧ m ≤ 31 ∨ m = 34 then (2, 0) else (0, 0)

/-- Rows of a memory. The caches and frame buffers have at most 16 384 words (R398). -/
def bistRows (m : Nat) : Nat := if 1 ≤ m ∧ m ≤ 16 ∨ 18 ≤ m ∧ m ≤ 21 then 1024 else if m = 34 then 48 else 128

/-- An MRAM macro. -/
def isMacro (m : Nat) : Bool := decide (35 ≤ m)

/-! ### Repair entries (R408) -/

/-- CHECK of an entry. -/
def fuseCheck (w : Nat) : Nat := (List.range 7).foldl (fun a i => a ^^^ (w / 16 ^ (i + 1) % 16)) 0

/-- An entry of the repair area. -/
def fuseEntry (mem kind spare addr : Nat) : Nat :=
  let w := 2 ^ 31 + mem * 2 ^ 25 + kind * 2 ^ 24 + spare * 2 ^ 22 + addr * 16
  w + fuseCheck w

def fuseMem (w : Nat) : Nat := w / 2 ^ 25 % 64
def fuseKind (w : Nat) : Nat := w / 2 ^ 24 % 2
def fuseSpare (w : Nat) : Nat := w / 2 ^ 22 % 4

/-- A programmed entry whose CHECK and ranges hold. -/
def fuseOk (w : Nat) : Bool :=
  let m := fuseMem w
  let a := w / 16 % 2 ^ 18
  let s := spares m
  w / 2 ^ 31 % 2 == 1 && w % 16 == fuseCheck w && decide (m < 39)
    && (if fuseKind w = 0 then decide (fuseSpare w < s.1 ∧ a < bistRows m) else decide (fuseSpare w < s.2 ∧ a < 39))

/-- Two entries name the same spare. -/
def sameSpare (x y : Nat) : Bool := fuseMem x == fuseMem y && fuseKind x == fuseKind y && fuseSpare x == fuseSpare y

/-- A word that reads as an unprogrammed entry: VALID is 0 and its CHECK holds. -/
def fuseBlank (w : Nat) : Bool := w / 2 ^ 31 % 2 == 0 && w % 16 == fuseCheck w

/-- The words of the OTP repair area that are programmed. -/
def Core.fuseWords (c : Core) : List Nat := (c.sec.otp.fuses.map BitVec.toNat).filter (!fuseBlank ·)

/-- The fuse repairs load into the repair registers (R407, R408). -/
def Core.loadFuses (c : Core) : Core :=
  let r := c.fuseWords.foldl (fun (a : List Nat × Bool × Bool) w =>
    if !fuseOk w then (a.1, true, a.2.2)
    else if a.1.any (sameSpare w) then (a.1, a.2.1, true) else (a.1 ++ [w], a.2)) ([], false, false)
  let c1 := (c.modBist (fun b => { b with fused := r.1 })).setF BST_STATUS.FUSE_FREE (128 - min 128 c.fuseWords.length)
  let c2 := if r.2.1 then c1.event BST_EVENT.FUSE_ENTRY_BAD else c1
  if r.2.2 then c2.event BST_EVENT.FUSE_CONFLICT else c2

/-- Repairs of a memory. -/
def repairsOf (l : List Nat) (m : Nat) : List Nat := l.filter (fun w => fuseMem w == m)

/-- The free spares of a kind of a memory, in order. -/
def Core.freeSpares (c : Core) (m kind : Nat) : List Nat :=
  let n := if kind = 0 then (spares m).1 else (spares m).2
  (List.range n).filter (fun s => !(repairsOf c.bist.fused m).any (fun w => fuseKind w == kind && fuseSpare w == s))

/-- Distinct elements in order of first appearance. -/
def distinct (l : List Nat) : List Nat := l.foldl (fun a x => if a.contains x then a else a ++ [x]) []

/-- The soft repairs for the logged failures of a memory; none where the spares run out (R407). -/
def Core.allocate (c : Core) (m : Nat) (fails : List (Nat × Nat)) : Option (List Nat) :=
  let rows := c.freeSpares m 0
  let cols := c.freeSpares m 1
  let heavy := (distinct (fails.map (·.2))).filter (fun b => decide (rows.length < (fails.filter (·.2 == b)).length))
  let rest := distinct ((fails.filter (fun e => !heavy.contains e.2)).map (·.1))
  if heavy.length ≤ cols.length ∧ rest.length ≤ rows.length then
    some ((heavy.zip cols).map (fun e => fuseEntry m 1 e.2 e.1) ++ (rest.zip rows).map (fun e => fuseEntry m 0 e.2 e.1))
  else none

/-! ### Start, deferral and interruption (R405, R406) -/

/-- BIST or a deferral shows why it does not start. -/
def Core.bistDefer (c : Core) : Core :=
  let r := c.bistReason
  let c1 := (c.setF BST_STATUS.REASON r).modBist (fun b => { b with deferred := true })
  if r = 3 then c1.setF BST_STATUS.RAIL (((List.range 7).find? (fun i => !c.getBit PWR_RAIL_STAT.GOOD i)).getD 0) else c1

/-- BIST starts from stage 1 (R405, R413). -/
def Core.bistGo (c : Core) : Core :=
  let c1 := (List.range 39).foldl (fun a m =>
    ((a.setReg (BST_MEM_RESULT.a m) 0).setReg (BST_MEM_MISR.a m) 0).setReg (BST_MEM_OPS.a m) 0) c
  let c2 := (List.range 39).foldl (fun a m => a.setF (BST_MEM_RESULT.FUSED m) (min 6 (repairsOf c.bist.fused m).length)) c1
  let c3 := ((c2.setF BST_STATUS.RUNNING 1).setF BST_STATUS.STAGE 1).bump BST_STATUS.STARTS 1
  let c4 := (c3.setF BST_STATUS.REASON 0x23).setReg BST_TIME.a 0
  (c4.modBist (fun b => { b with
    soft := [], burned := [], retest := [], firstFail := [], lines := [], otpBad := false, startAt := c.now, stageAt := c.now
    deferred := false })).modPwr (fun p => { p with step := 3 })

/-- R405: BIST starts, or is deferred at the end of the clocks-locked step. -/
def execBistStart (s : State) : Res :=
  go (fun c0 _ =>
    let c := c0.bistWatch
    let held := match c.bist.holdSince with
      | some t => decide (t + 1000000 ≤ c.now)
      | none => false
    if c.flag BST_STATUS.RUNNING then c
    else if c.pwr.step = 2 then
      if c.bistReason = 0 ∧ c.flag CLK_STATUS.ORIGIN_SET then c.bistGo
      else if c.bistReason ≠ 0 ∧ c.pwr.stepAt + 2000000 ≤ c.now then (c.bistDefer).modPwr (fun p => { p with step := 3, stepAt := c.now })
      else c
    else if c.pwr.step = 3 ∧ c.bist.deferred then (if held then c.bistGo else if c.bistReason ≠ 0 then c.bistDefer else c)
    else c) s

/-- A rail leaves its window (R414). (DEDUCED log 146) -/
def Core.railOut (c : Core) (r : Nat) : Core := (c.putBit PWR_RAIL_STAT.GOOD r false).bistWatch

/-- R406: PLL_A leaves LOCKED (0), the BIST clock leaves its range (1), or a rail its window (2 and up). (DEDUCED log 144) -/
def execBistInterrupt (cond : Fin 9) (s : State) : Res :=
  go (fun c0 _ =>
    let c := if 2 ≤ cond.val then c0.railOut (cond.val - 2) else c0.bistWatch
    if !c.flag BST_STATUS.RUNNING ∨ c.bistReason = 0 then c
    else
      let c1 := c.bistIncomplete c.clamped
      if c.bist.inPlace.isSome then
        c1.bistRelease stDONE (inPlaceMems.map (fun m => BitVec.ofNat 8 (c1.getF (BST_MEM_RESULT.RESULT m))))
      else
        let k := c.getF BST_STATUS.STAGE
        let done := (List.range k).flatMap stageMems
        let c2 := done.foldl (fun a m => a.setF (BST_MEM_RESULT.RESULT m) 0) c1
        let c3 := ((c2.setF BST_STATUS.RUNNING 0).setF BST_STATUS.STAGE 0).modBist (fun b => { b with
          interrupts := b.interrupts + 1, retest := [], soft := [] })
        if 3 ≤ c3.bist.interrupts then
          ((c3.setF BST_STATUS.REASON 4).modBist (fun b => { b with deferred := false })).modPwr (fun p => { p with step := 9 })
        else c3.bistDefer) s

/-! ### Verdicts (R403, R404, R407, R409) -/

/-- The stage's words are re-initialised with zeros (R401). -/
def Core.zeroStage (c : Core) (k : Nat) : Core := match k with
  | 2 => c.clearMem 0x20000000 0x20810000
  | 3 => c.clearMem 0x01000000 0x01100000
  | _ => c

/-- The verdict of one memory. -/
def Core.verdict (c : Core) (x : BistMem) : Core :=
  let m := x.mem.val
  let set (c : Core) (r : Nat) : Core := c.setF (BST_MEM_RESULT.RESULT m) r
  let c1 := ((c.setReg (BST_MEM_MISR.a m) x.misr).setReg (BST_MEM_OPS.a m) x.ops).setF (BST_MEM_RESULT.FAILS m)
    (min 65535 x.fails.length)
  if c.bist.otpBad && !isMacro m then set c1 3
  else if isMacro m then
    let c2 := c1.modBist (fun b => { b with lines := (b.lines ++ x.fails.map (·.1)).take 16 })
    set c2 (if !x.fails.isEmpty then 6 else if x.corrected then 5 else 1)
  else
    let c2 := match x.fails.head? with
      | some f => c1.modBist (fun b => { b with firstFail := mapSet (fun _ => 0) b.firstFail m (f.1 % 2 ^ 16 + f.2 % 64 * 2 ^ 16) })
      | none => c1
    if x.ops.toNat < (c.sec.otp.bistOps.getD m 0).toNat then set c2 4
    else if x.ops ≠ c.sec.otp.bistOps.getD m 0 then set c2 3
    else if x.fails.isEmpty then set c2 (if x.misr = c.sec.otp.bistMisr.getD m 0 then 1 else 3)
    else if 8 < x.fails.length then set c2 3
    else match c.allocate m x.fails with
      | none => set c2 3
      | some l => (c2.setF (BST_MEM_RESULT.SOFT m) (min 6 l.length)).modBist (fun b => { b with
          soft := b.soft ++ l, retest := b.retest ++ [m] })

/-- The verdict on BIST as a whole (R409). -/
def Core.bistVerdict (c : Core) : Core :=
  let us := (c.now - c.bist.startAt) / 1000
  let bad (m : Nat) : Bool := let r := c.getF (BST_MEM_RESULT.RESULT m); r == 3 || r == 4
  let c1 := (((c.setF BST_STATUS.RUNNING 0).setF BST_STATUS.STAGE 0).setReg BST_TIME.a (BitVec.ofNat 32 us)).event BST_EVENT.DONE
  let c2 := if c1.bist.soft.isEmpty then c1 else c1.event BST_EVENT.SOFT_REPAIR
  if (List.range 35).any bad then
    ((c2.event BST_EVENT.FAIL).setF BST_STATUS.REASON (if c.bist.otpBad then 7 else if bad 0 then 6 else 5)).modPwr
      (fun p => { p with step := 9 })
  else (c2.setF BST_STATUS.REASON 0x24).modPwr (fun p => { p with step := 4, stepAt := c.now })

/-- The stage has its verdicts: the next stage, the result of the startup, or of BIST_RUN KIND 1. -/
def Core.stageNext (c : Core) : Core :=
  if !c.bist.retest.isEmpty then c
  else if c.bist.inPlace.isSome then
    let us := (c.now - c.bist.startAt) / 1000
    let c1 := (c.setReg BST_TIME.a (BitVec.ofNat 32 us)).event BST_EVENT.DONE
    let r := inPlaceMems.map (fun m => c.getF (BST_MEM_RESULT.RESULT m))
    let c2 := if r.contains 2 then c1.event BST_EVENT.SOFT_REPAIR else c1
    let c3 := if r.contains 3 ∨ r.contains 4 then c2.event BST_EVENT.FAIL else c2
    c3.bistRelease stDONE (r.map (BitVec.ofNat 8))
  else
    let k := c.getF BST_STATUS.STAGE
    let c1 := c.zeroStage k
    if k < 4 then (c1.setF BST_STATUS.STAGE (k + 1)).modBist (fun b => { b with stageAt := c.now }) else c1.bistVerdict

/-- R398, R403: a stage completes; `otpOk` is false where OTP's expected values could not be read. A memory of the stage
without a result was cut short. -/
def execBistStageDone (otpOk : Bool) (results : List BistMem) (s : State) : Res :=
  go (fun c _ =>
    let k := c.getF BST_STATUS.STAGE
    if !c.flag BST_STATUS.RUNNING ∨ !c.bist.retest.isEmpty ∨ c.now < c.bist.stageAt + stageTime k then c
    else
      let c1 := c.modBist (fun b => { b with otpBad := b.otpBad || !otpOk })
      let c2 := c.clamped.foldl (fun a m => match results.find? (fun x => x.mem.val == m) with
        | some x => a.verdict x
        | none => a.setF (BST_MEM_RESULT.RESULT m) 4) c1
      (c2.modBist (fun b => { b with stageAt := c.now })).stageNext) s

/-- R407: the retest of a memory completes. -/
def execBistRetestDone (mem : Fin 39) (pass : Bool) (s : State) : Res :=
  go (fun c _ =>
    let m := mem.val
    if !c.flag BST_STATUS.RUNNING ∨ !c.bist.retest.contains m
        ∨ c.now < c.bist.stageAt + 100000 + retestTime m then c
    else
      let c1 := (c.modBist (fun b => { b with retest := b.retest.filter (· != m) })).setF (BST_MEM_RESULT.RESULT m)
        (if pass then 2 else 3)
      c1.stageNext) s

/-- R400: an access to a clamped memory; its initiator sees a bus error. (DEDUCED log 145) -/
def execClampAccess (mem : Fin 39) (s : State) : Res :=
  go (fun c _ => if c.clamped.contains mem.val then c.event BST_EVENT.CLAMP_ACCESS else c) s

/-- The alarms that the firmware raises from the results (R409). (DEDUCED log 150) -/
def Core.bistAlarms (c : Core) : Core :=
  let c1 := (List.range 39).foldl (fun a m => match a.getF (BST_MEM_RESULT.RESULT m) with
    | 2 => a.raise .bistSoftRepair m [m] false
    | 5 => a.raise .bistMramCorrected m [m] false
    | 6 => a.raise .bistMramDamaged m [m] false
    | _ => a) c
  let r (c : Core) (b : Bool) (nm : AlarmName) : Core := if b then c.raise nm 0xFFFF [] false else c
  let c2 := r c1 (decide (0 < c.bist.interrupts)) .bistRestarted
  let c3 := r c2 (c.flag BST_EVENT.FUSE_ENTRY_BAD) .fuseEntryBad
  r (r c3 (c.flag BST_EVENT.FUSE_CONFLICT) .fuseConflict) (c.flag BST_EVENT.CLAMP_ACCESS) .clampAccess

/-! ### Commands (R410 to R412) -/

/-- BIST_RUN KIND 1 starts. -/
def Core.bistInPlace (c : Core) (ref : CmdRef) : Core :=
  let c1 := (inPlaceMems.foldl (fun a m => ((a.setF (BST_MEM_RESULT.RESULT m) 0).setF (BST_MEM_RESULT.SOFT m) 0)) c).stopLanes
  let c2 := (c1.setF BST_STATUS.RUNNING 1).setF BST_STATUS.STAGE 4
  (c2.replyW ref stACCEPTED []).modBist (fun b => { b with
    inPlace := some ref, stageAt := c.now, startAt := c.now, otpBad := false
    soft := b.soft.filter (fun w => !inPlaceMems.contains (fuseMem w)) })

/-- R410: BIST_RUN. -/
def execBistRun (m : Msg) (s : State) : Res :=
  go (fun c _ => c.command { op := 0x0730, modes := fun x => x == .standby || x == .test, len := lenIs 4, expect := 4 } m
    fun cmd c =>
    match firstFail [chk 1 0 (decide (u8 cmd.p 0 < 2)), chkAt 2 (firstNonZero cmd.p 1 3)] with
    | some f => c.badField cmd.ref f
    | none =>
      if u8 cmd.p 0 = 0 ∧ c.mode.code ≠ .standby then c.badState cmd.ref
      else if c.flag BST_STATUS.RUNNING then c.replyW cmd.ref stBUSY []
      else if u8 cmd.p 0 = 0 then (c.done cmd.ref).modPwr (fun p => { p with resetDue := some (0, 7, c.now) })
      else c.bistInPlace cmd.ref) s

/-- REASON of BST_STATUS: the step of the startup in progress (R423, R424), else what stopped it. -/
def Core.bootReason (c : Core) : Nat :=
  let s := c.pwr.step
  let training := (List.range 128).any (fun l => c.laneState l == 1)
  if s = 0 then 0x10
  else if s = 6 then (if training then 0x26 else 0x27)
  else if s ≤ 7 then (if s = 3 ∧ c.bist.deferred then c.getF BST_STATUS.REASON else 0x20 + s)
  else if s = 8 then 0 else c.getF BST_STATUS.REASON

/-- The reply of BIST_RESULT (R411). -/
def Core.bistReply (c : Core) : List Byte :=
  le 4 (c.reg BST_TIME.a).toNat ++ le 1 (c.getF BST_STATUS.STARTS) ++ le 1 c.bootReason
    ++ le 1 (c.getF BST_STATUS.FUSE_FREE) ++ le 1 (min 32 c.bist.soft.length) ++ zeros 8
    ++ (List.range 39).flatMap (fun m =>
      le 1 m ++ le 1 (c.getF (BST_MEM_RESULT.RESULT m)) ++ le 1 (c.getF (BST_MEM_RESULT.SOFT m))
        ++ le 1 (c.getF (BST_MEM_RESULT.FUSED m)) ++ le 4 (c.reg (BST_MEM_MISR.a m)).toNat
        ++ le 4 (c.reg (BST_MEM_OPS.a m)).toNat ++ le 4 (mapGet (fun _ => 0) c.bist.firstFail m))
    ++ (c.bist.soft.take 32).flatMap (le 4)

/-- R411: BIST_RESULT. -/
def execBistResult (m : Msg) (s : State) : Res :=
  go (fun c _ => c.command { op := 0x0731, modes := anyMode, len := lenIs 0 } m fun cmd c =>
    c.reply cmd.ref stDONE c.bistReply) s

/-- A word programmed into the first free entry of the repair area. -/
def burnFuse (l : List (BitVec 32)) (w : Nat) : List (BitVec 32) :=
  match l.findIdx? (· == 0) with
  | some i => setAt i (BitVec.ofNat 32 w) l
  | none => l ++ [BitVec.ofNat 32 w]

/-- Soft repairs burned one after the other; whether the read-back of each holds is the array's. The count burned, and
whether one failed. (DESIGN CHOICE log 181) -/
def Core.burn (c : Core) : List Nat → Nat → Core × Nat × Bool
  | [], n => (c, n, false)
  | j :: t, n =>
    let ok := !c.pwr.nvBad && (Config.freeWord c.free).getLsbD 0
    let c1 := c.fresh
    if ok then
      let c2 := { c1 with sec := { c1.sec with otp := { c1.sec.otp with fuses := burnFuse c1.sec.otp.fuses (c.bist.soft.getD j 0) } } }
      let c3 := (c2.modBist (fun b => { b with burned := b.burned ++ [j] })).setF BST_STATUS.FUSE_FREE
        (c.getF BST_STATUS.FUSE_FREE - 1)
      c3.burn t (n + 1)
    else (c1, n, true)

/-- R412: FUSE_REPAIR. (DESIGN CHOICE log 181) -/
def execFuseRepair (m : Msg) (s : State) : Res :=
  go (fun c _ => c.command { op := 0x0732, priv := true, modes := (· == .standby), sig := 2, len := lenIs 12, expect := 12 } m
    fun cmd c =>
    let sel := u32 cmd.p 8
    let n := min 32 c.bist.soft.length
    let chosen := (List.range n).filter (bitOf sel)
    let js := chosen.filter (fun j => !c.bist.burned.contains j)
    match firstFail [chkAt 1 (if u64 cmd.p 0 ≠ c.sec.otp.deviceId.toNat then some 0 else if 2 ^ n ≤ sel then some 8 else none)] with
    | some f => c.badField cmd.ref f
    | none =>
      if c.getF BST_STATUS.FUSE_FREE < chosen.length then c.denied cmd.ref 6
      else
        let r := c.burn js 0
        if r.2.2 then r.1.replyW cmd.ref stPARTIAL [r.2.1] else r.1.done cmd.ref) s

end Sys2Proof.Machine
end

