-- ==== Sys2Proof/Machine/Power.lean ====
section
/-! DEFINITION. Power domains and reset (R414 to R428): rails, the reset kinds, deferred and commanded resets, the watchdog,
parking and sleep, and the power commands. -/
namespace Sys2Proof.Machine

/-! ### Domains (R34, R36, R416) -/

/-- The power domain of a register address (R34); PD_3 for the registers of SAR unit D. -/
def domainOf (a : Nat) : Nat :=
  let b := (a - 0x40000000) / 0x10000
  if b ≤ 1 then 0
  else if b = 2 then (if a < 0x40022000 then 4 else 5)
  else if b = 3 then 4
  else if b = 9 then 6
  else if b = 0xB then (if 0x400B3000 ≤ a ∧ a < 0x400B4000 then 3 else 6)
  else if b = 0xC ∨ b = 0x11 ∨ b = 0x13 ∨ b = 0x14 then 9
  else if b = 0x12 then 3
  else 2

/-- Registers at an address that `p` names return to their reset values. -/
def Core.clearRegs (c : Core) (p : Nat → Bool) : Core :=
  { c with regs := c.regs.filter (fun e => !p e.1), latch := c.latch.filter (fun e => !p e.1) }

/-- The lanes of a link island lose their state; their front-ends fall to 100 (R92). -/
def Core.lanesOff (c : Core) (d : Nat) : Core :=
  let l := (List.range 64).map (· + 64 * (d - 4))
  let c1 := l.foldl (fun a n => (a.forceCell n 4).setLane n Lane.reset) c
  c1.clearRegs (fun a => decide (domainOf a = d))

/-- PD_6 loses its state. -/
def Core.conversionOff (c : Core) : Core :=
  let c1 := c.clearRegs (fun a => decide (domainOf a = 6))
  { c1 with
    cnv := { c1.cnv with vals := [], units := c1.cnv.units.filter (fun e => e.1 == 3), sensD := List.replicate 6 none }
    fbk := { Fbk.reset with
      sCfg := c1.fbk.sCfg, sSector := c1.fbk.sSector, sCode := c1.fbk.sCode, sHall := c1.fbk.sHall } }

/-- A domain is turned off (R417). -/
def Core.domainOff (c : Core) (d : Nat) : Core :=
  let c1 := c.putBit PWR_STATUS.ON d false
  if d = 4 ∨ d = 5 then c1.lanesOff d else if d = 6 then c1.conversionOff else c1

/-! ### The reset kinds (R420) -/

/-- Memory at the onset of a reset: mailbox buffers are zeroed (R336). -/
def Core.resetMem (c : Core) : Core := c.clearMem 0x20800000 0x20810000

/-- What every reset keeps: the time base count, MRAM (configuration, ledger with what a flush had written, image slots),
OTP, and what the pins show. -/
def Core.bare (c : Core) : Core :=
  let m := c.flushCut
  { Core.reset with
    now := c.now, free := m.free, memOps := c.memOps, cfg := c.cfg
    lgr := { Core.reset.lgr with sods := m.lgr.sods }
    sec := { Core.reset.sec with
      otp := c.sec.otp, loaded := c.sec.loaded, slots := c.sec.slots, trial := c.sec.trial, starts := c.sec.starts + 1 }
    pwr := { Core.reset.pwr with rstN := c.pwr.rstN, railAt := c.pwr.railAt, nvBad := c.pwr.nvBad, stepAt := c.now } }

/-- A field of another machine's registers. -/
def Core.copyF (c d : Core) (f : Field) : Core := c.setF f (d.getF f)

/-- PWR_RESET_CAUSE after a reset; `kind` 0 POWER_ON, 1 PIN, 2 SYSTEM, 3 HEARTH. (DEDUCED log 147) -/
def Core.resetCause (c d : Core) (kind cause rail : Nat) : Core :=
  let run := if cause = 3 then satN 8 (d.getF PWR_RESET_CAUSE.WDOG_RUN + 1) else 0
  (((c.setF PWR_RESET_CAUSE.KIND kind).setF PWR_RESET_CAUSE.CAUSE cause).setF PWR_RESET_CAUSE.RAIL rail).setF
    PWR_RESET_CAUSE.WDOG_RUN run

/-- What a reset other than POWER_ON keeps: the wall clock (R420), the results of the last BIST (R413) unless the memories
lost their power, and the counts since power-on. (DEDUCED log 144, 147) -/
def Core.keepMost (n c : Core) : Core :=
  let n1 := { n with clk := { n.clk with wallNs := c.clk.wallNs, wallRef := c.clk.wallRef, rc := c.clk.rc } }
  let old := if c.pwr.sleeping then [] else c.regs.filter (fun e => decide (0x400F0008 ≤ e.1 ∧ e.1 < 0x40100000))
  let n2 := { n1 with regs := old.foldl (fun m (e : Nat × Word) => mapSet regReset m e.1 e.2) n1.regs }
  let n3 := [0, 1, 2, 3].foldl (fun a p => a.copyF c (CLK_PLL_STAT.LOSSES p)) n2
  ((n3.copyF c PWR_RAIL_STAT.GOOD).copyF c PWR_RAIL_STAT.WARN).copyF c CLK_STATUS.WALL_DEGRADED
    |>.copyF c SEC_AUTH.UNLOCKS |>.copyF c PAI_STATUS.AUTH_IN |>.copyF c PAI_STATUS.TAKEOVERS

/-- A register that a HEARTH reset leaves: the safety island and unit D, the clocks and PWR_ but for their RW fields and
their events (R9), the results of BIST (R420). (DEDUCED log 148) -/
def hearthKeeps (a : Nat) : Bool :=
  domainOf a == 3 || (domainOf a == 0 && !(decide (a = CLK_EVENT.a ∨ a = PWR_EVENT.a ∨ a = CLK_CTRL.a ∨ a = CLK_SLEW.a ∨ a = CLK_HOLDOVER_CFG.a ∨ a = PWR_CTRL.a
    ∨ a = PWR_WDOG.a ∨ a = PWR_WAKE_CFG.a ∨ a = PWR_WAKE_AFTER.a))) || (decide (0x400F0000 ≤ a ∧ a < 0x40100000)
    && a != BST_EVENT.a)

/-- A HEARTH reset (R420). (DEDUCED log 147, 148) -/
def Core.hearthReset (c : Core) (cause : Nat) : Core :=
  let b := c.resetMem.bare
  let b1 := { b with
    regs := c.regs.filter (fun e => hearthKeeps e.1 || e.1 == SEC_AUTH.a)
    saf := { c.saf with req := [] }, clk := c.clk, bist := { c.bist with inPlace := none }
    fbk := { Fbk.reset with sCfg := c.fbk.sCfg, sSector := c.fbk.sSector, sCode := c.fbk.sCode, sHall := c.fbk.sHall }
    cnv := { b.cnv with units := c.cnv.units.filter (fun e => e.1 == 3) }
    modu := { b.modu with start := c.now / 25000 * 25000 }
    pwr := { b.pwr with
      step := 4, hearthZero := true, slowSince := c.pwr.slowSince, noSpeedSince := c.pwr.noSpeedSince } }
  let b2 := (((b1.setF SEC_AUTH.FAILS 0).setF SEC_AUTH.LOCKOUT_S 0).copyF c PAI_STATUS.AUTH_IN
    |>.copyF c PAI_STATUS.TAKEOVERS).setF PWR_STATUS.RESET_PENDING 0
  (b2.setF PWR_STATUS.PARKED 0).setF PWR_STATUS.ON 0x3FF |>.resetCause c 3 cause 0

/-- A POWER_ON, PIN or SYSTEM reset (R420): the timeline waits for rails good or RST_N, or resumes at the load of OTP.
(DEDUCED log 147) -/
def Core.deviceReset (c : Core) (kind cause rail : Nat) : Core :=
  let b := c.resetMem.bare
  let b1 := if kind = 0 then
      { b with clk := { b.clk with wallNs := 0, wallRef := c.now }, sec := { b.sec with starts := 1 } }
      |>.copyF c PWR_RAIL_STAT.GOOD |>.copyF c PWR_RAIL_STAT.WARN |>.copyF c PAI_STATUS.AUTH_IN
    else b.keepMost c
  let go := b1.pwr.rstN && b1.getF PWR_RAIL_STAT.GOOD == 0x7F
  (b1.resetCause c kind cause rail).modPwr (fun p => { p with step := if go then 1 else 0 })

/-! ### Rails (R414), in the order of R289 codes 73 to 79: CORE, SAFE, SERDES, VDDA, NV, IO, AON -/

/-- R414: every rail has been good for 100 µs. (DEDUCED log 146; DESIGN CHOICE log 178) -/
def execRailsGood (s : State) : Res :=
  go (fun c _ =>
    if c.pwr.step = 0 ∧ !c.pwr.sleeping ∧ c.pwr.rstN ∧ c.getF PWR_RAIL_STAT.GOOD = 0x7F ∧ c.pwr.railAt + 100000 ≤ c.now then
      c.modPwr (fun p => { p with step := 1, stepAt := c.now })
    else c) s

/-- R414: a rail stays outside ±5 % and within ±10 % for 100 µs; the alarm is raised once for an excursion.
(DEDUCED log 146) -/
def execRailWarning (r : Fin 7) (s : State) : Res :=
  go (fun c _ =>
    let c1 := c.railOut r
    if c.getBit PWR_RAIL_STAT.WARN r then c1
    else ((c1.putBit PWR_RAIL_STAT.WARN r true).event PWR_EVENT.RAIL_WARNING).raise .railWarning r [r] true) s

/-- R414: a rail is outside ±10 % for 2 µs; VDD_NV cuts a running flush short as a power cut does. (DEDUCED log 146) -/
def execRailFault (r : Fin 7) (s : State) : Res :=
  go (fun c _ =>
    let c1 := c.railOut r
    match r.val with
    | 6 => c1.deviceReset 0 0 0
    | 1 => c1.islandFault
    | 4 =>
      if c.pwr.nvBad then c1
      else ((c1.flushCut.modPwr (fun p => { p with nvBad := true })).event PWR_EVENT.NV_RAIL_FAULT).raise .nvRailFault 0xFFFF [] true
    | k => c1.deviceReset 2 2 k) s

/-- R414: a rail is back within ±5 %. (DEDUCED log 146) -/
def execRailReturn (r : Fin 7) (s : State) : Res :=
  go (fun c _ =>
    let c1 := ((c.putBit PWR_RAIL_STAT.GOOD r true).putBit PWR_RAIL_STAT.WARN r false).clearCause .railWarning r
    let c2 := (if c.getBit PWR_RAIL_STAT.GOOD r then c1 else c1.modPwr (fun p => { p with railAt := c.now })).bistWatch
    if r.val = 4 then (c2.modPwr (fun p => { p with nvBad := false })).clearCause .nvRailFault 0xFFFF else c2) s

/-! ### RST_N (R420) -/

/-- R420: RST_N has been low for 1 µs. -/
def execPinReset (s : State) : Res := go (fun c _ => (c.modPwr (fun p => { p with rstN := false })).deviceReset 1 1 0) s

/-- R420: RST_N is high again; the timeline resumes at the load of OTP. -/
def execPinResetRelease (s : State) : Res :=
  go (fun c _ =>
    if c.pwr.rstN then c
    else c.modPwr (fun p => { p with
      rstN := true, stepAt := c.now, step := if c.getF PWR_RAIL_STAT.GOOD = 0x7F then 1 else p.step })) s

/-! ### Watchdog, lockstep and the deferred reset (R421, R422) -/

/-- A WATCHDOG (3) or LOCKSTEP (4) cause: PWR_ requests the safe state and the reset waits; a device in AUTHORITY whose
partner is ready relinquishes in its place (R455). (DEDUCED log 149) -/
def Core.deferReset (c : Core) (nm : AlarmName) (cause : Nat) : Core :=
  if c.pwr.defer.isSome then c
  else if c.canRelinquish then c.relinquish cause [] 0
  else ((c.request nm).setF PWR_STATUS.RESET_PENDING 1).modPwr (fun p => { p with defer := some cause })

/-- R421, R422: the watchdog expires. -/
def execWatchdogExpiry (s : State) : Res :=
  go (fun c _ => match c.pwr.wdogAt with
    | none => c
    | some t =>
      if t ≤ c.now then (c.modPwr (fun p => { p with wdogAt := none })).deferReset .watchdogExpired 3 else c) s

/-- R421: the cores of a hearth pair differ; both pairs act alike. -/
def execLockstepMismatch (_pair : Fin 2) (s : State) : Res := go (fun c _ => c.deferReset .hearthLockstep 4) s

/-- The speeds as R421 watches them, at a sample instant. (DEDUCED log 149) -/
def Core.speedWatch (c : Core) : Core :=
  let slow := c.nSel.any (fun n => decide ((n : Int) ≤ c.nSr))
  let none_ := c.nSel.isNone
  c.modPwr (fun p => { p with
    slowSince := if slow then some (p.slowSince.getD c.now) else none
    noSpeedSince := if none_ then some (p.noSpeedSince.getD c.now) else none })

/-- Since some instant for at least `d`. -/
def heldFor (since : Option Nat) (d now : Nat) : Bool := since.any (fun t => decide (t + d ≤ now))

/-- R421: the reset proceeds after 100 ms at or below N_SR, or 30 s without a valid speed. (DEDUCED log 149) -/
def execDeferredResetRelease (s : State) : Res :=
  go (fun c _ => match c.pwr.defer with
    | none => c
    | some cause =>
      if heldFor c.pwr.slowSince 100000000 c.now || heldFor c.pwr.noSpeedSince 30000000000 c.now then c.deviceReset 2 cause 0
      else c) s

/-- The watchdog restarts with the period in force. (DEDUCED log 149) -/
def Core.kick (c : Core) : Core :=
  let t := c.pwr.wdogMs * 1000000
  if c.pwr.wdogLeft.isSome then c.modPwr (fun p => { p with wdogLeft := some t })
  else if c.pwr.wdogAt.isSome then c.modPwr (fun p => { p with wdogAt := some (c.now + t) })
  else c

/-- R422: a write of 1 to PWR_WDOG.KICK. -/
def execWatchdogKick (s : State) : Res := go (fun c _ => c.kick) s

/-- MS as it acts (R428). (DEDUCED log 149) -/
def Core.wdogPeriod (c : Core) : Nat := clampN 10 1000 (c.getF PWR_WDOG.MS)

/-! ### Commanded reset, sleep, wake (R419, R425) -/

/-- R425: a commanded reset takes place after its flush. -/
def execCommandedReset (s : State) : Res :=
  go (fun c _ => match c.pwr.resetDue with
    | some (0, cause, _) => c.deviceReset 2 cause 0
    | some (1, cause, _) => c.hearthReset cause
    | _ => c) s

/-- R419: after the flush every domain but PD_0 is off. The volatile memories lose their contents. -/
def execSleepEntry (s : State) : Res :=
  go (fun c _ => match c.pwr.resetDue with
    | some (2, _, _) =>
      let b := (((c.resetMem.clearMem 0x20000000 0x20800000).clearMem 0x01000000 0x01100000)).bare
      let pd0 := c.regs.filter (fun e => domainOf e.1 == 0)
      let b1 := { b with
        regs := pd0, clk := { b.clk with wallNs := c.clk.wallNs, wallRef := c.clk.wallRef, rc := c.clk.rc }
        sec := { b.sec with starts := c.sec.starts } }
      let b2 := [0, 1, 2, 3].foldl (fun a p => a.setReg (CLK_PLL_STAT.a p) 0) b1
      ((((b2.setF CLK_STATUS.REF_VALID 0).setF CLK_STATUS.ORIGIN_SET 0).setF PWR_STATUS.ON 1).setF PWR_STATUS.PARKED 0
        |>.copyF c SEC_AUTH.UNLOCKS |>.copyF c PAI_STATUS.AUTH_IN |>.copyF c PAI_STATUS.TAKEOVERS).modPwr
        (fun p => { p with sleeping := true, sleepWall := c.wall })
    | _ => c) s

/-- R419: an enabled wake source (bit of WAKE_SRC: WAKE_N, CAN0_RX, quad-SPI, wall-clock alarm). -/
def execWake (src : Fin 4) (s : State) : Res :=
  go (fun c _ =>
    let due := src.val ≠ 3 || decide (c.pwr.sleepWall + (c.reg PWR_WAKE_AFTER.a).toNat ≤ c.wall)
    if c.pwr.sleeping && c.getBit PWR_WAKE_CFG.SRC src && due then c.deviceReset 2 6 0 else c) s

/-! ### Parking (R418) -/

/-- R418: after the flush at the entry to STANDBY the parked domains are turned off. (DEDUCED log 119) -/
def execDomainPark (s : State) : Res :=
  go (fun c _ =>
    let c1 := c.modPwr (fun p => { p with parkDue := false })
    if !c.pwr.parkDue then c
    else if c.mode.code ≠ .standby ∨ c.mode.pend.isSome then c1
    else
      let c2 := if c.flag PWR_CTRL.PARK_LINKS then (c1.domainOff 4).domainOff 5 else c1
      let c3 := if c.flag PWR_CTRL.PARK_CONV then c2.domainOff 6 else c2
      c3.setFlag PWR_STATUS.PARKED (c.flag PWR_CTRL.PARK_LINKS || c.flag PWR_CTRL.PARK_CONV)) s

/-! ### Commands (R425, R426) -/

/-- R425: RESET. (DEDUCED log 149) -/
def execReset (m : Msg) (s : State) : Res :=
  go (fun c _ => c.command
      { op := 0x0103, priv := true, len := lenIs 4, expect := 4
        modes := fun k => cfgMode k || k == .safe || k == .off } m fun cmd c =>
    let k := u8 cmd.p 0
    let off := c.mode.code == .off
    match firstFail [chk 1 0 (decide (k < 3)), chkAt 2 (firstNonZero cmd.p 1 3)] with
    | some f => c.badField cmd.ref f
    | none =>
      if (k = 2 ∧ c.mode.code ≠ .standby) ∨ (off && k != 0) ∨ (k < 2 && !off && c.aboveNsr) then c.badState cmd.ref
      else if off then (c.done cmd.ref).modPwr (fun p => { p with resetDue := some (0, 5, c.now) })
      else (c.done cmd.ref).wantFlush (.reset k 5)) s

/-- R426: the checks of POWER_SET. -/
def powerChecks (p : List Byte) : Option Fail :=
  let src := u8 p 1
  firstFail
    [chkAt 1 (lowest [if u8 p 0 < 4 then none else some 0, if src < 16 then none else some 1, firstNonZero p 8 8]),
     chk 2 2 (decide (10 ≤ u16 p 2 ∧ u16 p 2 ≤ 1000)), chk 3 1 (decide (src ≠ 0)),
     chk 4 4 (bitOf src 3 == decide (u32 p 4 ≠ 0))]

/-- R426: POWER_SET; refused while a mode transition is pending (R417). -/
def execPowerSet (m : Msg) (s : State) : Res :=
  go (fun c _ => c.command (setSpec 0x02B0 16) m fun cmd c =>
    if c.mode.pend.isSome then c.replyW cmd.ref stBUSY [] else c.configure cmd (powerChecks cmd.p)) s

/-- R489: POWER_GET. -/
def execPowerGet (m : Msg) (s : State) : Res :=
  go (fun c _ => c.command (getSpec 0x02B1) m fun cmd c =>
    c.getCfg 0x02B0 ([0, 1] ++ le 2 100 ++ zeros 12) cmd) s

/-- A POWER_SET payload takes effect; the watchdog takes its new period at the next kick. -/
def Core.loadPower (c : Core) (p : List Byte) : Core :=
  let c1 := (c.setF PWR_CTRL.PARK_LINKS (u8 p 0)).setF PWR_CTRL.PARK_CONV (u8 p 0 / 2)
  let c2 := ((c1.setF PWR_WAKE_CFG.SRC (u8 p 1)).setF PWR_WDOG.MS (u16 p 2)).setF PWR_WAKE_AFTER.SECONDS (u32 p 4)
  c2.modPwr (fun q => { q with wdogMs := clampN 10 1000 (u16 p 2) })

end Sys2Proof.Machine
end

