-- ==== Sys2Proof/Machine/Security.lean ====
section
/-! DEFINITION. Security (R429 to R447): the OTP load, image slots and the boot chain, firmware loading, attestation,
re-commissioning, and the debug unlock. -/
namespace Sys2Proof.Machine

def Core.modSec (c : Core) (f : Sec → Sec) : Core := { c with sec := f c.sec }

/-! ### OTP (R423, R429, R448) -/

/-- The grade is the majority of the three fuses (R429). -/
def gradeOf (fuses : BitVec 3) : Nat := b2n (decide (2 ≤ popcount 3 fuses.toNat))

/-- A key slot is programmed. -/
def keyProg (l : List (List Byte)) (k : Nat) : Bool := !(l.getD k []).isEmpty

/-- A bit map of `n` flags. -/
def flagMap (n : Nat) (f : Nat → Bool) : Nat := (List.range n).foldl (fun a i => if f i then a + 2 ^ i else a) 0

/-- SEC_KEYS follows OTP. -/
def Core.refreshKeys (c : Core) : Core :=
  let o := c.sec.otp
  let c1 := (c.setF SEC_KEYS.VK_PROG (flagMap 2 (keyProg o.vendorHash))).setF SEC_KEYS.VK_REVOKED o.vendorRevoked.toNat
  (c1.setF SEC_KEYS.IK_PROG (flagMap 4 (keyProg o.integratorHash))).setF SEC_KEYS.IK_REVOKED o.integratorRevoked.toNat

/-- The states of the image slots (R435). -/
abbrev slEMPTY := 0
abbrev slVALID := 1
abbrev slTRIAL := 2
abbrev slACTIVE := 3
abbrev slDAMAGED := 4
abbrev slFAILED := 5
abbrev slSTALE := 6

def Core.slot (c : Core) (k : Nat) : Nat := c.sec.slots.getD k slEMPTY

/-- A slot takes a state and a trial mark. -/
def Core.setSlot (c : Core) (k st : Nat) (mark : Bool) : Core :=
  let c1 := c.modSec (fun x => { x with slots := setAt k st x.slots, trial := setAt k mark x.trial })
  c1.setF (if k = 0 then SEC_STATUS.SLOT0 else SEC_STATUS.SLOT1) st

/-- SEC_ takes its values from OTP and MRAM. -/
def Core.loadSec (c : Core) : Core :=
  let o := c.sec.otp
  let c1 := ((c.setF SEC_STATUS.GRADE (gradeOf o.gradeFuses)).setFlag SEC_STATUS.ORIGIN o.origin).setF SEC_STATUS.ROLLBACK
    o.rollback
  (((c1.setF SEC_STATUS.SLOT0 (c.slot 0)).setF SEC_STATUS.SLOT1 (c.slot 1)).refreshUnsigned).refreshKeys

/-- R423: the load of OTP ends; `otp` is what the array held at its first load. -/
def execOtpLoadDone (ok : Bool) (otp : OtpImage) (s : State) : Res :=
  go (fun c _ =>
    if c.pwr.step ≠ 1 then c
    else if !ok then (c.setF BST_STATUS.REASON 0x11).modPwr (fun p => { p with step := 9 })
    else
      let c1 := c.modSec (fun x => { x with otp := if x.loaded then x.otp else otp, loaded := true })
      ((c1.loadSec).loadFuses).modPwr (fun p => { p with step := 2, stepAt := c.now })) s

/-! ### Image slots (R435, R436) -/

/-- Slot `k` in MRAM. -/
def slotBase (k : Nat) : Nat := 0x30000000 + 0x600000 * k

def slotHeader (mem : Memory) (k : Nat) : List Byte := readBytes mem (slotBase k) 128
def slotTrailer (mem : Memory) (k : Nat) : List Byte := readBytes mem (slotBase k + 128) 220
def imgBody (mem : Memory) (k n : Nat) : List Byte := readBytes mem (slotBase k + 0x200) n

/-- Fields of an image header. -/
def imgRollback (h : List Byte) : Nat := u8 h 12
def imgSize (h : List Byte) : Nat := u32 h 16
def imgFsSize (h : List Byte) : Nat := u32 h 20
def imgHash (h : List Byte) : List Byte := (h.drop 28).take 48
def imgFsHash (h : List Byte) : List Byte := (h.drop 76).take 48

/-- GRADES includes the device's grade. -/
def Core.gradeIn (c : Core) (h : List Byte) : Bool := bitOf (u8 h 13) c.grade

/-- R436. An EMPTY, DAMAGED or FAILED slot is not booted. (DEDUCED log 152) -/
def Core.bootable (c : Core) (mem : Memory) (k : Nat) : Bool :=
  let h := slotHeader mem k
  c.slot k != slEMPTY && c.slot k != slDAMAGED && c.slot k != slFAILED && c.trailerOk 0x0601 h (slotTrailer mem k)
    && sha384 (imgBody mem k (imgFsSize h)) == imgFsHash h && decide (c.sec.otp.rollback ≤ imgRollback h) && c.gradeIn h

/-- FW_FALLBACK. (DEDUCED log 152) -/
def Core.fallback (c : Core) (k : Nat) : Core := (c.event SEC_EVENT.FW_FALLBACK).raise .fwFallback 0xFFFF [k] true

/-- The slots whose trial failed become FAILED. (DEDUCED log 152) -/
def Core.failTrials (c : Core) : Core :=
  [0, 1].foldl (fun a k =>
    if a.slot k = slTRIAL ∧ a.sec.trial.getD k false then (a.setSlot k slFAILED false).fallback k else a) c

/-- The slot to boot, and whether it is a fallback. (DEDUCED log 152) -/
def Core.bootChoice (c : Core) (mem : Memory) : Option (Nat × Bool) :=
  match [0, 1].find? (fun k => c.slot k == slTRIAL && c.bootable mem k) with
  | some k => some (k, false)
  | none =>
    match [0, 1].find? (fun k => c.slot k == slACTIVE && c.bootable mem k) with
    | some k => some (k, false)
    | none => ([0, 1].find? (fun k => c.bootable mem k)).map (fun k => (k, true))

/-- The boot ROM stops with a reason and serves mailbox 0. -/
def Core.bootStop (c : Core) (reason : Nat) : Core := (c.setF BST_STATUS.REASON reason).modPwr (fun p => { p with step := 9 })

/-- R436, R422: the boot ROM chooses and verifies a first stage, arms the watchdog and hands over. After a HEARTH reset SRAM
and tightly coupled memory have been zeroed. -/
def execBootVerifyDone (s : State) : Res :=
  go (fun c0 mem =>
    if c0.pwr.step ≠ 4 ∨ (c0.pwr.hearthZero ∧ c0.now < c0.pwr.stepAt + 4000000) then c0
    else
      let c1 := if c0.pwr.hearthZero then (c0.clearMem 0x20000000 0x20800000).clearMem 0x01000000 0x01100000 else c0
      let c := c1.modPwr (fun p => { p with hearthZero := false })
      if 3 ≤ c.getF PWR_RESET_CAUSE.WDOG_RUN then c.bootStop 0x13
      else
        let c2 := c.failTrials
        match c2.bootChoice mem with
        | none => c2.bootStop 0x12
        | some (k, fb) =>
          let c3 := if c2.slot k = slTRIAL then c2.setSlot k slTRIAL true else c2
          let c4 := if fb then c3.fallback k else c3
          let c5 := (c4.setF SEC_STATUS.BOOT_SLOT k).modSec (fun x => { x with img := slotHeader mem k })
          c5.modPwr (fun p => { p with
            step := 5, stepAt := c.now, wdogMs := 1000, wdogAt := some (c.now + 1000000000), wdogLeft := none })) s

/-! ### Firmware loading (R438) -/

/-- The checks of FW_LOAD_BEGIN. (DEDUCED log 154) -/
def Core.imageChecks (c : Core) (h : List Byte) : Option Fail :=
  let size := imgSize h
  firstFail
    [chkAt 1 (lowest [if u32 h 0 = 0x494D4731 then none else some 0, if u8 h 13 < 4 then none else some 13,
       firstNonZero h 14 2, firstNonZero h 124 4]),
     chkAt 2 (if size ≤ 0x005FFE00 ∧ size % 4 = 0 then (if imgFsSize h ≤ size then none else some 20) else some 16),
     chk 3 12 (decide (c.sec.otp.rollback ≤ imgRollback h ∧ imgRollback h ≤ 64)), chk 4 13 (c.gradeIn h)]

/-- The slot that a load goes to: the one that is not ACTIVE; with none ACTIVE, the one that does not run.
(DEDUCED log 154) -/
def Core.loadSlot (c : Core) : Nat :=
  if c.slot 0 = slACTIVE then 1 else if c.slot 1 = slACTIVE then 0
  else if c.mode.code = .off then 0 else 1 - c.getF SEC_STATUS.BOOT_SLOT

/-- Where the commands of R438 are accepted. -/
def fwMode (m : Mode) : Bool := cfgMode m || m == .off

/-- R438: FW_LOAD_BEGIN. (DEDUCED log 154) -/
def execFwLoadBegin (m : Msg) (s : State) : Res :=
  go (fun c _ => c.command { op := 0x0601, priv := true, modes := fwMode, sig := 2, len := lenIs 128, expect := 128 } m
    fun cmd c =>
      match c.imageChecks cmd.p with
      | some f => c.badField cmd.ref f
      | none =>
        if c.sec.session.any (fun x => x.mb != cmd.ref.mb) then c.replyW cmd.ref stBUSY []
        else if c.pwr.nvBad then c.nvFault cmd.ref
        else
          let k := c.loadSlot
          let c1 := (c.setSlot k slEMPTY false).modSec (fun x => { x with session := some ⟨cmd.ref.mb, k, cmd.p, 0, c.now⟩ })
          ((c1.writeMem (slotBase k) cmd.p).writeMem (slotBase k + 128) cmd.trailer).done cmd.ref) s

/-- The session of a mailbox. -/
def Core.sessionOf (c : Core) (mb : Nat) : Option FwSession := c.sec.session.filter (fun x => x.mb == mb)

/-- R438: FW_LOAD_DATA. (DEDUCED log 154) -/
def execFwLoadData (m : Msg) (s : State) : Res :=
  go (fun c _ => c.command { op := 0x0602, priv := true, modes := fwMode, len := lenAny } m fun cmd c =>
    let n := cmd.p.length - 4
    match c.sessionOf cmd.ref.mb with
    | none => c.denied cmd.ref 3
    | some x =>
      if cmd.p.length < 8 ∨ n % 4 ≠ 0 then c.replyW cmd.ref stBAD_LENGTH [0]
      else match firstFail [chk 1 0 (decide (u32 cmd.p 0 = x.got)), chk 2 4 (decide (x.got + n ≤ imgSize x.hdr))] with
      | some f => c.badField cmd.ref f
      | none =>
        if c.pwr.nvBad then c.nvFault cmd.ref
        else
          let c1 := c.modSec (fun y => { y with session := some { x with got := x.got + n, last := c.now } })
          (c1.writeMem (slotBase x.slot + 0x200 + x.got) (cmd.p.drop 4)).done cmd.ref) s

/-- R438: FW_LOAD_COMMIT. (DEDUCED log 154) -/
def execFwLoadCommit (m : Msg) (s : State) : Res :=
  go (fun c mem => c.command { op := 0x0603, priv := true, modes := fwMode, len := lenIs 0 } m fun cmd c =>
    match c.sessionOf cmd.ref.mb with
    | none => c.denied cmd.ref 3
    | some x =>
      if x.got ≠ imgSize x.hdr then c.badState cmd.ref
      else if c.pwr.nvBad then c.nvFault cmd.ref
      else
        let body := imgBody mem x.slot (imgSize x.hdr)
        let ok := sha384 body == imgHash x.hdr && sha384 (body.take (imgFsSize x.hdr)) == imgFsHash x.hdr
        let c1 := (c.setSlot x.slot (if ok then slTRIAL else slFAILED) false).modSec (fun y => { y with session := none })
        if ok then c1.done cmd.ref else c1.badField cmd.ref (5, 0, 0)) s

/-- R438: 10 s after its last command a session ends; its slot stays EMPTY. -/
def execFwSessionTimeout (s : State) : Res :=
  go (fun c _ => match c.sec.session with
    | none => c
    | some x => if x.last + 10000000000 ≤ c.now then c.modSec (fun y => { y with session := none }) else c) s

/-! ### Attestation (R440) -/

/-- Bytes 0 to 167 of the report. -/
def Core.report (c : Core) (nonce : List Byte) : List Byte :=
  let i := c.sec.img
  le 2 1 ++ le 1 c.grade ++ le 1 (c.getF SEC_STATUS.ORIGIN) ++ le 2 (u16 i 4) ++ le 2 (u16 i 6) ++ le 4 (u32 i 8)
    ++ le 1 (c.getF SEC_STATUS.BOOT_SLOT) ++ le 1 c.sec.otp.rollback ++ le 1 (c.getF DDP_STAT.LEVEL)
    ++ le 1 ((c.cfg.filter (fun e => e.2.unsigned)).length) ++ le 8 c.sec.otp.deviceId.toNat ++ le 8 c.us ++ le 6 c.wall
    ++ zeros 2 ++ le 8 c.lgr.anchor ++ fit 16 nonce ++ fit 48 (imgHash i) ++ fit 48 c.configHash
    ++ le 2 (c.reg SEC_KEYS.a).toNat ++ zeros 6

/-- R440: ATTEST. -/
def execAttest (m : Msg) (s : State) : Res :=
  go (fun c _ => c.command { op := 0x0610, modes := notOff, len := lenIs 20, expect := 20 } m fun cmd c =>
    match firstFail [chk 1 0 (decide (u8 cmd.p 0 < 2)), chkAt 2 (firstNonZero cmd.p 1 3)] with
    | some f => c.badField cmd.ref f
    | none =>
      if u8 cmd.p 0 = 0 then c.reply cmd.ref stDONE (Config.certificate.take 1024)
      else
        let r := c.report (cmd.p.drop 4)
        c.fresh.reply cmd.ref stDONE (r ++ c.sign r)) s

/-! ### RECOMMISSION (R441) -/

/-- A list of hashes with slot `k` programmed. -/
def putHash (l : List (List Byte)) (k : Nat) (h : List Byte) : List (List Byte) :=
  setAt k h ((List.range 4).map (fun i => l.getD i []))

/-- Whether KEY_REVOKE is refused. -/
def Core.revokeBad (c : Core) (cmd : Cmd) : Bool :=
  let kind := u8 cmd.p 1
  let k := u8 cmd.p 2
  let o := c.sec.otp
  !keyProg (if kind = 0 then o.vendorHash else o.integratorHash) k || (kind == 0 && k == 1)
    || (cmd.kind == kind && cmd.slot == k)

/-- A fuse of OTP changed. -/
def Core.modOtp (c : Core) (f : OtpImage → OtpImage) : Core := c.modSec (fun x => { x with otp := f x.otp })

/-- The reason of DENIED of a RECOMMISSION that is refused; a request for GRADE_VA always is (R2). -/
def Core.recommissionDenied (c : Core) (cmd : Cmd) : Option Nat :=
  let refused : Bool := match u8 cmd.p 0 with
    | 1 => c.grade == 1
    | 2 => u8 cmd.p 1 == 0 || keyProg c.sec.otp.integratorHash (u8 cmd.p 2)
    | _ => c.revokeBad cmd
  if u8 cmd.p 0 = 4 then some 2 else if refused then some 6 else none

/-- The functions of RECOMMISSION; that of GRADE_GA completes when its flush ends, and the reset follows (R373, R441). -/
def Core.recommission (c : Core) (cmd : Cmd) : Core :=
  let k := u8 cmd.p 2
  match u8 cmd.p 0 with
  | 1 =>
    let c1 := ((c.modOtp (fun o => { o with gradeFuses := 7, origin := true })).event SEC_EVENT.GRADE_CHANGED).raise
      .gradeChanged 0xFFFF [1] false
    c1.wantFlush (.grade cmd.ref)
  | 2 =>
    let c1 := c.modOtp (fun o => { o with integratorHash := putHash o.integratorHash k ((cmd.p.drop 12).take 48) })
    (((c1.refreshKeys).event SEC_EVENT.KEY_CHANGED).raise .keyRegistered k [k] false).done cmd.ref
  | 3 =>
    let c1 := c.modOtp (fun o =>
      if u8 cmd.p 1 = 0 then { o with vendorRevoked := BitVec.ofNat 2 (setBit o.vendorRevoked.toNat k) }
      else { o with integratorRevoked := BitVec.ofNat 4 (setBit o.integratorRevoked.toNat k) })
    (((c1.refreshKeys).event SEC_EVENT.KEY_CHANGED).raise .keyRevoked k [u8 cmd.p 1, k] false).done cmd.ref
  | _ => c

/-- The field checks of RECOMMISSION; a request for GRADE_VA writes nothing, so its other fields are not judged (R2). -/
def Core.recommissionChecks (c : Core) (p : List Byte) : Option Fail :=
  let f := u8 p 0
  firstFail
    [chk 1 0 (decide (1 ≤ f ∧ f ≤ 4)), chk 2 1 (f == 4 || decide (u8 p 1 ≤ 1)), chk 3 2 (!(f == 2) || decide (u8 p 2 < 4)),
     chkAt 4 (if f = 4 then none else firstNonZero p 3 1), chk 5 4 (decide (u64 p 4 = c.sec.otp.deviceId.toNat)),
     chk 6 12 (f == 2 || f == 4 || zeroAt p 12 48)]

/-- R441: RECOMMISSION. -/
def execRecommission (m : Msg) (s : State) : Res :=
  go (fun c _ => c.command
      { op := 0x0620, priv := true, modes := (· == .standby), sig := 2, len := lenIs 60, expect := 60 } m fun cmd c =>
    match c.recommissionChecks cmd.p with
    | some f => c.badField cmd.ref f
    | none =>
      match c.recommissionDenied cmd with
      | some r => c.denied cmd.ref r
      | none => if c.pwr.nvBad then c.nvFault cmd.ref else c.recommission cmd) s

/-! ### The debug unlock (R444) -/

/-- A challenge. -/
def Core.challengeBytes (c : Core) : List Byte :=
  fit 32 (Config.random c.free) ++ le 8 c.sec.otp.deviceId.toNat ++ le 4 c.sec.starts ++ le 1 c.mode.code.code ++ le 1 c.grade
    ++ zeros 2 ++ le 8 c.us ++ zeros 8

/-- A new challenge replaces the old one; `port`: its words can be read from DDP_AUTH. (DEDUCED log 158) -/
def Core.newChallenge (c : Core) (port : Bool) : Core :=
  c.fresh.modSec (fun x => { x with
    chal := some ⟨c.challengeBytes, c.now⟩, chalIdx := if port then 0 else 16, resp := if port then [] else x.resp })

/-- Challenges are refused after three failures. -/
def Core.lockedOut (c : Core) : Bool := c.sec.lockEnd.isSome

/-- R444: DEBUG_CHALLENGE. (DEDUCED log 158) -/
def execDebugChallenge (m : Msg) (s : State) : Res :=
  go (fun c _ => c.command { op := 0x0611, priv := true, modes := notOff, len := lenIs 0 } m fun cmd c =>
    if c.driveLock then c.badState cmd.ref
    else if c.lockedOut then c.replyW cmd.ref stBUSY []
    else (c.newChallenge false).reply cmd.ref stDONE c.challengeBytes) s

/-- The fields of a response, the echo last. (DEDUCED log 157) -/
def Core.responseFail (c : Core) (p : List Byte) : Option Fail :=
  firstFail
    [chk 1 0 (decide (u8 p 0 = 1 ∨ u8 p 0 = 2)), chkAt 2 (firstNonZero p 1 1),
     chk 3 2 (decide (1 ≤ u16 p 2 ∧ u16 p 2 ≤ 43200)), chk 4 4 ((c.sec.chal.map (·.bytes)) == some (p.drop 4))]

/-- A verified response sets its level. (DEDUCED log 159) -/
def Core.unlock (c : Core) (p : List Byte) : Core :=
  let c1 := ((c.setLevel (u8 p 0)).setF SEC_AUTH.FAILS 0).bump SEC_AUTH.UNLOCKS 1
  let c2 := c1.modSec (fun x => { x with chal := none, unlockEnd := some (c.now + u16 p 2 * 1000000000) })
  ((c2.injCheck.event SEC_EVENT.UNLOCKED).event DDP_EVENT.AUTH_DONE).raise .debugUnlocked 0xFFFF [u8 p 0, u16 p 2] false

/-- R444: DEBUG_UNLOCK. (DEDUCED log 157) -/
def execDebugUnlock (m : Msg) (s : State) : Res :=
  go (fun c _ => c.command { op := 0x0612, priv := true, modes := notOff, sig := 2, len := lenIs 68, expect := 68 } m
    fun cmd c =>
      if c.driveLock then c.badState cmd.ref
      else match c.responseFail cmd.p with
      | some f => (c.authFail).badField cmd.ref f
      | none => (c.unlock cmd.p).done cmd.ref) s

/-- R444: DEBUG_LOCK. -/
def execDebugLock (m : Msg) (s : State) : Res :=
  go (fun c _ => c.command { op := 0x0613, priv := true, modes := notOff, len := lenIs 0 } m fun cmd c =>
    c.relock.injCheck.done cmd.ref) s

/-- R444: verification of a response submitted through the port ends; it comes to nothing where the port is refused by then
(R446). -/
def execAuthVerifyDone (s : State) : Res :=
  go (fun c _ => match c.sec.submit with
    | none => c
    | some b =>
      let c1 := (c.modSec (fun x => { x with submit := none })).setF DDP_STAT.AUTH_BUSY 0
      let p := b.take 68
      let ok := decide (b.length = 288) && c.trailerOk 0x0612 p (b.drop 68)
      if c.driveLock then c1
      else if !ok then (c1.event SEC_EVENT.SIG_FAIL).authFail
      else if (c.responseFail p).isSome then c1.authFail
      else c1.unlock p) s

/-- R444: a challenge expires 60 s after its issue. -/
def execChallengeExpiry (s : State) : Res :=
  go (fun c _ =>
    if c.sec.chal.any (fun x => decide (x.issued + 60000000000 ≤ c.now)) then c.modSec (fun x => { x with chal := none })
    else c) s

/-- R444: 60 s after the third failure challenges are accepted again. -/
def execAuthLockoutEnd (s : State) : Res :=
  go (fun c _ =>
    if c.sec.lockEnd.any (fun t => decide (t ≤ c.now)) then
      ((c.modSec (fun x => { x with lockEnd := none })).setF SEC_AUTH.FAILS 0).clearCause .debugAuthFail 0xFFFF
    else c) s

/-- R444: DURATION has passed. -/
def execDebugDurationExpiry (s : State) : Res :=
  go (fun c _ => if c.sec.unlockEnd.any (fun t => decide (t ≤ c.now)) then c.relock.injCheck else c) s

end Sys2Proof.Machine
end

