-- ==== Sys2Proof/Machine/Pair.lean ====
section
/-! DEFINITION. The redundant pair and the plant (R450 to R465): authority, the pair frame, shadow control and comparison,
takeover, SYNC_IN and SYNC_OUT, IEEE 1588 time, and the pair and plant commands. -/
namespace Sys2Proof.Machine

/-! ### Configuration -/

def Core.pairP (c : Core) : List Byte := c.forceP 0x0801
def Core.plantP (c : Core) : List Byte := c.forceP 0x0810

/-- Lead role. -/
def Core.lead (c : Core) : Bool := !c.flag PAI_CTRL.ROLE

/-- Missing frames that raise PAIR_HB_LOST (R452). -/
def Core.hbMiss (c : Core) : Nat := c.getF PAI_CTRL.HB_MISS + 1

/-- Slots tracked (R461). -/
def Core.tracked (c : Core) : List Nat := (List.range 16).filter (fun j => bitOf (u16 c.pairP 12) j)

/-- Periods between SYNC_OUT pulses, delay of SYNC_IN, tolerance of Δ (R457). -/
def Core.syncDiv (c : Core) : Nat := if c.cfgInUse 0x0810 then max 64 (u16 c.plantP 4) else 4096
def Core.syncDelay (c : Core) : Nat := if c.flag PAI_CTRL.PLANT_EN then u16 c.plantP 6 else u16 c.pairP 20
def Core.offsetTol (c : Core) : Nat := if c.cfgInUse 0x0810 then u16 c.plantP 10 else 100

/-! ### Authority (R450, R451, R454) -/

/-- Every string's usable count equals the partner's. -/
def Core.sameUsable (c : Core) : Bool := c.strings.all (fun s => c.uCount s == u8 c.pair.frame (34 + 12 * s))

/-- TAKEOVER_READY (R454). -/
def Core.takeoverReady (c : Core) : Bool :=
  c.flag PAI_CTRL.PAIR_EN && c.flag PAI_LINK.UP && decide (4 ≤ c.pair.okRun) && c.flag PAI_STATUS.HASH_EQUAL && c.sameUsable && c.causesA == 0

/-- PAI_STATUS as it reads now: READY_SELF follows its conditions (R454). -/
def Core.paiStatus (c : Core) : Nat :=
  putBits (c.reg PAI_STATUS.a).toNat PAI_STATUS.READY_SELF.lo 1 (b2n c.takeoverReady)

/-- SHADOW or STANDALONE. (DEDUCED log 164) -/
def Core.setAuth (c : Core) (a : Nat) : Core :=
  (((c.setF PAI_STATUS.AUTH a).setF PAI_STATUS.AUTH_OUT 0).modPair (fun p => { p with raisedAt := none })).laneCtrl

/-- AUTHORITY: AUTH_OUT high, lanes with role 1 driving. -/
def Core.takeAuth (c : Core) : Core :=
  (((c.setF PAI_STATUS.AUTH 2).setF PAI_STATUS.AUTH_OUT 1).modPair (fun p => { p with raisedAt := some c.now })).laneCtrl

/-- R450: at READY a lead device with AUTH_IN low and the pair link UP takes authority. (DEDUCED log 164) -/
def Core.pairAtReady (c : Core) : Core :=
  let c1 := c.modPair (fun p => { p with readyAt := some c.now })
  if c.auth = 1 ∧ c.lead ∧ !c.flag PAI_STATUS.AUTH_IN ∧ c.flag PAI_LINK.UP then c1.takeAuth else c1

/-- R450: the partner is absent after READY. (DEDUCED log 164) -/
def execPairPartnerAbsent (s : State) : Res :=
  go (fun c _ =>
    let since (d : Nat) := heldFor c.pair.readyAt d c.now
    let absent := if c.lead then !c.flag PAI_LINK.UP && since 50000000
      else since 100000000 && decide (c.pair.validAt ≤ c.pair.readyAt.getD 0)
    if c.auth = 1 ∧ !c.flag PAI_STATUS.AUTH_IN ∧ absent then c.takeAuth.raise .pairPartnerAbsent 0xFFFF [] true else c) s

/-- R456: AUTH_IN fell and stayed low for 1 µs. (DEDUCED log 164) -/
def execAuthInLow (s : State) : Res :=
  go (fun c _ =>
    let fell := c.flag PAI_STATUS.AUTH_IN
    let c1 := c.setF PAI_STATUS.AUTH_IN 0
    if fell ∧ c.auth = 1 ∧ c.flag PAI_CTRL.TAKEOVER_EN then
      let ready := c.takeoverReady
      let c2 := ((c1.takeAuth.bump PAI_STATUS.TAKEOVERS 1).event PAI_EVENT.TAKEOVER).raise .pairTakeover 0xFFFF [0, c.us] true
      if ready then c2 else c2.raiseA .pairTakeoverUnready 0xFFFF []
    else c1) s

/-- The commands and the reset that a relinquishing ends with (R455, R461). -/
def Core.relinquished (c : Core) : Core :=
  match c.pair.rel with
  | none => c
  | some (_, by_, refs, _) =>
    let c1 := refs.foldl (fun a r => a.complete (some r) stDONE []) (c.modPair (fun p => { p with rel := none }))
    if by_ = 3 ∨ by_ = 4 then c1.deviceReset 2 by_ 0 else c1

/-- R450: AUTH_IN has been high for 1 µs. A lead device ignores it for 5 µs after it raised AUTH_OUT. -/
def execAuthInHigh (s : State) : Res :=
  go (fun c _ =>
    let c1 := c.setF PAI_STATUS.AUTH_IN 1
    let blind := c.lead && c.pair.raisedAt.any (fun t => decide (c.now < t + 5000))
    if c.auth = 2 ∧ !blind then
      (((c1.setAuth 1).event PAI_EVENT.AUTHORITY_LOST).raise .pairAuthorityLost 0xFFFF [] true).relinquished
    else c1) s

/-- R455: AUTH_IN is not high 1 ms after a relinquishing in place of a safe-state request; the request and the rule of R421
apply. (DEDUCED log 165) -/
def execRelinquishTimeout (s : State) : Res :=
  go (fun c _ => match c.pair.rel with
    | some (t, by_, refs, inst) =>
      if by_ = 0 ∨ c.now < t + 1000000 then c
      else
        let c1 := c.modPair (fun p => { p with rel := if refs = [] then none else some (t, 0, refs, inst) })
        let wait (nm : AlarmName) : Core :=
          ((c1.request nm).setF PWR_STATUS.RESET_PENDING 1).modPwr (fun p => { p with defer := some by_ })
        match by_ with
        | 1 => c1.request .dispatchStall
        | 2 => c1.request .controlOverrun
        | 3 => wait .watchdogExpired
        | _ => wait .hearthLockstep
    | none => c) s

/-! ### The pair frame (R452) -/

/-- A tracked slot's record; 0xFF where it is not used. (DESIGN CHOICE log 166) -/
def Core.slotFrame (c : Core) (k : Option Nat) : List Byte :=
  match k with
  | none => le 1 0xFF ++ zeros 11
  | some k =>
    let f := c.getF (CEN_SLOT_STAT.SAT k) + 4 * c.getF (CEN_SLOT_STAT.INHIBIT k) + 8 * c.getF (CEN_SLOT_STAT.MANUAL k)
      + 16 * c.getF (CEN_SLOT_STAT.BANK k) + 32 * c.getF (CEN_SLOT_STAT.PRESET k)
    le 1 k ++ le 1 f ++ leI 2 (c.slotU k) ++ leI 2 (c.dPrev k) ++ leI 5 (c.slotI k) ++ zeros 1

/-- A string's record: [0] SIGN, [2:1] DIR; N, u_s, HELD, F_RAW, CARRY. (DESIGN CHOICE log 166) -/
def Core.strFrame (c : Core) (s : Nat) : List Byte :=
  le 1 (c.getF (DSP_STR_RESULT.SIGN s) + 2 * c.getF (DSP_STR_RESULT.DIR s)) ++ le 1 (c.getF (DSP_STR_RESULT.N s))
    ++ le 1 (c.uCount s) ++ le 1 (c.getF (DSP_STR_RESULT.HELD s)) ++ le 2 (c.getF (DSP_STR_RESULT.F_RAW s)) ++ zeros 2
    ++ leI 4 (c.getI (MOD_STR_CARRY.CARRY s))

/-- OBS, PLS and RATE state. (DESIGN CHOICE log 166) -/
def Core.engineFrame (c : Core) : List Byte :=
  let x := c.ctl
  let y (k : Nat) : Int := (mapGet (fun _ => none) x.yPrev k).getD 0
  leI 5 x.lamA ++ leI 5 x.lamB ++ leI 5 x.wAcc ++ le 2 x.th ++ leI 2 x.va ++ leI 2 x.vb ++ leI 2 x.vdp ++ leI 2 x.vqp
    ++ leI 2 x.idp ++ leI 2 x.iqp ++ le 2 (c.getF CEN_PLS.RINT) ++ leI 2 (y 4) ++ leI 2 (y 6) ++ leI 2 (y 7) ++ zeros 3

/-- Docking state. (DESIGN CHOICE log 166) -/
def Core.dockFrame (c : Core) : List Byte :=
  let d := c.dok
  le 1 (c.getF DOK_STATUS.STATE) ++ le 1 (b2n (decide (d.dir < 0))) ++ le 1 (c.getF DOK_STATUS.HOMED) ++ zeros 1
    ++ leI 8 d.v ++ leI 8 d.p ++ leI 8 d.t ++ leI 8 d.offset ++ leI 8 d.slewLeft ++ zeros 4

/-- Bytes 0 to 635. (DESIGN CHOICE log 166) -/
def Core.frameBody (c : Core) : List Byte :=
  let slots := c.tracked.map some ++ List.replicate (16 - c.tracked.length) none
  let sig := [0x40, 0x41, 0x42, 0x43, 0x15, 0x16]
  let bitmap := flagMap 128 (fun n => c.excludedAt n (c.modu.period + 1))
  let usable := ((c.strings.map (fun s => (c.usableOf s (c.modu.period + 1)).length)).foldl (· + ·) 0)
  let lanes := ((List.range 128).filter (fun l => c.laneState l == 2)).length
  le 2 0x5046 ++ le 1 (c.getF PAI_CTRL.ROLE) ++ le 1 c.auth ++ le 4 c.modu.period
    ++ le 1 c.mode.code.code ++ le 1 c.mode.sub ++ le 1 c.modu.modeNext
    ++ le 1 (b2n c.takeoverReady + 2 * b2n (decide (0 < c.causesA))) ++ c.configHash.take 8 ++ zeros 12
    ++ (List.range 6).flatMap c.strFrame
    ++ le 1 (c.getF DSP_STATUS.ROT) ++ le 1 (c.getF DSP_STICKY.STICKY) ++ zeros 2
    ++ sig.flatMap (fun e => leI 2 (c.sigRaw e)) ++ (List.range 32).flatMap (fun j => leI 2 (c.sigRaw (0x60 + j)))
    ++ slots.flatMap c.slotFrame ++ c.engineFrame ++ (List.range 128).flatMap (fun n => le 1 (c.getF (DSP_C_KEY.RANK n)))
    ++ le 16 bitmap ++ c.dockFrame ++ le 2 usable ++ le 2 lanes ++ le 2 c.unackedA ++ zeros 10 ++ zeros 12

/-- The frame. (DESIGN CHOICE log 166) -/
def Core.pairFrameBytes (c : Core) : List Byte :=
  let b := c.frameBody
  b ++ le 4 (crc32 b)

/-- R452, R463: one frame a period, from the commit deadline; the injector drops or delays it while R98
permits it. -/
def Core.pairSend (c : Core) : Core :=
  if !c.flag PAI_CTRL.PAIR_EN then c
  else
    let out (d : Nat) : Core := c.send ⟨8, d, 0, c.pairFrameBytes⟩
    match c.injectable, c.pair.inj with
    | false, _ | true, none => out 0
    | true, some (kind, left, d) =>
      let c1 := if kind = 2 then out d else c
      if left = 0 then c1
      else c1.modPair (fun p => { p with inj := if left = 1 then none else some (kind, left - 1, d) })

/-- A frame that stands: its length, MAGIC and CRC-32. (DESIGN CHOICE log 166) -/
def frameOk (f : List Byte) : Bool :=
  f.length == 640 && u16 f 0 == 0x5046 && u32 f 636 == crc32 (f.take 636)

/-- PARTNER_ID (R461). -/
def Core.partnerId (c : Core) : Nat := uN 8 c.pairP 4

/-- R452: a frame arrives from a device while the link is UP. One that fails its CRC, that comes after data-ready, or that
another device than PARTNER_ID sent (R461) is missing. (DEDUCED log 173; DESIGN CHOICE log 210) -/
def execPairFrame (x : PairRx) (s : State) : Res :=
  go (fun c _ =>
    let f := x.bytes
    let late := c.modu.stage == 2 || c.modu.stage == 3
    if c.flag PAI_CTRL.PAIR_EN ∧ c.flag PAI_LINK.UP ∧ frameOk f ∧ !late ∧ x.sender.toNat = c.partnerId then
      let c1 := c.modPair (fun p => { p with frame := f, got := true, missRun := 0, validAt := c.now })
      let c2 := c1.setFlag PAI_STATUS.READY_PARTNER (bitOf (u8 f 11) 0)
      (c2.setFlag PAI_STATUS.HASH_EQUAL ((f.drop 12).take 8 == c.configHash.take 8)).clearCause .pairHbLost 0xFFFF
    else c) s

/-! ### Comparison (R454) -/

/-- The shadow's references, levels and remainders differ from the partner's. (DEDUCED log 167) -/
def Core.pairDiffers (c : Core) : Bool :=
  let f := c.pair.frame
  let p := c.pairP
  let far (a b : Int) (d : Nat) : Bool := decide (d < (a - b).natAbs)
  [0, 1, 2].any (fun j => far (c.sigRaw (0x40 + j)) (i16 f (108 + 2 * j)) (u8 p 14))
    || far (c.sigRaw 0x43) (i16 f 114) (u8 p 15)
    || c.strings.any (fun s => far (c.getF (DSP_STR_RESULT.N s)) (u8 f (33 + 12 * s)) 1
        || far (c.getF (DSP_STR_RESULT.F_RAW s)) (u16 f (36 + 12 * s)) (u8 p 16))

/-- At data-ready the frame of the period is there or missing (R452), and a shadow compares (R454). -/
def Core.pairReady (c : Core) : Core :=
  if !c.flag PAI_CTRL.PAIR_EN then c
  else
    let c1 := if c.pair.got then c.modPair (fun p => { p with got := false, held := true, okRun := p.okRun + 1 })
      else (c.bump PAI_LINK.MISSING 1).modPair (fun p => { p with held := false, okRun := 0, missRun := p.missRun + 1 })
    let cmp := c.auth == 1 && c.pair.got
    let c2 := if cmp then
        (if c.pairDiffers then c1.modPair (fun p => { p with cmpRun := p.cmpRun + 1 })
         else (c1.modPair (fun p => { p with cmpRun := 0 })).clearCause .pairDisagree 0xFFFF)
      else c1
    c2

/-- R452: HB_MISS consecutive frames were missing. (DEDUCED log 164) -/
def execPairHbLost (s : State) : Res :=
  go (fun c _ =>
    if c.flag PAI_CTRL.PAIR_EN ∧ c.hbMiss ≤ c.pair.missRun ∧ !c.causeOn .pairHbLost 0xFFFF then
      (c.event PAI_EVENT.HB_LOST).raise .pairHbLost 0xFFFF [c.pair.missRun] true
    else c) s

/-- R454: CMP_N consecutive periods differed. -/
def execPairDisagree (s : State) : Res :=
  go (fun c _ =>
    if c.auth = 1 ∧ 0 < c.pair.cmpRun ∧ u8 c.pairP 17 ≤ c.pair.cmpRun ∧ !c.causeOn .pairDisagree 0xFFFF then
      (c.event PAI_EVENT.DISAGREE).raise .pairDisagree 0xFFFF [c.pair.cmpRun] true
    else c) s

/-! ### The link's lanes (R452) -/

/-- UP follows the VALID lanes. (DEDUCED log 173) -/
def Core.pairUp (c : Core) : Core := c.setFlag PAI_LINK.UP (decide (2 ≤ popcount 4 (c.getF PAI_LINK.VALID)))

/-- R452: a lane becomes VALID or stops being VALID. -/
def execPairLaneValid (lane : Fin 4) (valid : Bool) (s : State) : Res :=
  go (fun c _ =>
    if c.getBit PAI_LINK.FAULTY lane then c else (c.putBit PAI_LINK.VALID lane valid).pairUp) s

/-- R452: a lane's error window exceeds 64. -/
def execPairLaneFaulty (lane : Fin 4) (s : State) : Res :=
  go (fun c _ =>
    if c.getBit PAI_LINK.FAULTY lane then c
    else
      let c1 := ((c.putBit PAI_LINK.VALID lane false).putBit PAI_LINK.FAULTY lane true).pairUp
      ((c1.event PAI_EVENT.LANE_FAULTY).raise .pairLaneFaulty lane [lane] true).charEntry 4 lane 4 0 []) s

/-! ### Shadow control (R453) -/

/-- A slot takes its record. -/
def Core.loadSlotRec (c : Core) (r : List Byte) : Core :=
  let k := u8 r 0
  let f := u8 r 1
  if 64 ≤ k then c
  else
    let c1 := ((c.setI (CEN_SLOT_OUT.U k) (i16 r 2)).setDPrev k (i16 r 4)).setSlotI k (toS 40 (uN 5 r 6))
    let c2 := ((c1.setF (CEN_SLOT_STAT.SAT k) f).setF (CEN_SLOT_STAT.INHIBIT k) (f / 4)).setF (CEN_SLOT_STAT.MANUAL k) (f / 8)
    (c2.setF (CEN_SLOT_STAT.BANK k) (f / 16)).setF (CEN_SLOT_STAT.PRESET k) (f / 32)

/-- OBS, PLS and RATE state. -/
def Core.loadEngine (c : Core) (r : List Byte) : Core :=
  let x := c.ctl
  let y (m : SMap (Option Int)) (k : Nat) (v : Int) := mapSet (fun _ => none) m k (some v)
  let c1 := { c with ctl := { x with
    lamA := toS 40 (uN 5 r 0), lamB := toS 40 (uN 5 r 5), wAcc := toS 40 (uN 5 r 10), th := u16 r 15, va := i16 r 17
    vb := i16 r 19, vdp := i16 r 21, vqp := i16 r 23, idp := i16 r 25, iqp := i16 r 27
    yPrev := y (y (y x.yPrev 4 (i16 r 31)) 6 (i16 r 33)) 7 (i16 r 35) } }
  c1.setF CEN_PLS.RINT (u16 r 29)

/-- A string's order, incumbents, hold and carry. -/
def Core.loadString (c : Core) (f : List Byte) (s : Nat) : Core :=
  let rk (n : Nat) : Nat := u8 f (416 + n)
  let l := (c.members s).filter (fun n => decide (0 < rk n ∧ rk n < 64))
  let order := (sortBy (fun a b => decide (a.1 ≤ b.1)) (l.map (fun n => (rk n, n)))).map (·.2)
  let d := c.dstr s
  let b := u8 f (32 + 12 * s)
  let n := u8 f (33 + 12 * s)
  let held := u8 f (35 + 12 * s)
  let mode := u8 f 10
  let c1 := c.setDstr s { d with
    sgn := if b % 2 = 1 then -1 else 1, dir := b / 2 % 4, rank := order
    gave := order.take (n + c.pEff s mode n order.length), held := if held = 0 then 0 else max 1 d.held }
  c1.setI (MOD_STR_CARRY.CARRY s) (i32 f (40 + 12 * s))

/-- A cell's exclusion. -/
def Core.loadExcluded (c : Core) (f : List Byte) (n : Nat) : Core :=
  let on := bitOf (u8 f (544 + n / 8)) (n % 8)
  let q := c.modu.period
  if on then c.modCell n (fun x => { x with exclSince := some (x.exclSince.getD q), excl := some (max (x.excl.getD 0) (q + 2)) })
  else if (c.cell n).excl.isSome then c.modCell n (fun x => { x with excl := none, exclSince := none })
  else c

/-- Docking state. -/
def Core.loadDocking (c : Core) (r : List Byte) : Core :=
  let c1 := c.modDok (fun d => { d with
    dir := if u8 r 1 = 1 then -1 else 1, v := i64 r 4, p := i64 r 12, t := i64 r 20, offset := i64 r 28
    slewLeft := i64 r 36 })
  ((c1.setF DOK_STATUS.STATE (u8 r 0)).setF DOK_STATUS.HOMED (u8 r 2)).setF DOK_STATUS.DIR (u8 r 1)

/-- Mode and SAFE sub-state mirror the partner's frame. (DEDUCED log 167) -/
def Core.mirrorMode (c : Core) (f : List Byte) : Core :=
  match Mode.ofCode (u8 f 8) with
  | none => c
  | some t =>
    if t = .off ∨ c.mode.code = .off ∨ (t = c.mode.code ∧ u8 f 9 = c.mode.sub) then c
    else
      let c1 := if t = c.mode.code then c else c.setMode t
      let c2 := { c1 with mode := { c1.mode with sub := u8 f 9 } }
      if t = .drive then c2.enterPhase 6 c2.bestSource else c2.enterPhase 0 0

/-- R453: at a period start a shadow loads the partner's frame. (DEDUCED log 167) -/
def Core.pairLoad (c : Core) : Core :=
  if c.auth ≠ 1 ∨ !(c.pair.got || c.pair.held) then c
  else
    let f := c.pair.frame
    let c1 := (List.range 16).foldl (fun a j => a.loadSlotRec ((f.drop (184 + 12 * j)).take 12)) (c.mirrorMode f)
    let c2 := c1.loadEngine ((f.drop 376).take 40)
    let c3 := (c2.setF DSP_STATUS.ROT (u8 f 104)).setF DSP_STICKY.STICKY (u8 f 105)
    let c4 := c3.strings.foldl (fun a s => a.loadString f s) c3
    let c5 := c4.mappedCells.foldl (fun a n => a.loadExcluded f n) c4
    let c6 := (List.range 32).foldl (fun a j => a.sigWrite (0x60 + j) (i16 f (120 + 2 * j))) c5
    c6.loadDocking ((f.drop 560).take 48)

/-! ### SYNC_IN and SYNC_OUT (R457, R458) -/

/-- Every device of a plant and both of a pair emit SYNC_OUT. -/
def Core.syncOut (c : Core) : Core :=
  if (c.flag PAI_CTRL.PAIR_EN || c.flag PAI_CTRL.PLANT_EN) && c.modu.period % c.syncDiv == 0 then
    c.modPair (fun p => { p with syncOut := some c.modu.start })
  else c

/-- Δ of an edge at a count of the time base. -/
def Core.syncDelta (c : Core) (t : Nat) : Int :=
  let tc : Int := c.tc
  let r := ((t : Int) - c.syncDelay) % tc
  if 2 * r ≤ tc then r else r - tc

/-- PLANT_SLEW (R457). (DEDUCED log 211) -/
def Core.plantSlew (c : Core) : Nat := if c.cfgInUse 0x0810 then u16 c.plantP 8 else 1000

/-- R457: while |Δ| > 2 ns the phase slew toward Δ = 0 is requested, from now on at PLANT_SLEW. (DEDUCED log 211) -/
def Core.askSlew (c : Core) (d : Int) : Core :=
  c.modPair (fun p => { p with slew := if 2 < d.natAbs then some (d, c.plantSlew, c.now) else none })

/-- R457: a rising edge of SYNC_IN, with the time base at the edge. Not measured while PLL_M is not LOCKED (R458). -/
def execSyncInEdge (t : Nat) (s : State) : Res :=
  go (fun c _ =>
    if !c.flag PAI_CTRL.SYNC_FOLLOW then c
    else
      let c1 := (c.modPair (fun p => { p with edgeAt := some t })).clearCause .syncLost 0xFFFF
      if c.pll 1 ≠ pllLOCKED then c1
      else
        let d := c.syncDelta t
        let c2 := (c1.setI PAI_SYNC.DELTA d).askSlew d
        if d.natAbs ≤ c.offsetTol then (c2.setF PAI_STATUS.ALIGNED 1).clearCause .plantUnaligned 0xFFFF
        else
          let c3 := (c2.setF PAI_STATUS.ALIGNED 0).event PAI_EVENT.UNALIGNED
          if c.causeOn .plantUnaligned 0xFFFF then c3 else c3.raise .plantUnaligned 0xFFFF [dI d] true) s

/-- R458: no edge for 2 × SYNC_DIV periods; the device keeps its phase. (DEDUCED log 171) -/
def execSyncLost (s : State) : Res :=
  go (fun c _ =>
    if c.flag PAI_CTRL.SYNC_FOLLOW && heldFor c.pair.edgeAt (2 * c.syncDiv * c.tc) c.now && !c.causeOn .syncLost 0xFFFF then
      ((c.event PAI_EVENT.SYNC_LOST).raise .syncLost 0xFFFF [] true).modPair (fun p => { p with slew := none })
    else c) s

/-! ### IEEE 1588 (R345, R459) -/

/-- The plant-time offset P. -/
def Core.plantP64 (c : Core) : Int := toS 64 (c.getF PAI_P_LO.P + 2 ^ 32 * c.getF PAI_P_HI.P)

def Core.setPlantP (c : Core) (p : Int) : Core :=
  let w := ofS 64 p
  (c.setF PAI_P_LO.P (w % 2 ^ 32)).setF PAI_P_HI.P (w / 2 ^ 32)

/-- Plant time now. -/
def Core.plantTime (c : Core) : Int := c.now + c.plantP64

/-- The resolution of a timestamp is 4 ns. (PRESUMED log 170) -/
def stamp (t : Int) : Int := t / 4 * 4

/-- A message of the engine: type (0 Sync, 1 Delay_Req, 8 Follow_Up, 9 Delay_Resp), domain, sequence, timestamp.
(PRESUMED log 170) -/
def Core.ptpMsg (c : Core) (type seq : Nat) (t : Int) : Core :=
  let port := clampN 1 2 (u8 c.plantP 14)
  c.send ⟨port, 0, if type < 8 then 319 else 320, le 1 type ++ le 1 (u8 c.plantP 12) ++ le 2 seq ++ leI 8 t⟩

/-- Time between Syncs, ns. -/
def Core.syncInterval (c : Core) : Nat := 1000000000 * 2 ^ (-(toS 8 (u8 c.plantP 13))).toNat

/-- The engine runs as master or as slave; no frame moves while the SGMII ports are down on the bypass clock (R29). -/
def Core.ptpMaster (c : Core) : Bool := c.flag PAI_CTRL.PLANT_EN && c.flag PAI_CTRL.TIME_MASTER && !c.onBypass 9
def Core.ptpSlave (c : Core) : Bool := c.flag PAI_CTRL.PLANT_EN && !c.flag PAI_CTRL.TIME_MASTER && !c.onBypass 9

/-- R459: the master sends Sync and its Follow_Up. -/
def execPtpSyncSend (s : State) : Res :=
  go (fun c _ =>
    if c.ptpMaster && decide (c.pair.ptpNext ≤ c.now) then
      let n := c.pair.ptpSeq
      ((c.ptpMsg 0 n 0).ptpMsg 8 n (stamp c.plantTime)).modPair (fun p => { p with
        ptpSeq := (n + 1) % 65536, ptpNext := c.now + c.syncInterval })
    else c) s

/-- P moves toward the master: by at most 1 µs, or at once where more remains. (DEDUCED log 169; PRESUMED log 170) -/
def Core.moveP (c : Core) (off : Int) : Core :=
  let step := clampI (-1000) 1000 off
  let rest := off - step
  if 1000 < rest.natAbs then
    ((c.setPlantP (c.plantP64 - off)).event PAI_EVENT.PTP_STEP).raise .ptpStep 0xFFFF [dI off] false
  else c.setPlantP (c.plantP64 - step)

/-- A complete Sync: origin and corrected ingress (time base); the slave moves P and asks for the path delay.
(DEDUCED log 169) -/
def Core.syncPair (c : Core) (seq origin : Nat) (ingress corr : Int) : Core :=
  let off := ingress + c.plantP64 - origin - corr - c.pair.delay
  let c1 := (c.moveP off).setF PAI_STATUS.PTP 2
  let c2 := c1.modPair (fun p => { p with
    sync := none, pairT := some ((origin : Int) + corr |>.toNat, ingress.toNat), delayReq := some (seq, (stamp c.now).toNat) })
  c2.ptpMsg 1 seq 0

/-- R459: a slave receives Sync. (PRESUMED log 170) -/
def execPtpSyncReceive (m : PtpMsg) (s : State) : Res :=
  go (fun c _ =>
    if !c.ptpSlave || m.domain.toNat != u8 c.plantP 12 then c
    else if m.twoStep then c.modPair (fun p => { p with sync := some (m.seq.toNat, m.ingress, m.correction) })
    else c.syncPair m.seq.toNat m.origin m.ingress m.correction) s

/-- R459: a slave receives the Follow_Up of a Sync. -/
def execPtpFollowUpReceive (m : PtpMsg) (s : State) : Res :=
  go (fun c _ => match c.pair.sync with
    | none => c
    | some (seq, ing, corr) =>
      if c.ptpSlave && m.domain.toNat == u8 c.plantP 12 && seq == m.seq.toNat then
        c.syncPair seq m.origin ing (corr + m.correction)
      else c) s

/-- R459: the master answers a Delay_Req with its time of reception. -/
def execPtpDelayReqReceive (m : PtpMsg) (s : State) : Res :=
  go (fun c _ =>
    if c.ptpMaster && m.domain.toNat == u8 c.plantP 12 then c.ptpMsg 9 m.seq.toNat (stamp (m.ingress + c.plantP64))
    else c) s

/-- R459: a slave receives Delay_Resp; the mean path delay is ((t2 − t1) + (t4 − t3)) / 2. (PRESUMED log 170) -/
def execPtpDelayRespReceive (m : PtpMsg) (s : State) : Res :=
  go (fun c _ => match c.pair.delayReq, c.pair.pairT with
    | some (seq, t3), some (t1, t2) =>
      if c.ptpSlave && m.domain.toNat == u8 c.plantP 12 && seq == m.seq.toNat then
        let d : Int := ((t2 : Int) - t1) + ((m.origin : Int) - m.correction - t3)
        c.modPair (fun p => { p with delay := d / 2, delayReq := none })
      else c
    | _, _ => c) s

/-! ### Commands (R461 to R463) -/

/-- The fields of PAIR_SET. -/
def pairChecks (p : List Byte) : Option Fail :=
  firstFail
    [chk 1 0 (decide (u8 p 0 ≤ 1)), chk 2 1 (decide (u8 p 1 ≤ 1)), chk 3 2 (decide (u8 p 2 ≤ 1)),
     chk 4 3 (decide (1 ≤ u8 p 3 ∧ u8 p 3 ≤ 16)), chk 10 17 (decide (1 ≤ u8 p 17)), chkAt 11 (firstNonZero p 18 2),
     chkAt 13 (firstNonZero p 22 2)]

/-- R461: PAIR_SET; one that changes EN only in STANDBY. -/
def execPairSet (m : Msg) (s : State) : Res :=
  go (fun c _ => c.command { setSpec 0x0801 24 with grade := some 0 } m fun cmd c =>
    if c.mode.code ≠ .standby ∧ u8 cmd.p 0 ≠ c.getF PAI_CTRL.PAIR_EN then c.badState cmd.ref
    else c.configure cmd (pairChecks cmd.p)) s

/-- A PAIR_SET payload takes effect (R450, R461); a GA device has no pair function, so that a record kept over its
re-commissioning has no effect (R1, R3). (DEDUCED log 169) -/
def Core.loadPair (c : Core) (p : List Byte) : Core :=
  if c.grade = 1 then c
  else
    let was := c.flag PAI_CTRL.PAIR_EN
    let c1 := ((c.setF PAI_CTRL.PAIR_EN (u8 p 0)).setF PAI_CTRL.ROLE (u8 p 1)).setF PAI_CTRL.TAKEOVER_EN (u8 p 2)
    let c2 := c1.setF PAI_CTRL.HB_MISS (u8 p 3 - 1)
    if u8 p 0 = 1 ∧ !was then c2.setAuth 1
    else if u8 p 0 = 0 ∧ was then (c2.setAuth 0).modPair (fun x => { Pair.reset with
      plant := x.plant, ptpSeq := x.ptpSeq, ptpNext := x.ptpNext, edgeAt := x.edgeAt, slew := x.slew })
    else c2

/-- The fields of PLANT_SET. -/
def plantChecks (p : List Byte) : Option Fail :=
  let log := toS 8 (u8 p 13)
  firstFail
    [chk 1 0 (decide (u8 p 0 ≤ 1)), chk 2 1 (decide (u8 p 1 ≤ 3)), chk 3 2 (decide (u16 p 2 ≤ 1023)),
     chk 4 4 (decide (64 ≤ u16 p 4)), chk 6 8 (decide (1 ≤ u16 p 8 ∧ u16 p 8 ≤ 1000)),
     chk 7 10 (decide (10 ≤ u16 p 10 ∧ u16 p 10 ≤ 10000)), chk 8 12 (decide (u8 p 12 ≤ 127)),
     chk 9 13 (decide (-4 ≤ log ∧ log ≤ 0)), chk 10 14 (decide (1 ≤ u8 p 14 ∧ u8 p 14 ≤ 2)), chkAt 11 (firstNonZero p 15 9)]

/-- R461: PLANT_SET. -/
def execPlantSet (m : Msg) (s : State) : Res :=
  go (fun c _ => c.command { setSpec 0x0810 24 with grade := some 1 } m fun cmd c =>
    c.configure cmd (plantChecks cmd.p)) s

/-- A PLANT_SET payload takes effect (R457, R459, R460). (DEDUCED log 169, 171) -/
def Core.loadPlant (c : Core) (p : List Byte) : Core :=
  let en := u8 p 0
  let c1 := ((c.setF PAI_CTRL.PLANT_EN en).setF PAI_CTRL.TIME_MASTER (u8 p 1)).setF PAI_CTRL.SYNC_FOLLOW (u8 p 1 / 2)
  let c2 := (c1.setF PAI_CTRL.INDEX (u16 p 2)).setF PAI_STATUS.PTP (if en = 0 then 0 else if u8 p 1 % 2 = 1 then 3 else 1)
  c2.modPair (fun x => { x with
    edgeAt := if u8 p 1 / 2 = 1 then some c.now else none, slew := none, sync := none, pairT := none, delayReq := none, delay := 0
    ptpNext := c.now })

/-- The PAI_ registers from PAI_STATUS to PAI_P_HI. -/
def Core.paiWords (c : Core) : List Nat :=
  c.paiStatus :: [PAI_EVENT.a, PAI_LINK.a, PAI_SYNC.a, PAI_P_LO.a, PAI_P_HI.a].map (fun a => (c.reg a).toNat)

/-- R461: PAIR_STATUS. -/
def execPairStatus (m : Msg) (s : State) : Res :=
  go (fun c _ => c.command { getSpec 0x0802 with grade := some 0 } m fun cmd c => c.replyW cmd.ref stDONE c.paiWords) s

/-- R461: PLANT_STATUS. -/
def execPlantStatus (m : Msg) (s : State) : Res :=
  go (fun c _ => c.command { getSpec 0x0811 with grade := some 1 } m fun cmd c => c.replyW cmd.ref stDONE c.paiWords) s

/-- R461: PAIR_TAKEOVER; it runs until AUTH_IN has been high for 1 µs. (DEDUCED log 171) -/
def execPairTakeover (m : Msg) (s : State) : Res :=
  go (fun c _ => c.command { op := 0x0803, grade := some 0, modes := notOff, len := lenIs 0 } m fun cmd c =>
    match c.pair.rel with
    | none => if c.canRelinquish then c.relinquish 0 [cmd.ref] 0 else c.badState cmd.ref
    | some (t, by_, refs, inst) =>
      if c.auth = 2 ∧ c.flag PAI_STATUS.READY_PARTNER then
        c.modPair (fun p => { p with rel := some (t, by_, refs ++ [cmd.ref], inst) })
      else c.badState cmd.ref) s

/-- R462: PLANT_COMMAND. -/
def execPlantCommand (m : Msg) (s : State) : Res :=
  go (fun c _ => c.command { op := 0x0812, grade := some 1, modes := notOff, len := lenIs 24, expect := 24 } m fun cmd c =>
    let at_ := i64 cmd.p 0
    let now := c.plantTime
    let act := u8 cmd.p 8
    if c.getF PAI_STATUS.PTP < 2 then c.badState cmd.ref
    else match firstFail
      [chk 1 0 (decide (now - 1000000000 ≤ at_ ∧ at_ ≤ now + 3600000000000)), chk 2 8 (decide (act = 1 ∨ act = 2)),
       chkAt 3 (firstNonZero cmd.p 9 3)] with
    | some f => c.badField cmd.ref f
    | none =>
      if c.pair.plant.isSome then c.replyW cmd.ref stBUSY []
      else (c.replyW cmd.ref stACCEPTED []).modPair (fun p => { p with
        plant := some (cmd.ref, at_, act, (cmd.p.drop 12).take 12) })) s

/-- R462: at the first period start at or after AT in plant time the action is applied under its own rules. -/
def execPlantCommandDue (s : State) : Res :=
  go (fun c _ => match c.pair.plant with
    | none => c
    | some (ref, at_, act, arg) =>
      if (c.modu.start : Int) + c.plantP64 < at_ then c
      else
        let c1 := c.modPair (fun p => { p with plant := none })
        if act = 1 then c1.modeSet ref arg else c1.loopInput ref ([1, 0, 0, 0] ++ arg)) s

/-- R463: PAIR_INJECT. (DEDUCED log 172) -/
def execPairInject (m : Msg) (s : State) : Res :=
  go (fun c _ => c.command { op := 0x0721, grade := some 0, modes := notOff, len := lenIs 8, expect := 8 } m fun cmd c =>
    let k := u8 cmd.p 0
    if !c.injectable then c.denied cmd.ref 4
    else match firstFail [chk 1 0 (decide (k < 3)), chkAt 2 (firstNonZero cmd.p 1 1),
      chk 4 4 (decide (u32 cmd.p 4 ≤ 100000))] with
    | some f => c.badField cmd.ref f
    | none =>
      (c.modPair (fun p => { p with inj := if k = 0 then none else some (k, u16 cmd.p 2, u32 cmd.p 4) })).done cmd.ref) s

end Sys2Proof.Machine
end

