-- ==== Sys2Proof/Machine/Meter.lean ====
section
/-! DEFINITION. The ledger's running work: the integration of a period (R364 to R366), the temperature histogram (R370),
the writes of LGR_CTRL (R382), and LEDGER_IMPORT (R381). -/
namespace Sys2Proof.Machine

/-! ### Integration (R365, R366) -/

/-- A contribution of one sign: total and residue, with the modulus of the residue. -/
def addRes (total res x m : Nat) : Nat × Nat := ((total + (res + x) / m) % 2 ^ 64, (res + x) % m)

/-- Energy `p` (fJ / 255) and charge `q` (pC / 255) of one class enter the accumulators. -/
def accumulate (e : List Nat) (p q : Int) : List Nat :=
  let put (e : List Nat) (i r : Nat) (x : Int) (m : Nat) : List Nat :=
    let t := addRes (e.getD i 0) (e.getD r 0) x.toNat m
    setAt r t.2 (setAt i t.1 e)
  let me := 255 * 10 ^ 9
  let mq := 255 * 10 ^ 6
  put (put (put (put e 0 2 p me) 1 3 (-p) me) 4 6 q mq) 5 7 (-q) mq

/-- One class of a cell's period. -/
def Core.addClass (c : Core) (n : Nat) (e : List Nat) (k : Int) (x : Nat × Nat × Nat) : List Nat :=
  if x.1 = 0 then e
  else
    let fv := c.vScale n
    let fi := c.iScale n
    let v := periodMean fv.1 fv.2.1 fv.2.2 x.2.1 x.1
    let i := periodMean fi.1 fi.2.1 fi.2.2 x.2.2 x.1
    accumulate e (k * v * i * x.1 * 2048) (k * i * x.1 * 2048)

/-- One cell of the period that ended; a period whose values were not delivered adds nothing and is counted.
(DEDUCED log 128) -/
def Core.integrateCell (c : Core) (n : Nat) : Core :=
  let a := c.ledAcc n
  let r := c.ledRec n
  let sat (x : Nat) := min (x + 1) (2 ^ 32 - 1)
  let clear (a : LedAcc) : LedAcc := { a with got := false, suspect := false, cls := LedAcc.reset.cls }
  if a.got then
    let e := c.addClass n (c.addClass n a.e 1 (a.cls.getD 0 (0, 0, 0))) (-1) (a.cls.getD 1 (0, 0, 0))
    let c1 := c.setLedAcc n { clear a with e := e }
    let c2 := (c1.setFlag (LGR_C_STAT.METERED n) true).setFlag (LGR_C_STAT.SUSPECT n) a.suspect
    if a.suspect ∧ r.state ≠ 0 then c2.setLedRec n { r with suspect := sat r.suspect } else c2
  else
    let c1 := (c.setFlag (LGR_C_STAT.METERED n) false).setFlag (LGR_C_STAT.SUSPECT n) false
    let c2 := c1.setLedAcc n (clear a)
    if r.state = 1 ∨ r.state = 2 then c2.setLedRec n { r with unmetered := sat r.unmetered } else c2

/-- Every cell, while LGR_CTRL.EN is set. (DEDUCED log 128) -/
def Core.integrate (c : Core) : Core :=
  if c.flag LGR_CTRL.EN then (List.range 128).foldl Core.integrateCell c else c

/-! ### The temperature histogram (R370) -/

/-- The histogram entry of a temperature in 0.01 °C. -/
def tempBin (t : Int) : Nat := if t < -2000 then 0 else if 5000 ≤ t then 15 else (1 + (t + 2000) / 500).toNat

/-- R370: once per second each record counts its cell's temperature, or that it has none. -/
def execTempHistogramTick (s : State) : Res :=
  go (fun c _ =>
    (c.lgr.recs.map (·.1)).eraseDups.foldl (fun a n =>
      let r := a.ledRec n
      let inc (x : Nat) := (x + 1) % 2 ^ 32
      if r.state ≠ 1 ∧ r.state ≠ 2 then a
      else match a.tempC n with
        | some t =>
          let b := tempBin t
          a.setLedRec n { r with tempS := setAt b (inc (r.tempS.getD b 0)) r.tempS }
        | none => a.setLedRec n { r with tempMissing := inc r.tempMissing }) c) s

/-! ### LGR_CTRL (R382) -/

/-- R382: a write of 1 to SNAP; the snapshot is taken at the next period start. -/
def execLgrSnap (s : State) : Res := go (fun c _ => c.addShadow .snap) s

/-- R373: a write of 1 to FLUSH. -/
def execLgrFlush (s : State) : Res := go (fun c _ => c.wantFlush .event) s

/-- A write of a cell's accumulator registers while EN = 0: the accumulators take what the registers hold. -/
def Core.accFromRegs (c : Core) (n : Nat) : Core :=
  let r (a : Nat) := (c.reg a).toNat
  let two (lo hi : Nat) := r lo + 2 ^ 32 * r hi
  c.setLedAcc n { c.ledAcc n with e :=
    [two (LGR_C_E_OUT_LO.a n) (LGR_C_E_OUT_HI.a n), two (LGR_C_E_IN_LO.a n) (LGR_C_E_IN_HI.a n),
     two (LGR_C_E_OUT_RES_LO.a n) (LGR_C_E_OUT_RES_HI.a n), two (LGR_C_E_IN_RES_LO.a n) (LGR_C_E_IN_RES_HI.a n),
     two (LGR_C_Q_OUT_LO.a n) (LGR_C_Q_OUT_HI.a n), two (LGR_C_Q_IN_LO.a n) (LGR_C_Q_IN_HI.a n),
     r (LGR_C_Q_OUT_RES.a n), r (LGR_C_Q_IN_RES.a n)] }

/-! ### LEDGER_IMPORT (R381, R440) -/

/-- The totals of an imported record added to a record's own; the accumulators go on from the sum. -/
def LedRec.merge (r x : LedRec) (acc : List Nat) : LedRec :=
  let me := 255 * 10 ^ 9
  let mq := 255 * 10 ^ 6
  let pair (e : List Nat) (i k m : Nat) : List Nat :=
    let t := addRes (e.getD i 0 + x.e.getD i 0) (e.getD k 0) (x.e.getD k 0) m
    setAt k t.2 (setAt i t.1 e)
  let sat (a b : Nat) := min (a + b) (2 ^ 32 - 1)
  { r with
    e := pair (pair (pair (pair acc 0 2 me) 1 3 me) 4 6 mq) 5 7 mq
    tempS := r.tempS.zipWith (fun a b => (a + b) % 2 ^ 32) x.tempS
    tempMissing := (r.tempMissing + x.tempMissing) % 2 ^ 32
    suspect := sat r.suspect x.suspect, unmetered := sat r.unmetered x.unmetered
    cycleHalf := r.cycleHalf.zipWith (fun a b => (a + b) % 2 ^ 32) x.cycleHalf
    flags := setBit (clrBit r.flags 2) 0 }

/-- The map cell whose lane reports a serial. (DEDUCED log 127) -/
def Core.cellOfSerial (c : Core) (serial : Nat) : Option Nat :=
  c.mappedCells.find? (fun n => (c.lane n).serialKnown && (c.lane n).serial == serial)

/-- One record of an accepted export: its result byte. (DEDUCED log 126, 127; DESIGN CHOICE log 125) -/
def Core.importRec (c : Core) (device anchor srcTime : Nat) (x : LedRec) : Core × Byte :=
  match if x.state = 0 then none else c.cellOfSerial x.serial with
  | none => (c, 1)
  | some n =>
    let c1 := c.openRecord n x.serial
    let r := c1.ledRec n
    let again := bitOf r.flags 0 || c1.lgr.imports.any (fun i => i.serial == x.serial)
    if again && !bitOf r.flags 2 then (c, 2)
    else
      let m := r.merge x (c1.ledAcc n).e
      let m1 := if x.state = 2 then { m with state := 2 } else m
      let c2 := (c1.setLedRec n m1).setLedAcc n { c1.ledAcc n with e := m1.e }
      let i : ImportEnt := ⟨device, anchor, srcTime, c2.wall, n, x.serial⟩
      let c3 := { c2 with lgr := { c2.lgr with imports := lastN 123 (c2.lgr.imports ++ [i]) } }
      if x.state = 2 then (c3.charEntry 2 n 6 x.serial [], 3) else (c3, 0)

/-- An export that verifies: every record, then a flush, after which the command completes. -/
def Core.importAll (c : Core) (ref : CmdRef) (b : List Byte) : Core :=
  let count := u8 b 3
  let r := (List.range count).foldl (fun (p : Core × List Byte) j =>
    let q := p.1.importRec (u64 b 8) (u64 b 40) (u48 b 16) (LedRec.ofBytes ((b.drop (112 + 448 * j)).take 448))
    (q.1, p.2 ++ [q.2])) (c, [])
  (r.1.replyW ref stACCEPTED []).wantFlush (.import_ ref r.2)

/-- The signature of an export verifies under the held certificate, which carries the export's DEVICE_ID. -/
def Core.exportOk (c : Core) (cert b : List Byte) : Bool :=
  match Config.certKey c.sec.otp.caHash cert with
  | none => false
  | some (serial, key) =>
    let body := b.take (b.length - 96)
    let sg := b.drop (b.length - 96)
    serial == u64 b 8 && ecdsaVerify key (sha384 body) (beNat (sg.take 48)) (beNat (sg.drop 48))

/-- R381: LEDGER_IMPORT. -/
def execLedgerImport (m : Msg) (s : State) : Res :=
  go (fun c _ => c.command
      { op := 0x0506, priv := true, modes := (· == .standby), len := fun k => decide (4 ≤ k) } m fun cmd c =>
    let b := cmd.p.drop 4
    let kind := u8 cmd.p 0
    if !c.lgr.commissioned then c.badState cmd.ref
    else match firstFail [chk 1 0 (decide (kind ≤ 1)), chkAt 2 (firstNonZero cmd.p 1 3)] with
    | some f => c.badField cmd.ref f
    | none =>
      if kind = 0 then
        if 1024 < b.length then c.replyW cmd.ref stBAD_LENGTH [0]
        else if (Config.certKey c.sec.otp.caHash b).isNone then c.replyW cmd.ref stSIGNATURE_FAIL []
        else { c with lgr := { c.lgr with cert := some b } }.done cmd.ref
      else if b.length != 208 + 448 * u8 b 3 then c.replyW cmd.ref stBAD_LENGTH [212 + 448 * u8 b 3]
      else match c.lgr.cert with
        | none => c.badState cmd.ref
        | some x => if c.exportOk x b then c.importAll cmd.ref b else c.replyW cmd.ref stSIGNATURE_FAIL []) s

end Sys2Proof.Machine
end

