-- ==== Sys2Proof/Machine/Telemetry.lean ====
section
/-! DEFINITION. Background work and telemetry (R351, R352, R383 to R397): the scrubbers, SAR calibration, threshold
tracking, equalisation trials, wear weights, the trace, and the alarm, log, trace and telemetry commands. -/
namespace Sys2Proof.Machine

def Core.modTlm (c : Core) (f : Tlm → Tlm) : Core := { c with tlm := f c.tlm }

/-- The TELEMETRY_SET payload in force. -/
def Core.tlmP (c : Core) : List Byte := c.forceP 0x02C0

/-- UDP_PORT in force (R347). -/
def Core.udpPort (c : Core) : Nat := if c.cfgSet 0x0106 then u16 (c.cfgP 0x0106) 0 else 50712

/-! ### The alarm commands (R142, R351, R352) -/

/-- Alarms whose cause ends with their acknowledgement: the event causes of R142, MODEL_IMPLAUSIBLE (R227), and the class B
and C alarms that report a happening. (DESIGN CHOICE log 60) -/
def AlarmName.endsAtAck (n : AlarmName) : Bool :=
  n.isEvent || (match n with
    | .modelImplausible | .interlockReject | .recordDiscarded | .fwFallback | .pairTakeover | .pairAuthorityLost
    | .pairPartnerAbsent | .pairDegraded | .fwSlotDamaged | .debugAuthFail => true
    | _ => false)

/-- Acknowledgement of one ALARM_ID: the table, the result byte. (DESIGN CHOICE log 60) -/
def Core.ackAlarm (c : Core) (id : Nat) : Core × Byte :=
  match c.tlm.alarms.find? (fun a => a.id == id) with
  | none => (c, 1)
  | some a =>
    if a.acked then (c, 2)
    else
      let ends := a.name.endsAtAck
      let a1 := { a with
        acked := true, cause := a.cause && !ends, flags := if ends then [] else a.flags, unrec := 0
        recAt := if a.unrec = 0 then a.recAt else c.us }
      let c1 := if a.unrec = 0 then c else c.logAlarm a a.unrec
      let l := replaceAlarm c1.tlm.alarms a1
      let l1 := if a1.cause then l else l.filter (fun x => x.id != id)
      let c2 := (c1.modTlm (fun t => { t with alarms := l1 })).refreshAlarms
      (if a.name = .modelImplausible then c2.setF CEN_PLS.RINT 0 else c2, 0)

/-- R352: ALARM_ACK. -/
def execAlarmAck (m : Msg) (s : State) : Res :=
  go (fun c _ => c.command { op := 0x0105, modes := notOff, len := lenAny } m fun cmd c =>
    let n := u16 cmd.p 0
    if cmd.p.length ≠ 4 + 2 * n then c.replyW cmd.ref stBAD_LENGTH [4 + 2 * n]
    else match firstFail [chk 1 0 (decide (1 ≤ n ∧ n ≤ 64)), chkAt 2 (firstNonZero cmd.p 2 2)] with
    | some f => c.badField cmd.ref f
    | none =>
      let r := (List.range n).foldl (fun (p : Core × List Byte) j =>
        let q := p.1.ackAlarm (u16 cmd.p (4 + 2 * j))
        (q.1, p.2 ++ [q.2])) (c, [])
      r.1.refreshCause.reply cmd.ref stDONE r.2) s

/-- The 32 bytes of an alarm (R351). -/
def Alarm.bytes (a : Alarm) : List Byte :=
  le 2 a.id ++ le 2 a.name.code ++ le 1 a.name.cls.num ++ le 1 (b2n a.cause + 2 * b2n a.acked) ++ le 2 a.inst ++ le 4 a.occ
    ++ le 8 a.first ++ le 8 a.last ++ zeros 4

/-- R351: ALARM_LIST. -/
def execAlarmList (m : Msg) (s : State) : Res :=
  go (fun c _ => c.command { op := 0x0104, modes := notOff, len := lenIs 4, expect := 4 } m fun cmd c =>
    let mask := u8 cmd.p 2
    match firstFail [chk 2 2 (decide (mask < 8)), chkAt 3 (firstNonZero cmd.p 3 1)] with
    | some f => c.badField cmd.ref f
    | none =>
      let l := c.tlm.alarms.filter (fun a => bitOf mask a.name.cls.num)
      let r := (l.drop (u16 cmd.p 0)).take 127
      c.reply cmd.ref stDONE (le 2 l.length ++ le 2 r.length ++ r.flatMap Alarm.bytes)) s

/-! ### The event log (R392, R396) -/

/-- The reply of EVENT_LOG_READ, a skip record among its 127 where records are missing. (DEDUCED log 131) -/
def logReply (log : List LogRec) (since : Nat) : List Byte :=
  let l := log.filter (fun r => decide (since < r.serial))
  let missing (r : List LogRec) : Nat := match r.getLast? with
    | none => 0
    | some x => x.serial - since - r.length
  let long := l.take 127
  let short := l.take 126
  let lowest (r : List LogRec) : Nat := r.foldl (fun k x => if x.serial = k then k + 1 else k) (since + 1)
  let skip : LogRec := ⟨0, 0, 3, (short.headD ⟨0, 0, 0, 0, 0, 0, []⟩).time, 0xFFFF, min 65535 (missing short),
    [missing short, lowest short, 0]⟩
  let after : LogRec := (short.find? (fun x => decide (lowest short < x.serial))).getD skip
  let out := if missing long = 0 then long
    else if missing short = 0 then short
    else { skip with time := after.time } :: short
  le 2 log.length ++ le 2 out.length ++ out.flatMap LogRec.bytes

/-- R396: EVENT_LOG_READ. -/
def execEventLogRead (m : Msg) (s : State) : Res :=
  go (fun c _ => c.command { op := 0x0401, modes := notOff, len := lenIs 4, expect := 4 } m fun cmd c =>
    c.reply cmd.ref stDONE (logReply c.tlm.log (u32 cmd.p 0))) s

/-! ### The trace (R393) -/

/-- Records the ring holds. (DESIGN CHOICE log 133) -/
def Core.traceSize (c : Core) : Nat := 2 ^ (clampN 12 20 (u8 c.tlmP 1) - 4)

/-- One more record lost of a source. -/
def countLost (l : List (Nat × Nat)) (s : Nat) : List (Nat × Nat) :=
  if l.any (fun e => e.1 == s) then l.map (fun e => if e.1 = s then (s, e.2 + 1) else e) else l ++ [(s, 1)]

/-- A record enters the ring; the oldest unread one is lost when the writer overtakes the reader. (DESIGN CHOICE log 132) -/
def Core.tracePush (c : Core) (source : Nat) (data : List Byte) : Core :=
  let r : TraceRec := ⟨source, c.tlm.traceSeq, c.now % 2 ^ 32, fit 8 data⟩
  let c1 := c.modTlm (fun t => { t with traceSeq := (t.traceSeq + 1) % 65536 })
  match c1.tlm.trace with
  | [] => c1.modTlm (fun t => { t with trace := [r] })
  | o :: rest =>
    if c1.tlm.trace.length < c1.traceSize then c1.modTlm (fun t => { t with trace := t.trace ++ [r] })
    else
      let first := c1.tlm.traceLost.isEmpty
      let c2 := c1.modTlm (fun t => { t with
        trace := rest ++ [r], traceLost := countLost t.traceLost o.source
        traceSpan := (if first then o.time else t.traceSpan.1, o.time) })
      (c2.bump TLM_TRACE_GAPS.LOST 1).event TLM_EVENT.TRACE_GAP

/-- A record of the ring met an uncorrectable error: it is discarded and counted as a gap (R395). (DESIGN CHOICE log 135) -/
def Core.traceDiscard (c : Core) (i : Nat) : Core :=
  match c.tlm.trace[i]? with
  | none => c
  | some o =>
    let first := c.tlm.traceLost.isEmpty
    let c1 := c.modTlm (fun t => { t with
      trace := t.trace.eraseIdx i, traceLost := countLost t.traceLost o.source
      traceSpan := (if first then o.time else min o.time t.traceSpan.1, max o.time t.traceSpan.2) })
    (c1.bump TLM_TRACE_GAPS.LOST 1).event TLM_EVENT.TRACE_GAP

/-- An uncorrectable word of shared SRAM may lie in the trace ring, whose place the spec does not give: a free value says
whether it does and in which record (R395). (DESIGN CHOICE log 135) -/
def Core.scrubTrace (c : Core) (k : Nat) : Core :=
  if k < 0x200000 then c.fresh.traceDiscard (Config.freeWord c.free).toNat else c

/-- R393: the signal entries are sampled every TRACE_DIV periods. (DESIGN CHOICE log 132) -/
def execTraceSample (s : State) : Res :=
  go (fun c _ =>
    if c.flag TLM_CTRL.TRACE_EN && decide (c.tlm.traceDiv ≤ c.modu.period) then
      let c1 := (List.range 8).foldl (fun a j =>
        let n := u8 c.tlmP (12 + j)
        if n = 255 ∨ !c.cfgInUse 0x02C0 then a
        else a.tracePush j (leI 2 (a.sigRaw n) ++ le 1 (b2n (a.sigValid n)) ++ le 1 (a.sigAge n))) c
      c1.modTlm (fun t => { t with traceDiv := c.modu.period + max 1 (u16 c.tlmP 10) })
    else c) s

/-- R304, R364, R393: a free-running output of a cell's decimators, in mV and mA. Its sign serves the ledger; a traced cell
keeps one in 2^TRACE_DEC. (DESIGN CHOICE log 132) -/
def execFreeRunningOutput (n : Fin 128) (v i : Int) (s : State) : Res :=
  go (fun c _ =>
    let c1 := c.setLedAcc n.val { c.ledAcc n.val with sign := i }
    let slot := (List.range 4).find? (fun j => c.cfgInUse 0x02C0 && u8 c.tlmP (20 + j) == n.val)
    match slot with
    | none => c1
    | some j =>
      if !c.flag TLM_CTRL.TRACE_EN then c1
      else
        let k := mapGet (fun _ => 0) c.tlm.traceDec n.val + 1
        let due := decide (2 ^ min 10 (u8 c.tlmP 2) ≤ k)
        let c2 := c1.modTlm (fun t => { t with traceDec := mapSet (fun _ => 0) t.traceDec n.val (if due then 0 else k) })
        if due then c2.tracePush (8 + j) (leI 4 v ++ leI 4 i) else c2) s

/-- The 16 bytes of a trace record (R393). The SOURCE codes other than 0xFF and the layout of the data bytes are not
given: both are constants of Config. (DESIGN CHOICE log 132) -/
def TraceRec.bytes (r : TraceRec) : List Byte :=
  le 1 (if r.source = 0xFF then 0xFF else (Config.traceSource r.source).toNat) ++ zeros 1 ++ le 2 r.seq ++ le 4 r.time ++
    fit 8 (if r.source = 0xFF then r.data else Config.traceData r.source r.data)

/-- R396: TRACE_READ; after a loss it begins with a GAP record, whose data the spec lays out nowhere.
(DESIGN CHOICE log 132) -/
def execTraceRead (m : Msg) (s : State) : Res :=
  go (fun c _ => c.command { op := 0x0402, modes := notOff, len := lenIs 0 } m fun cmd c =>
    let gap := !c.tlm.traceLost.isEmpty
    let g : TraceRec := ⟨0xFF, c.tlm.traceSeq, c.tlm.traceSpan.1, le 8 (Config.freeWord64 c.free).toNat⟩
    let n := if gap then 253 else 254
    let l := c.tlm.trace.take n
    let c1 := (if gap then c.fresh else c).modTlm (fun t => { t with trace := t.trace.drop n, traceLost := [], traceSpan := (0, 0) })
    c1.reply cmd.ref stDONE ((if gap then g.bytes else []) ++ l.flatMap TraceRec.bytes)) s

/-! ### CELL_TELEMETRY (R394) -/

/-- What stands for a value the host has not reconstructed yet. -/
abbrev reconNone : Int := 2 ^ 40

/-- One cell's code, and the value the host then holds. -/
def cellCode (v r : Int) (reset : Bool) : List Byte × Int :=
  let d := rne (v - r) 4
  if reset ∨ r = reconNone ∨ 127 < d.natAbs then ([0x80] ++ leI 4 v, v) else (leI 1 d, r + 4 * d)

/-- R394: CELL_TELEMETRY. -/
def execCellTelemetry (m : Msg) (s : State) : Res :=
  go (fun c _ => c.command { op := 0x0403, modes := notOff, len := lenIs 4, expect := 4 } m fun cmd c =>
    let first := u8 cmd.p 0
    let count := u8 cmd.p 1
    match firstFail [chk 1 0 (decide (first < 128)), chk 2 1 (decide (1 ≤ count ∧ count ≤ 128 ∧ first + count ≤ 128)),
      chk 3 2 (decide (u8 cmd.p 2 ≤ 1)), chkAt 4 (firstNonZero cmd.p 3 1)] with
    | some f => c.badField cmd.ref f
    | none =>
      let r := (List.range count).foldl (fun (p : Core × List Byte) j =>
        let k := 128 * cmd.ref.mb + first + j
        let x := cellCode (p.1.cellVal (first + j)).v (mapGet (fun _ => reconNone) p.1.tlm.recon k) (u8 cmd.p 2 == 1)
        (p.1.modTlm (fun t => { t with recon := mapSet (fun _ => reconNone) t.recon k x.2 }), p.2 ++ x.1)) (c, [])
      r.1.reply cmd.ref stDONE (le 8 (c.cnv.sampleAt / 1000) ++ r.2)) s

/-! ### TELEMETRY_SET, TELEMETRY_GET (R396) -/

/-- The fields of TELEMETRY_SET. -/
def Core.telemetryChecks (c : Core) (p : List Byte) : Option Fail :=
  let udp := u16 p 8
  firstFail
    [chk 1 0 (decide (u8 p 0 ≤ 2)), chk 2 1 (decide (12 ≤ u8 p 1 ∧ u8 p 1 ≤ 20)), chk 3 2 (decide (u8 p 2 ≤ 10)),
     chk 4 3 (decide (1 ≤ u8 p 3 ∧ u8 p 3 ≤ 64)), chk 6 8 (udp != 0 && udp != 319 && udp != 320 && udp != c.udpPort),
     chk 7 10 (decide (1 ≤ u16 p 10)),
     chkAt 9 (firstBad ((List.range 4).map (· + 20)) (fun o => decide (u8 p o < 128) || u8 p o == 255)),
     chkAt 15 (firstNonZero p 34 14)]

/-- R396: TELEMETRY_SET. -/
def execTelemetrySet (m : Msg) (s : State) : Res :=
  go (fun c _ => c.command (setSpec 0x02C0 48) m fun cmd c => c.configure cmd (c.telemetryChecks cmd.p)) s

/-- R396: TELEMETRY_GET. -/
def execTelemetryGet (m : Msg) (s : State) : Res :=
  go (fun c _ => c.command (getSpec 0x02C1) m fun cmd c => c.getCfg 0x02C0 (zeros 3 ++ le 1 4 ++ zeros 44) cmd) s

/-- A TELEMETRY_SET payload takes effect: a smaller ring keeps its newest records. (DESIGN CHOICE log 134) -/
def Core.loadTelemetry (c : Core) (p : List Byte) : Core :=
  c.modTlm (fun t => { t with trace := lastN (2 ^ (clampN 12 20 (u8 p 1) - 4)) t.trace, traceDiv := c.modu.period })

/-! ### Scrubbing (R384, R385, R439) -/

/-- The address of the scrubber's k-th word: shared SRAM, then the four copies of tightly coupled memory. -/
def scrubWord (k : Nat) : Nat :=
  if k < 0x200000 then 0x20000000 + 4 * k
  else
    let j := k - 0x200000
    0x01000000 + 0x80000 * (j / 0x20000 / 2) + 4 * (j % 0x20000)

/-- R384: one word is read. (DESIGN CHOICE log 135) -/
def execScrubStep (err : EccResult) (s : State) : Res :=
  go (fun c _ =>
    if !c.flag TLM_CTRL.SCRUB_EN then c
    else
      let k := c.tlm.scrubAddr
      let c1 := c.modTlm (fun t => { t with scrubAddr := (k + 1) % 2621440 })
      match err with
      | .clean => c1
      | .corrected => (c1.bump TLM_SCRUB.CE 1).event TLM_EVENT.SCRUB_CE
      | .uncorrectable =>
        ((c1.bump TLM_SCRUB.UE 1).event TLM_EVENT.SCRUB_UE).raise .memoryUncorrectable 0xFFFF [scrubWord k] false |>.scrubTrace k) s

/-- The image slot of an MRAM address. -/
def slotOf (a : Nat) : Option Nat :=
  if a < 0x30600000 then some 0 else if a < 0x30C00000 then some 1 else none

/-- R385: one line of MRAM is read. A ledger copy and a configuration record are rewritten with what they held; an image
slot is damaged (R439). The check pauses while a flush writes outside the slots. (PRESUMED log 136) -/
def execMramReadCheck (err : EccResult) (s : State) : Res :=
  go (fun c _ =>
    let a := 0x30000000 + c.tlm.mramAddr
    if c.lgr.running && (slotOf a).isNone then c
    else
      let c1 := c.modTlm (fun t => { t with mramAddr := (t.mramAddr + 32) % 0x1000000 })
      match err with
      | .clean => c1
      | .corrected => (c1.bump TLM_MRAM.CE 1).event TLM_EVENT.MRAM_CE
      | .uncorrectable =>
        let c2 := ((c1.bump TLM_MRAM.UE 1).event TLM_EVENT.MRAM_UE).raise .mramUncorrectable 0xFFFF [a] false
        match slotOf a with
        | none => c2
        | some k => (c2.setSlot k slDAMAGED false).raise .fwSlotDamaged 0xFFFF [k] true) s

/-! ### SAR calibration (R386) -/

/-- The calibration of a pair of test readings: GTRIM and OFS, none where the readings do not rise. (DEDUCED log 81) -/
def calPair (r1 r2 : Int) : Option (Int × Int) :=
  if r2 ≤ r1 then none
  else
    let g := rne (57344 * 32768) (r2 - r1).toNat - 32768
    if 32768 + g ≤ 0 then none else some (g, r1 - rneI (4104 * 32768) (32768 + g))

/-- Whether a calibration is accepted. (DEDUCED log 81) -/
def Core.calOk (c : Core) (gnd bg : Nat) (x : Int × Int) : Bool :=
  let ref : Int := c.sec.otp.bandgap.toNat
  let b : Int := sarCorrect bg x.2 x.1
  decide (x.1.natAbs ≤ 1638 ∧ x.2.natAbs ≤ 1024) && decide (sarCorrect gnd x.2 x.1 ≤ 8)
    && decide (((b - ref).natAbs : Int) * 200 ≤ ref)

/-- A refused calibration. (DEDUCED log 81) -/
def Core.calRefuse (c : Core) (u : Nat) : Core :=
  let n := c.tlm.calRefused.getD u 0 + 1
  let c1 := c.modTlm (fun t => { t with calRefused := setAt u n t.calRefused })
  if 3 ≤ n then (c1.event TLM_EVENT.CAL_OUT_OF_RANGE).raise .calOutOfRange u [u] true else c1

/-- R386: a calibration of unit A to C; its readings are the averages of ground, bandgap and test DAC. It takes the firmware
urgent slot, whose last single result the readings do not show. (DEDUCED log 81) -/
def execSarCalibration (u : Fin 3) (gnd bandgap r1 r2 : BitVec 16) (s : State) : Res :=
  go (fun c _ =>
    let n := u.val
    let x := c.unit n
    let busy := x.phase == 2 || x.bg.isSome
    let last := c.tlm.calLast.getD n 0
    if !c.flag TLM_CTRL.CAL_EN || x.urgent.isSome || decide (c.now < last + 10000000000)
        || (busy && decide (c.now < last + 60000000000)) then c
    else
      let c0 := c.sarInterrupt n (2 * c.now)
      let c1 := c0.modTlm (fun t => { t with calLast := setAt n c.now t.calLast })
      let c2 := (c1.event (CNV_U_EVENT.URGENT_DONE n)).setF (CNV_U_URG_RESULT.CODE n) (Config.freeWord c1.free).toNat
      let c3 := (c2.setF (CNV_U_URG_RESULT.DONE n) 1).fresh
      match calPair r1.toNat r2.toNat with
      | none => c3.calRefuse n
      | some p =>
        if c3.calOk gnd.toNat bandgap.toNat p then
          ((c3.addShadow (.reg (CNV_U_CAL.a n) (putBits (ofS 16 p.2) 16 16 (ofS 16 p.1)))).modTlm (fun t => { t with
            calRefused := setAt n 0 t.calRefused })).clearCause .calOutOfRange n
        else c3.calRefuse n) s

/-! ### Thresholds, equalisation, wear (R387 to R389) -/

/-- THR_HYST in force. (DEDUCED log 138) -/
def Core.thrHyst (c : Core) : Nat := if c.cfgInUse 0x02C0 then u8 c.tlmP 3 else 4

/-- R387: every 100 ms the threshold codes of every switch of each admitted cell. (DEDUCED log 138) -/
def execThresholdTracking (s : State) : Res :=
  go (fun c _ =>
    if c.flag TLM_CTRL.THR_EN && decide (c.tlm.thrLast + 100000000 ≤ c.now) then
      let l := (List.range 512).filter (fun i => (c.cell (i / 4)).adm == .admitted)
      (l.foldl (fun a i => (a.trackSwitch i false a.thrHyst).trackSwitch i true a.thrHyst) c).modTlm (fun t => { t with
        thrLast := c.now })
    else c) s

/-- R388: a trial begins on a VALID lane with EQ.AUTO, none of its island being in trial, 180 s after the lane's last.
(DEDUCED log 137) -/
def execEqTrialStart (l : Fin 128) (s : State) : Res :=
  go (fun c _ =>
    let n := l.val
    let last := mapGet (fun _ => 0) c.tlm.eqLast n
    if c.laneState n = 2 ∧ c.flag (LNK_LANE_EQ.AUTO n) ∧ (c.tlm.eq.getD (n / 64) none).isNone
        ∧ !((c.injSettle n).flag (LNK_LANE_INJ_STATUS.ACTIVE n) && c.injectable) ∧ (last = 0 ∨ last + 180000000000 ≤ c.now + 1) then
      let k := mapGet (fun _ => 0) c.tlm.eqNext n % 4
      let v := c.eqCode n k
      let c1 := c.setTrial (n / 64) (some ⟨n, k, 0, v, [(c.lane n).errors, 0, 0], c.now⟩)
      (c1.setEqCode n k (min 255 (v + 1))).modTlm (fun t => { t with
        eqNext := mapSet (fun _ => 0) t.eqNext n ((k + 1) % 4), eqLast := mapSet (fun _ => 0) t.eqLast n (c.now + 1) })
    else c) s

/-- The code a trial keeps: that of the fewest errors, the original on a tie. (DEDUCED log 137) -/
def EqTrial.best (t : EqTrial) : Nat :=
  let o := t.errs.getD 0 0
  let p := t.errs.getD 1 0
  let m := t.errs.getD 2 0
  if p < o ∧ p ≤ m then min 255 (t.orig + 1) else if m < o then t.orig - 1 else t.orig

/-- R388: 1 s of a setting has passed. (DEDUCED log 137) -/
def execEqTrialStep (isl : Fin 2) (s : State) : Res :=
  go (fun c _ => match c.tlm.eq.getD isl.val none with
    | none => c
    | some t =>
      if c.now < t.stepAt + 1000000000 then c
      else if t.phase = 0 then
        (c.setTrial isl.val (some { t with phase := 1, stepAt := c.now })).setEqCode t.lane t.which (t.orig - 1)
      else (c.setTrial isl.val none).setEqCode t.lane t.which t.best) s

/-- raw_c in units of 1 / (2 × 3 600 000 × capacity) of 1/1 024 cycle (R389). (DEDUCED log 129) -/
def Core.wearRaw (c : Core) (n : Nat) : Int :=
  let r := c.ledRec n
  let a := r.e
  let hot := r.tempS.getD 13 0 + r.tempS.getD 14 0 + r.tempS.getD 15 0
  (((a.getD 4 0 + a.getD 5 0) * 1024 : Nat) : Int)
    + rne (u16 c.tlmP 32 * hot : Nat) 3600 * (2 * 3600000 * max 1 c.map.capacity : Nat)

/-- The wear weights of one string. (DEDUCED log 129) -/
def Core.wearString (c : Core) (s : Nat) : Core :=
  let l := c.usableOf s c.modu.period
  let d := 256 * (2 * 3600000 * max 1 c.map.capacity)
  match l with
  | [] => c
  | h :: t =>
    let low := t.foldl (fun m n => min m (c.wearRaw n)) (c.wearRaw h)
    l.foldl (fun a n =>
      a.setF (DSP_C_SOC.WEAR n) (min 1023 (rne ((c.wearRaw n - low) * u16 c.tlmP 30) d).toNat)) c

/-- R389: every 60 s the wear weights, which the next SOC_COMMIT takes. -/
def execWearUpdate (s : State) : Res :=
  go (fun c _ =>
    if c.flag TLM_CTRL.WEAR_EN && decide (c.tlm.wearLast + 60000000000 ≤ c.now) then
      (c.strings.foldl Core.wearString c).modTlm (fun t => { t with wearLast := c.now })
    else c) s

end Sys2Proof.Machine
end

