-- ==== Sys2Proof/Machine/Mailbox.lean ====
section
/-! DEFINITION. The mailbox block and its host ports (R332 to R354): doorbells, the quad-SPI instructions, datagrams, ARP,
ICMP and CAN segments, the time limit, HOST_PORT_SET, SYSTEM_INFO and ECHO. -/
namespace Sys2Proof.Machine

def Core.modMbx (c : Core) (f : Mbx → Mbx) : Core := { c with mbx := f c.mbx }

/-- HOST_IRQ_N is asserted (R343). (DEDUCED log 120) -/
def Core.hostIrq (c : Core) : Bool :=
  (c.getF MBX_REPLY_READY.READY &&& c.getF MBX_CTRL.IRQ_MASK) != 0 || (c.flag MBX_EVENT.ALARM && c.flag MBX_CTRL.ALARM_IRQ_EN)

/-! ### Doorbells (R336, R342) -/

/-- The fields of a message header (R332). -/
def headerRef (c : Core) (mb : Nat) (h : List Byte) (addr udp : Nat) : CmdRef :=
  ⟨mb, u16 h 0, u16 h 2, u32 h 4, u16 h 14, c.getF (MBX_MB_CFG.PORT mb), addr, udp⟩

/-- A doorbell of a mailbox whose message stands in its buffer. -/
def Core.ring (c : Core) (mem : Memory) (mb : Nat) : Core :=
  if c.getF (mbState mb) = 0 then (c.setBox mb { c.box mb with addr := 0, udp := 0 }).bell mb
  else c.refuseBell { headerRef c mb (readBytes mem (mbBuf mb) 16) 0 0 with port := 0 }

/-- R336: a write to MBX_DOORBELL. -/
def execDoorbell (m : Fin 16) (s : State) : Res := go (fun c mem => c.ring mem m.val) s

/-- A transaction that is ignored (R342). -/
def Core.spiError (c : Core) : Core := (c.event MBX_EVENT.SPI_ERROR).bump MBX_COUNT.REFUSED 1

/-- R342: an invalid quad-SPI transaction. -/
def execSpiError (s : State) : Res := go (fun c _ => c.spiError) s

/-- The mailboxes that `n` bytes from an offset on touch. -/
def touched (off n : Nat) : List Nat := (List.range 16).filter (fun m => decide (off < 0x1000 * (m + 1) ∧ 0x1000 * m < off + n))

/-- R342: WRITE. (DEDUCED log 139) -/
def execQspiWrite (addr : BitVec 24) (data : List Byte) (s : State) : Res :=
  go (fun c _ =>
    let a := addr.toNat
    if 0x10000 < a + data.length ∨ 0x10000 ≤ a ∨ !(touched a data.length).all (fun m => c.getF (mbState m) == 0) then c.spiError
    else c.writeMem (0x20800000 + a) data) s

/-- What the quad-SPI port sends. -/
def Core.spiOut (c : Core) (b : List Byte) : Core := c.send ⟨0, 0, 0, b⟩

/-- R342: READ. (DEDUCED log 139) -/
def execQspiRead (addr : BitVec 24) (n : Nat) (s : State) : Res :=
  go (fun c mem =>
    let a := addr.toNat
    if 0x10000 ≤ a then c.spiError else c.spiOut (readBytes mem (0x20800000 + a) (min n (0x10000 - a)))) s

/-- R342: DOORBELL. (DEDUCED log 139) -/
def execQspiDoorbell (m : Byte) (s : State) : Res :=
  go (fun c mem => if m.toNat < 16 then c.ring mem m.toNat else c.spiError) s

/-- R342: STATUS. -/
def execQspiStatus (s : State) : Res :=
  go (fun c _ =>
    c.spiOut (le 4 (c.reg MBX_STATE.a).toNat ++ le 2 (c.getF MBX_REPLY_READY.READY) ++ le 2 (c.reg MBX_EVENT.a).toNat)) s

/-- R342: CLEAR_READY. -/
def execQspiClearReady (mask : BitVec 16) (s : State) : Res :=
  go (fun c _ => c.setF MBX_REPLY_READY.READY (c.getF MBX_REPLY_READY.READY &&& (0xFFFF ^^^ mask.toNat))) s

/-! ### Messages from Ethernet and CAN (R344, R346) -/

/-- A message (header and what follows) received for a mailbox: into its buffer and POSTED while it is FREE; otherwise
refused, or answered again while the same command is PENDING (R336, R337). -/
def Core.arrive (c : Core) (mb : Nat) (b : List Byte) (addr udp : Nat) : Core :=
  let st := c.getF (mbState mb)
  if st = 0 then
    ((c.writeMem (mbBuf mb) (b.take 4096)).setBox mb { c.box mb with addr := addr, udp := udp }).bell mb
  else if st = 3 ∧ c.flag (MBX_MB_CFG.LAST_VALID mb) ∧ u32 b 4 = (c.reg (MBX_MB_LAST.a mb)).toNat then c.replay mb addr udp
  else c.refuseBell (headerRef c mb b addr udp)

/-- The address of an Ethernet port; 0 accepts no datagrams (R347). (DEDUCED log 142) -/
def Core.ipOf (c : Core) (port : Nat) : Nat := u32 (c.cfgP 0x0106) (8 + 4 * port)

/-- A dropped datagram. -/
def Core.dropDatagram (c : Core) : Core := (c.event MBX_EVENT.UDP_DROPPED).bump MBX_COUNT.DROPPED 1

/-- R344: a datagram; one to another UDP port is none of the mailboxes'; none arrives while the link is down on the bypass
clock (R29). (DEDUCED log 140) -/
def execUdpDatagram (port : Fin 2) (d : Datagram) (s : State) : Res :=
  go (fun c _ =>
    let m := u8 d.data 0
    let peer := (c.box m).peer
    if d.dstPort.toNat ≠ c.udpPort ∨ c.onBypass 9 then c
    else if !d.sumOk ∨ d.data.length < 4 ∨ 4100 < d.data.length ∨ 16 ≤ m ∨ u8 d.data 1 ≠ 1 ∨ u16 d.data 2 ≠ 0
        ∨ c.getF (MBX_MB_CFG.PORT m) ≠ 1 + port.val ∨ (peer ≠ 0 ∧ peer ≠ d.src.toNat) ∨ c.ipOf port.val = 0 then c.dropDatagram
    else c.arrive m (d.data.drop 4) d.src.toNat d.srcPort.toNat) s

/-- R344: a datagram is not reassembled within 50 ms. (DEDUCED log 140) -/
def execFragmentTimeout (_port : Fin 2) (s : State) : Res := go (fun c _ => c.dropDatagram) s

/-- The MAC address of an Ethernet port, from OTP. -/
def Core.macOf (c : Core) (port : Nat) : Nat := (c.sec.otp.mac.getD port 0).toNat

/-- R344: an ARP request is answered when it asks for the port's address. (PRESUMED log 141) -/
def execArpRequest (port : Fin 2) (target sender : BitVec 32) (senderMac : BitVec 48) (s : State) : Res :=
  go (fun c _ =>
    let ip := c.ipOf port.val
    if ip ≠ 0 ∧ target.toNat = ip ∧ !c.onBypass 9 then
      c.send ⟨1 + port.val, sender.toNat, 0, be 2 1 ++ be 2 0x0800 ++ be 1 6 ++ be 1 4 ++ be 2 2 ++ be 6 (c.macOf port.val)
        ++ be 4 ip ++ be 6 senderMac.toNat ++ be 4 sender.toNat⟩
    else c) s

/-- The internet checksum of a byte string. (PRESUMED log 141) -/
def inetSum (b : List Byte) : Nat :=
  let pairs := (List.range ((b.length + 1) / 2)).map (fun i => 256 * u8 b (2 * i) + u8 b (2 * i + 1))
  let t := sumN pairs
  let f (x : Nat) := x % 65536 + x / 65536
  65535 - f (f (f t))

/-- R344: ICMP echo; `data` is what follows the checksum. (PRESUMED log 141) -/
def execIcmpEcho (port : Fin 2) (src dst : BitVec 32) (data : List Byte) (s : State) : Res :=
  go (fun c _ =>
    let ip := c.ipOf port.val
    if ip ≠ 0 ∧ dst.toNat = ip ∧ !c.onBypass 9 then c.send ⟨1 + port.val, src.toNat, 0, zeros 2 ++ be 2 (inetSum data) ++ data⟩ else c) s

/-- CAN_BASE in force. (DEDUCED log 142) -/
def Core.canBase (c : Core) : Nat := u32 (c.cfgP 0x0106) 4

/-- The mailbox of a CAN port and identifier. -/
def Core.canBox (c : Core) (port id : Nat) : Option Nat :=
  (List.range 16).find? (fun m => c.getF (MBX_MB_CFG.PORT m) == 3 + port && id == c.canBase + 2 * m)

/-- R346: one segment; on the bypass clock the controllers take no part in the bus (R29). (DEDUCED log 140) -/
def execCanSegment (port : Fin 4) (id : BitVec 29) (data : List Byte) (s : State) : Res :=
  go (fun c _ => match c.canBox port.val id.toNat, data with
    | none, _ => c
    | some _, [] => c
    | some m, h :: rest =>
      if c.onBypass 9 then c
      else
        let i := h.toNat % 128
        let b := c.box m
        let follows := b.canNext = some i && decide (c.now ≤ b.canTime + 100000000)
        if i ≠ 0 ∧ !follows then
          ((c.setBox m { b with canNext := none, canBytes := [] }).event MBX_EVENT.CAN_SEGMENT_ERROR).bump MBX_COUNT.DROPPED 1
        else
          let bytes := (if i = 0 then [] else b.canBytes) ++ rest
          if 128 ≤ h.toNat then
            (c.setBox m { b with canNext := none, canBytes := [] }).arrive m bytes (c.canBase + 2 * m + 1) 0
          else c.setBox m { b with canNext := some (i + 1), canTime := c.now, canBytes := bytes }) s

/-- R29, R344: the link status of an SGMII port, down on the bypass clock. (DEDUCED log 140) -/
def execEthLinkStatus (port : Fin 2) (up : Bool) (s : State) : Res :=
  go (fun c _ => c.modMbx (fun x => { x with ethUp := setAt port.val (up && !c.onBypass 9) x.ethUp })) s

/-! ### The time limit (R339) -/

/-- A PAIR_TAKEOVER that timed out waits no longer. -/
def Core.unwait (c : Core) (ref : CmdRef) : Core :=
  match c.pair.rel with
  | none => c
  | some (t, by_, refs, inst) =>
    let rest := refs.filter (fun r => r != ref)
    c.modPair (fun p => { p with rel := if by_ = 0 ∧ rest = [] then none else some (t, by_, rest, inst) })

/-- R339: a command has been RUNNING for 100 ms. -/
def execCommandTimeout (m : Fin 16) (s : State) : Res :=
  go (fun c _ => match (c.box m.val).cur with
    | none => c
    | some ref =>
      if c.getF (mbState m.val) = 2 ∧ (c.box m.val).taken + 100000000 ≤ c.now then
        (c.unwait ref).replyW ref stTIMEOUT [0]
      else c) s

/-! ### HOST_PORT_SET, HOST_PORT_GET (R341, R347) -/

/-- The five checks of R347. -/
def hostPortChecks (p : List Byte) : Option Fail :=
  let rs := (List.range 16).map (fun m => 24 + 8 * m)
  let port (o : Nat) : Bool := decide (u8 p o ≤ 6) || u8 p o == 255
  let udp := u16 p 0
  firstFail
    [chkAt 1 (lowest ([if u8 p 2 < 16 then none else some 2, firstNonZero p 3 1, firstNonZero p 16 8]
        ++ rs.map (fun o => firstNonZero p (o + 2) 2))),
     chkAt 2 (if u8 p 24 ≠ 0 then some 24 else if u8 p 25 ≠ 1 then some 25 else none),
     chkAt 3 (lowest (rs.map (fun o => if !port o then some o else if 1 < u8 p (o + 1) then some (o + 1) else none))),
     chk 4 0 (udp != 0 && udp != 319 && udp != 320), chk 5 4 (decide (u32 p 4 ≤ 0x1FFFFFE0))]

/-- The assignments of a payload wait for each mailbox to be FREE (R341). (DEDUCED log 142) -/
def Core.loadHostPorts (c : Core) (p : List Byte) : Core :=
  (List.range 16).foldl (fun a m =>
    let o := 24 + 8 * m
    let x := (if u8 p o = 255 then 15 else u8 p o, u8 p (o + 1), if u8 p o = 1 ∨ u8 p o = 2 then u32 p (o + 4) else 0)
    let b := a.setBox m { a.box m with newCfg := some x }
    if a.getF (mbState m) = 0 then b.freeBox m else b) c

/-- R347: HOST_PORT_SET. -/
def execHostPortSet (m : Msg) (s : State) : Res :=
  go (fun c _ => c.command (setSpec 0x0106 152) m fun cmd c =>
    match hostPortChecks cmd.p with
    | some f => c.badField cmd.ref f
    | none => (if c.pwr.nvBad then c else c.loadHostPorts cmd.p).configure cmd none) s

/-- The values with which the device works before a HOST_PORT_SET. -/
def hostPortDefaults : List Byte :=
  le 2 50712 ++ zeros 22 ++ (List.range 16).flatMap (fun m =>
    le 1 (if m < 4 then 0 else if m < 8 then 1 else if m < 12 then 2 else 3) ++ le 1 (if m = 0 then 1 else 0) ++ zeros 6)

/-- R347: HOST_PORT_GET. -/
def execHostPortGet (m : Msg) (s : State) : Res :=
  go (fun c _ => c.command (getSpec 0x0107) m fun cmd c => c.getCfg 0x0106 hostPortDefaults cmd) s

/-! ### SYSTEM_INFO and ECHO (R349, R350) -/

/-- The reply of SYSTEM_INFO; FUSES[0] is the majority of the three grade fuses. (DESIGN CHOICE log 208) -/
def Core.systemInfo (c : Core) : List Byte :=
  let o := c.sec.otp
  let fuses := b2n (gradeOf o.gradeFuses == 1) + 2 * b2n ((List.range 2).any (keyProg o.vendorHash))
    + 4 * b2n ((List.range 4).any (keyProg o.integratorHash)) + 8 * b2n o.idKey
  le 1 c.grade ++ le 1 (b2n o.origin) ++ le 2 fuses ++ le 2 4 ++ le 2 (u16 c.sec.img 6) ++ le 4 (u32 c.sec.img 8)
    ++ le 1 (c.getF SEC_STATUS.BOOT_SLOT) ++ le 1 o.rollback ++ le 2 o.stepping.toNat ++ le 8 o.deviceId.toNat ++ le 8 c.us
    ++ le 6 c.wall ++ le 1 c.mode.code.code ++ zeros 9

/-- R349: SYSTEM_INFO. -/
def execSystemInfo (m : Msg) (s : State) : Res :=
  go (fun c _ => c.command { op := 0x0101, modes := anyMode, len := lenIs 0 } m fun cmd c => c.reply cmd.ref stDONE c.systemInfo) s

/-- R350: ECHO. -/
def execEcho (m : Msg) (s : State) : Res :=
  go (fun c _ => c.command { op := 0x0102, modes := anyMode, len := lenAny } m fun cmd c => c.reply cmd.ref stDONE cmd.p) s

end Sys2Proof.Machine
end

