-- ==== Sys2Proof/Machine/RegAccess.lean ====
section
/-! DEFINITION. Accesses to the address map (R8 to R11, R30, R31, R33 to R35): what a read of a register gives, what a write
does by access type and by the register's own rule, bus errors, REG_READ and REG_WRITE (R354). -/
namespace Sys2Proof.Machine

/-! ### Reads -/

/-- A _LO word whose read latches its _HI word (R179, R238, R331, R382, R465). (DEDUCED log 11) -/
def latchesHi (a : Nat) : Bool :=
  a == MOD_TIME_LO.a || a == CLK_WALL_LO.a || a == LGR_HEAD_SEQ_LO.a || a == LGR_ANCHOR_SEQ_LO.a || a == PAI_P_LO.a
    || (decide (CEN_SLOT_IACC_LO.a 0 ≤ a ∧ a < CEN_SLOT_IACC_LO.a 32) && (a - CEN_SLOT_IACC_LO.a 0) % 16 == 0)
    || (decide (LGR_C_E_OUT_LO.a 0 ≤ a ∧ a < LGR_C_E_OUT_LO.a 128)
        && [0, 8, 0x10, 0x18, 0x20, 0x28].contains ((a - LGR_C_E_OUT_LO.a 0) % 0x40))

/-- A word as the access types of R9 leave it: reserved and read-only bits kept, set bits of `w1c` cleared. -/
def writtenWord (r : RegRow) (old v : Nat) : Nat :=
  let all := 2 ^ 32 - 1
  (((old &&& (all ^^^ r.rw)) ||| (v &&& r.rw)) &&& (all ^^^ (v &&& r.w1c)))

/-- A word as the pending writes of this period leave it: what a read-write field was last written with (R9).
(DESIGN CHOICE log 9) -/
def pendingWord (l : List ShadowOp) (a w : Nat) : Nat :=
  l.foldl (fun x o => match o with
    | .reg b v => if b = a then (match regRow a with
      | some r => writtenWord { r with w1c := 0 } x v
      | none => x) else x
    | _ => x) w

/-- Index of a register of an array, `none` where the address is no register of it. -/
def arrayIx (base stride n a : Nat) : Option Nat :=
  if base ≤ a ∧ (a - base) % stride = 0 ∧ (a - base) / stride < n then some ((a - base) / stride) else none

/-- Status words of arrays with fields that follow time: IN_TRANSITION (R119), WINDOW_TRIPS (R157), COUNT and DIR of a timer
channel (R179), the injector of a lane (R98, R99), LP of a SAR unit (R300), MARK_FINAL of a cell (R306). -/
def Core.liveArray (c : Core) (a w : Nat) : Nat :=
  let put (f : Field) (v : Nat) (w : Nat) : Nat := putBits w f.lo f.len v
  match arrayIx (GDP_HB_STAT.a 0) 0x10 256 a, arrayIx (PRT_HB_STAT.a 0) 0x10 256 a with
  | some h, _ => put (GDP_HB_STAT.IN_TRANSITION h) (b2n ((c.hb h).tl.any (fun e => pendingStep c.now e.1))) w
  | _, some h =>
    put (PRT_HB_STAT.WINDOW_TRIPS h) ((c.hb h).trips.filter (fun t => decide (c.now ≤ t + 100000000))).length w
  | none, none => match arrayIx (MOD_TCH_COUNT.a 0) 0x20 64 a, arrayIx (MOD_TCH_STAT.a 0) 0x20 64 a with
    | some n, _ => (c.tchCount n c.now).1
    | _, some n => put (MOD_TCH_STAT.DIR n) (b2n (c.tchCount n c.now).2) w
    | none, none => match arrayIx (LNK_LANE_INJ_STATUS.a 0) 0x80 128 a with
      | some l =>
        let c1 := c.injSettle l
        put (LNK_LANE_INJ_STATUS.ACTIVE l) (b2n (c1.flag (LNK_LANE_INJ_STATUS.ACTIVE l) && c1.injectable))
          (c1.reg a).toNat
      | none => match arrayIx (CNV_U_STATUS.a 0) 0x1000 4 a, arrayIx (CNV_C_STAT.a 0) 0x20 128 a with
        | some u, _ => put (CNV_U_STATUS.LP u) (b2n (c.sarLp u)) w
        | _, some n => put (CNV_C_STAT.MARK_FINAL n) (b2n (decide (0 < c.cnv.sampleAt ∧ c.cnv.sampleAt + 2176 ≤ c.now))) w
        | none, none => w

/-- The word a register holds now; the registers that count or follow time are computed. -/
def Core.liveReg (c : Core) (a : Nat) : Nat :=
  let w := pendingWord c.shadow a (c.reg a).toNat
  if a = MOD_TIME_LO.a then c.now % 2 ^ 32
  else if a = MOD_TIME_HI.a then c.now / 2 ^ 32 % 2 ^ 32
  else if a = CLK_WALL_LO.a then c.wall % 2 ^ 32
  else if a = CLK_WALL_HI.a then c.wall / 2 ^ 32
  else if a = DDP_STAT.a then putBits w DDP_STAT.DRIVE_LOCK.lo 1 (b2n c.driveLock)
  else if a = BST_STATUS.a then putBits w BST_STATUS.REASON.lo BST_STATUS.REASON.len c.bootReason
  else if a = CLK_PHASE.a then putBits w CLK_PHASE.REMAIN.lo CLK_PHASE.REMAIN.len (ofS 16 (satS 16 c.slewRemain))
  else if a = CLK_HOLD_TIME.a then c.holdMs
  else if a = PAI_STATUS.a then c.paiStatus
  else if a = LNK_FRAME_COUNT.a then c.now / 2048 % 2 ^ 32
  else if a = SEC_AUTH.a then
    putBits w SEC_AUTH.LOCKOUT_S.lo SEC_AUTH.LOCKOUT_S.len (match c.sec.lockEnd with
      | none => 0
      | some t => ceilDiv (t - c.now) 1000000000)
  else c.liveArray a w

/-- A read of a register word: a _LO word latches its _HI word, a _HI word gives what was latched. (DEDUCED log 11) -/
def Core.readReg (c : Core) (a : Nat) : Core × Nat :=
  if latchesHi a then
    ({ c with latch := mapSet (fun _ => 0) c.latch (a + 4) (BitVec.ofNat 32 (c.liveReg (a + 4))) }, c.liveReg a)
  else if 4 ≤ a ∧ latchesHi (a - 4) then (c, (mapGet (fun _ => 0) c.latch a).toNat)
  else (c, c.liveReg a)

/-! ### Writes -/

/-- The clock of the island that holds a register, MHz (R27); an island on the bypass clock counts 100 MHz.
(DEDUCED log 189) -/
def Core.clockOf (c : Core) (a : Nat) : Nat :=
  let on (i f : Nat) : Nat := if c.onBypass i then 100 else f
  match a / 0x10000 with
  | 0x4000 | 0x4001 => 4
  | 0x4002 | 0x4003 => 125
  | 0x4004 | 0x4005 | 0x4006 | 0x4013 => 250
  | 0x4007 | 0x4008 | 0x400A => on 3 400
  | 0x4009 | 0x400B => on 7 80
  | 0x400C | 0x4014 | 0x4011 => on 9 125
  | 0x4012 => 200
  | _ => on 2 400

/-- The event bits of a register that the hardware set in this clock of its island: a clear loses against them (R10).
(DEDUCED log 189) -/
def Core.setNow (c : Core) (a : Nat) : Nat :=
  let f := c.clockOf a
  let hit (i : Nat) : Bool := match mapGet (fun _ => 0) c.evSet (32 * a + i) with
    | 0 => false
    | t + 1 => t * f / 1000 == c.now * f / 1000
  (List.range 32).foldl (fun m i => if hit i then setBit m i else m) 0

/-- The access types alone (R9, R10). -/
def Core.plainWrite (c : Core) (a v : Nat) : Core :=
  match regRow a with
  | none => c
  | some r =>
    let keep := r.w1c &&& c.setNow a
    c.setReg a (BitVec.ofNat 32 (writtenWord r (c.reg a).toNat (v &&& ((2 ^ 32 - 1) ^^^ keep))))

/-! ### Foreground settings (R24) -/

/-- A register whose read-write fields are settings of the foreground: gate profiles, protection, modulator, dispatch,
control, feedback, docking and the conversion tables. (DESIGN CHOICE log 9) -/
def fgReg (a : Nat) : Bool :=
  let o := a % 0x10000
  match a / 0x10000 with
  | 0x4004 | 0x4005 | 0x4008 | 0x4009 | 0x400A => true
  | 0x4006 => decide (o < 0x1000)
  | 0x4007 => decide (o ≤ 0x20)
  | 0x400B => (decide (o < 0x3000) && (o % 0x1000 == 0x10 || decide (0x400 ≤ o % 0x1000))) || decide (0x7000 ≤ o ∧ o ≤ 0x7008)
      || decide (0x7040 ≤ o)
  | _ => false

/-- The trimmed values whose programmed value a write changed return to it (R117). -/
def Core.trimsFollow (c old : Core) : Core :=
  (List.range 256).foldl (fun a h =>
    let put (a : Core) (on : Bool) (f : Field) (v : Nat) : Core := if on then a.setF f v else a
    let k := c.getF (GDP_HB_CFG.SET h)
    let j := old.getF (GDP_HB_CFG.SET h)
    let plOn := c.getF (GDP_SET_ON.T_PL k)
    let plOff := c.getF (GDP_SET_OFF.T_PL k)
    let a1 := put a (plOn != old.getF (GDP_SET_ON.T_PL j)) (GDP_HB_TRIM_PL.PL_ON h) plOn
    let a2 := put a1 (plOff != old.getF (GDP_SET_OFF.T_PL j)) (GDP_HB_TRIM_PL.PL_OFF h) plOff
    let rise := c.getF (GDP_HB_CFG.DT_RISE h)
    let fall := c.getF (GDP_HB_CFG.DT_FALL h)
    let a3 := put a2 (rise != old.getF (GDP_HB_CFG.DT_RISE h)) (GDP_HB_TRIM_DT.DT_RISE h) rise
    put a3 (fall != old.getF (GDP_HB_CFG.DT_FALL h)) (GDP_HB_TRIM_DT.DT_FALL h) fall) c

/-- A write of a foreground setting takes effect at its period start (R24), with what follows from the new value: timer
ownership (R125, R175), trimmed values (R117), the sources of feedback (R242 to R247), the stickiness of the window (R202).
A unit that is off takes nothing (R30). (DESIGN CHOICE log 9) -/
def Core.writeFg (c : Core) (a v : Nat) : Core :=
  if !c.domainOn (domainOf a) then c
  else
    let c1 := c.plainWrite a v
    let b := a / 0x10000
    if b = 0x4004 then c1.trimsFollow c
    else if b = 0x4005 then c1.ownTimers
    else if b = 0x4009 then c1.feedbackFollow c
    else if a = DSP_STICKY.a then { c1 with disp := { c1.disp with stickySet := true } }
    else c1

/-- A write of a register with foreground settings: event bits at once, settings at the next period start (R24). A sequencer
entry that names a channel outside its unit's inputs is refused (R289). (DESIGN CHOICE log 9) -/
def Core.shadowWrite (c : Core) (a v : Nat) : Core :=
  match regRow a with
  | none => c
  | some r =>
    let c1 := c.plainWrite a ((v &&& ((2 ^ 32 - 1) ^^^ r.rw)) ||| ((c.reg a).toNat &&& r.rw))
    let o := a % 0x10000
    let bad := decide (a / 0x10000 = 0x400B ∧ o < 0x3000 ∧ 0x400 ≤ o % 0x1000 ∧ a = CNV_U_E_CH.a (o / 0x1000) ((o % 0x1000 - 0x400) / 0x10))
      && !sarChannel (o / 0x1000) (bitsOf v (CNV_U_E_CH.CH 0 0).lo (CNV_U_E_CH.CH 0 0).len)
    if r.rw = 0 ∨ bad then c1 else c1.addShadow (.reg a (v &&& r.rw))

/-- LNK_LANE_CTRL (R99): ENABLE takes the lane into use or out of it, RETRAIN starts training.
(DEDUCED log 10; DESIGN CHOICE log 193) -/
def Core.writeLaneCtrl (c : Core) (l v : Nat) : Core :=
  let was := c.flag (LNK_LANE_CTRL.ENABLE l)
  let c1 := c.plainWrite (LNK_LANE_CTRL.a l) v
  if was && v % 2 == 0 then (c1.forceCell l 4).setLaneState l 0
  else if (!was && v % 2 == 1) || (bitOf v 2 && c1.laneState l != 0) then c1.startTraining l
  else c1

/-- A register of a timer channel (R174, R175, R179). (DEDUCED log 10) -/
def Core.writeTch (c : Core) (n a v : Nat) : Core :=
  if c.tchOwned n then c.event MOD_EVENT.OWNER_DENIED
  else if a = MOD_TCH_CFG.a n then
    let mode := v % 4
    let was := c.getF (MOD_TCH_CFG.CNT_MODE n)
    let c1 := (c.plainWrite a v).setF (MOD_TCH_CFG.CNT_MODE n) was
    let c2 := if mode = was then c1 else c1.tchSetMode n mode
    if bitOf v (MOD_TCH_CFG.COMMIT n).lo then c2.tchCommit n else c2
  else c.plainWrite a v

/-- LGR_CTRL (R382). (DEDUCED log 10) -/
def Core.writeLedgerCtrl (c : Core) (v : Nat) : Core :=
  let c1 := c.plainWrite LGR_CTRL.a v
  let c2 := if bitOf v 1 then c1.addShadow .snap else c1
  if bitOf v 2 then c2.wantFlush .event else c2

/-- PAI_CTRL (R450, R459, R465); a GA device has no pair function (R1), so PAIR_EN stays 0. (DEDUCED log 10) -/
def Core.writePair (c : Core) (v : Nat) : Core :=
  let was := c.flag PAI_CTRL.PAIR_EN
  let plant := c.flag PAI_CTRL.PLANT_EN
  let c1 := c.plainWrite PAI_CTRL.a (if c.grade = 1 then clrBit v PAI_CTRL.PAIR_EN.lo else v)
  let c2 := if c1.flag PAI_CTRL.PAIR_EN = was then c1 else if was then c1.setAuth 0 else c1.setAuth 1
  if c2.flag PAI_CTRL.PLANT_EN = plant then c2
  else c2.setF PAI_STATUS.PTP (if plant then 0 else if c2.flag PAI_CTRL.TIME_MASTER then 3 else 1)

/-- CNV_u_CTRL (R295, R311): START triggers the background segment where software does. (DEDUCED log 10) -/
def Core.writeCnvCtrl (c : Core) (u v : Nat) : Core :=
  let c1 := (c.plainWrite (CNV_U_CTRL.a u) v).sarStatus u
  if bitOf v (CNV_U_CTRL.START u).lo ∧ c1.getF (CNV_U_CTRL.TRIG_SRC u) = 0 then c1.sarTrigger u else c1

/-- STU_CH_CMD (R358). (DEDUCED log 10) -/
def Core.writeChCmd (c : Core) (ch v : Nat) : Core :=
  let c1 := if bitOf v (STU_CH_CMD.START ch).lo then c.chStart ch else c
  let c2 := if bitOf v (STU_CH_CMD.RESUME ch).lo then c1.chResume ch else c1
  if bitOf v (STU_CH_CMD.ABORT ch).lo then c2.chAbort ch else c2

/-- PWR_WDOG (R422). (DEDUCED log 10) -/
def Core.writeWdog (c : Core) (v : Nat) : Core :=
  let c1 := c.plainWrite PWR_WDOG.a v
  let c2 := c1.modPwr (fun p => { p with wdogMs := clampN 10 1000 (c1.getF PWR_WDOG.MS) })
  if bitOf v PWR_WDOG.KICK.lo then c2.kick else c2

/-- MBX_MB_mm_CFG (R341, R362): an assignment takes effect the next time the mailbox is FREE; that of mailbox 0 is fixed. -/
def Core.assignBox (c : Core) (m v : Nat) : Core :=
  if m = 0 then c
  else
    let c1 := c.setBox m { c.box m with newCfg := some (v % 16, v / 16 % 2, (c.box m).peer) }
    if c.getF (mbState m) = 0 then c1.freeBox m else c1

/-- A write of a register word: its access types, and what its own rule adds. Mailbox 0 stays on quad-SPI with PRIV (R341),
the wall clock takes writes from COMMISSION only (R331), the channels of the SAR units are theirs (R363), the debug block is the port's (R449), the ledger's accumulators take
writes while EN = 0 (R382). (DEDUCED log 10; DESIGN CHOICE log 9, 15) -/
def Core.writeReg (c : Core) (mem : Memory) (a v : Nat) : Core :=
  let b := a / 0x10000
  if regRow a = none then c
  else if b = 0x4000 then
    if a = CLK_WALL_LO.a ∨ a = CLK_WALL_HI.a then c
    else if a = CLK_CTRL.a then
      let c1 := c.plainWrite a v
      if c1.getF CLK_CTRL.REF_SEL = c.getF CLK_CTRL.REF_SEL then c1 else c1.refChange
    else (if a = CLK_SLEW.a then c.slewSettle else c).plainWrite a v
  else if b = 0x4001 then (if a = PWR_WDOG.a then c.writeWdog v else c.plainWrite a v)
  else if b = 0x4002 then
    match arrayIx (LNK_LANE_CTRL.a 0) 0x80 128 a, arrayIx (LNK_LANE_INJ_CFG.a 0) 0x80 128 a with
    | some l, _ => c.writeLaneCtrl l v
    | none, some l => c.injWrite l v
    | none, none => c.plainWrite a v
  else if b = 0x4006 then
    if 0x40061000 ≤ a ∧ a < 0x40061800 then c.writeTch ((a - 0x40061000) / 0x20) a v else c.shadowWrite a v
  else if fgReg a then
    let c1 := c.shadowWrite a v
    if a = DSP_CTRL.a ∧ bitOf v DSP_CTRL.SOC_COMMIT.lo then c1.socCommit else c1
  else if b = 0x400B then
    match arrayIx (CNV_U_CTRL.a 0) 0x1000 3 a, arrayIx (CNV_U_URGENT.a 0) 0x1000 3 a with
    | some u, _ => c.writeCnvCtrl u v
    | none, some u => c.urgent u (v % 128) (v / 128 % 16)
    | none, none => c.plainWrite a v
  else if b = 0x400C then
    if a = MBX_DOORBELL.a then c.ring mem (v % 16)
    else match arrayIx (MBX_MB_CFG.a 0) 8 16 a with
    | some m => c.assignBox m v
    | none => c.plainWrite a v
  else if b = 0x400D then
    if a = STU_CTRL.a then (if v % 2 = 1 then { c with stu := { c.stu with cache := [] } } else c)
    else match arrayIx (STU_CH_CMD.a 0) 0x40 16 a with
    | some ch => c.writeChCmd ch v
    | none => if 0x400D0440 ≤ a ∧ decide (8 ≤ a % 0x40 ∧ a % 0x40 ≤ 0x10) then c else c.plainWrite a v
  else if b = 0x400E then
    if a = LGR_CTRL.a then c.writeLedgerCtrl v
    else if a < 0x400E1000 then c.plainWrite a v
    else if c.flag LGR_CTRL.EN then c
    else (c.plainWrite a v).accFromRegs ((a - 0x400E1000) / 0x40 % 128)
  else if b = 0x4011 then (if a = DDP_EVENT.a then c.plainWrite a v else c)
  else if b = 0x4013 then (if a = PAI_CTRL.a then c.writePair v else c.plainWrite a v)
  else c.plainWrite a v

/-- Registers with a field that a mailbox command owns (R11, and the rule of each block's map). (DEDUCED log 12) -/
def ownedReg (a : Nat) : Bool :=
  let b := a / 0x10000
  let o := a % 0x10000
  if b = 0x4000 then decide (o ≤ 8)
  else if b = 0x4001 then a == PWR_CTRL.a || a == PWR_WDOG.a || a == PWR_WAKE_CFG.a || a == PWR_WAKE_AFTER.a
  else if b = 0x4004 then o == 4 || decide (0x100 ≤ o ∧ o < 0x140) || (decide (0x1000 ≤ o ∧ o < 0x2000) && o % 16 == 0)
  else if b = 0x4005 then decide (o ≤ 0xC) || (decide (0x40 ≤ o ∧ o < 0x70) && o % 8 == 0)
    || (decide (0x1000 ≤ o ∧ o < 0x2000) && o % 16 == 0)
  else if b = 0x4006 then decide (o ≤ 0x10) || (decide (0x40 ≤ o ∧ o < 0xA0) && o % 16 == 0)
    || (decide (0x1000 ≤ o ∧ o < 0x1800) && decide (o % 32 ≤ 0x10))
  else if b = 0x4007 then decide (o ≤ 0x20)
  else if b = 0x4008 then decide (0x14 ≤ o ∧ o ≤ 0x24) || decide (0x4000 ≤ o ∧ o < 0x4940)
  else if b = 0x4009 then decide (o ≤ 0x30)
  else if b = 0x400A then o == 0 || decide (0x40 ≤ o ∧ o < 0x80) || decide (0x100 ≤ o ∧ o < 0x124)
  else if b = 0x400B then
    (decide (o < 0x3000) && (o % 0x1000 == 0 || o % 0x1000 == 0x14 || o % 0x1000 == 0x18 || decide (0x400 ≤ o % 0x1000)))
      || o == 0x7000 || o == 0x7004 || o == 0x7008 || decide (0x7040 ≤ o ∧ o < 0x7078)
      || (decide (0x8000 ≤ o ∧ o < 0x9000) && decide (o % 0x20 ≤ 4))
  else if b = 0x400C then decide (0x40 ≤ o ∧ o < 0xC0) && o % 8 == 0
  else if b = 0x4013 then o == 0
  else false

/-! ### The bus (R30, R31, R33, R35) -/

/-- A region answers an initiator. (DEDUCED log 175; DESIGN CHOICE log 13) -/
def reaches (a : Nat) (write : Bool) : Initiator → Bool
  | .hearth p => match regionOf a with
    | .rom => !write
    | .tcm0 => p.val == 0
    | .tcm1 => p.val == 1
    | .none => false
    | _ => true
  | .dma _ => match regionOf a with
    | .tcm0 | .tcm1 | .sram | .mbx => true
    | .mram => !write
    | _ => false
  | .debug => match regionOf a with
    | .rom | .mram => !write
    | .none => false
    | _ => true
  | .window => regionOf a == .regs

/-- A register of the safety island (R9, R31, R301). -/
def islandReg (a : Nat) : Bool := a / 0x10000 == 0x4012 || decide (0x400B3000 ≤ a ∧ a < 0x400B4000)

/-- A bus error to its initiator (R33): a DMA channel stops with the error recorded, the debug port returns an error status
(R449); the cores' aborts leave no state here. (DEDUCED log 175; DESIGN CHOICE log 13, 185) -/
def Core.busError (c : Core) (a : Nat) (write : Bool) : Initiator → Core
  | .dma ch => if c.chState ch.val = chACTIVE then c.chFault ch.val a 3 (b2n write) else c
  | .debug =>
    let c1 := (c.event DDP_STAT.MEM_ERR).event DDP_EVENT.MEM_ERR
    { c1 with dbg := { c1.dbg with lastAck := 4 } }
  | _ => c

/-- An access to a domain that is off, recorded by PWR_ (R30, R427). -/
def Core.offAccess (c : Core) (a : Nat) : Core :=
  let d := domainOf a
  let c1 := (c.setReg PWR_FAULT_ADDR.a (BitVec.ofNat 32 a)).setF PWR_FAULT_DOMAIN.DOMAIN d
  ((c1.bump PWR_FAULT_DOMAIN.COUNT 1).event PWR_EVENT.OFF_ACCESS).raise .domainOffAccess d [d, a] false

/-- A refused write to the safety island (R31, R301): the island counts those to the SAF_ window (R158). (DEDUCED log 14) -/
def Core.islandWrite (c : Core) (a : Nat) : Core :=
  if a / 0x10000 = 0x4012 then c.bump SAF_WRITE_ATTEMPTS.COUNT 1 else c

/-- The memories of BIST that answer at an address (R33, R399). -/
def memsAt (a : Nat) : List Nat := match regionOf a with
  | .rom => [0]
  | .tcm0 => [18, 19]
  | .tcm1 => [20, 21]
  | .sram => [1 + (a - 0x20000000) / 0x80000]
  | .mbx => [17]
  | .mram => [35 + (a - 0x30000000) / 0x400000]
  | _ => []

/-- Why an access ends with a bus error, with what it leaves; none where it does not. A clamped memory answers none (R400).
(DEDUCED log 175) -/
def Core.busCheck (c : Core) (a : Nat) (write : Bool) (by_ : Initiator) : Option Core :=
  if a % 4 ≠ 0 ∨ !reaches a write by_ then some (c.busError a write by_)
  else if (memsAt a).any c.clamped.contains then some ((c.event BST_EVENT.CLAMP_ACCESS).busError a write by_)
  else if regionOf a != .regs then none
  else if !c.domainOn (domainOf a) then some ((c.offAccess a).busError a write by_)
  else if write && islandReg a then some ((c.islandWrite a).busError a write by_)
  else none

/-- A read of a word. -/
def Core.busRead (c : Core) (mem : Memory) (a : Nat) (by_ : Initiator) : Core × Option Nat :=
  match c.busCheck a false by_ with
  | some c1 => (c1, none)
  | none =>
    if regionOf a == .regs then
      let r := c.readReg a
      (r.1, some r.2)
    else (c, some (readWord mem a))

/-- A write of a word; true where it was taken. (DESIGN CHOICE log 9) -/
def Core.busWrite (c : Core) (mem : Memory) (a v : Nat) (by_ : Initiator) : Core × Bool :=
  match c.busCheck a true by_ with
  | some c1 => (c1, false)
  | none => (if regionOf a == .regs then c.writeReg mem a v else c.writeMem a (le 4 v), true)

/-- R9, R35: a write. A register-window write to an owned field is refused in DRIVE, CHARGE_DC and GRID (R11). -/
def execRegisterWrite (a v : BitVec 32) (by_ : Initiator) (s : State) : Res :=
  go (fun c mem =>
    if by_ = .window ∧ c.running ∧ ownedReg a.toNat then c else (c.busWrite mem a.toNat v.toNat by_).1) s

/-- R179: a read of a _LO word. -/
def execLatchedRead (a : BitVec 32) (s : State) : Res :=
  go (fun c _ => if latchesHi a.toNat then (c.readReg a.toNat).1 else c) s

/-- R33: an access outside the map, or not of a whole word. -/
def execUnmappedAccess (a : BitVec 32) (by_ : Initiator) (s : State) : Res :=
  go (fun c _ => c.busError a.toNat false by_) s

/-- R31: a write to the SAF_ window or to a register of unit D. (DEDUCED log 14) -/
def execSafWriteAttempt (a : BitVec 32) (s : State) : Res :=
  go (fun c _ => c.islandWrite a.toNat) s

/-- R30: an access to a block whose domain is off. -/
def execOffDomainAccess (a : BitVec 32) (by_ : Initiator) (s : State) : Res :=
  go (fun c _ =>
    if regionOf a.toNat = .regs ∧ !c.domainOn (domainOf a.toNat) then (c.offAccess a.toNat).busError a.toNat false by_ else c) s

/-! ### REG_READ, REG_WRITE (R354) -/

/-- The checks on ADDR, COUNT and the reserved bytes. -/
def windowChecks (p : List Byte) (most : Nat) : Option Fail :=
  let a := u32 p 0
  let n := u16 p 4
  firstFail [chk 1 0 (decide (a % 4 = 0 ∧ 0x40000000 ≤ a ∧ a ≤ 0x4014FFFF)),
    chk 2 4 (decide (1 ≤ n ∧ n ≤ most ∧ a + 4 * n - 4 ≤ 0x4014FFFF)), chkAt 3 (firstNonZero p 6 2)]

/-- The words of a REG_READ up to the first that fails: how many, what they hold. -/
def Core.windowRead (mem : Memory) : Nat → Core → Nat → List Byte → Core × List Byte × Bool
  | 0, c, _, l => (c, l, true)
  | n + 1, c, a, l =>
    match c.busRead mem a .window with
    | (c1, none) => (c1, l, false)
    | (c1, some v) => windowRead mem n c1 (a + 4) (l ++ le 4 v)

/-- R354: REG_READ. -/
def execRegRead (m : Msg) (s : State) : Res :=
  go (fun c mem => c.command { op := 0x0701, priv := true, modes := notOff, len := lenIs 8, expect := 8 } m fun cmd c =>
    match windowChecks cmd.p 1020 with
    | some f => c.badField cmd.ref f
    | none =>
      let a := u32 cmd.p 0
      match Core.windowRead mem (u16 cmd.p 4) c a [] with
      | (c1, l, true) => c1.reply cmd.ref stDONE l
      | (c1, l, false) =>
        let k := l.length / 4
        if k = 0 then c1.replyW cmd.ref stMEMORY_FAULT [0, a, 3] else c1.replyW cmd.ref stPARTIAL [k, a + 4 * k, 3]) s

/-- The words of a REG_WRITE up to the first that fails: how many, and 0, 3 for a bus error or 6 for a refusal of R11.
(DESIGN CHOICE log 9) -/
def Core.windowWrite (mem : Memory) : List Nat → Core → Nat → Nat → Core × Nat × Nat
  | [], c, _, k => (c, k, 0)
  | v :: t, c, a, k =>
    if c.running ∧ ownedReg a then (c, k, 6)
    else match c.busWrite mem a v .window with
    | (c1, true) => windowWrite mem t c1 (a + 4) (k + 1)
    | (c1, false) => (c1, k, 3)

/-- R354: REG_WRITE. -/
def execRegWrite (m : Msg) (s : State) : Res :=
  go (fun c mem => c.command { op := 0x0702, priv := true, modes := notOff, len := lenAny } m fun cmd c =>
    let a := u32 cmd.p 0
    let n := u16 cmd.p 4
    if cmd.p.length ≠ 8 + 4 * n then c.replyW cmd.ref stBAD_LENGTH [8 + 4 * n]
    else match windowChecks cmd.p 1018 with
    | some f => c.badField cmd.ref f
    | none =>
      if c.grade = 0 ∧ c.mode.code = .drive then c.denied cmd.ref 6
      else match Core.windowWrite mem ((List.range n).map (fun j => u32 cmd.p (8 + 4 * j))) c a 0 with
      | (c1, _, 0) => c1.done cmd.ref
      | (c1, 0, 6) => c1.denied cmd.ref 5
      | (c1, 0, _) => c1.replyW cmd.ref stMEMORY_FAULT [0, a, 3]
      | (c1, k, e) => c1.replyW cmd.ref stPARTIAL [k, a + 4 * k, e]) s

end Sys2Proof.Machine
end

