-- ==== Sys2Proof/Machine/Debug.lean ====
section
/-! DEFINITION. The debug port (R442, R443, R445, R449): transactions, what each level grants, halts, breakpoints and
watchpoints, accesses to memory and to core registers. -/
namespace Sys2Proof.Machine

/-- ACK of R442. -/
abbrev ackOK := 1
abbrev ackWAIT := 2
abbrev ackFAULT := 4

/-- The level of the port. -/
def Core.level (c : Core) : Nat := c.getF DDP_STAT.LEVEL

/-- A pair is halted. -/
def Core.isHalted (c : Core) (n : Nat) : Bool := c.dbg.halted.getD n false

/-- The pair that CTRL selects. -/
def Core.pairSel (c : Core) : Nat := c.getF DDP_CTRL.PAIR_SEL

/-! ### Halts -/

/-- A register of the debug file: index of DDP_REG_SEL and pair. (DESIGN CHOICE log 162) -/
def Core.dbgReg (c : Core) (pair i : Nat) : Word := mapGet (fun _ => 0) c.dbg.regs (i + 128 * pair)
/-- (DESIGN CHOICE log 162) -/
def Core.setDbgReg (c : Core) (pair i : Nat) (w : Word) : Core :=
  c.modDbg (fun d => { d with regs := mapSet (fun _ => 0) d.regs (i + 128 * pair) w })

/-- The core's registers hold what its program left: free values. (DESIGN CHOICE log 162) -/
def Core.ranCore (c : Core) (pair : Nat) : Core :=
  ((List.range 34).foldl (fun a i => a.setDbgReg pair i (Config.coreReg c.free (i + 128 * pair))) c).fresh

/-- A pair halts; `cause` and `index` as DDP_STAT has them. A halt of pair 0 in CHARGE_DC or GRID is a safe-state cause. -/
def Core.haltPair (c : Core) (n cause index : Nat) : Core :=
  let c1 := if c.isHalted n then c else c.ranCore n
  let c2 := c1.modDbg (fun d => { d with halted := setAt n true d.halted, causes := setAt n (cause, index) d.causes })
  let c3 := ((c2.watchHold).haltStat).event DDP_EVENT.HALTED
  if n = 0 ∧ !c.isHalted 0 ∧ (c.mode.code = .chargeDc ∨ c.mode.code = .grid) then c3.raiseA .debugHalt 0 [] else c3

/-- One instruction of a halted pair. -/
def Core.stepPair (c : Core) (n : Nat) : Core := if c.isHalted n then (c.ranCore n).haltPair n 2 0 else c

/-- A breakpoint of a pair whose EN is set and whose address [31:2] is the instruction's. -/
def Core.breakHit (c : Core) (n a : Nat) : Option Nat :=
  (List.range 8).find? (fun i =>
    let w := (c.dbgReg n (64 + i)).toNat
    w % 2 == 1 && w / 4 == a / 4)

/-- A watchpoint of a pair that matches an access of `kind` (1 read, 2 write): the naturally aligned block of its size
that holds its address. (DEDUCED log 163) -/
def Core.watchHit (c : Core) (n a kind : Nat) : Option Nat :=
  (List.range 4).find? (fun i =>
    let w := (c.dbgReg n (72 + i)).toNat
    let k := (c.dbgReg n (76 + i)).toNat
    let sz := k / 4 % 16
    w % 2 == 1 && bitOf k (kind - 1) && decide (2 ≤ sz ∧ sz ≤ 12) && w / 4 * 4 / 2 ^ sz == a / 2 ^ sz)

/-- R445: a core pair executes at an address (access 0), reads it (1) or writes it (2). -/
def execDebugBreak (pair : Fin 2) (addr : BitVec 32) (access : Fin 3) (s : State) : Res :=
  go (fun c _ =>
    let n := pair.val
    if c.isHalted n then c
    else if access.val = 0 then
      match c.breakHit n addr.toNat with
      | some i => c.haltPair n 3 i
      | none => c
    else match c.watchHit n addr.toNat access.val with
      | some i => c.haltPair n 4 i
      | none => c) s

/-! ### Accesses (R443, R449) -/

/-- What an access answers: the device, the ACK, the word read. -/
abbrev PortOut := Core × Nat × Nat

/-- A refused access. (DEDUCED log 161) -/
def Core.portFault (c : Core) : PortOut := (c.event DDP_STAT.DENIED, ackFAULT, 0)

/-- An access that a condition grants. (DEDUCED log 160) -/
def Core.grant (c : Core) (ok : Bool) (f : PortOut) : PortOut := if ok then f else c.portFault

/-- CTRL.AUTH_CHAL. (DEDUCED log 158) -/
def Core.portChal (c : Core) : PortOut :=
  if c.flag DDP_STAT.AUTH_BUSY then (c, ackWAIT, 0) else c.grant (!c.lockedOut) (c.newChallenge true, ackOK, 0)

/-- CTRL.AUTH_SUBMIT. -/
def Core.portSubmit (c : Core) : PortOut :=
  if c.flag DDP_STAT.AUTH_BUSY then (c, ackWAIT, 0)
  else ((c.modSec (fun x => { x with submit := some (words x.resp), resp := [] })).setF DDP_STAT.AUTH_BUSY 1, ackOK, 0)

/-- One action after another while they are granted. -/
def portThen (p : PortOut) (on : Bool) (f : Core → PortOut) : PortOut := if on ∧ p.2.1 = ackOK then f p.1 else p

/-- A write of DDP_CTRL: HALT_REQ, RESUME and STEP need level 2, the selection, MEM_INC and LOCK level 1; at level 0 only
AUTH_CHAL and AUTH_SUBMIT act. (DEDUCED log 160) -/
def Core.portCtrl (c : Core) (v : Nat) : PortOut :=
  let b (f : Field) := bitOf v f.lo
  let run := b DDP_CTRL.HALT_REQ || b DDP_CTRL.RESUME || b DDP_CTRL.STEP
  c.grant ((!run || c.level == 2) && (!b DDP_CTRL.LOCK || decide (1 ≤ c.level)))
    (let c1 := if c.level = 0 then c
      else (c.setFlag DDP_CTRL.PAIR_SEL (b DDP_CTRL.PAIR_SEL)).setFlag DDP_CTRL.MEM_INC (b DDP_CTRL.MEM_INC)
     let c2 := if c.level = 2 then c1.setFlag DDP_CTRL.STEP_IRQ_MASK (b DDP_CTRL.STEP_IRQ_MASK) else c1
     let n := c2.pairSel
     let p1 := portThen (c2.haltStat, ackOK, 0) (b DDP_CTRL.HALT_REQ) (fun x => (x.haltPair n 1 0, ackOK, 0))
     let p2 := portThen p1 (b DDP_CTRL.RESUME) (fun x => (x.resumePair n, ackOK, 0))
     let p3 := portThen p2 (b DDP_CTRL.STEP) (fun x => (x.stepPair n, ackOK, 0))
     let p4 := portThen p3 (b DDP_CTRL.AUTH_CHAL) Core.portChal
     let p5 := portThen p4 (b DDP_CTRL.AUTH_SUBMIT) Core.portSubmit
     portThen p5 (b DDP_CTRL.LOCK) (fun x => (x.relock.injCheck, ackOK, 0)))

/-- DDP_AUTH: the next challenge word, or the next response word. (DEDUCED log 160) -/
def Core.portAuth (c : Core) (write : Bool) (v : Nat) : PortOut :=
  if c.flag DDP_STAT.AUTH_BUSY then (c, ackWAIT, 0)
  else if write then (c.modSec (fun x => { x with resp := x.resp ++ [v] }), ackOK, 0)
  else match c.sec.chal with
    | some x =>
      if c.sec.chalIdx < 16 then
        (c.modSec (fun y => { y with chalIdx := y.chalIdx + 1 }), ackOK, u32 x.bytes (4 * c.sec.chalIdx))
      else (c, ackOK, 0)
    | none => (c, ackOK, 0)

/-- MEM_INC after an access. -/
def Core.memNext (c : Core) : Core :=
  if c.flag DDP_CTRL.MEM_INC then c.setF DDP_MEM_ADDR.VALUE ((c.reg DDP_MEM_ADDR.a).toNat + 4) else c

/-- DDP_MEM_DATA: the bus access at DDP_MEM_ADDR (R33, R35). -/
def Core.portMem (c : Core) (mem : Memory) (write : Bool) (v : Nat) : PortOut :=
  let a := (c.reg DDP_MEM_ADDR.a).toNat / 4 * 4
  c.grant (if write then c.level == 2 else decide (1 ≤ c.level))
    (if write then
      let r := c.busWrite mem a v .debug
      if r.2 then ((r.1.setF DDP_STAT.MEM_ERR 0).memNext, ackOK, 0)
      else (((r.1.event DDP_STAT.MEM_ERR).event DDP_EVENT.MEM_ERR).memNext, ackFAULT, 0)
    else match c.busRead mem a .debug with
      | (c1, some w) => ((c1.setF DDP_STAT.MEM_ERR 0).memNext, ackOK, w)
      | (c1, none) => (((c1.event DDP_STAT.MEM_ERR).event DDP_EVENT.MEM_ERR).memNext, ackFAULT, 0))

/-- DDP_REG_DATA: the selected register. An index without a register reads 0, and a write there is refused. -/
def Core.portReg (c : Core) (write : Bool) (v : Nat) : PortOut :=
  let i := c.getF DDP_REG_SEL.INDEX
  let n := c.pairSel
  let core := decide (i < 34)
  let brk := decide (64 ≤ i ∧ i < 80)
  if write then
    c.grant (c.level == 2 && (!core || c.isHalted n))
      (if core then (c.setDbgReg n i (BitVec.ofNat 32 v), ackOK, 0)
       else if brk then (c.setDbgReg n i (BitVec.ofNat 32 (if i < 76 then clrBit v 1 else v % 64)), ackOK, 0)
       else c.portFault)
  else
    c.grant (if core then decide (1 ≤ c.level) && c.isHalted n else c.level == 2)
      (c, ackOK, if core ∨ brk then (c.dbgReg n i).toNat else 0)

/-- One access to the register at offset 4 × `r`. While DRIVE_LOCK stands only DDP_ID and DDP_STAT answer (R446). -/
def Core.portAccess (c : Core) (mem : Memory) (r : Nat) (write : Bool) (v : Nat) : PortOut :=
  let c0 := c.setF DDP_STAT.DENIED 0
  if c.driveLock ∧ r ≠ 0 ∧ r ≠ 2 then c0.portFault
  else match r with
  | 0 => (c0, ackOK, if write then 0 else (c.reg DDP_ID.a).toNat)
  | 1 => if write then c0.portCtrl v else c0.grant (decide (1 ≤ c.level)) (c0, ackOK, (c.reg DDP_CTRL.a).toNat)
  | 2 => (c0, ackOK, if write then 0 else c.liveReg DDP_STAT.a)
  | 3 => c0.portAuth write v
  | 4 => c0.grant (decide (1 ≤ c.level))
      (if write then (c0.setReg DDP_MEM_ADDR.a (BitVec.ofNat 32 v), ackOK, 0) else (c0, ackOK, (c.reg DDP_MEM_ADDR.a).toNat))
  | 5 => c0.portMem mem write v
  | 6 => c0.grant (decide (1 ≤ c.level))
      (if write then (c0.setF DDP_REG_SEL.INDEX v, ackOK, 0) else (c0, ackOK, (c.reg DDP_REG_SEL.a).toNat))
  | 7 => c0.portReg write v
  | 8 => c0.grant (decide (1 ≤ c.level))
      (if write then (c0.plainWrite DDP_EVENT.a v, ackOK, 0) else (c0, ackOK, (c.reg DDP_EVENT.a).toNat))
  | _ => c0.portFault

/-- The answer of a transaction is kept and sent: ACK, then the data of a read with OK. -/
def Core.portAnswer (p : PortOut) (write : Bool) : Core :=
  let c := p.1.modDbg (fun d => { d with lastAck := p.2.1, lastData := BitVec.ofNat 32 p.2.2 })
  c.send ⟨7, p.2.1, 0, if !write && p.2.1 == ackOK then le 4 p.2.2 else []⟩

/-- One access, answered. (DEDUCED log 161) -/
def Core.port (c : Core) (mem : Memory) (r : Nat) (write : Bool) (v : Nat) : Core :=
  Core.portAnswer (c.portAccess mem r write v) write

/-- Even parity over the low `n` bits. (DEDUCED log 161) -/
def parityOf (n w : Nat) : Bool := popcount n w % 2 == 1

/-- R442: a request with bad parity, START or PARK gets no ACK, and a line reset is needed; write data with bad parity is
discarded. (DEDUCED log 161) -/
def execDebugTransaction (req : BitVec 8) (data : BitVec 32) (parity : Bool) (s : State) : Res :=
  go (fun c mem =>
    let q := req.toNat
    if c.dbg.lineReset then c
    else if !bitOf q 0 || !bitOf q 7 || bitOf q 6 != parityOf 5 (q / 2) then c.modDbg (fun d => { d with lineReset := true })
    else
      let write := !bitOf q 1
      if write ∧ parity ≠ parityOf 32 data.toNat then
        Core.portAnswer ((c.setF DDP_STAT.DENIED 0).event DDP_STAT.PARITY_ERR, ackOK, 0) true
      else (if write then c.setF DDP_STAT.PARITY_ERR 0 else c).port mem (q / 4 % 16) write data.toNat) s

/-- R442: a line reset. -/
def execLineReset (s : State) : Res := go (fun c _ => c.modDbg (fun d => { d with lineReset := false })) s

/-- A write of 1 to one command bit of DDP_CTRL, its RW fields as they are. (DEDUCED log 160) -/
def Core.ctrlBit (c : Core) (mem : Memory) (f : Field) : Core := c.port mem 1 true (setBit (c.reg DDP_CTRL.a).toNat f.lo)

/-- R445: CTRL.HALT_REQ. -/
def execDdpHaltReq (s : State) : Res := go (fun c mem => c.ctrlBit mem DDP_CTRL.HALT_REQ) s
/-- R445: CTRL.RESUME. -/
def execDdpResume (s : State) : Res := go (fun c mem => c.ctrlBit mem DDP_CTRL.RESUME) s
/-- R445: CTRL.STEP. -/
def execDdpStep (s : State) : Res := go (fun c mem => c.ctrlBit mem DDP_CTRL.STEP) s
/-- R444: CTRL.AUTH_CHAL. -/
def execDdpAuthChal (s : State) : Res := go (fun c mem => c.ctrlBit mem DDP_CTRL.AUTH_CHAL) s
/-- R444: CTRL.AUTH_SUBMIT. -/
def execDdpAuthSubmit (s : State) : Res := go (fun c mem => c.ctrlBit mem DDP_CTRL.AUTH_SUBMIT) s
/-- R444: CTRL.LOCK. -/
def execDdpLock (s : State) : Res := go (fun c mem => c.ctrlBit mem DDP_CTRL.LOCK) s

/-- R444, R449: an access to DDP_AUTH. -/
def execDdpAuthAccess (write : Bool) (w : BitVec 32) (s : State) : Res := go (fun c mem => c.port mem 3 write w.toNat) s
/-- R445, R449: an access to DDP_MEM_DATA. -/
def execDdpMemDataAccess (write : Bool) (w : BitVec 32) (s : State) : Res := go (fun c mem => c.port mem 5 write w.toNat) s
/-- R449: an access to DDP_REG_DATA. -/
def execDdpRegDataAccess (write : Bool) (w : BitVec 32) (s : State) : Res := go (fun c mem => c.port mem 7 write w.toNat) s

end Sys2Proof.Machine
end

