-- ==== Sys2Proof/Machine/Boot.lean ====
section
/-! DEFINITION. The configuration in force taken into the blocks (R24, R360), domains that come up (R417), and the last steps
of the startup timeline (R423, R424, R436, R437). -/
namespace Sys2Proof.Machine

/-! ### Configuration -/

/-- A SET payload takes effect in the block it configures. The map takes effect through R41; drive limits, start, grid and
host-port settings are read where they stand. While PD_6 is off its blocks take nothing (R30) and wait for its return (R417). -/
def Core.loadCfg (c0 : Core) (op : Nat) (p : List Byte) : Core :=
  let c := if (op = 0x0260 ∨ op = 0x0292) ∧ !c0.domainOn 6 then c0 else c0.putForce op p
  match op with
  | 0x0210 => c.loadGate p
  | 0x0220 => c.loadProtection p
  | 0x0222 => c.loadSafety p
  | 0x0230 => c.loadModulation p
  | 0x0240 => c.loadDispatch p
  | 0x0250 => c.loadControl p
  | 0x0252 => c.loadModel p
  | 0x0260 => if c.domainOn 6 then c.loadFeedback p else c
  | 0x0280 => c.loadDock p
  | 0x0290 => (if c.domainOn 6 then c.loadConversion p else c).loadTableD p
  | 0x0292 => if c.domainOn 6 then c.loadCellCal p else c
  | 0x02A0 => c.loadClock p
  | 0x02B0 => c.loadPower p
  | 0x02C0 => c.loadTelemetry p
  | 0x0801 => c.loadPair p
  | 0x0810 => c.loadPlant p
  | _ => c

/-- A stored record is loaded. -/
def Core.loadStored (c : Core) (op : Nat) : Core := if c.cfgSet op then c.loadCfg op (c.cfgP op) else c

/-- The configuration in force is loaded at firmware up (R423). -/
def Core.loadAll (c : Core) : Core :=
  let c1 := (c.cfg.map (·.1)).foldl Core.loadStored c
  if c.cfgSet 0x0106 then c1.loadHostPorts (c.cfgP 0x0106) else c1

/-! ### Domains (R417) -/

/-- The lanes of a link island train again and their cells await the identity check. -/
def Core.lanesUp (c : Core) (d : Nat) : Core :=
  ((c.mappedCells.filter (fun n => n / 64 == d - 4)).foldl (fun a n =>
    (a.modCell n (fun x => { x with adm := .unknown })).startTraining n) c).laneCtrl

/-- PD_6 takes its configuration from MRAM; the axle count restarts at 0 and the home position is lost. -/
def Core.conversionUp (c : Core) : Core :=
  let c1 := ((c.loadStored 0x0290).loadStored 0x0292).loadStored 0x0260
  (c1.setF FBK_AXLE_COUNT.COUNT 0).setF DOK_STATUS.HOMED 0

/-- R417: a domain that is powering up is on. -/
def execDomainUp (d : Fin 10) (s : State) : Res :=
  go (fun c _ =>
    let k := d.val
    if mapGet (fun _ => 0) c.pwr.domainAt k = 0 then c
    else
      let c1 := c.modPwr (fun p => { p with domainAt := mapSet (fun _ => 0) p.domainAt k 0 })
      let c2 := (c1.putBit PWR_STATUS.ON k true).event PWR_EVENT.DOMAIN_UP
      let c3 := if k = 4 ∨ k = 5 then c2.lanesUp k else if k = 6 then c2.conversionUp else c2
      c3.unparkDone) s

/-! ### Firmware up (R423) -/

/-- IMAGE_HASH over the whole body (R436). (DEDUCED log 153) -/
def Core.imageIntact (c : Core) (mem : Memory) : Bool :=
  sha384 (imgBody mem (c.getF SEC_STATUS.BOOT_SLOT) (imgSize c.sec.img)) == imgHash c.sec.img

/-- A mismatch marks the slot DAMAGED and resets; which CAUSE the reset shows is not stated. (DEDUCED log 153) -/
def Core.imageDamaged (c : Core) : Core :=
  let k := c.getF SEC_STATUS.BOOT_SLOT
  (((c.setSlot k slDAMAGED false).deviceReset 2 5 0).setF PWR_RESET_CAUSE.CAUSE (Config.freeWord c.free).toNat).fresh

/-- LAST_RESET, and WATCHDOG_EXPIRED or HEARTH_LOCKSTEP after such a reset (R422, R427). (DEDUCED log 150) -/
def Core.resetAlarms (c : Core) : Core :=
  let c1 := c.raise .lastReset 0xFFFF [(c.reg PWR_RESET_CAUSE.a).toNat] false
  let k := c.getF PWR_RESET_CAUSE.CAUSE
  if k = 3 then c1.raiseA .watchdogExpired 0xFFFF [] else if k = 4 then c1.raiseA .hearthLockstep 0xFFFF [] else c1

/-- The safety island's own causes, which a HEARTH reset leaves, have their alarms (R142). (DEDUCED log 148) -/
def Core.islandAlarms (c : Core) : Core :=
  let c1 := if c.saf.crashIn then c.raiseA .crash 0 [] else c
  if c.saf.internal then c1.raiseA .safetyIslandFault 0 [] else c1

/-- The watchdog runs with PWR_WDOG.MS (R422). -/
def Core.watchdogUp (c : Core) : Core :=
  c.modPwr (fun p => { p with wdogMs := c.wdogPeriod, wdogAt := some (c.now + c.wdogPeriod * 1000000), wdogLeft := none })

/-- The channel priorities of image series 4 (R356): the firmware writes them and enables the channels. (DEDUCED log 209) -/
def Core.assignChannels (c : Core) : Core :=
  ([5, 3, 5, 3, 4, 4, 2, 4, 1, 3, 2, 1, 0, 6, 6, 6].zipIdx).foldl (fun a e =>
    (a.setF (STU_CH_CFG.PRIO e.2) e.1).setF (STU_CH_CFG.EN e.2) 1) c

/-- R423: the firmware selects the ledger, loads the configuration in force and applies the stored map; without one the
training and identity steps are skipped. -/
def execFirmwareUp (s : State) : Res :=
  go (fun c _ =>
    if c.pwr.step ≠ 5 then c
    else if !c.imageIntact s.mem then c.imageDamaged
    else
      let c1 := (((c.selectLedger.loadAll).bistAlarms.resetAlarms).islandAlarms).watchdogUp.assignChannels
      let map := c1.cfgSet 0x0201
      let c2 := if map then c1.applyMap (c1.cfgP 0x0201) none else c1
      c2.modPwr (fun p => { p with step := if map then 6 else 7, stepAt := c.now })) s

/-! ### READY (R424) -/

/-- A trial image that reached READY becomes ACTIVE; a slot that held an image becomes VALID (R437). -/
def Core.trialDone (c : Core) : Core :=
  let k := c.getF SEC_STATUS.BOOT_SLOT
  if c.slot k ≠ slTRIAL then c
  else
    let o := c.slot (1 - k)
    let keep := o == slEMPTY || o == slDAMAGED || o == slFAILED
    let c1 := c.setSlot k slACTIVE false
    if keep then c1 else c1.setSlot (1 - k) slVALID false

/-- The rollback counter advances to the image's ROLLBACK; slots below the counter become STALE (R437). (DEDUCED log 155) -/
def Core.rollbackUp (c : Core) (mem : Memory) : Core :=
  let n := imgRollback c.sec.img
  if n ≤ c.sec.otp.rollback ∨ c.pwr.nvBad then c
  else
    let c1 := ((c.modOtp (fun o => { o with rollback := n })).setF SEC_STATUS.ROLLBACK n).event SEC_EVENT.ROLLBACK_ADVANCED
    let c2 := c1.raise .rollbackAdvanced 0xFFFF [n] false
    [0, 1].foldl (fun a k =>
      if a.slot k ≠ slEMPTY ∧ imgRollback (slotHeader mem k) < n then a.setSlot k slSTALE false else a) c2

/-- The causes that request the safe state in every mode except OFF and SAFE; those limited by their own rule judge
themselves (R142). (DEDUCED log 150) -/
def Core.presentCauses (c : Core) : List AlarmName :=
  (c.tlm.alarms.filter (fun a => a.cause && a.name.cls == .a && a.name != .stringBelowFloor && a.name != .bypassFailed
    && a.name != .cellOvervoltageUnbypassed)).map (·.name)

/-- R53, R424: the identity check is complete; READY rises and the mode becomes STANDBY.
(DEDUCED log 150; DESIGN CHOICE log 178) -/
def execReadyReached (s : State) : Res :=
  go (fun c mem =>
    if (c.pwr.step ≠ 6 ∧ c.pwr.step ≠ 7) ∨ !c.identityKnown ∨ c.mode.code ≠ .off then c
    else
      let c1 := ((c.modPwr (fun p => { p with step := 8 })).setF PWR_RESET_CAUSE.WDOG_RUN 0).setMode .standby
      let c2 := ((c1.trialDone).rollbackUp mem).pairAtReady
      c2.presentCauses.foldl Core.request c2) s

end Sys2Proof.Machine
end

