-- ==== Sys2Proof/Machine/Period.lean ====
section
/-! DEFINITION. The control period (R18 to R25): period start, sample instant, data-ready, apply point, the end of the dispatch,
the commit deadline, and a stall of the dispatch. -/
namespace Sys2Proof.Machine

def Core.modModu (c : Core) (f : Modu → Modu) : Core := { c with modu := f c.modu }
def Core.modDisp (c : Core) (f : Disp → Disp) : Core := { c with disp := f c.disp }

/-- The step `k` of a period has come: its time has passed and no later step has been taken. (DESIGN CHOICE log 4) -/
def Core.stepDue (c : Core) (k t : Nat) : Bool := decide (c.modu.stage < k ∧ t ≤ c.now) && c.flag CLK_STATUS.ORIGIN_SET

/-- A step of the period is taken. -/
def Core.atStage (c : Core) (k : Nat) : Core := c.modModu (fun m => { m with stage := k })

/-- The sample instant of this period (R18, R21). -/
def Core.sampleNow (c : Core) : Nat := c.modu.start + c.getF MOD_TIMING.SAMPLE_OFS * 25 / 2

/-! ### Period start -/

/-- One shadow copy takes effect (R24). -/
def Core.takeShadow (c : Core) : ShadowOp → Core
  | .load op p => c.loadCfg op p
  | .hin e v => c.sigWrite e v
  | .slot k mode bank => c.slotMode k mode bank
  | .reg a v => c.writeFg a v
  | .weights p => c.loadWeights p
  | .setpoint p q => { c with grid := { c.grid with pRef := p, qRef := q } }
  | .soc => c.applySoc
  | .snap => c.snapAll

/-- The shadow copies in the order of their commits. -/
def Core.takeShadows (c : Core) : Core := c.shadow.foldl Core.takeShadow { c with shadow := [] }

/-- Frequency of the grid procedure, 0.1 Hz, as committed with the period's shadows (R163).
(DEDUCED log 116; DESIGN CHOICE log 180) -/
def Core.gridFel (c : Core) : Nat :=
  let f := if c.grid.option = 1 then dblOf c.grid.fSet else dblOf c.grid.fG
  satN 16 (f.toInt 10 65535 0).natAbs

/-- The committed update set takes effect (R18, R163, R169); without one the set in force goes on. -/
def Core.takeSet (c : Core) : Core :=
  let m := c.modu
  let force := m.next.getD m.force
  let c1 := (((c.modModu (fun m => { m with force := { force with overflow := false }, next := none, dispatched := false })).setF MOD_STATUS.MODE
    m.modeNext).setF MOD_STATUS.COMMITTED 0).setF MOD_STATUS.REPEATING 0
  let c2 := (c1.strings).foldl (fun a s => match force.strs.getD s none with
    | some p => (a.setF (MOD_STR_STAT.N s) p.n).setFlag (MOD_STR_STAT.SIGN s) (decide (p.sgn < 0))
    | none => (a.setF (MOD_STR_STAT.N s) 0).setF (MOD_STR_STAT.SIGN s) 0) c1
  if force.overflow then c2.event MOD_EVENT.STAGGER_OVERFLOW else c2

/-- The next period begins. (DEDUCED log 118) -/
def Core.nextPeriod (c : Core) : Core :=
  let c1 := c.modModu (fun m => { m with start := m.start + c.tc, period := m.period + 1, stage := 0 })
  (c1.setF MOD_PERIOD_COUNT.PERIODS c1.modu.period).setF DSP_STATUS.WINDOW_POS (c1.modu.period % 1024)

/-- What takes effect at a period start, in order: counts, update set, damper, derating, trim, timers; shadow copies; the phases
of the procedures and the mode; the safety island's copies; the engine; the ledger; the pair. -/
def Core.periodStart (c : Core) : Core :=
  let was := c.asDrive
  let c1 := ((c.nextPeriod.ageSignals).takeSet).modDisp (fun d => { d with used := d.usedNext, stickySet := false })
  let c2 := (c1.trimAll.tchSync).takeShadows
  let c3 := (c2.startMiss.startAdvance).gridAdvance.applyChange
  let c4 := (c3.damper.derating).gridSetpoints
  let c5 := (c4.islandCopy was)
  let c6 := if c5.asDrive ∧ was then c5 else c5.takeHallCfg
  let c7 := (c6.engineStart.cenStatus).integrate
  ({ c7 with grid := { c7.grid with fMod := c7.gridFel } }.pairLoad).syncOut

/-- R24: a control period starts. -/
def execPeriodStart (s : State) : Res :=
  go (fun c _ => if c.flag CLK_STATUS.ORIGIN_SET ∧ c.modu.start + c.tc ≤ c.now then c.periodStart else c) s

/-! ### Sample instant -/

/-- R18: the sample instant. `bits` are the bits of each cell's decimators since the last one. (DESIGN CHOICE log 196) -/
def execSampleInstant (bits : List (List CellBit)) (s : State) : Res :=
  go (fun c _ =>
    if !c.stepDue 1 c.sampleNow then c
    else
      let t := c.sampleNow
      let c1 := { c with cnv := { c.cnv with sampleAt := t } }
      let c2 := (List.range 128).foldl (fun a n => a.closeCell n (counted c.cnv.sampleAt t (bits.getD n []))) c1
      ((((c2.sampleD.feedbackSample t).dockRun).islandSample).speedWatch).atStage 1) s

/-! ### Data-ready -/

/-- The entries of the signal table at data-ready (R23, R211). -/
def Core.deliver (c : Core) : Core :=
  let c1 := c.deliverFg
  let c2 := (List.range 128).foldl Core.deliverCell c1
  let c3 := (c2.deliverVotes.deliverFeedback).dockSpeedRef
  ((c3.sigWrite 0x23 (toSig c.vFs c.mode.vLim)).sigWrite 0x24 (toSig c.pFs c.mode.pLim)).selectCurrents

/-- R18, R23: data-ready, 1.2 µs after the sample instant. -/
def execDataReady (s : State) : Res :=
  go (fun c _ =>
    if !c.stepDue 2 (c.sampleNow + 1200) then c
    else
      let c1 := (c.pairReady.deliver).dockOutputs
      let c2 := c1.islandMonitor.startReady.gridReady.modeRamp
      (c2.runSchedule.overvoltage).atStage 2) s

/-! ### Apply point -/

/-- f_el of the next period, 0.1 Hz, none where the entry is not valid (R163). (DEDUCED log 116) -/
def Core.fEl (c : Core) : Option Nat :=
  if c.mode.code = .chargeDc then some 0
  else if c.mode.code = .grid ∨ c.gridDispatched then some c.grid.fMod
  else if c.sigValid 0x44 then some (ofS 16 (c.sigRaw 0x44)) else none

/-- One step of the table of R163. -/
def Core.modStep (c : Core) (m f : Nat) : Nat :=
  let f1 := 10 * c.getF MOD_MODE_CFG.F1_UP
  let f2 := 10 * c.getF MOD_MODE_CFG.F2_UP
  let h := 100 - min 50 (c.getF MOD_MODE_CFG.HYST)
  let below (x : Nat) : Bool := decide (100 * f < x * h)
  match m with
  | 0 => if f1 ≤ f then 1 else 0
  | 1 => if f2 ≤ f then 2 else if below f1 then 0 else 1
  | _ => if below f2 then 1 else 2

/-- The modulation mode of the next period (R163); MODE_CHANGE belongs to the table, which a lock puts out of use. -/
def Core.decideMode (c : Core) : Core :=
  let lock := c.getF MOD_CTRL.MODE_LOCK
  let f := c.fEl
  let m := if lock ≠ 0 then lock - 1 else match f with
    | some x => c.modStep c.modu.modeNext x
    | none => c.modu.modeNext
  let c1 := match f with
    | some x => c.setF MOD_STATUS.F_EL x
    | none => c
  let c2 := if m = c.modu.modeNext ∨ lock ≠ 0 then c1 else c1.event MOD_EVENT.MODE_CHANGE
  c2.modModu (fun x => { x with modeNext := m })

/-- R18: the apply point: the schedule is cut, references and T_cmd are latched (R231), the dispatch runs (R180).
(DEDUCED log 63) -/
def execApplyPoint (s : State) : Res :=
  go (fun c _ =>
    if !c.stepDue 3 c.applyAt then c
    else
      let c0 := c.overrun
      let xs := c0.handOff
      let c1 := c0.decideMode
      let c2 := c1.dispatchRun c1.modu.modeNext xs
      ({ c2 with saf := { c2.saf with tCmd := rne (c0.sigRaw 0x43 * c.tFs) 32768 } }).atStage 3) s

/-! ### The dispatch result -/

/-- 480 cycles of the CONTROL clock, ns: 400 MHz, or the bypass clock at most 1 % above 100 MHz (R18). (DEDUCED log 64) -/
def Core.dispatchTime (c : Core) : Nat := if c.onBypass 3 then 4752 else 1200

/-- R180: the result is handed over; pulses and carries of the next period are computed, none where it will be static (R171).
(DEDUCED log 64) -/
def execDispatchComplete (s : State) : Res :=
  go (fun c _ => match c.disp.out with
    | none => c
    | some o =>
      if c.modu.stage ≠ 3 ∨ c.now < c.applyAt + c.dispatchTime then c
      else
        let u : UpdateSet := ⟨none, List.replicate 6 none, [], false⟩
        let r := if c.commitChange.nextStatic.isSome then (c, u) else c.strings.foldl (fun (a : Core × UpdateSet) s => match o.strs.getD s none with
          | some x => a.1.planString c.modu.modeNext s x.toIn a.2
          | none => a) (c, u)
        (r.1.publish o).modModu (fun m => { m with next := some r.2, dispatched := true })) s

/-! ### Commit deadline -/

/-- The requests of an update set of plans for the period that starts at `t0` (R128, R169). -/
def Core.startPlans (c : Core) (t0 : Nat) (u : UpdateSet) (count : Bool) : Core × Bool :=
  let excl := c.excludedCells (c.modu.period + 1)
  let fresh := c.modu.force.static.isSome
  let r := c.strings.foldl (fun (a : Core × Bool) s =>
    let x := a.1.startString s t0 u count fresh excl
    (x.1, a.2 || x.2)) (c, false)
  let b := r.1.bypassExcluded t0 excl
  (b.strings.foldl (fun a s => a.scheduleWins s t0) b, r.2)

/-- The modulator holds an update set for the next period. -/
def Core.committed (c : Core) (u : UpdateSet) : Core :=
  ((c.modModu (fun m => { m with next := some u, repeats := 0 })).setF MOD_STATUS.COMMITTED 1).setF MOD_STATUS.REPEATING 0

/-- The set in force is repeated unchanged (R25, R171). (DEDUCED log 65) -/
def Core.repeatSet (c : Core) (t0 : Nat) : Core :=
  let u := c.modu.force
  let c1 := match u.static with
    | some req => c.staticPattern req t0
    | none =>
      let r := c.startPlans t0 u false
      let keep := (List.range 6).foldl (fun (a : Core) s => a.setF (MOD_STR_CARRY.CARRY s) (c.getF (MOD_STR_CARRY.CARRY s))) r.1
      keep.modModu (fun m => { m with force := { u with overflow := r.2 } })
  let c2 := (c1.modModu (fun m => { m with repeats := m.repeats + 1 })).setF MOD_STATUS.REPEATING 1
  (c2.event MOD_EVENT.DISPATCH_LATE).raise .dispatchLate 0 [c.modu.period + 1] false

/-- The registers of the next period as trims and committed shadow copies of gate profiles will leave them (R114, R117).
(DESIGN CHOICE log 206) -/
def Core.gateView (c : Core) : SMap Word :=
  (c.shadow.foldl (fun a o => match o with
    | .load op p => if op = 0x0210 then a.loadGate p else a
    | .reg r v => if r / 0x10000 = 0x4004 then a.writeFg r v else a
    | _ => a) c.trimAll).regs

/-- R25: the commit deadline, 1 µs before the end of the period. (DESIGN CHOICE log 206) -/
def execCommitDeadline (s : State) : Res :=
  go (fun c0 _ =>
    if !c0.stepDue 4 (c0.modu.start + c0.tc - 1000) then c0
    else
      let k := c0.commitChange
      let c := { k with gateRegs := some k.gateView }
      let t0 := c.modu.start + c.tc
      let c1 := match c.nextStatic, c.modu.next with
        | some req, _ => (c.staticPattern req t0).committed { UpdateSet.reset with static := some req }
        | none, some u =>
          let r := c.startPlans t0 u true
          r.1.committed { u with overflow := r.2 }
        | none, none => c.repeatSet t0
      ({ c1 with gateRegs := none }.pairSend).atStage 4) s

/-- R25: the fourth consecutive repeated period. (DEDUCED log 65) -/
def execDispatchStall (s : State) : Res :=
  go (fun c _ =>
    if 4 ≤ c.modu.repeats ∧ !c.causeOn .dispatchStall 0 then c.raiseOrRelinquish .dispatchStall 0 [c.modu.repeats] 1 else c) s

end Sys2Proof.Machine
end

