-- ==== Sys2Proof/Machine/Taken.lean ====
section
/-! DEFINITION. A processor takes a posted mailbox (R336 to R340): the earliest doorbell first, the message read from the
mailbox buffer, the command run by its own meaning. -/
namespace Sys2Proof.Machine

/-- The command of an opcode (R348); an opcode outside the table is refused with BAD_OPCODE (R340). -/
def runOpcode (op : Nat) (m : Msg) (s : State) : Res := match op with
  | 0x0101 => execSystemInfo m s
  | 0x0102 => execEcho m s
  | 0x0103 => execReset m s
  | 0x0104 => execAlarmList m s
  | 0x0105 => execAlarmAck m s
  | 0x0106 => execHostPortSet m s
  | 0x0107 => execHostPortGet m s
  | 0x0201 => execStringMapSet m s
  | 0x0202 => execStringMapGet m s
  | 0x0210 => execGateProfileSet m s
  | 0x0211 => execGateProfileGet m s
  | 0x0220 => execProtectionSet m s
  | 0x0221 => execProtectionGet m s
  | 0x0222 => execSafetyLimitsSet m s
  | 0x0223 => execSafetyLimitsGet m s
  | 0x0230 => execModulationSet m s
  | 0x0231 => execModulationGet m s
  | 0x0232 => execTimerSet m s
  | 0x0233 => execTimerGet m s
  | 0x0240 => execDispatchSet m s
  | 0x0241 => execDispatchGet m s
  | 0x0242 => execDispatchWeights m s
  | 0x0250 => execControlSet m s
  | 0x0251 => execControlGet m s
  | 0x0252 => execMotorModelSet m s
  | 0x0253 => execMotorModelGet m s
  | 0x0254 => execDriveLimitsSet m s
  | 0x0255 => execDriveLimitsGet m s
  | 0x0260 => execFeedbackSet m s
  | 0x0261 => execFeedbackGet m s
  | 0x0270 => execStartSet m s
  | 0x0271 => execStartGet m s
  | 0x0280 => execDockSet m s
  | 0x0281 => execDockGet m s
  | 0x0290 => execConversionSet m s
  | 0x0291 => execConversionGet m s
  | 0x0292 => execCellCalSet m s
  | 0x0293 => execCellCalGet m s
  | 0x02A0 => execClockSet m s
  | 0x02A1 => execClockGet m s
  | 0x02B0 => execPowerSet m s
  | 0x02B1 => execPowerGet m s
  | 0x02C0 => execTelemetrySet m s
  | 0x02C1 => execTelemetryGet m s
  | 0x02D0 => execGridSet m s
  | 0x02D1 => execGridGet m s
  | 0x0301 => execModeSet m s
  | 0x0302 => execModeGet m s
  | 0x0312 => execBleedRelease m s
  | 0x0320 => execLoopInputSet m s
  | 0x0321 => execSlotModeSet m s
  | 0x0331 => execStartAbort m s
  | 0x0340 => execDockMove m s
  | 0x0341 => execDockStop m s
  | 0x0342 => execDockResume m s
  | 0x0343 => execDockHome m s
  | 0x0344 => execDockCompare m s
  | 0x0345 => execDockSetPos m s
  | 0x0350 => execGridSetpoint m s
  | 0x0401 => execEventLogRead m s
  | 0x0402 => execTraceRead m s
  | 0x0403 => execCellTelemetry m s
  | 0x0420 => execDispatchStats m s
  | 0x0421 => execStartStatus m s
  | 0x0422 => execDockStatus m s
  | 0x0423 => execClockStatus m s
  | 0x0424 => execGridStatus m s
  | 0x0501 => execLedgerRead m s
  | 0x0502 => execMeterReading m s
  | 0x0503 => execTimeSet m s
  | 0x0504 => execCommission m s
  | 0x0505 => execLedgerExport m s
  | 0x0506 => execLedgerImport m s
  | 0x0507 => execCharListGet m s
  | 0x0601 => execFwLoadBegin m s
  | 0x0602 => execFwLoadData m s
  | 0x0603 => execFwLoadCommit m s
  | 0x0610 => execAttest m s
  | 0x0611 => execDebugChallenge m s
  | 0x0612 => execDebugUnlock m s
  | 0x0613 => execDebugLock m s
  | 0x0620 => execRecommission m s
  | 0x0701 => execRegRead m s
  | 0x0702 => execRegWrite m s
  | 0x0710 => execComparatorTest m s
  | 0x0720 => execLaneInject m s
  | 0x0721 => execPairInject m s
  | 0x0730 => execBistRun m s
  | 0x0731 => execBistResult m s
  | 0x0732 => execFuseRepair m s
  | 0x0801 => execPairSet m s
  | 0x0802 => execPairStatus m s
  | 0x0803 => execPairTakeover m s
  | 0x0810 => execPlantSet m s
  | 0x0811 => execPlantStatus m s
  | 0x0812 => execPlantCommand m s
  | _ => go (fun c _ =>
      if c.repeated m then (c.replay m.mb.val (c.box m.mb.val).addr (c.box m.mb.val).udp).freeBox m.mb.val
      else
        let t := c.take op m
        t.1.replyW t.2 stBAD_OPCODE []) s

/-- The posted mailboxes that a processor serves. -/
def Core.posted (c : Core) : List (Fin 16) := (List.finRange 16).filter (fun m => c.getF (mbState m.val) == 1 && c.served m.val)

/-- The one with the earliest doorbell; of those of one 8 ns HOST clock the lowest mailbox (R338). (DEDUCED log 16, 143) -/
def Core.nextBox (c : Core) : Option (Fin 16) :=
  c.posted.foldl (fun a m => match a with
    | none => some m
    | some k => if (c.box m.val).bell / 8 < (c.box k.val).bell / 8 then some m else a) none

/-- The message that stands in a mailbox buffer (R332); LENGTH above the largest is kept as too long. -/
def postedMsg (mem : Memory) (m : Fin 16) : Msg :=
  let h := readBytes mem (mbBuf m.val) 16
  ⟨m, BitVec.ofNat 16 (u16 h 2), BitVec.ofNat 32 (u32 h 4), BitVec.ofNat 16 (u16 h 14),
    readBytes mem (mbBuf m.val + 16) (min (u32 h 8) 4081)⟩

/-- The taken command met an uncorrectable error in its buffer or in the data it reads, before any effect: MEMORY_FAULT
with the address and the cause ECC, nothing else (R361). (DEDUCED log 187) -/
def Core.takeEcc (c : Core) (op : Nat) (m : Msg) (a : Nat) : Core :=
  let t := c.take op m
  t.1.replyW t.2 stMEMORY_FAULT [0, a, 4]

/-- R336, R361: a posted mailbox is taken for execution; `ecc` is the address of an uncorrectable error that the command
meets before any effect. (DEDUCED log 187; DESIGN CHOICE log 5) -/
def execMailboxTaken (ecc : Option (BitVec 32)) (s : State) : Res := match s.core.nextBox with
  | none => go (fun c _ => c) s
  | some m =>
    let op := u16 (readBytes s.mem (mbBuf m.val) 2) 0
    let msg := postedMsg s.mem m
    let s1 : State := { s with core := s.core.setF (mbState m.val) 0 }
    match ecc with
    | none => runOpcode op msg s1
    | some a => if s1.core.repeated msg then runOpcode op msg s1 else go (fun c _ => c.takeEcc op msg a.toNat) s1

end Sys2Proof.Machine
end

