-- ==== Sys2Proof/Machine/Dispatch.lean ====
section
/-! DEFINITION. The dispatch of commands to their meanings: one arm per row of the table. -/
namespace Sys2Proof.Machine

def exec (i : Instr) (s : State) : Host.Outcome State Fault Refusal :=
  match i with
  | .periodStart => Sys2Proof.Machine.execPeriodStart s
  | .sampleInstant bits => Sys2Proof.Machine.execSampleInstant bits s
  | .sarPreTrigger u => Sys2Proof.Machine.execSarPreTrigger u s
  | .dataReady => Sys2Proof.Machine.execDataReady s
  | .scheduleComplete => Sys2Proof.Machine.execScheduleComplete s
  | .applyPoint => Sys2Proof.Machine.execApplyPoint s
  | .dispatchComplete => Sys2Proof.Machine.execDispatchComplete s
  | .commitDeadline => Sys2Proof.Machine.execCommitDeadline s
  | .dispatchStall => Sys2Proof.Machine.execDispatchStall s
  | .cellStale c => Sys2Proof.Machine.execCellStale c s
  | .vrefStale str => Sys2Proof.Machine.execVrefStale str s
  | .socStale => Sys2Proof.Machine.execSocStale s
  | .tempMissing c => Sys2Proof.Machine.execTempMissing c s
  | .windowEnd => Sys2Proof.Machine.execWindowEnd s
  | .cellCurrentOutlier c => Sys2Proof.Machine.execCellCurrentOutlier c s
  | .sensorDisagree str d => Sys2Proof.Machine.execSensorDisagree str d s
  | .noConsensus str => Sys2Proof.Machine.execNoConsensus str s
  | .observerLocked => Sys2Proof.Machine.execObserverLocked s
  | .observerLost => Sys2Proof.Machine.execObserverLost s
  | .hostInputTimeout e => Sys2Proof.Machine.execHostInputTimeout e s
  | .exclusionEnd c => Sys2Proof.Machine.execExclusionEnd c s
  | .softTrip sw run => Sys2Proof.Machine.execSoftTrip sw run s
  | .xblankOverrun str => Sys2Proof.Machine.execXblankOverrun str s
  | .retryMinOffElapsed h => Sys2Proof.Machine.execRetryMinOffElapsed h s
  | .hardTripRecord l p t => Sys2Proof.Machine.execHardTripRecord l p t s
  | .echoRecord l p => Sys2Proof.Machine.execEchoRecord l p s
  | .identRecord l p => Sys2Proof.Machine.execIdentRecord l p s
  | .healthRecord l p => Sys2Proof.Machine.execHealthRecord l p s
  | .ackRecord l p => Sys2Proof.Machine.execAckRecord l p s
  | .auxMarkRecord l p => Sys2Proof.Machine.execAuxMarkRecord l p s
  | .unknownRecord l type => Sys2Proof.Machine.execUnknownRecord l type s
  | .auxDwellEnd c chars => Sys2Proof.Machine.execAuxDwellEnd c chars s
  | .upstreamFrame l slot0 chars rtt => Sys2Proof.Machine.execUpstreamFrame l slot0 chars rtt s
  | .messageStart l => Sys2Proof.Machine.execMessageStart l s
  | .messageAttemptFailed l => Sys2Proof.Machine.execMessageAttemptFailed l s
  | .laneTrainingComplete l => Sys2Proof.Machine.execLaneTrainingComplete l s
  | .laneTrainingTimeout l => Sys2Proof.Machine.execLaneTrainingTimeout l s
  | .silentRetry l => Sys2Proof.Machine.execSilentRetry l s
  | .laneDown l => Sys2Proof.Machine.execLaneDown l s
  | .laneFaulty l => Sys2Proof.Machine.execLaneFaulty l s
  | .errorBucketRoll l => Sys2Proof.Machine.execErrorBucketRoll l s
  | .bypassCloseTimer c => Sys2Proof.Machine.execBypassCloseTimer c s
  | .bypassUnconfirmed c => Sys2Proof.Machine.execBypassUnconfirmed c s
  | .mapApplied => Sys2Proof.Machine.execMapApplied s
  | .safeRequest => Sys2Proof.Machine.execSafeRequest s
  | .forceDtElapsed h => Sys2Proof.Machine.execForceDtElapsed h s
  | .decisionLatchUpdate => Sys2Proof.Machine.execDecisionLatchUpdate s
  | .safetyIslandFault => Sys2Proof.Machine.execSafetyIslandFault s
  | .torqueViolation => Sys2Proof.Machine.execTorqueViolation s
  | .angleDisagree => Sys2Proof.Machine.execAngleDisagree s
  | .crash => Sys2Proof.Machine.execCrash s
  | .crashClear => Sys2Proof.Machine.execCrashClear s
  | .bleedConversion rawA rawB => Sys2Proof.Machine.execBleedConversion rawA rawB s
  | .bleedTimeout => Sys2Proof.Machine.execBleedTimeout s
  | .clockFault count => Sys2Proof.Machine.execClockFault count s
  | .rampComplete => Sys2Proof.Machine.execRampComplete s
  | .rampTimeout => Sys2Proof.Machine.execRampTimeout s
  | .angleLost => Sys2Proof.Machine.execAngleLost s
  | .checkWindowEnd => Sys2Proof.Machine.execCheckWindowEnd s
  | .startSyncDone => Sys2Proof.Machine.execStartSyncDone s
  | .tAlignElapsed => Sys2Proof.Machine.execTAlignElapsed s
  | .handoverTimeout => Sys2Proof.Machine.execHandoverTimeout s
  | .brakeTimeout => Sys2Proof.Machine.execBrakeTimeout s
  | .gridVoltagePresent => Sys2Proof.Machine.execGridVoltagePresent s
  | .gridVoltageAbsent => Sys2Proof.Machine.execGridVoltageAbsent s
  | .gridNoGridTimeout => Sys2Proof.Machine.execGridNoGridTimeout s
  | .gridSyncHeld => Sys2Proof.Machine.execGridSyncHeld s
  | .gridSyncTimeout => Sys2Proof.Machine.execGridSyncTimeout s
  | .gridTrip => Sys2Proof.Machine.execGridTrip s
  | .resolverUpdate sin cos => Sys2Proof.Machine.execResolverUpdate sin cos s
  | .resolverLocked => Sys2Proof.Machine.execResolverLocked s
  | .resolverLos => Sys2Proof.Machine.execResolverLos s
  | .resolverClip => Sys2Proof.Machine.execResolverClip s
  | .resolverLot => Sys2Proof.Machine.execResolverLot s
  | .hallEdge code r => Sys2Proof.Machine.execHallEdge code r s
  | .axleEdge a b r => Sys2Proof.Machine.execAxleEdge a b r s
  | .markerEdge level r => Sys2Proof.Machine.execMarkerEdge level r s
  | .endstopEdge level r => Sys2Proof.Machine.execEndstopEdge level r s
  | .chatter input t => Sys2Proof.Machine.execChatter input t s
  | .stuckActive endstop => Sys2Proof.Machine.execStuckActive endstop s
  | .speedStopped axle => Sys2Proof.Machine.execSpeedStopped axle s
  | .dockPulseEnd n => Sys2Proof.Machine.execDockPulseEnd n s
  | .sarConversionDone u raw => Sys2Proof.Machine.execSarConversionDone u raw s
  | .backgroundTrigger u => Sys2Proof.Machine.execBackgroundTrigger u s
  | .tchEvent n => Sys2Proof.Machine.execTchEvent n s
  | .tchUpdateBoundary n => Sys2Proof.Machine.execTchUpdateBoundary n s
  | .lockWindowEnd p count bypass phi ppm => Sys2Proof.Machine.execLockWindowEnd p count bypass phi ppm s
  | .referenceGap src => Sys2Proof.Machine.execReferenceGap src s
  | .islandClockSwitch idx => Sys2Proof.Machine.execIslandClockSwitch idx s
  | .phaseRestored p => Sys2Proof.Machine.execPhaseRestored p s
  | .holdoverExceeded => Sys2Proof.Machine.execHoldoverExceeded s
  | .wallclockDegraded => Sys2Proof.Machine.execWallclockDegraded s
  | .aonCrystalReturn => Sys2Proof.Machine.execAonCrystalReturn s
  | .doorbell m => Sys2Proof.Machine.execDoorbell m s
  | .qspiWrite addr data => Sys2Proof.Machine.execQspiWrite addr data s
  | .qspiRead addr n => Sys2Proof.Machine.execQspiRead addr n s
  | .qspiDoorbell m => Sys2Proof.Machine.execQspiDoorbell m s
  | .qspiStatus => Sys2Proof.Machine.execQspiStatus s
  | .qspiClearReady mask => Sys2Proof.Machine.execQspiClearReady mask s
  | .spiError => Sys2Proof.Machine.execSpiError s
  | .udpDatagram port d => Sys2Proof.Machine.execUdpDatagram port d s
  | .fragmentTimeout port => Sys2Proof.Machine.execFragmentTimeout port s
  | .arpRequest port target sender senderMac => Sys2Proof.Machine.execArpRequest port target sender senderMac s
  | .icmpEcho port src dst data => Sys2Proof.Machine.execIcmpEcho port src dst data s
  | .canSegment port id data => Sys2Proof.Machine.execCanSegment port id data s
  | .mailboxTaken ecc => Sys2Proof.Machine.execMailboxTaken ecc s
  | .commandTimeout m => Sys2Proof.Machine.execCommandTimeout m s
  | .dmaBurst ch ecc => Sys2Proof.Machine.execDmaBurst ch ecc s
  | .dmaFaultTimeout ch => Sys2Proof.Machine.execDmaFaultTimeout ch s
  | .ledgerFlush => Sys2Proof.Machine.execLedgerFlush s
  | .flushDone badBanks => Sys2Proof.Machine.execFlushDone badBanks s
  | .tempHistogramTick => Sys2Proof.Machine.execTempHistogramTick s
  | .ledgerRefresh => Sys2Proof.Machine.execLedgerRefresh s
  | .scrubStep err => Sys2Proof.Machine.execScrubStep err s
  | .mramReadCheck err => Sys2Proof.Machine.execMramReadCheck err s
  | .sarCalibration u gnd bandgap r1 r2 => Sys2Proof.Machine.execSarCalibration u gnd bandgap r1 r2 s
  | .thresholdTracking => Sys2Proof.Machine.execThresholdTracking s
  | .eqTrialStart l => Sys2Proof.Machine.execEqTrialStart l s
  | .eqTrialStep isl => Sys2Proof.Machine.execEqTrialStep isl s
  | .wearUpdate => Sys2Proof.Machine.execWearUpdate s
  | .traceSample => Sys2Proof.Machine.execTraceSample s
  | .bistStart => Sys2Proof.Machine.execBistStart s
  | .bistStageDone otpOk results => Sys2Proof.Machine.execBistStageDone otpOk results s
  | .bistInterrupt cond => Sys2Proof.Machine.execBistInterrupt cond s
  | .bistRetestDone mem pass => Sys2Proof.Machine.execBistRetestDone mem pass s
  | .railsGood => Sys2Proof.Machine.execRailsGood s
  | .railWarning r => Sys2Proof.Machine.execRailWarning r s
  | .railFault r => Sys2Proof.Machine.execRailFault r s
  | .pinReset => Sys2Proof.Machine.execPinReset s
  | .watchdogExpiry => Sys2Proof.Machine.execWatchdogExpiry s
  | .lockstepMismatch pair => Sys2Proof.Machine.execLockstepMismatch pair s
  | .deferredResetRelease => Sys2Proof.Machine.execDeferredResetRelease s
  | .commandedReset => Sys2Proof.Machine.execCommandedReset s
  | .sleepEntry => Sys2Proof.Machine.execSleepEntry s
  | .wake src => Sys2Proof.Machine.execWake src s
  | .domainPark => Sys2Proof.Machine.execDomainPark s
  | .domainUp d => Sys2Proof.Machine.execDomainUp d s
  | .otpLoadDone ok otp => Sys2Proof.Machine.execOtpLoadDone ok otp s
  | .bootVerifyDone => Sys2Proof.Machine.execBootVerifyDone s
  | .firmwareUp => Sys2Proof.Machine.execFirmwareUp s
  | .readyReached => Sys2Proof.Machine.execReadyReached s
  | .fwSessionTimeout => Sys2Proof.Machine.execFwSessionTimeout s
  | .challengeExpiry => Sys2Proof.Machine.execChallengeExpiry s
  | .authLockoutEnd => Sys2Proof.Machine.execAuthLockoutEnd s
  | .debugDurationExpiry => Sys2Proof.Machine.execDebugDurationExpiry s
  | .authVerifyDone => Sys2Proof.Machine.execAuthVerifyDone s
  | .debugBreak pair addr access => Sys2Proof.Machine.execDebugBreak pair addr access s
  | .lineReset => Sys2Proof.Machine.execLineReset s
  | .debugTransaction req data parity => Sys2Proof.Machine.execDebugTransaction req data parity s
  | .ddpHaltReq => Sys2Proof.Machine.execDdpHaltReq s
  | .ddpResume => Sys2Proof.Machine.execDdpResume s
  | .ddpStep => Sys2Proof.Machine.execDdpStep s
  | .ddpAuthChal => Sys2Proof.Machine.execDdpAuthChal s
  | .ddpAuthSubmit => Sys2Proof.Machine.execDdpAuthSubmit s
  | .ddpLock => Sys2Proof.Machine.execDdpLock s
  | .ddpAuthAccess write w => Sys2Proof.Machine.execDdpAuthAccess write w s
  | .ddpMemDataAccess write w => Sys2Proof.Machine.execDdpMemDataAccess write w s
  | .ddpRegDataAccess write w => Sys2Proof.Machine.execDdpRegDataAccess write w s
  | .authInLow => Sys2Proof.Machine.execAuthInLow s
  | .authInHigh => Sys2Proof.Machine.execAuthInHigh s
  | .pairFrame f => Sys2Proof.Machine.execPairFrame f s
  | .pairHbLost => Sys2Proof.Machine.execPairHbLost s
  | .pairLaneFaulty lane => Sys2Proof.Machine.execPairLaneFaulty lane s
  | .pairPartnerAbsent => Sys2Proof.Machine.execPairPartnerAbsent s
  | .pairDisagree => Sys2Proof.Machine.execPairDisagree s
  | .relinquishTimeout => Sys2Proof.Machine.execRelinquishTimeout s
  | .syncInEdge t => Sys2Proof.Machine.execSyncInEdge t s
  | .syncLost => Sys2Proof.Machine.execSyncLost s
  | .ptpSyncSend => Sys2Proof.Machine.execPtpSyncSend s
  | .ptpSyncReceive m => Sys2Proof.Machine.execPtpSyncReceive m s
  | .plantCommandDue => Sys2Proof.Machine.execPlantCommandDue s
  | .registerWrite a v by_ => Sys2Proof.Machine.execRegisterWrite a v by_ s
  | .latchedRead a => Sys2Proof.Machine.execLatchedRead a s
  | .unmappedAccess a by_ => Sys2Proof.Machine.execUnmappedAccess a by_ s
  | .safWriteAttempt a => Sys2Proof.Machine.execSafWriteAttempt a s
  | .offDomainAccess a by_ => Sys2Proof.Machine.execOffDomainAccess a by_ s
  | .clampAccess mem => Sys2Proof.Machine.execClampAccess mem s
  | .lnkRetrain l => Sys2Proof.Machine.execLnkRetrain l s
  | .lnkInjCfgWrite l v => Sys2Proof.Machine.execLnkInjCfgWrite l v s
  | .tchCommit n => Sys2Proof.Machine.execTchCommit n s
  | .tchCntModeStart n mode => Sys2Proof.Machine.execTchCntModeStart n mode s
  | .socCommit => Sys2Proof.Machine.execSocCommit s
  | .cnvStart u => Sys2Proof.Machine.execCnvStart u s
  | .urgentRequest u v => Sys2Proof.Machine.execUrgentRequest u v s
  | .stuFlush => Sys2Proof.Machine.execStuFlush s
  | .stuStart ch => Sys2Proof.Machine.execStuStart ch s
  | .stuResume ch => Sys2Proof.Machine.execStuResume ch s
  | .stuAbort ch => Sys2Proof.Machine.execStuAbort ch s
  | .lgrSnap => Sys2Proof.Machine.execLgrSnap s
  | .lgrFlush => Sys2Proof.Machine.execLgrFlush s
  | .watchdogKick => Sys2Proof.Machine.execWatchdogKick s
  | .systemInfo m => Sys2Proof.Machine.execSystemInfo m s
  | .echo m => Sys2Proof.Machine.execEcho m s
  | .reset m => Sys2Proof.Machine.execReset m s
  | .alarmList m => Sys2Proof.Machine.execAlarmList m s
  | .alarmAck m => Sys2Proof.Machine.execAlarmAck m s
  | .hostPortSet m => Sys2Proof.Machine.execHostPortSet m s
  | .hostPortGet m => Sys2Proof.Machine.execHostPortGet m s
  | .stringMapSet m => Sys2Proof.Machine.execStringMapSet m s
  | .stringMapGet m => Sys2Proof.Machine.execStringMapGet m s
  | .gateProfileSet m => Sys2Proof.Machine.execGateProfileSet m s
  | .gateProfileGet m => Sys2Proof.Machine.execGateProfileGet m s
  | .protectionSet m => Sys2Proof.Machine.execProtectionSet m s
  | .protectionGet m => Sys2Proof.Machine.execProtectionGet m s
  | .safetyLimitsSet m => Sys2Proof.Machine.execSafetyLimitsSet m s
  | .safetyLimitsGet m => Sys2Proof.Machine.execSafetyLimitsGet m s
  | .modulationSet m => Sys2Proof.Machine.execModulationSet m s
  | .modulationGet m => Sys2Proof.Machine.execModulationGet m s
  | .timerSet m => Sys2Proof.Machine.execTimerSet m s
  | .timerGet m => Sys2Proof.Machine.execTimerGet m s
  | .dispatchSet m => Sys2Proof.Machine.execDispatchSet m s
  | .dispatchGet m => Sys2Proof.Machine.execDispatchGet m s
  | .dispatchWeights m => Sys2Proof.Machine.execDispatchWeights m s
  | .dispatchStats m => Sys2Proof.Machine.execDispatchStats m s
  | .controlSet m => Sys2Proof.Machine.execControlSet m s
  | .controlGet m => Sys2Proof.Machine.execControlGet m s
  | .motorModelSet m => Sys2Proof.Machine.execMotorModelSet m s
  | .motorModelGet m => Sys2Proof.Machine.execMotorModelGet m s
  | .driveLimitsSet m => Sys2Proof.Machine.execDriveLimitsSet m s
  | .driveLimitsGet m => Sys2Proof.Machine.execDriveLimitsGet m s
  | .feedbackSet m => Sys2Proof.Machine.execFeedbackSet m s
  | .feedbackGet m => Sys2Proof.Machine.execFeedbackGet m s
  | .startSet m => Sys2Proof.Machine.execStartSet m s
  | .startGet m => Sys2Proof.Machine.execStartGet m s
  | .startAbort m => Sys2Proof.Machine.execStartAbort m s
  | .startStatus m => Sys2Proof.Machine.execStartStatus m s
  | .dockSet m => Sys2Proof.Machine.execDockSet m s
  | .dockGet m => Sys2Proof.Machine.execDockGet m s
  | .dockMove m => Sys2Proof.Machine.execDockMove m s
  | .dockStop m => Sys2Proof.Machine.execDockStop m s
  | .dockResume m => Sys2Proof.Machine.execDockResume m s
  | .dockHome m => Sys2Proof.Machine.execDockHome m s
  | .dockCompare m => Sys2Proof.Machine.execDockCompare m s
  | .dockSetPos m => Sys2Proof.Machine.execDockSetPos m s
  | .dockStatus m => Sys2Proof.Machine.execDockStatus m s
  | .conversionSet m => Sys2Proof.Machine.execConversionSet m s
  | .conversionGet m => Sys2Proof.Machine.execConversionGet m s
  | .cellCalSet m => Sys2Proof.Machine.execCellCalSet m s
  | .cellCalGet m => Sys2Proof.Machine.execCellCalGet m s
  | .clockSet m => Sys2Proof.Machine.execClockSet m s
  | .clockGet m => Sys2Proof.Machine.execClockGet m s
  | .clockStatus m => Sys2Proof.Machine.execClockStatus m s
  | .powerSet m => Sys2Proof.Machine.execPowerSet m s
  | .powerGet m => Sys2Proof.Machine.execPowerGet m s
  | .telemetrySet m => Sys2Proof.Machine.execTelemetrySet m s
  | .telemetryGet m => Sys2Proof.Machine.execTelemetryGet m s
  | .gridSet m => Sys2Proof.Machine.execGridSet m s
  | .gridGet m => Sys2Proof.Machine.execGridGet m s
  | .gridSetpoint m => Sys2Proof.Machine.execGridSetpoint m s
  | .gridStatus m => Sys2Proof.Machine.execGridStatus m s
  | .modeSet m => Sys2Proof.Machine.execModeSet m s
  | .modeGet m => Sys2Proof.Machine.execModeGet m s
  | .bleedRelease m => Sys2Proof.Machine.execBleedRelease m s
  | .loopInputSet m => Sys2Proof.Machine.execLoopInputSet m s
  | .slotModeSet m => Sys2Proof.Machine.execSlotModeSet m s
  | .eventLogRead m => Sys2Proof.Machine.execEventLogRead m s
  | .traceRead m => Sys2Proof.Machine.execTraceRead m s
  | .cellTelemetry m => Sys2Proof.Machine.execCellTelemetry m s
  | .ledgerRead m => Sys2Proof.Machine.execLedgerRead m s
  | .meterReading m => Sys2Proof.Machine.execMeterReading m s
  | .timeSet m => Sys2Proof.Machine.execTimeSet m s
  | .commission m => Sys2Proof.Machine.execCommission m s
  | .ledgerExport m => Sys2Proof.Machine.execLedgerExport m s
  | .ledgerImport m => Sys2Proof.Machine.execLedgerImport m s
  | .charListGet m => Sys2Proof.Machine.execCharListGet m s
  | .fwLoadBegin m => Sys2Proof.Machine.execFwLoadBegin m s
  | .fwLoadData m => Sys2Proof.Machine.execFwLoadData m s
  | .fwLoadCommit m => Sys2Proof.Machine.execFwLoadCommit m s
  | .attest m => Sys2Proof.Machine.execAttest m s
  | .debugChallenge m => Sys2Proof.Machine.execDebugChallenge m s
  | .debugUnlock m => Sys2Proof.Machine.execDebugUnlock m s
  | .debugLock m => Sys2Proof.Machine.execDebugLock m s
  | .recommission m => Sys2Proof.Machine.execRecommission m s
  | .regRead m => Sys2Proof.Machine.execRegRead m s
  | .regWrite m => Sys2Proof.Machine.execRegWrite m s
  | .comparatorTest m => Sys2Proof.Machine.execComparatorTest m s
  | .laneInject m => Sys2Proof.Machine.execLaneInject m s
  | .pairInject m => Sys2Proof.Machine.execPairInject m s
  | .bistRun m => Sys2Proof.Machine.execBistRun m s
  | .bistResult m => Sys2Proof.Machine.execBistResult m s
  | .fuseRepair m => Sys2Proof.Machine.execFuseRepair m s
  | .pairSet m => Sys2Proof.Machine.execPairSet m s
  | .pairStatus m => Sys2Proof.Machine.execPairStatus m s
  | .pairTakeover m => Sys2Proof.Machine.execPairTakeover m s
  | .plantSet m => Sys2Proof.Machine.execPlantSet m s
  | .plantStatus m => Sys2Proof.Machine.execPlantStatus m s
  | .plantCommand m => Sys2Proof.Machine.execPlantCommand m s
  | .bypassOpenTimer c => Sys2Proof.Machine.execBypassOpenTimer c s
  | .selftestDeadline c char => Sys2Proof.Machine.execSelftestDeadline c char s
  | .clockFaultClear count => Sys2Proof.Machine.execClockFaultClear count s
  | .ethLinkStatus port up => Sys2Proof.Machine.execEthLinkStatus port up s
  | .ptpFollowUpReceive m => Sys2Proof.Machine.execPtpFollowUpReceive m s
  | .ptpDelayReqReceive m => Sys2Proof.Machine.execPtpDelayReqReceive m s
  | .ptpDelayRespReceive m => Sys2Proof.Machine.execPtpDelayRespReceive m s
  | .freeRunningOutput c v idx => Sys2Proof.Machine.execFreeRunningOutput c v idx s
  | .railReturn r => Sys2Proof.Machine.execRailReturn r s
  | .pinResetRelease => Sys2Proof.Machine.execPinResetRelease s
  | .pairLaneValid lane valid => Sys2Proof.Machine.execPairLaneValid lane valid s

end Sys2Proof.Machine
end

