-- ==== Sys2Proof/Safety.lean ====
section
/-! DEFINITION. What a sound state and a safe run are, in the terms the claims use. -/
namespace Sys2Proof.Safety
open Sys2Proof.Machine

/-- The memory lists rising addresses and no byte that an unlisted address reads as (R33), and every write of the last
command has been taken. -/
def Sound (s : State) : Prop := Memory.wf s.mem = true ∧ s.core.memOps = []

/-- A run of `n` steps from a state ends in another. -/
def Run : Nat → State → State → Prop
  | 0, s, t => t = s
  | n + 1, s, t => ∃ u, step s = .next u ∧ Run n u t

end Sys2Proof.Safety
end

