-- ==== Sys2Proof/Certificates/Slice0/Obligations.lean ====
section
/-! DEFINITION. The statements for the provers: what each command does where its conditions hold, what every step keeps, and
what reset leaves. -/
namespace Sys2Proof.Claims
open Sys2Proof.Machine

/-- The command completes, and the block after it has the property. -/
def Gives (i : Instr) (s : State) (P : Machine.Core → Prop) : Prop := ∃ t, exec i s = .next t ∧ P t.core

/-- The command completes, and the block and the memory after it have the property. -/
def GivesM (i : Instr) (s : State) (P : Machine.Core → Memory → Prop) : Prop := ∃ t, exec i s = .next t ∧ P t.core t.mem

/-- The alarm table lists the alarm, unacknowledged, with the first three values its rule names (R351, R391): its own entry,
or the fold entry of its name. -/
abbrev Listed (c : Machine.Core) (nm : AlarmName) (inst : Nat) (data : List Nat) : Prop :=
  ∃ a ∈ c.tlm.alarms, a.name = nm ∧ (a.fold = true ∨ a.inst = inst) ∧ a.acked = false ∧ a.data = Core.raise.fit3 data

/-- The mailbox of the message is FREE and served, and its sequence is not the one executed last (R336, R337, R353). -/
abbrev Free (c : Machine.Core) (m : Msg) : Prop :=
  c.getF (mbState m.mb.val) = 0 ∧ c.served m.mb.val = true ∧ c.repeated m = false ∧ m.body.length ≤ 4080

/-- A signed message: the body is the payload `p` and a trailer that passes the checks of R432 for the opcode. -/
abbrev ReadySigned (c : Machine.Core) (op : Nat) (m : Msg) (p : List Byte) : Prop :=
  Free c m ∧ m.flags = 1 ∧ p = m.body.take (m.body.length - trailerLen) ∧
    c.trailerOk op p (m.body.drop (m.body.length - trailerLen)) = true ∧
    c.blobSeqOk op (m.body.drop (m.body.length - trailerLen)) = true

/-- A message that passes the checks of R340 that do not depend on the command: unsigned with payload `p`, or signed. -/
abbrev Ready (c : Machine.Core) (op : Nat) (m : Msg) (p : List Byte) : Prop :=
  (Free c m ∧ m.flags = 0 ∧ p = m.body) ∨ ReadySigned c op m p

/-- The reply kept for the message's mailbox, which is FREE again with READY set (R336, R343). -/
abbrev Answered (c : Machine.Core) (m : Msg) (op status : Nat) (payload : List Byte) : Prop :=
  (∃ r ∈ (c.box m.mb.val).stored, r.ref.op = op ∧ r.ref.seq = m.seq.toNat ∧ r.ref.tag = m.tag.toNat ∧ r.status = status ∧
    r.payload = payload) ∧ c.getF (mbState m.mb.val) = 0 ∧ c.getBit MBX_REPLY_READY.READY m.mb.val = true

/-- The command is ACCEPTED: its mailbox is PENDING with READY set (R336). -/
abbrev Accepted (c : Machine.Core) (m : Msg) (op : Nat) : Prop :=
  (∃ r ∈ (c.box m.mb.val).stored, r.ref.op = op ∧ r.ref.seq = m.seq.toNat ∧ r.status = stACCEPTED ∧ r.payload = []) ∧
    c.getF (mbState m.mb.val) = 3 ∧ c.getBit MBX_REPLY_READY.READY m.mb.val = true

/-- A page of ALARM_LIST from an index (R351). -/
def alarmPage (l : List Alarm) (k : Nat) : List Byte :=
  le 2 l.length ++ le 2 ((l.drop k).take 127).length ++ ((l.drop k).take 127).flatMap Alarm.bytes

/-- The reply of CLOCK_STATUS (R331). -/
def clockReply (c : Machine.Core) : List Byte :=
  le 1 (c.pll 0) ++ le 1 (c.pll 1) ++ le 1 (c.pll 2) ++ le 1 (c.pll 3) ++ le 1 (c.reg CLK_STATUS.a).toNat
    ++ le 1 (c.getF CLK_STATUS.ON_BYPASS) ++ zeros 2 ++ le 2 (c.getF CLK_PHASE.PHI) ++ leI 2 (satS 16 c.slewRemain)
    ++ le 2 (c.getF CLK_HOLD_PPM.PPM) ++ zeros 2 ++ le 4 c.holdMs ++ le 6 c.wall ++ zeros 6

/-! ### Frames -/

/-- The block without what the command in progress sent. -/
def quiet (c : Machine.Core) : Machine.Core := { c with memOps := [], mbx := { c.mbx with tx := [] } }

/-- FRAME. The command gives a next state, and in it the queue, every byte of memory and every register outside `W` are as
before, and so is everything of the block but what `back` puts back. -/
def Keeps (i : Instr) (W : Nat → Bool) (back : Machine.Core → Machine.Core → Machine.Core) : Prop :=
  ∀ s, ∃ t, exec i s = .next t ∧ t.pending = s.pending ∧ (∀ a, readByte t.mem a = readByte s.mem a) ∧
    (∀ a, W a = false → t.core.reg a = s.core.reg a) ∧
    quiet { back t.core s.core with regs := s.core.regs, evSet := s.core.evSet } = quiet s.core

/-- The registers that the alarm table and the event log write (R343, R391, R392). -/
def alarmReg (a : Nat) : Bool := [TLM_STATUS.a, TLM_EVENT.a, TLM_LOSS_AB.a, TLM_LOSS_CD.a, MBX_EVENT.a].contains a

/-- The same frame, and in the alarm table no entry of another name appears, disappears or changes, ALARM_TABLE_FOLD apart. -/
def KeepsAlarm (nm : AlarmName) (i : Instr) (W : Nat → Bool) (back : Machine.Core → Machine.Core → Machine.Core) : Prop :=
  Keeps i W back ∧ ∀ s t, exec i s = .next t → ∀ x : Alarm, x.name ≠ nm → x.name ≠ .alarmTableFold →
    (x ∈ t.core.tlm.alarms ↔ x ∈ s.core.tlm.alarms)

/-- The command leaves memory, and every other lane with its cell, its half-bridges and its registers, as they were. -/
def LaneLocal (i : Instr) (l : Fin 128) : Prop :=
  ∀ s, ∃ t, exec i s = .next t ∧ (∀ a, readByte t.mem a = readByte s.mem a) ∧ ∀ n, n < 128 → n ≠ l.val →
    t.core.lane n = s.core.lane n ∧ t.core.cell n = s.core.cell n ∧ t.core.hb (2 * n) = s.core.hb (2 * n) ∧
      t.core.hb (2 * n + 1) = s.core.hb (2 * n + 1) ∧
      ∀ o, o < 0x80 → t.core.reg (LNK_LANE_CTRL.a n + o) = s.core.reg (LNK_LANE_CTRL.a n + o)

/-- The registers that taking and answering a message write (R336, R337, R341, R343, R432). -/
def answerReg (m : Msg) (a : Nat) : Bool :=
  [MBX_STATE.a, MBX_REPLY_READY.a, MBX_EVENT.a, MBX_COUNT.a, SEC_EVENT.a, MBX_MB_LAST.a m.mb.val, MBX_MB_CFG.a m.mb.val].contains a

/-- Length of the reply a mailbox keeps. -/
def keptLen (c : Machine.Core) (m : Msg) : Nat := match (c.box m.mb.val).stored with
  | some r => r.payload.length
  | none => 0

/-- Memory changes at most where the message and its reply stand, and the other mailboxes not at all. -/
def OwnBox (m : Msg) (s t : State) : Prop :=
  (∀ a, a < mbBuf m.mb.val ∨ mbBuf m.mb.val + 16 + max m.body.length (keptLen t.core m) ≤ a →
    readByte t.mem a = readByte s.mem a) ∧
  (∀ n, n ≠ m.mb.val → t.core.box n = s.core.box n) ∧ t.core.mbx.ethUp = s.core.mbx.ethUp ∧ t.pending = s.pending

/-- Nothing but the message's mailbox has changed; `free` only counts the free values used. -/
def OnlyAnswers (m : Msg) (s t : State) : Prop :=
  OwnBox m s t ∧ (∀ a, answerReg m a = false → t.core.reg a = s.core.reg a) ∧
  { t.core with
    regs := s.core.regs, evSet := s.core.evSet, mbx := s.core.mbx, memOps := s.core.memOps, free := s.core.free } = s.core

/-- The payload of the message is the record of the opcode and waits for the next period start, and nothing else but the
message's mailbox and the UNSIGNED flag has changed. -/
def Configured (op : Nat) (m : Msg) (s t : State) : Prop :=
  ∃ r : CfgRec, r.stored = true ∧
    ((m.flags = 0 ∧ r.payload = m.body ∧ r.unsigned = true) ∨
      (m.flags = 1 ∧ r.payload = m.body.take (m.body.length - trailerLen) ∧ r.unsigned = false)) ∧
    t.core.cfg = mapSet (fun _ => CfgRec.none) s.core.cfg op r ∧ t.core.shadow = s.core.shadow ++ [.load op r.payload] ∧
    Answered t.core m op stDONE [] ∧ OwnBox m s t ∧
    (∀ a, answerReg m a = false → a ≠ SEC_STATUS.a → t.core.reg a = s.core.reg a) ∧
    { t.core with
      regs := s.core.regs, evSet := s.core.evSet, mbx := s.core.mbx, memOps := s.core.memOps, cfg := s.core.cfg, shadow := s.core.shadow } = s.core

/-- The debug port answers FAULT, and nothing but DDP_STAT and the port's record of the answer has changed. -/
def PortRefuses (i : Instr) (s : State) : Prop :=
  ∃ t, exec i s = .next t ∧ (∀ a, readByte t.mem a = readByte s.mem a) ∧ t.core.dbg.lastAck = ackFAULT ∧
    (∀ a, a ≠ DDP_STAT.a → t.core.reg a = s.core.reg a) ∧
    quiet { t.core with
      regs := s.core.regs, evSet := s.core.evSet
      dbg := { t.core.dbg with lastAck := s.core.dbg.lastAck, lastData := s.core.dbg.lastData } } = quiet s.core

/-- The blocks whose registers have no write rule beside their access types: link map, self-test, security and telemetry. -/
def plainBlock (a : Nat) : Bool := [0x4003, 0x400F, 0x4010, 0x4014].contains (a / 0x10000)

/-- The blocks whose read-write fields are settings of the foreground: gates, protection, control engine, feedback, docking. -/
def settingBlock (a : Nat) : Bool := [0x4004, 0x4005, 0x4008, 0x4009, 0x400A].contains (a / 0x10000)

/-- MRAM and OTP are as before: the MRAM window, OTP, the configuration records, the image slots, the ledger's copies. -/
def KeepsNv (i : Instr) (s : State) : Prop :=
  ∃ t, exec i s = .next t ∧ (∀ a, regionOf a = .mram → readByte t.mem a = readByte s.mem a) ∧
    t.core.sec.otp = s.core.sec.otp ∧ t.core.cfg = s.core.cfg ∧ t.core.sec.slots = s.core.sec.slots ∧
    t.core.lgr.sods = s.core.lgr.sods

end Sys2Proof.Claims

open Sys2Proof Sys2Proof.Machine Sys2Proof.Claims

/-- Completion of training makes a lane VALID and admits a cell whose serial is the map's; a training timeout makes it
  SILENT; the silent retry, a lost lane and RETRAIN start training; an error limit makes it FAULTY and retires its
  cell. R91, R93, R95, R96, R99, R42. The meanings it speaks of rest on the model's choices of logs 23, 48, 49, 193. -/
def Obligations.LaneStateEvents : Prop :=
  (∀ (s : State) (l : Fin 128),
     s.core.laneState l.val = 1 ∧ 8 ≤ (s.core.lane l.val).commaRun ∧ 7 ≤ (s.core.lane l.val).crcRun ∧ (s.core.lane
       l.val).rtts.length = 16 →
     s.core.flag (LNK_LANE_STATUS.PAD_ACKED l.val) = true ∧ (s.core.lane l.val).serialKnown = true →
     s.core.onCharList (s.core.lane l.val).serial = false ∧ (s.core.lane l.val).serial = (s.core.cellEnt
       l.val).serial →
     Gives (.laneTrainingComplete l) s fun t => t.laneState l.val = 2 ∧ (t.cell l.val).adm = .admitted) ∧
  (∀ (s : State) (l : Fin 128),
     s.core.laneState l.val = 1 →
     ((s.core.lane l.val).trainAt + 5000000 ≤ s.core.now ∨ s.core.flag (LNK_LANE_EVENT.TIMING_FAIL l.val) = true) →
     Gives (.laneTrainingTimeout l) s fun t => t.laneState l.val = 3 ∧ (t.lane l.val).silentAt = s.core.now) ∧
  (∀ (s : State) (l : Fin 128),
     s.core.laneState l.val = 3 →
     (s.core.lane l.val).silentAt + 1000000000 ≤ s.core.now →
     Gives (.silentRetry l) s fun t => t.laneState l.val = 1 ∧ (t.lane l.val).trainAt = s.core.now) ∧
  (∀ (s : State) (l : Fin 128),
     s.core.laneState l.val = 2 →
     4 ≤ (s.core.lane l.val).missRun →
     Gives (.laneDown l) s fun t =>
       t.laneState l.val = 1 ∧ Listed t .laneDown l.val [l.val] ∧ t.flag (LNK_LANE_EVENT.DOWN l.val) = true) ∧
  (∀ (s : State) (l : Fin 128),
     s.core.laneState l.val ≠ 0 →
     Gives (.lnkRetrain l) s fun t => t.laneState l.val = 1 ∧ (t.lane l.val).trainAt = s.core.now) ∧
  (∀ (s : State) (l : Fin 128),
     (s.core.laneState l.val = 1 ∨ s.core.laneState l.val = 2) →
     (64 < (s.core.lane l.val).errors ∨ (s.core.lane l.val).tries = 4) →
     Gives (.laneFaulty l) s fun t =>
       t.laneState l.val = 4 ∧ Listed t .laneFaulty l.val [l.val, l.val, (s.core.lane l.val).errors] ∧
       (t.cell l.val).adm = .retired ∧ (t.cell l.val).gone = true)

/-- A message starts when it fits; an attempt without an ACK is counted and repeated up to three times; an ACK ends the
  message; the error window moves every 62.5 ms; BYPASS_CLOSE and BYPASS_OPEN go out every 1 ms and a contactor not
  closed within 20 ms is reported. R81, R82, R95, R96, R43. The meanings it speaks of rest on the model's choices of
  logs 46, 49, 138, 174, 197. -/
def Obligations.LinkMessageEvents : Prop :=
  (∀ (s : State) (l : Fin 128) (d : DnMsg),
     s.core.laneState l.val ≠ 0 ∧ s.core.laneState l.val ≠ 3 →
     (s.core.lane l.val).nextMsg = some d →
     nextSlot s.core.now % 2048 / 8 + d.span ≤ 256 ∧ s.core.changeIn l.val (nextSlot s.core.now) (nextSlot
       s.core.now + 8 * d.span) = false →
     Gives (.messageStart l) s fun t =>
       (t.lane l.val).msg = some d ∧ (t.lane l.val).msgEnd = nextSlot s.core.now + 8 * d.span ∧
       t.flag (LNK_LANE_STATUS.MSG_BUSY l.val) = true) ∧
  (∀ (s : State) (l : Fin 128) (d : DnMsg),
     (s.core.lane l.val).msg = some d ∧ d.op ≠ 0x83 →
     (s.core.lane l.val).resend = false ∧ (s.core.lane l.val).tries < 4 ∧ (s.core.lane l.val).msgEnd + 4096 ≤
       s.core.now →
     Gives (.messageAttemptFailed l) s fun t =>
       (t.lane l.val).tries = (s.core.lane l.val).tries + 1 ∧
       (t.lane l.val).resend = decide ((s.core.lane l.val).tries < 3) ∧
       t.flag (LNK_LANE_EVENT.MSG_FAIL l.val) = true) ∧
  (∀ (s : State) (l : Fin 128) (d : DnMsg),
     (s.core.lane l.val).msg = some d ∧ d.op = 0x83 →
     (s.core.lane l.val).resend = false ∧ (s.core.lane l.val).tries < 4 ∧ (s.core.lane l.val).msgEnd + 4096 ≤
       s.core.now →
     Gives (.messageAttemptFailed l) s fun t =>
       (t.lane l.val).msg = none ∧ (t.lane l.val).tries = 0 ∧ t.flag (LNK_LANE_STATUS.MSG_BUSY l.val) = false) ∧
  (∀ (s : State) (l : Fin 128) (p : BitVec 24) (d : DnMsg),
     (s.core.lane l.val).msg = some d ∧ d.op = bitsOf p.toNat 16 8 ∧ (s.core.lane l.val).msgCrc = bitsOf p.toNat 8 8
       →
     (s.core.lane l.val).resend = false ∧ (s.core.lane l.val).tries ≠ 4 ∧ bitsOf p.toNat 0 8 ≠ 3 →
     Gives (.ackRecord l p) s fun t =>
       (t.lane l.val).msg = none ∧ (t.lane l.val).tries = 0 ∧ t.flag (LNK_LANE_STATUS.MSG_BUSY l.val) = false) ∧
  (∀ (s : State) (l : Fin 128),
     (s.core.lane l.val).bucketAt + 62500000 ≤ s.core.now →
     Gives (.errorBucketRoll l) s fun t =>
       (t.lane l.val).buckets = 0 :: (s.core.lane l.val).buckets.take 15 ∧
       (t.lane l.val).bucketAt = (s.core.lane l.val).bucketAt + 62500000 ∧
       t.getF (LNK_LANE_ERR_WINDOW.SUM l.val) = min 255 (sumN ((s.core.lane l.val).buckets.take 15))) ∧
  (∀ (s : State) (n : Fin 128),
     (s.core.cell n.val).bcOn = true ∧ (s.core.cell n.val).bcNext ≤ s.core.now ∧ s.core.role n.val = 1 →
     s.core.getF PAI_STATUS.AUTH ≠ 1 ∧ s.core.laneOn n.val = true →
     Gives (.bypassCloseTimer n) s fun t =>
       (t.cell n.val).bcNext = s.core.now + 1000000 ∧
       (t.lane n.val).queue.getLast? = some ⟨0x83, (s.core.lane n.val).serial % 65536⟩ ∧
       (t.cell n.val).bcFirst = some ((s.core.cell n.val).bcFirst.getD s.core.now)) ∧
  (∀ (s : State) (n : Fin 128),
     (s.core.cell n.val).boOn = true ∧ (s.core.cell n.val).boNext ≤ s.core.now →
     s.core.getF PAI_STATUS.AUTH ≠ 1 ∧ s.core.laneOn n.val = true ∧ s.core.laneState n.val ≠ 4 →
     Gives (.bypassOpenTimer n) s fun t =>
       (t.cell n.val).boNext = s.core.now + 1000000 ∧ (t.lane n.val).queue.getLast? = some ⟨0x03, 0⟩) ∧
  (∀ (s : State) (n : Fin 128) (u : Nat),
     (s.core.cell n.val).bcFirst = some u ∧ (s.core.cell n.val).bcOn = true ∧ (s.core.cell n.val).unconf = false ∧ u
       + 20000000 ≤ s.core.now →
     Gives (.bypassUnconfirmed n) s fun t =>
       (t.cell n.val).unconf = true ∧ Listed t .bypassUnconfirmed n.val [n.val] ∧
       t.flag (LNK_LANE_EVENT.BYPASS_UNCONFIRMED n.val) = true)

/-- A frame of a training or VALID lane counts the frames received in a row and those without a comma, as its 10-bit
  groups decode after the injector, and keeps the round trip; a silent frame time is one without a comma and breaks
  the run; an IDENT part sets its bits of the serial; HEALTH keeps its value by its code, and the contactor,
  hard-latch and role codes set their status fields; an unknown record type is an event; an AUX_MARK opens a dwell;
  INJ_CFG is written where injection is permitted and denied elsewhere; a HARD_TRIP record is an event of its lane
  and shows its latches, and where it names a switch that is not under test it is a hard trip of the protection; a
  saturated ECHO is an event and another one enters its half-bridge's conduction delays. R87, R88, R86, R98, R115,
  R121, R364. The meanings it speaks of rest on the model's choices of logs 48, 50, 77, 174, 176, 192, 193, 196. -/
def Obligations.LinkRecordEvents : Prop :=
  (∀ (s : State) (l : Fin 128) (slot0 : BitVec 10) (chars : List (BitVec 10)) (rtt : Nat),
     (s.core.laneState l.val = 1 ∨ s.core.laneState l.val = 2) →
     Gives (.upstreamFrame l (some slot0) chars rtt) s fun t =>
       (t.lane l.val).commaRun = (s.core.lane l.val).commaRun + 1 ∧
       (t.lane l.val).missRun = (if (receive 0 (s.core.lane l.val).rd (s.core.lane l.val).lastChar (s.core.inject
         l.val (slot0 :: chars)).2).2.2.2 then 0 else (s.core.lane l.val).missRun + 1) ∧
       (t.lane l.val).rtts = lastN 16 ((s.core.lane l.val).rtts ++ [rtt])) ∧
  (∀ (s : State) (l : Fin 128) (rtt : Nat),
     (s.core.laneState l.val = 1 ∨ s.core.laneState l.val = 2) →
     Gives (.upstreamFrame l none [] rtt) s fun t =>
       (t.lane l.val).commaRun = 0 ∧ (t.lane l.val).missRun = (s.core.lane l.val).missRun + 1 ∧
       (t.lane l.val).crcRun = 0 ∧ (t.lane l.val).rtts = (s.core.lane l.val).rtts) ∧
  (∀ (s : State) (l : Fin 128) (p : BitVec 24),
     (s.core.laneState l.val = 1 ∨ s.core.laneState l.val = 2) →
     bitsOf p.toNat 22 2 < 3 →
     Gives (.identRecord l p) s fun t =>
       bitOf (t.lane l.val).ident (bitsOf p.toNat 22 2) = true ∧
       bitsOf (t.lane l.val).serial (22 * bitsOf p.toNat 22 2) (if bitsOf p.toNat 22 2 = 2 then 20 else 22) = bitsOf
         p.toNat 0 (if bitsOf p.toNat 22 2 = 2 then 20 else 22)) ∧
  (∀ (s : State) (l : Fin 128) (p : BitVec 24),
     (s.core.laneState l.val = 1 ∨ s.core.laneState l.val = 2 ∨ s.core.laneState l.val = 4) →
     Gives (.healthRecord l p) s fun t =>
       (t.lane l.val).healthOf (bitsOf p.toNat 16 8) = bitsOf p.toNat 0 16 ∧
       (bitsOf p.toNat 16 8 = 1 → t.flag (LNK_LANE_STATUS.BYPASS_CLOSED l.val) = decide (bitsOf p.toNat 0 16 = 1)) ∧
       (bitsOf p.toNat 16 8 = 2 → t.getF (LNK_LANE_STATUS.HARD_LATCH l.val) = bitsOf p.toNat 0 16 % 2 ^
         (LNK_LANE_STATUS.HARD_LATCH l.val).len) ∧
       (bitsOf p.toNat 16 8 = 9 → t.getF (LNK_LANE_STATUS.FAR_ROLE l.val) = bitsOf p.toNat 0 16 % 2 ^
         (LNK_LANE_STATUS.FAR_ROLE l.val).len)) ∧
  (∀ (s : State) (l : Fin 128) (type : BitVec 8),
     7 ≤ type.toNat →
     (s.core.laneState l.val = 1 ∨ s.core.laneState l.val = 2) →
     Gives (.unknownRecord l type) s fun t => t.flag (LNK_LANE_EVENT.UNKNOWN_RECORD l.val) = true) ∧
  (∀ (s : State) (l : Fin 128) (p : BitVec 24),
     (s.core.laneState l.val = 1 ∨ s.core.laneState l.val = 2) →
     Gives (.auxMarkRecord l p) s fun t => (t.cellVal l.val).auxIdx = some (bitsOf p.toNat 21 3)) ∧
  (∀ (s : State) (l : Fin 128) (v : BitVec 32),
     s.core.injectable = true →
     bitsOf v.toNat 3 4 < 10 →
     Gives (.lnkInjCfgWrite l v) s fun t =>
       t.reg (LNK_LANE_INJ_CFG.a l.val) = BitVec.ofNat 32 (v.toNat % 2 ^ 28) ∧
       t.flag (LNK_LANE_INJ_STATUS.ACTIVE l.val) = decide (v.toNat % 4 ≠ 0) ∧
       t.flag (LNK_LANE_INJ_STATUS.DENIED l.val) = false) ∧
  (∀ (s : State) (l : Fin 128) (v : BitVec 32),
     (s.core.injectable = false ∨ 10 ≤ bitsOf v.toNat 3 4) →
     Gives (.lnkInjCfgWrite l v) s fun t =>
       t.flag (LNK_LANE_INJ_STATUS.DENIED l.val) = true ∧
       t.reg (LNK_LANE_INJ_CFG.a l.val) = s.core.reg (LNK_LANE_INJ_CFG.a l.val)) ∧
  (∀ (s : State) (l : Fin 128) (p : BitVec 24) (u : Nat),
     s.core.laneState l.val ≠ 0 →
     Gives (.hardTripRecord l p u) s fun t =>
       t.flag (LNK_LANE_EVENT.HARD_TRIP l.val) = true ∧
       t.getF (LNK_LANE_STATUS.HARD_LATCH l.val) = bitsOf p.toNat 16 4) ∧
  (∀ (s : State) (l : Fin 128) (p : BitVec 24) (u i : Nat),
     s.core.laneState l.val ≠ 0 →
     i < 4 ∧ bitOf (bitsOf p.toNat 20 4) i = true ∧ s.core.underTest l.val i = false →
     Gives (.hardTripRecord l p u) s fun t => t.flag PRT_EVENT.HARD_TRIP = true ∧ t.getF PRT_LAST_TRIP.KIND = 1) ∧
  (∀ (s : State) (l : Fin 128) (p : BitVec 24),
     s.core.laneState l.val = 2 →
     (bitsOf p.toNat 11 10 = 1023 ∨ bitsOf p.toNat 0 11 = 2047) →
     Gives (.echoRecord l p) s fun t => t.flag GDP_EVENT.ECHO_SATURATED = true) ∧
  (∀ (s : State) (l : Fin 128) (p : BitVec 24),
     s.core.laneState l.val = 2 →
     bitsOf p.toNat 11 10 ≠ 1023 ∧ bitsOf p.toNat 0 11 ≠ 2047 →
     Gives (.echoRecord l p) s fun t =>
       (if bitOf p.toNat 23 then (t.ledAcc l.val).cdR else (t.ledAcc l.val).cdL) = lastN 16 ((if bitOf p.toNat 23
         then (s.core.ledAcc l.val).cdR else (s.core.ledAcc l.val).cdL) ++
         [2 * bitsOf p.toNat 11 10 + bitsOf p.toNat 0 11]))

/-- A soft trip that passes its filter is an event with its alarm and counts, and unless FORCE_SHORT stands it holds its
  leg; a merged window cut at XB_MAX counts an overrun; an exclusion ends at its period; TRIP_CLEAR is queued once
  after RETRY_MIN_OFF; a soft release that passes its bound records its result. R123, R127, R126, R128, R129, R135,
  R150. The meanings it speaks of rest on the model's choices of logs 44, 45, 50, 138, 196. -/
def Obligations.TripEvents : Prop :=
  (∀ (s : State) (sw : Fin 512) (u : Nat) (run : List Byte),
     s.core.flag PRT_CTRL.SOFT_EN = true ∧ s.core.flagsCount (sw.val / 4) = true ∧ s.core.underTest (sw.val / 4)
       (sw.val % 4) = false →
     run.length = s.core.filterK ∧ run.all (fun b => (upFields b).flag (sw.val % 4)) = true ∧ s.core.now = u + 128 +
       8 * (s.core.filterK - 1) + 40 ∧ (List.range s.core.filterK).all (fun j => s.core.eligible (sw.val / 4)
       (sw.val % 4) (u + 8 * j)) = true →
     Gives (.softTrip sw ⟨u, run⟩) s fun t =>
       t.flag PRT_EVENT.SOFT_TRIP = true ∧ Listed t .softTrip (sw.val / 2) [sw.val / 2, sw.val % 4, u] ∧
       t.getF PRT_LAST_TRIP.HB = sw.val / 2 ∧ t.getF PRT_LAST_TRIP.KIND = 0 ∧
       t.getF PRT_LAST_TRIP.MASK = 2 ^ (sw.val % 4) ∧
       (s.core.getF SAF_STATUS.FORCE < 2 → (t.hb (sw.val / 2)).held = true)) ∧
  (∀ (s : State) (k : Fin 6) (w : Nat × Nat × Nat),
     (s.core.xb k.val).wins.find? (fun v => v.2.2 == 1 && decide (v.2.1 ≤ s.core.now)) = some w →
     Gives (.xblankOverrun k) s fun t =>
       t.flag PRT_EVENT.XBLANK_OVERRUN = true ∧ Listed t .xblankOverrun k.val [k.val] ∧
       (w.1, w.2.1, 2) ∈ (t.xb k.val).wins ∧
       t.getF (PRT_STR_STAT.OVERRUNS k.val) = satN (PRT_STR_STAT.OVERRUNS k.val).len (s.core.getF
         (PRT_STR_STAT.OVERRUNS k.val) + 1)) ∧
  (∀ (s : State) (n : Fin 128) (b : Nat),
     (s.core.cell n.val).excl = some b ∧ b ≤ s.core.modu.period →
     Gives (.exclusionEnd n) s fun t => (t.cell n.val).excl = none ∧ (t.cell n.val).exclSince = none) ∧
  (∀ (s : State) (h : Fin 256) (u : Nat),
     (s.core.hb h.val).clearAt = some u ∧ u ≤ s.core.now ∧ (s.core.hb h.val).held = true ∧ (s.core.hb
       h.val).hardMask ≠ 0 →
     s.core.retryOn h.val = true ∧ (s.core.cell (h.val / 2)).gone = false ∧ s.core.getF PAI_STATUS.AUTH ≠ 1 ∧
       s.core.laneOn (h.val / 2) = true ∧ s.core.laneState (h.val / 2) ≠ 4 →
     Gives (.retryMinOffElapsed h) s fun t =>
       (t.hb h.val).clearAt = none ∧
       (t.lane (h.val / 2)).queue.getLast? = some ⟨0x41, (s.core.hb h.val).hardMask * 4 ^ (h.val % 2)⟩) ∧
  (∀ (s : State) (n : Fin 128) (char : Byte) (x : SelfTest),
     s.core.prt.test = some x ∧ x.cell = n.val ∧ x.stage = 1 ∧ x.deadline ≠ 0 ∧ x.deadline ≤ s.core.now ∧ x.sw < 4 →
     (s.core.lane n.val).tries ≠ 4 ∧ x.kind = 2 →
     Gives (.selftestDeadline n char) s fun t =>
       t.getF (testField x.cell x.sw false) = (if x.results.headD 0 = 0 then 1 else if (upFields char).flag x.sw
         then 2 else 0) ∧
       t.prt.test = some { x with stage := 2, deadline := 0 })

/-- A stale cell voltage, a stale reference, stale states of charge, a missing temperature, an outlier, a sensor
  disagreement and a missing consensus each raise their alarm with the values their rule names; a window ends every
  1 024 periods; SOC_COMMIT waits for the next period start. R183, R184, R186, R187, R199, R201. The meanings it
  speaks of rest on the model's choices of log 66. -/
def Obligations.DispatchEvents : Prop :=
  (∀ (s : State) (n : Fin 128),
     s.core.role n.val = 1 ∧ s.core.cellV n.val = none ∧ s.core.causeOn .cellStale n.val = false →
     Gives (.cellStale n) s fun t =>
       t.flag (DSP_C_STAT.STALE n.val) = true ∧ t.flag DSP_EVENT.CELL_STALE = true ∧
       Listed t .cellStale n.val [n.val, (s.core.cellVal n.val).age]) ∧
  (∀ (s : State) (k : Fin 6),
     (s.core.dstr k.val).staleDue = true ∧ s.core.dispatched = true →
     Gives (.vrefStale k) s fun t =>
       t.flag DSP_EVENT.VREF_STALE = true ∧ Listed t .vrefStale k.val [k.val, (s.core.dstr k.val).refAge] ∧
       (t.dstr k.val).staleDue = false) ∧
  (∀ (s : State),
     4 ≤ s.core.disp.noCommit ∧ s.core.flag DSP_STATUS.SOC_STALE = false →
     Gives .socStale s fun t =>
       t.flag DSP_STATUS.SOC_STALE = true ∧ t.flag DSP_EVENT.SOC_STALE = true ∧
       Listed t .socStale 0xFFFF [s.core.disp.noCommit]) ∧
  (∀ (s : State) (n : Fin 128),
     s.core.role n.val = 1 ∧ s.core.tempC n.val = none ∧ s.core.causeOn .tempMissing n.val = false →
     Gives (.tempMissing n) s fun t =>
       t.flag (DSP_C_STAT.TEMP_MISSING n.val) = true ∧ t.flag DSP_EVENT.TEMP_MISSING = true ∧
       Listed t .tempMissing n.val [n.val]) ∧
  (∀ (s : State) (n : Fin 128),
     s.core.outlierPeriods ≤ mapGet (fun _ => 0) s.core.disp.outRun n.val ∧ s.core.causeOn .cellCurrentOutlier n.val
       = false →
     Gives (.cellCurrentOutlier n) s fun t =>
       t.flag DSP_EVENT.CURRENT_OUTLIER = true ∧
       Listed t .cellCurrentOutlier n.val
         [n.val, dI (s.core.cellVal n.val).is, s.core.getF (DSP_STR_CONS.VALUE (s.core.strOf n.val))]) ∧
  (∀ (s : State) (k : Fin 6) (d : Bool),
     s.core.sensPeriods ≤ (s.core.dstr k.val).run.getD (b2n d) 0 ∧ s.core.causeOn .sensorDisagree (2 * k.val + b2n
       d) = false →
     Gives (.sensorDisagree k d) s fun t =>
       t.flag DSP_EVENT.SENSOR_DISAGREE = true ∧
       ∃ v, Listed t .sensorDisagree (2 * k.val + b2n d) [k.val, b2n d, v]) ∧
  (∀ (s : State) (k : Fin 6),
     s.core.sensPeriods ≤ (s.core.dstr k.val).run.getD 2 0 ∧ s.core.causeOn .noConsensus k.val = false →
     Gives (.noConsensus k) s fun t =>
       t.flag DSP_EVENT.NO_CONSENSUS = true ∧
       Listed t .noConsensus k.val
         [k.val, s.core.getF (DSP_STR_VOTE.N_READ k.val), s.core.getF (DSP_STR_VOTE.N_BAND k.val)]) ∧
  (∀ (s : State),
     s.core.modu.period % 1024 = 0 ∧ s.core.disp.winDone ≠ s.core.modu.period →
     Gives .windowEnd s fun t =>
       t.flag DSP_EVENT.WINDOW_END = true ∧ t.disp.winDone = s.core.modu.period ∧
       t.disp.noCommit = (if s.core.disp.commitAt.any (fun q => decide (s.core.modu.period ≤ q + 1024)) then 0 else
         s.core.disp.noCommit + 1) ∧
       t.getF DSP_STATUS.ROT = (s.core.getF DSP_STATUS.ROT + 1) % 2 ^ DSP_STATUS.ROT.len) ∧
  (∀ (s : State),
     Gives .socCommit s fun t =>
       t.shadow.getLast? = some .soc ∧
       mapGet (fun _ => 32768) t.disp.socNext 127 = (s.core.reg (DSP_C_SOC.a 127)).toNat % 2 ^ 26)

/-- 64 good runs lock the observer and a lost observer is unlocked, each with its event and alarm; the end step records
  its time and counts its run; a host entry past its deadline falls back with an alarm. R225, R230, R236. The
  meanings it speaks of rest on the model's choices of logs 5, 23, 85, 90, 92, 152. -/
def Obligations.ControlEvents : Prop :=
  (∀ (s : State),
     s.core.flag CEN_OBS.LOCKED = false ∧ 64 ≤ s.core.getF CEN_OBS.RUN →
     Gives .observerLocked s fun t =>
       t.flag CEN_OBS.LOCKED = true ∧ t.getF CEN_OBS.RUN = 0 ∧ t.flag CEN_EVENT.OBSERVER_LOCKED = true ∧
       Listed t .observerLocked 0 []) ∧
  (∀ (s : State),
     s.core.flag CEN_OBS.LOCKED = true →
     (max 1 (u8 (obsRec s.core.ctlImage) 28) ≤ s.core.getF CEN_OBS.RUN ∨ s.core.sigRaw 0x4D < i16 (obsRec
       s.core.ctlImage) 26) →
     Gives .observerLost s fun t =>
       t.flag CEN_OBS.LOCKED = false ∧ t.getF CEN_OBS.RUN = 0 ∧ t.flag CEN_EVENT.OBSERVER_LOST = true ∧
       Listed t .observerLost 0 [s.core.getF CEN_OBS.ERR]) ∧
  (∀ (s : State) (u : Nat),
     s.core.ctl.runAt = some u →
     Gives .scheduleComplete s fun t =>
       t.ctl.runAt = none ∧ t.getF CEN_LAST_RUN.END_NS = min 65535 (s.core.now - u) ∧
       t.flag CEN_STATUS.OVERRUN = false ∧
       t.getF CEN_LAST_RUN.RUNS = (s.core.getF CEN_LAST_RUN.RUNS + 1) % 2 ^ CEN_LAST_RUN.RUNS.len) ∧
  (∀ (s : State) (e : Fin 32) (u : Nat),
     (mapGet (fun _ => (⟨none, 0⟩ : Hin)) s.core.ctl.hin (0x60 + e.val)).deadline = some u ∧ u < s.core.now →
     Gives (.hostInputTimeout e) s fun t =>
       t.flag CEN_EVENT.HOST_INPUT_TIMEOUT = true ∧ Listed t .hostInputTimeout (0x60 + e.val) [0x60 + e.val] ∧
       t.shadow = s.core.shadow ++
         [.hin (0x60 + e.val) (mapGet (fun _ => (⟨none, 0⟩ : Hin)) s.core.ctl.hin (0x60 + e.val)).fallback])

/-- The pre-trigger starts entry 0 of the foreground for the sample instant; a conversion of the urgent slot delivers
  its result; START and the trigger output of the named timer channel start a free unit or are counted as ignored;
  an urgent request waits in its slot; a dwell without a mark is skipped and another one delivers its channel. R290,
  R293, R295, R296, R297, R307. The meanings it speaks of rest on the model's choices of logs 78, 80, 196. -/
def Obligations.ConversionEvents : Prop :=
  (∀ (s : State) (u : Fin 4),
     s.core.flag (CNV_U_CTRL.EN u.val) = true ∧ s.core.sarLp u.val = false ∧ s.core.fgLen u.val ≠ 0 ∧
       s.core.sampleHalf ≤ 2 * s.core.now + 1200 →
     (((s.core.unit u.val).phase = 0 ∨ (s.core.unit u.val).phase = 2) ∧ (s.core.unit u.val).fgWait = none ∧ (u.val =
       0 → s.core.pairDue = none)) →
     Gives (.sarPreTrigger u) s fun t =>
       (t.unit u.val).phase = 1 ∧ (t.unit u.val).work.entry = 0 ∧ (t.unit u.val).fg = [] ∧
       (t.unit u.val).due = s.core.sarEdge u.val (max s.core.sampleHalf (s.core.sampleHalf - 1200 + s.core.acqTime
         u.val 0)) + 16 * s.core.sarCycle u.val) ∧
  (∀ (s : State) (u : Fin 4) (raw : BitVec 16),
     (s.core.unit u.val).phase = 3 ∧ (s.core.unit u.val).due ≤ 2 * s.core.now →
     Gives (.sarConversionDone u raw) s fun t =>
       t.getF (CNV_U_URG_RESULT.CODE u.val) = s.core.sarCode u.val raw.toNat % 2 ^ (CNV_U_URG_RESULT.CODE u.val).len
         ∧
       t.flag (CNV_U_URG_RESULT.DONE u.val) = true ∧ t.flag (CNV_U_EVENT.URGENT_DONE u.val) = true ∧
       (t.unit u.val).urgent = none) ∧
  (∀ (s : State) (u : Fin 3),
     s.core.getF (CNV_U_CTRL.TRIG_SRC u.val) = 0 ∧ s.core.flag (CNV_U_CTRL.EN u.val) = true ∧ s.core.fgLen u.val <
       s.core.tableLen u.val →
     ((s.core.unit u.val).phase = 2 ∧ s.core.getF (CNV_U_CTRL.POLICY u.val) = 0 ∧ (u.val = 0 → s.core.pairDue =
       none)) →
     Gives (.cnvStart u) s fun t =>
       t.flag (CNV_U_EVENT.TRIG_IGNORED u.val) = true ∧
       t.getF (CNV_U_COUNT.IGNORED u.val) = satN (CNV_U_COUNT.IGNORED u.val).len (s.core.getF (CNV_U_COUNT.IGNORED
         u.val) + 1)) ∧
  (∀ (s : State) (u : Fin 3),
     s.core.getF (CNV_U_CTRL.TRIG_SRC u.val) = 0 ∧ s.core.flag (CNV_U_CTRL.EN u.val) = true ∧ s.core.fgLen u.val <
       s.core.tableLen u.val →
     ((s.core.unit u.val).phase = 0 ∧ (s.core.unit u.val).bg = none ∧ (s.core.unit u.val).bgEnd = 0 ∧ (u.val = 0 →
       s.core.pairDue = none)) →
     Gives (.cnvStart u) s fun t => (t.unit u.val).phase = 2 ∧ (t.unit u.val).work.entry = s.core.fgLen u.val) ∧
  (∀ (s : State) (u : Fin 3),
     s.core.getF (CNV_U_CTRL.TRIG_SRC u.val) = 1 ∧ mapGet (fun _ => 0) s.core.modu.trig (s.core.getF
       (CNV_U_CTRL.TRIG_TCH u.val)) = s.core.now + 1 ∧ s.core.flag (CNV_U_CTRL.EN u.val) = true ∧ s.core.fgLen u.val
       < s.core.tableLen u.val →
     ((s.core.unit u.val).phase = 0 ∧ (s.core.unit u.val).bg = none ∧ (s.core.unit u.val).bgEnd = 0 ∧ (u.val = 0 →
       s.core.pairDue = none)) →
     Gives (.backgroundTrigger u) s fun t =>
       (t.unit u.val).phase = 2 ∧ (t.unit u.val).work.entry = s.core.fgLen u.val) ∧
  (∀ (s : State) (u : Fin 3) (v : BitVec 32),
     (s.core.unit u.val).urgent ≠ none →
     Gives (.urgentRequest u v) s fun t => t.flag (CNV_U_EVENT.URGENT_BUSY u.val) = true) ∧
  (∀ (s : State) (u : Fin 3) (v : BitVec 32),
     (s.core.unit u.val).urgent = none ∧ sarChannel u.val (v.toNat % 128) = true →
     ((s.core.unit u.val).phase = 0 ∧ (s.core.unit u.val).fgWait = none ∧ (u.val = 0 → s.core.pairDue = none)) →
     Gives (.urgentRequest u v) s fun t =>
       (t.unit u.val).phase = 3 ∧ (t.unit u.val).urgent = some (v.toNat % 128, v.toNat / 128 % 16) ∧
       t.flag (CNV_U_URG_RESULT.DONE u.val) = false) ∧
  (∀ (s : State) (n : Fin 128) (chars : List Byte),
     s.core.laneState n.val = 2 ∧ chars.length = 766 ∧ (s.core.cellVal n.val).auxIdx = none →
     Gives (.auxDwellEnd n chars) s fun t =>
       t.flag CNV_EVENT.AUX_SKIP = true ∧
       t.getF (CNV_C_STAT.AUX_SKIPS n.val) = satN (CNV_C_STAT.AUX_SKIPS n.val).len (s.core.getF
         (CNV_C_STAT.AUX_SKIPS n.val) + 1)) ∧
  (∀ (s : State) (n : Fin 128) (chars : List Byte) (k : Nat),
     s.core.laneState n.val = 2 ∧ chars.length = 766 ∧ (s.core.cellVal n.val).auxIdx = some k ∧ k < 7 →
     Gives (.auxDwellEnd n chars) s fun t =>
       (t.cellVal n.val).auxIdx = none ∧
       t.getI (auxField n.val k) = satS (auxField n.val k).len (rne (s.core.getI (CNV_AUX_GAIN.VALUE k) * sat16 (rne
         (sincSum 256 0 (chars.map (fun b => (upFields b).ab)) * 32768) (256 * 256 * 256))) 32768 + s.core.getI
         (CNV_AUX_OFS.VALUE k)))

/-- Each occurrence of an enabled event kind with prescaler 0 sets its flag; at the update boundary the pending set is
  applied; COMMIT makes the shadow pending; a stopped channel that is started takes its shadow and counts from 0; a
  channel that protection owns refuses COMMIT and CNT_MODE. R172, R173, R174, R175. The meanings it speaks of rest
  on the model's choices of logs 41, 42. -/
def Obligations.TimerChannelEvents : Prop :=
  (∀ (s : State) (k : Fin 64) (kind : Fin 4),
     s.core.tchMode k.val ≠ 0 ∧ (s.core.tch k.val).val 0 ≠ 0 →
     s.core.tchHits k.val kind.val (s.core.tchCount k.val s.core.now).1 = true ∧ (s.core.tch k.val).fired.getD
       kind.val 0 ≠ s.core.now + 1 ∧ (s.core.tch k.val).val 3 / 256 ^ kind.val % 256 = 0 →
     Gives (.tchEvent k) s fun t => t.flag (tchStat k.val kind.val) = true) ∧
  (∀ (s : State) (k : Fin 64) (l : List Nat),
     s.core.tchMode k.val ≠ 0 ∧ (s.core.tch k.val).val 0 ≠ 0 ∧ (s.core.tchCount k.val s.core.now).1 = 0 ∧
       (s.core.tch k.val).pend = some l →
     Gives (.tchUpdateBoundary k) s fun t =>
       (t.tch k.val).applied = l ∧ (t.tch k.val).pend = none ∧ t.flag (MOD_TCH_STAT.PENDING k.val) = false) ∧
  (∀ (s : State) (k : Fin 64),
     s.core.tchOwned k.val = false →
     Gives (.tchCommit k) s fun t =>
       (t.tch k.val).pend = some
         [s.core.getF (MOD_TCH_PERIOD.VALUE k.val), s.core.getF (MOD_TCH_CMP_A.VALUE k.val), s.core.getF (MOD_TCH_CMP_B.VALUE k.val), (s.core.reg (MOD_TCH_PRESC.a k.val)).toNat]
         ∧
       t.flag (MOD_TCH_STAT.PENDING k.val) = true) ∧
  (∀ (s : State) (k : Fin 64),
     s.core.tchOwned k.val = true →
     Gives (.tchCommit k) s fun t => t.flag MOD_EVENT.OWNER_DENIED = true ∧ t.modu.tch = s.core.modu.tch) ∧
  (∀ (s : State) (k : Fin 64) (mode : Fin 4),
     s.core.tchOwned k.val = false ∧ s.core.tchMode k.val = 0 →
     (mode.val = 1 ∨ mode.val = 2) →
     Gives (.tchCntModeStart k mode) s fun t =>
       t.tchMode k.val = mode.val ∧ (t.tch k.val).count = 0 ∧ (t.tch k.val).down = false ∧
       (t.tch k.val).at_ = s.core.now ∧ (t.tch k.val).applied = s.core.tchShadow k.val) ∧
  (∀ (s : State) (k : Fin 64) (mode : Fin 4),
     s.core.tchOwned k.val = true →
     Gives (.tchCntModeStart k mode) s fun t =>
       t.flag MOD_EVENT.OWNER_DENIED = true ∧ t.modu.tch = s.core.modu.tch)

/-- Three good windows in a row lock an acquiring PLL; a gap of the selected reference ends its validity; an island
  changes its clock at a boundary; a slew that has ended locks its PLL; the holdover limit, a window of the clock
  watch outside 5 % and a lost crystal raise their alarms, and their ends clear them. R313, R315, R317, R320, R323,
  R327, R328, R28. The meanings it speaks of rest on the model's choices of logs 2, 23, 117, 156, 176, 207. -/
def Obligations.ClockEvents : Prop :=
  (∀ (s : State) (p : Fin 4) (count bypass : Nat) (phi ppm : Int),
     s.core.pd7 = true ∧ s.core.flag CLK_STATUS.REF_VALID = true ∧ s.core.clk.gap = false ∧ windowOk bypass = true →
     s.core.pll p.val = pllACQUIRE ∧ 2 ≤ s.core.getF (CLK_PLL_STAT.RUN p.val) ∧ ((count : Int) - pllExpect
       p.val).natAbs ≤ 2 →
     Gives (.lockWindowEnd p count bypass phi ppm) s fun t =>
       t.pll p.val = pllLOCKED ∧
       t.getF (CLK_PLL_COUNT.COUNT p.val) = count % 2 ^ (CLK_PLL_COUNT.COUNT p.val).len) ∧
  (∀ (s : State) (p : Fin 4) (count bypass : Nat) (phi ppm : Int),
     s.core.pd7 = true →
     Gives (.lockWindowEnd p count bypass phi ppm) s fun t =>
       t.getF (CLK_PLL_COUNT.COUNT p.val) = count % 2 ^ (CLK_PLL_COUNT.COUNT p.val).len ∧
       (p.val = 0 → (windowOk bypass = false ∨ s.core.clk.gap = true) → t.flag CLK_STATUS.REF_VALID = false)) ∧
  (∀ (s : State) (src : Fin 2),
     s.core.getF CLK_CTRL.REF_SEL = src.val ∧ s.core.flag CLK_STATUS.REF_VALID = true →
     Gives (.referenceGap src) s fun t => t.flag CLK_STATUS.REF_VALID = false ∧ t.clk.gap = true) ∧
  (∀ (s : State) (i : Fin 12) (b d : Nat),
     bypassBit i.val = some b ∧ s.core.clk.change.getD i.val 0 = d ∧ d ≠ 0 →
     Gives (.islandClockSwitch i) s fun t =>
       t.getBit CLK_STATUS.ON_BYPASS b = decide (d = 1) ∧ t.clk.change.getD i.val 0 = 0) ∧
  (∀ (s : State) (p : Fin 4),
     p.val ≠ 0 ∧ s.core.pll p.val = pllSLEW →
     ((p.val = 1 ∧ s.core.slewRemain.natAbs ≤ 10) ∨ (p.val ≠ 1 ∧ s.core.pll 1 = pllLOCKED)) →
     Gives (.phaseRestored p) s fun t =>
       t.pll p.val = pllLOCKED ∧ t.flag CLK_EVENT.PHASE_RESTORED = true ∧ Listed t .phaseRestored p.val [p.val] ∧
       (p.val = 1 → t.slewRemain = 0 ∧ t.clk.lossAt = none)) ∧
  (∀ (s : State) (u : Nat),
     s.core.clk.lossAt = some u ∧ s.core.clk.exceeded = false ∧ s.core.holdMax ≤ s.core.holdMs →
     Gives .holdoverExceeded s fun t =>
       t.clk.exceeded = true ∧ t.flag CLK_EVENT.HOLDOVER_EXCEEDED = true ∧
       Listed t .holdoverExceeded 0 [s.core.holdMs]) ∧
  (∀ (s : State) (count : Nat),
     125 < ((count : Int) - 2500).natAbs ∧ s.core.causeOn .clockFault 0 = false →
     s.core.mode.code ≠ .off ∧ s.core.mode.code ≠ .safe →
     Gives (.clockFault count) s fun t => Listed t .clockFault 0 [count] ∧ .clockFault ∈ t.saf.req) ∧
  (∀ (s : State) (count : Nat),
     ((count : Int) - 2500).natAbs ≤ 125 →
     (∀ a ∈ s.core.tlm.alarms, a.name = .clockFault → a.fold = false ∧ a.inst = 0) →
     Gives (.clockFaultClear count) s fun t => ∀ a ∈ t.tlm.alarms, a.name = .clockFault →
     a.cause = false) ∧
  (∀ (s : State),
     s.core.flag CLK_STATUS.WALL_DEGRADED = false →
     Gives .wallclockDegraded s fun t =>
       t.flag CLK_STATUS.WALL_DEGRADED = true ∧ t.flag CLK_EVENT.WALLCLOCK_DEGRADED = true ∧
       Listed t .wallclockDegraded 0 []) ∧
  (∀ (s : State),
     s.core.flag CLK_STATUS.WALL_DEGRADED = true →
     Gives .aonCrystalReturn s fun t => t.flag CLK_STATUS.WALL_DEGRADED = false)

/-- An update enters the history with its peak; 64 good updates lock; low amplitude, clipping and tracking error unlock
  a LOCKED resolver, each with its event and alarm. R241, R242, R244. The meanings it speaks of rest on the model's
  choices of logs 43, 78, 176, 201. -/
def Obligations.ResolverEvents : Prop :=
  (∀ (s : State) (sin cos : SarRaw) (k u : Nat),
     s.core.fbk.pair = some (k, u) ∧ (s.core.unit 0).phase = 4 ∧ (s.core.unit 0).due ≤ 2 * s.core.now →
     s.core.excitation = true →
     Gives (.resolverUpdate sin cos) s fun t =>
       t.fbk.hist.head?.map (·.1) = some u ∧ t.fbk.hist.tail = s.core.fbk.hist.take 3) ∧
  (∀ (s : State),
     s.core.flag FBK_CTRL.RES_EN = true ∧ s.core.flag FBK_RES_STAT.LOCKED = false ∧ 64 ≤ s.core.getF
       FBK_RES_STAT.RUN →
     Gives .resolverLocked s fun t =>
       t.flag FBK_RES_STAT.LOCKED = true ∧ t.flag FBK_EVENT.RESOLVER_LOCKED = true) ∧
  (∀ (s : State),
     s.core.flag FBK_RES_STAT.LOCKED = true ∧ 4 ≤ s.core.fbk.runLos →
     Gives .resolverLos s fun t =>
       t.flag FBK_RES_STAT.LOCKED = false ∧ t.flag FBK_EVENT.RESOLVER_LOS = true ∧ Listed t .resolverLos 0 []) ∧
  (∀ (s : State),
     s.core.flag FBK_RES_STAT.LOCKED = true ∧ 4 ≤ s.core.fbk.runClip →
     Gives .resolverClip s fun t =>
       t.flag FBK_RES_STAT.LOCKED = false ∧ t.flag FBK_EVENT.RESOLVER_CLIP = true ∧ Listed t .resolverClip 0 []) ∧
  (∀ (s : State),
     s.core.flag FBK_RES_STAT.LOCKED = true ∧ s.core.lotN ≤ s.core.fbk.runLot →
     Gives .resolverLot s fun t =>
       t.flag FBK_RES_STAT.LOCKED = false ∧ t.flag FBK_EVENT.RESOLVER_LOT = true ∧ Listed t .resolverLot 0 [])

/-- A Hall edge sets the code and an impossible one invalidates the angle; an axle edge sets the levels, and two at once
  are a quadrature error; a MARKER edge into the active level latches the count; ENDSTOP edges are events; chatter
  and stuck inputs raise their alarms; a stopped input reads speed 0; a pulse output falls at its end. R245, R246,
  R247, R248, R250, R251, R283. The meanings it speaks of rest on the model's choices of logs 43, 97, 98, 99, 176,
  183. -/
def Obligations.InputEvents : Prop :=
  (∀ (s : State) (code : BitVec 3) (r island : Held),
     s.core.getF FBK_HALL_STAT.CODE ≠ code.toNat →
     s.core.shown s.core.inputStep r = true ∧ s.core.getF FBK_IN_FILT.HALL < r.n →
     Gives (.hallEdge code ⟨r, island⟩) s fun t =>
       t.getF FBK_HALL_STAT.CODE = code.toNat ∧ t.getF FBK_IN_STAT.LEVEL % 8 = code.toNat ∧
       (s.core.flag FBK_CTRL.HALL_EN = true → hallSector (s.core.flag FBK_CTRL.HALL_DIR) code.toNat = none → t.flag
         FBK_HALL_STAT.ANGLE_VALID = false ∧ t.flag FBK_EVENT.HALL_IMPOSSIBLE = true ∧ Listed t .hallImpossible 0
         [code.toNat])) ∧
  (∀ (s : State) (a b : Bool) (r : Held),
     (bitOf (s.core.getF FBK_IN_STAT.LEVEL) 3 ≠ a ∨ bitOf (s.core.getF FBK_IN_STAT.LEVEL) 4 ≠ b) →
     s.core.shown s.core.inputStep r = true ∧ s.core.getF FBK_IN_FILT.AXLE < r.n →
     Gives (.axleEdge a b r) s fun t =>
       t.getBit FBK_IN_STAT.LEVEL 3 = a ∧ t.getBit FBK_IN_STAT.LEVEL 4 = b ∧
       (s.core.flag FBK_CTRL.AXLE_EN = true → s.core.flag FBK_CTRL.AXLE_MODE = false → bitOf (s.core.getF
         FBK_IN_STAT.LEVEL) 3 ≠ a → bitOf (s.core.getF FBK_IN_STAT.LEVEL) 4 ≠ b → t.flag FBK_EVENT.QUAD_ERROR = true
         ∧ t.dok.ext = s.core.dok.ext)) ∧
  (∀ (s : State) (a b : Bool) (r : Held),
     bitOf (s.core.getF FBK_IN_STAT.LEVEL) 3 = a ∧ bitOf (s.core.getF FBK_IN_STAT.LEVEL) 4 ≠ b →
     s.core.shown s.core.inputStep r = true ∧ s.core.getF FBK_IN_FILT.AXLE < r.n →
     s.core.flag FBK_CTRL.AXLE_EN = true ∧ s.core.flag FBK_CTRL.AXLE_MODE = false →
     Gives (.axleEdge a b r) s fun t => (t.dok.ext - s.core.dok.ext).natAbs = 1) ∧
  (∀ (s : State) (a b : Bool) (r : Held),
     s.core.shown s.core.inputStep r = true ∧ r.n ≤ s.core.getF FBK_IN_FILT.AXLE →
     Gives (.axleEdge a b r) s fun t => t.regs = s.core.regs ∧ t.dok = s.core.dok) ∧
  (∀ (s : State) (level : Bool) (r : Held),
     bitOf (s.core.getF FBK_IN_STAT.LEVEL) 5 ≠ level →
     s.core.shown s.core.inputStep r = true ∧ s.core.getF FBK_IN_FILT.MARKER < r.n →
     Gives (.markerEdge level r) s fun t =>
       t.getBit FBK_IN_STAT.LEVEL 5 = level ∧
       (level ≠ s.core.flag FBK_IN_CFG.MARKER_LOW → t.getF FBK_MARKER_POS.COUNT = ofS 32 (s.core.getI
         FBK_AXLE_COUNT.COUNT - s.core.countedAfter r.t) ∧ t.flag FBK_EVENT.MARKER_EDGE = true)) ∧
  (∀ (s : State) (level : Bool) (r : Held),
     bitOf (s.core.getF FBK_IN_STAT.LEVEL) 6 ≠ level →
     s.core.shown s.core.inputStep r = true ∧ s.core.getF FBK_IN_FILT.ENDSTOP < r.n →
     Gives (.endstopEdge level r) s fun t =>
       t.getBit FBK_IN_STAT.LEVEL 6 = level ∧ t.flag FBK_EVENT.ENDSTOP_EDGE = true ∧
       t.dok.edges.getLast? = some
         ⟨true, level != s.core.flag FBK_IN_CFG.ENDSTOP_LOW, r.t, s.core.dok.ext - s.core.countedAfter r.t⟩) ∧
  (∀ (s : State) (input : Fin 7) (u : Nat),
     u ≤ s.core.now ∧ max 1 (s.core.getF FBK_IN_CFG.CHAT_MAX) < s.core.rejected input.val u →
     (s.core.fbk.chatAt.getD input.val 0 = 0 ∨ s.core.fbk.chatAt.getD input.val 0 + 1000000 ≤ u + 1) →
     Gives (.chatter input u) s fun t =>
       t.flag FBK_EVENT.CHATTER = true ∧ Listed t .chatter input.val [input.val]) ∧
  (∀ (s : State) (endstop : Bool) (u : Nat),
     s.core.fbk.activeAt.getD (b2n endstop) none = some u →
     s.core.getF (if endstop then FBK_IN_STUCK.ENDSTOP else FBK_IN_STUCK.MARKER) ≠ 0 ∧ u + s.core.getF (if endstop
       then FBK_IN_STUCK.ENDSTOP else FBK_IN_STUCK.MARKER) * 1000000 < s.core.now →
     s.core.flag (if endstop then FBK_IN_STAT.ENDSTOP_STUCK else FBK_IN_STAT.MARKER_STUCK) = false →
     Gives (.stuckActive endstop) s fun t =>
       t.flag (if endstop then FBK_IN_STAT.ENDSTOP_STUCK else FBK_IN_STAT.MARKER_STUCK) = true ∧
       t.flag FBK_EVENT.STUCK_ACTIVE = true ∧ Listed t .stuckActive (b2n endstop) [5 + b2n endstop]) ∧
  (∀ (s : State) (axle : Bool),
     axle = true ∧ s.core.fbk.axle.tLast + s.core.stopTime * 1000000 < s.core.now ∧ s.core.flag FBK_CTRL.AXLE_EN =
       true →
     Gives (.speedStopped axle) s fun t =>
       t.flag FBK_SPEED_STAT.AXLE_STOPPED = true ∧ t.getF FBK_SPEED_AXLE.SPEED = 0) ∧
  (∀ (s : State) (axle : Bool),
     axle = false ∧ s.core.fbk.hall.tLast + s.core.stopTime * 1000000 < s.core.now ∧ s.core.flag FBK_CTRL.HALL_EN =
       true ∧ hallSector false (s.core.getF FBK_HALL_STAT.CODE) ≠ none →
     Gives (.speedStopped axle) s fun t =>
       t.flag FBK_SPEED_STAT.HALL_STOPPED = true ∧ t.flag FBK_SPEED_STAT.HALL_VALID = true ∧
       t.getF FBK_SPEED_HALL.SPEED = 0) ∧
  (∀ (s : State) (k : Fin 4) (u : Nat),
     s.core.dok.pulseEnd.getD k.val none = some u ∧ u ≤ s.core.now →
     Gives (.dockPulseEnd k) s fun t =>
       t.getBit DOK_STATUS.OUT k.val = false ∧ t.dok.pulseEnd.getD k.val none = none)

/-- A request outside OFF and SAFE asserts a FORCE line and enters SAFE; a leg under FORCE_SHORT goes to 111 after
  FORCE_DT; the decision latch is rewritten every 100 µs; an internal fault, a torque violation, an angle
  disagreement, a crash and a bleed that takes too long raise their alarms; a crash asserts BLEED_DRV; a write to
  the island is counted. R136, R138, R142, R143, R145, R146, R147, R148, R31. The meanings it speaks of rest on the
  model's choices of logs 14, 30, 32, 34, 36, 56, 58, 62, 213. -/
def Obligations.SafetyIslandEvents : Prop :=
  (∀ (s : State),
     s.core.saf.req ≠ [] ∧ s.core.mode.code ≠ .off ∧ s.core.mode.code ≠ .safe →
     Gives .safeRequest s fun t =>
       t.mode.code = .safe ∧ t.mode.from_ = s.core.safeFrom ∧ t.saf.req = [] ∧ t.getF SAF_STATUS.FORCE ≠ 0) ∧
  (∀ (s : State) (h : Fin 256) (u : Nat),
     (s.core.hb h.val).forceAt = some u ∧ launchOf u ≤ s.core.now ∧ (s.core.hb h.val).held = false ∧ 2 ≤ s.core.getF
       SAF_STATUS.FORCE →
     Gives (.forceDtElapsed h) s fun t => (t.hb h.val).forceAt = none ∧ t.getF (GDP_HB_STAT.CODE h.val) = 7) ∧
  (∀ (s : State),
     s.core.saf.internal = false ∧ s.core.saf.latchAt + 100000 ≤ s.core.now →
     Gives .decisionLatchUpdate s fun t =>
       t.getF SAF_STATUS.LATCH = (if s.core.speedRule (if s.core.mode.code = .safe then s.core.mode.from_ else
         s.core.mode.code) = 1 then 2 else 1) ∧
       t.saf.latchAt = s.core.now) ∧
  (∀ (s : State),
     s.core.saf.internal = false →
     Gives .safetyIslandFault s fun t =>
       t.saf.internal = true ∧ Listed t .safetyIslandFault 0 [] ∧ t.getF SAF_STATUS.FORCE ≠ 0 ∧
       (s.core.mode.code ≠ .off → t.mode.code = .safe)) ∧
  (∀ (s : State),
     s.core.tqTime < s.core.saf.tqRun ∧ s.core.saf.tqHit = false →
     Gives .torqueViolation s fun t =>
       t.saf.tqHit = true ∧ Listed t .torqueViolation 0 [] ∧ t.flag SAF_CAUSE.TORQUE_VIOLATION = true) ∧
  (∀ (s : State),
     s.core.tqTime < s.core.saf.angRun ∧ s.core.saf.angHit = false →
     Gives .angleDisagree s fun t =>
       t.saf.angHit = true ∧ Listed t .angleDisagree 0 [] ∧ t.flag SAF_CAUSE.ANGLE_DISAGREE = true) ∧
  (∀ (s : State),
     s.core.saf.crashIn = false →
     Gives .crash s fun t =>
       t.saf.crashIn = true ∧ t.flag SAF_STATUS.CRASH = true ∧ Listed t .crash 0 [] ∧
       t.flag SAF_STATUS.BLEED_DRV = true) ∧
  (∀ (s : State),
     s.core.saf.crashIn = true →
     Gives .crashClear s fun t => t.saf.crashIn = false ∧ t.flag SAF_STATUS.CRASH = false) ∧
  (∀ (s : State) (rawA rawB : BitVec 16),
     s.core.flag SAF_STATUS.BLEED_DRV = true ∧ s.core.saf.bleedNext ≤ s.core.now →
     Gives (.bleedConversion rawA rawB) s fun t =>
       t.saf.bleedNext = s.core.saf.bleedNext + 1000000 ∧
       t.getF SAF_BLEED_TIME.MS = satN 32 ((s.core.now - s.core.saf.bleedAt) / 1000000) ∧
       t.saf.bleedOk = (s.core.saf.bleedOk || (s.core.bleedBelow 0 rawA.toNat && s.core.bleedBelow 1 rawB.toNat))) ∧
  (∀ (s : State),
     s.core.flag SAF_STATUS.BLEED_DRV = true ∧ s.core.saf.bleedAt + 2000000000 ≤ s.core.now ∧ s.core.saf.bleedOk =
       false ∧ s.core.causeOn .bleedTimeout 0 = false →
     Gives .bleedTimeout s fun t => Listed t .bleedTimeout 0 [] ∧ t.flag SAF_CAUSE.BLEED_TIMEOUT = true) ∧
  (∀ (s : State) (a : BitVec 32),
     a.toNat / 0x10000 = 0x4012 →
     Gives (.safWriteAttempt a) s fun t =>
       t.getF SAF_WRITE_ATTEMPTS.COUNT = satN SAF_WRITE_ATTEMPTS.COUNT.len (s.core.getF SAF_WRITE_ATTEMPTS.COUNT +
         1))

/-- CHECK with a locked resolver that agrees selects SYNC on it; eight SYNC periods lead to RUN or, backward, to BRAKE;
  ALIGN leads to RAMP; BRAKE and RAMP that last too long fail the start with their reasons; a lost angle requests
  the safe state. R261, R262, R264, R265. The meanings it speaks of rest on the model's choices of logs 100, 103,
  104, 105. -/
def Obligations.StartEvents : Prop :=
  (∀ (s : State),
     (s.core.start.phase = 1 ∧ s.core.start.next = none ∧ s.core.start.failing = 0 ∧ s.core.start.ran = true ∧
       (131072 ≤ s.core.start.adv.natAbs ∨ s.core.start.phaseAt + 20000000 ≤ s.core.cnv.sampleAt)) →
     ((s.core.atStandstill s.core.emfSpeed = true ∨ s.core.emfPlausible s.core.emfSpeed = true) ∧ s.core.emfAgrees
       s.core.emfSpeed (s.core.atStandstill s.core.emfSpeed) = true ∧ s.core.resLocked = true) →
     Gives .checkWindowEnd s fun t => t.start.next = some (2, 1) ∧ t.start.nEmf = s.core.emfSpeed) ∧
  (∀ (s : State),
     (s.core.start.phase = 1 ∧ s.core.start.next = none ∧ s.core.start.failing = 0 ∧ s.core.start.ran = true ∧
       (131072 ≤ s.core.start.adv.natAbs ∨ s.core.start.phaseAt + 20000000 ≤ s.core.cnv.sampleAt)) →
     s.core.atStandstill s.core.emfSpeed = false ∧ s.core.emfPlausible s.core.emfSpeed = false →
     Gives .checkWindowEnd s fun t =>
       t.start.reason = 2 ∧ ∃ a, Listed t .startFailed 0 [2, dI s.core.emfSpeed, a]) ∧
  (∀ (s : State),
     (s.core.start.phase = 2 ∧ (s.core.start.src = 1 ∨ s.core.start.src = 3) ∧ 8 ≤ s.core.start.periods ∧
       s.core.start.next = none ∧ s.core.start.failing = 0) →
     Gives .startSyncDone s fun t =>
       t.start.next = some (if s.core.backward s.core.start.nS then 3 else 6, s.core.start.src)) ∧
  (∀ (s : State),
     s.core.start.phase = 3 ∧ s.core.start.next = none ∧ s.core.start.failing = 0 ∧ s.core.start.phaseAt +
       30000000000 ≤ s.core.now →
     Gives .brakeTimeout s fun t =>
       t.start.reason = 5 ∧ Listed t .startFailed 0 [5, dI s.core.start.nEmf, dI s.core.start.amp]) ∧
  (∀ (s : State),
     s.core.start.phase = 4 ∧ s.core.start.next = none ∧ s.core.start.failing = 0 ∧ s.core.start.phaseAt + u16
       s.core.startP 16 * 1000000 ≤ s.core.now →
     Gives .tAlignElapsed s fun t =>
       t.start.next = some (5, 4) ∧ t.start.acc = u16 s.core.startP 22 * 65536 ∧ t.start.nImp = 0) ∧
  (∀ (s : State),
     ((s.core.start.phase = 5 ∨ (s.core.start.phase = 2 ∧ s.core.start.src = 5)) ∧ s.core.start.next = none ∧
       s.core.start.failing = 0 ∧ s.core.start.phaseAt + u16 s.core.startP 20 * 1000000 ≤ s.core.now) →
     Gives .handoverTimeout s fun t =>
       t.start.reason = 4 ∧ Listed t .startFailed 0 [4, dI s.core.start.nEmf, dI s.core.start.amp]) ∧
  (∀ (s : State),
     (4 ≤ s.core.start.misses ∨ (s.core.start.phase = 6 ∧ s.core.start.src = 6 ∧ u8 s.core.startP 9 ≤
       s.core.start.extrap)) →
     s.core.mode.code ≠ .safe ∧ s.core.mode.code ≠ .off ∧ s.core.causeOn .angleLost 0 = false →
     Gives .angleLost s fun t => Listed t .angleLost 0 [] ∧ .angleLost ∈ t.saf.req)

/-- A voltage present for 20 ms selects GSYNC and an absent one with a permitted black start selects GFORM; neither
  within 100 ms, or no synchronism within SYNC_TMAX, ends the request with GRID_SYNC_FAILED; tolerances held for
  SYNC_T select GRUN; a condition held beyond its time trips. R60, R61, R62. The meanings it speaks of rest on the
  model's choices of logs 2, 180, 202. -/
def Obligations.GridEvents : Prop :=
  (∀ (s : State) (p : Pending) (u : Nat),
     s.core.gridWaiting = some p ∧ s.core.grid.presentSince = some u ∧ u + 20000000 ≤ s.core.now →
     Gives .gridVoltagePresent s fun t => t.grid.next = some 1 ∧ t.grid.option = p.option) ∧
  (∀ (s : State) (p : Pending) (u : Nat),
     s.core.gridWaiting = some p ∧ s.core.grid.absentSince = some u ∧ u + 20000000 ≤ s.core.now ∧ p.option = 1 ∧
       bitOf (u8 s.core.gridP 6) 1 = true →
     Gives .gridVoltageAbsent s fun t => t.grid.next = some 2 ∧ t.grid.option = 1) ∧
  (∀ (s : State) (p : Pending),
     s.core.gridWaiting = some p ∧ p.accepted + 100000000 ≤ s.core.now ∧ s.core.gridFound p = false →
     Gives .gridNoGridTimeout s fun t => Listed t .gridSyncFailed 0 [1] ∧ t.mode.pend = none) ∧
  (∀ (s : State) (u : Nat),
     s.core.grid.syncSince = some u ∧ s.core.grid.phase = 1 ∧ s.core.grid.next = none ∧ u + u16 s.core.gridP 20 *
       1000000 ≤ s.core.now →
     Gives .gridSyncHeld s fun t => t.grid.next = some 3 ∧ t.grid.auto = true ∧ t.grid.thF = s.core.grid.th) ∧
  (∀ (s : State),
     s.core.grid.phase = 1 ∧ s.core.grid.next = none ∧ s.core.grid.phaseAt + u16 s.core.gridP 22 * 1000000 ≤
       s.core.now →
     Gives .gridSyncTimeout s fun t => Listed t .gridSyncFailed 0 [2] ∧ t.grid.phase = 0 ∧ t.mode.pend = none) ∧
  (∀ (s : State) (k : Nat),
     [1, 2, 3, 4, 5, 6, 7, 8].find? (fun j => (s.core.grid.condSince.getD (j - 1) none).any (fun v => s.core.condOn
       j && decide (v + s.core.condTime j < s.core.cnv.sampleAt))) = some k →
     AlarmName.gridTrip ∉ s.core.saf.req ∧ s.core.mode.code ≠ .safe →
     Gives .gridTrip s fun t =>
       t.grid.lastTrip = k ∧ Listed t .gridTrip 0 [k, dI (s.core.condValue k), s.core.us] ∧
       (s.core.mode.code ≠ .off → .gridTrip ∈ t.saf.req))

/-- Each step of the period is taken once at its time: the period start counts the period, the sample instant is noted,
  data-ready, the apply point latches the torque reference and dispatches, the result is handed over as the update
  set of the next period, and the commit deadline leaves a committed set or counts a repeat. R18, R24, R25, R180.
  The meanings it speaks of rest on the model's choices of logs 4, 28, 29, 31, 53, 63, 64, 65, 77, 85, 92, 108, 149,
  165, 196, 199, 200, 203, 206. -/
def Obligations.ControlPeriodEvents : Prop :=
  (∀ (s : State),
     s.core.flag CLK_STATUS.ORIGIN_SET = true ∧ s.core.modu.start + s.core.tc ≤ s.core.now →
     Gives .periodStart s fun t =>
       t.modu.period = s.core.modu.period + 1 ∧ t.modu.start = s.core.modu.start + s.core.tc ∧ t.modu.stage = 0) ∧
  (∀ (s : State) (bits : List (List CellBit)),
     s.core.flag CLK_STATUS.ORIGIN_SET = true ∧ s.core.modu.stage = 0 ∧ s.core.sampleNow ≤ s.core.now →
     Gives (.sampleInstant bits) s fun t => t.modu.stage = 1 ∧ t.cnv.sampleAt = s.core.sampleNow) ∧
  (∀ (s : State),
     s.core.flag CLK_STATUS.ORIGIN_SET = true ∧ s.core.modu.stage = 1 ∧ s.core.sampleNow + 1200 ≤ s.core.now →
     Gives .dataReady s fun t =>
       t.modu.stage = 2 ∧ (s.core.flag CEN_CTRL.RUN = true → t.ctl.runAt = some s.core.now)) ∧
  (∀ (s : State),
     s.core.flag CLK_STATUS.ORIGIN_SET = true ∧ s.core.modu.stage = 2 ∧ s.core.applyAt ≤ s.core.now →
     Gives .applyPoint s fun t =>
       t.modu.stage = 3 ∧ t.saf.tCmd = rne (s.core.sigRaw 0x43 * s.core.tFs) 32768 ∧ t.disp.out ≠ none) ∧
  (∀ (s : State) (x : DispOut),
     s.core.disp.out = some x ∧ s.core.modu.stage = 3 ∧ s.core.applyAt + s.core.dispatchTime ≤ s.core.now →
     Gives .dispatchComplete s fun t => t.modu.next ≠ none ∧ t.modu.dispatched = true ∧ t.disp.out = none) ∧
  (∀ (s : State),
     s.core.flag CLK_STATUS.ORIGIN_SET = true ∧ s.core.modu.stage = 3 ∧ s.core.modu.start + s.core.tc - 1000 ≤
       s.core.now →
     Gives .commitDeadline s fun t =>
       t.modu.stage = 4 ∧
       ((t.modu.next ≠ none ∧ t.modu.repeats = 0 ∧ t.flag MOD_STATUS.COMMITTED = true) ∨ (t.modu.repeats =
         s.core.modu.repeats + 1 ∧ t.flag MOD_STATUS.REPEATING = true))) ∧
  (∀ (s : State),
     4 ≤ s.core.modu.repeats ∧ s.core.causeOn .dispatchStall 0 = false →
     Gives .dispatchStall s fun t =>
       Listed t .dispatchStall 0 [s.core.modu.repeats] ∧
       (s.core.canRelinquish = false → s.core.mode.code ≠ .off → s.core.mode.code ≠ .safe → .dispatchStall ∈
         t.saf.req))

/-- A ramp below 1 % of rating is over; one that lasts 2 s requests the safe state; a map whose identity checks are
  known is applied, with its counts. R53, R41. The meanings it speaks of rest on the model's choices of log 28. -/
def Obligations.ModeProcedureEvents : Prop :=
  (∀ (s : State) (p : Pending),
     s.core.mode.pend = some p ∧ p.ramp = true ∧ s.core.rampSmall p = true →
     Gives .rampComplete s fun t => t.mode.pend = some { p with ramp := false }) ∧
  (∀ (s : State) (p : Pending),
     s.core.mode.pend = some p ∧ p.ramp = true ∧ p.accepted + 2000000000 ≤ s.core.now ∧ s.core.rampSmall p = false ∧
       AlarmName.rampTimeout ∉ s.core.saf.req →
     s.core.mode.code ≠ .off ∧ s.core.mode.code ≠ .safe →
     Gives .rampTimeout s fun t => Listed t .rampTimeout 0 [] ∧ .rampTimeout ∈ t.saf.req) ∧
  (∀ (s : State),
     s.core.map.checking = true ∧ s.core.identityKnown = true →
     Gives .mapApplied s fun t =>
       t.map.checking = false ∧ t.map.applying = none ∧
       Listed t .mapApplied 0 (s.core.map.id :: s.core.identityCounts))

/-- A doorbell posts a FREE mailbox and is refused and counted elsewhere; a quad-SPI write stores its bytes, a read and
  STATUS answer, CLEAR_READY clears; an invalid transaction is counted; a datagram for a mailbox is posted and a bad
  one dropped; ARP and ICMP requests for the port's address are answered; a CAN message is assembled in order; a
  posted ECHO that is taken answers its payload, and a taken command that meets an uncorrectable error answers
  MEMORY_FAULT with its address and the cause ECC. R336, R342, R344, R346, R29, R361. The meanings it speaks of rest
  on the model's choices of logs 5, 16, 139, 140, 141, 142, 143, 187. -/
def Obligations.HostPortEvents : Prop :=
  (∀ (s : State) (m : Fin 16),
     s.core.getF (mbState m.val) = 0 →
     Gives (.doorbell m) s fun t => t.getF (mbState m.val) = 1 ∧ (t.box m.val).bell = s.core.now) ∧
  (∀ (s : State) (m : Fin 16),
     s.core.getF (mbState m.val) ≠ 0 →
     Gives (.doorbell m) s fun t =>
       t.flag MBX_EVENT.DOORBELL_REFUSED = true ∧
       t.getF MBX_COUNT.REFUSED = satN MBX_COUNT.REFUSED.len (s.core.getF MBX_COUNT.REFUSED + 1) ∧
       t.getF (mbState m.val) = s.core.getF (mbState m.val)) ∧
  (∀ (s : State) (m : Byte),
     s.core.getF (mbState m.toNat) = 0 →
     m.toNat < 16 →
     Gives (.qspiDoorbell m) s fun t => t.getF (mbState m.toNat) = 1 ∧ (t.box m.toNat).bell = s.core.now) ∧
  (∀ (s : State) (m : Byte),
     s.core.getF (mbState m.toNat) ≠ 0 →
     m.toNat < 16 →
     Gives (.qspiDoorbell m) s fun t =>
       t.flag MBX_EVENT.DOORBELL_REFUSED = true ∧
       t.getF MBX_COUNT.REFUSED = satN MBX_COUNT.REFUSED.len (s.core.getF MBX_COUNT.REFUSED + 1) ∧
       t.getF (mbState m.toNat) = s.core.getF (mbState m.toNat)) ∧
  (∀ (s : State) (addr : BitVec 24) (data : List Byte),
     addr.toNat + data.length ≤ 0x10000 ∧ addr.toNat < 0x10000 ∧ (touched addr.toNat data.length).all (fun m =>
       s.core.getF (mbState m) == 0) = true →
     GivesM (.qspiWrite addr data) s fun t u =>
       readBytes u (0x20800000 + addr.toNat) data.length = data ∧ t.reg MBX_EVENT.a = s.core.reg MBX_EVENT.a) ∧
  (∀ (s : State) (addr : BitVec 24) (data : List Byte),
     0x10000 < addr.toNat + data.length →
     Gives (.qspiWrite addr data) s fun t =>
       t.flag MBX_EVENT.SPI_ERROR = true ∧
       t.getF MBX_COUNT.REFUSED = satN MBX_COUNT.REFUSED.len (s.core.getF MBX_COUNT.REFUSED + 1)) ∧
  (∀ (s : State) (addr : BitVec 24) (n : Nat),
     addr.toNat < 0x10000 →
     Gives (.qspiRead addr n) s fun t =>
       t.mbx.tx = [⟨0, 0, 0, readBytes s.mem (0x20800000 + addr.toNat) (min n (0x10000 - addr.toNat))⟩]) ∧
  (∀ (s : State),
     Gives .qspiStatus s fun t =>
       t.mbx.tx =
         [⟨0, 0, 0, le 4 (s.core.reg MBX_STATE.a).toNat ++ le 2 (s.core.getF MBX_REPLY_READY.READY) ++ le 2 (s.core.reg MBX_EVENT.a).toNat⟩]) ∧
  (∀ (s : State) (mask : BitVec 16),
     Gives (.qspiClearReady mask) s fun t =>
       ∀ i : Fin 16, t.getBit MBX_REPLY_READY.READY i.val = (s.core.getBit MBX_REPLY_READY.READY i.val && !bitOf
         mask.toNat i.val)) ∧
  (∀ (s : State),
     Gives .spiError s fun t =>
       t.flag MBX_EVENT.SPI_ERROR = true ∧
       t.getF MBX_COUNT.REFUSED = satN MBX_COUNT.REFUSED.len (s.core.getF MBX_COUNT.REFUSED + 1)) ∧
  (∀ (s : State) (port : Fin 2) (d : Datagram),
     (s.core.onBypass 9 = false ∧ d.dstPort.toNat = s.core.udpPort ∧ (d.sumOk = false ∨ d.data.length < 4 ∨ 4100 <
       d.data.length)) →
     Gives (.udpDatagram port d) s fun t =>
       t.flag MBX_EVENT.UDP_DROPPED = true ∧
       t.getF MBX_COUNT.DROPPED = satN MBX_COUNT.DROPPED.len (s.core.getF MBX_COUNT.DROPPED + 1)) ∧
  (∀ (s : State) (port : Fin 2) (d : Datagram),
     s.core.onBypass 9 = false ∧ d.dstPort.toNat = s.core.udpPort ∧ d.sumOk = true ∧ 4 ≤ d.data.length ∧
       d.data.length ≤ 4100 →
     u8 d.data 0 < 16 ∧ u8 d.data 1 = 1 ∧ u16 d.data 2 = 0 ∧ s.core.getF (MBX_MB_CFG.PORT (u8 d.data 0)) = 1 +
       port.val →
     (((s.core.box (u8 d.data 0)).peer = 0 ∨ (s.core.box (u8 d.data 0)).peer = d.src.toNat) ∧ s.core.ipOf port.val ≠
       0 ∧ s.core.getF (mbState (u8 d.data 0)) = 0) →
     GivesM (.udpDatagram port d) s fun t u =>
       t.getF (mbState (u8 d.data 0)) = 1 ∧ (t.box (u8 d.data 0)).addr = d.src.toNat ∧
       (t.box (u8 d.data 0)).udp = d.srcPort.toNat ∧ (t.box (u8 d.data 0)).bell = s.core.now ∧
       readBytes u (mbBuf (u8 d.data 0)) (d.data.length - 4) = d.data.drop 4) ∧
  (∀ (s : State) (port : Fin 2),
     Gives (.fragmentTimeout port) s fun t =>
       t.flag MBX_EVENT.UDP_DROPPED = true ∧
       t.getF MBX_COUNT.DROPPED = satN MBX_COUNT.DROPPED.len (s.core.getF MBX_COUNT.DROPPED + 1)) ∧
  (∀ (s : State) (port : Fin 2) (target sender : BitVec 32) (senderMac : BitVec 48),
     s.core.onBypass 9 = false ∧ s.core.ipOf port.val ≠ 0 ∧ target.toNat = s.core.ipOf port.val →
     Gives (.arpRequest port target sender senderMac) s fun t =>
       ∃ b, t.mbx.tx = [⟨1 + port.val, sender.toNat, 0, b⟩]) ∧
  (∀ (s : State) (port : Fin 2) (src dst : BitVec 32) (data : List Byte),
     s.core.onBypass 9 = false ∧ s.core.ipOf port.val ≠ 0 ∧ dst.toNat = s.core.ipOf port.val →
     Gives (.icmpEcho port src dst data) s fun t =>
       t.mbx.tx = [⟨1 + port.val, src.toNat, 0, zeros 2 ++ be 2 (inetSum data) ++ data⟩]) ∧
  (∀ (s : State) (port : Fin 4) (id : BitVec 29) (h : Byte) (rest : List Byte) (k : Nat),
     s.core.onBypass 9 = false ∧ s.core.canBox port.val id.toNat = some k ∧ k < 16 ∧ h.toNat = 0x80 ∧ s.core.getF
       (mbState k) = 0 ∧ rest.length ≤ 4096 →
     GivesM (.canSegment port id (h :: rest)) s fun t u =>
       t.getF (mbState k) = 1 ∧ (t.box k).bell = s.core.now ∧ readBytes u (mbBuf k) rest.length = rest) ∧
  (∀ (s : State) (port : Fin 4) (id : BitVec 29) (h : Byte) (rest : List Byte) (k : Nat),
     s.core.onBypass 9 = false ∧ s.core.canBox port.val id.toNat = some k ∧ 0 < h.toNat % 128 ∧ ¬ ((s.core.box
       k).canNext = some (h.toNat % 128) ∧ s.core.now ≤ (s.core.box k).canTime + 100000000) →
     Gives (.canSegment port id (h :: rest)) s fun t =>
       t.flag MBX_EVENT.CAN_SEGMENT_ERROR = true ∧ (t.box k).canNext = none ∧
       t.getF MBX_COUNT.DROPPED = satN MBX_COUNT.DROPPED.len (s.core.getF MBX_COUNT.DROPPED + 1)) ∧
  (∀ (s : State) (port : Fin 2) (up : Bool),
     s.core.mbx.ethUp.length = 2 →
     Gives (.ethLinkStatus port up) s fun t =>
       t.mbx.ethUp.getD port.val false = (up && !s.core.onBypass 9) ∧ t.mbx.ethUp.length = 2) ∧
  (∀ (s : State) (m : Fin 16) (r : CmdRef),
     (s.core.box m.val).cur = some r ∧ r.mb = m.val ∧ s.core.getF (mbState m.val) = 2 ∧ (s.core.box m.val).taken +
       100000000 ≤ s.core.now →
     Gives (.commandTimeout m) s fun t =>
       t.getF (mbState m.val) = 0 ∧ ((t.box m.val).stored.map Reply.status) = some stTIMEOUT) ∧
  (∀ (s : State) (m : Fin 16),
     s.core.nextBox = some m ∧ s.core.mode.code ≠ .off →
     u16 (readBytes s.mem (mbBuf m.val) 2) 0 = 0x0102 ∧ (s.core.setF (mbState m.val) 0).repeated (postedMsg s.mem m)
       = false →
     u16 (readBytes s.mem (mbBuf m.val) 16) 2 = 0 ∧ u32 (readBytes s.mem (mbBuf m.val) 16) 8 ≤ 4080 →
     Gives (.mailboxTaken none) s fun t =>
       t.getF (mbState m.val) = 0 ∧ Answered t (postedMsg s.mem m) 0x0102 stDONE (postedMsg s.mem m).body) ∧
  (∀ (s : State) (m : Fin 16) (a : BitVec 32),
     s.core.nextBox = some m ∧ (s.core.setF (mbState m.val) 0).repeated (postedMsg s.mem m) = false →
     Gives (.mailboxTaken (some a)) s fun t =>
       t.getF (mbState m.val) = 0 ∧
       Answered t (postedMsg s.mem m) (u16 (readBytes s.mem (mbBuf m.val) 2) 0) stMEMORY_FAULT (words
         [0, a.toNat, 4]))

/-- START makes an idle or aborted channel ACTIVE with its length to go; RESUME and ABORT act on a FAULTED channel; a
  fault that lasts FAULT_TIMEOUT aborts it with cause 5; FLUSH empties the translation cache; a granted channel
  takes its turn. R355, R357, R358. The meanings it speaks of rest on the model's choices of log 121. -/
def Obligations.DmaEvents : Prop :=
  (∀ (s : State),
     Gives .stuFlush s fun t => t.stu.cache = []) ∧
  (∀ (s : State) (ch : Fin 16),
     (s.core.chState ch.val = chIDLE ∨ s.core.chState ch.val = chABORTED) →
     Gives (.stuStart ch) s fun t =>
       t.chState ch.val = chACTIVE ∧ t.getF (STU_CH_DONE.VALUE ch.val) = 0 ∧
       (ch.val < 13 → t.getF (STU_CH_REMAIN.VALUE ch.val) = s.core.getF (STU_CH_LEN.VALUE ch.val) / 4 * 4)) ∧
  (∀ (s : State) (ch : Fin 16),
     s.core.chState ch.val = chFAULTED →
     Gives (.stuResume ch) s fun t =>
       t.chState ch.val = chACTIVE ∧ t.getBit STU_FAULT_MAP.FAULTED ch.val = false) ∧
  (∀ (s : State) (ch : Fin 16),
     s.core.chState ch.val = chFAULTED →
     Gives (.stuAbort ch) s fun t =>
       t.chState ch.val = chABORTED ∧ t.getBit STU_FAULT_MAP.FAULTED ch.val = false) ∧
  (∀ (s : State) (ch : Fin 16),
     s.core.chState ch.val = chFAULTED ∧ mapGet (fun _ => 0) s.core.stu.faultAt ch.val + clampN 1 1000 (s.core.getF
       STU_FAULT_TIMEOUT.MS) * 1000000 ≤ s.core.now →
     Gives (.dmaFaultTimeout ch) s fun t =>
       t.chState ch.val = chABORTED ∧ t.flag STU_EVENT.ABORTED = true ∧ t.getF (STU_CH_STAT.CAUSE ch.val) = 5) ∧
  (∀ (s : State) (ch : Fin 16) (ecc : Option (BitVec 32)),
     s.core.granted ch.val = true ∧ ch.val < 13 ∧ s.core.getF (STU_CH_REMAIN.VALUE ch.val) = 0 →
     Gives (.dmaBurst ch ecc) s fun t => t.chState ch.val = chIDLE)

/-- A flush that is asked for, or that FLUSH_S makes due, starts when none runs and the one before started at least 1 s
  ago: it takes every request waiting, and the flue holds its other writers; its end reports FLUSH_DONE, and
  BANK_FAULT where a bank failed; once per second each open record counts its cell's temperature in its bin, or its
  absence; SNAP waits for the next period start and FLUSH asks for a flush; a free-running output leaves its sign
  with the cell's accumulators; the refresh leaves every copy of every slot equal to the selected content and is due
  again after 30 days. R364, R370, R373, R376, R382. The meanings it speaks of rest on the model's choices of logs
  123, 130, 132, 214. -/
def Obligations.LedgerEvents : Prop :=
  (∀ (s : State),
     s.core.lgr.running = false ∧ s.core.lgr.lastStart.all (fun k => decide (k + 1000000000 ≤ s.core.now)) = true →
     (s.core.lgr.due ≠ [] ∨ (s.core.flag LGR_CTRL.EN = true ∧ s.core.lgr.lastStart.all (fun k => decide (k +
       s.core.flushS * 1000000000 ≤ s.core.now)) = true)) →
     Gives .ledgerFlush s fun t =>
       t.lgr.running = true ∧ t.lgr.lastStart = some s.core.now ∧ t.lgr.active = s.core.lgr.due ∧ t.lgr.due = [] ∧
       t.flag LGR_STATUS.FLUSHING = true ∧ t.flag TLM_STATUS.FLUSH_HOLD = true) ∧
  (∀ (s : State) (bad : BitVec 3),
     s.core.lgr.running = true →
     Gives (.flushDone bad) s fun t =>
       t.lgr.running = false ∧ t.lgr.active = [] ∧ t.flag LGR_EVENT.FLUSH_DONE = true ∧
       t.flag LGR_STATUS.FLUSHING = false ∧ t.flag TLM_STATUS.FLUSH_HOLD = false ∧
       (bad ≠ 0 → t.flag LGR_EVENT.BANK_FAULT = true)) ∧
  (∀ (s : State) (n : Nat),
     ((s.core.ledRec n).state = 1 ∨ (s.core.ledRec n).state = 2) →
     s.core.tempC n = none →
     Gives .tempHistogramTick s fun t =>
       (t.ledRec n).tempMissing = ((s.core.ledRec n).tempMissing + 1) % 2 ^ 32 ∧
       (t.ledRec n).tempS = (s.core.ledRec n).tempS) ∧
  (∀ (s : State) (n : Nat) (d : Int),
     ((s.core.ledRec n).state = 1 ∨ (s.core.ledRec n).state = 2) →
     s.core.tempC n = some d →
     Gives .tempHistogramTick s fun t =>
       (t.ledRec n).tempS = setAt (tempBin d) (((s.core.ledRec n).tempS.getD (tempBin d) 0 + 1) % 2 ^ 32)
         (s.core.ledRec n).tempS ∧
       (t.ledRec n).tempMissing = (s.core.ledRec n).tempMissing) ∧
  (∀ (s : State),
     s.core.lgr.running = false ∧ s.core.lgr.refreshAt ≤ s.core.now →
     Gives .ledgerRefresh s fun t => t.lgr.refreshAt = s.core.now + 30 * 86400 * 1000000000 ∧ ∀ k slot, ∀ x, k < 3 →
     slot < 35 →
     s.core.curSod slot = some x →
     t.sod k slot = x) ∧
  (∀ (s : State),
     Gives .lgrSnap s fun t => t.shadow = s.core.shadow ++ [.snap]) ∧
  (∀ (s : State),
     Gives .lgrFlush s fun t => t.lgr.due = s.core.lgr.due ++ [.event]) ∧
  (∀ (s : State) (n : Fin 128) (v i : Int),
     Gives (.freeRunningOutput n v i) s fun t => (t.ledAcc n.val).sign = i)

/-- A scrub and an MRAM check move on and count errors; a calibration is taken or refused with its event; tracking, wear
  and trace note their time; an equalisation trial begins with its code moved by one and steps to −1. R384, R385,
  R386, R387, R388, R389, R393. The meanings it speaks of rest on the model's choices of logs 2, 23, 80, 81, 129,
  132, 135, 136, 137, 138, 172, 174, 214. -/
def Obligations.BackgroundEvents : Prop :=
  (∀ (s : State) (err : EccResult),
     s.core.flag TLM_CTRL.SCRUB_EN = true →
     Gives (.scrubStep err) s fun t =>
       t.tlm.scrubAddr = (s.core.tlm.scrubAddr + 1) % 2621440 ∧
       (err = .corrected → t.flag TLM_EVENT.SCRUB_CE = true ∧ t.getF TLM_SCRUB.CE = satN TLM_SCRUB.CE.len
         (s.core.getF TLM_SCRUB.CE + 1)) ∧
       (err = .uncorrectable → t.flag TLM_EVENT.SCRUB_UE = true ∧ Listed t .memoryUncorrectable 0xFFFF
         [scrubWord s.core.tlm.scrubAddr])) ∧
  (∀ (s : State) (err : EccResult),
     s.core.lgr.running = false →
     Gives (.mramReadCheck err) s fun t =>
       t.tlm.mramAddr = (s.core.tlm.mramAddr + 32) % 0x1000000 ∧
       (err = .corrected → t.flag TLM_EVENT.MRAM_CE = true) ∧
       (err = .uncorrectable → t.flag TLM_EVENT.MRAM_UE = true ∧ Listed t .mramUncorrectable 0xFFFF
         [0x30000000 + s.core.tlm.mramAddr])) ∧
  (∀ (s : State) (k : Fin 3) (gnd bandgap r1 r2 : BitVec 16),
     s.core.flag TLM_CTRL.CAL_EN = true ∧ (s.core.unit k.val).urgent = none ∧ (s.core.unit k.val).phase = 0 ∧
       (s.core.unit k.val).bg = none →
     s.core.tlm.calLast.length = 3 ∧ s.core.tlm.calLast.getD k.val 0 + 10000000000 ≤ s.core.now →
     Gives (.sarCalibration k gnd bandgap r1 r2) s fun t =>
       t.flag (CNV_U_EVENT.URGENT_DONE k.val) = true ∧ t.flag (CNV_U_URG_RESULT.DONE k.val) = true ∧
       t.tlm.calLast.getD k.val 0 = s.core.now) ∧
  (∀ (s : State),
     s.core.flag TLM_CTRL.THR_EN = true ∧ s.core.tlm.thrLast + 100000000 ≤ s.core.now →
     Gives .thresholdTracking s fun t => t.tlm.thrLast = s.core.now) ∧
  (∀ (s : State) (l : Fin 128),
     s.core.laneState l.val = 2 ∧ s.core.flag (LNK_LANE_EQ.AUTO l.val) = true ∧ s.core.tlm.eq.length = 2 ∧
       s.core.tlm.eq.getD (l.val / 64) none = none ∧ s.core.flag (LNK_LANE_INJ_STATUS.ACTIVE l.val) = false →
     (mapGet (fun _ => 0) s.core.tlm.eqLast l.val = 0 ∨ mapGet (fun _ => 0) s.core.tlm.eqLast l.val + 180000000000 ≤
       s.core.now + 1) →
     Gives (.eqTrialStart l) s fun t =>
       t.tlm.eq.getD (l.val / 64) none = some
         ⟨l.val, mapGet (fun _ => 0) s.core.tlm.eqNext l.val % 4, 0, s.core.eqCode l.val (mapGet (fun _ => 0) s.core.tlm.eqNext l.val % 4), [(s.core.lane l.val).errors, 0, 0], s.core.now⟩
         ∧
       mapGet (fun _ => 0) t.tlm.eqLast l.val = s.core.now + 1) ∧
  (∀ (s : State) (isl : Fin 2) (x : EqTrial),
     s.core.tlm.eq.length = 2 ∧ s.core.tlm.eq.getD isl.val none = some x ∧ x.stepAt + 1000000000 ≤ s.core.now ∧
       x.phase = 0 →
     Gives (.eqTrialStep isl) s fun t =>
       t.tlm.eq.getD isl.val none = some { x with phase := 1, stepAt := s.core.now }) ∧
  (∀ (s : State) (isl : Fin 2) (x : EqTrial),
     s.core.tlm.eq.length = 2 ∧ s.core.tlm.eq.getD isl.val none = some x ∧ x.stepAt + 1000000000 ≤ s.core.now ∧
       x.phase ≠ 0 →
     Gives (.eqTrialStep isl) s fun t => t.tlm.eq.getD isl.val none = none) ∧
  (∀ (s : State),
     s.core.flag TLM_CTRL.WEAR_EN = true ∧ s.core.tlm.wearLast + 60000000000 ≤ s.core.now →
     Gives .wearUpdate s fun t => t.tlm.wearLast = s.core.now) ∧
  (∀ (s : State),
     s.core.flag TLM_CTRL.TRACE_EN = true ∧ s.core.tlm.traceDiv ≤ s.core.modu.period →
     Gives .traceSample s fun t => t.tlm.traceDiv = s.core.modu.period + max 1 (u16 s.core.tlmP 10))

/-- BIST starts from stage 1 when its preconditions hold; a stage without retests leads to the next; an interruption
  leaves INCOMPLETE results; a retest gives its verdict; an access to a clamped memory is an event. R400, R403,
  R405, R406, R407. The meanings it speaks of rest on the model's choices of logs 144, 145, 146. -/
def Obligations.SelfTestEvents : Prop :=
  (∀ (s : State),
     s.core.flag BST_STATUS.RUNNING = false ∧ s.core.pwr.step = 2 ∧ s.core.bistReason = 0 ∧ s.core.flag
       CLK_STATUS.ORIGIN_SET = true →
     Gives .bistStart s fun t =>
       t.flag BST_STATUS.RUNNING = true ∧ t.getF BST_STATUS.STAGE = 1 ∧ t.getF BST_STATUS.REASON = 0x23 ∧
       t.pwr.step = 3 ∧ t.bist.startAt = s.core.now) ∧
  (∀ (s : State) (ok : Bool) (results : List BistMem),
     s.core.flag BST_STATUS.RUNNING = true ∧ s.core.bist.retest = [] ∧ s.core.bist.inPlace = none ∧ results = [] ∧ 1
       ≤ s.core.getF BST_STATUS.STAGE ∧ s.core.getF BST_STATUS.STAGE < 4 ∧ s.core.bist.stageAt + stageTime
       (s.core.getF BST_STATUS.STAGE) ≤ s.core.now →
     Gives (.bistStageDone ok results) s fun t =>
       t.getF BST_STATUS.STAGE = s.core.getF BST_STATUS.STAGE + 1 ∧
       ∀ m ∈ stageMems (s.core.getF BST_STATUS.STAGE), t.getF (BST_MEM_RESULT.RESULT m) = 4) ∧
  (∀ (s : State) (cond : Fin 9),
     s.core.flag BST_STATUS.RUNNING = true ∧ (cond.val < 2 ∧ s.core.bistReason ≠ 0) ∧ s.core.bist.inPlace = none →
     Gives (.bistInterrupt cond) s fun t =>
       t.flag BST_EVENT.INCOMPLETE = true ∧ t.flag BST_STATUS.RUNNING = false ∧
       t.bist.interrupts = s.core.bist.interrupts + 1) ∧
  (∀ (s : State) (mem : Fin 39) (pass : Bool),
     s.core.flag BST_STATUS.RUNNING = true ∧ s.core.bist.retest.contains mem.val = true ∧ s.core.bist.stageAt +
       100000 + stageTime (s.core.getF BST_STATUS.STAGE) ≤ s.core.now →
     (∃ k ∈ s.core.bist.retest, k ≠ mem.val) →
     Gives (.bistRetestDone mem pass) s fun t =>
       t.getF (BST_MEM_RESULT.RESULT mem.val) = (if pass then 2 else 3) ∧
       t.bist.retest = s.core.bist.retest.filter (· != mem.val)) ∧
  (∀ (s : State) (mem : Fin 39),
     s.core.clamped.contains mem.val = true →
     Gives (.clampAccess mem) s fun t => t.flag BST_EVENT.CLAMP_ACCESS = true)

/-- All rails good for 100 µs starts the timeline; a warning is shown and raised once; a fault of CORE, SERDES, VDDA or
  IO resets the device with its number, of NV inhibits MRAM writes, of SAFE is the safety island's fault, of AON is
  a power-on reset; a return clears the warning. R414. The meanings it speaks of rest on the model's choices of logs
  23, 57, 123, 146, 147, 178. -/
def Obligations.RailEvents : Prop :=
  (∀ (s : State),
     s.core.pwr.step = 0 ∧ s.core.pwr.sleeping = false ∧ s.core.pwr.rstN = true →
     s.core.getF PWR_RAIL_STAT.GOOD = 0x7F ∧ s.core.pwr.railAt + 100000 ≤ s.core.now →
     Gives .railsGood s fun t => t.pwr.step = 1 ∧ t.pwr.stepAt = s.core.now) ∧
  (∀ (s : State) (r : Fin 7),
     s.core.getBit PWR_RAIL_STAT.WARN r.val = false →
     Gives (.railWarning r) s fun t =>
       t.getBit PWR_RAIL_STAT.WARN r.val = true ∧ t.flag PWR_EVENT.RAIL_WARNING = true ∧
       Listed t .railWarning r.val [r.val]) ∧
  (∀ (s : State) (r : Fin 7),
     r.val ≠ 1 ∧ r.val ≠ 4 ∧ r.val ≠ 6 →
     Gives (.railFault r) s fun t =>
       t.mode.code = .off ∧ t.getF PWR_RESET_CAUSE.KIND = 2 ∧ t.getF PWR_RESET_CAUSE.CAUSE = 2 ∧
       t.getF PWR_RESET_CAUSE.RAIL = r.val ∧ t.sec.otp = s.core.sec.otp ∧ t.cfg = s.core.cfg) ∧
  (∀ (s : State) (r : Fin 7),
     r.val = 6 →
     Gives (.railFault r) s fun t =>
       t.mode.code = .off ∧ t.getF PWR_RESET_CAUSE.KIND = 0 ∧ t.getF PWR_RESET_CAUSE.CAUSE = 0 ∧
       t.sec.otp = s.core.sec.otp ∧ t.cfg = s.core.cfg) ∧
  (∀ (s : State) (r : Fin 7),
     r.val = 4 ∧ s.core.pwr.nvBad = false →
     Gives (.railFault r) s fun t =>
       t.pwr.nvBad = true ∧ t.flag PWR_EVENT.NV_RAIL_FAULT = true ∧ Listed t .nvRailFault 0xFFFF []) ∧
  (∀ (s : State) (r : Fin 7),
     r.val = 1 ∧ s.core.saf.internal = false ∧ s.core.mode.code ≠ .off ∧ s.core.mode.code ≠ .safe →
     Gives (.railFault r) s fun t => t.mode.code = .safe ∧ t.saf.internal = true) ∧
  (∀ (s : State) (r : Fin 7),
     Gives (.railReturn r) s fun t =>
       t.getBit PWR_RAIL_STAT.GOOD r.val = true ∧ t.getBit PWR_RAIL_STAT.WARN r.val = false ∧
       (r.val = 4 → t.pwr.nvBad = false))

/-- RST_N low is a PIN reset; its return starts the load of OTP; a watchdog expiry or lockstep mismatch requests the
  safe state and defers the reset until the speed allows it; a commanded reset is SYSTEM or HEARTH, which leaves the
  safety island's registers; SLEEP clears the volatile memories and leaves PD_0 on; a wake source resets. R419,
  R420, R421, R422, R425. The meanings it speaks of rest on the model's choices of logs 147, 148, 149, 156. -/
def Obligations.ResetEvents : Prop :=
  (∀ (s : State),
     Gives .pinReset s fun t =>
       t.mode.code = .off ∧ t.getF PWR_RESET_CAUSE.KIND = 1 ∧ t.getF PWR_RESET_CAUSE.CAUSE = 1 ∧
       t.pwr.rstN = false ∧ t.pwr.step = 0) ∧
  (∀ (s : State),
     s.core.pwr.rstN = false ∧ s.core.getF PWR_RAIL_STAT.GOOD = 0x7F →
     Gives .pinResetRelease s fun t => t.pwr.rstN = true ∧ t.pwr.step = 1 ∧ t.pwr.stepAt = s.core.now) ∧
  (∀ (s : State),
     s.core.pwr.rstN = false ∧ s.core.getF PWR_RAIL_STAT.GOOD ≠ 0x7F →
     Gives .pinResetRelease s fun t => t.pwr.rstN = true ∧ t.pwr.step = s.core.pwr.step) ∧
  (∀ (s : State) (k : Nat),
     s.core.pwr.wdogAt = some k ∧ k ≤ s.core.now →
     s.core.pwr.defer = none ∧ s.core.canRelinquish = false →
     Gives .watchdogExpiry s fun t =>
       t.pwr.defer = some 3 ∧ t.flag PWR_STATUS.RESET_PENDING = true ∧
       (s.core.mode.code ≠ .off → s.core.mode.code ≠ .safe → AlarmName.watchdogExpired ∈ t.saf.req) ∧
       t.pwr.wdogAt = none) ∧
  (∀ (s : State) (k : Nat),
     s.core.pwr.wdogAt = some k ∧ s.core.pwr.wdogLeft = none →
     Gives .watchdogKick s fun t =>
       t.pwr.wdogAt = some (s.core.now + s.core.pwr.wdogMs * 1000000) ∧ t.pwr.wdogLeft = none) ∧
  (∀ (s : State) (k : Nat),
     s.core.pwr.wdogLeft = some k →
     Gives .watchdogKick s fun t =>
       t.pwr.wdogLeft = some (s.core.pwr.wdogMs * 1000000) ∧ t.pwr.wdogAt = s.core.pwr.wdogAt) ∧
  (∀ (s : State) (pair : Fin 2),
     s.core.pwr.defer = none ∧ s.core.canRelinquish = false →
     Gives (.lockstepMismatch pair) s fun t =>
       t.pwr.defer = some 4 ∧ t.flag PWR_STATUS.RESET_PENDING = true ∧
       (s.core.mode.code ≠ .off → s.core.mode.code ≠ .safe → AlarmName.hearthLockstep ∈ t.saf.req)) ∧
  (∀ (s : State) (k : Nat),
     (s.core.pwr.defer = some k ∧ (k = 3 ∨ k = 4)) →
     (heldFor s.core.pwr.slowSince 100000000 s.core.now = true ∨ heldFor s.core.pwr.noSpeedSince 30000000000
       s.core.now = true) →
     Gives .deferredResetRelease s fun t =>
       t.mode.code = .off ∧ t.getF PWR_RESET_CAUSE.KIND = 2 ∧ t.getF PWR_RESET_CAUSE.CAUSE = k ∧
       t.pwr.defer = none ∧
       t.getF PWR_RESET_CAUSE.WDOG_RUN = (if k = 3 then satN 8 (s.core.getF PWR_RESET_CAUSE.WDOG_RUN + 1) else 0)) ∧
  (∀ (s : State) (k d : Nat),
     s.core.pwr.resetDue = some (0, k, d) ∧ k < 16 →
     Gives .commandedReset s fun t =>
       t.mode.code = .off ∧ t.getF PWR_RESET_CAUSE.KIND = 2 ∧ t.getF PWR_RESET_CAUSE.CAUSE = k ∧
       t.sec.otp = s.core.sec.otp ∧ t.cfg = s.core.cfg) ∧
  (∀ (s : State) (k d : Nat),
     s.core.pwr.resetDue = some (1, k, d) ∧ k < 16 →
     Gives .commandedReset s fun t => t.mode.code = .off ∧ t.getF PWR_RESET_CAUSE.KIND = 3 ∧ t.getF
       PWR_RESET_CAUSE.CAUSE = k ∧ t.pwr.step = 4 ∧ t.clk = s.core.clk ∧ ∀ a, domainOf a = 3 →
     t.reg a = s.core.reg a) ∧
  (∀ (s : State) (k d : Nat),
     s.core.pwr.resetDue = some (2, k, d) →
     GivesM .sleepEntry s fun t u => t.pwr.sleeping = true ∧ t.getF PWR_STATUS.ON = 1 ∧ t.mode.code = .off ∧ ∀ a,
       0x20000000 ≤ a →
     a < 0x20810000 →
     readByte u a = 0) ∧
  (∀ (s : State) (src : Fin 4),
     s.core.pwr.sleeping = true ∧ s.core.getBit PWR_WAKE_CFG.SRC src.val = true →
     (src.val = 3 → s.core.pwr.sleepWall + (s.core.reg PWR_WAKE_AFTER.a).toNat ≤ s.core.wall) →
     Gives (.wake src) s fun t =>
       t.mode.code = .off ∧ t.getF PWR_RESET_CAUSE.KIND = 2 ∧ t.getF PWR_RESET_CAUSE.CAUSE = 6 ∧
       t.pwr.sleeping = false)

/-- The flush at the entry to STANDBY ends with the parked domains off; a domain that has powered up is on; an access to
  a domain that is off is recorded with its address; an access outside the map faults only the DMA channel that made
  it. R417, R418, R30, R33. The meanings it speaks of rest on the model's choices of logs 13, 119, 175, 185. -/
def Obligations.DomainEvents : Prop :=
  (∀ (s : State),
     s.core.pwr.parkDue = true ∧ s.core.mode.code = .standby ∧ s.core.mode.pend = none →
     s.core.flag PWR_CTRL.PARK_LINKS = true →
     Gives .domainPark s fun t =>
       t.pwr.parkDue = false ∧ t.getBit PWR_STATUS.ON 4 = false ∧ t.getBit PWR_STATUS.ON 5 = false ∧
       t.flag PWR_STATUS.PARKED = true) ∧
  (∀ (s : State),
     s.core.pwr.parkDue = true ∧ s.core.mode.code = .standby ∧ s.core.mode.pend = none →
     s.core.flag PWR_CTRL.PARK_CONV = true →
     Gives .domainPark s fun t =>
       t.pwr.parkDue = false ∧ t.getBit PWR_STATUS.ON 6 = false ∧ t.flag PWR_STATUS.PARKED = true) ∧
  (∀ (s : State) (d : Fin 10),
     mapGet (fun _ => 0) s.core.pwr.domainAt d.val ≠ 0 →
     Gives (.domainUp d) s fun t =>
       t.getBit PWR_STATUS.ON d.val = true ∧ t.flag PWR_EVENT.DOMAIN_UP = true ∧
       mapGet (fun _ => 0) t.pwr.domainAt d.val = 0) ∧
  (∀ (s : State) (a : BitVec 32) (by_ : Initiator),
     regionOf a.toNat = .regs ∧ s.core.domainOn (domainOf a.toNat) = false →
     Gives (.offDomainAccess a by_) s fun t =>
       t.reg PWR_FAULT_ADDR.a = a ∧ t.getF PWR_FAULT_DOMAIN.DOMAIN = domainOf a.toNat ∧
       t.flag PWR_EVENT.OFF_ACCESS = true ∧
       Listed t .domainOffAccess (domainOf a.toNat) [domainOf a.toNat, a.toNat]) ∧
  (∀ (s : State) (a : BitVec 32) (ch : Fin 16),
     s.core.chState ch.val = chACTIVE →
     Gives (.unmappedAccess a (.dma ch)) s fun t =>
       t.chState ch.val = chFAULTED ∧ t.reg (STU_CH_FAULT_ADDR.a ch.val) = a ∧
       t.getF (STU_CH_STAT.CAUSE ch.val) = 3 ∧ t.flag STU_EVENT.FAULT = true) ∧
  (∀ (s : State) (a : BitVec 32) (by_ : Initiator),
     (∀ ch, by_ ≠ .dma ch) →
     Gives (.unmappedAccess a by_) s fun t => t.regs = s.core.regs ∧ t.tlm = s.core.tlm ∧ t.mode = s.core.mode)

/-- A load of OTP that succeeds gives the grade and goes on, one that fails stops with reason 0x11; the boot ROM hands
  over to the slot it chose, and stops with its reason where none can be booted or the watchdog ran out three times;
  firmware up applies the stored map, or goes on without one; READY enters STANDBY. R423, R424, R436, R422. The
  meanings it speaks of rest on the model's choices of logs 25, 148, 150, 152, 153, 155, 164, 178, 209. -/
def Obligations.StartupEvents : Prop :=
  (∀ (s : State) (ok : Bool) (otp : OtpImage),
     s.core.pwr.step = 1 ∧ ok = false →
     Gives (.otpLoadDone ok otp) s fun t => t.pwr.step = 9 ∧ t.getF BST_STATUS.REASON = 0x11) ∧
  (∀ (s : State) (ok : Bool) (otp : OtpImage),
     s.core.pwr.step = 1 ∧ ok = true →
     Gives (.otpLoadDone ok otp) s fun t =>
       t.pwr.step = 2 ∧ t.pwr.stepAt = s.core.now ∧ t.sec.loaded = true ∧
       t.sec.otp = (if s.core.sec.loaded then s.core.sec.otp else otp) ∧
       t.grade = gradeOf (if s.core.sec.loaded then s.core.sec.otp else otp).gradeFuses) ∧
  (∀ (s : State) (k : Nat) (fb : Bool),
     s.core.pwr.step = 4 ∧ s.core.pwr.hearthZero = false ∧ s.core.getF PWR_RESET_CAUSE.WDOG_RUN < 3 →
     s.core.failTrials.bootChoice s.mem = some (k, fb) →
     Gives .bootVerifyDone s fun t =>
       t.pwr.step = 5 ∧ t.getF SEC_STATUS.BOOT_SLOT = k ∧ t.sec.img = slotHeader s.mem k ∧
       t.pwr.wdogAt = some (s.core.now + 1000000000)) ∧
  (∀ (s : State),
     s.core.pwr.step = 4 ∧ s.core.pwr.hearthZero = false ∧ s.core.getF PWR_RESET_CAUSE.WDOG_RUN < 3 →
     s.core.failTrials.bootChoice s.mem = none →
     Gives .bootVerifyDone s fun t => t.pwr.step = 9 ∧ t.getF BST_STATUS.REASON = 0x12) ∧
  (∀ (s : State),
     s.core.pwr.step = 4 ∧ s.core.pwr.hearthZero = false ∧ 3 ≤ s.core.getF PWR_RESET_CAUSE.WDOG_RUN →
     Gives .bootVerifyDone s fun t => t.pwr.step = 9 ∧ t.getF BST_STATUS.REASON = 0x13) ∧
  (∀ (s : State),
     s.core.pwr.step = 5 ∧ s.core.imageIntact s.mem = true ∧ s.core.cfg = [] →
     Gives .firmwareUp s fun t => t.pwr.step = 7 ∧ t.pwr.stepAt = s.core.now) ∧
  (∀ (s : State),
     (s.core.pwr.step = 6 ∨ s.core.pwr.step = 7) →
     s.core.identityKnown = true ∧ s.core.mode.code = .off ∧ s.core.presentCauses = [] →
     s.core.getF SEC_STATUS.BOOT_SLOT < 2 →
     Gives .readyReached s fun t =>
       t.pwr.step = 8 ∧ t.mode.code = .standby ∧ t.getF PWR_RESET_CAUSE.WDOG_RUN = 0)

/-- A load session ends after 10 s, a challenge after 60 s, a lockout when its time is over, an unlock when DURATION has
  passed; a response that verifies unlocks its level and one that does not counts as a failure. R438, R444. The
  meanings it speaks of rest on the model's choices of logs 23, 157, 159. -/
def Obligations.SecurityEvents : Prop :=
  (∀ (s : State) (x : FwSession),
     s.core.sec.session = some x ∧ x.last + 10000000000 ≤ s.core.now →
     Gives .fwSessionTimeout s fun t => t.sec.session = none ∧ t.sec.slots = s.core.sec.slots) ∧
  (∀ (s : State) (x : Challenge),
     s.core.sec.chal = some x ∧ x.issued + 60000000000 ≤ s.core.now →
     Gives .challengeExpiry s fun t => t.sec.chal = none) ∧
  (∀ (s : State) (k : Nat),
     s.core.sec.lockEnd = some k ∧ k ≤ s.core.now →
     Gives .authLockoutEnd s fun t => t.sec.lockEnd = none ∧ t.getF SEC_AUTH.FAILS = 0) ∧
  (∀ (s : State) (k : Nat),
     s.core.sec.unlockEnd = some k ∧ k ≤ s.core.now →
     Gives .debugDurationExpiry s fun t =>
       t.sec.unlockEnd = none ∧ t.getF DDP_STAT.LEVEL = 0 ∧ t.getF SEC_STATUS.DEBUG_LEVEL = 0 ∧
       t.anyHalted = (s.core.dbg.halted.drop 2).any id) ∧
  (∀ (s : State) (b : List Byte),
     s.core.sec.submit = some b ∧ b.length = 288 ∧ s.core.driveLock = false →
     s.core.trailerOk 0x0612 (b.take 68) (b.drop 68) = true ∧ s.core.responseFail (b.take 68) = none →
     Gives .authVerifyDone s fun t =>
       t.sec.submit = none ∧ t.getF DDP_STAT.LEVEL = u8 b 0 ∧
       t.sec.unlockEnd = some (s.core.now + u16 b 2 * 1000000000) ∧ t.getF SEC_AUTH.FAILS = 0 ∧
       t.sec.chal = none ∧ t.flag DDP_STAT.AUTH_BUSY = false ∧ Listed t .debugUnlocked 0xFFFF [u8 b 0, u16 b 2]) ∧
  (∀ (s : State) (b : List Byte),
     s.core.sec.submit = some b ∧ b.length ≠ 288 ∧ s.core.driveLock = false →
     Gives .authVerifyDone s fun t =>
       t.sec.submit = none ∧ t.flag DDP_STAT.AUTH_BUSY = false ∧
       t.getF SEC_AUTH.FAILS = min 3 (s.core.getF SEC_AUTH.FAILS + 1) ∧ t.flag SEC_EVENT.AUTH_FAIL = true ∧
       t.getF DDP_STAT.LEVEL = s.core.getF DDP_STAT.LEVEL)

/-- A breakpoint match halts its pair with cause 3 and its index; a request with bad parity makes a line reset
  necessary; HALT_REQ, RESUME and STEP act at level 2; AUTH_CHAL issues a challenge, AUTH_SUBMIT starts
  verification, LOCK returns to level 0; DDP_AUTH takes response words and gives challenge words; DDP_MEM_DATA reads
  memory at level 1; DDP_REG_DATA writes a register of a halted pair at level 2; without the level an access faults.
  R442, R443, R444, R445, R449. The meanings it speaks of rest on the model's choices of logs 160, 161, 163. -/
def Obligations.DebugPortEvents : Prop :=
  (∀ (s : State) (pair : Fin 2) (addr : BitVec 32) (i : Nat),
     s.core.isHalted pair.val = false ∧ s.core.dbg.halted.length = 2 ∧ s.core.dbg.causes.length = 2 ∧
       s.core.breakHit pair.val addr.toNat = some i →
     Gives (.debugBreak pair addr 0) s fun t =>
       t.isHalted pair.val = true ∧ t.dbg.causes.getD pair.val (0, 0) = (3, i) ∧ t.flag DDP_EVENT.HALTED = true) ∧
  (∀ (s : State) (req : BitVec 8) (data : BitVec 32) (parity : Bool),
     s.core.dbg.lineReset = false ∧ bitOf req.toNat 6 ≠ parityOf 5 (req.toNat / 2) →
     Gives (.debugTransaction req data parity) s fun t => t.dbg.lineReset = true ∧ t.mbx.tx = []) ∧
  (∀ (s : State) (req : BitVec 8) (data : BitVec 32) (parity : Bool),
     s.core.dbg.lineReset = false ∧ req = 0xC3 →
     Gives (.debugTransaction req data parity) s fun t =>
       t.mbx.tx = [⟨7, ackOK, 0, le 4 (s.core.reg DDP_ID.a).toNat⟩] ∧ t.dbg.lastAck = ackOK ∧
       t.dbg.lastData = s.core.reg DDP_ID.a) ∧
  (∀ (s : State),
     Gives .lineReset s fun t => t.dbg.lineReset = false) ∧
  (∀ (s : State),
     s.core.getF DDP_STAT.LEVEL = 2 ∧ s.core.driveLock = false →
     s.core.reg DDP_CTRL.a = 0 ∧ s.core.isHalted 0 = false ∧ s.core.dbg.halted.length = 2 ∧ s.core.dbg.causes.length
       = 2 →
     Gives .ddpHaltReq s fun t =>
       t.isHalted 0 = true ∧ t.dbg.causes.getD 0 (0, 0) = (1, 0) ∧ t.dbg.lastAck = ackOK ∧
       t.flag DDP_EVENT.HALTED = true) ∧
  (∀ (s : State),
     s.core.getF DDP_STAT.LEVEL = 2 ∧ s.core.driveLock = false →
     s.core.reg DDP_CTRL.a = 0 ∧ s.core.dbg.halted.length = 2 ∧ s.core.dbg.causes.length = 2 →
     Gives .ddpResume s fun t =>
       t.isHalted 0 = false ∧ t.dbg.causes.getD 0 (0, 0) = (0, 0) ∧ t.dbg.lastAck = ackOK) ∧
  (∀ (s : State),
     s.core.getF DDP_STAT.LEVEL = 2 ∧ s.core.driveLock = false →
     s.core.reg DDP_CTRL.a = 0 ∧ s.core.isHalted 0 = true ∧ s.core.dbg.halted.length = 2 ∧ s.core.dbg.causes.length
       = 2 →
     Gives .ddpStep s fun t => t.isHalted 0 = true ∧ t.dbg.causes.getD 0 (0, 0) = (2, 0) ∧ t.dbg.lastAck = ackOK) ∧
  (∀ (s : State),
     s.core.getF DDP_STAT.LEVEL < 2 ∧ s.core.driveLock = false →
     Gives .ddpHaltReq s fun t =>
       t.dbg.lastAck = ackFAULT ∧ t.flag DDP_STAT.DENIED = true ∧ t.dbg.halted = s.core.dbg.halted) ∧
  (∀ (s : State),
     s.core.driveLock = false ∧ s.core.flag DDP_STAT.AUTH_BUSY = false ∧ s.core.sec.lockEnd = none →
     s.core.reg DDP_CTRL.a = 0 →
     Gives .ddpAuthChal s fun t =>
       t.sec.chal = some ⟨s.core.challengeBytes, s.core.now⟩ ∧ t.sec.chalIdx = 0 ∧ t.sec.resp = [] ∧
       t.dbg.lastAck = ackOK) ∧
  (∀ (s : State),
     s.core.driveLock = false ∧ s.core.flag DDP_STAT.AUTH_BUSY = false →
     s.core.reg DDP_CTRL.a = 0 →
     Gives .ddpAuthSubmit s fun t =>
       t.sec.submit = some (words s.core.sec.resp) ∧ t.sec.resp = [] ∧ t.flag DDP_STAT.AUTH_BUSY = true ∧
       t.dbg.lastAck = ackOK) ∧
  (∀ (s : State),
     s.core.driveLock = false ∧ s.core.getF DDP_STAT.LEVEL = 1 →
     s.core.reg DDP_CTRL.a = 0 →
     Gives .ddpLock s fun t =>
       t.getF DDP_STAT.LEVEL = 0 ∧ t.sec.unlockEnd = none ∧ t.flag SEC_EVENT.RELOCKED = true ∧
       t.dbg.lastAck = ackOK) ∧
  (∀ (s : State) (w : BitVec 32),
     s.core.driveLock = false ∧ s.core.flag DDP_STAT.AUTH_BUSY = false →
     Gives (.ddpAuthAccess true w) s fun t => t.sec.resp = s.core.sec.resp ++ [w.toNat] ∧ t.dbg.lastAck = ackOK) ∧
  (∀ (s : State) (w : BitVec 32) (x : Challenge),
     s.core.driveLock = false ∧ s.core.flag DDP_STAT.AUTH_BUSY = false →
     s.core.sec.chal = some x ∧ s.core.sec.chalIdx < 16 →
     Gives (.ddpAuthAccess false w) s fun t =>
       t.sec.chalIdx = s.core.sec.chalIdx + 1 ∧ t.dbg.lastAck = ackOK ∧
       t.dbg.lastData = BitVec.ofNat 32 (u32 x.bytes (4 * s.core.sec.chalIdx))) ∧
  (∀ (s : State) (w : BitVec 32),
     1 ≤ s.core.getF DDP_STAT.LEVEL ∧ s.core.driveLock = false →
     regionOf ((s.core.reg DDP_MEM_ADDR.a).toNat / 4 * 4) = .sram ∧ (memsAt ((s.core.reg DDP_MEM_ADDR.a).toNat / 4 *
       4)).any s.core.clamped.contains = false →
     Gives (.ddpMemDataAccess false w) s fun t =>
       t.dbg.lastAck = ackOK ∧
       t.dbg.lastData = BitVec.ofNat 32 (readWord s.mem ((s.core.reg DDP_MEM_ADDR.a).toNat / 4 * 4)) ∧
       t.flag DDP_STAT.MEM_ERR = false) ∧
  (∀ (s : State) (w : BitVec 32),
     s.core.getF DDP_STAT.LEVEL = 2 ∧ s.core.driveLock = false →
     regionOf ((s.core.reg DDP_MEM_ADDR.a).toNat / 4 * 4) = .sram ∧ (memsAt ((s.core.reg DDP_MEM_ADDR.a).toNat / 4 *
       4)).any s.core.clamped.contains = false →
     GivesM (.ddpMemDataAccess true w) s fun t u =>
       t.dbg.lastAck = ackOK ∧ readBytes u ((s.core.reg DDP_MEM_ADDR.a).toNat / 4 * 4) 4 = le 4 w.toNat) ∧
  (∀ (s : State) (w : BitVec 32),
     s.core.getF DDP_STAT.LEVEL = 2 ∧ s.core.driveLock = false →
     s.core.getF DDP_REG_SEL.INDEX < 34 ∧ s.core.isHalted s.core.pairSel = true →
     Gives (.ddpRegDataAccess true w) s fun t =>
       t.dbg.lastAck = ackOK ∧ t.dbgReg s.core.pairSel (s.core.getF DDP_REG_SEL.INDEX) = w) ∧
  (∀ (s : State) (w : BitVec 32),
     1 ≤ s.core.getF DDP_STAT.LEVEL ∧ s.core.driveLock = false →
     s.core.getF DDP_REG_SEL.INDEX < 34 ∧ s.core.isHalted s.core.pairSel = true →
     Gives (.ddpRegDataAccess false w) s fun t =>
       t.dbg.lastAck = ackOK ∧ t.dbg.lastData = s.core.dbgReg s.core.pairSel (s.core.getF DDP_REG_SEL.INDEX) ∧
       t.dbg.regs = s.core.dbg.regs)

/-- A shadow takes authority when AUTH_IN falls or the partner stays absent; a device in authority gives it up when
  AUTH_IN rises; a relinquishing that is not taken requests the safe state; frames, missing frames, lane states and
  disagreements are recorded. R450, R452, R454, R455, R456. The meanings it speaks of rest on the model's choices of
  logs 23, 164, 165, 168, 173, 210. -/
def Obligations.PairEvents : Prop :=
  (∀ (s : State),
     s.core.flag PAI_STATUS.AUTH_IN = true ∧ s.core.auth = 1 ∧ s.core.flag PAI_CTRL.TAKEOVER_EN = true →
     Gives .authInLow s fun t =>
       t.flag PAI_STATUS.AUTH_IN = false ∧ t.auth = 2 ∧ t.flag PAI_STATUS.AUTH_OUT = true ∧
       t.flag PAI_EVENT.TAKEOVER = true ∧ Listed t .pairTakeover 0xFFFF [0, s.core.us]) ∧
  (∀ (s : State),
     s.core.auth = 2 ∧ s.core.lead = false ∧ s.core.pair.rel = none →
     Gives .authInHigh s fun t =>
       t.flag PAI_STATUS.AUTH_IN = true ∧ t.auth = 1 ∧ t.flag PAI_STATUS.AUTH_OUT = false ∧
       t.flag PAI_EVENT.AUTHORITY_LOST = true ∧ Listed t .pairAuthorityLost 0xFFFF []) ∧
  (∀ (s : State),
     s.core.auth = 1 ∧ s.core.flag PAI_STATUS.AUTH_IN = false ∧ s.core.lead = true ∧ s.core.flag PAI_LINK.UP = false
       ∧ heldFor s.core.pair.readyAt 50000000 s.core.now = true →
     Gives .pairPartnerAbsent s fun t =>
       t.auth = 2 ∧ t.flag PAI_STATUS.AUTH_OUT = true ∧ Listed t .pairPartnerAbsent 0xFFFF []) ∧
  (∀ (s : State) (k : Nat) (i : Nat),
     s.core.pair.rel = some (k, 1, [], i) ∧ k + 1000000 ≤ s.core.now →
     s.core.mode.code ≠ .off ∧ s.core.mode.code ≠ .safe →
     Gives .relinquishTimeout s fun t => t.pair.rel = none ∧ AlarmName.dispatchStall ∈ t.saf.req) ∧
  (∀ (s : State) (sender : BitVec 64) (f : List Byte),
     s.core.flag PAI_CTRL.PAIR_EN = true ∧ s.core.flag PAI_LINK.UP = true ∧ frameOk f = true ∧ s.core.modu.stage ≠ 2
       ∧ s.core.modu.stage ≠ 3 ∧ sender.toNat = s.core.partnerId →
     Gives (.pairFrame ⟨sender, f⟩) s fun t =>
       t.pair.frame = f ∧ t.pair.got = true ∧ t.pair.missRun = 0 ∧ t.pair.validAt = s.core.now ∧
       t.flag PAI_STATUS.READY_PARTNER = bitOf (u8 f 11) 0) ∧
  (∀ (s : State),
     s.core.flag PAI_CTRL.PAIR_EN = true ∧ s.core.hbMiss ≤ s.core.pair.missRun ∧ s.core.causeOn .pairHbLost 0xFFFF =
       false →
     Gives .pairHbLost s fun t =>
       t.flag PAI_EVENT.HB_LOST = true ∧ Listed t .pairHbLost 0xFFFF [s.core.pair.missRun]) ∧
  (∀ (s : State) (lane : Fin 4),
     s.core.getBit PAI_LINK.FAULTY lane.val = false →
     Gives (.pairLaneFaulty lane) s fun t =>
       t.getBit PAI_LINK.FAULTY lane.val = true ∧ t.getBit PAI_LINK.VALID lane.val = false ∧
       t.flag PAI_EVENT.LANE_FAULTY = true) ∧
  (∀ (s : State) (lane : Fin 4) (valid : Bool),
     s.core.getBit PAI_LINK.FAULTY lane.val = false →
     Gives (.pairLaneValid lane valid) s fun t =>
       t.getBit PAI_LINK.VALID lane.val = valid ∧
       t.flag PAI_LINK.UP = decide (2 ≤ popcount 4 (t.getF PAI_LINK.VALID))) ∧
  (∀ (s : State),
     s.core.auth = 1 ∧ 0 < s.core.pair.cmpRun ∧ u8 s.core.pairP 17 ≤ s.core.pair.cmpRun ∧ s.core.causeOn
       .pairDisagree 0xFFFF = false →
     Gives .pairDisagree s fun t =>
       t.flag PAI_EVENT.DISAGREE = true ∧ Listed t .pairDisagree 0xFFFF [s.core.pair.cmpRun])

/-- An edge of SYNC_IN is measured against the period grid; a lost SYNC_IN is raised; the master sends Sync with
  Follow_Up and answers Delay_Req; a slave takes a Sync, moves its offset by at most 1 µs and learns the path delay;
  a plant command that is due is applied under its own rules. R457, R458, R459, R462. The meanings it speaks of rest
  on the model's choices of logs 23, 89, 169, 170, 171, 204, 211. -/
def Obligations.PlantEvents : Prop :=
  (∀ (s : State) (k : Nat),
     s.core.flag PAI_CTRL.SYNC_FOLLOW = true ∧ s.core.pll 1 = pllLOCKED →
     0 < s.core.tc ∧ s.core.tc < 32768 →
     Gives (.syncInEdge k) s fun t =>
       t.pair.edgeAt = some k ∧ t.getI PAI_SYNC.DELTA = s.core.syncDelta k ∧
       t.flag PAI_STATUS.ALIGNED = decide ((s.core.syncDelta k).natAbs ≤ s.core.offsetTol)) ∧
  (∀ (s : State),
     s.core.flag PAI_CTRL.SYNC_FOLLOW = true ∧ heldFor s.core.pair.edgeAt (2 * s.core.syncDiv * s.core.tc)
       s.core.now = true ∧ s.core.causeOn .syncLost 0xFFFF = false →
     Gives .syncLost s fun t => t.flag PAI_EVENT.SYNC_LOST = true ∧ Listed t .syncLost 0xFFFF []) ∧
  (∀ (s : State),
     s.core.ptpMaster = true ∧ s.core.pair.ptpNext ≤ s.core.now →
     Gives .ptpSyncSend s fun t =>
       t.pair.ptpSeq = (s.core.pair.ptpSeq + 1) % 65536 ∧ t.pair.ptpNext = s.core.now + s.core.syncInterval ∧
       t.mbx.tx.length = 2) ∧
  (∀ (s : State) (m : PtpMsg),
     s.core.ptpSlave = true ∧ m.domain.toNat = u8 s.core.plantP 12 ∧ m.twoStep = true →
     Gives (.ptpSyncReceive m) s fun t => t.pair.sync = some (m.seq.toNat, m.ingress, m.correction)) ∧
  (∀ (s : State) (m : PtpMsg),
     s.core.ptpSlave = true ∧ m.domain.toNat = u8 s.core.plantP 12 ∧ m.twoStep = false →
     Gives (.ptpSyncReceive m) s fun t =>
       t.getF PAI_STATUS.PTP = 2 ∧ t.pair.delayReq = some (m.seq.toNat, s.core.now / 4 * 4)) ∧
  (∀ (s : State) (m : PtpMsg) (i : Nat) (k : Int),
     s.core.ptpSlave = true ∧ m.domain.toNat = u8 s.core.plantP 12 ∧ s.core.pair.sync = some (m.seq.toNat, i, k) →
     Gives (.ptpFollowUpReceive m) s fun t =>
       t.getF PAI_STATUS.PTP = 2 ∧ t.pair.sync = none ∧ t.pair.delayReq = some (m.seq.toNat, s.core.now / 4 * 4)) ∧
  (∀ (s : State) (m : PtpMsg),
     s.core.ptpMaster = true ∧ m.domain.toNat = u8 s.core.plantP 12 →
     Gives (.ptpDelayReqReceive m) s fun t =>
       t.mbx.tx =
         [⟨clampN 1 2 (u8 s.core.plantP 14), 0, 320, le 1 9 ++ le 1 (u8 s.core.plantP 12) ++ le 2 m.seq.toNat ++ leI 8 (stamp (m.ingress + s.core.plantP64))⟩]) ∧
  (∀ (s : State) (m : PtpMsg) (t1 t2 t3 : Nat),
     s.core.ptpSlave = true ∧ m.domain.toNat = u8 s.core.plantP 12 ∧ s.core.pair.delayReq = some (m.seq.toNat, t3) ∧
       s.core.pair.pairT = some (t1, t2) →
     Gives (.ptpDelayRespReceive m) s fun t =>
       t.pair.delay = (((t2 : Int) - t1) + ((m.origin : Int) - m.correction - t3)) / 2 ∧ t.pair.delayReq = none) ∧
  (∀ (s : State) (ref : CmdRef) (at_ : Int) (arg : List Byte),
     s.core.pair.plant = some (ref, at_, 1, arg) ∧ at_ ≤ (s.core.modu.start : Int) + s.core.plantP64 →
     u8 arg 0 = 8 ∧ zeroAt arg 1 11 = true ∧ s.core.mode.code ≠ .safe ∧ s.core.mode.code ≠ .off ∧
       s.core.bist.inPlace = none →
     Gives .plantCommandDue s fun t =>
       t.pair.plant = none ∧ ref ∈ t.mode.safeRefs ∧ AlarmName.hostSafeRequest ∈ t.saf.req)

/-- A write of a register of which nothing else is said leaves the word its access types give; a window write of an
  owned field is refused in a running mode; a write to the safety island is refused and counted; a read of a LO word
  latches its HI word. R9, R10, R11, R31, R179. The meanings it speaks of rest on the model's choices of logs 9, 11. -/
def Obligations.RegisterAccesses : Prop :=
  (∀ (s : State) (a v : BitVec 32) (r : RegRow),
     a.toNat / 0x10000 = 0x4014 ∧ regRow a.toNat = some r ∧ a.toNat % 4 = 0 →
     s.core.domainOn (domainOf a.toNat) = true ∧ s.core.running = false ∧ s.core.setNow a.toNat = 0 →
     Gives (.registerWrite a v .window) s fun t => (t.reg a.toNat).toNat = writtenWord r (s.core.reg a.toNat).toNat
       v.toNat % 2 ^ 32 ∧ ∀ b, b ≠ a.toNat →
     t.reg b = s.core.reg b) ∧
  (∀ (s : State) (a v : BitVec 32),
     s.core.running = true ∧ ownedReg a.toNat = true →
     Gives (.registerWrite a v .window) s fun t => t.regs = s.core.regs) ∧
  (∀ (s : State) (a v : BitVec 32),
     a.toNat / 0x10000 = 0x4012 ∧ a.toNat % 4 = 0 ∧ s.core.domainOn (domainOf a.toNat) = true →
     Gives (.registerWrite a v .debug) s fun t => t.getF SAF_WRITE_ATTEMPTS.COUNT = satN
       SAF_WRITE_ATTEMPTS.COUNT.len (s.core.getF SAF_WRITE_ATTEMPTS.COUNT + 1) ∧ ∀ b, b ≠ SAF_WRITE_ATTEMPTS.a →
     t.reg b = s.core.reg b) ∧
  (∀ (s : State) (a : BitVec 32),
     latchesHi a.toNat = true →
     Gives (.latchedRead a) s fun t =>
       mapGet (fun _ => 0) t.latch (a.toNat + 4) = BitVec.ofNat 32 (s.core.liveReg (a.toNat + 4)) ∧
       t.regs = s.core.regs)

/-- In every mode except OFF a GET without payload is answered DONE with the payload of the SET in force, or with the
  defaults where none is. R489, R112, R157, R179, R207, R238, R255, R312, R341. The meanings it speaks of rest on
  the model's choices of log 82. -/
def Obligations.GetReplies : Prop :=
  (∀ (s : State) (m : Msg) (p : List Byte),
     Ready s.core 0x0107 m p →
     s.core.mode.code ≠ .off ∧ p = [] →
     Gives (.hostPortGet m) s fun t =>
       Answered t m 0x0107 stDONE (if s.core.cfgSet 0x0106 then s.core.cfgP 0x0106 else hostPortDefaults)) ∧
  (∀ (s : State) (m : Msg) (p : List Byte),
     Ready s.core 0x0202 m p →
     s.core.mode.code ≠ .off ∧ p = [] →
     Gives (.stringMapGet m) s fun t =>
       Answered t m 0x0202 stDONE (if s.core.cfgSet 0x0201 then s.core.cfgP 0x0201 else zeros 2176)) ∧
  (∀ (s : State) (m : Msg) (p : List Byte),
     Ready s.core 0x0211 m p →
     s.core.mode.code ≠ .off ∧ p = [] →
     Gives (.gateProfileGet m) s fun t =>
       Answered t m 0x0211 stDONE (if s.core.cfgSet 0x0210 then s.core.cfgP 0x0210 else gateDefaults)) ∧
  (∀ (s : State) (m : Msg) (p : List Byte),
     Ready s.core 0x0221 m p →
     s.core.mode.code ≠ .off ∧ p = [] →
     Gives (.protectionGet m) s fun t =>
       Answered t m 0x0221 stDONE (if s.core.cfgSet 0x0220 then s.core.cfgP 0x0220 else protectionDefaults)) ∧
  (∀ (s : State) (m : Msg) (p : List Byte),
     Ready s.core 0x0223 m p →
     s.core.mode.code ≠ .off ∧ p = [] →
     Gives (.safetyLimitsGet m) s fun t =>
       Answered t m 0x0223 stDONE (if s.core.cfgSet 0x0222 then s.core.cfgP 0x0222 else safetyDefaults)) ∧
  (∀ (s : State) (m : Msg) (p : List Byte),
     Ready s.core 0x0231 m p →
     s.core.mode.code ≠ .off ∧ p = [] →
     Gives (.modulationGet m) s fun t =>
       Answered t m 0x0231 stDONE (if s.core.cfgSet 0x0230 then s.core.cfgP 0x0230 else modulationDefaults)) ∧
  (∀ (s : State) (m : Msg) (p : List Byte),
     Ready s.core 0x0241 m p →
     s.core.mode.code ≠ .off ∧ p = [] →
     Gives (.dispatchGet m) s fun t =>
       Answered t m 0x0241 stDONE (if s.core.cfgSet 0x0240 then s.core.cfgP 0x0240 else dispatchDefaults)) ∧
  (∀ (s : State) (m : Msg) (p : List Byte),
     Ready s.core 0x0251 m p →
     s.core.mode.code ≠ .off ∧ p = [] →
     Gives (.controlGet m) s fun t =>
       Answered t m 0x0251 stDONE (if s.core.cfgSet 0x0250 then s.core.cfgP 0x0250 else controlDefaults)) ∧
  (∀ (s : State) (m : Msg) (p : List Byte),
     Ready s.core 0x0253 m p →
     s.core.mode.code ≠ .off ∧ p = [] →
     Gives (.motorModelGet m) s fun t =>
       Answered t m 0x0253 stDONE (if s.core.cfgSet 0x0252 then s.core.cfgP 0x0252 else zeros 28)) ∧
  (∀ (s : State) (m : Msg) (p : List Byte),
     Ready s.core 0x0255 m p →
     s.core.mode.code ≠ .off ∧ p = [] →
     Gives (.driveLimitsGet m) s fun t =>
       Answered t m 0x0255 stDONE (if s.core.cfgSet 0x0254 then s.core.cfgP 0x0254 else zeros 16)) ∧
  (∀ (s : State) (m : Msg) (p : List Byte),
     Ready s.core 0x0261 m p →
     s.core.mode.code ≠ .off ∧ p = [] →
     Gives (.feedbackGet m) s fun t =>
       Answered t m 0x0261 stDONE (if s.core.cfgSet 0x0260 then s.core.cfgP 0x0260 else feedbackDefaults)) ∧
  (∀ (s : State) (m : Msg) (p : List Byte),
     Ready s.core 0x0271 m p →
     s.core.mode.code ≠ .off ∧ p = [] →
     Gives (.startGet m) s fun t =>
       Answered t m 0x0271 stDONE (if s.core.cfgSet 0x0270 then s.core.cfgP 0x0270 else startDefaults)) ∧
  (∀ (s : State) (m : Msg) (p : List Byte),
     Ready s.core 0x0281 m p →
     s.core.mode.code ≠ .off ∧ p = [] →
     Gives (.dockGet m) s fun t =>
       Answered t m 0x0281 stDONE (if s.core.cfgSet 0x0280 then s.core.cfgP 0x0280 else zeros 36)) ∧
  (∀ (s : State) (m : Msg) (p : List Byte),
     Ready s.core 0x0291 m p →
     s.core.mode.code ≠ .off ∧ p = [] →
     Gives (.conversionGet m) s fun t =>
       Answered t m 0x0291 stDONE (if s.core.cfgSet 0x0290 then s.core.cfgP 0x0290 else conversionDefaults)) ∧
  (∀ (s : State) (m : Msg) (p : List Byte),
     Ready s.core 0x0293 m p →
     s.core.mode.code ≠ .off ∧ p = [] →
     Gives (.cellCalGet m) s fun t =>
       Answered t m 0x0293 stDONE (if s.core.cfgSet 0x0292 then s.core.cfgP 0x0292 else cellCalDefaults)) ∧
  (∀ (s : State) (m : Msg) (p : List Byte),
     Ready s.core 0x02A1 m p →
     s.core.mode.code ≠ .off ∧ p = [] →
     Gives (.clockGet m) s fun t =>
       Answered t m 0x02A1 stDONE (if s.core.cfgSet 0x02A0 then s.core.cfgP 0x02A0 else zeros 2 ++ le 2 250 ++ le 2
         10 ++ zeros 2)) ∧
  (∀ (s : State) (m : Msg) (p : List Byte),
     Ready s.core 0x02B1 m p →
     s.core.mode.code ≠ .off ∧ p = [] →
     Gives (.powerGet m) s fun t =>
       Answered t m 0x02B1 stDONE (if s.core.cfgSet 0x02B0 then s.core.cfgP 0x02B0 else [0, 1] ++ le 2 100 ++ zeros
         12)) ∧
  (∀ (s : State) (m : Msg) (p : List Byte),
     Ready s.core 0x02C1 m p →
     s.core.mode.code ≠ .off ∧ p = [] →
     Gives (.telemetryGet m) s fun t =>
       Answered t m 0x02C1 stDONE (if s.core.cfgSet 0x02C0 then s.core.cfgP 0x02C0 else zeros 3 ++ le 1 4 ++ zeros
         44)) ∧
  (∀ (s : State) (m : Msg) (p : List Byte),
     Ready s.core 0x02D1 m p →
     s.core.mode.code ≠ .off ∧ p = [] →
     s.core.grade = 1 →
     Gives (.gridGet m) s fun t =>
       Answered t m 0x02D1 stDONE (if s.core.cfgSet 0x02D0 then s.core.cfgP 0x02D0 else zeros 64))

/-- SYSTEM_INFO and ECHO answer in every mode that serves them; the status commands answer DONE with what the device
  holds. R352, R353, R491, R331, R60, R268, R286, R461. The meanings it speaks of rest on the model's choices of
  logs 104, 111, 156, 208. -/
def Obligations.StatusReplies : Prop :=
  (∀ (s : State) (m : Msg) (p : List Byte),
     Ready s.core 0x0101 m p →
     p = [] →
     Gives (.systemInfo m) s fun t => Answered t m 0x0101 stDONE (s.core.systemInfo)) ∧
  (∀ (s : State) (m : Msg) (p : List Byte),
     Ready s.core 0x0102 m p →
     Gives (.echo m) s fun t => Answered t m 0x0102 stDONE (p)) ∧
  (∀ (s : State) (m : Msg) (p : List Byte),
     Ready s.core 0x0302 m p →
     s.core.mode.code ≠ .off ∧ p = [] →
     Gives (.modeGet m) s fun t =>
       Answered t m 0x0302 stDONE (le 1 s.core.mode.code.code ++ le 1 s.core.mode.sub ++ le 1 (match
         s.core.mode.pend with | some x => x.target.code | none => 0xFF) ++ zeros 1 ++ le 8 s.core.mode.changed)) ∧
  (∀ (s : State) (m : Msg) (p : List Byte),
     Ready s.core 0x0423 m p →
     s.core.mode.code ≠ .off ∧ p = [] →
     Gives (.clockStatus m) s fun t => Answered t m 0x0423 stDONE (clockReply (s.core.take 0x0423 m).1)) ∧
  (∀ (s : State) (m : Msg) (p : List Byte),
     Ready s.core 0x0424 m p →
     s.core.mode.code ≠ .off ∧ p = [] →
     Gives (.gridStatus m) s fun t =>
       ∃ r ∈ (t.box m.mb.val).stored, r.status = stDONE ∧ r.payload.take 4 = le 1 s.core.grid.phase ++ le 1
         s.core.grid.option ++ le 1 s.core.grid.lastTrip ++ zeros 1 ∧ Answered t m 0x0424 stDONE r.payload) ∧
  (∀ (s : State) (m : Msg) (p : List Byte),
     Ready s.core 0x0421 m p →
     s.core.mode.code ≠ .off ∧ p = [] →
     Gives (.startStatus m) s fun t =>
       Answered t m 0x0421 stDONE (le 1 s.core.start.phase ++ le 1 s.core.start.src ++ le 1 s.core.start.reason ++
         zeros 1 ++ leI 4 s.core.start.nS ++ leI 4 s.core.start.nEmf ++ leI 4 s.core.start.amp ++ le 2
         s.core.start.delta ++ le 1 (min 255 s.core.start.extrap) ++ zeros 1 ++ le 4 (satN 32 ((s.core.now -
         s.core.start.phaseAt) / 1000000)))) ∧
  (∀ (s : State) (m : Msg) (p : List Byte),
     Ready s.core 0x0422 m p →
     s.core.mode.code ≠ .off ∧ p = [] ∧ s.core.getF PAI_STATUS.AUTH ≠ 1 →
     Gives (.dockStatus m) s fun t =>
       Answered t m 0x0422 stDONE
         ([DOK_STATUS.a, DOK_POS.a, DOK_TARGET.a, DOK_SPEED.a, DOK_OVERSHOOT.a, DOK_ARRIVE_ERR.a].flatMap (fun a =>
         le 4 (s.core.reg a).toNat))) ∧
  (∀ (s : State) (m : Msg) (p : List Byte),
     Ready s.core 0x0802 m p →
     s.core.mode.code ≠ .off ∧ p = [] →
     s.core.grade = 0 →
     Gives (.pairStatus m) s fun t => Answered t m 0x0802 stDONE (words s.core.paiWords)) ∧
  (∀ (s : State) (m : Msg) (p : List Byte),
     Ready s.core 0x0811 m p →
     s.core.mode.code ≠ .off ∧ p = [] →
     s.core.grade = 1 →
     Gives (.plantStatus m) s fun t => Answered t m 0x0811 stDONE (words s.core.paiWords)) ∧
  (∀ (s : State) (m : Msg) (p : List Byte),
     Ready s.core 0x0420 m p →
     s.core.mode.code ≠ .off ∧ p = [] →
     Gives (.dispatchStats m) s fun t => Answered t m 0x0420 stDONE ((List.range 6).flatMap s.core.statsRecord)) ∧
  (∀ (s : State) (m : Msg) (p : List Byte),
     Ready s.core 0x0731 m p →
     s.core.mode.code ≠ .off ∧ p = [] →
     Gives (.bistResult m) s fun t => Answered t m 0x0731 stDONE (s.core.bistReply)) ∧
  (∀ (s : State) (m : Msg) (p : List Byte),
     Ready s.core 0x0233 m p →
     s.core.mode.code ≠ .off ∧ p.length = 1 ∧ u8 p 0 < 64 →
     Gives (.timerGet m) s fun t =>
       Answered t m 0x0233 stDONE (le 1 (u8 p 0) ++ le 1 (s.core.getF (MOD_TCH_CFG.CNT_MODE (u8 p 0)) + 4 *
         s.core.getF (MOD_TCH_CFG.SYNC (u8 p 0)) + 8 * s.core.getF (MOD_TCH_CFG.PARTIAL_IGN (u8 p 0))) ++ le 1
         (s.core.getF (MOD_TCH_CFG.IRQ_EN (u8 p 0))) ++ le 1 (s.core.getF (MOD_TCH_CFG.TRG_EN (u8 p 0))) ++ le 4
         ((s.core.tch (u8 p 0)).val 0) ++ le 4 ((s.core.tch (u8 p 0)).val 1) ++ le 4 ((s.core.tch (u8 p 0)).val 2)
         ++ le 4 ((s.core.tch (u8 p 0)).val 3)))

/-- ALARM_LIST pages the alarms of the classes asked for; EVENT_LOG_READ, TRACE_READ, CELL_TELEMETRY, LEDGER_READ and
  CHAR_LIST_GET answer from what the device holds, and a trace read empties what it gave; ATTEST answers the
  certificate or a signed report; REG_READ answers the words of the window. R351, R392, R393, R394, R396, R374,
  R440, R354. The meanings it speaks of rest on the model's choices of logs 2, 21, 132. -/
def Obligations.RecordReplies : Prop :=
  (∀ (s : State) (m : Msg) (p : List Byte),
     Ready s.core 0x0104 m p →
     s.core.mode.code ≠ .off ∧ p.length = 4 ∧ u8 p 2 < 8 ∧ u8 p 3 = 0 →
     Gives (.alarmList m) s fun t =>
       Answered t m 0x0104 stDONE (alarmPage (s.core.tlm.alarms.filter (fun a => bitOf (u8 p 2) a.name.cls.num))
         (u16 p 0))) ∧
  (∀ (s : State) (m : Msg) (p : List Byte),
     Ready s.core 0x0401 m p →
     s.core.mode.code ≠ .off ∧ p.length = 4 →
     Gives (.eventLogRead m) s fun t => Answered t m 0x0401 stDONE (logReply s.core.tlm.log (u32 p 0))) ∧
  (∀ (s : State) (m : Msg) (p : List Byte),
     Ready s.core 0x0402 m p →
     s.core.mode.code ≠ .off ∧ p = [] ∧ s.core.tlm.traceLost = [] →
     Gives (.traceRead m) s fun t =>
       Answered t m 0x0402 stDONE ((s.core.tlm.trace.take 254).flatMap TraceRec.bytes) ∧
       t.tlm.trace = s.core.tlm.trace.drop 254) ∧
  (∀ (s : State) (m : Msg) (p : List Byte),
     Ready s.core 0x0403 m p →
     s.core.mode.code ≠ .off ∧ p.length = 4 ∧ u8 p 0 < 128 ∧ u8 p 1 = 1 ∧ u8 p 2 = 1 ∧ u8 p 3 = 0 →
     Gives (.cellTelemetry m) s fun t =>
       Answered t m 0x0403 stDONE (le 8 (s.core.cnv.sampleAt / 1000) ++ [0x80] ++ leI 4 (s.core.cellVal (u8 p 0)).v)
         ∧
       mapGet (fun _ => reconNone) t.tlm.recon (128 * m.mb.val + u8 p 0) = (s.core.cellVal (u8 p 0)).v) ∧
  (∀ (s : State) (m : Msg) (p : List Byte),
     Ready s.core 0x0501 m p →
     s.core.mode.code ≠ .off ∧ p.length = 4 ∧ u8 p 0 = 0 ∧ u8 p 1 = 0 ∧ u16 p 2 < 128 →
     Gives (.ledgerRead m) s fun t => Answered t m 0x0501 stDONE ((s.core.ledRec (u16 p 2)).bytes)) ∧
  (∀ (s : State) (m : Msg) (p : List Byte),
     Ready s.core 0x0507 m p →
     s.core.mode.code ≠ .off ∧ p.length = 4 ∧ u16 p 2 = 0 →
     Gives (.charListGet m) s fun t =>
       Answered t m 0x0507 stDONE (le 2 s.core.lgr.chars.length ++ le 2 ((s.core.lgr.chars.drop (u16 p 0)).take
         127).length ++ ((s.core.lgr.chars.drop (u16 p 0)).take 127).flatMap CharEnt.bytes)) ∧
  (∀ (s : State) (m : Msg) (p : List Byte),
     Ready s.core 0x0610 m p →
     s.core.mode.code ≠ .off ∧ p.length = 20 ∧ u8 p 0 = 0 ∧ u8 p 1 = 0 ∧ u16 p 2 = 0 →
     Gives (.attest m) s fun t => Answered t m 0x0610 stDONE (Config.certificate.take 1024)) ∧
  (∀ (s : State) (m : Msg) (p : List Byte),
     Ready s.core 0x0610 m p →
     s.core.mode.code ≠ .off ∧ p.length = 20 ∧ u8 p 0 = 1 ∧ u8 p 1 = 0 ∧ u16 p 2 = 0 →
     Gives (.attest m) s fun t =>
       Answered t m 0x0610 stDONE (s.core.report (p.drop 4) ++ s.core.sign (s.core.report (p.drop 4)))) ∧
  (∀ (s : State) (m : Msg) (p : List Byte) (v : Nat),
     Ready s.core 0x0701 m p →
     s.core.mode.code ≠ .off ∧ p.length = 8 ∧ windowChecks p 1020 = none ∧ u16 p 4 = 1 →
     s.core.getF (MBX_MB_CFG.PRIV m.mb.val) ≠ 0 →
     ((s.core.take 0x0701 m).1.busRead s.mem (u32 p 0) .window).2 = some v →
     Gives (.regRead m) s fun t => Answered t m 0x0701 stDONE (le 4 v))

/-- Where its own checks pass and MRAM can be written, a SET in STANDBY, HOLD, OPEN or TEST becomes the stored record
  with its UNSIGNED mark, takes effect at the next period start, and answers DONE. R113, R360, R39, R154, R204,
  R233, R254, R285, R309, R426. The meanings it speaks of rest on the model's choices of logs 19, 25, 26, 41, 83,
  84, 142. -/
def Obligations.SetConfiguration : Prop :=
  (∀ (s : State) (m : Msg) (p : List Byte),
     Ready s.core 0x0210 m p →
     cfgMode s.core.mode.code = true ∧ s.core.pwr.nvBad = false ∧ p.length = 2120 →
     gateChecks p = none →
     Gives (.gateProfileSet m) s fun t =>
       t.cfgSet 0x0210 = true ∧ t.cfgP 0x0210 = p ∧ (t.cfgRec 0x0210).unsigned = decide (m.flags = 0) ∧
       ShadowOp.load 0x0210 p ∈ t.shadow ∧ Answered t m 0x0210 stDONE ([])) ∧
  (∀ (s : State) (m : Msg) (p : List Byte),
     Ready s.core 0x0220 m p →
     cfgMode s.core.mode.code = true ∧ s.core.pwr.nvBad = false ∧ p.length = 3136 →
     s.core.protectionChecks p = none →
     Gives (.protectionSet m) s fun t =>
       t.cfgSet 0x0220 = true ∧ t.cfgP 0x0220 = p ∧ (t.cfgRec 0x0220).unsigned = decide (m.flags = 0) ∧
       ShadowOp.load 0x0220 p ∈ t.shadow ∧ Answered t m 0x0220 stDONE ([])) ∧
  (∀ (s : State) (m : Msg) (p : List Byte),
     Ready s.core 0x0222 m p →
     cfgMode s.core.mode.code = true ∧ s.core.pwr.nvBad = false ∧ p.length = 32 →
     safetyChecks p = none →
     Gives (.safetyLimitsSet m) s fun t =>
       t.cfgSet 0x0222 = true ∧ t.cfgP 0x0222 = p ∧ (t.cfgRec 0x0222).unsigned = decide (m.flags = 0) ∧
       ShadowOp.load 0x0222 p ∈ t.shadow ∧ Answered t m 0x0222 stDONE ([])) ∧
  (∀ (s : State) (m : Msg) (p : List Byte),
     Ready s.core 0x0230 m p →
     cfgMode s.core.mode.code = true ∧ s.core.pwr.nvBad = false ∧ p.length = 68 →
     modulationChecks p (decide (schedCost s.core.ctlImage ≤ cycleLimit (u16 p 6) (u16 p 4))) = none →
     Gives (.modulationSet m) s fun t =>
       t.cfgSet 0x0230 = true ∧ t.cfgP 0x0230 = p ∧ (t.cfgRec 0x0230).unsigned = decide (m.flags = 0) ∧
       ShadowOp.load 0x0230 p ∈ t.shadow ∧ Answered t m 0x0230 stDONE ([])) ∧
  (∀ (s : State) (m : Msg) (p : List Byte),
     Ready s.core 0x0240 m p →
     cfgMode s.core.mode.code = true ∧ s.core.pwr.nvBad = false ∧ p.length = 40 →
     dispatchChecks p = none →
     Gives (.dispatchSet m) s fun t =>
       t.cfgSet 0x0240 = true ∧ t.cfgP 0x0240 = p ∧ (t.cfgRec 0x0240).unsigned = decide (m.flags = 0) ∧
       ShadowOp.load 0x0240 p ∈ t.shadow ∧ Answered t m 0x0240 stDONE ([])) ∧
  (∀ (s : State) (m : Msg) (p : List Byte),
     Ready s.core 0x0250 m p →
     cfgMode s.core.mode.code = true ∧ s.core.pwr.nvBad = false ∧ p.length = 2272 →
     s.core.controlChecks p = none →
     Gives (.controlSet m) s fun t =>
       t.cfgSet 0x0250 = true ∧ t.cfgP 0x0250 = p ∧ (t.cfgRec 0x0250).unsigned = decide (m.flags = 0) ∧
       ShadowOp.load 0x0250 p ∈ t.shadow ∧ Answered t m 0x0250 stDONE ([])) ∧
  (∀ (s : State) (m : Msg) (p : List Byte),
     Ready s.core 0x0252 m p →
     cfgMode s.core.mode.code = true ∧ s.core.pwr.nvBad = false ∧ p.length = 28 →
     s.core.modelChecks p = none →
     Gives (.motorModelSet m) s fun t =>
       t.cfgSet 0x0252 = true ∧ t.cfgP 0x0252 = p ∧ (t.cfgRec 0x0252).unsigned = decide (m.flags = 0) ∧
       ShadowOp.load 0x0252 p ∈ t.shadow ∧ Answered t m 0x0252 stDONE ([])) ∧
  (∀ (s : State) (m : Msg) (p : List Byte),
     Ready s.core 0x0254 m p →
     cfgMode s.core.mode.code = true ∧ s.core.pwr.nvBad = false ∧ p.length = 16 →
     0 < u32 p 0 ∧ u32 p 0 ≤ s.core.pFs ∧ 0 < u32 p 4 ∧ 0 < u32 p 8 ∧ 0 < u32 p 12 →
     Gives (.driveLimitsSet m) s fun t =>
       t.cfgSet 0x0254 = true ∧ t.cfgP 0x0254 = p ∧ (t.cfgRec 0x0254).unsigned = decide (m.flags = 0) ∧
       ShadowOp.load 0x0254 p ∈ t.shadow ∧ Answered t m 0x0254 stDONE ([])) ∧
  (∀ (s : State) (m : Msg) (p : List Byte),
     Ready s.core 0x0260 m p →
     cfgMode s.core.mode.code = true ∧ s.core.pwr.nvBad = false ∧ p.length = 48 →
     feedbackChecks p = none →
     Gives (.feedbackSet m) s fun t =>
       t.cfgSet 0x0260 = true ∧ t.cfgP 0x0260 = p ∧ (t.cfgRec 0x0260).unsigned = decide (m.flags = 0) ∧
       ShadowOp.load 0x0260 p ∈ t.shadow ∧ Answered t m 0x0260 stDONE ([])) ∧
  (∀ (s : State) (m : Msg) (p : List Byte),
     Ready s.core 0x0270 m p →
     cfgMode s.core.mode.code = true ∧ s.core.pwr.nvBad = false ∧ p.length = 32 →
     s.core.startChecks p = none →
     Gives (.startSet m) s fun t =>
       t.cfgSet 0x0270 = true ∧ t.cfgP 0x0270 = p ∧ (t.cfgRec 0x0270).unsigned = decide (m.flags = 0) ∧
       ShadowOp.load 0x0270 p ∈ t.shadow ∧ Answered t m 0x0270 stDONE ([])) ∧
  (∀ (s : State) (m : Msg) (p : List Byte),
     Ready s.core 0x0280 m p →
     cfgMode s.core.mode.code = true ∧ s.core.pwr.nvBad = false ∧ p.length = 36 →
     dockChecks p = none →
     Gives (.dockSet m) s fun t =>
       t.cfgSet 0x0280 = true ∧ t.cfgP 0x0280 = p ∧ (t.cfgRec 0x0280).unsigned = decide (m.flags = 0) ∧
       ShadowOp.load 0x0280 p ∈ t.shadow ∧ Answered t m 0x0280 stDONE ([])) ∧
  (∀ (s : State) (m : Msg) (p : List Byte),
     Ready s.core 0x0290 m p →
     cfgMode s.core.mode.code = true ∧ s.core.pwr.nvBad = false ∧ p.length = 2528 →
     s.core.conversionChecks p = none →
     Gives (.conversionSet m) s fun t =>
       t.cfgSet 0x0290 = true ∧ t.cfgP 0x0290 = p ∧ (t.cfgRec 0x0290).unsigned = decide (m.flags = 0) ∧
       ShadowOp.load 0x0290 p ∈ t.shadow ∧ Answered t m 0x0290 stDONE ([])) ∧
  (∀ (s : State) (m : Msg) (p : List Byte),
     Ready s.core 0x02A0 m p →
     cfgMode s.core.mode.code = true ∧ s.core.pwr.nvBad = false ∧ p.length = 8 →
     u8 p 0 < 2 ∧ u8 p 1 = 0 ∧ 1 ≤ u16 p 2 ∧ u16 p 2 ≤ 1000 ∧ 1 ≤ u16 p 4 ∧ u16 p 4 ≤ 3600 ∧ u16 p 6 = 0 →
     Gives (.clockSet m) s fun t =>
       t.cfgSet 0x02A0 = true ∧ t.cfgP 0x02A0 = p ∧ (t.cfgRec 0x02A0).unsigned = decide (m.flags = 0) ∧
       ShadowOp.load 0x02A0 p ∈ t.shadow ∧ Answered t m 0x02A0 stDONE ([])) ∧
  (∀ (s : State) (m : Msg) (p : List Byte),
     Ready s.core 0x02B0 m p →
     cfgMode s.core.mode.code = true ∧ s.core.pwr.nvBad = false ∧ p.length = 16 →
     powerChecks p = none ∧ s.core.mode.pend = none →
     Gives (.powerSet m) s fun t =>
       t.cfgSet 0x02B0 = true ∧ t.cfgP 0x02B0 = p ∧ (t.cfgRec 0x02B0).unsigned = decide (m.flags = 0) ∧
       ShadowOp.load 0x02B0 p ∈ t.shadow ∧ Answered t m 0x02B0 stDONE ([])) ∧
  (∀ (s : State) (m : Msg) (p : List Byte),
     Ready s.core 0x02C0 m p →
     cfgMode s.core.mode.code = true ∧ s.core.pwr.nvBad = false ∧ p.length = 48 →
     s.core.telemetryChecks p = none →
     Gives (.telemetrySet m) s fun t =>
       t.cfgSet 0x02C0 = true ∧ t.cfgP 0x02C0 = p ∧ (t.cfgRec 0x02C0).unsigned = decide (m.flags = 0) ∧
       ShadowOp.load 0x02C0 p ∈ t.shadow ∧ Answered t m 0x02C0 stDONE ([])) ∧
  (∀ (s : State) (m : Msg) (p : List Byte),
     Ready s.core 0x02D0 m p →
     cfgMode s.core.mode.code = true ∧ s.core.pwr.nvBad = false ∧ p.length = 64 →
     s.core.gridChecks p = none ∧ s.core.grade = 1 →
     Gives (.gridSet m) s fun t =>
       t.cfgSet 0x02D0 = true ∧ t.cfgP 0x02D0 = p ∧ (t.cfgRec 0x02D0).unsigned = decide (m.flags = 0) ∧
       ShadowOp.load 0x02D0 p ∈ t.shadow ∧ Answered t m 0x02D0 stDONE ([])) ∧
  (∀ (s : State) (m : Msg) (p : List Byte),
     Ready s.core 0x0801 m p →
     cfgMode s.core.mode.code = true ∧ s.core.pwr.nvBad = false ∧ p.length = 24 →
     (pairChecks p = none ∧ s.core.grade = 0 ∧ (s.core.mode.code = .standby ∨ u8 p 0 = s.core.getF
       PAI_CTRL.PAIR_EN)) →
     Gives (.pairSet m) s fun t =>
       t.cfgSet 0x0801 = true ∧ t.cfgP 0x0801 = p ∧ (t.cfgRec 0x0801).unsigned = decide (m.flags = 0) ∧
       ShadowOp.load 0x0801 p ∈ t.shadow ∧ Answered t m 0x0801 stDONE ([])) ∧
  (∀ (s : State) (m : Msg) (p : List Byte),
     Ready s.core 0x0810 m p →
     cfgMode s.core.mode.code = true ∧ s.core.pwr.nvBad = false ∧ p.length = 24 →
     plantChecks p = none ∧ s.core.grade = 1 →
     Gives (.plantSet m) s fun t =>
       t.cfgSet 0x0810 = true ∧ t.cfgP 0x0810 = p ∧ (t.cfgRec 0x0810).unsigned = decide (m.flags = 0) ∧
       ShadowOp.load 0x0810 p ∈ t.shadow ∧ Answered t m 0x0810 stDONE ([])) ∧
  (∀ (s : State) (m : Msg) (p : List Byte),
     Ready s.core 0x0106 m p →
     cfgMode s.core.mode.code = true ∧ s.core.pwr.nvBad = false ∧ p.length = 152 →
     hostPortChecks p = none →
     Gives (.hostPortSet m) s fun t =>
       t.cfgSet 0x0106 = true ∧ t.cfgP 0x0106 = p ∧ (t.cfgRec 0x0106).unsigned = decide (m.flags = 0) ∧
       Answered t m 0x0106 stDONE ([])) ∧
  (∀ (s : State) (m : Msg) (p : List Byte),
     Ready s.core 0x0292 m p →
     cfgMode s.core.mode.code = true ∧ s.core.pwr.nvBad = false ∧ p.length = 1024 →
     cellCalChecks p = none →
     Gives (.cellCalSet m) s fun t =>
       t.cfgSet 0x0292 = true ∧ t.cfgP 0x0292 = p ∧ (t.cfgRec 0x0292).unsigned = decide (m.flags = 0) ∧
       ShadowOp.load 0x0292 p ∈ t.shadow ∧ Answered t m 0x0292 stDONE ([]) ∧
       (t.tlm.log.getLast?.map (·.cls)) = some 3) ∧
  (∀ (s : State) (m : Msg) (p : List Byte),
     Ready s.core 0x0201 m p →
     s.core.mode.code = .standby ∧ s.core.pwr.nvBad = false ∧ p.length = 2176 →
     s.core.map.applying = none ∧ mapChecks p = none →
     Gives (.stringMapSet m) s fun t =>
       t.cfgP 0x0201 = p ∧ t.map.id = u32 p 0 ∧ t.map.checking = true ∧ Accepted t m 0x0201 ∧
       t.lgr.mapId = u32 p 0)

/-- MODE_SET SAFE is accepted and requests the safe state; a change that R53 lists without further checks is accepted
  and pending; START_ABORT fails a start that runs; BLEED_RELEASE with the drive off answers DONE, and with it on
  ends it where both nodes are below 60 V. R50, R51, R53, R142, R269, R149. The meanings it speaks of rest on the
  model's choices of logs 2, 52, 62, 103, 204. -/
def Obligations.ModeCommands : Prop :=
  (∀ (s : State) (m : Msg) (p : List Byte),
     Ready s.core 0x0301 m p →
     s.core.mode.code ≠ .off ∧ s.core.mode.code ≠ .safe ∧ p.length = 12 ∧ s.core.getF PAI_STATUS.AUTH ≠ 1 →
     u8 p 0 = 8 ∧ zeroAt p 1 11 = true ∧ s.core.bist.inPlace = none →
     Gives (.modeSet m) s fun t =>
       Accepted t m 0x0301 ∧ AlarmName.hostSafeRequest ∈ t.saf.req ∧ Listed t .hostSafeRequest 0 []) ∧
  (∀ (s : State) (m : Msg) (p : List Byte),
     Ready s.core 0x0301 m p →
     s.core.mode.code = .standby ∧ p.length = 12 ∧ s.core.getF PAI_STATUS.AUTH ≠ 1 →
     u8 p 0 = 2 ∧ zeroAt p 1 11 = true ∧ s.core.bist.inPlace = none →
     s.core.mode.pend = none ∧ s.core.mode.reqPeriod ≠ some s.core.modu.period ∧ s.core.map.applying = none →
     Gives (.modeSet m) s fun t =>
       Accepted t m 0x0301 ∧ (t.mode.pend.map (·.target)) = some .hold ∧ t.mode.code = .standby) ∧
  (∀ (s : State) (m : Msg) (p : List Byte),
     Ready s.core 0x0331 m p →
     s.core.mode.code ≠ .off ∧ p = [] →
     1 ≤ s.core.start.phase ∧ s.core.start.phase ≤ 5 ∧ s.core.start.failing = 0 ∧ s.core.start.tq ≠ 0 →
     Gives (.startAbort m) s fun t => Answered t m 0x0331 stDONE ([]) ∧ t.start.failing = 6 ∧ t.start.reason = 6) ∧
  (∀ (s : State) (m : Msg) (p : List Byte),
     Ready s.core 0x0312 m p →
     s.core.mode.code ≠ .off ∧ p = [] ∧ s.core.flag SAF_STATUS.BLEED_DRV = false →
     Gives (.bleedRelease m) s fun t => Answered t m 0x0312 stDONE ([])) ∧
  (∀ (s : State) (m : Msg) (p : List Byte),
     Ready s.core 0x0312 m p →
     s.core.mode.code ≠ .off ∧ p = [] ∧ s.core.flag SAF_STATUS.BLEED_DRV = true ∧ s.core.bleedAin 0 = 0xFF ∧
       s.core.bleedAin 1 = 0xFF ∧ s.core.saf.crashIn = false →
     Gives (.bleedRelease m) s fun t =>
       Answered t m 0x0312 stDONE ([]) ∧ t.flag SAF_STATUS.BLEED_DRV = false ∧ t.reg SAF_BLEED_TIME.a = 0)

/-- Each operation command whose fields pass answers DONE; what it sets waits for the next period start in the shadow; a
  timer channel takes its registers and its count mode. R236, R237, R60, R206, R174. The meanings it speaks of rest
  on the model's choices of logs 41, 42, 89. -/
def Obligations.OperationCommands : Prop :=
  (∀ (s : State) (m : Msg) (p : List Byte),
     Ready s.core 0x0320 m p →
     s.core.mode.code ≠ .off ∧ s.core.getF PAI_STATUS.AUTH ≠ 1 ∧ p.length = 16 →
     u8 p 0 = 1 ∧ hostInputFail p = none ∧ u8 p 4 ∉ s.core.startOwns ++ s.core.gridOwns →
     Gives (.loopInputSet m) s fun t =>
       Answered t m 0x0320 stDONE ([]) ∧ ShadowOp.hin (u8 p 4) (s.core.unitSig (u8 p 5) (i32 p 8)) ∈ t.shadow) ∧
  (∀ (s : State) (m : Msg) (p : List Byte),
     Ready s.core 0x0321 m p →
     s.core.mode.code ≠ .off ∧ s.core.getF PAI_STATUS.AUTH ≠ 1 ∧ p.length = 4 →
     u8 p 0 < 32 ∧ s.core.flag CEN_CTRL.RUN = true ∧ u8 (slotRec s.core.ctlImage (u8 p 0)) 0 ≠ 0 ∧ u8 p 1 ≤ 1 ∧ u8 p
       2 ≤ 1 ∧ u8 p 3 = 0 →
     Gives (.slotModeSet m) s fun t =>
       Answered t m 0x0321 stDONE ([]) ∧ ShadowOp.slot (u8 p 0) (u8 p 1) (u8 p 2) ∈ t.shadow) ∧
  (∀ (s : State) (m : Msg) (p : List Byte),
     Ready s.core 0x0350 m p →
     s.core.mode.code ≠ .off ∧ s.core.grade = 1 ∧ p.length = 12 →
     u32 p 8 = 0 ∧ i32 p 0 * i32 p 0 + i32 p 4 * i32 p 4 ≤ ((s.core.pRated ^ 2 : Nat) : Int) →
     Gives (.gridSetpoint m) s fun t =>
       Answered t m 0x0350 stDONE ([]) ∧ ShadowOp.setpoint (i32 p 0) (i32 p 4) ∈ t.shadow) ∧
  (∀ (s : State) (m : Msg) (p : List Byte),
     Ready s.core 0x0242 m p →
     s.core.mode.code ≠ .off ∧ s.core.mode.code ≠ .safe ∧ s.core.getF PAI_STATUS.AUTH ≠ 1 ∧ p.length = 12 →
     u8 p 9 = 0 ∧ u8 p 10 = 0 ∧ u8 p 11 = 0 ∧ u16 p 4 ≤ 4095 ∧ s.core.getF DSP_STICKY.STICKY_MIN ≤ u8 p 8 →
     Gives (.dispatchWeights m) s fun t => Answered t m 0x0242 stDONE ([]) ∧ ShadowOp.weights p ∈ t.shadow) ∧
  (∀ (s : State) (m : Msg) (p : List Byte),
     Ready s.core 0x0232 m p →
     s.core.mode.code ≠ .off ∧ p.length = 20 →
     u8 p 0 < 64 ∧ s.core.tchOwned (u8 p 0) = false ∧ u8 p 1 < 16 ∧ u8 p 2 < 16 ∧ u8 p 3 < 16 ∧ 2 ≤ u32 p 4 →
     Gives (.timerSet m) s fun t =>
       Answered t m 0x0232 stDONE ([]) ∧ (t.reg (MOD_TCH_PERIOD.a (u8 p 0))).toNat = u32 p 4 ∧
       (t.reg (MOD_TCH_CMP_A.a (u8 p 0))).toNat = u32 p 8 ∧ t.getF (MOD_TCH_CFG.CNT_MODE (u8 p 0)) = u8 p 1 % 4 ∧
       t.getF (MOD_TCH_CFG.IRQ_EN (u8 p 0)) = u8 p 2)

/-- DOCK_MOVE from rest starts a move that is outstanding; DOCK_STOP ramps a move down; DOCK_RESUME starts a paused move
  again; DOCK_HOME starts homing; DOCK_COMPARE arms a compare; DOCK_SET_POS sets the position and loses the home.
  R275, R277, R283, R284, R286. The meanings it speaks of rest on the model's choices of logs 110, 205. -/
def Obligations.DockCommands : Prop :=
  (∀ (s : State) (m : Msg) (p : List Byte),
     Ready s.core 0x0340 m p →
     s.core.mode.code = .drive ∧ s.core.getF PAI_STATUS.AUTH ≠ 1 ∧ p.length = 8 →
     s.core.dockReady = true ∧ s.core.dockSt = 0 ∧ s.core.dok.move = none →
     u16 p 4 = 0 ∧ u16 p 6 = 0 ∧ s.core.vStart ≤ s.core.vLimit →
     s.core.endBlocks (dirTo (i32 p 0 * 1000000) s.core.dok.p) = false ∧ 1000 ≤ (i32 p 0 * 1000000 -
       s.core.dok.p).natAbs →
     Gives (.dockMove m) s fun t =>
       Accepted t m 0x0340 ∧ t.dok.t = i32 p 0 * 1000000 ∧ t.dok.v = s.core.vStart ∧ t.getF DOK_STATUS.STATE = 1 ∧
       (t.dok.move.map (·.seq)) = some m.seq.toNat) ∧
  (∀ (s : State) (m : Msg) (p : List Byte),
     Ready s.core 0x0341 m p →
     s.core.mode.code ≠ .off ∧ s.core.getF PAI_STATUS.AUTH ≠ 1 ∧ p = [] →
     (s.core.dockSt = 1 ∨ s.core.dockSt = 2) →
     Gives (.dockStop m) s fun t =>
       Accepted t m 0x0341 ∧ t.getF DOK_STATUS.STATE = 3 ∧ t.dok.why = 0 ∧
       (t.dok.stop.map (·.seq)) = some m.seq.toNat) ∧
  (∀ (s : State) (m : Msg) (p : List Byte),
     Ready s.core 0x0342 m p →
     s.core.mode.code = .drive ∧ s.core.getF PAI_STATUS.AUTH ≠ 1 ∧ p = [] →
     s.core.dockSt = 4 ∧ s.core.dockReady = true →
     Gives (.dockResume m) s fun t => Accepted t m 0x0342 ∧ t.getF DOK_STATUS.STATE = 1 ∧ t.dok.t = s.core.dok.t) ∧
  (∀ (s : State) (m : Msg) (p : List Byte),
     Ready s.core 0x0343 m p →
     s.core.mode.code = .drive ∧ s.core.getF PAI_STATUS.AUTH ≠ 1 ∧ p = [] →
     s.core.dockSt = 0 ∧ s.core.dockReady = true ∧ s.core.dok.move = none ∧ s.core.fbk.activeAt.getD 1 none = none →
     Gives (.dockHome m) s fun t =>
       Accepted t m 0x0343 ∧ t.getF DOK_STATUS.STATE = 6 ∧ t.dok.v = min s.core.vStart s.core.vHome) ∧
  (∀ (s : State) (m : Msg) (p : List Byte),
     Ready s.core 0x0344 m p →
     s.core.mode.code ≠ .off ∧ s.core.getF PAI_STATUS.AUTH ≠ 1 ∧ p.length = 8 →
     u8 p 0 < 8 ∧ u8 p 1 < 128 ∧ u8 p 2 = 0 ∧ u8 p 3 = 0 ∧ s.core.flag DOK_CTRL.EN = true →
     Gives (.dockCompare m) s fun t =>
       Answered t m 0x0344 stDONE ([]) ∧ (t.reg (DOK_CMP_CFG.a (u8 p 0))).toNat % 128 = u8 p 1 ∧
       (-200000000 < i32 p 4 → i32 p 4 < 200000000 → t.getI (DOK_CMP_POS.POS (u8 p 0)) = i32 p 4 * 10)) ∧
  (∀ (s : State) (m : Msg) (p : List Byte),
     Ready s.core 0x0345 m p →
     s.core.mode.code ≠ .off ∧ s.core.getF PAI_STATUS.AUTH ≠ 1 ∧ p.length = 4 →
     (s.core.dockSt = 0 ∨ s.core.dockSt = 4 ∨ s.core.dockSt = 5) →
     Gives (.dockSetPos m) s fun t =>
       Answered t m 0x0345 stDONE ([]) ∧ t.dok.p = i32 p 0 * 1000000 ∧ t.flag DOK_STATUS.HOMED = false ∧
       t.dok.slewLeft = 0)

/-- METER_READING and LEDGER_EXPORT are accepted and wait for a flush; TIME_SET records a pair; COMMISSION with a
  device-bound integrator signature empties the ledger and starts its time; LEDGER_IMPORT keeps a certificate that
  verifies. R376, R377, R378, R379, R380, R381. The meanings it speaks of rest on the model's choices of logs 19,
  127, 130, 156. -/
def Obligations.LedgerCommands : Prop :=
  (∀ (s : State) (m : Msg) (p : List Byte),
     Ready s.core 0x0502 m p →
     s.core.mode.code ≠ .off ∧ p.length = 20 →
     u8 p 0 < 128 ∧ 1 ≤ u8 p 1 ∧ u8 p 1 ≤ 64 ∧ u8 p 0 + u8 p 1 ≤ 128 ∧ u16 p 2 = 0 →
     Gives (.meterReading m) s fun t =>
       Accepted t m 0x0502 ∧
       (∃ r ∈ (t.box m.mb.val).cur, t.lgr.due = s.core.lgr.due ++ [.meter r (u8 p 0) (u8 p 1) ((p.drop 4).take 16)])) ∧
  (∀ (s : State) (m : Msg) (p : List Byte),
     Ready s.core 0x0505 m p →
     s.core.mode.code ≠ .off ∧ p.length = 4 →
     u8 p 0 < 128 ∧ 1 ≤ u8 p 1 ∧ u8 p 1 ≤ 8 ∧ u8 p 0 + u8 p 1 ≤ 128 ∧ u16 p 2 = 0 →
     Gives (.ledgerExport m) s fun t =>
       Accepted t m 0x0505 ∧
       (∃ r ∈ (t.box m.mb.val).cur, t.lgr.due = s.core.lgr.due ++ [.export_ r (u8 p 0) (u8 p 1)])) ∧
  (∀ (s : State) (m : Msg) (p : List Byte),
     Ready s.core 0x0503 m p →
     s.core.mode.code ≠ .off ∧ p.length = 16 →
     u16 p 8 < 1000 ∧ zeroAt p 10 6 = true ∧ s.core.lgr.utcSeen = none →
     Gives (.timeSet m) s fun t =>
       Answered t m 0x0503 stDONE ([]) ∧ t.lgr.times.getLast? = some ⟨s.core.wall, s.core.wall, 0, i64 p 0⟩ ∧
       t.lgr.utcSeen = some (s.core.wall, i64 p 0)) ∧
  (∀ (s : State) (m : Msg) (p : List Byte),
     ReadySigned s.core 0x0504 m p →
     s.core.mode.code = .standby ∧ s.core.lgr.commissioned = false ∧ p.length = 16 ∧ u32 p 12 = 0 →
     s.core.getF (MBX_MB_CFG.PRIV m.mb.val) ≠ 0 →
     Gives (.commission m) s fun t =>
       Accepted t m 0x0504 ∧ t.lgr.commissioned = true ∧ t.lgr.commId = u32 p 8 ∧ t.lgr.commUtc = i64 p 0 ∧
       t.lgr.chars = [] ∧ t.lgr.imports = [] ∧ t.lgr.times = [⟨0, 0, 0, i64 p 0⟩] ∧ t.wall = 0 ∧
       t.flag LGR_STATUS.COMMISSIONED = true) ∧
  (∀ (s : State) (m : Msg) (p : List Byte),
     Ready s.core 0x0506 m p →
     s.core.mode.code = .standby ∧ s.core.lgr.commissioned = true ∧ 4 ≤ p.length ∧ p.length ≤ 1028 ∧ u8 p 0 = 0 ∧ u8
       p 1 = 0 ∧ u16 p 2 = 0 →
     s.core.getF (MBX_MB_CFG.PRIV m.mb.val) ≠ 0 →
     Gives (.ledgerImport m) s fun t =>
       (Config.certKey s.core.sec.otp.caHash (p.drop 4) ≠ none → t.lgr.cert = some (p.drop 4) ∧ Answered t m 0x0506
         stDONE ([])) ∧
       (Config.certKey s.core.sec.otp.caHash (p.drop 4) = none → t.lgr.cert = s.core.lgr.cert ∧ Answered t m 0x0506
         stSIGNATURE_FAIL ([])))

/-- A load begins with an empty slot and a session, takes data in order into the slot, and a commit whose hashes hold
  makes the slot TRIAL; a challenge is issued and a response that verifies unlocks its level; DEBUG_LOCK returns to
  level 0; a key is registered; fuse repairs are burned. R438, R444, R441, R412. The meanings it speaks of rest on
  the model's choices of logs 19, 154, 157, 158, 159, 181. -/
def Obligations.SecurityCommands : Prop :=
  (∀ (s : State) (m : Msg) (p : List Byte),
     ReadySigned s.core 0x0601 m p →
     (fwMode s.core.mode.code = true ∧ (s.core.mode.code = .off → s.core.offServes 0x0601 = true) ∧ p.length = 128 ∧
       s.core.imageChecks p = none ∧ s.core.sec.session = none ∧ s.core.pwr.nvBad = false) →
     s.core.getF (MBX_MB_CFG.PRIV m.mb.val) ≠ 0 →
     GivesM (.fwLoadBegin m) s fun t u =>
       Answered t m 0x0601 stDONE ([]) ∧ t.sec.session = some ⟨m.mb.val, s.core.loadSlot, p, 0, s.core.now⟩ ∧
       readBytes u (slotBase s.core.loadSlot) 128 = p) ∧
  (∀ (s : State) (m : Msg) (p : List Byte) (x : FwSession),
     Ready s.core 0x0602 m p →
     (fwMode s.core.mode.code = true ∧ (s.core.mode.code = .off → s.core.offServes 0x0602 = true) ∧
       s.core.sec.session = some x ∧ x.mb = m.mb.val ∧ 8 ≤ p.length ∧ p.length % 4 = 0 ∧ u32 p 0 = x.got ∧ x.got +
       (p.length - 4) ≤ imgSize x.hdr ∧ s.core.pwr.nvBad = false ∧ x.slot < 2 ∧ imgSize x.hdr ≤ 0x5FFE00) →
     s.core.getF (MBX_MB_CFG.PRIV m.mb.val) ≠ 0 →
     GivesM (.fwLoadData m) s fun t u =>
       Answered t m 0x0602 stDONE ([]) ∧
       t.sec.session = some { x with got := x.got + (p.length - 4), last := s.core.now } ∧
       readBytes u (slotBase x.slot + 0x200 + x.got) (p.length - 4) = p.drop 4) ∧
  (∀ (s : State) (m : Msg) (p : List Byte) (x : FwSession),
     Ready s.core 0x0603 m p →
     (fwMode s.core.mode.code = true ∧ (s.core.mode.code = .off → s.core.offServes 0x0603 = true) ∧ p = [] ∧
       s.core.sec.session = some x ∧ x.mb = m.mb.val ∧ x.got = imgSize x.hdr ∧ x.slot < 2 ∧ s.core.sec.slots.length
       = 2) →
     s.core.getF (MBX_MB_CFG.PRIV m.mb.val) ≠ 0 →
     sha384 (imgBody s.mem x.slot (imgSize x.hdr)) = imgHash x.hdr ∧ sha384 ((imgBody s.mem x.slot (imgSize
       x.hdr)).take (imgFsSize x.hdr)) = imgFsHash x.hdr →
     Gives (.fwLoadCommit m) s fun t =>
       Answered t m 0x0603 stDONE ([]) ∧ t.slot x.slot = slTRIAL ∧ t.sec.session = none) ∧
  (∀ (s : State) (m : Msg) (p : List Byte),
     Ready s.core 0x0611 m p →
     s.core.mode.code ≠ .off ∧ p = [] ∧ s.core.driveLock = false ∧ s.core.sec.lockEnd = none →
     s.core.getF (MBX_MB_CFG.PRIV m.mb.val) ≠ 0 →
     Gives (.debugChallenge m) s fun t =>
       Answered t m 0x0611 stDONE (s.core.challengeBytes) ∧
       t.sec.chal = some ⟨s.core.challengeBytes, s.core.now⟩) ∧
  (∀ (s : State) (m : Msg) (p : List Byte),
     ReadySigned s.core 0x0612 m p →
     s.core.mode.code ≠ .off ∧ p.length = 68 ∧ s.core.driveLock = false ∧ s.core.responseFail p = none →
     s.core.getF (MBX_MB_CFG.PRIV m.mb.val) ≠ 0 →
     Gives (.debugUnlock m) s fun t =>
       Answered t m 0x0612 stDONE ([]) ∧ t.getF DDP_STAT.LEVEL = u8 p 0 ∧
       t.sec.unlockEnd = some (s.core.now + u16 p 2 * 1000000000) ∧ t.sec.chal = none ∧
       t.getF SEC_AUTH.FAILS = 0) ∧
  (∀ (s : State) (m : Msg) (p : List Byte),
     Ready s.core 0x0613 m p →
     s.core.mode.code ≠ .off ∧ p = [] →
     s.core.getF (MBX_MB_CFG.PRIV m.mb.val) ≠ 0 →
     Gives (.debugLock m) s fun t =>
       Answered t m 0x0613 stDONE ([]) ∧ t.getF DDP_STAT.LEVEL = 0 ∧ t.getF SEC_STATUS.DEBUG_LEVEL = 0 ∧
       t.sec.unlockEnd = none) ∧
  (∀ (s : State) (m : Msg) (p : List Byte),
     ReadySigned s.core 0x0620 m p →
     s.core.mode.code = .standby ∧ p.length = 60 ∧ s.core.recommissionChecks p = none ∧ s.core.pwr.nvBad = false ∧
       u8 p 0 = 2 ∧ u8 p 1 = 1 ∧ keyProg s.core.sec.otp.integratorHash (u8 p 2) = false →
     s.core.getF (MBX_MB_CFG.PRIV m.mb.val) ≠ 0 →
     Gives (.recommission m) s fun t =>
       Answered t m 0x0620 stDONE ([]) ∧ t.sec.otp.integratorHash.getD (u8 p 2) [] = (p.drop 12).take 48 ∧
       Listed t .keyRegistered (u8 p 2) [u8 p 2] ∧ t.flag SEC_EVENT.KEY_CHANGED = true) ∧
  (∀ (s : State) (m : Msg) (p : List Byte),
     ReadySigned s.core 0x0732 m p →
     s.core.mode.code = .standby ∧ p.length = 12 ∧ u64 p 0 = s.core.sec.otp.deviceId.toNat ∧ u32 p 8 = 1 ∧
       s.core.bist.soft.length = 1 ∧ s.core.bist.burned = [] ∧ 1 ≤ s.core.getF BST_STATUS.FUSE_FREE ∧
       s.core.pwr.nvBad = false →
     s.core.getF (MBX_MB_CFG.PRIV m.mb.val) ≠ 0 →
     Gives (.fuseRepair m) s fun t =>
       ((Config.freeWord s.core.free).getLsbD 0 = true → Answered t m 0x0732 stDONE ([]) ∧ t.sec.otp.fuses =
         burnFuse s.core.sec.otp.fuses (s.core.bist.soft.getD 0 0) ∧ t.getF BST_STATUS.FUSE_FREE = s.core.getF
         BST_STATUS.FUSE_FREE - 1) ∧
       ((Config.freeWord s.core.free).getLsbD 0 = false → Answered t m 0x0732 stPARTIAL (words [0]) ∧
         t.sec.otp.fuses = s.core.sec.otp.fuses))

/-- COMPARATOR_TEST is accepted and its test runs; LANE_INJECT and PAIR_INJECT act where injection is permitted and are
  denied elsewhere; BIST_RUN of the whole device asks for a reset; REG_WRITE writes a word; ALARM_ACK acknowledges;
  RESET waits for a flush; PAIR_TAKEOVER gives AUTH_OUT up; PLANT_COMMAND waits for its time. R156, R98, R463, R410,
  R354, R351, R425, R461, R462. The meanings it speaks of rest on the model's choices of logs 9, 32, 33, 50, 51, 59,
  60, 130, 149, 165, 171, 172, 174. -/
def Obligations.TestCommands : Prop :=
  (∀ (s : State) (m : Msg) (p : List Byte),
     Ready s.core 0x0710 m p →
     ((s.core.mode.code = .hold ∨ s.core.mode.code = .open_) ∧ p.length = 4) →
     u8 p 0 < 128 ∧ 1 ≤ u8 p 1 ∧ u8 p 1 < 16 ∧ u8 p 2 ≤ 2 ∧ u8 p 3 = 0 →
     s.core.nearlyStill = true ∧ (s.core.cell (u8 p 0)).adm = .admitted ∧ (s.core.cell (u8 p 0)).gone = false ∧
       s.core.prt.test = none →
     Gives (.comparatorTest m) s fun t =>
       Accepted t m 0x0710 ∧
       (t.prt.test.map (fun x => (x.cell, x.mask, x.kind))) = some (u8 p 0, u8 p 1, u8 p 2)) ∧
  (∀ (s : State) (m : Msg) (p : List Byte),
     Ready s.core 0x0720 m p →
     s.core.mode.code ≠ .off ∧ p.length = 8 ∧ u8 p 0 < 128 ∧ u8 p 1 = 0 ∧ u16 p 2 = 0 ∧ s.core.injectable = true ∧
       bitsOf (u32 p 4) 3 4 < 10 →
     Gives (.laneInject m) s fun t =>
       Answered t m 0x0720 stDONE ([]) ∧ (t.reg (LNK_LANE_INJ_CFG.a (u8 p 0))).toNat = u32 p 4 % 2 ^ 28 ∧
       t.flag (LNK_LANE_INJ_STATUS.ACTIVE (u8 p 0)) = decide (u32 p 4 % 4 ≠ 0)) ∧
  (∀ (s : State) (m : Msg) (p : List Byte),
     Ready s.core 0x0720 m p →
     s.core.mode.code ≠ .off ∧ p.length = 8 ∧ u8 p 0 < 128 ∧ u8 p 1 = 0 ∧ u16 p 2 = 0 ∧ s.core.injectable = false →
     Gives (.laneInject m) s fun t =>
       Answered t m 0x0720 stDENIED (words [4]) ∧
       t.reg (LNK_LANE_INJ_CFG.a (u8 p 0)) = s.core.reg (LNK_LANE_INJ_CFG.a (u8 p 0))) ∧
  (∀ (s : State) (m : Msg) (p : List Byte),
     Ready s.core 0x0721 m p →
     s.core.mode.code ≠ .off ∧ s.core.grade = 0 ∧ p.length = 8 ∧ s.core.injectable = true ∧ u8 p 0 < 3 ∧ u8 p 1 = 0
       ∧ u32 p 4 ≤ 100000 →
     Gives (.pairInject m) s fun t =>
       Answered t m 0x0721 stDONE ([]) ∧
       t.pair.inj = (if u8 p 0 = 0 then none else some (u8 p 0, u16 p 2, u32 p 4))) ∧
  (∀ (s : State) (m : Msg) (p : List Byte),
     Ready s.core 0x0730 m p →
     s.core.mode.code = .standby ∧ p.length = 4 ∧ u32 p 0 = 0 ∧ s.core.flag BST_STATUS.RUNNING = false →
     Gives (.bistRun m) s fun t => Answered t m 0x0730 stDONE ([]) ∧ t.pwr.resetDue = some (0, 7, s.core.now)) ∧
  (∀ (s : State) (m : Msg) (p : List Byte) (r : RegRow),
     Ready s.core 0x0702 m p →
     s.core.mode.code ≠ .off ∧ s.core.running = false ∧ p.length = 12 ∧ windowChecks p 1018 = none ∧ u16 p 4 = 1 →
     s.core.getF (MBX_MB_CFG.PRIV m.mb.val) ≠ 0 →
     u32 p 0 / 0x10000 = 0x4014 ∧ regRow (u32 p 0) = some r ∧ s.core.domainOn (domainOf (u32 p 0)) = true ∧
       s.core.setNow (u32 p 0) = 0 →
     Gives (.regWrite m) s fun t =>
       Answered t m 0x0702 stDONE ([]) ∧
       (t.reg (u32 p 0)).toNat = writtenWord r (s.core.reg (u32 p 0)).toNat (u32 p 8) % 2 ^ 32) ∧
  (∀ (s : State) (m : Msg) (p : List Byte) (x : Alarm),
     Ready s.core 0x0105 m p →
     s.core.mode.code ≠ .off ∧ p.length = 6 ∧ u16 p 0 = 1 ∧ u16 p 2 = 0 →
     s.core.tlm.alarms.find? (fun a => a.id == u16 p 4) = some x ∧ x.acked = false ∧ x.cause = true ∧
       x.name.endsAtAck = false →
     Gives (.alarmAck m) s fun t =>
       Answered t m 0x0105 stDONE ([0]) ∧ ∃ a ∈ t.tlm.alarms, a.name = x.name ∧ a.inst = x.inst ∧ a.acked = true ∧
         a.cause = true) ∧
  (∀ (s : State) (m : Msg) (p : List Byte),
     Ready s.core 0x0103 m p →
     ((cfgMode s.core.mode.code = true ∨ s.core.mode.code = .safe) ∧ p.length = 4 ∧ u8 p 0 < 3 ∧ u8 p 1 = 0 ∧ u16 p
       2 = 0) →
     s.core.getF (MBX_MB_CFG.PRIV m.mb.val) ≠ 0 →
     ((u8 p 0 = 2 → s.core.mode.code = .standby) ∧ (u8 p 0 < 2 → s.core.aboveNsr = false)) →
     Gives (.reset m) s fun t =>
       Answered t m 0x0103 stDONE ([]) ∧ t.lgr.due = s.core.lgr.due ++ [.reset (u8 p 0) 5]) ∧
  (∀ (s : State) (m : Msg) (p : List Byte),
     Ready s.core 0x0803 m p →
     s.core.mode.code ≠ .off ∧ s.core.grade = 0 ∧ p = [] ∧ s.core.canRelinquish = true →
     Gives (.pairTakeover m) s fun t =>
       t.flag PAI_STATUS.AUTH_OUT = false ∧
       (∃ r ∈ (t.box m.mb.val).cur, r.seq = m.seq.toNat ∧ t.pair.rel = some (s.core.now, 0, [r], 0)) ∧
       t.getF (mbState m.mb.val) = 2) ∧
  (∀ (s : State) (m : Msg) (p : List Byte),
     Ready s.core 0x0812 m p →
     s.core.mode.code ≠ .off ∧ s.core.grade = 1 ∧ p.length = 24 →
     (2 ≤ s.core.getF PAI_STATUS.PTP ∧ s.core.plantTime - 1000000000 ≤ i64 p 0 ∧ i64 p 0 ≤ s.core.plantTime +
       3600000000000 ∧ (u8 p 8 = 1 ∨ u8 p 8 = 2) ∧ u8 p 9 = 0 ∧ u16 p 10 = 0 ∧ s.core.pair.plant = none) →
     Gives (.plantCommand m) s fun t =>
       Accepted t m 0x0812 ∧
       (∃ r ∈ (t.box m.mb.val).cur, t.pair.plant = some (r, i64 p 0, u8 p 8, (p.drop 12).take 12)))

/-- Message starts, records, retries, training starts, trials, bypass timers and the ends of exclusions and holds answer
  a next state in which the queue, every byte of memory, every register outside the list given with each, and
  everything else of the block but the named tables are as before. R81, R82, R87, R88, R93, R95, R96, R98, R128,
  R129, R388. The meanings it speaks of rest on the model's choices of logs 137, 138, 172, 174, 193. -/
def Obligations.LinkEventFrames : Prop :=
  (∀ (l : Fin 128),
     Keeps (.messageStart l) (fun a => [LNK_LANE_STATUS.a l, LNK_LANE_INJ_STATUS.a l].contains a) (fun t c =>
       { t with lanes := c.lanes })) ∧
  (∀ (l : Fin 128) (p : BitVec 24),
     Keeps (.identRecord l p) (fun a => [LNK_LANE_SERIAL_LO.a l, LNK_LANE_SERIAL_HI.a l].contains a) (fun t c =>
       { t with lanes := c.lanes })) ∧
  (∀ (l : Fin 128),
     Keeps (.errorBucketRoll l) (fun a => [LNK_LANE_ERR_WINDOW.a l].contains a) (fun t c =>
       { t with lanes := c.lanes })) ∧
  (∀ (l : Fin 128),
     Keeps (.messageAttemptFailed l) (fun a =>
       [LNK_LANE_STATUS.a l, LNK_LANE_ERR_WINDOW.a l, LNK_LANE_EVENT.a l, LNK_LANE_EQ.a l].contains a) (fun t c =>
       { t with lanes := c.lanes, tlm := c.tlm })) ∧
  (∀ (l : Fin 128) (type : BitVec 8),
     Keeps (.unknownRecord l type) (fun a => [LNK_LANE_ERR_WINDOW.a l, LNK_LANE_EVENT.a l, LNK_LANE_EQ.a l].contains
       a) (fun t c => { t with lanes := c.lanes, tlm := c.tlm })) ∧
  (∀ (l : Fin 128) (v : BitVec 32),
     Keeps (.lnkInjCfgWrite l v) (fun a => [LNK_LANE_INJ_CFG.a l, LNK_LANE_INJ_STATUS.a l, LNK_LANE_EQ.a l].contains
       a) (fun t c => { t with lanes := c.lanes, tlm := c.tlm })) ∧
  (∀ (l : Fin 128),
     Keeps (.silentRetry l) (fun a =>
       [LNK_LANE_STATUS.a l, LNK_LANE_EVENT.a l, LNK_LANE_EQ.a l, LNK_VALID_MAP_0.a + 4 * (l.val / 32), LNK_FAULTY_MAP_0.a + 4 * (l.val / 32), GDP_HB_STAT.a (2 * l.val), GDP_HB_STAT.a (2 * l.val + 1)].contains
       a) (fun t c => { t with lanes := c.lanes, hbs := c.hbs, prt := c.prt, tlm := c.tlm })) ∧
  (∀ (l : Fin 128),
     Keeps (.lnkRetrain l) (fun a =>
       [LNK_LANE_STATUS.a l, LNK_LANE_EVENT.a l, LNK_LANE_EQ.a l, LNK_VALID_MAP_0.a + 4 * (l.val / 32), LNK_FAULTY_MAP_0.a + 4 * (l.val / 32), GDP_HB_STAT.a (2 * l.val), GDP_HB_STAT.a (2 * l.val + 1)].contains
       a) (fun t c => { t with lanes := c.lanes, hbs := c.hbs, prt := c.prt, tlm := c.tlm })) ∧
  (∀ (l : Fin 128),
     Keeps (.eqTrialStart l) (fun a => [LNK_LANE_EQ.a l].contains a) (fun t c =>
       { t with lanes := c.lanes, tlm := c.tlm })) ∧
  (∀ (c : Fin 128),
     Keeps (.bypassCloseTimer c) (fun _ => false) (fun t c => { t with cells := c.cells, lanes := c.lanes })) ∧
  (∀ (c : Fin 128),
     Keeps (.bypassOpenTimer c) (fun _ => false) (fun t c => { t with cells := c.cells, lanes := c.lanes })) ∧
  (∀ (c : Fin 128),
     Keeps (.exclusionEnd c) (fun _ => false) (fun t c => { t with cells := c.cells })) ∧
  (∀ (h : Fin 256),
     Keeps (.retryMinOffElapsed h) (fun _ => false) (fun t c => { t with hbs := c.hbs, lanes := c.lanes }))

/-- Each of these events answers a next state in which the queue, every byte of memory, every register outside the list
  given with it (those of its own channel, unit or port), and everything else of the block but the named engine are
  as before; what a port sends is no such change. R172, R174, R179, R293, R295, R297, R342, R344, R355, R358, R400,
  R31. The meanings it speaks of rest on the model's choices of logs 11, 14, 41, 42, 43, 78, 80, 97, 99, 139, 140,
  141, 142, 145. -/
def Obligations.PortEventFrames : Prop :=
  (∀ (n : Fin 64),
     Keeps (.tchEvent n) (fun a => [(MOD_EVENT.a), MOD_TCH_CFG.a n, MOD_TCH_STAT.a n].contains a) (fun t c =>
       { t with modu := c.modu })) ∧
  (∀ (n : Fin 64),
     Keeps (.tchUpdateBoundary n) (fun a => [(MOD_EVENT.a), MOD_TCH_CFG.a n, MOD_TCH_STAT.a n].contains a) (fun t c
       => { t with modu := c.modu })) ∧
  (∀ (n : Fin 64),
     Keeps (.tchCommit n) (fun a => [(MOD_EVENT.a), MOD_TCH_CFG.a n, MOD_TCH_STAT.a n].contains a) (fun t c =>
       { t with modu := c.modu })) ∧
  (∀ (n : Fin 64) (mode : Fin 4),
     Keeps (.tchCntModeStart n mode) (fun a => [(MOD_EVENT.a), MOD_TCH_CFG.a n, MOD_TCH_STAT.a n].contains a) (fun t
       c => { t with modu := c.modu })) ∧
  (∀ (u : Fin 4),
     Keeps (.sarPreTrigger u) (fun a =>
       [CNV_U_STATUS.a u, CNV_U_EVENT.a u, CNV_U_COUNT.a u, CNV_U_URG_RESULT.a u, CNV_U_LAST.a u, CNV_U_LAST_T.a u].contains
       a) (fun t c => { t with cnv := c.cnv, fbk := c.fbk })) ∧
  (∀ (u : Fin 3),
     Keeps (.backgroundTrigger u) (fun a =>
       [CNV_U_STATUS.a u, CNV_U_EVENT.a u, CNV_U_COUNT.a u, CNV_U_URG_RESULT.a u, CNV_U_LAST.a u, CNV_U_LAST_T.a u].contains
       a) (fun t c => { t with cnv := c.cnv, fbk := c.fbk })) ∧
  (∀ (u : Fin 3),
     Keeps (.cnvStart u) (fun a =>
       [CNV_U_STATUS.a u, CNV_U_EVENT.a u, CNV_U_COUNT.a u, CNV_U_URG_RESULT.a u, CNV_U_LAST.a u, CNV_U_LAST_T.a u].contains
       a) (fun t c => { t with cnv := c.cnv, fbk := c.fbk })) ∧
  (∀ (u : Fin 3) (v : BitVec 32),
     Keeps (.urgentRequest u v) (fun a =>
       [CNV_U_STATUS.a u, CNV_U_EVENT.a u, CNV_U_COUNT.a u, CNV_U_URG_RESULT.a u, CNV_U_LAST.a u, CNV_U_LAST_T.a u].contains
       a) (fun t c => { t with cnv := c.cnv, fbk := c.fbk })) ∧
  (∀ (u : Fin 4) (raw : BitVec 16),
     Keeps (.sarConversionDone u raw) (fun a =>
       [CNV_U_STATUS.a u, CNV_U_EVENT.a u, CNV_U_COUNT.a u, CNV_U_URG_RESULT.a u, CNV_U_LAST.a u, CNV_U_LAST_T.a u].contains
       a) (fun t c => { t with cnv := c.cnv, fbk := c.fbk })) ∧
  (∀ (ch : Fin 16),
     Keeps (.stuStart ch) (fun a =>
       [STU_CH_STAT.a ch, STU_FAULT_MAP.a, STU_CH_DONE.a ch, STU_CH_REMAIN.a ch].contains a) (fun t _ => t)) ∧
  (∀ (ch : Fin 16),
     Keeps (.stuResume ch) (fun a => [STU_CH_STAT.a ch, STU_FAULT_MAP.a].contains a) (fun t c =>
       { t with stu := c.stu })) ∧
  (∀ (ch : Fin 16),
     ch.val ≠ 9 →
     Keeps (.stuAbort ch) (fun a =>
       [STU_CH_STAT.a ch, STU_FAULT_MAP.a, MBX_COUNT.a, CNV_U_COUNT.a (ch.val - 13), CNV_U_EVENT.a (ch.val - 13)].contains
       a) (fun t c => { t with cnv := c.cnv })) ∧
  (Keeps .stuFlush (fun _ => false) (fun t c => { t with stu := c.stu })) ∧
  (∀ (axle : Bool),
     Keeps (.speedStopped axle) (fun a => [FBK_SPEED_STAT.a, FBK_SPEED_AXLE.a, FBK_SPEED_HALL.a].contains a) (fun t
       _ => t)) ∧
  (∀ (a b : Bool) (h : Held),
     Keeps (.axleEdge a b h) (fun r =>
       [FBK_IN_STAT.a, FBK_EVENT.a, FBK_ERR_COUNT.a, FBK_AXLE_COUNT.a, FBK_MARKER_POS.a].contains r) (fun t c =>
       { t with fbk := c.fbk, dok := c.dok })) ∧
  (∀ (n : Fin 4),
     Keeps (.dockPulseEnd n) (fun a => [DOK_STATUS.a].contains a) (fun t c => { t with dok := c.dok })) ∧
  (∀ (m : Fin 16),
     Keeps (.doorbell m) (fun a => [MBX_STATE.a, MBX_EVENT.a, MBX_COUNT.a].contains a) (fun t c =>
       { t with mbx := c.mbx })) ∧
  (∀ (m : Byte),
     Keeps (.qspiDoorbell m) (fun a => [MBX_STATE.a, MBX_EVENT.a, MBX_COUNT.a].contains a) (fun t c =>
       { t with mbx := c.mbx })) ∧
  (∀ (addr : BitVec 24) (n : Nat),
     Keeps (.qspiRead addr n) (fun _ => false) (fun t _ => t)) ∧
  (Keeps .qspiStatus (fun _ => false) (fun t _ => t)) ∧
  (∀ (mask : BitVec 16),
     Keeps (.qspiClearReady mask) (fun a => [MBX_REPLY_READY.a].contains a) (fun t _ => t)) ∧
  (Keeps .spiError (fun a => [MBX_EVENT.a, MBX_COUNT.a].contains a) (fun t _ => t)) ∧
  (∀ (port : Fin 2),
     Keeps (.fragmentTimeout port) (fun a => [MBX_EVENT.a, MBX_COUNT.a].contains a) (fun t _ => t)) ∧
  (∀ (port : Fin 2) (target sender : BitVec 32) (senderMac : BitVec 48),
     Keeps (.arpRequest port target sender senderMac) (fun _ => false) (fun t _ => t)) ∧
  (∀ (port : Fin 2) (src dst : BitVec 32) (data : List Byte),
     Keeps (.icmpEcho port src dst data) (fun _ => false) (fun t _ => t)) ∧
  (∀ (port : Fin 2) (up : Bool),
     Keeps (.ethLinkStatus port up) (fun _ => false) (fun t c => { t with mbx := c.mbx })) ∧
  (∀ (mem : Fin 39),
     Keeps (.clampAccess mem) (fun a => [BST_EVENT.a].contains a) (fun t _ => t)) ∧
  (∀ (x : BitVec 32),
     Keeps (.safWriteAttempt x) (fun a => [SAF_WRITE_ATTEMPTS.a].contains a) (fun t _ => t)) ∧
  (∀ (x : BitVec 32),
     Keeps (.latchedRead x) (fun _ => false) (fun t c => { t with latch := c.latch }))

/-- Each of these events answers a next state in which the queue, every byte of memory, every register outside the list
  given with it, and everything else of the block but the named parts are as before. R143, R148, R265, R60, R414,
  R422, R438, R444, R449, R452, R459, R373. The meanings it speaks of rest on the model's choices of logs 2, 23, 32,
  62, 105, 123, 129, 130, 132, 138, 146, 149, 160, 161, 168, 170, 173, 178, 180, 202, 207, 210, 213, 214. -/
def Obligations.SystemEventFrames : Prop :=
  (Keeps .decisionLatchUpdate (fun a => [SAF_STATUS.a].contains a) (fun t c => { t with saf := c.saf })) ∧
  (Keeps .crashClear (fun a => alarmReg a || [SAF_STATUS.a, SAF_CAUSE.a].contains a) (fun t c =>
     { t with saf := c.saf, tlm := c.tlm })) ∧
  (∀ (rawA rawB : BitVec 16),
     Keeps (.bleedConversion rawA rawB) (fun a => alarmReg a ||
       [SAF_BLEED.a, SAF_BLEED_TIME.a, SAF_CAUSE.a, CNV_U_STATUS.a 3, CNV_U_EVENT.a 3].contains a) (fun t c =>
       { t with saf := c.saf, cnv := c.cnv, tlm := c.tlm })) ∧
  (∀ (count : Nat),
     Keeps (.clockFaultClear count) (fun a => alarmReg a || [SAF_CAUSE.a].contains a) (fun t c =>
       { t with tlm := c.tlm })) ∧
  (Keeps .aonCrystalReturn (fun a => alarmReg a || [CLK_STATUS.a].contains a) (fun t c =>
     { t with clk := c.clk, tlm := c.tlm })) ∧
  (∀ (i : Fin 12),
     Keeps (.islandClockSwitch i) (fun a => [CLK_STATUS.a, CEN_STATUS.a].contains a) (fun t c =>
       { t with clk := c.clk, mbx := c.mbx })) ∧
  (Keeps .resolverLocked (fun a => alarmReg a || [FBK_RES_STAT.a, FBK_EVENT.a].contains a) (fun t c =>
     { t with tlm := c.tlm })) ∧
  (Keeps .tAlignElapsed (fun _ => false) (fun t c => { t with start := c.start })) ∧
  (Keeps .gridVoltagePresent (fun _ => false) (fun t c => { t with grid := c.grid })) ∧
  (Keeps .gridVoltageAbsent (fun _ => false) (fun t c => { t with grid := c.grid })) ∧
  (Keeps .gridSyncHeld (fun _ => false) (fun t c => { t with grid := c.grid, shadow := c.shadow, free := c.free })) ∧
  (Keeps .railsGood (fun _ => false) (fun t c => { t with pwr := c.pwr })) ∧
  (Keeps .pinResetRelease (fun _ => false) (fun t c => { t with pwr := c.pwr })) ∧
  (Keeps .watchdogKick (fun _ => false) (fun t c => { t with pwr := c.pwr })) ∧
  (Keeps .fwSessionTimeout (fun _ => false) (fun t c => { t with sec := c.sec })) ∧
  (Keeps .challengeExpiry (fun _ => false) (fun t c => { t with sec := c.sec })) ∧
  (Keeps .authLockoutEnd (fun a => alarmReg a || [SEC_AUTH.a].contains a) (fun t c =>
     { t with sec := c.sec, tlm := c.tlm })) ∧
  (Keeps .lineReset (fun _ => false) (fun t c => { t with dbg := c.dbg })) ∧
  (Keeps .ddpResume (fun a => [DDP_CTRL.a, DDP_STAT.a, DDP_EVENT.a].contains a) (fun t c =>
     { t with dbg := c.dbg, pwr := c.pwr })) ∧
  (Keeps .ddpAuthSubmit (fun a => [DDP_CTRL.a, DDP_STAT.a, DDP_EVENT.a].contains a) (fun t c =>
     { t with dbg := c.dbg, sec := c.sec })) ∧
  (∀ (write : Bool) (w : BitVec 32),
     Keeps (.ddpAuthAccess write w) (fun a => [DDP_STAT.a].contains a) (fun t c =>
       { t with dbg := c.dbg, sec := c.sec })) ∧
  (∀ (write : Bool) (w : BitVec 32),
     Keeps (.ddpRegDataAccess write w) (fun a => [DDP_STAT.a].contains a) (fun t c => { t with dbg := c.dbg })) ∧
  (∀ (f : PairRx),
     Keeps (.pairFrame f) (fun a => alarmReg a || [PAI_STATUS.a].contains a) (fun t c =>
       { t with pair := c.pair, tlm := c.tlm })) ∧
  (∀ (lane : Fin 4) (valid : Bool),
     Keeps (.pairLaneValid lane valid) (fun a => [PAI_LINK.a].contains a) (fun t _ => t)) ∧
  (Keeps .ptpSyncSend (fun _ => false) (fun t c => { t with pair := c.pair })) ∧
  (∀ (m : PtpMsg),
     Keeps (.ptpDelayReqReceive m) (fun _ => false) (fun t _ => t)) ∧
  (∀ (m : PtpMsg),
     Keeps (.ptpDelayRespReceive m) (fun _ => false) (fun t c => { t with pair := c.pair })) ∧
  (Keeps .tempHistogramTick (fun _ => false) (fun t c => { t with lgr := c.lgr })) ∧
  (Keeps .ledgerRefresh (fun a => [LGR_STATUS.a].contains a) (fun t c => { t with lgr := c.lgr })) ∧
  (Keeps .lgrSnap (fun _ => false) (fun t c => { t with shadow := c.shadow })) ∧
  (Keeps .lgrFlush (fun _ => false) (fun t c => { t with lgr := c.lgr })) ∧
  (Keeps .thresholdTracking (fun _ => false) (fun t c => { t with lanes := c.lanes, tlm := c.tlm })) ∧
  (Keeps .traceSample (fun a => [TLM_TRACE_GAPS.a, TLM_EVENT.a].contains a) (fun t c => { t with tlm := c.tlm })) ∧
  (∀ (n : Fin 128) (v i : Int),
     Keeps (.freeRunningOutput n v i) (fun a => [TLM_TRACE_GAPS.a, TLM_EVENT.a].contains a) (fun t c =>
       { t with lgr := c.lgr, tlm := c.tlm })) ∧
  (Keeps .wearUpdate (fun a => [0x4007].contains (a / 0x10000)) (fun t c => { t with tlm := c.tlm }))

/-- Each of these events answers a next state in which the queue, every byte of memory, every register outside the list
  given with it, and everything but the telemetry state and the named engine are as before; in the alarm table no
  entry of another name (ALARM_TABLE_FOLD apart) appears, disappears or changes. R391, R351, R244, R250, R251, R126,
  R452, R454, R320, R328, R384, R199. The meanings it speaks of rest on the model's choices of logs 2, 28, 43, 44,
  66, 99, 104, 135, 156, 164, 171, 207. -/
def Obligations.AlarmEventFrames : Prop :=
  (KeepsAlarm .resolverLos .resolverLos (fun a => alarmReg a || [FBK_RES_STAT.a, FBK_EVENT.a].contains a) (fun t c
     => { t with tlm := c.tlm })) ∧
  (KeepsAlarm .resolverClip .resolverClip (fun a => alarmReg a || [FBK_RES_STAT.a, FBK_EVENT.a].contains a) (fun t c
     => { t with tlm := c.tlm })) ∧
  (KeepsAlarm .resolverLot .resolverLot (fun a => alarmReg a || [FBK_RES_STAT.a, FBK_EVENT.a].contains a) (fun t c
     => { t with tlm := c.tlm })) ∧
  (∀ (endstop : Bool),
     KeepsAlarm .stuckActive (.stuckActive endstop) (fun a => alarmReg a || [FBK_IN_STAT.a, FBK_EVENT.a].contains a)
       (fun t c => { t with tlm := c.tlm })) ∧
  (∀ (input : Fin 7) (u : Nat),
     KeepsAlarm .chatter (.chatter input u) (fun a => alarmReg a || [FBK_ERR_COUNT.a, FBK_EVENT.a].contains a) (fun
       t c => { t with fbk := c.fbk, tlm := c.tlm })) ∧
  (∀ (c : Fin 128),
     KeepsAlarm .cellStale (.cellStale c) (fun a => alarmReg a || [DSP_C_STAT.a c, DSP_EVENT.a].contains a) (fun t c
       => { t with tlm := c.tlm })) ∧
  (KeepsAlarm .socStale .socStale (fun a => alarmReg a || [DSP_STATUS.a, DSP_EVENT.a].contains a) (fun t c =>
     { t with tlm := c.tlm })) ∧
  (∀ (c : Fin 128),
     KeepsAlarm .tempMissing (.tempMissing c) (fun a => alarmReg a || [DSP_C_STAT.a c, DSP_EVENT.a].contains a) (fun
       t c => { t with tlm := c.tlm })) ∧
  (∀ (c : Fin 128),
     KeepsAlarm .cellCurrentOutlier (.cellCurrentOutlier c) (fun a => alarmReg a || [DSP_EVENT.a].contains a) (fun t
       c => { t with tlm := c.tlm })) ∧
  (∀ (s : Fin 6) (d : Bool),
     KeepsAlarm .sensorDisagree (.sensorDisagree s d) (fun a => alarmReg a || [DSP_EVENT.a].contains a) (fun t c =>
       { t with tlm := c.tlm })) ∧
  (∀ (s : Fin 6),
     KeepsAlarm .noConsensus (.noConsensus s) (fun a => alarmReg a || [DSP_EVENT.a].contains a) (fun t c =>
       { t with tlm := c.tlm })) ∧
  (KeepsAlarm .pairHbLost .pairHbLost (fun a => alarmReg a || [PAI_EVENT.a].contains a) (fun t c =>
     { t with tlm := c.tlm })) ∧
  (KeepsAlarm .pairDisagree .pairDisagree (fun a => alarmReg a || [PAI_EVENT.a].contains a) (fun t c =>
     { t with tlm := c.tlm })) ∧
  (KeepsAlarm .syncLost .syncLost (fun a => alarmReg a || [PAI_EVENT.a].contains a) (fun t c =>
     { t with pair := c.pair, tlm := c.tlm })) ∧
  (KeepsAlarm .wallclockDegraded .wallclockDegraded (fun a => alarmReg a || [CLK_STATUS.a, CLK_EVENT.a].contains a)
     (fun t c => { t with clk := c.clk, free := c.free, tlm := c.tlm })) ∧
  (KeepsAlarm .holdoverExceeded .holdoverExceeded (fun a => alarmReg a || [CLK_EVENT.a].contains a) (fun t c =>
     { t with clk := c.clk, tlm := c.tlm })) ∧
  (∀ (s : Fin 6),
     KeepsAlarm .xblankOverrun (.xblankOverrun s) (fun a => alarmReg a || [PRT_STR_STAT.a s, PRT_EVENT.a].contains
       a) (fun t c => { t with prt := c.prt, tlm := c.tlm })) ∧
  (∀ (err : EccResult),
     KeepsAlarm .memoryUncorrectable (.scrubStep err) (fun a => alarmReg a ||
       [TLM_SCRUB.a, TLM_TRACE_GAPS.a].contains a) (fun t c => { t with tlm := c.tlm, free := c.free })) ∧
  (KeepsAlarm .observerLost .observerLost (fun a => alarmReg a || [CEN_OBS.a, CEN_EVENT.a].contains a) (fun t c =>
     { t with tlm := c.tlm })) ∧
  (KeepsAlarm .torqueViolation .torqueViolation (fun a => alarmReg a || [SAF_CAUSE.a, PRT_EVENT.a].contains a) (fun
     t c => { t with saf := c.saf, tlm := c.tlm })) ∧
  (KeepsAlarm .angleDisagree .angleDisagree (fun a => alarmReg a || [SAF_CAUSE.a, PRT_EVENT.a].contains a) (fun t c
     => { t with saf := c.saf, tlm := c.tlm })) ∧
  (KeepsAlarm .bleedTimeout .bleedTimeout (fun a => alarmReg a || [SAF_CAUSE.a, PRT_EVENT.a].contains a) (fun t c =>
     { t with saf := c.saf, tlm := c.tlm })) ∧
  (KeepsAlarm .angleLost .angleLost (fun a => alarmReg a || [SAF_CAUSE.a, PRT_EVENT.a].contains a) (fun t c =>
     { t with saf := c.saf, tlm := c.tlm })) ∧
  (KeepsAlarm .rampTimeout .rampTimeout (fun a => alarmReg a || [SAF_CAUSE.a, PRT_EVENT.a].contains a) (fun t c =>
     { t with saf := c.saf, tlm := c.tlm }))

/-- Message starts and failures, the error window, training, its timeout and its end, a lost and a faulty lane: the
  state of every other lane, of every other cell, of the half-bridges of other cells, and the registers of every
  other lane are as before. R91, R93, R95, R96, R8, R5. The meanings it speaks of rest on the model's choices of
  logs 23, 46, 48, 49, 174, 193, 197. -/
def Obligations.LaneEventsAreLocal : Prop :=
  (∀ l : Fin 128,
     LaneLocal (.messageStart l) l) ∧
  (∀ l : Fin 128,
     LaneLocal (.messageAttemptFailed l) l) ∧
  (∀ l : Fin 128,
     LaneLocal (.errorBucketRoll l) l) ∧
  (∀ l : Fin 128,
     LaneLocal (.silentRetry l) l) ∧
  (∀ l : Fin 128,
     LaneLocal (.lnkRetrain l) l) ∧
  (∀ l : Fin 128,
     LaneLocal (.laneDown l) l) ∧
  (∀ l : Fin 128,
     LaneLocal (.laneTrainingTimeout l) l) ∧
  (∀ l : Fin 128,
     LaneLocal (.laneTrainingComplete l) l) ∧
  (∀ l : Fin 128,
     LaneLocal (.laneFaulty l) l) ∧
  (∀ (l : Fin 128) (p : BitVec 24),
     LaneLocal (.identRecord l p) l) ∧
  (∀ (l : Fin 128) (p : BitVec 24),
     LaneLocal (.ackRecord l p) l)

/-- Each of these commands answers a next state, whatever the message, in which only its own mailbox (its state, its
  stored reply, its READY bit, LAST, the counts of refusals and the signature events) and its buffer have changed.
  R336, R337, R340, R489, R349, R350, R491. The meanings it speaks of rest on the model's choices of logs 82, 104,
  111, 156, 208. -/
def Obligations.ReadingCommandsOnlyAnswer : Prop :=
  ∀ s : State,
  (∀ m : Msg,
     ∃ t, exec (.hostPortGet m) s = .next t ∧ OnlyAnswers m s t) ∧
  (∀ m : Msg,
     ∃ t, exec (.stringMapGet m) s = .next t ∧ OnlyAnswers m s t) ∧
  (∀ m : Msg,
     ∃ t, exec (.gateProfileGet m) s = .next t ∧ OnlyAnswers m s t) ∧
  (∀ m : Msg,
     ∃ t, exec (.protectionGet m) s = .next t ∧ OnlyAnswers m s t) ∧
  (∀ m : Msg,
     ∃ t, exec (.safetyLimitsGet m) s = .next t ∧ OnlyAnswers m s t) ∧
  (∀ m : Msg,
     ∃ t, exec (.modulationGet m) s = .next t ∧ OnlyAnswers m s t) ∧
  (∀ m : Msg,
     ∃ t, exec (.dispatchGet m) s = .next t ∧ OnlyAnswers m s t) ∧
  (∀ m : Msg,
     ∃ t, exec (.controlGet m) s = .next t ∧ OnlyAnswers m s t) ∧
  (∀ m : Msg,
     ∃ t, exec (.motorModelGet m) s = .next t ∧ OnlyAnswers m s t) ∧
  (∀ m : Msg,
     ∃ t, exec (.driveLimitsGet m) s = .next t ∧ OnlyAnswers m s t) ∧
  (∀ m : Msg,
     ∃ t, exec (.feedbackGet m) s = .next t ∧ OnlyAnswers m s t) ∧
  (∀ m : Msg,
     ∃ t, exec (.startGet m) s = .next t ∧ OnlyAnswers m s t) ∧
  (∀ m : Msg,
     ∃ t, exec (.dockGet m) s = .next t ∧ OnlyAnswers m s t) ∧
  (∀ m : Msg,
     ∃ t, exec (.conversionGet m) s = .next t ∧ OnlyAnswers m s t) ∧
  (∀ m : Msg,
     ∃ t, exec (.cellCalGet m) s = .next t ∧ OnlyAnswers m s t) ∧
  (∀ m : Msg,
     ∃ t, exec (.clockGet m) s = .next t ∧ OnlyAnswers m s t) ∧
  (∀ m : Msg,
     ∃ t, exec (.powerGet m) s = .next t ∧ OnlyAnswers m s t) ∧
  (∀ m : Msg,
     ∃ t, exec (.telemetryGet m) s = .next t ∧ OnlyAnswers m s t) ∧
  (∀ m : Msg,
     ∃ t, exec (.gridGet m) s = .next t ∧ OnlyAnswers m s t) ∧
  (∀ m : Msg,
     ∃ t, exec (.systemInfo m) s = .next t ∧ OnlyAnswers m s t) ∧
  (∀ m : Msg,
     ∃ t, exec (.echo m) s = .next t ∧ OnlyAnswers m s t) ∧
  (∀ m : Msg,
     ∃ t, exec (.modeGet m) s = .next t ∧ OnlyAnswers m s t) ∧
  (∀ m : Msg,
     ∃ t, exec (.clockStatus m) s = .next t ∧ OnlyAnswers m s t) ∧
  (∀ m : Msg,
     ∃ t, exec (.gridStatus m) s = .next t ∧ OnlyAnswers m s t) ∧
  (∀ m : Msg,
     ∃ t, exec (.startStatus m) s = .next t ∧ OnlyAnswers m s t) ∧
  (∀ m : Msg,
     ∃ t, exec (.dockStatus m) s = .next t ∧ OnlyAnswers m s t) ∧
  (∀ m : Msg,
     ∃ t, exec (.pairStatus m) s = .next t ∧ OnlyAnswers m s t) ∧
  (∀ m : Msg,
     ∃ t, exec (.plantStatus m) s = .next t ∧ OnlyAnswers m s t) ∧
  (∀ m : Msg,
     ∃ t, exec (.dispatchStats m) s = .next t ∧ OnlyAnswers m s t) ∧
  (∀ m : Msg,
     ∃ t, exec (.bistResult m) s = .next t ∧ OnlyAnswers m s t) ∧
  (∀ m : Msg,
     ∃ t, exec (.timerGet m) s = .next t ∧ OnlyAnswers m s t) ∧
  (∀ m : Msg,
     ∃ t, exec (.alarmList m) s = .next t ∧ OnlyAnswers m s t) ∧
  (∀ m : Msg,
     ∃ t, exec (.eventLogRead m) s = .next t ∧ OnlyAnswers m s t) ∧
  (∀ m : Msg,
     ∃ t, exec (.ledgerRead m) s = .next t ∧ OnlyAnswers m s t) ∧
  (∀ m : Msg,
     ∃ t, exec (.charListGet m) s = .next t ∧ OnlyAnswers m s t)

/-- Each configuration command, whatever its message, either leaves everything but its mailbox as it was, or stores the
  whole payload as the record of its opcode, with the UNSIGNED mark of an unsigned message, and puts it in line for
  the next period start; every other record, register and part of the block is then as before. R360, R113, R24, R39.
  The meanings it speaks of rest on the model's choices of log 41. -/
def Obligations.SetCommandsAllOrNothing : Prop :=
  ∀ s : State,
  (∀ m : Msg,
     ∃ t, exec (.gateProfileSet m) s = .next t ∧ (OnlyAnswers m s t ∨ Configured 0x0210 m s t)) ∧
  (∀ m : Msg,
     ∃ t, exec (.protectionSet m) s = .next t ∧ (OnlyAnswers m s t ∨ Configured 0x0220 m s t)) ∧
  (∀ m : Msg,
     ∃ t, exec (.safetyLimitsSet m) s = .next t ∧ (OnlyAnswers m s t ∨ Configured 0x0222 m s t)) ∧
  (∀ m : Msg,
     ∃ t, exec (.modulationSet m) s = .next t ∧ (OnlyAnswers m s t ∨ Configured 0x0230 m s t)) ∧
  (∀ m : Msg,
     ∃ t, exec (.dispatchSet m) s = .next t ∧ (OnlyAnswers m s t ∨ Configured 0x0240 m s t)) ∧
  (∀ m : Msg,
     ∃ t, exec (.controlSet m) s = .next t ∧ (OnlyAnswers m s t ∨ Configured 0x0250 m s t)) ∧
  (∀ m : Msg,
     ∃ t, exec (.motorModelSet m) s = .next t ∧ (OnlyAnswers m s t ∨ Configured 0x0252 m s t)) ∧
  (∀ m : Msg,
     ∃ t, exec (.driveLimitsSet m) s = .next t ∧ (OnlyAnswers m s t ∨ Configured 0x0254 m s t)) ∧
  (∀ m : Msg,
     ∃ t, exec (.feedbackSet m) s = .next t ∧ (OnlyAnswers m s t ∨ Configured 0x0260 m s t)) ∧
  (∀ m : Msg,
     ∃ t, exec (.startSet m) s = .next t ∧ (OnlyAnswers m s t ∨ Configured 0x0270 m s t)) ∧
  (∀ m : Msg,
     ∃ t, exec (.dockSet m) s = .next t ∧ (OnlyAnswers m s t ∨ Configured 0x0280 m s t)) ∧
  (∀ m : Msg,
     ∃ t, exec (.conversionSet m) s = .next t ∧ (OnlyAnswers m s t ∨ Configured 0x0290 m s t)) ∧
  (∀ m : Msg,
     ∃ t, exec (.clockSet m) s = .next t ∧ (OnlyAnswers m s t ∨ Configured 0x02A0 m s t)) ∧
  (∀ m : Msg,
     ∃ t, exec (.powerSet m) s = .next t ∧ (OnlyAnswers m s t ∨ Configured 0x02B0 m s t)) ∧
  (∀ m : Msg,
     ∃ t, exec (.telemetrySet m) s = .next t ∧ (OnlyAnswers m s t ∨ Configured 0x02C0 m s t)) ∧
  (∀ m : Msg,
     ∃ t, exec (.gridSet m) s = .next t ∧ (OnlyAnswers m s t ∨ Configured 0x02D0 m s t)) ∧
  (∀ m : Msg,
     ∃ t, exec (.pairSet m) s = .next t ∧ (OnlyAnswers m s t ∨ Configured 0x0801 m s t)) ∧
  (∀ m : Msg,
     ∃ t, exec (.plantSet m) s = .next t ∧ (OnlyAnswers m s t ∨ Configured 0x0810 m s t))

/-- FUSE_REPAIR, COMMISSION, FW_LOAD_BEGIN, RECOMMISSION and DEBUG_UNLOCK with SIGNED clear change nothing but their
  mailbox, and where the mailbox takes the message, is privileged and the device in STANDBY, the answer is DENIED
  with reason 3. R340, R434. The meanings it speaks of rest on the model's choices of logs 19, 127, 130, 154, 156,
  157, 159, 181. -/
def Obligations.UnsignedMessagesAreRefused : Prop :=
  ∀ s : State,
  (∀ m : Msg,
     bitOf m.flags.toNat 0 = false →
     ∃ t, exec (.fuseRepair m) s = .next t ∧ OnlyAnswers m s t) ∧
  (∀ m : Msg,
     bitOf m.flags.toNat 0 = false →
     ∃ t, exec (.commission m) s = .next t ∧ OnlyAnswers m s t) ∧
  (∀ m : Msg,
     bitOf m.flags.toNat 0 = false →
     ∃ t, exec (.fwLoadBegin m) s = .next t ∧ OnlyAnswers m s t) ∧
  (∀ m : Msg,
     bitOf m.flags.toNat 0 = false →
     ∃ t, exec (.recommission m) s = .next t ∧ OnlyAnswers m s t) ∧
  (∀ m : Msg,
     bitOf m.flags.toNat 0 = false →
     ∃ t, exec (.debugUnlock m) s = .next t ∧ OnlyAnswers m s t) ∧
  (∀ m : Msg,
     Free s.core m →
     m.flags = 0 →
     s.core.mode.code = .standby →
     s.core.getF (MBX_MB_CFG.PRIV m.mb.val) = 1 →
     s.core.grade = 0 →
     ∃ t, exec (.fuseRepair m) s = .next t ∧ Answered t.core m 0x0732 stDENIED (words [3])) ∧
  (∀ m : Msg,
     Free s.core m →
     m.flags = 0 →
     s.core.mode.code = .standby →
     s.core.getF (MBX_MB_CFG.PRIV m.mb.val) = 1 →
     s.core.grade = 0 →
     ∃ t, exec (.commission m) s = .next t ∧ Answered t.core m 0x0504 stDENIED (words [3])) ∧
  (∀ m : Msg,
     Free s.core m →
     m.flags = 0 →
     s.core.mode.code = .standby →
     s.core.getF (MBX_MB_CFG.PRIV m.mb.val) = 1 →
     s.core.grade = 0 →
     ∃ t, exec (.fwLoadBegin m) s = .next t ∧ Answered t.core m 0x0601 stDENIED (words [3])) ∧
  (∀ m : Msg,
     Free s.core m →
     m.flags = 0 →
     s.core.mode.code = .standby →
     s.core.getF (MBX_MB_CFG.PRIV m.mb.val) = 1 →
     s.core.grade = 0 →
     ∃ t, exec (.recommission m) s = .next t ∧ Answered t.core m 0x0620 stDENIED (words [3])) ∧
  (∀ m : Msg,
     Free s.core m →
     m.flags = 0 →
     s.core.mode.code = .standby →
     s.core.getF (MBX_MB_CFG.PRIV m.mb.val) = 1 →
     s.core.grade = 0 →
     ∃ t, exec (.debugUnlock m) s = .next t ∧ Answered t.core m 0x0612 stDENIED (words [3]))

/-- While the lock stands (a VA device in DRIVE), every DDP_CTRL command, every access to DDP_AUTH, DDP_MEM_DATA and
  DDP_REG_DATA, and every well-formed transaction to a register other than DDP_ID and DDP_STAT answers FAULT and
  changes nothing but DDP_STAT and the port's own record of the answer; DDP_STAT reads with DRIVE_LOCK 1. R446,
  R449, R442. The meanings it speaks of rest on the model's choices of logs 160, 161. -/
def Obligations.DriveLockClosesThePort : Prop :=
  ∀ s : State,
  (s.core.driveLock = true →
   PortRefuses .ddpHaltReq s) ∧
  (s.core.driveLock = true →
   PortRefuses .ddpResume s) ∧
  (s.core.driveLock = true →
   PortRefuses .ddpStep s) ∧
  (s.core.driveLock = true →
   PortRefuses .ddpAuthChal s) ∧
  (s.core.driveLock = true →
   PortRefuses .ddpAuthSubmit s) ∧
  (s.core.driveLock = true →
   PortRefuses .ddpLock s) ∧
  (∀ (write : Bool) (w : BitVec 32),
     s.core.driveLock = true →
     PortRefuses (.ddpAuthAccess write w) s) ∧
  (∀ (write : Bool) (w : BitVec 32),
     s.core.driveLock = true →
     PortRefuses (.ddpMemDataAccess write w) s) ∧
  (∀ (write : Bool) (w : BitVec 32),
     s.core.driveLock = true →
     PortRefuses (.ddpRegDataAccess write w) s) ∧
  (∀ (req : BitVec 8) (data : BitVec 32) (parity : Bool),
     s.core.driveLock = true →
     s.core.dbg.lineReset = false →
     bitOf req.toNat 0 = true →
     bitOf req.toNat 7 = true →
     bitOf req.toNat 6 = parityOf 5 (req.toNat / 2) →
     (bitOf req.toNat 1 = false → parity = parityOf 32 data.toNat) →
     req.toNat / 4 % 16 ≠ 0 →
     req.toNat / 4 % 16 ≠ 2 →
     PortRefuses (.debugTransaction req data parity) s) ∧
  (s.core.grade = 0 →
   s.core.mode.code = .drive →
   s.core.driveLock = true) ∧
  (bitOf (s.core.liveReg DDP_STAT.a) DDP_STAT.DRIVE_LOCK.lo = s.core.driveLock)

/-- A write of any word to any address by any initiator leaves every register of the SAF_ window and of SAR unit D as it
  was, but for the count of attempts, which a write of a word of the SAF_ window that the bus would carry to the
  island increases by one, saturating. R31, R9, R301. The meanings it speaks of rest on the model's choices of log
  9. -/
def Obligations.SafetyIslandIsNotWritable : Prop :=
  ∀ s : State,
  (∀ (a v : BitVec 32) (by_ : Initiator),
     ∃ t, exec (.registerWrite a v by_) s = .next t ∧
       (∀ x, islandReg x = true → x ≠ SAF_WRITE_ATTEMPTS.a → t.core.reg x = s.core.reg x) ∧
       t.core.saf = s.core.saf) ∧
  (∀ (a v : BitVec 32) (p : Fin 2),
     a.toNat / 0x10000 = 0x4012 →
     a.toNat % 4 = 0 →
     s.core.domainOn 3 = true →
     ∃ t, exec (.registerWrite a v (.hearth p)) s = .next t ∧
       t.core.getF SAF_WRITE_ATTEMPTS.COUNT = satN SAF_WRITE_ATTEMPTS.COUNT.len (s.core.getF
         SAF_WRITE_ATTEMPTS.COUNT + 1) ∧
       t.mem = s.mem)

/-- For a register of a block without a write rule of its own: an RW bit takes the written value, a W1C bit is cleared
  by a 1 unless the hardware sets it in the same clock, every other bit keeps its value; no other register, no
  memory and nothing else of the block changes. A write of a register that holds foreground settings clears its W1C
  bits alike and leaves its RW fields until the next period start, for which it is queued. An address of such a
  block that no register occupies ignores the write; in a running mode the register window refuses an owned field.
  R9, R10, R8, R24, R33, R11. The clock in which an event bit is set is log 189; that a register write of a setting
  waits for the period start is log 9; the list of owned fields is log 12. The meanings it speaks of rest on the
  model's choices of log 9. -/
def Obligations.RegisterWritesByAccessType : Prop :=
  ∀ s : State,
  (∀ (a v : BitVec 32) (p : Fin 2) (r : RegRow),
     plainBlock a.toNat = true →
     a.toNat % 4 = 0 →
     s.core.domainOn (domainOf a.toNat) = true →
     regRow a.toNat = some r →
     ∃ t, exec (.registerWrite a v (.hearth p)) s = .next t ∧ t.mem = s.mem ∧ (∀ x, x ≠ a.toNat → t.core.reg x =
       s.core.reg x) ∧ quiet { t.core with regs := s.core.regs } = quiet s.core ∧ ∀ i, i < 32 →
     (t.core.reg a.toNat).getLsbD i = (if r.w1c.testBit i && v.getLsbD i && !(s.core.setNow a.toNat).testBit i then
       false else if r.rw.testBit i then v.getLsbD i else (s.core.reg a.toNat).getLsbD i)) ∧
  (∀ (a v : BitVec 32) (p : Fin 2) (r : RegRow),
     settingBlock a.toNat = true →
     a.toNat % 4 = 0 →
     s.core.domainOn (domainOf a.toNat) = true →
     regRow a.toNat = some r →
     ∃ t, exec (.registerWrite a v (.hearth p)) s = .next t ∧ t.mem = s.mem ∧ (∀ x, x ≠ a.toNat → t.core.reg x =
       s.core.reg x) ∧ t.core.shadow = s.core.shadow ++ (if r.rw = 0 then [] else [.reg a.toNat (v.toNat &&& r.rw)])
       ∧ quiet { t.core with regs := s.core.regs, shadow := s.core.shadow } = quiet s.core ∧ ∀ i, i < 32 →
     (t.core.reg a.toNat).getLsbD i = (if r.w1c.testBit i && v.getLsbD i && !(s.core.setNow a.toNat).testBit i then
       false else (s.core.reg a.toNat).getLsbD i)) ∧
  (∀ (a v : BitVec 32) (p : Fin 2),
     (plainBlock a.toNat = true ∨ settingBlock a.toNat = true) →
     a.toNat % 4 = 0 →
     s.core.domainOn (domainOf a.toNat) = true →
     regRow a.toNat = none →
     ∃ t, exec (.registerWrite a v (.hearth p)) s = .next t ∧ t.mem = s.mem ∧ quiet t.core = quiet s.core) ∧
  (∀ (a v : BitVec 32),
     s.core.running = true →
     ownedReg a.toNat = true →
     ∃ t, exec (.registerWrite a v .window) s = .next t ∧ t.mem = s.mem ∧ quiet t.core = quiet s.core)

/-- After every event that resets the device (RST_N, a rail fault, a deferred or a commanded reset, the watchdog, a
  lockstep mismatch, sleep, wake) every byte of the MRAM window, the image of OTP, the configuration records, the
  image slots and the ledger's copies are as before. R420, R419, R414. The meanings it speaks of rest on the model's
  choices of logs 57, 123, 146, 147, 148, 149, 156. -/
def Obligations.ResetsKeepMramAndOtp : Prop :=
  ∀ s : State,
  (KeepsNv .pinReset s) ∧
  (KeepsNv .deferredResetRelease s) ∧
  (KeepsNv .commandedReset s) ∧
  (KeepsNv .sleepEntry s) ∧
  (KeepsNv .watchdogExpiry s) ∧
  (∀ r : Fin 7,
     KeepsNv (.railFault r) s) ∧
  (∀ p : Fin 2,
     KeepsNv (.lockstepMismatch p) s) ∧
  (∀ src : Fin 4,
     KeepsNv (.wake src) s)

/-- For every state and every command that is not one of the 21 configuration commands: the state it gives holds the
  same configuration records. R360, R113, R420. The meanings it speaks of rest on the model's choices of logs 19,
  25, 26, 41, 83, 84, 142. -/
def Obligations.ConfigurationOnlyBySetCommands : Prop :=
  ∀ (i : Instr) (s t : State),
    exec i s = .next t →
    t.core.cfg ≠ s.core.cfg →
    ∃ m : Msg, i ∈
      ([.gateProfileSet m, .protectionSet m, .safetyLimitsSet m, .modulationSet m, .dispatchSet m, .controlSet m, .motorModelSet m, .driveLimitsSet m, .feedbackSet m, .startSet m, .dockSet m, .conversionSet m, .clockSet m, .powerSet m, .telemetrySet m, .gridSet m, .pairSet m, .plantSet m, .cellCalSet m, .stringMapSet m, .hostPortSet m]
      : List Instr)

/-- For every state whose memory lists rising addresses and no byte that an unlisted address reads as, and in which no
  write is left over from a command: the state after a step has the same two properties. R33. What an unlisted byte
  reads as is the model's choice for MRAM (log 6). -/
def Obligations.MemoryStaysCanonical : Prop :=
  ∀ s s' : State,
    Safety.Sound s →
    step s = .next s' →
    Safety.Sound s'

/-- Right after reset: the mode is OFF, no command waits, the memory is sound, every register reads its reset value;
  every mailbox is FREE, mailboxes 1 to 3 are on quad-SPI, 4 to 7 on ETH0, 8 to 11 on ETH1, 12 to 15 on CAN0, and
  only mailbox 0 has PRIV; the decision latch names SAFE_OPEN; ROT is 0; every lane is OFF; the alarm table and the
  event log are empty; no configuration is stored. R33, R336, R341, R143, R191, R420, R391, R392. The meanings it
  speaks of rest on the model's choices of logs 32, 51, 130, 149. -/
def Obligations.ResetLeaves : Prop :=
  (Safety.Sound State.reset) ∧
  (State.reset.pending = []) ∧
  (State.reset.core.mode.code = .off) ∧
  (∀ a,
     State.reset.core.reg a = regReset a) ∧
  (∀ m,
     m < 16 →
     State.reset.core.getF (mbState m) = 0 ∧ State.reset.core.getF (MBX_MB_CFG.PORT m) = (if m < 4 then 0 else if m
       < 8 then 1 else if m < 12 then 2 else 3) ∧ State.reset.core.getF (MBX_MB_CFG.PRIV m) = (if m = 0 then 1 else
       0) ∧ State.reset.core.getF (MBX_MB_CFG.LAST_VALID m) = 0) ∧
  (State.reset.core.getF SAF_STATUS.LATCH = 1) ∧
  (State.reset.core.getF DSP_STATUS.ROT = 0) ∧
  (∀ l,
     l < 128 →
     State.reset.core.laneState l = 0) ∧
  (State.reset.core.tlm.alarms = [] ∧ State.reset.core.tlm.log = []) ∧
  (State.reset.core.cfg = [] ∧ State.reset.core.getF PAI_STATUS.AUTH = 0)

/-- For every command c and state s: step of s with c at the front of its queue is exec c on s with the queue's rest. On
  an empty queue one nanosecond of device time passes and nothing else changes (the model's choice, log 1). R160. -/
def Obligations.StepRunsTheFrontCommand : Prop :=
  ∀ s : State,
  (∀ (i : Instr) (q : List Instr),
     step { s with pending := i :: q } = exec i { s with pending := q }) ∧
  (s.pending = [] →
   step s = .next { s with core := { s.core with now := s.core.now + 1 } })

/-- For every command and every state there is a next state, and its queue is the one before: no command faults or is
  refused. R336. -/
def Obligations.CommandsAnswerAndKeepTheQueue : Prop :=
  ∀ (i : Instr) (s : State),
    ∃ t, exec i s = .next t ∧ t.pending = s.pending

/-- For every state whose mailbox takes the message: ECHO with a payload of 0 to 4 080 bytes, in every mode, is answered
  DONE with that payload, and only the mailbox changes. R350. -/
def Obligations.EchoReturnsThePayload : Prop :=
  ∀ s : State,
  ∀ (m : Msg) (p : List Byte),
    Ready s.core 0x0102 m p →
    ∃ t, exec (.echo m) s = .next t ∧ Answered t.core m 0x0102 stDONE p ∧ OnlyAnswers m s t

/-- In any mode other than STANDBY a STRING_MAP_SET that the mailbox takes is refused with BAD_STATE and the mode in
  force, and the map in force is kept; whatever the message, a map or its record changes only in STANDBY. R38. -/
def Obligations.StringMapOnlyInStandby : Prop :=
  ∀ s : State,
  (∀ m : Msg,
     Free s.core m →
     m.flags.toNat / 2 = 0 →
     s.core.mode.code ≠ .standby →
     ∃ t, exec (.stringMapSet m) s = .next t ∧
       Answered t.core m 0x0201 stBAD_STATE (words [s.core.mode.code.code]) ∧ t.core.map = s.core.map ∧
       t.core.cfg = s.core.cfg) ∧
  (∀ m : Msg,
     s.core.mode.code ≠ .standby →
     ∃ t, exec (.stringMapSet m) s = .next t ∧ t.core.map = s.core.map ∧ t.core.cfg = s.core.cfg)

/-- FW_FALLBACK to KEY_REVOKED are group 12, places 0 to 8, RAIL_WARNING to DOMAIN_OFF_ACCESS group 11, PAIR_TAKEOVER to
  PTP_STEP group 13, with the classes their rules give. R447, R464. -/
def Obligations.AlarmNameCodes : Prop :=
  ([AlarmName.fwFallback, .fwSlotDamaged, .rollbackAdvanced, .debugUnlocked, .debugAuthFail, .debugHalt, .gradeChanged, .keyRegistered, .keyRevoked].map
     (fun n => (n.code, n.cls)) =
     [(0xC00, .b), (0xC01, .b), (0xC02, .c), (0xC03, .c), (0xC04, .b), (0xC05, .a), (0xC06, .c), (0xC07, .c), (0xC08, .c)]) ∧
  ([AlarmName.pairTakeover, .pairTakeoverUnready, .pairAuthorityLost, .pairPartnerAbsent, .pairHbLost, .pairLaneFaulty, .pairDisagree, .pairDegraded, .plantUnaligned, .syncLost, .ptpStep].map
     (fun n => (n.code, n.cls)) =
     [(0xD00, .b), (0xD01, .a), (0xD02, .b), (0xD03, .b), (0xD04, .b), (0xD05, .b), (0xD06, .b), (0xD07, .b), (0xD08, .b), (0xD09, .b), (0xD0A, .c)]) ∧
  ([AlarmName.railWarning, .nvRailFault, .watchdogExpired, .hearthLockstep, .lastReset, .domainOffAccess].map (fun n
     => (n.code, n.cls)) = [(0xB00, .b), (0xB01, .b), (0xB02, .a), (0xB03, .a), (0xB04, .c), (0xB05, .c)])
end

