-- ==== Sys2Proof/Laws/SMap.lean ====
section
/-! SUPPORT. The laws of the sparse maps: a read after a write, and every operation keeps the canonical form. -/
namespace Sys2Proof.Laws
open Sys2Proof.Machine

variable {α : Type} [DecidableEq α] {d : Nat → α}

theorem mapWfFrom_mono {m : SMap α} {j k : Nat} (h : mapWfFrom d k m = true) (hjk : j ≤ k) :
    mapWfFrom d j m = true := by
  cases m with
  | nil => rfl
  | cons e t =>
    simp only [mapWfFrom, Bool.and_eq_true, decide_eq_true_eq] at h ⊢
    exact ⟨⟨le_trans hjk h.1.1, h.1.2⟩, h.2⟩

theorem mapGet_below {m : SMap α} {j k : Nat} (h : mapWfFrom d j m = true) (hk : k < j) :
    mapGet d m k = d k := by
  cases m with
  | nil => rfl
  | cons e t =>
    simp only [mapWfFrom, Bool.and_eq_true, decide_eq_true_eq] at h
    have hlt : k < e.1 := lt_of_lt_of_le hk h.1.1
    simp [mapGet, Nat.ne_of_lt hlt, hlt]

theorem mapWfFrom_filter {m : SMap α} {j : Nat} {p : Nat × α → Bool} (h : mapWfFrom d j m = true) :
    mapWfFrom d j (m.filter p) = true := by
  induction m generalizing j with
  | nil => rfl
  | cons e t ih =>
    simp only [mapWfFrom, Bool.and_eq_true, decide_eq_true_eq] at h
    rw [List.filter_cons]
    split
    · simpa [mapWfFrom] using ⟨h.1, ih h.2⟩
    · exact mapWfFrom_mono (ih h.2) (Nat.le_succ_of_le h.1.1)

theorem mapDel_wfFrom {m : SMap α} {j k : Nat} (h : mapWfFrom d j m = true) :
    mapWfFrom d j (mapDel m k) = true := by
  induction m generalizing j with
  | nil => rfl
  | cons e t ih =>
    simp only [mapWfFrom, Bool.and_eq_true, decide_eq_true_eq] at h
    simp only [mapDel]
    split
    · exact mapWfFrom_filter (mapWfFrom_mono h.2 (Nat.le_succ_of_le h.1.1))
    · split
      · simpa [mapWfFrom] using h
      · simpa [mapWfFrom] using ⟨h.1, ih h.2⟩

theorem mapIns_wfFrom {m : SMap α} {j k : Nat} {w : α} (hw : w ≠ d k) (hj : j ≤ k)
    (h : mapWfFrom d j m = true) : mapWfFrom d j (mapIns m k w) = true := by
  induction m generalizing j with
  | nil => simp [mapIns, mapWfFrom, hw, hj]
  | cons e t ih =>
    simp only [mapWfFrom, Bool.and_eq_true, decide_eq_true_eq] at h
    simp only [mapIns]
    split
    · rename_i he
      subst he
      simpa [mapWfFrom, hw] using ⟨hj, h.2⟩
    · split
      · rename_i hlt
        simp only [mapWfFrom, Bool.and_eq_true, decide_eq_true_eq]
        exact ⟨⟨hj, hw⟩, ⟨Nat.succ_le_of_lt hlt, h.1.2⟩, h.2⟩
      · rename_i hne hlt
        simp only [mapWfFrom, Bool.and_eq_true, decide_eq_true_eq]
        exact ⟨h.1, ih (by omega) h.2⟩

/-- Every write keeps the canonical form. -/
theorem mapSet_wf {m : SMap α} {k : Nat} {w : α} (h : mapWf d m = true) :
    mapWf d (mapSet d m k w) = true := by
  unfold mapSet mapWf
  split
  · exact mapDel_wfFrom h
  · exact mapIns_wfFrom ‹_› (Nat.zero_le k) h

theorem mapSetAll_wf {m : SMap α} {k : Nat} {l : List α} (h : mapWf d m = true) :
    mapWf d (mapSetAll d m k l) = true := by
  induction l generalizing m k with
  | nil => exact h
  | cons v t ih => exact ih (mapSet_wf h)

/-- A range cleared keeps the canonical form. -/
theorem mapClear_wf {m : SMap α} {lo hi : Nat} (h : mapWf d m = true) : mapWf d (mapClear m lo hi) = true :=
  mapWfFrom_filter h

omit [DecidableEq α] in
theorem mapGet_above {t : SMap α} {a x : Nat} :
    mapGet d (t.filter (fun e => decide (a < e.1))) x = if a < x then mapGet d t x else d x := by
  induction t with
  | nil => simp [mapGet]
  | cons e t ih =>
    rw [List.filter_cons]
    by_cases he : a < e.1
    · by_cases hx : x = e.1
      · simp [he, mapGet, hx]
      · by_cases hl : x < e.1
        · simp [he, mapGet, hx, hl]
        · have : a < x := by omega
          simp [he, mapGet, hx, hl, ih, this]
    · by_cases hx : a < x
      · have h1 : x ≠ e.1 := by omega
        have h2 : ¬ x < e.1 := by omega
        simp [he, ih, hx, mapGet, h1, h2]
      · simp [he, ih, hx]

omit [DecidableEq α] in
theorem mapGet_mapDel {m : SMap α} {k x : Nat} :
    mapGet d (mapDel m k) x = if x = k then d k else mapGet d m x := by
  induction m with
  | nil =>
    by_cases hx : x = k <;> simp [mapDel, mapGet, hx]
  | cons e t ih =>
    simp only [mapDel]
    split
    · rename_i he
      subst he
      rw [mapGet_above]
      by_cases hx : x = e.1
      · simp [hx]
      · by_cases hl : x < e.1
        · have : ¬ e.1 < x := by omega
          simp [mapGet, hx, hl, this]
        · have : e.1 < x := by omega
          simp [mapGet, hx, hl, this]
    · split
      · rename_i hne hlt
        by_cases hx : x = k
        · simp [hx, mapGet, hne, hlt]
        · simp [hx]
      · rename_i hne hlt
        by_cases hx : x = e.1
        · simp [mapGet, hx, Ne.symm hne]
        · by_cases hl : x < e.1
          · have : x ≠ k := by omega
            simp [mapGet, hx, hl, this]
          · simp [mapGet, hx, hl, ih]

omit [DecidableEq α] in
theorem mapGet_mapIns {m : SMap α} {k x : Nat} {w : α} :
    mapGet d (mapIns m k w) x = if x = k then w else mapGet d m x := by
  induction m with
  | nil =>
    by_cases hx : x = k <;> simp [mapIns, mapGet, hx]
  | cons e t ih =>
    simp only [mapIns]
    split
    · rename_i he
      subst he
      by_cases hx : x = e.1 <;> simp [mapGet, hx]
    · split
      · rename_i hne hlt
        by_cases hx : x = k
        · simp [mapGet, hx]
        · by_cases hl : x < k
          · have h1 : x ≠ e.1 := by omega
            have h2 : x < e.1 := by omega
            simp [mapGet, hx, hl, h1, h2]
          · simp [mapGet, hx, hl]
      · rename_i hne hlt
        by_cases hx : x = e.1
        · subst hx
          simp [mapGet, Ne.symm hne]
        · by_cases hl : x < e.1
          · have : x ≠ k := by omega
            simp [mapGet, hx, hl, this]
          · simp [mapGet, hx, hl, ih]

/-- A read after a write: the value written there, and elsewhere what was there before. -/
theorem mapGet_mapSet {m : SMap α} {k x : Nat} {w : α} :
    mapGet d (mapSet d m k w) x = if x = k then w else mapGet d m x := by
  unfold mapSet
  split
  · rename_i hw
    rw [mapGet_mapDel, hw]
  · exact mapGet_mapIns

omit [DecidableEq α] in
/-- A read after a range was cleared, on a map whose addresses rise. -/
theorem mapGet_mapClear_out {m : SMap α} {lo hi x : Nat} (h : ∀ e ∈ m, e.1 < lo ∨ hi ≤ e.1) :
    mapGet d (mapClear m lo hi) x = mapGet d m x := by
  have : mapClear m lo hi = m := by
    unfold mapClear
    rw [List.filter_eq_self]
    intro e he
    simpa using h e he
  rw [this]

end Sys2Proof.Laws
end

