-- ==== Sys2Proof/Laws/State.lean ====
section
/-! SUPPORT. What each named update leaves as it was, field by field: true by computation, so that no proof unfolds a record
update. -/
namespace Sys2Proof.Laws
open Sys2Proof.Machine


section
variable (c : Machine.Core) (a : Nat) (w : Word)
@[simp] theorem setReg_now : (c.setReg a w).now = c.now := rfl
@[simp] theorem setReg_free : (c.setReg a w).free = c.free := rfl
@[simp] theorem setReg_evSet : (c.setReg a w).evSet = c.evSet := rfl
@[simp] theorem setReg_gateRegs : (c.setReg a w).gateRegs = c.gateRegs := rfl
@[simp] theorem setReg_latch : (c.setReg a w).latch = c.latch := rfl
@[simp] theorem setReg_memOps : (c.setReg a w).memOps = c.memOps := rfl
@[simp] theorem setReg_cfg : (c.setReg a w).cfg = c.cfg := rfl
@[simp] theorem setReg_inForce : (c.setReg a w).inForce = c.inForce := rfl
@[simp] theorem setReg_shadow : (c.setReg a w).shadow = c.shadow := rfl
@[simp] theorem setReg_mode : (c.setReg a w).mode = c.mode := rfl
@[simp] theorem setReg_cells : (c.setReg a w).cells = c.cells := rfl
@[simp] theorem setReg_grid : (c.setReg a w).grid = c.grid := rfl
@[simp] theorem setReg_lanes : (c.setReg a w).lanes = c.lanes := rfl
@[simp] theorem setReg_hbs : (c.setReg a w).hbs = c.hbs := rfl
@[simp] theorem setReg_prt : (c.setReg a w).prt = c.prt := rfl
@[simp] theorem setReg_saf : (c.setReg a w).saf = c.saf := rfl
@[simp] theorem setReg_modu : (c.setReg a w).modu = c.modu := rfl
@[simp] theorem setReg_mbx : (c.setReg a w).mbx = c.mbx := rfl
@[simp] theorem setReg_tlm : (c.setReg a w).tlm = c.tlm := rfl
@[simp] theorem setReg_map : (c.setReg a w).map = c.map := rfl
@[simp] theorem setReg_disp : (c.setReg a w).disp = c.disp := rfl
@[simp] theorem setReg_ctl : (c.setReg a w).ctl = c.ctl := rfl
@[simp] theorem setReg_fbk : (c.setReg a w).fbk = c.fbk := rfl
@[simp] theorem setReg_start : (c.setReg a w).start = c.start := rfl
@[simp] theorem setReg_dok : (c.setReg a w).dok = c.dok := rfl
@[simp] theorem setReg_cnv : (c.setReg a w).cnv = c.cnv := rfl
@[simp] theorem setReg_clk : (c.setReg a w).clk = c.clk := rfl
@[simp] theorem setReg_stu : (c.setReg a w).stu = c.stu := rfl
@[simp] theorem setReg_lgr : (c.setReg a w).lgr = c.lgr := rfl
@[simp] theorem setReg_bist : (c.setReg a w).bist = c.bist := rfl
@[simp] theorem setReg_pwr : (c.setReg a w).pwr = c.pwr := rfl
@[simp] theorem setReg_sec : (c.setReg a w).sec = c.sec := rfl
@[simp] theorem setReg_dbg : (c.setReg a w).dbg = c.dbg := rfl
@[simp] theorem setReg_pair : (c.setReg a w).pair = c.pair := rfl
@[simp] theorem lane_setReg (j : Nat) : (c.setReg a w).lane j = c.lane j := rfl
@[simp] theorem cell_setReg (j : Nat) : (c.setReg a w).cell j = c.cell j := rfl
@[simp] theorem hb_setReg (j : Nat) : (c.setReg a w).hb j = c.hb j := rfl
@[simp] theorem box_setReg (j : Nat) : (c.setReg a w).box j = c.box j := rfl
@[simp] theorem tch_setReg (j : Nat) : (c.setReg a w).tch j = c.tch j := rfl
@[simp] theorem cfgRec_setReg (j : Nat) : (c.setReg a w).cfgRec j = c.cfgRec j := rfl
end

section
variable (c : Machine.Core) (f : Field) (v : Nat)
@[simp] theorem setF_now : (c.setF f v).now = c.now := rfl
@[simp] theorem setF_free : (c.setF f v).free = c.free := rfl
@[simp] theorem setF_evSet : (c.setF f v).evSet = c.evSet := rfl
@[simp] theorem setF_gateRegs : (c.setF f v).gateRegs = c.gateRegs := rfl
@[simp] theorem setF_latch : (c.setF f v).latch = c.latch := rfl
@[simp] theorem setF_memOps : (c.setF f v).memOps = c.memOps := rfl
@[simp] theorem setF_cfg : (c.setF f v).cfg = c.cfg := rfl
@[simp] theorem setF_inForce : (c.setF f v).inForce = c.inForce := rfl
@[simp] theorem setF_shadow : (c.setF f v).shadow = c.shadow := rfl
@[simp] theorem setF_mode : (c.setF f v).mode = c.mode := rfl
@[simp] theorem setF_cells : (c.setF f v).cells = c.cells := rfl
@[simp] theorem setF_grid : (c.setF f v).grid = c.grid := rfl
@[simp] theorem setF_lanes : (c.setF f v).lanes = c.lanes := rfl
@[simp] theorem setF_hbs : (c.setF f v).hbs = c.hbs := rfl
@[simp] theorem setF_prt : (c.setF f v).prt = c.prt := rfl
@[simp] theorem setF_saf : (c.setF f v).saf = c.saf := rfl
@[simp] theorem setF_modu : (c.setF f v).modu = c.modu := rfl
@[simp] theorem setF_mbx : (c.setF f v).mbx = c.mbx := rfl
@[simp] theorem setF_tlm : (c.setF f v).tlm = c.tlm := rfl
@[simp] theorem setF_map : (c.setF f v).map = c.map := rfl
@[simp] theorem setF_disp : (c.setF f v).disp = c.disp := rfl
@[simp] theorem setF_ctl : (c.setF f v).ctl = c.ctl := rfl
@[simp] theorem setF_fbk : (c.setF f v).fbk = c.fbk := rfl
@[simp] theorem setF_start : (c.setF f v).start = c.start := rfl
@[simp] theorem setF_dok : (c.setF f v).dok = c.dok := rfl
@[simp] theorem setF_cnv : (c.setF f v).cnv = c.cnv := rfl
@[simp] theorem setF_clk : (c.setF f v).clk = c.clk := rfl
@[simp] theorem setF_stu : (c.setF f v).stu = c.stu := rfl
@[simp] theorem setF_lgr : (c.setF f v).lgr = c.lgr := rfl
@[simp] theorem setF_bist : (c.setF f v).bist = c.bist := rfl
@[simp] theorem setF_pwr : (c.setF f v).pwr = c.pwr := rfl
@[simp] theorem setF_sec : (c.setF f v).sec = c.sec := rfl
@[simp] theorem setF_dbg : (c.setF f v).dbg = c.dbg := rfl
@[simp] theorem setF_pair : (c.setF f v).pair = c.pair := rfl
@[simp] theorem lane_setF (j : Nat) : (c.setF f v).lane j = c.lane j := rfl
@[simp] theorem cell_setF (j : Nat) : (c.setF f v).cell j = c.cell j := rfl
@[simp] theorem hb_setF (j : Nat) : (c.setF f v).hb j = c.hb j := rfl
@[simp] theorem box_setF (j : Nat) : (c.setF f v).box j = c.box j := rfl
@[simp] theorem tch_setF (j : Nat) : (c.setF f v).tch j = c.tch j := rfl
@[simp] theorem cfgRec_setF (j : Nat) : (c.setF f v).cfgRec j = c.cfgRec j := rfl
end

section
variable (c : Machine.Core) (f : Field) (b : Bool)
@[simp] theorem setFlag_now : (c.setFlag f b).now = c.now := rfl
@[simp] theorem setFlag_free : (c.setFlag f b).free = c.free := rfl
@[simp] theorem setFlag_evSet : (c.setFlag f b).evSet = c.evSet := rfl
@[simp] theorem setFlag_gateRegs : (c.setFlag f b).gateRegs = c.gateRegs := rfl
@[simp] theorem setFlag_latch : (c.setFlag f b).latch = c.latch := rfl
@[simp] theorem setFlag_memOps : (c.setFlag f b).memOps = c.memOps := rfl
@[simp] theorem setFlag_cfg : (c.setFlag f b).cfg = c.cfg := rfl
@[simp] theorem setFlag_inForce : (c.setFlag f b).inForce = c.inForce := rfl
@[simp] theorem setFlag_shadow : (c.setFlag f b).shadow = c.shadow := rfl
@[simp] theorem setFlag_mode : (c.setFlag f b).mode = c.mode := rfl
@[simp] theorem setFlag_cells : (c.setFlag f b).cells = c.cells := rfl
@[simp] theorem setFlag_grid : (c.setFlag f b).grid = c.grid := rfl
@[simp] theorem setFlag_lanes : (c.setFlag f b).lanes = c.lanes := rfl
@[simp] theorem setFlag_hbs : (c.setFlag f b).hbs = c.hbs := rfl
@[simp] theorem setFlag_prt : (c.setFlag f b).prt = c.prt := rfl
@[simp] theorem setFlag_saf : (c.setFlag f b).saf = c.saf := rfl
@[simp] theorem setFlag_modu : (c.setFlag f b).modu = c.modu := rfl
@[simp] theorem setFlag_mbx : (c.setFlag f b).mbx = c.mbx := rfl
@[simp] theorem setFlag_tlm : (c.setFlag f b).tlm = c.tlm := rfl
@[simp] theorem setFlag_map : (c.setFlag f b).map = c.map := rfl
@[simp] theorem setFlag_disp : (c.setFlag f b).disp = c.disp := rfl
@[simp] theorem setFlag_ctl : (c.setFlag f b).ctl = c.ctl := rfl
@[simp] theorem setFlag_fbk : (c.setFlag f b).fbk = c.fbk := rfl
@[simp] theorem setFlag_start : (c.setFlag f b).start = c.start := rfl
@[simp] theorem setFlag_dok : (c.setFlag f b).dok = c.dok := rfl
@[simp] theorem setFlag_cnv : (c.setFlag f b).cnv = c.cnv := rfl
@[simp] theorem setFlag_clk : (c.setFlag f b).clk = c.clk := rfl
@[simp] theorem setFlag_stu : (c.setFlag f b).stu = c.stu := rfl
@[simp] theorem setFlag_lgr : (c.setFlag f b).lgr = c.lgr := rfl
@[simp] theorem setFlag_bist : (c.setFlag f b).bist = c.bist := rfl
@[simp] theorem setFlag_pwr : (c.setFlag f b).pwr = c.pwr := rfl
@[simp] theorem setFlag_sec : (c.setFlag f b).sec = c.sec := rfl
@[simp] theorem setFlag_dbg : (c.setFlag f b).dbg = c.dbg := rfl
@[simp] theorem setFlag_pair : (c.setFlag f b).pair = c.pair := rfl
@[simp] theorem lane_setFlag (j : Nat) : (c.setFlag f b).lane j = c.lane j := rfl
@[simp] theorem cell_setFlag (j : Nat) : (c.setFlag f b).cell j = c.cell j := rfl
@[simp] theorem hb_setFlag (j : Nat) : (c.setFlag f b).hb j = c.hb j := rfl
@[simp] theorem box_setFlag (j : Nat) : (c.setFlag f b).box j = c.box j := rfl
@[simp] theorem tch_setFlag (j : Nat) : (c.setFlag f b).tch j = c.tch j := rfl
@[simp] theorem cfgRec_setFlag (j : Nat) : (c.setFlag f b).cfgRec j = c.cfgRec j := rfl
end

section
variable (c : Machine.Core) (f : Field) (v : Int)
@[simp] theorem setI_now : (c.setI f v).now = c.now := rfl
@[simp] theorem setI_free : (c.setI f v).free = c.free := rfl
@[simp] theorem setI_evSet : (c.setI f v).evSet = c.evSet := rfl
@[simp] theorem setI_gateRegs : (c.setI f v).gateRegs = c.gateRegs := rfl
@[simp] theorem setI_latch : (c.setI f v).latch = c.latch := rfl
@[simp] theorem setI_memOps : (c.setI f v).memOps = c.memOps := rfl
@[simp] theorem setI_cfg : (c.setI f v).cfg = c.cfg := rfl
@[simp] theorem setI_inForce : (c.setI f v).inForce = c.inForce := rfl
@[simp] theorem setI_shadow : (c.setI f v).shadow = c.shadow := rfl
@[simp] theorem setI_mode : (c.setI f v).mode = c.mode := rfl
@[simp] theorem setI_cells : (c.setI f v).cells = c.cells := rfl
@[simp] theorem setI_grid : (c.setI f v).grid = c.grid := rfl
@[simp] theorem setI_lanes : (c.setI f v).lanes = c.lanes := rfl
@[simp] theorem setI_hbs : (c.setI f v).hbs = c.hbs := rfl
@[simp] theorem setI_prt : (c.setI f v).prt = c.prt := rfl
@[simp] theorem setI_saf : (c.setI f v).saf = c.saf := rfl
@[simp] theorem setI_modu : (c.setI f v).modu = c.modu := rfl
@[simp] theorem setI_mbx : (c.setI f v).mbx = c.mbx := rfl
@[simp] theorem setI_tlm : (c.setI f v).tlm = c.tlm := rfl
@[simp] theorem setI_map : (c.setI f v).map = c.map := rfl
@[simp] theorem setI_disp : (c.setI f v).disp = c.disp := rfl
@[simp] theorem setI_ctl : (c.setI f v).ctl = c.ctl := rfl
@[simp] theorem setI_fbk : (c.setI f v).fbk = c.fbk := rfl
@[simp] theorem setI_start : (c.setI f v).start = c.start := rfl
@[simp] theorem setI_dok : (c.setI f v).dok = c.dok := rfl
@[simp] theorem setI_cnv : (c.setI f v).cnv = c.cnv := rfl
@[simp] theorem setI_clk : (c.setI f v).clk = c.clk := rfl
@[simp] theorem setI_stu : (c.setI f v).stu = c.stu := rfl
@[simp] theorem setI_lgr : (c.setI f v).lgr = c.lgr := rfl
@[simp] theorem setI_bist : (c.setI f v).bist = c.bist := rfl
@[simp] theorem setI_pwr : (c.setI f v).pwr = c.pwr := rfl
@[simp] theorem setI_sec : (c.setI f v).sec = c.sec := rfl
@[simp] theorem setI_dbg : (c.setI f v).dbg = c.dbg := rfl
@[simp] theorem setI_pair : (c.setI f v).pair = c.pair := rfl
@[simp] theorem lane_setI (j : Nat) : (c.setI f v).lane j = c.lane j := rfl
@[simp] theorem cell_setI (j : Nat) : (c.setI f v).cell j = c.cell j := rfl
@[simp] theorem hb_setI (j : Nat) : (c.setI f v).hb j = c.hb j := rfl
@[simp] theorem box_setI (j : Nat) : (c.setI f v).box j = c.box j := rfl
@[simp] theorem tch_setI (j : Nat) : (c.setI f v).tch j = c.tch j := rfl
@[simp] theorem cfgRec_setI (j : Nat) : (c.setI f v).cfgRec j = c.cfgRec j := rfl
end

section
variable (c : Machine.Core) (f : Field)
@[simp] theorem event_now : (c.event f).now = c.now := rfl
@[simp] theorem event_free : (c.event f).free = c.free := rfl
@[simp] theorem event_gateRegs : (c.event f).gateRegs = c.gateRegs := rfl
@[simp] theorem event_latch : (c.event f).latch = c.latch := rfl
@[simp] theorem event_memOps : (c.event f).memOps = c.memOps := rfl
@[simp] theorem event_cfg : (c.event f).cfg = c.cfg := rfl
@[simp] theorem event_inForce : (c.event f).inForce = c.inForce := rfl
@[simp] theorem event_shadow : (c.event f).shadow = c.shadow := rfl
@[simp] theorem event_mode : (c.event f).mode = c.mode := rfl
@[simp] theorem event_cells : (c.event f).cells = c.cells := rfl
@[simp] theorem event_grid : (c.event f).grid = c.grid := rfl
@[simp] theorem event_lanes : (c.event f).lanes = c.lanes := rfl
@[simp] theorem event_hbs : (c.event f).hbs = c.hbs := rfl
@[simp] theorem event_prt : (c.event f).prt = c.prt := rfl
@[simp] theorem event_saf : (c.event f).saf = c.saf := rfl
@[simp] theorem event_modu : (c.event f).modu = c.modu := rfl
@[simp] theorem event_mbx : (c.event f).mbx = c.mbx := rfl
@[simp] theorem event_tlm : (c.event f).tlm = c.tlm := rfl
@[simp] theorem event_map : (c.event f).map = c.map := rfl
@[simp] theorem event_disp : (c.event f).disp = c.disp := rfl
@[simp] theorem event_ctl : (c.event f).ctl = c.ctl := rfl
@[simp] theorem event_fbk : (c.event f).fbk = c.fbk := rfl
@[simp] theorem event_start : (c.event f).start = c.start := rfl
@[simp] theorem event_dok : (c.event f).dok = c.dok := rfl
@[simp] theorem event_cnv : (c.event f).cnv = c.cnv := rfl
@[simp] theorem event_clk : (c.event f).clk = c.clk := rfl
@[simp] theorem event_stu : (c.event f).stu = c.stu := rfl
@[simp] theorem event_lgr : (c.event f).lgr = c.lgr := rfl
@[simp] theorem event_bist : (c.event f).bist = c.bist := rfl
@[simp] theorem event_pwr : (c.event f).pwr = c.pwr := rfl
@[simp] theorem event_sec : (c.event f).sec = c.sec := rfl
@[simp] theorem event_dbg : (c.event f).dbg = c.dbg := rfl
@[simp] theorem event_pair : (c.event f).pair = c.pair := rfl
@[simp] theorem lane_event (j : Nat) : (c.event f).lane j = c.lane j := rfl
@[simp] theorem cell_event (j : Nat) : (c.event f).cell j = c.cell j := rfl
@[simp] theorem hb_event (j : Nat) : (c.event f).hb j = c.hb j := rfl
@[simp] theorem box_event (j : Nat) : (c.event f).box j = c.box j := rfl
@[simp] theorem tch_event (j : Nat) : (c.event f).tch j = c.tch j := rfl
@[simp] theorem cfgRec_event (j : Nat) : (c.event f).cfgRec j = c.cfgRec j := rfl
end

section
variable (c : Machine.Core) (f : Field) (n : Nat)
@[simp] theorem bump_now : (c.bump f n).now = c.now := rfl
@[simp] theorem bump_free : (c.bump f n).free = c.free := rfl
@[simp] theorem bump_evSet : (c.bump f n).evSet = c.evSet := rfl
@[simp] theorem bump_gateRegs : (c.bump f n).gateRegs = c.gateRegs := rfl
@[simp] theorem bump_latch : (c.bump f n).latch = c.latch := rfl
@[simp] theorem bump_memOps : (c.bump f n).memOps = c.memOps := rfl
@[simp] theorem bump_cfg : (c.bump f n).cfg = c.cfg := rfl
@[simp] theorem bump_inForce : (c.bump f n).inForce = c.inForce := rfl
@[simp] theorem bump_shadow : (c.bump f n).shadow = c.shadow := rfl
@[simp] theorem bump_mode : (c.bump f n).mode = c.mode := rfl
@[simp] theorem bump_cells : (c.bump f n).cells = c.cells := rfl
@[simp] theorem bump_grid : (c.bump f n).grid = c.grid := rfl
@[simp] theorem bump_lanes : (c.bump f n).lanes = c.lanes := rfl
@[simp] theorem bump_hbs : (c.bump f n).hbs = c.hbs := rfl
@[simp] theorem bump_prt : (c.bump f n).prt = c.prt := rfl
@[simp] theorem bump_saf : (c.bump f n).saf = c.saf := rfl
@[simp] theorem bump_modu : (c.bump f n).modu = c.modu := rfl
@[simp] theorem bump_mbx : (c.bump f n).mbx = c.mbx := rfl
@[simp] theorem bump_tlm : (c.bump f n).tlm = c.tlm := rfl
@[simp] theorem bump_map : (c.bump f n).map = c.map := rfl
@[simp] theorem bump_disp : (c.bump f n).disp = c.disp := rfl
@[simp] theorem bump_ctl : (c.bump f n).ctl = c.ctl := rfl
@[simp] theorem bump_fbk : (c.bump f n).fbk = c.fbk := rfl
@[simp] theorem bump_start : (c.bump f n).start = c.start := rfl
@[simp] theorem bump_dok : (c.bump f n).dok = c.dok := rfl
@[simp] theorem bump_cnv : (c.bump f n).cnv = c.cnv := rfl
@[simp] theorem bump_clk : (c.bump f n).clk = c.clk := rfl
@[simp] theorem bump_stu : (c.bump f n).stu = c.stu := rfl
@[simp] theorem bump_lgr : (c.bump f n).lgr = c.lgr := rfl
@[simp] theorem bump_bist : (c.bump f n).bist = c.bist := rfl
@[simp] theorem bump_pwr : (c.bump f n).pwr = c.pwr := rfl
@[simp] theorem bump_sec : (c.bump f n).sec = c.sec := rfl
@[simp] theorem bump_dbg : (c.bump f n).dbg = c.dbg := rfl
@[simp] theorem bump_pair : (c.bump f n).pair = c.pair := rfl
@[simp] theorem lane_bump (j : Nat) : (c.bump f n).lane j = c.lane j := rfl
@[simp] theorem cell_bump (j : Nat) : (c.bump f n).cell j = c.cell j := rfl
@[simp] theorem hb_bump (j : Nat) : (c.bump f n).hb j = c.hb j := rfl
@[simp] theorem box_bump (j : Nat) : (c.bump f n).box j = c.box j := rfl
@[simp] theorem tch_bump (j : Nat) : (c.bump f n).tch j = c.tch j := rfl
@[simp] theorem cfgRec_bump (j : Nat) : (c.bump f n).cfgRec j = c.cfgRec j := rfl
end

section
variable (c : Machine.Core) (f : Field) (i : Nat) (b : Bool)
@[simp] theorem putBit_now : (c.putBit f i b).now = c.now := rfl
@[simp] theorem putBit_free : (c.putBit f i b).free = c.free := rfl
@[simp] theorem putBit_evSet : (c.putBit f i b).evSet = c.evSet := rfl
@[simp] theorem putBit_gateRegs : (c.putBit f i b).gateRegs = c.gateRegs := rfl
@[simp] theorem putBit_latch : (c.putBit f i b).latch = c.latch := rfl
@[simp] theorem putBit_memOps : (c.putBit f i b).memOps = c.memOps := rfl
@[simp] theorem putBit_cfg : (c.putBit f i b).cfg = c.cfg := rfl
@[simp] theorem putBit_inForce : (c.putBit f i b).inForce = c.inForce := rfl
@[simp] theorem putBit_shadow : (c.putBit f i b).shadow = c.shadow := rfl
@[simp] theorem putBit_mode : (c.putBit f i b).mode = c.mode := rfl
@[simp] theorem putBit_cells : (c.putBit f i b).cells = c.cells := rfl
@[simp] theorem putBit_grid : (c.putBit f i b).grid = c.grid := rfl
@[simp] theorem putBit_lanes : (c.putBit f i b).lanes = c.lanes := rfl
@[simp] theorem putBit_hbs : (c.putBit f i b).hbs = c.hbs := rfl
@[simp] theorem putBit_prt : (c.putBit f i b).prt = c.prt := rfl
@[simp] theorem putBit_saf : (c.putBit f i b).saf = c.saf := rfl
@[simp] theorem putBit_modu : (c.putBit f i b).modu = c.modu := rfl
@[simp] theorem putBit_mbx : (c.putBit f i b).mbx = c.mbx := rfl
@[simp] theorem putBit_tlm : (c.putBit f i b).tlm = c.tlm := rfl
@[simp] theorem putBit_map : (c.putBit f i b).map = c.map := rfl
@[simp] theorem putBit_disp : (c.putBit f i b).disp = c.disp := rfl
@[simp] theorem putBit_ctl : (c.putBit f i b).ctl = c.ctl := rfl
@[simp] theorem putBit_fbk : (c.putBit f i b).fbk = c.fbk := rfl
@[simp] theorem putBit_start : (c.putBit f i b).start = c.start := rfl
@[simp] theorem putBit_dok : (c.putBit f i b).dok = c.dok := rfl
@[simp] theorem putBit_cnv : (c.putBit f i b).cnv = c.cnv := rfl
@[simp] theorem putBit_clk : (c.putBit f i b).clk = c.clk := rfl
@[simp] theorem putBit_stu : (c.putBit f i b).stu = c.stu := rfl
@[simp] theorem putBit_lgr : (c.putBit f i b).lgr = c.lgr := rfl
@[simp] theorem putBit_bist : (c.putBit f i b).bist = c.bist := rfl
@[simp] theorem putBit_pwr : (c.putBit f i b).pwr = c.pwr := rfl
@[simp] theorem putBit_sec : (c.putBit f i b).sec = c.sec := rfl
@[simp] theorem putBit_dbg : (c.putBit f i b).dbg = c.dbg := rfl
@[simp] theorem putBit_pair : (c.putBit f i b).pair = c.pair := rfl
@[simp] theorem lane_putBit (j : Nat) : (c.putBit f i b).lane j = c.lane j := rfl
@[simp] theorem cell_putBit (j : Nat) : (c.putBit f i b).cell j = c.cell j := rfl
@[simp] theorem hb_putBit (j : Nat) : (c.putBit f i b).hb j = c.hb j := rfl
@[simp] theorem box_putBit (j : Nat) : (c.putBit f i b).box j = c.box j := rfl
@[simp] theorem tch_putBit (j : Nat) : (c.putBit f i b).tch j = c.tch j := rfl
@[simp] theorem cfgRec_putBit (j : Nat) : (c.putBit f i b).cfgRec j = c.cfgRec j := rfl
end

section
variable (c : Machine.Core) (n : Nat) (x : Cell)
@[simp] theorem setCell_now : (c.setCell n x).now = c.now := rfl
@[simp] theorem setCell_free : (c.setCell n x).free = c.free := rfl
@[simp] theorem setCell_regs : (c.setCell n x).regs = c.regs := rfl
@[simp] theorem setCell_evSet : (c.setCell n x).evSet = c.evSet := rfl
@[simp] theorem setCell_gateRegs : (c.setCell n x).gateRegs = c.gateRegs := rfl
@[simp] theorem setCell_latch : (c.setCell n x).latch = c.latch := rfl
@[simp] theorem setCell_memOps : (c.setCell n x).memOps = c.memOps := rfl
@[simp] theorem setCell_cfg : (c.setCell n x).cfg = c.cfg := rfl
@[simp] theorem setCell_inForce : (c.setCell n x).inForce = c.inForce := rfl
@[simp] theorem setCell_shadow : (c.setCell n x).shadow = c.shadow := rfl
@[simp] theorem setCell_mode : (c.setCell n x).mode = c.mode := rfl
@[simp] theorem setCell_grid : (c.setCell n x).grid = c.grid := rfl
@[simp] theorem setCell_lanes : (c.setCell n x).lanes = c.lanes := rfl
@[simp] theorem setCell_hbs : (c.setCell n x).hbs = c.hbs := rfl
@[simp] theorem setCell_prt : (c.setCell n x).prt = c.prt := rfl
@[simp] theorem setCell_saf : (c.setCell n x).saf = c.saf := rfl
@[simp] theorem setCell_modu : (c.setCell n x).modu = c.modu := rfl
@[simp] theorem setCell_mbx : (c.setCell n x).mbx = c.mbx := rfl
@[simp] theorem setCell_tlm : (c.setCell n x).tlm = c.tlm := rfl
@[simp] theorem setCell_map : (c.setCell n x).map = c.map := rfl
@[simp] theorem setCell_disp : (c.setCell n x).disp = c.disp := rfl
@[simp] theorem setCell_ctl : (c.setCell n x).ctl = c.ctl := rfl
@[simp] theorem setCell_fbk : (c.setCell n x).fbk = c.fbk := rfl
@[simp] theorem setCell_start : (c.setCell n x).start = c.start := rfl
@[simp] theorem setCell_dok : (c.setCell n x).dok = c.dok := rfl
@[simp] theorem setCell_cnv : (c.setCell n x).cnv = c.cnv := rfl
@[simp] theorem setCell_clk : (c.setCell n x).clk = c.clk := rfl
@[simp] theorem setCell_stu : (c.setCell n x).stu = c.stu := rfl
@[simp] theorem setCell_lgr : (c.setCell n x).lgr = c.lgr := rfl
@[simp] theorem setCell_bist : (c.setCell n x).bist = c.bist := rfl
@[simp] theorem setCell_pwr : (c.setCell n x).pwr = c.pwr := rfl
@[simp] theorem setCell_sec : (c.setCell n x).sec = c.sec := rfl
@[simp] theorem setCell_dbg : (c.setCell n x).dbg = c.dbg := rfl
@[simp] theorem setCell_pair : (c.setCell n x).pair = c.pair := rfl
@[simp] theorem reg_setCell (j : Nat) : (c.setCell n x).reg j = c.reg j := rfl
@[simp] theorem lane_setCell (j : Nat) : (c.setCell n x).lane j = c.lane j := rfl
@[simp] theorem hb_setCell (j : Nat) : (c.setCell n x).hb j = c.hb j := rfl
@[simp] theorem box_setCell (j : Nat) : (c.setCell n x).box j = c.box j := rfl
@[simp] theorem tch_setCell (j : Nat) : (c.setCell n x).tch j = c.tch j := rfl
@[simp] theorem cfgRec_setCell (j : Nat) : (c.setCell n x).cfgRec j = c.cfgRec j := rfl
end

section
variable (c : Machine.Core) (n : Nat) (x : Lane)
@[simp] theorem setLane_now : (c.setLane n x).now = c.now := rfl
@[simp] theorem setLane_free : (c.setLane n x).free = c.free := rfl
@[simp] theorem setLane_regs : (c.setLane n x).regs = c.regs := rfl
@[simp] theorem setLane_evSet : (c.setLane n x).evSet = c.evSet := rfl
@[simp] theorem setLane_gateRegs : (c.setLane n x).gateRegs = c.gateRegs := rfl
@[simp] theorem setLane_latch : (c.setLane n x).latch = c.latch := rfl
@[simp] theorem setLane_memOps : (c.setLane n x).memOps = c.memOps := rfl
@[simp] theorem setLane_cfg : (c.setLane n x).cfg = c.cfg := rfl
@[simp] theorem setLane_inForce : (c.setLane n x).inForce = c.inForce := rfl
@[simp] theorem setLane_shadow : (c.setLane n x).shadow = c.shadow := rfl
@[simp] theorem setLane_mode : (c.setLane n x).mode = c.mode := rfl
@[simp] theorem setLane_cells : (c.setLane n x).cells = c.cells := rfl
@[simp] theorem setLane_grid : (c.setLane n x).grid = c.grid := rfl
@[simp] theorem setLane_hbs : (c.setLane n x).hbs = c.hbs := rfl
@[simp] theorem setLane_prt : (c.setLane n x).prt = c.prt := rfl
@[simp] theorem setLane_saf : (c.setLane n x).saf = c.saf := rfl
@[simp] theorem setLane_modu : (c.setLane n x).modu = c.modu := rfl
@[simp] theorem setLane_mbx : (c.setLane n x).mbx = c.mbx := rfl
@[simp] theorem setLane_tlm : (c.setLane n x).tlm = c.tlm := rfl
@[simp] theorem setLane_map : (c.setLane n x).map = c.map := rfl
@[simp] theorem setLane_disp : (c.setLane n x).disp = c.disp := rfl
@[simp] theorem setLane_ctl : (c.setLane n x).ctl = c.ctl := rfl
@[simp] theorem setLane_fbk : (c.setLane n x).fbk = c.fbk := rfl
@[simp] theorem setLane_start : (c.setLane n x).start = c.start := rfl
@[simp] theorem setLane_dok : (c.setLane n x).dok = c.dok := rfl
@[simp] theorem setLane_cnv : (c.setLane n x).cnv = c.cnv := rfl
@[simp] theorem setLane_clk : (c.setLane n x).clk = c.clk := rfl
@[simp] theorem setLane_stu : (c.setLane n x).stu = c.stu := rfl
@[simp] theorem setLane_lgr : (c.setLane n x).lgr = c.lgr := rfl
@[simp] theorem setLane_bist : (c.setLane n x).bist = c.bist := rfl
@[simp] theorem setLane_pwr : (c.setLane n x).pwr = c.pwr := rfl
@[simp] theorem setLane_sec : (c.setLane n x).sec = c.sec := rfl
@[simp] theorem setLane_dbg : (c.setLane n x).dbg = c.dbg := rfl
@[simp] theorem setLane_pair : (c.setLane n x).pair = c.pair := rfl
@[simp] theorem reg_setLane (j : Nat) : (c.setLane n x).reg j = c.reg j := rfl
@[simp] theorem cell_setLane (j : Nat) : (c.setLane n x).cell j = c.cell j := rfl
@[simp] theorem hb_setLane (j : Nat) : (c.setLane n x).hb j = c.hb j := rfl
@[simp] theorem box_setLane (j : Nat) : (c.setLane n x).box j = c.box j := rfl
@[simp] theorem tch_setLane (j : Nat) : (c.setLane n x).tch j = c.tch j := rfl
@[simp] theorem cfgRec_setLane (j : Nat) : (c.setLane n x).cfgRec j = c.cfgRec j := rfl
end

section
variable (c : Machine.Core) (n : Nat) (x : Hb)
@[simp] theorem setHb_now : (c.setHb n x).now = c.now := rfl
@[simp] theorem setHb_free : (c.setHb n x).free = c.free := rfl
@[simp] theorem setHb_regs : (c.setHb n x).regs = c.regs := rfl
@[simp] theorem setHb_evSet : (c.setHb n x).evSet = c.evSet := rfl
@[simp] theorem setHb_gateRegs : (c.setHb n x).gateRegs = c.gateRegs := rfl
@[simp] theorem setHb_latch : (c.setHb n x).latch = c.latch := rfl
@[simp] theorem setHb_memOps : (c.setHb n x).memOps = c.memOps := rfl
@[simp] theorem setHb_cfg : (c.setHb n x).cfg = c.cfg := rfl
@[simp] theorem setHb_inForce : (c.setHb n x).inForce = c.inForce := rfl
@[simp] theorem setHb_shadow : (c.setHb n x).shadow = c.shadow := rfl
@[simp] theorem setHb_mode : (c.setHb n x).mode = c.mode := rfl
@[simp] theorem setHb_cells : (c.setHb n x).cells = c.cells := rfl
@[simp] theorem setHb_grid : (c.setHb n x).grid = c.grid := rfl
@[simp] theorem setHb_lanes : (c.setHb n x).lanes = c.lanes := rfl
@[simp] theorem setHb_prt : (c.setHb n x).prt = c.prt := rfl
@[simp] theorem setHb_saf : (c.setHb n x).saf = c.saf := rfl
@[simp] theorem setHb_modu : (c.setHb n x).modu = c.modu := rfl
@[simp] theorem setHb_mbx : (c.setHb n x).mbx = c.mbx := rfl
@[simp] theorem setHb_tlm : (c.setHb n x).tlm = c.tlm := rfl
@[simp] theorem setHb_map : (c.setHb n x).map = c.map := rfl
@[simp] theorem setHb_disp : (c.setHb n x).disp = c.disp := rfl
@[simp] theorem setHb_ctl : (c.setHb n x).ctl = c.ctl := rfl
@[simp] theorem setHb_fbk : (c.setHb n x).fbk = c.fbk := rfl
@[simp] theorem setHb_start : (c.setHb n x).start = c.start := rfl
@[simp] theorem setHb_dok : (c.setHb n x).dok = c.dok := rfl
@[simp] theorem setHb_cnv : (c.setHb n x).cnv = c.cnv := rfl
@[simp] theorem setHb_clk : (c.setHb n x).clk = c.clk := rfl
@[simp] theorem setHb_stu : (c.setHb n x).stu = c.stu := rfl
@[simp] theorem setHb_lgr : (c.setHb n x).lgr = c.lgr := rfl
@[simp] theorem setHb_bist : (c.setHb n x).bist = c.bist := rfl
@[simp] theorem setHb_pwr : (c.setHb n x).pwr = c.pwr := rfl
@[simp] theorem setHb_sec : (c.setHb n x).sec = c.sec := rfl
@[simp] theorem setHb_dbg : (c.setHb n x).dbg = c.dbg := rfl
@[simp] theorem setHb_pair : (c.setHb n x).pair = c.pair := rfl
@[simp] theorem reg_setHb (j : Nat) : (c.setHb n x).reg j = c.reg j := rfl
@[simp] theorem lane_setHb (j : Nat) : (c.setHb n x).lane j = c.lane j := rfl
@[simp] theorem cell_setHb (j : Nat) : (c.setHb n x).cell j = c.cell j := rfl
@[simp] theorem box_setHb (j : Nat) : (c.setHb n x).box j = c.box j := rfl
@[simp] theorem tch_setHb (j : Nat) : (c.setHb n x).tch j = c.tch j := rfl
@[simp] theorem cfgRec_setHb (j : Nat) : (c.setHb n x).cfgRec j = c.cfgRec j := rfl
end

section
variable (c : Machine.Core) (n : Nat) (g : Cell → Cell)
@[simp] theorem modCell_now : (c.modCell n g).now = c.now := rfl
@[simp] theorem modCell_free : (c.modCell n g).free = c.free := rfl
@[simp] theorem modCell_regs : (c.modCell n g).regs = c.regs := rfl
@[simp] theorem modCell_evSet : (c.modCell n g).evSet = c.evSet := rfl
@[simp] theorem modCell_gateRegs : (c.modCell n g).gateRegs = c.gateRegs := rfl
@[simp] theorem modCell_latch : (c.modCell n g).latch = c.latch := rfl
@[simp] theorem modCell_memOps : (c.modCell n g).memOps = c.memOps := rfl
@[simp] theorem modCell_cfg : (c.modCell n g).cfg = c.cfg := rfl
@[simp] theorem modCell_inForce : (c.modCell n g).inForce = c.inForce := rfl
@[simp] theorem modCell_shadow : (c.modCell n g).shadow = c.shadow := rfl
@[simp] theorem modCell_mode : (c.modCell n g).mode = c.mode := rfl
@[simp] theorem modCell_grid : (c.modCell n g).grid = c.grid := rfl
@[simp] theorem modCell_lanes : (c.modCell n g).lanes = c.lanes := rfl
@[simp] theorem modCell_hbs : (c.modCell n g).hbs = c.hbs := rfl
@[simp] theorem modCell_prt : (c.modCell n g).prt = c.prt := rfl
@[simp] theorem modCell_saf : (c.modCell n g).saf = c.saf := rfl
@[simp] theorem modCell_modu : (c.modCell n g).modu = c.modu := rfl
@[simp] theorem modCell_mbx : (c.modCell n g).mbx = c.mbx := rfl
@[simp] theorem modCell_tlm : (c.modCell n g).tlm = c.tlm := rfl
@[simp] theorem modCell_map : (c.modCell n g).map = c.map := rfl
@[simp] theorem modCell_disp : (c.modCell n g).disp = c.disp := rfl
@[simp] theorem modCell_ctl : (c.modCell n g).ctl = c.ctl := rfl
@[simp] theorem modCell_fbk : (c.modCell n g).fbk = c.fbk := rfl
@[simp] theorem modCell_start : (c.modCell n g).start = c.start := rfl
@[simp] theorem modCell_dok : (c.modCell n g).dok = c.dok := rfl
@[simp] theorem modCell_cnv : (c.modCell n g).cnv = c.cnv := rfl
@[simp] theorem modCell_clk : (c.modCell n g).clk = c.clk := rfl
@[simp] theorem modCell_stu : (c.modCell n g).stu = c.stu := rfl
@[simp] theorem modCell_lgr : (c.modCell n g).lgr = c.lgr := rfl
@[simp] theorem modCell_bist : (c.modCell n g).bist = c.bist := rfl
@[simp] theorem modCell_pwr : (c.modCell n g).pwr = c.pwr := rfl
@[simp] theorem modCell_sec : (c.modCell n g).sec = c.sec := rfl
@[simp] theorem modCell_dbg : (c.modCell n g).dbg = c.dbg := rfl
@[simp] theorem modCell_pair : (c.modCell n g).pair = c.pair := rfl
@[simp] theorem reg_modCell (j : Nat) : (c.modCell n g).reg j = c.reg j := rfl
@[simp] theorem lane_modCell (j : Nat) : (c.modCell n g).lane j = c.lane j := rfl
@[simp] theorem hb_modCell (j : Nat) : (c.modCell n g).hb j = c.hb j := rfl
@[simp] theorem box_modCell (j : Nat) : (c.modCell n g).box j = c.box j := rfl
@[simp] theorem tch_modCell (j : Nat) : (c.modCell n g).tch j = c.tch j := rfl
@[simp] theorem cfgRec_modCell (j : Nat) : (c.modCell n g).cfgRec j = c.cfgRec j := rfl
end

section
variable (c : Machine.Core) (n : Nat) (g : Lane → Lane)
@[simp] theorem modLane_now : (c.modLane n g).now = c.now := rfl
@[simp] theorem modLane_free : (c.modLane n g).free = c.free := rfl
@[simp] theorem modLane_regs : (c.modLane n g).regs = c.regs := rfl
@[simp] theorem modLane_evSet : (c.modLane n g).evSet = c.evSet := rfl
@[simp] theorem modLane_gateRegs : (c.modLane n g).gateRegs = c.gateRegs := rfl
@[simp] theorem modLane_latch : (c.modLane n g).latch = c.latch := rfl
@[simp] theorem modLane_memOps : (c.modLane n g).memOps = c.memOps := rfl
@[simp] theorem modLane_cfg : (c.modLane n g).cfg = c.cfg := rfl
@[simp] theorem modLane_inForce : (c.modLane n g).inForce = c.inForce := rfl
@[simp] theorem modLane_shadow : (c.modLane n g).shadow = c.shadow := rfl
@[simp] theorem modLane_mode : (c.modLane n g).mode = c.mode := rfl
@[simp] theorem modLane_cells : (c.modLane n g).cells = c.cells := rfl
@[simp] theorem modLane_grid : (c.modLane n g).grid = c.grid := rfl
@[simp] theorem modLane_hbs : (c.modLane n g).hbs = c.hbs := rfl
@[simp] theorem modLane_prt : (c.modLane n g).prt = c.prt := rfl
@[simp] theorem modLane_saf : (c.modLane n g).saf = c.saf := rfl
@[simp] theorem modLane_modu : (c.modLane n g).modu = c.modu := rfl
@[simp] theorem modLane_mbx : (c.modLane n g).mbx = c.mbx := rfl
@[simp] theorem modLane_tlm : (c.modLane n g).tlm = c.tlm := rfl
@[simp] theorem modLane_map : (c.modLane n g).map = c.map := rfl
@[simp] theorem modLane_disp : (c.modLane n g).disp = c.disp := rfl
@[simp] theorem modLane_ctl : (c.modLane n g).ctl = c.ctl := rfl
@[simp] theorem modLane_fbk : (c.modLane n g).fbk = c.fbk := rfl
@[simp] theorem modLane_start : (c.modLane n g).start = c.start := rfl
@[simp] theorem modLane_dok : (c.modLane n g).dok = c.dok := rfl
@[simp] theorem modLane_cnv : (c.modLane n g).cnv = c.cnv := rfl
@[simp] theorem modLane_clk : (c.modLane n g).clk = c.clk := rfl
@[simp] theorem modLane_stu : (c.modLane n g).stu = c.stu := rfl
@[simp] theorem modLane_lgr : (c.modLane n g).lgr = c.lgr := rfl
@[simp] theorem modLane_bist : (c.modLane n g).bist = c.bist := rfl
@[simp] theorem modLane_pwr : (c.modLane n g).pwr = c.pwr := rfl
@[simp] theorem modLane_sec : (c.modLane n g).sec = c.sec := rfl
@[simp] theorem modLane_dbg : (c.modLane n g).dbg = c.dbg := rfl
@[simp] theorem modLane_pair : (c.modLane n g).pair = c.pair := rfl
@[simp] theorem reg_modLane (j : Nat) : (c.modLane n g).reg j = c.reg j := rfl
@[simp] theorem cell_modLane (j : Nat) : (c.modLane n g).cell j = c.cell j := rfl
@[simp] theorem hb_modLane (j : Nat) : (c.modLane n g).hb j = c.hb j := rfl
@[simp] theorem box_modLane (j : Nat) : (c.modLane n g).box j = c.box j := rfl
@[simp] theorem tch_modLane (j : Nat) : (c.modLane n g).tch j = c.tch j := rfl
@[simp] theorem cfgRec_modLane (j : Nat) : (c.modLane n g).cfgRec j = c.cfgRec j := rfl
end

section
variable (c : Machine.Core) (n : Nat) (g : Hb → Hb)
@[simp] theorem modHb_now : (c.modHb n g).now = c.now := rfl
@[simp] theorem modHb_free : (c.modHb n g).free = c.free := rfl
@[simp] theorem modHb_regs : (c.modHb n g).regs = c.regs := rfl
@[simp] theorem modHb_evSet : (c.modHb n g).evSet = c.evSet := rfl
@[simp] theorem modHb_gateRegs : (c.modHb n g).gateRegs = c.gateRegs := rfl
@[simp] theorem modHb_latch : (c.modHb n g).latch = c.latch := rfl
@[simp] theorem modHb_memOps : (c.modHb n g).memOps = c.memOps := rfl
@[simp] theorem modHb_cfg : (c.modHb n g).cfg = c.cfg := rfl
@[simp] theorem modHb_inForce : (c.modHb n g).inForce = c.inForce := rfl
@[simp] theorem modHb_shadow : (c.modHb n g).shadow = c.shadow := rfl
@[simp] theorem modHb_mode : (c.modHb n g).mode = c.mode := rfl
@[simp] theorem modHb_cells : (c.modHb n g).cells = c.cells := rfl
@[simp] theorem modHb_grid : (c.modHb n g).grid = c.grid := rfl
@[simp] theorem modHb_lanes : (c.modHb n g).lanes = c.lanes := rfl
@[simp] theorem modHb_prt : (c.modHb n g).prt = c.prt := rfl
@[simp] theorem modHb_saf : (c.modHb n g).saf = c.saf := rfl
@[simp] theorem modHb_modu : (c.modHb n g).modu = c.modu := rfl
@[simp] theorem modHb_mbx : (c.modHb n g).mbx = c.mbx := rfl
@[simp] theorem modHb_tlm : (c.modHb n g).tlm = c.tlm := rfl
@[simp] theorem modHb_map : (c.modHb n g).map = c.map := rfl
@[simp] theorem modHb_disp : (c.modHb n g).disp = c.disp := rfl
@[simp] theorem modHb_ctl : (c.modHb n g).ctl = c.ctl := rfl
@[simp] theorem modHb_fbk : (c.modHb n g).fbk = c.fbk := rfl
@[simp] theorem modHb_start : (c.modHb n g).start = c.start := rfl
@[simp] theorem modHb_dok : (c.modHb n g).dok = c.dok := rfl
@[simp] theorem modHb_cnv : (c.modHb n g).cnv = c.cnv := rfl
@[simp] theorem modHb_clk : (c.modHb n g).clk = c.clk := rfl
@[simp] theorem modHb_stu : (c.modHb n g).stu = c.stu := rfl
@[simp] theorem modHb_lgr : (c.modHb n g).lgr = c.lgr := rfl
@[simp] theorem modHb_bist : (c.modHb n g).bist = c.bist := rfl
@[simp] theorem modHb_pwr : (c.modHb n g).pwr = c.pwr := rfl
@[simp] theorem modHb_sec : (c.modHb n g).sec = c.sec := rfl
@[simp] theorem modHb_dbg : (c.modHb n g).dbg = c.dbg := rfl
@[simp] theorem modHb_pair : (c.modHb n g).pair = c.pair := rfl
@[simp] theorem reg_modHb (j : Nat) : (c.modHb n g).reg j = c.reg j := rfl
@[simp] theorem lane_modHb (j : Nat) : (c.modHb n g).lane j = c.lane j := rfl
@[simp] theorem cell_modHb (j : Nat) : (c.modHb n g).cell j = c.cell j := rfl
@[simp] theorem box_modHb (j : Nat) : (c.modHb n g).box j = c.box j := rfl
@[simp] theorem tch_modHb (j : Nat) : (c.modHb n g).tch j = c.tch j := rfl
@[simp] theorem cfgRec_modHb (j : Nat) : (c.modHb n g).cfgRec j = c.cfgRec j := rfl
end

section
variable (c : Machine.Core) (m : Nat) (x : Mbox)
@[simp] theorem setBox_now : (c.setBox m x).now = c.now := rfl
@[simp] theorem setBox_free : (c.setBox m x).free = c.free := rfl
@[simp] theorem setBox_regs : (c.setBox m x).regs = c.regs := rfl
@[simp] theorem setBox_evSet : (c.setBox m x).evSet = c.evSet := rfl
@[simp] theorem setBox_gateRegs : (c.setBox m x).gateRegs = c.gateRegs := rfl
@[simp] theorem setBox_latch : (c.setBox m x).latch = c.latch := rfl
@[simp] theorem setBox_memOps : (c.setBox m x).memOps = c.memOps := rfl
@[simp] theorem setBox_cfg : (c.setBox m x).cfg = c.cfg := rfl
@[simp] theorem setBox_inForce : (c.setBox m x).inForce = c.inForce := rfl
@[simp] theorem setBox_shadow : (c.setBox m x).shadow = c.shadow := rfl
@[simp] theorem setBox_mode : (c.setBox m x).mode = c.mode := rfl
@[simp] theorem setBox_cells : (c.setBox m x).cells = c.cells := rfl
@[simp] theorem setBox_grid : (c.setBox m x).grid = c.grid := rfl
@[simp] theorem setBox_lanes : (c.setBox m x).lanes = c.lanes := rfl
@[simp] theorem setBox_hbs : (c.setBox m x).hbs = c.hbs := rfl
@[simp] theorem setBox_prt : (c.setBox m x).prt = c.prt := rfl
@[simp] theorem setBox_saf : (c.setBox m x).saf = c.saf := rfl
@[simp] theorem setBox_modu : (c.setBox m x).modu = c.modu := rfl
@[simp] theorem setBox_tlm : (c.setBox m x).tlm = c.tlm := rfl
@[simp] theorem setBox_map : (c.setBox m x).map = c.map := rfl
@[simp] theorem setBox_disp : (c.setBox m x).disp = c.disp := rfl
@[simp] theorem setBox_ctl : (c.setBox m x).ctl = c.ctl := rfl
@[simp] theorem setBox_fbk : (c.setBox m x).fbk = c.fbk := rfl
@[simp] theorem setBox_start : (c.setBox m x).start = c.start := rfl
@[simp] theorem setBox_dok : (c.setBox m x).dok = c.dok := rfl
@[simp] theorem setBox_cnv : (c.setBox m x).cnv = c.cnv := rfl
@[simp] theorem setBox_clk : (c.setBox m x).clk = c.clk := rfl
@[simp] theorem setBox_stu : (c.setBox m x).stu = c.stu := rfl
@[simp] theorem setBox_lgr : (c.setBox m x).lgr = c.lgr := rfl
@[simp] theorem setBox_bist : (c.setBox m x).bist = c.bist := rfl
@[simp] theorem setBox_pwr : (c.setBox m x).pwr = c.pwr := rfl
@[simp] theorem setBox_sec : (c.setBox m x).sec = c.sec := rfl
@[simp] theorem setBox_dbg : (c.setBox m x).dbg = c.dbg := rfl
@[simp] theorem setBox_pair : (c.setBox m x).pair = c.pair := rfl
@[simp] theorem reg_setBox (j : Nat) : (c.setBox m x).reg j = c.reg j := rfl
@[simp] theorem lane_setBox (j : Nat) : (c.setBox m x).lane j = c.lane j := rfl
@[simp] theorem cell_setBox (j : Nat) : (c.setBox m x).cell j = c.cell j := rfl
@[simp] theorem hb_setBox (j : Nat) : (c.setBox m x).hb j = c.hb j := rfl
@[simp] theorem tch_setBox (j : Nat) : (c.setBox m x).tch j = c.tch j := rfl
@[simp] theorem cfgRec_setBox (j : Nat) : (c.setBox m x).cfgRec j = c.cfgRec j := rfl
end

section
variable (c : Machine.Core) (n : Nat) (x : Tch)
@[simp] theorem setTch_now : (c.setTch n x).now = c.now := rfl
@[simp] theorem setTch_free : (c.setTch n x).free = c.free := rfl
@[simp] theorem setTch_regs : (c.setTch n x).regs = c.regs := rfl
@[simp] theorem setTch_evSet : (c.setTch n x).evSet = c.evSet := rfl
@[simp] theorem setTch_gateRegs : (c.setTch n x).gateRegs = c.gateRegs := rfl
@[simp] theorem setTch_latch : (c.setTch n x).latch = c.latch := rfl
@[simp] theorem setTch_memOps : (c.setTch n x).memOps = c.memOps := rfl
@[simp] theorem setTch_cfg : (c.setTch n x).cfg = c.cfg := rfl
@[simp] theorem setTch_inForce : (c.setTch n x).inForce = c.inForce := rfl
@[simp] theorem setTch_shadow : (c.setTch n x).shadow = c.shadow := rfl
@[simp] theorem setTch_mode : (c.setTch n x).mode = c.mode := rfl
@[simp] theorem setTch_cells : (c.setTch n x).cells = c.cells := rfl
@[simp] theorem setTch_grid : (c.setTch n x).grid = c.grid := rfl
@[simp] theorem setTch_lanes : (c.setTch n x).lanes = c.lanes := rfl
@[simp] theorem setTch_hbs : (c.setTch n x).hbs = c.hbs := rfl
@[simp] theorem setTch_prt : (c.setTch n x).prt = c.prt := rfl
@[simp] theorem setTch_saf : (c.setTch n x).saf = c.saf := rfl
@[simp] theorem setTch_mbx : (c.setTch n x).mbx = c.mbx := rfl
@[simp] theorem setTch_tlm : (c.setTch n x).tlm = c.tlm := rfl
@[simp] theorem setTch_map : (c.setTch n x).map = c.map := rfl
@[simp] theorem setTch_disp : (c.setTch n x).disp = c.disp := rfl
@[simp] theorem setTch_ctl : (c.setTch n x).ctl = c.ctl := rfl
@[simp] theorem setTch_fbk : (c.setTch n x).fbk = c.fbk := rfl
@[simp] theorem setTch_start : (c.setTch n x).start = c.start := rfl
@[simp] theorem setTch_dok : (c.setTch n x).dok = c.dok := rfl
@[simp] theorem setTch_cnv : (c.setTch n x).cnv = c.cnv := rfl
@[simp] theorem setTch_clk : (c.setTch n x).clk = c.clk := rfl
@[simp] theorem setTch_stu : (c.setTch n x).stu = c.stu := rfl
@[simp] theorem setTch_lgr : (c.setTch n x).lgr = c.lgr := rfl
@[simp] theorem setTch_bist : (c.setTch n x).bist = c.bist := rfl
@[simp] theorem setTch_pwr : (c.setTch n x).pwr = c.pwr := rfl
@[simp] theorem setTch_sec : (c.setTch n x).sec = c.sec := rfl
@[simp] theorem setTch_dbg : (c.setTch n x).dbg = c.dbg := rfl
@[simp] theorem setTch_pair : (c.setTch n x).pair = c.pair := rfl
@[simp] theorem reg_setTch (j : Nat) : (c.setTch n x).reg j = c.reg j := rfl
@[simp] theorem lane_setTch (j : Nat) : (c.setTch n x).lane j = c.lane j := rfl
@[simp] theorem cell_setTch (j : Nat) : (c.setTch n x).cell j = c.cell j := rfl
@[simp] theorem hb_setTch (j : Nat) : (c.setTch n x).hb j = c.hb j := rfl
@[simp] theorem box_setTch (j : Nat) : (c.setTch n x).box j = c.box j := rfl
@[simp] theorem cfgRec_setTch (j : Nat) : (c.setTch n x).cfgRec j = c.cfgRec j := rfl
end

section
variable (c : Machine.Core) (a : Nat) (b : List Byte)
@[simp] theorem writeMem_now : (c.writeMem a b).now = c.now := rfl
@[simp] theorem writeMem_free : (c.writeMem a b).free = c.free := rfl
@[simp] theorem writeMem_regs : (c.writeMem a b).regs = c.regs := rfl
@[simp] theorem writeMem_evSet : (c.writeMem a b).evSet = c.evSet := rfl
@[simp] theorem writeMem_gateRegs : (c.writeMem a b).gateRegs = c.gateRegs := rfl
@[simp] theorem writeMem_latch : (c.writeMem a b).latch = c.latch := rfl
@[simp] theorem writeMem_cfg : (c.writeMem a b).cfg = c.cfg := rfl
@[simp] theorem writeMem_inForce : (c.writeMem a b).inForce = c.inForce := rfl
@[simp] theorem writeMem_shadow : (c.writeMem a b).shadow = c.shadow := rfl
@[simp] theorem writeMem_mode : (c.writeMem a b).mode = c.mode := rfl
@[simp] theorem writeMem_cells : (c.writeMem a b).cells = c.cells := rfl
@[simp] theorem writeMem_grid : (c.writeMem a b).grid = c.grid := rfl
@[simp] theorem writeMem_lanes : (c.writeMem a b).lanes = c.lanes := rfl
@[simp] theorem writeMem_hbs : (c.writeMem a b).hbs = c.hbs := rfl
@[simp] theorem writeMem_prt : (c.writeMem a b).prt = c.prt := rfl
@[simp] theorem writeMem_saf : (c.writeMem a b).saf = c.saf := rfl
@[simp] theorem writeMem_modu : (c.writeMem a b).modu = c.modu := rfl
@[simp] theorem writeMem_mbx : (c.writeMem a b).mbx = c.mbx := rfl
@[simp] theorem writeMem_tlm : (c.writeMem a b).tlm = c.tlm := rfl
@[simp] theorem writeMem_map : (c.writeMem a b).map = c.map := rfl
@[simp] theorem writeMem_disp : (c.writeMem a b).disp = c.disp := rfl
@[simp] theorem writeMem_ctl : (c.writeMem a b).ctl = c.ctl := rfl
@[simp] theorem writeMem_fbk : (c.writeMem a b).fbk = c.fbk := rfl
@[simp] theorem writeMem_start : (c.writeMem a b).start = c.start := rfl
@[simp] theorem writeMem_dok : (c.writeMem a b).dok = c.dok := rfl
@[simp] theorem writeMem_cnv : (c.writeMem a b).cnv = c.cnv := rfl
@[simp] theorem writeMem_clk : (c.writeMem a b).clk = c.clk := rfl
@[simp] theorem writeMem_stu : (c.writeMem a b).stu = c.stu := rfl
@[simp] theorem writeMem_lgr : (c.writeMem a b).lgr = c.lgr := rfl
@[simp] theorem writeMem_bist : (c.writeMem a b).bist = c.bist := rfl
@[simp] theorem writeMem_pwr : (c.writeMem a b).pwr = c.pwr := rfl
@[simp] theorem writeMem_sec : (c.writeMem a b).sec = c.sec := rfl
@[simp] theorem writeMem_dbg : (c.writeMem a b).dbg = c.dbg := rfl
@[simp] theorem writeMem_pair : (c.writeMem a b).pair = c.pair := rfl
@[simp] theorem reg_writeMem (j : Nat) : (c.writeMem a b).reg j = c.reg j := rfl
@[simp] theorem lane_writeMem (j : Nat) : (c.writeMem a b).lane j = c.lane j := rfl
@[simp] theorem cell_writeMem (j : Nat) : (c.writeMem a b).cell j = c.cell j := rfl
@[simp] theorem hb_writeMem (j : Nat) : (c.writeMem a b).hb j = c.hb j := rfl
@[simp] theorem box_writeMem (j : Nat) : (c.writeMem a b).box j = c.box j := rfl
@[simp] theorem tch_writeMem (j : Nat) : (c.writeMem a b).tch j = c.tch j := rfl
@[simp] theorem cfgRec_writeMem (j : Nat) : (c.writeMem a b).cfgRec j = c.cfgRec j := rfl
end

section
variable (c : Machine.Core) (lo hi : Nat)
@[simp] theorem clearMem_now : (c.clearMem lo hi).now = c.now := rfl
@[simp] theorem clearMem_free : (c.clearMem lo hi).free = c.free := rfl
@[simp] theorem clearMem_regs : (c.clearMem lo hi).regs = c.regs := rfl
@[simp] theorem clearMem_evSet : (c.clearMem lo hi).evSet = c.evSet := rfl
@[simp] theorem clearMem_gateRegs : (c.clearMem lo hi).gateRegs = c.gateRegs := rfl
@[simp] theorem clearMem_latch : (c.clearMem lo hi).latch = c.latch := rfl
@[simp] theorem clearMem_cfg : (c.clearMem lo hi).cfg = c.cfg := rfl
@[simp] theorem clearMem_inForce : (c.clearMem lo hi).inForce = c.inForce := rfl
@[simp] theorem clearMem_shadow : (c.clearMem lo hi).shadow = c.shadow := rfl
@[simp] theorem clearMem_mode : (c.clearMem lo hi).mode = c.mode := rfl
@[simp] theorem clearMem_cells : (c.clearMem lo hi).cells = c.cells := rfl
@[simp] theorem clearMem_grid : (c.clearMem lo hi).grid = c.grid := rfl
@[simp] theorem clearMem_lanes : (c.clearMem lo hi).lanes = c.lanes := rfl
@[simp] theorem clearMem_hbs : (c.clearMem lo hi).hbs = c.hbs := rfl
@[simp] theorem clearMem_prt : (c.clearMem lo hi).prt = c.prt := rfl
@[simp] theorem clearMem_saf : (c.clearMem lo hi).saf = c.saf := rfl
@[simp] theorem clearMem_modu : (c.clearMem lo hi).modu = c.modu := rfl
@[simp] theorem clearMem_mbx : (c.clearMem lo hi).mbx = c.mbx := rfl
@[simp] theorem clearMem_tlm : (c.clearMem lo hi).tlm = c.tlm := rfl
@[simp] theorem clearMem_map : (c.clearMem lo hi).map = c.map := rfl
@[simp] theorem clearMem_disp : (c.clearMem lo hi).disp = c.disp := rfl
@[simp] theorem clearMem_ctl : (c.clearMem lo hi).ctl = c.ctl := rfl
@[simp] theorem clearMem_fbk : (c.clearMem lo hi).fbk = c.fbk := rfl
@[simp] theorem clearMem_start : (c.clearMem lo hi).start = c.start := rfl
@[simp] theorem clearMem_dok : (c.clearMem lo hi).dok = c.dok := rfl
@[simp] theorem clearMem_cnv : (c.clearMem lo hi).cnv = c.cnv := rfl
@[simp] theorem clearMem_clk : (c.clearMem lo hi).clk = c.clk := rfl
@[simp] theorem clearMem_stu : (c.clearMem lo hi).stu = c.stu := rfl
@[simp] theorem clearMem_lgr : (c.clearMem lo hi).lgr = c.lgr := rfl
@[simp] theorem clearMem_bist : (c.clearMem lo hi).bist = c.bist := rfl
@[simp] theorem clearMem_pwr : (c.clearMem lo hi).pwr = c.pwr := rfl
@[simp] theorem clearMem_sec : (c.clearMem lo hi).sec = c.sec := rfl
@[simp] theorem clearMem_dbg : (c.clearMem lo hi).dbg = c.dbg := rfl
@[simp] theorem clearMem_pair : (c.clearMem lo hi).pair = c.pair := rfl
@[simp] theorem reg_clearMem (j : Nat) : (c.clearMem lo hi).reg j = c.reg j := rfl
@[simp] theorem lane_clearMem (j : Nat) : (c.clearMem lo hi).lane j = c.lane j := rfl
@[simp] theorem cell_clearMem (j : Nat) : (c.clearMem lo hi).cell j = c.cell j := rfl
@[simp] theorem hb_clearMem (j : Nat) : (c.clearMem lo hi).hb j = c.hb j := rfl
@[simp] theorem box_clearMem (j : Nat) : (c.clearMem lo hi).box j = c.box j := rfl
@[simp] theorem tch_clearMem (j : Nat) : (c.clearMem lo hi).tch j = c.tch j := rfl
@[simp] theorem cfgRec_clearMem (j : Nat) : (c.clearMem lo hi).cfgRec j = c.cfgRec j := rfl
end

section
variable (c : Machine.Core) (m : TxMsg)
@[simp] theorem send_now : (c.send m).now = c.now := by unfold Machine.Core.send; split <;> rfl
@[simp] theorem send_free : (c.send m).free = c.free := by unfold Machine.Core.send; split <;> rfl
@[simp] theorem send_regs : (c.send m).regs = c.regs := by unfold Machine.Core.send; split <;> rfl
@[simp] theorem send_evSet : (c.send m).evSet = c.evSet := by unfold Machine.Core.send; split <;> rfl
@[simp] theorem send_gateRegs : (c.send m).gateRegs = c.gateRegs := by unfold Machine.Core.send; split <;> rfl
@[simp] theorem send_latch : (c.send m).latch = c.latch := by unfold Machine.Core.send; split <;> rfl
@[simp] theorem send_memOps : (c.send m).memOps = c.memOps := by unfold Machine.Core.send; split <;> rfl
@[simp] theorem send_cfg : (c.send m).cfg = c.cfg := by unfold Machine.Core.send; split <;> rfl
@[simp] theorem send_inForce : (c.send m).inForce = c.inForce := by unfold Machine.Core.send; split <;> rfl
@[simp] theorem send_shadow : (c.send m).shadow = c.shadow := by unfold Machine.Core.send; split <;> rfl
@[simp] theorem send_mode : (c.send m).mode = c.mode := by unfold Machine.Core.send; split <;> rfl
@[simp] theorem send_cells : (c.send m).cells = c.cells := by unfold Machine.Core.send; split <;> rfl
@[simp] theorem send_grid : (c.send m).grid = c.grid := by unfold Machine.Core.send; split <;> rfl
@[simp] theorem send_lanes : (c.send m).lanes = c.lanes := by unfold Machine.Core.send; split <;> rfl
@[simp] theorem send_hbs : (c.send m).hbs = c.hbs := by unfold Machine.Core.send; split <;> rfl
@[simp] theorem send_prt : (c.send m).prt = c.prt := by unfold Machine.Core.send; split <;> rfl
@[simp] theorem send_saf : (c.send m).saf = c.saf := by unfold Machine.Core.send; split <;> rfl
@[simp] theorem send_modu : (c.send m).modu = c.modu := by unfold Machine.Core.send; split <;> rfl
@[simp] theorem send_tlm : (c.send m).tlm = c.tlm := by unfold Machine.Core.send; split <;> rfl
@[simp] theorem send_map : (c.send m).map = c.map := by unfold Machine.Core.send; split <;> rfl
@[simp] theorem send_disp : (c.send m).disp = c.disp := by unfold Machine.Core.send; split <;> rfl
@[simp] theorem send_ctl : (c.send m).ctl = c.ctl := by unfold Machine.Core.send; split <;> rfl
@[simp] theorem send_fbk : (c.send m).fbk = c.fbk := by unfold Machine.Core.send; split <;> rfl
@[simp] theorem send_start : (c.send m).start = c.start := by unfold Machine.Core.send; split <;> rfl
@[simp] theorem send_dok : (c.send m).dok = c.dok := by unfold Machine.Core.send; split <;> rfl
@[simp] theorem send_cnv : (c.send m).cnv = c.cnv := by unfold Machine.Core.send; split <;> rfl
@[simp] theorem send_clk : (c.send m).clk = c.clk := by unfold Machine.Core.send; split <;> rfl
@[simp] theorem send_stu : (c.send m).stu = c.stu := by unfold Machine.Core.send; split <;> rfl
@[simp] theorem send_lgr : (c.send m).lgr = c.lgr := by unfold Machine.Core.send; split <;> rfl
@[simp] theorem send_bist : (c.send m).bist = c.bist := by unfold Machine.Core.send; split <;> rfl
@[simp] theorem send_pwr : (c.send m).pwr = c.pwr := by unfold Machine.Core.send; split <;> rfl
@[simp] theorem send_sec : (c.send m).sec = c.sec := by unfold Machine.Core.send; split <;> rfl
@[simp] theorem send_dbg : (c.send m).dbg = c.dbg := by unfold Machine.Core.send; split <;> rfl
@[simp] theorem send_pair : (c.send m).pair = c.pair := by unfold Machine.Core.send; split <;> rfl
@[simp] theorem reg_send (j : Nat) : (c.send m).reg j = c.reg j := by unfold Machine.Core.send; split <;> rfl
@[simp] theorem lane_send (j : Nat) : (c.send m).lane j = c.lane j := by unfold Machine.Core.send; split <;> rfl
@[simp] theorem cell_send (j : Nat) : (c.send m).cell j = c.cell j := by unfold Machine.Core.send; split <;> rfl
@[simp] theorem hb_send (j : Nat) : (c.send m).hb j = c.hb j := by unfold Machine.Core.send; split <;> rfl
@[simp] theorem box_send (j : Nat) : (c.send m).box j = c.box j := by unfold Machine.Core.send; split <;> rfl
@[simp] theorem tch_send (j : Nat) : (c.send m).tch j = c.tch j := by unfold Machine.Core.send; split <;> rfl
@[simp] theorem cfgRec_send (j : Nat) : (c.send m).cfgRec j = c.cfgRec j := by unfold Machine.Core.send; split <;> rfl
end

section
variable (c : Machine.Core) (op : Nat) (r : CfgRec)
@[simp] theorem setCfg_now : (c.setCfg op r).now = c.now := rfl
@[simp] theorem setCfg_free : (c.setCfg op r).free = c.free := rfl
@[simp] theorem setCfg_regs : (c.setCfg op r).regs = c.regs := rfl
@[simp] theorem setCfg_evSet : (c.setCfg op r).evSet = c.evSet := rfl
@[simp] theorem setCfg_gateRegs : (c.setCfg op r).gateRegs = c.gateRegs := rfl
@[simp] theorem setCfg_latch : (c.setCfg op r).latch = c.latch := rfl
@[simp] theorem setCfg_memOps : (c.setCfg op r).memOps = c.memOps := rfl
@[simp] theorem setCfg_inForce : (c.setCfg op r).inForce = c.inForce := rfl
@[simp] theorem setCfg_shadow : (c.setCfg op r).shadow = c.shadow := rfl
@[simp] theorem setCfg_mode : (c.setCfg op r).mode = c.mode := rfl
@[simp] theorem setCfg_cells : (c.setCfg op r).cells = c.cells := rfl
@[simp] theorem setCfg_grid : (c.setCfg op r).grid = c.grid := rfl
@[simp] theorem setCfg_lanes : (c.setCfg op r).lanes = c.lanes := rfl
@[simp] theorem setCfg_hbs : (c.setCfg op r).hbs = c.hbs := rfl
@[simp] theorem setCfg_prt : (c.setCfg op r).prt = c.prt := rfl
@[simp] theorem setCfg_saf : (c.setCfg op r).saf = c.saf := rfl
@[simp] theorem setCfg_modu : (c.setCfg op r).modu = c.modu := rfl
@[simp] theorem setCfg_mbx : (c.setCfg op r).mbx = c.mbx := rfl
@[simp] theorem setCfg_tlm : (c.setCfg op r).tlm = c.tlm := rfl
@[simp] theorem setCfg_map : (c.setCfg op r).map = c.map := rfl
@[simp] theorem setCfg_disp : (c.setCfg op r).disp = c.disp := rfl
@[simp] theorem setCfg_ctl : (c.setCfg op r).ctl = c.ctl := rfl
@[simp] theorem setCfg_fbk : (c.setCfg op r).fbk = c.fbk := rfl
@[simp] theorem setCfg_start : (c.setCfg op r).start = c.start := rfl
@[simp] theorem setCfg_dok : (c.setCfg op r).dok = c.dok := rfl
@[simp] theorem setCfg_cnv : (c.setCfg op r).cnv = c.cnv := rfl
@[simp] theorem setCfg_clk : (c.setCfg op r).clk = c.clk := rfl
@[simp] theorem setCfg_stu : (c.setCfg op r).stu = c.stu := rfl
@[simp] theorem setCfg_lgr : (c.setCfg op r).lgr = c.lgr := rfl
@[simp] theorem setCfg_bist : (c.setCfg op r).bist = c.bist := rfl
@[simp] theorem setCfg_pwr : (c.setCfg op r).pwr = c.pwr := rfl
@[simp] theorem setCfg_sec : (c.setCfg op r).sec = c.sec := rfl
@[simp] theorem setCfg_dbg : (c.setCfg op r).dbg = c.dbg := rfl
@[simp] theorem setCfg_pair : (c.setCfg op r).pair = c.pair := rfl
@[simp] theorem reg_setCfg (j : Nat) : (c.setCfg op r).reg j = c.reg j := rfl
@[simp] theorem lane_setCfg (j : Nat) : (c.setCfg op r).lane j = c.lane j := rfl
@[simp] theorem cell_setCfg (j : Nat) : (c.setCfg op r).cell j = c.cell j := rfl
@[simp] theorem hb_setCfg (j : Nat) : (c.setCfg op r).hb j = c.hb j := rfl
@[simp] theorem box_setCfg (j : Nat) : (c.setCfg op r).box j = c.box j := rfl
@[simp] theorem tch_setCfg (j : Nat) : (c.setCfg op r).tch j = c.tch j := rfl
end

section
variable (c : Machine.Core) (o : ShadowOp)
@[simp] theorem addShadow_now : (c.addShadow o).now = c.now := rfl
@[simp] theorem addShadow_free : (c.addShadow o).free = c.free := rfl
@[simp] theorem addShadow_regs : (c.addShadow o).regs = c.regs := rfl
@[simp] theorem addShadow_evSet : (c.addShadow o).evSet = c.evSet := rfl
@[simp] theorem addShadow_gateRegs : (c.addShadow o).gateRegs = c.gateRegs := rfl
@[simp] theorem addShadow_latch : (c.addShadow o).latch = c.latch := rfl
@[simp] theorem addShadow_memOps : (c.addShadow o).memOps = c.memOps := rfl
@[simp] theorem addShadow_cfg : (c.addShadow o).cfg = c.cfg := rfl
@[simp] theorem addShadow_inForce : (c.addShadow o).inForce = c.inForce := rfl
@[simp] theorem addShadow_mode : (c.addShadow o).mode = c.mode := rfl
@[simp] theorem addShadow_cells : (c.addShadow o).cells = c.cells := rfl
@[simp] theorem addShadow_grid : (c.addShadow o).grid = c.grid := rfl
@[simp] theorem addShadow_lanes : (c.addShadow o).lanes = c.lanes := rfl
@[simp] theorem addShadow_hbs : (c.addShadow o).hbs = c.hbs := rfl
@[simp] theorem addShadow_prt : (c.addShadow o).prt = c.prt := rfl
@[simp] theorem addShadow_saf : (c.addShadow o).saf = c.saf := rfl
@[simp] theorem addShadow_modu : (c.addShadow o).modu = c.modu := rfl
@[simp] theorem addShadow_mbx : (c.addShadow o).mbx = c.mbx := rfl
@[simp] theorem addShadow_tlm : (c.addShadow o).tlm = c.tlm := rfl
@[simp] theorem addShadow_map : (c.addShadow o).map = c.map := rfl
@[simp] theorem addShadow_disp : (c.addShadow o).disp = c.disp := rfl
@[simp] theorem addShadow_ctl : (c.addShadow o).ctl = c.ctl := rfl
@[simp] theorem addShadow_fbk : (c.addShadow o).fbk = c.fbk := rfl
@[simp] theorem addShadow_start : (c.addShadow o).start = c.start := rfl
@[simp] theorem addShadow_dok : (c.addShadow o).dok = c.dok := rfl
@[simp] theorem addShadow_cnv : (c.addShadow o).cnv = c.cnv := rfl
@[simp] theorem addShadow_clk : (c.addShadow o).clk = c.clk := rfl
@[simp] theorem addShadow_stu : (c.addShadow o).stu = c.stu := rfl
@[simp] theorem addShadow_lgr : (c.addShadow o).lgr = c.lgr := rfl
@[simp] theorem addShadow_bist : (c.addShadow o).bist = c.bist := rfl
@[simp] theorem addShadow_pwr : (c.addShadow o).pwr = c.pwr := rfl
@[simp] theorem addShadow_sec : (c.addShadow o).sec = c.sec := rfl
@[simp] theorem addShadow_dbg : (c.addShadow o).dbg = c.dbg := rfl
@[simp] theorem addShadow_pair : (c.addShadow o).pair = c.pair := rfl
@[simp] theorem reg_addShadow (j : Nat) : (c.addShadow o).reg j = c.reg j := rfl
@[simp] theorem lane_addShadow (j : Nat) : (c.addShadow o).lane j = c.lane j := rfl
@[simp] theorem cell_addShadow (j : Nat) : (c.addShadow o).cell j = c.cell j := rfl
@[simp] theorem hb_addShadow (j : Nat) : (c.addShadow o).hb j = c.hb j := rfl
@[simp] theorem box_addShadow (j : Nat) : (c.addShadow o).box j = c.box j := rfl
@[simp] theorem tch_addShadow (j : Nat) : (c.addShadow o).tch j = c.tch j := rfl
@[simp] theorem cfgRec_addShadow (j : Nat) : (c.addShadow o).cfgRec j = c.cfgRec j := rfl
end

section
variable (c : Machine.Core)
@[simp] theorem fresh_now : (c.fresh).now = c.now := rfl
@[simp] theorem fresh_regs : (c.fresh).regs = c.regs := rfl
@[simp] theorem fresh_evSet : (c.fresh).evSet = c.evSet := rfl
@[simp] theorem fresh_gateRegs : (c.fresh).gateRegs = c.gateRegs := rfl
@[simp] theorem fresh_latch : (c.fresh).latch = c.latch := rfl
@[simp] theorem fresh_memOps : (c.fresh).memOps = c.memOps := rfl
@[simp] theorem fresh_cfg : (c.fresh).cfg = c.cfg := rfl
@[simp] theorem fresh_inForce : (c.fresh).inForce = c.inForce := rfl
@[simp] theorem fresh_shadow : (c.fresh).shadow = c.shadow := rfl
@[simp] theorem fresh_mode : (c.fresh).mode = c.mode := rfl
@[simp] theorem fresh_cells : (c.fresh).cells = c.cells := rfl
@[simp] theorem fresh_grid : (c.fresh).grid = c.grid := rfl
@[simp] theorem fresh_lanes : (c.fresh).lanes = c.lanes := rfl
@[simp] theorem fresh_hbs : (c.fresh).hbs = c.hbs := rfl
@[simp] theorem fresh_prt : (c.fresh).prt = c.prt := rfl
@[simp] theorem fresh_saf : (c.fresh).saf = c.saf := rfl
@[simp] theorem fresh_modu : (c.fresh).modu = c.modu := rfl
@[simp] theorem fresh_mbx : (c.fresh).mbx = c.mbx := rfl
@[simp] theorem fresh_tlm : (c.fresh).tlm = c.tlm := rfl
@[simp] theorem fresh_map : (c.fresh).map = c.map := rfl
@[simp] theorem fresh_disp : (c.fresh).disp = c.disp := rfl
@[simp] theorem fresh_ctl : (c.fresh).ctl = c.ctl := rfl
@[simp] theorem fresh_fbk : (c.fresh).fbk = c.fbk := rfl
@[simp] theorem fresh_start : (c.fresh).start = c.start := rfl
@[simp] theorem fresh_dok : (c.fresh).dok = c.dok := rfl
@[simp] theorem fresh_cnv : (c.fresh).cnv = c.cnv := rfl
@[simp] theorem fresh_clk : (c.fresh).clk = c.clk := rfl
@[simp] theorem fresh_stu : (c.fresh).stu = c.stu := rfl
@[simp] theorem fresh_lgr : (c.fresh).lgr = c.lgr := rfl
@[simp] theorem fresh_bist : (c.fresh).bist = c.bist := rfl
@[simp] theorem fresh_pwr : (c.fresh).pwr = c.pwr := rfl
@[simp] theorem fresh_sec : (c.fresh).sec = c.sec := rfl
@[simp] theorem fresh_dbg : (c.fresh).dbg = c.dbg := rfl
@[simp] theorem fresh_pair : (c.fresh).pair = c.pair := rfl
@[simp] theorem reg_fresh (j : Nat) : (c.fresh).reg j = c.reg j := rfl
@[simp] theorem lane_fresh (j : Nat) : (c.fresh).lane j = c.lane j := rfl
@[simp] theorem cell_fresh (j : Nat) : (c.fresh).cell j = c.cell j := rfl
@[simp] theorem hb_fresh (j : Nat) : (c.fresh).hb j = c.hb j := rfl
@[simp] theorem box_fresh (j : Nat) : (c.fresh).box j = c.box j := rfl
@[simp] theorem tch_fresh (j : Nat) : (c.fresh).tch j = c.tch j := rfl
@[simp] theorem cfgRec_fresh (j : Nat) : (c.fresh).cfgRec j = c.cfgRec j := rfl
end

/-! The field that an update is about. -/
variable (c : Machine.Core)

@[simp] theorem setReg_regs (a : Nat) (w : Word) : (c.setReg a w).regs = mapSet regReset c.regs a w := rfl
@[simp] theorem fresh_free : c.fresh.free = c.free + 1 := rfl
@[simp] theorem writeMem_memOps (a : Nat) (b : List Byte) : (c.writeMem a b).memOps = c.memOps ++ [.write a b] := rfl
@[simp] theorem clearMem_memOps (lo hi : Nat) : (c.clearMem lo hi).memOps = c.memOps ++ [.clear lo hi] := rfl
@[simp] theorem addShadow_shadow (o : ShadowOp) : (c.addShadow o).shadow = c.shadow ++ [o] := rfl
@[simp] theorem event_evSet (f : Field) :
    (c.event f).evSet = mapSet (fun _ => 0) c.evSet (32 * f.addr + f.lo) (c.now + 1) := rfl
theorem send_tx {m : TxMsg} (h : (canPort m.port && c.onBypass 9) = false) : (c.send m).mbx.tx = c.mbx.tx ++ [m] := by
  unfold Machine.Core.send
  rw [if_neg (by simp [h])]
@[simp] theorem send_boxes (m : TxMsg) : (c.send m).mbx.boxes = c.mbx.boxes := by
  unfold Machine.Core.send; split <;> rfl
@[simp] theorem setBox_tx (m : Nat) (x : Mbox) : (c.setBox m x).mbx.tx = c.mbx.tx := rfl

end Sys2Proof.Laws
end

