-- ==== Sys2Proof/Laws/Ops.lean ====
section
/-! SUPPORT. What the shared operations do, once for each: registers and their fields, how a command runs, memory, the alarm
table. -/
namespace Sys2Proof.Laws
open Sys2Proof.Machine

/-! ### Registers -/
section Registers
variable {c : Machine.Core} {f g : Field} {v : Nat}

theorem reg_setReg (a x : Nat) (w : Word) : (c.setReg a w).reg x = if x = a then w else c.reg x := by
  simp only [Machine.Core.reg, setReg_regs, mapGet_mapSet]

theorem reg_setReg_same (a : Nat) (w : Word) : (c.setReg a w).reg a = w := by simp [reg_setReg]

theorem reg_setReg_other {a x : Nat} {w : Word} (h : x ≠ a) : (c.setReg a w).reg x = c.reg x := by simp [reg_setReg, h]

theorem reg_setF_other {x : Nat} (h : x ≠ f.addr) : (c.setF f v).reg x = c.reg x := reg_setReg_other h

theorem reg_event_other {x : Nat} (h : x ≠ f.addr) : (c.event f).reg x = c.reg x := reg_setReg_other h

theorem reg_bump_other {x : Nat} (h : x ≠ f.addr) : (c.bump f v).reg x = c.reg x := reg_setReg_other h

theorem reg_setFlag_other {x : Nat} {b : Bool} (h : x ≠ f.addr) : (c.setFlag f b).reg x = c.reg x := reg_setReg_other h

theorem reg_setI_other {x : Nat} {i : Int} (h : x ≠ f.addr) : (c.setI f i).reg x = c.reg x := reg_setReg_other h

theorem reg_putBit_other {x i : Nat} {b : Bool} (h : x ≠ f.addr) : (c.putBit f i b).reg x = c.reg x := reg_setReg_other h

/-! Bits of a word with a field replaced. -/

theorem putBits_lt {w lo len : Nat} (hw : w < 2 ^ 32) (h : lo + len ≤ 32) : putBits w lo len v < 2 ^ 32 := by
  obtain ⟨k, hk⟩ := Nat.le.dest h
  have h1 : w % 2 ^ lo < 2 ^ lo := Nat.mod_lt _ (Nat.two_pow_pos _)
  have h2 : v % 2 ^ len + 1 ≤ 2 ^ len := Nat.mod_lt _ (Nat.two_pow_pos _)
  have hp : 2 ^ 32 = 2 ^ (lo + len) * 2 ^ k := by rw [← pow_add, hk]
  have h3 : w / 2 ^ (lo + len) + 1 ≤ 2 ^ k := Nat.div_lt_of_lt_mul (hp ▸ hw)
  have h4 : (v % 2 ^ len + 1) * 2 ^ lo ≤ 2 ^ len * 2 ^ lo := Nat.mul_le_mul_right _ h2
  have h5 : (w / 2 ^ (lo + len) + 1) * 2 ^ (lo + len) ≤ 2 ^ k * 2 ^ (lo + len) := Nat.mul_le_mul_right _ h3
  have e1 : 2 ^ len * 2 ^ lo = 2 ^ (lo + len) := by rw [← pow_add, Nat.add_comm]
  have e2 : 2 ^ k * 2 ^ (lo + len) = 2 ^ 32 := by rw [hp, Nat.mul_comm]
  rw [Nat.add_mul, Nat.one_mul] at h4 h5
  unfold putBits
  omega

theorem putBits_eq (w lo len : Nat) :
    putBits w lo len v = w % 2 ^ lo + 2 ^ lo * (v % 2 ^ len + 2 ^ len * (w / 2 ^ (lo + len))) := by
  unfold putBits
  rw [pow_add]
  ring

theorem bitsOf_putBits_same (w lo len : Nat) : bitsOf (putBits w lo len v) lo len = v % 2 ^ len := by
  rw [putBits_eq]
  unfold bitsOf
  rw [Nat.add_mul_div_left _ _ (Nat.two_pow_pos _), Nat.div_eq_of_lt (Nat.mod_lt _ (Nat.two_pow_pos _)), Nat.zero_add,
    Nat.add_mul_mod_self_left, Nat.mod_mod]

theorem bitsOf_putBits_below {w lo len l2 n2 : Nat} (h : l2 + n2 ≤ lo) :
    bitsOf (putBits w lo len v) l2 n2 = bitsOf w l2 n2 := by
  obtain ⟨k, rfl⟩ := Nat.le.dest h
  have key : ∀ x y : Nat, (x % 2 ^ (l2 + n2 + k) + 2 ^ (l2 + n2 + k) * y) / 2 ^ l2 % 2 ^ n2 = x / 2 ^ l2 % 2 ^ n2 := by
    intro x y
    have e : 2 ^ (l2 + n2 + k) * y = 2 ^ l2 * (2 ^ n2 * (2 ^ k * y)) := by rw [pow_add, pow_add]; ring
    have e2 : x % 2 ^ (l2 + n2 + k) / 2 ^ l2 = x / 2 ^ l2 % 2 ^ (n2 + k) := by
      rw [Nat.add_assoc, pow_add, Nat.mod_mul_right_div_self]
    rw [e, Nat.add_mul_div_left _ _ (Nat.two_pow_pos _), Nat.add_mul_mod_self_left, e2, pow_add, Nat.mod_mul_right_mod]
  rw [putBits_eq]
  exact key _ _

theorem bitsOf_putBits_above {w lo len l2 n2 : Nat} (h : lo + len ≤ l2) :
    bitsOf (putBits w lo len v) l2 n2 = bitsOf w l2 n2 := by
  obtain ⟨k, rfl⟩ := Nat.le.dest h
  have e : putBits w lo len v / 2 ^ (lo + len) = w / 2 ^ (lo + len) := by
    rw [putBits_eq, pow_add, ← Nat.div_div_eq_div_mul, Nat.add_mul_div_left _ _ (Nat.two_pow_pos _),
      Nat.div_eq_of_lt (Nat.mod_lt _ (Nat.two_pow_pos _)), Nat.zero_add, Nat.add_mul_div_left _ _ (Nat.two_pow_pos _),
      Nat.div_eq_of_lt (Nat.mod_lt _ (Nat.two_pow_pos _)), Nat.zero_add]
  unfold bitsOf
  rw [pow_add, ← Nat.div_div_eq_div_mul, ← Nat.div_div_eq_div_mul, e]

/-- The word of the register after one of its fields is set. -/
theorem toNat_reg_setF (h : f.lo + f.len ≤ 32) :
    ((c.setF f v).reg f.addr).toNat = putBits (c.reg f.addr).toNat f.lo f.len v := by
  unfold Machine.Core.setF
  rw [reg_setReg_same, BitVec.toNat_ofNat, Nat.mod_eq_of_lt]
  exact putBits_lt (c.reg f.addr).isLt h

/-- A field read after it is set. -/
theorem getF_setF_same (h : f.lo + f.len ≤ 32) : (c.setF f v).getF f = v % 2 ^ f.len := by
  unfold Machine.Core.getF
  rw [toNat_reg_setF h, bitsOf_putBits_same]

/-- A field of another register. -/
theorem getF_setF_other (h : g.addr ≠ f.addr) : (c.setF f v).getF g = c.getF g := by
  unfold Machine.Core.getF
  rw [reg_setF_other h]

/-- Another field of the same register. -/
theorem getF_setF_apart (h : f.lo + f.len ≤ 32) (ha : g.addr = f.addr) (hd : g.lo + g.len ≤ f.lo ∨ f.lo + f.len ≤ g.lo) :
    (c.setF f v).getF g = c.getF g := by
  unfold Machine.Core.getF
  rw [ha, toNat_reg_setF h]
  rcases hd with hd | hd
  · rw [bitsOf_putBits_below hd]
  · rw [bitsOf_putBits_above hd]

theorem reg_event {a : Nat} : (c.event f).reg a = (c.setF f 1).reg a := rfl

theorem getF_event_same (h : f.lo + f.len ≤ 32) (hn : f.len = 1) : (c.event f).getF f = 1 := by
  unfold Machine.Core.getF
  rw [reg_event]
  show (c.setF f 1).getF f = 1
  rw [getF_setF_same h, hn]
  rfl

theorem flag_event_same (h : f.lo + f.len ≤ 32) (hn : f.len = 1) : (c.event f).flag f = true := by
  simp [Machine.Core.flag, getF_event_same h hn]

theorem flag_setFlag_same {b : Bool} (h : f.lo + f.len ≤ 32) (hn : f.len = 1) : (c.setFlag f b).flag f = b := by
  unfold Machine.Core.flag Machine.Core.setFlag
  rw [getF_setF_same h, hn]
  cases b <;> rfl

theorem getF_setReg_other {a : Nat} {w : Word} (h : f.addr ≠ a) : (c.setReg a w).getF f = c.getF f := by
  unfold Machine.Core.getF
  rw [reg_setReg_other h]

end Registers

/-! ### Instances -/
section Instances
variable {c : Machine.Core}

theorem lane_setLane (n k : Nat) (x : Lane) : (c.setLane n x).lane k = if k = n then x else c.lane k := mapGet_mapSet
theorem cell_setCell (n k : Nat) (x : Cell) : (c.setCell n x).cell k = if k = n then x else c.cell k := mapGet_mapSet
theorem hb_setHb (n k : Nat) (x : Hb) : (c.setHb n x).hb k = if k = n then x else c.hb k := mapGet_mapSet
theorem box_setBox (n k : Nat) (x : Mbox) : (c.setBox n x).box k = if k = n then x else c.box k := mapGet_mapSet
theorem tch_setTch (n k : Nat) (x : Tch) : (c.setTch n x).tch k = if k = n then x else c.tch k := mapGet_mapSet
theorem cfgRec_setCfg (op k : Nat) (r : CfgRec) : (c.setCfg op r).cfgRec k = if k = op then r else c.cfgRec k := mapGet_mapSet

theorem lane_modLane (n k : Nat) (g : Lane → Lane) : (c.modLane n g).lane k = if k = n then g (c.lane n) else c.lane k :=
  mapGet_mapSet
theorem cell_modCell (n k : Nat) (g : Cell → Cell) : (c.modCell n g).cell k = if k = n then g (c.cell n) else c.cell k :=
  mapGet_mapSet
theorem hb_modHb (n k : Nat) (g : Hb → Hb) : (c.modHb n g).hb k = if k = n then g (c.hb n) else c.hb k := mapGet_mapSet

end Instances

/-! ### How a command runs -/
section Running
variable {f : Machine.Core → Memory → Machine.Core} {s : State}

@[simp] theorem go_eq : go f s = .next (run f s) := rfl
@[simp] theorem run_pending : (run f s).pending = s.pending := rfl
@[simp] theorem run_memOps : (run f s).core.memOps = [] := rfl

/-- The state a command starts from: nothing written yet, nothing sent yet. -/
def start (c : Machine.Core) : Machine.Core := { c with memOps := [], mbx := { c.mbx with tx := [] } }

theorem run_core : (run f s).core = { f (start s.core) s.mem with memOps := [] } := rfl
theorem run_mem : (run f s).mem = (f (start s.core) s.mem).memOps.foldl applyMemOp s.mem := rfl

/-- A command that writes nothing leaves memory as it was. -/
theorem run_mem_same (h : (f (start s.core) s.mem).memOps = []) : (run f s).mem = s.mem := by rw [run_mem, h]; rfl

theorem start_reg (c : Machine.Core) (a : Nat) : (start c).reg a = c.reg a := rfl
theorem start_getF (c : Machine.Core) (g : Field) : (start c).getF g = c.getF g := rfl

end Running

/-! ### Memory -/

/-- A write to memory keeps the canonical form. -/
theorem applyMemOp_wf {m : Memory} {o : MemOp} (h : Memory.wf m = true) : Memory.wf (applyMemOp m o) = true := by
  cases o with
  | write a b => exact mapSetAll_wf h
  | clear lo hi => exact mapClear_wf h

theorem foldl_applyMemOp_wf {m : Memory} (l : List MemOp) (h : Memory.wf m = true) :
    Memory.wf (l.foldl applyMemOp m) = true := by
  induction l generalizing m with
  | nil => exact h
  | cons o t ih => exact ih (applyMemOp_wf h)

/-- A command keeps the memory in its canonical form. -/
theorem run_wf {f : Machine.Core → Memory → Machine.Core} {s : State} (h : Memory.wf s.mem = true) :
    Memory.wf (run f s).mem = true := foldl_applyMemOp_wf _ h

/-- A byte outside the bytes written. -/
theorem mapGet_mapSetAll_out {α : Type} [DecidableEq α] {d : Nat → α} {m : SMap α} {k x : Nat} {l : List α}
    (h : x < k ∨ k + l.length ≤ x) : mapGet d (mapSetAll d m k l) x = mapGet d m x := by
  induction l generalizing m k with
  | nil => rfl
  | cons v t ih =>
    rw [mapSetAll, ih (by simp only [List.length_cons] at h; omega), mapGet_mapSet, if_neg]
    simp only [List.length_cons] at h
    omega

/-- A byte that was written. -/
theorem mapGet_mapSetAll_in {α : Type} [DecidableEq α] {d : Nat → α} {m : SMap α} {k i : Nat} {l : List α}
    (h : i < l.length) : mapGet d (mapSetAll d m k l) (k + i) = l[i] := by
  induction l generalizing m k i with
  | nil => exact absurd h (Nat.not_lt_zero _)
  | cons v t ih =>
    cases i with
    | zero =>
      rw [mapSetAll, mapGet_mapSetAll_out (Or.inl (by omega)), mapGet_mapSet, if_pos (by omega)]
      rfl
    | succ j =>
      have := ih (m := mapSet d m k v) (k := k + 1) (i := j) (by simpa using h)
      rw [mapSetAll, show k + (j + 1) = k + 1 + j by omega, this]
      rfl

/-- A byte outside what a write covers reads as before. -/
theorem readByte_write_out {m : Memory} {a x : Nat} {b : List Byte} (h : x < a ∨ a + b.length ≤ x) :
    readByte (applyMemOp m (.write a b)) x = readByte m x := by
  unfold readByte applyMemOp
  split
  · rfl
  · exact mapGet_mapSetAll_out h

/-! ### The event log and the alarm table -/
section Alarms
variable {c : Machine.Core} {nm : AlarmName} {inst : Nat} {data : List Nat} {present : Bool}

/-- The registers that the table and the log write. -/
def tlmReg (a : Nat) : Bool := [TLM_STATUS.a, TLM_EVENT.a, TLM_LOSS_AB.a, TLM_LOSS_CD.a].contains a

/-- Nothing but the telemetry state and its four registers (and the times of event sets) differs. -/
def OnlyTlm (c d : Machine.Core) : Prop :=
  { d with regs := c.regs, evSet := c.evSet, tlm := c.tlm } = c ∧ ∀ a, tlmReg a = false → d.reg a = c.reg a

theorem OnlyTlm.refl (c : Machine.Core) : OnlyTlm c c := ⟨rfl, fun _ _ => rfl⟩

theorem OnlyTlm.trans {c d e : Machine.Core} (h : OnlyTlm c d) (k : OnlyTlm d e) : OnlyTlm c e :=
  ⟨by rw [← h.1]; have := k.1; cases d; cases e; cases c; simp_all, fun a ha => (k.2 a ha).trans (h.2 a ha)⟩

theorem onlyTlm_setF {f : Field} {v : Nat} (h : tlmReg f.addr = true) : OnlyTlm c (c.setF f v) :=
  ⟨rfl, fun a ha => reg_setF_other (by rintro rfl; simp [h] at ha)⟩

theorem onlyTlm_event {f : Field} (h : tlmReg f.addr = true) : OnlyTlm c (c.event f) :=
  ⟨rfl, fun a ha => reg_event_other (by rintro rfl; simp [h] at ha)⟩

theorem onlyTlm_tlm (x : Tlm) : OnlyTlm c { c with tlm := x } := ⟨rfl, fun _ _ => rfl⟩

theorem tlmReg_lossField (k : Nat) : tlmReg (lossField k).addr = true := by
  unfold lossField
  split
  · rfl
  · split
    · rfl
    · split <;> rfl

/-- A log record writes the telemetry state and its registers only. -/
theorem onlyTlm_logRecord {code cls count : Nat} : OnlyTlm c (c.logRecord code cls inst count data) := by
  unfold Machine.Core.logRecord
  refine OnlyTlm.trans ?_ (onlyTlm_setF rfl)
  refine OnlyTlm.trans ?_ (onlyTlm_tlm _)
  split
  · exact OnlyTlm.trans (onlyTlm_setF (tlmReg_lossField _)) (onlyTlm_event rfl)
  · exact OnlyTlm.refl c

theorem onlyTlm_refreshAlarms : OnlyTlm c c.refreshAlarms := by
  unfold Machine.Core.refreshAlarms
  have h : OnlyTlm c ((c.setF TLM_STATUS.ALARMS c.tlm.alarms.length).setFlag TLM_STATUS.FOLDING
      (decide (448 ≤ keyedCount c.tlm.alarms))) := OnlyTlm.trans (onlyTlm_setF rfl) (onlyTlm_setF rfl)
  dsimp only
  split
  · exact h.trans (onlyTlm_tlm _)
  · exact h

theorem onlyTlm_logAlarm {a : Alarm} {n : Nat} : OnlyTlm c (c.logAlarm a n) := onlyTlm_logRecord

theorem onlyTlm_repeatAlarm {a : Alarm} : OnlyTlm c (c.repeatAlarm a inst data present) := by
  unfold Machine.Core.repeatAlarm
  dsimp only
  generalize replaceAlarm _ _ = l
  split
  · exact OnlyTlm.trans (onlyTlm_tlm _) onlyTlm_logAlarm
  · exact onlyTlm_tlm _

theorem onlyTlm_newAlarm {fold : Bool} {flags : List Nat} : OnlyTlm c (c.newAlarm nm inst fold data present flags) := by
  unfold Machine.Core.newAlarm
  exact OnlyTlm.trans (onlyTlm_tlm _) (OnlyTlm.trans onlyTlm_logAlarm onlyTlm_refreshAlarms)

theorem onlyTlm_raiseEntry : OnlyTlm c (c.raiseEntry nm inst data present) := by
  unfold Machine.Core.raiseEntry
  split
  · exact onlyTlm_repeatAlarm
  · split <;> exact onlyTlm_newAlarm

/-- The end of a cause writes the telemetry state and its registers only. -/
theorem onlyTlm_clearCause : OnlyTlm c (c.clearCause nm inst) := by
  unfold Machine.Core.clearCause
  split
  · exact OnlyTlm.refl c
  · dsimp only
    refine OnlyTlm.trans ?_ onlyTlm_refreshAlarms
    refine OnlyTlm.trans ?_ (onlyTlm_tlm _)
    split
    · exact OnlyTlm.refl c
    · exact onlyTlm_logAlarm

/-- Nothing but the telemetry state, its registers and MBX_EVENT (and the times of event sets) differs. -/
def OnlyAlarm (c d : Machine.Core) : Prop :=
  { d with regs := c.regs, evSet := c.evSet, tlm := c.tlm } = c ∧ ∀ a, tlmReg a = false → a ≠ MBX_EVENT.a → d.reg a = c.reg a

theorem OnlyTlm.toAlarm {c d : Machine.Core} (h : OnlyTlm c d) : OnlyAlarm c d := ⟨h.1, fun a ha _ => h.2 a ha⟩

theorem OnlyAlarm.trans {c d e : Machine.Core} (h : OnlyAlarm c d) (k : OnlyAlarm d e) : OnlyAlarm c e :=
  ⟨by rw [← h.1]; have := k.1; cases d; cases e; cases c; simp_all, fun a ha hb => (k.2 a ha hb).trans (h.2 a ha hb)⟩

/-- Raising an alarm writes the telemetry state, its registers and MBX_EVENT only. -/
theorem onlyAlarm_raise : OnlyAlarm c (c.raise nm inst data present) := by
  unfold Machine.Core.raise
  have e (d : Machine.Core) : OnlyAlarm d (d.event MBX_EVENT.ALARM) := ⟨rfl, fun a _ hb => reg_event_other hb⟩
  have h : OnlyAlarm c (if nm.cls = .c then c.raiseEntry nm inst (Machine.Core.raise.fit3 data) present
      else (c.raiseEntry nm inst (Machine.Core.raise.fit3 data) present).event MBX_EVENT.ALARM) := by
    split
    · exact onlyTlm_raiseEntry.toAlarm
    · exact onlyTlm_raiseEntry.toAlarm.trans (e _)
  dsimp only
  split
  · exact h.trans (OnlyTlm.toAlarm (OnlyTlm.trans (onlyTlm_tlm _) (OnlyTlm.trans (onlyTlm_event rfl) onlyTlm_raiseEntry)))
  · exact h

end Alarms

end Sys2Proof.Laws
end

