-- ==== Sys2Proof/Laws/Alarms.lean ====
section
/-! SUPPORT. What raising and ending an alarm leaves in the alarm table (R351, R391). -/
namespace Sys2Proof.Laws
open Sys2Proof.Machine

variable {c : Machine.Core} {nm : AlarmName} {inst : Nat} {data : List Nat} {present : Bool}

/-! The table is what the named step of an operation makes of it; the log and the registers do not touch it. -/

@[simp] theorem logRecord_alarms {code cls count : Nat} :
    (c.logRecord code cls inst count data).tlm.alarms = c.tlm.alarms := by
  unfold Machine.Core.logRecord
  dsimp only
  rw [setF_tlm]
  dsimp only
  split
  · rw [event_tlm, bump_tlm]
  · rfl

@[simp] theorem logAlarm_alarms {a : Alarm} {n : Nat} : (c.logAlarm a n).tlm.alarms = c.tlm.alarms := logRecord_alarms

@[simp] theorem refreshAlarms_alarms : c.refreshAlarms.tlm.alarms = c.tlm.alarms := by
  unfold Machine.Core.refreshAlarms
  dsimp only
  split <;> rfl

/-- An entry that an occurrence counts in stands in the table under its name. -/
theorem alarmHit_spec {l : List Alarm} {a : Alarm} (h : alarmHit l nm inst = some a) :
    a ∈ l ∧ a.name = nm ∧ (a.fold = true ∨ a.inst = inst) := by
  unfold alarmHit at h
  split at h
  · rename_i x hx
    cases h
    have := List.find?_some hx
    simp only [Bool.and_eq_true, beq_iff_eq] at this
    exact ⟨List.mem_of_find?_eq_some hx, this.1.2, Or.inr this.2⟩
  · have := List.find?_some h
    simp only [Bool.and_eq_true, beq_iff_eq] at this
    exact ⟨List.mem_of_find?_eq_some h, this.2, Or.inl this.1⟩

/-- A replaced entry stands in the table. -/
theorem mem_replaceAlarm_self {l : List Alarm} {a b : Alarm} (h : a ∈ l) (hs : sameAlarm b a = true) :
    b ∈ replaceAlarm l b := by
  unfold replaceAlarm
  exact List.mem_map.mpr ⟨a, h, by simp [hs]⟩

/-- An entry of another name is as before. -/
theorem mem_replaceAlarm_other {l : List Alarm} {b x : Alarm} (h : x.name ≠ b.name) :
    x ∈ replaceAlarm l b ↔ x ∈ l := by
  unfold replaceAlarm
  constructor
  · intro hx
    obtain ⟨y, hy, he⟩ := List.mem_map.mp hx
    split at he
    · exact absurd (congrArg Alarm.name he.symm) h
    · exact he ▸ hy
  · intro hx
    refine List.mem_map.mpr ⟨x, hx, if_neg ?_⟩
    unfold sameAlarm
    simp [h]

/-- The table lists the entry of a name that an occurrence with these data counts in. -/
def HasAlarm (c : Machine.Core) (nm : AlarmName) (inst : Nat) (data : List Nat) : Prop :=
  ∃ a ∈ c.tlm.alarms, a.name = nm ∧ (a.fold = true ∨ a.inst = inst) ∧ a.acked = false ∧ a.data = data

theorem repeatAlarm_spec {a : Alarm} (h : a ∈ c.tlm.alarms) (hn : a.name = nm) (hi : a.fold = true ∨ a.inst = inst) :
    HasAlarm (c.repeatAlarm a inst data present) nm inst data ∧
      ∀ x : Alarm, x.name ≠ nm → (x ∈ (c.repeatAlarm a inst data present).tlm.alarms ↔ x ∈ c.tlm.alarms) := by
  unfold Machine.Core.repeatAlarm
  dsimp only
  split
  · rw [HasAlarm, logAlarm_alarms]
    refine ⟨⟨_, mem_replaceAlarm_self h ?_, ?_⟩, fun x hx => ?_⟩
    · simp [sameAlarm]
    · exact ⟨hn, hi, rfl, rfl⟩
    · exact mem_replaceAlarm_other (by simpa [hn] using hx)
  · refine ⟨⟨_, mem_replaceAlarm_self h ?_, ?_⟩, fun x hx => ?_⟩
    · simp [sameAlarm]
    · exact ⟨hn, hi, rfl, rfl⟩
    · exact mem_replaceAlarm_other (by simpa [hn] using hx)

theorem newAlarm_alarms {fold : Bool} {flags : List Nat} :
    (c.newAlarm nm inst fold data present flags).tlm.alarms =
      c.tlm.alarms ++ [⟨freeAlarmId c.tlm.alarms c.tlm.nextId, nm, inst, fold, present, false, 1, c.us, c.us, data, flags, 0, c.us⟩] := by
  unfold Machine.Core.newAlarm
  simp only [refreshAlarms_alarms, logAlarm_alarms]

/-- One occurrence: its entry carries the data and is not acknowledged, every entry of another name is as before. -/
theorem raiseEntry_spec : HasAlarm (c.raiseEntry nm inst data present) nm inst data ∧
    ∀ x : Alarm, x.name ≠ nm → (x ∈ (c.raiseEntry nm inst data present).tlm.alarms ↔ x ∈ c.tlm.alarms) := by
  unfold Machine.Core.raiseEntry
  split
  · rename_i a ha
    obtain ⟨h, hn, hi⟩ := alarmHit_spec ha
    exact repeatAlarm_spec h hn hi
  · have key {fold : Bool} {i : Nat} {flags : List Nat} (hi : fold = true ∨ i = inst) :
        HasAlarm (c.newAlarm nm i fold data present flags) nm inst data ∧ ∀ x : Alarm, x.name ≠ nm →
          (x ∈ (c.newAlarm nm i fold data present flags).tlm.alarms ↔ x ∈ c.tlm.alarms) := by
      refine ⟨⟨_, by rw [newAlarm_alarms]; exact List.mem_append_right _ (List.mem_singleton_self _), rfl, hi, rfl, rfl⟩,
        fun x hx => ?_⟩
      rw [newAlarm_alarms, List.mem_append, List.mem_singleton]
      exact or_iff_left (fun e => hx (congrArg Alarm.name e))
    split
    · exact key (Or.inr rfl)
    · exact key (Or.inl rfl)

/-- Raising an alarm leaves its entry in the table with its first three values, not acknowledged. -/
theorem raise_listed (h : nm ≠ .alarmTableFold) :
    HasAlarm (c.raise nm inst data present) nm inst (Machine.Core.raise.fit3 data) := by
  unfold Machine.Core.raise
  have h1 := (raiseEntry_spec (c := c) (nm := nm) (inst := inst) (data := Machine.Core.raise.fit3 data) (present := present)).1
  have h2 : HasAlarm (if nm.cls = .c then c.raiseEntry nm inst (Machine.Core.raise.fit3 data) present
      else (c.raiseEntry nm inst (Machine.Core.raise.fit3 data) present).event MBX_EVENT.ALARM) nm inst
      (Machine.Core.raise.fit3 data) := by split <;> exact h1
  dsimp only
  split
  · obtain ⟨a, ha, hn, hi, hk, hd⟩ := h2
    exact ⟨a, (raiseEntry_spec.2 a (by rw [hn]; exact h)).mpr ha, hn, hi, hk, hd⟩
  · exact h2

/-- Raising an alarm leaves every entry of another name as it was, ALARM_TABLE_FOLD apart. -/
theorem raise_other {x : Alarm} (h : x.name ≠ nm) (hf : x.name ≠ .alarmTableFold) :
    x ∈ (c.raise nm inst data present).tlm.alarms ↔ x ∈ c.tlm.alarms := by
  unfold Machine.Core.raise
  have h1 := (raiseEntry_spec (c := c) (nm := nm) (inst := inst) (data := Machine.Core.raise.fit3 data)
    (present := present)).2 x h
  have h2 : x ∈ (if nm.cls = .c then c.raiseEntry nm inst (Machine.Core.raise.fit3 data) present
      else (c.raiseEntry nm inst (Machine.Core.raise.fit3 data) present).event MBX_EVENT.ALARM).tlm.alarms ↔
        x ∈ c.tlm.alarms := by split <;> exact h1
  dsimp only
  split
  · exact (raiseEntry_spec.2 x hf).trans h2
  · exact h2

end Sys2Proof.Laws
end

