-- ==== Sys2Proof/Laws/Bytes.lean ====
section
/-! SUPPORT. Byte strings: zero bytes at the end of a payload change no field that is read from it, since a field beyond
the end reads 0; so the checks of the long SET payloads are those of their significant part. -/
namespace Sys2Proof.Machine

theorem leNat_append_zeros (a : List Byte) (n : Nat) : leNat (a ++ zeros n) = leNat a := by
  induction a with
  | nil => induction n with
    | zero => rfl
    | succ k ih => simp [zeros, List.replicate_succ, leNat] at ih ⊢; exact ih
  | cons x t ih => simp [leNat, ih]

theorem u8_pad (a : List Byte) (n i : Nat) : u8 (a ++ zeros n) i = u8 a i := by
  unfold u8 zeros
  simp only [List.getD_eq_getElem?_getD, List.getElem?_append, List.getElem?_replicate]
  split
  · rfl
  · rename_i h
    rw [List.getElem?_eq_none (by omega)]
    split <;> simp

/-- A window on padded bytes is the window on the bytes and some zeros after it. -/
theorem window_pad (a : List Byte) (n i k : Nat) :
    ∃ m, ((a ++ zeros n).drop i).take k = (a.drop i).take k ++ zeros m := by
  refine ⟨min (k - (a.drop i).length) (n - (i - a.length)), ?_⟩
  rw [List.drop_append, List.take_append]
  simp [zeros, List.drop_replicate, List.take_replicate]

theorem uN_pad (k : Nat) (a : List Byte) (n i : Nat) : uN k (a ++ zeros n) i = uN k a i := by
  obtain ⟨m, h⟩ := window_pad a n i k
  simp [uN, h, leNat_append_zeros]

theorem zeroAt_pad (a : List Byte) (n i k : Nat) : zeroAt (a ++ zeros n) i k = zeroAt a i k := by
  obtain ⟨m, h⟩ := window_pad a n i k
  unfold zeroAt
  rw [h]
  simp [zeros]

theorem firstByte_pad (a : List Byte) (n i k : Nat) : firstByte (a ++ zeros n) i k = firstByte a i k := by
  obtain ⟨m, h⟩ := window_pad a n i k
  unfold firstByte
  rw [h]
  simp [zeros, List.findIdx?_append, List.findIdx?_replicate]

theorem u16_pad (a : List Byte) (n i : Nat) : u16 (a ++ zeros n) i = u16 a i := uN_pad 2 a n i
theorem u32_pad (a : List Byte) (n i : Nat) : u32 (a ++ zeros n) i = u32 a i := uN_pad 4 a n i
theorem u64_pad (a : List Byte) (n i : Nat) : u64 (a ++ zeros n) i = u64 a i := uN_pad 8 a n i
theorem i32_pad (a : List Byte) (n i : Nat) : i32 (a ++ zeros n) i = i32 a i := by rw [i32, u32_pad, i32]
theorem firstNonZero_pad (a : List Byte) (n i k : Nat) : firstNonZero (a ++ zeros n) i k = firstNonZero a i k := by
  rw [firstNonZero, zeroAt_pad, firstNonZero]

theorem gateChecks_pad (a : List Byte) (n : Nat) : gateChecks (a ++ zeros n) = gateChecks a := by
  simp only [gateChecks, u8_pad, u16_pad, firstNonZero_pad]

theorem protectionChecks_pad (c : Core) (a : List Byte) (n : Nat) :
    c.protectionChecks (a ++ zeros n) = c.protectionChecks a := by
  simp only [Core.protectionChecks, u8_pad, u16_pad, firstNonZero_pad]

theorem controlCheck1_pad (a : List Byte) (n : Nat) : controlCheck1 (a ++ zeros n) = controlCheck1 a := by
  simp only [controlCheck1, u8_pad, u16_pad, u32_pad, firstNonZero_pad]

theorem conversionChecks_pad (c : Core) (a : List Byte) (n : Nat) :
    c.conversionChecks (a ++ zeros n) = c.conversionChecks a := by
  simp only [Core.conversionChecks, fgCost, u8_pad, u16_pad, u32_pad, i32_pad, firstNonZero_pad, firstByte_pad]

theorem mapChecks_pad (a : List Byte) (n : Nat) : mapChecks (a ++ zeros n) = mapChecks a := by
  have h1 : mapCheck1 (a ++ zeros n) = mapCheck1 a := by
    simp only [mapCheck1, mapCount, u8_pad, firstNonZero_pad]
    congr!
  have h5 : mapCheck5 (a ++ zeros n) = mapCheck5 a := by simp only [mapCheck5, mapCount, u8_pad]
  have h7 : ∀ i, mapCheck7Cell (a ++ zeros n) i = mapCheck7Cell a i := by
    intro i
    simp only [mapCheck7Cell, mapTwin, mapCount, u8_pad]
    congr!
  have h7' : mapCheck7 (a ++ zeros n) = mapCheck7 a := by
    simp only [mapCheck7, funext h7, mapHole, mapCount, u8_pad]
  have h9 : mapCheck9 (a ++ zeros n) = mapCheck9 a := by simp only [mapCheck9, u8_pad, u64_pad]
  simp only [mapChecks, h1, h5, h7', h9, mapCheck2, mapCheck3, mapCount, u8_pad, u32_pad, i32_pad]
  congr!

end Sys2Proof.Machine
end

