-- ==== Sys2Proof/Laws/Mailbox.lean ====
section
/-! SUPPORT. How a mailbox takes a message and what an answer leaves (R336, R337, R340). -/
namespace Sys2Proof.Laws
open Sys2Proof.Machine

variable {c : Machine.Core}

/-- A message that a FREE, served mailbox takes and that passes the checks runs its command. -/
theorem command_go {sp : CmdSpec} {m : Msg} {f : Cmd → Machine.Core → Machine.Core} {cmd : Cmd}
    (h0 : c.getF (mbState m.mb.val) = 0) (hs : c.served m.mb.val = true) (hr : c.repeated m = false)
    (hc : (c.take sp.op m).1.check sp (c.take sp.op m).2 m.body = .go cmd) :
    c.command sp m f = f cmd (c.take sp.op m).1 := by
  unfold Machine.Core.command
  simp only [h0, hs, hr, hc, if_false, Bool.not_true, Bool.false_eq_true, reduceCtorEq, false_and]
  rfl

/-- A message that a FREE, served mailbox takes and that fails a check is refused. -/
theorem command_refuse {sp : CmdSpec} {m : Msg} {f : Cmd → Machine.Core → Machine.Core} {st : Nat} {l : List Nat}
    {sf old : Bool} (h0 : c.getF (mbState m.mb.val) = 0) (hs : c.served m.mb.val = true) (hr : c.repeated m = false)
    (hc : (c.take sp.op m).1.check sp (c.take sp.op m).2 m.body = .refuse st l sf old) :
    c.command sp m f = (c.take sp.op m).1.refuse (c.take sp.op m).2 st l sf old := by
  unfold Machine.Core.command
  simp only [h0, hs, hr, hc, if_false, Bool.not_true, Bool.false_eq_true, reduceCtorEq, false_and]
  rfl

/-- What a taken message has: the checks of R340 one by one give a command with the payload. -/
theorem check_go {sp : CmdSpec} {ref : CmdRef} {body : List Byte} (hf : ref.flags = 0) (hl : body.length ≤ 4080)
    (hp : sp.priv = false ∨ c.getF (MBX_MB_CFG.PRIV ref.mb) ≠ 0) (hg : sp.grade = none ∨ sp.grade = some c.grade)
    (hm : sp.modes c.mode.code = true) (ho : c.mode.code = .off → c.offServes sp.op = true) (hs : sp.sig ≠ 2)
    (hn : sp.len body.length = true) (hd : sp.shadow = false ∨ c.getF PAI_STATUS.AUTH ≠ 1) :
    c.check sp ref body = .go ⟨ref, body, false, u8 [] 4, u8 [] 5, u64 [] 8, u32 [] 20, []⟩ := by
  have e1 : bitOf ref.flags 0 = false := by rw [hf]; rfl
  have e2 : ¬ (4080 < body.length) := by omega
  have e3 : (sp.priv && decide (c.getF (MBX_MB_CFG.PRIV ref.mb) = 0)) = false := by
    rcases hp with h | h <;> simp [h]
  have e4 : sp.grade.any (· != c.grade) = false := by rcases hg with h | h <;> simp [h]
  have e5 : (!sp.modes c.mode.code || (c.mode.code == .off && !c.offServes sp.op)) = false := by
    rw [hm]
    by_cases h : c.mode.code = .off
    · rw [ho h]; simp
    · simp [h]
  have e6 : (sp.shadow && decide (c.getF PAI_STATUS.AUTH = 1)) = false := by
    rcases hd with h | h <;> simp [h]
  have e7 : ref.flags / 2 = 0 := by rw [hf]
  unfold Machine.Core.check
  simp only [e1, e2, e3, e4, e5, e6, e7, hs, hn, Bool.false_and, Bool.and_false, Bool.not_true, Bool.not_false,
    if_false, Bool.false_eq_true, ne_eq, not_true_eq_false, decide_false]

theorem bitOf_setBit (x i : Nat) : bitOf (setBit x i) i = true := by
  unfold setBit
  split
  · assumption
  · rename_i h
    unfold bitOf at h ⊢
    have hm : x / 2 ^ i % 2 = 0 := by
      have := Nat.mod_two_eq_zero_or_one (x / 2 ^ i)
      simp only [beq_iff_eq] at h
      omega
    have : (x + 2 ^ i) / 2 ^ i = x / 2 ^ i + 1 := Nat.add_div_right _ (Nat.two_pow_pos _)
    simp only [beq_iff_eq]
    omega

theorem bitOf_mod {x i n : Nat} (h : i < n) : bitOf (x % 2 ^ n) i = bitOf x i := by
  unfold bitOf
  obtain ⟨k, rfl⟩ := Nat.exists_eq_add_of_lt h
  have : x % 2 ^ (i + k + 1) / 2 ^ i = x / 2 ^ i % 2 ^ (k + 1) := by
    rw [Nat.add_assoc, pow_add, Nat.mod_mul_right_div_self]
  rw [this, pow_succ', Nat.mod_mul_right_mod]

theorem getBit_putBit_same {f : Field} {i : Nat} (h : f.lo + f.len ≤ 32) (hi : i < f.len) :
    (c.putBit f i true).getBit f i = true := by
  unfold Machine.Core.getBit Machine.Core.putBit
  rw [if_pos rfl, getF_setF_same h, bitOf_mod hi, bitOf_setBit]

theorem getF_of_reg {d : Machine.Core} {f : Field} (h : d.reg f.addr = c.reg f.addr) : d.getF f = c.getF f := by
  unfold Machine.Core.getF
  rw [h]

theorem getBit_of_reg {d : Machine.Core} {f : Field} {i : Nat} (h : d.reg f.addr = c.reg f.addr) :
    d.getBit f i = c.getBit f i := by
  unfold Machine.Core.getBit Machine.Core.getF
  rw [h]

/-- The registers an answer writes. -/
def replyReg (mb a : Nat) : Bool := [MBX_STATE.a, MBX_REPLY_READY.a, MBX_MB_CFG.a mb].contains a

theorem emit_reg {r : Reply} {a : Nat} (h : a ≠ MBX_REPLY_READY.a) : (c.emit r).reg a = c.reg a := by
  unfold Machine.Core.emit
  dsimp only
  split
  · rw [reg_putBit_other h, reg_writeMem, reg_writeMem]
  · rw [reg_send, reg_putBit_other h, reg_writeMem, reg_writeMem]

theorem emit_ready {r : Reply} (h : r.ref.mb < 16) : (c.emit r).getBit MBX_REPLY_READY.READY r.ref.mb = true := by
  unfold Machine.Core.emit
  dsimp only
  split
  · exact getBit_putBit_same (f := MBX_REPLY_READY.READY) (by decide) h
  · rw [getBit_of_reg (reg_send _ _ _)]
    exact getBit_putBit_same (f := MBX_REPLY_READY.READY) (by decide) h

@[simp] theorem emit_box {r : Reply} {k : Nat} : (c.emit r).box k = c.box k := by
  unfold Machine.Core.emit
  dsimp only
  split
  · rfl
  · rw [box_send]
    rfl

theorem freeBox_reg {mb a : Nat} (h1 : a ≠ MBX_STATE.a) (h2 : a ≠ MBX_MB_CFG.a mb) : (c.freeBox mb).reg a = c.reg a := by
  unfold Machine.Core.freeBox
  dsimp only
  split
  · rw [reg_setBox, reg_setF_other h1]
  · rw [reg_setBox, reg_setF_other h2, reg_setF_other h2, reg_setF_other h1]

theorem freeBox_free {mb : Nat} (h : mb < 16) : (c.freeBox mb).getF (mbState mb) = 0 := by
  have e : (c.setF (mbState mb) 0).getF (mbState mb) = 0 := by
    rw [getF_setF_same (by show 2 * mb + 2 ≤ 32; omega)]
    rfl
  have hne : (mbState mb).addr ≠ MBX_MB_CFG.a mb := by show 0x400C0004 ≠ 0x400C0040 + 8 * mb; omega
  unfold Machine.Core.freeBox
  dsimp only
  split
  · rw [getF_of_reg (reg_setBox _ _ _ _), e]
  · rw [getF_of_reg (reg_setBox _ _ _ _), getF_setF_other hne, getF_setF_other hne, e]

theorem freeBox_stored {mb : Nat} : ((c.freeBox mb).box mb).stored = (c.box mb).stored := by
  unfold Machine.Core.freeBox
  dsimp only
  split <;> · rw [box_setBox, if_pos rfl]

theorem freeBox_other {mb k : Nat} (h : k ≠ mb) : (c.freeBox mb).box k = c.box k := by
  unfold Machine.Core.freeBox
  dsimp only
  split
  · rw [box_setBox, if_neg h, box_setF]
  · rw [box_setBox, if_neg h, box_setF, box_setF, box_setF]

/-- A final answer: the mailbox is FREE and READY and keeps the reply; no register but the mailbox's own is written. -/
theorem reply_final {ref : CmdRef} {status : Nat} {payload : List Byte} (h : ref.mb < 16) (hs : status ≠ stACCEPTED) :
    (c.reply ref status payload).getF (mbState ref.mb) = 0 ∧
    (c.reply ref status payload).getBit MBX_REPLY_READY.READY ref.mb = true ∧
    (∃ r, ((c.reply ref status payload).box ref.mb).stored = some r ∧ r.ref = ref ∧ r.status = status ∧ r.payload = payload) ∧
    (∀ k, k ≠ ref.mb → (c.reply ref status payload).box k = c.box k) ∧
    ∀ a, replyReg ref.mb a = false → (c.reply ref status payload).reg a = c.reg a := by
  unfold Machine.Core.reply
  dsimp only
  rw [if_neg hs]
  generalize hr : (⟨ref, _, status, payload⟩ : Reply) = r
  have hm : r.ref.mb = ref.mb := by rw [← hr]
  refine ⟨freeBox_free h, ?_, ⟨r, ?_, by rw [← hr], by rw [← hr], by rw [← hr]⟩, fun k hk => ?_, fun a ha => ?_⟩
  · have e : ((c.emit r).setBox ref.mb { (c.emit r).box ref.mb with stored := some r }).getBit MBX_REPLY_READY.READY ref.mb
        = true := hm ▸ emit_ready (hm ▸ h)
    rw [getBit_of_reg (c := (c.emit r).setBox ref.mb { (c.emit r).box ref.mb with stored := some r }), e]
    exact freeBox_reg (by decide) (by show 0x400C000C ≠ 0x400C0040 + 8 * ref.mb; omega)
  · rw [freeBox_stored, box_setBox, if_pos rfl]
  · rw [freeBox_other hk, box_setBox, if_neg hk, emit_box]
  · simp only [replyReg, List.contains_cons, List.contains_nil, Bool.or_false, Bool.or_eq_false_iff, beq_eq_false_iff_ne] at ha
    rw [freeBox_reg ha.1 ha.2.2, reg_setBox, emit_reg ha.2.1]

/-- Nothing but the registers, the mailbox block and the pending writes differs. -/
def OnlyMbx (c d : Machine.Core) : Prop := { d with regs := c.regs, mbx := c.mbx, memOps := c.memOps } = c

theorem OnlyMbx.refl (c : Machine.Core) : OnlyMbx c c := rfl

theorem OnlyMbx.trans {c d e : Machine.Core} (h : OnlyMbx c d) (k : OnlyMbx d e) : OnlyMbx c e := by
  unfold OnlyMbx at *
  rw [← h]
  cases d; cases e; cases c
  simp_all

theorem onlyMbx_setF {f : Field} {v : Nat} : OnlyMbx c (c.setF f v) := rfl
theorem onlyMbx_setBox {k : Nat} {x : Mbox} : OnlyMbx c (c.setBox k x) := rfl
theorem onlyMbx_writeMem {a : Nat} {b : List Byte} : OnlyMbx c (c.writeMem a b) := rfl
theorem onlyMbx_send {x : TxMsg} : OnlyMbx c (c.send x) := by
  unfold Machine.Core.send
  split <;> rfl
theorem onlyMbx_setReg {a : Nat} {w : Word} : OnlyMbx c (c.setReg a w) := rfl

theorem onlyMbx_emit {r : Reply} : OnlyMbx c (c.emit r) := by
  unfold Machine.Core.emit
  dsimp only
  have h : OnlyMbx c (((c.writeMem (mbBuf r.ref.mb + 16) r.payload).writeMem (mbBuf r.ref.mb) r.header).putBit
      MBX_REPLY_READY.READY r.ref.mb true) := (onlyMbx_writeMem.trans onlyMbx_writeMem).trans onlyMbx_setF
  split
  · exact h
  · exact h.trans onlyMbx_send

theorem onlyMbx_freeBox {mb : Nat} : OnlyMbx c (c.freeBox mb) := by
  unfold Machine.Core.freeBox
  dsimp only
  split
  · exact onlyMbx_setF.trans onlyMbx_setBox
  · exact ((onlyMbx_setF.trans onlyMbx_setF).trans onlyMbx_setF).trans onlyMbx_setBox

/-- An answer changes the registers and the mailbox block only. -/
theorem onlyMbx_reply {ref : CmdRef} {status : Nat} {payload : List Byte} : OnlyMbx c (c.reply ref status payload) := by
  unfold Machine.Core.reply
  dsimp only
  split
  · exact ((onlyMbx_emit.trans onlyMbx_setBox).trans onlyMbx_setF).trans onlyMbx_setBox
  · exact (onlyMbx_emit.trans onlyMbx_setBox).trans onlyMbx_freeBox

/-- Taking a message changes the registers and the mailbox block only. -/
theorem onlyMbx_take {op : Nat} {m : Msg} : OnlyMbx c (c.take op m).1 := by
  unfold Machine.Core.take
  exact ((onlyMbx_setF.trans onlyMbx_setReg).trans onlyMbx_setF).trans onlyMbx_setBox

end Sys2Proof.Laws
end

