-- ==== Sys2Proof/WellFormed.lean ====
section
/-! DEFINITION. Which commands are well formed: an operand that its type does not bound keeps the size the spec gives it. -/
namespace Sys2Proof

/-- What follows the header stands in the 4 KiB of a mailbox (R335); a LENGTH above 4 080 is a body longer than that.
(DESIGN CHOICE log 8) -/
def Msg.wf (m : Msg) : Bool := decide (m.body.length ≤ 4096)

/-- The characters of one cell in a control period come in the order of their sample times, 8 ns apart or more (R303),
which a period of at most 100 µs bounds (R160). -/
def bitRun (l : List CellBit) : Bool :=
  decide (l.length ≤ 12501) && (l.zip (l.drop 1)).all (fun e => decide (e.1.t + 8 ≤ e.2.t))

/-- A key hash: 48 bytes, or none where it is not programmed (R429). -/
def hashWf (h : List Byte) : Bool := h.length == 48 || h.isEmpty

/-- What OTP holds: two vendor hashes, four integrator hashes, 64 rollback steps (R429), two MAC addresses (R344), 39
memories (R399). -/
def OtpImage.wf (o : OtpImage) : Bool :=
  o.vendorHash.all hashWf && o.integratorHash.all hashWf && hashWf o.caHash
    && decide (o.vendorHash.length ≤ 2 ∧ o.integratorHash.length ≤ 4 ∧ o.rollback ≤ 64 ∧ o.mac.length ≤ 2
      ∧ o.bistMisr.length ≤ 39 ∧ o.bistOps.length ≤ 39)

/-- A value of 32 bits (R13). -/
def int32 (x : Int) : Bool := decide (-2147483648 ≤ x ∧ x < 2147483648)

/-- A command is well formed. -/
def Instr.wf : Instr → Bool
  | .periodStart => true
  | .sampleInstant bits => bits.length == 128 && bits.all bitRun
  | .sarPreTrigger _ => true
  | .dataReady => true
  | .scheduleComplete => true
  | .applyPoint => true
  | .dispatchComplete => true
  | .commitDeadline => true
  | .dispatchStall => true
  | .cellStale _ => true
  | .vrefStale _ => true
  | .socStale => true
  | .tempMissing _ => true
  | .windowEnd => true
  | .cellCurrentOutlier _ => true
  | .sensorDisagree _ _ => true
  | .noConsensus _ => true
  | .observerLocked => true
  | .observerLost => true
  | .hostInputTimeout _ => true
  | .exclusionEnd _ => true
  | .softTrip _ run => decide (run.chars.length ≤ 64)
  | .xblankOverrun _ => true
  | .retryMinOffElapsed _ => true
  | .hardTripRecord _ _ _ => true
  | .echoRecord _ _ => true
  | .identRecord _ _ => true
  | .healthRecord _ _ => true
  | .ackRecord _ _ => true
  | .auxMarkRecord _ _ => true
  | .unknownRecord _ _ => true
  | .auxDwellEnd _ chars => chars.length == 766
  | .upstreamFrame _ slot0 chars rtt => chars.length == (if slot0.isSome then 255 else 0) && decide (rtt < 65536)
  | .messageStart _ => true
  | .messageAttemptFailed _ => true
  | .laneTrainingComplete _ => true
  | .laneTrainingTimeout _ => true
  | .silentRetry _ => true
  | .laneDown _ => true
  | .laneFaulty _ => true
  | .errorBucketRoll _ => true
  | .bypassCloseTimer _ => true
  | .bypassUnconfirmed _ => true
  | .mapApplied => true
  | .safeRequest => true
  | .forceDtElapsed _ => true
  | .decisionLatchUpdate => true
  | .safetyIslandFault => true
  | .torqueViolation => true
  | .angleDisagree => true
  | .crash => true
  | .crashClear => true
  | .bleedConversion _ _ => true
  | .bleedTimeout => true
  | .clockFault _ => true
  | .rampComplete => true
  | .rampTimeout => true
  | .angleLost => true
  | .checkWindowEnd => true
  | .startSyncDone => true
  | .tAlignElapsed => true
  | .handoverTimeout => true
  | .brakeTimeout => true
  | .gridVoltagePresent => true
  | .gridVoltageAbsent => true
  | .gridNoGridTimeout => true
  | .gridSyncHeld => true
  | .gridSyncTimeout => true
  | .gridTrip => true
  | .resolverUpdate _ _ => true
  | .resolverLocked => true
  | .resolverLos => true
  | .resolverClip => true
  | .resolverLot => true
  | .hallEdge _ _ => true
  | .axleEdge _ _ _ => true
  | .markerEdge _ _ => true
  | .endstopEdge _ _ => true
  | .chatter _ _ => true
  | .stuckActive _ => true
  | .speedStopped _ => true
  | .dockPulseEnd _ => true
  | .sarConversionDone _ _ => true
  | .backgroundTrigger _ => true
  | .tchEvent _ => true
  | .tchUpdateBoundary _ => true
  | .lockWindowEnd _ _ _ _ _ => true
  | .referenceGap _ => true
  | .islandClockSwitch _ => true
  | .phaseRestored _ => true
  | .holdoverExceeded => true
  | .wallclockDegraded => true
  | .aonCrystalReturn => true
  | .doorbell _ => true
  | .qspiWrite _ data => decide (1 ≤ data.length ∧ data.length ≤ 65536)
  | .qspiRead _ n => decide (1 ≤ n)
  | .qspiDoorbell _ => true
  | .qspiStatus => true
  | .qspiClearReady _ => true
  | .spiError => true
  | .udpDatagram _ d => decide (d.data.length ≤ 65507)
  | .fragmentTimeout _ => true
  | .arpRequest _ _ _ _ => true
  | .icmpEcho _ _ _ data => decide (data.length ≤ 65507)
  | .canSegment _ _ data => decide (1 ≤ data.length ∧ data.length ≤ 64)
  | .mailboxTaken _ => true
  | .commandTimeout _ => true
  | .dmaBurst _ _ => true
  | .dmaFaultTimeout _ => true
  | .ledgerFlush => true
  | .flushDone _ => true
  | .tempHistogramTick => true
  | .ledgerRefresh => true
  | .scrubStep _ => true
  | .mramReadCheck _ => true
  | .sarCalibration _ _ _ _ _ => true
  | .thresholdTracking => true
  | .eqTrialStart _ => true
  | .eqTrialStep _ => true
  | .wearUpdate => true
  | .traceSample => true
  | .bistStart => true
  | .bistStageDone _ results => decide (results.map (·.mem)).Nodup
  | .bistInterrupt _ => true
  | .bistRetestDone _ _ => true
  | .railsGood => true
  | .railWarning _ => true
  | .railFault _ => true
  | .pinReset => true
  | .watchdogExpiry => true
  | .lockstepMismatch _ => true
  | .deferredResetRelease => true
  | .commandedReset => true
  | .sleepEntry => true
  | .wake _ => true
  | .domainPark => true
  | .domainUp _ => true
  | .otpLoadDone _ otp => otp.wf
  | .bootVerifyDone => true
  | .firmwareUp => true
  | .readyReached => true
  | .fwSessionTimeout => true
  | .challengeExpiry => true
  | .authLockoutEnd => true
  | .debugDurationExpiry => true
  | .authVerifyDone => true
  | .debugBreak _ _ _ => true
  | .lineReset => true
  | .debugTransaction _ _ _ => true
  | .ddpHaltReq => true
  | .ddpResume => true
  | .ddpStep => true
  | .ddpAuthChal => true
  | .ddpAuthSubmit => true
  | .ddpLock => true
  | .ddpAuthAccess _ _ => true
  | .ddpMemDataAccess _ _ => true
  | .ddpRegDataAccess _ _ => true
  | .authInLow => true
  | .authInHigh => true
  | .pairFrame f => f.bytes.length == 640
  | .pairHbLost => true
  | .pairLaneFaulty _ => true
  | .pairPartnerAbsent => true
  | .pairDisagree => true
  | .relinquishTimeout => true
  | .syncInEdge _ => true
  | .syncLost => true
  | .ptpSyncSend => true
  | .ptpSyncReceive _ => true
  | .plantCommandDue => true
  | .registerWrite _ _ _ => true
  | .latchedRead _ => true
  | .unmappedAccess _ _ => true
  | .safWriteAttempt _ => true
  | .offDomainAccess _ _ => true
  | .clampAccess _ => true
  | .lnkRetrain _ => true
  | .lnkInjCfgWrite _ _ => true
  | .tchCommit _ => true
  | .tchCntModeStart _ _ => true
  | .socCommit => true
  | .cnvStart _ => true
  | .urgentRequest _ _ => true
  | .stuFlush => true
  | .stuStart _ => true
  | .stuResume _ => true
  | .stuAbort _ => true
  | .lgrSnap => true
  | .lgrFlush => true
  | .watchdogKick => true
  | .systemInfo m => m.wf
  | .echo m => m.wf
  | .reset m => m.wf
  | .alarmList m => m.wf
  | .alarmAck m => m.wf
  | .hostPortSet m => m.wf
  | .hostPortGet m => m.wf
  | .stringMapSet m => m.wf
  | .stringMapGet m => m.wf
  | .gateProfileSet m => m.wf
  | .gateProfileGet m => m.wf
  | .protectionSet m => m.wf
  | .protectionGet m => m.wf
  | .safetyLimitsSet m => m.wf
  | .safetyLimitsGet m => m.wf
  | .modulationSet m => m.wf
  | .modulationGet m => m.wf
  | .timerSet m => m.wf
  | .timerGet m => m.wf
  | .dispatchSet m => m.wf
  | .dispatchGet m => m.wf
  | .dispatchWeights m => m.wf
  | .dispatchStats m => m.wf
  | .controlSet m => m.wf
  | .controlGet m => m.wf
  | .motorModelSet m => m.wf
  | .motorModelGet m => m.wf
  | .driveLimitsSet m => m.wf
  | .driveLimitsGet m => m.wf
  | .feedbackSet m => m.wf
  | .feedbackGet m => m.wf
  | .startSet m => m.wf
  | .startGet m => m.wf
  | .startAbort m => m.wf
  | .startStatus m => m.wf
  | .dockSet m => m.wf
  | .dockGet m => m.wf
  | .dockMove m => m.wf
  | .dockStop m => m.wf
  | .dockResume m => m.wf
  | .dockHome m => m.wf
  | .dockCompare m => m.wf
  | .dockSetPos m => m.wf
  | .dockStatus m => m.wf
  | .conversionSet m => m.wf
  | .conversionGet m => m.wf
  | .cellCalSet m => m.wf
  | .cellCalGet m => m.wf
  | .clockSet m => m.wf
  | .clockGet m => m.wf
  | .clockStatus m => m.wf
  | .powerSet m => m.wf
  | .powerGet m => m.wf
  | .telemetrySet m => m.wf
  | .telemetryGet m => m.wf
  | .gridSet m => m.wf
  | .gridGet m => m.wf
  | .gridSetpoint m => m.wf
  | .gridStatus m => m.wf
  | .modeSet m => m.wf
  | .modeGet m => m.wf
  | .bleedRelease m => m.wf
  | .loopInputSet m => m.wf
  | .slotModeSet m => m.wf
  | .eventLogRead m => m.wf
  | .traceRead m => m.wf
  | .cellTelemetry m => m.wf
  | .ledgerRead m => m.wf
  | .meterReading m => m.wf
  | .timeSet m => m.wf
  | .commission m => m.wf
  | .ledgerExport m => m.wf
  | .ledgerImport m => m.wf
  | .charListGet m => m.wf
  | .fwLoadBegin m => m.wf
  | .fwLoadData m => m.wf
  | .fwLoadCommit m => m.wf
  | .attest m => m.wf
  | .debugChallenge m => m.wf
  | .debugUnlock m => m.wf
  | .debugLock m => m.wf
  | .recommission m => m.wf
  | .regRead m => m.wf
  | .regWrite m => m.wf
  | .comparatorTest m => m.wf
  | .laneInject m => m.wf
  | .pairInject m => m.wf
  | .bistRun m => m.wf
  | .bistResult m => m.wf
  | .fuseRepair m => m.wf
  | .pairSet m => m.wf
  | .pairStatus m => m.wf
  | .pairTakeover m => m.wf
  | .plantSet m => m.wf
  | .plantStatus m => m.wf
  | .plantCommand m => m.wf
  | .bypassOpenTimer _ => true
  | .selftestDeadline _ _ => true
  | .clockFaultClear _ => true
  | .ethLinkStatus _ _ => true
  | .ptpFollowUpReceive _ => true
  | .ptpDelayReqReceive _ => true
  | .ptpDelayRespReceive _ => true
  | .freeRunningOutput _ v i => int32 v && int32 i
  | .railReturn _ => true
  | .pinResetRelease => true
  | .pairLaneValid _ _ => true

end Sys2Proof
end

