-- ==== Sys2Proof/Tests/Slice0.lean ====
section
/-! SUPPORT. Tests. Ill-formed commands are refused by WellFormed; worked examples of the spec; for every statement with
hypotheses a state and operands that meet them together. -/
namespace Sys2Proof.Tests
open Sys2Proof.Machine Sys2Proof.Claims
set_option linter.all false
set_option Elab.async false
set_option maxRecDepth 100000

/-- A state made from the one after reset. -/
def base (mem : Memory) (f : Machine.Core → Machine.Core) : State := ⟨[], mem, f Core.reset⟩

/-! ### Ill-formed commands -/

/-- R335: what follows a header is at most the rest of a 4 KiB buffer. -/
theorem test_wf_message : (Instr.echo ⟨0, 0, 1, 0, zeros 4097⟩).wf = false ∧ (Instr.echo ⟨0, 0, 1, 0, zeros 4096⟩).wf = true := by
  simp only [Instr.wf, Msg.wf, zeros, List.length_replicate]
  decide

/-- R303: one list of bits for each of the 128 cells, in the order of their times. -/
theorem test_wf_sample : (Instr.sampleInstant []).wf = false ∧
    (Instr.sampleInstant (List.replicate 128 [⟨8, 1, 6⟩, ⟨8, 1, 6⟩])).wf = false ∧
    (Instr.sampleInstant (List.replicate 128 [⟨8, 1, 6⟩, ⟨16, 2, 6⟩])).wf = true := by decide +kernel

/-- R307: a dwell is 766 characters. -/
theorem test_wf_dwell : (Instr.auxDwellEnd 3 (List.replicate 765 0)).wf = false := by decide +kernel

/-- R84: a frame has 256 characters, or is silent. -/
theorem test_wf_frame : (Instr.upstreamFrame 3 (some 0) (List.replicate 254 0) 512).wf = false ∧
    (Instr.upstreamFrame 3 (some 0) (List.replicate 255 0) 65536).wf = false ∧ (Instr.upstreamFrame 3 none [0] 512).wf = false ∧
    (Instr.upstreamFrame 3 none [] 512).wf = true := by
  decide +kernel

/-- R123: a filter counts at most 64 characters. -/
theorem test_wf_soft : (Instr.softTrip 20 ⟨0, List.replicate 65 0⟩).wf = false := by decide +kernel

/-- R342: a transaction carries at least one byte. -/
theorem test_wf_qspi : (Instr.qspiWrite 0 []).wf = false ∧ (Instr.qspiRead 0 0).wf = false := by decide +kernel

/-- R346: a segment has its first byte and at most 63 more. -/
theorem test_wf_segment : (Instr.canSegment 0 0 []).wf = false ∧ (Instr.canSegment 0 0 (zeros 65)).wf = false := by
  decide +kernel

/-- R399: a stage reports each memory once. -/
theorem test_wf_stage : (Instr.bistStageDone true [⟨5, 0, 0, false, []⟩, ⟨5, 0, 0, false, []⟩]).wf = false := by decide +kernel

/-- R429: a hash has 48 bytes, the rollback counter 64 steps. -/
theorem test_wf_otp : (Instr.otpLoadDone true { OtpImage.blank with vendorHash := [zeros 47] }).wf = false ∧
    (Instr.otpLoadDone true { OtpImage.blank with rollback := 65 }).wf = false ∧
    (Instr.otpLoadDone true OtpImage.blank).wf = true := by decide +kernel

/-- R452: a pair frame has 640 bytes. -/
theorem test_wf_pair : (Instr.pairFrame ⟨0, zeros 639⟩).wf = false := by decide +kernel

/-- R344: a datagram and an echo fit an IPv4 packet. -/
theorem test_wf_datagram : (Instr.udpDatagram 0 ⟨0, 0, 0, true, zeros 65508⟩).wf = false ∧
    (Instr.icmpEcho 0 0 0 (zeros 65508)).wf = false := by
  simp only [Instr.wf, zeros, List.length_replicate]
  decide

/-- R13: values of mV and mA have 32 bits. -/
theorem test_wf_output : (Instr.freeRunningOutput 0 2147483648 0).wf = false ∧
    (Instr.freeRunningOutput 0 0 (-2147483649)).wf = false := by decide +kernel

/-! ### Worked examples of the spec -/

/-- R8: LANE_017 starts at 0x4002_0880. -/
theorem test_lane_address : LNK_LANE_CTRL.a 17 = 0x40020880 := by decide

/-- R303: 2 578 ones of 3 112 bits at 80 000 mV give 52 545 mV. -/
theorem test_period_mean : rne (80000 * 32768 * (2 * 2578 - 3112)) (32768 * 3112) = 52545 := by decide +kernel

/-- R335: the buffer of mailbox 15 ends at the end of the region. -/
theorem test_mailbox_buffer : mbBuf 15 + 0x1000 = 0x20810000 := by decide

/-- R452: CRC-32 of IEEE 802.3 over the digits 1 to 9. -/
theorem test_crc32 : crc32 [0x31, 0x32, 0x33, 0x34, 0x35, 0x36, 0x37, 0x38, 0x39] = 0xCBF43926 := by decide +kernel

/-- IEEE 802.3 clause 36: K28.5 is 0011111010 after negative disparity and 1100000101 after positive, D0.0 is 1001110100. -/
theorem test_code_groups : encode10 false (k28 5) = (0b0011111010, true) ∧ encode10 true (k28 5) = (0b1100000101, false) ∧
    encode10 false (.d 0) = (0b1001110100, false) := by decide +kernel

/-- R10: a clear of REF_LOST in the clock of its set loses; a later one clears the bit. -/
theorem test_clear_loses : let c := (Core.reset.event CLK_EVENT.REF_LOST)
    (c.plainWrite CLK_EVENT.a 0xFFFFFFFF).flag CLK_EVENT.REF_LOST = true ∧
    ({ c with now := 1000 }.plainWrite CLK_EVENT.a 0xFFFFFFFF).flag CLK_EVENT.REF_LOST = false := by decide +kernel

/-- R391: RAMP_TIMEOUT is the eighth name of group 3. -/
theorem test_name_code : AlarmName.rampTimeout.code = 0x307 := by decide

/-- A step on an empty queue lets one nanosecond pass. -/
theorem test_tick : step State.reset = .next (tick State.reset) := rfl

/-! ### Hypotheses that can be met: the general statements -/

/-- A small message for mailbox 3. -/
def msg3 (body : List Byte) : Msg := ⟨3, 0, 9, 7, body⟩

/-- The hypotheses of UnsignedMessagesAreRefused. -/
theorem test_meets_UnsignedMessagesAreRefused : ∃ (s : State) (m : Msg), bitOf m.flags.toNat 0 = false ∧ Free s.core m ∧
    m.flags = 0 ∧ s.core.mode.code = .standby ∧ s.core.getF (MBX_MB_CFG.PRIV m.mb.val) = 1 ∧ s.core.grade = 0 := by
  exact ⟨base [] (fun c => { c.setF (MBX_MB_CFG.PRIV 3) 1 with mode := { c.mode with code := .standby } }), msg3 [],
    by decide +kernel⟩

/-- A VA device in DRIVE. -/
def locked : State := base [] (fun c => { c with mode := { c.mode with code := .drive } })

/-- The hypotheses of DriveLockClosesThePort, of its transactions too: a read and a write of DDP_CTRL. -/
theorem test_meets_DriveLockClosesThePort : (locked.core.driveLock = true ∧ locked.core.grade = 0 ∧
      locked.core.mode.code = .drive ∧ locked.core.dbg.lineReset = false) ∧
    (∃ (req : BitVec 8) (data : BitVec 32) (parity : Bool), bitOf req.toNat 0 = true ∧ bitOf req.toNat 7 = true ∧
      bitOf req.toNat 6 = parityOf 5 (req.toNat / 2) ∧ (bitOf req.toNat 1 = false → parity = parityOf 32 data.toNat) ∧
      req.toNat / 4 % 16 ≠ 0 ∧ req.toNat / 4 % 16 ≠ 2) ∧
    (∃ (req : BitVec 8) (data : BitVec 32) (parity : Bool), bitOf req.toNat 0 = true ∧ bitOf req.toNat 7 = true ∧
      bitOf req.toNat 6 = parityOf 5 (req.toNat / 2) ∧ bitOf req.toNat 1 = false ∧ parity = parityOf 32 data.toNat ∧
      req.toNat / 4 % 16 = 15) := by
  exact ⟨by decide +kernel, ⟨0x87, 0, true, by decide +kernel⟩, ⟨0xBD, 1, true, by decide +kernel⟩⟩

/-- Every domain on. -/
def allOn : State := base [] (fun c => c.setF PWR_STATUS.ON 0x3FF)

/-- The hypotheses of SafetyIslandIsNotWritable, at both ends of the island's addresses. -/
theorem test_meets_SafetyIslandIsNotWritable : allOn.core.domainOn 3 = true ∧
    ((0x40120000 : BitVec 32).toNat / 0x10000 = 0x4012 ∧ (0x40120000 : BitVec 32).toNat % 4 = 0) ∧
    ((0x4012FFFC : BitVec 32).toNat / 0x10000 = 0x4012 ∧ (0x4012FFFC : BitVec 32).toNat % 4 = 0) := by decide +kernel

/-- The hypotheses of RegisterWritesByAccessType: a register, a hole, a register with settings, and an owned field in DRIVE. -/
theorem test_meets_RegisterWritesByAccessType :
    (∃ r, plainBlock TLM_CTRL.a = true ∧ TLM_CTRL.a % 4 = 0 ∧ allOn.core.domainOn (domainOf TLM_CTRL.a) = true ∧
      regRow TLM_CTRL.a = some r) ∧
    (plainBlock 0x4014FFFC = true ∧ 0x4014FFFC % 4 = 0 ∧ allOn.core.domainOn (domainOf 0x4014FFFC) = true ∧
      regRow 0x4014FFFC = none) ∧
    (∃ r, settingBlock FBK_CTRL.a = true ∧ FBK_CTRL.a % 4 = 0 ∧ allOn.core.domainOn (domainOf FBK_CTRL.a) = true ∧
      regRow FBK_CTRL.a = some r) ∧
    (locked.core.running = true ∧ ownedReg (BitVec.ofNat 32 PRT_CTRL.a).toNat = true) := by
  exact ⟨⟨_, by decide +kernel, by decide +kernel, by decide +kernel, rfl⟩, by decide +kernel,
    ⟨_, by decide +kernel, by decide +kernel, by decide +kernel, rfl⟩, by decide +kernel⟩

/-- The hypotheses of EchoReturnsThePayload, in HOLD with an empty payload and in OFF on mailbox 0. -/
theorem test_meets_EchoReturnsThePayload :
    (∃ (s : State) (m : Msg), s.core.mode.code = .hold ∧ Ready s.core 0x0102 m []) ∧
    (∃ (s : State) (m : Msg), s.core.mode.code = .off ∧ Ready s.core 0x0102 m [1, 2]) := by
  exact ⟨⟨base [] (fun c => { c with mode := { c.mode with code := .hold } }), msg3 [], by decide +kernel⟩,
    ⟨base [] (fun c => { c with pwr := { c.pwr with step := 6 } }), ⟨0, 0, 9, 7, [1, 2]⟩, by decide +kernel⟩⟩

/-- The hypotheses of StringMapOnlyInStandby: a map sent in DRIVE. -/
theorem test_meets_StringMapOnlyInStandby :
    ∃ (s : State) (m : Msg), Free s.core m ∧ m.flags.toNat / 2 = 0 ∧ s.core.mode.code ≠ .standby := by
  exact ⟨locked, msg3 (zeros 2176), by decide +kernel⟩

/-- The hypotheses of ConfigurationOnlyBySetCommands: a DRIVE_LIMITS_SET that is accepted. -/
theorem test_meets_ConfigurationOnlyBySetCommands : ∃ (i : Instr) (s t : State), exec i s = .next t ∧
    t.core.cfg ≠ s.core.cfg := by
  refine ⟨.driveLimitsSet (msg3 (le 4 1 ++ le 4 1 ++ le 4 1 ++ le 4 1)),
    base [] (fun c => { c.setF CEN_P_FS.FS 1000000 with mode := { c.mode with code := .standby } }), _, rfl, ?_⟩
  decide +kernel

/-- The hypotheses of MemoryStaysCanonical: a sound state that lists a byte, and a step from it. -/
theorem test_meets_MemoryStaysCanonical : ∃ s t : State, Safety.Sound s ∧ s.mem ≠ [] ∧ step s = .next t := by
  refine ⟨⟨[.stuFlush], [(0x20000000, 1)], Core.reset⟩, _, ?_, ?_, rfl⟩
  · exact ⟨by decide +kernel, rfl⟩
  · decide +kernel

/-! ### Hypotheses that can be met: the statements about one command each -/

/-- The hypotheses of LaneStateEvents can be met together. -/
theorem test_meets_LaneStateEvents_0 :
    (∃ (s : State) (l : Fin 128),
      (s.core.laneState l.val = 1 ∧ 8 ≤ (s.core.lane l.val).commaRun ∧ 7 ≤ (s.core.lane l.val).crcRun ∧ (s.core.lane
        l.val).rtts.length = 16) ∧
      (s.core.flag (LNK_LANE_STATUS.PAD_ACKED l.val) = true ∧ (s.core.lane l.val).serialKnown = true) ∧
      (s.core.onCharList (s.core.lane l.val).serial = false ∧ (s.core.lane l.val).serial = (s.core.cellEnt
        l.val).serial)) ∧
    (∃ (s : State) (l : Fin 128),
      (s.core.laneState l.val = 1) ∧
      ((s.core.lane l.val).trainAt + 5000000 ≤ s.core.now ∨ s.core.flag (LNK_LANE_EVENT.TIMING_FAIL l.val) = true)) ∧
    (∃ (s : State) (l : Fin 128),
      (s.core.laneState l.val = 3) ∧
      ((s.core.lane l.val).silentAt + 1000000000 ≤ s.core.now)) ∧
    (∃ (s : State) (l : Fin 128),
      (s.core.laneState l.val = 2) ∧
      (4 ≤ (s.core.lane l.val).missRun)) ∧
    (∃ (s : State) (l : Fin 128), s.core.laneState l.val ≠ 0) ∧
    (∃ (s : State) (l : Fin 128),
      (s.core.laneState l.val = 1 ∨ s.core.laneState l.val = 2) ∧
      (64 < (s.core.lane l.val).errors ∨ (s.core.lane l.val).tries = 4)) := by
  refine ⟨?_, ?_, ?_, ?_, ?_, ?_⟩
  · exact ⟨base [] (fun c => ((c.setF (LNK_LANE_STATUS.STATE 127) 1).setF (LNK_LANE_STATUS.PAD_ACKED 127) 1).setLane 127
        { Lane.reset with commaRun := 8, crcRun := 7, rtts := List.replicate 16 512, serialKnown := true }), 127, by decide +kernel⟩
  · exact ⟨base [] (fun c => { c.setF (LNK_LANE_STATUS.STATE 0) 1 with now := 5000000 }), 0, by decide +kernel⟩
  · exact ⟨base [] (fun c => { c.setF (LNK_LANE_STATUS.STATE 1) 3 with now := 1000000000 }), 1, by decide +kernel⟩
  · exact ⟨base [] (fun c => (c.setF (LNK_LANE_STATUS.STATE 5) 2).setLane 5 { Lane.reset with missRun := 4 }), 5, by decide +kernel⟩
  · exact ⟨base [] (fun c => c.setF (LNK_LANE_STATUS.STATE 5) 4), 5, by decide +kernel⟩
  · exact ⟨base [] (fun c => (c.setF (LNK_LANE_STATUS.STATE 5) 2).setLane 5
        { Lane.reset with buckets := 65 :: List.replicate 15 0 }), 5, by decide +kernel⟩

/-- The hypotheses of LinkMessageEvents can be met together. -/
theorem test_meets_LinkMessageEvents_0 :
    (∃ (s : State) (l : Fin 128) (d : DnMsg),
      (s.core.laneState l.val ≠ 0 ∧ s.core.laneState l.val ≠ 3) ∧
      ((s.core.lane l.val).nextMsg = some d) ∧
      (nextSlot s.core.now % 2048 / 8 + d.span ≤ 256 ∧ s.core.changeIn l.val (nextSlot s.core.now) (nextSlot
        s.core.now + 8 * d.span) = false)) ∧
    (∃ (s : State) (l : Fin 128) (d : DnMsg),
      ((s.core.lane l.val).msg = some d ∧ d.op ≠ 0x83) ∧
      ((s.core.lane l.val).resend = false ∧ (s.core.lane l.val).tries < 4 ∧ (s.core.lane l.val).msgEnd + 4096 ≤
        s.core.now)) ∧
    (∃ (s : State) (l : Fin 128) (d : DnMsg),
      ((s.core.lane l.val).msg = some d ∧ d.op = 0x83) ∧
      ((s.core.lane l.val).resend = false ∧ (s.core.lane l.val).tries < 4 ∧ (s.core.lane l.val).msgEnd + 4096 ≤
        s.core.now)) ∧
    (∃ (s : State) (l : Fin 128) (p : BitVec 24) (d : DnMsg),
      ((s.core.lane l.val).msg = some d ∧ d.op = bitsOf p.toNat 16 8 ∧ (s.core.lane l.val).msgCrc = bitsOf p.toNat 8
        8) ∧
      ((s.core.lane l.val).resend = false ∧ (s.core.lane l.val).tries ≠ 4 ∧ bitsOf p.toNat 0 8 ≠ 3)) ∧
    (∃ (s : State) (l : Fin 128), (s.core.lane l.val).bucketAt + 62500000 ≤ s.core.now) ∧
    (∃ (s : State) (n : Fin 128),
      ((s.core.cell n.val).bcOn = true ∧ (s.core.cell n.val).bcNext ≤ s.core.now ∧ s.core.role n.val = 1) ∧
      (s.core.getF PAI_STATUS.AUTH ≠ 1 ∧ s.core.laneOn n.val = true)) ∧
    (∃ (s : State) (n : Fin 128),
      ((s.core.cell n.val).boOn = true ∧ (s.core.cell n.val).boNext ≤ s.core.now) ∧
      (s.core.getF PAI_STATUS.AUTH ≠ 1 ∧ s.core.laneOn n.val = true ∧ s.core.laneState n.val ≠ 4)) ∧
    (∃ (s : State) (n : Fin 128) (u : Nat), (s.core.cell n.val).bcFirst = some u ∧ (s.core.cell n.val).bcOn = true ∧
       (s.core.cell n.val).unconf = false ∧ u + 20000000 ≤ s.core.now) := by
  refine ⟨?_, ?_, ?_, ?_, ?_, ?_, ?_, ?_⟩
  · exact ⟨base [] (fun c =>
        { (c.setF (LNK_LANE_STATUS.STATE 5) 2).setLane 5 { Lane.reset with queue := [⟨0x83, 7⟩] } with now := 4096 }),
        5, ⟨0x83, 7⟩, by decide +kernel⟩
  · exact ⟨base [] (fun c => { c.setLane 5 { Lane.reset with msg := some ⟨0x41, 7⟩, tries := 3 } with now := 4096 }), 5,
        ⟨0x41, 7⟩, by decide +kernel⟩
  · exact ⟨base [] (fun c => { c.setLane 5 { Lane.reset with msg := some ⟨0x83, 7⟩ } with now := 4096 }), 5, ⟨0x83, 7⟩,
        by decide +kernel⟩
  · exact ⟨base [] (fun c => c.setLane 5 { Lane.reset with msg := some ⟨0x81, 7⟩, msgCrc := 0x22 }), 5, 0x812200,
        ⟨0x81, 7⟩, by decide +kernel⟩
  · exact ⟨base [] (fun c =>
        { c.setLane 5 { Lane.reset with buckets := 3 :: List.replicate 15 1 } with now := 62500000 }), 5, by decide +kernel⟩
  · exact ⟨base [] (fun c =>
        { (c.setF PWR_STATUS.ON 0x3FF).setCell 5 { Cell.reset with bcOn := true } with map := { c.map with cells := [(5, ⟨1, 0, 0, 9⟩)] } }),
        5, by decide +kernel⟩
  · exact ⟨base [] (fun c => (c.setF PWR_STATUS.ON 0x3FF).setCell 5 { Cell.reset with boOn := true }), 5, by decide +kernel⟩
  · exact ⟨base [] (fun c => { c.setCell 5 { Cell.reset with bcOn := true, bcFirst := some 0 } with now := 20000000 }),
        5, 0, by decide +kernel⟩

/-- The hypotheses of LinkRecordEvents can be met together. -/
theorem test_meets_LinkRecordEvents_0 :
    (∃ (s : State) (l : Fin 128) (slot0 : BitVec 10) (chars : List (BitVec 10)) (rtt : Nat), s.core.laneState l.val
       = 1 ∨ s.core.laneState l.val = 2) ∧
    (∃ (s : State) (l : Fin 128) (rtt : Nat), s.core.laneState l.val = 1 ∨ s.core.laneState l.val = 2) ∧
    (∃ (s : State) (l : Fin 128) (p : BitVec 24),
      (s.core.laneState l.val = 1 ∨ s.core.laneState l.val = 2) ∧
      (bitsOf p.toNat 22 2 < 3)) ∧
    (∃ (s : State) (l : Fin 128) (p : BitVec 24), s.core.laneState l.val = 1 ∨ s.core.laneState l.val = 2 ∨
       s.core.laneState l.val = 4) ∧
    (∃ (s : State) (l : Fin 128) (type : BitVec 8),
      (7 ≤ type.toNat) ∧
      (s.core.laneState l.val = 1 ∨ s.core.laneState l.val = 2)) ∧
    (∃ (s : State) (l : Fin 128) (p : BitVec 24), s.core.laneState l.val = 1 ∨ s.core.laneState l.val = 2) ∧
    (∃ (s : State) (l : Fin 128) (v : BitVec 32),
      (s.core.injectable = true) ∧
      (bitsOf v.toNat 3 4 < 10)) ∧
    (∃ (s : State) (l : Fin 128) (v : BitVec 32), s.core.injectable = false ∨ 10 ≤ bitsOf v.toNat 3 4) := by
  refine ⟨?_, ?_, ?_, ?_, ?_, ?_, ?_, ?_⟩
  · exact ⟨base [] (fun c => c.setF (LNK_LANE_STATUS.STATE 5) 2), 5, 0x17C, [7], 512, by decide +kernel⟩
  · exact ⟨base [] (fun c => c.setF (LNK_LANE_STATUS.STATE 5) 2), 5, 512, by decide +kernel⟩
  · exact ⟨base [] (fun c => (c.setF (LNK_LANE_STATUS.STATE 5) 2).setLane 5
        { Lane.reset with serial := 0xFFFFFFFFFFFFFFFF }), 5, 0xBFFF01, by decide +kernel⟩
  · exact ⟨base [] (fun c => c.setF (LNK_LANE_STATUS.STATE 5) 4), 5, 0x090001, by decide +kernel⟩
  · exact ⟨base [] (fun c => c.setF (LNK_LANE_STATUS.STATE 5) 2), 5, 7, by decide +kernel⟩
  · exact ⟨base [] (fun c => c.setF (LNK_LANE_STATUS.STATE 5) 2), 5, 0xE00000, by decide +kernel⟩
  · exact ⟨base [] (fun c => { c with mode := { c.mode with code := .test } }), 5, 0x4B, by decide +kernel⟩
  · exact ⟨base [] (fun c => { c with mode := { c.mode with code := .test } }), 5, 0x53, by decide +kernel⟩

/-- The hypotheses of LinkRecordEvents can be met together. -/
theorem test_meets_LinkRecordEvents_1 :
    (∃ (s : State) (l : Fin 128) (p : BitVec 24) (u : Nat), s.core.laneState l.val ≠ 0) ∧
    (∃ (s : State) (l : Fin 128) (p : BitVec 24) (u : Nat) (i : Nat),
      (s.core.laneState l.val ≠ 0) ∧
      (i < 4 ∧ bitOf (bitsOf p.toNat 20 4) i = true ∧ s.core.underTest l.val i = false)) ∧
    (∃ (s : State) (l : Fin 128) (p : BitVec 24),
      (s.core.laneState l.val = 2) ∧
      (bitsOf p.toNat 11 10 = 1023 ∨ bitsOf p.toNat 0 11 = 2047)) ∧
    (∃ (s : State) (l : Fin 128) (p : BitVec 24),
      (s.core.laneState l.val = 2) ∧
      (bitsOf p.toNat 11 10 ≠ 1023 ∧ bitsOf p.toNat 0 11 ≠ 2047)) := by
  refine ⟨?_, ?_, ?_, ?_⟩
  · exact ⟨base [] (fun c => c.setF (LNK_LANE_STATUS.STATE 5) 2), 5, 0x010000, 0, by decide +kernel⟩
  · exact ⟨base [] (fun c =>
        { c.setF (LNK_LANE_STATUS.STATE 5) 2 with map := { c.map with cells := [(5, ⟨1, 0, 0, 9⟩)] } }), 5,
        0x110000, 0, 0, by decide +kernel⟩
  · exact ⟨base [] (fun c => c.setF (LNK_LANE_STATUS.STATE 5) 2), 5, 0x1FF800, by decide +kernel⟩
  · exact ⟨base [] (fun c => c.setF (LNK_LANE_STATUS.STATE 5) 2), 5, 0xC02801, by decide +kernel⟩

/-- The hypotheses of TripEvents can be met together. -/
theorem test_meets_TripEvents_0 :
    (∃ (s : State) (sw : Fin 512) (u : Nat) (run : List Byte),
      (s.core.flag PRT_CTRL.SOFT_EN = true ∧ s.core.flagsCount (sw.val / 4) = true ∧ s.core.underTest (sw.val / 4)
        (sw.val % 4) = false) ∧
      (run.length = s.core.filterK ∧ run.all (fun b => (upFields b).flag (sw.val % 4)) = true ∧ s.core.now = u + 128
        + 8 * (s.core.filterK - 1) + 40 ∧ (List.range s.core.filterK).all (fun j => s.core.eligible (sw.val / 4)
        (sw.val % 4) (u + 8 * j)) = true)) ∧
    (∃ (s : State) (k : Fin 6) (w : Nat × Nat × Nat), (s.core.xb k.val).wins.find? (fun v => v.2.2 == 1 && decide
       (v.2.1 ≤ s.core.now)) = some w) ∧
    (∃ (s : State) (n : Fin 128) (b : Nat), (s.core.cell n.val).excl = some b ∧ b ≤ s.core.modu.period) ∧
    (∃ (s : State) (h : Fin 256) (u : Nat),
      ((s.core.hb h.val).clearAt = some u ∧ u ≤ s.core.now ∧ (s.core.hb h.val).held = true ∧ (s.core.hb
        h.val).hardMask ≠ 0) ∧
      (s.core.retryOn h.val = true ∧ (s.core.cell (h.val / 2)).gone = false ∧ s.core.getF PAI_STATUS.AUTH ≠ 1 ∧
        s.core.laneOn (h.val / 2) = true ∧ s.core.laneState (h.val / 2) ≠ 4)) ∧
    (∃ (s : State) (n : Fin 128) (char : Byte) (x : SelfTest),
      (s.core.prt.test = some x ∧ x.cell = n.val ∧ x.stage = 1 ∧ x.deadline ≠ 0 ∧ x.deadline ≤ s.core.now ∧ x.sw <
        4) ∧
      ((s.core.lane n.val).tries ≠ 4 ∧ x.kind = 2)) := by
  refine ⟨?_, ?_, ?_, ?_, ?_⟩
  · exact ⟨base [] (fun c =>
        { (((c.setF PRT_CTRL.SOFT_EN 1).setF PRT_TRIP_CFG.FILTER 8).modHb 10 fun b => { b with tl := [(0, 3)] }).setCell 5 { Cell.reset with adm := .admitted } with map := { c.map with count := 1, cells := [(5, ⟨1, 0, 0, 9⟩)] }, now := 1000 + 128 + 8 + 40 }),
        20, 1000, [0xFF, 0xFF], by decide +kernel⟩
  · exact ⟨base [] (fun c => { c.setXb 5 { XBlank.reset with wins := [(0, 100, 1)] } with now := 100 }), 5, (0, 100, 1),
        by decide +kernel⟩
  · exact ⟨base [] (fun c => c.setCell 5 { Cell.reset with excl := some 0, exclSince := some 0 }), 5, 0, by decide +kernel⟩
  · exact ⟨base [] (fun c => (((c.setF PWR_STATUS.ON 0x3FF).setF PRT_CTRL.RETRY_EN 1).setF (PRT_HB_CFG.RETRY_EN 11)
        1).modHb 11 fun b => { b with held := true, hardMask := 1, clearAt := some 0 }), 11, 0, by decide +kernel⟩
  · exact ⟨base [] (fun c =>
        { c with prt := { c.prt with test := some ⟨⟨0, 0, 0, 0, 0, 0, 0, 0⟩, 5, 1, 2, 0, 1, 7, [1]⟩ }, now := 7 }),
        5, 0, ⟨⟨0, 0, 0, 0, 0, 0, 0, 0⟩, 5, 1, 2, 0, 1, 7, [1]⟩, by decide +kernel⟩

/-- The hypotheses of DispatchEvents can be met together. -/
theorem test_meets_DispatchEvents_0 :
    (∃ (s : State) (n : Fin 128), s.core.role n.val = 1 ∧ s.core.cellV n.val = none ∧ s.core.causeOn .cellStale
       n.val = false) ∧
    (∃ (s : State) (k : Fin 6), (s.core.dstr k.val).staleDue = true ∧ s.core.dispatched = true) ∧
    (∃ (s : State), 4 ≤ s.core.disp.noCommit ∧ s.core.flag DSP_STATUS.SOC_STALE = false) ∧
    (∃ (s : State) (n : Fin 128), s.core.role n.val = 1 ∧ s.core.tempC n.val = none ∧ s.core.causeOn .tempMissing
       n.val = false) ∧
    (∃ (s : State) (n : Fin 128), s.core.outlierPeriods ≤ mapGet (fun _ => 0) s.core.disp.outRun n.val ∧
       s.core.causeOn .cellCurrentOutlier n.val = false) ∧
    (∃ (s : State) (k : Fin 6) (d : Bool), s.core.sensPeriods ≤ (s.core.dstr k.val).run.getD (b2n d) 0 ∧
       s.core.causeOn .sensorDisagree (2 * k.val + b2n d) = false) ∧
    (∃ (s : State) (k : Fin 6), s.core.sensPeriods ≤ (s.core.dstr k.val).run.getD 2 0 ∧ s.core.causeOn .noConsensus
       k.val = false) ∧
    (∃ (s : State), s.core.modu.period % 1024 = 0 ∧ s.core.disp.winDone ≠ s.core.modu.period) := by
  refine ⟨?_, ?_, ?_, ?_, ?_, ?_, ?_, ?_⟩
  · exact ⟨base [] (fun c =>
        { (c.setF (LNK_LANE_STATUS.STATE 5) 2).setCell 5 { Cell.reset with adm := .admitted } with map := { c.map with count := 1, cells := [(5, ⟨1, 0, 0, 9⟩)] } }),
        5, by decide +kernel⟩
  · exact ⟨base [] (fun c =>
        { c.setDstr 5 { DispStr.reset with staleDue := true, refAge := 9 } with mode := { c.mode with code := .drive } }),
        5, by decide +kernel⟩
  · exact ⟨base [] (fun c => { c with disp := { c.disp with noCommit := 4 } }), by decide +kernel⟩
  · exact ⟨base [] (fun c =>
        { (c.setF (LNK_LANE_STATUS.STATE 5) 2).setCell 5 { Cell.reset with adm := .admitted } with map := { c.map with count := 1, cells := [(5, ⟨1, 0, 0, 9⟩)] } }),
        5, by decide +kernel⟩
  · exact ⟨base [] (fun c => { c with disp := { c.disp with outRun := [(127, 2000)] } }), 127, by decide +kernel⟩
  · exact ⟨base [] (fun c => c.setDstr 5 { DispStr.reset with run := [0, 2000, 0] }), 5, true, by decide +kernel⟩
  · exact ⟨base [] (fun c => c.setDstr 5 { DispStr.reset with run := [0, 0, 2000] }), 5, by decide +kernel⟩
  · exact ⟨base [] (fun c => { c with modu := { c.modu with period := 1024 } }), by decide +kernel⟩

/-- The hypotheses of ControlEvents can be met together. -/
theorem test_meets_ControlEvents_0 :
    (∃ (s : State), s.core.flag CEN_OBS.LOCKED = false ∧ 64 ≤ s.core.getF CEN_OBS.RUN) ∧
    (∃ (s : State),
      (s.core.flag CEN_OBS.LOCKED = true) ∧
      (max 1 (u8 (obsRec s.core.ctlImage) 28) ≤ s.core.getF CEN_OBS.RUN ∨ s.core.sigRaw 0x4D < i16 (obsRec
        s.core.ctlImage) 26)) ∧
    (∃ (s : State) (u : Nat), s.core.ctl.runAt = some u) ∧
    (∃ (s : State) (e : Fin 32) (u : Nat), (mapGet (fun _ => (⟨none, 0⟩ : Hin)) s.core.ctl.hin (0x60 +
       e.val)).deadline = some u ∧ u < s.core.now) := by
  refine ⟨?_, ?_, ?_, ?_⟩
  · exact ⟨base [] (fun c => c.setF CEN_OBS.RUN 64), by decide +kernel⟩
  · exact ⟨base [] (fun c => (c.setF CEN_OBS.LOCKED 1).setF CEN_OBS.RUN 200), by decide +kernel⟩
  · exact ⟨base [] (fun c => { c with ctl := { c.ctl with runAt := some 3 }, now := 9 }), 3, by decide +kernel⟩
  · exact ⟨base [] (fun c => { c with ctl := { c.ctl with hin := [(0x7F, ⟨some 3, -5⟩)] }, now := 4 }), 31, 3, by decide +kernel⟩

/-- The hypotheses of ConversionEvents can be met together. -/
theorem test_meets_ConversionEvents_0 :
    (∃ (s : State) (u : Fin 4),
      (s.core.flag (CNV_U_CTRL.EN u.val) = true ∧ s.core.sarLp u.val = false ∧ s.core.fgLen u.val ≠ 0 ∧
        s.core.sampleHalf ≤ 2 * s.core.now + 1200) ∧
      (((s.core.unit u.val).phase = 0 ∨ (s.core.unit u.val).phase = 2) ∧ (s.core.unit u.val).fgWait = none ∧ (u.val
        = 0 → s.core.pairDue = none))) ∧
    (∃ (s : State) (u : Fin 4) (raw : BitVec 16), (s.core.unit u.val).phase = 3 ∧ (s.core.unit u.val).due ≤ 2 *
       s.core.now) ∧
    (∃ (s : State) (u : Fin 3),
      (s.core.getF (CNV_U_CTRL.TRIG_SRC u.val) = 0 ∧ s.core.flag (CNV_U_CTRL.EN u.val) = true ∧ s.core.fgLen u.val <
        s.core.tableLen u.val) ∧
      ((s.core.unit u.val).phase = 2 ∧ s.core.getF (CNV_U_CTRL.POLICY u.val) = 0 ∧ (u.val = 0 → s.core.pairDue =
        none))) ∧
    (∃ (s : State) (u : Fin 3),
      (s.core.getF (CNV_U_CTRL.TRIG_SRC u.val) = 0 ∧ s.core.flag (CNV_U_CTRL.EN u.val) = true ∧ s.core.fgLen u.val <
        s.core.tableLen u.val) ∧
      ((s.core.unit u.val).phase = 0 ∧ (s.core.unit u.val).bg = none ∧ (s.core.unit u.val).bgEnd = 0 ∧ (u.val = 0 →
        s.core.pairDue = none))) ∧
    (∃ (s : State) (u : Fin 3),
      (s.core.getF (CNV_U_CTRL.TRIG_SRC u.val) = 1 ∧ mapGet (fun _ => 0) s.core.modu.trig (s.core.getF
        (CNV_U_CTRL.TRIG_TCH u.val)) = s.core.now + 1 ∧ s.core.flag (CNV_U_CTRL.EN u.val) = true ∧ s.core.fgLen
        u.val < s.core.tableLen u.val) ∧
      ((s.core.unit u.val).phase = 0 ∧ (s.core.unit u.val).bg = none ∧ (s.core.unit u.val).bgEnd = 0 ∧ (u.val = 0 →
        s.core.pairDue = none))) ∧
    (∃ (s : State) (u : Fin 3) (v : BitVec 32), (s.core.unit u.val).urgent ≠ none) ∧
    (∃ (s : State) (u : Fin 3) (v : BitVec 32),
      ((s.core.unit u.val).urgent = none ∧ sarChannel u.val (v.toNat % 128) = true) ∧
      ((s.core.unit u.val).phase = 0 ∧ (s.core.unit u.val).fgWait = none ∧ (u.val = 0 → s.core.pairDue = none))) ∧
    (∃ (s : State) (n : Fin 128) (chars : List Byte), s.core.laneState n.val = 2 ∧ chars.length = 766 ∧
       (s.core.cellVal n.val).auxIdx = none) := by
  refine ⟨?_, ?_, ?_, ?_, ?_, ?_, ?_, ?_⟩
  · exact ⟨base [] (fun c =>
        { (((c.setF (CNV_U_CTRL.EN 2) 1).setF (CNV_U_CTRL.FG_LEN 2) 3).setF MOD_TIMING.SAMPLE_OFS 0) with mode := { c.mode with code := .drive } }),
        2, by decide +kernel⟩
  · exact ⟨base [] (fun c => c.setUnit 2 { SarUnit.reset with phase := 3, urgent := some (1, 0) }), 2, 77, by decide +kernel⟩
  · exact ⟨base [] (fun c => (((c.setF (CNV_U_CTRL.EN 2) 1).setF (CNV_U_CTRL.LEN 2) 4).setUnit 2
        { SarUnit.reset with phase := 2 })), 2, by decide +kernel⟩
  · exact ⟨base [] (fun c => (c.setF (CNV_U_CTRL.EN 2) 1).setF (CNV_U_CTRL.LEN 2) 4), 2, by decide +kernel⟩
  · exact ⟨base [] (fun c =>
        { ((c.setF (CNV_U_CTRL.EN 2) 1).setF (CNV_U_CTRL.LEN 2) 4).setF (CNV_U_CTRL.TRIG_SRC 2) 1 with modu := { c.modu with trig := [(0, 1)] } }),
        2, by decide +kernel⟩
  · exact ⟨base [] (fun c => c.setUnit 2 { SarUnit.reset with urgent := some (1, 0) }), 2, 1, by decide +kernel⟩
  · exact ⟨base [] (fun c => c.setF (CNV_U_URG_RESULT.DONE 0) 1), 0, 0, by decide +kernel⟩
  · exact ⟨base [] (fun c => c.setF (LNK_LANE_STATUS.STATE 5) 2), 5, List.replicate 766 0xFF, by decide +kernel⟩

/-- The hypotheses of ConversionEvents can be met together. -/
theorem test_meets_ConversionEvents_1 :
    (∃ (s : State) (n : Fin 128) (chars : List Byte) (k : Nat), s.core.laneState n.val = 2 ∧ chars.length = 766 ∧
       (s.core.cellVal n.val).auxIdx = some k ∧ k < 7) := by
  exact ⟨base [] (fun c => (c.setF (LNK_LANE_STATUS.STATE 5) 2).setCellVal 5 { CellVal.reset with auxIdx := some 6 }),
        5, List.replicate 766 0xFF, 6, by decide +kernel⟩

/-- The hypotheses of TimerChannelEvents can be met together. -/
theorem test_meets_TimerChannelEvents_0 :
    (∃ (s : State) (k : Fin 64) (kind : Fin 4),
      (s.core.tchMode k.val ≠ 0 ∧ (s.core.tch k.val).val 0 ≠ 0) ∧
      (s.core.tchHits k.val kind.val (s.core.tchCount k.val s.core.now).1 = true ∧ (s.core.tch k.val).fired.getD
        kind.val 0 ≠ s.core.now + 1 ∧ (s.core.tch k.val).val 3 / 256 ^ kind.val % 256 = 0)) ∧
    (∃ (s : State) (k : Fin 64) (l : List Nat), s.core.tchMode k.val ≠ 0 ∧ (s.core.tch k.val).val 0 ≠ 0 ∧
       (s.core.tchCount k.val s.core.now).1 = 0 ∧ (s.core.tch k.val).pend = some l) ∧
    (∃ (s : State) (k : Fin 64), s.core.tchOwned k.val = false) ∧
    (∃ (s : State) (k : Fin 64), s.core.tchOwned k.val = true) ∧
    (∃ (s : State) (k : Fin 64) (mode : Fin 4),
      (s.core.tchOwned k.val = false ∧ s.core.tchMode k.val = 0) ∧
      (mode.val = 1 ∨ mode.val = 2)) ∧
    (∃ (s : State) (k : Fin 64) (mode : Fin 4), s.core.tchOwned k.val = true) := by
  refine ⟨?_, ?_, ?_, ?_, ?_, ?_⟩
  · exact ⟨base [] (fun c => (c.setF (MOD_TCH_CFG.CNT_MODE 63) 1).setTch 63 { Tch.reset with applied := [5, 0, 0, 0] }),
        63, 0, by decide +kernel⟩
  · exact ⟨base [] (fun c => ((c.setF (MOD_TCH_CFG.CNT_MODE 63) 1).setF (MOD_TCH_STAT.PENDING 63) 1).setTch 63
        { Tch.reset with applied := [5, 0, 0, 0], pend := some [7, 1, 2, 0] }), 63, [7, 1, 2, 0], by decide +kernel⟩
  · exact ⟨base [] (fun c => c), 63, by decide +kernel⟩
  · exact ⟨base [] (fun c => c.setF (MOD_TCH_CFG.OWNER 63) 1), 63, by decide +kernel⟩
  · exact ⟨base [] (fun c => c), 63, 2, by decide +kernel⟩
  · exact ⟨base [] (fun c => c.setF (MOD_TCH_CFG.OWNER 63) 1), 63, 3, by decide +kernel⟩

/-- The hypotheses of ClockEvents can be met together. -/
theorem test_meets_ClockEvents_0 :
    (∃ (s : State) (p : Fin 4) (count : Nat) (bypass : Nat) (phi : Int) (ppm : Int),
      (s.core.pd7 = true ∧ s.core.flag CLK_STATUS.REF_VALID = true ∧ s.core.clk.gap = false ∧ windowOk bypass =
        true) ∧
      (s.core.pll p.val = pllACQUIRE ∧ 2 ≤ s.core.getF (CLK_PLL_STAT.RUN p.val) ∧ ((count : Int) - pllExpect
        p.val).natAbs ≤ 2)) ∧
    (∃ (s : State) (p : Fin 4) (count : Nat) (bypass : Nat) (phi : Int) (ppm : Int), s.core.pd7 = true) ∧
    (∃ (s : State) (src : Fin 2), s.core.getF CLK_CTRL.REF_SEL = src.val ∧ s.core.flag CLK_STATUS.REF_VALID = true) ∧
    (∃ (s : State) (i : Fin 12) (b : Nat) (d : Nat), bypassBit i.val = some b ∧ s.core.clk.change.getD i.val 0 = d ∧
       d ≠ 0) ∧
    (∃ (s : State) (p : Fin 4),
      (p.val ≠ 0 ∧ s.core.pll p.val = pllSLEW) ∧
      ((p.val = 1 ∧ s.core.slewRemain.natAbs ≤ 10) ∨ (p.val ≠ 1 ∧ s.core.pll 1 = pllLOCKED))) ∧
    (∃ (s : State) (u : Nat), s.core.clk.lossAt = some u ∧ s.core.clk.exceeded = false ∧ s.core.holdMax ≤
       s.core.holdMs) ∧
    (∃ (s : State) (count : Nat),
      (125 < ((count : Int) - 2500).natAbs ∧ s.core.causeOn .clockFault 0 = false) ∧
      (s.core.mode.code ≠ .off ∧ s.core.mode.code ≠ .safe)) ∧
    (∃ (s : State) (count : Nat),
      (((count : Int) - 2500).natAbs ≤ 125) ∧
      (∀ a ∈ s.core.tlm.alarms, a.name = .clockFault → a.fold = false ∧ a.inst = 0)) := by
  refine ⟨?_, ?_, ?_, ?_, ?_, ?_, ?_, ?_⟩
  · exact ⟨base [] (fun c =>
        { ((c.setF CLK_STATUS.REF_VALID 1).setF (CLK_PLL_STAT.STATE 3) pllACQUIRE).setF (CLK_PLL_STAT.RUN 3) 2 with pwr := { c.pwr with step := 1 } }),
        3, 163842, 16384, 0, 0, by decide +kernel⟩
  · exact ⟨base [] (fun c => { c with pwr := { c.pwr with step := 1 } }), 0, 7, 0, 0, 0, by decide +kernel⟩
  · exact ⟨base [] (fun c => (c.setF CLK_STATUS.REF_VALID 1).setF CLK_CTRL.REF_SEL 1), 1, by decide +kernel⟩
  · exact ⟨base [] (fun c => { c with clk := { c.clk with change := List.replicate 9 0 ++ [1, 0, 0] } }), 9, 4, 1, by decide +kernel⟩
  · exact ⟨base [] (fun c => { c.setF (CLK_PLL_STAT.STATE 1) pllSLEW with clk := { c.clk with slewFrom := -10 } }), 1, by decide +kernel⟩
  · exact ⟨base [] (fun c => { c with clk := { c.clk with lossAt := some 0 }, now := 3600000000000 }), 0, by decide +kernel⟩
  · exact ⟨base [] (fun c => { c with mode := { c.mode with code := .hold } }), 2626, by decide +kernel⟩
  · exact ⟨base [] (fun c => c.raise .clockFault 0 [1] true), 2625, by decide +kernel⟩

/-- The hypotheses of ClockEvents can be met together. -/
theorem test_meets_ClockEvents_1 :
    (∃ (s : State), s.core.flag CLK_STATUS.WALL_DEGRADED = false) ∧
    (∃ (s : State), s.core.flag CLK_STATUS.WALL_DEGRADED = true) := by
  refine ⟨?_, ?_⟩
  · exact ⟨base [] (fun c => c), by decide +kernel⟩
  · exact ⟨base [] (fun c => c.setF CLK_STATUS.WALL_DEGRADED 1), by decide +kernel⟩

/-- The hypotheses of ResolverEvents can be met together. -/
theorem test_meets_ResolverEvents_0 :
    (∃ (s : State) (sin : SarRaw) (cos : SarRaw) (k : Nat) (u : Nat),
      (s.core.fbk.pair = some (k, u) ∧ (s.core.unit 0).phase = 4 ∧ (s.core.unit 0).due ≤ 2 * s.core.now) ∧
      (s.core.excitation = true)) ∧
    (∃ (s : State), s.core.flag FBK_CTRL.RES_EN = true ∧ s.core.flag FBK_RES_STAT.LOCKED = false ∧ 64 ≤ s.core.getF
       FBK_RES_STAT.RUN) ∧
    (∃ (s : State), s.core.flag FBK_RES_STAT.LOCKED = true ∧ 4 ≤ s.core.fbk.runLos) ∧
    (∃ (s : State), s.core.flag FBK_RES_STAT.LOCKED = true ∧ 4 ≤ s.core.fbk.runClip) ∧
    (∃ (s : State), s.core.flag FBK_RES_STAT.LOCKED = true ∧ s.core.lotN ≤ s.core.fbk.runLot) := by
  refine ⟨?_, ?_, ?_, ?_, ?_⟩
  · exact ⟨base [] (fun c =>
        { ((c.setF FBK_CTRL.RES_EN 1).setF PWR_STATUS.ON 0x3FF).setUnit 0 { SarUnit.reset with phase := 4, due := 5 } with now := 1000000, fbk := { c.fbk with pair := some (9, 19), served := 1000000 } }),
        ⟨7, true⟩, ⟨9, true⟩, 9, 19, by decide +kernel⟩
  · exact ⟨base [] (fun c => (c.setF FBK_CTRL.RES_EN 1).setF FBK_RES_STAT.RUN 64), by decide +kernel⟩
  · exact ⟨base [] (fun c => { c.setF FBK_RES_STAT.LOCKED 1 with fbk := { c.fbk with runLos := 300 } }), by decide +kernel⟩
  · exact ⟨base [] (fun c => { c.setF FBK_RES_STAT.LOCKED 1 with fbk := { c.fbk with runClip := 300 } }), by decide +kernel⟩
  · exact ⟨base [] (fun c => { c.setF FBK_RES_STAT.LOCKED 1 with fbk := { c.fbk with runLot := 300 } }), by decide +kernel⟩

/-- The hypotheses of InputEvents can be met together. -/
theorem test_meets_InputEvents_0 :
    (∃ (s : State) (code : BitVec 3) (r : Held) (island : Held),
      (s.core.getF FBK_HALL_STAT.CODE ≠ code.toNat) ∧
      (s.core.shown s.core.inputStep r = true ∧ s.core.getF FBK_IN_FILT.HALL < r.n)) ∧
    (∃ (s : State) (a : Bool) (b : Bool) (r : Held),
      (bitOf (s.core.getF FBK_IN_STAT.LEVEL) 3 ≠ a ∨ bitOf (s.core.getF FBK_IN_STAT.LEVEL) 4 ≠ b) ∧
      (s.core.shown s.core.inputStep r = true ∧ s.core.getF FBK_IN_FILT.AXLE < r.n)) ∧
    (∃ (s : State) (a : Bool) (b : Bool) (r : Held),
      (bitOf (s.core.getF FBK_IN_STAT.LEVEL) 3 = a ∧ bitOf (s.core.getF FBK_IN_STAT.LEVEL) 4 ≠ b) ∧
      (s.core.shown s.core.inputStep r = true ∧ s.core.getF FBK_IN_FILT.AXLE < r.n) ∧
      (s.core.flag FBK_CTRL.AXLE_EN = true ∧ s.core.flag FBK_CTRL.AXLE_MODE = false)) ∧
    (∃ (s : State) (a : Bool) (b : Bool) (r : Held), s.core.shown s.core.inputStep r = true ∧ r.n ≤ s.core.getF
       FBK_IN_FILT.AXLE) ∧
    (∃ (s : State) (level : Bool) (r : Held),
      (bitOf (s.core.getF FBK_IN_STAT.LEVEL) 5 ≠ level) ∧
      (s.core.shown s.core.inputStep r = true ∧ s.core.getF FBK_IN_FILT.MARKER < r.n)) ∧
    (∃ (s : State) (level : Bool) (r : Held),
      (bitOf (s.core.getF FBK_IN_STAT.LEVEL) 6 ≠ level) ∧
      (s.core.shown s.core.inputStep r = true ∧ s.core.getF FBK_IN_FILT.ENDSTOP < r.n)) ∧
    (∃ (s : State) (input : Fin 7) (u : Nat),
      (u ≤ s.core.now ∧ max 1 (s.core.getF FBK_IN_CFG.CHAT_MAX) < s.core.rejected input.val u) ∧
      (s.core.fbk.chatAt.getD input.val 0 = 0 ∨ s.core.fbk.chatAt.getD input.val 0 + 1000000 ≤ u + 1)) ∧
    (∃ (s : State) (endstop : Bool) (u : Nat),
      (s.core.fbk.activeAt.getD (b2n endstop) none = some u) ∧
      (s.core.getF (if endstop then FBK_IN_STUCK.ENDSTOP else FBK_IN_STUCK.MARKER) ≠ 0 ∧ u + s.core.getF (if endstop
        then FBK_IN_STUCK.ENDSTOP else FBK_IN_STUCK.MARKER) * 1000000 < s.core.now) ∧
      (s.core.flag (if endstop then FBK_IN_STAT.ENDSTOP_STUCK else FBK_IN_STAT.MARKER_STUCK) = false)) := by
  refine ⟨?_, ?_, ?_, ?_, ?_, ?_, ?_, ?_⟩
  · exact ⟨base [] (fun c => { c.setF FBK_CTRL.HALL_EN 1 with now := 100000 }), 7, ⟨0, 300⟩, ⟨0, 1⟩, by decide +kernel⟩
  · exact ⟨base [] (fun c => { c.setF FBK_CTRL.AXLE_EN 1 with now := 100000 }), true, true, ⟨0, 300⟩, by decide +kernel⟩
  · exact ⟨base [] (fun c => { c.setF FBK_CTRL.AXLE_EN 1 with now := 100000 }), false, true, ⟨0, 300⟩, by decide +kernel⟩
  · exact ⟨base [] (fun c => { c.setF FBK_CTRL.AXLE_EN 1 with now := 100000 }), false, true, ⟨0, 1⟩, by decide +kernel⟩
  · exact ⟨base [] (fun c => { c.setF FBK_AXLE_COUNT.COUNT 77 with now := 100000 }), true, ⟨0, 300⟩, by decide +kernel⟩
  · exact ⟨base [] (fun c => { c with now := 100000 }), true, ⟨0, 300⟩, by decide +kernel⟩
  · exact ⟨base [] (fun c => { c with fbk := { c.fbk with rejects := List.replicate 256 (6, 0) } }), 6, 0, by decide +kernel⟩
  · exact ⟨base [] (fun c =>
        { c.setF FBK_IN_STUCK.ENDSTOP 1 with fbk := { c.fbk with activeAt := [none, some 0] }, now := 1000001 }),
        true, 0, by decide +kernel⟩

/-- The hypotheses of InputEvents can be met together. -/
theorem test_meets_InputEvents_1 :
    (∃ (s : State) (axle : Bool), axle = true ∧ s.core.fbk.axle.tLast + s.core.stopTime * 1000000 < s.core.now ∧
       s.core.flag FBK_CTRL.AXLE_EN = true) ∧
    (∃ (s : State) (axle : Bool), axle = false ∧ s.core.fbk.hall.tLast + s.core.stopTime * 1000000 < s.core.now ∧
       s.core.flag FBK_CTRL.HALL_EN = true ∧ hallSector false (s.core.getF FBK_HALL_STAT.CODE) ≠ none) ∧
    (∃ (s : State) (k : Fin 4) (u : Nat), s.core.dok.pulseEnd.getD k.val none = some u ∧ u ≤ s.core.now) := by
  refine ⟨?_, ?_, ?_⟩
  · exact ⟨base [] (fun c => { c.setF FBK_CTRL.AXLE_EN 1 with now := 70000000000 }), true, by decide +kernel⟩
  · exact ⟨base [] (fun c => { (c.setF FBK_CTRL.HALL_EN 1).setF FBK_HALL_STAT.CODE 5 with now := 70000000000 }), false,
        by decide +kernel⟩
  · exact ⟨base [] (fun c =>
        { c.setF DOK_STATUS.OUT 8 with dok := { c.dok with pulseEnd := [none, none, none, some 0] } }), 3, 0, by decide +kernel⟩

/-- The hypotheses of SafetyIslandEvents can be met together. -/
theorem test_meets_SafetyIslandEvents_0 :
    (∃ (s : State), s.core.saf.req ≠ [] ∧ s.core.mode.code ≠ .off ∧ s.core.mode.code ≠ .safe) ∧
    (∃ (s : State) (h : Fin 256) (u : Nat), (s.core.hb h.val).forceAt = some u ∧ launchOf u ≤ s.core.now ∧
       (s.core.hb h.val).held = false ∧ 2 ≤ s.core.getF SAF_STATUS.FORCE) ∧
    (∃ (s : State), s.core.saf.internal = false ∧ s.core.saf.latchAt + 100000 ≤ s.core.now) ∧
    (∃ (s : State), s.core.saf.internal = false) ∧
    (∃ (s : State), s.core.tqTime < s.core.saf.tqRun ∧ s.core.saf.tqHit = false) ∧
    (∃ (s : State), s.core.tqTime < s.core.saf.angRun ∧ s.core.saf.angHit = false) ∧
    (∃ (s : State), s.core.saf.crashIn = false) ∧
    (∃ (s : State), s.core.saf.crashIn = true) := by
  refine ⟨?_, ?_, ?_, ?_, ?_, ?_, ?_, ?_⟩
  · exact ⟨base [] (fun c => { c with mode := { c.mode with code := .hold }, saf := { c.saf with req := [.crash] } }), by decide +kernel⟩
  · exact ⟨base [] (fun c =>
        { (c.setF SAF_STATUS.FORCE 2).modHb 255 fun b => { b with forceAt := some 1128 } with now := 1000 }), 255,
        1128, by decide +kernel⟩
  · exact ⟨base [] (fun c => { c with now := 100000 }), by decide +kernel⟩
  · exact ⟨base [] (fun c => { c with mode := { c.mode with code := .hold } }), by decide +kernel⟩
  · exact ⟨base [] (fun c => { c with saf := { c.saf with tqRun := 10000001 } }), by decide +kernel⟩
  · exact ⟨base [] (fun c => { c with saf := { c.saf with angRun := 10000001 } }), by decide +kernel⟩
  · exact ⟨base [] (fun c => c), by decide +kernel⟩
  · exact ⟨base [] (fun c => { c with saf := { c.saf with crashIn := true } }), by decide +kernel⟩

/-- The hypotheses of SafetyIslandEvents can be met together. -/
theorem test_meets_SafetyIslandEvents_1 :
    (∃ (s : State) (rawA : BitVec 16) (rawB : BitVec 16), s.core.flag SAF_STATUS.BLEED_DRV = true ∧
       s.core.saf.bleedNext ≤ s.core.now) ∧
    (∃ (s : State), s.core.flag SAF_STATUS.BLEED_DRV = true ∧ s.core.saf.bleedAt + 2000000000 ≤ s.core.now ∧
       s.core.saf.bleedOk = false ∧ s.core.causeOn .bleedTimeout 0 = false) ∧
    (∃ (s : State) (a : BitVec 32), a.toNat / 0x10000 = 0x4012) := by
  refine ⟨?_, ?_, ?_⟩
  · exact ⟨base [] (fun c => { c.setF SAF_STATUS.BLEED_DRV 1 with now := 5000000 }), 1, 2, by decide +kernel⟩
  · exact ⟨base [] (fun c => { c.setF SAF_STATUS.BLEED_DRV 1 with now := 2000000000 }), by decide +kernel⟩
  · exact ⟨base [] (fun c => c.setF SAF_WRITE_ATTEMPTS.COUNT 65535), BitVec.ofNat 32 SAF_STATUS.a, by decide +kernel⟩

/-- The hypotheses of StartEvents can be met together. -/
theorem test_meets_StartEvents_0 :
    (∃ (s : State),
      (s.core.start.phase = 1 ∧ s.core.start.next = none ∧ s.core.start.failing = 0 ∧ s.core.start.ran = true ∧
        (131072 ≤ s.core.start.adv.natAbs ∨ s.core.start.phaseAt + 20000000 ≤ s.core.cnv.sampleAt)) ∧
      ((s.core.atStandstill s.core.emfSpeed = true ∨ s.core.emfPlausible s.core.emfSpeed = true) ∧ s.core.emfAgrees
        s.core.emfSpeed (s.core.atStandstill s.core.emfSpeed) = true ∧ s.core.resLocked = true)) ∧
    (∃ (s : State),
      (s.core.start.phase = 1 ∧ s.core.start.next = none ∧ s.core.start.failing = 0 ∧ s.core.start.ran = true ∧
        (131072 ≤ s.core.start.adv.natAbs ∨ s.core.start.phaseAt + 20000000 ≤ s.core.cnv.sampleAt)) ∧
      (s.core.atStandstill s.core.emfSpeed = false ∧ s.core.emfPlausible s.core.emfSpeed = false)) ∧
    (∃ (s : State), s.core.start.phase = 2 ∧ (s.core.start.src = 1 ∨ s.core.start.src = 3) ∧ 8 ≤
       s.core.start.periods ∧ s.core.start.next = none ∧ s.core.start.failing = 0) ∧
    (∃ (s : State), s.core.start.phase = 3 ∧ s.core.start.next = none ∧ s.core.start.failing = 0 ∧
       s.core.start.phaseAt + 30000000000 ≤ s.core.now) ∧
    (∃ (s : State), s.core.start.phase = 4 ∧ s.core.start.next = none ∧ s.core.start.failing = 0 ∧
       s.core.start.phaseAt + u16 s.core.startP 16 * 1000000 ≤ s.core.now) ∧
    (∃ (s : State), (s.core.start.phase = 5 ∨ (s.core.start.phase = 2 ∧ s.core.start.src = 5)) ∧ s.core.start.next =
       none ∧ s.core.start.failing = 0 ∧ s.core.start.phaseAt + u16 s.core.startP 20 * 1000000 ≤ s.core.now) ∧
    (∃ (s : State),
      (4 ≤ s.core.start.misses ∨ (s.core.start.phase = 6 ∧ s.core.start.src = 6 ∧ u8 s.core.startP 9 ≤
        s.core.start.extrap)) ∧
      (s.core.mode.code ≠ .safe ∧ s.core.mode.code ≠ .off ∧ s.core.causeOn .angleLost 0 = false)) := by
  refine ⟨?_, ?_, ?_, ?_, ?_, ?_, ?_⟩
  · exact ⟨base [] (fun c =>
        { c.setF FBK_RES_STAT.LOCKED 1 with start := { c.start with phase := 1, ran := true }, fbk := { c.fbk with theta := some 49152 }, cnv := { c.cnv with sampleAt := 20000000 } }),
        by decide +kernel⟩
  · exact ⟨base [] (fun c =>
        { c with start := { c.start with phase := 1, ran := true, ampSum := 5, ampN := 1 }, cnv := { c.cnv with sampleAt := 20000000 } }),
        by decide +kernel⟩
  · exact ⟨base [] (fun c => { c with start := { c.start with phase := 2, src := 3, periods := 8 } }), by decide +kernel⟩
  · exact ⟨base [] (fun c => { c with start := { c.start with phase := 3 }, now := 30000000000 }), by decide +kernel⟩
  · exact ⟨base [] (fun c => { c with start := { c.start with phase := 4 }, now := 100000000000 }), by decide +kernel⟩
  · exact ⟨base [] (fun c => { c with start := { c.start with phase := 5 }, now := 100000000000 }), by decide +kernel⟩
  · exact ⟨base [] (fun c => { c with start := { c.start with misses := 4 }, mode := { c.mode with code := .drive } }),
        by decide +kernel⟩

/-- The hypotheses of GridEvents can be met together. -/
theorem test_meets_GridEvents_0 :
    (∃ (s : State) (p : Pending) (u : Nat), s.core.gridWaiting = some p ∧ s.core.grid.presentSince = some u ∧ u +
       20000000 ≤ s.core.now) ∧
    (∃ (s : State) (p : Pending) (u : Nat), s.core.gridWaiting = some p ∧ s.core.grid.absentSince = some u ∧ u +
       20000000 ≤ s.core.now ∧ p.option = 1 ∧ bitOf (u8 s.core.gridP 6) 1 = true) ∧
    (∃ (s : State) (p : Pending), s.core.gridWaiting = some p ∧ p.accepted + 100000000 ≤ s.core.now ∧
       s.core.gridFound p = false) ∧
    (∃ (s : State) (u : Nat), s.core.grid.syncSince = some u ∧ s.core.grid.phase = 1 ∧ s.core.grid.next = none ∧ u +
       u16 s.core.gridP 20 * 1000000 ≤ s.core.now) ∧
    (∃ (s : State), s.core.grid.phase = 1 ∧ s.core.grid.next = none ∧ s.core.grid.phaseAt + u16 s.core.gridP 22 *
       1000000 ≤ s.core.now) ∧
    (∃ (s : State) (k : Nat),
      ([1, 2, 3, 4, 5, 6, 7, 8].find? (fun j => (s.core.grid.condSince.getD (j - 1) none).any (fun v =>
        s.core.condOn j && decide (v + s.core.condTime j < s.core.cnv.sampleAt))) = some k) ∧
      (AlarmName.gridTrip ∉ s.core.saf.req ∧ s.core.mode.code ≠ .safe)) := by
  refine ⟨?_, ?_, ?_, ?_, ?_, ?_⟩
  · exact ⟨base [] (fun c =>
        { c with mode := { c.mode with pend := some ⟨.grid, 0, 0, 0, none, 0, false, false⟩ }, grid := { c.grid with presentSince := some 0 }, now := 20000000 }),
        ⟨.grid, 0, 0, 0, none, 0, false, false⟩, 0, by decide +kernel⟩
  · exact ⟨base [] (fun c =>
        { c with inForce := [(0x02D0, zeros 6 ++ [2] ++ zeros 57)], mode := { c.mode with pend := some ⟨.grid, 1, 0, 0, none, 0, false, false⟩ }, grid := { c.grid with absentSince := some 0 }, now := 20000000 }),
        ⟨.grid, 1, 0, 0, none, 0, false, false⟩, 0, by decide +kernel⟩
  · exact ⟨base [] (fun c =>
        { c with mode := { c.mode with pend := some ⟨.grid, 0, 0, 0, none, 0, false, false⟩ }, now := 100000000 }),
        ⟨.grid, 0, 0, 0, none, 0, false, false⟩, by decide +kernel⟩
  · exact ⟨base [] (fun c => { c with grid := { c.grid with phase := 1, syncSince := some 0 } }), 0, by decide +kernel⟩
  · exact ⟨base [] (fun c => { c with grid := { c.grid with phase := 1 } }), by decide +kernel⟩
  · exact ⟨base [] (fun c =>
        { c with grid := { c.grid with phase := 3, condSince := [none, none, none, none, none, none, none, some 0] }, cnv := { c.cnv with sampleAt := 20000001 }, mode := { c.mode with code := .grid } }),
        8, by decide +kernel⟩

/-- The hypotheses of ControlPeriodEvents can be met together. -/
theorem test_meets_ControlPeriodEvents_0 :
    (∃ (s : State), s.core.flag CLK_STATUS.ORIGIN_SET = true ∧ s.core.modu.start + s.core.tc ≤ s.core.now) ∧
    (∃ (s : State) (bits : List (List CellBit)), s.core.flag CLK_STATUS.ORIGIN_SET = true ∧ s.core.modu.stage = 0 ∧
       s.core.sampleNow ≤ s.core.now) ∧
    (∃ (s : State), s.core.flag CLK_STATUS.ORIGIN_SET = true ∧ s.core.modu.stage = 1 ∧ s.core.sampleNow + 1200 ≤
       s.core.now) ∧
    (∃ (s : State), s.core.flag CLK_STATUS.ORIGIN_SET = true ∧ s.core.modu.stage = 2 ∧ s.core.applyAt ≤ s.core.now) ∧
    (∃ (s : State) (x : DispOut), s.core.disp.out = some x ∧ s.core.modu.stage = 3 ∧ s.core.applyAt +
       s.core.dispatchTime ≤ s.core.now) ∧
    (∃ (s : State), s.core.flag CLK_STATUS.ORIGIN_SET = true ∧ s.core.modu.stage = 3 ∧ s.core.modu.start + s.core.tc
       - 1000 ≤ s.core.now) ∧
    (∃ (s : State), 4 ≤ s.core.modu.repeats ∧ s.core.causeOn .dispatchStall 0 = false) := by
  refine ⟨?_, ?_, ?_, ?_, ?_, ?_, ?_⟩
  · exact ⟨base [] (fun c => { ((c.setF CLK_STATUS.ORIGIN_SET 1).setF MOD_TC.TC 25000) with now := 25000 }), by decide +kernel⟩
  · exact ⟨base [] (fun c => { ((c.setF CLK_STATUS.ORIGIN_SET 1).setF MOD_TC.TC 25000) with now := 25000 }), [], by decide +kernel⟩
  · exact ⟨base [] (fun c =>
        { ((c.setF CLK_STATUS.ORIGIN_SET 1).setF MOD_TC.TC 25000).setF CEN_CTRL.RUN 1 with now := 25000, modu := { c.modu with stage := 1 } }),
        by decide +kernel⟩
  · exact ⟨base [] (fun c =>
        { ((c.setF CLK_STATUS.ORIGIN_SET 1).setF MOD_TC.TC 25000) with now := 25000, modu := { c.modu with stage := 2 } }),
        by decide +kernel⟩
  · exact ⟨base [] (fun c =>
        { ((c.setF CLK_STATUS.ORIGIN_SET 1).setF MOD_TC.TC 25000) with now := 25000, modu := { c.modu with stage := 3 }, disp := { c.disp with out := some ⟨[], [], []⟩ } }),
        ⟨[], [], []⟩, by decide +kernel⟩
  · exact ⟨base [] (fun c =>
        { ((c.setF CLK_STATUS.ORIGIN_SET 1).setF MOD_TC.TC 25000) with now := 25000, modu := { c.modu with stage := 3 } }),
        by decide +kernel⟩
  · exact ⟨base [] (fun c => { c with modu := { c.modu with repeats := 4 }, mode := { c.mode with code := .drive } }), by decide +kernel⟩

/-- The hypotheses of ModeProcedureEvents can be met together. -/
theorem test_meets_ModeProcedureEvents_0 :
    (∃ (s : State) (p : Pending), s.core.mode.pend = some p ∧ p.ramp = true ∧ s.core.rampSmall p = true) ∧
    (∃ (s : State) (p : Pending),
      (s.core.mode.pend = some p ∧ p.ramp = true ∧ p.accepted + 2000000000 ≤ s.core.now ∧ s.core.rampSmall p = false
        ∧ AlarmName.rampTimeout ∉ s.core.saf.req) ∧
      (s.core.mode.code ≠ .off ∧ s.core.mode.code ≠ .safe)) ∧
    (∃ (s : State), s.core.map.checking = true ∧ s.core.identityKnown = true) := by
  refine ⟨?_, ?_, ?_⟩
  · exact ⟨base [] (fun c =>
        { c with mode := { c.mode with code := .drive, pend := some ⟨.hold, 0, 0, 0, none, 0, true, false⟩ } }),
        ⟨.hold, 0, 0, 0, none, 0, true, false⟩, by decide +kernel⟩
  · exact ⟨base [] (fun c =>
        { c with mode := { c.mode with code := .chargeDc, vDc := 1000000, iLim := 1000000, pend := some ⟨.hold, 0, 0, 0, none, 0, true, false⟩ }, now := 2000000000 }),
        ⟨.hold, 0, 0, 0, none, 0, true, false⟩, by decide +kernel⟩
  · exact ⟨base [] (fun c => { c with map := { c.map with checking := true, id := 7 } }), by decide +kernel⟩

/-- The hypotheses of HostPortEvents can be met together. -/
theorem test_meets_HostPortEvents_0 :
    (∃ (s : State) (m : Fin 16), s.core.getF (mbState m.val) = 0) ∧
    (∃ (s : State) (m : Fin 16), s.core.getF (mbState m.val) ≠ 0) ∧
    (∃ (s : State) (m : Byte),
      (s.core.getF (mbState m.toNat) = 0) ∧
      (m.toNat < 16)) ∧
    (∃ (s : State) (m : Byte),
      (s.core.getF (mbState m.toNat) ≠ 0) ∧
      (m.toNat < 16)) ∧
    (∃ (s : State) (addr : BitVec 24) (data : List Byte), addr.toNat + data.length ≤ 0x10000 ∧ addr.toNat < 0x10000
       ∧ (touched addr.toNat data.length).all (fun m => s.core.getF (mbState m) == 0) = true) ∧
    (∃ (s : State) (addr : BitVec 24) (data : List Byte), 0x10000 < addr.toNat + data.length) ∧
    (∃ (s : State) (addr : BitVec 24) (n : Nat), addr.toNat < 0x10000) ∧
    (∃ (s : State) (port : Fin 2) (d : Datagram), s.core.onBypass 9 = false ∧ d.dstPort.toNat = s.core.udpPort ∧
       (d.sumOk = false ∨ d.data.length < 4 ∨ 4100 < d.data.length)) := by
  refine ⟨?_, ?_, ?_, ?_, ?_, ?_, ?_, ?_⟩
  · exact ⟨base [] (fun c => c), 15, by decide +kernel⟩
  · exact ⟨base [] (fun c => c.setF (mbState 15) 2), 15, by decide +kernel⟩
  · exact ⟨base [] (fun c => c), 15, by decide +kernel⟩
  · exact ⟨base [] (fun c => c.setF (mbState 15) 2), 15, by decide +kernel⟩
  · exact ⟨base [] (fun c => c), 0xFFFE, [7, 0], by decide +kernel⟩
  · exact ⟨base [] (fun c => c), 0xFFFF, [7, 0], by decide +kernel⟩
  · exact ⟨base [] (fun c => c), 0xFFFF, 4, by decide +kernel⟩
  · exact ⟨base [] (fun c => c), 0, ⟨1, 2, 50712, false, []⟩, by decide +kernel⟩

/-- The hypotheses of HostPortEvents can be met together. -/
theorem test_meets_HostPortEvents_1 :
    (∃ (s : State) (port : Fin 2) (d : Datagram),
      (s.core.onBypass 9 = false ∧ d.dstPort.toNat = s.core.udpPort ∧ d.sumOk = true ∧ 4 ≤ d.data.length ∧
        d.data.length ≤ 4100) ∧
      (u8 d.data 0 < 16 ∧ u8 d.data 1 = 1 ∧ u16 d.data 2 = 0 ∧ s.core.getF (MBX_MB_CFG.PORT (u8 d.data 0)) = 1 +
        port.val) ∧
      (((s.core.box (u8 d.data 0)).peer = 0 ∨ (s.core.box (u8 d.data 0)).peer = d.src.toNat) ∧ s.core.ipOf port.val
        ≠ 0 ∧ s.core.getF (mbState (u8 d.data 0)) = 0)) ∧
    (∃ (s : State) (port : Fin 2) (target : BitVec 32) (sender : BitVec 32) (senderMac : BitVec 48), s.core.onBypass
       9 = false ∧ s.core.ipOf port.val ≠ 0 ∧ target.toNat = s.core.ipOf port.val) ∧
    (∃ (s : State) (port : Fin 2) (src : BitVec 32) (dst : BitVec 32) (data : List Byte), s.core.onBypass 9 = false
       ∧ s.core.ipOf port.val ≠ 0 ∧ dst.toNat = s.core.ipOf port.val) ∧
    (∃ (s : State) (port : Fin 4) (id : BitVec 29) (h : Byte) (rest : List Byte) (k : Nat), s.core.onBypass 9 =
       false ∧ s.core.canBox port.val id.toNat = some k ∧ k < 16 ∧ h.toNat = 0x80 ∧ s.core.getF (mbState k) = 0 ∧
       rest.length ≤ 4096) ∧
    (∃ (s : State) (port : Fin 4) (id : BitVec 29) (h : Byte) (rest : List Byte) (k : Nat), s.core.onBypass 9 =
       false ∧ s.core.canBox port.val id.toNat = some k ∧ 0 < h.toNat % 128 ∧ ¬ ((s.core.box k).canNext = some
       (h.toNat % 128) ∧ s.core.now ≤ (s.core.box k).canTime + 100000000)) ∧
    (∃ (s : State) (port : Fin 2) (up : Bool), s.core.mbx.ethUp.length = 2) ∧
    (∃ (s : State) (m : Fin 16) (r : CmdRef), (s.core.box m.val).cur = some r ∧ r.mb = m.val ∧ s.core.getF (mbState
       m.val) = 2 ∧ (s.core.box m.val).taken + 100000000 ≤ s.core.now) ∧
    (∃ (s : State) (m : Fin 16),
      (s.core.nextBox = some m ∧ s.core.mode.code ≠ .off) ∧
      (u16 (readBytes s.mem (mbBuf m.val) 2) 0 = 0x0102 ∧ (s.core.setF (mbState m.val) 0).repeated (postedMsg s.mem
        m) = false) ∧
      (u16 (readBytes s.mem (mbBuf m.val) 16) 2 = 0 ∧ u32 (readBytes s.mem (mbBuf m.val) 16) 8 ≤ 4080)) := by
  refine ⟨?_, ?_, ?_, ?_, ?_, ?_, ?_, ?_⟩
  · exact ⟨base [] (fun c =>
        { c.setF (MBX_MB_CFG.PORT 15) 2 with cfg := [(0x0106, ⟨true, le 2 50712 ++ zeros 10 ++ [1, 0, 0, 10] ++ zeros 136, true, 0⟩)] }),
        1, ⟨5, 2, 50712, true, [15, 1, 0, 0, 9]⟩, by decide +kernel⟩
  · exact ⟨base [] (fun c => { c with cfg := [(0x0106, ⟨true, zeros 12 ++ [1, 0, 0, 10] ++ zeros 136, true, 0⟩)] }), 1,
        0x0A000001, 7, 9, by decide +kernel⟩
  · exact ⟨base [] (fun c => { c with cfg := [(0x0106, ⟨true, zeros 12 ++ [1, 0, 0, 10] ++ zeros 136, true, 0⟩)] }), 1,
        7, 0x0A000001, [1, 2, 3, 4], by decide +kernel⟩
  · exact ⟨base [] (fun c => c.setF (MBX_MB_CFG.PORT 2) 6), 3, 4, 0x80, [1, 2], 2, by decide +kernel⟩
  · exact ⟨base [] (fun c => c.setF (MBX_MB_CFG.PORT 2) 6), 3, 4, 0x81, [1, 2], 2, by decide +kernel⟩
  · exact ⟨base [] (fun c => c), 1, true, by decide +kernel⟩
  · exact ⟨base [] (fun c =>
        { (c.setF (mbState 15) 2).setBox 15 { Mbox.reset with cur := some ⟨15, 7, 0, 0, 0, 0, 0, 0⟩ } with now := 100000000 }),
        15, ⟨15, 7, 0, 0, 0, 0, 0, 0⟩, by decide +kernel⟩
  · exact ⟨base ([(0x2080F000, 2), (0x2080F001, 1)]) (fun c =>
        { c.setF (mbState 15) 1 with mode := { c.mode with code := .hold } }), 15, by decide +kernel⟩

/-- The hypotheses of HostPortEvents can be met together. -/
theorem test_meets_HostPortEvents_2 :
    (∃ (s : State) (m : Fin 16) (a : BitVec 32), s.core.nextBox = some m ∧ (s.core.setF (mbState m.val) 0).repeated
       (postedMsg s.mem m) = false) := by
  exact ⟨base ([(0x2080F000, 2), (0x2080F001, 1)]) (fun c =>
        { c.setF (mbState 15) 1 with mode := { c.mode with code := .hold } }), 15, 0x2080F010, by decide +kernel⟩

/-- The hypotheses of DmaEvents can be met together. -/
theorem test_meets_DmaEvents_0 :
    (∃ (s : State) (ch : Fin 16), s.core.chState ch.val = chIDLE ∨ s.core.chState ch.val = chABORTED) ∧
    (∃ (s : State) (ch : Fin 16), s.core.chState ch.val = chFAULTED) ∧
    (∃ (s : State) (ch : Fin 16), s.core.chState ch.val = chFAULTED) ∧
    (∃ (s : State) (ch : Fin 16), s.core.chState ch.val = chFAULTED ∧ mapGet (fun _ => 0) s.core.stu.faultAt ch.val
       + clampN 1 1000 (s.core.getF STU_FAULT_TIMEOUT.MS) * 1000000 ≤ s.core.now) ∧
    (∃ (s : State) (ch : Fin 16) (ecc : Option (BitVec 32)), s.core.granted ch.val = true ∧ ch.val < 13 ∧
       s.core.getF (STU_CH_REMAIN.VALUE ch.val) = 0) := by
  refine ⟨?_, ?_, ?_, ?_, ?_⟩
  · exact ⟨base [] (fun c => c.setReg (STU_CH_LEN.a 12) 7), 12, by decide +kernel⟩
  · exact ⟨base [] (fun c => c.setCh 15 chFAULTED), 15, by decide +kernel⟩
  · exact ⟨base [] (fun c => c.setCh 15 chFAULTED), 15, by decide +kernel⟩
  · exact ⟨base [] (fun c => { c.setCh 15 chFAULTED with now := 2000000000 }), 15, by decide +kernel⟩
  · exact ⟨base [] (fun c => (c.setF (STU_CH_CFG.EN 12) 1).setCh 12 chACTIVE), 12, none, by decide +kernel⟩

/-- The hypotheses of LedgerEvents can be met together. -/
theorem test_meets_LedgerEvents_0 :
    (∃ (s : State),
      (s.core.lgr.running = false ∧ s.core.lgr.lastStart.all (fun k => decide (k + 1000000000 ≤ s.core.now)) = true) ∧
      (s.core.lgr.due ≠ [] ∨ (s.core.flag LGR_CTRL.EN = true ∧ s.core.lgr.lastStart.all (fun k => decide (k +
        s.core.flushS * 1000000000 ≤ s.core.now)) = true))) ∧
    (∃ (s : State) (bad : BitVec 3), s.core.lgr.running = true) ∧
    (∃ (s : State) (n : Nat),
      ((s.core.ledRec n).state = 1 ∨ (s.core.ledRec n).state = 2) ∧
      (s.core.tempC n = none)) ∧
    (∃ (s : State) (n : Nat) (d : Int),
      ((s.core.ledRec n).state = 1 ∨ (s.core.ledRec n).state = 2) ∧
      (s.core.tempC n = some d)) ∧
    (∃ (s : State), s.core.lgr.running = false ∧ s.core.lgr.refreshAt ≤ s.core.now) := by
  refine ⟨?_, ?_, ?_, ?_, ?_⟩
  · exact ⟨base [] (fun c => { c with lgr := { c.lgr with due := [.event] } }), by decide +kernel⟩
  · exact ⟨base [] (fun c => { c with lgr := { c.lgr with running := true, active := [.park, .event] } }), 5, by decide +kernel⟩
  · exact ⟨base [] (fun c => { c with lgr := { c.lgr with recs := [(5, { LedRec.free with state := 1 })] } }), 5, by decide +kernel⟩
  · exact ⟨base [] (fun c =>
        { c.setCellVal 5 { CellVal.reset with aux := [some (2500, 0)] } with lgr := { c.lgr with recs := [(5, { LedRec.free with state := 1 })] } }),
        5, 2500, by decide +kernel⟩
  · exact ⟨base [] (fun c => c), by decide +kernel⟩

/-- The hypotheses of BackgroundEvents can be met together. -/
theorem test_meets_BackgroundEvents_0 :
    (∃ (s : State) (err : EccResult), s.core.flag TLM_CTRL.SCRUB_EN = true) ∧
    (∃ (s : State) (err : EccResult), s.core.lgr.running = false) ∧
    (∃ (s : State) (k : Fin 3) (gnd : BitVec 16) (bandgap : BitVec 16) (r1 : BitVec 16) (r2 : BitVec 16),
      (s.core.flag TLM_CTRL.CAL_EN = true ∧ (s.core.unit k.val).urgent = none ∧ (s.core.unit k.val).phase = 0 ∧
        (s.core.unit k.val).bg = none) ∧
      (s.core.tlm.calLast.length = 3 ∧ s.core.tlm.calLast.getD k.val 0 + 10000000000 ≤ s.core.now)) ∧
    (∃ (s : State), s.core.flag TLM_CTRL.THR_EN = true ∧ s.core.tlm.thrLast + 100000000 ≤ s.core.now) ∧
    (∃ (s : State) (l : Fin 128),
      (s.core.laneState l.val = 2 ∧ s.core.flag (LNK_LANE_EQ.AUTO l.val) = true ∧ s.core.tlm.eq.length = 2 ∧
        s.core.tlm.eq.getD (l.val / 64) none = none ∧ s.core.flag (LNK_LANE_INJ_STATUS.ACTIVE l.val) = false) ∧
      (mapGet (fun _ => 0) s.core.tlm.eqLast l.val = 0 ∨ mapGet (fun _ => 0) s.core.tlm.eqLast l.val + 180000000000
        ≤ s.core.now + 1)) ∧
    (∃ (s : State) (isl : Fin 2) (x : EqTrial), s.core.tlm.eq.length = 2 ∧ s.core.tlm.eq.getD isl.val none = some x
       ∧ x.stepAt + 1000000000 ≤ s.core.now ∧ x.phase = 0) ∧
    (∃ (s : State) (isl : Fin 2) (x : EqTrial), s.core.tlm.eq.length = 2 ∧ s.core.tlm.eq.getD isl.val none = some x
       ∧ x.stepAt + 1000000000 ≤ s.core.now ∧ x.phase ≠ 0) ∧
    (∃ (s : State), s.core.flag TLM_CTRL.WEAR_EN = true ∧ s.core.tlm.wearLast + 60000000000 ≤ s.core.now) := by
  refine ⟨?_, ?_, ?_, ?_, ?_, ?_, ?_, ?_⟩
  · exact ⟨base [] (fun c => { c.setF TLM_CTRL.SCRUB_EN 1 with tlm := { c.tlm with scrubAddr := 2621439 } }),
        .uncorrectable, by decide +kernel⟩
  · exact ⟨base [] (fun c => { c with tlm := { c.tlm with mramAddr := 0xFFFFE0 } }), .uncorrectable, by decide +kernel⟩
  · exact ⟨base [] (fun c => { c.setF TLM_CTRL.CAL_EN 1 with now := 10000000000 }), 2, 0, 0, 5, 5, by decide +kernel⟩
  · exact ⟨base [] (fun c => { c.setF TLM_CTRL.THR_EN 1 with now := 100000000 }), by decide +kernel⟩
  · exact ⟨base [] (fun c => (c.setF (LNK_LANE_STATUS.STATE 127) 2).setF (LNK_LANE_EQ.AUTO 127) 1), 127, by decide +kernel⟩
  · exact ⟨base [] (fun c =>
        { c with tlm := { c.tlm with eq := [none, some ⟨127, 1, 0, 5, [0, 0, 0], 0⟩] }, now := 1000000000 }), 1,
        ⟨127, 1, 0, 5, [0, 0, 0], 0⟩, by decide +kernel⟩
  · exact ⟨base [] (fun c =>
        { c with tlm := { c.tlm with eq := [none, some ⟨127, 1, 1, 5, [0, 0, 0], 0⟩] }, now := 1000000000 }), 1,
        ⟨127, 1, 1, 5, [0, 0, 0], 0⟩, by decide +kernel⟩
  · exact ⟨base [] (fun c => { c.setF TLM_CTRL.WEAR_EN 1 with now := 60000000000 }), by decide +kernel⟩

/-- The hypotheses of BackgroundEvents can be met together. -/
theorem test_meets_BackgroundEvents_1 :
    (∃ (s : State), s.core.flag TLM_CTRL.TRACE_EN = true ∧ s.core.tlm.traceDiv ≤ s.core.modu.period) := by
  exact ⟨base [] (fun c => c.setF TLM_CTRL.TRACE_EN 1), by decide +kernel⟩

/-- The hypotheses of SelfTestEvents can be met together. -/
theorem test_meets_SelfTestEvents_0 :
    (∃ (s : State), s.core.flag BST_STATUS.RUNNING = false ∧ s.core.pwr.step = 2 ∧ s.core.bistReason = 0 ∧
       s.core.flag CLK_STATUS.ORIGIN_SET = true) ∧
    (∃ (s : State) (ok : Bool) (results : List BistMem), s.core.flag BST_STATUS.RUNNING = true ∧ s.core.bist.retest
       = [] ∧ s.core.bist.inPlace = none ∧ results = [] ∧ 1 ≤ s.core.getF BST_STATUS.STAGE ∧ s.core.getF
       BST_STATUS.STAGE < 4 ∧ s.core.bist.stageAt + stageTime (s.core.getF BST_STATUS.STAGE) ≤ s.core.now) ∧
    (∃ (s : State) (cond : Fin 9), s.core.flag BST_STATUS.RUNNING = true ∧ (cond.val < 2 ∧ s.core.bistReason ≠ 0) ∧
       s.core.bist.inPlace = none) ∧
    (∃ (s : State) (mem : Fin 39) (pass : Bool),
      (s.core.flag BST_STATUS.RUNNING = true ∧ s.core.bist.retest.contains mem.val = true ∧ s.core.bist.stageAt +
        100000 + stageTime (s.core.getF BST_STATUS.STAGE) ≤ s.core.now) ∧
      (∃ k ∈ s.core.bist.retest, k ≠ mem.val)) ∧
    (∃ (s : State) (mem : Fin 39), s.core.clamped.contains mem.val = true) := by
  refine ⟨?_, ?_, ?_, ?_, ?_⟩
  · exact ⟨base [] (fun c =>
        { ((((c.setF (CLK_PLL_STAT.STATE 0) pllLOCKED).setF (CLK_PLL_COUNT.COUNT 0) 262144).setF CLK_STATUS.ORIGIN_SET 1).setF PWR_RAIL_STAT.GOOD 0x7F) with pwr := { c.pwr with step := 2 } }),
        by decide +kernel⟩
  · exact ⟨base [] (fun c => { (c.setF BST_STATUS.RUNNING 1).setF BST_STATUS.STAGE 3 with now := 20000000 }), true, [],
        by decide +kernel⟩
  · exact ⟨base [] (fun c => { (c.setF BST_STATUS.RUNNING 1).setF BST_STATUS.STAGE 2 with now := 20000000 }), 0, by decide +kernel⟩
  · exact ⟨base [] (fun c =>
        { c.setF BST_STATUS.RUNNING 1 with bist := { c.bist with retest := [3, 38] }, now := 20000000 }), 38, false,
        by decide +kernel⟩
  · exact ⟨base [] (fun c => (c.setF BST_STATUS.RUNNING 1).setF BST_STATUS.STAGE 1), 0, by decide +kernel⟩

/-- The hypotheses of RailEvents can be met together. -/
theorem test_meets_RailEvents_0 :
    (∃ (s : State),
      (s.core.pwr.step = 0 ∧ s.core.pwr.sleeping = false ∧ s.core.pwr.rstN = true) ∧
      (s.core.getF PWR_RAIL_STAT.GOOD = 0x7F ∧ s.core.pwr.railAt + 100000 ≤ s.core.now)) ∧
    (∃ (s : State) (r : Fin 7), s.core.getBit PWR_RAIL_STAT.WARN r.val = false) ∧
    (∃ (s : State) (r : Fin 7), r.val ≠ 1 ∧ r.val ≠ 4 ∧ r.val ≠ 6) ∧
    (∃ (s : State) (r : Fin 7), r.val = 6) ∧
    (∃ (s : State) (r : Fin 7), r.val = 4 ∧ s.core.pwr.nvBad = false) ∧
    (∃ (s : State) (r : Fin 7), r.val = 1 ∧ s.core.saf.internal = false ∧ s.core.mode.code ≠ .off ∧ s.core.mode.code
       ≠ .safe) := by
  refine ⟨?_, ?_, ?_, ?_, ?_, ?_⟩
  · exact ⟨base [] (fun c =>
        { c.setF PWR_RAIL_STAT.GOOD 0x7F with now := 100000, pwr := { c.pwr with rstN := true, step := 0 } }), by decide +kernel⟩
  · exact ⟨base [] (fun c => c), 6, by decide +kernel⟩
  · exact ⟨base [] (fun c => c), 3, by decide +kernel⟩
  · exact ⟨base [] (fun c => c), 6, by decide +kernel⟩
  · exact ⟨base [] (fun c => c), 4, by decide +kernel⟩
  · exact ⟨base [] (fun c => { c with mode := { c.mode with code := .hold } }), 1, by decide +kernel⟩

/-- The hypotheses of ResetEvents can be met together. -/
theorem test_meets_ResetEvents_0 :
    (∃ (s : State), s.core.pwr.rstN = false ∧ s.core.getF PWR_RAIL_STAT.GOOD = 0x7F) ∧
    (∃ (s : State), s.core.pwr.rstN = false ∧ s.core.getF PWR_RAIL_STAT.GOOD ≠ 0x7F) ∧
    (∃ (s : State) (k : Nat),
      (s.core.pwr.wdogAt = some k ∧ k ≤ s.core.now) ∧
      (s.core.pwr.defer = none ∧ s.core.canRelinquish = false)) ∧
    (∃ (s : State) (k : Nat), s.core.pwr.wdogAt = some k ∧ s.core.pwr.wdogLeft = none) ∧
    (∃ (s : State) (k : Nat), s.core.pwr.wdogLeft = some k) ∧
    (∃ (s : State) (pair : Fin 2), s.core.pwr.defer = none ∧ s.core.canRelinquish = false) ∧
    (∃ (s : State) (k : Nat),
      (s.core.pwr.defer = some k ∧ (k = 3 ∨ k = 4)) ∧
      (heldFor s.core.pwr.slowSince 100000000 s.core.now = true ∨ heldFor s.core.pwr.noSpeedSince 30000000000
        s.core.now = true)) ∧
    (∃ (s : State) (k : Nat) (d : Nat), s.core.pwr.resetDue = some (0, k, d) ∧ k < 16) := by
  refine ⟨?_, ?_, ?_, ?_, ?_, ?_, ?_, ?_⟩
  · exact ⟨base [] (fun c => { c.setF PWR_RAIL_STAT.GOOD 0x7F with pwr := { c.pwr with rstN := false } }), by decide +kernel⟩
  · exact ⟨base [] (fun c => { c.setF PWR_RAIL_STAT.GOOD 0x3F with pwr := { c.pwr with rstN := false } }), by decide +kernel⟩
  · exact ⟨base [] (fun c =>
        { c with now := 7, pwr := { c.pwr with wdogAt := some 7, defer := none }, mode := { c.mode with code := .drive } }),
        7, by decide +kernel⟩
  · exact ⟨base [] (fun c => { c with now := 5, pwr := { c.pwr with wdogAt := some 7, wdogLeft := none } }), 7, by decide +kernel⟩
  · exact ⟨base [] (fun c => { c with pwr := { c.pwr with wdogLeft := some 3 } }), 3, by decide +kernel⟩
  · exact ⟨base [] (fun c => { c with mode := { c.mode with code := .drive } }), 1, by decide +kernel⟩
  · exact ⟨base [] (fun c => { c with now := 100000000, pwr := { c.pwr with defer := some 3, slowSince := some 0 } }), 3,
        by decide +kernel⟩
  · exact ⟨base [] (fun c => { c with pwr := { c.pwr with resetDue := some (0, 5, 0) } }), 5, 0, by decide +kernel⟩

/-- The hypotheses of ResetEvents can be met together. -/
theorem test_meets_ResetEvents_1 :
    (∃ (s : State) (k : Nat) (d : Nat), s.core.pwr.resetDue = some (1, k, d) ∧ k < 16) ∧
    (∃ (s : State) (k : Nat) (d : Nat), s.core.pwr.resetDue = some (2, k, d)) ∧
    (∃ (s : State) (src : Fin 4),
      (s.core.pwr.sleeping = true ∧ s.core.getBit PWR_WAKE_CFG.SRC src.val = true) ∧
      (src.val = 3 → s.core.pwr.sleepWall + (s.core.reg PWR_WAKE_AFTER.a).toNat ≤ s.core.wall)) := by
  refine ⟨?_, ?_, ?_⟩
  · exact ⟨base [] (fun c => { c with pwr := { c.pwr with resetDue := some (1, 5, 0) } }), 5, 0, by decide +kernel⟩
  · exact ⟨base [] (fun c => { c with pwr := { c.pwr with resetDue := some (2, 5, 0) } }), 5, 0, by decide +kernel⟩
  · exact ⟨base [] (fun c => { c.setF PWR_WAKE_CFG.SRC 15 with pwr := { c.pwr with sleeping := true } }), 2, by decide +kernel⟩

/-- The hypotheses of DomainEvents can be met together. -/
theorem test_meets_DomainEvents_0 :
    (∃ (s : State),
      (s.core.pwr.parkDue = true ∧ s.core.mode.code = .standby ∧ s.core.mode.pend = none) ∧
      (s.core.flag PWR_CTRL.PARK_LINKS = true)) ∧
    (∃ (s : State),
      (s.core.pwr.parkDue = true ∧ s.core.mode.code = .standby ∧ s.core.mode.pend = none) ∧
      (s.core.flag PWR_CTRL.PARK_CONV = true)) ∧
    (∃ (s : State) (d : Fin 10), mapGet (fun _ => 0) s.core.pwr.domainAt d.val ≠ 0) ∧
    (∃ (s : State) (a : BitVec 32) (by_ : Initiator), regionOf a.toNat = .regs ∧ s.core.domainOn (domainOf a.toNat)
       = false) ∧
    (∃ (s : State) (a : BitVec 32) (ch : Fin 16), s.core.chState ch.val = chACTIVE) ∧
    (∃ (s : State) (a : BitVec 32) (by_ : Initiator), ∀ ch, by_ ≠ .dma ch) := by
  refine ⟨?_, ?_, ?_, ?_, ?_, ?_⟩
  · exact ⟨base [] (fun c =>
        { c.setF PWR_CTRL.PARK_LINKS 1 with mode := { c.mode with code := .standby }, pwr := { c.pwr with parkDue := true } }),
        by decide +kernel⟩
  · exact ⟨base [] (fun c =>
        { c.setF PWR_CTRL.PARK_CONV 1 with mode := { c.mode with code := .standby }, pwr := { c.pwr with parkDue := true } }),
        by decide +kernel⟩
  · exact ⟨base [] (fun c => { c.setF PWR_STATUS.ON 1 with pwr := { c.pwr with domainAt := [(4, 9)] } }), 4, by decide +kernel⟩
  · exact ⟨base [] (fun c => c.setF PWR_STATUS.ON 1), 0x40020000, .window, by decide +kernel⟩
  · exact ⟨base [] (fun c => c.setF (STU_CH_STAT.STATE 15) 1), 0x50000000, 15, by decide +kernel⟩
  · exact ⟨base [] (fun c => c), 0x50000000, .debug, by decide +kernel⟩

/-- The hypotheses of StartupEvents can be met together. -/
theorem test_meets_StartupEvents_0 :
    (∃ (s : State) (ok : Bool) (otp : OtpImage), s.core.pwr.step = 1 ∧ ok = false) ∧
    (∃ (s : State) (ok : Bool) (otp : OtpImage), s.core.pwr.step = 1 ∧ ok = true) ∧
    (∃ (s : State) (k : Nat) (fb : Bool),
      (s.core.pwr.step = 4 ∧ s.core.pwr.hearthZero = false ∧ s.core.getF PWR_RESET_CAUSE.WDOG_RUN < 3) ∧
      (s.core.failTrials.bootChoice s.mem = some (k, fb))) ∧
    (∃ (s : State),
      (s.core.pwr.step = 4 ∧ s.core.pwr.hearthZero = false ∧ s.core.getF PWR_RESET_CAUSE.WDOG_RUN < 3) ∧
      (s.core.failTrials.bootChoice s.mem = none)) ∧
    (∃ (s : State), s.core.pwr.step = 4 ∧ s.core.pwr.hearthZero = false ∧ 3 ≤ s.core.getF PWR_RESET_CAUSE.WDOG_RUN) ∧
    (∃ (s : State), s.core.pwr.step = 5 ∧ s.core.imageIntact s.mem = true ∧ s.core.cfg = []) ∧
    (∃ (s : State),
      (s.core.pwr.step = 6 ∨ s.core.pwr.step = 7) ∧
      (s.core.identityKnown = true ∧ s.core.mode.code = .off ∧ s.core.presentCauses = []) ∧
      (s.core.getF SEC_STATUS.BOOT_SLOT < 2)) := by
  refine ⟨?_, ?_, ?_, ?_, ?_, ?_, ?_⟩
  · exact ⟨base [] (fun c => { c with pwr := { c.pwr with step := 1 } }), false, OtpImage.blank, by decide +kernel⟩
  · exact ⟨base [] (fun c => { c with pwr := { c.pwr with step := 1 } }), true, { OtpImage.blank with gradeFuses := 6 },
        by decide +kernel⟩
  · exact ⟨base
        ([(805306368, 49), (805306369, 71), (805306370, 77), (805306371, 73), (805306381, 3), (805306396, 56), (805306397, 176), (805306398, 96), (805306399, 167), (805306400, 81), (805306401, 172), (805306402, 150), (805306403, 56), (805306404, 76), (805306405, 217), (805306406, 50), (805306407, 126), (805306408, 177), (805306409, 177), (805306410, 227), (805306411, 106), (805306412, 33), (805306413, 253), (805306414, 183), (805306415, 17), (805306416, 20), (805306417, 190), (805306418, 7), (805306419, 67), (805306420, 76), (805306421, 12), (805306422, 199), (805306423, 191), (805306424, 99), (805306425, 246), (805306426, 225), (805306427, 218), (805306428, 39), (805306429, 78), (805306430, 222), (805306431, 191), (805306432, 231), (805306433, 111), (805306434, 101), (805306435, 251), (805306436, 213), (805306437, 26), (805306438, 210), (805306439, 241), (805306440, 72), (805306441, 152), (805306442, 185), (805306443, 91), (805306444, 56), (805306445, 176), (805306446, 96), (805306447, 167), (805306448, 81), (805306449, 172), (805306450, 150), (805306451, 56), (805306452, 76), (805306453, 217), (805306454, 50), (805306455, 126), (805306456, 177), (805306457, 177), (805306458, 227), (805306459, 106), (805306460, 33), (805306461, 253), (805306462, 183), (805306463, 17), (805306464, 20), (805306465, 190), (805306466, 7), (805306467, 67), (805306468, 76), (805306469, 12), (805306470, 199), (805306471, 191), (805306472, 99), (805306473, 246), (805306474, 225), (805306475, 218), (805306476, 39), (805306477, 78), (805306478, 222), (805306479, 191), (805306480, 231), (805306481, 111), (805306482, 101), (805306483, 251), (805306484, 213), (805306485, 26), (805306486, 210), (805306487, 241), (805306488, 72), (805306489, 152), (805306490, 185), (805306491, 91)]
        ++
        [(805306496, 49), (805306497, 76), (805306498, 82), (805306499, 84), (805306512, 1), (805306513, 6), (805306520, 4), (805306521, 14), (805306522, 42), (805306523, 109), (805306524, 236), (805306525, 157), (805306526, 43), (805306527, 102), (805306528, 6), (805306529, 143), (805306530, 68), (805306531, 214), (805306532, 98), (805306533, 48), (805306534, 49), (805306535, 100), (805306536, 104), (805306537, 248), (805306538, 121), (805306539, 6), (805306540, 43), (805306542, 98), (805306543, 246), (805306544, 230), (805306545, 76), (805306546, 129), (805306547, 38), (805306548, 62), (805306549, 239), (805306550, 39), (805306551, 200), (805306552, 9), (805306553, 128), (805306554, 194), (805306555, 185), (805306556, 221), (805306557, 208), (805306558, 67), (805306559, 76), (805306560, 2), (805306561, 189), (805306562, 90), (805306563, 55), (805306564, 89), (805306565, 176), (805306566, 105), (805306567, 146), (805306568, 15), (805306569, 107), (805306570, 159), (805306571, 57), (805306572, 103), (805306573, 183), (805306574, 140), (805306575, 215), (805306576, 230), (805306577, 69), (805306578, 50), (805306579, 161), (805306580, 150), (805306581, 19), (805306582, 51), (805306583, 223), (805306584, 43), (805306585, 12), (805306586, 11), (805306587, 180), (805306588, 147), (805306589, 93), (805306590, 151), (805306591, 85), (805306592, 36), (805306593, 151), (805306594, 22), (805306595, 86), (805306596, 24), (805306597, 125), (805306598, 194), (805306599, 81), (805306600, 59), (805306601, 231), (805306602, 128), (805306603, 160), (805306604, 161), (805306605, 27), (805306606, 133), (805306607, 84), (805306608, 153), (805306609, 4), (805306610, 57), (805306611, 98), (805306612, 195), (805306613, 95), (805306614, 144), (805306615, 179), (805306616, 8), (805306620, 206), (805306621, 212), (805306622, 229), (805306623, 109), (805306624, 238), (805306625, 18), (805306626, 133), (805306627, 166), (805306628, 243), (805306629, 79), (805306630, 189), (805306631, 166), (805306632, 210), (805306633, 111), (805306634, 181), (805306635, 14), (805306636, 223), (805306637, 255), (805306638, 35), (805306639, 243), (805306641, 212), (805306642, 122), (805306643, 241), (805306644, 114), (805306645, 205), (805306646, 63), (805306647, 183), (805306648, 27), (805306649, 216), (805306650, 247), (805306651, 213), (805306652, 49), (805306653, 241), (805306654, 160), (805306655, 1), (805306656, 199), (805306657, 54), (805306658, 55), (805306659, 218), (805306660, 48), (805306661, 110), (805306662, 139), (805306663, 11), (805306664, 33), (805306665, 134), (805306666, 14), (805306667, 106), (805306668, 66), (805306669, 65), (805306670, 6), (805306671, 179), (805306672, 237), (805306673, 206), (805306674, 108), (805306675, 76), (805306676, 78), (805306677, 109), (805306678, 64), (805306679, 9), (805306680, 201), (805306681, 51), (805306682, 77), (805306683, 162), (805306684, 158), (805306685, 255), (805306686, 87), (805306687, 253), (805306688, 74), (805306689, 14), (805306690, 176), (805306691, 185), (805306692, 108), (805306693, 250), (805306694, 246), (805306695, 179), (805306696, 205), (805306697, 130), (805306698, 140), (805306699, 230), (805306700, 126), (805306701, 63), (805306702, 142), (805306703, 195), (805306704, 72), (805306705, 167), (805306706, 165), (805306707, 153), (805306708, 150), (805306709, 179), (805306710, 147), (805306711, 243), (805306712, 183), (805306713, 186), (805306714, 60), (805306715, 244)])
        (fun c =>
        { c with pwr := { c.pwr with step := 4, hearthZero := false }, sec := { c.sec with otp := { c.sec.otp with deviceId := 7, vendorHash := [be 48 0x76a6c29dbab9334948e3095ad88859f0317bbc16949bd42b41c01dccb661158b038da0251a3cc6947665788306f14416, []], integratorHash := [be 48 0x76a6c29dbab9334948e3095ad88859f0317bbc16949bd42b41c01dccb661158b038da0251a3cc6947665788306f14416, [], [], []] }, slots := [3, 0] } }),
        0, false, by decide +kernel⟩
  · exact ⟨base [] (fun c => { c with pwr := { c.pwr with step := 4, hearthZero := false } }), by decide +kernel⟩
  · exact ⟨base [] (fun c =>
        { c.setF PWR_RESET_CAUSE.WDOG_RUN 3 with pwr := { c.pwr with step := 4, hearthZero := false } }), by decide +kernel⟩
  · exact ⟨base [] (fun c =>
        { c with pwr := { c.pwr with step := 5 }, sec := { c.sec with img := zeros 28 ++ be 48 0x38b060a751ac96384cd9327eb1b1e36a21fdb71114be07434c0cc7bf63f6e1da274edebfe76f65fbd51ad2f14898b95b ++ zeros 52 }, cfg := [] }),
        by decide +kernel⟩
  · exact ⟨base [] (fun c => { c with pwr := { c.pwr with step := 7 } }), by decide +kernel⟩

/-- The hypotheses of SecurityEvents can be met together. -/
theorem test_meets_SecurityEvents_0 :
    (∃ (s : State) (x : FwSession), s.core.sec.session = some x ∧ x.last + 10000000000 ≤ s.core.now) ∧
    (∃ (s : State) (x : Challenge), s.core.sec.chal = some x ∧ x.issued + 60000000000 ≤ s.core.now) ∧
    (∃ (s : State) (k : Nat), s.core.sec.lockEnd = some k ∧ k ≤ s.core.now) ∧
    (∃ (s : State) (k : Nat), s.core.sec.unlockEnd = some k ∧ k ≤ s.core.now) ∧
    (∃ (s : State) (b : List Byte),
      (s.core.sec.submit = some b ∧ b.length = 288 ∧ s.core.driveLock = false) ∧
      (s.core.trailerOk 0x0612 (b.take 68) (b.drop 68) = true ∧ s.core.responseFail (b.take 68) = none)) ∧
    (∃ (s : State) (b : List Byte), s.core.sec.submit = some b ∧ b.length ≠ 288 ∧ s.core.driveLock = false) := by
  refine ⟨?_, ?_, ?_, ?_, ?_, ?_⟩
  · exact ⟨base [] (fun c => { c with now := 10000000000, sec := { c.sec with session := some ⟨0, 1, [], 0, 0⟩ } }),
        ⟨0, 1, [], 0, 0⟩, by decide +kernel⟩
  · exact ⟨base [] (fun c => { c with now := 60000000000, sec := { c.sec with chal := some ⟨[], 0⟩ } }), ⟨[], 0⟩, by decide +kernel⟩
  · exact ⟨base [] (fun c => { c with now := 7, sec := { c.sec with lockEnd := some 7 } }), 7, by decide +kernel⟩
  · exact ⟨base [] (fun c => { c.setF DDP_STAT.LEVEL 2 with now := 7, sec := { c.sec with unlockEnd := some 7 } }), 7, by decide +kernel⟩
  · exact ⟨base [] (fun c =>
        { c with sec := { c.sec with otp := { c.sec.otp with deviceId := 7, vendorHash := [be 48 0x76a6c29dbab9334948e3095ad88859f0317bbc16949bd42b41c01dccb661158b038da0251a3cc6947665788306f14416, []], integratorHash := [be 48 0x76a6c29dbab9334948e3095ad88859f0317bbc16949bd42b41c01dccb661158b038da0251a3cc6947665788306f14416, [], [], []] }, chal := some ⟨zeros 64, 0⟩, submit := some (be 288 0x02000a0000000000000000000000000000000000000000000000000000000000000000000000000000000000000000000000000000000000000000000000000000000000314c52540000000007000000000000001206000000000000040e2a6dec9d2b66068f44d66230316468f879062b0062f6e64c81263eef27c80980c2b9ddd0434c02bd5a3759b069920f6b9f3967b78cd7e64532a1961333df2b0c0bb4935d975524971656187dc2513be780a0a11b855499043962c35f90b308000000ced4e56dee1285a6f34fbda6d26fb50edfff23f300d47af172cd3fb71bd8f7d531f1a001c73637da306e8b0b21860e6a71328e362d67a0ff87025955587cc4da1519238f19a838aeab1ed84451a2d84416fd8e37e5f7bee4f9e166ec6772e51f) } }),
        (be 288
        0x02000a0000000000000000000000000000000000000000000000000000000000000000000000000000000000000000000000000000000000000000000000000000000000314c52540000000007000000000000001206000000000000040e2a6dec9d2b66068f44d66230316468f879062b0062f6e64c81263eef27c80980c2b9ddd0434c02bd5a3759b069920f6b9f3967b78cd7e64532a1961333df2b0c0bb4935d975524971656187dc2513be780a0a11b855499043962c35f90b308000000ced4e56dee1285a6f34fbda6d26fb50edfff23f300d47af172cd3fb71bd8f7d531f1a001c73637da306e8b0b21860e6a71328e362d67a0ff87025955587cc4da1519238f19a838aeab1ed84451a2d84416fd8e37e5f7bee4f9e166ec6772e51f),
        by decide +kernel⟩
  · exact ⟨base [] (fun c => { c.setF DDP_STAT.AUTH_BUSY 1 with sec := { c.sec with submit := some [7] } }), [7], by decide +kernel⟩

/-- The hypotheses of DebugPortEvents can be met together. -/
theorem test_meets_DebugPortEvents_0 :
    (∃ (s : State) (pair : Fin 2) (addr : BitVec 32) (i : Nat), s.core.isHalted pair.val = false ∧
       s.core.dbg.halted.length = 2 ∧ s.core.dbg.causes.length = 2 ∧ s.core.breakHit pair.val addr.toNat = some i) ∧
    (∃ (s : State) (req : BitVec 8) (data : BitVec 32) (parity : Bool), s.core.dbg.lineReset = false ∧ bitOf
       req.toNat 6 ≠ parityOf 5 (req.toNat / 2)) ∧
    (∃ (s : State) (req : BitVec 8) (data : BitVec 32) (parity : Bool), s.core.dbg.lineReset = false ∧ req = 0xC3) ∧
    (∃ (s : State),
      (s.core.getF DDP_STAT.LEVEL = 2 ∧ s.core.driveLock = false) ∧
      (s.core.reg DDP_CTRL.a = 0 ∧ s.core.isHalted 0 = false ∧ s.core.dbg.halted.length = 2 ∧
        s.core.dbg.causes.length = 2)) ∧
    (∃ (s : State),
      (s.core.getF DDP_STAT.LEVEL = 2 ∧ s.core.driveLock = false) ∧
      (s.core.reg DDP_CTRL.a = 0 ∧ s.core.dbg.halted.length = 2 ∧ s.core.dbg.causes.length = 2)) ∧
    (∃ (s : State),
      (s.core.getF DDP_STAT.LEVEL = 2 ∧ s.core.driveLock = false) ∧
      (s.core.reg DDP_CTRL.a = 0 ∧ s.core.isHalted 0 = true ∧ s.core.dbg.halted.length = 2 ∧
        s.core.dbg.causes.length = 2)) ∧
    (∃ (s : State), s.core.getF DDP_STAT.LEVEL < 2 ∧ s.core.driveLock = false) ∧
    (∃ (s : State),
      (s.core.driveLock = false ∧ s.core.flag DDP_STAT.AUTH_BUSY = false ∧ s.core.sec.lockEnd = none) ∧
      (s.core.reg DDP_CTRL.a = 0)) := by
  refine ⟨?_, ?_, ?_, ?_, ?_, ?_, ?_, ?_⟩
  · exact ⟨base [] (fun c => c.setDbgReg 1 65 0x1001), 1, 0x1002, 1, by decide +kernel⟩
  · exact ⟨base [] (fun c => c), 0xC1, 0, false, by decide +kernel⟩
  · exact ⟨base [] (fun c => c), 0xC3, 0, false, by decide +kernel⟩
  · exact ⟨base [] (fun c => (c.setF DDP_STAT.LEVEL 2).setReg DDP_CTRL.a 0), by decide +kernel⟩
  · exact ⟨base [] (fun c =>
        { (c.setF DDP_STAT.LEVEL 2).setReg DDP_CTRL.a 0 with dbg := { c.dbg with halted := [true, false] } }), by decide +kernel⟩
  · exact ⟨base [] (fun c =>
        { (c.setF DDP_STAT.LEVEL 2).setReg DDP_CTRL.a 0 with dbg := { c.dbg with halted := [true, false] } }), by decide +kernel⟩
  · exact ⟨base [] (fun c => c), by decide +kernel⟩
  · exact ⟨base [] (fun c => c.setReg DDP_CTRL.a 0), by decide +kernel⟩

/-- The hypotheses of DebugPortEvents can be met together. -/
theorem test_meets_DebugPortEvents_1 :
    (∃ (s : State),
      (s.core.driveLock = false ∧ s.core.flag DDP_STAT.AUTH_BUSY = false) ∧
      (s.core.reg DDP_CTRL.a = 0)) ∧
    (∃ (s : State),
      (s.core.driveLock = false ∧ s.core.getF DDP_STAT.LEVEL = 1) ∧
      (s.core.reg DDP_CTRL.a = 0)) ∧
    (∃ (s : State) (w : BitVec 32), s.core.driveLock = false ∧ s.core.flag DDP_STAT.AUTH_BUSY = false) ∧
    (∃ (s : State) (w : BitVec 32) (x : Challenge),
      (s.core.driveLock = false ∧ s.core.flag DDP_STAT.AUTH_BUSY = false) ∧
      (s.core.sec.chal = some x ∧ s.core.sec.chalIdx < 16)) ∧
    (∃ (s : State) (w : BitVec 32),
      (1 ≤ s.core.getF DDP_STAT.LEVEL ∧ s.core.driveLock = false) ∧
      (regionOf ((s.core.reg DDP_MEM_ADDR.a).toNat / 4 * 4) = .sram ∧ (memsAt ((s.core.reg DDP_MEM_ADDR.a).toNat / 4
        * 4)).any s.core.clamped.contains = false)) ∧
    (∃ (s : State) (w : BitVec 32),
      (s.core.getF DDP_STAT.LEVEL = 2 ∧ s.core.driveLock = false) ∧
      (regionOf ((s.core.reg DDP_MEM_ADDR.a).toNat / 4 * 4) = .sram ∧ (memsAt ((s.core.reg DDP_MEM_ADDR.a).toNat / 4
        * 4)).any s.core.clamped.contains = false)) ∧
    (∃ (s : State) (w : BitVec 32),
      (s.core.getF DDP_STAT.LEVEL = 2 ∧ s.core.driveLock = false) ∧
      (s.core.getF DDP_REG_SEL.INDEX < 34 ∧ s.core.isHalted s.core.pairSel = true)) ∧
    (∃ (s : State) (w : BitVec 32),
      (1 ≤ s.core.getF DDP_STAT.LEVEL ∧ s.core.driveLock = false) ∧
      (s.core.getF DDP_REG_SEL.INDEX < 34 ∧ s.core.isHalted s.core.pairSel = true)) := by
  refine ⟨?_, ?_, ?_, ?_, ?_, ?_, ?_, ?_⟩
  · exact ⟨base [] (fun c => { c.setReg DDP_CTRL.a 0 with sec := { c.sec with resp := [1, 2] } }), by decide +kernel⟩
  · exact ⟨base [] (fun c => (c.setF DDP_STAT.LEVEL 1).setReg DDP_CTRL.a 0), by decide +kernel⟩
  · exact ⟨base [] (fun c => c), 7, by decide +kernel⟩
  · exact ⟨base [] (fun c => { c with sec := { c.sec with chal := some ⟨[1, 2, 3, 4, 5, 6, 7, 8], 0⟩, chalIdx := 1 } }),
        0, ⟨[1, 2, 3, 4, 5, 6, 7, 8], 0⟩, by decide +kernel⟩
  · exact ⟨base [] (fun c => (c.setF DDP_STAT.LEVEL 1).setReg DDP_MEM_ADDR.a 0x20000010), 0, by decide +kernel⟩
  · exact ⟨base [] (fun c => (c.setF DDP_STAT.LEVEL 2).setReg DDP_MEM_ADDR.a 0x20000010), 0x01020304, by decide +kernel⟩
  · exact ⟨base [] (fun c =>
        { (c.setF DDP_STAT.LEVEL 2).setF DDP_REG_SEL.INDEX 33 with dbg := { c.dbg with halted := [true, false] } }),
        0x01020304, by decide +kernel⟩
  · exact ⟨base [] (fun c =>
        { (c.setF DDP_STAT.LEVEL 1).setF DDP_REG_SEL.INDEX 33 with dbg := { c.dbg with halted := [true, false] } }),
        0, by decide +kernel⟩

/-- The hypotheses of PairEvents can be met together. -/
theorem test_meets_PairEvents_0 :
    (∃ (s : State), s.core.flag PAI_STATUS.AUTH_IN = true ∧ s.core.auth = 1 ∧ s.core.flag PAI_CTRL.TAKEOVER_EN =
       true) ∧
    (∃ (s : State), s.core.auth = 2 ∧ s.core.lead = false ∧ s.core.pair.rel = none) ∧
    (∃ (s : State), s.core.auth = 1 ∧ s.core.flag PAI_STATUS.AUTH_IN = false ∧ s.core.lead = true ∧ s.core.flag
       PAI_LINK.UP = false ∧ heldFor s.core.pair.readyAt 50000000 s.core.now = true) ∧
    (∃ (s : State) (k : Nat) (i : Nat),
      (s.core.pair.rel = some (k, 1, [], i) ∧ k + 1000000 ≤ s.core.now) ∧
      (s.core.mode.code ≠ .off ∧ s.core.mode.code ≠ .safe)) ∧
    (∃ (s : State) (sender : BitVec 64) (f : List Byte), s.core.flag PAI_CTRL.PAIR_EN = true ∧ s.core.flag
       PAI_LINK.UP = true ∧ frameOk f = true ∧ s.core.modu.stage ≠ 2 ∧ s.core.modu.stage ≠ 3 ∧ sender.toNat =
       s.core.partnerId) ∧
    (∃ (s : State), s.core.flag PAI_CTRL.PAIR_EN = true ∧ s.core.hbMiss ≤ s.core.pair.missRun ∧ s.core.causeOn
       .pairHbLost 0xFFFF = false) ∧
    (∃ (s : State) (lane : Fin 4), s.core.getBit PAI_LINK.FAULTY lane.val = false) ∧
    (∃ (s : State) (lane : Fin 4) (valid : Bool), s.core.getBit PAI_LINK.FAULTY lane.val = false) := by
  refine ⟨?_, ?_, ?_, ?_, ?_, ?_, ?_, ?_⟩
  · exact ⟨base [] (fun c => ((c.setF PAI_STATUS.AUTH_IN 1).setF PAI_STATUS.AUTH 1).setF PAI_CTRL.TAKEOVER_EN 1), by decide +kernel⟩
  · exact ⟨base [] (fun c => (c.setF PAI_STATUS.AUTH 2).setF PAI_CTRL.ROLE 1), by decide +kernel⟩
  · exact ⟨base [] (fun c =>
        { c.setF PAI_STATUS.AUTH 1 with now := 50000000, pair := { c.pair with readyAt := some 0 } }), by decide +kernel⟩
  · exact ⟨base [] (fun c =>
        { c with now := 1000000, pair := { c.pair with rel := some (0, 1, [], 0) }, mode := { c.mode with code := .drive } }),
        0, 0, by decide +kernel⟩
  · exact ⟨base [] (fun c => (c.setF PAI_CTRL.PAIR_EN 1).setF PAI_LINK.UP 1), 0, le 2 0x5046 ++ zeros 634 ++ le 4 (crc32
        (le 2 0x5046 ++ zeros 634)), by decide +kernel⟩
  · exact ⟨base [] (fun c => { c.setF PAI_CTRL.PAIR_EN 1 with pair := { c.pair with missRun := 20 } }), by decide +kernel⟩
  · exact ⟨base [] (fun c => c.setF PAI_LINK.VALID 15), 2, by decide +kernel⟩
  · exact ⟨base [] (fun c => c.setF PAI_LINK.VALID 1), 2, true, by decide +kernel⟩

/-- The hypotheses of PairEvents can be met together. -/
theorem test_meets_PairEvents_1 :
    (∃ (s : State), s.core.auth = 1 ∧ 0 < s.core.pair.cmpRun ∧ u8 s.core.pairP 17 ≤ s.core.pair.cmpRun ∧
       s.core.causeOn .pairDisagree 0xFFFF = false) := by
  exact ⟨base [] (fun c => { c.setF PAI_STATUS.AUTH 1 with pair := { c.pair with cmpRun := 1 } }), by decide +kernel⟩

/-- The hypotheses of PlantEvents can be met together. -/
theorem test_meets_PlantEvents_0 :
    (∃ (s : State) (k : Nat),
      (s.core.flag PAI_CTRL.SYNC_FOLLOW = true ∧ s.core.pll 1 = pllLOCKED) ∧
      (0 < s.core.tc ∧ s.core.tc < 32768)) ∧
    (∃ (s : State), s.core.flag PAI_CTRL.SYNC_FOLLOW = true ∧ heldFor s.core.pair.edgeAt (2 * s.core.syncDiv *
       s.core.tc) s.core.now = true ∧ s.core.causeOn .syncLost 0xFFFF = false) ∧
    (∃ (s : State), s.core.ptpMaster = true ∧ s.core.pair.ptpNext ≤ s.core.now) ∧
    (∃ (s : State) (m : PtpMsg), s.core.ptpSlave = true ∧ m.domain.toNat = u8 s.core.plantP 12 ∧ m.twoStep = true) ∧
    (∃ (s : State) (m : PtpMsg), s.core.ptpSlave = true ∧ m.domain.toNat = u8 s.core.plantP 12 ∧ m.twoStep = false) ∧
    (∃ (s : State) (m : PtpMsg) (i : Nat) (k : Int), s.core.ptpSlave = true ∧ m.domain.toNat = u8 s.core.plantP 12 ∧
       s.core.pair.sync = some (m.seq.toNat, i, k)) ∧
    (∃ (s : State) (m : PtpMsg), s.core.ptpMaster = true ∧ m.domain.toNat = u8 s.core.plantP 12) ∧
    (∃ (s : State) (m : PtpMsg) (t1 : Nat) (t2 : Nat) (t3 : Nat), s.core.ptpSlave = true ∧ m.domain.toNat = u8
       s.core.plantP 12 ∧ s.core.pair.delayReq = some (m.seq.toNat, t3) ∧ s.core.pair.pairT = some (t1, t2)) := by
  refine ⟨?_, ?_, ?_, ?_, ?_, ?_, ?_, ?_⟩
  · exact ⟨base [] (fun c => ((c.setF PAI_CTRL.SYNC_FOLLOW 1).setReg (CLK_PLL_STAT.a 1) 2).setF MOD_TC.TC 25000), 24000,
        by decide +kernel⟩
  · exact ⟨base [] (fun c =>
        { c.setF PAI_CTRL.SYNC_FOLLOW 1 with now := 1000000000, pair := { c.pair with edgeAt := some 0 } }), by decide +kernel⟩
  · exact ⟨base [] (fun c => (c.setF PAI_CTRL.PLANT_EN 1).setF PAI_CTRL.TIME_MASTER 1), by decide +kernel⟩
  · exact ⟨base [] (fun c => c.setF PAI_CTRL.PLANT_EN 1), ⟨7, 0, 0, 5, true, 0⟩, by decide +kernel⟩
  · exact ⟨base [] (fun c => c.setF PAI_CTRL.PLANT_EN 1), ⟨7, 0, 0, 5, false, 0⟩, by decide +kernel⟩
  · exact ⟨base [] (fun c => { c.setF PAI_CTRL.PLANT_EN 1 with pair := { c.pair with sync := some (7, 3, 0) } }),
        ⟨7, 0, 0, 5, false, 0⟩, 3, 0, by decide +kernel⟩
  · exact ⟨base [] (fun c => (c.setF PAI_CTRL.PLANT_EN 1).setF PAI_CTRL.TIME_MASTER 1), ⟨7, 0, 0, 5, false, 0⟩, by decide +kernel⟩
  · exact ⟨base [] (fun c =>
        { c.setF PAI_CTRL.PLANT_EN 1 with pair := { c.pair with delayReq := some (7, 30), pairT := some (10, 20) } }),
        ⟨7, 44, 0, 5, false, 0⟩, 10, 20, 30, by decide +kernel⟩

/-- The hypotheses of PlantEvents can be met together. -/
theorem test_meets_PlantEvents_1 :
    (∃ (s : State) (ref : CmdRef) (at_ : Int) (arg : List Byte),
      (s.core.pair.plant = some (ref, at_, 1, arg) ∧ at_ ≤ (s.core.modu.start : Int) + s.core.plantP64) ∧
      (u8 arg 0 = 8 ∧ zeroAt arg 1 11 = true ∧ s.core.mode.code ≠ .safe ∧ s.core.mode.code ≠ .off ∧
        s.core.bist.inPlace = none)) := by
  exact ⟨base [] (fun c =>
        { c with pair := { c.pair with plant := some (⟨0, 0x0812, 0, 1, 0, 0, 0, 0⟩, 0, 1, [8] ++ zeros 11) }, mode := { c.mode with code := .drive } }),
        ⟨0, 0x0812, 0, 1, 0, 0, 0, 0⟩, 0, [8] ++ zeros 11, by decide +kernel⟩

/-- The hypotheses of RegisterAccesses can be met together. -/
theorem test_meets_RegisterAccesses_0 :
    (∃ (s : State) (a : BitVec 32) (v : BitVec 32) (r : RegRow),
      (a.toNat / 0x10000 = 0x4014 ∧ regRow a.toNat = some r ∧ a.toNat % 4 = 0) ∧
      (s.core.domainOn (domainOf a.toNat) = true ∧ s.core.running = false ∧ s.core.setNow a.toNat = 0)) ∧
    (∃ (s : State) (a : BitVec 32) (v : BitVec 32), s.core.running = true ∧ ownedReg a.toNat = true) ∧
    (∃ (s : State) (a : BitVec 32) (v : BitVec 32), a.toNat / 0x10000 = 0x4012 ∧ a.toNat % 4 = 0 ∧ s.core.domainOn
       (domainOf a.toNat) = true) ∧
    (∃ (s : State) (a : BitVec 32), latchesHi a.toNat = true) := by
  refine ⟨?_, ?_, ?_, ?_⟩
  · exact ⟨base [] (fun c => c.setF PWR_STATUS.ON 0x3FF), 0x40140000, 7, ⟨0x40140000, 4, 1, 0x3C, 0x3F, 0, 0⟩, by decide +kernel⟩
  · exact ⟨base [] (fun c => { c with mode := { c.mode with code := .drive } }), 0x40090000, 7, by decide +kernel⟩
  · exact ⟨base [] (fun c => c.setF PWR_STATUS.ON 0x3FF), 0x40120000, 7, by decide +kernel⟩
  · exact ⟨base [] (fun c => { c with now := 0x500000000 }), BitVec.ofNat 32 MOD_TIME_LO.a, by decide +kernel⟩

/-- The hypotheses of GetReplies can be met together. -/
theorem test_meets_GetReplies_0 :
    (∃ (s : State) (m : Msg) (p : List Byte),
      (Ready s.core 0x0107 m p) ∧
      (s.core.mode.code ≠ .off ∧ p = [])) ∧
    (∃ (s : State) (m : Msg) (p : List Byte),
      (Ready s.core 0x0202 m p) ∧
      (s.core.mode.code ≠ .off ∧ p = [])) ∧
    (∃ (s : State) (m : Msg) (p : List Byte),
      (Ready s.core 0x0211 m p) ∧
      (s.core.mode.code ≠ .off ∧ p = [])) ∧
    (∃ (s : State) (m : Msg) (p : List Byte),
      (Ready s.core 0x0221 m p) ∧
      (s.core.mode.code ≠ .off ∧ p = [])) ∧
    (∃ (s : State) (m : Msg) (p : List Byte),
      (Ready s.core 0x0223 m p) ∧
      (s.core.mode.code ≠ .off ∧ p = [])) ∧
    (∃ (s : State) (m : Msg) (p : List Byte),
      (Ready s.core 0x0231 m p) ∧
      (s.core.mode.code ≠ .off ∧ p = [])) ∧
    (∃ (s : State) (m : Msg) (p : List Byte),
      (Ready s.core 0x0241 m p) ∧
      (s.core.mode.code ≠ .off ∧ p = [])) ∧
    (∃ (s : State) (m : Msg) (p : List Byte),
      (Ready s.core 0x0251 m p) ∧
      (s.core.mode.code ≠ .off ∧ p = [])) := by
  refine ⟨?_, ?_, ?_, ?_, ?_, ?_, ?_, ?_⟩
  · exact ⟨base [] (fun c => { c with mode := { c.mode with code := .hold } }), ⟨3, 0, 7, 9, []⟩, [], by decide +kernel⟩
  · exact ⟨base [] (fun c => { c with mode := { c.mode with code := .hold } }), ⟨3, 0, 7, 9, []⟩, [], by decide +kernel⟩
  · exact ⟨base [] (fun c => { c with mode := { c.mode with code := .hold } }), ⟨3, 0, 7, 9, []⟩, [], by decide +kernel⟩
  · exact ⟨base [] (fun c => { c with mode := { c.mode with code := .hold } }), ⟨3, 0, 7, 9, []⟩, [], by decide +kernel⟩
  · exact ⟨base [] (fun c => { c with mode := { c.mode with code := .hold } }), ⟨3, 0, 7, 9, []⟩, [], by decide +kernel⟩
  · exact ⟨base [] (fun c => { c with mode := { c.mode with code := .hold } }), ⟨3, 0, 7, 9, []⟩, [], by decide +kernel⟩
  · exact ⟨base [] (fun c => { c with mode := { c.mode with code := .hold } }), ⟨3, 0, 7, 9, []⟩, [], by decide +kernel⟩
  · exact ⟨base [] (fun c => { c with mode := { c.mode with code := .hold } }), ⟨3, 0, 7, 9, []⟩, [], by decide +kernel⟩

/-- The hypotheses of GetReplies can be met together. -/
theorem test_meets_GetReplies_1 :
    (∃ (s : State) (m : Msg) (p : List Byte),
      (Ready s.core 0x0253 m p) ∧
      (s.core.mode.code ≠ .off ∧ p = [])) ∧
    (∃ (s : State) (m : Msg) (p : List Byte),
      (Ready s.core 0x0255 m p) ∧
      (s.core.mode.code ≠ .off ∧ p = [])) ∧
    (∃ (s : State) (m : Msg) (p : List Byte),
      (Ready s.core 0x0261 m p) ∧
      (s.core.mode.code ≠ .off ∧ p = [])) ∧
    (∃ (s : State) (m : Msg) (p : List Byte),
      (Ready s.core 0x0271 m p) ∧
      (s.core.mode.code ≠ .off ∧ p = [])) ∧
    (∃ (s : State) (m : Msg) (p : List Byte),
      (Ready s.core 0x0281 m p) ∧
      (s.core.mode.code ≠ .off ∧ p = [])) ∧
    (∃ (s : State) (m : Msg) (p : List Byte),
      (Ready s.core 0x0291 m p) ∧
      (s.core.mode.code ≠ .off ∧ p = [])) ∧
    (∃ (s : State) (m : Msg) (p : List Byte),
      (Ready s.core 0x0293 m p) ∧
      (s.core.mode.code ≠ .off ∧ p = [])) ∧
    (∃ (s : State) (m : Msg) (p : List Byte),
      (Ready s.core 0x02A1 m p) ∧
      (s.core.mode.code ≠ .off ∧ p = [])) := by
  refine ⟨?_, ?_, ?_, ?_, ?_, ?_, ?_, ?_⟩
  · exact ⟨base [] (fun c => { c with mode := { c.mode with code := .hold } }), ⟨3, 0, 7, 9, []⟩, [], by decide +kernel⟩
  · exact ⟨base [] (fun c => { c with mode := { c.mode with code := .hold } }), ⟨3, 0, 7, 9, []⟩, [], by decide +kernel⟩
  · exact ⟨base [] (fun c => { c with mode := { c.mode with code := .hold } }), ⟨3, 0, 7, 9, []⟩, [], by decide +kernel⟩
  · exact ⟨base [] (fun c => { c with mode := { c.mode with code := .hold } }), ⟨3, 0, 7, 9, []⟩, [], by decide +kernel⟩
  · exact ⟨base [] (fun c => { c with mode := { c.mode with code := .hold } }), ⟨3, 0, 7, 9, []⟩, [], by decide +kernel⟩
  · exact ⟨base [] (fun c => { c with mode := { c.mode with code := .hold } }), ⟨3, 0, 7, 9, []⟩, [], by decide +kernel⟩
  · exact ⟨base [] (fun c => { c with mode := { c.mode with code := .hold } }), ⟨3, 0, 7, 9, []⟩, [], by decide +kernel⟩
  · exact ⟨base [] (fun c => { c with mode := { c.mode with code := .hold } }), ⟨3, 0, 7, 9, []⟩, [], by decide +kernel⟩

/-- The hypotheses of GetReplies can be met together. -/
theorem test_meets_GetReplies_2 :
    (∃ (s : State) (m : Msg) (p : List Byte),
      (Ready s.core 0x02B1 m p) ∧
      (s.core.mode.code ≠ .off ∧ p = [])) ∧
    (∃ (s : State) (m : Msg) (p : List Byte),
      (Ready s.core 0x02C1 m p) ∧
      (s.core.mode.code ≠ .off ∧ p = [])) ∧
    (∃ (s : State) (m : Msg) (p : List Byte),
      (Ready s.core 0x02D1 m p) ∧
      (s.core.mode.code ≠ .off ∧ p = []) ∧
      (s.core.grade = 1)) := by
  refine ⟨?_, ?_, ?_⟩
  · exact ⟨base [] (fun c => { c with mode := { c.mode with code := .hold } }), ⟨3, 0, 7, 9, []⟩, [], by decide +kernel⟩
  · exact ⟨base [] (fun c => { c with mode := { c.mode with code := .hold } }), ⟨3, 0, 7, 9, []⟩, [], by decide +kernel⟩
  · exact ⟨base [] (fun c => { (c.setF SEC_STATUS.GRADE 1) with mode := { c.mode with code := .hold } }),
        ⟨3, 0, 7, 9, []⟩, [], by decide +kernel⟩

/-- The hypotheses of StatusReplies can be met together. -/
theorem test_meets_StatusReplies_0 :
    (∃ (s : State) (m : Msg) (p : List Byte),
      (Ready s.core 0x0101 m p) ∧
      (p = [])) ∧
    (∃ (s : State) (m : Msg) (p : List Byte), Ready s.core 0x0102 m p) ∧
    (∃ (s : State) (m : Msg) (p : List Byte),
      (Ready s.core 0x0302 m p) ∧
      (s.core.mode.code ≠ .off ∧ p = [])) ∧
    (∃ (s : State) (m : Msg) (p : List Byte),
      (Ready s.core 0x0423 m p) ∧
      (s.core.mode.code ≠ .off ∧ p = [])) ∧
    (∃ (s : State) (m : Msg) (p : List Byte),
      (Ready s.core 0x0424 m p) ∧
      (s.core.mode.code ≠ .off ∧ p = [])) ∧
    (∃ (s : State) (m : Msg) (p : List Byte),
      (Ready s.core 0x0421 m p) ∧
      (s.core.mode.code ≠ .off ∧ p = [])) ∧
    (∃ (s : State) (m : Msg) (p : List Byte),
      (Ready s.core 0x0422 m p) ∧
      (s.core.mode.code ≠ .off ∧ p = [] ∧ s.core.getF PAI_STATUS.AUTH ≠ 1)) ∧
    (∃ (s : State) (m : Msg) (p : List Byte),
      (Ready s.core 0x0802 m p) ∧
      (s.core.mode.code ≠ .off ∧ p = []) ∧
      (s.core.grade = 0)) := by
  refine ⟨?_, ?_, ?_, ?_, ?_, ?_, ?_, ?_⟩
  · exact ⟨base [] (fun c => { c with mode := { c.mode with code := .hold } }), ⟨3, 0, 7, 9, []⟩, [], by decide +kernel⟩
  · exact ⟨base [] (fun c => { c with mode := { c.mode with code := .hold } }), ⟨3, 0, 7, 9, [1, 2, 3]⟩, [1, 2, 3], by decide +kernel⟩
  · exact ⟨base [] (fun c => { c with mode := { c.mode with code := .hold } }), ⟨3, 0, 7, 9, []⟩, [], by decide +kernel⟩
  · exact ⟨base [] (fun c => { c with mode := { c.mode with code := .hold } }), ⟨3, 0, 7, 9, []⟩, [], by decide +kernel⟩
  · exact ⟨base [] (fun c => { c with mode := { c.mode with code := .hold } }), ⟨3, 0, 7, 9, []⟩, [], by decide +kernel⟩
  · exact ⟨base [] (fun c => { c with mode := { c.mode with code := .hold } }), ⟨3, 0, 7, 9, []⟩, [], by decide +kernel⟩
  · exact ⟨base [] (fun c => { c with mode := { c.mode with code := .hold } }), ⟨3, 0, 7, 9, []⟩, [], by decide +kernel⟩
  · exact ⟨base [] (fun c => { c with mode := { c.mode with code := .hold } }), ⟨3, 0, 7, 9, []⟩, [], by decide +kernel⟩

/-- The hypotheses of StatusReplies can be met together. -/
theorem test_meets_StatusReplies_1 :
    (∃ (s : State) (m : Msg) (p : List Byte),
      (Ready s.core 0x0811 m p) ∧
      (s.core.mode.code ≠ .off ∧ p = []) ∧
      (s.core.grade = 1)) ∧
    (∃ (s : State) (m : Msg) (p : List Byte),
      (Ready s.core 0x0420 m p) ∧
      (s.core.mode.code ≠ .off ∧ p = [])) ∧
    (∃ (s : State) (m : Msg) (p : List Byte),
      (Ready s.core 0x0731 m p) ∧
      (s.core.mode.code ≠ .off ∧ p = [])) ∧
    (∃ (s : State) (m : Msg) (p : List Byte),
      (Ready s.core 0x0233 m p) ∧
      (s.core.mode.code ≠ .off ∧ p.length = 1 ∧ u8 p 0 < 64)) := by
  refine ⟨?_, ?_, ?_, ?_⟩
  · exact ⟨base [] (fun c => { (c.setF SEC_STATUS.GRADE 1) with mode := { c.mode with code := .hold } }),
        ⟨3, 0, 7, 9, []⟩, [], by decide +kernel⟩
  · exact ⟨base [] (fun c => { c with mode := { c.mode with code := .hold } }), ⟨3, 0, 7, 9, []⟩, [], by decide +kernel⟩
  · exact ⟨base [] (fun c => { c with mode := { c.mode with code := .hold } }), ⟨3, 0, 7, 9, []⟩, [], by decide +kernel⟩
  · exact ⟨base [] (fun c => { c with mode := { c.mode with code := .hold } }), ⟨3, 0, 7, 9, [63]⟩, [63], by decide +kernel⟩

/-- The hypotheses of RecordReplies can be met together. -/
theorem test_meets_RecordReplies_0 :
    (∃ (s : State) (m : Msg) (p : List Byte),
      (Ready s.core 0x0104 m p) ∧
      (s.core.mode.code ≠ .off ∧ p.length = 4 ∧ u8 p 2 < 8 ∧ u8 p 3 = 0)) ∧
    (∃ (s : State) (m : Msg) (p : List Byte),
      (Ready s.core 0x0401 m p) ∧
      (s.core.mode.code ≠ .off ∧ p.length = 4)) ∧
    (∃ (s : State) (m : Msg) (p : List Byte),
      (Ready s.core 0x0402 m p) ∧
      (s.core.mode.code ≠ .off ∧ p = [] ∧ s.core.tlm.traceLost = [])) ∧
    (∃ (s : State) (m : Msg) (p : List Byte),
      (Ready s.core 0x0403 m p) ∧
      (s.core.mode.code ≠ .off ∧ p.length = 4 ∧ u8 p 0 < 128 ∧ u8 p 1 = 1 ∧ u8 p 2 = 1 ∧ u8 p 3 = 0)) ∧
    (∃ (s : State) (m : Msg) (p : List Byte),
      (Ready s.core 0x0501 m p) ∧
      (s.core.mode.code ≠ .off ∧ p.length = 4 ∧ u8 p 0 = 0 ∧ u8 p 1 = 0 ∧ u16 p 2 < 128)) ∧
    (∃ (s : State) (m : Msg) (p : List Byte),
      (Ready s.core 0x0507 m p) ∧
      (s.core.mode.code ≠ .off ∧ p.length = 4 ∧ u16 p 2 = 0)) ∧
    (∃ (s : State) (m : Msg) (p : List Byte),
      (Ready s.core 0x0610 m p) ∧
      (s.core.mode.code ≠ .off ∧ p.length = 20 ∧ u8 p 0 = 0 ∧ u8 p 1 = 0 ∧ u16 p 2 = 0)) ∧
    (∃ (s : State) (m : Msg) (p : List Byte),
      (Ready s.core 0x0610 m p) ∧
      (s.core.mode.code ≠ .off ∧ p.length = 20 ∧ u8 p 0 = 1 ∧ u8 p 1 = 0 ∧ u16 p 2 = 0)) := by
  refine ⟨?_, ?_, ?_, ?_, ?_, ?_, ?_, ?_⟩
  · exact ⟨base [] (fun c => { c with mode := { c.mode with code := .hold } }), ⟨3, 0, 7, 9, [0, 0, 7, 0]⟩, [0, 0, 7, 0],
        by decide +kernel⟩
  · exact ⟨base [] (fun c => { c with mode := { c.mode with code := .hold } }), ⟨3, 0, 7, 9, [0, 0, 0, 0]⟩, [0, 0, 0, 0],
        by decide +kernel⟩
  · exact ⟨base [] (fun c =>
        { c with mode := { c.mode with code := .hold }, tlm := { c.tlm with trace := [⟨3, 9, 77, [1, 2, 3, 4, 5, 6, 7, 8]⟩] } }),
        ⟨3, 0, 7, 9, []⟩, [], by decide +kernel⟩
  · exact ⟨base [] (fun c => { c with mode := { c.mode with code := .hold } }), ⟨3, 0, 7, 9, [127, 1, 1, 0]⟩,
        [127, 1, 1, 0], by decide +kernel⟩
  · exact ⟨base [] (fun c => { c with mode := { c.mode with code := .hold } }), ⟨3, 0, 7, 9, [0, 0, 127, 0]⟩,
        [0, 0, 127, 0], by decide +kernel⟩
  · exact ⟨base [] (fun c => { c with mode := { c.mode with code := .hold } }), ⟨3, 0, 7, 9, [0, 0, 0, 0]⟩, [0, 0, 0, 0],
        by decide +kernel⟩
  · exact ⟨base [] (fun c => { c with mode := { c.mode with code := .hold } }), ⟨3, 0, 7, 9, zeros 20⟩, zeros 20, by decide +kernel⟩
  · exact ⟨base [] (fun c => { c with mode := { c.mode with code := .hold } }), ⟨3, 0, 7, 9, [1] ++ zeros 19⟩, [1] ++
        zeros 19, by decide +kernel⟩

/-- The hypotheses of RecordReplies can be met together. -/
theorem test_meets_RecordReplies_1 :
    (∃ (s : State) (m : Msg) (p : List Byte) (v : Nat),
      (Ready s.core 0x0701 m p) ∧
      (s.core.mode.code ≠ .off ∧ p.length = 8 ∧ windowChecks p 1020 = none ∧ u16 p 4 = 1) ∧
      (s.core.getF (MBX_MB_CFG.PRIV m.mb.val) ≠ 0) ∧
      (((s.core.take 0x0701 m).1.busRead s.mem (u32 p 0) .window).2 = some v)) := by
  exact ⟨base [] (fun c =>
        { ((c.setF PWR_STATUS.ON 0x3FF).setF (MBX_MB_CFG.PRIV 3) 1) with mode := { c.mode with code := .hold } }),
        ⟨3, 0, 7, 9, ([0, 0, 0, 64] ++ [1] ++ zeros 3)⟩, ([0, 0, 0, 64] ++ [1] ++ zeros 3), 0, by decide +kernel⟩

/-- The hypotheses of SetConfiguration can be met together. -/
theorem test_meets_SetConfiguration_0 :
    (∃ (s : State) (m : Msg) (p : List Byte),
      (Ready s.core 0x0210 m p) ∧
      (cfgMode s.core.mode.code = true ∧ s.core.pwr.nvBad = false ∧ p.length = 2120) ∧
      (gateChecks p = none)) ∧
    (∃ (s : State) (m : Msg) (p : List Byte),
      (Ready s.core 0x0220 m p) ∧
      (cfgMode s.core.mode.code = true ∧ s.core.pwr.nvBad = false ∧ p.length = 3136) ∧
      (s.core.protectionChecks p = none)) ∧
    (∃ (s : State) (m : Msg) (p : List Byte),
      (Ready s.core 0x0222 m p) ∧
      (cfgMode s.core.mode.code = true ∧ s.core.pwr.nvBad = false ∧ p.length = 32) ∧
      (safetyChecks p = none)) ∧
    (∃ (s : State) (m : Msg) (p : List Byte),
      (Ready s.core 0x0230 m p) ∧
      (cfgMode s.core.mode.code = true ∧ s.core.pwr.nvBad = false ∧ p.length = 68) ∧
      (modulationChecks p (decide (schedCost s.core.ctlImage ≤ cycleLimit (u16 p 6) (u16 p 4))) = none)) ∧
    (∃ (s : State) (m : Msg) (p : List Byte),
      (Ready s.core 0x0240 m p) ∧
      (cfgMode s.core.mode.code = true ∧ s.core.pwr.nvBad = false ∧ p.length = 40) ∧
      (dispatchChecks p = none)) ∧
    (∃ (s : State) (m : Msg) (p : List Byte),
      (Ready s.core 0x0250 m p) ∧
      (cfgMode s.core.mode.code = true ∧ s.core.pwr.nvBad = false ∧ p.length = 2272) ∧
      (s.core.controlChecks p = none)) ∧
    (∃ (s : State) (m : Msg) (p : List Byte),
      (Ready s.core 0x0252 m p) ∧
      (cfgMode s.core.mode.code = true ∧ s.core.pwr.nvBad = false ∧ p.length = 28) ∧
      (s.core.modelChecks p = none)) ∧
    (∃ (s : State) (m : Msg) (p : List Byte),
      (Ready s.core 0x0254 m p) ∧
      (cfgMode s.core.mode.code = true ∧ s.core.pwr.nvBad = false ∧ p.length = 16) ∧
      (0 < u32 p 0 ∧ u32 p 0 ≤ s.core.pFs ∧ 0 < u32 p 4 ∧ 0 < u32 p 8 ∧ 0 < u32 p 12)) := by
  refine ⟨?_, ?_, ?_, ?_, ?_, ?_, ?_, ?_⟩
  · exact ⟨base [] (fun c => { c with mode := { c.mode with code := .hold } }),
        ⟨3, 0, 7, 9, (zeros 12 ++ [40] ++ zeros 2107)⟩, (zeros 12 ++ [40] ++ zeros 2107), by
        refine ⟨by decide +kernel, by decide +kernel, ?_⟩
        rw [gateChecks_pad]
        decide +kernel⟩
  · exact ⟨base [] (fun c => { c with mode := { c.mode with code := .hold } }),
        ⟨3, 0, 7, 9, (le 2 48 ++ le 2 1000 ++ le 2 50 ++ le 2 400 ++ le 2 5000 ++ le 2 1 ++ zeros 3124)⟩, (le 2 48
        ++ le 2 1000 ++ le 2 50 ++ le 2 400 ++ le 2 5000 ++ le 2 1 ++ zeros 3124), by
        refine ⟨by decide +kernel, by decide +kernel, ?_⟩
        rw [protectionChecks_pad]
        decide +kernel⟩
  · exact ⟨base [] (fun c => { c with mode := { c.mode with code := .hold } }),
        ⟨3, 0, 7, 9, ([1] ++ zeros 3 ++ [1] ++ zeros 3 ++ [1] ++ zeros 3 ++ [1] ++ zeros 3 ++ [10, 0, 3, 255, 255] ++ zeros 3 ++ [1] ++ zeros 3 ++ [1] ++ zeros 3)⟩,
        ([1] ++ zeros 3 ++ [1] ++ zeros 3 ++ [1] ++ zeros 3 ++ [1] ++ zeros 3 ++ [10, 0, 3, 255, 255] ++ zeros 3 ++
        [1] ++ zeros 3 ++ [1] ++ zeros 3), by decide +kernel⟩
  · exact ⟨base [] (fun c => { c with mode := { c.mode with code := .hold } }),
        ⟨3, 0, 7, 9, ([168, 97, 0, 0] ++ [0, 0, 176, 4, 150, 0, 144, 1, 10, 0, 100, 0, 200, 0] ++ zeros 2 ++ [1, 1] ++ zeros 6 ++ [1, 1] ++ zeros 6 ++ [1, 1] ++ zeros 6 ++ [1, 1] ++ zeros 6 ++ [1, 1] ++ zeros 6 ++ [1, 1] ++ zeros 6)⟩,
        ([168, 97, 0, 0] ++ [0, 0, 176, 4, 150, 0, 144, 1, 10, 0, 100, 0, 200, 0] ++ zeros 2 ++ [1, 1] ++ zeros 6 ++
        [1, 1] ++ zeros 6 ++ [1, 1] ++ zeros 6 ++ [1, 1] ++ zeros 6 ++ [1, 1] ++ zeros 6 ++ [1, 1] ++ zeros 6), by decide +kernel⟩
  · exact ⟨base [] (fun c => { c with mode := { c.mode with code := .hold } }), ⟨3, 0, 7, 9, dispatchDefaults⟩,
        dispatchDefaults, by decide +kernel⟩
  · exact ⟨base [] (fun c => { c with mode := { c.mode with code := .hold } }),
        ⟨3, 0, 7, 9, ([64, 66, 15, 0, 160, 134, 1, 0, 32, 161, 7, 0, 64, 66, 15, 0] ++ [1] ++ zeros 1 ++ [0] ++ zeros 13 ++ [4] ++ zeros 2239)⟩,
        ([64, 66, 15, 0, 160, 134, 1, 0, 32, 161, 7, 0, 64, 66, 15, 0] ++ [1] ++ zeros 1 ++ [0] ++ zeros 13 ++ [4]
        ++ zeros 2239), by
        refine ⟨by decide +kernel, by decide +kernel, ?_⟩
        rw [Core.controlChecks, controlCheck1_pad]
        decide +kernel⟩
  · exact ⟨base [] (fun c => { c with mode := { c.mode with code := .hold } }),
        ⟨3, 0, 7, 9, ([16, 39, 0, 0] ++ [64, 13, 3, 0] ++ [64, 13, 3, 0] ++ [160, 134, 1, 0] ++ [4] ++ zeros 3 ++ [48, 117, 0, 0] ++ zeros 4)⟩,
        ([16, 39, 0, 0] ++ [64, 13, 3, 0] ++ [64, 13, 3, 0] ++ [160, 134, 1, 0] ++ [4] ++ zeros 3 ++ [48, 117, 0, 0]
        ++ zeros 4), by decide +kernel⟩
  · exact ⟨base [] (fun c => { (c.setF CEN_P_FS.FS 1000000) with mode := { c.mode with code := .hold } }),
        ⟨3, 0, 7, 9, ([1] ++ zeros 3 ++ [1] ++ zeros 3 ++ [1] ++ zeros 3 ++ [1] ++ zeros 3)⟩, ([1] ++ zeros 3 ++ [1]
        ++ zeros 3 ++ [1] ++ zeros 3 ++ [1] ++ zeros 3), by decide +kernel⟩

/-- The hypotheses of SetConfiguration can be met together. -/
theorem test_meets_SetConfiguration_1 :
    (∃ (s : State) (m : Msg) (p : List Byte),
      (Ready s.core 0x0260 m p) ∧
      (cfgMode s.core.mode.code = true ∧ s.core.pwr.nvBad = false ∧ p.length = 48) ∧
      (feedbackChecks p = none)) ∧
    (∃ (s : State) (m : Msg) (p : List Byte),
      (Ready s.core 0x0270 m p) ∧
      (cfgMode s.core.mode.code = true ∧ s.core.pwr.nvBad = false ∧ p.length = 32) ∧
      (s.core.startChecks p = none)) ∧
    (∃ (s : State) (m : Msg) (p : List Byte),
      (Ready s.core 0x0280 m p) ∧
      (cfgMode s.core.mode.code = true ∧ s.core.pwr.nvBad = false ∧ p.length = 36) ∧
      (dockChecks p = none)) ∧
    (∃ (s : State) (m : Msg) (p : List Byte),
      (Ready s.core 0x0290 m p) ∧
      (cfgMode s.core.mode.code = true ∧ s.core.pwr.nvBad = false ∧ p.length = 2528) ∧
      (s.core.conversionChecks p = none)) ∧
    (∃ (s : State) (m : Msg) (p : List Byte),
      (Ready s.core 0x02A0 m p) ∧
      (cfgMode s.core.mode.code = true ∧ s.core.pwr.nvBad = false ∧ p.length = 8) ∧
      (u8 p 0 < 2 ∧ u8 p 1 = 0 ∧ 1 ≤ u16 p 2 ∧ u16 p 2 ≤ 1000 ∧ 1 ≤ u16 p 4 ∧ u16 p 4 ≤ 3600 ∧ u16 p 6 = 0)) ∧
    (∃ (s : State) (m : Msg) (p : List Byte),
      (Ready s.core 0x02B0 m p) ∧
      (cfgMode s.core.mode.code = true ∧ s.core.pwr.nvBad = false ∧ p.length = 16) ∧
      (powerChecks p = none ∧ s.core.mode.pend = none)) ∧
    (∃ (s : State) (m : Msg) (p : List Byte),
      (Ready s.core 0x02C0 m p) ∧
      (cfgMode s.core.mode.code = true ∧ s.core.pwr.nvBad = false ∧ p.length = 48) ∧
      (s.core.telemetryChecks p = none)) ∧
    (∃ (s : State) (m : Msg) (p : List Byte),
      (Ready s.core 0x02D0 m p) ∧
      (cfgMode s.core.mode.code = true ∧ s.core.pwr.nvBad = false ∧ p.length = 64) ∧
      (s.core.gridChecks p = none ∧ s.core.grade = 1)) := by
  refine ⟨?_, ?_, ?_, ?_, ?_, ?_, ?_, ?_⟩
  · exact ⟨base [] (fun c => { c with mode := { c.mode with code := .hold } }), ⟨3, 0, 7, 9, feedbackDefaults⟩,
        feedbackDefaults, by decide +kernel⟩
  · exact ⟨base [] (fun c =>
        { (c.loadControl ([64, 66, 15, 0, 160, 134, 1, 0, 32, 161, 7, 0, 64, 66, 15, 0] ++ [1] ++ zeros 15 ++ [4] ++ zeros 255 ++ [1] ++ zeros 6 ++ [99] ++ zeros 40 ++ [1] ++ zeros 6 ++ [100] ++ zeros 40 ++ [1] ++ zeros 6 ++ [101] ++ zeros 1880)) with mode := { c.mode with code := .hold } }),
        ⟨3, 0, 7, 9, [0, 0xFF, 0xFF, 0x63, 0x64, 0x65, 0, 1, 2, 8, 8, 0] ++ le 4 100000 ++ le 2 200 ++ le 2 10 ++ le 2 3000 ++ zeros 2 ++ le 4 100000 ++ le 4 10000⟩,
        [0, 0xFF, 0xFF, 0x63, 0x64, 0x65, 0, 1, 2, 8, 8, 0] ++ le 4 100000 ++ le 2 200 ++ le 2 10 ++ le 2 3000 ++
        zeros 2 ++ le 4 100000 ++ le 4 10000, by decide +kernel⟩
  · exact ⟨base [] (fun c => { c with mode := { c.mode with code := .hold } }),
        ⟨3, 0, 7, 9, ([1] ++ zeros 3 ++ [20, 0, 10, 0, 100, 0, 232, 3, 5, 0, 5, 0] ++ zeros 2 ++ [50, 0] ++ [9, 0, 0, 0] ++ zeros 4 ++ [10, 0] ++ zeros 2 ++ [100, 0] ++ zeros 2)⟩,
        ([1] ++ zeros 3 ++ [20, 0, 10, 0, 100, 0, 232, 3, 5, 0, 5, 0] ++ zeros 2 ++ [50, 0] ++ [9, 0, 0, 0] ++ zeros
        4 ++ [10, 0] ++ zeros 2 ++ [100, 0] ++ zeros 2), by decide +kernel⟩
  · exact ⟨base [] (fun c => { c with mode := { c.mode with code := .hold } }),
        ⟨3, 0, 7, 9, ([2, 2] ++ zeros 2 ++ [232, 3, 0, 0] ++ [232, 3, 0, 0] ++ zeros 60 ++ [40, 41, 42, 43, 44, 45] ++ zeros 2450)⟩,
        ([2, 2] ++ zeros 2 ++ [232, 3, 0, 0] ++ [232, 3, 0, 0] ++ zeros 60 ++ [40, 41, 42, 43, 44, 45] ++ zeros
        2450), by
        refine ⟨by decide +kernel, by decide +kernel, ?_⟩
        rw [conversionChecks_pad]
        decide +kernel⟩
  · exact ⟨base [] (fun c => { c with mode := { c.mode with code := .hold } }),
        ⟨3, 0, 7, 9, [1, 0, 250, 0, 10, 0, 0, 0]⟩, [1, 0, 250, 0, 10, 0, 0, 0], by decide +kernel⟩
  · exact ⟨base [] (fun c => { c with mode := { c.mode with code := .hold } }), ⟨3, 0, 7, 9, [3, 1, 100, 0] ++ zeros 12⟩,
        [3, 1, 100, 0] ++ zeros 12, by decide +kernel⟩
  · exact ⟨base [] (fun c => { c with mode := { c.mode with code := .hold } }),
        ⟨3, 0, 7, 9, ([0, 12, 0, 4] ++ zeros 4 ++ [136, 19, 1, 0] ++ zeros 8 ++ [255, 255, 255, 255] ++ zeros 24)⟩,
        ([0, 12, 0, 4] ++ zeros 4 ++ [136, 19, 1, 0] ++ zeros 8 ++ [255, 255, 255, 255] ++ zeros 24), by decide +kernel⟩
  · exact ⟨base [] (fun c =>
        { ({ c.setF SEC_STATUS.GRADE 1 with cfg := [(0x0254, ⟨true, le 4 1 ++ zeros 12, true, 0⟩)] }) with mode := { c.mode with code := .hold } }),
        ⟨3, 0, 7, 9, ([128, 26, 6, 0] ++ [136, 19] ++ zeros 2 ++ [96, 97, 98] ++ zeros 1 ++ [10, 0, 100, 0, 0, 0, 100, 0, 100, 0, 200, 0, 132, 3, 32, 3, 76, 4, 176, 4, 10, 0, 10, 0, 10, 0, 10, 0, 192, 18, 80, 20, 10, 0, 10, 0, 0, 0, 10, 0] ++ zeros 4 ++ [1, 0, 0, 0] ++ zeros 4)⟩,
        ([128, 26, 6, 0] ++ [136, 19] ++ zeros 2 ++ [96, 97, 98] ++ zeros 1 ++
        [10, 0, 100, 0, 0, 0, 100, 0, 100, 0, 200, 0, 132, 3, 32, 3, 76, 4, 176, 4, 10, 0, 10, 0, 10, 0, 10, 0, 192, 18, 80, 20, 10, 0, 10, 0, 0, 0, 10, 0]
        ++ zeros 4 ++ [1, 0, 0, 0] ++ zeros 4), by decide +kernel⟩

/-- The hypotheses of SetConfiguration can be met together. -/
theorem test_meets_SetConfiguration_2 :
    (∃ (s : State) (m : Msg) (p : List Byte),
      (Ready s.core 0x0801 m p) ∧
      (cfgMode s.core.mode.code = true ∧ s.core.pwr.nvBad = false ∧ p.length = 24) ∧
      (pairChecks p = none ∧ s.core.grade = 0 ∧ (s.core.mode.code = .standby ∨ u8 p 0 = s.core.getF
        PAI_CTRL.PAIR_EN))) ∧
    (∃ (s : State) (m : Msg) (p : List Byte),
      (Ready s.core 0x0810 m p) ∧
      (cfgMode s.core.mode.code = true ∧ s.core.pwr.nvBad = false ∧ p.length = 24) ∧
      (plantChecks p = none ∧ s.core.grade = 1)) ∧
    (∃ (s : State) (m : Msg) (p : List Byte),
      (Ready s.core 0x0106 m p) ∧
      (cfgMode s.core.mode.code = true ∧ s.core.pwr.nvBad = false ∧ p.length = 152) ∧
      (hostPortChecks p = none)) ∧
    (∃ (s : State) (m : Msg) (p : List Byte),
      (Ready s.core 0x0292 m p) ∧
      (cfgMode s.core.mode.code = true ∧ s.core.pwr.nvBad = false ∧ p.length = 1024) ∧
      (cellCalChecks p = none)) ∧
    (∃ (s : State) (m : Msg) (p : List Byte),
      (Ready s.core 0x0201 m p) ∧
      (s.core.mode.code = .standby ∧ s.core.pwr.nvBad = false ∧ p.length = 2176) ∧
      (s.core.map.applying = none ∧ mapChecks p = none)) := by
  refine ⟨?_, ?_, ?_, ?_, ?_⟩
  · exact ⟨base [] (fun c => { c with mode := { c.mode with code := .hold } }),
        ⟨3, 0, 7, 9, ([0, 1, 1, 4] ++ zeros 13 ++ [4] ++ zeros 6)⟩, ([0, 1, 1, 4] ++ zeros 13 ++ [4] ++ zeros 6), by decide +kernel⟩
  · exact ⟨base [] (fun c => { ((c.setF SEC_STATUS.GRADE 1)) with mode := { c.mode with code := .hold } }),
        ⟨3, 0, 7, 9, ([1, 1, 7, 0] ++ [64, 0] ++ zeros 2 ++ [10, 0, 100, 0, 0, 255, 1] ++ zeros 9)⟩, ([1, 1, 7, 0]
        ++ [64, 0] ++ zeros 2 ++ [10, 0, 100, 0, 0, 255, 1] ++ zeros 9), by decide +kernel⟩
  · exact ⟨base [] (fun c => { c with mode := { c.mode with code := .hold } }), ⟨3, 0, 7, 9, hostPortDefaults⟩,
        hostPortDefaults, by decide +kernel⟩
  · exact ⟨base [] (fun c => { c with mode := { c.mode with code := .hold } }), ⟨3, 0, 7, 9, cellCalDefaults⟩,
        cellCalDefaults, by decide +kernel⟩
  · exact ⟨base [] (fun c => { c with mode := { c.mode with code := .standby } }),
        ⟨3, 0, 7, 9, (le 4 7 ++ [3, 0, 0, 0] ++ le 4 48000 ++ le 4 40000 ++ le 4 54000 ++ le 4 100000 ++ le 4 40000 ++ zeros 4 ++ [1, 1, 1, 1] ++ zeros 12 ++ [2, 1, 1, 1] ++ zeros 12 ++ [3, 1, 1, 1] ++ zeros 60 ++ [1, 0, 0, 0, 9] ++ zeros 11 ++ [1, 1, 0, 0, 8] ++ zeros 11 ++ [1, 2, 0, 0, 7] ++ zeros 2011)⟩,
        (le 4 7 ++ [3, 0, 0, 0] ++ le 4 48000 ++ le 4 40000 ++ le 4 54000 ++ le 4 100000 ++ le 4 40000 ++ zeros 4 ++
        [1, 1, 1, 1] ++ zeros 12 ++ [2, 1, 1, 1] ++ zeros 12 ++ [3, 1, 1, 1] ++ zeros 60 ++ [1, 0, 0, 0, 9] ++ zeros
        11 ++ [1, 1, 0, 0, 8] ++ zeros 11 ++ [1, 2, 0, 0, 7] ++ zeros 2011), by
        refine ⟨by decide +kernel, by decide +kernel, by decide +kernel, ?_⟩
        rw [mapChecks_pad]
        decide +kernel⟩

/-- The hypotheses of ModeCommands can be met together. -/
theorem test_meets_ModeCommands_0 :
    (∃ (s : State) (m : Msg) (p : List Byte),
      (Ready s.core 0x0301 m p) ∧
      (s.core.mode.code ≠ .off ∧ s.core.mode.code ≠ .safe ∧ p.length = 12 ∧ s.core.getF PAI_STATUS.AUTH ≠ 1) ∧
      (u8 p 0 = 8 ∧ zeroAt p 1 11 = true ∧ s.core.bist.inPlace = none)) ∧
    (∃ (s : State) (m : Msg) (p : List Byte),
      (Ready s.core 0x0301 m p) ∧
      (s.core.mode.code = .standby ∧ p.length = 12 ∧ s.core.getF PAI_STATUS.AUTH ≠ 1) ∧
      (u8 p 0 = 2 ∧ zeroAt p 1 11 = true ∧ s.core.bist.inPlace = none) ∧
      (s.core.mode.pend = none ∧ s.core.mode.reqPeriod ≠ some s.core.modu.period ∧ s.core.map.applying = none)) ∧
    (∃ (s : State) (m : Msg) (p : List Byte),
      (Ready s.core 0x0331 m p) ∧
      (s.core.mode.code ≠ .off ∧ p = []) ∧
      (1 ≤ s.core.start.phase ∧ s.core.start.phase ≤ 5 ∧ s.core.start.failing = 0 ∧ s.core.start.tq ≠ 0)) ∧
    (∃ (s : State) (m : Msg) (p : List Byte),
      (Ready s.core 0x0312 m p) ∧
      (s.core.mode.code ≠ .off ∧ p = [] ∧ s.core.flag SAF_STATUS.BLEED_DRV = false)) ∧
    (∃ (s : State) (m : Msg) (p : List Byte),
      (Ready s.core 0x0312 m p) ∧
      (s.core.mode.code ≠ .off ∧ p = [] ∧ s.core.flag SAF_STATUS.BLEED_DRV = true ∧ s.core.bleedAin 0 = 0xFF ∧
        s.core.bleedAin 1 = 0xFF ∧ s.core.saf.crashIn = false)) := by
  refine ⟨?_, ?_, ?_, ?_, ?_⟩
  · exact ⟨base [] (fun c => { c with mode := { c.mode with code := .drive } }), ⟨3, 0, 7, 9, [8] ++ zeros 11⟩, [8] ++
        zeros 11, by decide +kernel⟩
  · exact ⟨base [] (fun c => { c with mode := { c.mode with code := .standby } }), ⟨3, 0, 7, 9, [2] ++ zeros 11⟩, [2] ++
        zeros 11, by decide +kernel⟩
  · exact ⟨base [] (fun c =>
        { c with mode := { c.mode with code := .hold }, start := { c.start with phase := 3, tq := 5 } }),
        ⟨3, 0, 7, 9, []⟩, [], by decide +kernel⟩
  · exact ⟨base [] (fun c => { c with mode := { c.mode with code := .hold } }), ⟨3, 0, 7, 9, []⟩, [], by decide +kernel⟩
  · exact ⟨base [] (fun c => { (c.setF SAF_STATUS.BLEED_DRV 1) with mode := { c.mode with code := .hold } }),
        ⟨3, 0, 7, 9, []⟩, [], by decide +kernel⟩

/-- The hypotheses of OperationCommands can be met together. -/
theorem test_meets_OperationCommands_0 :
    (∃ (s : State) (m : Msg) (p : List Byte),
      (Ready s.core 0x0320 m p) ∧
      (s.core.mode.code ≠ .off ∧ s.core.getF PAI_STATUS.AUTH ≠ 1 ∧ p.length = 16) ∧
      (u8 p 0 = 1 ∧ hostInputFail p = none ∧ u8 p 4 ∉ s.core.startOwns ++ s.core.gridOwns)) ∧
    (∃ (s : State) (m : Msg) (p : List Byte),
      (Ready s.core 0x0321 m p) ∧
      (s.core.mode.code ≠ .off ∧ s.core.getF PAI_STATUS.AUTH ≠ 1 ∧ p.length = 4) ∧
      (u8 p 0 < 32 ∧ s.core.flag CEN_CTRL.RUN = true ∧ u8 (slotRec s.core.ctlImage (u8 p 0)) 0 ≠ 0 ∧ u8 p 1 ≤ 1 ∧ u8
        p 2 ≤ 1 ∧ u8 p 3 = 0)) ∧
    (∃ (s : State) (m : Msg) (p : List Byte),
      (Ready s.core 0x0350 m p) ∧
      (s.core.mode.code ≠ .off ∧ s.core.grade = 1 ∧ p.length = 12) ∧
      (u32 p 8 = 0 ∧ i32 p 0 * i32 p 0 + i32 p 4 * i32 p 4 ≤ ((s.core.pRated ^ 2 : Nat) : Int))) ∧
    (∃ (s : State) (m : Msg) (p : List Byte),
      (Ready s.core 0x0242 m p) ∧
      (s.core.mode.code ≠ .off ∧ s.core.mode.code ≠ .safe ∧ s.core.getF PAI_STATUS.AUTH ≠ 1 ∧ p.length = 12) ∧
      (u8 p 9 = 0 ∧ u8 p 10 = 0 ∧ u8 p 11 = 0 ∧ u16 p 4 ≤ 4095 ∧ s.core.getF DSP_STICKY.STICKY_MIN ≤ u8 p 8)) ∧
    (∃ (s : State) (m : Msg) (p : List Byte),
      (Ready s.core 0x0232 m p) ∧
      (s.core.mode.code ≠ .off ∧ p.length = 20) ∧
      (u8 p 0 < 64 ∧ s.core.tchOwned (u8 p 0) = false ∧ u8 p 1 < 16 ∧ u8 p 2 < 16 ∧ u8 p 3 < 16 ∧ 2 ≤ u32 p 4)) := by
  refine ⟨?_, ?_, ?_, ?_, ?_⟩
  · exact ⟨base [] (fun c => { c with mode := { c.mode with code := .hold } }),
        ⟨3, 0, 7, 9, [1, 0, 0, 0, 0x7F, 0, 5, 0, 7, 0, 0, 0, 9, 0, 0, 0]⟩,
        [1, 0, 0, 0, 0x7F, 0, 5, 0, 7, 0, 0, 0, 9, 0, 0, 0], by decide +kernel⟩
  · exact ⟨base [] (fun c =>
        { (c.loadControl ([64, 66, 15, 0, 160, 134, 1, 0, 32, 161, 7, 0, 64, 66, 15, 0] ++ [1] ++ zeros 15 ++ [4] ++ zeros 255 ++ [1] ++ zeros 6 ++ [99] ++ zeros 40 ++ [1] ++ zeros 6 ++ [100] ++ zeros 40 ++ [1] ++ zeros 6 ++ [101] ++ zeros 1880)) with mode := { c.mode with code := .hold } }),
        ⟨3, 0, 7, 9, [2, 1, 1, 0]⟩, [2, 1, 1, 0], by decide +kernel⟩
  · exact ⟨base [] (fun c =>
        { (c.setF SEC_STATUS.GRADE 1) with mode := { c.mode with code := .grid }, inForce := [(0x02D0, zeros 56 ++ le 4 1000 ++ zeros 4)] }),
        ⟨3, 0, 7, 9, [0x9C, 0xFF, 0xFF, 0xFF, 7, 0, 0, 0, 0, 0, 0, 0]⟩,
        [0x9C, 0xFF, 0xFF, 0xFF, 7, 0, 0, 0, 0, 0, 0, 0], by decide +kernel⟩
  · exact ⟨base [] (fun c => { c with mode := { c.mode with code := .hold } }),
        ⟨3, 0, 7, 9, [0, 0, 0, 0, 9, 0, 0, 0, 255, 0, 0, 0]⟩, [0, 0, 0, 0, 9, 0, 0, 0, 255, 0, 0, 0], by decide +kernel⟩
  · exact ⟨base [] (fun c => { c with mode := { c.mode with code := .hold } }),
        ⟨3, 0, 7, 9, [63, 1, 3, 0, 100, 0, 0, 0, 5, 0, 0, 0, 6, 0, 0, 0, 0, 0, 0, 0]⟩,
        [63, 1, 3, 0, 100, 0, 0, 0, 5, 0, 0, 0, 6, 0, 0, 0, 0, 0, 0, 0], by decide +kernel⟩

/-- The hypotheses of DockCommands can be met together. -/
theorem test_meets_DockCommands_0 :
    (∃ (s : State) (m : Msg) (p : List Byte),
      (Ready s.core 0x0340 m p) ∧
      (s.core.mode.code = .drive ∧ s.core.getF PAI_STATUS.AUTH ≠ 1 ∧ p.length = 8) ∧
      (s.core.dockReady = true ∧ s.core.dockSt = 0 ∧ s.core.dok.move = none) ∧
      (u16 p 4 = 0 ∧ u16 p 6 = 0 ∧ s.core.vStart ≤ s.core.vLimit) ∧
      (s.core.endBlocks (dirTo (i32 p 0 * 1000000) s.core.dok.p) = false ∧ 1000 ≤ (i32 p 0 * 1000000 -
        s.core.dok.p).natAbs)) ∧
    (∃ (s : State) (m : Msg) (p : List Byte),
      (Ready s.core 0x0341 m p) ∧
      (s.core.mode.code ≠ .off ∧ s.core.getF PAI_STATUS.AUTH ≠ 1 ∧ p = []) ∧
      (s.core.dockSt = 1 ∨ s.core.dockSt = 2)) ∧
    (∃ (s : State) (m : Msg) (p : List Byte),
      (Ready s.core 0x0342 m p) ∧
      (s.core.mode.code = .drive ∧ s.core.getF PAI_STATUS.AUTH ≠ 1 ∧ p = []) ∧
      (s.core.dockSt = 4 ∧ s.core.dockReady = true)) ∧
    (∃ (s : State) (m : Msg) (p : List Byte),
      (Ready s.core 0x0343 m p) ∧
      (s.core.mode.code = .drive ∧ s.core.getF PAI_STATUS.AUTH ≠ 1 ∧ p = []) ∧
      (s.core.dockSt = 0 ∧ s.core.dockReady = true ∧ s.core.dok.move = none ∧ s.core.fbk.activeAt.getD 1 none =
        none)) ∧
    (∃ (s : State) (m : Msg) (p : List Byte),
      (Ready s.core 0x0344 m p) ∧
      (s.core.mode.code ≠ .off ∧ s.core.getF PAI_STATUS.AUTH ≠ 1 ∧ p.length = 8) ∧
      (u8 p 0 < 8 ∧ u8 p 1 < 128 ∧ u8 p 2 = 0 ∧ u8 p 3 = 0 ∧ s.core.flag DOK_CTRL.EN = true)) ∧
    (∃ (s : State) (m : Msg) (p : List Byte),
      (Ready s.core 0x0345 m p) ∧
      (s.core.mode.code ≠ .off ∧ s.core.getF PAI_STATUS.AUTH ≠ 1 ∧ p.length = 4) ∧
      (s.core.dockSt = 0 ∨ s.core.dockSt = 4 ∨ s.core.dockSt = 5)) := by
  refine ⟨?_, ?_, ?_, ?_, ?_, ?_⟩
  · exact ⟨base [] (fun c =>
        { (((({ c with cfg := [(0x0280, ⟨true, zeros 36, true, 0⟩)] } : Machine.Core).setF FBK_CTRL.AXLE_EN 1).setF FBK_AXLE_EPR.EPR256 256).putRegBytes (DOK_CFG_IMAGE.a 0) ([1] ++ zeros 3 ++ [20, 0, 10, 0, 100, 0, 232, 3, 5, 0, 5, 0] ++ zeros 2 ++ [50, 0] ++ [9, 0, 0, 0] ++ zeros 4 ++ [10, 0] ++ zeros 2 ++ [100, 0] ++ zeros 2) 9) with mode := { c.mode with code := .drive } }),
        ⟨3, 0, 7, 9, [100, 0, 0, 0, 0, 0, 0, 0]⟩, [100, 0, 0, 0, 0, 0, 0, 0], by decide +kernel⟩
  · exact ⟨base [] (fun c => { (c.setF DOK_STATUS.STATE 2) with mode := { c.mode with code := .drive } }),
        ⟨3, 0, 7, 9, []⟩, [], by decide +kernel⟩
  · exact ⟨base [] (fun c =>
        { (((({ c with cfg := [(0x0280, ⟨true, zeros 36, true, 0⟩)] } : Machine.Core).setF FBK_CTRL.AXLE_EN 1).setF FBK_AXLE_EPR.EPR256 256).setF DOK_STATUS.STATE 4) with mode := { c.mode with code := .drive } }),
        ⟨3, 0, 7, 9, []⟩, [], by decide +kernel⟩
  · exact ⟨base [] (fun c =>
        { ((({ c with cfg := [(0x0280, ⟨true, zeros 36, true, 0⟩)] } : Machine.Core).setF FBK_CTRL.AXLE_EN 1).setF FBK_AXLE_EPR.EPR256 256) with mode := { c.mode with code := .drive } }),
        ⟨3, 0, 7, 9, []⟩, [], by decide +kernel⟩
  · exact ⟨base [] (fun c =>
        { (((({ c with cfg := [(0x0280, ⟨true, zeros 36, true, 0⟩)] } : Machine.Core).setF FBK_CTRL.AXLE_EN 1).setF FBK_AXLE_EPR.EPR256 256).setF DOK_CTRL.EN 1) with mode := { c.mode with code := .hold } }),
        ⟨3, 0, 7, 9, [7, 4, 0, 0, 100, 0, 0, 0]⟩, [7, 4, 0, 0, 100, 0, 0, 0], by decide +kernel⟩
  · exact ⟨base [] (fun c => { c with mode := { c.mode with code := .hold } }), ⟨3, 0, 7, 9, [0xFF, 0xFF, 0xFF, 0xFF]⟩,
        [0xFF, 0xFF, 0xFF, 0xFF], by decide +kernel⟩

/-- The hypotheses of LedgerCommands can be met together. -/
theorem test_meets_LedgerCommands_0 :
    (∃ (s : State) (m : Msg) (p : List Byte),
      (Ready s.core 0x0502 m p) ∧
      (s.core.mode.code ≠ .off ∧ p.length = 20) ∧
      (u8 p 0 < 128 ∧ 1 ≤ u8 p 1 ∧ u8 p 1 ≤ 64 ∧ u8 p 0 + u8 p 1 ≤ 128 ∧ u16 p 2 = 0)) ∧
    (∃ (s : State) (m : Msg) (p : List Byte),
      (Ready s.core 0x0505 m p) ∧
      (s.core.mode.code ≠ .off ∧ p.length = 4) ∧
      (u8 p 0 < 128 ∧ 1 ≤ u8 p 1 ∧ u8 p 1 ≤ 8 ∧ u8 p 0 + u8 p 1 ≤ 128 ∧ u16 p 2 = 0)) ∧
    (∃ (s : State) (m : Msg) (p : List Byte),
      (Ready s.core 0x0503 m p) ∧
      (s.core.mode.code ≠ .off ∧ p.length = 16) ∧
      (u16 p 8 < 1000 ∧ zeroAt p 10 6 = true ∧ s.core.lgr.utcSeen = none)) ∧
    (∃ (s : State) (m : Msg) (p : List Byte),
      (ReadySigned s.core 0x0504 m p) ∧
      (s.core.mode.code = .standby ∧ s.core.lgr.commissioned = false ∧ p.length = 16 ∧ u32 p 12 = 0) ∧
      (s.core.getF (MBX_MB_CFG.PRIV m.mb.val) ≠ 0)) ∧
    (∃ (s : State) (m : Msg) (p : List Byte),
      (Ready s.core 0x0506 m p) ∧
      (s.core.mode.code = .standby ∧ s.core.lgr.commissioned = true ∧ 4 ≤ p.length ∧ p.length ≤ 1028 ∧ u8 p 0 = 0 ∧
        u8 p 1 = 0 ∧ u16 p 2 = 0) ∧
      (s.core.getF (MBX_MB_CFG.PRIV m.mb.val) ≠ 0)) := by
  refine ⟨?_, ?_, ?_, ?_, ?_⟩
  · exact ⟨base [] (fun c => { c with mode := { c.mode with code := .hold } }), ⟨3, 0, 7, 9, [127, 1] ++ zeros 18⟩,
        [127, 1] ++ zeros 18, by decide +kernel⟩
  · exact ⟨base [] (fun c => { c with mode := { c.mode with code := .hold } }), ⟨3, 0, 7, 9, [120, 8, 0, 0]⟩,
        [120, 8, 0, 0], by decide +kernel⟩
  · exact ⟨base [] (fun c => { c with mode := { c.mode with code := .hold } }), ⟨3, 0, 7, 9, [1] ++ zeros 15⟩, [1] ++
        zeros 15, by decide +kernel⟩
  · exact ⟨base [] (fun c =>
        { (c.setF (MBX_MB_CFG.PRIV 3) 1) with mode := { c.mode with code := .standby }, sec := { c.sec with otp := { c.sec.otp with deviceId := 7, vendorHash := [be 48 0x76a6c29dbab9334948e3095ad88859f0317bbc16949bd42b41c01dccb661158b038da0251a3cc6947665788306f14416, []], integratorHash := [be 48 0x76a6c29dbab9334948e3095ad88859f0317bbc16949bd42b41c01dccb661158b038da0251a3cc6947665788306f14416, [], [], []] }, session := none } }),
        ⟨3, 1, 7, 9, zeros 8 ++ [7] ++ zeros 7 ++ be 220 0x314c52540100000007000000000000000405000000000000040e2a6dec9d2b66068f44d66230316468f879062b0062f6e64c81263eef27c80980c2b9ddd0434c02bd5a3759b069920f6b9f3967b78cd7e64532a1961333df2b0c0bb4935d975524971656187dc2513be780a0a11b855499043962c35f90b308000000ced4e56dee1285a6f34fbda6d26fb50edfff23f300d47af172cd3fb71bd8f7d531f1a001c73637da306e8b0b21860e6a73e813613165f60e5dfb24e7c817e8e7cf4ac95575142ddd78bd94f5e49e164294f7548f460ab38bd7e79bfcb1970e6f⟩,
        zeros 8 ++ [7] ++ zeros 7, by decide +kernel⟩
  · exact ⟨base [] (fun c =>
        { c.setF (MBX_MB_CFG.PRIV 3) 1 with mode := { c.mode with code := .standby }, lgr := { c.lgr with commissioned := true } }),
        ⟨3, 0, 7, 9, zeros 8⟩, zeros 8, by decide +kernel⟩

/-- The hypotheses of SecurityCommands can be met together. -/
theorem test_meets_SecurityCommands_0 :
    (∃ (s : State) (m : Msg) (p : List Byte),
      (ReadySigned s.core 0x0601 m p) ∧
      (fwMode s.core.mode.code = true ∧ (s.core.mode.code = .off → s.core.offServes 0x0601 = true) ∧ p.length = 128
        ∧ s.core.imageChecks p = none ∧ s.core.sec.session = none ∧ s.core.pwr.nvBad = false) ∧
      (s.core.getF (MBX_MB_CFG.PRIV m.mb.val) ≠ 0)) ∧
    (∃ (s : State) (m : Msg) (p : List Byte) (x : FwSession),
      (Ready s.core 0x0602 m p) ∧
      (fwMode s.core.mode.code = true ∧ (s.core.mode.code = .off → s.core.offServes 0x0602 = true) ∧
        s.core.sec.session = some x ∧ x.mb = m.mb.val ∧ 8 ≤ p.length ∧ p.length % 4 = 0 ∧ u32 p 0 = x.got ∧ x.got +
        (p.length - 4) ≤ imgSize x.hdr ∧ s.core.pwr.nvBad = false ∧ x.slot < 2 ∧ imgSize x.hdr ≤ 0x5FFE00) ∧
      (s.core.getF (MBX_MB_CFG.PRIV m.mb.val) ≠ 0)) ∧
    (∃ (s : State) (m : Msg) (p : List Byte) (x : FwSession),
      (Ready s.core 0x0603 m p) ∧
      (fwMode s.core.mode.code = true ∧ (s.core.mode.code = .off → s.core.offServes 0x0603 = true) ∧ p = [] ∧
        s.core.sec.session = some x ∧ x.mb = m.mb.val ∧ x.got = imgSize x.hdr ∧ x.slot < 2 ∧ s.core.sec.slots.length
        = 2) ∧
      (s.core.getF (MBX_MB_CFG.PRIV m.mb.val) ≠ 0) ∧
      (sha384 (imgBody s.mem x.slot (imgSize x.hdr)) = imgHash x.hdr ∧ sha384 ((imgBody s.mem x.slot (imgSize
        x.hdr)).take (imgFsSize x.hdr)) = imgFsHash x.hdr)) ∧
    (∃ (s : State) (m : Msg) (p : List Byte),
      (Ready s.core 0x0611 m p) ∧
      (s.core.mode.code ≠ .off ∧ p = [] ∧ s.core.driveLock = false ∧ s.core.sec.lockEnd = none) ∧
      (s.core.getF (MBX_MB_CFG.PRIV m.mb.val) ≠ 0)) ∧
    (∃ (s : State) (m : Msg) (p : List Byte),
      (ReadySigned s.core 0x0612 m p) ∧
      (s.core.mode.code ≠ .off ∧ p.length = 68 ∧ s.core.driveLock = false ∧ s.core.responseFail p = none) ∧
      (s.core.getF (MBX_MB_CFG.PRIV m.mb.val) ≠ 0)) ∧
    (∃ (s : State) (m : Msg) (p : List Byte),
      (Ready s.core 0x0613 m p) ∧
      (s.core.mode.code ≠ .off ∧ p = []) ∧
      (s.core.getF (MBX_MB_CFG.PRIV m.mb.val) ≠ 0)) ∧
    (∃ (s : State) (m : Msg) (p : List Byte),
      (ReadySigned s.core 0x0620 m p) ∧
      (s.core.mode.code = .standby ∧ p.length = 60 ∧ s.core.recommissionChecks p = none ∧ s.core.pwr.nvBad = false ∧
        u8 p 0 = 2 ∧ u8 p 1 = 1 ∧ keyProg s.core.sec.otp.integratorHash (u8 p 2) = false) ∧
      (s.core.getF (MBX_MB_CFG.PRIV m.mb.val) ≠ 0)) ∧
    (∃ (s : State) (m : Msg) (p : List Byte),
      (ReadySigned s.core 0x0732 m p) ∧
      (s.core.mode.code = .standby ∧ p.length = 12 ∧ u64 p 0 = s.core.sec.otp.deviceId.toNat ∧ u32 p 8 = 1 ∧
        s.core.bist.soft.length = 1 ∧ s.core.bist.burned = [] ∧ 1 ≤ s.core.getF BST_STATUS.FUSE_FREE ∧
        s.core.pwr.nvBad = false) ∧
      (s.core.getF (MBX_MB_CFG.PRIV m.mb.val) ≠ 0)) := by
  refine ⟨?_, ?_, ?_, ?_, ?_, ?_, ?_, ?_⟩
  · exact ⟨base [] (fun c =>
        { (c.setF (MBX_MB_CFG.PRIV 3) 1) with mode := { c.mode with code := .standby }, sec := { c.sec with otp := { c.sec.otp with deviceId := 7, vendorHash := [be 48 0x76a6c29dbab9334948e3095ad88859f0317bbc16949bd42b41c01dccb661158b038da0251a3cc6947665788306f14416, []], integratorHash := [be 48 0x76a6c29dbab9334948e3095ad88859f0317bbc16949bd42b41c01dccb661158b038da0251a3cc6947665788306f14416, [], [], []] }, session := none } }),
        ⟨3, 1, 7, 9, ([0x31, 0x47, 0x4D, 0x49] ++ zeros 9 ++ [3] ++ zeros 14 ++ be 48 0x38b060a751ac96384cd9327eb1b1e36a21fdb71114be07434c0cc7bf63f6e1da274edebfe76f65fbd51ad2f14898b95b ++ be 48 0x38b060a751ac96384cd9327eb1b1e36a21fdb71114be07434c0cc7bf63f6e1da274edebfe76f65fbd51ad2f14898b95b ++ zeros 4) ++ be 220 0x314c52540000000000000000000000000106000000000000040e2a6dec9d2b66068f44d66230316468f879062b0062f6e64c81263eef27c80980c2b9ddd0434c02bd5a3759b069920f6b9f3967b78cd7e64532a1961333df2b0c0bb4935d975524971656187dc2513be780a0a11b855499043962c35f90b308000000ced4e56dee1285a6f34fbda6d26fb50edfff23f300d47af172cd3fb71bd8f7d531f1a001c73637da306e8b0b21860e6a424106b3edce6c4c4e6d4009c9334da29eff57fd4a0eb0b96cfaf6b3cd828ce67e3f8ec348a7a59996b393f3b7ba3cf4⟩,
        ([0x31, 0x47, 0x4D, 0x49] ++ zeros 9 ++ [3] ++ zeros 14 ++ be 48
        0x38b060a751ac96384cd9327eb1b1e36a21fdb71114be07434c0cc7bf63f6e1da274edebfe76f65fbd51ad2f14898b95b ++ be 48
        0x38b060a751ac96384cd9327eb1b1e36a21fdb71114be07434c0cc7bf63f6e1da274edebfe76f65fbd51ad2f14898b95b ++ zeros
        4), by decide +kernel⟩
  · exact ⟨base [] (fun c =>
        { c.setF (MBX_MB_CFG.PRIV 3) 1 with mode := { c.mode with code := .standby }, sec := { c.sec with session := some ⟨3, 1, zeros 16 ++ [8] ++ zeros 111, 4, 0⟩ } }),
        ⟨3, 0, 7, 9, [4, 0, 0, 0, 1, 2, 3, 4]⟩, [4, 0, 0, 0, 1, 2, 3, 4],
        ⟨3, 1, zeros 16 ++ [8] ++ zeros 111, 4, 0⟩, by decide +kernel⟩
  · exact ⟨base [] (fun c =>
        { c.setF (MBX_MB_CFG.PRIV 3) 1 with mode := { c.mode with code := .standby }, sec := { c.sec with slots := [0, 0], session := some ⟨3, 1, zeros 28 ++ be 48 0x38b060a751ac96384cd9327eb1b1e36a21fdb71114be07434c0cc7bf63f6e1da274edebfe76f65fbd51ad2f14898b95b ++ be 48 0x38b060a751ac96384cd9327eb1b1e36a21fdb71114be07434c0cc7bf63f6e1da274edebfe76f65fbd51ad2f14898b95b ++ zeros 4, 0, 0⟩ } }),
        ⟨3, 0, 7, 9, []⟩, [],
        ⟨3, 1, zeros 28 ++ be 48 0x38b060a751ac96384cd9327eb1b1e36a21fdb71114be07434c0cc7bf63f6e1da274edebfe76f65fbd51ad2f14898b95b ++ be 48 0x38b060a751ac96384cd9327eb1b1e36a21fdb71114be07434c0cc7bf63f6e1da274edebfe76f65fbd51ad2f14898b95b ++ zeros 4, 0, 0⟩,
        by decide +kernel⟩
  · exact ⟨base [] (fun c => { (c.setF (MBX_MB_CFG.PRIV 3) 1) with mode := { c.mode with code := .hold } }),
        ⟨3, 0, 7, 9, []⟩, [], by decide +kernel⟩
  · exact ⟨base [] (fun c =>
        { (c.setF (MBX_MB_CFG.PRIV 3) 1) with mode := { c.mode with code := .hold }, sec := { c.sec with otp := { c.sec.otp with deviceId := 7, vendorHash := [be 48 0x76a6c29dbab9334948e3095ad88859f0317bbc16949bd42b41c01dccb661158b038da0251a3cc6947665788306f14416, []], integratorHash := [be 48 0x76a6c29dbab9334948e3095ad88859f0317bbc16949bd42b41c01dccb661158b038da0251a3cc6947665788306f14416, [], [], []] }, chal := some ⟨zeros 64, 0⟩ } }),
        ⟨3, 1, 7, 9, [2, 0, 10, 0] ++ zeros 64 ++ be 220 0x314c52540000000007000000000000001206000000000000040e2a6dec9d2b66068f44d66230316468f879062b0062f6e64c81263eef27c80980c2b9ddd0434c02bd5a3759b069920f6b9f3967b78cd7e64532a1961333df2b0c0bb4935d975524971656187dc2513be780a0a11b855499043962c35f90b308000000ced4e56dee1285a6f34fbda6d26fb50edfff23f300d47af172cd3fb71bd8f7d531f1a001c73637da306e8b0b21860e6a71328e362d67a0ff87025955587cc4da1519238f19a838aeab1ed84451a2d84416fd8e37e5f7bee4f9e166ec6772e51f⟩,
        [2, 0, 10, 0] ++ zeros 64, by decide +kernel⟩
  · exact ⟨base [] (fun c =>
        { ((c.setF (MBX_MB_CFG.PRIV 3) 1).setF DDP_STAT.LEVEL 2) with mode := { c.mode with code := .hold } }),
        ⟨3, 0, 7, 9, []⟩, [], by decide +kernel⟩
  · exact ⟨base [] (fun c =>
        { (c.setF (MBX_MB_CFG.PRIV 3) 1) with mode := { c.mode with code := .standby }, sec := { c.sec with otp := { c.sec.otp with deviceId := 7, vendorHash := [be 48 0x76a6c29dbab9334948e3095ad88859f0317bbc16949bd42b41c01dccb661158b038da0251a3cc6947665788306f14416, []], integratorHash := [be 48 0x76a6c29dbab9334948e3095ad88859f0317bbc16949bd42b41c01dccb661158b038da0251a3cc6947665788306f14416, [], [], []] }, session := none } }),
        ⟨3, 1, 7, 9, [2, 1, 3, 0, 7, 0, 0, 0, 0, 0, 0, 0] ++ [9] ++ zeros 47 ++ be 220 0x314c52540000000007000000000000002006000000000000040e2a6dec9d2b66068f44d66230316468f879062b0062f6e64c81263eef27c80980c2b9ddd0434c02bd5a3759b069920f6b9f3967b78cd7e64532a1961333df2b0c0bb4935d975524971656187dc2513be780a0a11b855499043962c35f90b308000000ced4e56dee1285a6f34fbda6d26fb50edfff23f300d47af172cd3fb71bd8f7d531f1a001c73637da306e8b0b21860e6a8248aac2d3de9dea7dc3d16486681937b33fdf1255678bde851e7ec14b828e2b0a41436f9b59f973f3b9b30771e42859⟩,
        [2, 1, 3, 0, 7, 0, 0, 0, 0, 0, 0, 0] ++ [9] ++ zeros 47, by decide +kernel⟩
  · exact ⟨base [] (fun c =>
        { ((c.setF (MBX_MB_CFG.PRIV 3) 1).setF BST_STATUS.FUSE_FREE 9) with mode := { c.mode with code := .standby }, sec := { c.sec with otp := { c.sec.otp with deviceId := 7, vendorHash := [be 48 0x76a6c29dbab9334948e3095ad88859f0317bbc16949bd42b41c01dccb661158b038da0251a3cc6947665788306f14416, []], integratorHash := [be 48 0x76a6c29dbab9334948e3095ad88859f0317bbc16949bd42b41c01dccb661158b038da0251a3cc6947665788306f14416, [], [], []] }, session := none }, bist := { c.bist with soft := [5], burned := [] } }),
        ⟨3, 1, 7, 9, [7, 0, 0, 0, 0, 0, 0, 0, 1, 0, 0, 0] ++ be 220 0x314c52540000000007000000000000003207000000000000040e2a6dec9d2b66068f44d66230316468f879062b0062f6e64c81263eef27c80980c2b9ddd0434c02bd5a3759b069920f6b9f3967b78cd7e64532a1961333df2b0c0bb4935d975524971656187dc2513be780a0a11b855499043962c35f90b308000000ced4e56dee1285a6f34fbda6d26fb50edfff23f300d47af172cd3fb71bd8f7d531f1a001c73637da306e8b0b21860e6abf71288bbaae6b28aaede4ffcd82ce82804fb7afbab15a84c1a36fae34027312c5865020deec5aa73afb166c13d9a767⟩,
        [7, 0, 0, 0, 0, 0, 0, 0, 1, 0, 0, 0], by decide +kernel⟩

/-- The hypotheses of TestCommands can be met together. -/
theorem test_meets_TestCommands_0 :
    (∃ (s : State) (m : Msg) (p : List Byte),
      (Ready s.core 0x0710 m p) ∧
      ((s.core.mode.code = .hold ∨ s.core.mode.code = .open_) ∧ p.length = 4) ∧
      (u8 p 0 < 128 ∧ 1 ≤ u8 p 1 ∧ u8 p 1 < 16 ∧ u8 p 2 ≤ 2 ∧ u8 p 3 = 0) ∧
      (s.core.nearlyStill = true ∧ (s.core.cell (u8 p 0)).adm = .admitted ∧ (s.core.cell (u8 p 0)).gone = false ∧
        s.core.prt.test = none)) ∧
    (∃ (s : State) (m : Msg) (p : List Byte),
      (Ready s.core 0x0720 m p) ∧
      (s.core.mode.code ≠ .off ∧ p.length = 8 ∧ u8 p 0 < 128 ∧ u8 p 1 = 0 ∧ u16 p 2 = 0 ∧ s.core.injectable = true ∧
        bitsOf (u32 p 4) 3 4 < 10)) ∧
    (∃ (s : State) (m : Msg) (p : List Byte),
      (Ready s.core 0x0720 m p) ∧
      (s.core.mode.code ≠ .off ∧ p.length = 8 ∧ u8 p 0 < 128 ∧ u8 p 1 = 0 ∧ u16 p 2 = 0 ∧ s.core.injectable = false)) ∧
    (∃ (s : State) (m : Msg) (p : List Byte),
      (Ready s.core 0x0721 m p) ∧
      (s.core.mode.code ≠ .off ∧ s.core.grade = 0 ∧ p.length = 8 ∧ s.core.injectable = true ∧ u8 p 0 < 3 ∧ u8 p 1 =
        0 ∧ u32 p 4 ≤ 100000)) ∧
    (∃ (s : State) (m : Msg) (p : List Byte),
      (Ready s.core 0x0730 m p) ∧
      (s.core.mode.code = .standby ∧ p.length = 4 ∧ u32 p 0 = 0 ∧ s.core.flag BST_STATUS.RUNNING = false)) ∧
    (∃ (s : State) (m : Msg) (p : List Byte) (r : RegRow),
      (Ready s.core 0x0702 m p) ∧
      (s.core.mode.code ≠ .off ∧ s.core.running = false ∧ p.length = 12 ∧ windowChecks p 1018 = none ∧ u16 p 4 = 1) ∧
      (s.core.getF (MBX_MB_CFG.PRIV m.mb.val) ≠ 0) ∧
      (u32 p 0 / 0x10000 = 0x4014 ∧ regRow (u32 p 0) = some r ∧ s.core.domainOn (domainOf (u32 p 0)) = true ∧
        s.core.setNow (u32 p 0) = 0)) ∧
    (∃ (s : State) (m : Msg) (p : List Byte) (x : Alarm),
      (Ready s.core 0x0105 m p) ∧
      (s.core.mode.code ≠ .off ∧ p.length = 6 ∧ u16 p 0 = 1 ∧ u16 p 2 = 0) ∧
      (s.core.tlm.alarms.find? (fun a => a.id == u16 p 4) = some x ∧ x.acked = false ∧ x.cause = true ∧
        x.name.endsAtAck = false)) ∧
    (∃ (s : State) (m : Msg) (p : List Byte),
      (Ready s.core 0x0103 m p) ∧
      ((cfgMode s.core.mode.code = true ∨ s.core.mode.code = .safe) ∧ p.length = 4 ∧ u8 p 0 < 3 ∧ u8 p 1 = 0 ∧ u16 p
        2 = 0) ∧
      (s.core.getF (MBX_MB_CFG.PRIV m.mb.val) ≠ 0) ∧
      ((u8 p 0 = 2 → s.core.mode.code = .standby) ∧ (u8 p 0 < 2 → s.core.aboveNsr = false))) := by
  refine ⟨?_, ?_, ?_, ?_, ?_, ?_, ?_, ?_⟩
  · exact ⟨base [] (fun c =>
        { (c.setCell 5 { Cell.reset with adm := .admitted }) with mode := { c.mode with code := .hold }, now := 100000000, fbk := { c.fbk with sCfg := { c.fbk.sCfg with en := true, stop := 1 }, sCode := 1 } }),
        ⟨3, 0, 7, 9, [5, 8, 0, 0]⟩, [5, 8, 0, 0], by decide +kernel⟩
  · exact ⟨base [] (fun c => { c with mode := { c.mode with code := .test } }), ⟨3, 0, 7, 9, [127, 0, 0, 0, 3, 0, 0, 0]⟩,
        [127, 0, 0, 0, 3, 0, 0, 0], by decide +kernel⟩
  · exact ⟨base [] (fun c => { c with mode := { c.mode with code := .hold } }), ⟨3, 0, 7, 9, [127, 0, 0, 0, 3, 0, 0, 0]⟩,
        [127, 0, 0, 0, 3, 0, 0, 0], by decide +kernel⟩
  · exact ⟨base [] (fun c => { c with mode := { c.mode with code := .test } }), ⟨3, 0, 7, 9, [2, 0, 3, 0, 9, 0, 0, 0]⟩,
        [2, 0, 3, 0, 9, 0, 0, 0], by decide +kernel⟩
  · exact ⟨base [] (fun c => { c with mode := { c.mode with code := .standby } }), ⟨3, 0, 7, 9, [0, 0, 0, 0]⟩,
        [0, 0, 0, 0], by decide +kernel⟩
  · exact ⟨base [] (fun c =>
        { ((c.setF PWR_STATUS.ON 0x3FF).setF (MBX_MB_CFG.PRIV 3) 1) with mode := { c.mode with code := .hold } }),
        ⟨3, 0, 7, 9, [0, 0, 0x14, 0x40, 1, 0, 0, 0, 7, 0, 0, 0]⟩, [0, 0, 0x14, 0x40, 1, 0, 0, 0, 7, 0, 0, 0],
        ⟨0x40140000, 4, 1, 0x3C, 0x3F, 0, 0⟩, by decide +kernel⟩
  · exact ⟨base [] (fun c =>
        { c with mode := { c.mode with code := .hold }, tlm := { c.tlm with alarms := [⟨9, .bypassUnconfirmed, 5, false, true, false, 1, 0, 0, [5, 0, 0], [], 0, 0⟩] } }),
        ⟨3, 0, 7, 9, [1, 0, 0, 0, 9, 0]⟩, [1, 0, 0, 0, 9, 0],
        ⟨9, .bypassUnconfirmed, 5, false, true, false, 1, 0, 0, [5, 0, 0], [], 0, 0⟩, by decide +kernel⟩
  · exact ⟨base [] (fun c => { (c.setF (MBX_MB_CFG.PRIV 3) 1) with mode := { c.mode with code := .standby } }),
        ⟨3, 0, 7, 9, [2, 0, 0, 0]⟩, [2, 0, 0, 0], by decide +kernel⟩

/-- The hypotheses of TestCommands can be met together. -/
theorem test_meets_TestCommands_1 :
    (∃ (s : State) (m : Msg) (p : List Byte),
      (Ready s.core 0x0803 m p) ∧
      (s.core.mode.code ≠ .off ∧ s.core.grade = 0 ∧ p = [] ∧ s.core.canRelinquish = true)) ∧
    (∃ (s : State) (m : Msg) (p : List Byte),
      (Ready s.core 0x0812 m p) ∧
      (s.core.mode.code ≠ .off ∧ s.core.grade = 1 ∧ p.length = 24) ∧
      (2 ≤ s.core.getF PAI_STATUS.PTP ∧ s.core.plantTime - 1000000000 ≤ i64 p 0 ∧ i64 p 0 ≤ s.core.plantTime +
        3600000000000 ∧ (u8 p 8 = 1 ∨ u8 p 8 = 2) ∧ u8 p 9 = 0 ∧ u16 p 10 = 0 ∧ s.core.pair.plant = none)) := by
  refine ⟨?_, ?_⟩
  · exact ⟨base [] (fun c =>
        { ((c.setF PAI_STATUS.AUTH 2).setF PAI_STATUS.READY_PARTNER 1) with mode := { c.mode with code := .hold } }),
        ⟨3, 0, 7, 9, []⟩, [], by decide +kernel⟩
  · exact ⟨base [] (fun c =>
        { ((c.setF SEC_STATUS.GRADE 1).setF PAI_STATUS.PTP 2) with mode := { c.mode with code := .hold } }),
        ⟨3, 0, 7, 9, zeros 8 ++ [1] ++ zeros 15⟩, zeros 8 ++ [1] ++ zeros 15, by decide +kernel⟩

end Sys2Proof.Tests
end

