-- ==== Sys2Proof/Proofs/RegisterWrites.lean ====
section
/-! What a write of a register does: the word its access types leave bit by bit (R9, R10), a write of a foreground setting
(R24), the bus in front of a register (R30, R31, R33), and the two statements about register writes. -/
namespace Sys2Proof.Proofs
open Sys2Proof.Machine Sys2Proof.Claims Sys2Proof.Laws

/-! ### The word a write leaves -/
section Words

theorem regRowsOf_outside {b : Nat} (h : b < 0x4000 ∨ 0x4015 ≤ b) : regRowsOf b = [] := by
  unfold regRowsOf
  repeat rw [if_neg (by omega)]

/-- No bit of a register map is both read-write and write-one-to-clear (R9). -/
theorem regRowsOf_rw_w1c_disjoint (b : Nat) : ∀ r ∈ regRowsOf b, r.rw &&& r.w1c = 0 := by
  have blocks : ∀ k < 0x15, ∀ r ∈ regRowsOf (0x4000 + k), r.rw &&& r.w1c = 0 := by decide
  by_cases h : b < 0x4000 ∨ 0x4015 ≤ b
  · simp [regRowsOf_outside h]
  · obtain ⟨k, rfl⟩ := Nat.exists_eq_add_of_le (show 0x4000 ≤ b by omega)
    exact blocks k (by omega)

theorem regRow_rw_w1c_disjoint {a : Nat} {r : RegRow} (h : regRow a = some r) (i : Nat) :
    (r.rw.testBit i && r.w1c.testBit i) = false := by
  have hr : r.rw &&& r.w1c = 0 := regRowsOf_rw_w1c_disjoint _ r (List.mem_of_find?_eq_some h)
  rw [← Nat.testBit_and, hr, Nat.zero_testBit]

/-- A bit of a complement within 32 bits. -/
theorem testBit_compl {x i : Nat} (hi : i < 32) : ((2 ^ 32 - 1) ^^^ x).testBit i = !x.testBit i := by
  rw [Nat.testBit_xor, Nat.testBit_two_pow_sub_one, decide_eq_true hi, Bool.true_xor]

theorem testBit_writtenWord {r : RegRow} {old v i : Nat} (hi : i < 32) :
    (writtenWord r old v).testBit i =
      ((old.testBit i && !r.rw.testBit i || v.testBit i && r.rw.testBit i) && !(v.testBit i && r.w1c.testBit i)) := by
  simp only [writtenWord, Nat.testBit_and, Nat.testBit_or, testBit_compl hi]

end Words

/-! ### Writes by access type -/
section Writes
variable {c : Machine.Core} {a v : Nat} {r : RegRow}

theorem plainWrite_none (h : regRow a = none) : c.plainWrite a v = c := by
  simp only [Machine.Core.plainWrite, h]

theorem plainWrite_some (h : regRow a = some r) :
    c.plainWrite a v = c.setReg a (BitVec.ofNat 32
      (writtenWord r (c.reg a).toNat (v &&& ((2 ^ 32 - 1) ^^^ (r.w1c &&& c.setNow a))))) := by
  simp only [Machine.Core.plainWrite, h]

theorem shadowWrite_none (h : regRow a = none) : c.shadowWrite a v = c := by
  simp only [Machine.Core.shadowWrite, h]

/-- Outside the conversion tables a setting is written without a check of its own (R24, R289). -/
theorem shadowWrite_some (h : regRow a = some r) (hb : a / 0x10000 ≠ 0x400B) :
    c.shadowWrite a v =
      if r.rw = 0 then c.plainWrite a ((v &&& ((2 ^ 32 - 1) ^^^ r.rw)) ||| ((c.reg a).toNat &&& r.rw))
      else (c.plainWrite a ((v &&& ((2 ^ 32 - 1) ^^^ r.rw)) ||| ((c.reg a).toNat &&& r.rw))).addShadow
        (.reg a (v &&& r.rw)) := by
  simp only [Machine.Core.shadowWrite, h, hb, false_and, decide_false, Bool.false_and, Bool.false_eq_true, or_false]

/-- R9, R10 bit by bit: a clear loses against a set in the same clock, a read-write bit takes what is written. -/
theorem getLsbD_reg_plainWrite (h : regRow a = some r) {i : Nat} (hi : i < 32) :
    ((c.plainWrite a v).reg a).getLsbD i =
      if r.w1c.testBit i && v.testBit i && !(c.setNow a).testBit i then false
      else if r.rw.testBit i then v.testBit i else (c.reg a).getLsbD i := by
  have hd := regRow_rw_w1c_disjoint h i
  rw [plainWrite_some h, reg_setReg_same, BitVec.getLsbD_ofNat, decide_eq_true hi, Bool.true_and, testBit_writtenWord hi,
    Nat.testBit_and, testBit_compl hi, Nat.testBit_and, ← BitVec.testBit_toNat]
  cases hrw : r.rw.testBit i
  · cases r.w1c.testBit i with
    | false => simp
    | true => cases hclr : v.testBit i && !(c.setNow a).testBit i <;> simp [hclr]
  · have hw : r.w1c.testBit i = false := by simpa [hrw] using hd
    simp [hw]

/-- R24 bit by bit: event bits are cleared at once, settings keep their value. -/
theorem getLsbD_reg_shadowWrite (h : regRow a = some r) (hb : a / 0x10000 ≠ 0x400B) {i : Nat} (hi : i < 32) :
    ((c.shadowWrite a v).reg a).getLsbD i =
      if r.w1c.testBit i && v.testBit i && !(c.setNow a).testBit i then false else (c.reg a).getLsbD i := by
  have hd := regRow_rw_w1c_disjoint h i
  have hreg : (c.shadowWrite a v).reg a =
      (c.plainWrite a ((v &&& ((2 ^ 32 - 1) ^^^ r.rw)) ||| ((c.reg a).toNat &&& r.rw))).reg a := by
    rw [shadowWrite_some h hb]
    split <;> rfl
  rw [hreg, getLsbD_reg_plainWrite h hi, Nat.testBit_or, Nat.testBit_and, testBit_compl hi, Nat.testBit_and,
    BitVec.testBit_toNat]
  cases hrw : r.rw.testBit i
  · simp
  · have hw : r.w1c.testBit i = false := by simpa [hrw] using hd
    simp [hw]

theorem reg_plainWrite_other {x : Nat} (hx : x ≠ a) : (c.plainWrite a v).reg x = c.reg x := by
  unfold Machine.Core.plainWrite
  split
  · rfl
  · exact reg_setReg_other hx

/-- A plain write changes the registers only. -/
theorem plainWrite_frame (c : Machine.Core) (a v : Nat) : { c.plainWrite a v with regs := c.regs } = c := by
  unfold Machine.Core.plainWrite
  split <;> rfl

theorem plainWrite_memOps : (c.plainWrite a v).memOps = c.memOps :=
  (congrArg Machine.Core.memOps (plainWrite_frame c a v) :)

theorem reg_shadowWrite_other {x : Nat} (hx : x ≠ a) : (c.shadowWrite a v).reg x = c.reg x := by
  unfold Machine.Core.shadowWrite
  split
  · rfl
  · dsimp only
    split <;> exact reg_plainWrite_other hx

/-- A write of a setting changes the registers and the queue for the next period start only. -/
theorem shadowWrite_frame (c : Machine.Core) (a v : Nat) :
    { c.shadowWrite a v with regs := c.regs, shadow := c.shadow } = c := by
  unfold Machine.Core.shadowWrite
  split
  · rfl
  · dsimp only
    split <;> exact congrArg (fun d : Machine.Core => { d with shadow := c.shadow }) (plainWrite_frame c a _)

theorem shadowWrite_memOps : (c.shadowWrite a v).memOps = c.memOps :=
  (congrArg Machine.Core.memOps (shadowWrite_frame c a v) :)

/-- R24: what a write of a setting queues. -/
theorem shadow_shadowWrite (h : regRow a = some r) (hb : a / 0x10000 ≠ 0x400B) :
    (c.shadowWrite a v).shadow = c.shadow ++ if r.rw = 0 then [] else [.reg a (v &&& r.rw)] := by
  have hp (w : Nat) : (c.plainWrite a w).shadow = c.shadow := (congrArg Machine.Core.shadow (plainWrite_frame c a w) :)
  rw [shadowWrite_some h hb]
  split
  · rw [hp, List.append_nil]
  · show (c.plainWrite a _).shadow ++ _ = _
    rw [hp]

end Writes

/-! ### The bus in front of a register -/
section Bus
variable {c : Machine.Core} {mem : Memory} {a v : Nat} {by_ : Initiator}

theorem regionOf_regs (h : 0x4000 ≤ a / 0x10000 ∧ a / 0x10000 ≤ 0x4014) : regionOf a = .regs := by
  unfold regionOf
  repeat rw [if_neg (by omega)]
  rw [if_pos (by omega)]

/-- The bus carries a write to a register that its initiator reaches, whose domain is on, outside the island. -/
theorem busWrite_register (h4 : a % 4 = 0) (hr : regionOf a = .regs) (hi : reaches a true by_ = true)
    (hd : c.domainOn (domainOf a) = true) (hs : islandReg a = false) :
    c.busWrite mem a v by_ = (c.writeReg mem a v, true) := by
  have hc : c.busCheck a true by_ = none := by
    simp [Machine.Core.busCheck, memsAt, h4, hr, hi, hd, hs]
  simp [Machine.Core.busWrite, hc, hr]

/-- R31: a write to the island is refused, counted and ends with a bus error to its initiator. -/
theorem busWrite_island (h4 : a % 4 = 0) (hr : regionOf a = .regs) (hi : reaches a true by_ = true)
    (hd : c.domainOn (domainOf a) = true) (hs : islandReg a = true) :
    c.busWrite mem a v by_ = ((c.islandWrite a).busError a true by_, false) := by
  have hc : c.busCheck a true by_ = some ((c.islandWrite a).busError a true by_) := by
    simp [Machine.Core.busCheck, memsAt, h4, hr, hi, hd, hs]
  simp [Machine.Core.busWrite, hc]

theorem plainBlock_cases (h : plainBlock a = true) :
    a / 0x10000 = 0x4003 ∨ a / 0x10000 = 0x400F ∨ a / 0x10000 = 0x4010 ∨ a / 0x10000 = 0x4014 := by
  simpa [plainBlock] using h

theorem settingBlock_cases (h : settingBlock a = true) :
    a / 0x10000 = 0x4004 ∨ a / 0x10000 = 0x4005 ∨ a / 0x10000 = 0x4008 ∨ a / 0x10000 = 0x4009 ∨ a / 0x10000 = 0x400A := by
  simpa [settingBlock] using h

/-- In a block without a write rule of its own only the access types count. -/
theorem writeReg_plainBlock (h : plainBlock a = true) : c.writeReg mem a v = c.plainWrite a v := by
  cases hr : regRow a with
  | none => simp [Machine.Core.writeReg, hr, plainWrite_none hr]
  | some r => rcases plainBlock_cases h with hb | hb | hb | hb <;> simp [Machine.Core.writeReg, fgReg, hr, hb]

/-- In a block of foreground settings a write waits for the period start. -/
theorem writeReg_settingBlock (h : settingBlock a = true) : c.writeReg mem a v = c.shadowWrite a v := by
  have hdsp : a ≠ DSP_CTRL.a := by rintro rfl; exact absurd h (by decide)
  cases hr : regRow a with
  | none => simp [Machine.Core.writeReg, hr, shadowWrite_none hr]
  | some r =>
    rcases settingBlock_cases h with hb | hb | hb | hb | hb <;> simp [Machine.Core.writeReg, fgReg, hr, hb, hdsp]

/-- A write by the hearth to a block of either kind whose domain is on reaches the register. -/
theorem busWrite_block {p : Fin 2} (h : plainBlock a = true ∨ settingBlock a = true) (h4 : a % 4 = 0)
    (hd : c.domainOn (domainOf a) = true) : c.busWrite mem a v (.hearth p) = (c.writeReg mem a v, true) := by
  have hb : 0x4003 ≤ a / 0x10000 ∧ a / 0x10000 ≤ 0x4014 ∧ a / 0x10000 ≠ 0x4012 ∧ a / 0x10000 ≠ 0x400B := by
    rcases h with h | h
    · have := plainBlock_cases h; omega
    · have := settingBlock_cases h; omega
  have hr : regionOf a = .regs := regionOf_regs (by omega)
  have hs : islandReg a = false := by
    simp only [islandReg, Bool.or_eq_false_iff, beq_eq_false_iff_ne, decide_eq_false_iff_not]
    omega
  exact busWrite_register h4 hr (by simp [reaches, hr]) hd hs

end Bus

/-! ### REGISTER_WRITE -/
section Executions
variable {s : State} {a v : BitVec 32} {p : Fin 2}

/-- What a command does depends on its effect on the state it starts from only. -/
theorem run_congr {f g : Machine.Core → Memory → Machine.Core}
    (h : f (Laws.start s.core) s.mem = g (Laws.start s.core) s.mem) : run f s = run g s :=
  congrArg (fun d : Machine.Core =>
    ({ s with mem := d.memOps.foldl applyMemOp s.mem, core := { d with memOps := [] } } : State)) h

/-- The effect of a write that no owned field stops. -/
theorem exec_registerWrite {by_ : Initiator} (h : by_ ≠ .window) :
    exec (.registerWrite a v by_) s = .next (run (fun c mem => (c.busWrite mem a.toNat v.toNat by_).1) s) :=
  congrArg _ (run_congr (if_neg fun hw => h hw.1))

/-- R11: in a running mode the register window refuses an owned field. -/
theorem exec_registerWrite_owned (hr : s.core.running = true) (ho : ownedReg a.toNat = true) :
    exec (.registerWrite a v .window) s = .next (run (fun c _ => c) s) :=
  congrArg _ (run_congr (if_pos ⟨rfl, hr, ho⟩))

theorem exec_registerWrite_plainBlock (h : plainBlock a.toNat = true) (h4 : a.toNat % 4 = 0)
    (hd : s.core.domainOn (domainOf a.toNat) = true) :
    exec (.registerWrite a v (.hearth p)) s = .next (run (fun c _ => c.plainWrite a.toNat v.toNat) s) := by
  rw [exec_registerWrite (by simp)]
  refine congrArg _ (run_congr ?_)
  rw [busWrite_block (c := Laws.start s.core) (.inl h) h4 hd, writeReg_plainBlock h]

theorem exec_registerWrite_settingBlock (h : settingBlock a.toNat = true) (h4 : a.toNat % 4 = 0)
    (hd : s.core.domainOn (domainOf a.toNat) = true) :
    exec (.registerWrite a v (.hearth p)) s = .next (run (fun c _ => c.shadowWrite a.toNat v.toNat) s) := by
  rw [exec_registerWrite (by simp)]
  refine congrArg _ (run_congr ?_)
  rw [busWrite_block (c := Laws.start s.core) (.inr h) h4 hd, writeReg_settingBlock h]

/-- R33: at an address of a block of either kind that no register occupies a write does nothing. -/
theorem exec_registerWrite_hole (h : plainBlock a.toNat = true ∨ settingBlock a.toNat = true) (h4 : a.toNat % 4 = 0)
    (hd : s.core.domainOn (domainOf a.toNat) = true) (hn : regRow a.toNat = none) :
    exec (.registerWrite a v (.hearth p)) s = .next (run (fun c _ => c) s) := by
  rcases h with h | h
  · rw [exec_registerWrite_plainBlock h h4 hd]
    exact congrArg _ (run_congr (plainWrite_none hn))
  · rw [exec_registerWrite_settingBlock h h4 hd]
    exact congrArg _ (run_congr (shadowWrite_none hn))

end Executions

/-- Settles O51: the bus carries the write to the register (`busWrite_block`), where it is a plain write or a write of a
setting; each is said bit by bit and with its frame above. -/
theorem registerWritesByAccessType : Obligations.RegisterWritesByAccessType := by
  unfold Obligations.RegisterWritesByAccessType
  refine fun s => ⟨?_, ?_, ?_, ?_⟩
  · intro a v p r hb h4 hd hr
    refine ⟨_, exec_registerWrite_plainBlock hb h4 hd, run_mem_same plainWrite_memOps, fun x hx => reg_plainWrite_other hx,
      ?_, fun i hi => getLsbD_reg_plainWrite hr hi⟩
    exact (congrArg quiet (plainWrite_frame (Laws.start s.core) a.toNat v.toNat) :)
  · intro a v p r hb h4 hd hr
    have hcnv : a.toNat / 0x10000 ≠ 0x400B := by have := settingBlock_cases hb; omega
    refine ⟨_, exec_registerWrite_settingBlock hb h4 hd, run_mem_same shadowWrite_memOps,
      fun x hx => reg_shadowWrite_other hx, shadow_shadowWrite hr hcnv, ?_, fun i hi => getLsbD_reg_shadowWrite hr hcnv hi⟩
    exact (congrArg quiet (shadowWrite_frame (Laws.start s.core) a.toNat v.toNat) :)
  · exact fun a v p hb h4 hd hn => ⟨_, exec_registerWrite_hole hb h4 hd hn, rfl, rfl⟩
  · exact fun a v hr ho => ⟨_, exec_registerWrite_owned hr ho, rfl, rfl⟩

/-! ### A debug write to the island -/

/-- R31, R445: a write of the debug port to the island ends with a bus error, which DDP_STAT.MEM_ERR records. -/
theorem registerWrite_island_debug_sets_memErr {s : State} {a v : BitVec 32} (ha : a.toNat / 0x10000 = 0x4012)
    (h4 : a.toNat % 4 = 0) (hd : s.core.domainOn (domainOf a.toNat) = true) :
    Gives (.registerWrite a v .debug) s fun t => t.flag DDP_STAT.MEM_ERR = true := by
  have hr : regionOf a.toNat = .regs := regionOf_regs (by omega)
  have hw : (Laws.start s.core).busWrite s.mem a.toNat v.toNat .debug =
      (((Laws.start s.core).islandWrite a.toNat).busError a.toNat true .debug, false) :=
    busWrite_island h4 hr (by simp [reaches, hr]) hd (by simp [islandReg, ha])
  refine ⟨_, exec_registerWrite (by simp), ?_⟩
  show ((Laws.start s.core).busWrite s.mem a.toNat v.toNat .debug).1.flag DDP_STAT.MEM_ERR = true
  rw [hw]
  show ((((Laws.start s.core).islandWrite a.toNat).event DDP_STAT.MEM_ERR).event DDP_EVENT.MEM_ERR).flag
    DDP_STAT.MEM_ERR = true
  have hne : DDP_STAT.MEM_ERR.addr ≠ DDP_EVENT.MEM_ERR.addr := by decide
  rw [Machine.Core.flag, getF_of_reg (reg_event_other hne)]
  exact flag_event_same (by decide) rfl

/-- The device after reset with every power domain on. -/
def poweredUp : State := ⟨[], [], Machine.Core.reset.setF PWR_STATUS.ON 0x3FF⟩

/-- Refutes O30: on the device with every domain on, the debug port writes 0x40120000, the first word of the SAF_
window; beside the count of attempts the bus error sets DDP_STAT.MEM_ERR (R445), which the third clause says is as before. -/
theorem not_registerAccesses : ¬ Obligations.RegisterAccesses := by
  unfold Obligations.RegisterAccesses
  rintro ⟨-, -, hdebug, -⟩
  have hon : poweredUp.core.domainOn (domainOf (0x40120000 : BitVec 32).toNat) = true := by decide +kernel
  have hclear : poweredUp.core.flag DDP_STAT.MEM_ERR = false := by decide +kernel
  obtain ⟨t, ht, -, hkeep⟩ := hdebug poweredUp 0x40120000 0 ⟨by decide, by decide, hon⟩
  obtain ⟨u, hu, hset⟩ := registerWrite_island_debug_sets_memErr (s := poweredUp) (a := 0x40120000) (v := 0)
    (by decide) (by decide) hon
  obtain rfl : t = u := Host.Outcome.next.inj (ht.symm.trans hu)
  have hsame : t.core.flag DDP_STAT.MEM_ERR = poweredUp.core.flag DDP_STAT.MEM_ERR := by
    rw [Machine.Core.flag, getF_of_reg (hkeep DDP_STAT.a (by decide)), Machine.Core.flag]
  rw [hset, hclear] at hsame
  exact absurd hsame (by decide)

end Sys2Proof.Proofs
end

