-- ==== Sys2Proof/Proofs/Architecture.lean ====
section
/-! The architecture of the device: every step keeps the memory in its canonical form (R33), what reset leaves (R420), and
a register write that reaches the safety island (R31). -/
namespace Sys2Proof.Proofs
open Sys2Proof.Machine Sys2Proof.Claims Sys2Proof.Laws

/-! ### Every command is a run -/
section Runs
variable {s t : State} {i : Instr}

/-- The meaning of every opcode is a run on the state it is given. -/
theorem runOpcode_eq_run (op : Nat) (m : Msg) (s : State) : ∃ f, runOpcode op m s = .next (run f s) := by
  unfold runOpcode
  split <;> exact ⟨_, rfl⟩

/-- A taken mailbox is made FREE, which memory does not see, and its command then runs. -/
theorem execMailboxTaken_eq_run (ecc : Option (BitVec 32)) (s : State) :
    ∃ f s', s'.pending = s.pending ∧ s'.mem = s.mem ∧ execMailboxTaken ecc s = .next (run f s') := by
  unfold execMailboxTaken
  split
  case h_1 => exact ⟨_, s, rfl, rfl, rfl⟩
  case h_2 m _ =>
    let freed : State := { s with core := s.core.setF (mbState m.val) 0 }
    have taken (op : Nat) (msg : Msg) :
        ∃ f s', s'.pending = s.pending ∧ s'.mem = s.mem ∧ runOpcode op msg freed = .next (run f s') := by
      obtain ⟨f, hf⟩ := runOpcode_eq_run op msg freed
      exact ⟨f, freed, rfl, rfl, hf⟩
    dsimp only
    split
    · exact taken _ _
    · split
      · exact taken _ _
      · exact ⟨_, freed, rfl, rfl, rfl⟩

/-- Every command is a run on a state with the queue and the memory of the one it is given. -/
theorem exec_eq_run (i : Instr) (s : State) :
    ∃ f s', s'.pending = s.pending ∧ s'.mem = s.mem ∧ exec i s = .next (run f s') := by
  cases i with
  | mailboxTaken ecc => exact execMailboxTaken_eq_run ecc s
  | _ => exact ⟨_, s, rfl, rfl, rfl⟩

/-- Whatever is left over before a command, memory has taken every write after it. -/
theorem exec_sound (h : Memory.wf s.mem = true) (ht : exec i s = .next t) : Safety.Sound t := by
  obtain ⟨f, s', -, hmem, hrun⟩ := exec_eq_run i s
  obtain rfl : run f s' = t := Host.Outcome.next.inj (hrun.symm.trans ht)
  exact ⟨run_wf (hmem ▸ h), run_memOps⟩

theorem tick_sound (h : Safety.Sound s) : Safety.Sound (tick s) := h

end Runs

/-- Settles O54: a step is a tick, which leaves memory alone, or a command, and every command is a run (`exec_eq_run`). -/
theorem memoryStaysCanonical : Obligations.MemoryStaysCanonical := by
  unfold Obligations.MemoryStaysCanonical
  intro s s' h hs
  unfold step at hs
  split at hs
  case h_1 =>
    obtain rfl := Host.Outcome.next.inj hs
    exact tick_sound h
  case h_2 _ rest _ => exact exec_sound (s := { s with pending := rest }) h.1 hs

/-! ### Reset -/

theorem reg_reset (a : Nat) : State.reset.core.reg a = regReset a := rfl

theorem getF_reset (f : Field) : State.reset.core.getF f = bitsOf (regReset f.addr).toNat f.lo f.len := rfl

theorem laneState_reset {l : Nat} (h : l < 128) : State.reset.core.laneState l = 0 := by
  have zero : ∀ l < 128, bitsOf (regReset (LNK_LANE_STATUS.a l)).toNat 0 3 = 0 := by decide +kernel
  exact zero l h

/-- Settles O55: no register is listed at reset, so each field is that of its register's reset value (`getF_reset`). -/
theorem resetLeaves : Obligations.ResetLeaves := by
  unfold Obligations.ResetLeaves
  refine ⟨⟨rfl, rfl⟩, rfl, rfl, reg_reset, ?_, ?_, ?_, fun l => laneState_reset, ⟨rfl, rfl⟩, rfl, ?_⟩
  · simp only [getF_reset]
    decide
  · rw [getF_reset]
    decide
  · rw [getF_reset]
    decide
  · rw [getF_reset]
    decide

/-! ### The safety island -/

/-- The device with every domain on, where the command that mailbox 0 runs answers to a mailbox 0xBFF8. The device has 16
mailboxes, but `CmdRef.mb` is any number and the statement is about every state. By its number that mailbox's assignment
stands at 0x400C0040 + 8 · 0xBFF8, which is SAF_STATUS, and one with PORT 2 waits for it. Channel 9, whose copies the
running command owns, is FAULTED. -/
def strayAssignment : State :=
  ⟨[], [], (((poweredUp.core.setF (mbState 0) 2).setCh 9 chFAULTED).setBox 0
    { Mbox.reset with cur := some ⟨0xBFF8, 0x0101, 0, 0, 0, 0, 0, 0⟩ }).setBox 0xBFF8
    { Mbox.reset with newCfg := some (2, 0, 0) }⟩

/-- Refutes O50: in `strayAssignment` the hearth writes ABORT to STU_CH_CMD of channel 9 (R358). The running command loses
its transfer and answers PARTIAL (R359), its mailbox becomes FREE and takes its assignment (R341), and so SAF_STATUS.FORCE
reads 2 where it read 0. -/
theorem not_safetyIslandIsNotWritable : ¬ Obligations.SafetyIslandIsNotWritable := by
  unfold Obligations.SafetyIslandIsNotWritable
  intro h
  obtain ⟨t, ht, hkeep, -⟩ := (h strayAssignment).1 0x400D0354 4 (.hearth 0)
  obtain rfl := Host.Outcome.next.inj (ht.symm.trans (exec_registerWrite (by decide)))
  have hbefore : strayAssignment.core.getF SAF_STATUS.FORCE = 0 := by decide +kernel
  have hafter : (run (fun c mem => (c.busWrite mem (0x400D0354 : BitVec 32).toNat (4 : BitVec 32).toNat (.hearth 0)).1)
    strayAssignment).core.getF SAF_STATUS.FORCE = 2 := by decide +kernel
  have hsame := getF_of_reg (f := SAF_STATUS.FORCE) (hkeep SAF_STATUS.a (by decide) (by decide))
  rw [hafter, hbefore] at hsame
  exact absurd hsame (by decide)

/-! ### The apply point of a run that is stopped

O15 asks of every apply point that T_cmd is the entry 0x43 as it stood before. Where the run of the schedule is still going,
R230 stops it there, and how many of its operations had completed is a free value (log 200), so the entry may have been
written. On `stoppedRun` the clause holds just where that value is even, which no proof can see: `Config.freeWord` has no
body. -/
section StoppedRun

/-- A stopped run of which `k` operations had completed. -/
def overrunAfter (c : Machine.Core) (k : Nat) : Machine.Core :=
  let p := c.ctlImage
  let ran := ((sched p).take k).foldl (Machine.Core.opStep p) c.fresh
  let missed := (((sched p).drop k).flatMap (opWrites p)).foldl Machine.Core.sigMiss ran
  let ended := ({ missed with ctl := { missed.ctl with runAt := none } }.sigMiss 0x44).setF CEN_STATUS.OVERRUN 1
  (ended.event CEN_EVENT.CONTROL_OVERRUN).raiseOrRelinquish .controlOverrun 0 [c.getF CEN_STATUS.CYCLES] 2

theorem overrun_eq_overrunAfter {c : Machine.Core} (h : c.ctl.runAt.isSome = true) :
    c.overrun = overrunAfter c ((Config.freeWord c.free).toNat % (schedLen c.ctlImage + 1)) := if_pos h

/-- The apply point latches T_cmd from the entry as the stopped run leaves it (R231). -/
theorem tCmd_applyPoint {s : State} (h : s.core.stepDue 3 s.core.applyAt = true) :
    ∃ t, exec .applyPoint s = .next t ∧
      t.core.saf.tCmd = rne ((Laws.start s.core).overrun.sigRaw 0x43 * s.core.tFs) 32768 := by
  refine ⟨_, rfl, ?_⟩
  have hdue : ¬ (!(Laws.start s.core).stepDue 3 (Laws.start s.core).applyAt) = true := by
    rw [show (Laws.start s.core).stepDue 3 (Laws.start s.core).applyAt = true from h]
    decide
  exact congrArg (fun d : Machine.Core => d.saf.tCmd) (if_neg hdue)

/-- At the apply point, with a run still going whose one operation copies entry 0x10, which reads 2^14, to entry 0x43, which
reads 0; T_FS is 2^16. -/
def stoppedRun : State :=
  let c := (((Machine.Core.reset.setF CLK_STATUS.ORIGIN_SET 1).setF CEN_T_FS.FS 65536).setReg (CEN_SIG.a 0x10) 0x4000#32)
  let d := (c.setReg (CEN_CFG_IMAGE.a 4) 1).setReg (CEN_CFG_IMAGE.a 8) 0x431005#32
  ⟨[], [], { d with now := 1000000000, modu := { d.modu with stage := 2 }, ctl := { d.ctl with runAt := some 0 } }⟩

theorem tCmd_applyPoint_stoppedRun : ∃ t, exec .applyPoint stoppedRun = .next t ∧
    t.core.saf.tCmd = if (Config.freeWord 0).toNat % 2 = 0 then 0 else 32768 := by
  obtain ⟨t, ht, hcmd⟩ := tCmd_applyPoint (s := stoppedRun) (by decide +kernel)
  refine ⟨t, ht, hcmd.trans ?_⟩
  have hfree : (Laws.start stoppedRun.core).free = 0 := by decide +kernel
  have hlen : schedLen (Laws.start stoppedRun.core).ctlImage = 1 := by decide +kernel
  have latched : ∀ k < 2, rne ((overrunAfter (Laws.start stoppedRun.core) k).sigRaw 0x43 * stoppedRun.core.tFs) 32768 =
      if k = 0 then 0 else 32768 := by decide +kernel
  rw [overrun_eq_overrunAfter (by decide +kernel), hfree, hlen]
  exact latched _ (Nat.mod_lt _ (by decide))

/-- What a proof of O15 would say of the free value. -/
theorem freeWord_even_of_controlPeriodEvents (h : Obligations.ControlPeriodEvents) :
    (Config.freeWord 0).toNat % 2 = 0 := by
  obtain ⟨-, -, -, happly, -⟩ := h
  obtain ⟨t, ht, -, hcmd, -⟩ := happly stoppedRun (by decide +kernel)
  obtain ⟨u, hu, hfree⟩ := tCmd_applyPoint_stoppedRun
  obtain rfl : t = u := Host.Outcome.next.inj (ht.symm.trans hu)
  have hbefore : rne (stoppedRun.core.sigRaw 0x43 * stoppedRun.core.tFs) 32768 = 0 := by decide +kernel
  rw [hcmd, hbefore] at hfree
  by_contra hodd
  rw [if_neg hodd] at hfree
  exact absurd hfree (by decide)

end StoppedRun

end Sys2Proof.Proofs
end

