-- ==== Sys2Proof/Proofs/Refusals.lean ====
section
/-! What an alarm with its request, the end of a pending transition and a message refused for its mode leave (R38, R54,
R142, R336, R340). -/
namespace Sys2Proof.Proofs
open Sys2Proof.Machine Sys2Proof.Claims Sys2Proof.Laws

/-- A command has the property where its effect on the state it starts from has it. -/
theorem gives_of_go {i : Instr} {s : State} {f : Machine.Core → Memory → Machine.Core} {P : Machine.Core → Prop}
    (hexec : exec i s = go f s) (hP : P { f (Laws.start s.core) s.mem with memOps := [] }) : Gives i s P :=
  ⟨run f s, hexec, hP⟩

/-! ### Alarms and requests -/
section Requests
variable {c : Machine.Core} {nm other : AlarmName} {inst j : Nat} {data l : List Nat} {present : Bool}

theorem raise_grid : (c.raise nm inst data present).grid = c.grid := (congrArg Machine.Core.grid onlyAlarm_raise.1 :)

theorem raise_mode : (c.raise nm inst data present).mode = c.mode := (congrArg Machine.Core.mode onlyAlarm_raise.1 :)

theorem raise_map : (c.raise nm inst data present).map = c.map := (congrArg Machine.Core.map onlyAlarm_raise.1 :)

/-- An entry stays in the table while another alarm is raised. -/
theorem hasAlarm_raise_other (h : HasAlarm c nm inst data) (hne : nm ≠ other) (hfold : nm ≠ .alarmTableFold) :
    HasAlarm (c.raise other j l present) nm inst data := by
  obtain ⟨a, ha, hn, hrest⟩ := h
  exact ⟨a, (raise_other (hn ▸ hne) (hn ▸ hfold)).mpr ha, hn, hrest⟩

theorem request_tlm : (c.request nm).tlm = c.tlm := by
  unfold Machine.Core.request
  dsimp only
  split_ifs <;> rfl

theorem request_grid : (c.request nm).grid = c.grid := by
  unfold Machine.Core.request
  dsimp only
  split_ifs <;> rfl

/-- R142: in every mode except OFF and SAFE a request waits for the safety island. -/
theorem mem_req_request (hoff : c.mode.code ≠ .off) (hsafe : c.mode.code ≠ .safe) : nm ∈ (c.request nm).saf.req := by
  unfold Machine.Core.request
  rw [if_neg (by simp [hoff, hsafe])]
  exact List.mem_append_right _ (List.mem_singleton_self _)

theorem refreshCause_tlm : c.refreshCause.tlm = c.tlm := rfl
theorem refreshCause_saf : c.refreshCause.saf = c.saf := rfl
theorem refreshCause_grid : c.refreshCause.grid = c.grid := rfl

/-- R142: a class A alarm stands in the table. -/
theorem hasAlarm_raiseA (h : nm ≠ .alarmTableFold) :
    HasAlarm (c.raiseA nm inst data) nm inst (Machine.Core.raise.fit3 data) := by
  have htlm : (c.raiseA nm inst data).tlm = (c.raise nm inst data true).tlm := refreshCause_tlm.trans request_tlm
  rw [HasAlarm, htlm]
  exact raise_listed h

/-- R142: a class A alarm requests the safe state. -/
theorem mem_req_raiseA (hoff : c.mode.code ≠ .off) (hsafe : c.mode.code ≠ .safe) :
    nm ∈ (c.raiseA nm inst data).saf.req := by
  rw [Machine.Core.raiseA, refreshCause_saf]
  exact mem_req_request (by rwa [raise_mode]) (by rwa [raise_mode])

theorem raiseA_grid : (c.raiseA nm inst data).grid = c.grid :=
  refreshCause_grid.trans (request_grid.trans raise_grid)

end Requests

/-! ### The end of a pending transition, and a phase of the grid procedure -/
section Procedures
variable {c : Machine.Core} {ref : Option CmdRef} {status phase : Nat} {l : List Nat}

theorem onlyMbx_complete : OnlyMbx c (c.complete ref status l) := by
  unfold Machine.Core.complete
  split
  · exact OnlyMbx.refl c
  · exact onlyMbx_reply

theorem complete_tlm : (c.complete ref status l).tlm = c.tlm := (congrArg Machine.Core.tlm onlyMbx_complete :)

theorem complete_map : (c.complete ref status l).map = c.map := (congrArg Machine.Core.map onlyMbx_complete :)

/-- R54: whatever the end of a transition answers, none is pending then. -/
theorem endPending_pend : (c.endPending status l).mode.pend = none := by
  unfold Machine.Core.endPending
  split
  case h_1 hnone => exact hnone
  case h_2 p _ =>
    have hmode : (({ c with mode := { c.mode with pend := none } } : Machine.Core).complete p.ref status l).mode =
        { c.mode with pend := none } := (congrArg Machine.Core.mode onlyMbx_complete :)
    rw [hmode]

theorem endPending_tlm : (c.endPending status l).tlm = c.tlm := by
  unfold Machine.Core.endPending
  split
  · rfl
  · exact complete_tlm

theorem endPending_grid : (c.endPending status l).grid = c.grid := by
  unfold Machine.Core.endPending
  split
  · rfl
  · exact (congrArg Machine.Core.grid onlyMbx_complete :)

theorem enterGrid_phase : (c.enterGrid phase).grid.phase = phase := by
  unfold Machine.Core.enterGrid
  dsimp only
  split
  · rfl
  · rw [raise_grid]

/-- GRID_PHASE apart, the alarms are as before. -/
theorem hasAlarm_enterGrid {nm : AlarmName} {inst : Nat} {data : List Nat} (h : HasAlarm c nm inst data)
    (hne : nm ≠ .gridPhase) (hfold : nm ≠ .alarmTableFold) : HasAlarm (c.enterGrid phase) nm inst data := by
  unfold Machine.Core.enterGrid
  dsimp only
  split
  · exact h
  · exact hasAlarm_raise_other h hne hfold

end Procedures

/-! ### A message that the mode refuses -/
section Modes
variable {c d e : Machine.Core} {sp : CmdSpec} {m : Msg}

/-- Nothing but the registers, the times of event sets, the mailbox block and the pending writes differs. -/
def OnlyPort (c d : Machine.Core) : Prop :=
  { d with regs := c.regs, evSet := c.evSet, mbx := c.mbx, memOps := c.memOps } = c

theorem OnlyPort.map (h : OnlyPort c d) : d.map = c.map := (congrArg Machine.Core.map h :)

theorem OnlyPort.cfg (h : OnlyPort c d) : d.cfg = c.cfg := (congrArg Machine.Core.cfg h :)

theorem OnlyPort.trans (h : OnlyPort c d) (k : OnlyPort d e) : OnlyPort c e :=
  calc ({ e with regs := c.regs, evSet := c.evSet, mbx := c.mbx, memOps := c.memOps } : Machine.Core)
    _ = { d with regs := c.regs, evSet := c.evSet, mbx := c.mbx, memOps := c.memOps } :=
      congrArg (fun x : Machine.Core =>
        { x with regs := c.regs, evSet := c.evSet, mbx := c.mbx, memOps := c.memOps }) k
    _ = c := h

theorem OnlyPort.of_mbx (h : OnlyMbx c d) : OnlyPort c d :=
  (congrArg (fun x : Machine.Core => { x with evSet := c.evSet }) h :)

theorem onlyPort_event {f : Field} : OnlyPort c (c.event f) := rfl

theorem onlyPort_replay {mb addr udp : Nat} : OnlyPort c (c.replay mb addr udp) := by
  unfold Machine.Core.replay
  refine OnlyPort.trans ?_ onlyPort_event
  split
  · exact .of_mbx onlyMbx_emit
  · rfl

theorem onlyPort_refuseBell {ref : CmdRef} : OnlyPort c (c.refuseBell ref) := by
  have counted : OnlyPort c ((c.event MBX_EVENT.DOORBELL_REFUSED).bump MBX_COUNT.REFUSED 1) :=
    onlyPort_event.trans (.of_mbx onlyMbx_setF)
  unfold Machine.Core.refuseBell
  dsimp only
  split
  · exact counted
  · exact counted.trans (.of_mbx onlyMbx_send)

/-- A refusal that no signature causes. -/
def PlainRefusal (t : Taken) : Prop := ∃ status l, t = .refuse status l false false

theorem plainRefusal_ite {P : Prop} [Decidable P] {status : Nat} {l : List Nat} {t : Taken} (h : PlainRefusal t) :
    PlainRefusal (if P then .refuse status l false false else t) := by
  by_cases hP : P
  · exact ⟨status, l, if_pos hP⟩
  · rwa [if_neg hP]

/-- In a mode outside the command's own a message is refused before its signature is looked at (R340). -/
theorem check_plainRefusal {ref : CmdRef} {body : List Byte} (hmode : sp.modes c.mode.code = false) :
    PlainRefusal (c.check sp ref body) := by
  unfold Machine.Core.check
  exact plainRefusal_ite (plainRefusal_ite (plainRefusal_ite (plainRefusal_ite ⟨_, _, if_pos (by simp [hmode])⟩)))

/-- R340: a message that passes the checks before that of the mode is refused with BAD_STATE and the mode in force. -/
theorem check_badState {ref : CmdRef} {body : List Byte} (hflags : ref.flags / 2 = 0) (hlen : body.length ≤ 4080)
    (hpriv : sp.priv = false) (hgrade : sp.grade = none) (hmode : sp.modes c.mode.code = false) :
    c.check sp ref body = .refuse stBAD_STATE [c.mode.code.code] false false := by
  unfold Machine.Core.check
  dsimp only
  rw [if_neg (not_not.mpr hflags), if_neg (by omega), if_neg (by simp [hpriv]), if_neg (by simp [hgrade]),
    if_pos (by simp [hmode])]

/-- A refusal that no signature causes is its reply. -/
theorem refuse_eq_replyW {ref : CmdRef} {status : Nat} {l : List Nat} :
    c.refuse ref status l false false = c.replyW ref status l := rfl

/-- Whatever its mailbox does with a message for another mode, it stays at the mailbox. -/
theorem onlyPort_command {f : Cmd → Machine.Core → Machine.Core} (hmode : sp.modes c.mode.code = false) :
    OnlyPort c (c.command sp m f) := by
  unfold Machine.Core.command
  dsimp only
  split
  · exact onlyPort_replay
  split
  · exact onlyPort_refuseBell
  split
  · exact .of_mbx (((onlyMbx_writeMem.trans onlyMbx_writeMem).trans onlyMbx_setF).trans onlyMbx_setBox)
  split
  · exact onlyPort_replay.trans (.of_mbx onlyMbx_freeBox)
  · obtain ⟨status, l, hcheck⟩ :=
      check_plainRefusal (c := (c.take sp.op m).1) (ref := (c.take sp.op m).2) (body := m.body) hmode
    rw [hcheck]
    exact .of_mbx (onlyMbx_take.trans onlyMbx_reply)

/-- R336: a final reply to a message that was taken frees its mailbox. -/
theorem answered_reply {op status : Nat} {payload : List Byte} (h : status ≠ stACCEPTED) :
    Answered ((c.take op m).1.reply (c.take op m).2 status payload) m op status payload := by
  obtain ⟨hfree, hready, ⟨r, hstored, href, hstatus, hpayload⟩, -, -⟩ :=
    reply_final (c := (c.take op m).1) (ref := (c.take op m).2) (payload := payload) m.mb.isLt h
  exact ⟨⟨r, hstored, by rw [href]; rfl, by rw [href]; rfl, by rw [href]; rfl, hstatus, hpayload⟩, hfree, hready⟩

/-- R336, R340: a message that a mailbox takes in a mode outside the command's own. -/
theorem answered_badState {f : Cmd → Machine.Core → Machine.Core} (hfree : Free c m) (hflags : m.flags.toNat / 2 = 0)
    (hpriv : sp.priv = false) (hgrade : sp.grade = none) (hmode : sp.modes c.mode.code = false) :
    Answered (c.command sp m f) m sp.op stBAD_STATE (words [c.mode.code.code]) := by
  obtain ⟨hstate, hserved, hnew, hlen⟩ := hfree
  rw [command_refuse hstate hserved hnew (check_badState hflags hlen hpriv hgrade hmode), refuse_eq_replyW]
  exact answered_reply (by decide)

end Modes
end Sys2Proof.Proofs
end

