-- ==== Sys2Proof/Proofs/StringMapAndModes.lean ====
section
/-! The string map is set in STANDBY only (R38), the procedures of a mode change and of the grid (R41, R53, R60 to R62),
and MODE_SET while a map is being applied (R41). -/
namespace Sys2Proof.Proofs
open Sys2Proof.Machine Sys2Proof.Claims Sys2Proof.Laws

/-! ### STRING_MAP_SET -/

/-- What the table of R348 says of STRING_MAP_SET. -/
def stringMapSpec : CmdSpec := { setSpec 0x0201 2176 with modes := (· == .standby) }

theorem exec_stringMapSet (m : Msg) (s : State) :
    ∃ f, exec (.stringMapSet m) s = go (fun c _ => c.command stringMapSpec m f) s := ⟨_, rfl⟩

/-- Settles O59: outside STANDBY the mode refuses the message (`answered_badState`), and whatever else its mailbox does with
it stays at the mailbox (`onlyPort_command`). -/
theorem stringMapOnlyInStandby : Obligations.StringMapOnlyInStandby := by
  unfold Obligations.StringMapOnlyInStandby
  intro s
  have outside (hmode : s.core.mode.code ≠ .standby) : stringMapSpec.modes (Laws.start s.core).mode.code = false :=
    beq_eq_false_iff_ne.mpr hmode
  refine ⟨fun m hfree hflags hmode => ?_, fun m hmode => ?_⟩
  · obtain ⟨f, hexec⟩ := exec_stringMapSet m s
    have kept := onlyPort_command (m := m) (f := f) (outside hmode)
    exact ⟨_, hexec, answered_badState (c := Laws.start s.core) hfree hflags rfl rfl (outside hmode), kept.map, kept.cfg⟩
  · obtain ⟨f, hexec⟩ := exec_stringMapSet m s
    have kept := onlyPort_command (m := m) (f := f) (outside hmode)
    exact ⟨_, hexec, kept.map, kept.cfg⟩

/-! ### The procedures of a mode change -/

section Changes
variable {s : State} {p : Pending}

theorem exec_rampComplete (hpend : s.core.mode.pend = some p) (hramp : p.ramp = true)
    (hsmall : s.core.rampSmall p = true) :
    exec .rampComplete s =
      go (fun c _ => c.modMode (fun m => { m with pend := some { p with ramp := false } })) s := by
  refine congrArg _ (run_congr ?_)
  simp only [show (Laws.start s.core).mode.pend = some p from hpend]
  exact if_pos ⟨hramp, hsmall⟩

theorem exec_rampTimeout (hpend : s.core.mode.pend = some p) (hramp : p.ramp = true)
    (htime : p.accepted + 2000000000 ≤ s.core.now) (hlarge : s.core.rampSmall p = false)
    (hreq : AlarmName.rampTimeout ∉ s.core.saf.req) :
    exec .rampTimeout s = go (fun c _ => c.raiseA .rampTimeout 0 []) s := by
  refine congrArg _ (run_congr ?_)
  simp only [show (Laws.start s.core).mode.pend = some p from hpend]
  have hnone : (!s.core.saf.req.contains .rampTimeout) = true := by simpa using hreq
  exact if_pos ⟨hramp, htime, congrArg _ hlarge, hnone⟩

/-- R41: the device after the identity checks of a map. -/
def mapKnown (c : Machine.Core) : Machine.Core := { c with map := { c.map with applying := none, checking := false } }

theorem exec_mapApplied (hchecking : s.core.map.checking = true) (hknown : s.core.identityKnown = true) :
    exec .mapApplied s = go (fun c _ => ((mapKnown c).raise .mapApplied 0 (c.map.id :: c.identityCounts) false).complete
      c.map.applying stDONE c.identityCounts) s :=
  congrArg _ (run_congr (if_pos ⟨hchecking, hknown⟩))

end Changes

/-- Settles O16: each event is run by its own equation; an alarm it raises stands in the table and, of class A, requests the
safe state. -/
theorem modeProcedureEvents : Obligations.ModeProcedureEvents := by
  unfold Obligations.ModeProcedureEvents
  refine ⟨?_, ?_, ?_⟩
  · rintro s p ⟨hpend, hramp, hsmall⟩
    exact gives_of_go (exec_rampComplete hpend hramp hsmall) rfl
  · rintro s p ⟨hpend, hramp, htime, hlarge, hreq⟩ ⟨hoff, hsafe⟩
    refine gives_of_go (exec_rampTimeout hpend hramp htime hlarge hreq) ?_
    dsimp only [Listed]
    refine ⟨?_, ?_⟩
    · exact hasAlarm_raiseA (c := Laws.start s.core) (by decide)
    · exact mem_req_raiseA (c := Laws.start s.core) hoff hsafe
  · rintro s ⟨hchecking, hknown⟩
    refine gives_of_go (exec_mapApplied hchecking hknown) ?_
    dsimp only [Listed]
    rw [complete_map, raise_map, complete_tlm]
    exact ⟨rfl, rfl, raise_listed (by decide)⟩

/-! ### The grid procedure -/
section Grid
variable {s : State} {p : Pending} {u k : Nat}

theorem exec_gridVoltagePresent (hwait : s.core.gridWaiting = some p) (hsince : s.core.grid.presentSince = some u)
    (htime : u + 20000000 ≤ s.core.now) :
    exec .gridVoltagePresent s =
      go (fun c _ => c.modGrid (fun g => { g with next := some 1, option := p.option, wi := 0, fHist := [] })) s := by
  refine congrArg _ (run_congr ?_)
  simp only [show (Laws.start s.core).gridWaiting = some p from hwait,
    show (Laws.start s.core).grid.presentSince = some u from hsince]
  exact if_pos htime

theorem exec_gridVoltageAbsent (hwait : s.core.gridWaiting = some p) (hsince : s.core.grid.absentSince = some u)
    (htime : u + 20000000 ≤ s.core.now) (hoption : p.option = 1) (hblack : bitOf (u8 s.core.gridP 6) 1 = true) :
    exec .gridVoltageAbsent s =
      go (fun c _ => c.modGrid (fun g => { g with
        next := some 2, option := 1, th := 0, thF := 0, wi := 0, vRamp := 0, fHist := [] })) s := by
  refine congrArg _ (run_congr ?_)
  simp only [show (Laws.start s.core).gridWaiting = some p from hwait,
    show (Laws.start s.core).grid.absentSince = some u from hsince]
  exact if_pos ⟨htime, hoption, hblack⟩

theorem exec_gridNoGridTimeout (hwait : s.core.gridWaiting = some p) (htime : p.accepted + 100000000 ≤ s.core.now)
    (hfound : s.core.gridFound p = false) :
    exec .gridNoGridTimeout s =
      go (fun c _ => (c.raise .gridSyncFailed 0 [1] false).endPending stBAD_STATE [c.mode.code.code]) s := by
  refine congrArg _ (run_congr ?_)
  simp only [show (Laws.start s.core).gridWaiting = some p from hwait]
  exact if_pos ⟨htime, congrArg _ hfound⟩

theorem putHin_grid (c : Machine.Core) (e : Nat) (x : Int) : (c.putHin e x).grid = c.grid := by
  unfold Machine.Core.putHin
  split <;> rfl

/-- R61: what the hand-over writes. Slots and host entries wait in the shadow for the period start. -/
def handOver (c : Machine.Core) : Machine.Core :=
  let slots := (c.putSlot c.dSlot 1).putSlot c.qSlot 1
  let volts := (slots.putVolts c.vdHin (dblOf c.grid.vd)).putVolts c.vqHin (dblOf c.grid.vq)
  (volts.putHin c.angleHin (toS 16 (ofS 16 (volts.countsOf (dblOf c.grid.th))))).fresh

theorem handOver_grid (c : Machine.Core) : (handOver c).grid = c.grid := by
  simp only [handOver, fresh_grid, Machine.Core.putVolts, putHin_grid, Machine.Core.putSlot, addShadow_grid]

theorem exec_gridSyncHeld (hsince : s.core.grid.syncSince = some u) (hphase : s.core.grid.phase = 1)
    (hnext : s.core.grid.next = none) (htime : u + u16 s.core.gridP 20 * 1000000 ≤ s.core.now) :
    exec .gridSyncHeld s =
      go (fun c _ => (handOver c).modGrid (fun g => { g with next := some 3, auto := true, thF := g.th })) s := by
  refine congrArg _ (run_congr ?_)
  simp only [show (Laws.start s.core).grid.syncSince = some u from hsince]
  exact if_pos ⟨hphase, hnext, htime⟩

theorem exec_gridSyncTimeout (hphase : s.core.grid.phase = 1) (hnext : s.core.grid.next = none)
    (htime : s.core.grid.phaseAt + u16 s.core.gridP 22 * 1000000 ≤ s.core.now) :
    exec .gridSyncTimeout s =
      go (fun c _ => ((c.raise .gridSyncFailed 0 [2] false).enterGrid 0).endPending stTIMEOUT [0]) s :=
  congrArg _ (run_congr (if_pos ⟨hphase, hnext, htime⟩))

/-- R62: a condition that is checked has held beyond its time. -/
def heldTooLong (c : Machine.Core) (k : Nat) : Bool :=
  (c.grid.condSince.getD (k - 1) none).any (fun v => c.condOn k && decide (v + c.condTime k < c.cnv.sampleAt))

theorem exec_gridTrip (hheld : [1, 2, 3, 4, 5, 6, 7, 8].find? (heldTooLong s.core) = some k)
    (hreq : AlarmName.gridTrip ∉ s.core.saf.req) (hsafe : s.core.mode.code ≠ .safe) :
    exec .gridTrip s = go (fun c _ => (c.modGrid (fun g => { g with lastTrip := k })).raiseA .gridTrip 0
      [k, dI (c.condValue k), c.us]) s := by
  have found (held : Nat → Bool) (h : held = heldTooLong s.core) :
      [1, 2, 3, 4, 5, 6, 7, 8].find? held = some k := h ▸ hheld
  refine congrArg _ (run_congr ?_)
  dsimp only
  rw [found _ (funext fun j => ?_)]
  · exact if_neg (not_or.mpr ⟨fun h => hreq (List.contains_iff_mem.mp h), hsafe⟩)
  · unfold heldTooLong
    cases hsince : s.core.grid.condSince.getD (j - 1) none <;>
      simp only [show (Laws.start s.core).grid.condSince.getD (j - 1) none = _ from hsince] <;> rfl

end Grid

/-- Settles O14: each event is run by its own equation; GRID_SYNC_FAILED stays in the table while the phase and the pending
request end. -/
theorem gridEvents : Obligations.GridEvents := by
  unfold Obligations.GridEvents
  refine ⟨?_, ?_, ?_, ?_, ?_, ?_⟩
  · rintro s p u ⟨hwait, hsince, htime⟩
    exact gives_of_go (exec_gridVoltagePresent hwait hsince htime) ⟨rfl, rfl⟩
  · rintro s p u ⟨hwait, hsince, htime, hoption, hblack⟩
    exact gives_of_go (exec_gridVoltageAbsent hwait hsince htime hoption hblack) ⟨rfl, rfl⟩
  · rintro s p ⟨hwait, htime, hfound⟩
    refine gives_of_go (exec_gridNoGridTimeout hwait htime hfound) ?_
    dsimp only [Listed]
    rw [endPending_tlm, endPending_pend]
    exact ⟨raise_listed (by decide), rfl⟩
  · rintro s u ⟨hsince, hphase, hnext, htime⟩
    exact gives_of_go (exec_gridSyncHeld hsince hphase hnext htime)
      ⟨rfl, rfl, congrArg Grid.th (handOver_grid (Laws.start s.core))⟩
  · rintro s ⟨hphase, hnext, htime⟩
    refine gives_of_go (exec_gridSyncTimeout hphase hnext htime) ?_
    dsimp only [Listed]
    rw [endPending_tlm, endPending_pend, endPending_grid, enterGrid_phase]
    exact ⟨hasAlarm_enterGrid (raise_listed (by decide)) (by decide) (by decide), rfl, rfl⟩
  · rintro s k hheld ⟨hreq, hsafe⟩
    refine gives_of_go (exec_gridTrip hheld hreq hsafe) ?_
    dsimp only [Listed]
    rw [raiseA_grid]
    exact ⟨rfl, hasAlarm_raiseA (by decide), fun hoff => mem_req_raiseA hoff hsafe⟩

/-! ### MODE_SET while a map is being applied -/

/-- A STRING_MAP_SET of mailbox 0. -/
def mapCommand : CmdRef := ⟨0, 0x0201, 0, 1, 0, 0, 0, 0⟩

/-- The device in STANDBY while the map of `mapCommand` is being applied: its mailbox is PENDING until the last identity
check ends (R41). -/
def applyingMap : State :=
  let c := (Machine.Core.reset.setF (mbState 0) 3).setBox 0 { Mbox.reset with cur := some mapCommand }
  ⟨[], [], { c with
    mode := { c.mode with code := .standby }, map := { c.map with applying := some mapCommand, checking := true } }⟩

/-- MODE_SET SAFE on mailbox 1. -/
def safeMessage : Msg := ⟨1, 0, 7, 0, 8 :: zeros 11⟩

/-- R41: until the map is applied a MODE_SET is refused with BUSY. -/
theorem modeSet_applyingMap_busy :
    ∃ t, exec (.modeSet safeMessage) applyingMap = .next t ∧ (t.core.box 1).stored.map (·.status) = some stBUSY :=
  ⟨_, rfl, by decide +kernel⟩

/-- Refutes O35: while a map is being applied MODE_SET SAFE is answered BUSY, and the first clause says ACCEPTED. -/
theorem not_modeCommands : ¬ Obligations.ModeCommands := by
  unfold Obligations.ModeCommands
  rintro ⟨hsafe, -⟩
  obtain ⟨t, ht, ⟨⟨r, hr, -, -, haccepted, -⟩, -, -⟩, -⟩ := hsafe applyingMap safeMessage (8 :: zeros 11)
    (by decide +kernel) (by decide +kernel) (by decide +kernel)
  obtain ⟨u, hu, hbusy⟩ := modeSet_applyingMap_busy
  obtain rfl : t = u := Host.Outcome.next.inj (ht.symm.trans hu)
  have hstatus : r.status = stBUSY := by
    rw [show (t.core.box 1).stored = some r from hr] at hbusy
    exact Option.some.inj hbusy
  rw [haccepted] at hstatus
  exact absurd hstatus (by decide)

end Sys2Proof.Proofs
end

