-- ==== Sys2Proof/Proofs/LinkFrames.lean ====
section
/-! What the events of the cell link leave as it was (R81, R82, R87, R88, R93, R95, R96, R98, R128, R129, R388): the shared
operations of the link and the gate generator each with the tables and registers they work on, and from them the frames of
the events. -/
namespace Sys2Proof.Proofs
open Sys2Proof.Machine Sys2Proof.Claims Sys2Proof.Laws

/-! ### Frames by table and register -/

/-- The tables of the device that an operation works on. -/
structure Tables where
  cells : Bool := false
  lanes : Bool := false
  hbs : Bool := false
  prt : Bool := false
  tlm : Bool := false

/-- The device without the registers and the tables an operation works on. -/
def Tables.hide (k : Tables) (c : Machine.Core) : Machine.Core :=
  { c with
    regs := [], evSet := []
    cells := bif k.cells then [] else c.cells
    lanes := bif k.lanes then [] else c.lanes
    hbs := bif k.hbs then [] else c.hbs
    prt := bif k.prt then Machine.Core.reset.prt else c.prt
    tlm := bif k.tlm then Machine.Core.reset.tlm else c.tlm }

/-- Nothing but the tables of `k` and the registers of `W` (and the times of event sets) differs. -/
def Within (k : Tables) (W : Nat → Bool) (c d : Machine.Core) : Prop :=
  k.hide d = k.hide c ∧ ∀ a, W a = false → d.reg a = c.reg a

section Frames
variable {k : Tables} {W : Nat → Bool} {c d e : Machine.Core} {f : Field} {n v : Nat}

theorem Within.refl : Within k W c c := ⟨rfl, fun _ _ => rfl⟩

theorem Within.trans (h : Within k W c d) (g : Within k W d e) : Within k W c e :=
  ⟨g.1.trans h.1, fun a ha => (g.2 a ha).trans (h.2 a ha)⟩

theorem Within.tlm (h : Within k W c d) (hk : k.tlm = false) : d.tlm = c.tlm := by
  simpa [Tables.hide, hk] using congrArg Machine.Core.tlm h.1

theorem Within.cells (h : Within k W c d) (hk : k.cells = false) : d.cells = c.cells := by
  simpa [Tables.hide, hk] using congrArg Machine.Core.cells h.1

theorem ne_of_outside {a x : Nat} (hx : W x = true) (ha : W a = false) : a ≠ x := by
  rintro rfl
  exact absurd (hx.symm.trans ha) (by decide)

theorem within_setReg {a : Nat} {w : Word} (h : W a = true) : Within k W c (c.setReg a w) :=
  ⟨rfl, fun _ hx => reg_setReg_other (ne_of_outside h hx)⟩

theorem within_setF (h : W f.addr = true) : Within k W c (c.setF f v) := within_setReg h

theorem within_setFlag {b : Bool} (h : W f.addr = true) : Within k W c (c.setFlag f b) := within_setReg h

theorem within_bump (h : W f.addr = true) : Within k W c (c.bump f v) := within_setReg h

theorem within_event (h : W f.addr = true) : Within k W c (c.event f) :=
  ⟨rfl, fun _ hx => reg_event_other (ne_of_outside h hx)⟩

theorem within_setCell {x : Cell} (hk : k.cells = true) : Within k W c (c.setCell n x) :=
  ⟨by unfold Tables.hide; rw [hk]; rfl, fun _ _ => rfl⟩

theorem within_modCell {g : Cell → Cell} (hk : k.cells = true) : Within k W c (c.modCell n g) := within_setCell hk

theorem within_setLane {x : Lane} (hk : k.lanes = true) : Within k W c (c.setLane n x) :=
  ⟨by unfold Tables.hide; rw [hk]; rfl, fun _ _ => rfl⟩

theorem within_modLane {g : Lane → Lane} (hk : k.lanes = true) : Within k W c (c.modLane n g) := within_setLane hk

theorem within_setHb {x : Hb} (hk : k.hbs = true) : Within k W c (c.setHb n x) :=
  ⟨by unfold Tables.hide; rw [hk]; rfl, fun _ _ => rfl⟩

theorem within_modHb {g : Hb → Hb} (hk : k.hbs = true) : Within k W c (c.modHb n g) := within_setHb hk

theorem within_setXb {x : XBlank} (hk : k.prt = true) : Within k W c (c.setXb n x) :=
  ⟨by unfold Tables.hide; rw [hk]; rfl, fun _ _ => rfl⟩

theorem within_tlm {x : Tlm} (hk : k.tlm = true) : Within k W c { c with tlm := x } :=
  ⟨by unfold Tables.hide; rw [hk]; rfl, fun _ _ => rfl⟩

/-- A command that works within tables and registers keeps all else: `put` is what its frame puts back. -/
theorem keeps_of_within {i : Instr} {put : Machine.Core → Machine.Core → Machine.Core}
    {g : Machine.Core → Memory → Machine.Core} (hexec : ∀ s, exec i s = go g s)
    (hput : ∀ t c : Machine.Core, quiet { put { t with memOps := [] } c with regs := c.regs, evSet := c.evSet } =
      quiet { put (k.hide t) c with regs := c.regs, evSet := c.evSet })
    (hsame : ∀ c : Machine.Core, quiet { put (k.hide (Laws.start c)) c with regs := c.regs, evSet := c.evSet } = quiet c)
    (hg : ∀ c mem, Within k W c (g c mem)) : Keeps i W put := by
  intro s
  obtain ⟨hhide, hregs⟩ := hg (Laws.start s.core) s.mem
  have hmem : (g (Laws.start s.core) s.mem).memOps = [] := (congrArg Machine.Core.memOps hhide :)
  refine ⟨_, hexec s, rfl, fun a => by rw [run_mem_same hmem], hregs, ?_⟩
  calc quiet { put (run g s).core s.core with regs := s.core.regs, evSet := s.core.evSet }
    _ = quiet { put (k.hide (g (Laws.start s.core) s.mem)) s.core with regs := s.core.regs, evSet := s.core.evSet } :=
      hput _ _
    _ = quiet { put (k.hide (Laws.start s.core)) s.core with regs := s.core.regs, evSet := s.core.evSet } := by rw [hhide]
    _ = quiet s.core := hsame _

end Frames

/-! ### Equalisation trials and errors of a lane -/
section Errors
variable {k : Tables} {W : Nat → Bool} {c : Machine.Core} {l n : Nat}

theorem within_setTrial {t : Option EqTrial} (ht : k.tlm = true) : Within k W c (c.setTrial l t) := within_tlm ht

theorem within_setEqCode {which v : Nat} (hl : k.lanes = true) (ht : k.tlm = true) (hq : W (LNK_LANE_EQ.a l) = true) :
    Within k W c (c.setEqCode l which v) := by
  unfold Machine.Core.setEqCode
  split
  · exact .refl
  split
  · exact within_setF hq
  · exact within_setF hq
  · exact (within_tlm ht).trans (within_modLane hl)

theorem within_eqAbandon (hl : k.lanes = true) (ht : k.tlm = true) (hq : W (LNK_LANE_EQ.a l) = true) :
    Within k W c (c.eqAbandon l) := by
  unfold Machine.Core.eqAbandon
  split
  · exact .refl
  · exact (within_setTrial ht).trans (within_setEqCode hl ht hq)

theorem within_eqErrors (hl : k.lanes = true) (ht : k.tlm = true) (hq : W (LNK_LANE_EQ.a l) = true) :
    Within k W c (c.eqErrors l n) := by
  unfold Machine.Core.eqErrors
  split
  · exact .refl
  dsimp only
  split
  · exact within_eqAbandon hl ht hq
  · exact within_setTrial ht

theorem within_laneError (hl : k.lanes = true) (ht : k.tlm = true) (hw : W (LNK_LANE_ERR_WINDOW.a l) = true)
    (hq : W (LNK_LANE_EQ.a l) = true) : Within k W c (c.laneError l n) :=
  ((within_setLane hl).trans (within_setF hw)).trans (within_eqErrors hl ht hq)

end Errors

/-! ### Messages and the injector -/
section Messages
variable {k : Tables} {W : Nat → Bool} {c : Machine.Core} {l n : Nat}

theorem within_queueMsg {op arg : Nat} (hl : k.lanes = true) : Within k W c (c.queueMsg l op arg) := by
  unfold Machine.Core.queueMsg
  split
  · exact .refl
  · exact within_modLane hl

theorem within_endMsg (hl : k.lanes = true) (hs : W (LNK_LANE_STATUS.a l) = true) : Within k W c (c.endMsg l) :=
  ((within_modLane hl).trans (within_setF hs)).trans (within_setF hs)

theorem within_attemptFailed (hl : k.lanes = true) (ht : k.tlm = true) (hs : W (LNK_LANE_STATUS.a l) = true)
    (hw : W (LNK_LANE_ERR_WINDOW.a l) = true) (he : W (LNK_LANE_EVENT.a l) = true) (hq : W (LNK_LANE_EQ.a l) = true) :
    Within k W c (c.attemptFailed l) := by
  have counted : Within k W c ((c.laneError l 1).event (LNK_LANE_EVENT.MSG_FAIL l)) :=
    (within_laneError hl ht hw hq).trans (within_event he)
  unfold Machine.Core.attemptFailed
  dsimp only
  split
  · exact .refl
  split
  · exact counted.trans (within_endMsg hl hs)
  · exact (counted.trans (within_modLane hl)).trans (within_setF hs)

theorem within_injSwaps (hi : W (LNK_LANE_INJ_STATUS.a l) = true) : Within k W c (c.injSwaps l) := by
  unfold Machine.Core.injSwaps
  dsimp only
  split
  · exact within_bump hi
  · exact .refl

theorem within_injSettle (hl : k.lanes = true) (hi : W (LNK_LANE_INJ_STATUS.a l) = true) :
    Within k W c (c.injSettle l) := by
  unfold Machine.Core.injSettle
  dsimp only
  split
  · exact .refl
  split
  · exact ((within_setLane hl).trans (within_bump hi)).trans (within_setF hi)
  · exact (within_setLane hl).trans (within_bump hi)

theorem within_injWrite {v : Nat} (hl : k.lanes = true) (ht : k.tlm = true) (hc : W (LNK_LANE_INJ_CFG.a l) = true)
    (hi : W (LNK_LANE_INJ_STATUS.a l) = true) (hq : W (LNK_LANE_EQ.a l) = true) : Within k W c (c.injWrite l v) := by
  have settled : Within k W c (c.injSettle l) := within_injSettle hl hi
  unfold Machine.Core.injWrite
  dsimp only
  split
  · exact settled.trans (within_setF hi)
  have written := (((settled.trans (within_setReg (w := BitVec.ofNat 32 (v % 2 ^ 28)) hc)).trans (within_setF
    (f := LNK_LANE_INJ_STATUS.DENIED l) (v := 0) hi)).trans (within_setFlag (f := LNK_LANE_INJ_STATUS.ACTIVE l)
    (b := v % 4 != 0) hi))
  split
  · exact written.trans (within_modLane hl)
  · exact (written.trans (within_modLane hl)).trans (within_eqAbandon hl ht hq)

end Messages

/-! ### Protective changes and training -/
section Training
variable {k : Tables} {W : Nat → Bool} {c : Machine.Core} {n h : Nat}

theorem within_preempt {b : Nat} (hl : k.lanes = true) : Within k W c (c.preempt n b).1 := by
  unfold Machine.Core.preempt
  dsimp only
  split
  · split
    · exact within_setLane hl
    · split
      · exact within_setLane hl
      · exact .refl
  · exact .refl

theorem within_linkSpace (hh : k.hbs = true) (he : W (LNK_LANE_EVENT.a n) = true) : Within k W c (c.linkSpace n) := by
  unfold Machine.Core.linkSpace
  dsimp only
  split
  · exact .refl
  · exact ((within_modHb hh).trans (within_modHb hh)).trans (within_event he)

theorem within_openWin {s lo hi : Nat} (hp : k.prt = true) : Within k W c (c.openWin s lo hi) := by
  unfold Machine.Core.openWin
  split
  · exact within_setXb hp
  · exact .refl

/-- A protective change works on the lane, the half-bridges and the windows, CODE of its leg and SPACING (R75, R81, R108). -/
theorem within_forceCode {code at0 : Nat} (hl : k.lanes = true) (hh : k.hbs = true) (hp : k.prt = true)
    (hg : W (GDP_HB_STAT.a h) = true) (he : W (LNK_LANE_EVENT.a (h / 2)) = true) :
    Within k W c (c.forceCode h code at0) := by
  have sent (x : Nat) : Within k W c (if x = code then c else (c.preempt (h / 2) (launchOf at0)).1) := by
    split
    · exact .refl
    · exact within_preempt hl
  unfold Machine.Core.forceCode
  dsimp only
  split
  · exact ((((sent _).trans (within_setHb hh)).trans (within_setF hg)).trans (within_linkSpace hh he)).trans
      (within_openWin hp)
  · exact (((sent _).trans (within_setHb hh)).trans (within_setF hg)).trans (within_linkSpace hh he)

theorem within_forceCell {code : Nat} (hl : k.lanes = true) (hh : k.hbs = true) (hp : k.prt = true)
    (hg : W (GDP_HB_STAT.a (2 * n)) = true) (hg' : W (GDP_HB_STAT.a (2 * n + 1)) = true)
    (he : W (LNK_LANE_EVENT.a n) = true) : Within k W c (c.forceCell n code) := by
  have h0 : 2 * n / 2 = n := by omega
  have h1 : (2 * n + 1) / 2 = n := by omega
  exact (within_forceCode hl hh hp hg (h0.symm ▸ he)).trans (within_forceCode hl hh hp hg' (h1.symm ▸ he))

theorem within_setLaneState {st : Nat} (hl : k.lanes = true) (ht : k.tlm = true)
    (hs : W (LNK_LANE_STATUS.a n) = true) (hv : W (LNK_VALID_MAP_0.a + 4 * (n / 32)) = true)
    (hf : W (LNK_FAULTY_MAP_0.a + 4 * (n / 32)) = true) (hq : W (LNK_LANE_EQ.a n) = true) :
    Within k W c (c.setLaneState n st) := by
  have shown : Within k W c (((c.setF (LNK_LANE_STATUS.STATE n) st).setFlag (mapBit LNK_VALID_MAP_0.a n) (st == 2)).setFlag
      (mapBit LNK_FAULTY_MAP_0.a n) (st == 4)) :=
    ((within_setF hs).trans (within_setFlag hv)).trans (within_setFlag hf)
  unfold Machine.Core.setLaneState
  dsimp only
  split
  · exact shown
  · exact shown.trans (within_eqAbandon hl ht hq)

/-- R93: the registers of a lane whose training starts. -/
def trainingReg (l a : Nat) : Bool :=
  [LNK_LANE_STATUS.a l, LNK_LANE_EVENT.a l, LNK_LANE_EQ.a l, LNK_VALID_MAP_0.a + 4 * (l / 32),
    LNK_FAULTY_MAP_0.a + 4 * (l / 32), GDP_HB_STAT.a (2 * l), GDP_HB_STAT.a (2 * l + 1)].contains a

/-- What the start of a training works on: the lane with its trial, the legs of its cell, the windows of its string. -/
abbrev trainingTables : Tables := { lanes := true, hbs := true, prt := true, tlm := true }

theorem within_startTraining :
    Within trainingTables (trainingReg n) c (c.startTraining n) := by
  have hs : trainingReg n (LNK_LANE_STATUS.a n) = true := by simp [trainingReg]
  have he : trainingReg n (LNK_LANE_EVENT.a n) = true := by simp [trainingReg]
  refine Within.trans ?_ (within_forceCell rfl rfl rfl (by simp [trainingReg]) (by simp [trainingReg]) he)
  refine Within.trans ?_ (within_setF he)
  refine Within.trans ?_ (within_setF hs)
  refine Within.trans ?_ (within_setF hs)
  refine Within.trans ?_ (within_setF hs)
  refine Within.trans ?_ (within_setF hs)
  exact (within_setLane rfl).trans (within_setLaneState rfl rfl hs (by simp [trainingReg]) (by simp [trainingReg])
    (by simp [trainingReg]))

end Training

/-! ### The frames of the events -/
section Events
variable (l : Fin 128)

/-- What the errors of a lane work on: the lane, and its trial of R388. -/
abbrev errorTables : Tables := { lanes := true, tlm := true }

/-- What a bypass command works on (R96). -/
abbrev bypassTables : Tables := { cells := true, lanes := true }

theorem keeps_messageStart : Keeps (.messageStart l)
    (fun a => [LNK_LANE_STATUS.a l, LNK_LANE_INJ_STATUS.a l].contains a) (fun t c => { t with lanes := c.lanes }) := by
  refine keeps_of_within (k := { lanes := true }) (fun _ => rfl) (fun _ _ => rfl) (fun _ => rfl) fun c _ => ?_
  dsimp only
  split
  · exact .refl
  split
  · exact .refl
  split
  · exact .refl
  · exact (((within_setLane rfl).trans (within_setF (by simp))).trans (within_setF (by simp))).trans
      (within_injSwaps (by simp))

theorem keeps_identRecord (p : BitVec 24) : Keeps (.identRecord l p)
    (fun a => [LNK_LANE_SERIAL_LO.a l, LNK_LANE_SERIAL_HI.a l].contains a) (fun t c => { t with lanes := c.lanes }) := by
  refine keeps_of_within (k := { lanes := true }) (fun _ => rfl) (fun _ _ => rfl) (fun _ => rfl) fun c _ => ?_
  dsimp only
  split
  · exact .refl
  split
  · exact ((within_setLane rfl).trans (within_setReg (by simp))).trans (within_setReg (by simp))
  · exact within_setLane rfl

theorem keeps_errorBucketRoll : Keeps (.errorBucketRoll l)
    (fun a => [LNK_LANE_ERR_WINDOW.a l].contains a) (fun t c => { t with lanes := c.lanes }) := by
  refine keeps_of_within (k := { lanes := true }) (fun _ => rfl) (fun _ _ => rfl) (fun _ => rfl) fun c _ => ?_
  dsimp only
  split
  · exact ((within_setLane rfl).trans (within_setF (by simp))).trans (within_setF (by simp))
  · exact .refl

theorem keeps_messageAttemptFailed : Keeps (.messageAttemptFailed l)
    (fun a => [LNK_LANE_STATUS.a l, LNK_LANE_ERR_WINDOW.a l, LNK_LANE_EVENT.a l, LNK_LANE_EQ.a l].contains a)
    (fun t c => { t with lanes := c.lanes, tlm := c.tlm }) := by
  refine keeps_of_within (k := errorTables) (fun _ => rfl) (fun _ _ => rfl) (fun _ => rfl) fun c _ => ?_
  dsimp only
  split
  · exact within_attemptFailed rfl rfl (by simp) (by simp) (by simp) (by simp)
  · exact .refl

theorem keeps_unknownRecord (type : BitVec 8) : Keeps (.unknownRecord l type)
    (fun a => [LNK_LANE_ERR_WINDOW.a l, LNK_LANE_EVENT.a l, LNK_LANE_EQ.a l].contains a)
    (fun t c => { t with lanes := c.lanes, tlm := c.tlm }) := by
  refine keeps_of_within (k := errorTables) (fun _ => rfl) (fun _ _ => rfl) (fun _ => rfl) fun c _ => ?_
  split
  · exact (within_laneError rfl rfl (by simp) (by simp)).trans (within_event (by simp))
  · exact .refl

theorem keeps_lnkInjCfgWrite (v : BitVec 32) : Keeps (.lnkInjCfgWrite l v)
    (fun a => [LNK_LANE_INJ_CFG.a l, LNK_LANE_INJ_STATUS.a l, LNK_LANE_EQ.a l].contains a)
    (fun t c => { t with lanes := c.lanes, tlm := c.tlm }) :=
  keeps_of_within (k := errorTables) (fun _ => rfl) (fun _ _ => rfl) (fun _ => rfl) fun _ _ =>
    within_injWrite rfl rfl (by simp) (by simp) (by simp)

theorem keeps_silentRetry : Keeps (.silentRetry l) (trainingReg l)
    (fun t c => { t with lanes := c.lanes, hbs := c.hbs, prt := c.prt, tlm := c.tlm }) := by
  refine keeps_of_within (k := trainingTables) (fun _ => rfl) (fun _ _ => rfl) (fun _ => rfl) fun c _ => ?_
  split
  · exact within_startTraining
  · exact .refl

theorem keeps_lnkRetrain : Keeps (.lnkRetrain l) (trainingReg l)
    (fun t c => { t with lanes := c.lanes, hbs := c.hbs, prt := c.prt, tlm := c.tlm }) := by
  refine keeps_of_within (k := trainingTables) (fun _ => rfl) (fun _ _ => rfl) (fun _ => rfl) fun c _ => ?_
  split
  · exact .refl
  · exact within_startTraining

theorem keeps_eqTrialStart : Keeps (.eqTrialStart l) (fun a => [LNK_LANE_EQ.a l].contains a)
    (fun t c => { t with lanes := c.lanes, tlm := c.tlm }) := by
  refine keeps_of_within (k := errorTables) (fun _ => rfl) (fun _ _ => rfl) (fun _ => rfl) fun c _ => ?_
  dsimp only
  split
  · exact ((within_setTrial rfl).trans (within_setEqCode rfl rfl (by simp))).trans (within_tlm rfl)
  · exact .refl

theorem keeps_bypassCloseTimer : Keeps (.bypassCloseTimer l) (fun _ => false)
    (fun t c => { t with cells := c.cells, lanes := c.lanes }) := by
  refine keeps_of_within (k := bypassTables) (fun _ => rfl) (fun _ _ => rfl) (fun _ => rfl) fun c _ => ?_
  dsimp only
  split
  · exact (within_queueMsg rfl).trans (within_modCell rfl)
  · exact .refl

theorem keeps_bypassOpenTimer : Keeps (.bypassOpenTimer l) (fun _ => false)
    (fun t c => { t with cells := c.cells, lanes := c.lanes }) := by
  refine keeps_of_within (k := bypassTables) (fun _ => rfl) (fun _ _ => rfl) (fun _ => rfl) fun c _ => ?_
  dsimp only
  split
  · exact (within_queueMsg rfl).trans (within_modCell rfl)
  · exact .refl

theorem keeps_exclusionEnd : Keeps (.exclusionEnd l) (fun _ => false) (fun t c => { t with cells := c.cells }) := by
  refine keeps_of_within (k := { cells := true }) (fun _ => rfl) (fun _ _ => rfl) (fun _ => rfl) fun c _ => ?_
  split
  · split
    · exact within_modCell rfl
    · exact .refl
  · exact .refl

theorem keeps_retryMinOffElapsed (h : Fin 256) : Keeps (.retryMinOffElapsed h) (fun _ => false)
    (fun t c => { t with hbs := c.hbs, lanes := c.lanes }) := by
  refine keeps_of_within (k := { hbs := true, lanes := true }) (fun _ => rfl) (fun _ _ => rfl) (fun _ => rfl)
    fun c _ => ?_
  dsimp only
  split
  · split
    · exact (within_queueMsg rfl).trans (within_modHb rfl)
    · exact .refl
  · exact .refl

end Events

/-- Settles O41: each event is made of operations whose tables and registers are those its frame names. -/
theorem linkEventFrames : Obligations.LinkEventFrames := by
  unfold Obligations.LinkEventFrames
  exact ⟨keeps_messageStart, keeps_identRecord, keeps_errorBucketRoll, keeps_messageAttemptFailed, keeps_unknownRecord,
    keeps_lnkInjCfgWrite, keeps_silentRetry, keeps_lnkRetrain, keeps_eqTrialStart, keeps_bypassCloseTimer,
    keeps_bypassOpenTimer, keeps_exclusionEnd, keeps_retryMinOffElapsed⟩

/-! ### The end of a comparator test -/

/-- A COMPARATOR_TEST of mailbox 0. -/
def comparatorCommand : CmdRef := ⟨0, 0x0710, 0, 1, 0, 0, 0, 0⟩

/-- The device in HOLD at the end of the comparator test of cell 0: the command of mailbox 0 is PENDING, the last switch of
its mask has tripped, and the TRIP_CLEAR for it (R150) is outstanding on the VALID lane 0. -/
def testClearing : State :=
  let c := ((Machine.Core.reset.setF (LNK_LANE_STATUS.STATE 0) 2).setF (mbState 0) 3).setBox 0
    { Mbox.reset with cur := some comparatorCommand }
  let d := (c.setCell 0 { Cell.reset with adm := .admitted }).setLane 0 { Lane.reset with msg := some ⟨0x41, 8⟩ }
  ⟨[], [], { d with
    mode := { d.mode with code := .hold }, prt := { d.prt with test := some ⟨comparatorCommand, 0, 8, 1, 3, 3, 0, []⟩ } }⟩

/-- R82, R150: the refusal of that TRIP_CLEAR ends the test, and its reply is written into the buffer of mailbox 0. -/
theorem ackRecord_testClearing_writes_reply :
    ∃ t, exec (.ackRecord 0 0x410001) testClearing = .next t ∧ readByte t.mem (mbBuf 0) = 0x10 :=
  ⟨_, rfl, by decide +kernel⟩

/-- Refutes O45: an ACK that refuses the TRIP_CLEAR of a comparator test ends the test (R150), and the DONE reply of its
command is written into the buffer of its mailbox (R334), where the last clause says that memory is as before. -/
theorem not_laneEventsAreLocal : ¬ Obligations.LaneEventsAreLocal := by
  unfold Obligations.LaneEventsAreLocal
  rintro ⟨-, -, -, -, -, -, -, -, -, -, hack⟩
  obtain ⟨t, ht, hmem, -⟩ := hack 0 0x410001 testClearing
  obtain ⟨u, hu, hreply⟩ := ackRecord_testClearing_writes_reply
  obtain rfl : t = u := Host.Outcome.next.inj (ht.symm.trans hu)
  have hsame := hmem (mbBuf 0)
  rw [hreply] at hsame
  exact absurd hsame (by decide +kernel)

end Sys2Proof.Proofs
end

