-- ==== Sys2Proof/Proofs/LaneKept.lean ====
section
/-! What protection, the gate generator, the self-test and an answer leave of a lane and of its status: the fields they spare,
and of every lane all but the messages that wait and what a change in a message's way does to it (R81). -/
namespace Sys2Proof.Proofs
open Sys2Proof.Machine Sys2Proof.Claims Sys2Proof.Laws

/-! ### Fields and lanes -/

/-- A lane without the messages that wait and without what a change in a message's way does to it (R81). -/
def settledLane (x : Lane) : Lane := { x with queue := [], resend := false, abortAt := 0 }

/-- The field reads as before, and every lane is as before but for its waiting messages and an abort. -/
def Undisturbed (f : Field) (c d : Machine.Core) : Prop :=
  d.getF f = c.getF f ∧ ∀ n, settledLane (d.lane n) = settledLane (c.lane n)

/-- A write of the field `g` leaves the field `f` alone. -/
def Apart (f g : Field) : Prop :=
  f.addr = g.addr → (f.lo + f.len ≤ g.lo ∨ g.lo + g.len ≤ f.lo) ∧ g.lo + g.len ≤ 32

theorem apart_of_ne {f g : Field} (h : f.addr ≠ g.addr) : Apart f g := fun e => absurd e h

/-- The fields that protection does not write: those of the link, of LNK_LANE_EVENT all but SPACING, and of PRT_ the kind
of the last trip and the event of a hard trip. -/
structure Spared (f : Field) : Prop where
  place : f.addr < 0x40040000 ∨ f.addr = PRT_LAST_TRIP.a ∨ f = PRT_EVENT.HARD_TRIP
  spacing : ∀ n, f.addr = LNK_LANE_EVENT.a n → f.lo + f.len ≤ 5 ∨ 6 ≤ f.lo

/-- The registers of the gate generator and above, PRT_EVENT and PRT_LAST_TRIP apart. -/
abbrev Elsewhere (x : Nat) : Prop := 0x40040000 ≤ x ∧ x ≠ PRT_EVENT.a ∧ x ≠ PRT_LAST_TRIP.a

/-- The gate status of no leg of the cell is the field's register. -/
def OffLegs (f : Field) (n : Nat) : Prop := ∀ h, h / 2 = n → f.addr ≠ GDP_HB_STAT.a h

section Undisturbed
variable {f g : Field} {c d e : Machine.Core} {n v : Nat}

/-- An array of registers above PRT_LAST_TRIP. -/
theorem elsewhere_add {b k : Nat} (h : 0x40050014 < b) : Elsewhere (b + k) := by
  dsimp only [Elsewhere, PRT_EVENT.a, PRT_LAST_TRIP.a]
  omega

theorem Spared.ne (hf : Spared f) {x : Nat} (hx : Elsewhere x) : f.addr ≠ x := by
  obtain ⟨hlow, hevent, htrip⟩ := hx
  rintro rfl
  rcases hf.place with h | h | rfl
  · omega
  · exact htrip h
  · exact hevent rfl

theorem Spared.apart (hf : Spared f) (hg : Elsewhere g.addr) : Apart f g := apart_of_ne (hf.ne hg)

theorem Spared.apart_spacing (hf : Spared f) : Apart f (LNK_LANE_EVENT.SPACING n) :=
  fun e => ⟨hf.spacing n e, by simp⟩

/-- The events of protection but that of a hard trip. -/
theorem Spared.apart_prtEvent (hf : Spared f) (ha : g.addr = PRT_EVENT.a) (hlo : 2 ≤ g.lo) (hw : g.lo + g.len ≤ 32) :
    Apart f g := by
  intro e
  refine ⟨?_, hw⟩
  rcases hf.place with h | h | rfl
  · rw [e, ha] at h
    exact absurd h (by decide)
  · rw [e, ha] at h
    exact absurd h (by decide)
  · exact .inl hlo

theorem Spared.tlm (hf : Spared f) : tlmReg f.addr = false := by
  have ne {x : Nat} (hx : Elsewhere x) := hf.ne hx
  simp only [tlmReg, List.contains_cons, List.contains_nil, Bool.or_false, Bool.or_eq_false_iff, beq_eq_false_iff_ne]
  exact ⟨ne (by decide), ne (by decide), ne (by decide), ne (by decide)⟩

/-- Any field of the status of a lane is spared. -/
theorem spared_laneStatus (hn : n < 128) (hf : f.addr = LNK_LANE_STATUS.a n) : Spared f := by
  refine ⟨.inl (hf ▸ ?_), fun m e => ?_⟩
  · show 0x40020004 + 0x80 * n < 0x40040000
    omega
  · have hne : 0x40020004 + 0x80 * n = 0x40020008 + 0x80 * m := hf.symm.trans e
    omega

theorem spared_laneEvent (hn : n < 128) (hf : f.addr = LNK_LANE_EVENT.a n)
    (hlo : f.lo + f.len ≤ 5 ∨ 6 ≤ f.lo) : Spared f := by
  refine ⟨.inl (hf ▸ ?_), fun _ _ => hlo⟩
  show 0x40020008 + 0x80 * n < 0x40040000
  omega

theorem spared_lastKind : Spared PRT_LAST_TRIP.KIND := by
  refine ⟨.inr (.inl rfl), fun m e => ?_⟩
  have hne : 0x40050014 = 0x40020008 + 0x80 * m := e
  omega

theorem spared_hardTrip : Spared PRT_EVENT.HARD_TRIP := by
  refine ⟨.inr (.inr rfl), fun m e => ?_⟩
  have hne : 0x40050010 = 0x40020008 + 0x80 * m := e
  omega

/-- No leg, whatever its number, has its gate status among the registers of a lane. -/
theorem laneStatus_ne_hbStat (h : Nat) : LNK_LANE_STATUS.a n ≠ GDP_HB_STAT.a h := by
  show 0x40020004 + 0x80 * n ≠ 0x4004100C + 0x10 * h
  omega

theorem laneEvent_ne_hbStat (h : Nat) : LNK_LANE_EVENT.a n ≠ GDP_HB_STAT.a h := by
  show 0x40020008 + 0x80 * n ≠ 0x4004100C + 0x10 * h
  omega

/-- The gate status of the device's own legs lies below the registers of protection. -/
theorem offLegs_of_high (hf : 0x40050000 ≤ f.addr) (hn : n < 128) : OffLegs f n := by
  intro h hh
  show f.addr ≠ 0x4004100C + 0x10 * h
  omega

theorem Undisturbed.refl : Undisturbed f c c := ⟨rfl, fun _ => rfl⟩

theorem Undisturbed.lane {α : Type} {g : Lane → α} (h : Undisturbed f c d) (hg : ∀ x, g (settledLane x) = g x) :
    g (d.lane n) = g (c.lane n) := by
  rw [← hg, h.2 n, hg]

theorem Undisturbed.trans (h : Undisturbed f c d) (k : Undisturbed f d e) : Undisturbed f c e :=
  ⟨k.1.trans h.1, fun n => (k.2 n).trans (h.2 n)⟩

theorem undisturbed_of_reg (hr : d.reg f.addr = c.reg f.addr) (hl : d.lanes = c.lanes) : Undisturbed f c d :=
  ⟨getF_of_reg hr, fun n => congrArg (fun l => settledLane (mapGet (fun _ => Lane.reset) l n)) hl⟩

/-- An update of a table other than the lanes. -/
theorem undisturbed_same (hr : d.regs = c.regs) (hl : d.lanes = c.lanes) : Undisturbed f c d :=
  undisturbed_of_reg (congrArg (fun r => mapGet regReset r f.addr) hr) hl

theorem undisturbed_setReg {a : Nat} {w : Word} (h : f.addr ≠ a) : Undisturbed f c (c.setReg a w) :=
  undisturbed_of_reg (reg_setReg_other h) rfl

theorem undisturbed_setF (h : Apart f g) : Undisturbed f c (c.setF g v) := by
  refine ⟨?_, fun _ => rfl⟩
  by_cases ha : f.addr = g.addr
  · exact getF_setF_apart (h ha).2 ha (h ha).1
  · exact getF_setF_other ha

theorem undisturbed_event (h : Apart f g) : Undisturbed f c (c.event g) :=
  (undisturbed_setF (v := 1) h).trans (undisturbed_same rfl rfl)

theorem undisturbed_bump (h : Apart f g) : Undisturbed f c (c.bump g v) := undisturbed_setF h

theorem undisturbed_setFlag {b : Bool} (h : Apart f g) : Undisturbed f c (c.setFlag g b) := undisturbed_setF h

theorem undisturbed_setHb {x : Hb} : Undisturbed f c (c.setHb n x) := undisturbed_same rfl rfl

theorem undisturbed_modHb {x : Hb → Hb} : Undisturbed f c (c.modHb n x) := undisturbed_same rfl rfl

theorem undisturbed_modCell {x : Cell → Cell} : Undisturbed f c (c.modCell n x) := undisturbed_same rfl rfl

theorem undisturbed_setXb {x : XBlank} : Undisturbed f c (c.setXb n x) := undisturbed_same rfl rfl

theorem undisturbed_setLane {x : Lane} (h : settledLane x = settledLane (c.lane n)) :
    Undisturbed f c (c.setLane n x) := by
  refine ⟨rfl, fun m => ?_⟩
  rw [lane_setLane]
  split
  · rename_i hm
    rw [hm, h]
  · rfl

theorem undisturbed_ite {p : Prop} [Decidable p] (hd : Undisturbed f c d) (he : Undisturbed f c e) :
    Undisturbed f c (if p then d else e) := by
  split
  · exact hd
  · exact he

theorem undisturbed_foldl {α : Type} {step : Machine.Core → α → Machine.Core} (l : List α)
    (h : ∀ c x, Undisturbed f c (step c x)) : Undisturbed f c (l.foldl step c) := by
  induction l generalizing c with
  | nil => exact .refl
  | cons x t ih => exact (h c x).trans ih

end Undisturbed

/-! ### Alarms, requests and answers -/
section Alarms
variable {f : Field} {c d : Machine.Core} {nm : AlarmName} {n inst : Nat} {data : List Nat} {present : Bool}

theorem undisturbed_onlyTlm (hf : Spared f) (h : OnlyTlm c d) : Undisturbed f c d :=
  undisturbed_of_reg (h.2 _ hf.tlm) (congrArg Machine.Core.lanes h.1 :)

theorem undisturbed_raise (hf : Spared f) : Undisturbed f c (c.raise nm inst data present) :=
  undisturbed_of_reg (onlyAlarm_raise.2 _ hf.tlm (hf.ne (by decide)))
    (congrArg Machine.Core.lanes onlyAlarm_raise.1 :)

theorem undisturbed_clearCause (hf : Spared f) : Undisturbed f c (c.clearCause nm inst) :=
  undisturbed_onlyTlm hf onlyTlm_clearCause

theorem undisturbed_refreshCause (hf : Spared f) : Undisturbed f c c.refreshCause := by
  have cause {g : Field} {b : Bool} {d : Machine.Core} (hg : g.addr = SAF_CAUSE.a) : Undisturbed f d (d.setFlag g b) :=
    undisturbed_setFlag (hf.apart (hg ▸ by decide))
  exact ((((((cause rfl).trans (cause rfl)).trans (cause rfl)).trans (cause rfl)).trans (cause rfl)).trans
    (cause rfl)).trans (cause rfl)

theorem undisturbed_request (hf : Spared f) : Undisturbed f c (c.request nm) := by
  have asked : Undisturbed f c (if nm.path = some .mod then (c.event SAF_CAUSE.REQ_MOD).event PRT_EVENT.SAFE_REQ
      else if nm.path = some .fw then c.event SAF_CAUSE.REQ_FW else c) := by
    split
    · exact (undisturbed_event (hf.apart (by decide))).trans
        (undisturbed_event (hf.apart_prtEvent rfl (by decide) (by decide)))
    · split
      · exact undisturbed_event (hf.apart (by decide))
      · exact .refl
  unfold Machine.Core.request
  dsimp only
  split
  · exact asked
  · exact asked.trans (undisturbed_same rfl rfl)

theorem undisturbed_raiseA (hf : Spared f) : Undisturbed f c (c.raiseA nm inst data) :=
  ((undisturbed_raise hf).trans (undisturbed_request hf)).trans (undisturbed_refreshCause hf)

theorem undisturbed_endCause (hf : Spared f) : Undisturbed f c (c.endCause nm inst) :=
  (undisturbed_clearCause hf).trans (undisturbed_refreshCause hf)

theorem reg_reply_other {ref : CmdRef} {status a : Nat} {payload : List Byte} (hs : a ≠ MBX_STATE.a)
    (hr : a ≠ MBX_REPLY_READY.a) (hc : a ≠ MBX_MB_CFG.a ref.mb) : (c.reply ref status payload).reg a = c.reg a := by
  unfold Machine.Core.reply
  dsimp only
  split
  · rw [reg_setBox, reg_setF_other hs, reg_setBox, emit_reg hr]
  · rw [freeBox_reg hs hc, reg_setBox, emit_reg hr]

theorem undisturbed_reply {ref : CmdRef} {status : Nat} {payload : List Byte} (hf : Spared f) :
    Undisturbed f c (c.reply ref status payload) :=
  undisturbed_of_reg (reg_reply_other (hf.ne (by decide)) (hf.ne (by decide)) (hf.ne (elsewhere_add (by decide))))
    (congrArg Machine.Core.lanes onlyMbx_reply :)

end Alarms

/-! ### Changes of a leg -/
section Gate
variable {f : Field} {c : Machine.Core} {n h : Nat}

theorem undisturbed_preempt {b : Nat} : Undisturbed f c (c.preempt n b).1 := by
  unfold Machine.Core.preempt
  dsimp only
  split
  · split
    · exact undisturbed_setLane rfl
    · split
      · exact undisturbed_setLane rfl
      · exact .refl
  · exact .refl

theorem undisturbed_linkSpace (hf : Spared f) : Undisturbed f c (c.linkSpace n) := by
  unfold Machine.Core.linkSpace
  dsimp only
  split
  · exact .refl
  · exact (undisturbed_modHb.trans undisturbed_modHb).trans
      (undisturbed_event hf.apart_spacing)

theorem undisturbed_openWin {s lo hi : Nat} : Undisturbed f c (c.openWin s lo hi) := by
  unfold Machine.Core.openWin
  split
  · exact undisturbed_setXb
  · exact .refl

theorem undisturbed_forceCode {code at0 : Nat} (hf : Spared f) (hleg : f.addr ≠ GDP_HB_STAT.a h) :
    Undisturbed f c (c.forceCode h code at0) := by
  have sent (x : Nat) : Undisturbed f c (if x = code then c else (c.preempt (h / 2) (launchOf at0)).1) :=
    undisturbed_ite .refl undisturbed_preempt
  have forced (d : Machine.Core) (b : Hb) :
      Undisturbed f d (((d.setHb h b).setF (GDP_HB_STAT.CODE h) code).linkSpace (h / 2)) :=
    (undisturbed_setHb.trans (undisturbed_setF (apart_of_ne hleg))).trans (undisturbed_linkSpace hf)
  unfold Machine.Core.forceCode
  dsimp only
  split
  · exact ((sent _).trans (forced _ _)).trans undisturbed_openWin
  · exact (sent _).trans (forced _ _)

theorem undisturbed_forceCell {code : Nat} (hf : Spared f) (hlegs : OffLegs f n) :
    Undisturbed f c (c.forceCell n code) :=
  (undisturbed_forceCode hf (hlegs _ (by omega))).trans (undisturbed_forceCode hf (hlegs _ (by omega)))

theorem undisturbed_gateReject {req kind : Nat} (hf : Spared f) (hleg : f.addr ≠ GDP_HB_STAT.a h) :
    Undisturbed f c (c.gateReject h req kind) := by
  unfold Machine.Core.gateReject
  refine .trans ?_ (undisturbed_raise hf)
  refine .trans ?_ (undisturbed_bump (apart_of_ne hleg))
  refine .trans ?_ (undisturbed_bump (hf.apart (by decide)))
  refine .trans ?_ (undisturbed_setF (hf.apart (by decide)))
  refine .trans ?_ (undisturbed_setF (hf.apart (by decide)))
  exact (undisturbed_event (hf.apart (by decide))).trans (undisturbed_setF (hf.apart (by decide)))

theorem undisturbed_gateDeferred (hf : Spared f) (hleg : f.addr ≠ GDP_HB_STAT.a h) :
    Undisturbed f c (c.gateDeferred h) :=
  (undisturbed_bump (apart_of_ne hleg)).trans (undisturbed_event (hf.apart (by decide)))

theorem undisturbed_placeTrans {req te first : Nat} (hf : Spared f) (hleg : f.addr ≠ GDP_HB_STAT.a h) :
    Undisturbed f c (c.placeTrans h req te first) := by
  have deferred (p : Prop) [Decidable p] (b : Hb) : Undisturbed f c ((if p then c.gateDeferred h else c).setHb h b) :=
    (undisturbed_ite (undisturbed_gateDeferred hf hleg) .refl).trans undisturbed_setHb
  have coded (d : Machine.Core) (v : Nat) : Undisturbed f d (d.setF (GDP_HB_STAT.CODE h) v) :=
    undisturbed_setF (apart_of_ne hleg)
  unfold Machine.Core.placeTrans
  split
  · exact undisturbed_gateReject hf hleg
  dsimp only
  refine undisturbed_ite (undisturbed_ite (deferred _ _) ((deferred _ _).trans (coded _ _))) (undisturbed_ite ?_ ?_)
  · exact (deferred _ _).trans (undisturbed_gateReject hf hleg)
  · exact ((deferred _ _).trans (undisturbed_gateReject hf hleg)).trans (coded _ _)

theorem undisturbed_addCarry {d : Int} (hf : Spared f) : Undisturbed f c (c.addCarry n d) := by
  unfold Machine.Core.addCarry
  split
  · exact .refl
  dsimp only
  refine .trans ?_ (undisturbed_setF (hf.apart (elsewhere_add (by decide))))
  split
  · exact .refl
  · exact undisturbed_event (hf.apart (by decide))

/-- The other leg of a leg's cell. -/
theorem otherLeg_half (h : Nat) : (if h % 2 = 0 then h + 1 else h - 1) / 2 = h / 2 := by
  split <;> omega

theorem undisturbed_placeBoth {req te : Nat} (hf : Spared f) (hlegs : OffLegs f (h / 2)) :
    Undisturbed f c (c.placeBoth h req te) := by
  have here := hlegs h rfl
  have there := hlegs _ (otherLeg_half h)
  unfold Machine.Core.placeBoth
  dsimp only
  split
  · split
    · exact undisturbed_placeTrans hf here
    · split
      · split
        · exact ((undisturbed_placeTrans hf here).trans (undisturbed_gateDeferred hf here)).trans
            (undisturbed_addCarry hf)
        · exact (((undisturbed_placeTrans hf here).trans (undisturbed_placeTrans hf there)).trans
            (undisturbed_gateDeferred hf there)).trans (undisturbed_addCarry hf)
      · exact undisturbed_placeTrans hf here
  · exact undisturbed_placeTrans hf here

theorem undisturbed_lateChange : Undisturbed f c (c.lateChange n) := by
  unfold Machine.Core.lateChange
  dsimp only
  split
  · exact .refl
  split
  · exact .refl
  split
  · exact undisturbed_setLane rfl
  · exact (undisturbed_preempt.trans undisturbed_modHb).trans undisturbed_modHb

theorem undisturbed_placeShared {req te : Nat} (hf : Spared f) (hlegs : OffLegs f (h / 2)) :
    Undisturbed f c (c.placeShared h req te) :=
  ((undisturbed_placeBoth hf hlegs).trans undisturbed_lateChange).trans (undisturbed_linkSpace hf)

theorem undisturbed_hbNormal (hf : Spared f) : Undisturbed f c (c.hbNormal h) :=
  undisturbed_setF (hf.apart (elsewhere_add (by decide)))

theorem undisturbed_gateRequest {req te0 : Nat} (hf : Spared f) (hlegs : OffLegs f (h / 2)) :
    Undisturbed f c (c.gateRequest h req te0) := by
  have released (p : Prop) [Decidable p] (b : Hb) : Undisturbed f c (if p then (c.setHb h b).hbNormal h else c) :=
    undisturbed_ite (undisturbed_setHb.trans (undisturbed_hbNormal hf)) .refl
  unfold Machine.Core.gateRequest
  dsimp only
  split
  · exact .refl
  split
  · exact .refl
  split
  · exact undisturbed_gateReject hf (hlegs h rfl)
  split
  · split
    · exact released _ _
    · exact (released _ _).trans (undisturbed_placeShared hf hlegs)
  · exact (released _ _).trans (undisturbed_placeShared hf hlegs)

end Gate

/-! ### Retirement and trips -/
section Trips
variable {f : Field} {c : Machine.Core} {n h t : Nat}

theorem forceCode_cells {code at0 : Nat} : (c.forceCode h code at0).cells = c.cells :=
  (within_forceCode (k := trainingTables) (W := fun _ => true) rfl rfl rfl rfl rfl).cells rfl

theorem undisturbed_queueMsg {l op arg : Nat} : Undisturbed f c (c.queueMsg l op arg) := by
  unfold Machine.Core.queueMsg
  exact undisturbed_ite .refl (undisturbed_setLane rfl)

/-- R131, point 3: the leg held in 111 is one of the cell's. -/
theorem undisturbed_resumeHold (hf : Spared f) (hlegs : OffLegs f n) (hk : (c.cell n).legHold ≤ 2) :
    Undisturbed f c (c.resumeHold n) := by
  unfold Machine.Core.resumeHold
  dsimp only
  split
  · exact .refl
  · rename_i hrun
    have hleg : (2 * n + ((c.cell n).legHold - 1)) / 2 = n := by omega
    exact ((undisturbed_placeShared hf (hleg.symm ▸ hlegs)).trans
      (undisturbed_foldl _ fun _ _ => undisturbed_openWin)).trans undisturbed_modHb

theorem undisturbed_holdLeg {soft : Bool} (hf : Spared f) (hleg : f.addr ≠ GDP_HB_STAT.a h) :
    Undisturbed f c (c.holdLeg h soft) := by
  unfold Machine.Core.holdLeg
  exact undisturbed_ite .refl (((undisturbed_forceCode hf hleg).trans undisturbed_modHb).trans
    (undisturbed_setF (hf.apart (elsewhere_add (by decide)))))

theorem holdLeg_cells {soft : Bool} : (c.holdLeg h soft).cells = c.cells := by
  unfold Machine.Core.holdLeg
  split
  · rfl
  · exact forceCode_cells

theorem holdLeg_cell {soft : Bool} : (c.holdLeg h soft).cell n = c.cell n :=
  congrArg (fun l => mapGet (fun _ => Cell.reset) l n) holdLeg_cells

theorem undisturbed_startBypass : Undisturbed f c (c.startBypass n) := by
  unfold Machine.Core.startBypass
  exact undisturbed_ite undisturbed_modCell .refl

theorem undisturbed_charEntry {type index reason serial : Nat} {trips : List Nat} (hf : Spared f) :
    Undisturbed f c (c.charEntry type index reason serial trips) := by
  unfold Machine.Core.charEntry
  refine .trans ?_ (undisturbed_same rfl rfl)
  exact undisturbed_ite (undisturbed_same rfl rfl)
    ((undisturbed_event (hf.apart (by decide))).trans (undisturbed_raise hf))

theorem undisturbed_retireRecord : Undisturbed f c (c.retireRecord n) := by
  unfold Machine.Core.retireRecord
  exact undisturbed_ite (undisturbed_same rfl rfl) .refl

theorem undisturbed_exclude : Undisturbed f c (c.exclude n) := undisturbed_modCell

/-- The retirement of a cell for a trip of one of its legs (R131, R133). -/
theorem undisturbed_retire {reason : Nat} {both : Bool} (hf : Spared f) (hlegs : OffLegs f (h / 2)) :
    Undisturbed f c (c.retire h reason both) := by
  have here := hlegs h rfl
  have there := hlegs _ (otherLeg_half h)
  have state {d : Machine.Core} {k v : Nat} : Undisturbed f d (d.setF (PRT_HB_STAT.STATE k) v) :=
    undisturbed_setF (hf.apart (elsewhere_add (by decide)))
  unfold Machine.Core.retire
  dsimp only
  refine undisturbed_ite .refl ?_
  refine .trans ?_ undisturbed_retireRecord
  refine .trans ?_ (undisturbed_ite (undisturbed_charEntry hf) (undisturbed_charEntry hf))
  refine .trans ?_ undisturbed_startBypass
  refine .trans ?_ (undisturbed_ite state .refl)
  refine .trans ?_ (undisturbed_ite (.trans (undisturbed_resumeHold hf hlegs ?_) undisturbed_modHb)
    (undisturbed_holdLeg hf there))
  · exact (((undisturbed_event (hf.apart_prtEvent rfl (by decide) (by decide))).trans (undisturbed_raise hf)).trans
      undisturbed_modCell).trans ((undisturbed_holdLeg hf here).trans state)
  · rw [cell_setF, holdLeg_cell, cell_modCell, if_pos rfl]
    dsimp only
    split_ifs <;> decide

/-- R127, R130: once the half-bridge, the switches and the kind of the last trip stand, the rest of its record spares all
but the count. -/
theorem undisturbed_recordTrip_of_kind {mask kind : Nat} (hf : Spared f) (hcount : Apart f PRT_LAST_TRIP.COUNT) :
    Undisturbed f (((c.setF PRT_LAST_TRIP.HB h).setF PRT_LAST_TRIP.MASK mask).setF PRT_LAST_TRIP.KIND kind)
      (c.recordTrip h mask kind t) := by
  have leg {d : Machine.Core} {g : Field} {v : Nat} (hg : g.addr = PRT_HB_STAT.a h) : Undisturbed f d (d.setF g v) :=
    undisturbed_setF (hf.apart (hg ▸ elsewhere_add (by decide)))
  unfold Machine.Core.recordTrip
  dsimp only
  refine .trans ?_ undisturbed_setHb
  refine .trans ?_ (undisturbed_ite (undisturbed_bump (hf.apart (elsewhere_add (by decide)))) .refl)
  refine .trans ?_ (undisturbed_setReg (hf.ne (elsewhere_add (by decide))))
  refine .trans ?_ ((leg rfl).trans ((leg rfl).trans (leg rfl)))
  exact (undisturbed_bump hcount).trans (undisturbed_setReg (hf.ne (by decide)))

theorem undisturbed_recordTrip {mask kind : Nat} (hf : Spared f) (hlast : f.addr ≠ PRT_LAST_TRIP.a) :
    Undisturbed f c (c.recordTrip h mask kind t) := by
  have last {d : Machine.Core} {g : Field} {v : Nat} (hg : g.addr = PRT_LAST_TRIP.a) : Undisturbed f d (d.setF g v) :=
    undisturbed_setF (apart_of_ne (hg ▸ hlast))
  exact (((last rfl).trans (last rfl)).trans (last rfl)).trans (undisturbed_recordTrip_of_kind hf (apart_of_ne hlast))

/-- R130: the kind of the last trip. -/
theorem recordTrip_kind {mask kind : Nat} : (c.recordTrip h mask kind t).getF PRT_LAST_TRIP.KIND = kind % 2 :=
  (undisturbed_recordTrip_of_kind spared_lastKind fun _ => by decide).1.trans (getF_setF_same (by decide))

theorem undisturbed_tripLeg_of_record {mask kind : Nat} (hf : Spared f) (hleg : f.addr ≠ GDP_HB_STAT.a h) :
    Undisturbed f (c.recordTrip h mask kind t) (c.tripLeg h mask kind t) :=
  (undisturbed_holdLeg hf hleg).trans undisturbed_exclude

/-- R134: the string of a trip. -/
theorem undisturbed_escalate (hf : Spared f) : Undisturbed f c (c.escalate h t) := by
  have recent {d : Machine.Core} {x : XBlank} {s v : Nat} :
      Undisturbed f d ((d.setXb s x).setF (PRT_STR_STAT.RECENT s) v) :=
    undisturbed_setXb.trans (undisturbed_setF (hf.apart (elsewhere_add (by decide))))
  have fault {d : Machine.Core} {s : Nat} :
      Undisturbed f d ((d.event (PRT_STR_STAT.FAULT s)).event PRT_EVENT.STRING_FAULT) :=
    (undisturbed_event (hf.apart (elsewhere_add (by decide)))).trans
      (undisturbed_event (hf.apart_prtEvent rfl (by decide) (by decide)))
  unfold Machine.Core.escalate
  exact undisturbed_ite .refl (undisturbed_ite ((recent.trans fault).trans (undisturbed_raiseA hf)) recent)

/-- After its record a trip spares the registers of the last trip, too. -/
theorem undisturbed_trip_of_record {mask kind : Nat} (hf : Spared f) (hlegs : OffLegs f (h / 2)) :
    Undisturbed f (c.recordTrip h mask kind t) (c.trip h mask kind t) := by
  have retired {d : Machine.Core} {reason : Nat} {both : Bool} : Undisturbed f d (d.retire h reason both) :=
    undisturbed_retire hf hlegs
  unfold Machine.Core.trip
  dsimp only
  refine .trans ?_ (undisturbed_escalate hf)
  exact (undisturbed_tripLeg_of_record hf (hlegs h rfl)).trans
    (undisturbed_ite retired (undisturbed_ite retired (undisturbed_ite retired .refl)))

theorem undisturbed_tripBoth_of_record {mask : Nat} (hf : Spared f) (hlegs : OffLegs f n) :
    Undisturbed f ((c.tripLeg (2 * n) mask 1 t).recordTrip (2 * n + 1) mask 1 t) (c.tripBoth n mask t) := by
  have hn : 2 * n / 2 = n := by omega
  unfold Machine.Core.tripBoth
  exact (((undisturbed_tripLeg_of_record hf (hlegs _ (by omega))).trans (undisturbed_retire hf (hn.symm ▸ hlegs))).trans
    (undisturbed_escalate hf)).trans (undisturbed_escalate hf)

/-- R129: a refused TRIP_CLEAR. -/
theorem undisturbed_clearRefused (hf : Spared f) (hlast : f.addr ≠ PRT_LAST_TRIP.a) (hlegs : OffLegs f (h / 2)) :
    Undisturbed f c (c.clearRefused h) := by
  have retired {d : Machine.Core} {reason : Nat} : Undisturbed f d (d.retire h reason false) :=
    undisturbed_retire hf hlegs
  unfold Machine.Core.clearRefused
  exact ((undisturbed_recordTrip hf hlast).trans undisturbed_modHb).trans
    (undisturbed_ite retired (undisturbed_ite retired .refl))

end Trips

/-! ### The comparator self-test -/
section Selftest
variable {f : Field} {c : Machine.Core} {x : SelfTest} {n r : Nat}

theorem elsewhere_testField {i : Nat} {hard : Bool} : Elsewhere (testField n i hard).addr := by
  unfold testField
  dsimp only
  split_ifs <;> exact elsewhere_add (by decide)

theorem undisturbed_untested {mask kind : Nat} (hf : Spared f) : Undisturbed f c (c.untested n mask kind) := by
  have state {d : Machine.Core} (p q : Prop) [Decidable p] [Decidable q] {h v : Nat} :
      Undisturbed f d (if p then d.setF (PRT_HB_STAT.STATE h) v else if q then d else d.hbNormal h) :=
    undisturbed_ite (undisturbed_setF (hf.apart (elsewhere_add (by decide))))
      (undisturbed_ite .refl (undisturbed_hbNormal hf))
  have failed {d : Machine.Core} {i : Nat} {l : List Nat} :
      Undisturbed f d ((d.event PRT_EVENT.SELFTEST_FAIL).raise .comparatorSelftestFail i l true) :=
    (undisturbed_event (hf.apart_prtEvent rfl (by decide) (by decide))).trans (undisturbed_raise hf)
  unfold Machine.Core.untested
  refine undisturbed_foldl _ fun a leg => ?_
  dsimp only
  refine undisturbed_ite (.trans ?_ failed) (undisturbed_ite (.trans ?_ (undisturbed_clearCause hf)) ?_) <;>
    exact undisturbed_modCell.trans (state _ _)

theorem undisturbed_test {t : Option SelfTest} : Undisturbed f c { c with prt := { c.prt with test := t } } :=
  undisturbed_same rfl rfl

theorem undisturbed_testFrom {sw : Nat} (hf : Spared f) : Undisturbed f c (c.testFrom x sw) := by
  unfold Machine.Core.testFrom
  split
  · exact undisturbed_test.trans undisturbed_queueMsg
  · exact (undisturbed_test.trans (undisturbed_untested hf)).trans (undisturbed_reply hf)

/-- The hard result of a switch, the leg of the switch being one that the test's own numbers give. -/
theorem undisturbed_hardDone (hf : Spared f) (hlegs : OffLegs f ((2 * x.cell + x.sw / 2) / 2)) :
    Undisturbed f c (c.hardDone x r) := by
  unfold Machine.Core.hardDone
  dsimp only
  refine .trans ?_ (undisturbed_testFrom hf)
  have result : Undisturbed f c (c.setF (testField x.cell x.sw true) r) :=
    undisturbed_setF (hf.apart elsewhere_testField)
  refine undisturbed_ite (.trans ?_ (undisturbed_gateRequest hf hlegs)) ?_ <;>
    exact result.trans (undisturbed_ite .refl (undisturbed_hbNormal hf))

theorem undisturbed_testTripped (hf : Spared f) (hleg : f.addr ≠ GDP_HB_STAT.a (2 * x.cell + x.sw / 2)) :
    Undisturbed f c (c.testTripped x) :=
  ((undisturbed_test.trans (undisturbed_forceCode hf hleg)).trans undisturbed_queueMsg).trans undisturbed_queueMsg

end Selftest

/-! ### The bypass contactor -/
section Bypass
variable {f : Field} {c : Machine.Core} {n : Nat}

theorem undisturbed_bypassAlarm {nm : AlarmName} {data : List Nat} (hf : Spared f) :
    Undisturbed f c (c.bypassAlarm nm n data) := by
  unfold Machine.Core.bypassAlarm
  exact undisturbed_ite .refl (undisturbed_ite (undisturbed_raiseA hf)
    ((undisturbed_raise hf).trans (undisturbed_refreshCause hf)))

theorem undisturbed_unconfirmed (hf : Spared f) (hevent : Apart f (LNK_LANE_EVENT.BYPASS_UNCONFIRMED n)) :
    Undisturbed f c (c.unconfirmed n) := by
  have told : Undisturbed f c ((c.event (LNK_LANE_EVENT.BYPASS_UNCONFIRMED n)).raise .bypassUnconfirmed n [n] true) :=
    (undisturbed_event hevent).trans (undisturbed_raise hf)
  unfold Machine.Core.unconfirmed
  exact (told.trans undisturbed_modCell).trans (undisturbed_ite .refl ((undisturbed_event
    (hf.apart_prtEvent rfl (by decide) (by decide))).trans (undisturbed_bypassAlarm hf)))

/-- R96, R131: the contactor is closed; the leg held in 111 may be any by its number. -/
theorem undisturbed_contactorClosed (hf : Spared f)
    (hleg : ∀ k, f.addr ≠ GDP_HB_STAT.a k) : Undisturbed f c (c.contactorClosed n) := by
  have ended : Undisturbed f c ((((c.modCell n (fun x => { x with bcOn := false, unconf := false, legHold := 0 })).clearCause
      .bypassUnconfirmed n).endCause .bypassFailed n).endCause .cellOvervoltageUnbypassed n) :=
    ((undisturbed_modCell.trans (undisturbed_clearCause hf)).trans (undisturbed_endCause hf)).trans
      (undisturbed_endCause hf)
  unfold Machine.Core.contactorClosed
  exact undisturbed_ite (ended.trans (undisturbed_forceCode hf (hleg _))) ended

end Bypass
end Sys2Proof.Proofs
end

