-- ==== Sys2Proof/Proofs/LaneStates.lean ====
section
/-! What the operations of a lane do to it (R91, R93, R95, R96), and what the lane state events do (R42, R43, R99). -/
namespace Sys2Proof.Proofs
open Sys2Proof.Machine Sys2Proof.Claims Sys2Proof.Laws

/-! ### What errors and trials leave of a lane

`g` is anything that a lane shows and that does not change with its waiting messages, nor, where errors are counted, with its
buckets. -/
section Observed
variable {α : Type} {g : Lane → α} {c : Machine.Core} {l n k a : Nat}

theorem lane_setEqCode (hq : ∀ x q, g { x with queue := q } = g x) {which v : Nat} :
    g ((c.setEqCode l which v).lane n) = g (c.lane n) := by
  unfold Machine.Core.setEqCode
  split
  · rfl
  split
  · rfl
  · rfl
  · rw [lane_modLane]
    split
    · rename_i hn
      rw [hq, hn]
      rfl
    · rfl

theorem lane_eqAbandon (hq : ∀ x q, g { x with queue := q } = g x) : g ((c.eqAbandon l).lane n) = g (c.lane n) := by
  unfold Machine.Core.eqAbandon
  split
  · rfl
  · exact lane_setEqCode hq

theorem lane_eqErrors (hq : ∀ x q, g { x with queue := q } = g x) : g ((c.eqErrors l k).lane n) = g (c.lane n) := by
  unfold Machine.Core.eqErrors
  split
  · rfl
  dsimp only
  split
  · exact lane_eqAbandon hq
  · rfl

theorem lane_laneError (hq : ∀ x q, g { x with queue := q } = g x) (hb : ∀ x b, g { x with buckets := b } = g x) :
    g ((c.laneError l k).lane n) = g (c.lane n) := by
  unfold Machine.Core.laneError
  refine (lane_eqErrors hq).trans ?_
  rw [lane_setF, lane_setLane]
  split
  · rename_i hn
    rw [hb, hn]
  · rfl

theorem lane_setLaneState (hq : ∀ x q, g { x with queue := q } = g x) {st : Nat} :
    g ((c.setLaneState l st).lane n) = g (c.lane n) := by
  unfold Machine.Core.setLaneState
  dsimp only
  split
  · rfl
  · exact lane_eqAbandon hq

theorem reg_eqAbandon (h : a ≠ LNK_LANE_EQ.a l) : (c.eqAbandon l).reg a = c.reg a :=
  (within_eqAbandon (k := errorTables) (W := fun x => x == LNK_LANE_EQ.a l) rfl rfl (by simp) :
    Within _ _ c _).2 a (by simpa using h)

theorem eqAbandon_alarms : (c.eqAbandon l).tlm.alarms = c.tlm.alarms := by
  unfold Machine.Core.eqAbandon
  split
  · rfl
  · unfold Machine.Core.setEqCode
    split
    · rfl
    · split <;> rfl

end Observed

/-! ### The state of a lane, and the start of a training -/
section States
variable {c d : Machine.Core} {l n : Nat}

theorem hasAlarm_of_alarms {nm : AlarmName} {inst : Nat} {data : List Nat} (h : d.tlm.alarms = c.tlm.alarms)
    (ha : HasAlarm c nm inst data) : HasAlarm d nm inst data := by
  rw [HasAlarm, h]
  exact ha

/-- The maps follow the state in their own registers (R100). -/
theorem getF_setF_mapBit {f : Field} (h : f.addr < 0x40030000) {base v : Nat} (hb : 0x40030000 ≤ base) :
    (c.setF (mapBit base l) v).getF f = c.getF f :=
  getF_setF_other (by show f.addr ≠ base + 4 * (l / 32); omega)

theorem laneState_setLaneState {st : Nat} (hl : l < 128) (hst : st < 8) : (c.setLaneState l st).laneState l = st := by
  have hlow : (LNK_LANE_STATUS.STATE l).addr < 0x40030000 := by
    show 0x40020004 + 0x80 * l < 0x40030000
    omega
  have shown : (((c.setF (LNK_LANE_STATUS.STATE l) st).setFlag (mapBit LNK_VALID_MAP_0.a l) (st == 2)).setFlag
      (mapBit LNK_FAULTY_MAP_0.a l) (st == 4)).laneState l = st := by
    refine (getF_setF_mapBit hlow (by decide)).trans ((getF_setF_mapBit hlow (by decide)).trans ?_)
    rw [getF_setF_same (by simp)]
    exact Nat.mod_eq_of_lt hst
  unfold Machine.Core.setLaneState
  dsimp only
  split
  · exact shown
  · refine Eq.trans (getF_of_reg (reg_eqAbandon ?_)) shown
    show 0x40020004 + 0x80 * l ≠ 0x4002002C + 0x80 * l
    omega

theorem setLaneState_alarms {st : Nat} : (c.setLaneState l st).tlm.alarms = c.tlm.alarms := by
  unfold Machine.Core.setLaneState
  dsimp only
  split
  · rfl
  · exact eqAbandon_alarms

theorem within_forceCell_any {code : Nat} :
    Within { lanes := true, hbs := true, prt := true } (fun _ => true) c (c.forceCell n code) :=
  within_forceCell rfl rfl rfl rfl rfl rfl

theorem forceCell_tlm {code : Nat} : (c.forceCell n code).tlm = c.tlm := within_forceCell_any.tlm rfl

theorem forceCell_cells {code : Nat} : (c.forceCell n code).cells = c.cells := within_forceCell_any.cells rfl

/-- The gate status of a leg is no register of a lane. -/
theorem undisturbed_forceCell_status {f : Field} {code : Nat} (hl : l < 128) (hf : f.addr = LNK_LANE_STATUS.a l) :
    Undisturbed f c (c.forceCell n code) :=
  undisturbed_forceCell (spared_laneStatus hl hf) fun h _ => hf ▸ laneStatus_ne_hbStat h

/-- R93: a lane whose training starts is TRAINING. -/
theorem laneState_startTraining (hl : l < 128) : (c.startTraining l).laneState l = 1 := by
  have other {e : Machine.Core} {g : Field} (ha : g.addr = LNK_LANE_STATUS.a l) (hlo : 3 ≤ g.lo)
      (hw : g.lo + g.len ≤ 32) : (e.setF g 0).getF (LNK_LANE_STATUS.STATE l) = e.getF (LNK_LANE_STATUS.STATE l) :=
    getF_setF_apart hw ha.symm (.inl hlo)
  unfold Machine.Core.startTraining
  refine (undisturbed_forceCell_status hl rfl).1.trans ?_
  rw [getF_setF_other (by simp), other rfl (by simp) (by simp), other rfl (by simp) (by simp),
    other rfl (by simp) (by simp), other rfl (by simp) (by simp)]
  exact laneState_setLaneState hl (by decide)

theorem trainAt_startTraining (hl : l < 128) : ((c.startTraining l).lane l).trainAt = c.now := by
  unfold Machine.Core.startTraining
  refine ((undisturbed_forceCell_status (f := LNK_LANE_STATUS.STATE l) hl rfl).lane fun _ => rfl).trans ?_
  simp only [lane_setF]
  rw [lane_setLaneState (g := Lane.trainAt) (fun _ _ => rfl), lane_setLane, if_pos rfl]

theorem startTraining_alarms : (c.startTraining l).tlm.alarms = c.tlm.alarms := by
  unfold Machine.Core.startTraining
  dsimp only
  rw [forceCell_tlm]
  exact setLaneState_alarms

/-- The state of a lane stands in its status, its trial's word and the maps (R91, R100). -/
theorem reg_laneEvent_setLaneState {st : Nat} (hl : l < 128) :
    (c.setLaneState l st).reg (LNK_LANE_EVENT.a l) = c.reg (LNK_LANE_EVENT.a l) := by
  refine (within_setLaneState (k := errorTables) (W := fun a => a != LNK_LANE_EVENT.a l) rfl rfl (by simp) ?_ ?_
    (by simp) : Within _ _ c _).2 _ (by simp)
  · show (LNK_VALID_MAP_0.a + 4 * (l / 32) != 0x40020008 + 0x80 * l) = true
    simp only [bne_iff_ne, LNK_VALID_MAP_0.a]
    omega
  · show (LNK_FAULTY_MAP_0.a + 4 * (l / 32) != 0x40020008 + 0x80 * l) = true
    simp only [bne_iff_ne, LNK_FAULTY_MAP_0.a]
    omega

/-- The start of a training clears TIMING_FAIL and no other of the first event bits of the lane (R91). -/
theorem getF_down_startTraining (hl : l < 128) :
    (c.startTraining l).getF (LNK_LANE_EVENT.DOWN l) = c.getF (LNK_LANE_EVENT.DOWN l) := by
  have hs : Spared (LNK_LANE_EVENT.DOWN l) := spared_laneEvent hl rfl (by simp)
  unfold Machine.Core.startTraining
  refine (undisturbed_forceCell hs fun h _ => laneEvent_ne_hbStat h).1.trans ?_
  rw [getF_setF_apart (g := LNK_LANE_EVENT.DOWN l) (f := LNK_LANE_EVENT.TIMING_FAIL l) (by simp) rfl (by simp),
    getF_setF_other (by simp), getF_setF_other (by simp), getF_setF_other (by simp), getF_setF_other (by simp)]
  exact getF_of_reg (reg_laneEvent_setLaneState hl)

end States

/-! ### The outcome of a cell -/
section Outcomes
variable {f : Field} {c : Machine.Core} {n h : Nat}

theorem undisturbed_forceShortLeg (hf : Spared f) (hleg : f.addr ≠ GDP_HB_STAT.a h) :
    Undisturbed f c (c.forceShortLeg h) := by
  have forced {code at0 : Nat} : Undisturbed f c (c.forceCode h code at0) := undisturbed_forceCode hf hleg
  unfold Machine.Core.forceShortLeg
  dsimp only
  split
  · exact .refl
  split
  · exact forced.trans undisturbed_modHb
  · exact forced
  · split
    · exact forced
    · split
      · exact forced
      · exact forced.trans undisturbed_modHb

theorem forceShortLeg_cells : (c.forceShortLeg h).cells = c.cells := by
  unfold Machine.Core.forceShortLeg
  dsimp only
  split
  · rfl
  split
  · exact forceCode_cells
  · exact forceCode_cells
  · split
    · exact forceCode_cells
    · split <;> exact forceCode_cells

theorem undisturbed_lgr {x : Lgr} : Undisturbed f c { c with lgr := x } := undisturbed_same rfl rfl

theorem undisturbed_archiveRec {r : LedRec} (hf : Spared f) : Undisturbed f c (c.archiveRec r) := by
  unfold Machine.Core.archiveRec
  dsimp only
  split
  · exact undisturbed_lgr
  split
  · exact undisturbed_lgr
  · exact (undisturbed_lgr.trans (undisturbed_event (hf.apart (by decide)))).trans (undisturbed_raise hf)

theorem archiveRec_cells {r : LedRec} : (c.archiveRec r).cells = c.cells := by
  unfold Machine.Core.archiveRec
  dsimp only
  split
  · rfl
  split
  · rfl
  · exact (congrArg Machine.Core.cells onlyAlarm_raise.1 :)

theorem undisturbed_openRecord {serial : Nat} (hf : Spared f) : Undisturbed f c (c.openRecord n serial) := by
  unfold Machine.Core.openRecord
  dsimp only
  refine undisturbed_ite .refl (.trans ?_ undisturbed_lgr)
  refine .trans ?_ undisturbed_lgr
  exact undisturbed_ite (undisturbed_lgr.trans (undisturbed_archiveRec hf)) .refl

theorem openRecord_cells {serial : Nat} : (c.openRecord n serial).cells = c.cells := by
  unfold Machine.Core.openRecord
  dsimp only
  split
  · rfl
  · split
    · exact archiveRec_cells
    · rfl

theorem clearCause_cells {nm : AlarmName} {inst : Nat} : (c.clearCause nm inst).cells = c.cells :=
  (congrArg Machine.Core.cells onlyTlm_clearCause.1 :)

theorem cell_of_cells {d : Machine.Core} (h : d.cells = c.cells) : d.cell n = c.cell n :=
  congrArg (fun l => mapGet (fun _ => Cell.reset) l n) h

/-- R42: a serial that the list does not name and that the map gives the cell admits it. -/
theorem adm_identity_of_match (hlist : c.onCharList (c.lane n).serial = false)
    (hmap : (c.lane n).serial = (c.cellEnt n).serial) : ((c.identity n).cell n).adm = .admitted := by
  unfold Machine.Core.identity
  dsimp only
  rw [if_neg (by rw [hlist]; decide), if_pos hmap, cell_of_cells openRecord_cells]
  split
  · rw [cell_of_cells forceCell_cells, cell_modCell, if_pos rfl]
    dsimp only
    rw [cell_of_cells clearCause_cells, cell_modCell, if_pos rfl]
  split
  · rw [cell_of_cells forceCell_cells, cell_of_cells clearCause_cells, cell_modCell, if_pos rfl]
  split
  · rw [cell_of_cells forceShortLeg_cells, cell_of_cells forceShortLeg_cells, cell_of_cells clearCause_cells,
      cell_modCell, if_pos rfl]
  · rw [cell_of_cells clearCause_cells, cell_modCell, if_pos rfl]

/-- R42: the admission of a cell leaves the state of its lane. -/
theorem undisturbed_identity_of_match (hf : Spared f) (hlegs : OffLegs f n)
    (hlist : c.onCharList (c.lane n).serial = false)
    (hmap : (c.lane n).serial = (c.cellEnt n).serial) : Undisturbed f c (c.identity n) := by
  have cleared {d : Machine.Core} {nm : AlarmName} : Undisturbed f d (d.clearCause nm n) := undisturbed_clearCause hf
  have forced {d : Machine.Core} : Undisturbed f d (d.forceCell n 4) := undisturbed_forceCell hf hlegs
  unfold Machine.Core.identity
  dsimp only
  rw [if_neg (by rw [hlist]; decide), if_pos hmap]
  refine .trans ?_ (undisturbed_openRecord hf)
  refine .trans ((((cleared.trans cleared).trans cleared).trans undisturbed_modCell).trans cleared)
    (undisturbed_ite (undisturbed_modCell.trans forced) (undisturbed_ite forced (undisturbed_ite ?_ .refl)))
  exact (undisturbed_forceShortLeg hf (hlegs _ (by omega))).trans (undisturbed_forceShortLeg hf (hlegs _ (by omega)))

/-- R42, R43: a silent cell leaves the state of its lane. -/
theorem undisturbed_silentCell (hf : Spared f) (hlegs : OffLegs f n)
    (hevent : Apart f (LNK_LANE_EVENT.BYPASS_UNCONFIRMED n)) : Undisturbed f c (c.silentCell n) := by
  have silent : Undisturbed f c (((c.modCell n fun x => { x with adm := .silent, wasSilent := true }).forceCell n 4).raise
      .cellSilent n [n] true) :=
    (undisturbed_modCell.trans (undisturbed_forceCell hf hlegs)).trans (undisturbed_raise hf)
  unfold Machine.Core.silentCell
  exact undisturbed_ite (silent.trans (undisturbed_unconfirmed hf hevent)) silent

/-- R133: the record of a cell on the list of characters. -/
theorem charEntry_cells {type index reason serial : Nat} {trips : List Nat} :
    (c.charEntry type index reason serial trips).cells = c.cells := by
  unfold Machine.Core.charEntry
  dsimp only
  split
  · rfl
  · exact (congrArg Machine.Core.cells onlyAlarm_raise.1 :)

theorem hasAlarm_charEntry {nm : AlarmName} {inst : Nat} {data : List Nat} {type index reason serial : Nat}
    {trips : List Nat} (h : HasAlarm c nm inst data) (hne : nm ≠ .charListFull) (hfold : nm ≠ .alarmTableFold) :
    HasAlarm (c.charEntry type index reason serial trips) nm inst data := by
  unfold Machine.Core.charEntry
  dsimp only
  split
  · exact h
  · exact hasAlarm_raise_other (c := c.event LGR_EVENT.CHAR_LIST_FULL) h hne hfold

theorem retireRecord_cells : (c.retireRecord n).cells = c.cells := by
  unfold Machine.Core.retireRecord
  dsimp only
  split <;> rfl

theorem retireRecord_tlm : (c.retireRecord n).tlm = c.tlm := by
  unfold Machine.Core.retireRecord
  dsimp only
  split <;> rfl

theorem startBypass_tlm : (c.startBypass n).tlm = c.tlm := by
  unfold Machine.Core.startBypass
  split <;> rfl

/-- The start of a bypass is no outcome. -/
theorem cell_startBypass {α : Type} {g : Cell → α} {m : Nat}
    (hg : ∀ x t, g { x with bcOn := true, bcFirst := none, bcNext := t, boOn := false } = g x) :
    g ((c.startBypass n).cell m) = g (c.cell m) := by
  unfold Machine.Core.startBypass
  split
  · rw [cell_modCell]
    split
    · rename_i hm
      rw [hg, hm]
    · rfl
  · rfl

end Outcomes

/-! ### The lane state events -/
section Events
variable {s : State} {l : Fin 128}

/-- R93: a lane whose training is complete. -/
def validLane (c : Machine.Core) (n : Nat) : Machine.Core := (c.setLaneState n 2).clearCause .laneDown n

theorem exec_laneTrainingComplete (htraining : s.core.laneState l.val = 1)
    (hruns : 8 ≤ (s.core.lane l.val).commaRun ∧ 7 ≤ (s.core.lane l.val).crcRun ∧ (s.core.lane l.val).rtts.length = 16)
    (hpad : s.core.flag (LNK_LANE_STATUS.PAD_ACKED l.val) = true) (hserial : (s.core.lane l.val).serialKnown = true) :
    exec (.laneTrainingComplete l) s =
      go (fun c _ => (validLane c l.val).identity l.val) s :=
  congrArg Host.Outcome.next (run_congr (if_pos ⟨htraining, hruns.1, hruns.2.1, hruns.2.2, hpad, hserial⟩))

theorem exec_laneTrainingTimeout (htraining : s.core.laneState l.val = 1)
    (hlate : (s.core.lane l.val).trainAt + 5000000 ≤ s.core.now ∨ s.core.flag (LNK_LANE_EVENT.TIMING_FAIL l.val) = true) :
    exec (.laneTrainingTimeout l) s =
      go (fun c _ => ((c.setLaneState l.val 3).modLane l.val fun x => { x with silentAt := c.now }).silentCell l.val) s :=
  congrArg Host.Outcome.next (run_congr (if_pos ⟨htraining, hlate⟩))

theorem exec_silentRetry (hsilent : s.core.laneState l.val = 3)
    (hlate : (s.core.lane l.val).silentAt + 1000000000 ≤ s.core.now) :
    exec (.silentRetry l) s = go (fun c _ => c.startTraining l.val) s :=
  congrArg Host.Outcome.next (run_congr (if_pos ⟨hsilent, hlate⟩))

theorem exec_laneDown (hvalid : s.core.laneState l.val = 2) (hmiss : 4 ≤ (s.core.lane l.val).missRun) :
    exec (.laneDown l) s = go (fun c _ => (((c.laneError l.val 16).event (LNK_LANE_EVENT.DOWN l.val)).raise .laneDown
      l.val [l.val] true).startTraining l.val) s :=
  congrArg Host.Outcome.next (run_congr (if_pos ⟨hvalid, hmiss⟩))

theorem exec_lnkRetrain (hon : s.core.laneState l.val ≠ 0) :
    exec (.lnkRetrain l) s = go (fun c _ => c.startTraining l.val) s :=
  congrArg Host.Outcome.next (run_congr (if_neg hon))

/-- R96: a lane that has become FAULTY, its event and its alarm. -/
def faultyLane (c : Machine.Core) (n : Nat) : Machine.Core :=
  ((c.setLaneState n 4).event (LNK_LANE_EVENT.FAULTY n)).raise .laneFaulty n [n, n, (c.lane n).errors] true

/-- R96: the cell of a FAULTY lane, retired and shorted. -/
def faultyCell (c : Machine.Core) (n : Nat) : Machine.Core :=
  ((((c.endMsg n).modLane n fun y => { y with queue := [] }).modCell n fun y =>
    { y with adm := .retired, gone := true, legHold := 0 }).forceCell n 4).startBypass n

theorem exec_laneFaulty (hon : s.core.laneState l.val = 1 ∨ s.core.laneState l.val = 2)
    (hlimit : 64 < (s.core.lane l.val).errors ∨ (s.core.lane l.val).tries = 4) :
    exec (.laneFaulty l) s = go (fun c _ => ((faultyCell (faultyLane c l.val) l.val).charEntry 1 l.val
      (if 64 < (c.lane l.val).errors then 4 else 5) (c.lane l.val).serial []).retireRecord l.val) s :=
  congrArg Host.Outcome.next (run_congr (if_pos ⟨hon, hlimit⟩))

variable {c : Machine.Core} {n : Nat}

theorem serial_validLane : ((validLane c n).lane n).serial = (c.lane n).serial :=
  (congrArg (fun d : Machine.Core => (d.lane n).serial) onlyTlm_clearCause.1 :)

theorem onCharList_validLane {serial : Nat} : (validLane c n).onCharList serial = c.onCharList serial :=
  (congrArg (fun d : Machine.Core => d.onCharList serial) onlyTlm_clearCause.1 :)

theorem cellEnt_validLane : (validLane c n).cellEnt n = c.cellEnt n :=
  (congrArg (fun d : Machine.Core => d.cellEnt n) onlyTlm_clearCause.1 :)

theorem laneState_validLane (hn : n < 128) : (validLane c n).laneState n = 2 :=
  (undisturbed_clearCause (spared_laneStatus hn rfl)).1.trans (laneState_setLaneState hn (by decide))

theorem hasAlarm_faultyLane :
    HasAlarm (faultyLane c n) .laneFaulty n (Machine.Core.raise.fit3 [n, n, (c.lane n).errors]) :=
  raise_listed (nm := .laneFaulty) (by decide)

theorem laneState_faultyLane (hn : n < 128) : (faultyLane c n).laneState n = 4 := by
  unfold faultyLane
  refine (undisturbed_raise (spared_laneStatus hn rfl)).1.trans ?_
  refine (undisturbed_event (apart_of_ne ?_)).1.trans (laneState_setLaneState hn (by decide))
  simp

theorem faultyCell_tlm : (faultyCell c n).tlm = c.tlm := startBypass_tlm.trans forceCell_tlm

theorem laneState_faultyCell (hn : n < 128) : (faultyCell c n).laneState n = c.laneState n := by
  have other {e : Machine.Core} {g : Field} (ha : g.addr = LNK_LANE_STATUS.a n) (hlo : 3 ≤ g.lo)
      (hw : g.lo + g.len ≤ 32) : (e.setF g 0).getF (LNK_LANE_STATUS.STATE n) = e.getF (LNK_LANE_STATUS.STATE n) :=
    getF_setF_apart hw ha.symm (.inl hlo)
  refine (undisturbed_startBypass.1.trans (undisturbed_forceCell_status hn rfl).1).trans ?_
  exact (other (g := LNK_LANE_STATUS.MSG_TRIES n) rfl (by simp) (by simp)).trans
    (other (g := LNK_LANE_STATUS.MSG_BUSY n) rfl (by simp) (by simp))

theorem adm_faultyCell : ((faultyCell c n).cell n).adm = .retired := by
  refine (cell_startBypass fun _ _ => rfl).trans ?_
  rw [cell_of_cells forceCell_cells, cell_modCell, if_pos rfl]

theorem gone_faultyCell : ((faultyCell c n).cell n).gone = true := by
  refine (cell_startBypass fun _ _ => rfl).trans ?_
  rw [cell_of_cells forceCell_cells, cell_modCell, if_pos rfl]

end Events

/-! ### The events of the lane states -/

/-- A command whose effect has the property gives it where the property does not see the memory operations. -/
theorem gives_of_effect {i : Instr} {s : State} {e : Machine.Core → Memory → Machine.Core} {P : Machine.Core → Prop}
    (hexec : exec i s = go e s) (hP : P (e (Laws.start s.core) s.mem))
    (hmem : ∀ d : Machine.Core, P d → P { d with memOps := [] } := by exact fun _ h => h) : Gives i s P :=
  gives_of_go hexec (hmem _ hP)

section Clauses
variable (s : State) (l : Fin 128)

/-- R42, R93: the training of a lane with a known cell completes. -/
theorem gives_laneTrainingComplete
    (hrun : s.core.laneState l.val = 1 ∧ 8 ≤ (s.core.lane l.val).commaRun ∧ 7 ≤ (s.core.lane l.val).crcRun ∧
      (s.core.lane l.val).rtts.length = 16)
    (hknown : s.core.flag (LNK_LANE_STATUS.PAD_ACKED l.val) = true ∧ (s.core.lane l.val).serialKnown = true)
    (hcell : s.core.onCharList (s.core.lane l.val).serial = false ∧
      (s.core.lane l.val).serial = (s.core.cellEnt l.val).serial) :
    Gives (.laneTrainingComplete l) s fun t => t.laneState l.val = 2 ∧ (t.cell l.val).adm = .admitted := by
  obtain ⟨htraining, hruns⟩ := hrun
  have hlist : (validLane (Laws.start s.core) l.val).onCharList ((validLane (Laws.start s.core) l.val).lane l.val).serial =
      false := by
    rw [onCharList_validLane, serial_validLane]
    exact hcell.1
  have hmap : ((validLane (Laws.start s.core) l.val).lane l.val).serial =
      ((validLane (Laws.start s.core) l.val).cellEnt l.val).serial := by
    rw [serial_validLane, cellEnt_validLane]
    exact hcell.2
  exact gives_of_effect (exec_laneTrainingComplete htraining hruns hknown.1 hknown.2)
    ⟨(undisturbed_identity_of_match (spared_laneStatus l.isLt rfl) (fun h _ => laneStatus_ne_hbStat h) hlist hmap).1.trans
      (laneState_validLane l.isLt), adm_identity_of_match hlist hmap⟩

/-- R93: training has failed. -/
theorem gives_laneTrainingTimeout (htraining : s.core.laneState l.val = 1)
    (hlate : (s.core.lane l.val).trainAt + 5000000 ≤ s.core.now ∨ s.core.flag (LNK_LANE_EVENT.TIMING_FAIL l.val) = true) :
    Gives (.laneTrainingTimeout l) s fun t => t.laneState l.val = 3 ∧ (t.lane l.val).silentAt = s.core.now := by
  have silent {c : Machine.Core} : Undisturbed (LNK_LANE_STATUS.STATE l.val) c (c.silentCell l.val) :=
    undisturbed_silentCell (spared_laneStatus l.isLt rfl) (fun h _ => laneStatus_ne_hbStat h) (apart_of_ne (by simp))
  refine gives_of_effect (exec_laneTrainingTimeout htraining hlate) ⟨?_, ?_⟩
  · exact silent.1.trans (laneState_setLaneState l.isLt (by decide))
  · refine (silent.lane (g := Lane.silentAt) fun _ => rfl).trans ?_
    rw [lane_modLane, if_pos rfl]
    rfl

theorem gives_laneDown (hvalid : s.core.laneState l.val = 2) (hmiss : 4 ≤ (s.core.lane l.val).missRun) :
    Gives (.laneDown l) s fun t => t.laneState l.val = 1 ∧ Listed t .laneDown l.val [l.val] ∧
      t.flag (LNK_LANE_EVENT.DOWN l.val) = true := by
  refine gives_of_effect (exec_laneDown hvalid hmiss) ⟨laneState_startTraining l.isLt, ?_, ?_⟩
  · exact hasAlarm_of_alarms startTraining_alarms (raise_listed (nm := .laneDown) (by decide))
  · unfold Machine.Core.flag
    rw [getF_down_startTraining l.isLt, (undisturbed_raise (spared_laneEvent l.isLt rfl (by simp))).1,
      getF_event_same (by simp) rfl]
    rfl

theorem gives_laneFaulty (hon : s.core.laneState l.val = 1 ∨ s.core.laneState l.val = 2)
    (hlimit : 64 < (s.core.lane l.val).errors ∨ (s.core.lane l.val).tries = 4) :
    Gives (.laneFaulty l) s fun t => t.laneState l.val = 4 ∧
      Listed t .laneFaulty l.val [l.val, l.val, (s.core.lane l.val).errors] ∧ (t.cell l.val).adm = .retired ∧
      (t.cell l.val).gone = true := by
  refine gives_of_effect (exec_laneFaulty hon hlimit) ⟨?_, ?_, ?_, ?_⟩
  · exact (undisturbed_retireRecord.1.trans (undisturbed_charEntry (spared_laneStatus l.isLt rfl)).1).trans
      ((laneState_faultyCell l.isLt).trans (laneState_faultyLane l.isLt))
  · refine hasAlarm_of_alarms (congrArg Tlm.alarms retireRecord_tlm) (hasAlarm_charEntry ?_ (by decide) (by decide))
    exact hasAlarm_of_alarms (congrArg Tlm.alarms faultyCell_tlm) hasAlarm_faultyLane
  · rw [cell_of_cells retireRecord_cells, cell_of_cells charEntry_cells]
    exact adm_faultyCell
  · rw [cell_of_cells retireRecord_cells, cell_of_cells charEntry_cells]
    exact gone_faultyCell

end Clauses

/-- Settles O1: what follows a change of a lane's state (forced legs, alarms, the admission or the record of its cell) leaves the
state, so each clause is the state the lane was set to. -/
theorem laneStateEvents : Obligations.LaneStateEvents := by
  unfold Obligations.LaneStateEvents
  refine ⟨gives_laneTrainingComplete, gives_laneTrainingTimeout, ?_, gives_laneDown, ?_, gives_laneFaulty⟩
  · intro s l hsilent hlate
    exact gives_of_effect (exec_silentRetry hsilent hlate)
      ⟨laneState_startTraining l.isLt, trainAt_startTraining l.isLt⟩
  · intro s l hon
    exact gives_of_effect (exec_lnkRetrain hon) ⟨laneState_startTraining l.isLt, trainAt_startTraining l.isLt⟩

end Sys2Proof.Proofs
end

