-- ==== Sys2Proof/Proofs/LinkMessages.lean ====
section
/-! The messages of a lane (R81, R82), its error window (R95) and the bypass commands of a cell (R43, R96). -/
namespace Sys2Proof.Proofs
open Sys2Proof.Machine Sys2Proof.Claims Sys2Proof.Laws

/-! ### Attempts and answers -/
section Answers
variable {f : Field} {c : Machine.Core} {l n : Nat}

theorem undisturbed_injSwaps (hf : f.addr ≠ LNK_LANE_INJ_STATUS.a l) : Undisturbed f c (c.injSwaps l) := by
  unfold Machine.Core.injSwaps
  exact undisturbed_ite (undisturbed_bump (apart_of_ne hf)) .refl

theorem lane_endMsg : (c.endMsg l).lane l = { c.lane l with msg := none, resend := false, tries := 0 } := by
  unfold Machine.Core.endMsg
  rw [lane_setF, lane_setF, lane_modLane, if_pos rfl]

theorem getF_busy_setF_tries {v : Nat} :
    (c.setF (LNK_LANE_STATUS.MSG_TRIES l) v).getF (LNK_LANE_STATUS.MSG_BUSY l) = c.getF (LNK_LANE_STATUS.MSG_BUSY l) :=
  getF_setF_apart (by simp) rfl (by simp)

theorem getF_busy_endMsg : (c.endMsg l).getF (LNK_LANE_STATUS.MSG_BUSY l) = 0 :=
  getF_busy_setF_tries.trans (getF_setF_same (by simp))

theorem flag_of_getF {v : Nat} (h : c.getF f = v) : c.flag f = (v == 1) := by
  unfold Machine.Core.flag
  rw [h]

/-- R82: what an answer does to the status of its lane is to acknowledge a pad. -/
theorem undisturbed_acked {d : DnMsg} {status : Nat} (hf : Spared f) (hpad : Apart f (LNK_LANE_STATUS.PAD_ACKED l))
    (hdn : f.addr ≠ LNK_LANE_PAD.a l) (hlegs : ∀ h, f.addr ≠ GDP_HB_STAT.a h) (hlast : f.addr ≠ PRT_LAST_TRIP.a) :
    Undisturbed f c (c.acked l d status) := by
  have masked {legs : List Nat} {x : Nat → Hb → Hb} : Undisturbed f c (legs.foldl (fun a h => a.modHb h (x h)) c) :=
    undisturbed_foldl legs fun _ _ => undisturbed_modHb
  unfold Machine.Core.acked
  dsimp only
  split
  · exact (undisturbed_setF hpad).trans (undisturbed_setF (apart_of_ne hdn))
  · split
    · exact undisturbed_ite (.trans masked undisturbed_test) masked
    · exact masked
  · split
    · exact undisturbed_ite (undisturbed_hardDone hf fun h _ => hlegs h) .refl
    · exact undisturbed_foldl _ fun _ _ => undisturbed_ite (undisturbed_clearRefused hf hlast fun h _ => hlegs h) .refl
  · split
    · exact undisturbed_ite undisturbed_test .refl
    · exact .refl
  · exact undisturbed_same rfl rfl
  · exact undisturbed_same rfl rfl
  · exact undisturbed_same rfl rfl
  · exact .refl

/-- An answer leaves what the end of its message has left of the message. -/
theorem undisturbed_acked_busy {d : DnMsg} {status : Nat} (hl : l < 128) :
    Undisturbed (LNK_LANE_STATUS.MSG_BUSY l) c (c.acked l d status) := by
  refine undisturbed_acked (spared_laneStatus hl rfl) (fun _ => by simp) (by simp)
    (fun h => laneStatus_ne_hbStat h) ?_
  show 0x40020004 + 0x80 * l ≠ 0x40050014
  omega

/-- A refusal is kept in the lane, apart from its message. -/
theorem lane_reportRefusal {α : Type} {g : Lane → α} {op status : Nat} (hg : ∀ x r, g { x with refused := r } = g x) :
    g ((c.reportRefusal l op status).lane n) = g (c.lane n) := by
  unfold Machine.Core.reportRefusal
  rw [lane_modLane]
  split
  · rename_i hn
    rw [hg, hn]
  · rfl

/-- R82: an attempt without an answer is counted, and repeated up to three times. -/
theorem attemptFailed_of_retry {d : DnMsg} (hmsg : (c.lane l).msg = some d) (hop : d.op ≠ 0x83) :
    c.attemptFailed l = ((((c.laneError l 1).event (LNK_LANE_EVENT.MSG_FAIL l)).modLane l fun y =>
      { y with tries := min 4 ((c.lane l).tries + 1), resend := decide (min 4 ((c.lane l).tries + 1) ≤ 3) })).setF
        (LNK_LANE_STATUS.MSG_TRIES l) (min 3 (min 4 ((c.lane l).tries + 1))) := by
  unfold Machine.Core.attemptFailed
  dsimp only
  rw [hmsg]
  exact if_neg hop

/-- R96: BYPASS_CLOSE is not repeated by its lane. -/
theorem attemptFailed_of_close {d : DnMsg} (hmsg : (c.lane l).msg = some d) (hop : d.op = 0x83) :
    c.attemptFailed l = ((c.laneError l 1).event (LNK_LANE_EVENT.MSG_FAIL l)).endMsg l := by
  unfold Machine.Core.attemptFailed
  dsimp only
  rw [hmsg]
  exact if_pos hop

/-- A message that a lane may take is the last to wait. -/
theorem getLast_queueMsg {op arg : Nat} (hauth : c.getF PAI_STATUS.AUTH ≠ 1) (hon : c.laneOn l = true)
    (hfaulty : c.laneState l ≠ 4 ∨ op = 0x83) : ((c.queueMsg l op arg).lane l).queue.getLast? = some ⟨op, arg⟩ := by
  have hopen : ¬ ((decide (c.auth = 1) && actuating op) || !c.laneOn l || (c.laneState l == 4 && op != 0x83)) = true := by
    have hrole : c.auth ≠ 1 := hauth
    rcases hfaulty with h | h <;> simp [hrole, hon, h]
  unfold Machine.Core.queueMsg
  rw [if_neg hopen, lane_modLane, if_pos rfl]
  exact List.getLast?_concat

theorem queueMsg_cells {op arg : Nat} : (c.queueMsg l op arg).cells = c.cells := by
  unfold Machine.Core.queueMsg
  split <;> rfl

end Answers

/-! ### The contactor that does not close -/
section Bypass
variable {c : Machine.Core} {n : Nat} {nm other : AlarmName} {inst : Nat} {data l : List Nat}

theorem raise_cells {present : Bool} : (c.raise nm inst data present).cells = c.cells :=
  (congrArg Machine.Core.cells onlyAlarm_raise.1 :)

theorem request_cells : (c.request nm).cells = c.cells := by
  unfold Machine.Core.request
  dsimp only
  split_ifs <;> rfl

theorem refreshCause_cells : c.refreshCause.cells = c.cells := rfl

theorem raiseA_cells : (c.raiseA nm inst data).cells = c.cells :=
  refreshCause_cells.trans (request_cells.trans raise_cells)

theorem raiseA_tlm : (c.raiseA nm inst data).tlm = (c.raise nm inst data true).tlm :=
  refreshCause_tlm.trans request_tlm

theorem bypassAlarm_cells : (c.bypassAlarm nm n data).cells = c.cells := by
  unfold Machine.Core.bypassAlarm
  split
  · rfl
  split
  · exact raiseA_cells
  · exact refreshCause_cells.trans raise_cells

theorem hasAlarm_bypassAlarm (h : HasAlarm c nm inst data) (hne : nm ≠ other) (hfold : nm ≠ .alarmTableFold) :
    HasAlarm (c.bypassAlarm other n l) nm inst data := by
  have raised : HasAlarm (c.raise other n l true) nm inst data := hasAlarm_raise_other h hne hfold
  unfold Machine.Core.bypassAlarm
  split
  · exact h
  split
  · exact hasAlarm_of_alarms (congrArg Tlm.alarms raiseA_tlm) raised
  · exact hasAlarm_of_alarms (congrArg Tlm.alarms refreshCause_tlm) raised

/-- R96: an unconfirmed contactor, with its event and its alarm. -/
def unconfirmedCell (c : Machine.Core) (n : Nat) : Machine.Core :=
  ((c.event (LNK_LANE_EVENT.BYPASS_UNCONFIRMED n)).raise .bypassUnconfirmed n [n] true).modCell n fun x =>
    { x with unconf := true }

/-- R132: on a lane that is not VALID the bypass has failed. -/
theorem unconfirmed_eq : c.unconfirmed n = if (unconfirmedCell c n).laneState n = 2 then unconfirmedCell c n else
    ((unconfirmedCell c n).event PRT_EVENT.BYPASS_FAILED).bypassAlarm .bypassFailed n [n] := rfl

theorem unconf_unconfirmed : ((c.unconfirmed n).cell n).unconf = true := by
  have told : ((unconfirmedCell c n).cell n).unconf = true := by
    unfold unconfirmedCell
    rw [cell_modCell, if_pos rfl]
  rw [unconfirmed_eq]
  split
  · exact told
  · rw [cell_of_cells bypassAlarm_cells]
    exact told

theorem hasAlarm_unconfirmed :
    HasAlarm (c.unconfirmed n) .bypassUnconfirmed n (Machine.Core.raise.fit3 [n]) := by
  have told : HasAlarm (unconfirmedCell c n) .bypassUnconfirmed n (Machine.Core.raise.fit3 [n]) :=
    raise_listed (nm := .bypassUnconfirmed) (by decide)
  rw [unconfirmed_eq]
  split
  · exact told
  · exact hasAlarm_bypassAlarm (c := (unconfirmedCell c n).event PRT_EVENT.BYPASS_FAILED) told (by decide) (by decide)

theorem getF_event_unconfirmed (hn : n < 128) :
    (c.unconfirmed n).getF (LNK_LANE_EVENT.BYPASS_UNCONFIRMED n) = 1 := by
  have hf : Spared (LNK_LANE_EVENT.BYPASS_UNCONFIRMED n) := spared_laneEvent hn rfl (by simp)
  have told : (unconfirmedCell c n).getF (LNK_LANE_EVENT.BYPASS_UNCONFIRMED n) = 1 :=
    (undisturbed_raise hf).1.trans (getF_event_same (by simp) rfl)
  rw [unconfirmed_eq]
  split
  · exact told
  · exact ((undisturbed_event (hf.apart_prtEvent rfl (by decide) (by decide))).trans
      (undisturbed_bypassAlarm hf)).1.trans told

end Bypass

/-! ### The events -/
section Events
variable (s : State) (l n : Fin 128)

/-- R81: a message that fits starts. -/
theorem exec_messageStart {d : DnMsg} (hon : s.core.laneState l.val ≠ 0 ∧ s.core.laneState l.val ≠ 3)
    (hnext : (s.core.lane l.val).nextMsg = some d)
    (hfits : nextSlot s.core.now % 2048 / 8 + d.span ≤ 256 ∧
      s.core.changeIn l.val (nextSlot s.core.now) (nextSlot s.core.now + 8 * d.span) = false) :
    exec (.messageStart l) s = go (fun c _ => (((c.modLane l.val fun x => { x with
      msg := some d, msgCrc := crc8 (BitVec.ofNat 8 d.op :: le (msgArgLen d.op) d.arg), msgStart := nextSlot c.now
      msgEnd := nextSlot c.now + 8 * d.span, resend := false
      queue := if x.msg.isNone then x.queue.drop 1 else x.queue, tries := if x.msg.isNone then 0 else x.tries }).setF
        (LNK_LANE_STATUS.MSG_BUSY l.val) 1).setF (LNK_LANE_STATUS.MSG_TRIES l.val)
          (min 3 (if (c.lane l.val).msg.isNone then 0 else (c.lane l.val).tries))).injSwaps l.val) s := by
  refine congrArg Host.Outcome.next (run_congr ?_)
  dsimp only
  refine (if_neg (not_or.mpr hon)).trans ?_
  rw [show ((Laws.start s.core).lane l.val).nextMsg = some d from hnext]
  exact if_neg (not_or.mpr ⟨Nat.not_lt.mpr hfits.1, by rw [Bool.not_eq_true]; exact hfits.2⟩)

theorem gives_messageStart (d : DnMsg) (hon : s.core.laneState l.val ≠ 0 ∧ s.core.laneState l.val ≠ 3)
    (hnext : (s.core.lane l.val).nextMsg = some d)
    (hfits : nextSlot s.core.now % 2048 / 8 + d.span ≤ 256 ∧
      s.core.changeIn l.val (nextSlot s.core.now) (nextSlot s.core.now + 8 * d.span) = false) :
    Gives (.messageStart l) s fun t =>
      (t.lane l.val).msg = some d ∧ (t.lane l.val).msgEnd = nextSlot s.core.now + 8 * d.span ∧
      t.flag (LNK_LANE_STATUS.MSG_BUSY l.val) = true := by
  have swapped {c : Machine.Core} : Undisturbed (LNK_LANE_STATUS.MSG_BUSY l.val) c (c.injSwaps l.val) :=
    undisturbed_injSwaps (by simp)
  refine gives_of_effect (exec_messageStart s l hon hnext hfits) ⟨?_, ?_, ?_⟩
  · rw [swapped.lane (g := Lane.msg) fun _ => rfl, lane_setF, lane_setF, lane_modLane, if_pos rfl]
  · rw [swapped.lane (g := Lane.msgEnd) fun _ => rfl, lane_setF, lane_setF, lane_modLane, if_pos rfl]
    rfl
  · exact flag_of_getF (swapped.1.trans (getF_busy_setF_tries.trans (getF_setF_same (by simp))))

theorem exec_messageAttemptFailed {d : DnMsg} (hmsg : (s.core.lane l.val).msg = some d)
    (hlate : (s.core.lane l.val).resend = false ∧ (s.core.lane l.val).tries < 4 ∧
      (s.core.lane l.val).msgEnd + 4096 ≤ s.core.now) :
    exec (.messageAttemptFailed l) s = go (fun c _ => c.attemptFailed l.val) s := by
  obtain ⟨hresend, htries, hend⟩ := hlate
  refine congrArg Host.Outcome.next (run_congr (if_pos ?_))
  have hlane : (Laws.start s.core).lane l.val = s.core.lane l.val := rfl
  have hnow : (Laws.start s.core).now = s.core.now := rfl
  simp [hlane, hnow, hmsg, hresend, htries, hend]

/-- R82: the attempt is counted, and repeated up to three times. -/
theorem gives_messageAttemptFailed_retry (d : DnMsg) (hmsg : (s.core.lane l.val).msg = some d ∧ d.op ≠ 0x83)
    (hlate : (s.core.lane l.val).resend = false ∧ (s.core.lane l.val).tries < 4 ∧
      (s.core.lane l.val).msgEnd + 4096 ≤ s.core.now) :
    Gives (.messageAttemptFailed l) s fun t =>
      (t.lane l.val).tries = (s.core.lane l.val).tries + 1 ∧
      (t.lane l.val).resend = decide ((s.core.lane l.val).tries < 3) ∧
      t.flag (LNK_LANE_EVENT.MSG_FAIL l.val) = true := by
  have htries := hlate.2.1
  refine gives_of_effect (exec_messageAttemptFailed s l hmsg.1 hlate) ?_
  rw [attemptFailed_of_retry (c := Laws.start s.core) hmsg.1 hmsg.2]
  refine ⟨?_, ?_, ?_⟩
  · rw [lane_setF, lane_modLane, if_pos rfl]
    exact Nat.min_eq_right htries
  · rw [lane_setF, lane_modLane, if_pos rfl]
    refine decide_eq_decide.mpr ?_
    show min 4 ((s.core.lane l.val).tries + 1) ≤ 3 ↔ _
    omega
  · refine flag_of_getF (v := 1) ?_
    rw [getF_setF_other (by simp)]
    exact getF_event_same (c := (Laws.start s.core).laneError l.val 1) (by simp) rfl

theorem gives_messageAttemptFailed_close (d : DnMsg) (hmsg : (s.core.lane l.val).msg = some d ∧ d.op = 0x83)
    (hlate : (s.core.lane l.val).resend = false ∧ (s.core.lane l.val).tries < 4 ∧
      (s.core.lane l.val).msgEnd + 4096 ≤ s.core.now) :
    Gives (.messageAttemptFailed l) s fun t =>
      (t.lane l.val).msg = none ∧ (t.lane l.val).tries = 0 ∧ t.flag (LNK_LANE_STATUS.MSG_BUSY l.val) = false := by
  refine gives_of_effect (exec_messageAttemptFailed s l hmsg.1 hlate) ?_
  rw [attemptFailed_of_close (c := Laws.start s.core) hmsg.1 hmsg.2, lane_endMsg]
  exact ⟨rfl, rfl, flag_of_getF getF_busy_endMsg⟩

/-- R82: an answer to the message that is out, other than a request to send it again. -/
theorem exec_ackRecord {p : BitVec 24} {d : DnMsg}
    (hmsg : (s.core.lane l.val).msg = some d ∧ d.op = bitsOf p.toNat 16 8 ∧
      (s.core.lane l.val).msgCrc = bitsOf p.toNat 8 8)
    (hwait : (s.core.lane l.val).resend = false ∧ (s.core.lane l.val).tries ≠ 4 ∧ bitsOf p.toNat 0 8 ≠ 3) :
    exec (.ackRecord l p) s = go (fun c _ =>
      if bitsOf p.toNat 0 8 = 0 then (c.endMsg l.val).acked l.val d (bitsOf p.toNat 0 8)
      else ((c.endMsg l.val).acked l.val d (bitsOf p.toNat 0 8)).reportRefusal l.val d.op (bitsOf p.toNat 0 8)) s := by
  obtain ⟨hsome, hop, hcrc⟩ := hmsg
  obtain ⟨hresend, htries, hstatus⟩ := hwait
  have hlane : (Laws.start s.core).lane l.val = s.core.lane l.val := rfl
  refine congrArg Host.Outcome.next (run_congr ?_)
  dsimp only
  rw [hlane, hsome]
  refine (if_neg ?_).trans (if_neg hstatus)
  simp [hop, hcrc, hresend, htries]

theorem gives_ackRecord (p : BitVec 24) (d : DnMsg)
    (hmsg : (s.core.lane l.val).msg = some d ∧ d.op = bitsOf p.toNat 16 8 ∧
      (s.core.lane l.val).msgCrc = bitsOf p.toNat 8 8)
    (hwait : (s.core.lane l.val).resend = false ∧ (s.core.lane l.val).tries ≠ 4 ∧ bitsOf p.toNat 0 8 ≠ 3) :
    Gives (.ackRecord l p) s fun t =>
      (t.lane l.val).msg = none ∧ (t.lane l.val).tries = 0 ∧ t.flag (LNK_LANE_STATUS.MSG_BUSY l.val) = false := by
  have hacked : Undisturbed (LNK_LANE_STATUS.MSG_BUSY l.val) ((Laws.start s.core).endMsg l.val)
      (((Laws.start s.core).endMsg l.val).acked l.val d (bitsOf p.toNat 0 8)) := undisturbed_acked_busy l.isLt
  have hmsgless := (hacked.lane (n := l.val) (g := Lane.msg) fun _ => rfl).trans (congrArg Lane.msg lane_endMsg)
  have htries := (hacked.lane (n := l.val) (g := Lane.tries) fun _ => rfl).trans (congrArg Lane.tries lane_endMsg)
  have hbusy := flag_of_getF (hacked.1.trans getF_busy_endMsg)
  refine gives_of_effect (exec_ackRecord s l hmsg hwait) ?_
  split
  · exact ⟨hmsgless, htries, hbusy⟩
  · exact ⟨(lane_reportRefusal fun _ _ => rfl).trans hmsgless, (lane_reportRefusal fun _ _ => rfl).trans htries, hbusy⟩

/-- R95: a new bucket every 62.5 ms. -/
theorem gives_errorBucketRoll (hlate : (s.core.lane l.val).bucketAt + 62500000 ≤ s.core.now) :
    Gives (.errorBucketRoll l) s fun t =>
      (t.lane l.val).buckets = 0 :: (s.core.lane l.val).buckets.take 15 ∧
      (t.lane l.val).bucketAt = (s.core.lane l.val).bucketAt + 62500000 ∧
      t.getF (LNK_LANE_ERR_WINDOW.SUM l.val) = min 255 (sumN ((s.core.lane l.val).buckets.take 15)) := by
  have hexec : exec (.errorBucketRoll l) s = go (fun c _ => ((c.modLane l.val fun x => { x with
      buckets := 0 :: x.buckets.take 15, bucketAt := x.bucketAt + 62500000 }).setF (LNK_LANE_ERR_WINDOW.SUM l.val)
        (min 255 (sumN ((c.lane l.val).buckets.take 15)))).setF (LNK_LANE_ERR_WINDOW.BUCKET l.val)
          (c.getF (LNK_LANE_ERR_WINDOW.BUCKET l.val) + 1)) s := by
    refine congrArg Host.Outcome.next (run_congr ((if_pos hlate).trans ?_))
    rfl
  refine gives_of_effect hexec ⟨?_, ?_, ?_⟩
  · rw [lane_setF, lane_setF, lane_modLane, if_pos rfl]
    rfl
  · rw [lane_setF, lane_setF, lane_modLane, if_pos rfl]
    rfl
  · rw [getF_setF_apart (g := LNK_LANE_ERR_WINDOW.SUM l.val) (f := LNK_LANE_ERR_WINDOW.BUCKET l.val) (by simp) rfl
      (by simp), getF_setF_same (by simp)]
    exact Nat.mod_eq_of_lt (Nat.lt_of_le_of_lt (Nat.min_le_left _ _) (by simp))

/-- R96: BYPASS_CLOSE goes out again. -/
theorem gives_bypassCloseTimer
    (hdue : (s.core.cell n.val).bcOn = true ∧ (s.core.cell n.val).bcNext ≤ s.core.now ∧ s.core.role n.val = 1)
    (hopen : s.core.getF PAI_STATUS.AUTH ≠ 1 ∧ s.core.laneOn n.val = true) :
    Gives (.bypassCloseTimer n) s fun t =>
      (t.cell n.val).bcNext = s.core.now + 1000000 ∧
      (t.lane n.val).queue.getLast? = some ⟨0x83, (s.core.lane n.val).serial % 65536⟩ ∧
      (t.cell n.val).bcFirst = some ((s.core.cell n.val).bcFirst.getD s.core.now) := by
  have hexec : exec (.bypassCloseTimer n) s = go (fun c _ =>
      (c.queueMsg n.val 0x83 ((c.lane n.val).serial % 65536)).modCell n.val fun x =>
        { x with bcNext := c.now + 1000000, bcFirst := some (x.bcFirst.getD c.now) }) s :=
    congrArg Host.Outcome.next (run_congr (if_pos hdue))
  refine gives_of_effect hexec ⟨?_, getLast_queueMsg (c := Laws.start s.core) hopen.1 hopen.2 (.inr rfl), ?_⟩
  · rw [cell_modCell, if_pos rfl]
    rfl
  · rw [cell_modCell, if_pos rfl]
    exact congrArg (fun x : Cell => some (x.bcFirst.getD s.core.now)) (cell_of_cells queueMsg_cells)

/-- R43: BYPASS_OPEN goes out again. -/
theorem gives_bypassOpenTimer (hdue : (s.core.cell n.val).boOn = true ∧ (s.core.cell n.val).boNext ≤ s.core.now)
    (hopen : s.core.getF PAI_STATUS.AUTH ≠ 1 ∧ s.core.laneOn n.val = true ∧ s.core.laneState n.val ≠ 4) :
    Gives (.bypassOpenTimer n) s fun t =>
      (t.cell n.val).boNext = s.core.now + 1000000 ∧ (t.lane n.val).queue.getLast? = some ⟨0x03, 0⟩ := by
  obtain ⟨hauth, hon, hfaulty⟩ := hopen
  have hexec : exec (.bypassOpenTimer n) s = go (fun c _ => (c.queueMsg n.val 0x03 0).modCell n.val fun x =>
      { x with boNext := c.now + 1000000 }) s :=
    congrArg Host.Outcome.next (run_congr (if_pos hdue))
  refine gives_of_effect hexec ⟨?_, getLast_queueMsg (c := Laws.start s.core) hauth hon (.inl hfaulty)⟩
  rw [cell_modCell, if_pos rfl]
  rfl

/-- R96, R132: the contactor is not reported closed in time. -/
theorem gives_bypassUnconfirmed (u : Nat)
    (hlate : (s.core.cell n.val).bcFirst = some u ∧ (s.core.cell n.val).bcOn = true ∧
      (s.core.cell n.val).unconf = false ∧ u + 20000000 ≤ s.core.now) :
    Gives (.bypassUnconfirmed n) s fun t =>
      (t.cell n.val).unconf = true ∧ Listed t .bypassUnconfirmed n.val [n.val] ∧
      t.flag (LNK_LANE_EVENT.BYPASS_UNCONFIRMED n.val) = true := by
  obtain ⟨hfirst, hon, hunconf, hend⟩ := hlate
  have hcell : (Laws.start s.core).cell n.val = s.core.cell n.val := rfl
  have hexec : exec (.bypassUnconfirmed n) s = go (fun c _ => c.unconfirmed n.val) s := by
    refine congrArg Host.Outcome.next (run_congr ?_)
    dsimp only
    rw [hcell, hfirst]
    exact if_pos ⟨hon, by rw [hunconf]; rfl, hend⟩
  exact gives_of_effect hexec ⟨unconf_unconfirmed, hasAlarm_unconfirmed, flag_of_getF (getF_event_unconfirmed n.isLt)⟩

end Events

/-- Settles O2: the message's own fields are those its start, its failure or its end sets; what an answer does besides (R82)
leaves them. -/
theorem linkMessageEvents : Obligations.LinkMessageEvents := by
  unfold Obligations.LinkMessageEvents
  exact ⟨gives_messageStart, gives_messageAttemptFailed_retry, gives_messageAttemptFailed_close, gives_ackRecord,
    gives_errorBucketRoll, gives_bypassCloseTimer, gives_bypassOpenTimer, gives_bypassUnconfirmed⟩

end Sys2Proof.Proofs
end

