-- ==== Sys2Proof/Proofs/LinkRecords.lean ====
section
/-! The upstream frames and records of a lane (R86 to R88, R98, R115, R121, R364). -/
namespace Sys2Proof.Proofs
open Sys2Proof.Machine Sys2Proof.Claims Sys2Proof.Laws

/-! ### Frames (R87, R89) -/
section Frames
variable {α : Type} {g : Lane → α} {c : Machine.Core} {l n : Nat}

theorem lane_queueMsg (hq : ∀ x q, g { x with queue := q } = g x) {op arg : Nat} :
    g ((c.queueMsg l op arg).lane n) = g (c.lane n) := by
  unfold Machine.Core.queueMsg
  split
  · rfl
  · rw [lane_modLane]
    split
    · rename_i hn
      rw [hq, hn]
    · rfl

/-- R89: a latency sets what the lane knows of it, and queues the pads. -/
theorem lane_latency (hq : ∀ x q, g { x with queue := q } = g x)
    (hp : ∀ x t, g { x with tch := t, padSent := true } = g x) : g ((c.latency l).lane n) = g (c.lane n) := by
  have padded {d : Machine.Core} {t a b : Int} : g ((d.usePads l t a b).lane n) = g (d.lane n) := by
    unfold Machine.Core.usePads
    rw [lane_setF, lane_queueMsg hq, lane_modLane]
    split
    · rename_i hn
      rw [hp, hn]
    · rfl
  unfold Machine.Core.latency
  dsimp only
  split
  · rfl
  split
  · split
    · rw [padded, lane_setF]
    · rw [lane_event, lane_setF]
  split
  · rw [padded, lane_setF]
  · rw [lane_setF]

/-- R98: the injector keeps its own counts in the lane. -/
theorem lane_inject (hi : ∀ x a b, g { x with injLeft := a, injMade := b } = g x) {codes : List (BitVec 10)} :
    g ((c.inject l codes).1.lane n) = g (c.lane n) := by
  have counted {a b : Nat} : g ((c.setLane l { c.lane l with injLeft := a, injMade := b }).lane n) = g (c.lane n) := by
    rw [lane_setLane]
    split
    · rename_i hn
      rw [hi, hn]
    · rfl
  unfold Machine.Core.inject
  dsimp only
  split
  · dsimp only
    split
    · rw [lane_setF, lane_bump, counted]
    · rw [lane_bump, counted]
  · rfl

/-- The characters behind the injector do not depend on what the start of a command changes. -/
theorem inject_chars_start {codes : List (BitVec 10)} : ((Laws.start c).inject l codes).2 = (c.inject l codes).2 := by
  unfold Machine.Core.inject
  dsimp only
  rw [apply_ite Prod.snd, apply_ite Prod.snd]
  rfl

/-- No characters, none behind the injector. -/
theorem inject_chars_nil : (c.inject l []).2 = [] := by
  unfold Machine.Core.inject
  dsimp only
  rw [if_neg (by simp)]
  rfl

/-- R87, R91, R93: the frames in a row, those without a comma, those with a right CRC, and the round trips. -/
def frameRuns (x : Lane) : Nat × Nat × Nat × List Nat := (x.commaRun, x.missRun, x.crcRun, x.rtts)

theorem frameRuns_eq_iff {x y : Lane} : frameRuns x = frameRuns y ↔
    x.commaRun = y.commaRun ∧ x.missRun = y.missRun ∧ x.crcRun = y.crcRun ∧ x.rtts = y.rtts := by
  simp [frameRuns]

/-- R84: the frame before failed the CRC that comes in this one. -/
def frameBad (x : Lane) (got : List (Option Nat)) (silent : Bool) : Bool :=
  !silent && match x.lastCrc with
    | some k => k != frameCrc (receive 0 x.rd x.lastChar got).1
    | none => false

/-- R87: what a lane keeps of a frame that has come, or of a frame time without one. -/
def frameLane (x : Lane) (got : List (Option Nat)) (silent : Bool) (rtt : Nat) : Lane :=
  let r := receive 0 x.rd x.lastChar got
  { x with
    commaRun := if silent then 0 else x.commaRun + 1
    missRun := if r.2.2.2 then 0 else x.missRun + 1
    crcRun := if frameBad x got silent || silent then 0 else if x.lastCrc.isSome then x.crcRun + 1 else 0
    lastCrc := if silent then none else some (crc16 r.1), rtts := if silent then x.rtts else lastN 16 (x.rtts ++ [rtt])
    rd := r.2.1, lastChar := (r.1.getLast?.map (·.toNat)).getD x.lastChar }

/-- R95, R89: the errors of a frame, the alignment and the latency follow from it. -/
def frameEnd (c : Machine.Core) (n : Nat) (x : Lane) (viol : Nat) (bad : Bool) : Machine.Core :=
  let c1 := (c.setLane n x).bump (LNK_LANE_ERR_COUNT.CODE_VIOL n) viol
  let c2 := if bad then (c1.bump (LNK_LANE_ERR_COUNT.CRC_FAIL n) 1).markSuspect n else c1
  ((c2.laneError n (viol + b2n bad)).setFlag (LNK_LANE_STATUS.ALIGNED n)
    (decide (x.missRun < 4 ∧ 0 < x.commaRun))).latency n

theorem frameRuns_frameEnd {x : Lane} {viol : Nat} {bad : Bool} :
    frameRuns ((frameEnd c n x viol bad).lane n) = frameRuns x := by
  have taken {d : Machine.Core} (h : d.lanes = (c.setLane n x).lanes) : d.lane n = x :=
    (congrArg (fun m => mapGet (fun _ => Lane.reset) m n) h).trans ((lane_setLane n n x).trans (if_pos rfl))
  unfold frameEnd
  dsimp only
  rw [lane_latency (g := frameRuns) (fun _ _ => rfl) (fun _ _ => rfl), lane_setFlag,
    lane_laneError (g := frameRuns) (fun _ _ => rfl) (fun _ _ => rfl)]
  exact congrArg frameRuns (taken (by split <;> rfl))

variable {s : State} {slot0 : Option (BitVec 10)} {chars : List (BitVec 10)} {rtt : Nat}

theorem exec_upstreamFrame (l : Fin 128) (hon : s.core.laneState l.val = 1 ∨ s.core.laneState l.val = 2) :
    exec (.upstreamFrame l slot0 chars rtt) s = go (fun c _ =>
      let inj := c.inject l.val (slot0.toList ++ chars)
      let x := inj.1.lane l.val
      let silent := (slot0.toList ++ chars).isEmpty
      frameEnd inj.1 l.val (frameLane x inj.2 silent rtt) (receive 0 x.rd x.lastChar inj.2).2.2.1
        (frameBad x inj.2 silent)) s := by
  refine congrArg Host.Outcome.next (run_congr ((if_neg ?_).trans ?_))
  · show ¬ (s.core.laneState l.val ≠ 1 ∧ s.core.laneState l.val ≠ 2)
    omega
  · rfl

/-- R87: the counts of a frame of a lane in training or VALID. -/
theorem gives_upstreamFrame (l : Fin 128) (hon : s.core.laneState l.val = 1 ∨ s.core.laneState l.val = 2) :
    Gives (.upstreamFrame l slot0 chars rtt) s fun t => frameRuns (t.lane l.val) =
      frameRuns (frameLane (s.core.lane l.val) (s.core.inject l.val (slot0.toList ++ chars)).2
        (slot0.toList ++ chars).isEmpty rtt) := by
  refine gives_of_effect (exec_upstreamFrame l hon) (frameRuns_frameEnd.trans ?_)
  rw [inject_chars_start]
  have kept (got : List (Option Nat)) (silent : Bool) := lane_inject (g := fun x => frameRuns (frameLane x got silent rtt))
    (c := Laws.start s.core) (l := l.val) (n := l.val) (codes := slot0.toList ++ chars) fun _ _ _ => rfl
  exact kept _ _

end Frames

/-! ### IDENT and AUX_MARK (R86) -/
section Identity

/-- Bits of a number taken out and put in anew. -/
theorem putBits_of_sub {w lo len v : Nat} (hv : v < 2 ^ len) :
    w - bitsOf w lo len * 2 ^ lo + v * 2 ^ lo = putBits w lo len v := by
  have hw : w = w % 2 ^ lo + bitsOf w lo len * 2 ^ lo + w / 2 ^ (lo + len) * 2 ^ (lo + len) :=
    calc w
      _ = w % 2 ^ lo + 2 ^ lo * (w / 2 ^ lo) := (Nat.mod_add_div _ _).symm
      _ = w % 2 ^ lo + 2 ^ lo * (w / 2 ^ lo % 2 ^ len + 2 ^ len * (w / 2 ^ lo / 2 ^ len)) := by
        rw [Nat.mod_add_div (w / 2 ^ lo)]
      _ = w % 2 ^ lo + bitsOf w lo len * 2 ^ lo + w / 2 ^ (lo + len) * 2 ^ (lo + len) := by
        rw [bitsOf, pow_add, ← Nat.div_div_eq_div_mul]
        ring
  unfold putBits
  rw [Nat.mod_eq_of_lt hv]
  omega

/-- R88: the lane with a part of its serial. -/
def identLane (x : Lane) (part bits : Nat) : Lane :=
  let len := if part = 2 then 20 else 22
  { x with
    serial := x.serial - bitsOf x.serial (22 * part) len * 2 ^ (22 * part) + bits * 2 ^ (22 * part)
    ident := setBit x.ident part, serialKnown := setBit x.ident part == 7 }

theorem serial_identLane {x : Lane} {part w : Nat} :
    bitsOf (identLane x part (bitsOf w 0 (if part = 2 then 20 else 22))).serial (22 * part)
      (if part = 2 then 20 else 22) = bitsOf w 0 (if part = 2 then 20 else 22) := by
  have hv : bitsOf w 0 (if part = 2 then 20 else 22) < 2 ^ (if part = 2 then 20 else 22) :=
    Nat.mod_lt _ (Nat.two_pow_pos _)
  unfold identLane
  dsimp only
  rw [putBits_of_sub hv, bitsOf_putBits_same, Nat.mod_eq_of_lt hv]

/-- R88: a serial that is complete is shown. -/
def identTaken (c : Machine.Core) (n : Nat) (x : Lane) : Machine.Core :=
  if x.serialKnown then
    ((c.setLane n x).setReg (LNK_LANE_SERIAL_LO.a n) (BitVec.ofNat 32 x.serial)).setReg
      (LNK_LANE_SERIAL_HI.a n) (BitVec.ofNat 32 (x.serial / 2 ^ 32))
  else c.setLane n x

theorem lane_identTaken {c : Machine.Core} {n : Nat} {x : Lane} : (identTaken c n x).lane n = x := by
  unfold identTaken
  split
  · rw [lane_setReg, lane_setReg, lane_setLane, if_pos rfl]
  · rw [lane_setLane, if_pos rfl]

theorem gives_identRecord (s : State) (l : Fin 128) (p : BitVec 24)
    (hon : s.core.laneState l.val = 1 ∨ s.core.laneState l.val = 2) (hpart : bitsOf p.toNat 22 2 < 3) :
    Gives (.identRecord l p) s fun t =>
      bitOf (t.lane l.val).ident (bitsOf p.toNat 22 2) = true ∧
      bitsOf (t.lane l.val).serial (22 * bitsOf p.toNat 22 2) (if bitsOf p.toNat 22 2 = 2 then 20 else 22) =
        bitsOf p.toNat 0 (if bitsOf p.toNat 22 2 = 2 then 20 else 22) := by
  have hskip : ¬ (bitsOf p.toNat 22 2 = 3 ∨ (s.core.laneState l.val ≠ 1 ∧ s.core.laneState l.val ≠ 2)) := by omega
  have hexec : exec (.identRecord l p) s = go (fun c _ =>
      identTaken c l.val (identLane (c.lane l.val) (bitsOf p.toNat 22 2)
        (bitsOf p.toNat 0 (if bitsOf p.toNat 22 2 = 2 then 20 else 22)))) s :=
    congrArg Host.Outcome.next (run_congr (if_neg hskip))
  refine gives_of_effect hexec ?_
  rw [lane_identTaken]
  exact ⟨bitOf_setBit _ _, serial_identLane⟩

theorem gives_auxMarkRecord (s : State) (l : Fin 128) (p : BitVec 24)
    (hon : s.core.laneState l.val = 1 ∨ s.core.laneState l.val = 2) :
    Gives (.auxMarkRecord l p) s fun t => (t.cellVal l.val).auxIdx = some (bitsOf p.toNat 21 3) := by
  have hskip : ¬ (s.core.laneState l.val ≠ 1 ∧ s.core.laneState l.val ≠ 2) := by omega
  have hexec : exec (.auxMarkRecord l p) s = go (fun c _ =>
      c.setCellVal l.val { c.cellVal l.val with auxIdx := some (bitsOf p.toNat 21 3) }) s :=
    congrArg Host.Outcome.next (run_congr (if_neg hskip))
  refine gives_of_effect hexec ?_
  exact congrArg CellVal.auxIdx (mapGet_mapSet.trans (if_pos rfl))

theorem gives_unknownRecord (s : State) (l : Fin 128) (type : BitVec 8) (htype : 7 ≤ type.toNat)
    (hon : s.core.laneState l.val = 1 ∨ s.core.laneState l.val = 2) :
    Gives (.unknownRecord l type) s fun t => t.flag (LNK_LANE_EVENT.UNKNOWN_RECORD l.val) = true := by
  have hexec : exec (.unknownRecord l type) s = go (fun c _ =>
      (c.laneError l.val 1).event (LNK_LANE_EVENT.UNKNOWN_RECORD l.val)) s :=
    congrArg Host.Outcome.next (run_congr (if_pos ⟨htype, hon⟩))
  exact gives_of_effect hexec (flag_event_same (by simp) rfl)

end Identity

/-! ### HEALTH (R88) -/
section Health
variable {c d : Machine.Core} {n code v : Nat}

/-- R88: a HEALTH value is kept by its code; the contactor, the hard latches and the role have fields of their own. -/
def HealthShown (n code v : Nat) (c : Machine.Core) : Prop :=
  (c.lane n).healthOf code = v ∧ (code = 1 → c.flag (LNK_LANE_STATUS.BYPASS_CLOSED n) = decide (v = 1)) ∧
  (code = 2 → c.getF (LNK_LANE_STATUS.HARD_LATCH n) = v % 2 ^ (LNK_LANE_STATUS.HARD_LATCH n).len) ∧
  (code = 9 → c.getF (LNK_LANE_STATUS.FAR_ROLE n) = v % 2 ^ (LNK_LANE_STATUS.FAR_ROLE n).len)

/-- R88: the value as the lane keeps it. -/
def healthKept (c : Machine.Core) (n code v : Nat) : Machine.Core :=
  c.modLane n fun x => { x with health := mapSet (fun _ => 0) x.health code v, seen := setBit x.seen code }

theorem healthOf_healthKept (h : (d.lane n).health = ((healthKept c n code v).lane n).health) :
    (d.lane n).healthOf code = v := by
  have hkept : ((healthKept c n code v).lane n).health = mapSet (fun _ => 0) (c.lane n).health code v := by
    unfold healthKept
    rw [lane_modLane, if_pos rfl]
  rw [Lane.healthOf, h, hkept]
  exact mapGet_mapSet.trans (if_pos rfl)

/-- The codes without a field. -/
theorem healthShown_of_health (h : (d.lane n).health = ((healthKept c n code v).lane n).health)
    (h1 : code ≠ 1) (h2 : code ≠ 2) (h9 : code ≠ 9) : HealthShown n code v d :=
  ⟨healthOf_healthKept h, fun e => absurd e h1, fun e => absurd e h2, fun e => absurd e h9⟩

theorem healthShown_closed (hd : Undisturbed (LNK_LANE_STATUS.BYPASS_CLOSED n)
    ((healthKept c n 1 v).setFlag (LNK_LANE_STATUS.BYPASS_CLOSED n) (v == 1)) d) : HealthShown n 1 v d := by
  refine ⟨healthOf_healthKept (hd.lane (g := Lane.health) fun _ => rfl), fun _ => ?_, by simp, by simp⟩
  have hflag : d.flag (LNK_LANE_STATUS.BYPASS_CLOSED n) = (v == 1) :=
    (congrArg (fun x => x == 1) hd.1).trans (flag_setFlag_same (by simp) rfl)
  rw [hflag]
  rfl

theorem healthShown_latch (hd : Undisturbed (LNK_LANE_STATUS.HARD_LATCH n)
    ((healthKept c n 2 v).setF (LNK_LANE_STATUS.HARD_LATCH n) v) d) : HealthShown n 2 v d :=
  ⟨healthOf_healthKept (hd.lane (g := Lane.health) fun _ => rfl), by simp,
    fun _ => hd.1.trans (getF_setF_same (by simp)), by simp⟩

theorem healthShown_role :
    HealthShown n 9 v ((healthKept c n 9 v).setF (LNK_LANE_STATUS.FAR_ROLE n) v) :=
  ⟨healthOf_healthKept (congrArg Lane.health (lane_setF _ _ _ _)), by simp, by simp, fun _ => getF_setF_same (by simp)⟩

theorem gives_healthRecord (s : State) (l : Fin 128) (p : BitVec 24)
    (hon : s.core.laneState l.val = 1 ∨ s.core.laneState l.val = 2 ∨ s.core.laneState l.val = 4) :
    Gives (.healthRecord l p) s (HealthShown l.val (bitsOf p.toNat 16 8) (bitsOf p.toNat 0 16)) := by
  have hskip : ¬ (s.core.laneState l.val ≠ 1 ∧ s.core.laneState l.val ≠ 2 ∧ s.core.laneState l.val ≠ 4) := by omega
  have counted {code v : Nat} : code ≠ 1 → code ≠ 2 → code ≠ 9 →
      HealthShown l.val code v ((healthKept (Laws.start s.core) l.val code v).laneError l.val v) :=
    healthShown_of_health (lane_laneError (g := Lane.health) (fun _ _ => rfl) fun _ _ => rfl)
  have timed {code v : Nat} : code ≠ 1 → code ≠ 2 → code ≠ 9 →
      HealthShown l.val code v ((healthKept (Laws.start s.core) l.val code v).latency l.val) :=
    healthShown_of_health (lane_latency (g := Lane.health) (fun _ _ => rfl) fun _ _ => rfl)
  have spared {f : Field} (hf : f.addr = LNK_LANE_STATUS.a l.val) : Spared f := spared_laneStatus l.isLt hf
  refine gives_of_effect (i := .healthRecord l p) (s := s) rfl ?_
  dsimp only
  rw [if_neg (show ¬ ((Laws.start s.core).laneState l.val ≠ 1 ∧ (Laws.start s.core).laneState l.val ≠ 2 ∧
    (Laws.start s.core).laneState l.val ≠ 4) from hskip)]
  generalize bitsOf p.toNat 16 8 = code
  generalize bitsOf p.toNat 0 16 = v
  split
  · refine healthShown_closed (c := Laws.start s.core) (undisturbed_ite ?_ (undisturbed_ite undisturbed_modCell .refl))
    exact undisturbed_contactorClosed (spared rfl) fun h => laneStatus_ne_hbStat h
  · refine healthShown_latch (c := Laws.start s.core) ?_
    split
    · exact undisturbed_ite (undisturbed_hardDone (spared rfl) fun h _ => laneStatus_ne_hbStat h) .refl
    · exact .refl
  · exact counted (by decide) (by decide) (by decide)
  · exact counted (by decide) (by decide) (by decide)
  · exact timed (by decide) (by decide) (by decide)
  · exact timed (by decide) (by decide) (by decide)
  · exact timed (by decide) (by decide) (by decide)
  · exact healthShown_role
  · refine healthShown_of_health (c := Laws.start s.core) ?_ (by decide) (by decide) (by decide)
    split <;> rfl
  · rename_i h1 h2 _ _ _ _ _ h9 _
    exact healthShown_of_health (c := Laws.start s.core) rfl h1 h2 h9

end Health

/-! ### The injector (R98, R99) -/
section Injector
variable {c : Machine.Core} {l v : Nat}

/-- The count of what the injector has done works on its lane and its status. -/
theorem reg_injSettle {a : Nat} (h : a ≠ LNK_LANE_INJ_STATUS.a l) : (c.injSettle l).reg a = c.reg a :=
  (within_injSettle (k := errorTables) (W := fun x => x == LNK_LANE_INJ_STATUS.a l) rfl (by simp) :
    Within _ _ c _).2 a (by simpa using h)

theorem injectable_injSettle : (c.injSettle l).injectable = c.injectable := by
  have settled : Within errorTables (fun x => x == LNK_LANE_INJ_STATUS.a l) c (c.injSettle l) :=
    within_injSettle rfl (by simp)
  have hmode : (c.injSettle l).mode = c.mode := (congrArg Machine.Core.mode settled.1 :)
  have hlevel : (c.injSettle l).getF SEC_STATUS.DEBUG_LEVEL = c.getF SEC_STATUS.DEBUG_LEVEL := by
    refine getF_of_reg (reg_injSettle ?_)
    show 0x40100000 ≠ 0x40020028 + 0x80 * l
    omega
  unfold Machine.Core.injectable
  rw [hmode, hlevel]

/-- R98: INJ_CFG as it is written. -/
def injWritten (c : Machine.Core) (l v : Nat) : Machine.Core :=
  ((c.setReg (LNK_LANE_INJ_CFG.a l) (BitVec.ofNat 32 (v % 2 ^ 28))).setF (LNK_LANE_INJ_STATUS.DENIED l) 0).setFlag
    (LNK_LANE_INJ_STATUS.ACTIVE l) (v % 4 != 0)

theorem flag_of_reg {d : Machine.Core} {f : Field} (h : d.reg f.addr = c.reg f.addr) : d.flag f = c.flag f :=
  flag_of_getF (getF_of_reg h)

theorem active_injWritten : (injWritten c l v).flag (LNK_LANE_INJ_STATUS.ACTIVE l) = decide (v % 4 ≠ 0) := by
  unfold injWritten
  rw [flag_setFlag_same (by simp) rfl]
  by_cases h : v % 4 = 0 <;> simp [h]

theorem denied_injWritten : (injWritten c l v).flag (LNK_LANE_INJ_STATUS.DENIED l) = false := by
  refine flag_of_getF (v := 0) ?_
  unfold injWritten Machine.Core.setFlag
  rw [getF_setF_apart (g := LNK_LANE_INJ_STATUS.DENIED l) (f := LNK_LANE_INJ_STATUS.ACTIVE l) (by simp) rfl (by simp),
    getF_setF_same (by simp)]
  rfl

/-- R98: a write that is permitted; a lane that is to be injected has no trial. -/
theorem injWrite_of_permitted (hinj : c.injectable = true) (hbit : bitsOf v 3 4 < 10) : ∃ g : Lane → Lane,
    c.injWrite l v = if v % 4 = 0 then (injWritten (c.injSettle l) l v).modLane l g
      else ((injWritten (c.injSettle l) l v).modLane l g).eqAbandon l := by
  have hgo : ¬ ((!(c.injSettle l).injectable) = true ∨ 10 ≤ bitsOf v 3 4) := by
    rw [injectable_injSettle, hinj]
    simp [hbit]
  exact ⟨_, if_neg hgo⟩

theorem reg_injWrite_of_permitted {a : Nat} (hinj : c.injectable = true) (hbit : bitsOf v 3 4 < 10)
    (ha : a ≠ LNK_LANE_EQ.a l) : (c.injWrite l v).reg a = (injWritten (c.injSettle l) l v).reg a := by
  obtain ⟨g, hwrite⟩ := injWrite_of_permitted (l := l) hinj hbit
  rw [hwrite]
  split
  · rw [reg_modLane]
  · rw [reg_eqAbandon ha, reg_modLane]

theorem gives_injWrite_permitted (s : State) (l : Fin 128) (v : BitVec 32) (hinj : s.core.injectable = true)
    (hbit : bitsOf v.toNat 3 4 < 10) :
    Gives (.lnkInjCfgWrite l v) s fun t =>
      t.reg (LNK_LANE_INJ_CFG.a l.val) = BitVec.ofNat 32 (v.toNat % 2 ^ 28) ∧
      t.flag (LNK_LANE_INJ_STATUS.ACTIVE l.val) = decide (v.toNat % 4 ≠ 0) ∧
      t.flag (LNK_LANE_INJ_STATUS.DENIED l.val) = false := by
  have written {a : Nat} (ha : a ≠ LNK_LANE_EQ.a l.val) := reg_injWrite_of_permitted (c := Laws.start s.core) hinj hbit ha
  refine gives_of_effect (e := fun c _ => c.injWrite l.val v.toNat) rfl ⟨?_, ?_, ?_⟩
  · rw [written (by simp)]
    unfold injWritten
    rw [reg_setFlag_other (by simp), reg_setF_other (by simp), reg_setReg_same]
  · exact (flag_of_reg (written (by simp))).trans active_injWritten
  · exact (flag_of_reg (written (by simp))).trans denied_injWritten

theorem gives_injWrite_denied (s : State) (l : Fin 128) (v : BitVec 32)
    (hdenied : s.core.injectable = false ∨ 10 ≤ bitsOf v.toNat 3 4) :
    Gives (.lnkInjCfgWrite l v) s fun t =>
      t.flag (LNK_LANE_INJ_STATUS.DENIED l.val) = true ∧
      t.reg (LNK_LANE_INJ_CFG.a l.val) = s.core.reg (LNK_LANE_INJ_CFG.a l.val) := by
  have hstop : (!((Laws.start s.core).injSettle l.val).injectable) = true ∨ 10 ≤ bitsOf v.toNat 3 4 := by
    rw [injectable_injSettle]
    exact hdenied.imp (fun h => by rw [Bool.not_eq_true']; exact h) id
  have hexec : (Laws.start s.core).injWrite l.val v.toNat =
      ((Laws.start s.core).injSettle l.val).setF (LNK_LANE_INJ_STATUS.DENIED l.val) 1 := if_pos hstop
  refine gives_of_effect (e := fun c _ => c.injWrite l.val v.toNat) rfl ?_
  rw [hexec]
  refine ⟨flag_of_getF (getF_setF_same (by simp)), ?_⟩
  rw [reg_setF_other (by simp)]
  exact reg_injSettle (by simp)

end Injector
end Sys2Proof.Proofs
end

