-- ==== Sys2Proof/Proofs/LinkTrips.lean ====
section
/-! The HARD_TRIP and ECHO records of a lane (R115, R121, R133, R364), and with them what all frames and records leave. -/
namespace Sys2Proof.Proofs
open Sys2Proof.Machine Sys2Proof.Claims Sys2Proof.Laws

/-! ### Trips of a record (R121, R133) -/
section Trips
variable {f : Field} {c : Machine.Core} {n h mask kind real t : Nat} {left right : Hb → Hb}

theorem undisturbed_trip (hf : Spared f) (hlast : f.addr ≠ PRT_LAST_TRIP.a) (hlegs : OffLegs f (h / 2)) :
    Undisturbed f c (c.trip h mask kind t) :=
  (undisturbed_recordTrip hf hlast).trans (undisturbed_trip_of_record hf hlegs)

theorem undisturbed_tripBoth (hf : Spared f) (hlast : f.addr ≠ PRT_LAST_TRIP.a) (hlegs : OffLegs f n) :
    Undisturbed f c (c.tripBoth n mask t) :=
  (((undisturbed_recordTrip hf hlast).trans (undisturbed_tripLeg_of_record hf (hlegs _ (by omega)))).trans
    (undisturbed_recordTrip hf hlast)).trans (undisturbed_tripBoth_of_record hf hlegs)

/-- R121, R133: the hard trip of the switches `real` of a cell, whose legs take what their latches say. -/
def hardTrips (c : Machine.Core) (n real t : Nat) (left right : Hb → Hb) : Machine.Core :=
  let d := c.event PRT_EVENT.HARD_TRIP
  if real % 4 = 0 then (d.modHb (2 * n + 1) right).trip (2 * n + 1) real 1 t
  else if real / 4 = 0 then (d.modHb (2 * n) left).trip (2 * n) real 1 t
  else ((d.modHb (2 * n) left).modHb (2 * n + 1) right).tripBoth n real t

/-- A hard trip leaves the fields that its record does not name, once its event stands. -/
theorem undisturbed_hardTrips_of_event (hf : Spared f) (hlast : f.addr ≠ PRT_LAST_TRIP.a) (hlegs : OffLegs f n) :
    Undisturbed f (c.event PRT_EVENT.HARD_TRIP) (hardTrips c n real t left right) := by
  have hleft : 2 * n / 2 = n := by omega
  have hright : (2 * n + 1) / 2 = n := by omega
  unfold hardTrips
  exact undisturbed_ite (undisturbed_modHb.trans (undisturbed_trip hf hlast (hright.symm ▸ hlegs)))
    (undisturbed_ite (undisturbed_modHb.trans (undisturbed_trip hf hlast (hleft.symm ▸ hlegs)))
      ((undisturbed_modHb.trans undisturbed_modHb).trans (undisturbed_tripBoth hf hlast hlegs)))

theorem getF_event_hardTrips (hn : n < 128) : (hardTrips c n real t left right).getF PRT_EVENT.HARD_TRIP = 1 :=
  (undisturbed_hardTrips_of_event spared_hardTrip (by decide) (offLegs_of_high (by decide) hn)).1.trans
    (getF_event_same (by decide) rfl)

/-- R130: the last trip is a hard one. -/
theorem lastKind_hardTrips (hn : n < 128) : (hardTrips c n real t left right).getF PRT_LAST_TRIP.KIND = 1 := by
  have hlegs : ∀ k, k < 128 → OffLegs PRT_LAST_TRIP.KIND k := fun _ => offLegs_of_high (by decide)
  have one {d : Machine.Core} {h : Nat} (hh : h / 2 < 128) : (d.trip h real 1 t).getF PRT_LAST_TRIP.KIND = 1 :=
    (undisturbed_trip_of_record spared_lastKind (hlegs _ hh)).1.trans recordTrip_kind
  unfold hardTrips
  dsimp only
  split
  · exact one (by omega)
  split
  · exact one (by omega)
  · exact (undisturbed_tripBoth_of_record spared_lastKind (hlegs _ hn)).1.trans recordTrip_kind

/-- R121, R150: the switches of a record that are not under test. -/
def realSwitches (c : Machine.Core) (n sws : Nat) : Nat :=
  sumN ([0, 1, 2, 3].map fun i => if bitOf sws i && !c.underTest n i then 2 ^ i else 0)

theorem realSwitches_ne_zero {sws i : Nat} (hi : i < 4) (hbit : bitOf sws i = true)
    (htest : c.underTest n i = false) : realSwitches c n sws ≠ 0 := by
  have hterm : (if bitOf sws i && !c.underTest n i then 2 ^ i else 0) = 2 ^ i := by rw [hbit, htest]; rfl
  have hpos := Nat.two_pow_pos i
  have hsum : ∀ a b d e : Nat, sumN [a, b, d, e] = a + b + d + e := fun a b d e => by simp [sumN]
  unfold realSwitches
  rw [List.map_cons, List.map_cons, List.map_cons, List.map_cons, List.map_nil, hsum]
  interval_cases i <;> omega

variable {s : State} {l : Fin 128} {p : BitVec 24} {u : Nat}

/-- R121: a HARD_TRIP record shows its latches, ends the test it answers (R150), and trips the other switches it names. -/
theorem exec_hardTripRecord (hon : s.core.laneState l.val ≠ 0) : ∃ (d : Machine.Core) (left right : Hb → Hb),
    (∀ f, Spared f → (∀ h, f.addr ≠ GDP_HB_STAT.a h) → Undisturbed f
      (((Laws.start s.core).event (LNK_LANE_EVENT.HARD_TRIP l.val)).setF (LNK_LANE_STATUS.HARD_LATCH l.val)
        (bitsOf p.toNat 16 4)) d) ∧
    exec (.hardTripRecord l p u) s = go (fun c _ =>
      if realSwitches c l.val (bitsOf p.toNat 20 4) = 0 then d
      else hardTrips d l.val (realSwitches c l.val (bitsOf p.toNat 20 4)) (u - 8 * bitsOf p.toNat 0 16) left right) s := by
  refine ⟨_, _, _, ?_, congrArg Host.Outcome.next (run_congr (if_neg hon))⟩
  intro f hf hlegs
  split
  · exact undisturbed_ite (undisturbed_testTripped hf (hlegs _)) .refl
  · exact .refl

/-- A field of a lane's status or event keeps its value in what a HARD_TRIP record does after it. -/
theorem undisturbed_hardTripEffect {d : Machine.Core} (hf : Spared f) (hlow : f.addr < 0x40030000)
    (hlegs : ∀ h, f.addr ≠ GDP_HB_STAT.a h) (hd : Undisturbed f c d) :
    Undisturbed f c (if real = 0 then d else hardTrips d n real t left right) := by
  have hevent : Apart f PRT_EVENT.HARD_TRIP := apart_of_ne (Nat.ne_of_lt (Nat.lt_trans hlow (by decide)))
  have hlast : f.addr ≠ PRT_LAST_TRIP.a := Nat.ne_of_lt (Nat.lt_trans hlow (by decide))
  exact undisturbed_ite hd ((hd.trans (undisturbed_event hevent)).trans
    (undisturbed_hardTrips_of_event hf hlast fun h _ => hlegs h))

theorem gives_hardTripRecord (s : State) (l : Fin 128) (p : BitVec 24) (u : Nat) (hon : s.core.laneState l.val ≠ 0) :
    Gives (.hardTripRecord l p u) s fun t =>
      t.flag (LNK_LANE_EVENT.HARD_TRIP l.val) = true ∧
      t.getF (LNK_LANE_STATUS.HARD_LATCH l.val) = bitsOf p.toNat 16 4 := by
  obtain ⟨d, left, right, hshown, hexec⟩ := exec_hardTripRecord (p := p) (u := u) hon
  have hevent : Spared (LNK_LANE_EVENT.HARD_TRIP l.val) := spared_laneEvent l.isLt rfl (by simp)
  have hstatus : Spared (LNK_LANE_STATUS.HARD_LATCH l.val) := spared_laneStatus l.isLt rfl
  have helegs : ∀ h, (LNK_LANE_EVENT.HARD_TRIP l.val).addr ≠ GDP_HB_STAT.a h := laneEvent_ne_hbStat
  have hslegs : ∀ h, (LNK_LANE_STATUS.HARD_LATCH l.val).addr ≠ GDP_HB_STAT.a h := laneStatus_ne_hbStat
  have helow : 0x40020008 + 0x80 * l.val < 0x40030000 := by omega
  have hslow : 0x40020004 + 0x80 * l.val < 0x40030000 := by omega
  refine gives_of_effect hexec ⟨flag_of_getF (v := 1) ?_, ?_⟩
  · refine (undisturbed_hardTripEffect hevent helow helegs (hshown _ hevent helegs)).1.trans ?_
    rw [getF_setF_other (by simp)]
    exact getF_event_same (by simp) rfl
  · refine (undisturbed_hardTripEffect hstatus hslow hslegs (hshown _ hstatus hslegs)).1.trans ?_
    rw [getF_setF_same (by simp)]
    exact Nat.mod_mod _ _

theorem gives_hardTripRecord_trip (s : State) (l : Fin 128) (p : BitVec 24) (u i : Nat)
    (hon : s.core.laneState l.val ≠ 0)
    (hnamed : i < 4 ∧ bitOf (bitsOf p.toNat 20 4) i = true ∧ s.core.underTest l.val i = false) :
    Gives (.hardTripRecord l p u) s fun t => t.flag PRT_EVENT.HARD_TRIP = true ∧ t.getF PRT_LAST_TRIP.KIND = 1 := by
  obtain ⟨hi, hbit, htest⟩ := hnamed
  obtain ⟨d, left, right, -, hexec⟩ := exec_hardTripRecord (p := p) (u := u) hon
  have hreal : realSwitches (Laws.start s.core) l.val (bitsOf p.toNat 20 4) ≠ 0 :=
    realSwitches_ne_zero hi hbit htest
  refine gives_of_effect hexec ?_
  rw [if_neg hreal]
  exact ⟨flag_of_getF (getF_event_hardTrips l.isLt), lastKind_hardTrips l.isLt⟩

end Trips

/-! ### ECHO (R115, R364) -/
section Echoes

theorem gives_echoRecord_saturated (s : State) (l : Fin 128) (p : BitVec 24) (hvalid : s.core.laneState l.val = 2)
    (hfull : bitsOf p.toNat 11 10 = 1023 ∨ bitsOf p.toNat 0 11 = 2047) :
    Gives (.echoRecord l p) s fun t => t.flag GDP_EVENT.ECHO_SATURATED = true := by
  have hexec : exec (.echoRecord l p) s = go (fun c _ => c.event GDP_EVENT.ECHO_SATURATED) s :=
    congrArg Host.Outcome.next (run_congr ((if_neg (not_not.mpr hvalid)).trans (if_pos hfull)))
  exact gives_of_effect hexec (flag_event_same (by decide) rfl)

/-- R364: an echo midpoint enters the conduction delays of the left or of the right leg. -/
def echoAcc (a : LedAcc) (leg e : Nat) : LedAcc :=
  if leg = 0 then { a with cdL := lastN 16 (a.cdL ++ [e]) } else { a with cdR := lastN 16 (a.cdR ++ [e]) }

/-- The trim of a leg is no matter of the ledger (R116). -/
theorem exec_echoRecord {s : State} {l : Fin 128} {p : BitVec 24} (hvalid : s.core.laneState l.val = 2)
    (hfits : bitsOf p.toNat 11 10 ≠ 1023 ∧ bitsOf p.toNat 0 11 ≠ 2047) :
    ∃ (d : Machine.Core) (left right : Nat), d.ledAcc l.val = s.core.ledAcc l.val ∧
    exec (.echoRecord l p) s = go (fun _ _ => ((d.setLedAcc l.val (echoAcc (d.ledAcc l.val) (bitsOf p.toNat 22 2 / 2)
      (2 * bitsOf p.toNat 11 10 + bitsOf p.toNat 0 11))).setF (LGR_C_CD.LEFT l.val) left).setF
        (LGR_C_CD.RIGHT l.val) right) s := by
  refine ⟨_, _, _, ?_, congrArg Host.Outcome.next (run_congr ((if_neg (not_not.mpr hvalid)).trans
    (if_neg (not_or.mpr hfits))))⟩
  split <;> rfl

/-- The higher bit of the switch is its leg. -/
theorem leg_of_bit {w : Nat} : bitsOf w 22 2 / 2 = 0 ↔ bitOf w 23 = false := by
  unfold bitsOf bitOf
  rw [beq_eq_false_iff_ne]
  omega

theorem gives_echoRecord (s : State) (l : Fin 128) (p : BitVec 24) (hvalid : s.core.laneState l.val = 2)
    (hfits : bitsOf p.toNat 11 10 ≠ 1023 ∧ bitsOf p.toNat 0 11 ≠ 2047) :
    Gives (.echoRecord l p) s fun t =>
      (if bitOf p.toNat 23 then (t.ledAcc l.val).cdR else (t.ledAcc l.val).cdL) =
        lastN 16 ((if bitOf p.toNat 23 then (s.core.ledAcc l.val).cdR else (s.core.ledAcc l.val).cdL) ++
          [2 * bitsOf p.toNat 11 10 + bitsOf p.toNat 0 11]) := by
  obtain ⟨d, left, right, hd, hexec⟩ := exec_echoRecord hvalid hfits
  have hacc {a b : Nat} {x : LedAcc} : (((d.setLedAcc l.val x).setF (LGR_C_CD.LEFT l.val) a).setF
      (LGR_C_CD.RIGHT l.val) b).ledAcc l.val = x := mapGet_mapSet.trans (if_pos rfl)
  refine gives_of_effect hexec ?_
  rw [hacc, hd]
  unfold echoAcc
  cases hbit : bitOf p.toNat 23 with
  | false =>
    rw [if_pos (leg_of_bit.mpr hbit)]
    rfl
  | true =>
    have hleg : ¬ bitsOf p.toNat 22 2 / 2 = 0 := fun h => by simp [leg_of_bit.mp h] at hbit
    rw [if_neg hleg]
    rfl

end Echoes

/-- Settles O3: a record sets its fields first, and what protection, the self-test and the latency do on it leaves them; the two
clauses on frames are the counts of `frameRuns`. -/
theorem linkRecordEvents : Obligations.LinkRecordEvents := by
  unfold Obligations.LinkRecordEvents
  refine ⟨?_, ?_, gives_identRecord, gives_healthRecord, gives_unknownRecord, gives_auxMarkRecord,
    gives_injWrite_permitted, gives_injWrite_denied, gives_hardTripRecord, gives_hardTripRecord_trip,
    gives_echoRecord_saturated, gives_echoRecord⟩
  · intro s l slot0 chars rtt hon
    obtain ⟨t, ht, hruns⟩ := gives_upstreamFrame (slot0 := some slot0) (chars := chars) (rtt := rtt) l hon
    obtain ⟨hcomma, hmiss, -, hrtts⟩ := frameRuns_eq_iff.mp hruns
    exact ⟨t, ht, hcomma, hmiss, hrtts⟩
  · intro s l rtt hon
    obtain ⟨t, ht, hruns⟩ := gives_upstreamFrame (slot0 := none) (chars := []) (rtt := rtt) l hon
    rw [show Option.toList none ++ [] = ([] : List (BitVec 10)) from rfl, inject_chars_nil] at hruns
    obtain ⟨hcomma, hmiss, hcrc, hrtts⟩ := frameRuns_eq_iff.mp hruns
    exact ⟨t, ht, hcomma, hmiss, hcrc, hrtts⟩

end Sys2Proof.Proofs
end

