-- ==== Sys2Proof/Proofs/Configuration.lean ====
section
/-! What an unsigned STRING_MAP_SET that passes its checks does (R38 to R41), and a state in which the map it applies takes
READY from its mailbox again. -/
namespace Sys2Proof.Proofs
open Sys2Proof.Machine Sys2Proof.Claims Sys2Proof.Laws

/-! ### An accepted STRING_MAP_SET -/
section Accepted
variable {s : State} {m : Msg}

/-- The command of a message without a trailer. -/
def unsignedCmd (ref : CmdRef) (body : List Byte) : Cmd :=
  ⟨ref, body, false, u8 [] 4, u8 [] 5, u64 [] 8, u32 [] 20, []⟩

/-- R360, R41: the record is stored, ACCEPTED is sent, and the map becomes the one in force. -/
def acceptMap (c : Machine.Core) (ref : CmdRef) (body : List Byte) : Machine.Core :=
  ((c.storeCfg (unsignedCmd ref body)).replyW ref stACCEPTED []).applyMap body (some ref)

/-- The checks of R340 let an unsigned message of the right length pass in STANDBY. -/
theorem check_stringMapSpec {c : Machine.Core} {ref : CmdRef} {body : List Byte} (hflags : ref.flags = 0)
    (hmode : c.mode.code = .standby) (hlen : body.length = 2176) :
    c.check stringMapSpec ref body = .go (unsignedCmd ref body) :=
  check_go hflags (by omega) (.inl rfl) (.inl rfl) (by rw [hmode]; rfl) (fun hoff => by simp [hmode] at hoff) (by decide)
    (by rw [hlen]; rfl) (.inl rfl)

theorem exec_stringMapSet_accepted (hfree : Free s.core m) (hflags : m.flags.toNat = 0)
    (hmode : s.core.mode.code = .standby) (hlen : m.body.length = 2176) (hidle : s.core.map.applying = none)
    (hnv : s.core.pwr.nvBad = false) (hchecks : mapChecks m.body = none) :
    exec (.stringMapSet m) s = go (fun c _ => acceptMap (c.take 0x0201 m).1 (c.take 0x0201 m).2 m.body) s := by
  obtain ⟨hstate, hserved, hnew, -⟩ := hfree
  refine congrArg Host.Outcome.next (run_congr ?_)
  refine (command_go (c := Laws.start s.core) (sp := stringMapSpec) hstate hserved hnew
    (check_stringMapSpec hflags hmode hlen)).trans ?_
  have hbusy : ¬ (((Laws.start s.core).take stringMapSpec.op m).1.map.applying.isSome = true) := by
    rw [show ((Laws.start s.core).take stringMapSpec.op m).1.map.applying = none from hidle]
    decide
  have hfault : ¬ (((Laws.start s.core).take stringMapSpec.op m).1.pwr.nvBad = true) := by
    rw [show ((Laws.start s.core).take stringMapSpec.op m).1.pwr.nvBad = false from hnv]
    decide
  rw [if_neg hbusy]
  simp only [unsignedCmd, hchecks]
  exact if_neg hfault

theorem mapOfPayload_pad (a : List Byte) (n : Nat) : mapOfPayload (a ++ zeros n) = mapOfPayload a := by
  simp only [mapOfPayload, u8_pad, u32_pad, u64_pad, i32_pad]

theorem applyMap_pad (c : Machine.Core) (a : List Byte) (n : Nat) (ref : Option CmdRef) :
    c.applyMap (a ++ zeros n) ref = c.applyMap a ref := by
  simp only [Machine.Core.applyMap, mapOfPayload_pad, u32_pad]

end Accepted

/-! ### A leg that no cell has

R131 holds the left or the right leg of a cell retired by a trip: `legHold` is 0, 1 or 2. The states of the statement may
hold any number there, and the identity check that the map's application runs on a VALID lane (R41) goes on with the leg it
names. The gate status of leg 32512 is the word 0x400C000C, which is MBX_REPLY_READY. -/

/-- A map of three strings with one cell each, without the zeros after it. -/
def threeCells : List Byte :=
  le 4 7 ++ [3, 0, 0, 0] ++ le 4 48000 ++ le 4 40000 ++ le 4 54000 ++ le 4 100000 ++ le 4 40000 ++ zeros 4 ++
    [1, 1, 1, 1] ++ zeros 12 ++ [2, 1, 1, 1] ++ zeros 12 ++ [3, 1, 1, 1] ++ zeros 60 ++
    [1, 0, 0, 0, 9] ++ zeros 11 ++ [1, 1, 0, 0, 8] ++ zeros 11 ++ [1, 2, 0, 0, 7]

/-- STRING_MAP_SET on mailbox 1. -/
def mapMessage : Msg := ⟨1, 0, 7, 9, threeCells ++ zeros 2011⟩

/-- The device in STANDBY with cell 0 a string member on a VALID lane, its serial on the char list for a reason other than its
lane, and its held leg numbered 32512; that leg is in 101 and has a change to 100 pending. -/
def strayLeg : State :=
  let c := Machine.Core.reset.setF (LNK_LANE_STATUS.STATE 0) 2
  let d := (c.setCell 0 { Cell.reset with legHold := 32513 }).setHb 32512 { Hb.reset with tl := [(0, 5), (1000, 4)] }
  ⟨[], [], { d with
    mode := { d.mode with code := .standby }
    map := { d.map with cells := [(0, ⟨1, 0, 0, 9⟩)] }
    lgr := { d.lgr with chars := [⟨2, 0, 0, 0, 0, 0, []⟩] } }⟩

theorem mapChecks_mapMessage : mapChecks mapMessage.body = none := by
  rw [mapMessage, mapChecks_pad]
  decide +kernel

/-- The request for 111 drops the pending change of leg 32512 (R108), and CODE of the leg takes the 101 that is left: READY of
mailbox 1 reads 0. -/
theorem stringMapSet_strayLeg_not_ready :
    ∃ t, exec (.stringMapSet mapMessage) strayLeg = .next t ∧ t.core.getBit MBX_REPLY_READY.READY 1 = false := by
  have hexec := exec_stringMapSet_accepted (s := strayLeg) (m := mapMessage) (by decide +kernel) rfl rfl (by decide +kernel)
    rfl rfl mapChecks_mapMessage
  refine ⟨_, hexec, ?_⟩
  rw [run_core, acceptMap, mapMessage, applyMap_pad]
  decide +kernel

/-- Refutes O34: the map that STRING_MAP_SET applies in `strayLeg` sends the leg that `legHold` names to 111, and CODE of that
leg lies on the READY bit of the message's mailbox, which the last clause says is set. -/
theorem not_setConfiguration : ¬ Obligations.SetConfiguration := by
  unfold Obligations.SetConfiguration
  rintro ⟨-, -, -, -, -, -, -, -, -, -, -, -, -, -, -, -, -, -, -, -, hmap⟩
  obtain ⟨t, ht, -, -, -, ⟨-, -, hready⟩, -⟩ := hmap strayLeg mapMessage mapMessage.body (by decide +kernel)
    (by decide +kernel) ⟨rfl, mapChecks_mapMessage⟩
  obtain ⟨u, hu, hlost⟩ := stringMapSet_strayLeg_not_ready
  obtain rfl : t = u := Host.Outcome.next.inj (ht.symm.trans hu)
  exact absurd (hlost.symm.trans hready) (by decide)

end Sys2Proof.Proofs
end

