-- ==== Sys2Proof/Proofs/IslandEvents.lean ====
section
/-! A step of the bleed cycle that interrupts the background of unit D (R148, R298, R301), and an entry to SAFE that ends the
transition of a command whose mailbox the device does not have (R54, R136). -/
namespace Sys2Proof.Proofs
open Sys2Proof.Machine Sys2Proof.Claims Sys2Proof.Laws

/-! ### The restart record of unit D -/

/-- The bleed conversions are due while a background conversion of unit D runs. -/
def bleedOverBackground : State :=
  let c := (Machine.Core.reset.setF SAF_STATUS.BLEED_DRV 1).setUnit 3 { SarUnit.reset with phase := 2 }
  ⟨[], [], { c with now := 5000000 }⟩

set_option maxRecDepth 100000 in
/-- R297, R298: the interrupted entry restarts with a record, whose channel code is 127. -/
theorem bleedConversion_records_restart :
    ∃ t, exec (.bleedConversion 0 0) bleedOverBackground = .next t ∧ bitsOf (t.core.reg (CNV_U_LAST.a 3)).toNat 16 7 = 127 :=
  ⟨_, rfl, rfl⟩

/-- Refutes O43: in `bleedOverBackground` the conversions of the bleed cycle interrupt the background of unit D (R301), and
the restart record of its entry (R298) enters CNV_U_LAST of the unit, which the frame of BLEED_CONVERSION says is as before. -/
theorem not_systemEventFrames : ¬ Obligations.SystemEventFrames := by
  unfold Obligations.SystemEventFrames
  rintro ⟨-, -, hbleed, -⟩
  obtain ⟨t, ht, -, -, hregs, -⟩ := hbleed 0 0 bleedOverBackground
  obtain ⟨u, hu, hrecord⟩ := bleedConversion_records_restart
  obtain rfl : t = u := Host.Outcome.next.inj (ht.symm.trans hu)
  rw [hregs (CNV_U_LAST.a 3) (by decide)] at hrecord
  exact absurd hrecord (by decide)

/-! ### The mailbox of a pending transition -/

/-- A MODE_SET whose mailbox, by its number, has its assignment at 0x400C0040 + 8 · 0xBFF8, which is SAF_STATUS. -/
def strayModeSet : CmdRef := ⟨0xBFF8, 0x0301, 0, 0, 0, 0, 0, 0⟩

/-- The device in HOLD with a request of the safety island and a transition to OPEN pending. The device has 16 mailboxes, but
`CmdRef.mb` is any number and the statement is about every state: the transition is of `strayModeSet`, and an assignment to
PORT 0 waits for its mailbox (R341). -/
def requestWithStrayMode : State :=
  let c := Machine.Core.reset.setBox strayModeSet.mb { Mbox.reset with newCfg := some (0, 0, 0) }
  ⟨[], [], { c with
    mode := { c.mode with code := .hold, pend := some ⟨.open_, 0, 0, 0, some strayModeSet, 0, false, false⟩ }
    saf := { c.saf with req := [.crash] } }⟩

set_option exponentiation.threshold 131072 in
set_option maxRecDepth 100000 in
/-- R54, R341: the transition ends with FAULT_ACTIVE, its mailbox becomes FREE and takes its assignment, and SAF_STATUS.FORCE
reads 0 again. -/
theorem safeRequest_strayMode_clears_force :
    ∃ t, exec .safeRequest requestWithStrayMode = .next t ∧ t.core.getF SAF_STATUS.FORCE = 0 :=
  ⟨_, rfl, rfl⟩

/-- Refutes O12: in `requestWithStrayMode` the safety island asserts a FORCE line and enters SAFE (R136); the reply to the
transition that this ends (R54) frees its mailbox, and the assignment taken then clears SAF_STATUS.FORCE, which the first clause
says is not 0. -/
theorem not_safetyIslandEvents : ¬ Obligations.SafetyIslandEvents := by
  unfold Obligations.SafetyIslandEvents
  rintro ⟨hrequest, -⟩
  obtain ⟨t, ht, -, -, -, hforce⟩ := hrequest requestWithStrayMode (by decide)
  obtain ⟨u, hu, hclear⟩ := safeRequest_strayMode_clears_force
  obtain rfl : t = u := Host.Outcome.next.inj (ht.symm.trans hu)
  exact hforce hclear

end Sys2Proof.Proofs
end

