-- ==== Sys2Proof/Proofs/SoftTrips.lean ====
section
/-! What stands once a soft trip is decided (R127): its event, its alarm and the hold of its leg, through the
retirement of its cell (R131, R133) and the escalation to its string (R134). -/
namespace Sys2Proof.Proofs
open Sys2Proof.Machine Sys2Proof.Claims Sys2Proof.Laws

/-! ### What stands -/

/-- SOFT_TRIP reads as before, no entry of its alarm is gone or changed, and every leg that was held is held. -/
def Standing (c d : Machine.Core) : Prop :=
  d.getF PRT_EVENT.SOFT_TRIP = c.getF PRT_EVENT.SOFT_TRIP ∧
  (∀ a ∈ c.tlm.alarms, a.name = .softTrip → a ∈ d.tlm.alarms) ∧
  ∀ h, (c.hb h).held = true → (d.hb h).held = true

section Standing
variable {c d e : Machine.Core} {g : Field} {n v : Nat}

theorem Standing.refl : Standing c c := ⟨rfl, fun _ ha _ => ha, fun _ hh => hh⟩

theorem Standing.trans (h : Standing c d) (k : Standing d e) : Standing c e :=
  ⟨k.1.trans h.1, fun a ha hn => k.2.1 a (h.2.1 a ha hn) hn, fun j hj => k.2.2 j (h.2.2 j hj)⟩

theorem Standing.held (h : Standing c d) : (c.hb n).held = true → (d.hb n).held = true := h.2.2 n

theorem Standing.hasAlarm {inst : Nat} {data : List Nat} (h : Standing c d) (ha : HasAlarm c .softTrip inst data) :
    HasAlarm d .softTrip inst data := by
  obtain ⟨a, hmem, hn, hrest⟩ := ha
  exact ⟨a, h.2.1 a hmem hn, hn, hrest⟩

theorem Standing.flag (h : Standing c d) : d.flag PRT_EVENT.SOFT_TRIP = c.flag PRT_EVENT.SOFT_TRIP :=
  congrArg (· == 1) h.1

theorem standing_of_event (he : d.getF PRT_EVENT.SOFT_TRIP = c.getF PRT_EVENT.SOFT_TRIP)
    (ht : d.tlm.alarms = c.tlm.alarms) (hh : d.hbs = c.hbs) : Standing c d :=
  ⟨he, fun _ ha _ => ht ▸ ha, fun k hk => (congrArg (fun l => (mapGet (fun _ => Hb.reset) l k).held) hh).trans hk⟩

/-- An update of a table other than the half-bridges and the alarms. -/
theorem standing_same (hr : d.regs = c.regs) (ht : d.tlm.alarms = c.tlm.alarms) (hh : d.hbs = c.hbs) : Standing c d :=
  standing_of_event (congrArg (fun r => bitsOf (mapGet regReset r PRT_EVENT.a).toNat 0 1) hr) ht hh

theorem standing_setReg {a : Nat} {w : Word} (h : PRT_EVENT.a ≠ a) : Standing c (c.setReg a w) :=
  standing_of_event (getF_of_reg (reg_setReg_other h)) rfl rfl

theorem standing_setF (h : Apart PRT_EVENT.SOFT_TRIP g) : Standing c (c.setF g v) := by
  refine standing_of_event ?_ rfl rfl
  by_cases ha : PRT_EVENT.SOFT_TRIP.addr = g.addr
  · exact getF_setF_apart (h ha).2 ha (h ha).1
  · exact getF_setF_other ha

theorem standing_event (h : Apart PRT_EVENT.SOFT_TRIP g) : Standing c (c.event g) :=
  (standing_setF (v := 1) h).trans (standing_same rfl rfl rfl)

theorem standing_bump (h : Apart PRT_EVENT.SOFT_TRIP g) : Standing c (c.bump g v) := standing_setF h

theorem standing_modCell {x : Cell → Cell} : Standing c (c.modCell n x) := standing_same rfl rfl rfl

theorem standing_setLane {x : Lane} : Standing c (c.setLane n x) := standing_same rfl rfl rfl

theorem standing_setXb {x : XBlank} : Standing c (c.setXb n x) := standing_same rfl rfl rfl

theorem standing_setHb {x : Hb} (h : (c.hb n).held = true → x.held = true) : Standing c (c.setHb n x) := by
  refine ⟨rfl, fun _ ha _ => ha, fun k hk => ?_⟩
  rw [hb_setHb]
  split
  · rename_i hn
    exact h (hn ▸ hk)
  · exact hk

theorem standing_modHb {x : Hb → Hb} (h : ∀ b : Hb, b.held = true → (x b).held = true) :
    Standing c (c.modHb n x) := standing_setHb (h _)

theorem standing_ite {p : Prop} [Decidable p] (hd : Standing c d) (he : Standing c e) :
    Standing c (if p then d else e) := by
  split
  · exact hd
  · exact he

theorem standing_foldl {α : Type} {step : Machine.Core → α → Machine.Core} (l : List α)
    (h : ∀ c x, Standing c (step c x)) : Standing c (l.foldl step c) := by
  induction l generalizing c with
  | nil => exact .refl
  | cons x t ih => exact (h c x).trans ih

end Standing

/-! ### The fields that the event of a soft trip is apart from -/
section Fields
variable {g : Field} {n h : Nat}

theorem softTrip_apart (hg : Elsewhere g.addr) : Apart PRT_EVENT.SOFT_TRIP g := apart_of_ne hg.2.1.symm

/-- The other events of protection. -/
theorem softTrip_apart_prtEvent (hlo : 1 ≤ g.lo) (hw : g.lo + g.len ≤ 32) : Apart PRT_EVENT.SOFT_TRIP g :=
  fun _ => ⟨.inl hlo, hw⟩

/-- The registers of a leg are 16 bytes apart, and PRT_EVENT is not at the place of its gate status there. -/
theorem softTrip_apart_hbStat (hg : g.addr = GDP_HB_STAT.a h) : Apart PRT_EVENT.SOFT_TRIP g := by
  refine apart_of_ne (hg ▸ ?_)
  show 0x40050010 ≠ 0x4004100C + 0x10 * h
  omega

theorem softTrip_apart_spacing : Apart PRT_EVENT.SOFT_TRIP (LNK_LANE_EVENT.SPACING n) := by
  refine apart_of_ne ?_
  show 0x40050010 ≠ 0x40020008 + 0x80 * n
  omega

end Fields

/-! ### Alarms and requests -/
section Alarms
variable {c : Machine.Core} {nm : AlarmName} {inst : Nat} {data : List Nat} {present : Bool}

theorem standing_raise (hne : nm ≠ .softTrip) : Standing c (c.raise nm inst data present) :=
  ⟨getF_of_reg (onlyAlarm_raise.2 _ (by decide) (by decide)),
    fun _ ha hn => (raise_other (hn ▸ hne.symm) (hn ▸ by decide)).mpr ha,
    fun h hh => by rwa [show (c.raise nm inst data present).hb h = c.hb h from
      congrArg (fun l => mapGet (fun _ => Hb.reset) l h) (congrArg Machine.Core.hbs onlyAlarm_raise.1 :)]⟩

theorem standing_refreshCause : Standing c c.refreshCause :=
  standing_of_event (getF_of_reg (by
    unfold Machine.Core.refreshCause
    repeat rw [reg_setFlag_other (by decide)])) rfl rfl

theorem standing_request : Standing c (c.request nm) := by
  have asked : Standing c (if nm.path = some .mod then (c.event SAF_CAUSE.REQ_MOD).event PRT_EVENT.SAFE_REQ
      else if nm.path = some .fw then c.event SAF_CAUSE.REQ_FW else c) :=
    standing_ite ((standing_event (softTrip_apart (by decide))).trans
      (standing_event (softTrip_apart_prtEvent (by decide) (by decide))))
      (standing_ite (standing_event (softTrip_apart (by decide))) .refl)
  unfold Machine.Core.request
  exact standing_ite asked (asked.trans (standing_same rfl rfl rfl))

theorem standing_raiseA (hne : nm ≠ .softTrip) : Standing c (c.raiseA nm inst data) :=
  ((standing_raise hne).trans standing_request).trans standing_refreshCause

end Alarms

/-! ### Changes of a leg -/
section Gate
variable {c : Machine.Core} {n h : Nat}

theorem standing_preempt {b : Nat} : Standing c (c.preempt n b).1 := by
  unfold Machine.Core.preempt
  dsimp only
  split
  · split
    · exact standing_setLane
    · split
      · exact standing_setLane
      · exact .refl
  · exact .refl

theorem hb_preempt {b : Nat} : (c.preempt n b).1.hb h = c.hb h := by
  unfold Machine.Core.preempt
  dsimp only
  split_ifs <;> rfl

theorem standing_linkSpace : Standing c (c.linkSpace n) := by
  unfold Machine.Core.linkSpace
  refine standing_ite .refl (.trans (.trans (standing_modHb ?_) (standing_modHb ?_)) (standing_event softTrip_apart_spacing))
  · exact fun _ hb => hb
  · exact fun _ hb => hb

theorem standing_openWin {s lo hi : Nat} : Standing c (c.openWin s lo hi) := by
  unfold Machine.Core.openWin
  exact standing_ite standing_setXb .refl

/-- A leg stays held, whatever its codes and its trips. -/
theorem standing_sameHold {d : Machine.Core} {tl : List (Nat × Nat)} {tr : Option Trans} {hs ls : Option (Nat × Nat)}
    {trips : List Nat} {last : Nat} (hd : d.hb h = c.hb h) : Standing d (d.setHb h { c.hb h with
      tl := tl, trans := tr, hsOff := hs, lsOff := ls, trips := trips, tripT := last }) := by
  refine standing_setHb fun hk => ?_
  rwa [hd] at hk

theorem standing_forceCode {code at0 : Nat} : Standing c (c.forceCode h code at0) := by
  have sent (x : Nat) : Standing c (if x = code then c else (c.preempt (h / 2) (launchOf at0)).1) :=
    standing_ite .refl standing_preempt
  have forced {d e : Machine.Core} (hd : Standing d e) :
      Standing d ((e.setF (GDP_HB_STAT.CODE h) code).linkSpace (h / 2)) :=
    (hd.trans (standing_setF (softTrip_apart_hbStat rfl))).trans standing_linkSpace
  have kept (x : Nat) : (if x = code then c else (c.preempt (h / 2) (launchOf at0)).1).hb h = c.hb h := by
    split
    · rfl
    · exact hb_preempt
  unfold Machine.Core.forceCode
  dsimp only
  split
  · exact ((sent _).trans (forced (standing_sameHold (kept _)))).trans standing_openWin
  · exact (sent _).trans (forced (standing_sameHold (kept _)))

theorem standing_gateReject {req kind : Nat} : Standing c (c.gateReject h req kind) := by
  have gate {d : Machine.Core} {g : Field} {v : Nat} (hg : Elsewhere g.addr) : Standing d (d.setF g v) :=
    standing_setF (softTrip_apart hg)
  unfold Machine.Core.gateReject
  refine .trans ?_ (standing_raise (by decide))
  refine .trans ?_ (standing_bump (softTrip_apart_hbStat rfl))
  exact ((((standing_event (softTrip_apart (by decide))).trans (gate (by decide))).trans (gate (by decide))).trans
    (gate (by decide))).trans (standing_bump (softTrip_apart (by decide)))

theorem standing_gateDeferred : Standing c (c.gateDeferred h) :=
  (standing_bump (softTrip_apart_hbStat rfl)).trans (standing_event (softTrip_apart (by decide)))

theorem hb_gateDeferred : (c.gateDeferred h).hb h = c.hb h := by
  rw [Machine.Core.gateDeferred, hb_event, hb_bump]

theorem standing_placeTrans {req te first : Nat} : Standing c (c.placeTrans h req te first) := by
  have placed (p : Prop) [Decidable p] {tl : List (Nat × Nat)} {tr : Option Trans} {hs ls : Option (Nat × Nat)} :
      Standing c ((if p then c.gateDeferred h else c).setHb h
        { c.hb h with tl := tl, trans := tr, hsOff := hs, lsOff := ls }) := by
    refine (standing_ite standing_gateDeferred .refl).trans (standing_sameHold ?_)
    split
    · exact hb_gateDeferred
    · rfl
  have coded (d : Machine.Core) (v : Nat) : Standing d (d.setF (GDP_HB_STAT.CODE h) v) :=
    standing_setF (softTrip_apart_hbStat rfl)
  unfold Machine.Core.placeTrans
  split
  · exact standing_gateReject
  dsimp only
  refine standing_ite (standing_ite (placed _) ((placed _).trans (coded _ _))) (standing_ite ?_ ?_)
  · exact (placed _).trans standing_gateReject
  · exact ((placed _).trans standing_gateReject).trans (coded _ _)

theorem standing_addCarry {d : Int} : Standing c (c.addCarry n d) := by
  have saturated (p : Prop) [Decidable p] : Standing c (if p then c else c.event MOD_EVENT.CARRY_SAT) :=
    standing_ite .refl (standing_event (softTrip_apart (by decide)))
  unfold Machine.Core.addCarry
  exact standing_ite .refl ((saturated _).trans (standing_setF (softTrip_apart (elsewhere_add (by decide)))))

theorem standing_placeBoth {req te : Nat} : Standing c (c.placeBoth h req te) := by
  unfold Machine.Core.placeBoth
  dsimp only
  split
  · refine standing_ite standing_placeTrans (standing_ite (standing_ite ?_ ?_) standing_placeTrans)
    · exact .trans (.trans standing_placeTrans standing_gateDeferred) standing_addCarry
    · exact .trans (.trans (.trans standing_placeTrans standing_placeTrans) standing_gateDeferred) standing_addCarry
  · exact standing_placeTrans

theorem standing_lateChange : Standing c (c.lateChange n) := by
  unfold Machine.Core.lateChange
  refine standing_ite .refl ?_
  dsimp only
  split
  · exact .refl
  · refine standing_ite standing_setLane (.trans (.trans standing_preempt (standing_modHb ?_)) (standing_modHb ?_))
    · exact fun _ hb => hb
    · exact fun _ hb => hb

theorem standing_placeShared {req te : Nat} : Standing c (c.placeShared h req te) :=
  .trans (.trans standing_placeBoth standing_lateChange) standing_linkSpace

end Gate

/-! ### Trips and retirement -/
section Trips
variable {c : Machine.Core} {n h t : Nat}

theorem standing_hbStat {g : Field} {v : Nat} (hg : g.addr = PRT_HB_STAT.a h) : Standing c (c.setF g v) :=
  standing_setF (softTrip_apart (hg ▸ elsewhere_add (by decide)))

/-- R131, point 3. -/
theorem standing_resumeHold : Standing c (c.resumeHold n) := by
  unfold Machine.Core.resumeHold
  exact standing_ite .refl (.trans (.trans standing_placeShared (standing_foldl _ fun _ _ => standing_openWin))
    (standing_modHb fun _ _ => rfl))

theorem standing_holdLeg {soft : Bool} : Standing c (c.holdLeg h soft) := by
  unfold Machine.Core.holdLeg
  exact standing_ite .refl (.trans (.trans standing_forceCode (standing_modHb fun _ _ => rfl)) (standing_hbStat rfl))

theorem standing_startBypass : Standing c (c.startBypass n) := by
  unfold Machine.Core.startBypass
  exact standing_ite standing_modCell .refl

theorem standing_charEntry {type index reason serial : Nat} {trips : List Nat} :
    Standing c (c.charEntry type index reason serial trips) := by
  have entered (d : Machine.Core) : Standing d (d.wantFlush .event) := standing_same rfl rfl rfl
  unfold Machine.Core.charEntry
  refine .trans ?_ (entered _)
  exact standing_ite (standing_same rfl rfl rfl)
    ((standing_event (softTrip_apart (by decide))).trans (standing_raise (by decide)))

theorem standing_retireRecord : Standing c (c.retireRecord n) := by
  unfold Machine.Core.retireRecord
  exact standing_ite (standing_same rfl rfl rfl) .refl

theorem standing_retire {reason : Nat} {both : Bool} : Standing c (c.retire h reason both) := by
  unfold Machine.Core.retire
  dsimp only
  refine standing_ite .refl ?_
  refine .trans ?_ standing_retireRecord
  refine .trans ?_ (standing_ite standing_charEntry standing_charEntry)
  refine .trans ?_ standing_startBypass
  refine .trans ?_ (standing_ite (standing_hbStat rfl) .refl)
  refine .trans ?_ (standing_ite (.trans standing_resumeHold (standing_modHb fun _ _ => rfl)) standing_holdLeg)
  exact (((standing_event (softTrip_apart_prtEvent (by decide) (by decide))).trans (standing_raise (by decide))).trans
    standing_modCell).trans (.trans standing_holdLeg (standing_hbStat rfl))

theorem standing_recordTrip {mask kind : Nat} : Standing c (c.recordTrip h mask kind t) := by
  have last {d : Machine.Core} {g : Field} {v : Nat} (hg : g.addr = PRT_LAST_TRIP.a) : Standing d (d.setF g v) :=
    standing_setF (apart_of_ne (hg ▸ by decide))
  have high {d : Machine.Core} {g : Field} {v : Nat} (hg : Elsewhere g.addr) : Standing d (d.setF g v) :=
    standing_setF (softTrip_apart hg)
  unfold Machine.Core.recordTrip
  dsimp only
  refine .trans ?_ (standing_sameHold ?_)
  · refine .trans ?_ (standing_ite (high (elsewhere_add (by decide))) .refl)
    refine .trans ?_ (standing_setReg (elsewhere_add (by decide)).2.1.symm)
    refine .trans ?_ (((standing_hbStat rfl).trans (standing_hbStat rfl)).trans (standing_hbStat rfl))
    exact ((((last rfl).trans (last rfl)).trans (last rfl)).trans (last rfl)).trans (standing_setReg (by decide))
  · split
    · rw [hb_bump, hb_setReg, hb_bump, hb_setF, hb_setF, hb_setReg, hb_bump, hb_setF, hb_setF, hb_setF]
    · rw [hb_setReg, hb_bump, hb_setF, hb_setF, hb_setReg, hb_bump, hb_setF, hb_setF, hb_setF]

theorem standing_exclude : Standing c (c.exclude n) := by
  unfold Machine.Core.exclude
  exact standing_modCell

theorem standing_escalate : Standing c (c.escalate h t) := by
  have recent {d : Machine.Core} {x : XBlank} {s v : Nat} :
      Standing d ((d.setXb s x).setF (PRT_STR_STAT.RECENT s) v) :=
    .trans standing_setXb (standing_setF (softTrip_apart (elsewhere_add (by decide))))
  have fault {d : Machine.Core} {s : Nat} :
      Standing d ((d.event (PRT_STR_STAT.FAULT s)).event PRT_EVENT.STRING_FAULT) :=
    (standing_event (softTrip_apart (elsewhere_add (by decide)))).trans
      (standing_event (softTrip_apart_prtEvent (by decide) (by decide)))
  unfold Machine.Core.escalate
  exact standing_ite .refl (standing_ite ((recent.trans fault).trans (standing_raiseA (by decide))) recent)

theorem standing_tripLeg {mask kind : Nat} : Standing c (c.tripLeg h mask kind t) :=
  .trans (.trans standing_recordTrip standing_holdLeg) standing_exclude

/-- The leg's own part of a trip stands through the retirement of its cell and the escalation. -/
theorem standing_trip_of_leg {mask kind : Nat} : Standing (c.tripLeg h mask kind t) (c.trip h mask kind t) := by
  unfold Machine.Core.trip
  exact .trans (standing_ite standing_retire (standing_ite standing_retire (standing_ite standing_retire .refl)))
    standing_escalate

theorem standing_trip {mask kind : Nat} : Standing c (c.trip h mask kind t) :=
  .trans standing_tripLeg standing_trip_of_leg

/-- R127: a leg that FORCE_SHORT does not drive is held. -/
theorem held_holdLeg {soft : Bool} (hforce : c.getF SAF_STATUS.FORCE < 2) : ((c.holdLeg h soft).hb h).held = true := by
  unfold Machine.Core.holdLeg
  rw [if_neg (by simp [hforce]), hb_setF, hb_modHb, if_pos rfl]

/-- The record of a trip is in the registers of protection. -/
theorem force_recordTrip {mask kind : Nat} :
    (c.recordTrip h mask kind t).getF SAF_STATUS.FORCE = c.getF SAF_STATUS.FORCE := by
  have hstat : PRT_HB_STAT.a h ≠ SAF_STATUS.a := by
    show 0x40051004 + 0x10 * h ≠ 0x40120000
    omega
  have htime : PRT_HB_TRIP_T.a h ≠ SAF_STATUS.a := by
    show 0x40051008 + 0x10 * h ≠ 0x40120000
    omega
  have hstr (s : Nat) : PRT_STR_STAT.a s ≠ SAF_STATUS.a := by
    show 0x40050044 + 0x8 * s ≠ 0x40120000
    omega
  unfold Machine.Core.recordTrip
  dsimp only
  refine getF_of_reg ?_
  rw [reg_setHb]
  split
  · rw [reg_bump_other (hstr _).symm, reg_setReg_other htime.symm, reg_bump_other hstat.symm, reg_setF_other hstat.symm,
      reg_setF_other hstat.symm, reg_setReg_other (by decide), reg_bump_other (by decide), reg_setF_other (by decide),
      reg_setF_other (by decide), reg_setF_other (by decide)]
  · rw [reg_setReg_other htime.symm, reg_bump_other hstat.symm, reg_setF_other hstat.symm, reg_setF_other hstat.symm,
      reg_setReg_other (by decide), reg_bump_other (by decide), reg_setF_other (by decide), reg_setF_other (by decide),
      reg_setF_other (by decide)]

theorem held_trip {mask : Nat} (hforce : c.getF SAF_STATUS.FORCE < 2) : ((c.trip h mask 0 t).hb h).held = true := by
  refine Standing.held standing_trip_of_leg ?_
  exact held_holdLeg (c := c.recordTrip h mask 0 t) (Eq.trans_lt force_recordTrip hforce)

/-! The last trip (R130). -/

theorem spared_lastTrip {f : Field} (hf : f.addr = PRT_LAST_TRIP.a) : Spared f := by
  refine ⟨.inr (.inl hf), fun m e => ?_⟩
  have hne : 0x40050014 = 0x40020008 + 0x80 * m := hf.symm.trans e
  omega

/-- Once the half-bridge, the switches and the kind of the last trip are recorded, the trip leaves them. -/
theorem getF_lastTrip_trip {f : Field} {mask kind : Nat} (hf : f.addr = PRT_LAST_TRIP.a) (hlo : f.lo + f.len ≤ 16)
    (hh : h < 256) : (c.trip h mask kind t).getF f =
      (((c.setF PRT_LAST_TRIP.HB h).setF PRT_LAST_TRIP.MASK mask).setF PRT_LAST_TRIP.KIND kind).getF f := by
  have hs := spared_lastTrip hf
  have hlegs : OffLegs f (h / 2) := offLegs_of_high (hf ▸ by decide) (by omega)
  exact (undisturbed_trip_of_record hs hlegs).1.trans
    (undisturbed_recordTrip_of_kind hs fun _ => ⟨.inl hlo, by decide⟩).1

theorem lastHb_trip {mask kind : Nat} (hh : h < 256) : (c.trip h mask kind t).getF PRT_LAST_TRIP.HB = h := by
  rw [getF_lastTrip_trip rfl (by decide) hh,
    getF_setF_apart (g := PRT_LAST_TRIP.HB) (f := PRT_LAST_TRIP.KIND) (by decide) rfl (by decide),
    getF_setF_apart (g := PRT_LAST_TRIP.HB) (f := PRT_LAST_TRIP.MASK) (by decide) rfl (by decide),
    getF_setF_same (by decide)]
  exact Nat.mod_eq_of_lt hh

theorem lastMask_trip {mask kind : Nat} (hh : h < 256) (hm : mask < 16) :
    (c.trip h mask kind t).getF PRT_LAST_TRIP.MASK = mask := by
  rw [getF_lastTrip_trip rfl (by decide) hh,
    getF_setF_apart (g := PRT_LAST_TRIP.MASK) (f := PRT_LAST_TRIP.KIND) (by decide) rfl (by decide),
    getF_setF_same (by decide)]
  exact Nat.mod_eq_of_lt hm

theorem lastKind_trip {mask : Nat} (hh : h < 256) : (c.trip h mask 0 t).getF PRT_LAST_TRIP.KIND = 0 := by
  rw [getF_lastTrip_trip rfl (by decide) hh, getF_setF_same (by decide)]
  rfl

end Trips
end Sys2Proof.Proofs
end

