-- ==== Sys2Proof/Proofs/TripEvents.lean ====
section
/-! The events of protection that O4 speaks of: each is the effect of its rule once the rule's conditions hold. -/
namespace Sys2Proof.Proofs
open Sys2Proof.Machine Sys2Proof.Claims Sys2Proof.Laws

section Events
variable {s : State} {c : Machine.Core}

/-! ### The soft trip (R123, R127, R135) -/
section SoftTrip
variable {sw : Fin 512} {u : Nat} {run : List Byte}

/-- The far-end samples of the run pass the filter of switch `sw`, and its comparators count (R123). -/
def TripPasses (c : Machine.Core) (sw : Fin 512) (u : Nat) (run : List Byte) : Prop :=
  (c.flag PRT_CTRL.SOFT_EN = true ∧ c.flagsCount (sw.val / 4) = true ∧
    c.underTest (sw.val / 4) (sw.val % 4) = false) ∧
  run.length = c.filterK ∧ run.all (fun b => (upFields b).flag (sw.val % 4)) = true ∧
  c.now = u + 128 + 8 * (c.filterK - 1) + 40 ∧
  (List.range c.filterK).all (fun j => c.eligible (sw.val / 4) (sw.val % 4) (u + 8 * j)) = true

/-- The event of the trip and its alarm (R127). -/
def softTripAlarm (c : Machine.Core) (sw : Fin 512) (u : Nat) : Machine.Core :=
  (c.event PRT_EVENT.SOFT_TRIP).raise .softTrip (sw.val / 2) [sw.val / 2, sw.val % 4, u] false

theorem exec_softTrip (h : TripPasses s.core sw u run) : exec (.softTrip sw ⟨u, run⟩) s =
    go (fun c _ => (softTripAlarm c sw u).trip (sw.val / 2) (2 ^ (sw.val % 4)) 0 u) s := by
  obtain ⟨⟨hen, hcounts, htest⟩, hrest⟩ := h
  have hleg : 2 * (sw.val / 4) + sw.val % 4 / 2 = sw.val / 2 := by omega
  have hpass : s.core.flag PRT_CTRL.SOFT_EN = true ∧ s.core.flagsCount (sw.val / 4) = true ∧
      (!s.core.underTest (sw.val / 4) (sw.val % 4)) = true ∧ _ := ⟨hen, hcounts, by rw [htest]; rfl, hrest⟩
  refine congrArg Host.Outcome.next (run_congr ((if_pos hpass).trans ?_))
  rw [hleg]
  rfl

theorem flag_softTripAlarm : (softTripAlarm c sw u).flag PRT_EVENT.SOFT_TRIP = true :=
  (flag_of_reg (onlyAlarm_raise.2 _ (by decide) (by decide))).trans (flag_event_same (by decide) rfl)

theorem force_softTripAlarm : (softTripAlarm c sw u).getF SAF_STATUS.FORCE = c.getF SAF_STATUS.FORCE :=
  getF_of_reg ((onlyAlarm_raise.2 _ (by decide) (by decide)).trans (reg_event_other (by decide)))

theorem gives_softTrip (h : TripPasses s.core sw u run) : Gives (.softTrip sw ⟨u, run⟩) s fun t =>
    t.flag PRT_EVENT.SOFT_TRIP = true ∧ Listed t .softTrip (sw.val / 2) [sw.val / 2, sw.val % 4, u] ∧
    t.getF PRT_LAST_TRIP.HB = sw.val / 2 ∧ t.getF PRT_LAST_TRIP.KIND = 0 ∧
    t.getF PRT_LAST_TRIP.MASK = 2 ^ (sw.val % 4) ∧
    (s.core.getF SAF_STATUS.FORCE < 2 → (t.hb (sw.val / 2)).held = true) := by
  have hleg : sw.val / 2 < 256 := by omega
  have hmask : 2 ^ (sw.val % 4) < 16 := Nat.pow_lt_pow_right (by decide) (Nat.mod_lt _ (by decide))
  refine gives_of_effect (exec_softTrip h)
    ⟨?_, Standing.hasAlarm standing_trip (raise_listed (by decide)), lastHb_trip hleg, lastKind_trip hleg,
      lastMask_trip hleg hmask, fun hforce => held_trip (Eq.trans_lt force_softTripAlarm hforce)⟩ fun _ h => h
  exact (Standing.flag standing_trip).trans flag_softTripAlarm

end SoftTrip

/-! ### The merged window, the exclusion and TRIP_CLEAR (R126, R128, R129) -/

theorem xb_raise {nm : AlarmName} {inst k : Nat} {data : List Nat} {present : Bool} :
    (c.raise nm inst data present).xb k = c.xb k := by
  have kept : (c.raise nm inst data present).prt = c.prt :=
    (congrArg Machine.Core.prt (onlyAlarm_raise (c := c) (nm := nm) (inst := inst) (data := data) (present := present)).1 :)
  unfold Machine.Core.xb
  rw [kept]

/-- The window `w` of string `k` is closed, with its overrun counted. -/
def overrunCounted (c : Machine.Core) (k : Nat) (w : Nat × Nat × Nat) : Machine.Core :=
  ((c.setXb k { c.xb k with wins := (c.xb k).wins.map fun v => if v = w then (w.1, w.2.1, 2) else v }).bump
    (PRT_STR_STAT.OVERRUNS k) 1).event PRT_EVENT.XBLANK_OVERRUN

theorem exec_xblankOverrun {k : Fin 6} {w : Nat × Nat × Nat}
    (h : (s.core.xb k.val).wins.find? (fun v => v.2.2 == 1 && decide (v.2.1 ≤ s.core.now)) = some w) :
    exec (.xblankOverrun k) s =
      go (fun c _ => (overrunCounted c k.val w).raise .xblankOverrun k.val [k.val] false) s := by
  refine congrArg Host.Outcome.next (run_congr ?_)
  have hfind : ((Laws.start s.core).xb k.val).wins.find?
      (fun v => v.2.2 == 1 && decide (v.2.1 ≤ (Laws.start s.core).now)) = some w := h
  dsimp only
  rw [hfind]
  rfl

theorem wins_overrunCounted {k : Nat} {w : Nat × Nat × Nat} (h : w ∈ (c.xb k).wins) :
    (w.1, w.2.1, 2) ∈ ((overrunCounted c k w).xb k).wins := by
  have hxb : (overrunCounted c k w).xb k =
      { c.xb k with wins := (c.xb k).wins.map fun v => if v = w then (w.1, w.2.1, 2) else v } :=
    mapGet_mapSet.trans (if_pos rfl)
  rw [hxb]
  exact List.mem_map.mpr ⟨w, h, if_pos rfl⟩

theorem overruns_overrunCounted {k : Nat} {w : Nat × Nat × Nat} :
    (overrunCounted c k w).getF (PRT_STR_STAT.OVERRUNS k) =
      satN (PRT_STR_STAT.OVERRUNS k).len (c.getF (PRT_STR_STAT.OVERRUNS k) + 1) := by
  have hstr : PRT_STR_STAT.a k ≠ PRT_EVENT.a := by
    show 0x40050044 + 0x8 * k ≠ 0x40050010
    omega
  have hfits (x : Nat) : satN (PRT_STR_STAT.OVERRUNS k).len x < 2 ^ (PRT_STR_STAT.OVERRUNS k).len :=
    (Nat.min_le_right _ _).trans_lt (Nat.sub_one_lt (by simp))
  exact (getF_of_reg (reg_event_other hstr)).trans ((getF_setF_same (by simp)).trans (Nat.mod_eq_of_lt (hfits _)))

/-- The status of a string is at none of the registers that an alarm changes. -/
theorem strStat_apart_alarm :
    ∀ k : Fin 6, tlmReg (PRT_STR_STAT.a k.val) = false ∧ PRT_STR_STAT.a k.val ≠ MBX_EVENT.a := by
  decide

theorem gives_xblankOverrun {k : Fin 6} {w : Nat × Nat × Nat}
    (h : (s.core.xb k.val).wins.find? (fun v => v.2.2 == 1 && decide (v.2.1 ≤ s.core.now)) = some w) :
    Gives (.xblankOverrun k) s fun t =>
      t.flag PRT_EVENT.XBLANK_OVERRUN = true ∧ Listed t .xblankOverrun k.val [k.val] ∧
      (w.1, w.2.1, 2) ∈ (t.xb k.val).wins ∧
      t.getF (PRT_STR_STAT.OVERRUNS k.val) = satN (PRT_STR_STAT.OVERRUNS k.val).len (s.core.getF
        (PRT_STR_STAT.OVERRUNS k.val) + 1) := by
  refine gives_of_effect (exec_xblankOverrun h) ⟨?_, raise_listed (by decide), ?_, ?_⟩ fun _ h => h
  · exact (flag_of_reg (onlyAlarm_raise.2 _ (by decide) (by decide))).trans (flag_event_same (by decide) rfl)
  · rw [xb_raise]
    exact wins_overrunCounted (List.mem_of_find?_eq_some h)
  · obtain ⟨htlm, hbox⟩ := strStat_apart_alarm k
    exact (getF_of_reg (onlyAlarm_raise.2 _ htlm hbox)).trans overruns_overrunCounted

theorem gives_exclusionEnd {n : Fin 128} {b : Nat} (hb : (s.core.cell n.val).excl = some b)
    (hend : b ≤ s.core.modu.period) :
    Gives (.exclusionEnd n) s fun t => (t.cell n.val).excl = none ∧ (t.cell n.val).exclSince = none := by
  have hexec : exec (.exclusionEnd n) s =
      go (fun c _ => c.modCell n.val fun x => { x with excl := none, exclSince := none }) s := by
    refine congrArg Host.Outcome.next (run_congr ?_)
    have hcell : ((Laws.start s.core).cell n.val).excl = some b := hb
    rw [hcell]
    exact if_pos hend
  refine gives_of_effect hexec ?_ fun _ h => h
  rw [cell_modCell, if_pos rfl]
  exact ⟨rfl, rfl⟩

theorem gives_retryMinOffElapsed {h : Fin 256} {u : Nat}
    (hdue : (s.core.hb h.val).clearAt = some u ∧ u ≤ s.core.now ∧ (s.core.hb h.val).held = true ∧
      (s.core.hb h.val).hardMask ≠ 0)
    (hsent : s.core.retryOn h.val = true ∧ (s.core.cell (h.val / 2)).gone = false ∧ s.core.getF PAI_STATUS.AUTH ≠ 1 ∧
      s.core.laneOn (h.val / 2) = true ∧ s.core.laneState (h.val / 2) ≠ 4) :
    Gives (.retryMinOffElapsed h) s fun t => (t.hb h.val).clearAt = none ∧
      (t.lane (h.val / 2)).queue.getLast? = some ⟨0x41, (s.core.hb h.val).hardMask * 4 ^ (h.val % 2)⟩ := by
  obtain ⟨hclear, hnow, hheld, hmask⟩ := hdue
  obtain ⟨hretry, hgone, hauth, hon, hfaulty⟩ := hsent
  have hexec : exec (.retryMinOffElapsed h) s =
      go (fun c _ => (c.queueMsg (h.val / 2) 0x41 ((c.hb h.val).hardMask * 4 ^ (h.val % 2))).modHb h.val
        fun b => { b with clearAt := none }) s := by
    refine congrArg Host.Outcome.next (run_congr ?_)
    have hb : ((Laws.start s.core).hb h.val).clearAt = some u := hclear
    have hserves : (!((Laws.start s.core).cell (h.val / 2)).gone) = true := congrArg (!·) hgone
    dsimp only
    rw [hb]
    exact if_pos ⟨hheld, hmask, hretry, hnow, hserves⟩
  refine gives_of_effect hexec ⟨?_, ?_⟩ fun _ h => h
  · rw [hb_modHb, if_pos rfl]
  · rw [lane_modHb]
    exact getLast_queueMsg hauth hon (.inl hfaulty)

/-! ### The bound of a soft release (R150) -/

/-- The result of the soft comparator of the switch under test, whose force left `results` and whose release `char`. -/
def softResult (x : SelfTest) (char : Byte) : Nat :=
  if x.results.headD 0 = 0 then 1 else if (upFields char).flag x.sw then 2 else 0

theorem exec_selftestDeadline {n : Fin 128} {char : Byte} {x : SelfTest}
    (h : s.core.prt.test = some x ∧ x.cell = n.val ∧ x.stage = 1 ∧ x.deadline ≠ 0 ∧
      x.deadline ≤ s.core.now ∧ x.sw < 4)
    (htries : (s.core.lane n.val).tries ≠ 4) :
    exec (.selftestDeadline n char) s = go (fun c _ => c.softDone x (softResult x char)) s := by
  obtain ⟨htest, hcell, hstage, hset, hlate, -⟩ := h
  refine congrArg Host.Outcome.next (run_congr ?_)
  have ht : (Laws.start s.core).prt.test = some x := htest
  have hl : ((Laws.start s.core).lane n.val).tries ≠ 4 := htries
  have hn : ¬ (Laws.start s.core).now < x.deadline := Nat.not_lt.mpr hlate
  dsimp only
  rw [ht]
  dsimp only
  rw [hcell, if_neg (not_not.mpr rfl), if_neg hl, if_pos hset]
  dsimp only
  rw [if_neg hn, hstage]
  rfl

theorem softDone_both {x : SelfTest} {r : Nat} (hkind : x.kind = 2) (hr : r < 8) :
    (c.softDone x r).getF (testField x.cell x.sw false) = r ∧
      (c.softDone x r).prt.test = some { x with stage := 2, deadline := 0 } := by
  have hprt {d : Machine.Core} {l op arg : Nat} : (d.queueMsg l op arg).prt = d.prt := by
    unfold Machine.Core.queueMsg
    split <;> rfl
  have hfield : (testField x.cell x.sw false).lo + (testField x.cell x.sw false).len ≤ 32 ∧
      (testField x.cell x.sw false).len = 3 := by
    unfold testField
    dsimp only
    split <;> exact ⟨by simp, rfl⟩
  unfold Machine.Core.softDone
  dsimp only
  rw [if_pos hkind]
  refine ⟨undisturbed_queueMsg.1.trans ?_, congrArg Prt.test hprt⟩
  refine (getF_setF_same (c := c) (v := r) hfield.1).trans ?_
  rw [hfield.2]
  exact Nat.mod_eq_of_lt hr

theorem softResult_lt {x : SelfTest} {char : Byte} : softResult x char < 8 := by
  unfold softResult
  split_ifs <;> decide

end Events

/-- Settles O4: each event is the effect of its rule, whose conditions hold; what a soft trip sets stands through the
retirement of its cell and the escalation to its string. -/
theorem tripEvents : Obligations.TripEvents := by
  unfold Obligations.TripEvents
  refine ⟨fun s sw u run hen hsamples => gives_softTrip ⟨hen, hsamples⟩, fun s k w h => gives_xblankOverrun h,
    fun s n b ⟨hb, hend⟩ => gives_exclusionEnd hb hend, fun s h u hdue hsent => gives_retryMinOffElapsed hdue hsent,
    fun s n char x h ⟨htries, hkind⟩ => ?_⟩
  exact gives_of_effect (exec_selftestDeadline h htries) (softDone_both hkind softResult_lt) fun _ h => h

end Sys2Proof.Proofs
end

