-- ==== Sys2Proof/Proofs/TimerChannels.lean ====
section
/-! The timer channels (R172 to R175): what an occurrence of an event, an update set, COMMIT and a write of CNT_MODE do to a
channel. -/
namespace Sys2Proof.Proofs
open Sys2Proof.Machine Sys2Proof.Claims Sys2Proof.Laws

/-! ### Lists and fields -/

theorem setAt_eq_set {α : Type} {v : α} {i : Nat} {l : List α} : setAt i v l = l.set i v := by
  induction i generalizing l with
  | zero => cases l <;> rfl
  | succ j ih =>
    cases l with
    | nil => rfl
    | cons x t => exact congrArg (x :: ·) ih

theorem getD_setAt_other {α : Type} {v d : α} {i j : Nat} {l : List α} (h : j ≠ i) :
    (setAt i v l).getD j d = l.getD j d := by
  rw [setAt_eq_set, List.getD_eq_getElem?_getD, List.getElem?_set_ne (Ne.symm h), ← List.getD_eq_getElem?_getD]

section Channels
variable {s : State} {c d : Machine.Core} {n k kind j mode : Nat} {l : List Nat}

theorem getF_event_apart {f g : Field} (h : Apart f g) : (c.event g).getF f = c.getF f := (undisturbed_event h).1

theorem tchStat_eq : tchStat n kind = ⟨MOD_TCH_STAT.a n, min kind 3, 1⟩ := by
  match kind with
  | 0 => rfl
  | 1 => rfl
  | 2 => rfl
  | m + 3 =>
    rw [Nat.min_eq_right (Nat.le_add_left 3 m)]
    rfl

theorem tchStat_fits : (tchStat n kind).lo + (tchStat n kind).len ≤ 32 := by
  rw [tchStat_eq]
  dsimp only
  omega

theorem flag_event_tchStat : (c.event (tchStat n kind)).flag (tchStat n kind) = true :=
  flag_event_same tchStat_fits (by rw [tchStat_eq])

/-- The flags of two kinds are the same bit or bits apart, so an event clears no flag. -/
theorem flag_event_tchStat_kept (h : c.flag (tchStat n kind) = true) :
    (c.event (tchStat n j)).flag (tchStat n kind) = true := by
  by_cases he : tchStat n kind = tchStat n j
  · rw [he]
    exact flag_event_tchStat
  · have hlo : min kind 3 ≠ min j 3 := fun e => he (by rw [tchStat_eq, tchStat_eq, e])
    have hapart : Apart (tchStat n kind) (tchStat n j) := by
      rw [tchStat_eq, tchStat_eq]
      intro _
      dsimp only
      omega
    rw [Machine.Core.flag, getF_event_apart hapart]
    exact h

/-! ### An occurrence of an event (R172, R173) -/

/-- The channel once the occurrence is counted. -/
def tchCounted (c : Machine.Core) (n j : Nat) : Tch :=
  { c.tch n with
    fired := setAt j (c.now + 1) (c.tch n).fired
    pre := setAt j (if (c.tch n).pre.getD j 0 < (c.tch n).val 3 / 256 ^ j % 256 then (c.tch n).pre.getD j 0 + 1 else 0)
      (c.tch n).pre }

/-- The trigger output of the channel pulses. -/
def tchPulse (c : Machine.Core) (n : Nat) : Machine.Core :=
  { c with modu := { c.modu with trig := mapSet (fun _ => 0) c.modu.trig n (c.now + 1) } }

/-- An occurrence that has reached the end of its prescaler: the flag, and the trigger where TRG_EN asks for it. -/
def tchShown (c : Machine.Core) (n j : Nat) : Machine.Core :=
  let c1 := (c.setTch n (tchCounted c n j)).event (tchStat n j)
  if bitOf (c1.getF (MOD_TCH_CFG.TRG_EN n)) j then tchPulse c1 n else c1

theorem tchFire_eq : c.tchFire n j =
    if (c.tch n).fired.getD j 0 = c.now + 1 then c
    else if (c.tch n).pre.getD j 0 < (c.tch n).val 3 / 256 ^ j % 256 then c.setTch n (tchCounted c n j)
    else tchShown c n j := rfl

theorem tch_setTch_counted : (c.setTch n (tchCounted c n j)).tch n = tchCounted c n j := by rw [tch_setTch, if_pos rfl]

theorem tch_tchShown : (tchShown c n j).tch n = tchCounted c n j := by
  have pulsed {e : Machine.Core} : (tchPulse e n).tch n = e.tch n := rfl
  unfold tchShown
  dsimp only
  split
  · rw [pulsed, tch_event, tch_setTch_counted]
  · rw [tch_event, tch_setTch_counted]

theorem reg_tchShown (x : Nat) : (tchShown c n j).reg x = (c.event (tchStat n j)).reg x := by
  unfold tchShown
  dsimp only
  split <;> rfl

/-- What an occurrence leaves: the registers but STAT, the time, the set in force and the last occurrences of other kinds. -/
theorem tchFire_frame : (c.tchFire n j).now = c.now ∧
    (∀ x, x ≠ MOD_TCH_STAT.a n → (c.tchFire n j).reg x = c.reg x) ∧
    ((c.tchFire n j).tch n).applied = (c.tch n).applied ∧
    ∀ i, i ≠ j → ((c.tchFire n j).tch n).fired.getD i 0 = (c.tch n).fired.getD i 0 := by
  rw [tchFire_eq]
  split
  · exact ⟨rfl, fun _ _ => rfl, rfl, fun _ _ => rfl⟩
  have last (i : Nat) (hi : i ≠ j) : (tchCounted c n j).fired.getD i 0 = (c.tch n).fired.getD i 0 :=
    getD_setAt_other hi
  split
  · rw [tch_setTch_counted]
    exact ⟨rfl, fun _ _ => rfl, rfl, last⟩
  · rw [tch_tchShown]
    refine ⟨?_, fun x hx => (reg_tchShown x).trans (reg_event_other (by rwa [tchStat_eq])), rfl, last⟩
    unfold tchShown
    dsimp only
    split <;> rfl

theorem flag_tchShown_kept (h : c.flag (tchStat n kind) = true) : (tchShown c n j).flag (tchStat n kind) = true :=
  (flag_of_reg (reg_tchShown _)).trans (flag_event_tchStat_kept h)

theorem flag_tchFire_kept (h : c.flag (tchStat n kind) = true) : (c.tchFire n j).flag (tchStat n kind) = true := by
  rw [tchFire_eq]
  split
  · exact h
  split
  · exact h
  · exact flag_tchShown_kept h

/-- The kind happens at count `k`, has not fired in this tick, and its prescaler is 0. -/
def Awaits (c : Machine.Core) (n kind k : Nat) : Prop :=
  c.tchHits n kind k = true ∧ (c.tch n).fired.getD kind 0 ≠ c.now + 1 ∧ (c.tch n).val 3 / 256 ^ kind % 256 = 0

/-- A channel without prescaler shows each occurrence (R173). -/
theorem flag_tchFire (h : Awaits c n kind k) : (c.tchFire n kind).flag (tchStat n kind) = true := by
  obtain ⟨-, hfired, hpresc⟩ := h
  rw [tchFire_eq, if_neg hfired, hpresc, if_neg (Nat.not_lt_zero _), flag_of_reg (reg_tchShown _)]
  exact flag_event_tchStat

theorem tchMode_of_reg (h : d.reg (MOD_TCH_CFG.a n) = c.reg (MOD_TCH_CFG.a n)) : d.tchMode n = c.tchMode n := by
  unfold Machine.Core.tchMode
  rw [getF_of_reg h]

theorem tchCfg_ne_tchStat : MOD_TCH_CFG.a n ≠ MOD_TCH_STAT.a n := by
  show 0x40061000 + 0x20 * n ≠ 0x40061018 + 0x20 * n
  omega

theorem awaits_tchFire (hj : kind ≠ j) (h : Awaits c n kind k) : Awaits (c.tchFire n j) n kind k := by
  obtain ⟨hnow, hreg, happlied, hlast⟩ := tchFire_frame (c := c) (n := n) (j := j)
  obtain ⟨hhits, hfired, hpresc⟩ := h
  have hval (i : Nat) : ((c.tchFire n j).tch n).val i = (c.tch n).val i := congrArg (·.getD i 0) happlied
  have hmode : (c.tchFire n j).tchMode n = c.tchMode n := tchMode_of_reg (hreg _ tchCfg_ne_tchStat)
  refine ⟨?_, by rwa [hlast kind hj, hnow], by rwa [hval]⟩
  rw [← hhits]
  unfold Machine.Core.tchHits
  simp only [hmode, hval]

/-- What one kind of event does at count `k`. -/
def tchOccur (n k : Nat) (c : Machine.Core) (kind : Nat) : Machine.Core :=
  if c.tchHits n kind k then c.tchFire n kind else c

theorem flag_foldl_tchOccur_kept (h : c.flag (tchStat n kind) = true) :
    (l.foldl (tchOccur n k) c).flag (tchStat n kind) = true := by
  induction l generalizing c with
  | nil => exact h
  | cons j t ih =>
    refine ih ?_
    unfold tchOccur
    split
    · exact flag_tchFire_kept h
    · exact h

/-- A kind that awaits its occurrence fires when its turn comes: the kinds before it do not take it away, and those after it
leave its flag. -/
theorem flag_foldl_tchOccur (hmem : kind ∈ l) (h : Awaits c n kind k) :
    (l.foldl (tchOccur n k) c).flag (tchStat n kind) = true := by
  induction l generalizing c with
  | nil => exact absurd hmem List.not_mem_nil
  | cons j t ih =>
    by_cases hj : kind = j
    · subst hj
      rw [List.foldl_cons, tchOccur, if_pos h.1]
      exact flag_foldl_tchOccur_kept (flag_tchFire h)
    · refine ih ((List.mem_cons.mp hmem).resolve_left hj) ?_
      unfold tchOccur
      split
      · exact awaits_tchFire hj h
      · exact h

theorem gives_tchEvent {n : Fin 64} {kind : Fin 4} (hruns : s.core.tchMode n.val ≠ 0 ∧ (s.core.tch n.val).val 0 ≠ 0)
    (h : Awaits s.core n.val kind.val (s.core.tchCount n.val s.core.now).1) :
    Gives (.tchEvent n) s fun t => t.flag (tchStat n.val kind.val) = true := by
  have hexec : exec (.tchEvent n) s =
      go (fun c _ => [0, 1, 2, 3].foldl (tchOccur n.val (c.tchCount n.val c.now).1) c) s :=
    congrArg Host.Outcome.next (run_congr (if_neg fun e => e.elim hruns.1 hruns.2))
  have hkind : kind.val ∈ [0, 1, 2, 3] := by
    have := kind.isLt
    simp only [List.mem_cons, List.not_mem_nil, or_false]
    omega
  exact gives_of_effect hexec (flag_foldl_tchOccur (c := Laws.start s.core) hkind h) fun _ h => h

/-! ### Update sets (R174) -/

/-- An event that is set where a condition holds. -/
def eventIf (b : Bool) (f : Field) (c : Machine.Core) : Machine.Core := if b then c.event f else c

theorem tch_eventIf {b : Bool} {f : Field} : (eventIf b f c).tch n = c.tch n := by
  unfold eventIf
  split <;> rfl

theorem reg_eventIf {b : Bool} {f : Field} {x : Nat} (h : x ≠ f.addr) : (eventIf b f c).reg x = c.reg x := by
  unfold eventIf
  split
  · exact reg_event_other h
  · rfl

theorem getF_eventIf {b : Bool} {f g : Field} (h : Apart g f) : (eventIf b f c).getF g = c.getF g := by
  unfold eventIf
  split
  · exact getF_event_apart h
  · rfl

/-- The channel with an update set in force; a changed PRESC starts its prescalers anew. -/
def tchUpdated (x : Tch) (l : List Nat) : Tch :=
  { x with pend := none, applied := l, pre := if l.getD 3 0 = x.val 3 then x.pre else [0, 0, 0, 0] }

/-- An update set comes into force, and PENDING ends. -/
def tchLoaded (c : Machine.Core) (n : Nat) (l : List Nat) : Machine.Core :=
  (c.setTch n (tchUpdated (c.tch n) l)).setF (MOD_TCH_STAT.PENDING n) 0

/-- Beside the set, an update is at most events: PARTIAL_SET, and CMP_UNREACHABLE. -/
theorem tchApply_eq : ∃ p u, c.tchApply n l = eventIf u (MOD_TCH_STAT.CMP_UNREACHABLE n)
    (eventIf p MOD_EVENT.PARTIAL_SET (eventIf p (MOD_TCH_STAT.PARTIAL_SET n) (tchLoaded c n l))) := by
  unfold Machine.Core.tchApply
  dsimp only
  generalize (((_ : Bool) != _) && !_) = p
  generalize (_ || _) = u
  refine ⟨p, u, ?_⟩
  cases p <;> cases u <;> rfl

theorem reg_tchApply {x : Nat} (hs : x ≠ MOD_TCH_STAT.a n) (he : x ≠ MOD_EVENT.a) :
    (c.tchApply n l).reg x = c.reg x := by
  obtain ⟨p, u, h⟩ := tchApply_eq (c := c) (n := n) (l := l)
  rw [h, reg_eventIf hs, reg_eventIf he, reg_eventIf hs]
  exact reg_setF_other hs

theorem tch_tchApply : (c.tchApply n l).tch n = tchUpdated (c.tch n) l := by
  obtain ⟨p, u, h⟩ := tchApply_eq (c := c) (n := n) (l := l)
  rw [h, tch_eventIf, tch_eventIf, tch_eventIf]
  exact (tch_setTch n n _).trans (if_pos rfl)

theorem tchStat_ne_modEvent : MOD_TCH_STAT.a n ≠ MOD_EVENT.a := by
  show 0x40061018 + 0x20 * n ≠ 0x40060018
  omega

theorem flag_pending_tchApply : (c.tchApply n l).flag (MOD_TCH_STAT.PENDING n) = false := by
  obtain ⟨p, u, h⟩ := tchApply_eq (c := c) (n := n) (l := l)
  have hpartial : Apart (MOD_TCH_STAT.PENDING n) (MOD_TCH_STAT.PARTIAL_SET n) := fun _ => by simp
  have hunreach : Apart (MOD_TCH_STAT.PENDING n) (MOD_TCH_STAT.CMP_UNREACHABLE n) := fun _ => by simp
  have hevent : Apart (MOD_TCH_STAT.PENDING n) MOD_EVENT.PARTIAL_SET := apart_of_ne tchStat_ne_modEvent
  refine flag_of_getF (v := 0) ?_
  rw [h, getF_eventIf hunreach, getF_eventIf hevent, getF_eventIf hpartial]
  exact getF_setF_same (by simp)

/-- The channel at its update boundary: its counter is at 0 now. -/
theorem tchBoundary_pending (h : (c.tch n).pend = some l) :
    c.tchBoundary n = (c.setTch n { c.tch n with count := 0, down := false, at_ := c.now }).tchApply n l := by
  unfold Machine.Core.tchBoundary
  dsimp only
  rw [h]

theorem gives_tchUpdateBoundary {n : Fin 64} (h : s.core.tchMode n.val ≠ 0 ∧ (s.core.tch n.val).val 0 ≠ 0 ∧
      (s.core.tchCount n.val s.core.now).1 = 0 ∧ (s.core.tch n.val).pend = some l) :
    Gives (.tchUpdateBoundary n) s fun t =>
      (t.tch n.val).applied = l ∧ (t.tch n.val).pend = none ∧ t.flag (MOD_TCH_STAT.PENDING n.val) = false := by
  obtain ⟨hmode, hperiod, hcount, hpend⟩ := h
  have hexec : exec (.tchUpdateBoundary n) s = go (fun c _ => (c.setTch n.val
      { c.tch n.val with count := 0, down := false, at_ := c.now }).tchApply n.val l) s :=
    congrArg Host.Outcome.next (run_congr ((if_pos ⟨hmode, hperiod, hcount⟩).trans (tchBoundary_pending hpend)))
  exact gives_of_effect hexec ⟨congrArg Tch.applied tch_tchApply, congrArg Tch.pend tch_tchApply, flag_pending_tchApply⟩
    fun _ h => h

/-! ### COMMIT and CNT_MODE (R172, R174, R175) -/

theorem gives_tchCommit {n : Fin 64} (h : s.core.tchOwned n.val = false) :
    Gives (.tchCommit n) s fun t =>
      (t.tch n.val).pend = some (s.core.tchShadow n.val) ∧ t.flag (MOD_TCH_STAT.PENDING n.val) = true := by
  have hexec : exec (.tchCommit n) s = go (fun c _ => c.tchCommit n.val) s :=
    congrArg Host.Outcome.next (run_congr (if_neg (Bool.eq_false_iff.mp h)))
  refine gives_of_effect hexec ⟨?_, flag_of_getF (getF_setF_same (by simp))⟩ fun _ h => h
  exact congrArg Tch.pend ((tch_setTch (c := Laws.start s.core) n.val n.val _).trans (if_pos rfl))

/-- A command that protection's ownership of the channel refuses: OWNER_DENIED, and no channel changes (R175). -/
theorem gives_ownerDenied {i : Instr} (hexec : exec i s = go (fun c _ => c.event MOD_EVENT.OWNER_DENIED) s) :
    Gives i s fun t => t.flag MOD_EVENT.OWNER_DENIED = true ∧ t.modu.tch = s.core.modu.tch :=
  gives_of_effect hexec ⟨flag_event_same (by decide) rfl, rfl⟩ fun _ h => h

theorem tchMode_setF_cntMode (h : mode < 3) : (c.setF (MOD_TCH_CFG.CNT_MODE n) mode).tchMode n = mode := by
  have hget : (c.setF (MOD_TCH_CFG.CNT_MODE n) mode).getF (MOD_TCH_CFG.CNT_MODE n) = mode :=
    (getF_setF_same (by simp)).trans (Nat.mod_eq_of_lt (Nat.lt_succ_of_lt h))
  unfold Machine.Core.tchMode
  dsimp only
  rw [hget, if_neg (Nat.ne_of_lt h)]

theorem tchShadow_setF_cntMode : (c.setF (MOD_TCH_CFG.CNT_MODE n) mode).tchShadow n = c.tchShadow n := by
  have other {x : Nat} (h : x ≠ MOD_TCH_CFG.a n) : (c.setF (MOD_TCH_CFG.CNT_MODE n) mode).reg x = c.reg x :=
    reg_setF_other h
  have hperiod : MOD_TCH_PERIOD.a n ≠ MOD_TCH_CFG.a n := by simp
  have hcmpA : MOD_TCH_CMP_A.a n ≠ MOD_TCH_CFG.a n := by simp
  have hcmpB : MOD_TCH_CMP_B.a n ≠ MOD_TCH_CFG.a n := by simp
  have hpresc : MOD_TCH_PRESC.a n ≠ MOD_TCH_CFG.a n := by simp
  unfold Machine.Core.tchShadow
  rw [getF_of_reg (f := MOD_TCH_PERIOD.VALUE n) (other hperiod), getF_of_reg (f := MOD_TCH_CMP_A.VALUE n) (other hcmpA),
    getF_of_reg (f := MOD_TCH_CMP_B.VALUE n) (other hcmpB), other hpresc]

/-- A channel that starts counts from 0 now, and its shadow applies (R172, R174). -/
def tchStarted (c : Machine.Core) (n mode : Nat) : Machine.Core :=
  let c1 := c.setF (MOD_TCH_CFG.CNT_MODE n) mode
  (c1.setTch n { c.tch n with count := 0, down := false, at_ := c.now }).tchApply n (c.tchShadow n)

theorem tchSetMode_start (hstopped : c.tchMode n = 0) (hmode : mode = 1 ∨ mode = 2) :
    c.tchSetMode n mode = tchStarted c n mode := by
  have hnew : c.getF (MOD_TCH_CFG.CNT_MODE n) ≠ mode := by
    rintro rfl
    unfold Machine.Core.tchMode at hstopped
    dsimp only at hstopped
    split at hstopped <;> omega
  have hruns : (c.setF (MOD_TCH_CFG.CNT_MODE n) mode).tchMode n ≠ 0 := by
    rw [tchMode_setF_cntMode (by omega)]
    omega
  unfold Machine.Core.tchSetMode
  rw [if_neg hnew, if_pos ⟨hstopped, hruns⟩, tchShadow_setF_cntMode]
  rfl

theorem tch_tchStarted : ((tchStarted c n mode).tch n).count = 0 ∧ ((tchStarted c n mode).tch n).down = false ∧
    ((tchStarted c n mode).tch n).at_ = c.now ∧ ((tchStarted c n mode).tch n).applied = c.tchShadow n := by
  unfold tchStarted
  dsimp only
  rw [tch_tchApply, tch_setTch, if_pos rfl]
  exact ⟨rfl, rfl, rfl, rfl⟩

theorem tchMode_tchStarted (h : mode < 3) : (tchStarted c n mode).tchMode n = mode := by
  have hcfg : MOD_TCH_CFG.a n ≠ MOD_EVENT.a := by
    show 0x40061000 + 0x20 * n ≠ 0x40060018
    omega
  exact (tchMode_of_reg (reg_tchApply tchCfg_ne_tchStat hcfg)).trans (tchMode_setF_cntMode (c := c) h)

theorem gives_tchCntModeStart {n : Fin 64} {mode : Fin 4}
    (h : s.core.tchOwned n.val = false ∧ s.core.tchMode n.val = 0) (hmode : mode.val = 1 ∨ mode.val = 2) :
    Gives (.tchCntModeStart n mode) s fun t =>
      t.tchMode n.val = mode.val ∧ (t.tch n.val).count = 0 ∧ (t.tch n.val).down = false ∧
      (t.tch n.val).at_ = s.core.now ∧ (t.tch n.val).applied = s.core.tchShadow n.val := by
  have hexec : exec (.tchCntModeStart n mode) s = go (fun c _ => tchStarted c n.val mode.val) s :=
    congrArg Host.Outcome.next (run_congr ((if_neg (Bool.eq_false_iff.mp h.1)).trans (tchSetMode_start h.2 hmode)))
  exact gives_of_effect hexec ⟨tchMode_tchStarted (by omega), tch_tchStarted⟩ fun _ h => h

end Channels

/-- Settles O8: each event is the operation on its channel that its rule names, once the conditions of the rule hold. -/
theorem timerChannelEvents : Obligations.TimerChannelEvents := by
  unfold Obligations.TimerChannelEvents
  refine ⟨fun _ _ _ hruns h => gives_tchEvent hruns h, fun _ _ _ h => gives_tchUpdateBoundary h,
    fun _ _ h => gives_tchCommit h, fun s n h => ?_, fun _ _ _ h hmode => gives_tchCntModeStart h hmode,
    fun s n mode h => ?_⟩
  · exact gives_ownerDenied (congrArg Host.Outcome.next (run_congr (if_pos h)))
  · exact gives_ownerDenied (congrArg Host.Outcome.next (run_congr (if_pos h)))

end Sys2Proof.Proofs
end

