-- ==== Sys2Proof/Proofs/Stepping.lean ====
section
/-! What a step takes from the queue (R160). -/
namespace Sys2Proof.Proofs
open Sys2Proof.Machine Sys2Proof.Claims

/-- Settles O56: the step takes its command from the queue before the command runs. -/
theorem stepRunsTheFrontCommand : Obligations.StepRunsTheFrontCommand := by
  unfold Obligations.StepRunsTheFrontCommand
  rintro ⟨queue, mem, core⟩
  refine ⟨fun _ _ => rfl, fun hempty => ?_⟩
  obtain rfl : queue = [] := hempty
  rfl

end Sys2Proof.Proofs
end

