-- ==== Sys2Proof/Proofs/PortEvents.lean ====
section
/-! An invalid READ of the quad-SPI port (R342), on which the frames of the port events fail. -/
namespace Sys2Proof.Proofs
open Sys2Proof.Machine Sys2Proof.Claims Sys2Proof.Laws

/-- R342: a READ with a bit of [23:16] set is ignored, and SPI_ERROR says so. -/
theorem gives_qspiRead_beyond {s : State} {addr : BitVec 24} {n : Nat} (h : 0x10000 ≤ addr.toNat) :
    Gives (.qspiRead addr n) s fun t => t.flag MBX_EVENT.SPI_ERROR = true := by
  have hexec : exec (.qspiRead addr n) s = go (fun c _ => c.spiError) s :=
    congrArg Host.Outcome.next (run_congr (if_pos h))
  refine gives_of_effect hexec ?_ fun _ h => h
  have hne : MBX_EVENT.SPI_ERROR.addr ≠ MBX_COUNT.REFUSED.addr := by decide
  exact (flag_of_reg (reg_bump_other hne)).trans (flag_event_same (by decide) rfl)

/-- Refutes O42: after reset the quad-SPI port reads at 0x01_0000, past the 64 KiB of the mailbox region. The transaction is
counted as SPI_ERROR (R342), so MBX_EVENT changes, where the frame of a READ says that no register does. -/
theorem not_portEventFrames : ¬ Obligations.PortEventFrames := by
  unfold Obligations.PortEventFrames
  rintro ⟨-, -, -, -, -, -, -, -, -, -, -, -, -, -, -, -, -, -, hread, -⟩
  obtain ⟨t, ht, -, -, hregs, -⟩ := hread 0x10000 0 State.reset
  obtain ⟨u, hu, hset⟩ := gives_qspiRead_beyond (s := State.reset) (addr := 0x10000) (n := 0) (by decide)
  obtain rfl : t = u := Host.Outcome.next.inj (ht.symm.trans hu)
  have hclear : State.reset.core.flag MBX_EVENT.SPI_ERROR = false := by decide
  rw [flag_of_reg (hregs MBX_EVENT.a rfl), hclear] at hset
  exact absurd hset (by decide)

end Sys2Proof.Proofs
end

