-- ==== Sys2Proof/Proofs/CellDispatch.lean ====
section
/-! The alarms of the dispatch inputs and of the vote (R183, R184, R187, R199), the end of a balancing window (R187, R201,
R202) and SOC_COMMIT (R186). -/
namespace Sys2Proof.Proofs
open Sys2Proof.Machine Sys2Proof.Claims Sys2Proof.Laws

section Events
variable {s : State} {c : Machine.Core} {f : Field} {nm : AlarmName} {inst x : Nat} {data : List Nat} {present : Bool}

/-! ### What an alarm leaves of the dispatch engine -/

/-- The register block of the dispatch engine. -/
abbrev InDispatch (x : Nat) : Prop := x / 0x10000 = 0x4007

theorem inDispatch_cellStat (n : Fin 128) : InDispatch (DSP_C_STAT.a n.val) := by
  dsimp only [InDispatch, DSP_C_STAT.a]
  omega

theorem InDispatch.ne {y : Nat} (h : InDispatch x) (hy : ¬ InDispatch y) : x ≠ y := fun e => hy (e ▸ h)

theorem tlmReg_of_inDispatch (h : InDispatch x) : tlmReg x = false := by
  simp only [tlmReg, List.contains_cons, List.contains_nil, Bool.or_false, Bool.or_eq_false_iff, beq_eq_false_iff_ne]
  exact ⟨h.ne (by decide), h.ne (by decide), h.ne (by decide), h.ne (by decide)⟩

theorem reg_raise_inDispatch (h : InDispatch x) : (c.raise nm inst data present).reg x = c.reg x :=
  onlyAlarm_raise.2 x (tlmReg_of_inDispatch h) (h.ne (by decide))

theorem raise_disp : (c.raise nm inst data present).disp = c.disp := (congrArg Machine.Core.disp onlyAlarm_raise.1 :)

theorem reg_request_inDispatch (h : InDispatch x) : (c.request nm).reg x = c.reg x := by
  have hcause : x ≠ SAF_CAUSE.a := h.ne (by decide)
  have hprt : x ≠ PRT_EVENT.a := h.ne (by decide)
  have asked : (if nm.path = some .mod then (c.event SAF_CAUSE.REQ_MOD).event PRT_EVENT.SAFE_REQ
      else if nm.path = some .fw then c.event SAF_CAUSE.REQ_FW else c).reg x = c.reg x := by
    split
    · exact (reg_event_other hprt).trans (reg_event_other hcause)
    · split
      · exact reg_event_other hcause
      · rfl
  unfold Machine.Core.request
  dsimp only
  split <;> exact asked

theorem request_disp : (c.request nm).disp = c.disp := by
  unfold Machine.Core.request
  dsimp only
  split_ifs <;> rfl

theorem reg_refreshCause_other (h : x ≠ SAF_CAUSE.a) : c.refreshCause.reg x = c.reg x := by
  unfold Machine.Core.refreshCause
  repeat rw [reg_setFlag_other h]

theorem reg_raiseA_inDispatch (h : InDispatch x) : (c.raiseA nm inst data).reg x = c.reg x :=
  (reg_refreshCause_other (h.ne (by decide))).trans ((reg_request_inDispatch h).trans (reg_raise_inDispatch h))

theorem refreshCause_disp : c.refreshCause.disp = c.disp := rfl

theorem raiseA_disp : (c.raiseA nm inst data).disp = c.disp :=
  refreshCause_disp.trans (request_disp.trans raise_disp)

/-! ### Alarms of class B (R183, R187, R199) -/

/-- An event of the engine with its alarm, whose cause lasts. -/
def dispatchAlarm (f : Field) (nm : AlarmName) (inst : Nat) (data : List Nat) (c : Machine.Core) : Machine.Core :=
  (c.event f).raise nm inst data true

/-- The fields of DSP_EVENT. -/
structure DispatchEvent (f : Field) : Prop where
  addr : f.addr = DSP_EVENT.a
  len : f.len = 1
  fits : f.lo + f.len ≤ 32

theorem DispatchEvent.inDispatch (hf : DispatchEvent f) : InDispatch f.addr := hf.addr ▸ by decide

theorem dispatchAlarm_spec (hf : DispatchEvent f) (hnm : nm ≠ .alarmTableFold) :
    (dispatchAlarm f nm inst data c).flag f = true ∧ Listed (dispatchAlarm f nm inst data c) nm inst data :=
  ⟨(flag_of_reg (reg_raise_inDispatch hf.inDispatch)).trans (flag_event_same hf.fits hf.len), raise_listed hnm⟩

/-- An alarm leaves a status bit of the engine as it was. -/
theorem flag_dispatchAlarm {g : Field} (hf : DispatchEvent f) (hg : InDispatch g.addr) (hne : g.addr ≠ DSP_EVENT.a) :
    (dispatchAlarm f nm inst data c).flag g = c.flag g :=
  flag_of_reg ((reg_raise_inDispatch hg).trans (reg_event_other (hf.addr ▸ hne)))

theorem cellStat_ne_event (n : Nat) : DSP_C_STAT.a n ≠ DSP_EVENT.a := by
  show 0x40071008 + 0x10 * n ≠ 0x40070028
  omega

theorem gives_dispatchAlarm {i : Instr} (hf : DispatchEvent f) (hnm : nm ≠ .alarmTableFold)
    (hexec : exec i s = go (fun c _ => dispatchAlarm f nm inst data c) s) :
    Gives i s fun t => t.flag f = true ∧ Listed t nm inst data :=
  gives_of_effect hexec (dispatchAlarm_spec hf hnm) fun _ h => h

/-- An alarm that a status bit of the engine goes with. -/
theorem gives_markedAlarm {i : Instr} {g : Field} (hf : DispatchEvent f) (hnm : nm ≠ .alarmTableFold)
    (hg : InDispatch g.addr) (hne : g.addr ≠ DSP_EVENT.a) (hlen : g.len = 1) (hfits : g.lo + g.len ≤ 32)
    (hexec : exec i s = go (fun c _ => dispatchAlarm f nm inst data (c.setF g 1)) s) :
    Gives i s fun t => t.flag g = true ∧ t.flag f = true ∧ Listed t nm inst data :=
  gives_of_effect hexec
    ⟨(flag_dispatchAlarm hf hg hne).trans (flag_setFlag_same (b := true) hfits hlen), dispatchAlarm_spec hf hnm⟩
    fun _ h => h

theorem gives_cellStale {n : Fin 128}
    (h : s.core.role n.val = 1 ∧ s.core.cellV n.val = none ∧ s.core.causeOn .cellStale n.val = false) :
    Gives (.cellStale n) s fun t =>
      t.flag (DSP_C_STAT.STALE n.val) = true ∧ t.flag DSP_EVENT.CELL_STALE = true ∧
      Listed t .cellStale n.val [n.val, (s.core.cellVal n.val).age] := by
  obtain ⟨hrole, hvolt, hcause⟩ := h
  refine gives_markedAlarm ⟨rfl, rfl, by decide⟩ (by decide) (inDispatch_cellStat n) (cellStat_ne_event _) rfl (by simp) ?_
  exact congrArg Host.Outcome.next
    (run_congr (if_pos ⟨hrole, Option.isNone_iff_eq_none.mpr hvolt, congrArg not hcause⟩))

theorem gives_tempMissing {n : Fin 128}
    (h : s.core.role n.val = 1 ∧ s.core.tempC n.val = none ∧ s.core.causeOn .tempMissing n.val = false) :
    Gives (.tempMissing n) s fun t =>
      t.flag (DSP_C_STAT.TEMP_MISSING n.val) = true ∧ t.flag DSP_EVENT.TEMP_MISSING = true ∧
      Listed t .tempMissing n.val [n.val] := by
  obtain ⟨hrole, htemp, hcause⟩ := h
  refine gives_markedAlarm ⟨rfl, rfl, by decide⟩ (by decide) (inDispatch_cellStat n) (cellStat_ne_event _) rfl (by simp) ?_
  exact congrArg Host.Outcome.next
    (run_congr (if_pos ⟨hrole, Option.isNone_iff_eq_none.mpr htemp, congrArg not hcause⟩))

theorem gives_socStale (h : 4 ≤ s.core.disp.noCommit ∧ s.core.flag DSP_STATUS.SOC_STALE = false) :
    Gives .socStale s fun t =>
      t.flag DSP_STATUS.SOC_STALE = true ∧ t.flag DSP_EVENT.SOC_STALE = true ∧
      Listed t .socStale 0xFFFF [s.core.disp.noCommit] := by
  refine gives_markedAlarm ⟨rfl, rfl, by decide⟩ (by decide) (by decide) (by decide) rfl (by decide) ?_
  exact congrArg Host.Outcome.next (run_congr (if_pos ⟨h.1, congrArg not h.2⟩))

theorem gives_cellCurrentOutlier {n : Fin 128}
    (h : s.core.outlierPeriods ≤ mapGet (fun _ => 0) s.core.disp.outRun n.val ∧
      s.core.causeOn .cellCurrentOutlier n.val = false) :
    Gives (.cellCurrentOutlier n) s fun t =>
      t.flag DSP_EVENT.CURRENT_OUTLIER = true ∧
      Listed t .cellCurrentOutlier n.val
        [n.val, dI (s.core.cellVal n.val).is, s.core.getF (DSP_STR_CONS.VALUE (s.core.strOf n.val))] := by
  refine gives_dispatchAlarm ⟨rfl, rfl, by decide⟩ (by decide) ?_
  exact congrArg Host.Outcome.next (run_congr (if_pos ⟨h.1, congrArg not h.2⟩))

/-- The value of sensor A or D (`d`) of a string, in mA. -/
def sensorValue (c : Machine.Core) (k : Nat) (d : Bool) : Int :=
  if d then rne ((c.cnv.sensD.getD k none).getD 0 * c.iFs) 32768 else rne (c.sigRaw k * c.iFs) 32768

theorem gives_sensorDisagree {k : Fin 6} {d : Bool}
    (h : s.core.sensPeriods ≤ (s.core.dstr k.val).run.getD (b2n d) 0 ∧
      s.core.causeOn .sensorDisagree (2 * k.val + b2n d) = false) :
    Gives (.sensorDisagree k d) s fun t =>
      t.flag DSP_EVENT.SENSOR_DISAGREE = true ∧
      Listed t .sensorDisagree (2 * k.val + b2n d) [k.val, b2n d, dI (sensorValue s.core k.val d)] := by
  refine gives_dispatchAlarm ⟨rfl, rfl, by decide⟩ (by decide) ?_
  exact congrArg Host.Outcome.next (run_congr (if_pos ⟨h.1, congrArg not h.2⟩))

theorem gives_noConsensus {k : Fin 6}
    (h : s.core.sensPeriods ≤ (s.core.dstr k.val).run.getD 2 0 ∧ s.core.causeOn .noConsensus k.val = false) :
    Gives (.noConsensus k) s fun t =>
      t.flag DSP_EVENT.NO_CONSENSUS = true ∧
      Listed t .noConsensus k.val
        [k.val, s.core.getF (DSP_STR_VOTE.N_READ k.val), s.core.getF (DSP_STR_VOTE.N_BAND k.val)] := by
  refine gives_dispatchAlarm ⟨rfl, rfl, by decide⟩ (by decide) ?_
  exact congrArg Host.Outcome.next (run_congr (if_pos ⟨h.1, congrArg not h.2⟩))

/-! ### The stale reference (R184) -/

theorem dstr_setDstr (n k : Nat) (y : DispStr) : (c.setDstr n y).dstr k = if k = n then y else c.dstr k := mapGet_mapSet

theorem dstr_raiseA {k : Nat} : (c.raiseA nm inst data).dstr k = c.dstr k :=
  congrArg (fun d : Disp => mapGet (fun _ => DispStr.reset) d.strs k) raiseA_disp

/-- The stale reference of string `k` is noted, so that each dispatch raises it once. -/
def staleNoted (c : Machine.Core) (k : Nat) : Machine.Core :=
  (c.setDstr k { c.dstr k with staleDue := false }).event DSP_EVENT.VREF_STALE

theorem gives_vrefStale {k : Fin 6} (h : (s.core.dstr k.val).staleDue = true ∧ s.core.dispatched = true) :
    Gives (.vrefStale k) s fun t =>
      t.flag DSP_EVENT.VREF_STALE = true ∧ Listed t .vrefStale k.val [k.val, (s.core.dstr k.val).refAge] ∧
      (t.dstr k.val).staleDue = false := by
  have hexec : exec (.vrefStale k) s = go (fun c _ => (staleNoted c k.val).raiseA .vrefStale k.val
      [k.val, (c.dstr k.val).refAge]) s := congrArg Host.Outcome.next (run_congr (if_pos h))
  refine gives_of_effect hexec ⟨?_, hasAlarm_raiseA (by decide), ?_⟩ fun _ h => h
  · exact (flag_of_reg (reg_raiseA_inDispatch (by decide))).trans (flag_event_same (by decide) rfl)
  · rw [dstr_raiseA]
    exact congrArg DispStr.staleDue ((dstr_setDstr (c := Laws.start s.core) k.val k.val _).trans (if_pos rfl))

/-! ### The end of a balancing window (R187, R201, R202) -/

/-- STICKY set by R202, with its alarm. -/
def stickyAdjusted (c : Machine.Core) (v : Nat) : Machine.Core :=
  ((c.setF DSP_STICKY.STICKY v).event DSP_EVENT.STICKY_ADJUSTED).raise .stickyAdjusted 0xFFFF
    [c.getF DSP_STICKY.STICKY, v] false

/-- R202 sets STICKY or does nothing. -/
theorem stickyAuto_cases : c.stickyAuto = c ∨ ∃ v, c.stickyAuto = stickyAdjusted c v := by
  unfold Machine.Core.stickyAuto
  dsimp only
  generalize (if _ < sumN _ then _ else _ : Nat) = v
  split
  · exact .inl rfl
  · split
    · exact .inl rfl
    · exact .inr ⟨v, rfl⟩

theorem stickyAuto_frame : c.stickyAuto.disp = c.disp ∧ c.stickyAuto.reg DSP_STATUS.a = c.reg DSP_STATUS.a := by
  rcases stickyAuto_cases (c := c) with h | ⟨v, h⟩
  · rw [h]
    exact ⟨rfl, rfl⟩
  · rw [h]
    refine ⟨raise_disp, (reg_raise_inDispatch (by decide)).trans ?_⟩
    exact (reg_event_other (by decide)).trans (reg_setF_other (by decide))

/-- R201: the statistics of the window are latched, for every cell and every string. -/
def windowLatched (c : Machine.Core) : Machine.Core :=
  (List.range 6).foldl Machine.Core.windowStr ((List.range 128).foldl (fun a n =>
    (a.setF (DSP_C_STAT.INS_PERIODS n) (mapGet (fun _ => 0) c.disp.ins n)).setF (DSP_C_STAT.SWAPS_IN n)
      (min 255 (mapGet (fun _ => 0) c.disp.swapsIn n))) c)

/-- R187: the windows in a row without a commit, after the window that ends. -/
def windowsWithoutCommit (c : Machine.Core) : Nat :=
  if c.disp.commitAt.any (fun q => decide (c.modu.period ≤ q + 1024)) then 0 else c.disp.noCommit + 1

/-- What the end of a window sets in the device `d` that has latched the statistics of `c`. -/
def windowCounted (d c : Machine.Core) : Machine.Core :=
  ({ d with disp := { d.disp with
      ins := [], swapsIn := [], winDone := c.modu.period, noCommit := windowsWithoutCommit c } }).setF
    DSP_STATUS.ROT (c.getF DSP_STATUS.ROT + 1)

/-- R201: the device after the window's end. -/
def windowEnded (d c : Machine.Core) : Machine.Core := (windowCounted d c).stickyAuto.event DSP_EVENT.WINDOW_END

theorem windowEnded_disp {d : Machine.Core} : (windowEnded d c).disp = (windowCounted d c).disp := by
  rw [windowEnded, event_disp, stickyAuto_frame.1]

theorem rot_windowEnded {d : Machine.Core} : (windowEnded d c).getF DSP_STATUS.ROT =
    (c.getF DSP_STATUS.ROT + 1) % 2 ^ DSP_STATUS.ROT.len := by
  have hreg : (windowEnded d c).reg DSP_STATUS.a = (windowCounted d c).reg DSP_STATUS.a :=
    (reg_event_other (by decide)).trans stickyAuto_frame.2
  exact (getF_of_reg hreg).trans (getF_setF_same (by decide))

theorem exec_windowEnd (h : s.core.modu.period % 1024 = 0 ∧ s.core.disp.winDone ≠ s.core.modu.period) :
    exec .windowEnd s = go (fun c _ => windowEnded (windowLatched c) c) s := by
  refine congrArg Host.Outcome.next (run_congr ((if_neg fun e => e.elim (absurd h.1) h.2).trans ?_))
  unfold windowEnded windowCounted windowLatched windowsWithoutCommit
  cases (Laws.start s.core).disp.commitAt <;> rfl

theorem gives_windowEnd (h : s.core.modu.period % 1024 = 0 ∧ s.core.disp.winDone ≠ s.core.modu.period) :
    Gives .windowEnd s fun t =>
      t.flag DSP_EVENT.WINDOW_END = true ∧ t.disp.winDone = s.core.modu.period ∧
      t.disp.noCommit = windowsWithoutCommit s.core ∧
      t.getF DSP_STATUS.ROT = (s.core.getF DSP_STATUS.ROT + 1) % 2 ^ DSP_STATUS.ROT.len := by
  refine gives_of_effect (exec_windowEnd h) ⟨?_, ?_, ?_, ?_⟩ fun _ h => h
  · exact flag_event_same (by decide) rfl
  · exact congrArg Disp.winDone windowEnded_disp
  · exact congrArg Disp.noCommit windowEnded_disp
  · exact rot_windowEnded

/-! ### SOC_COMMIT (R186) -/

/-- A map written at every index below `n`. -/
theorem mapGet_foldl_range {α : Type} [DecidableEq α] {d g : Nat → α} {m : SMap α} {n : Nat} :
    mapGet d ((List.range n).foldl (fun m k => mapSet d m k (g k)) m) x = if x < n then g x else mapGet d m x := by
  induction n with
  | zero => rfl
  | succ n ih =>
    rw [List.range_succ, List.foldl_concat, mapGet_mapSet, ih]
    by_cases hx : x = n
    · simp [hx]
    · have hlt : x < n + 1 ↔ x < n := by omega
      simp [hx, hlt]

/-- Steps that leave the shadows and the dispatch engine alone, one after another. -/
theorem foldl_shadow_disp {α : Type} {step : Machine.Core → α → Machine.Core} (l : List α)
    (h : ∀ d n, (step d n).shadow = d.shadow ∧ (step d n).disp = d.disp) :
    (l.foldl step c).shadow = c.shadow ∧ (l.foldl step c).disp = c.disp := by
  induction l generalizing c with
  | nil => exact ⟨rfl, rfl⟩
  | cons n t ih => exact ⟨ih.1.trans (h c n).1, ih.2.trans (h c n).2⟩

/-- The soc and wear that wait after a commit. -/
def committedSoc (c : Machine.Core) : SMap Nat :=
  (List.range 128).foldl (fun m n => mapSet (fun _ => 32768) m n ((c.reg (DSP_C_SOC.a n)).toNat % 2 ^ 26)) []

/-- Beside the waiting values, a commit only adds points to the ledger (R370). -/
theorem socCommit_frame : c.socCommit.shadow = c.shadow ++ [.soc] ∧
    c.socCommit.disp = { c.disp with socNext := committedSoc c } := by
  unfold Machine.Core.socCommit
  dsimp only
  rw [addShadow_shadow, addShadow_disp]
  refine (foldl_shadow_disp _ fun d n => ?_).imp (congrArg (· ++ [ShadowOp.soc])) id
  split <;> exact ⟨rfl, rfl⟩

theorem gives_socCommit : Gives .socCommit s fun t =>
    t.shadow.getLast? = some .soc ∧
    mapGet (fun _ => 32768) t.disp.socNext 127 = (s.core.reg (DSP_C_SOC.a 127)).toNat % 2 ^ 26 := by
  obtain ⟨hshadow, hdisp⟩ := socCommit_frame (c := Laws.start s.core)
  refine gives_of_effect rfl (e := fun c _ => c.socCommit) ⟨?_, ?_⟩ fun _ h => h
  · rw [hshadow, List.getLast?_concat]
  · rw [hdisp]
    exact mapGet_foldl_range.trans (if_pos (by decide))

end Events

/-- Settles O5: each alarm is raised with its event once its conditions hold, and the bits of the engine stand through what
raising does; the end of a window and a commit set what the clause names last. -/
theorem dispatchEvents : Obligations.DispatchEvents := by
  unfold Obligations.DispatchEvents
  refine ⟨fun _ _ h => gives_cellStale h, fun _ _ h => gives_vrefStale h, fun _ h => gives_socStale h,
    fun _ _ h => gives_tempMissing h, fun _ _ h => gives_cellCurrentOutlier h, fun s k d h => ?_,
    fun _ _ h => gives_noConsensus h, fun _ h => gives_windowEnd h, fun _ => gives_socCommit⟩
  obtain ⟨t, hexec, hflag, hlisted⟩ := gives_sensorDisagree h
  exact ⟨t, hexec, hflag, _, hlisted⟩

end Sys2Proof.Proofs
end

