-- ==== Sys2Proof/Proofs/ControlEngine.lean ====
section
/-! The events of the control engine that O6 speaks of: the observer locks and is lost (R225), the end step completes (R230,
R231), and a host entry passes its deadline (R236). -/
namespace Sys2Proof.Proofs
open Sys2Proof.Machine Sys2Proof.Claims Sys2Proof.Laws

section Events
variable {s : State} {c d : Machine.Core} {f : Field} {nm : AlarmName} {inst x v : Nat} {data : List Nat} {present : Bool}

/-! ### An event of the engine with its alarm -/

/-- The register block of the control engine. -/
abbrev InControl (x : Nat) : Prop := x / 0x10000 = 0x4008

theorem InControl.ne {y : Nat} (h : InControl x) (hy : ¬ InControl y) : x ≠ y := fun e => hy (e ▸ h)

theorem tlmReg_of_inControl (h : InControl x) : tlmReg x = false := by
  simp only [tlmReg, List.contains_cons, List.contains_nil, Bool.or_false, Bool.or_eq_false_iff, beq_eq_false_iff_ne]
  exact ⟨h.ne (by decide), h.ne (by decide), h.ne (by decide), h.ne (by decide)⟩

theorem reg_raise_inControl (h : InControl x) : (c.raise nm inst data present).reg x = c.reg x :=
  onlyAlarm_raise.2 x (tlmReg_of_inControl h) (h.ne (by decide))

/-- The fields of CEN_EVENT. -/
structure ControlEvent (f : Field) : Prop where
  addr : f.addr = CEN_EVENT.a
  len : f.len = 1
  fits : f.lo + f.len ≤ 32

/-- An event of the engine and the alarm that goes with it. -/
def controlAlarm (f : Field) (nm : AlarmName) (inst : Nat) (data : List Nat) (present : Bool) (c : Machine.Core) :
    Machine.Core := (c.event f).raise nm inst data present

theorem reg_controlAlarm (hf : ControlEvent f) (h : InControl x) (hne : x ≠ CEN_EVENT.a) :
    (controlAlarm f nm inst data present c).reg x = c.reg x :=
  (reg_raise_inControl h).trans (reg_event_other (hf.addr ▸ hne))

theorem controlAlarm_spec (hf : ControlEvent f) (hnm : nm ≠ .alarmTableFold) :
    (controlAlarm f nm inst data present c).flag f = true ∧ Listed (controlAlarm f nm inst data present c) nm inst data :=
  ⟨(flag_of_reg (reg_raise_inControl (hf.addr ▸ by decide))).trans (flag_event_same hf.fits hf.len), raise_listed hnm⟩

/-! ### The CONTROL_SET payload in force (R238) -/

theorem regBytes_congr {a k : Nat} (h : ∀ j < k, d.reg (a + 4 * j) = c.reg (a + 4 * j)) :
    d.regBytes a k = c.regBytes a k := by
  induction k generalizing a with
  | zero => rfl
  | succ k ih =>
    have hfirst : d.reg a = c.reg a := h 0 (Nat.succ_pos k)
    have hrest : d.regBytes (a + 4) k = c.regBytes (a + 4) k := ih fun j hj => by
      rw [show a + 4 + 4 * j = a + 4 * (j + 1) by omega]
      exact h (j + 1) (Nat.succ_lt_succ hj)
    rw [Machine.Core.regBytes, Machine.Core.regBytes, hfirst, hrest]

theorem ctlImage_start : (Laws.start c).ctlImage = c.ctlImage := regBytes_congr fun _ _ => rfl

/-! ### The observer (R225) -/

/-- LOCKED as given, and the run of R225 starts anew. -/
def observerSet (c : Machine.Core) (v : Nat) : Machine.Core := (c.setF CEN_OBS.LOCKED v).setF CEN_OBS.RUN 0

theorem locked_observerSet : (observerSet c v).flag CEN_OBS.LOCKED = (v % 2 == 1) := by
  refine flag_of_getF ?_
  have hkept : (observerSet c v).getF CEN_OBS.LOCKED = (c.setF CEN_OBS.LOCKED v).getF CEN_OBS.LOCKED :=
    getF_setF_apart (by decide) rfl (by decide)
  rw [hkept, getF_setF_same (by decide), pow_one]

theorem run_observerSet : (observerSet c v).getF CEN_OBS.RUN = 0 := getF_setF_same (by decide)

/-- An observer event that leaves CEN_OBS as `observerSet` does, with its alarm. -/
theorem gives_observerEvent {i : Instr} {e : Machine.Core → Machine.Core} (hf : ControlEvent f)
    (hnm : nm ≠ .alarmTableFold) (hexec : exec i s = go (fun c _ => controlAlarm f nm inst data present (e c)) s)
    (hobs : (e (Laws.start s.core)).reg CEN_OBS.a = (observerSet (Laws.start s.core) v).reg CEN_OBS.a) :
    Gives i s fun t => t.flag CEN_OBS.LOCKED = (v % 2 == 1) ∧ t.getF CEN_OBS.RUN = 0 ∧ t.flag f = true ∧
      Listed t nm inst data := by
  have hreg := (reg_controlAlarm (c := e (Laws.start s.core)) (nm := nm) (inst := inst) (data := data) (present := present)
    hf (x := CEN_OBS.a) (by decide) (by decide)).trans hobs
  exact gives_of_effect hexec ⟨(flag_of_reg hreg).trans locked_observerSet, (getF_of_reg hreg).trans run_observerSet,
    controlAlarm_spec hf hnm⟩ fun _ h => h

theorem gives_observerLocked (h : s.core.flag CEN_OBS.LOCKED = false ∧ 64 ≤ s.core.getF CEN_OBS.RUN) :
    Gives .observerLocked s fun t =>
      t.flag CEN_OBS.LOCKED = true ∧ t.getF CEN_OBS.RUN = 0 ∧ t.flag CEN_EVENT.OBSERVER_LOCKED = true ∧
      Listed t .observerLocked 0 [] := by
  have hexec : exec .observerLocked s = go (fun c _ => controlAlarm CEN_EVENT.OBSERVER_LOCKED .observerLocked 0 [] false
      ((observerSet c 1).clearCause .observerLost 0)) s :=
    congrArg Host.Outcome.next (run_congr (if_pos ⟨congrArg not h.1, h.2⟩))
  exact gives_observerEvent (v := 1) (e := fun c => (observerSet c 1).clearCause .observerLost 0) ⟨rfl, rfl, by decide⟩
    (by decide) hexec (onlyTlm_clearCause.2 _ (by decide))

theorem exec_observerLost (hlocked : s.core.flag CEN_OBS.LOCKED = true)
    (hlost : max 1 (u8 (obsRec s.core.ctlImage) 28) ≤ s.core.getF CEN_OBS.RUN ∨
      s.core.sigRaw 0x4D < i16 (obsRec s.core.ctlImage) 26) :
    exec .observerLost s = go (fun c _ => controlAlarm CEN_EVENT.OBSERVER_LOST .observerLost 0 [s.core.getF CEN_OBS.ERR] true
      (observerSet c 0)) s := by
  rw [← ctlImage_start] at hlost
  exact congrArg Host.Outcome.next (run_congr (if_pos ⟨hlocked, hlost⟩))

theorem gives_observerLost (hlocked : s.core.flag CEN_OBS.LOCKED = true)
    (hlost : max 1 (u8 (obsRec s.core.ctlImage) 28) ≤ s.core.getF CEN_OBS.RUN ∨
      s.core.sigRaw 0x4D < i16 (obsRec s.core.ctlImage) 26) :
    Gives .observerLost s fun t =>
      t.flag CEN_OBS.LOCKED = false ∧ t.getF CEN_OBS.RUN = 0 ∧ t.flag CEN_EVENT.OBSERVER_LOST = true ∧
      Listed t .observerLost 0 [s.core.getF CEN_OBS.ERR] :=
  gives_observerEvent (v := 0) (e := fun c => observerSet c 0) ⟨rfl, rfl, by decide⟩ (by decide)
    (exec_observerLost hlocked hlost) rfl

/-! ### The end step (R230, R231) -/

/-- The operations of the schedule of an image have run, and the run is over. -/
def scheduleRun (c : Machine.Core) (p : List Byte) : Machine.Core :=
  let d := (sched p).foldl (Machine.Core.opStep p) c
  { d with ctl := { d.ctl with runAt := none } }.endStep

theorem endStep_ctl : c.endStep.ctl = c.ctl := by
  unfold Machine.Core.endStep
  dsimp only
  split
  · exact setReg_ctl _ _ _
  · exact (setF_ctl _ _ _).trans (setF_ctl _ _ _)

theorem runAt_scheduleRun {p : List Byte} : (scheduleRun c p).ctl.runAt = none := congrArg Ctl.runAt endStep_ctl

/-- The record of the end step in the device `d`: its time, the runs counted, and no overrun. -/
def runRecorded (d : Machine.Core) (time runs : Nat) : Machine.Core :=
  ((d.setF CEN_LAST_RUN.END_NS time).setF CEN_LAST_RUN.RUNS runs).setF CEN_STATUS.OVERRUN 0

theorem runRecorded_ctl {time runs : Nat} : (runRecorded d time runs).ctl = d.ctl := by
  rw [runRecorded, setF_ctl, setF_ctl, setF_ctl]

theorem runRecorded_spec {time runs : Nat} (ht : time < 2 ^ CEN_LAST_RUN.END_NS.len) :
    (runRecorded d time runs).getF CEN_LAST_RUN.END_NS = time ∧ (runRecorded d time runs).flag CEN_STATUS.OVERRUN = false ∧
      (runRecorded d time runs).getF CEN_LAST_RUN.RUNS = runs % 2 ^ CEN_LAST_RUN.RUNS.len := by
  have hkept {g : Field} (hg : g.addr = CEN_LAST_RUN.a) : (runRecorded d time runs).getF g =
      ((d.setF CEN_LAST_RUN.END_NS time).setF CEN_LAST_RUN.RUNS runs).getF g := getF_setF_other (hg ▸ by decide)
  have hover : (runRecorded d time runs).getF CEN_STATUS.OVERRUN = 0 := getF_setF_same (by decide)
  refine ⟨?_, flag_of_getF hover, ?_⟩
  · rw [hkept rfl, getF_setF_apart (f := CEN_LAST_RUN.RUNS) (g := CEN_LAST_RUN.END_NS) (by decide) rfl (by decide),
      getF_setF_same (by decide), Nat.mod_eq_of_lt ht]
  · rw [hkept rfl, getF_setF_same (by decide)]

theorem exec_scheduleComplete {u : Nat} (h : s.core.ctl.runAt = some u) : exec .scheduleComplete s =
    go (fun c _ => runRecorded (scheduleRun c c.ctlImage) (min 65535 (c.now - u)) (c.getF CEN_LAST_RUN.RUNS + 1)) s := by
  refine congrArg Host.Outcome.next (run_congr ?_)
  have hrun : (Laws.start s.core).ctl.runAt = some u := h
  generalize Laws.start s.core = c at hrun
  dsimp only
  rw [hrun]
  rfl

theorem gives_scheduleComplete {u : Nat} (h : s.core.ctl.runAt = some u) :
    Gives .scheduleComplete s fun t =>
      t.ctl.runAt = none ∧ t.getF CEN_LAST_RUN.END_NS = min 65535 (s.core.now - u) ∧
      t.flag CEN_STATUS.OVERRUN = false ∧
      t.getF CEN_LAST_RUN.RUNS = (s.core.getF CEN_LAST_RUN.RUNS + 1) % 2 ^ CEN_LAST_RUN.RUNS.len := by
  have htime : min 65535 (s.core.now - u) < 2 ^ CEN_LAST_RUN.END_NS.len :=
    Nat.lt_of_le_of_lt (Nat.min_le_left _ _) (by decide)
  exact gives_of_effect (exec_scheduleComplete h)
    ⟨(congrArg Ctl.runAt runRecorded_ctl).trans runAt_scheduleRun, runRecorded_spec htime⟩ fun _ h => h

/-! ### Host entries (R236) -/

/-- The record of a host entry. -/
def hostEntry (c : Machine.Core) (k : Nat) : Hin := mapGet (fun _ => (⟨none, 0⟩ : Hin)) c.ctl.hin k

theorem exec_hostInputTimeout {e : Fin 32} {u : Nat} (hdue : (hostEntry s.core (0x60 + e.val)).deadline = some u)
    (hlate : u < s.core.now) : exec (.hostInputTimeout e) s = go (fun c _ => controlAlarm CEN_EVENT.HOST_INPUT_TIMEOUT
      .hostInputTimeout (0x60 + e.val) [0x60 + e.val] false (c.hostWrite (0x60 + e.val)
        (hostEntry c (0x60 + e.val)).fallback 0 (hostEntry c (0x60 + e.val)).fallback)) s := by
  refine congrArg Host.Outcome.next (run_congr ?_)
  have hdeadline : (mapGet (fun _ => (⟨none, 0⟩ : Hin)) (Laws.start s.core).ctl.hin (0x60 + e.val)).deadline = some u :=
    hdue
  simp only [hdeadline]
  exact if_neg (Nat.not_le.mpr hlate)

theorem gives_hostInputTimeout {e : Fin 32} {u : Nat}
    (h : (hostEntry s.core (0x60 + e.val)).deadline = some u ∧ u < s.core.now) :
    Gives (.hostInputTimeout e) s fun t =>
      t.flag CEN_EVENT.HOST_INPUT_TIMEOUT = true ∧ Listed t .hostInputTimeout (0x60 + e.val) [0x60 + e.val] ∧
      t.shadow = s.core.shadow ++ [.hin (0x60 + e.val) (hostEntry s.core (0x60 + e.val)).fallback] := by
  obtain ⟨hflag, hlisted⟩ := controlAlarm_spec (f := CEN_EVENT.HOST_INPUT_TIMEOUT) (nm := .hostInputTimeout)
    (inst := 0x60 + e.val) (data := [0x60 + e.val]) (present := false)
    (c := (Laws.start s.core).hostWrite (0x60 + e.val) (hostEntry s.core (0x60 + e.val)).fallback 0
      (hostEntry s.core (0x60 + e.val)).fallback) ⟨rfl, rfl, by decide⟩ (by decide)
  exact gives_of_effect (exec_hostInputTimeout h.1 h.2)
    ⟨hflag, hlisted, (congrArg Machine.Core.shadow onlyAlarm_raise.1 :)⟩ fun _ h => h

end Events

/-- Settles O6: each event sets the fields that its clause names, and its alarm leaves the registers of the engine alone. -/
theorem controlEvents : Obligations.ControlEvents := by
  unfold Obligations.ControlEvents
  exact ⟨fun _ h => gives_observerLocked h, fun _ hlocked hlost => gives_observerLost hlocked hlost,
    fun _ _ h => gives_scheduleComplete h, fun _ _ _ h => gives_hostInputTimeout h⟩

end Sys2Proof.Proofs
end

