-- ==== Sys2Proof/Proofs/PassedMessages.lean ====
section
/-! A message, signed or not, that passes the checks of R340: its command runs on the device that has taken it (R336, R337). -/
namespace Sys2Proof.Proofs
open Sys2Proof.Machine Sys2Proof.Claims Sys2Proof.Laws

section Messages
variable {s : State} {c d : Machine.Core} {sp : CmdSpec} {m : Msg} {p : List Byte} {op n x : Nat} {f : Field}

/-! ### What taking a message leaves -/

/-- Taking a message writes registers of the mailboxes only (R336, R337). -/
theorem reg_take (h : x / 0x10000 ≠ 0x400C) : (c.take op m).1.reg x = c.reg x := by
  have hmb := m.mb.isLt
  have hstate : x ≠ MBX_STATE.a := by
    rintro rfl
    exact h (by decide)
  have hlast : x ≠ MBX_MB_LAST.a m.mb.val := by
    rintro rfl
    exact h (by dsimp only [MBX_MB_LAST.a]; omega)
  have hcfg : x ≠ MBX_MB_CFG.a m.mb.val := by
    rintro rfl
    exact h (by dsimp only [MBX_MB_CFG.a]; omega)
  unfold Machine.Core.take
  dsimp only
  rw [reg_setBox, reg_setF_other hcfg, reg_setReg_other hlast, reg_setF_other hstate]

theorem getF_take (h : f.addr / 0x10000 ≠ 0x400C) : (c.take op m).1.getF f = c.getF f := getF_of_reg (reg_take h)

theorem sec_take : (c.take op m).1.sec = c.sec := (congrArg Machine.Core.sec (onlyMbx_take (c := c) (op := op) (m := m)) :)

theorem cfg_take : (c.take op m).1.cfg = c.cfg := (congrArg Machine.Core.cfg (onlyMbx_take (c := c) (op := op) (m := m)) :)

theorem trailerOk_take {k : Nat} {t : List Byte} : (c.take op m).1.trailerOk k p t = c.trailerOk k p t := by
  simp only [Machine.Core.trailerOk, Machine.Core.keyHash, sec_take]

theorem blobSeqOk_take {k : Nat} {t : List Byte} : (c.take op m).1.blobSeqOk k t = c.blobSeqOk k t := by
  have hrec : (c.take op m).1.cfgRec k = c.cfgRec k := congrArg (fun l => mapGet (fun _ => CfgRec.none) l k) cfg_take
  rw [Machine.Core.blobSeqOk, hrec, Machine.Core.blobSeqOk]

/-- The device that a command runs on: what it sent before is gone, and the message is taken. -/
def taken (c : Machine.Core) (op : Nat) (m : Msg) : Machine.Core := ((Laws.start c).take op m).1

theorem reg_taken (h : x / 0x10000 ≠ 0x400C) : (taken c op m).reg x = c.reg x := (reg_take h).trans (start_reg c x)

theorem getF_taken (h : f.addr / 0x10000 ≠ 0x400C) : (taken c op m).getF f = c.getF f := getF_of_reg (reg_taken h)

/-! ### The checks of R340 -/

/-- What the checks of R340 ask of a device that is not OFF, for a command that needs neither PRIV nor a signature and a
payload of `n` bytes. -/
structure Passes (c : Machine.Core) (sp : CmdSpec) (n : Nat) : Prop where
  priv : sp.priv = false
  sig : sp.sig ≠ 2
  on : c.mode.code ≠ .off
  mode : sp.modes c.mode.code = true
  grade : sp.grade = none ∨ sp.grade = some c.grade
  len : sp.len n = true
  authority : sp.shadow = false ∨ c.getF PAI_STATUS.AUTH ≠ 1

theorem Passes.take (h : Passes c sp n) : Passes (c.take op m).1 sp n := by
  have hgrade : (c.take op m).1.grade = c.grade := getF_take (by decide)
  have hauth : (c.take op m).1.getF PAI_STATUS.AUTH = c.getF PAI_STATUS.AUTH := getF_take (by decide)
  have hmode : (c.take op m).1.mode = c.mode := (congrArg Machine.Core.mode (onlyMbx_take (c := c) (op := op) (m := m)) :)
  refine ⟨h.priv, h.sig, ?_, ?_, ?_, h.len, ?_⟩
  · rw [hmode]
    exact h.on
  · rw [hmode]
    exact h.mode
  · rw [hgrade]
    exact h.grade
  · rw [hauth]
    exact h.authority

theorem check_unsigned {ref : CmdRef} {body : List Byte} (h : Passes c sp body.length) (hflags : ref.flags = 0)
    (hlen : body.length ≤ 4080) : c.check sp ref body = .go (unsignedCmd ref body) :=
  check_go hflags hlen (.inl h.priv) h.grade h.mode (fun e => absurd e h.on) h.sig h.len h.authority

/-- The command of a message with payload `p` and trailer `t`. -/
def signedCmd (ref : CmdRef) (p t : List Byte) : Cmd := ⟨ref, p, true, u8 t 4, u8 t 5, u64 t 8, u32 t 20, t⟩

theorem check_signed {ref : CmdRef} {body t : List Byte} (h : Passes c sp p.length) (hflags : ref.flags = 1)
    (hlen : body.length ≤ 4080) (hp : p = body.take (body.length - trailerLen))
    (ht : t = body.drop (body.length - trailerLen)) (htrailer : c.trailerOk sp.op p t = true)
    (hseq : c.blobSeqOk sp.op t = true) : c.check sp ref body = .go (signedCmd ref p t) := by
  have hgrade : sp.grade.any (· != c.grade) = false := by rcases h.grade with e | e <;> simp [e]
  have hauth : (sp.shadow && decide (c.getF PAI_STATUS.AUTH = 1)) = false := by rcases h.authority with e | e <;> simp [e]
  have hsigned : bitOf ref.flags 0 = true := by rw [hflags]; rfl
  unfold Machine.Core.check
  simp only [hsigned, if_true, ← hp, ← ht]
  rw [if_neg (by rw [hflags]; decide), if_neg (Nat.not_lt.mpr hlen), if_neg (by simp [h.priv]), if_neg (by simp [hgrade]),
    if_neg (by simp [h.mode, h.on]), if_neg (by simp [htrailer]), if_neg (by simp [hseq]), if_neg (by simp),
    if_neg (by simp [h.len]), if_neg (by simp [hauth])]
  rfl

/-- A message that passes the checks runs its command, with its payload, on the device that has taken it. -/
theorem command_of_ready (hready : Ready c sp.op m p) (h : Passes c sp p.length) :
    ∃ cmd : Cmd, cmd.ref = (c.take sp.op m).2 ∧ cmd.p = p ∧ ∀ g, c.command sp m g = g cmd (c.take sp.op m).1 := by
  rcases hready with ⟨⟨hstate, hserved, hnew, hlen⟩, hflags, rfl⟩ |
    ⟨⟨hstate, hserved, hnew, hlen⟩, hflags, hp, htrailer, hseq⟩
  · exact ⟨unsignedCmd _ _, rfl, rfl, fun _ => command_go hstate hserved hnew
      (check_unsigned h.take (congrArg BitVec.toNat hflags) hlen)⟩
  · rw [← trailerOk_take (op := sp.op) (m := m)] at htrailer
    rw [← blobSeqOk_take (op := sp.op) (m := m)] at hseq
    exact ⟨signedCmd _ _ _, rfl, rfl, fun _ => command_go hstate hserved hnew
      (check_signed h.take (congrArg BitVec.toNat hflags) hlen hp rfl htrailer hseq)⟩

/-- A command has the property where what it does with a message that passes the checks has it. -/
theorem gives_of_ready {i : Instr} {g : Cmd → Machine.Core → Machine.Core} {P : Machine.Core → Prop}
    (hexec : exec i s = go (fun c _ => c.command sp m g) s) (hready : Ready s.core op m p) (hop : sp.op = op)
    (h : Passes s.core sp p.length)
    (hP : ∀ cmd : Cmd, cmd.ref = ((Laws.start s.core).take op m).2 → cmd.p = p →
      P (g cmd (taken s.core op m)))
    (hmem : ∀ d : Machine.Core, P d → P { d with memOps := [] } := by exact fun _ h => h) : Gives i s P := by
  subst hop
  have hstart : Passes (Laws.start s.core) sp p.length := ⟨h.priv, h.sig, h.on, h.mode, h.grade, h.len, h.authority⟩
  obtain ⟨cmd, href, hp, hrun⟩ := command_of_ready (c := Laws.start s.core) hready hstart
  refine gives_of_effect hexec ?_ hmem
  rw [hrun]
  exact hP cmd href hp

/-! ### DONE -/

/-- R336: whatever the command has done before, a final reply frees the mailbox of the message it was taken for. -/
theorem answered_reply_to {ref : CmdRef} {status : Nat} {payload : List Byte} (href : ref = (c.take op m).2)
    (h : status ≠ stACCEPTED) : Answered (d.reply ref status payload) m op status payload := by
  subst href
  obtain ⟨hfree, hready, ⟨r, hstored, href, hstatus, hpayload⟩, -, -⟩ :=
    reply_final (c := d) (ref := (c.take op m).2) (payload := payload) m.mb.isLt h
  exact ⟨⟨r, hstored, by rw [href]; rfl, by rw [href]; rfl, by rw [href]; rfl, hstatus, hpayload⟩, hfree, hready⟩

theorem answered_done {ref : CmdRef} (href : ref = (c.take op m).2) : Answered (d.done ref) m op stDONE [] :=
  answered_reply_to href (by decide)

theorem done_shadow {ref : CmdRef} : (d.done ref).shadow = d.shadow := (congrArg Machine.Core.shadow onlyMbx_reply :)

/-- An answer writes registers of the mailboxes only. -/
theorem reg_done {ref : CmdRef} (hmb : ref.mb < 16) (h : x / 0x10000 ≠ 0x400C) : (d.done ref).reg x = d.reg x := by
  refine reg_reply_other ?_ ?_ ?_
  · rintro rfl
    exact h (by decide)
  · rintro rfl
    exact h (by decide)
  · rintro rfl
    exact h (by dsimp only [MBX_MB_CFG.a]; omega)

/-! ### The checks of a command's fields (R490) -/

theorem firstFail_nil : firstFail [] = none := rfl

/-- A check that does not fail leaves the answer to the others. -/
theorem firstFail_cons {e : Option Fail} {l : List (Option Fail)} (h : e = none) : firstFail (e :: l) = firstFail l := by
  subst h
  rfl

theorem chk_pass {off : Nat} {ok : Bool} (h : ok = true) : chk n off ok = none := if_pos h

/-- A reserved field of zero bytes passes. -/
theorem chkAt_pass {off k : Nat} (h : zeroAt p off k = true) : chkAt n (firstNonZero p off k) = none := by
  rw [firstNonZero, if_pos h]
  rfl

theorem zeroAt_of_u8 {off k : Nat} (h : ∀ j < k, u8 p (off + j) = 0) : zeroAt p off k = true := by
  refine List.all_eq_true.mpr fun b hb => ?_
  obtain ⟨j, hj, rfl⟩ := List.mem_iff_getElem.mp hb
  rw [List.length_take, List.length_drop] at hj
  have hzero := h j (by omega)
  rw [u8, List.getD_eq_getElem _ _ (by omega)] at hzero
  rw [List.getElem_take, List.getElem_drop]
  exact beq_iff_eq.mpr (BitVec.eq_of_toNat_eq hzero)

theorem zero_of_leNat {l : List Byte} (h : leNat l = 0) : ∀ b ∈ l, b = 0 := by
  induction l with
  | nil => exact fun _ hb => absurd hb List.not_mem_nil
  | cons x t ih =>
    rw [leNat] at h
    refine List.forall_mem_cons.mpr ⟨BitVec.eq_of_toNat_eq ?_, ih (by omega)⟩
    show x.toNat = 0
    omega

theorem zeroAt_of_uN {off k : Nat} (h : uN k p off = 0) : zeroAt p off k = true :=
  List.all_eq_true.mpr fun b hb => beq_iff_eq.mpr (zero_of_leNat h b hb)

end Messages
end Sys2Proof.Proofs
end

