-- ==== Sys2Proof/Proofs/OperationCommands.lean ====
section
/-! The operation commands that O36 speaks of: LOOP_INPUT_SET (R236), SLOT_MODE_SET (R237), GRID_SETPOINT (R63),
DISPATCH_WEIGHTS (R205) and TIMER_SET (R178). -/
namespace Sys2Proof.Proofs
open Sys2Proof.Machine Sys2Proof.Claims Sys2Proof.Laws

section Operations
variable {s : State} {c d : Machine.Core} {ref : CmdRef} {m : Msg} {p : List Byte} {op : Nat}

theorem mem_shadow_done {o : ShadowOp} : o ∈ ((d.addShadow o).done ref).shadow := by
  rw [done_shadow, addShadow_shadow]
  exact List.mem_append_right _ (List.mem_singleton_self o)

/-! ### LOOP_INPUT_SET (R236) -/

theorem start_taken : (taken c op m).start = c.start :=
  (congrArg Machine.Core.start (onlyMbx_take (c := Laws.start c) (op := op) (m := m)) :)

theorem grid_taken : (taken c op m).grid = c.grid :=
  (congrArg Machine.Core.grid (onlyMbx_take (c := Laws.start c) (op := op) (m := m)) :)

theorem inForce_taken : (taken c op m).inForce = c.inForce :=
  (congrArg Machine.Core.inForce (onlyMbx_take (c := Laws.start c) (op := op) (m := m)) :)

theorem forceP_taken (k : Nat) : (taken c op m).forceP k = c.forceP k := by
  rw [Machine.Core.forceP, inForce_taken, Machine.Core.forceP]

theorem startP_taken : (taken c op m).startP = c.startP := by
  unfold Machine.Core.startP Machine.Core.cfgInUse
  rw [forceP_taken]

theorem startOwns_taken : (taken c op m).startOwns = c.startOwns := by
  simp only [Machine.Core.startOwns, Machine.Core.angleHin, Machine.Core.speedHin, Machine.Core.tqHin, Machine.Core.vdHin,
    Machine.Core.vqHin, startP_taken, start_taken]

theorem gridOwns_taken : (taken c op m).gridOwns = c.gridOwns := by
  simp only [Machine.Core.gridOwns, Machine.Core.angleHin, Machine.Core.speedHin, Machine.Core.vdHin, Machine.Core.vqHin,
    startP_taken, Machine.Core.gridP, forceP_taken, grid_taken]

theorem unitSig_taken (u : Nat) (v : Int) : (taken c op m).unitSig u v = c.unitSig u v := by
  unfold Machine.Core.unitSig Machine.Core.unitFs Machine.Core.tFs Machine.Core.nFs Machine.Core.iFs Machine.Core.vFs
    Machine.Core.pFs
  rw [getF_taken (f := CEN_T_FS.FS) (by decide), getF_taken (f := CEN_N_FS.FS) (by decide),
    getF_taken (f := CEN_I_FS.FS) (by decide), getF_taken (f := CEN_P_FS.FS) (by decide),
    getF_taken (f := DSP_VSCALE.V_FS) (by decide)]

/-- One record, for an entry that no procedure owns. -/
theorem loopInput_one (hlen : p.length = 16) (hcount : u8 p 0 = 1) (hfields : hostInputFail p = none)
    (hfree : u8 p 4 ∉ d.startOwns ++ d.gridOwns) :
    d.loopInput ref p = (d.hostWrite (u8 p 4) (d.unitSig (u8 p 5) (i32 p 8)) (u16 p 6)
      (d.unitSig (u8 p 5) (i32 p 12))).done ref := by
  have howned : (d.startOwns ++ d.gridOwns).contains (u8 p 4) = false := by simpa using hfree
  unfold Machine.Core.loopInput Machine.Core.hostInputs
  simp only [hlen, hcount, hfields, List.range_one, List.any_cons, List.any_nil, List.foldl_cons, List.foldl_nil]
  rw [if_neg (by decide)]
  exact if_neg (by rw [howned]; decide)

theorem gives_loopInputSet (hready : Ready s.core 0x0320 m p)
    (hmode : s.core.mode.code ≠ .off ∧ s.core.getF PAI_STATUS.AUTH ≠ 1 ∧ p.length = 16)
    (hp : u8 p 0 = 1 ∧ hostInputFail p = none ∧ u8 p 4 ∉ s.core.startOwns ++ s.core.gridOwns) :
    Gives (.loopInputSet m) s fun t =>
      Answered t m 0x0320 stDONE [] ∧ ShadowOp.hin (u8 p 4) (s.core.unitSig (u8 p 5) (i32 p 8)) ∈ t.shadow := by
  obtain ⟨hoff, hauth, hlen⟩ := hmode
  obtain ⟨hcount, hfields, hfree⟩ := hp
  refine gives_of_ready (sp := { op := 0x0320, modes := notOff, len := lenAny, shadow := true }) rfl hready rfl
    ⟨rfl, by decide, hoff, bne_iff_ne.mpr hoff, .inl rfl, rfl, .inr hauth⟩ fun cmd href hpay => ?_
  rw [← startOwns_taken (op := 0x0320) (m := m), ← gridOwns_taken (op := 0x0320) (m := m)] at hfree
  rw [hpay, loopInput_one hlen hcount hfields hfree, unitSig_taken]
  exact ⟨answered_done href, mem_shadow_done⟩

/-! ### SLOT_MODE_SET (R237) -/

theorem ctlImage_taken : (taken c op m).ctlImage = c.ctlImage :=
  regBytes_congr fun j hj => reg_taken (by dsimp only [CEN_CFG_IMAGE.a]; omega)

theorem gives_slotModeSet (hready : Ready s.core 0x0321 m p)
    (hmode : s.core.mode.code ≠ .off ∧ s.core.getF PAI_STATUS.AUTH ≠ 1 ∧ p.length = 4)
    (hp : u8 p 0 < 32 ∧ s.core.flag CEN_CTRL.RUN = true ∧ u8 (slotRec s.core.ctlImage (u8 p 0)) 0 ≠ 0 ∧ u8 p 1 ≤ 1 ∧
      u8 p 2 ≤ 1 ∧ u8 p 3 = 0) :
    Gives (.slotModeSet m) s fun t =>
      Answered t m 0x0321 stDONE [] ∧ ShadowOp.slot (u8 p 0) (u8 p 1) (u8 p 2) ∈ t.shadow := by
  obtain ⟨hoff, hauth, hlen⟩ := hmode
  obtain ⟨hslot, -, htype, hmanual, hbank, hzero⟩ := hp
  refine gives_of_ready (sp := { op := 0x0321, modes := notOff, len := lenIs 4, expect := 4, shadow := true }) rfl hready rfl
    ⟨rfl, by decide, hoff, bne_iff_ne.mpr hoff, .inl rfl, beq_iff_eq.mpr hlen, .inr hauth⟩ fun cmd href hpay => ?_
  have hreserved : zeroAt p 3 1 = true := zeroAt_of_u8 fun j hj => by
    obtain rfl : j = 0 := by omega
    exact hzero
  dsimp only
  rw [hpay, ctlImage_taken, firstFail_cons (chk_pass (by simp [hslot, htype])),
    firstFail_cons (chk_pass (decide_eq_true hmanual)), firstFail_cons (chk_pass (decide_eq_true hbank)),
    firstFail_cons (chkAt_pass hreserved), firstFail_nil]
  exact ⟨answered_done href, mem_shadow_done⟩

/-! ### GRID_SETPOINT (R63) -/

theorem pRated_taken : (taken c op m).pRated = c.pRated := by
  rw [Machine.Core.pRated, Machine.Core.gridP, forceP_taken, Machine.Core.pRated, Machine.Core.gridP]

theorem gives_gridSetpoint (hready : Ready s.core 0x0350 m p)
    (hmode : s.core.mode.code ≠ .off ∧ s.core.grade = 1 ∧ p.length = 12)
    (hp : u32 p 8 = 0 ∧ i32 p 0 * i32 p 0 + i32 p 4 * i32 p 4 ≤ ((s.core.pRated ^ 2 : Nat) : Int)) :
    Gives (.gridSetpoint m) s fun t =>
      Answered t m 0x0350 stDONE [] ∧ ShadowOp.setpoint (i32 p 0) (i32 p 4) ∈ t.shadow := by
  obtain ⟨hoff, hgrade, hlen⟩ := hmode
  obtain ⟨hzero, hpower⟩ := hp
  refine gives_of_ready (sp := { op := 0x0350, modes := notOff, grade := some 1, len := lenIs 12, expect := 12 }) rfl hready
    rfl ⟨rfl, by decide, hoff, bne_iff_ne.mpr hoff, .inr (congrArg some hgrade.symm), beq_iff_eq.mpr hlen, .inl rfl⟩
    fun cmd href hpay => ?_
  dsimp only
  rw [hpay, pRated_taken, firstFail_cons (chkAt_pass (zeroAt_of_uN hzero)), firstFail_cons (chk_pass (decide_eq_true hpower)),
    firstFail_nil]
  exact ⟨answered_done href, mem_shadow_done⟩

/-! ### DISPATCH_WEIGHTS (R205) -/

theorem gives_dispatchWeights (hready : Ready s.core 0x0242 m p)
    (hmode : s.core.mode.code ≠ .off ∧ s.core.mode.code ≠ .safe ∧ s.core.getF PAI_STATUS.AUTH ≠ 1 ∧ p.length = 12)
    (hp : u8 p 9 = 0 ∧ u8 p 10 = 0 ∧ u8 p 11 = 0 ∧ u16 p 4 ≤ 4095 ∧ s.core.getF DSP_STICKY.STICKY_MIN ≤ u8 p 8) :
    Gives (.dispatchWeights m) s fun t => Answered t m 0x0242 stDONE [] ∧ ShadowOp.weights p ∈ t.shadow := by
  obtain ⟨hoff, hsafe, hauth, hlen⟩ := hmode
  obtain ⟨h9, h10, h11, hoffset, hsticky⟩ := hp
  refine gives_of_ready
    (sp := { op := 0x0242, modes := fun k => k != .off && k != .safe, len := lenIs 12, expect := 12, shadow := true })
    rfl hready rfl
    ⟨rfl, by decide, hoff, by simp [hoff, hsafe], .inl rfl, beq_iff_eq.mpr hlen, .inr hauth⟩ fun cmd href hpay => ?_
  have hreserved : zeroAt p 9 3 = true := zeroAt_of_u8 fun j hj => by
    obtain rfl | rfl | rfl : j = 0 ∨ j = 1 ∨ j = 2 := by omega
    · exact h9
    · exact h10
    · exact h11
  rw [hpay, getF_taken (f := DSP_STICKY.STICKY_MIN) (by decide), firstFail_cons (chkAt_pass hreserved),
    firstFail_cons (chk_pass (decide_eq_true hoffset)), firstFail_cons (chk_pass (decide_eq_true hsticky)), firstFail_nil]
  exact ⟨answered_done href, mem_shadow_done⟩

/-! ### TIMER_SET (R178) -/

section Timer
variable {n x mode : Nat}

theorem leNat_lt (l : List Byte) : leNat l < 256 ^ l.length := by
  induction l with
  | nil => exact Nat.one_pos
  | cons b t ih =>
    have hb := b.isLt
    rw [leNat, List.length_cons, pow_succ]
    omega

theorem u32_lt (i : Nat) : u32 p i < 2 ^ 32 :=
  calc u32 p i
    _ < 256 ^ ((p.drop i).take 4).length := leNat_lt _
    _ ≤ 256 ^ 4 := Nat.pow_le_pow_right (by decide) (List.length_take_le 4 _)

/-- Beside its field, a write of CNT_MODE works on STAT and MOD_EVENT only (R172, R174). -/
theorem reg_tchSetMode (hstat : x ≠ MOD_TCH_STAT.a n) (hevent : x ≠ MOD_EVENT.a) :
    (c.tchSetMode n mode).reg x = if c.getF (MOD_TCH_CFG.CNT_MODE n) = mode then c.reg x
      else (c.setF (MOD_TCH_CFG.CNT_MODE n) mode).reg x := by
  unfold Machine.Core.tchSetMode
  split
  · rfl
  · dsimp only
    split
    · exact reg_tchApply hstat hevent
    · rfl

/-- R178: the update set is committed, unless the channel starts with it. -/
def timerCommitted (c : Machine.Core) (start : Bool) (n : Nat) : Machine.Core := if start then c else c.tchCommit n

theorem reg_timerCommitted {start : Bool} (h : x ≠ MOD_TCH_STAT.a n) : (timerCommitted c start n).reg x = c.reg x := by
  unfold timerCommitted
  split
  · rfl
  · exact reg_setF_other h

/-- R178: the payload of TIMER_SET in the shadow registers of its channel. -/
def timerWritten (c : Machine.Core) (n : Nat) (p : List Byte) : Machine.Core :=
  let c1 := (c.setReg (MOD_TCH_PERIOD.a n) (BitVec.ofNat 32 (u32 p 4))).setReg (MOD_TCH_CMP_A.a n)
    (BitVec.ofNat 32 (u32 p 8))
  let c2 := (c1.setReg (MOD_TCH_CMP_B.a n) (BitVec.ofNat 32 (u32 p 12))).setReg (MOD_TCH_PRESC.a n)
    (BitVec.ofNat 32 (u32 p 16))
  let c3 := (c2.setF (MOD_TCH_CFG.SYNC n) (u8 p 1 / 4)).setF (MOD_TCH_CFG.PARTIAL_IGN n) (u8 p 1 / 8)
  (c3.setF (MOD_TCH_CFG.IRQ_EN n) (u8 p 2)).setF (MOD_TCH_CFG.TRG_EN n) (u8 p 3)

theorem period_timerWritten : ((timerWritten c n p).reg (MOD_TCH_PERIOD.a n)).toNat = u32 p 4 := by
  have hreg : (timerWritten c n p).reg (MOD_TCH_PERIOD.a n) = BitVec.ofNat 32 (u32 p 4) := by
    simp [timerWritten, Machine.Core.setF, reg_setReg]
  rw [hreg, BitVec.toNat_ofNat, Nat.mod_eq_of_lt (u32_lt 4)]

theorem cmpA_timerWritten : ((timerWritten c n p).reg (MOD_TCH_CMP_A.a n)).toNat = u32 p 8 := by
  have hreg : (timerWritten c n p).reg (MOD_TCH_CMP_A.a n) = BitVec.ofNat 32 (u32 p 8) := by
    simp [timerWritten, Machine.Core.setF, reg_setReg]
  rw [hreg, BitVec.toNat_ofNat, Nat.mod_eq_of_lt (u32_lt 8)]

theorem irqEn_timerWritten (h : u8 p 2 < 16) : (timerWritten c n p).getF (MOD_TCH_CFG.IRQ_EN n) = u8 p 2 := by
  unfold timerWritten
  dsimp only
  rw [getF_setF_apart (f := MOD_TCH_CFG.TRG_EN n) (g := MOD_TCH_CFG.IRQ_EN n) (by simp) rfl (by simp),
    getF_setF_same (by simp)]
  exact Nat.mod_eq_of_lt h

/-- R178: what TIMER_SET does to its channel before it answers. -/
def channelSet (c : Machine.Core) (start : Bool) (n : Nat) (p : List Byte) : Machine.Core :=
  if start then (timerWritten c n p).tchSetMode n (u8 p 1 % 4)
  else ((timerWritten c n p).tchCommit n).tchSetMode n (u8 p 1 % 4)

variable {start : Bool}

theorem channelSet_eq :
    channelSet c start n p = (timerCommitted (timerWritten c n p) start n).tchSetMode n (u8 p 1 % 4) := by
  unfold channelSet timerCommitted
  split
  · rfl
  · rfl

theorem reg_channelSet (hcfg : x ≠ MOD_TCH_CFG.a n) (hstat : x ≠ MOD_TCH_STAT.a n) (hevent : x ≠ MOD_EVENT.a) :
    (channelSet c start n p).reg x = (timerWritten c n p).reg x := by
  rw [channelSet_eq, reg_tchSetMode hstat hevent, reg_setF_other hcfg, ite_self, reg_timerCommitted hstat]

/-- The registers of the channels lie above MOD_EVENT. -/
theorem tchReg_ne_modEvent {b : Nat} (hb : MOD_EVENT.a < b) : b + 0x20 * n ≠ MOD_EVENT.a := by omega

theorem getF_tchSetMode_cfg {f : Field} (hf : f.addr = MOD_TCH_CFG.a n) :
    (c.tchSetMode n mode).getF f = if c.getF (MOD_TCH_CFG.CNT_MODE n) = mode then c.getF f
      else (c.setF (MOD_TCH_CFG.CNT_MODE n) mode).getF f := by
  have hreg := reg_tchSetMode (c := c) (n := n) (x := f.addr) (mode := mode) (hf ▸ tchCfg_ne_tchStat)
    (hf ▸ tchReg_ne_modEvent (by decide))
  split
  · exact getF_of_reg (hreg.trans (if_pos ‹_›))
  · exact getF_of_reg (hreg.trans (if_neg ‹_›))

theorem period_channelSet : ((channelSet c start n p).reg (MOD_TCH_PERIOD.a n)).toNat = u32 p 4 :=
  (congrArg BitVec.toNat (reg_channelSet (by simp) (by simp) (tchReg_ne_modEvent (by decide)))).trans period_timerWritten

theorem cmpA_channelSet : ((channelSet c start n p).reg (MOD_TCH_CMP_A.a n)).toNat = u32 p 8 :=
  (congrArg BitVec.toNat (reg_channelSet (by simp) (by simp) (tchReg_ne_modEvent (by decide)))).trans cmpA_timerWritten

theorem cntMode_channelSet : (channelSet c start n p).getF (MOD_TCH_CFG.CNT_MODE n) = u8 p 1 % 4 := by
  rw [channelSet_eq, getF_tchSetMode_cfg rfl]
  split
  · assumption
  · rw [getF_setF_same (by simp)]
    exact Nat.mod_mod _ 4

theorem irqEn_channelSet (h : u8 p 2 < 16) : (channelSet c start n p).getF (MOD_TCH_CFG.IRQ_EN n) = u8 p 2 := by
  have hcommitted : (timerCommitted (timerWritten c n p) start n).getF (MOD_TCH_CFG.IRQ_EN n) = u8 p 2 :=
    (getF_of_reg (reg_timerCommitted tchCfg_ne_tchStat)).trans (irqEn_timerWritten h)
  rw [channelSet_eq, getF_tchSetMode_cfg rfl,
    getF_setF_apart (f := MOD_TCH_CFG.CNT_MODE n) (g := MOD_TCH_CFG.IRQ_EN n) (by simp) rfl (by simp), ite_self, hcommitted]

/-- The registers of a timer channel are none of a mailbox. -/
theorem tchReg_outside {b : Nat} (hb : 0x40061000 ≤ b ∧ b < 0x40061020) (hn : n < 64) :
    (b + 0x20 * n) / 0x10000 ≠ 0x400C := by omega

theorem tchOwned_taken (hn : n < 64) : (taken c op m).tchOwned n = c.tchOwned n :=
  flag_of_reg (reg_taken (tchReg_outside (by decide) hn))

/-- What TIMER_SET sets stands through its answer. -/
theorem channelSet_done (hmb : ref.mb < 16) (hn : n < 64) (hirq : u8 p 2 < 16) :
    (((channelSet c start n p).done ref).reg (MOD_TCH_PERIOD.a n)).toNat = u32 p 4 ∧
    (((channelSet c start n p).done ref).reg (MOD_TCH_CMP_A.a n)).toNat = u32 p 8 ∧
    ((channelSet c start n p).done ref).getF (MOD_TCH_CFG.CNT_MODE n) = u8 p 1 % 4 ∧
    ((channelSet c start n p).done ref).getF (MOD_TCH_CFG.IRQ_EN n) = u8 p 2 := by
  have kept {b : Nat} (hb : 0x40061000 ≤ b ∧ b < 0x40061020) :
      ((channelSet c start n p).done ref).reg (b + 0x20 * n) = (channelSet c start n p).reg (b + 0x20 * n) :=
    reg_done hmb (tchReg_outside hb hn)
  have hcfg := kept (b := 0x40061000) (by decide)
  refine ⟨?_, ?_, (getF_of_reg hcfg).trans cntMode_channelSet, (getF_of_reg hcfg).trans (irqEn_channelSet hirq)⟩
  · rw [kept (by decide), period_channelSet]
  · rw [kept (by decide), cmpA_channelSet]

theorem gives_timerSet (hready : Ready s.core 0x0232 m p) (hmode : s.core.mode.code ≠ .off ∧ p.length = 20)
    (hp : u8 p 0 < 64 ∧ s.core.tchOwned (u8 p 0) = false ∧ u8 p 1 < 16 ∧ u8 p 2 < 16 ∧ u8 p 3 < 16 ∧ 2 ≤ u32 p 4) :
    Gives (.timerSet m) s fun t =>
      Answered t m 0x0232 stDONE [] ∧ (t.reg (MOD_TCH_PERIOD.a (u8 p 0))).toNat = u32 p 4 ∧
      (t.reg (MOD_TCH_CMP_A.a (u8 p 0))).toNat = u32 p 8 ∧ t.getF (MOD_TCH_CFG.CNT_MODE (u8 p 0)) = u8 p 1 % 4 ∧
      t.getF (MOD_TCH_CFG.IRQ_EN (u8 p 0)) = u8 p 2 := by
  obtain ⟨hoff, hlen⟩ := hmode
  obtain ⟨hchannel, howner, hctl, hirq, htrg, hperiod⟩ := hp
  refine gives_of_ready (sp := { op := 0x0232, modes := notOff, len := lenIs 20, expect := 20 }) rfl hready rfl
    ⟨rfl, by decide, hoff, bne_iff_ne.mpr hoff, .inl rfl, beq_iff_eq.mpr hlen, .inl rfl⟩ fun cmd href hpay => ?_
  rw [hpay]
  dsimp only
  rw [tchOwned_taken hchannel, firstFail_cons (chk_pass (by simp [hchannel, howner])),
    firstFail_cons (chk_pass (decide_eq_true hctl)), firstFail_cons (chk_pass (decide_eq_true hirq)),
    firstFail_cons (chk_pass (decide_eq_true htrg)), firstFail_cons (chk_pass (decide_eq_true hperiod)), firstFail_nil]
  exact ⟨answered_done href, channelSet_done (href ▸ m.mb.isLt) hchannel hirq⟩

end Timer

end Operations

/-- Settles O36: a message that passes the checks of its command is answered DONE, and what the command set before stands
through the answer. -/
theorem operationCommands : Obligations.OperationCommands := by
  unfold Obligations.OperationCommands
  exact ⟨fun _ _ _ => gives_loopInputSet, fun _ _ _ => gives_slotModeSet, fun _ _ _ => gives_gridSetpoint,
    fun _ _ _ => gives_dispatchWeights, fun _ _ _ => gives_timerSet⟩

end Sys2Proof.Proofs
end

