-- ==== Sys2Proof/Proofs/FieldBits.lean ====
section
/-! One bit of a field written (R9), and what the alarm table leaves of the registers below the mailbox (R343, R391). -/
namespace Sys2Proof.Proofs
open Sys2Proof.Machine Sys2Proof.Claims Sys2Proof.Laws

/-! ### One bit of a field -/
section Bits
variable {c : Machine.Core} {f g : Field} {x i j v : Nat} {b : Bool}

theorem bitOf_eq_bitsOf : bitOf x i = (bitsOf x i 1 == 1) := by
  rw [bitsOf, pow_one, bitOf]

theorem bitOf_putBits : bitOf (putBits x i 1 v) j = if j = i then v % 2 == 1 else bitOf x j := by
  rw [bitOf_eq_bitsOf, bitOf_eq_bitsOf]
  rcases Nat.lt_trichotomy j i with h | rfl | h
  · rw [if_neg h.ne, bitsOf_putBits_below h]
  · rw [if_pos rfl, bitsOf_putBits_same, pow_one]
  · rw [if_neg h.ne', bitsOf_putBits_above h]

/-- A bit set or cleared is a field of one bit replaced. -/
theorem setBit_or_clrBit : (if b then setBit x i else clrBit x i) = putBits x i 1 (b2n b) := by
  have hbit : bitsOf x i 1 = b2n (bitOf x i) := by
    have htwo := Nat.mod_two_eq_zero_or_one (x / 2 ^ i)
    rw [bitsOf, pow_one, bitOf]
    rcases htwo with h | h <;> rw [h] <;> rfl
  have hle (h : bitOf x i = true) : 2 ^ i ≤ x := by
    refine Nat.le_of_not_lt fun hlt => ?_
    rw [bitOf, Nat.div_eq_of_lt hlt] at h
    exact absurd h (by decide)
  rw [← putBits_of_sub (by cases b <;> decide), hbit, setBit, clrBit]
  cases hx : bitOf x i
  · cases b <;> simp [b2n]
  · have hpow := hle hx
    cases b
    · simp [b2n]
    · simp [b2n, Nat.sub_add_cancel hpow]

/-- A bit of a field used as a bit map, after one of its bits is written. -/
theorem getBit_putBit (h : f.lo + f.len ≤ 32) (hj : j < f.len) :
    (c.putBit f i b).getBit f j = if j = i then b else c.getBit f j := by
  have hbit : (b2n b % 2 == 1) = b := by cases b <;> rfl
  rw [Machine.Core.getBit, Machine.Core.putBit, getF_setF_same h, bitOf_mod hj, setBit_or_clrBit, bitOf_putBits, hbit]
  rfl

theorem flag_setF_same (h : f.lo + f.len ≤ 32) (hlen : f.len = 1) : (c.setF f v).flag f = (v % 2 == 1) := by
  rw [flag_of_getF (getF_setF_same h), hlen, pow_one]

theorem getF_setF_of_apart (h : Apart g f) : (c.setF f v).getF g = c.getF g := (undisturbed_setF h).1

theorem flag_setF_of_apart (h : Apart g f) : (c.setF f v).flag g = c.flag g := flag_of_getF (getF_setF_of_apart h)

end Bits

/-! ### Alarms -/
section Alarms
variable {c : Machine.Core} {f : Field} {nm : AlarmName} {inst x : Nat} {data : List Nat} {present : Bool}

theorem tlmReg_below (h : x < 0x400C0000) : tlmReg x = false := by
  have hne {y : Nat} (hy : 0x400C0000 ≤ y) : x ≠ y := by omega
  simp only [tlmReg, List.contains_cons, List.contains_nil, Bool.or_false, Bool.or_eq_false_iff, beq_eq_false_iff_ne]
  exact ⟨hne (by decide), hne (by decide), hne (by decide), hne (by decide)⟩

/-- The alarm table and what raising an alarm tells the host stand in the registers of the mailbox and above. -/
theorem reg_raise_below (h : x < 0x400C0000) : (c.raise nm inst data present).reg x = c.reg x :=
  onlyAlarm_raise.2 x (tlmReg_below h) fun e => by
    rw [e] at h
    exact absurd h (by decide)

theorem reg_clearCause_below (h : x < 0x400C0000) : (c.clearCause nm inst).reg x = c.reg x :=
  onlyTlm_clearCause.2 x (tlmReg_below h)

/-- A field set before an alarm is raised stands. -/
theorem flag_raise_below (h : f.addr < 0x400C0000) : (c.raise nm inst data present).flag f = c.flag f :=
  flag_of_reg (reg_raise_below h)

theorem clearCause_fbk : (c.clearCause nm inst).fbk = c.fbk := (congrArg Machine.Core.fbk onlyTlm_clearCause.1 :)

theorem clearCause_dok : (c.clearCause nm inst).dok = c.dok := (congrArg Machine.Core.dok onlyTlm_clearCause.1 :)

/-- An event bit with its alarm. -/
theorem event_raise_spec (h : f.addr < 0x400C0000) (hfits : f.lo + f.len ≤ 32) (hlen : f.len = 1)
    (hnm : nm ≠ .alarmTableFold) :
    ((c.event f).raise nm inst data present).flag f = true ∧
      Listed ((c.event f).raise nm inst data present) nm inst data :=
  ⟨(flag_raise_below h).trans (flag_event_same hfits hlen), raise_listed hnm⟩

end Alarms

end Sys2Proof.Proofs
end

