-- ==== Sys2Proof/Proofs/Resolver.lean ====
section
/-! The resolver: an update of its loop (R241, R242), lock and the three ways to lose it (R244). -/
namespace Sys2Proof.Proofs
open Sys2Proof.Machine Sys2Proof.Claims Sys2Proof.Laws

section Resolver
variable {s : State} {c : Machine.Core} {f : Field} {nm : AlarmName} {n t u v : Nat}

/-! ### What unit A does next leaves the history of the loop (R297) -/

theorem sarStatus_fbk : (c.sarStatus u).fbk = c.fbk := by
  unfold Machine.Core.sarStatus
  extract_lets x c1 c2
  have hbusy : c1.fbk = c.fbk := by rw [setFlag_fbk, setFlag_fbk]
  have hshown : c2.fbk = c1.fbk := by
    unfold c2
    split
    · rw [setF_fbk, setF_fbk]
    · split
      · rw [setF_fbk, setF_fbk]
      · rw [setF_fbk]
  rw [setFlag_fbk, setFlag_fbk, hshown, hbusy]

theorem setUnit_fbk {x : SarUnit} : (c.setUnit u x).fbk = c.fbk := rfl

theorem setCh_fbk {ch st : Nat} : (c.setCh ch st).fbk = c.fbk := by
  rw [Machine.Core.setCh, putBit_fbk, setF_fbk]

theorem putUnit_fbk {x : SarUnit} : (c.putUnit u x).fbk = c.fbk := sarStatus_fbk

theorem sarEntryStart_fbk {phase k : Nat} : (c.sarEntryStart u phase k t).fbk = c.fbk := putUnit_fbk

theorem dropRecord_fbk : (c.dropRecord u n).fbk = c.fbk := by
  unfold Machine.Core.dropRecord
  split
  · rfl
  · rw [event_fbk, bump_fbk]

theorem pushRecord_fbk {w0 w1 : Nat} : (c.pushRecord u w0 w1).fbk = c.fbk := by
  unfold Machine.Core.pushRecord
  dsimp only
  split
  · rfl
  · split
    · exact dropRecord_fbk
    · split
      · rw [setCh_fbk, setUnit_fbk]
      · rw [setUnit_fbk]

theorem sarRecord_fbk {w : Nat × Nat} {dma : Bool} : (c.sarRecord u w dma).fbk = c.fbk := by
  unfold Machine.Core.sarRecord
  dsimp only
  split
  · rw [pushRecord_fbk, setReg_fbk, setReg_fbk]
  · rw [setReg_fbk, setReg_fbk]

theorem sarResume_fbk {w : SarWork} {a : Option Nat} : (c.sarResume u w a t).fbk = c.fbk := by
  cases a with
  | none => exact sarEntryStart_fbk
  | some a => exact putUnit_fbk.trans sarRecord_fbk

theorem hist_pairBegin {a : Nat} : (c.pairBegin n t a).fbk.hist = c.fbk.hist := by
  rw [Machine.Core.pairBegin, putUnit_fbk]

theorem hist_sarNext : (c.sarNext u t).fbk.hist = c.fbk.hist := by
  unfold Machine.Core.sarNext
  dsimp only
  split
  · exact congrArg Fbk.hist putUnit_fbk
  · split
    · exact hist_pairBegin
    · split
      · exact congrArg Fbk.hist putUnit_fbk
      · split
        · exact congrArg Fbk.hist sarResume_fbk
        · exact congrArg Fbk.hist putUnit_fbk

/-! ### An update of the loop (R241, R242) -/

theorem resolverEnd_fbk {los clip lot : Bool} : (c.resolverEnd los clip lot).fbk = c.fbk := by
  have ended {d : Machine.Core} {b : Bool} {nm : AlarmName} : (if b then d else d.clearCause nm 0).fbk = d.fbk := by
    split
    · rfl
    · exact clearCause_fbk
  exact ended.trans (ended.trans ended)

theorem resolverFlags_fbk : c.resolverFlags.fbk = c.fbk := by
  rw [Machine.Core.resolverFlags, setFlag_fbk, setFlag_fbk, setFlag_fbk]

/-- An update enters the history with the time of its peak; the history holds the last four. -/
theorem hist_resolverStep {sin cos : Int} {ok : Bool} :
    ∃ phi d8, (c.resolverStep n t sin cos ok).fbk.hist = ((t, phi, d8) :: c.fbk.hist).take 4 := by
  unfold Machine.Core.resolverStep
  dsimp only
  rw [setF_fbk, resolverEnd_fbk, resolverFlags_fbk, setF_fbk]
  exact ⟨_, _, rfl⟩

/-- Unit A is done with the pair of a peak. -/
def pairDone (c : Machine.Core) : Machine.Core :=
  { c with fbk := { c.fbk with pair := none } }.setUnit 0 { c.unit 0 with phase := 0 }

/-- While unit A converts a pair no other peak is taken. -/
theorem pairCatch_converting (h : (c.unit 0).phase = 4) : c.pairCatch 0 = c :=
  if_neg fun e => by
    rw [h] at e
    exact absurd e.2 (by decide)

theorem exec_resolverUpdate {sin cos : SarRaw} (hpair : s.core.fbk.pair = some (n, u))
    (hunit : (s.core.unit 0).phase = 4 ∧ (s.core.unit 0).due ≤ 2 * s.core.now) (hexc : s.core.excitation = true) :
    exec (.resolverUpdate sin cos) s = go (fun c _ => ((pairDone c).resolverStep n u (c.resCode sin.code)
      (c.resCode cos.code) (sin.ok && cos.ok)).sarNext 0 (c.unit 0).due) s := by
  refine congrArg Host.Outcome.next (run_congr ?_)
  replace hpair : (Laws.start s.core).fbk.pair = some (n, u) := hpair
  replace hunit : ((Laws.start s.core).unit 0).phase = 4 ∧
    ((Laws.start s.core).unit 0).due ≤ 2 * (Laws.start s.core).now := hunit
  replace hexc : (Laws.start s.core).excitation = true := hexc
  generalize Laws.start s.core = c at hpair hunit hexc
  dsimp only
  rw [pairCatch_converting hunit.1, hpair]
  dsimp only
  rw [if_neg (not_or.mpr ⟨not_not.mpr hunit.1, Nat.not_lt.mpr hunit.2⟩), if_pos hexc]
  rfl

theorem gives_resolverUpdate {sin cos : SarRaw} (hpair : s.core.fbk.pair = some (n, u))
    (hunit : (s.core.unit 0).phase = 4 ∧ (s.core.unit 0).due ≤ 2 * s.core.now) (hexc : s.core.excitation = true) :
    Gives (.resolverUpdate sin cos) s fun t =>
      t.fbk.hist.head?.map (·.1) = some u ∧ t.fbk.hist.tail = s.core.fbk.hist.take 3 := by
  refine gives_of_effect (exec_resolverUpdate hpair hunit hexc) ?_
  obtain ⟨phi, d8, hhist⟩ := hist_resolverStep (c := pairDone (Laws.start s.core)) (n := n) (t := u)
    (sin := (Laws.start s.core).resCode sin.code) (cos := (Laws.start s.core).resCode cos.code) (ok := sin.ok && cos.ok)
  rw [hist_sarNext, hhist]
  exact ⟨rfl, rfl⟩

/-! ### Lock and its losses (R244) -/

theorem gives_resolverLocked (h : s.core.flag FBK_CTRL.RES_EN = true ∧ s.core.flag FBK_RES_STAT.LOCKED = false ∧
    64 ≤ s.core.getF FBK_RES_STAT.RUN) :
    Gives .resolverLocked s fun t =>
      t.flag FBK_RES_STAT.LOCKED = true ∧ t.flag FBK_EVENT.RESOLVER_LOCKED = true := by
  have hexec : exec .resolverLocked s =
      go (fun c _ => (c.setF FBK_RES_STAT.LOCKED 1).event FBK_EVENT.RESOLVER_LOCKED) s :=
    congrArg Host.Outcome.next (run_congr (if_pos ⟨h.1, congrArg not h.2.1, h.2.2⟩))
  refine gives_of_effect hexec ⟨?_, flag_event_same (by decide) rfl⟩
  exact (flag_of_reg (reg_event_other (by decide))).trans (flag_setF_same (by decide) rfl)

/-- A loss of lock, whatever its condition: LOCKED is cleared, and the event and the alarm name the condition. -/
theorem gives_resolverUnlock {i : Instr} (haddr : f.addr = FBK_EVENT.a) (hfits : f.lo + f.len ≤ 32) (hlen : f.len = 1)
    (hnm : nm ≠ .alarmTableFold) (hexec : exec i s = go (fun c _ => c.resolverUnlock f nm) s) :
    Gives i s fun t => t.flag FBK_RES_STAT.LOCKED = false ∧ t.flag f = true ∧ Listed t nm 0 [] := by
  have hlow : f.addr < 0x400C0000 := haddr ▸ by decide
  have hother : FBK_RES_STAT.LOCKED.addr ≠ f.addr := haddr ▸ by decide
  refine gives_of_effect hexec ⟨?_, event_raise_spec hlow hfits hlen hnm⟩
  calc ((Laws.start s.core).resolverUnlock f nm).flag FBK_RES_STAT.LOCKED
    _ = (((Laws.start s.core).setF FBK_RES_STAT.LOCKED 0).event f).flag FBK_RES_STAT.LOCKED := flag_raise_below (by decide)
    _ = ((Laws.start s.core).setF FBK_RES_STAT.LOCKED 0).flag FBK_RES_STAT.LOCKED := flag_of_reg (reg_event_other hother)
    _ = false := flag_setF_same (by decide) rfl

theorem gives_resolverLos (h : s.core.flag FBK_RES_STAT.LOCKED = true ∧ 4 ≤ s.core.fbk.runLos) :
    Gives .resolverLos s fun t =>
      t.flag FBK_RES_STAT.LOCKED = false ∧ t.flag FBK_EVENT.RESOLVER_LOS = true ∧ Listed t .resolverLos 0 [] :=
  gives_resolverUnlock rfl (by decide) rfl (by decide) (congrArg Host.Outcome.next (run_congr (if_pos h)))

theorem gives_resolverClip (h : s.core.flag FBK_RES_STAT.LOCKED = true ∧ 4 ≤ s.core.fbk.runClip) :
    Gives .resolverClip s fun t =>
      t.flag FBK_RES_STAT.LOCKED = false ∧ t.flag FBK_EVENT.RESOLVER_CLIP = true ∧ Listed t .resolverClip 0 [] :=
  gives_resolverUnlock rfl (by decide) rfl (by decide) (congrArg Host.Outcome.next (run_congr (if_pos h)))

theorem gives_resolverLot (h : s.core.flag FBK_RES_STAT.LOCKED = true ∧ s.core.lotN ≤ s.core.fbk.runLot) :
    Gives .resolverLot s fun t =>
      t.flag FBK_RES_STAT.LOCKED = false ∧ t.flag FBK_EVENT.RESOLVER_LOT = true ∧ Listed t .resolverLot 0 [] :=
  gives_resolverUnlock rfl (by decide) rfl (by decide) (congrArg Host.Outcome.next (run_congr (if_pos h)))

end Resolver

/-- Settles O10: what unit A converts after the pair leaves the loop's history; a lock and each of its three losses set LOCKED
and their event, and the alarm of a loss leaves both. -/
theorem resolverEvents : Obligations.ResolverEvents := by
  unfold Obligations.ResolverEvents
  exact ⟨fun _ _ _ _ _ ⟨hpair, hunit⟩ hexc => gives_resolverUpdate hpair hunit hexc, fun _ h => gives_resolverLocked h,
    fun _ h => gives_resolverLos h, fun _ h => gives_resolverClip h, fun _ h => gives_resolverLot h⟩

end Sys2Proof.Proofs
end

