-- ==== Sys2Proof/Proofs/HallEdges.lean ====
section
/-! A Hall edge (R245): what the decoder of the foreground makes of a code that its filter passes (R249). -/
namespace Sys2Proof.Proofs
open Sys2Proof.Machine Sys2Proof.Claims Sys2Proof.Laws

section Halls
variable {s : State} {c : Machine.Core} {f : Field} {k old t : Nat} {r island : Held} {code : BitVec 3}

/-- A level that has changed, and that the samples have shown, goes to the filter (R249). -/
theorem not_ignored {p : Prop} {shown : Bool} (hp : ¬ p) (hshown : shown = true) : ¬ (p ∨ (!shown) = true) :=
  not_or.mpr ⟨hp, by rw [hshown]; decide⟩

/-- The safety island's own decoder touches nothing but the record of the feedback block (R252). -/
theorem safeHallEdge_frame : { c.safeHallEdge k r with fbk := c.fbk } = c := by
  unfold Machine.Core.safeHallEdge
  dsimp only
  split <;> rfl

theorem getF_safeHallEdge : (c.safeHallEdge k r).getF f = c.getF f :=
  (congrArg (fun d : Machine.Core => d.getF f) safeHallEdge_frame :)

theorem shown_safeHallEdge {h : Held} :
    (c.safeHallEdge k r).shown (c.safeHallEdge k r).inputStep h = c.shown c.inputStep h :=
  (congrArg (fun d : Machine.Core => d.shown d.inputStep h) safeHallEdge_frame :)

/-! ### What an edge does -/

/-- The code and the levels of the Hall inputs as an edge leaves them. -/
def hallTaken (c : Machine.Core) (k : Nat) : Machine.Core :=
  (c.setF FBK_HALL_STAT.CODE k).setF FBK_IN_STAT.LEVEL (c.getF FBK_IN_STAT.LEVEL / 8 * 8 + k)

/-- The foreground's decoder on a code: the source, the sector, and 1 for an impossible code or 2 for a jump. -/
def hallDecoded (c : Machine.Core) (k t : Nat) : Pulse × Nat × Nat :=
  hallDecode (c.flag FBK_CTRL.HALL_DIR) c.fbk.hall (c.getF FBK_HALL_STAT.SECTOR) k t

/-- The source, the sector and the direction that the decoder found. -/
def hallMoved (c : Machine.Core) (x : Pulse × Nat × Nat) : Machine.Core :=
  ({ c with fbk := { c.fbk with hall := x.1 } }.setF FBK_HALL_STAT.SECTOR x.2.1).setFlag FBK_HALL_STAT.DIR (x.1.dir == -1)

/-- An impossible code is counted. -/
def impossibleCounted (c : Machine.Core) : Machine.Core :=
  ((c.setF FBK_HALL_STAT.ANGLE_VALID 0).setF FBK_SPEED_STAT.HALL_VALID 0).bump FBK_ERR_COUNT.IMPOSSIBLE 1

/-- What the decoder's finding leads to. -/
def hallReported (c : Machine.Core) (found old k : Nat) : Machine.Core :=
  match found with
  | 1 => ((impossibleCounted c).event FBK_EVENT.HALL_IMPOSSIBLE).raise .hallImpossible 0 [k] false
  | 2 => ((c.bump FBK_ERR_COUNT.JUMPS 1).event FBK_EVENT.HALL_JUMP).raise .hallJump 0 [old, k] false
  | _ => c

/-- An edge that the filter passes. -/
def hallPassed (c : Machine.Core) (k t : Nat) : Machine.Core :=
  if !c.flag FBK_CTRL.HALL_EN then hallTaken c k
  else hallReported (hallMoved (hallTaken c k) (hallDecoded c k t)) (hallDecoded c k t).2.2 (c.getF FBK_HALL_STAT.CODE) k

theorem exec_hallEdge (hcode : s.core.getF FBK_HALL_STAT.CODE ≠ code.toNat)
    (hshown : s.core.shown s.core.inputStep r = true) (hfilt : s.core.getF FBK_IN_FILT.HALL < r.n) :
    exec (.hallEdge code ⟨r, island⟩) s =
      go (fun c _ => hallPassed (c.safeHallEdge code.toNat island) code.toNat r.t) s := by
  refine congrArg Host.Outcome.next (run_congr ?_)
  have hcode' : ((Laws.start s.core).safeHallEdge code.toNat island).getF FBK_HALL_STAT.CODE ≠ code.toNat :=
    getF_safeHallEdge.trans_ne hcode
  have hshown' := (shown_safeHallEdge (c := Laws.start s.core) (k := code.toNat) (r := island)).trans hshown
  have hfilt' : ((Laws.start s.core).safeHallEdge code.toNat island).getF FBK_IN_FILT.HALL < r.n :=
    getF_safeHallEdge.trans_lt hfilt
  dsimp only
  generalize (Laws.start s.core).safeHallEdge code.toNat island = c at hcode' hshown' hfilt'
  rw [if_neg (not_ignored hcode' hshown'), if_neg (Nat.not_le.mpr hfilt')]
  rfl

/-! ### What an edge leaves -/

/-- The report of a finding leaves the code and the levels. -/
theorem hallReported_kept (found : Nat) : (hallReported c found old k).getF FBK_HALL_STAT.CODE = c.getF FBK_HALL_STAT.CODE ∧
    (hallReported c found old k).getF FBK_IN_STAT.LEVEL = c.getF FBK_IN_STAT.LEVEL := by
  have reported {d : Machine.Core} {g : Field} {nm : AlarmName} {l : List Nat} (hg : g.addr = FBK_EVENT.a) {x : Nat}
      (hx : x < 0x400C0000) (hne : x ≠ FBK_EVENT.a) : ((d.event g).raise nm 0 l false).reg x = d.reg x :=
    (reg_raise_below hx).trans (reg_event_other (hg ▸ hne))
  unfold hallReported
  split
  · have hcounted : (impossibleCounted c).getF FBK_HALL_STAT.CODE = c.getF FBK_HALL_STAT.CODE :=
      calc (impossibleCounted c).getF FBK_HALL_STAT.CODE
        _ = ((c.setF FBK_HALL_STAT.ANGLE_VALID 0).setF FBK_SPEED_STAT.HALL_VALID 0).getF FBK_HALL_STAT.CODE :=
          getF_setF_other (by decide)
        _ = (c.setF FBK_HALL_STAT.ANGLE_VALID 0).getF FBK_HALL_STAT.CODE := getF_setF_other (by decide)
        _ = c.getF FBK_HALL_STAT.CODE := getF_setF_apart (by decide) rfl (by decide)
    have hlevel : (impossibleCounted c).reg FBK_IN_STAT.a = c.reg FBK_IN_STAT.a := by
      rw [impossibleCounted, reg_bump_other (by decide), reg_setF_other (by decide), reg_setF_other (by decide)]
    exact ⟨(getF_of_reg (reported rfl (by decide) (by decide))).trans hcounted,
      getF_of_reg ((reported rfl (by decide) (by decide)).trans hlevel)⟩
  · exact ⟨getF_of_reg ((reported rfl (by decide) (by decide)).trans (reg_bump_other (by decide))),
      getF_of_reg ((reported rfl (by decide) (by decide)).trans (reg_bump_other (by decide)))⟩
  · exact ⟨rfl, rfl⟩

theorem hallMoved_kept {x : Pulse × Nat × Nat} : (hallMoved c x).getF FBK_HALL_STAT.CODE = c.getF FBK_HALL_STAT.CODE ∧
    (hallMoved c x).getF FBK_IN_STAT.LEVEL = c.getF FBK_IN_STAT.LEVEL := by
  have hcode : (hallMoved c x).getF FBK_HALL_STAT.CODE =
      ({ c with fbk := { c.fbk with hall := x.1 } }.setF FBK_HALL_STAT.SECTOR x.2.1).getF FBK_HALL_STAT.CODE :=
    getF_setF_apart (by decide) rfl (by decide)
  refine ⟨hcode.trans (getF_setF_apart (by decide) rfl (by decide)), getF_of_reg ?_⟩
  exact (reg_setFlag_other (by decide)).trans (reg_setF_other (by decide))

theorem hallTaken_spec (hk : k < 8) : (hallTaken c k).getF FBK_HALL_STAT.CODE = k ∧
    (hallTaken c k).getF FBK_IN_STAT.LEVEL % 8 = k := by
  have hcode : (hallTaken c k).getF FBK_HALL_STAT.CODE = (c.setF FBK_HALL_STAT.CODE k).getF FBK_HALL_STAT.CODE :=
    getF_setF_other (by decide)
  have hlevel : (hallTaken c k).getF FBK_IN_STAT.LEVEL = (c.getF FBK_IN_STAT.LEVEL / 8 * 8 + k) % 2 ^ 7 :=
    getF_setF_same (by decide)
  refine ⟨(hcode.trans (getF_setF_same (by decide))).trans (Nat.mod_eq_of_lt hk), ?_⟩
  rw [hlevel]
  omega

theorem hallPassed_spec (hk : k < 8) : (hallPassed c k t).getF FBK_HALL_STAT.CODE = k ∧
    (hallPassed c k t).getF FBK_IN_STAT.LEVEL % 8 = k := by
  unfold hallPassed
  split
  · exact hallTaken_spec hk
  · rw [(hallReported_kept _).1, (hallReported_kept _).2, hallMoved_kept.1, hallMoved_kept.2]
    exact hallTaken_spec hk

/-- A code without a sector: the angle is invalid, and the event and the alarm say so. -/
theorem hallPassed_impossible (hen : c.flag FBK_CTRL.HALL_EN = true)
    (hsector : hallSector (c.flag FBK_CTRL.HALL_DIR) k = none) :
    (hallPassed c k t).flag FBK_HALL_STAT.ANGLE_VALID = false ∧ (hallPassed c k t).flag FBK_EVENT.HALL_IMPOSSIBLE = true ∧
      Listed (hallPassed c k t) .hallImpossible 0 [k] := by
  have hfound : (hallDecoded c k t).2.2 = 1 := by
    unfold hallDecoded hallDecode
    rw [hsector]
  unfold hallPassed
  rw [if_neg (by rw [hen]; decide), hfound]
  refine ⟨?_, event_raise_spec (by decide) (by decide) rfl (by decide)⟩
  generalize hallMoved (hallTaken c k) (hallDecoded c k t) = d
  calc (hallReported d 1 (c.getF FBK_HALL_STAT.CODE) k).flag FBK_HALL_STAT.ANGLE_VALID
    _ = ((impossibleCounted d).event FBK_EVENT.HALL_IMPOSSIBLE).flag FBK_HALL_STAT.ANGLE_VALID := flag_raise_below (by decide)
    _ = (impossibleCounted d).flag FBK_HALL_STAT.ANGLE_VALID := flag_of_reg (reg_event_other (by decide))
    _ = ((d.setF FBK_HALL_STAT.ANGLE_VALID 0).setF FBK_SPEED_STAT.HALL_VALID 0).flag FBK_HALL_STAT.ANGLE_VALID :=
      flag_of_reg (reg_bump_other (by decide))
    _ = (d.setF FBK_HALL_STAT.ANGLE_VALID 0).flag FBK_HALL_STAT.ANGLE_VALID := flag_of_reg (reg_setF_other (by decide))
    _ = false := flag_setF_same (by decide) rfl

theorem gives_hallEdge (hcode : s.core.getF FBK_HALL_STAT.CODE ≠ code.toNat)
    (hseen : s.core.shown s.core.inputStep r = true ∧ s.core.getF FBK_IN_FILT.HALL < r.n) :
    Gives (.hallEdge code ⟨r, island⟩) s fun t =>
      t.getF FBK_HALL_STAT.CODE = code.toNat ∧ t.getF FBK_IN_STAT.LEVEL % 8 = code.toNat ∧
      (s.core.flag FBK_CTRL.HALL_EN = true → hallSector (s.core.flag FBK_CTRL.HALL_DIR) code.toNat = none →
        t.flag FBK_HALL_STAT.ANGLE_VALID = false ∧ t.flag FBK_EVENT.HALL_IMPOSSIBLE = true ∧
        Listed t .hallImpossible 0 [code.toNat]) := by
  have hflag (g : Field) : ((Laws.start s.core).safeHallEdge code.toNat island).flag g = s.core.flag g :=
    flag_of_getF getF_safeHallEdge
  obtain ⟨htaken, hlevel⟩ := hallPassed_spec (c := (Laws.start s.core).safeHallEdge code.toNat island) (t := r.t) code.isLt
  refine gives_of_effect (exec_hallEdge hcode hseen.1 hseen.2) ⟨htaken, hlevel, fun hen hsector => ?_⟩
  exact hallPassed_impossible ((hflag _).trans hen) ((hflag FBK_CTRL.HALL_DIR).symm ▸ hsector)

end Halls

end Sys2Proof.Proofs
end

