-- ==== Sys2Proof/Proofs/InputEdges.lean ====
section
/-! Axle edges (R247) and edges of MARKER and ENDSTOP (R248), as the filter passes them (R249). -/
namespace Sys2Proof.Proofs
open Sys2Proof.Machine Sys2Proof.Claims Sys2Proof.Laws

/-! ### Axle edges -/
section Axle
variable {s : State} {c : Machine.Core} {x t : Nat} {a b : Bool} {r : Held} {d : Int}

/-- The levels of the axle inputs as an edge leaves them. -/
def axleTaken (c : Machine.Core) (a b : Bool) : Machine.Core :=
  (c.putBit FBK_IN_STAT.LEVEL 3 a).putBit FBK_IN_STAT.LEVEL 4 b

/-- The level of an axle input before an edge. -/
abbrev axleLevel (c : Machine.Core) (i : Nat) : Bool := bitOf (c.getF FBK_IN_STAT.LEVEL) i

/-- An axle edge that the filter passes. -/
def axlePassed (c : Machine.Core) (a b : Bool) (t : Nat) : Machine.Core :=
  if !c.flag FBK_CTRL.AXLE_EN then axleTaken c a b
  else if c.flag FBK_CTRL.AXLE_MODE then
    if a && !axleLevel c 3 then (axleTaken c a b).axleCount (if b then -1 else 1) t else axleTaken c a b
  else if axleLevel c 3 != a && axleLevel c 4 != b then
    ((axleTaken c a b).event FBK_EVENT.QUAD_ERROR).bump FBK_ERR_COUNT.QUAD 1
  else (axleTaken c a b).axleCount
    (if quadPos a b = (quadPos (axleLevel c 3) (axleLevel c 4) + 1) % 4 then 1 else -1) t

theorem exec_axleEdge (hlevels : axleLevel s.core 3 ≠ a ∨ axleLevel s.core 4 ≠ b)
    (hshown : s.core.shown s.core.inputStep r = true) (hfilt : s.core.getF FBK_IN_FILT.AXLE < r.n) :
    exec (.axleEdge a b r) s = go (fun c _ => axlePassed c a b r.t) s := by
  have hchanged : ¬ (axleLevel s.core 3 = a ∧ axleLevel s.core 4 = b) := fun e => hlevels.elim (· e.1) (· e.2)
  exact congrArg Host.Outcome.next
    (run_congr ((if_neg (not_ignored hchanged hshown)).trans (if_neg (Nat.not_le.mpr hfilt))))

/-- A count writes the count, and the count of a marker edge that takes it in. -/
theorem reg_axleCount (hcount : x ≠ FBK_AXLE_COUNT.a) (hmarker : x ≠ FBK_MARKER_POS.a) :
    (c.axleCount d t).reg x = c.reg x := by
  unfold Machine.Core.axleCount
  dsimp only
  split
  · split
    · exact (reg_setF_other hmarker).trans (reg_setF_other hcount)
    · exact reg_setF_other hcount
  · exact reg_setF_other hcount

theorem ext_axleCount : (c.axleCount d t).dok.ext = c.dok.ext + if c.flag FBK_CTRL.AXLE_DIR then -d else d := by
  unfold Machine.Core.axleCount
  dsimp only
  split
  · split
    · rw [setF_dok, setF_dok]
    · rw [setF_dok]
  · rw [setF_dok]

theorem levels_axleTaken : (axleTaken c a b).getBit FBK_IN_STAT.LEVEL 3 = a ∧
    (axleTaken c a b).getBit FBK_IN_STAT.LEVEL 4 = b := by
  unfold axleTaken
  rw [getBit_putBit (by decide) (by decide), getBit_putBit (by decide) (by decide), getBit_putBit (by decide) (by decide)]
  exact ⟨rfl, rfl⟩

/-- Whatever an edge counts, the levels are those it shows. -/
theorem reg_axlePassed : (axlePassed c a b t).reg FBK_IN_STAT.a = (axleTaken c a b).reg FBK_IN_STAT.a := by
  have counted {e : Int} : ((axleTaken c a b).axleCount e t).reg FBK_IN_STAT.a = (axleTaken c a b).reg FBK_IN_STAT.a :=
    reg_axleCount (by decide) (by decide)
  unfold axlePassed
  split
  · rfl
  · split
    · split
      · exact counted
      · rfl
    · split
      · exact (reg_bump_other (by decide)).trans (reg_event_other (by decide))
      · exact counted

/-- In quadrature mode two levels that change at once are an error and move no count. -/
theorem axlePassed_both (hen : c.flag FBK_CTRL.AXLE_EN = true) (hmode : c.flag FBK_CTRL.AXLE_MODE = false)
    (ha : axleLevel c 3 ≠ a) (hb : axleLevel c 4 ≠ b) :
    (axlePassed c a b t).flag FBK_EVENT.QUAD_ERROR = true ∧ (axlePassed c a b t).dok.ext = c.dok.ext := by
  have hboth : (axleLevel c 3 != a && axleLevel c 4 != b) = true := by
    rw [Bool.and_eq_true, bne_iff_ne, bne_iff_ne]
    exact ⟨ha, hb⟩
  unfold axlePassed
  rw [if_neg (by rw [hen]; decide), if_neg (Bool.eq_false_iff.mp hmode), if_pos hboth]
  refine ⟨(flag_of_reg (reg_bump_other (by decide))).trans (flag_event_same (by decide) rfl), ?_⟩
  rw [bump_dok, event_dok, axleTaken, putBit_dok, putBit_dok]

/-- In quadrature mode a change of one level moves the count by one. -/
theorem axlePassed_single (hen : c.flag FBK_CTRL.AXLE_EN = true) (hmode : c.flag FBK_CTRL.AXLE_MODE = false)
    (ha : axleLevel c 3 = a) : ((axlePassed c a b t).dok.ext - c.dok.ext).natAbs = 1 := by
  have hsingle : ¬ (axleLevel c 3 != a && axleLevel c 4 != b) = true := by
    rw [ha, bne_self_eq_false, Bool.false_and]
    decide
  unfold axlePassed
  rw [if_neg (by rw [hen]; decide), if_neg (Bool.eq_false_iff.mp hmode), if_neg hsingle, ext_axleCount, axleTaken,
    putBit_dok, putBit_dok]
  split_ifs <;> omega

theorem gives_axleEdge (hlevels : axleLevel s.core 3 ≠ a ∨ axleLevel s.core 4 ≠ b)
    (hseen : s.core.shown s.core.inputStep r = true ∧ s.core.getF FBK_IN_FILT.AXLE < r.n) :
    Gives (.axleEdge a b r) s fun t =>
      t.getBit FBK_IN_STAT.LEVEL 3 = a ∧ t.getBit FBK_IN_STAT.LEVEL 4 = b ∧
      (s.core.flag FBK_CTRL.AXLE_EN = true → s.core.flag FBK_CTRL.AXLE_MODE = false → axleLevel s.core 3 ≠ a →
        axleLevel s.core 4 ≠ b → t.flag FBK_EVENT.QUAD_ERROR = true ∧ t.dok.ext = s.core.dok.ext) := by
  refine gives_of_effect (exec_axleEdge hlevels hseen.1 hseen.2) ⟨?_, ?_, fun hen hmode ha hb => ?_⟩
  · exact (getBit_of_reg reg_axlePassed).trans levels_axleTaken.1
  · exact (getBit_of_reg reg_axlePassed).trans levels_axleTaken.2
  · exact axlePassed_both (c := Laws.start s.core) hen hmode ha hb

theorem gives_axleEdge_single (hlevels : axleLevel s.core 3 = a ∧ axleLevel s.core 4 ≠ b)
    (hseen : s.core.shown s.core.inputStep r = true ∧ s.core.getF FBK_IN_FILT.AXLE < r.n)
    (hmode : s.core.flag FBK_CTRL.AXLE_EN = true ∧ s.core.flag FBK_CTRL.AXLE_MODE = false) :
    Gives (.axleEdge a b r) s fun t => (t.dok.ext - s.core.dok.ext).natAbs = 1 :=
  gives_of_effect (exec_axleEdge (.inr hlevels.2) hseen.1 hseen.2)
    (axlePassed_single (c := Laws.start s.core) hmode.1 hmode.2 hlevels.1)

/-- R249: levels that the filter rejects are noted for R250, and nothing else. -/
theorem gives_axleEdge_rejected
    (hseen : s.core.shown s.core.inputStep r = true ∧ r.n ≤ s.core.getF FBK_IN_FILT.AXLE) :
    Gives (.axleEdge a b r) s fun t => t.regs = s.core.regs ∧ t.dok = s.core.dok := by
  by_cases hsame : axleLevel s.core 3 = a ∧ axleLevel s.core 4 = b
  · have hexec : exec (.axleEdge a b r) s = go (fun c _ => c) s :=
      congrArg Host.Outcome.next (run_congr (if_pos (.inl hsame)))
    exact gives_of_effect hexec ⟨rfl, rfl⟩
  · have hexec : exec (.axleEdge a b r) s = go (fun c _ => c.reject
        (differing 3 2 (b2n (axleLevel c 3) + 2 * b2n (axleLevel c 4)) (b2n a + 2 * b2n b)) r.t) s :=
      congrArg Host.Outcome.next (run_congr ((if_neg (not_ignored hsame hseen.1)).trans (if_pos hseen.2)))
    exact gives_of_effect hexec ⟨rfl, rfl⟩

end Axle

/-! ### MARKER and ENDSTOP -/
section Marks
variable {s : State} {c : Machine.Core} {i x t : Nat} {level active : Bool} {r : Held}

theorem reg_fbk (c : Machine.Core) (y : Fbk) (x : Nat) : { c with fbk := y }.reg x = c.reg x := rfl

theorem reg_dok (c : Machine.Core) (y : Dok) (x : Nat) : { c with dok := y }.reg x = c.reg x := rfl

/-- The level of an input after an edge, and since when it is active (R251). -/
def levelShown (c : Machine.Core) (i : Nat) (level : Bool) (t : Nat) : Machine.Core :=
  let d := c.putBit FBK_IN_STAT.LEVEL (5 + i) level
  { d with fbk := { d.fbk with
    activeAt := setAt i (if level == c.activeLevel i then some t else none) d.fbk.activeAt } }

/-- STUCK of MARKER (0) or ENDSTOP (1). -/
abbrev stuckBit (i : Nat) : Field := if i = 1 then FBK_IN_STAT.ENDSTOP_STUCK else FBK_IN_STAT.MARKER_STUCK

theorem stuckBit_spec (i : Nat) : (stuckBit i).addr = FBK_IN_STAT.a ∧ (stuckBit i).len = 1 ∧ 8 ≤ (stuckBit i).lo ∧
    (stuckBit i).lo + (stuckBit i).len ≤ 32 := by
  unfold stuckBit
  split <;> exact ⟨rfl, rfl, by decide, by decide⟩

/-- A level out of the active one ends STUCK (R251). -/
theorem inputLevel_fst : (c.inputLevel i level t).1 = if level == c.activeLevel i then levelShown c i level t
    else ((levelShown c i level t).setF (stuckBit i) 0).clearCause .stuckActive i := rfl

theorem reg_levelShown : (levelShown c i level t).reg x = (c.putBit FBK_IN_STAT.LEVEL (5 + i) level).reg x := reg_fbk _ _ _

theorem levelShown_dok : (levelShown c i level t).dok = c.dok := by
  unfold levelShown
  dsimp only
  rw [putBit_dok]

theorem levelShown_axle : (levelShown c i level t).fbk.axle = c.fbk.axle := by
  unfold levelShown
  dsimp only
  rw [putBit_fbk]

theorem inputLevel_dok : (c.inputLevel i level t).1.dok = c.dok := by
  rw [inputLevel_fst]
  split
  · exact levelShown_dok
  · rw [clearCause_dok, setF_dok, levelShown_dok]

theorem inputLevel_axle : (c.inputLevel i level t).1.fbk.axle = c.fbk.axle := by
  rw [inputLevel_fst]
  split
  · exact levelShown_axle
  · rw [clearCause_fbk, setF_fbk, levelShown_axle]

theorem getBit_inputLevel (hi : i < 2) : (c.inputLevel i level t).1.getBit FBK_IN_STAT.LEVEL (5 + i) = level := by
  have hfits : 5 + i < FBK_IN_STAT.LEVEL.len := by
    show 5 + i < 7
    omega
  have hput : (levelShown c i level t).getBit FBK_IN_STAT.LEVEL (5 + i) = level :=
    (getBit_of_reg reg_levelShown).trans ((getBit_putBit (by decide) hfits).trans (if_pos rfl))
  obtain ⟨-, -, hlo, hhi⟩ := stuckBit_spec i
  rw [inputLevel_fst]
  split
  · exact hput
  · refine (getBit_of_reg (reg_clearCause_below (by decide))).trans ?_
    refine (congrArg (bitOf · (5 + i)) (getF_setF_of_apart fun _ => ⟨.inl ?_, hhi⟩)).trans hput
    exact Nat.le_trans (by decide) hlo

/-- The count of the axle at a time is that before the edge. -/
theorem countedAfter_inputLevel {u : Nat} : (c.inputLevel i level t).1.countedAfter u = c.countedAfter u := by
  rw [Machine.Core.countedAfter, inputLevel_axle, Machine.Core.countedAfter]

theorem reg_passEdge {e : Bool} : (c.passEdge e active t).reg x = c.reg x := reg_dok _ _ _

/-- MARKER into its active level: the count is latched (R248). -/
def markerLatched (c : Machine.Core) (count t : Nat) : Machine.Core :=
  let d := c.setF FBK_MARKER_POS.COUNT count
  { d with fbk := { d.fbk with markerAt := some t } }.event FBK_EVENT.MARKER_EDGE

theorem reg_markerLatched {count : Nat} (h : x ≠ FBK_EVENT.a) :
    (markerLatched c count t).reg x = (c.setF FBK_MARKER_POS.COUNT count).reg x :=
  (reg_event_other h).trans (reg_fbk _ _ _)

/-- The count at a marker edge. -/
def markerCount (c : Machine.Core) (t : Nat) : Nat := ofS 32 (c.getI FBK_AXLE_COUNT.COUNT - c.countedAfter t)

/-- A marker edge that the filter passes. -/
def markerPassed (c : Machine.Core) (level : Bool) (t : Nat) : Machine.Core :=
  let d := (c.inputLevel 0 level t).1.passEdge false (c.inputLevel 0 level t).2 t
  if (c.inputLevel 0 level t).2 then markerLatched d (markerCount c t) t else d

theorem exec_markerEdge (hlevel : bitOf (s.core.getF FBK_IN_STAT.LEVEL) 5 ≠ level)
    (hseen : s.core.shown s.core.inputStep r = true ∧ s.core.getF FBK_IN_FILT.MARKER < r.n) :
    exec (.markerEdge level r) s = go (fun c _ => markerPassed c level r.t) s :=
  congrArg Host.Outcome.next
    (run_congr ((if_neg (not_ignored hlevel hseen.1)).trans (if_neg (Nat.not_le.mpr hseen.2))))

theorem reg_markerPassed : (markerPassed c level t).reg FBK_IN_STAT.a = (c.inputLevel 0 level t).1.reg FBK_IN_STAT.a := by
  unfold markerPassed
  dsimp only
  split
  · exact (reg_markerLatched (by decide)).trans ((reg_setF_other (by decide)).trans reg_passEdge)
  · exact reg_passEdge

theorem markerPassed_active (h : level ≠ c.flag FBK_IN_CFG.MARKER_LOW) :
    (markerPassed c level t).getF FBK_MARKER_POS.COUNT = markerCount c t ∧
      (markerPassed c level t).flag FBK_EVENT.MARKER_EDGE = true := by
  have hactive : (c.inputLevel 0 level t).2 = true := by
    show (level == !c.flag FBK_IN_CFG.MARKER_LOW) = true
    rw [beq_iff_eq]
    exact Bool.eq_not.mpr h
  have hcount : markerCount c t < 2 ^ 32 := by
    unfold markerCount ofS
    omega
  unfold markerPassed
  rw [if_pos hactive]
  refine ⟨?_, flag_event_same (by decide) rfl⟩
  refine (getF_of_reg (reg_markerLatched (by decide))).trans ?_
  exact (getF_setF_same (f := FBK_MARKER_POS.COUNT) (by decide)).trans (Nat.mod_eq_of_lt hcount)

theorem gives_markerEdge (hlevel : bitOf (s.core.getF FBK_IN_STAT.LEVEL) 5 ≠ level)
    (hseen : s.core.shown s.core.inputStep r = true ∧ s.core.getF FBK_IN_FILT.MARKER < r.n) :
    Gives (.markerEdge level r) s fun t =>
      t.getBit FBK_IN_STAT.LEVEL 5 = level ∧
      (level ≠ s.core.flag FBK_IN_CFG.MARKER_LOW → t.getF FBK_MARKER_POS.COUNT = markerCount s.core r.t ∧
        t.flag FBK_EVENT.MARKER_EDGE = true) := by
  refine gives_of_effect (exec_markerEdge hlevel hseen) ⟨?_, fun h => markerPassed_active (c := Laws.start s.core) h⟩
  exact (getBit_of_reg reg_markerPassed).trans (getBit_inputLevel (i := 0) (by decide))

/-- An end-stop edge that the filter passes. -/
def endstopPassed (c : Machine.Core) (level : Bool) (t : Nat) : Machine.Core :=
  let d := ((c.inputLevel 1 level t).1.passEdge true (c.inputLevel 1 level t).2 t).event FBK_EVENT.ENDSTOP_EDGE
  if (c.inputLevel 1 level t).2 then { d with dok := { d.dok with endDir := d.dok.dir } } else d

theorem exec_endstopEdge (hlevel : bitOf (s.core.getF FBK_IN_STAT.LEVEL) 6 ≠ level)
    (hseen : s.core.shown s.core.inputStep r = true ∧ s.core.getF FBK_IN_FILT.ENDSTOP < r.n) :
    exec (.endstopEdge level r) s = go (fun c _ => endstopPassed c level r.t) s :=
  congrArg Host.Outcome.next
    (run_congr ((if_neg (not_ignored hlevel hseen.1)).trans (if_neg (Nat.not_le.mpr hseen.2))))

theorem reg_endstopPassed : (endstopPassed c level t).reg x =
    ((c.inputLevel 1 level t).1.event FBK_EVENT.ENDSTOP_EDGE).reg x := by
  have hpassed {d : Machine.Core} {active : Bool} : ((d.passEdge true active t).event FBK_EVENT.ENDSTOP_EDGE).reg x =
      (d.event FBK_EVENT.ENDSTOP_EDGE).reg x := rfl
  unfold endstopPassed
  dsimp only
  split
  · exact (reg_dok _ _ _).trans hpassed
  · exact hpassed

theorem edges_endstopPassed : (endstopPassed c level t).dok.edges.getLast? =
    some ⟨true, level != c.flag FBK_IN_CFG.ENDSTOP_LOW, t, c.dok.ext - c.countedAfter t⟩ := by
  have hactive : (c.inputLevel 1 level t).2 = (level != c.flag FBK_IN_CFG.ENDSTOP_LOW) := by
    show (level == !c.flag FBK_IN_CFG.ENDSTOP_LOW) = _
    cases level <;> cases c.flag FBK_IN_CFG.ENDSTOP_LOW <;> rfl
  have hpassed : (endstopPassed c level t).dok.edges =
      ((c.inputLevel 1 level t).1.passEdge true (c.inputLevel 1 level t).2 t).dok.edges := by
    unfold endstopPassed
    dsimp only
    split <;> rfl
  rw [hpassed, Machine.Core.passEdge, List.getLast?_concat, countedAfter_inputLevel, inputLevel_dok, hactive]

theorem gives_endstopEdge (hlevel : bitOf (s.core.getF FBK_IN_STAT.LEVEL) 6 ≠ level)
    (hseen : s.core.shown s.core.inputStep r = true ∧ s.core.getF FBK_IN_FILT.ENDSTOP < r.n) :
    Gives (.endstopEdge level r) s fun t =>
      t.getBit FBK_IN_STAT.LEVEL 6 = level ∧ t.flag FBK_EVENT.ENDSTOP_EDGE = true ∧
      t.dok.edges.getLast? = some
        ⟨true, level != s.core.flag FBK_IN_CFG.ENDSTOP_LOW, r.t, s.core.dok.ext - s.core.countedAfter r.t⟩ := by
  refine gives_of_effect (exec_endstopEdge hlevel hseen) ⟨?_, ?_, edges_endstopPassed (c := Laws.start s.core)⟩
  · refine (getBit_of_reg (reg_endstopPassed.trans (reg_event_other (by decide)))).trans ?_
    exact getBit_inputLevel (i := 1) (by decide)
  · exact (flag_of_reg reg_endstopPassed).trans (flag_event_same (by decide) rfl)

end Marks

end Sys2Proof.Proofs
end

