-- ==== Sys2Proof/Proofs/InputSupervision.lean ====
section
/-! Chatter (R250), inputs that stay active (R251), sources that stop (R246), and the end of a docking output's pulse
(R283). -/
namespace Sys2Proof.Proofs
open Sys2Proof.Machine Sys2Proof.Claims Sys2Proof.Laws

section Supervision
variable {s : State} {c : Machine.Core} {k u : Nat}

/-- R250: the gate that `u` ends is noted, so that each gate raises CHATTER once. -/
def chatterNoted (c : Machine.Core) (input u : Nat) : Machine.Core :=
  { c with fbk := { c.fbk with chatAt := setAt input (u + 1) c.fbk.chatAt } }

theorem gives_chatter {input : Fin 7}
    (hcount : u ≤ s.core.now ∧ max 1 (s.core.getF FBK_IN_CFG.CHAT_MAX) < s.core.rejected input.val u)
    (hgate : s.core.fbk.chatAt.getD input.val 0 = 0 ∨ s.core.fbk.chatAt.getD input.val 0 + 1000000 ≤ u + 1) :
    Gives (.chatter input u) s fun t => t.flag FBK_EVENT.CHATTER = true ∧ Listed t .chatter input.val [input.val] := by
  have hdue : ¬ (s.core.now < u ∨ s.core.rejected input.val u ≤ max 1 (s.core.getF FBK_IN_CFG.CHAT_MAX) ∨
      (s.core.fbk.chatAt.getD input.val 0 ≠ 0 ∧ u + 1 < s.core.fbk.chatAt.getD input.val 0 + 1000000)) := by
    rintro (h | h | ⟨hne, h⟩)
    · exact Nat.not_lt.mpr hcount.1 h
    · exact Nat.not_le.mpr hcount.2 h
    · exact hgate.elim hne (Nat.not_le.mpr h)
  have hexec : exec (.chatter input u) s = go (fun c _ => (((chatterNoted c input.val u).event FBK_EVENT.CHATTER).bump
      FBK_ERR_COUNT.CHATTER 1).raise .chatter input.val [input.val] false) s :=
    congrArg Host.Outcome.next (run_congr (if_neg hdue))
  refine gives_of_effect hexec ⟨?_, raise_listed (by decide)⟩
  refine (flag_raise_below (by decide)).trans ((flag_of_reg (reg_bump_other (by decide))).trans ?_)
  exact flag_event_same (by decide) rfl

/-- STUCK of ENDSTOP or of MARKER (R251). -/
abbrev stuckField (endstop : Bool) : Field := if endstop then FBK_IN_STAT.ENDSTOP_STUCK else FBK_IN_STAT.MARKER_STUCK

/-- The time after which an active input counts as stuck, in ms; 0 never (R251). -/
abbrev stuckTime (endstop : Bool) : Field := if endstop then FBK_IN_STUCK.ENDSTOP else FBK_IN_STUCK.MARKER

theorem stuckField_eq (endstop : Bool) : stuckField endstop = stuckBit (b2n endstop) := by cases endstop <;> rfl

theorem exec_stuckActive {endstop : Bool} (hactive : s.core.fbk.activeAt.getD (b2n endstop) none = some u)
    (hlong : s.core.getF (stuckTime endstop) ≠ 0 ∧ u + s.core.getF (stuckTime endstop) * 1000000 < s.core.now)
    (hclear : s.core.flag (stuckField endstop) = false) :
    exec (.stuckActive endstop) s = go (fun c _ => ((c.setF (stuckField endstop) 1).event FBK_EVENT.STUCK_ACTIVE).raise
      .stuckActive (b2n endstop) [5 + b2n endstop] true) s := by
  have hdue : ¬ (s.core.getF (stuckTime endstop) = 0 ∨ s.core.now ≤ u + s.core.getF (stuckTime endstop) * 1000000 ∨
      s.core.flag (stuckField endstop) = true) := by
    rintro (h | h | h)
    · exact hlong.1 h
    · exact Nat.not_le.mpr hlong.2 h
    · rw [hclear] at h
      exact absurd h (by decide)
  refine congrArg Host.Outcome.next (run_congr ?_)
  have hstart : (Laws.start s.core).fbk.activeAt.getD (b2n endstop) none = some u := hactive
  dsimp only
  rw [hstart]
  exact if_neg hdue

theorem gives_stuckActive {endstop : Bool} (hactive : s.core.fbk.activeAt.getD (b2n endstop) none = some u)
    (hlong : s.core.getF (stuckTime endstop) ≠ 0 ∧ u + s.core.getF (stuckTime endstop) * 1000000 < s.core.now)
    (hclear : s.core.flag (stuckField endstop) = false) :
    Gives (.stuckActive endstop) s fun t =>
      t.flag (stuckField endstop) = true ∧ t.flag FBK_EVENT.STUCK_ACTIVE = true ∧
      Listed t .stuckActive (b2n endstop) [5 + b2n endstop] := by
  obtain ⟨haddr, hlen, -, hfits⟩ := stuckField_eq endstop ▸ stuckBit_spec (b2n endstop)
  refine gives_of_effect (exec_stuckActive hactive hlong hclear)
    ⟨?_, event_raise_spec (by decide) (by decide) rfl (by decide)⟩
  refine (flag_raise_below (haddr ▸ by decide)).trans ((flag_of_reg (reg_event_other (haddr ▸ by decide))).trans ?_)
  exact flag_setF_same hfits hlen

/-! ### Sources that stop (R246) -/

theorem gives_axleStopped (htime : s.core.fbk.axle.tLast + s.core.stopTime * 1000000 < s.core.now)
    (hen : s.core.flag FBK_CTRL.AXLE_EN = true) :
    Gives (.speedStopped true) s fun t =>
      t.flag FBK_SPEED_STAT.AXLE_STOPPED = true ∧ t.getF FBK_SPEED_AXLE.SPEED = 0 := by
  have hexec : exec (.speedStopped true) s = go (fun c _ => ((c.setF FBK_SPEED_STAT.AXLE_STOPPED 1).setFlag
      FBK_SPEED_STAT.AXLE_VALID (decide (0 < c.getF FBK_AXLE_EPR.EPR256))).setF FBK_SPEED_AXLE.SPEED 0) s :=
    congrArg Host.Outcome.next (run_congr ((if_neg (Nat.not_le.mpr htime)).trans ((if_pos rfl).trans (if_pos hen))))
  refine gives_of_effect hexec ⟨?_, getF_setF_same (by decide)⟩
  refine (flag_of_reg (reg_setF_other (by decide))).trans ?_
  exact (flag_setF_of_apart fun _ => by decide).trans (flag_setF_same (by decide) rfl)

theorem gives_hallStopped (htime : s.core.fbk.hall.tLast + s.core.stopTime * 1000000 < s.core.now)
    (hen : s.core.flag FBK_CTRL.HALL_EN = true) (hcode : hallSector false (s.core.getF FBK_HALL_STAT.CODE) ≠ none) :
    Gives (.speedStopped false) s fun t =>
      t.flag FBK_SPEED_STAT.HALL_STOPPED = true ∧ t.flag FBK_SPEED_STAT.HALL_VALID = true ∧
      t.getF FBK_SPEED_HALL.SPEED = 0 := by
  have hsome := Option.isSome_iff_ne_none.mpr hcode
  have hexec : exec (.speedStopped false) s = go (fun c _ => ((c.setF FBK_SPEED_STAT.HALL_STOPPED 1).setF
      FBK_SPEED_STAT.HALL_VALID 1).setF FBK_SPEED_HALL.SPEED 0) s :=
    congrArg Host.Outcome.next
      (run_congr ((if_neg (Nat.not_le.mpr htime)).trans ((if_neg Bool.false_ne_true).trans (if_pos ⟨hen, hsome⟩))))
  have hkept {g : Field} (hg : g.addr = FBK_SPEED_STAT.a) {d : Machine.Core} :
      (d.setF FBK_SPEED_HALL.SPEED 0).flag g = d.flag g := flag_of_reg (reg_setF_other (hg ▸ by decide))
  refine gives_of_effect hexec ⟨(hkept rfl).trans ?_, (hkept rfl).trans (flag_setF_same (by decide) rfl),
    getF_setF_same (by decide)⟩
  exact (flag_setF_of_apart fun _ => by decide).trans (flag_setF_same (by decide) rfl)

/-! ### The pulse of a docking output (R283) -/

/-- The pulse of an output ends. -/
def pulseEnded (c : Machine.Core) (k : Nat) : Machine.Core :=
  (c.putBit DOK_STATUS.OUT k false).modDok fun d => { d with pulseEnd := setAt k none d.pulseEnd }

theorem out_pulseEnded (hk : k < 4) : (pulseEnded c k).getBit DOK_STATUS.OUT k = false :=
  (getBit_of_reg (reg_dok _ _ _)).trans ((getBit_putBit (by decide) hk).trans (if_pos rfl))

theorem pulseEnd_pulseEnded : (pulseEnded c k).dok.pulseEnd.getD k none = none := by
  have hset : (pulseEnded c k).dok.pulseEnd = c.dok.pulseEnd.set k none := by
    unfold pulseEnded Machine.Core.modDok
    dsimp only
    rw [putBit_dok, setAt_eq_set]
  rw [hset, List.getD_eq_getElem?_getD, List.getElem?_set_self']
  cases c.dok.pulseEnd[k]? <;> rfl

theorem gives_dockPulseEnd {k : Fin 4} (hpulse : s.core.dok.pulseEnd.getD k.val none = some u) (hend : u ≤ s.core.now) :
    Gives (.dockPulseEnd k) s fun t =>
      t.getBit DOK_STATUS.OUT k.val = false ∧ t.dok.pulseEnd.getD k.val none = none := by
  have hexec : exec (.dockPulseEnd k) s = go (fun c _ => pulseEnded c k.val) s := by
    refine congrArg Host.Outcome.next (run_congr ?_)
    have hstart : (Laws.start s.core).dok.pulseEnd.getD k.val none = some u := hpulse
    rw [hstart]
    exact if_pos hend
  exact gives_of_effect hexec ⟨out_pulseEnded k.isLt, pulseEnd_pulseEnded⟩

end Supervision

/-- Settles O11: each edge is taken as its decoder or counter finds it, and what an event sets stands through its alarm and
through the end of another. -/
theorem inputEvents : Obligations.InputEvents := by
  unfold Obligations.InputEvents
  refine ⟨fun _ _ _ _ hcode hseen => gives_hallEdge hcode hseen, fun _ _ _ _ hlevels hseen => gives_axleEdge hlevels hseen,
    fun _ _ _ _ hlevels hseen hmode => gives_axleEdge_single hlevels hseen hmode,
    fun _ _ _ _ hseen => gives_axleEdge_rejected hseen, fun _ _ _ hlevel hseen => gives_markerEdge hlevel hseen,
    fun _ _ _ hlevel hseen => gives_endstopEdge hlevel hseen, fun _ _ _ hcount hgate => gives_chatter hcount hgate,
    fun _ _ _ hactive hlong hclear => gives_stuckActive hactive hlong hclear, ?_, ?_,
    fun _ _ _ ⟨hpulse, hend⟩ => gives_dockPulseEnd hpulse hend⟩
  · rintro s axle ⟨rfl, htime, hen⟩
    exact gives_axleStopped htime hen
  · rintro s axle ⟨rfl, htime, hen, hcode⟩
    exact gives_hallStopped htime hen hcode

end Sys2Proof.Proofs
end

