-- ==== Sys2Proof/Proofs/StartProcedure.lean ====
section
/-! The start procedure: the end of CHECK (R264), the steps from SYNC to RAMP and the starts that fail (R265), and a lost
angle (R261, R262). -/
namespace Sys2Proof.Proofs
open Sys2Proof.Machine Sys2Proof.Claims Sys2Proof.Laws

section Starting
variable {s : State} {c : Machine.Core} {phase src old new reason th : Nat} {n x : Int}

/-! ### What the procedure's operations leave of its state -/

theorem raise_start {nm : AlarmName} {inst : Nat} {data : List Nat} {present : Bool} :
    (c.raise nm inst data present).start = c.start := (congrArg Machine.Core.start onlyAlarm_raise.1 :)

theorem next_nextPhase : (c.nextPhase phase src).start.next = some (phase, src) := rfl

/-- The alarm LIMP_ACTIVE follows the source; the procedure's own state stays (R262). -/
theorem limp_start : (c.limp old new).start = c.start := by
  unfold Machine.Core.limp
  split
  · exact raise_start
  · split
    · exact (congrArg Machine.Core.start onlyTlm_clearCause.1 :)
    · rfl

theorem putHin_start {e : Nat} : (c.putHin e x).start = c.start := by
  unfold Machine.Core.putHin
  split <;> rfl

theorem putSlot_start {k mode : Nat} : (c.putSlot k mode).start = c.start := rfl

/-- The voltages of R266 go to the host entries; of the procedure's state only the torque value is set. -/
theorem syncPrep_start : (c.syncPrep n).start = { c.start with tq := 0 } := by
  unfold Machine.Core.syncPrep
  dsimp only [Machine.Core.modStart]
  rw [putHin_start, putHin_start, putHin_start, putSlot_start, putSlot_start]

/-- What SYNC is entered with leaves the speed that CHECK found. -/
theorem nEmf_toSync : (c.toSync src th n).start.nEmf = c.start.nEmf := by
  unfold Machine.Core.toSync Machine.Core.nextPhase
  dsimp only [Machine.Core.modStart]
  rw [syncPrep_start, limp_start]

/-! ### A start that fails (R265) -/

/-- Every failure notes its reason and raises START_FAILED, whether its torque still has to ramp to 0 or not. -/
theorem failStart_spec : (c.failStart reason).start.reason = reason ∧
    Listed (c.failStart reason) .startFailed 0 [reason, dI c.start.nEmf, dI c.start.amp] := by
  unfold Machine.Core.failStart
  extract_lets failed raised
  have hreason : raised.start.reason = reason := congrArg Start.reason raise_start
  have hlisted : Listed raised .startFailed 0 [reason, dI c.start.nEmf, dI c.start.amp] := raise_listed (by decide)
  split <;> exact ⟨hreason, hlisted⟩

theorem gives_failStart {i : Instr} (hexec : exec i s = go (fun c _ => c.failStart reason) s) :
    Gives i s fun t =>
      t.start.reason = reason ∧ Listed t .startFailed 0 [reason, dI s.core.start.nEmf, dI s.core.start.amp] :=
  gives_of_effect hexec failStart_spec

/-! ### The end of CHECK (R264) -/

/-- The window of CHECK is over. -/
abbrev WindowOver (c : Machine.Core) : Prop :=
  c.start.phase = 1 ∧ c.start.next = none ∧ c.start.failing = 0 ∧ c.start.ran = true ∧
    (131072 ≤ c.start.adv.natAbs ∨ c.start.phaseAt + 20000000 ≤ c.cnv.sampleAt)

theorem WindowOver.not_open (h : WindowOver c) :
    ¬ (c.start.phase ≠ 1 ∨ c.start.next.isSome ∨ c.start.failing ≠ 0 ∨ !c.start.ran ∨
      (c.start.adv.natAbs < 131072 ∧ c.cnv.sampleAt < c.start.phaseAt + 20000000)) := by
  obtain ⟨hphase, hnext, hfailing, hran, hover⟩ := h
  simp only [hphase, hnext, hfailing, hran, ne_eq, not_true_eq_false, Option.isSome_none, Bool.false_eq_true,
    Bool.not_true, false_or]
  omega

/-- The results of the window are noted: speed and mean amplitude. -/
def emfNoted (c : Machine.Core) : Machine.Core :=
  c.modStart fun s => { s with nEmf := c.emfSpeed, amp := rne s.ampSum (max 1 s.ampN * 65536) }

theorem exec_checkWindowEnd_resolver (hover : WindowOver s.core)
    (hplausible : s.core.atStandstill s.core.emfSpeed = true ∨ s.core.emfPlausible s.core.emfSpeed = true)
    (hagrees : s.core.emfAgrees s.core.emfSpeed (s.core.atStandstill s.core.emfSpeed) = true)
    (hlocked : s.core.resLocked = true) :
    exec .checkWindowEnd s = go (fun c _ => (emfNoted c).toSync 1 (((emfNoted c).sourceNow 1).getD (0, 0)).1
      (((emfNoted c).sourceNow 1).getD (0, 0)).2) s := by
  have hjudged : ¬ (!s.core.atStandstill s.core.emfSpeed ∧ !s.core.emfPlausible s.core.emfSpeed) := by
    rintro ⟨hmoving, himplausible⟩
    rw [Bool.not_eq_true'] at hmoving himplausible
    exact hplausible.elim (Bool.eq_false_iff.mp hmoving) (Bool.eq_false_iff.mp himplausible)
  have hagree : ¬ (s.core.flag FBK_RES_STAT.LOCKED ∧
      !s.core.emfAgrees s.core.emfSpeed (s.core.atStandstill s.core.emfSpeed)) := by
    rw [hagrees]
    exact fun h => absurd h.2 (by decide)
  refine congrArg Host.Outcome.next (run_congr ?_)
  exact (if_neg (WindowOver.not_open (c := Laws.start s.core) hover)).trans
    ((if_neg hjudged).trans ((if_neg hagree).trans (if_pos hlocked)))

theorem exec_checkWindowEnd_implausible (hover : WindowOver s.core)
    (himplausible : s.core.atStandstill s.core.emfSpeed = false ∧ s.core.emfPlausible s.core.emfSpeed = false) :
    exec .checkWindowEnd s = go (fun c _ => (emfNoted c).failStart 2) s :=
  congrArg Host.Outcome.next (run_congr
    ((if_neg (WindowOver.not_open (c := Laws.start s.core) hover)).trans
      (if_pos ⟨congrArg not himplausible.1, congrArg not himplausible.2⟩)))

theorem gives_checkWindowEnd_resolver (hover : WindowOver s.core)
    (hplausible : s.core.atStandstill s.core.emfSpeed = true ∨ s.core.emfPlausible s.core.emfSpeed = true)
    (hagrees : s.core.emfAgrees s.core.emfSpeed (s.core.atStandstill s.core.emfSpeed) = true)
    (hlocked : s.core.resLocked = true) :
    Gives .checkWindowEnd s fun t => t.start.next = some (2, 1) ∧ t.start.nEmf = s.core.emfSpeed :=
  gives_of_effect (exec_checkWindowEnd_resolver hover hplausible hagrees hlocked) ⟨next_nextPhase, nEmf_toSync⟩

theorem gives_checkWindowEnd_implausible (hover : WindowOver s.core)
    (himplausible : s.core.atStandstill s.core.emfSpeed = false ∧ s.core.emfPlausible s.core.emfSpeed = false) :
    Gives .checkWindowEnd s fun t =>
      t.start.reason = 2 ∧ ∃ a, Listed t .startFailed 0 [2, dI s.core.emfSpeed, a] := by
  refine gives_of_effect (exec_checkWindowEnd_implausible hover himplausible) ?_
  obtain ⟨hreason, hlisted⟩ := failStart_spec (c := emfNoted (Laws.start s.core)) (reason := 2)
  exact ⟨hreason, _, hlisted⟩

/-! ### SYNC and ALIGN end with the next phase (R265) -/

theorem next_afterSync : (c.afterSync src).start.next = some (if c.backward c.start.nS then 3 else 6, src) := by
  unfold Machine.Core.afterSync
  split <;> exact next_nextPhase

theorem gives_startSyncDone (hphase : s.core.start.phase = 2) (hsrc : s.core.start.src = 1 ∨ s.core.start.src = 3)
    (hdone : 8 ≤ s.core.start.periods) (hfree : s.core.start.next = none ∧ s.core.start.failing = 0) :
    Gives .startSyncDone s fun t =>
      t.start.next = some (if s.core.backward s.core.start.nS then 3 else 6, s.core.start.src) := by
  have hexec : exec .startSyncDone s = go (fun c _ => c.afterSync c.start.src) s :=
    congrArg Host.Outcome.next (run_congr (if_pos ⟨hphase, hsrc, hdone, hfree⟩))
  exact gives_of_effect hexec next_afterSync

/-- R266: RAMP begins from ALIGN_ANGLE at speed 0. -/
def rampOrigin (c : Machine.Core) : Machine.Core :=
  c.modStart fun s => { s with nImp := 0, acc := u16 c.startP 22 * 65536 }

theorem gives_tAlignElapsed (h : s.core.start.phase = 4 ∧ s.core.start.next = none ∧ s.core.start.failing = 0 ∧
    s.core.start.phaseAt + u16 s.core.startP 16 * 1000000 ≤ s.core.now) :
    Gives .tAlignElapsed s fun t =>
      t.start.next = some (5, 4) ∧ t.start.acc = u16 s.core.startP 22 * 65536 ∧ t.start.nImp = 0 := by
  have hexec : exec .tAlignElapsed s = go (fun c _ => (rampOrigin c).nextPhase 5 4) s :=
    congrArg Host.Outcome.next (run_congr (if_pos h))
  exact gives_of_effect hexec ⟨next_nextPhase, rfl, rfl⟩

/-! ### Phases that last too long (R265) -/

theorem exec_brakeTimeout (hphase : s.core.start.phase = 3) (hnext : s.core.start.next = none)
    (hfailing : s.core.start.failing = 0) (htime : s.core.start.phaseAt + 30000000000 ≤ s.core.now) :
    exec .brakeTimeout s = go (fun c _ => c.failStart 5) s :=
  congrArg Host.Outcome.next (run_congr (if_pos ⟨hphase, hnext, .inl hfailing, htime⟩))

theorem exec_handoverTimeout
    (h : (s.core.start.phase = 5 ∨ (s.core.start.phase = 2 ∧ s.core.start.src = 5)) ∧ s.core.start.next = none ∧
      s.core.start.failing = 0 ∧ s.core.start.phaseAt + u16 s.core.startP 20 * 1000000 ≤ s.core.now) :
    exec .handoverTimeout s = go (fun c _ => c.failStart 4) s :=
  congrArg Host.Outcome.next (run_congr (if_pos h))

/-! ### A lost angle (R261, R262) -/

theorem gives_angleLost
    (hlost : 4 ≤ s.core.start.misses ∨
      (s.core.start.phase = 6 ∧ s.core.start.src = 6 ∧ u8 s.core.startP 9 ≤ s.core.start.extrap))
    (hsafe : s.core.mode.code ≠ .safe) (hoff : s.core.mode.code ≠ .off) (hnew : s.core.causeOn .angleLost 0 = false) :
    Gives .angleLost s fun t => Listed t .angleLost 0 [] ∧ .angleLost ∈ t.saf.req := by
  have hexec : exec .angleLost s = go (fun c _ => c.raiseA .angleLost 0 []) s :=
    congrArg Host.Outcome.next (run_congr (if_pos ⟨hlost, hsafe, congrArg not hnew⟩))
  exact gives_of_effect hexec ⟨hasAlarm_raiseA (by decide), mem_req_raiseA hoff hsafe⟩

end Starting

/-- Settles O13: each event is run by its own equation; what prepares or announces a phase leaves the phase selected, and
every failure goes through `failStart_spec`. -/
theorem startEvents : Obligations.StartEvents := by
  unfold Obligations.StartEvents
  exact ⟨fun _ hover ⟨hplausible, hagrees, hlocked⟩ =>
      gives_checkWindowEnd_resolver hover hplausible hagrees hlocked,
    fun _ hover himplausible => gives_checkWindowEnd_implausible hover himplausible,
    fun _ ⟨hphase, hsrc, hdone, hfree⟩ => gives_startSyncDone hphase hsrc hdone hfree,
    fun _ ⟨hphase, hnext, hfailing, htime⟩ => gives_failStart (exec_brakeTimeout hphase hnext hfailing htime),
    fun _ h => gives_tAlignElapsed h, fun _ h => gives_failStart (exec_handoverTimeout h),
    fun _ hlost ⟨hsafe, hoff, hnew⟩ => gives_angleLost hlost hsafe hoff hnew⟩

end Sys2Proof.Proofs
end

