-- ==== Sys2Proof/Proofs/StoredReplies.lean ====
section
/-! Every command answers and leaves the queue (O57), the alarm codes (O60), and the reply that a mailbox keeps for a repeated
message (R337): the model writes it to the buffer of the mailbox it names, which need not be the one that keeps it. -/
namespace Sys2Proof.Proofs
open Sys2Proof.Machine Sys2Proof.Claims Sys2Proof.Laws

/-- Settles O57: every command is a run of some function of the block (`exec_eq_run`), and a run keeps the queue. -/
theorem commandsAnswerAndKeepTheQueue : Obligations.CommandsAnswerAndKeepTheQueue := by
  unfold Obligations.CommandsAnswerAndKeepTheQueue
  intro i s
  obtain ⟨f, s', hpending, -, hexec⟩ := exec_eq_run i s
  exact ⟨run f s', hexec, hpending⟩

/-- Settles O60: a table of constants. -/
theorem alarmNameCodes : Obligations.AlarmNameCodes := by
  unfold Obligations.AlarmNameCodes
  exact ⟨rfl, rfl, rfl⟩

/-! ### A mailbox that keeps the reply of another mailbox

`Mbox.stored` is any reply, and the statements about the frame of a command speak of every state. The device never stores in
mailbox 0 a reply of mailbox 5, but in such a state a repeated message of mailbox 0 is answered by writing mailbox 5's
buffer. -/

/-- A message on mailbox 0 that repeats the sequence executed last in `keepsOtherReply`. -/
def repeatedMessage : Msg := ⟨0, 0, 0, 0, []⟩

/-- A reply of mailbox 5. -/
def replyOfMailbox5 : Reply := ⟨⟨5, 0x0101, 0, 0, 0, 0, 0, 0⟩, false, stDONE, []⟩

/-- The device in STANDBY, mailbox 0 FREE, with the sequence 0 executed last on it and a reply of mailbox 5 kept for it. -/
def keepsOtherReply : State :=
  let c := (Machine.Core.reset.setF (MBX_MB_CFG.LAST_VALID 0) 1).setBox 0 { Mbox.reset with stored := some replyOfMailbox5 }
  ⟨[], [], { c with mode := { c.mode with code := .standby } }⟩

/-- The repeated message replays the kept reply, whatever its command (R337). -/
theorem command_keepsOtherReply (sp : CmdSpec) (f : Cmd → Machine.Core → Machine.Core) :
    (Laws.start keepsOtherReply.core).command sp repeatedMessage f =
      ((Laws.start keepsOtherReply.core).replay 0 0 0).freeBox 0 := by
  have hfree : (Laws.start keepsOtherReply.core).getF (mbState repeatedMessage.mb.val) = 0 := by decide +kernel
  have hserved : (Laws.start keepsOtherReply.core).served repeatedMessage.mb.val = true := by decide +kernel
  have hrepeated : (Laws.start keepsOtherReply.core).repeated repeatedMessage = true := by decide +kernel
  unfold Machine.Core.command
  simp only [hfree, hserved, hrepeated]
  rfl

/-- The replay writes the opcode of the kept reply into the buffer of mailbox 5. -/
theorem replay_writes_mailbox5 :
    readByte (run (fun c _ => (c.replay 0 0 0).freeBox 0) keepsOtherReply).mem (mbBuf 5) = 1 := by decide +kernel

/-- No command that takes `repeatedMessage` in `keepsOtherReply` leaves mailbox 5's buffer as it was. -/
theorem not_ownBox_keepsOtherReply {i : Instr} {sp : CmdSpec} {f : Cmd → Machine.Core → Machine.Core} {t : State}
    (hexec : exec i keepsOtherReply = go (fun c _ => c.command sp repeatedMessage f) keepsOtherReply)
    (ht : exec i keepsOtherReply = .next t) : ¬ OwnBox repeatedMessage keepsOtherReply t := by
  rintro ⟨hmem, -⟩
  have hrun : run (fun c _ => c.command sp repeatedMessage f) keepsOtherReply =
      run (fun c _ => (c.replay 0 0 0).freeBox 0) keepsOtherReply := run_congr (command_keepsOtherReply sp f)
  have ht : t = run (fun c _ => (c.replay 0 0 0).freeBox 0) keepsOtherReply :=
    (Host.Outcome.next.inj (ht.symm.trans hexec)).trans hrun
  have hkept : keptLen t.core repeatedMessage = 0 := by
    rw [ht]
    decide +kernel
  have hsame := hmem (mbBuf 5) (.inr (by rw [hkept]; decide))
  rw [ht, replay_writes_mailbox5] at hsame
  exact absurd hsame (by decide)

theorem not_onlyAnswers_keepsOtherReply {i : Instr} {sp : CmdSpec} {f : Cmd → Machine.Core → Machine.Core} {t : State}
    (hexec : exec i keepsOtherReply = go (fun c _ => c.command sp repeatedMessage f) keepsOtherReply)
    (ht : exec i keepsOtherReply = .next t) : ¬ OnlyAnswers repeatedMessage keepsOtherReply t :=
  fun h => not_ownBox_keepsOtherReply hexec ht h.1

theorem not_configured_keepsOtherReply {i : Instr} {sp : CmdSpec} {f : Cmd → Machine.Core → Machine.Core} {t : State}
    {op : Nat} (hexec : exec i keepsOtherReply = go (fun c _ => c.command sp repeatedMessage f) keepsOtherReply)
    (ht : exec i keepsOtherReply = .next t) : ¬ Configured op repeatedMessage keepsOtherReply t := by
  rintro ⟨-, -, -, -, -, -, hown, -⟩
  exact not_ownBox_keepsOtherReply hexec ht hown

/-- Refutes O46: HOST_PORT_GET repeated on mailbox 0 of `keepsOtherReply` writes the buffer of mailbox 5. -/
theorem not_readingCommandsOnlyAnswer : ¬ Obligations.ReadingCommandsOnlyAnswer := by
  unfold Obligations.ReadingCommandsOnlyAnswer
  intro h
  obtain ⟨hget, -⟩ := h keepsOtherReply
  obtain ⟨t, ht, honly⟩ := hget repeatedMessage
  exact not_onlyAnswers_keepsOtherReply rfl ht honly

/-- Refutes O47: GATE_PROFILE_SET repeated on mailbox 0 of `keepsOtherReply` writes the buffer of mailbox 5, which neither a
refusal nor a configuration taken leaves out. -/
theorem not_setCommandsAllOrNothing : ¬ Obligations.SetCommandsAllOrNothing := by
  unfold Obligations.SetCommandsAllOrNothing
  intro h
  obtain ⟨hset, -⟩ := h keepsOtherReply
  obtain ⟨t, ht, hdone⟩ := hset repeatedMessage
  rcases hdone with honly | hcfg
  · exact not_onlyAnswers_keepsOtherReply rfl ht honly
  · exact not_configured_keepsOtherReply rfl ht hcfg

/-- Refutes O48: an unsigned FUSE_REPAIR repeated on mailbox 0 of `keepsOtherReply` writes the buffer of mailbox 5. -/
theorem not_unsignedMessagesAreRefused : ¬ Obligations.UnsignedMessagesAreRefused := by
  unfold Obligations.UnsignedMessagesAreRefused
  intro h
  obtain ⟨hfuse, -⟩ := h keepsOtherReply
  obtain ⟨t, ht, honly⟩ := hfuse repeatedMessage (by decide)
  exact not_onlyAnswers_keepsOtherReply rfl ht honly

end Sys2Proof.Proofs
end

