-- ==== Sys2Proof/Proofs/Replies.lean ====
section
/-! The commands that only answer: GET commands (R489), SYSTEM_INFO and ECHO (R349, R350), status commands and the commands
that read records. -/
namespace Sys2Proof.Proofs
open Sys2Proof.Machine Sys2Proof.Claims Sys2Proof.Laws

section Allowed
variable {s : State} {c d : Machine.Core} {sp : CmdSpec} {m : Msg} {p : List Byte} {op n x mb : Nat}

/-! ### The checks of R340 for any command -/

/-- What the checks of R340 ask of the device, the rights of the mailbox and a payload of `n` bytes, in OFF too (R409); the
signature that the command may require is left out. -/
structure Allowed (c : Machine.Core) (sp : CmdSpec) (mb n : Nat) : Prop where
  priv : sp.priv = false ∨ c.getF (MBX_MB_CFG.PRIV mb) ≠ 0
  off : c.mode.code ≠ .off ∨ sp.op ∈ [0x0101, 0x0102, 0x0731]
  mode : sp.modes c.mode.code = true
  grade : sp.grade = none ∨ sp.grade = some c.grade
  len : sp.len n = true
  authority : sp.shadow = false ∨ c.getF PAI_STATUS.AUTH ≠ 1

/-- In OFF the commands of R409 are served. -/
theorem Allowed.serves (h : Allowed c sp mb n) : c.mode.code = .off → d.offServes sp.op = true := by
  intro hoff
  have hop : sp.op ∈ [0x0101, 0x0102, 0x0731] := h.off.resolve_left (absurd hoff)
  simp only [List.mem_cons, List.not_mem_nil, or_false] at hop
  unfold Machine.Core.offServes
  rcases hop with e | e | e <;> simp [e]

/-- Taking a message leaves the rights of its mailbox (R336, R337). -/
theorem priv_take : (c.take op m).1.getF (MBX_MB_CFG.PRIV m.mb.val) = c.getF (MBX_MB_CFG.PRIV m.mb.val) := by
  have hlast : (MBX_MB_CFG.PRIV m.mb.val).addr ≠ MBX_MB_LAST.a m.mb.val := by
    show 0x400C0040 + 8 * m.mb.val ≠ 0x400C0044 + 8 * m.mb.val
    omega
  have hstate : (mbState m.mb.val).addr ≠ (MBX_MB_CFG.PRIV m.mb.val).addr := by
    show 0x400C0004 ≠ 0x400C0040 + 8 * m.mb.val
    omega
  unfold Machine.Core.take
  dsimp only
  rw [getF_of_reg (reg_setBox _ _ _ _), getF_setF_apart (f := MBX_MB_CFG.LAST_VALID m.mb.val) (g := MBX_MB_CFG.PRIV m.mb.val) (by simp) rfl (by simp),
    getF_of_reg (reg_setReg_other hlast), getF_setF_other hstate.symm]

theorem mode_take : (c.take op m).1.mode = c.mode := (congrArg Machine.Core.mode (onlyMbx_take (c := c) (op := op) (m := m)) :)

theorem Allowed.take (h : Allowed c sp m.mb.val n) : Allowed (c.take op m).1 sp m.mb.val n where
  priv := by rw [priv_take]; exact h.priv
  off := by rw [mode_take]; exact h.off
  mode := by rw [mode_take]; exact h.mode
  grade := by rw [show (c.take op m).1.grade = c.grade from getF_take (by decide)]; exact h.grade
  len := h.len
  authority := by rw [getF_take (by decide)]; exact h.authority

theorem check_unsigned_allowed {ref : CmdRef} {body : List Byte} (h : Allowed c sp ref.mb body.length)
    (hsig : sp.sig ≠ 2) (hflags : ref.flags = 0) (hlen : body.length ≤ 4080) :
    c.check sp ref body = .go (unsignedCmd ref body) :=
  check_go hflags hlen h.priv h.grade h.mode h.serves hsig h.len h.authority

theorem check_signed_allowed {ref : CmdRef} {body t : List Byte} (h : Allowed c sp ref.mb p.length) (hflags : ref.flags = 1)
    (hlen : body.length ≤ 4080) (hp : p = body.take (body.length - trailerLen))
    (ht : t = body.drop (body.length - trailerLen)) (htrailer : c.trailerOk sp.op p t = true)
    (hseq : c.blobSeqOk sp.op t = true) : c.check sp ref body = .go (signedCmd ref p t) := by
  have hpriv : (sp.priv && decide (c.getF (MBX_MB_CFG.PRIV ref.mb) = 0)) = false := by
    rcases h.priv with e | e <;> simp [e]
  have hgrade : sp.grade.any (· != c.grade) = false := by rcases h.grade with e | e <;> simp [e]
  have hauth : (sp.shadow && decide (c.getF PAI_STATUS.AUTH = 1)) = false := by rcases h.authority with e | e <;> simp [e]
  have hmode : (!sp.modes c.mode.code || (c.mode.code == .off && !c.offServes sp.op)) = false := by
    rw [h.mode]
    by_cases e : c.mode.code = .off
    · rw [h.serves e]; simp
    · simp [e]
  have hsigned : bitOf ref.flags 0 = true := by rw [hflags]; rfl
  unfold Machine.Core.check
  simp only [hsigned, if_true, ← hp, ← ht]
  rw [if_neg (by rw [hflags]; decide), if_neg (Nat.not_lt.mpr hlen), if_neg (by simp [hpriv]), if_neg (by simp [hgrade]),
    if_neg (by simp [hmode]), if_neg (by simp [htrailer]), if_neg (by simp [hseq]), if_neg (by simp),
    if_neg (by simp [h.len]), if_neg (by simp [hauth])]
  rfl

/-- A message that passes the checks runs its command on the device that has taken it. -/
theorem command_of_allowed (hready : Ready c sp.op m p) (h : Allowed c sp m.mb.val p.length) (hsig : sp.sig ≠ 2) :
    ∃ cmd : Cmd, cmd.ref = (c.take sp.op m).2 ∧ cmd.p = p ∧ ∀ g, c.command sp m g = g cmd (c.take sp.op m).1 := by
  rcases hready with ⟨⟨hstate, hserved, hnew, hlen⟩, hflags, rfl⟩ |
    ⟨⟨hstate, hserved, hnew, hlen⟩, hflags, hp, htrailer, hseq⟩
  · exact ⟨unsignedCmd _ _, rfl, rfl, fun _ => command_go hstate hserved hnew
      (check_unsigned_allowed h.take hsig (congrArg BitVec.toNat hflags) hlen)⟩
  · rw [← trailerOk_take (op := sp.op) (m := m)] at htrailer
    rw [← blobSeqOk_take (op := sp.op) (m := m)] at hseq
    exact ⟨signedCmd _ _ _, rfl, rfl, fun _ => command_go hstate hserved hnew
      (check_signed_allowed h.take (congrArg BitVec.toNat hflags) hlen hp rfl htrailer hseq)⟩

/-- Running a command on a message that passes the checks. -/
theorem Allowed.start (h : Allowed s.core sp mb n) : Allowed (Laws.start s.core) sp mb n :=
  ⟨h.priv, h.off, h.mode, h.grade, h.len, h.authority⟩

/-- A command has the property where what it does with a message that passes the checks has it; its meaning may look at
memory. -/
theorem gives_of_allowed {i : Instr} {g : Memory → Cmd → Machine.Core → Machine.Core} {P : Machine.Core → Prop}
    (hexec : exec i s = go (fun c mem => c.command sp m (g mem)) s) (hready : Ready s.core op m p) (hop : sp.op = op)
    (h : Allowed s.core sp m.mb.val p.length) (hsig : sp.sig ≠ 2)
    (hP : ∀ cmd : Cmd, cmd.ref = ((Laws.start s.core).take op m).2 → cmd.p = p →
      P (g s.mem cmd (taken s.core op m)))
    (hmem : ∀ d : Machine.Core, P d → P { d with memOps := [] } := by exact fun _ h => h) : Gives i s P := by
  subst hop
  obtain ⟨cmd, href, hp, hrun⟩ := command_of_allowed (c := Laws.start s.core) hready h.start hsig
  refine gives_of_effect hexec ?_ hmem
  rw [hrun]
  exact hP cmd href hp

/-- A command that answers with what the device that has taken the message holds. -/
theorem gives_answer {i : Instr} {g : Memory → Cmd → Machine.Core → Machine.Core} {status : Nat} {payload : List Byte}
    (hexec : exec i s = go (fun c mem => c.command sp m (g mem)) s) (hready : Ready s.core op m p) (hop : sp.op = op)
    (h : Allowed s.core sp m.mb.val p.length) (hsig : sp.sig ≠ 2) (hstatus : status ≠ stACCEPTED)
    (hg : ∀ cmd : Cmd, cmd.p = p →
      ∃ d, g s.mem cmd (taken s.core op m) = Machine.Core.reply d cmd.ref status payload) :
    Gives i s fun t => Answered t m op status payload :=
  gives_of_allowed hexec hready hop h hsig fun cmd href hp => by
    obtain ⟨d, hd⟩ := hg cmd hp
    rw [hd]
    exact answered_reply_to href hstatus

/-- R489: no mode but OFF refuses a command without payload. -/
theorem allowed_getSpec (hoff : c.mode.code ≠ .off) (hp : p = []) : Allowed c (getSpec op) mb p.length where
  priv := .inl rfl
  off := .inl hoff
  mode := bne_iff_ne.mpr hoff
  grade := .inl rfl
  len := by rw [hp]; rfl
  authority := .inl rfl

/-- A command of every mode but OFF with a payload of `k` bytes. -/
theorem allowed_notOff {k : Nat} (hoff : c.mode.code ≠ .off) (hp : p.length = k) :
    Allowed c { op := op, modes := notOff, len := lenIs k, expect := k } mb p.length where
  priv := .inl rfl
  off := .inl hoff
  mode := bne_iff_ne.mpr hoff
  grade := .inl rfl
  len := by rw [hp]; exact beq_self_eq_true k
  authority := .inl rfl

/-! ### The GET commands (R489) -/

theorem cfg_taken : (taken c op m).cfg = c.cfg := cfg_take

theorem getCfg_taken {setOp : Nat} {defaults : List Byte} {cmd : Cmd} :
    (taken c op m).getCfg setOp defaults cmd =
      (taken c op m).reply cmd.ref stDONE (if c.cfgSet setOp then c.cfgP setOp else defaults) := by
  have hrec : (taken c op m).cfgRec setOp = c.cfgRec setOp := congrArg (fun l => mapGet (fun _ => CfgRec.none) l setOp) cfg_taken
  rw [Machine.Core.getCfg, Machine.Core.cfgSet, Machine.Core.cfgP, hrec, Machine.Core.cfgSet, Machine.Core.cfgP]

/-- R489: what a GET command answers. -/
theorem gives_getCfg {i : Instr} {setOp : Nat} {defaults : List Byte} (hready : Ready s.core op m p)
    (hmode : s.core.mode.code ≠ .off ∧ p = [])
    (hexec : exec i s = go (fun c _ => c.command (getSpec op) m fun cmd c => c.getCfg setOp defaults cmd) s) :
    Gives i s fun t => Answered t m op stDONE (if s.core.cfgSet setOp then s.core.cfgP setOp else defaults) :=
  gives_answer hexec hready rfl (allowed_getSpec hmode.1 hmode.2) (by show 0 ≠ 2; decide) (by decide)
    fun _ _ => ⟨_, getCfg_taken⟩

theorem gives_gridGet (hready : Ready s.core 0x02D1 m p) (hmode : s.core.mode.code ≠ .off ∧ p = [])
    (hgrade : s.core.grade = 1) :
    Gives (.gridGet m) s fun t =>
      Answered t m 0x02D1 stDONE (if s.core.cfgSet 0x02D0 then s.core.cfgP 0x02D0 else zeros 64) :=
  gives_answer (sp := { getSpec 0x02D1 with grade := some 1 }) rfl hready rfl
    { allowed_getSpec (op := 0x02D1) hmode.1 hmode.2 with grade := .inr (congrArg some hgrade.symm) } (by decide) (by decide)
    fun _ _ => ⟨_, getCfg_taken⟩

/-- Settles O31: the GET commands differ in their opcode, their record and its defaults. -/
theorem getReplies : Obligations.GetReplies := by
  unfold Obligations.GetReplies
  refine ⟨?_, ?_, ?_, ?_, ?_, ?_, ?_, ?_, ?_, ?_, ?_, ?_, ?_, ?_, ?_, ?_, ?_, ?_, fun _ _ _ => gives_gridGet⟩
  all_goals exact fun _ _ _ hready hmode => gives_getCfg hready hmode rfl

end Allowed

/-! ### The frame of an answer -/

section Frame
variable {s : State} {c : Machine.Core} {m : Msg} {p : List Byte} {op mb x : Nat} {ref : CmdRef} {status : Nat}

theorem length_le (n v : Nat) : (le n v).length = n := by
  induction n generalizing v with
  | zero => rfl
  | succ k ih => rw [le, List.length_cons, ih]

theorem length_header (r : Reply) : r.header.length = 16 := by
  simp only [Reply.header, List.length_append, length_le]

theorem ethUp_emit {r : Reply} : (c.emit r).mbx.ethUp = c.mbx.ethUp := by
  unfold Machine.Core.emit Machine.Core.send
  dsimp only
  split
  · rfl
  · split <;> rfl

theorem ethUp_freeBox : (c.freeBox mb).mbx.ethUp = c.mbx.ethUp := by
  unfold Machine.Core.freeBox
  dsimp only
  split <;> rfl

theorem ethUp_done (h : status ≠ stACCEPTED) : (c.reply ref status p).mbx.ethUp = c.mbx.ethUp := by
  unfold Machine.Core.reply
  dsimp only
  rw [if_neg h, ethUp_freeBox]
  exact ethUp_emit

theorem memOps_emit {r : Reply} :
    (c.emit r).memOps = c.memOps ++ [.write (mbBuf r.ref.mb + 16) r.payload, .write (mbBuf r.ref.mb) r.header] := by
  have hwrites : c.memOps ++ [.write (mbBuf r.ref.mb + 16) r.payload] ++ [.write (mbBuf r.ref.mb) r.header] =
      c.memOps ++ [.write (mbBuf r.ref.mb + 16) r.payload, .write (mbBuf r.ref.mb) r.header] := List.append_assoc _ _ _
  unfold Machine.Core.emit Machine.Core.send
  dsimp only
  split
  · exact hwrites
  · split <;> exact hwrites

theorem memOps_freeBox : (c.freeBox mb).memOps = c.memOps := by
  unfold Machine.Core.freeBox
  dsimp only
  split <;> rfl

/-- R334, R335: a final answer writes its payload and its header into the buffer of the mailbox. -/
theorem memOps_reply (h : status ≠ stACCEPTED) : ∃ r : Reply, r.ref = ref ∧ r.payload = p ∧
    (c.reply ref status p).memOps = c.memOps ++ [.write (mbBuf ref.mb + 16) p, .write (mbBuf ref.mb) r.header] := by
  refine ⟨⟨ref, (c.box ref.mb).cur.isSome && decide (c.getF (mbState ref.mb) = 3), status, p⟩, rfl, rfl, ?_⟩
  unfold Machine.Core.reply
  dsimp only
  rw [if_neg h, memOps_freeBox]
  exact memOps_emit

/-- Taking a message writes the registers of its mailbox only. -/
theorem reg_take_own (hstate : x ≠ MBX_STATE.a) (hlast : x ≠ MBX_MB_LAST.a m.mb.val) (hcfg : x ≠ MBX_MB_CFG.a m.mb.val) :
    (c.take op m).1.reg x = c.reg x := by
  unfold Machine.Core.take
  dsimp only
  rw [reg_setBox, reg_setF_other hcfg, reg_setReg_other hlast, reg_setF_other hstate]

theorem box_take_other (h : x ≠ m.mb.val) : (c.take op m).1.box x = c.box x := by
  unfold Machine.Core.take
  dsimp only
  rw [box_setBox, if_neg h]
  rfl

/-- A command whose meaning is a final answer changes nothing but the mailbox of its message (R336, R337, R343). -/
theorem onlyAnswers_reply {f : Machine.Core → Memory → Machine.Core} (h : status ≠ stACCEPTED)
    (hf : f (Laws.start s.core) s.mem = (taken s.core op m).reply ((Laws.start s.core).take op m).2 status p) :
    OnlyAnswers m s (run f s) := by
  have hmb : ((Laws.start s.core).take op m).2.mb = m.mb.val := rfl
  obtain ⟨-, -, ⟨r, hstored, -, -, hpayload⟩, hbox, hreg⟩ :=
    reply_final (c := taken s.core op m) (ref := ((Laws.start s.core).take op m).2) (payload := p) m.mb.isLt h
  have hcore : (run f s).core = { (taken s.core op m).reply ((Laws.start s.core).take op m).2 status p with memOps := [] } := by
    rw [run_core, hf]
  rw [hmb] at hbox hreg hstored
  refine ⟨⟨fun a ha => ?_, fun n hn => ?_, ?_, rfl⟩, fun a ha => ?_, ?_⟩
  · have hkept : keptLen (run f s).core m = p.length := by
      have hsame : ((run f s).core.box m.mb.val).stored = some r := by
        rw [hcore]
        exact hstored
      rw [keptLen, hsame, ← hpayload]
    obtain ⟨q, -, -, hops⟩ := memOps_reply (c := taken s.core op m) (ref := ((Laws.start s.core).take op m).2) (p := p) h
    have hops : (f (Laws.start s.core) s.mem).memOps = [.write (mbBuf m.mb.val + 16) p, .write (mbBuf m.mb.val) q.header] := by
      rw [hf, hops]
      rfl
    rw [hkept] at ha
    rw [run_mem, hops, List.foldl_cons, List.foldl_cons, List.foldl_nil,
      readByte_write_out (by rw [length_header]; omega), readByte_write_out (by omega)]
  · rw [hcore]
    exact (hbox n hn).trans (box_take_other hn)
  · rw [hcore]
    exact ethUp_done h
  · rw [hcore]
    simp only [answerReg, List.contains_cons, List.contains_nil, Bool.or_false, Bool.or_eq_false_iff, beq_eq_false_iff_ne] at ha
    obtain ⟨hstate, hready, -, -, -, hlast, hcfg⟩ := ha
    exact (hreg a (by simp [replyReg, hstate, hready, hcfg])).trans ((reg_take_own hstate hlast hcfg).trans (start_reg _ a))
  · have honly : OnlyMbx (Laws.start s.core) ((taken s.core op m).reply ((Laws.start s.core).take op m).2 status p) :=
      onlyMbx_take.trans onlyMbx_reply
    rw [hcore]
    generalize (taken s.core op m).reply ((Laws.start s.core).take op m).2 status p = d at honly
    exact congrArg (fun e : Machine.Core => { e with
      regs := s.core.regs, evSet := s.core.evSet, mbx := s.core.mbx, memOps := s.core.memOps, free := s.core.free }) honly

/-- The specification of ECHO (R350). -/
def echoSpec : CmdSpec := { op := 0x0102, modes := anyMode, len := lenAny }

/-- What ECHO does with a message that passes the checks (R350). -/
theorem exec_echo (hready : Ready s.core 0x0102 m p) : ∃ f, exec (.echo m) s = .next (run f s) ∧
    f (Laws.start s.core) s.mem = (taken s.core 0x0102 m).reply ((Laws.start s.core).take 0x0102 m).2 stDONE p := by
  have hallowed : Allowed s.core echoSpec m.mb.val p.length := ⟨.inl rfl, .inr (by decide), rfl, .inl rfl, rfl, .inl rfl⟩
  obtain ⟨cmd, href, hp, hrun⟩ :=
    command_of_allowed (c := Laws.start s.core) (sp := echoSpec) hready hallowed.start (by decide)
  have href : cmd.ref = ((Laws.start s.core).take 0x0102 m).2 := href
  refine ⟨fun c _ => c.command echoSpec m fun cmd c => c.reply cmd.ref stDONE cmd.p, rfl, (hrun _).trans ?_⟩
  rw [← hp, ← href]
  rfl

/-- Settles O58: ECHO needs no right and no mode, and its whole meaning is the answer. -/
theorem echoReturnsThePayload : Obligations.EchoReturnsThePayload := by
  unfold Obligations.EchoReturnsThePayload
  intro s m p hready
  obtain ⟨f, hexec, hf⟩ := exec_echo hready
  refine ⟨run f s, hexec, ?_, onlyAnswers_reply (by decide) hf⟩
  rw [run_core, hf]
  exact answered_reply_to rfl (by decide)

end Frame
end Sys2Proof.Proofs
end

