-- ==== Sys2Proof/Proofs/StatusReplies.lean ====
section
/-! The status commands (O32): each answers with what the device holds, and taking the message changes none of it. -/
namespace Sys2Proof.Proofs
open Sys2Proof.Machine Sys2Proof.Claims Sys2Proof.Laws

section Status
variable {s : State} {c : Machine.Core} {m : Msg} {p : List Byte} {op n : Nat} {f : Field}

/-! ### What a message taken leaves -/

/-- A message taken changes registers and the mailboxes only. -/
theorem onlyMbx_taken : OnlyMbx (Laws.start c) (taken c op m) := onlyMbx_take

theorem now_taken : (taken c op m).now = c.now := (congrArg Machine.Core.now (onlyMbx_taken (c := c) (op := op) (m := m)) :)
theorem mode_taken : (taken c op m).mode = c.mode := (congrArg Machine.Core.mode (onlyMbx_taken (c := c) (op := op) (m := m)) :)
theorem clk_taken : (taken c op m).clk = c.clk := (congrArg Machine.Core.clk (onlyMbx_taken (c := c) (op := op) (m := m)) :)
theorem sec_taken : (taken c op m).sec = c.sec := (congrArg Machine.Core.sec (onlyMbx_taken (c := c) (op := op) (m := m)) :)
theorem map_taken : (taken c op m).map = c.map := (congrArg Machine.Core.map (onlyMbx_taken (c := c) (op := op) (m := m)) :)
theorem disp_taken : (taken c op m).disp = c.disp := (congrArg Machine.Core.disp (onlyMbx_taken (c := c) (op := op) (m := m)) :)
theorem bist_taken : (taken c op m).bist = c.bist := (congrArg Machine.Core.bist (onlyMbx_taken (c := c) (op := op) (m := m)) :)
theorem pwr_taken : (taken c op m).pwr = c.pwr := (congrArg Machine.Core.pwr (onlyMbx_taken (c := c) (op := op) (m := m)) :)
theorem pair_taken : (taken c op m).pair = c.pair := (congrArg Machine.Core.pair (onlyMbx_taken (c := c) (op := op) (m := m)) :)
theorem tlm_taken : (taken c op m).tlm = c.tlm := (congrArg Machine.Core.tlm (onlyMbx_taken (c := c) (op := op) (m := m)) :)
theorem modu_taken : (taken c op m).modu = c.modu := (congrArg Machine.Core.modu (onlyMbx_taken (c := c) (op := op) (m := m)) :)

theorem flag_taken (h : f.addr / 0x10000 ≠ 0x400C) : (taken c op m).flag f = c.flag f := flag_of_reg (reg_taken h)

theorem wall_taken : (taken c op m).wall = c.wall := by
  unfold Machine.Core.wall Machine.Core.wallTime
  rw [now_taken, clk_taken, flag_taken (by decide)]

theorem systemInfo_taken : (taken c op m).systemInfo = c.systemInfo := by
  have hgrade : (taken c op m).grade = c.grade := getF_taken (by decide)
  have hslot : (taken c op m).getF SEC_STATUS.BOOT_SLOT = c.getF SEC_STATUS.BOOT_SLOT := getF_taken (by decide)
  simp only [Machine.Core.systemInfo, Machine.Core.us, hgrade, hslot, sec_taken, now_taken, wall_taken, mode_taken]

/-- The registers of a string's dispatch are none of a mailbox. -/
theorem statsRecord_taken (hn : n < 6) : (taken c op m).statsRecord n = c.statsRecord n := by
  unfold Machine.Core.statsRecord Machine.Core.dstr
  rw [map_taken, disp_taken, getF_taken (f := DSP_STR_WINDOW.SWAPS n) (by dsimp only [DSP_STR_WINDOW.a]; omega),
    getF_taken (f := DSP_STR_WINDOW.F_SW n) (by dsimp only [DSP_STR_WINDOW.a]; omega),
    getF_taken (f := DSP_STR_SOC.SOC_MEAN n) (by dsimp only [DSP_STR_SOC.a]; omega),
    getF_taken (f := DSP_STR_SOC.SOC_SPREAD n) (by dsimp only [DSP_STR_SOC.a]; omega),
    getF_taken (f := DSP_STR_CONS.VALUE n) (by dsimp only [DSP_STR_CONS.a]; omega)]

theorem statsRecords_taken : (List.range 6).flatMap (taken c op m).statsRecord = (List.range 6).flatMap c.statsRecord :=
  List.flatMap_congr fun _ hn => statsRecord_taken (List.mem_range.mp hn)

theorem any_congr_of_mem {α : Type} {l : List α} {q r : α → Bool} (h : ∀ x ∈ l, q x = r x) : l.any q = l.any r := by
  rw [Bool.eq_iff_iff, List.any_eq_true, List.any_eq_true]
  exact exists_congr fun x => and_congr_right fun hx => by rw [h x hx]

theorem bootReason_taken : (taken c op m).bootReason = c.bootReason := by
  have htraining : (List.range 128).any (fun l => (taken c op m).laneState l == 1) =
      (List.range 128).any (fun l => c.laneState l == 1) :=
    any_congr_of_mem fun l hl => by
      have hl := List.mem_range.mp hl
      rw [Machine.Core.laneState, getF_taken (f := LNK_LANE_STATUS.STATE l) (by dsimp only [LNK_LANE_STATUS.a]; omega), Machine.Core.laneState]
  unfold Machine.Core.bootReason
  rw [htraining, pwr_taken, bist_taken, getF_taken (f := BST_STATUS.REASON) (by decide)]

/-- What BIST_RESULT says of one memory (R411). -/
theorem bistRecord_taken (hn : n < 39) :
    (taken c op m).getF (BST_MEM_RESULT.RESULT n) = c.getF (BST_MEM_RESULT.RESULT n) ∧
    (taken c op m).getF (BST_MEM_RESULT.SOFT n) = c.getF (BST_MEM_RESULT.SOFT n) ∧
    (taken c op m).getF (BST_MEM_RESULT.FUSED n) = c.getF (BST_MEM_RESULT.FUSED n) ∧
    (taken c op m).reg (BST_MEM_MISR.a n) = c.reg (BST_MEM_MISR.a n) ∧
    (taken c op m).reg (BST_MEM_OPS.a n) = c.reg (BST_MEM_OPS.a n) := by
  refine ⟨getF_taken ?_, getF_taken ?_, getF_taken ?_, reg_taken ?_, reg_taken ?_⟩
  all_goals
    dsimp only [BST_MEM_RESULT.a, BST_MEM_MISR.a, BST_MEM_OPS.a]
    omega

theorem bistReply_taken : (taken c op m).bistReply = c.bistReply := by
  unfold Machine.Core.bistReply
  rw [bootReason_taken, bist_taken, reg_taken (x := BST_TIME.a) (by decide), getF_taken (f := BST_STATUS.STARTS) (by decide),
    getF_taken (f := BST_STATUS.FUSE_FREE) (by decide)]
  congr 2
  refine List.flatMap_congr fun n hn => ?_
  obtain ⟨hresult, hsoft, hfused, hmisr, hops⟩ := bistRecord_taken (c := c) (op := op) (m := m) (List.mem_range.mp hn)
  rw [hresult, hsoft, hfused, hmisr, hops]

theorem paiWords_taken : (taken c op m).paiWords = c.paiWords := by
  have hready : (taken c op m).takeoverReady = c.takeoverReady := by
    simp only [Machine.Core.takeoverReady, Machine.Core.sameUsable, Machine.Core.strings, Machine.Core.uCount,
      Machine.Core.causesA, pair_taken, map_taken, mode_taken, tlm_taken, pwr_taken,
      flag_taken (c := c) (op := op) (m := m) (f := PAI_CTRL.PAIR_EN) (by decide),
      flag_taken (c := c) (op := op) (m := m) (f := PAI_LINK.UP) (by decide),
      flag_taken (c := c) (op := op) (m := m) (f := PAI_STATUS.HASH_EQUAL) (by decide)]
  unfold Machine.Core.paiWords Machine.Core.paiStatus
  rw [hready, reg_taken (x := PAI_STATUS.a) (by decide)]
  refine congrArg _ (List.map_congr_left fun x hx => congrArg BitVec.toNat (reg_taken ?_))
  simp only [List.mem_cons, List.not_mem_nil, or_false] at hx
  rcases hx with rfl | rfl | rfl | rfl | rfl <;> decide

/-! ### The commands -/

/-- SYSTEM_INFO answers in OFF too (R349, R409). -/
theorem gives_systemInfo (hready : Ready s.core 0x0101 m p) (hp : p = []) :
    Gives (.systemInfo m) s fun t => Answered t m 0x0101 stDONE s.core.systemInfo := by
  have hallowed : Allowed s.core { op := 0x0101, modes := anyMode, len := lenIs 0 } m.mb.val p.length :=
    ⟨.inl rfl, .inr (by decide), rfl, .inl rfl, by rw [hp]; rfl, .inl rfl⟩
  rw [← systemInfo_taken (op := 0x0101) (m := m)]
  exact gives_answer (g := fun _ cmd c => c.reply cmd.ref stDONE c.systemInfo) rfl hready rfl hallowed (by decide) (by decide)
    fun _ _ => ⟨_, rfl⟩

theorem gives_echo (hready : Ready s.core 0x0102 m p) :
    Gives (.echo m) s fun t => Answered t m 0x0102 stDONE p := by
  obtain ⟨t, ht, hanswered, -⟩ := echoReturnsThePayload s m p hready
  exact ⟨t, ht, hanswered⟩

/-- The reply of MODE_GET (R491). -/
def modeReply (c : Machine.Core) : List Byte :=
  let pend := match c.mode.pend with
    | some p => p.target.code
    | none => 0xFF
  le 1 c.mode.code.code ++ le 1 c.mode.sub ++ le 1 pend ++ zeros 1 ++ le 8 c.mode.changed

theorem modeReply_taken : modeReply (taken c op m) = modeReply c := by rw [modeReply, mode_taken, modeReply]

theorem gives_modeGet (hready : Ready s.core 0x0302 m p) (hmode : s.core.mode.code ≠ .off ∧ p = []) :
    Gives (.modeGet m) s fun t => Answered t m 0x0302 stDONE (modeReply s.core) := by
  rw [← modeReply_taken (op := 0x0302) (m := m)]
  exact gives_answer (g := fun _ cmd c => c.reply cmd.ref stDONE (modeReply c)) rfl hready rfl
    (allowed_getSpec hmode.1 hmode.2) (by show 0 ≠ 2; decide) (by decide) fun _ _ => ⟨_, rfl⟩

/-- The reply of CLOCK_STATUS is that of the device which has taken the message. -/
theorem gives_clockStatus (hready : Ready s.core 0x0423 m p) (hmode : s.core.mode.code ≠ .off ∧ p = []) :
    Gives (.clockStatus m) s fun t => Answered t m 0x0423 stDONE (clockReply (s.core.take 0x0423 m).1) :=
  gives_answer (g := fun _ cmd c => c.reply cmd.ref stDONE (clockReply c)) rfl hready rfl
    (allowed_getSpec hmode.1 hmode.2) (by show 0 ≠ 2; decide) (by decide) fun _ _ => ⟨_, rfl⟩

/-- What GRID_STATUS answers after its first word (R64). -/
def gridStatusRest (c : Machine.Core) : List Byte :=
  let i (b : BitVec 64) (k : Nat) : Int := (dblOf b).toInt k (2 ^ 31 - 1) 0
  let vll := ((dblOf c.grid.m).mul (dblI (u32 c.gridP 0))).div (dblI 1000)
  leI 4 (i (if c.grid.option = 1 then c.grid.fSet else c.grid.fG) 1000) ++ (leI 4 (vll.toInt 1 (2 ^ 31 - 1) 0)
    ++ (leI 4 (i c.grid.p 1) ++ (leI 4 (i c.grid.q 1) ++ le 4 (satN 32 ((c.now - c.grid.phaseAt) / 1000000)))))

/-- The first word of GRID_STATUS (R64). -/
def gridStatusHead (c : Machine.Core) : List Byte :=
  le 1 c.grid.phase ++ le 1 c.grid.option ++ le 1 c.grid.lastTrip ++ zeros 1

theorem gives_gridStatus (hready : Ready s.core 0x0424 m p) (hmode : s.core.mode.code ≠ .off ∧ p = []) :
    Gives (.gridStatus m) s fun t => ∃ r ∈ (t.box m.mb.val).stored, r.status = stDONE ∧
      r.payload.take 4 = le 1 s.core.grid.phase ++ le 1 s.core.grid.option ++ le 1 s.core.grid.lastTrip ++ zeros 1 ∧
      Answered t m 0x0424 stDONE r.payload := by
  let d := taken s.core 0x0424 m
  have hanswer : Gives (.gridStatus m) s fun t =>
      Answered t m 0x0424 stDONE (gridStatusHead d ++ gridStatusRest d) :=
    gives_answer (g := fun _ cmd c => c.reply cmd.ref stDONE (gridStatusHead c ++ gridStatusRest c))
      (by simp only [gridStatusHead, gridStatusRest, ← List.append_assoc]; rfl) hready rfl
      ⟨.inl rfl, .inl hmode.1, bne_iff_ne.mpr hmode.1, .inl rfl, by rw [hmode.2]; rfl, .inl rfl⟩ (by decide) (by decide)
      fun _ _ => ⟨_, rfl⟩
  obtain ⟨t, ht, ⟨⟨r, hr, hop, hseq, htag, hstatus, hpayload⟩, hfree, hbit⟩⟩ := hanswer
  refine ⟨t, ht, r, hr, hstatus, ?_, ⟨r, hr, hop, hseq, htag, hstatus, rfl⟩, hfree, hbit⟩
  have hhead : gridStatusHead d = gridStatusHead s.core := by
    rw [gridStatusHead, show d.grid = s.core.grid from grid_taken, gridStatusHead]
  rw [hpayload, hhead]
  exact List.take_left' rfl

theorem gives_startStatus (hready : Ready s.core 0x0421 m p) (hmode : s.core.mode.code ≠ .off ∧ p = []) :
    Gives (.startStatus m) s fun t =>
      Answered t m 0x0421 stDONE (le 1 s.core.start.phase ++ le 1 s.core.start.src ++ le 1 s.core.start.reason ++
        zeros 1 ++ leI 4 s.core.start.nS ++ leI 4 s.core.start.nEmf ++ leI 4 s.core.start.amp ++
        le 2 s.core.start.delta ++ le 1 (min 255 s.core.start.extrap) ++ zeros 1 ++
        le 4 (satN 32 ((s.core.now - s.core.start.phaseAt) / 1000000))) := by
  refine gives_answer (g := fun _ cmd c =>
    c.reply cmd.ref stDONE (le 1 c.start.phase ++ le 1 c.start.src ++ le 1 c.start.reason ++ zeros 1 ++ leI 4 c.start.nS
      ++ leI 4 c.start.nEmf ++ leI 4 c.start.amp ++ le 2 c.start.delta ++ le 1 (min 255 c.start.extrap) ++ zeros 1
      ++ le 4 (satN 32 ((c.now - c.start.phaseAt) / 1000000)))) rfl hready rfl
    ⟨.inl rfl, .inl hmode.1, bne_iff_ne.mpr hmode.1, .inl rfl, by rw [hmode.2]; rfl, .inl rfl⟩ (by decide) (by decide)
    fun _ _ => ⟨taken s.core 0x0421 m, ?_⟩
  rw [start_taken, now_taken]

theorem gives_dockStatus (hready : Ready s.core 0x0422 m p)
    (hmode : s.core.mode.code ≠ .off ∧ p = [] ∧ s.core.getF PAI_STATUS.AUTH ≠ 1) :
    Gives (.dockStatus m) s fun t =>
      Answered t m 0x0422 stDONE
        ([DOK_STATUS.a, DOK_POS.a, DOK_TARGET.a, DOK_SPEED.a, DOK_OVERSHOOT.a, DOK_ARRIVE_ERR.a].flatMap
          (fun a => le 4 (s.core.reg a).toNat)) := by
  obtain ⟨hoff, hp, hauth⟩ := hmode
  refine gives_answer (g := fun _ cmd c =>
    c.reply cmd.ref stDONE ([DOK_STATUS.a, DOK_POS.a, DOK_TARGET.a, DOK_SPEED.a, DOK_OVERSHOOT.a, DOK_ARRIVE_ERR.a].flatMap
      (fun a => le 4 (c.reg a).toNat))) rfl hready rfl
    ⟨.inl rfl, .inl hoff, bne_iff_ne.mpr hoff, .inl rfl, by rw [hp]; rfl, .inr hauth⟩ (by show 0 ≠ 2; decide) (by decide)
    fun _ _ => ⟨taken s.core 0x0422 m, ?_⟩
  refine congrArg _ (List.flatMap_congr fun x hx => ?_)
  rw [reg_taken]
  simp only [List.mem_cons, List.not_mem_nil, or_false] at hx
  rcases hx with rfl | rfl | rfl | rfl | rfl | rfl <;> decide

theorem gives_pairStatus (hready : Ready s.core 0x0802 m p) (hmode : s.core.mode.code ≠ .off ∧ p = [])
    (hgrade : s.core.grade = 0) :
    Gives (.pairStatus m) s fun t => Answered t m 0x0802 stDONE (words s.core.paiWords) := by
  rw [← paiWords_taken (op := 0x0802) (m := m)]
  exact gives_answer (sp := { getSpec 0x0802 with grade := some 0 }) (g := fun _ cmd c => c.replyW cmd.ref stDONE c.paiWords)
    rfl hready rfl { allowed_getSpec (op := 0x0802) hmode.1 hmode.2 with grade := .inr (congrArg some hgrade.symm) }
    (by decide) (by decide) fun _ _ => ⟨_, rfl⟩

theorem gives_plantStatus (hready : Ready s.core 0x0811 m p) (hmode : s.core.mode.code ≠ .off ∧ p = [])
    (hgrade : s.core.grade = 1) :
    Gives (.plantStatus m) s fun t => Answered t m 0x0811 stDONE (words s.core.paiWords) := by
  rw [← paiWords_taken (op := 0x0811) (m := m)]
  exact gives_answer (sp := { getSpec 0x0811 with grade := some 1 }) (g := fun _ cmd c => c.replyW cmd.ref stDONE c.paiWords)
    rfl hready rfl { allowed_getSpec (op := 0x0811) hmode.1 hmode.2 with grade := .inr (congrArg some hgrade.symm) }
    (by decide) (by decide) fun _ _ => ⟨_, rfl⟩

theorem gives_dispatchStats (hready : Ready s.core 0x0420 m p) (hmode : s.core.mode.code ≠ .off ∧ p = []) :
    Gives (.dispatchStats m) s fun t => Answered t m 0x0420 stDONE ((List.range 6).flatMap s.core.statsRecord) := by
  rw [← statsRecords_taken (op := 0x0420) (m := m)]
  exact gives_answer (g := fun _ cmd c => c.reply cmd.ref stDONE ((List.range 6).flatMap c.statsRecord)) rfl hready rfl
    (allowed_getSpec hmode.1 hmode.2) (by show 0 ≠ 2; decide) (by decide) fun _ _ => ⟨_, rfl⟩

theorem gives_bistResult (hready : Ready s.core 0x0731 m p) (hmode : s.core.mode.code ≠ .off ∧ p = []) :
    Gives (.bistResult m) s fun t => Answered t m 0x0731 stDONE s.core.bistReply := by
  rw [← bistReply_taken (op := 0x0731) (m := m)]
  exact gives_answer (g := fun _ cmd c => c.reply cmd.ref stDONE c.bistReply) rfl hready rfl
    ⟨.inl rfl, .inl hmode.1, rfl, .inl rfl, by rw [hmode.2]; rfl, .inl rfl⟩ (by decide) (by decide) fun _ _ => ⟨_, rfl⟩

/-- The reply of TIMER_GET for channel `n` (R178). -/
def timerReply (c : Machine.Core) (n : Nat) : List Byte :=
  le 1 n ++ le 1 (c.getF (MOD_TCH_CFG.CNT_MODE n) + 4 * c.getF (MOD_TCH_CFG.SYNC n) + 8 * c.getF (MOD_TCH_CFG.PARTIAL_IGN n))
    ++ le 1 (c.getF (MOD_TCH_CFG.IRQ_EN n)) ++ le 1 (c.getF (MOD_TCH_CFG.TRG_EN n)) ++ le 4 ((c.tch n).val 0)
    ++ le 4 ((c.tch n).val 1) ++ le 4 ((c.tch n).val 2) ++ le 4 ((c.tch n).val 3)

theorem timerReply_taken (hn : n < 64) : timerReply (taken c op m) n = timerReply c n := by
  have hcfg {g : Field} (hg : g.addr = MOD_TCH_CFG.a n) : (taken c op m).getF g = c.getF g :=
    getF_taken (by rw [hg]; exact tchReg_outside (by decide) hn)
  have htch : (taken c op m).tch n = c.tch n := by rw [Machine.Core.tch, modu_taken, Machine.Core.tch]
  simp only [timerReply, hcfg, htch]

theorem gives_timerGet (hready : Ready s.core 0x0233 m p)
    (hmode : s.core.mode.code ≠ .off ∧ p.length = 1 ∧ u8 p 0 < 64) :
    Gives (.timerGet m) s fun t => Answered t m 0x0233 stDONE (timerReply s.core (u8 p 0)) := by
  obtain ⟨hoff, hlen, hn⟩ := hmode
  rw [← timerReply_taken (op := 0x0233) (m := m) hn]
  refine gives_answer (g := fun _ cmd c =>
    if u8 cmd.p 0 < 64 then c.reply cmd.ref stDONE (timerReply c (u8 cmd.p 0)) else c.badField cmd.ref (1, 0, 0)) rfl hready
    rfl (allowed_notOff hoff hlen) (by decide) (by decide) fun cmd hp => ⟨taken s.core 0x0233 m, ?_⟩
  rw [hp]
  exact if_pos hn

end Status

/-- Settles O32: the status commands pass the checks of R340, and what they answer is not changed by taking their message. -/
theorem statusReplies : Obligations.StatusReplies := by
  unfold Obligations.StatusReplies
  exact ⟨fun _ _ _ => gives_systemInfo, fun _ _ _ => gives_echo, fun _ _ _ => gives_modeGet, fun _ _ _ => gives_clockStatus,
    fun _ _ _ => gives_gridStatus, fun _ _ _ => gives_startStatus, fun _ _ _ => gives_dockStatus,
    fun _ _ _ => gives_pairStatus, fun _ _ _ => gives_plantStatus, fun _ _ _ => gives_dispatchStats,
    fun _ _ _ => gives_bistResult, fun _ _ _ => gives_timerGet⟩

end Sys2Proof.Proofs
end

