-- ==== Sys2Proof/Proofs/RecordReplies.lean ====
section
/-! The commands that read records (O33): alarms (R351), the event log and the trace (R392, R393), cell telemetry (R394), the
ledger (R380, R381), attestation (R440) and the register window (R354). -/
namespace Sys2Proof.Proofs
open Sys2Proof.Machine Sys2Proof.Claims Sys2Proof.Laws

section Records
variable {s : State} {c d : Machine.Core} {m : Msg} {p : List Byte} {op n x v : Nat} {f : Field} {mem : Memory}

theorem free_taken : (taken c op m).free = c.free := (congrArg Machine.Core.free (onlyMbx_taken (c := c) (op := op) (m := m)) :)
theorem cnv_taken : (taken c op m).cnv = c.cnv := (congrArg Machine.Core.cnv (onlyMbx_taken (c := c) (op := op) (m := m)) :)
theorem lgr_taken : (taken c op m).lgr = c.lgr := (congrArg Machine.Core.lgr (onlyMbx_taken (c := c) (op := op) (m := m)) :)

theorem tlm_reply {ref : CmdRef} {status : Nat} {payload : List Byte} : (d.reply ref status payload).tlm = d.tlm :=
  (congrArg Machine.Core.tlm onlyMbx_reply :)

/-! ### Alarms, log and trace -/

theorem gives_alarmList (hready : Ready s.core 0x0104 m p)
    (hp : s.core.mode.code ≠ .off ∧ p.length = 4 ∧ u8 p 2 < 8 ∧ u8 p 3 = 0) :
    Gives (.alarmList m) s fun t =>
      Answered t m 0x0104 stDONE (alarmPage (s.core.tlm.alarms.filter (fun a => bitOf (u8 p 2) a.name.cls.num)) (u16 p 0)) := by
  obtain ⟨hoff, hlen, hmask, hzero⟩ := hp
  have hreserved : zeroAt p 3 1 = true := zeroAt_of_u8 fun j hj => by
    obtain rfl : j = 0 := by omega
    exact hzero
  refine gives_of_ready (sp := { op := 0x0104, modes := notOff, len := lenIs 4, expect := 4 }) rfl hready rfl
    ⟨rfl, by decide, hoff, bne_iff_ne.mpr hoff, .inl rfl, beq_iff_eq.mpr hlen, .inl rfl⟩ fun cmd href hpay => ?_
  dsimp only
  rw [hpay, firstFail_cons (chk_pass (decide_eq_true hmask)), firstFail_cons (chkAt_pass hreserved), firstFail_nil, tlm_taken]
  exact answered_reply_to href (by decide)

theorem gives_eventLogRead (hready : Ready s.core 0x0401 m p) (hp : s.core.mode.code ≠ .off ∧ p.length = 4) :
    Gives (.eventLogRead m) s fun t => Answered t m 0x0401 stDONE (logReply s.core.tlm.log (u32 p 0)) := by
  refine gives_answer (g := fun _ cmd c => c.reply cmd.ref stDONE (logReply c.tlm.log (u32 cmd.p 0))) rfl hready rfl
    (allowed_notOff hp.1 hp.2) (by decide) (by decide) fun cmd hpay => ⟨taken s.core 0x0401 m, ?_⟩
  rw [hpay, tlm_taken]

/-- R393: a read of the trace without a gap gives 254 records at most, and they leave the buffer. -/
theorem gives_traceRead (hready : Ready s.core 0x0402 m p)
    (hp : s.core.mode.code ≠ .off ∧ p = [] ∧ s.core.tlm.traceLost = []) :
    Gives (.traceRead m) s fun t =>
      Answered t m 0x0402 stDONE ((s.core.tlm.trace.take 254).flatMap TraceRec.bytes) ∧
      t.tlm.trace = s.core.tlm.trace.drop 254 := by
  obtain ⟨hoff, hnil, hlost⟩ := hp
  refine gives_of_ready (sp := { op := 0x0402, modes := notOff, len := lenIs 0 }) rfl hready rfl
    ⟨rfl, by decide, hoff, bne_iff_ne.mpr hoff, .inl rfl, by rw [hnil]; rfl, .inl rfl⟩ fun cmd href _ => ?_
  have hgap : (!(taken s.core 0x0402 m).tlm.traceLost.isEmpty) = false := by rw [tlm_taken, hlost]; rfl
  dsimp only
  rw [hgap, tlm_reply, tlm_taken]
  exact ⟨answered_reply_to href (by decide), congrArg (fun y : Tlm => y.trace.drop 254) tlm_taken⟩

/-! ### Cell telemetry -/

/-- A record that is asked for anew gives the value in full (R394). -/
theorem cellCode_reset {y r : Int} : cellCode y r true = ([0x80] ++ leI 4 y, y) := by
  unfold cellCode
  exact if_pos (.inl rfl)

theorem gives_cellTelemetry (hready : Ready s.core 0x0403 m p)
    (hp : s.core.mode.code ≠ .off ∧ p.length = 4 ∧ u8 p 0 < 128 ∧ u8 p 1 = 1 ∧ u8 p 2 = 1 ∧ u8 p 3 = 0) :
    Gives (.cellTelemetry m) s fun t =>
      Answered t m 0x0403 stDONE (le 8 (s.core.cnv.sampleAt / 1000) ++ [0x80] ++ leI 4 (s.core.cellVal (u8 p 0)).v) ∧
      mapGet (fun _ => reconNone) t.tlm.recon (128 * m.mb.val + u8 p 0) = (s.core.cellVal (u8 p 0)).v := by
  obtain ⟨hoff, hlen, hfirst, hcount, hreset, hzero⟩ := hp
  have hreserved : zeroAt p 3 1 = true := zeroAt_of_u8 fun j hj => by
    obtain rfl : j = 0 := by omega
    exact hzero
  have hval : (taken s.core 0x0403 m).cellVal (u8 p 0) = s.core.cellVal (u8 p 0) := by
    rw [Machine.Core.cellVal, cnv_taken, Machine.Core.cellVal]
  refine gives_of_ready (sp := { op := 0x0403, modes := notOff, len := lenIs 4, expect := 4 }) rfl hready rfl
    ⟨rfl, by decide, hoff, bne_iff_ne.mpr hoff, .inl rfl, beq_iff_eq.mpr hlen, .inl rfl⟩ fun cmd href hpay => ?_
  have hmb : cmd.ref.mb = m.mb.val := by rw [href]; rfl
  dsimp only
  rw [hpay, hcount, hreset, firstFail_cons (chk_pass (decide_eq_true hfirst)),
    firstFail_cons (chk_pass (decide_eq_true (by omega))), firstFail_cons (chk_pass (by decide)),
    firstFail_cons (chkAt_pass hreserved), firstFail_nil]
  simp only [List.range_one, List.foldl_cons, List.foldl_nil, Nat.add_zero, beq_self_eq_true, cellCode_reset, hval, hmb,
    tlm_reply, cnv_taken]
  refine ⟨?_, mapGet_mapSet.trans (if_pos rfl)⟩
  rw [List.append_assoc]
  exact answered_reply_to href (by decide)

/-! ### The ledger -/

theorem gives_ledgerRead (hready : Ready s.core 0x0501 m p)
    (hp : s.core.mode.code ≠ .off ∧ p.length = 4 ∧ u8 p 0 = 0 ∧ u8 p 1 = 0 ∧ u16 p 2 < 128) :
    Gives (.ledgerRead m) s fun t => Answered t m 0x0501 stDONE (s.core.ledRec (u16 p 2)).bytes := by
  obtain ⟨hoff, hlen, htype, hzero, hindex⟩ := hp
  have hreserved : zeroAt p 1 1 = true := zeroAt_of_u8 fun j hj => by
    obtain rfl : j = 0 := by omega
    exact hzero
  have hrec : (taken s.core 0x0501 m).ledRec (u16 p 2) = s.core.ledRec (u16 p 2) := by
    rw [Machine.Core.ledRec, lgr_taken, Machine.Core.ledRec]
  refine gives_of_ready (sp := { op := 0x0501, modes := notOff, len := lenIs 4, expect := 4 }) rfl hready rfl
    ⟨rfl, by decide, hoff, bne_iff_ne.mpr hoff, .inl rfl, beq_iff_eq.mpr hlen, .inl rfl⟩ fun cmd href hpay => ?_
  dsimp only
  rw [hpay, htype, firstFail_cons (chk_pass (by decide)), firstFail_cons (chkAt_pass hreserved),
    firstFail_cons (chk_pass (by simp [hindex])), firstFail_nil, hrec]
  exact answered_reply_to href (by decide)

theorem gives_charListGet (hready : Ready s.core 0x0507 m p)
    (hp : s.core.mode.code ≠ .off ∧ p.length = 4 ∧ u16 p 2 = 0) :
    Gives (.charListGet m) s fun t =>
      Answered t m 0x0507 stDONE (le 2 s.core.lgr.chars.length ++
        le 2 ((s.core.lgr.chars.drop (u16 p 0)).take 127).length ++
        ((s.core.lgr.chars.drop (u16 p 0)).take 127).flatMap CharEnt.bytes) := by
  obtain ⟨hoff, hlen, hzero⟩ := hp
  refine gives_of_ready (sp := { op := 0x0507, modes := notOff, len := lenIs 4, expect := 4 }) rfl hready rfl
    ⟨rfl, by decide, hoff, bne_iff_ne.mpr hoff, .inl rfl, beq_iff_eq.mpr hlen, .inl rfl⟩ fun cmd href hpay => ?_
  dsimp only
  rw [hpay, chkAt_pass (zeroAt_of_uN hzero), lgr_taken]
  exact answered_reply_to href (by decide)

/-! ### Attestation -/

theorem report_taken {nonce : List Byte} : (taken c op m).report nonce = c.report nonce := by
  have hgrade : (taken c op m).grade = c.grade := getF_taken (by decide)
  have horigin : (taken c op m).getF SEC_STATUS.ORIGIN = c.getF SEC_STATUS.ORIGIN := getF_taken (by decide)
  have hslot : (taken c op m).getF SEC_STATUS.BOOT_SLOT = c.getF SEC_STATUS.BOOT_SLOT := getF_taken (by decide)
  have hlevel : (taken c op m).getF DDP_STAT.LEVEL = c.getF DDP_STAT.LEVEL := getF_taken (by decide)
  have hkeys : (taken c op m).reg SEC_KEYS.a = c.reg SEC_KEYS.a := reg_taken (by decide)
  unfold Machine.Core.report Machine.Core.configHash Machine.Core.us
  rw [hgrade, horigin, hslot, hlevel, hkeys, sec_taken, cfg_taken, now_taken, wall_taken, lgr_taken]

theorem sign_taken {b : List Byte} : (taken c op m).sign b = c.sign b := by
  rw [Machine.Core.sign, free_taken, Machine.Core.sign]

theorem zeroAt_add (i k l : Nat) : zeroAt p i (k + l) = (zeroAt p i k && zeroAt p (i + k) l) := by
  rw [zeroAt, List.take_add, List.all_append, List.drop_drop, zeroAt, zeroAt]

/-- What ATTEST answers: the certificate, or a report and its signature (R440). -/
def attestReply (c : Machine.Core) (p : List Byte) : List Byte :=
  if u8 p 0 = 0 then Config.certificate.take 1024 else c.report (p.drop 4) ++ c.sign (c.report (p.drop 4))

theorem gives_attest (hready : Ready s.core 0x0610 m p)
    (hp : s.core.mode.code ≠ .off ∧ p.length = 20 ∧ u8 p 0 < 2 ∧ u8 p 1 = 0 ∧ u16 p 2 = 0) :
    Gives (.attest m) s fun t => Answered t m 0x0610 stDONE (attestReply s.core p) := by
  obtain ⟨hoff, hlen, htype, h1, h2⟩ := hp
  have hfirst : zeroAt p 1 1 = true := zeroAt_of_u8 fun j hj => by
    obtain rfl : j = 0 := by omega
    exact h1
  have hreserved : zeroAt p 1 3 = true := (zeroAt_add 1 1 2).trans (by rw [hfirst, zeroAt_of_uN h2]; rfl)
  refine gives_of_ready (sp := { op := 0x0610, modes := notOff, len := lenIs 20, expect := 20 }) rfl hready rfl
    ⟨rfl, by decide, hoff, bne_iff_ne.mpr hoff, .inl rfl, beq_iff_eq.mpr hlen, .inl rfl⟩ fun cmd href hpay => ?_
  dsimp only
  rw [hpay, firstFail_cons (chk_pass (decide_eq_true htype)), firstFail_cons (chkAt_pass hreserved), firstFail_nil,
    report_taken, sign_taken]
  by_cases h0 : u8 p 0 = 0
  · rw [if_pos h0, attestReply, if_pos h0]
    exact answered_reply_to href (by decide)
  · rw [if_neg h0, attestReply, if_neg h0]
    exact answered_reply_to href (by decide)

/-! ### The register window -/

/-- The window reads a word of a register in a domain that is on (R30, R33). -/
abbrev WindowReads (c : Machine.Core) (x : Nat) : Prop :=
  x % 4 = 0 ∧ regionOf x = .regs ∧ c.domainOn (domainOf x) = true

theorem busRead_window : (d.busRead mem x .window).2 = if WindowReads d x then some (d.readReg x).2 else none := by
  unfold Machine.Core.busRead Machine.Core.busCheck
  by_cases halign : x % 4 = 0
  · by_cases hregs : regionOf x = .regs
    · have hclamp : (memsAt x).any d.clamped.contains = false := by rw [memsAt, hregs]; rfl
      have hreach : reaches x false .window = true := by simp [reaches, hregs]
      by_cases hon : d.domainOn (domainOf x) = true
      · simp [halign, hregs, hclamp, hreach, hon]
      · simp [halign, hregs, hclamp, hreach, hon]
    · have hreach : reaches x false .window = false := by simp [reaches, hregs]
      simp [halign, hregs, hreach]
  · simp [halign]

/-- What the device sent and wrote before stands apart from registers and lanes. -/
theorem start_bump {k : Nat} : (Laws.start d).bump f k = Laws.start (d.bump f k) := rfl
theorem start_setF : (Laws.start d).setF f v = Laws.start (d.setF f v) := rfl
theorem start_setLane {l : Nat} {y : Lane} : (Laws.start d).setLane l y = Laws.start (d.setLane l y) := rfl

/-- R98: the injections that are counted. -/
def injCounted (c : Machine.Core) (l k : Nat) : Machine.Core :=
  let y := c.lane l
  (c.setLane l { y with injMade := y.injMade + k, injAt := if k = 0 then y.injAt else c.now }).bump
    (LNK_LANE_INJ_STATUS.INJECTED l) k

/-- How many injections a lane has made since they were counted last. -/
def injNew (c : Machine.Core) (l : Nat) : Nat :=
  capInj (c.getF (LNK_LANE_INJ_CFG.LIMIT l)) (c.lane l).injMade (slotsIn (c.lane l).injAt c.now / c.injRate l)

theorem injSettle_eq {l : Nat} : d.injSettle l = if !d.injDown l then d
    else if d.getF (LNK_LANE_INJ_CFG.LIMIT l) ≠ 0 ∧ d.getF (LNK_LANE_INJ_CFG.LIMIT l) ≤ (d.lane l).injMade + injNew d l then
      (injCounted d l (injNew d l)).setF (LNK_LANE_INJ_STATUS.ACTIVE l) 0
    else injCounted d l (injNew d l) := rfl

theorem injCounted_start {l k : Nat} : injCounted (Laws.start d) l k = Laws.start (injCounted d l k) := by
  unfold injCounted
  dsimp only
  rw [start_setLane, start_bump]
  rfl

theorem injNew_start {l : Nat} : injNew (Laws.start d) l = injNew d l := rfl
theorem injDown_start {l : Nat} : (Laws.start d).injDown l = d.injDown l := rfl

theorem injSettle_start {l : Nat} : (Laws.start d).injSettle l = Laws.start (d.injSettle l) := by
  have hlimit : (Laws.start d).getF (LNK_LANE_INJ_CFG.LIMIT l) = d.getF (LNK_LANE_INJ_CFG.LIMIT l) := rfl
  have hlane : (Laws.start d).lane l = d.lane l := rfl
  rw [injSettle_eq, injSettle_eq (d := d), injDown_start, injNew_start, injCounted_start, start_setF, hlimit, hlane]
  rw [apply_ite Laws.start, apply_ite Laws.start]

theorem liveArray_start {w : Nat} : (Laws.start d).liveArray x w = d.liveArray x w := by
  unfold Machine.Core.liveArray
  simp only [injSettle_start]
  rfl

theorem liveReg_start : (Laws.start d).liveReg x = d.liveReg x := by
  unfold Machine.Core.liveReg
  dsimp only
  rw [liveArray_start]
  rfl

theorem readReg_start : ((Laws.start d).readReg x).2 = (d.readReg x).2 := by
  unfold Machine.Core.readReg
  simp only [liveReg_start]
  split
  · rfl
  · split
    · rfl
    · rfl

/-- What the device sent and wrote before does not change what the window reads. -/
theorem busRead_window_start : ((Laws.start d).busRead mem x .window).2 = (d.busRead mem x .window).2 := by
  rw [busRead_window, busRead_window, readReg_start]
  rfl

theorem taken_eq_start : taken c op m = Laws.start (c.take op m).1 := rfl

theorem windowRead_one (hread : (d.busRead mem x .window).2 = some v) :
    ∃ e, Machine.Core.windowRead mem 1 d x [] = (e, le 4 v, true) := by
  unfold Machine.Core.windowRead
  cases hb : d.busRead mem x .window with
  | mk e r =>
    rw [hb] at hread
    obtain rfl : r = some v := hread
    exact ⟨e, rfl⟩

theorem gives_regRead (hready : Ready s.core 0x0701 m p)
    (hp : s.core.mode.code ≠ .off ∧ p.length = 8 ∧ windowChecks p 1020 = none ∧ u16 p 4 = 1)
    (hpriv : s.core.getF (MBX_MB_CFG.PRIV m.mb.val) ≠ 0)
    (hread : ((s.core.take 0x0701 m).1.busRead s.mem (u32 p 0) .window).2 = some v) :
    Gives (.regRead m) s fun t => Answered t m 0x0701 stDONE (le 4 v) := by
  obtain ⟨hoff, hlen, hchecks, hcount⟩ := hp
  have hread : ((taken s.core 0x0701 m).busRead s.mem (u32 p 0) .window).2 = some v := by
    rw [taken_eq_start, busRead_window_start, hread]
  obtain ⟨e, he⟩ := windowRead_one hread
  refine gives_of_allowed (sp := { op := 0x0701, priv := true, modes := notOff, len := lenIs 8, expect := 8 }) rfl hready rfl
    ⟨.inr hpriv, .inl hoff, bne_iff_ne.mpr hoff, .inl rfl, beq_iff_eq.mpr hlen, .inl rfl⟩ (by decide) fun cmd href hpay => ?_
  dsimp only
  rw [hpay, hchecks, hcount]
  dsimp only
  rw [he]
  exact answered_reply_to href (by decide)

end Records

/-- Settles O33: each command passes the checks of its fields and answers with records that taking its message left alone. -/
theorem recordReplies : Obligations.RecordReplies := by
  unfold Obligations.RecordReplies
  refine ⟨fun _ _ _ => gives_alarmList, fun _ _ _ => gives_eventLogRead, fun _ _ _ => gives_traceRead,
    fun _ _ _ => gives_cellTelemetry, fun _ _ _ => gives_ledgerRead, fun _ _ _ => gives_charListGet,
    fun s m p hready hp => ?_, fun s m p hready hp => ?_, fun _ _ _ _ => gives_regRead⟩
  · obtain ⟨hoff, hlen, htype, hp⟩ := hp
    have h := gives_attest hready ⟨hoff, hlen, by omega, hp⟩
    rwa [attestReply, if_pos htype] at h
  · obtain ⟨hoff, hlen, htype, hp⟩ := hp
    have h := gives_attest hready ⟨hoff, hlen, by omega, hp⟩
    rwa [attestReply, if_neg (by omega)] at h

end Sys2Proof.Proofs
end

