-- ==== Sys2Proof/Proofs/DockCommands.lean ====
section
/-! What a command does after its answer leaves the answer as it is; the docking commands (R286). -/
namespace Sys2Proof.Proofs
open Sys2Proof.Machine Sys2Proof.Claims Sys2Proof.Laws

section Answers
variable {c d e : Machine.Core} {m : Msg} {ref : CmdRef} {op status x v : Nat} {p : List Byte} {f : Field}

/-! ### ACCEPTED (R336) -/

/-- The mailboxes, their states and their READY bits are the same. -/
structure MbxSame (c d : Machine.Core) : Prop where
  state : d.reg MBX_STATE.a = c.reg MBX_STATE.a
  ready : d.reg MBX_REPLY_READY.a = c.reg MBX_REPLY_READY.a
  box : ∀ k, d.box k = c.box k

theorem MbxSame.refl (c : Machine.Core) : MbxSame c c := ⟨rfl, rfl, fun _ => rfl⟩

theorem MbxSame.trans (h : MbxSame c d) (k : MbxSame d e) : MbxSame c e :=
  ⟨k.state.trans h.state, k.ready.trans h.ready, fun n => (k.box n).trans (h.box n)⟩

/-- A write of a register of another block. -/
theorem mbxSame_setF (h : f.addr / 0x10000 ≠ 0x400C) : MbxSame c (c.setF f v) := by
  have hstate : MBX_STATE.a ≠ f.addr := by
    rintro e
    exact h (by rw [← e]; decide)
  have hready : MBX_REPLY_READY.a ≠ f.addr := by
    rintro e
    exact h (by rw [← e]; decide)
  exact ⟨reg_setF_other hstate, reg_setF_other hready, fun _ => rfl⟩

theorem accepted_of_same (h : Accepted c m op) (k : MbxSame c d) : Accepted d m op := by
  obtain ⟨hstored, hstate, hready⟩ := h
  refine ⟨?_, (getF_of_reg k.state).trans hstate, (getBit_of_reg k.ready).trans hready⟩
  rw [k.box]
  exact hstored

/-- An ACCEPTED reply as its parts: the reply is sent and stored, and the mailbox becomes PENDING. -/
theorem reply_accepted_eq : ∃ r : Reply, r.ref = ref ∧ r.status = stACCEPTED ∧ r.payload = p ∧
    c.reply ref stACCEPTED p =
      (((c.emit r).setBox ref.mb { (c.emit r).box ref.mb with stored := some r }).setF (mbState ref.mb) 3).setBox ref.mb
        { ((c.emit r).setBox ref.mb { (c.emit r).box ref.mb with stored := some r }).box ref.mb with cur := some ref } := by
  refine ⟨⟨ref, (c.box ref.mb).cur.isSome && decide (c.getF (mbState ref.mb) = 3), stACCEPTED, p⟩, rfl, rfl, rfl, ?_⟩
  unfold Machine.Core.reply
  dsimp only
  rw [if_pos rfl]

/-- R336: ACCEPTED leaves the mailbox PENDING and READY with the reply stored. -/
theorem accepted_reply_to (href : ref = (c.take op m).2) : Accepted (d.reply ref stACCEPTED []) m op := by
  obtain ⟨r, hr, hstatus, hpayload, hreply⟩ := reply_accepted_eq (c := d) (ref := ref) (p := [])
  have hmb : ref.mb = m.mb.val := by rw [href]; rfl
  have hlt := m.mb.isLt
  refine ⟨⟨r, ?_, by rw [hr, href]; rfl, by rw [hr, href]; rfl, hstatus, hpayload⟩, ?_, ?_⟩
  · rw [hreply, ← hmb, box_setBox, if_pos rfl, box_setBox, if_pos rfl]
    exact rfl
  · rw [hreply, getF_of_reg (reg_setBox _ _ _ _), ← hmb, getF_setF_same (by show 2 * ref.mb + 2 ≤ 32; omega)]
    rfl
  · have hready : ((d.emit r).setBox ref.mb { (d.emit r).box ref.mb with stored := some r }).getBit MBX_REPLY_READY.READY
        ref.mb = true := hr ▸ emit_ready (by rw [hr, hmb]; exact hlt)
    rw [hreply, ← hmb, getBit_of_reg (reg_setBox _ _ _ _), getBit_of_reg (reg_setF_other (by show 0x400C000C ≠ 0x400C0004; decide)),
      hready]

/-- An answer writes registers of the mailboxes only. -/
theorem reg_reply (hmb : ref.mb < 16) (h : x / 0x10000 ≠ 0x400C) : (d.reply ref status p).reg x = d.reg x := by
  refine reg_reply_other ?_ ?_ ?_
  · rintro rfl
    exact h (by decide)
  · rintro rfl
    exact h (by decide)
  · rintro rfl
    exact h (by dsimp only [MBX_MB_CFG.a]; omega)

theorem mb_of_take (href : ref = (c.take op m).2) : ref.mb < 16 := by
  rw [href]
  exact m.mb.isLt

end Answers

/-! ### The docking commands -/

section Dock
variable {s : State} {c d : Machine.Core} {m : Msg} {ref : CmdRef} {op x : Nat} {p : List Byte} {f : Field}

theorem dok_taken : (taken c op m).dok = c.dok := (congrArg Machine.Core.dok (onlyMbx_taken (c := c) (op := op) (m := m)) :)
theorem fbk_taken : (taken c op m).fbk = c.fbk := (congrArg Machine.Core.fbk (onlyMbx_taken (c := c) (op := op) (m := m)) :)

theorem dockImage_taken : (taken c op m).dockImage = c.dockImage :=
  regBytes_congr fun j hj => reg_taken (by dsimp only [DOK_CFG_IMAGE.a]; omega)

theorem dockSt_taken : (taken c op m).dockSt = c.dockSt := getF_taken (by decide)

theorem dockReady_taken : (taken c op m).dockReady = c.dockReady := by
  have hset : (taken c op m).cfgSet 0x0280 = c.cfgSet 0x0280 := congrArg (fun l => (mapGet (fun _ => CfgRec.none) l 0x0280).stored)
    cfg_taken
  rw [Machine.Core.dockReady, hset, flag_taken (by decide), getF_taken (by decide), Machine.Core.dockReady]

theorem vStart_taken : (taken c op m).vStart = c.vStart := by rw [Machine.Core.vStart, dockImage_taken, Machine.Core.vStart]
theorem vLimit_taken : (taken c op m).vLimit = c.vLimit := by rw [Machine.Core.vLimit, dockImage_taken, Machine.Core.vLimit]
theorem vHome_taken : (taken c op m).vHome = c.vHome := by rw [Machine.Core.vHome, dockImage_taken, Machine.Core.vHome]

theorem endBlocks_taken {k : Int} : (taken c op m).endBlocks k = c.endBlocks k := by
  rw [Machine.Core.endBlocks, fbk_taken, dok_taken, Machine.Core.endBlocks]

/-- The registers of the move engine follow it; STATE is not among them (R287). -/
theorem dockSt_dockRegs : c.dockRegs.getF DOK_STATUS.STATE = c.getF DOK_STATUS.STATE := by
  unfold Machine.Core.dockRegs Machine.Core.putPos Machine.Core.setI Machine.Core.setFlag
  dsimp only
  rw [getF_setF_apart (f := DOK_STATUS.SLEWING) (g := DOK_STATUS.STATE) (by decide) rfl (by decide),
    getF_setF_apart (f := DOK_STATUS.DIR) (g := DOK_STATUS.STATE) (by decide) rfl (by decide),
    getF_setF_other (f := DOK_SPEED.V) (by decide), getF_setF_other (f := DOK_TARGET.VALUE) (by decide),
    getF_setF_other (f := DOK_POS.VALUE) (by decide)]

theorem homed_dockRegs : c.dockRegs.getF DOK_STATUS.HOMED = c.getF DOK_STATUS.HOMED := by
  unfold Machine.Core.dockRegs Machine.Core.putPos Machine.Core.setI Machine.Core.setFlag
  dsimp only
  rw [getF_setF_apart (f := DOK_STATUS.SLEWING) (g := DOK_STATUS.HOMED) (by decide) rfl (by decide),
    getF_setF_apart (f := DOK_STATUS.DIR) (g := DOK_STATUS.HOMED) (by decide) rfl (by decide),
    getF_setF_other (f := DOK_SPEED.V) (by decide), getF_setF_other (f := DOK_TARGET.VALUE) (by decide),
    getF_setF_other (f := DOK_POS.VALUE) (by decide)]

theorem onlyMbx_dockRegs : OnlyMbx c c.dockRegs := by
  unfold Machine.Core.dockRegs Machine.Core.putPos Machine.Core.setI Machine.Core.setFlag
  dsimp only
  exact (((onlyMbx_setF.trans onlyMbx_setF).trans onlyMbx_setF).trans onlyMbx_setF).trans onlyMbx_setF

theorem dok_of_onlyMbx (h : OnlyMbx c d) : d.dok = c.dok := (congrArg Machine.Core.dok h :)

theorem dok_dockRegs : c.dockRegs.dok = c.dok := dok_of_onlyMbx onlyMbx_dockRegs

theorem mbxSame_dockRegs : MbxSame c c.dockRegs := by
  unfold Machine.Core.dockRegs Machine.Core.putPos Machine.Core.setI Machine.Core.setFlag
  exact ((((mbxSame_setF (by decide)).trans (mbxSame_setF (by decide))).trans (mbxSame_setF (by decide))).trans
    (mbxSame_setF (by decide))).trans (mbxSame_setF (by decide))

theorem mbxSame_modDok {g : Dok → Dok} : MbxSame c (c.modDok g) := ⟨rfl, rfl, fun _ => rfl⟩

theorem mbxSame_dockState {k : Nat} : MbxSame c (c.dockState k) := mbxSame_setF (by decide)

theorem dockSt_dockState {k : Nat} (h : k < 8) : (c.dockState k).getF DOK_STATUS.STATE = k :=
  (getF_setF_same (by decide)).trans (Nat.mod_eq_of_lt h)

theorem dok_dockState {k : Nat} : (c.dockState k).dok = c.dok := rfl
theorem dok_modDok {g : Dok → Dok} : (c.modDok g).dok = g c.dok := rfl

theorem dok_reply {status : Nat} : (d.reply ref status p).dok = d.dok := (congrArg Machine.Core.dok onlyMbx_reply :)

/-- Where no move is outstanding, the new one takes its place (R274). -/
theorem replaceMove_eq (h : c.dok.move = none) :
    c.replaceMove ref = (c.modDok (fun k => { k with move := some ref, edge := false })).reply ref stACCEPTED [] := by
  unfold Machine.Core.replaceMove
  rw [h]
  rfl

theorem accepted_replaceMove (href : ref = (c.take op m).2) (h : d.dok.move = none) : Accepted (d.replaceMove ref) m op := by
  rw [replaceMove_eq h]
  exact accepted_reply_to href

theorem dok_replaceMove (h : d.dok.move = none) :
    (d.replaceMove ref).dok = { d.dok with move := some ref, edge := false } := by
  rw [replaceMove_eq h, dok_reply]
  rfl

theorem dockImage_replaceMove (hmb : ref.mb < 16) (h : d.dok.move = none) : (d.replaceMove ref).dockImage = d.dockImage := by
  rw [replaceMove_eq h]
  exact regBytes_congr fun j hj => (reg_reply hmb (by dsimp only [DOK_CFG_IMAGE.a]; omega)).trans rfl

/-- A move that starts stands through the registers of the engine (R275, R277). -/
theorem startMove_dockRegs {t : Int} (hsame : Accepted d m op) :
    Accepted (d.startMove t).dockRegs m op ∧ (d.startMove t).dockRegs.dok.t = t ∧
      (d.startMove t).dockRegs.dok.v = d.vStart ∧ (d.startMove t).dockRegs.getF DOK_STATUS.STATE = 1 ∧
      (d.startMove t).dockRegs.dok.move = d.dok.move :=
  ⟨accepted_of_same hsame ((mbxSame_modDok.trans mbxSame_dockState).trans mbxSame_dockRegs),
    congrArg Dok.t dok_dockRegs, congrArg Dok.v dok_dockRegs, dockSt_dockRegs.trans (dockSt_dockState (by decide)),
    (congrArg Dok.move dok_dockRegs).trans rfl⟩

theorem gives_dockMove (hready : Ready s.core 0x0340 m p)
    (hmode : s.core.mode.code = .drive ∧ s.core.getF PAI_STATUS.AUTH ≠ 1 ∧ p.length = 8)
    (hrest : s.core.dockReady = true ∧ s.core.dockSt = 0 ∧ s.core.dok.move = none)
    (hp : u16 p 4 = 0 ∧ u16 p 6 = 0 ∧ s.core.vStart ≤ s.core.vLimit)
    (hfar : s.core.endBlocks (dirTo (i32 p 0 * 1000000) s.core.dok.p) = false ∧
      1000 ≤ (i32 p 0 * 1000000 - s.core.dok.p).natAbs) :
    Gives (.dockMove m) s fun t =>
      Accepted t m 0x0340 ∧ t.dok.t = i32 p 0 * 1000000 ∧ t.dok.v = s.core.vStart ∧ t.getF DOK_STATUS.STATE = 1 ∧
      (t.dok.move.map (·.seq)) = some m.seq.toNat := by
  obtain ⟨hdrive, hauth, hlen⟩ := hmode
  obtain ⟨hset, hstate, hnone⟩ := hrest
  obtain ⟨hspeed, hzero, hlimit⟩ := hp
  obtain ⟨hend, hdist⟩ := hfar
  refine gives_of_ready (sp := dockSpec 0x0340 8 (· == .drive)) rfl hready rfl
    ⟨rfl, by show 0 ≠ 2; decide, by rw [hdrive]; decide, by rw [hdrive]; rfl, .inl rfl, beq_iff_eq.mpr hlen, .inr hauth⟩
    fun cmd href hpay => ?_
  have hmove : (taken s.core 0x0340 m).dok.move = none := by rw [dok_taken, hnone]
  have hhoming : (taken s.core 0x0340 m).homingNow = false := by rw [Machine.Core.homingNow, hmove]; rfl
  dsimp only
  rw [hpay, hspeed, if_pos rfl, firstFail_cons (chk_pass (by rw [vStart_taken, vLimit_taken]; simp [hlimit])),
    firstFail_cons (chkAt_pass (zeroAt_of_uN hzero)), firstFail_nil, dockReady_taken, hset, dok_taken, endBlocks_taken, hend,
    dockSt_taken, hstate]
  dsimp only
  rw [if_neg (by rw [hhoming]; decide), if_neg (by decide)]
  unfold Machine.Core.dockMove
  dsimp only
  rw [dockSt_taken, hstate, if_neg (by decide), dok_taken, if_neg (by omega)]
  obtain ⟨haccepted, ht, hv, hst, hkept⟩ := startMove_dockRegs (t := i32 p 0 * 1000000)
    (accepted_of_same (accepted_replaceMove href hmove) (mbxSame_modDok (g := fun k =>
      { k with vMax := (taken s.core 0x0340 m).vLimit })))
  refine ⟨haccepted, ht, hv.trans ?_, hst, ?_⟩
  · have himage := (dockImage_replaceMove (mb_of_take href) hmove).trans (dockImage_taken (c := s.core) (op := 0x0340) (m := m))
    exact congrArg (fun l => mmS (u16 l 4)) himage
  · rw [hkept]
    show ((taken s.core 0x0340 m).replaceMove cmd.ref).dok.move.map (·.seq) = some m.seq.toNat
    rw [dok_replaceMove hmove, href]
    rfl

theorem gives_dockStop (hready : Ready s.core 0x0341 m p)
    (hmode : s.core.mode.code ≠ .off ∧ s.core.getF PAI_STATUS.AUTH ≠ 1 ∧ p = [])
    (hstate : s.core.dockSt = 1 ∨ s.core.dockSt = 2) :
    Gives (.dockStop m) s fun t =>
      Accepted t m 0x0341 ∧ t.getF DOK_STATUS.STATE = 3 ∧ t.dok.why = 0 ∧ (t.dok.stop.map (·.seq)) = some m.seq.toNat := by
  obtain ⟨hoff, hauth, hnil⟩ := hmode
  refine gives_of_ready (sp := dockSpec 0x0341 0 notOff) rfl hready rfl
    ⟨rfl, by show 0 ≠ 2; decide, hoff, bne_iff_ne.mpr hoff, .inl rfl, by rw [hnil]; rfl, .inr hauth⟩ fun cmd href _ => ?_
  dsimp only
  rw [dockSt_taken, if_pos (by omega), if_neg (by omega)]
  refine ⟨accepted_of_same (accepted_reply_to href) mbxSame_dockRegs, ?_, ?_, ?_⟩
  · rw [dockSt_dockRegs, getF_of_reg (reg_reply (mb_of_take href) (by decide))]
    exact dockSt_dockState (by decide)
  · rw [dok_dockRegs, dok_reply]
    rfl
  · rw [dok_dockRegs, dok_reply, href]
    rfl

theorem gives_dockResume (hready : Ready s.core 0x0342 m p)
    (hmode : s.core.mode.code = .drive ∧ s.core.getF PAI_STATUS.AUTH ≠ 1 ∧ p = [])
    (hstate : s.core.dockSt = 4 ∧ s.core.dockReady = true) :
    Gives (.dockResume m) s fun t =>
      Accepted t m 0x0342 ∧ t.getF DOK_STATUS.STATE = 1 ∧ t.dok.t = s.core.dok.t := by
  obtain ⟨hdrive, hauth, hnil⟩ := hmode
  refine gives_of_ready (sp := dockSpec 0x0342 0 (· == .drive)) rfl hready rfl
    ⟨rfl, by show 0 ≠ 2; decide, by rw [hdrive]; decide, by rw [hdrive]; rfl, .inl rfl, by rw [hnil]; rfl, .inr hauth⟩
    fun cmd href _ => ?_
  dsimp only
  rw [dockSt_taken, dockReady_taken, if_pos hstate, dok_taken]
  obtain ⟨haccepted, ht, -, hst, -⟩ := startMove_dockRegs (t := s.core.dok.t)
    (accepted_reply_to (d := (taken s.core 0x0342 m).modDok (fun k => { k with resumes := k.resumes ++ [cmd.ref] })) href)
  exact ⟨haccepted, hst, ht⟩

theorem gives_dockHome (hready : Ready s.core 0x0343 m p)
    (hmode : s.core.mode.code = .drive ∧ s.core.getF PAI_STATUS.AUTH ≠ 1 ∧ p = [])
    (hrest : s.core.dockSt = 0 ∧ s.core.dockReady = true ∧ s.core.dok.move = none ∧
      s.core.fbk.activeAt.getD 1 none = none) :
    Gives (.dockHome m) s fun t =>
      Accepted t m 0x0343 ∧ t.getF DOK_STATUS.STATE = 6 ∧ t.dok.v = min s.core.vStart s.core.vHome := by
  obtain ⟨hdrive, hauth, hnil⟩ := hmode
  obtain ⟨hstate, hset, hnone, hedge⟩ := hrest
  refine gives_of_ready (sp := dockSpec 0x0343 0 (· == .drive)) rfl hready rfl
    ⟨rfl, by show 0 ≠ 2; decide, by rw [hdrive]; decide, by rw [hdrive]; rfl, .inl rfl, by rw [hnil]; rfl, .inr hauth⟩
    fun cmd href _ => ?_
  have hmove : (taken s.core 0x0343 m).dok.move = none := by rw [dok_taken, hnone]
  have hhoming : (taken s.core 0x0343 m).homingNow = false := by rw [Machine.Core.homingNow, hmove]; rfl
  have hblock (k : Int) : (taken s.core 0x0343 m).endBlocks k = false := by
    rw [endBlocks_taken, Machine.Core.endBlocks, hedge]
    rfl
  dsimp only
  rw [if_neg (by rw [hhoming]; decide), dockReady_taken, hset, hblock, dockSt_taken, hstate, if_neg (by decide)]
  refine ⟨accepted_of_same (accepted_replaceMove href hmove) ((mbxSame_modDok.trans mbxSame_dockState).trans mbxSame_dockRegs),
    dockSt_dockRegs.trans (dockSt_dockState (by decide)), ?_⟩
  rw [dok_dockRegs, dok_dockState, dok_modDok, vStart_taken, vHome_taken]

theorem gives_dockSetPos (hready : Ready s.core 0x0345 m p)
    (hmode : s.core.mode.code ≠ .off ∧ s.core.getF PAI_STATUS.AUTH ≠ 1 ∧ p.length = 4)
    (hstate : s.core.dockSt = 0 ∨ s.core.dockSt = 4 ∨ s.core.dockSt = 5) :
    Gives (.dockSetPos m) s fun t =>
      Answered t m 0x0345 stDONE [] ∧ t.dok.p = i32 p 0 * 1000000 ∧ t.flag DOK_STATUS.HOMED = false ∧ t.dok.slewLeft = 0 := by
  obtain ⟨hoff, hauth, hlen⟩ := hmode
  refine gives_of_ready (sp := dockSpec 0x0345 4 notOff) rfl hready rfl
    ⟨rfl, by show 0 ≠ 2; decide, hoff, bne_iff_ne.mpr hoff, .inl rfl, beq_iff_eq.mpr hlen, .inr hauth⟩ fun cmd href hpay => ?_
  dsimp only
  rw [dockSt_taken, if_pos hstate, hpay]
  refine ⟨answered_done href, ?_, ?_, ?_⟩
  · rw [Machine.Core.done, dok_reply]
    rfl
  · rw [flag_of_reg (reg_done (mb_of_take href) (by decide)), flag_of_getF homed_dockRegs]
    exact flag_setF_same (f := DOK_STATUS.HOMED) (by decide) rfl
  · rw [Machine.Core.done, dok_reply]
    rfl

/-! ### DOCK_COMPARE (R284) -/

/-- What arming a compare leaves: every field but ARMED, below the mailboxes and outside DOK_STATUS and DOK_EVENT. -/
theorem getF_armCompare {k : Nat} (hbelow : f.addr < 0x400C0000) (hstatus : f.addr ≠ DOK_STATUS.a)
    (hevent : f.addr ≠ DOK_EVENT.a) (harmed : f.addr = DOK_CMP_CFG.a k → f.lo + f.len ≤ 7) :
    (c.armCompare k).getF f = c.getF f := by
  have hset {b : Bool} : (c.setArmed k b).getF f = c.getF f := by
    unfold Machine.Core.setArmed Machine.Core.setFlag
    by_cases ha : f.addr = DOK_CMP_CFG.a k
    · rw [getF_setF_apart (f := DOK_CMP_CFG.ARMED k) (by simp) ha (.inl (harmed ha)), getF_of_reg (reg_putBit_other hstatus)]
    · rw [getF_setF_other ha, getF_of_reg (reg_putBit_other hstatus)]
  have hfire {b : Bool} {g : Dok → Dok} : ((c.setArmed k b).modDok g).getF f = c.getF f :=
    (getF_of_reg (c := c.setArmed k b) rfl).trans hset
  unfold Machine.Core.armCompare
  dsimp only
  split
  · rw [getF_of_reg (reg_raise_below hbelow), getF_of_reg (reg_event_other hevent)]
    exact hfire
  · exact hfire

theorem satS_of_fits {y : Int} (hmin : -2147483648 ≤ y) (hmax : y < 2147483648) : satS 32 y = y := by
  rw [satS, clampI]
  simp only [Nat.add_one_sub_one, Nat.reducePow]
  omega

theorem toS_ofS {y : Int} (hmin : -2147483648 ≤ y) (hmax : y < 2147483648) : toS 32 (ofS 32 y % 2 ^ 32) = y := by
  rw [toS, ofS]
  simp only [Nat.reduceSub, Nat.reducePow]
  split <;> omega

/-- A signed value that its 32-bit field holds reads back. -/
theorem getI_setI_of_fits {y : Int} (hlo : f.lo = 0) (hlen : f.len = 32) (hmin : -2147483648 ≤ y) (hmax : y < 2147483648) :
    (c.setI f y).getI f = y := by
  rw [Machine.Core.getI, Machine.Core.setI, getF_setF_same (by omega), hlen, satS_of_fits hmin hmax]
  exact toS_ofS hmin hmax

/-- The registers of a compare lie in the docking block, apart from its status and its events. -/
theorem cmpReg_apart {b k : Nat} (hb : 0x400A0040 ≤ b ∧ b < 0x400A0048) (hk : k < 8) :
    (b + 8 * k) / 0x10000 ≠ 0x400C ∧ b + 8 * k < 0x400C0000 ∧ b + 8 * k ≠ DOK_STATUS.a ∧ b + 8 * k ≠ DOK_EVENT.a := by
  have hstatus : DOK_STATUS.a = 0x400A0004 := rfl
  have hevent : DOK_EVENT.a < 0x400A0040 := by decide
  omega

theorem gives_dockCompare (hready : Ready s.core 0x0344 m p)
    (hmode : s.core.mode.code ≠ .off ∧ s.core.getF PAI_STATUS.AUTH ≠ 1 ∧ p.length = 8)
    (hp : u8 p 0 < 8 ∧ u8 p 1 < 128 ∧ u8 p 2 = 0 ∧ u8 p 3 = 0 ∧ s.core.flag DOK_CTRL.EN = true) :
    Gives (.dockCompare m) s fun t =>
      Answered t m 0x0344 stDONE [] ∧ (t.reg (DOK_CMP_CFG.a (u8 p 0))).toNat % 128 = u8 p 1 ∧
      (-200000000 < i32 p 4 → i32 p 4 < 200000000 → t.getI (DOK_CMP_POS.POS (u8 p 0)) = i32 p 4 * 10) := by
  obtain ⟨hoff, hauth, hlen⟩ := hmode
  obtain ⟨hk, hcfg, h2, h3, hen⟩ := hp
  refine gives_of_ready (sp := dockSpec 0x0344 8 notOff) rfl hready rfl
    ⟨rfl, by show 0 ≠ 2; decide, hoff, bne_iff_ne.mpr hoff, .inl rfl, beq_iff_eq.mpr hlen, .inr hauth⟩ fun cmd href hpay => ?_
  have hreserved : zeroAt p 2 2 = true := zeroAt_of_u8 fun j hj => by
    obtain rfl | rfl : j = 0 ∨ j = 1 := by omega
    · exact h2
    · exact h3
  dsimp only
  rw [hpay, firstFail_cons (chk_pass (decide_eq_true hk)), firstFail_cons (chk_pass (decide_eq_true hcfg)),
    firstFail_cons (chkAt_pass hreserved), firstFail_nil, flag_taken (by decide), hen]
  dsimp only
  rw [if_neg (by decide)]
  have hmb := mb_of_take href
  refine ⟨answered_done href, ?_, fun hlow hhigh => ?_⟩
  · obtain ⟨hout, hbelow, hstatus, hevent⟩ := cmpReg_apart (b := 0x400A0044) (by decide) hk
    have hfield (e : Machine.Core) : (e.reg (DOK_CMP_CFG.a (u8 p 0))).toNat % 128 = e.getF ⟨DOK_CMP_CFG.a (u8 p 0), 0, 7⟩ := by
      rw [Machine.Core.getF, bitsOf, pow_zero, Nat.div_one]
      rfl
    have hother : (⟨DOK_CMP_CFG.a (u8 p 0), 0, 7⟩ : Field).addr ≠ (DOK_CMP_POS.POS (u8 p 0)).addr := by
      show 0x400A0044 + 8 * u8 p 0 ≠ 0x400A0040 + 8 * u8 p 0
      omega
    rw [hfield, getF_of_reg (reg_done hmb hout), getF_armCompare hbelow hstatus hevent (fun _ => le_refl 7),
      Machine.Core.setI, getF_setF_other hother, ← hfield, reg_setReg, if_pos rfl, BitVec.toNat_ofNat]
    omega
  · obtain ⟨hout, hbelow, hstatus, hevent⟩ := cmpReg_apart (b := 0x400A0040) (by decide) hk
    have hself : (DOK_CMP_POS.POS (u8 p 0)).addr ≠ DOK_CMP_CFG.a (u8 p 0) := by
      show 0x400A0040 + 8 * u8 p 0 ≠ 0x400A0044 + 8 * u8 p 0
      omega
    have hkept (e : Machine.Core) : ((e.armCompare (u8 p 0)).done cmd.ref).getF (DOK_CMP_POS.POS (u8 p 0)) =
        e.getF (DOK_CMP_POS.POS (u8 p 0)) :=
      (getF_of_reg (reg_done hmb hout)).trans (getF_armCompare hbelow hstatus hevent fun e => absurd e hself)
    rw [Machine.Core.getI, hkept, ← Machine.Core.getI]
    exact getI_setI_of_fits rfl rfl (by omega) (by omega)

end Dock

/-- Settles O37: the engine's own registers and state lie outside the mailboxes, so that an answer stands through the move it
starts and the move through its answer. -/
theorem dockCommands : Obligations.DockCommands := by
  unfold Obligations.DockCommands
  exact ⟨fun _ _ _ => gives_dockMove, fun _ _ _ => gives_dockStop, fun _ _ _ => gives_dockResume,
    fun _ _ _ => gives_dockHome, fun _ _ _ => gives_dockCompare, fun _ _ _ => gives_dockSetPos⟩

end Sys2Proof.Proofs
end

