-- ==== Sys2Proof/Proofs/ChannelAbort.lean ====
section
/-! The abort of a channel whose owner is a command of a mailbox that the device does not have (R341, R358, R359). -/
namespace Sys2Proof.Proofs
open Sys2Proof.Machine Sys2Proof.Claims Sys2Proof.Laws

/-- Channel 9 is FAULTED, and the command that mailbox 0 runs owns its copies. The device has 16 mailboxes, but `CmdRef.mb` is
any number and the statement is about every state: the command answers to a mailbox 8291, whose assignment by its number
stands at STU_CH_STAT of channel 9, and an assignment with PORT 0 waits for it (R341). -/
def strayOwner : State :=
  ⟨[], [], (((Machine.Core.reset.setF (mbState 0) 2).setCh 9 chFAULTED).setBox 0
    { Mbox.reset with cur := some ⟨8291, 0x0101, 0, 0, 0, 0, 0, 0⟩ }).setBox 8291
    { Mbox.reset with newCfg := some (0, 0, 0) }⟩

/-- R359, R341: the owner is answered PARTIAL, its mailbox takes its assignment, and STATE of the channel reads IDLE. -/
theorem stuAbort_strayOwner_idle : ∃ t, exec (.stuAbort 9) strayOwner = .next t ∧ t.core.chState 9 = chIDLE := by
  refine ⟨_, rfl, ?_⟩
  rw [run_core]
  decide +kernel

/-- Refutes O18: in `strayOwner` the abort of channel 9 frees the mailbox that the command names, and the assignment it takes
overwrites the state of the channel, which the fourth clause says is ABORTED. -/
theorem not_dmaEvents : ¬ Obligations.DmaEvents := by
  unfold Obligations.DmaEvents
  rintro ⟨-, -, -, habort, -⟩
  obtain ⟨t, ht, haborted, -⟩ := habort strayOwner 9 (by decide +kernel)
  obtain ⟨u, hu, hidle⟩ := stuAbort_strayOwner_idle
  obtain rfl : t = u := Host.Outcome.next.inj (ht.symm.trans hu)
  exact absurd (hidle.symm.trans haborted) (by decide)

end Sys2Proof.Proofs
end

