-- ==== Sys2Proof/Proofs/DebugBusError.lean ====
section
/-! A bus error of the debug port, which the port reports in its own registers (R449). -/
namespace Sys2Proof.Proofs
open Sys2Proof.Machine Sys2Proof.Claims Sys2Proof.Laws

/-- An access of the debug port outside the map sets MEM_ERR of DDP_STAT (R449). -/
theorem unmappedAccess_debug_sets_memErr :
    ∃ t, exec (.unmappedAccess 0 .debug) ⟨[], [], Machine.Core.reset⟩ = .next t ∧ t.core.flag DDP_STAT.MEM_ERR = true := by
  refine ⟨_, rfl, ?_⟩
  rw [run_core]
  decide +kernel

/-- Refutes O24: the last clause says of every initiator but a DMA channel that an access outside the map leaves the registers as
they were; the debug port is such an initiator, and it records the error. -/
theorem not_domainEvents : ¬ Obligations.DomainEvents := by
  unfold Obligations.DomainEvents
  rintro ⟨-, -, -, -, -, hquiet⟩
  obtain ⟨t, ht, hregs, -, -⟩ := hquiet ⟨[], [], Machine.Core.reset⟩ 0 .debug (fun _ => Initiator.noConfusion)
  obtain ⟨u, hu, herr⟩ := unmappedAccess_debug_sets_memErr
  obtain rfl : t = u := Host.Outcome.next.inj (ht.symm.trans hu)
  have hclear : Machine.Core.reset.flag DDP_STAT.MEM_ERR = false := by decide +kernel
  have hsame : t.core.flag DDP_STAT.MEM_ERR = Machine.Core.reset.flag DDP_STAT.MEM_ERR :=
    flag_of_reg (congrArg (fun r => mapGet regReset r DDP_STAT.a) hregs)
  rw [herr, hclear] at hsame
  exact absurd hsame (by decide)

end Sys2Proof.Proofs
end

