-- ==== Sys2Proof/Proofs/HearthReset.lean ====
section
/-! What a HEARTH reset leaves of a register file that is not in its canonical form. -/
namespace Sys2Proof.Proofs
open Sys2Proof.Machine Sys2Proof.Claims Sys2Proof.Laws

/-- A commanded HEARTH reset is due (R425). The register file lists a register of PD_9 before SAF_STATUS, whose address is the
lower one: the device keeps its registers in the order of their addresses, but the statement is about every state, and a
search that stops at the first higher address does not reach the second entry. -/
def unsortedRegisters : State :=
  ⟨[], [], { Machine.Core.reset with
    regs := [(0x40130004, 1), (SAF_STATUS.a, 5)]
    pwr := { Machine.Core.reset.pwr with resetDue := some (1, 5, 0) } }⟩

/-- The reset drops the register of PD_9, and the entry of SAF_STATUS behind it comes to light. -/
theorem commandedReset_unsortedRegisters :
    ∃ t, exec .commandedReset unsortedRegisters = .next t ∧ t.core.reg SAF_STATUS.a = 5 := by
  refine ⟨_, rfl, ?_⟩
  rw [run_core]
  decide +kernel

/-- Refutes O23: in `unsortedRegisters` SAF_STATUS reads its reset value, and 5 after the HEARTH reset, which the tenth clause says
leaves every register of the safety island as it was. -/
theorem not_resetEvents : ¬ Obligations.ResetEvents := by
  unfold Obligations.ResetEvents
  rintro ⟨-, -, -, -, -, -, -, -, -, hhearth, -⟩
  obtain ⟨t, ht, -, -, -, -, -, hkept⟩ := hhearth unsortedRegisters 5 0 ⟨rfl, by decide⟩
  obtain ⟨u, hu, hfive⟩ := commandedReset_unsortedRegisters
  obtain rfl : t = u := Host.Outcome.next.inj (ht.symm.trans hu)
  have hbefore : unsortedRegisters.core.reg SAF_STATUS.a ≠ 5 := by decide +kernel
  exact hbefore ((hkept SAF_STATUS.a (by decide)).symm.trans hfive)

end Sys2Proof.Proofs
end

