-- ==== Sys2Proof/Proofs/AlarmFrames.lean ====
section
/-! What the events that raise an alarm leave as it was (R351, R391): their own frame is the alarm table under one name, the
registers they write, and the engine they belong to. -/
namespace Sys2Proof.Proofs
open Sys2Proof.Machine Sys2Proof.Claims Sys2Proof.Laws

/-! ### The frame of an alarm -/

/-- The device without its registers, its telemetry and whatever else a frame puts back. -/
def Hides (hide : Machine.Core → Machine.Core) : Prop :=
  (∀ c : Machine.Core, (hide c).memOps = c.memOps) ∧
    ∀ (c : Machine.Core) (r : SMap Word) (e : SMap Nat) (y : Tlm), hide { c with regs := r, evSet := e, tlm := y } = hide c

/-- Registers outside `W`, what `hide` leaves and the entries of other names in the alarm table (ALARM_TABLE_FOLD apart) are
as before. -/
structure AlarmsOnly (nm : AlarmName) (W : Nat → Bool) (hide : Machine.Core → Machine.Core) (c d : Machine.Core) : Prop where
  hidden : hide d = hide c
  regs : ∀ a, W a = false → d.reg a = c.reg a
  alarms : ∀ x : Alarm, x.name ≠ nm → x.name ≠ .alarmTableFold → (x ∈ d.tlm.alarms ↔ x ∈ c.tlm.alarms)

section Steps
variable {nm : AlarmName} {W : Nat → Bool} {hide : Machine.Core → Machine.Core} {c d e : Machine.Core} {f : Field}
  {inst v : Nat} {data : List Nat} {present : Bool}

theorem AlarmsOnly.refl : AlarmsOnly nm W hide c c := ⟨rfl, fun _ _ => rfl, fun _ _ _ => Iff.rfl⟩

theorem AlarmsOnly.trans (h : AlarmsOnly nm W hide c d) (k : AlarmsOnly nm W hide d e) : AlarmsOnly nm W hide c e :=
  ⟨k.hidden.trans h.hidden, fun a ha => (k.regs a ha).trans (h.regs a ha),
    fun x hn hf => (k.alarms x hn hf).trans (h.alarms x hn hf)⟩

theorem alarmsOnly_ite {p : Prop} [Decidable p] (h : AlarmsOnly nm W hide c d) (k : AlarmsOnly nm W hide c e) :
    AlarmsOnly nm W hide c (if p then d else e) := by
  split
  · exact h
  · exact k

/-- A step of the engine that the frame hides. -/
theorem alarmsOnly_engine (hhide : hide d = hide c) (hregs : d.regs = c.regs) (htlm : d.tlm.alarms = c.tlm.alarms) :
    AlarmsOnly nm W hide c d :=
  ⟨hhide, fun a _ => congrArg (fun r => mapGet regReset r a) hregs, fun x _ _ => by rw [htlm]⟩

theorem alarmsOnly_setReg {a : Nat} {w : Word} (hh : Hides hide) (h : W a = true) :
    AlarmsOnly nm W hide c (c.setReg a w) :=
  ⟨hh.2 c _ c.evSet c.tlm, fun _ hx => reg_setReg_other (ne_of_outside h hx), fun _ _ _ => Iff.rfl⟩

theorem alarmsOnly_setF (hh : Hides hide) (h : W f.addr = true) : AlarmsOnly nm W hide c (c.setF f v) :=
  alarmsOnly_setReg hh h

theorem alarmsOnly_bump (hh : Hides hide) (h : W f.addr = true) : AlarmsOnly nm W hide c (c.bump f v) :=
  alarmsOnly_setReg hh h

theorem alarmsOnly_event (hh : Hides hide) (h : W f.addr = true) : AlarmsOnly nm W hide c (c.event f) :=
  ⟨hh.2 c _ _ c.tlm, fun _ hx => reg_event_other (ne_of_outside h hx), fun _ _ _ => by rw [event_tlm]⟩

/-- The registers of the table and the log are those of `alarmReg`. -/
theorem alarmsOnly_raise (hh : Hides hide) (hW : ∀ a, alarmReg a = true → W a = true) :
    AlarmsOnly nm W hide c (c.raise nm inst data present) := by
  obtain ⟨honly, hregs⟩ := onlyAlarm_raise (c := c) (nm := nm) (inst := inst) (data := data) (present := present)
  refine ⟨?_, fun a ha => hregs a ?_ ?_, fun x hn hf => raise_other hn hf⟩
  · generalize c.raise nm inst data present = d at honly
    rw [← hh.2 d c.regs c.evSet c.tlm, honly]
  · by_contra htlm
    have htlm : alarmReg a = true := by
      simp only [tlmReg, List.contains_cons, List.contains_nil, Bool.not_eq_false, Bool.or_eq_true, Bool.or_false] at htlm
      simp only [alarmReg, List.contains_cons, List.contains_nil, Bool.or_eq_true, Bool.or_false]
      rcases htlm with h | h | h | h <;> simp [h]
    exact absurd ((hW a htlm).symm.trans ha) (by decide)
  · exact ne_of_outside (hW MBX_EVENT.a (by decide)) ha

/-- An event with an alarm: its event bit, then the entry. -/
theorem alarmsOnly_event_raise (hh : Hides hide) (h : W f.addr = true) (hW : ∀ a, alarmReg a = true → W a = true) :
    AlarmsOnly nm W hide c ((c.event f).raise nm inst data present) :=
  (alarmsOnly_event hh h).trans (alarmsOnly_raise hh hW)

/-- A command that works within such a frame. -/
theorem keepsAlarm_of {i : Instr} {put : Machine.Core → Machine.Core → Machine.Core}
    {g : Machine.Core → Memory → Machine.Core} (hexec : ∀ s, exec i s = go g s) (hh : Hides hide)
    (hput : ∀ t c : Machine.Core, quiet { put { t with memOps := [] } c with regs := c.regs, evSet := c.evSet } =
      quiet { put (hide t) c with regs := c.regs, evSet := c.evSet })
    (hsame : ∀ c : Machine.Core, quiet { put (hide (Laws.start c)) c with regs := c.regs, evSet := c.evSet } = quiet c)
    (hg : ∀ c mem, AlarmsOnly nm W hide c (g c mem)) : KeepsAlarm nm i W put := by
  refine ⟨fun s => ?_, fun s t ht x hn hf => ?_⟩
  · obtain ⟨hhidden, hregs, -⟩ := hg (Laws.start s.core) s.mem
    have hmem : (g (Laws.start s.core) s.mem).memOps = [] := by rw [← hh.1, hhidden, hh.1]; rfl
    refine ⟨_, hexec s, rfl, fun a => by rw [run_mem_same hmem], hregs, ?_⟩
    calc quiet { put (run g s).core s.core with regs := s.core.regs, evSet := s.core.evSet }
      _ = quiet { put (hide (g (Laws.start s.core) s.mem)) s.core with regs := s.core.regs, evSet := s.core.evSet } :=
        hput _ _
      _ = quiet { put (hide (Laws.start s.core)) s.core with regs := s.core.regs, evSet := s.core.evSet } := by rw [hhidden]
      _ = quiet s.core := hsame _
  · obtain rfl := Host.Outcome.next.inj (ht.symm.trans (hexec s))
    exact (hg (Laws.start s.core) s.mem).alarms x hn hf

/-- A list of registers beside those of the alarms. -/
theorem alarmReg_within {l : List Nat} : ∀ a, alarmReg a = true → (alarmReg a || l.contains a) = true :=
  fun a ha => by rw [ha]; rfl

theorem named_within {l : List Nat} {a : Nat} (h : a ∈ l) : (alarmReg a || l.contains a) = true := by
  rw [List.contains_iff_mem.mpr h, Bool.or_true]

end Steps

/-! ### The engines -/
section Engines
variable {nm : AlarmName} {c : Machine.Core} {f : Field} {inst : Nat} {data : List Nat}

/-- The device without its registers and its telemetry. -/
def hideTlm (c : Machine.Core) : Machine.Core := { c with regs := [], evSet := [], tlm := Machine.Core.reset.tlm }

theorem hides_hideTlm : Hides hideTlm := ⟨fun _ => rfl, fun _ _ _ _ => rfl⟩

/-- … and without the feedback engine. -/
def hideFbk (c : Machine.Core) : Machine.Core := { hideTlm c with fbk := Machine.Core.reset.fbk }

theorem hides_hideFbk : Hides hideFbk := ⟨fun _ => rfl, fun _ _ _ _ => rfl⟩

/-- … and without the pair. -/
def hidePair (c : Machine.Core) : Machine.Core := { hideTlm c with pair := Machine.Core.reset.pair }

theorem hides_hidePair : Hides hidePair := ⟨fun _ => rfl, fun _ _ _ _ => rfl⟩

/-- … and without the clocks and the count of free values. -/
def hideClk (c : Machine.Core) : Machine.Core := { hideTlm c with clk := Machine.Core.reset.clk, free := 0 }

theorem hides_hideClk : Hides hideClk := ⟨fun _ => rfl, fun _ _ _ _ => rfl⟩

/-- … and without the clocks. -/
def hideClkOnly (c : Machine.Core) : Machine.Core := { hideTlm c with clk := Machine.Core.reset.clk }

theorem hides_hideClkOnly : Hides hideClkOnly := ⟨fun _ => rfl, fun _ _ _ _ => rfl⟩

/-- … and without protection. -/
def hidePrt (c : Machine.Core) : Machine.Core := { hideTlm c with prt := Machine.Core.reset.prt }

theorem hides_hidePrt : Hides hidePrt := ⟨fun _ => rfl, fun _ _ _ _ => rfl⟩

/-- … and without the count of free values. -/
def hideFree (c : Machine.Core) : Machine.Core := { hideTlm c with free := 0 }

theorem hides_hideFree : Hides hideFree := ⟨fun _ => rfl, fun _ _ _ _ => rfl⟩

/-- … and without the safety island. -/
def hideSaf (c : Machine.Core) : Machine.Core := { hideTlm c with saf := Machine.Core.reset.saf }

theorem hides_hideSaf : Hides hideSaf := ⟨fun _ => rfl, fun _ _ _ _ => rfl⟩

/-! ### Feedback (R244, R250, R251) -/

theorem alarmsOnly_resolverUnlock (hf : f.addr = FBK_EVENT.a) :
    AlarmsOnly nm (fun a => alarmReg a || [FBK_RES_STAT.a, FBK_EVENT.a].contains a) hideTlm c (c.resolverUnlock f nm) :=
  (alarmsOnly_setF hides_hideTlm (named_within (by simp))).trans
    (alarmsOnly_event_raise hides_hideTlm (named_within (by simp [hf])) alarmReg_within)

theorem keepsAlarm_resolverLos : KeepsAlarm .resolverLos .resolverLos
    (fun a => alarmReg a || [FBK_RES_STAT.a, FBK_EVENT.a].contains a) (fun t c => { t with tlm := c.tlm }) := by
  refine keepsAlarm_of (fun _ => rfl) hides_hideTlm (fun _ _ => rfl) (fun _ => rfl) fun c _ => ?_
  split
  · exact alarmsOnly_resolverUnlock rfl
  · exact .refl

theorem keepsAlarm_resolverClip : KeepsAlarm .resolverClip .resolverClip
    (fun a => alarmReg a || [FBK_RES_STAT.a, FBK_EVENT.a].contains a) (fun t c => { t with tlm := c.tlm }) := by
  refine keepsAlarm_of (fun _ => rfl) hides_hideTlm (fun _ _ => rfl) (fun _ => rfl) fun c _ => ?_
  split
  · exact alarmsOnly_resolverUnlock rfl
  · exact .refl

theorem keepsAlarm_resolverLot : KeepsAlarm .resolverLot .resolverLot
    (fun a => alarmReg a || [FBK_RES_STAT.a, FBK_EVENT.a].contains a) (fun t c => { t with tlm := c.tlm }) := by
  refine keepsAlarm_of (fun _ => rfl) hides_hideTlm (fun _ _ => rfl) (fun _ => rfl) fun c _ => ?_
  split
  · exact alarmsOnly_resolverUnlock rfl
  · exact .refl

theorem keepsAlarm_stuckActive (endstop : Bool) : KeepsAlarm .stuckActive (.stuckActive endstop)
    (fun a => alarmReg a || [FBK_IN_STAT.a, FBK_EVENT.a].contains a) (fun t c => { t with tlm := c.tlm }) := by
  refine keepsAlarm_of (fun _ => rfl) hides_hideTlm (fun _ _ => rfl) (fun _ => rfl) fun c _ => ?_
  have hstat : (if endstop then FBK_IN_STAT.ENDSTOP_STUCK else FBK_IN_STAT.MARKER_STUCK).addr = FBK_IN_STAT.a := by
    split <;> rfl
  dsimp only
  generalize (if endstop then FBK_IN_STAT.ENDSTOP_STUCK else FBK_IN_STAT.MARKER_STUCK) = g at hstat
  cases c.fbk.activeAt.getD (b2n endstop) none with
  | none => exact .refl
  | some t =>
    exact alarmsOnly_ite .refl ((alarmsOnly_setF (f := g) hides_hideTlm (named_within (by simp [hstat]))).trans
      (alarmsOnly_event_raise (f := FBK_EVENT.STUCK_ACTIVE) hides_hideTlm (named_within (by simp)) alarmReg_within))

theorem keepsAlarm_chatter (input : Fin 7) (u : Nat) : KeepsAlarm .chatter (.chatter input u)
    (fun a => alarmReg a || [FBK_ERR_COUNT.a, FBK_EVENT.a].contains a)
    (fun t c => { t with fbk := c.fbk, tlm := c.tlm }) := by
  refine keepsAlarm_of (fun _ => rfl) hides_hideFbk (fun _ _ => rfl) (fun _ => rfl) fun c _ => ?_
  dsimp only
  split
  · exact .refl
  · refine AlarmsOnly.trans ?_ (alarmsOnly_raise hides_hideFbk alarmReg_within)
    refine AlarmsOnly.trans ?_ (alarmsOnly_bump hides_hideFbk (named_within (by simp)))
    refine AlarmsOnly.trans ?_ (alarmsOnly_event hides_hideFbk (named_within (by simp)))
    exact alarmsOnly_engine rfl rfl rfl

/-! ### Dispatch (R199, R183) -/

theorem keepsAlarm_cellStale (n : Fin 128) : KeepsAlarm .cellStale (.cellStale n)
    (fun a => alarmReg a || [DSP_C_STAT.a n, DSP_EVENT.a].contains a) (fun t c => { t with tlm := c.tlm }) := by
  refine keepsAlarm_of (fun _ => rfl) hides_hideTlm (fun _ _ => rfl) (fun _ => rfl) fun c _ => ?_
  dsimp only
  split
  · exact (alarmsOnly_setF hides_hideTlm (named_within (by simp))).trans
      (alarmsOnly_event_raise hides_hideTlm (named_within (by simp)) alarmReg_within)
  · exact .refl

theorem keepsAlarm_socStale : KeepsAlarm .socStale .socStale
    (fun a => alarmReg a || [DSP_STATUS.a, DSP_EVENT.a].contains a) (fun t c => { t with tlm := c.tlm }) := by
  refine keepsAlarm_of (fun _ => rfl) hides_hideTlm (fun _ _ => rfl) (fun _ => rfl) fun c _ => ?_
  split
  · exact (alarmsOnly_setF hides_hideTlm (named_within (by simp))).trans
      (alarmsOnly_event_raise hides_hideTlm (named_within (by simp)) alarmReg_within)
  · exact .refl

theorem keepsAlarm_tempMissing (n : Fin 128) : KeepsAlarm .tempMissing (.tempMissing n)
    (fun a => alarmReg a || [DSP_C_STAT.a n, DSP_EVENT.a].contains a) (fun t c => { t with tlm := c.tlm }) := by
  refine keepsAlarm_of (fun _ => rfl) hides_hideTlm (fun _ _ => rfl) (fun _ => rfl) fun c _ => ?_
  dsimp only
  split
  · exact (alarmsOnly_setF hides_hideTlm (named_within (by simp))).trans
      (alarmsOnly_event_raise hides_hideTlm (named_within (by simp)) alarmReg_within)
  · exact .refl

theorem keepsAlarm_cellCurrentOutlier (n : Fin 128) : KeepsAlarm .cellCurrentOutlier (.cellCurrentOutlier n)
    (fun a => alarmReg a || [DSP_EVENT.a].contains a) (fun t c => { t with tlm := c.tlm }) := by
  refine keepsAlarm_of (fun _ => rfl) hides_hideTlm (fun _ _ => rfl) (fun _ => rfl) fun c _ => ?_
  dsimp only
  split
  · exact alarmsOnly_event_raise hides_hideTlm (named_within (by simp)) alarmReg_within
  · exact .refl

theorem keepsAlarm_sensorDisagree (n : Fin 6) (d : Bool) : KeepsAlarm .sensorDisagree (.sensorDisagree n d)
    (fun a => alarmReg a || [DSP_EVENT.a].contains a) (fun t c => { t with tlm := c.tlm }) := by
  refine keepsAlarm_of (fun _ => rfl) hides_hideTlm (fun _ _ => rfl) (fun _ => rfl) fun c _ => ?_
  dsimp only
  split
  · exact alarmsOnly_event_raise hides_hideTlm (named_within (by simp)) alarmReg_within
  · exact .refl

theorem keepsAlarm_noConsensus (n : Fin 6) : KeepsAlarm .noConsensus (.noConsensus n)
    (fun a => alarmReg a || [DSP_EVENT.a].contains a) (fun t c => { t with tlm := c.tlm }) := by
  refine keepsAlarm_of (fun _ => rfl) hides_hideTlm (fun _ _ => rfl) (fun _ => rfl) fun c _ => ?_
  split
  · exact alarmsOnly_event_raise hides_hideTlm (named_within (by simp)) alarmReg_within
  · exact .refl

/-! ### The pair (R452, R454, R457) -/

theorem keepsAlarm_pairHbLost : KeepsAlarm .pairHbLost .pairHbLost
    (fun a => alarmReg a || [PAI_EVENT.a].contains a) (fun t c => { t with tlm := c.tlm }) := by
  refine keepsAlarm_of (fun _ => rfl) hides_hideTlm (fun _ _ => rfl) (fun _ => rfl) fun c _ => ?_
  split
  · exact alarmsOnly_event_raise hides_hideTlm (named_within (by simp)) alarmReg_within
  · exact .refl

theorem keepsAlarm_pairDisagree : KeepsAlarm .pairDisagree .pairDisagree
    (fun a => alarmReg a || [PAI_EVENT.a].contains a) (fun t c => { t with tlm := c.tlm }) := by
  refine keepsAlarm_of (fun _ => rfl) hides_hideTlm (fun _ _ => rfl) (fun _ => rfl) fun c _ => ?_
  split
  · exact alarmsOnly_event_raise hides_hideTlm (named_within (by simp)) alarmReg_within
  · exact .refl

theorem keepsAlarm_syncLost : KeepsAlarm .syncLost .syncLost
    (fun a => alarmReg a || [PAI_EVENT.a].contains a) (fun t c => { t with pair := c.pair, tlm := c.tlm }) := by
  refine keepsAlarm_of (fun _ => rfl) hides_hidePair (fun _ _ => rfl) (fun _ => rfl) fun c _ => ?_
  split
  · exact (alarmsOnly_event_raise hides_hidePair (named_within (by simp)) alarmReg_within).trans
      (alarmsOnly_engine rfl rfl rfl)
  · exact .refl

/-! ### Clocks (R320, R328) -/

theorem keepsAlarm_wallclockDegraded : KeepsAlarm .wallclockDegraded .wallclockDegraded
    (fun a => alarmReg a || [CLK_STATUS.a, CLK_EVENT.a].contains a)
    (fun t c => { t with clk := c.clk, free := c.free, tlm := c.tlm }) := by
  refine keepsAlarm_of (fun _ => rfl) hides_hideClk (fun _ _ => rfl) (fun _ => rfl) fun c _ => ?_
  split
  · exact .refl
  · refine AlarmsOnly.trans ?_ (alarmsOnly_event_raise hides_hideClk (named_within (by simp)) alarmReg_within)
    refine AlarmsOnly.trans ?_ (alarmsOnly_setF hides_hideClk (named_within (by simp)))
    exact alarmsOnly_engine rfl rfl rfl

theorem keepsAlarm_holdoverExceeded : KeepsAlarm .holdoverExceeded .holdoverExceeded
    (fun a => alarmReg a || [CLK_EVENT.a].contains a) (fun t c => { t with clk := c.clk, tlm := c.tlm }) := by
  refine keepsAlarm_of (fun _ => rfl) hides_hideClkOnly (fun _ _ => rfl) (fun _ => rfl) fun c _ => ?_
  split
  · refine AlarmsOnly.trans ?_ (alarmsOnly_event_raise hides_hideClkOnly (named_within (by simp)) alarmReg_within)
    exact alarmsOnly_engine rfl rfl rfl
  · exact .refl

/-! ### Protection, the scrubber and the observer (R126, R225, R384) -/

theorem keepsAlarm_xblankOverrun (n : Fin 6) : KeepsAlarm .xblankOverrun (.xblankOverrun n)
    (fun a => alarmReg a || [PRT_STR_STAT.a n, PRT_EVENT.a].contains a)
    (fun t c => { t with prt := c.prt, tlm := c.tlm }) := by
  refine keepsAlarm_of (fun _ => rfl) hides_hidePrt (fun _ _ => rfl) (fun _ => rfl) fun c _ => ?_
  dsimp only
  split
  · exact .refl
  · refine AlarmsOnly.trans ?_ (alarmsOnly_event_raise hides_hidePrt (named_within (by simp)) alarmReg_within)
    refine AlarmsOnly.trans ?_ (alarmsOnly_bump hides_hidePrt (named_within (by simp)))
    exact alarmsOnly_engine rfl rfl rfl

/-- R395: a record of the trace that is lost leaves the alarms alone. -/
theorem alarmsOnly_traceDiscard {l : List Nat} {k : Nat} (hl : TLM_TRACE_GAPS.a ∈ l) :
    AlarmsOnly nm (fun a => alarmReg a || l.contains a) hideFree c (c.traceDiscard k) := by
  unfold Machine.Core.traceDiscard
  split
  · exact .refl
  · refine AlarmsOnly.trans ?_ (alarmsOnly_event hides_hideFree (alarmReg_within _ (by decide)))
    refine AlarmsOnly.trans ?_ (alarmsOnly_bump hides_hideFree (named_within hl))
    exact alarmsOnly_engine rfl rfl rfl

theorem alarmsOnly_scrubTrace {l : List Nat} {k : Nat} (hl : TLM_TRACE_GAPS.a ∈ l) :
    AlarmsOnly nm (fun a => alarmReg a || l.contains a) hideFree c (c.scrubTrace k) := by
  unfold Machine.Core.scrubTrace
  split
  · refine AlarmsOnly.trans ?_ (alarmsOnly_traceDiscard hl)
    exact alarmsOnly_engine rfl rfl rfl
  · exact .refl

theorem keepsAlarm_scrubStep (err : EccResult) : KeepsAlarm .memoryUncorrectable (.scrubStep err)
    (fun a => alarmReg a || [TLM_SCRUB.a, TLM_TRACE_GAPS.a].contains a)
    (fun t c => { t with tlm := c.tlm, free := c.free }) := by
  refine keepsAlarm_of (fun _ => rfl) hides_hideFree (fun _ _ => rfl) (fun _ => rfl) fun c _ => ?_
  dsimp only
  split
  · exact .refl
  · have hmove : AlarmsOnly .memoryUncorrectable (fun a => alarmReg a || [TLM_SCRUB.a, TLM_TRACE_GAPS.a].contains a)
        hideFree c (c.modTlm fun t => { t with scrubAddr := (c.tlm.scrubAddr + 1) % 2621440 }) :=
      alarmsOnly_engine rfl rfl rfl
    cases err with
    | clean => exact hmove
    | corrected =>
      exact (hmove.trans (alarmsOnly_bump hides_hideFree (named_within (by simp)))).trans
        (alarmsOnly_event hides_hideFree (alarmReg_within _ (by decide)))
    | uncorrectable =>
      exact ((hmove.trans (alarmsOnly_bump hides_hideFree (named_within (by simp)))).trans
        (alarmsOnly_event_raise hides_hideFree (alarmReg_within _ (by decide)) alarmReg_within)).trans
        (alarmsOnly_scrubTrace (by simp))

theorem keepsAlarm_observerLost : KeepsAlarm .observerLost .observerLost
    (fun a => alarmReg a || [CEN_OBS.a, CEN_EVENT.a].contains a) (fun t c => { t with tlm := c.tlm }) := by
  refine keepsAlarm_of (fun _ => rfl) hides_hideTlm (fun _ _ => rfl) (fun _ => rfl) fun c _ => ?_
  dsimp only
  split
  · exact ((alarmsOnly_setF hides_hideTlm (named_within (by simp))).trans
      (alarmsOnly_setF hides_hideTlm (named_within (by simp)))).trans
      (alarmsOnly_event_raise hides_hideTlm (named_within (by simp)) alarmReg_within)
  · exact .refl

/-! ### Safe-state requests (R142) -/

/-- The registers a safe-state request writes beside those of its alarm. -/
abbrev requestReg (a : Nat) : Bool := alarmReg a || [SAF_CAUSE.a, PRT_EVENT.a].contains a

theorem alarmsOnly_request : AlarmsOnly nm requestReg hideSaf c (c.request nm) := by
  have hline : AlarmsOnly nm requestReg hideSaf c
      (if nm.path = some .mod then (c.event SAF_CAUSE.REQ_MOD).event PRT_EVENT.SAFE_REQ
        else if nm.path = some .fw then c.event SAF_CAUSE.REQ_FW else c) := by
    split
    · exact (alarmsOnly_event hides_hideSaf (named_within (by simp))).trans
        (alarmsOnly_event hides_hideSaf (named_within (by simp)))
    · split
      · exact alarmsOnly_event hides_hideSaf (named_within (by simp))
      · exact .refl
  unfold Machine.Core.request
  dsimp only
  split
  · exact hline
  · refine hline.trans ?_
    exact alarmsOnly_engine rfl rfl rfl

theorem alarmsOnly_refreshCause : AlarmsOnly nm requestReg hideSaf c c.refreshCause := by
  have step {d : Machine.Core} {g : Field} {b : Bool} (hg : g.addr = SAF_CAUSE.a) :
      AlarmsOnly nm requestReg hideSaf d (d.setFlag g b) := alarmsOnly_setF hides_hideSaf (named_within (by simp [hg]))
  unfold Machine.Core.refreshCause
  dsimp only
  exact (((((((step rfl).trans (step rfl)).trans (step rfl)).trans (step rfl)).trans (step rfl)).trans (step rfl)).trans
    (step rfl))

theorem alarmsOnly_raiseA : AlarmsOnly nm requestReg hideSaf c (c.raiseA nm inst data) :=
  ((alarmsOnly_raise hides_hideSaf alarmReg_within).trans alarmsOnly_request).trans alarmsOnly_refreshCause

theorem keepsAlarm_torqueViolation : KeepsAlarm .torqueViolation .torqueViolation requestReg
    (fun t c => { t with saf := c.saf, tlm := c.tlm }) := by
  refine keepsAlarm_of (fun _ => rfl) hides_hideSaf (fun _ _ => rfl) (fun _ => rfl) fun c _ => ?_
  split
  · refine AlarmsOnly.trans ?_ alarmsOnly_raiseA
    exact alarmsOnly_engine rfl rfl rfl
  · exact .refl

theorem keepsAlarm_angleDisagree : KeepsAlarm .angleDisagree .angleDisagree requestReg
    (fun t c => { t with saf := c.saf, tlm := c.tlm }) := by
  refine keepsAlarm_of (fun _ => rfl) hides_hideSaf (fun _ _ => rfl) (fun _ => rfl) fun c _ => ?_
  split
  · refine AlarmsOnly.trans ?_ alarmsOnly_raiseA
    exact alarmsOnly_engine rfl rfl rfl
  · exact .refl

theorem keepsAlarm_bleedTimeout : KeepsAlarm .bleedTimeout .bleedTimeout requestReg
    (fun t c => { t with saf := c.saf, tlm := c.tlm }) := by
  refine keepsAlarm_of (fun _ => rfl) hides_hideSaf (fun _ _ => rfl) (fun _ => rfl) fun c _ => ?_
  split
  · exact alarmsOnly_raiseA
  · exact .refl

theorem keepsAlarm_angleLost : KeepsAlarm .angleLost .angleLost requestReg
    (fun t c => { t with saf := c.saf, tlm := c.tlm }) := by
  refine keepsAlarm_of (fun _ => rfl) hides_hideSaf (fun _ _ => rfl) (fun _ => rfl) fun c _ => ?_
  dsimp only
  split
  · exact alarmsOnly_raiseA
  · exact .refl

theorem keepsAlarm_rampTimeout : KeepsAlarm .rampTimeout .rampTimeout requestReg
    (fun t c => { t with saf := c.saf, tlm := c.tlm }) := by
  refine keepsAlarm_of (fun _ => rfl) hides_hideSaf (fun _ _ => rfl) (fun _ => rfl) fun c _ => ?_
  split
  · split
    · exact alarmsOnly_raiseA
    · exact .refl
  · exact .refl

end Engines

/-- Settles O44: each event writes its own registers, works on its own engine and raises its alarm, and an alarm works on the
entries of its name only (`raise_other`). -/
theorem alarmEventFrames : Obligations.AlarmEventFrames := by
  unfold Obligations.AlarmEventFrames
  exact ⟨keepsAlarm_resolverLos, keepsAlarm_resolverClip, keepsAlarm_resolverLot, keepsAlarm_stuckActive, keepsAlarm_chatter,
    keepsAlarm_cellStale, keepsAlarm_socStale, keepsAlarm_tempMissing, keepsAlarm_cellCurrentOutlier,
    keepsAlarm_sensorDisagree, keepsAlarm_noConsensus, keepsAlarm_pairHbLost, keepsAlarm_pairDisagree, keepsAlarm_syncLost,
    keepsAlarm_wallclockDegraded, keepsAlarm_holdoverExceeded, keepsAlarm_xblankOverrun, keepsAlarm_scrubStep,
    keepsAlarm_observerLost, keepsAlarm_torqueViolation, keepsAlarm_angleDisagree, keepsAlarm_bleedTimeout,
    keepsAlarm_angleLost, keepsAlarm_rampTimeout⟩

end Sys2Proof.Proofs
end

