-- ==== Sys2Proof/Proofs/Rails.lean ====
section
/-! What the rails do (R414): a warning, a fault of each rail with its reset or its safe state, and the return. -/
namespace Sys2Proof.Proofs
open Sys2Proof.Machine Sys2Proof.Claims Sys2Proof.Laws

/-! ### What keeps the mode and the island's fault -/

/-- The mode and the record of the island's own fault stand. -/
structure SameMode (c d : Machine.Core) : Prop where
  mode : d.mode.code = c.mode.code
  fault : d.saf.internal = c.saf.internal

section Modes
variable {c d e : Machine.Core} {f : Field} {v : Nat}

theorem SameMode.refl : SameMode c c := ⟨rfl, rfl⟩

theorem SameMode.trans (h : SameMode c d) (k : SameMode d e) : SameMode c e :=
  ⟨k.mode.trans h.mode, k.fault.trans h.fault⟩

theorem SameMode.of_within {t : Tables} {W : Nat → Bool} (h : Within t W c d) : SameMode c d :=
  ⟨(congrArg (fun x : Machine.Core => x.mode.code) h.1 :), (congrArg (fun x : Machine.Core => x.saf.internal) h.1 :)⟩

theorem SameMode.of_onlyMbx (h : OnlyMbx c d) : SameMode c d :=
  ⟨(congrArg (fun x : Machine.Core => x.mode.code) h :), (congrArg (fun x : Machine.Core => x.saf.internal) h :)⟩

theorem SameMode.of_onlyAlarm (h : OnlyAlarm c d) : SameMode c d :=
  ⟨(congrArg (fun x : Machine.Core => x.mode.code) h.1 :), (congrArg (fun x : Machine.Core => x.saf.internal) h.1 :)⟩

theorem sameMode_setF : SameMode c (c.setF f v) := .of_onlyMbx onlyMbx_setF

theorem sameMode_raise {nm : AlarmName} {inst : Nat} {data : List Nat} {present : Bool} :
    SameMode c (c.raise nm inst data present) := .of_onlyAlarm onlyAlarm_raise

theorem sameMode_modDok {g : Dok → Dok} : SameMode c (c.modDok g) := ⟨rfl, rfl⟩

theorem sameMode_modHb {h : Nat} {g : Hb → Hb} : SameMode c (c.modHb h g) := ⟨rfl, rfl⟩

theorem sameMode_bist {x : Bist} : SameMode c { c with bist := x } := ⟨rfl, rfl⟩

theorem sameMode_event : SameMode c (c.event f) := ⟨rfl, rfl⟩

theorem sameMode_reply {ref : CmdRef} {status : Nat} {payload : List Byte} : SameMode c (c.reply ref status payload) :=
  .of_onlyMbx onlyMbx_reply

theorem sameMode_complete {ref : Option CmdRef} {status : Nat} {l : List Nat} : SameMode c (c.complete ref status l) :=
  .of_onlyMbx onlyMbx_complete

theorem sameMode_foldl {α : Type} {g : Machine.Core → α → Machine.Core} (hg : ∀ c x, SameMode c (g c x)) (l : List α) :
    ∀ c, SameMode c (l.foldl g c) := by
  induction l with
  | nil => exact fun _ => .refl
  | cons x xs ih => exact fun c => (hg c x).trans (ih (g c x))

theorem sameMode_ite {p : Prop} [Decidable p] (h : SameMode c d) (k : SameMode c e) : SameMode c (if p then d else e) := by
  split
  · exact h
  · exact k

theorem sameMode_forceCode {h code t : Nat} : SameMode c (c.forceCode h code t) :=
  .of_within (within_forceCode (k := { lanes := true, hbs := true, prt := true }) (W := fun _ => true) rfl rfl rfl rfl rfl)

theorem sameMode_forceShortLeg {h : Nat} : SameMode c (c.forceShortLeg h) := by
  unfold Machine.Core.forceShortLeg
  dsimp only
  split
  · exact .refl
  · split
    · exact sameMode_forceCode.trans sameMode_modHb
    · exact sameMode_forceCode
    · split
      · exact sameMode_forceCode
      · exact sameMode_ite sameMode_forceCode (sameMode_forceCode.trans sameMode_modHb)

/-- A FORCE line changes the legs and its own register (R137, R138). -/
theorem sameMode_assertForce {sub : Nat} : SameMode c (c.assertForce sub) := by
  have short : SameMode c c.forceShortGates :=
    sameMode_foldl (fun _ _ => sameMode_forceShortLeg.trans sameMode_forceShortLeg) _ _
  have open_ : SameMode c c.forceOpenGates :=
    sameMode_foldl (fun _ _ => sameMode_forceCode.trans sameMode_forceCode) _ _
  exact sameMode_ite (sameMode_ite .refl (short.trans sameMode_setF))
    (sameMode_ite .refl ((sameMode_ite open_ .refl).trans sameMode_setF))

theorem sameMode_injStop : SameMode c c.injStop :=
  sameMode_foldl (fun _ _ => sameMode_ite
    ((SameMode.of_within (within_injSettle (k := { lanes := true }) (W := fun _ => true) rfl rfl)).trans sameMode_setF)
    .refl) _ _

theorem sameMode_dockEnd {status : Nat} {words : List Nat} : SameMode c (c.dockEnd status words) := by
  refine SameMode.trans ?_ (sameMode_foldl (fun _ _ => sameMode_reply) _ _)
  exact sameMode_modDok.trans sameMode_complete

theorem sameMode_dockAbort : SameMode c c.dockAbort := by
  refine sameMode_ite .refl ?_
  refine SameMode.trans ?_ sameMode_complete
  refine SameMode.trans ?_ sameMode_dockEnd
  have stopped : SameMode c (((c.dockState 0).setF DOK_SPEED.V 0).modDok fun d =>
      { d with v := 0, arriving := false, stop := none }) :=
    (sameMode_setF.trans sameMode_setF).trans sameMode_modDok
  exact sameMode_ite ((stopped.trans sameMode_event).trans sameMode_raise) stopped

theorem sameMode_retrainLanes : SameMode c c.retrainLanes :=
  sameMode_foldl (fun _ _ => sameMode_ite .refl (.of_within within_startTraining)) _ _

theorem sameMode_bistRelease {status : Nat} {l : List Byte} : SameMode c (c.bistRelease status l) := by
  have idle (d : Machine.Core) : SameMode d ((d.setF BST_STATUS.RUNNING 0).setF BST_STATUS.STAGE 0).retrainLanes :=
    (sameMode_setF.trans sameMode_setF).trans sameMode_retrainLanes
  unfold Machine.Core.bistRelease
  dsimp only
  split
  · exact sameMode_bist.trans (idle _)
  · exact (sameMode_bist.trans (idle _)).trans sameMode_reply

theorem sameMode_bistAbort : SameMode c c.bistAbort := by
  refine sameMode_ite .refl ?_
  have incomplete : SameMode c (c.bistIncomplete [30, 31, 32, 33, 34]) :=
    (sameMode_foldl (fun _ _ => sameMode_setF) _ _).trans sameMode_event
  refine incomplete.trans ?_
  exact sameMode_bistRelease

theorem sameMode_endPending {status : Nat} {l : List Nat} : SameMode c (c.endPending status l) := by
  unfold Machine.Core.endPending
  split
  · exact .refl
  · refine SameMode.trans ?_ sameMode_complete
    exact ⟨rfl, rfl⟩

theorem sameMode_enterPhase {phase src : Nat} : SameMode c (c.enterPhase phase src) := by
  unfold Machine.Core.enterPhase
  dsimp only
  split
  · exact ⟨rfl, rfl⟩
  · refine SameMode.trans ?_ sameMode_raise
    exact ⟨rfl, rfl⟩

theorem sameMode_enterGrid {phase : Nat} : SameMode c (c.enterGrid phase) := by
  unfold Machine.Core.enterGrid
  dsimp only
  split
  · exact ⟨rfl, rfl⟩
  · refine SameMode.trans ?_ sameMode_raise
    exact ⟨rfl, rfl⟩

theorem sameMode_trainFollow : SameMode c c.trainFollow :=
  sameMode_foldl (fun _ _ => sameMode_ite (.of_within within_forceCell_any) .refl) _ _

theorem sameMode_bleedOn : SameMode c c.bleedOn := by
  unfold Machine.Core.bleedOn
  split
  · exact .refl
  · exact ⟨rfl, rfl⟩

theorem sameMode_refreshCause : SameMode c c.refreshCause := ⟨rfl, rfl⟩

/-- The hearth's record of SAFE stands (R53). -/
theorem recordSafe_spec {m : Mode} {sub : Nat} :
    (c.recordSafe m sub).mode.code = .safe ∧ (c.recordSafe m sub).saf.internal = c.saf.internal := by
  have before : SameMode c ((((if c.mode.code = .test then c.injStop else if c.mode.code = .drive then c.dockAbort
      else c).bistAbort.endPending stFAULT_ACTIVE [c.unackedA]).enterPhase 0 0).enterGrid 0) :=
    ((((sameMode_ite sameMode_injStop (sameMode_ite sameMode_dockAbort .refl)).trans sameMode_bistAbort).trans
      sameMode_endPending).trans sameMode_enterPhase).trans sameMode_enterGrid
  have after (d : Machine.Core) (l : List CmdRef) (o : Mode) :
      SameMode d (l.foldl (fun a r => a.done r) (d.trainFollow.modeChanged o .safe)) :=
    (sameMode_trainFollow.trans sameMode_raise).trans (sameMode_foldl (fun _ _ => sameMode_reply) _ _)
  exact ⟨(after _ _ _).mode, (after _ _ _).fault.trans before.fault⟩

theorem enterSafe_spec {sub : Nat} :
    (c.enterSafe sub).mode.code = .safe ∧ (c.enterSafe sub).saf.internal = c.saf.internal := by
  have lines (d : Machine.Core) {p : Prop} [Decidable p] : SameMode d (if p then d.bleedOn else d) :=
    sameMode_ite sameMode_bleedOn .refl
  exact ⟨(lines _).mode.trans recordSafe_spec.1,
    (lines _).fault.trans (recordSafe_spec.2.trans sameMode_assertForce.fault)⟩

end Modes

/-! ### A rail that leaves its window -/
section Rails
variable {c : Machine.Core} {r : Nat}

theorem islandFault_spec (hint : c.saf.internal = false) (hoff : c.mode.code ≠ .off) (hsafe : c.mode.code ≠ .safe) :
    c.islandFault.mode.code = .safe ∧ c.islandFault.saf.internal = true := by
  unfold Machine.Core.islandFault
  rw [if_neg (by rw [hint]; decide), if_neg hoff, if_neg hsafe]
  exact ⟨enterSafe_spec.1, enterSafe_spec.2.trans (sameMode_raise.trans sameMode_refreshCause).fault⟩

section Reset
variable {d e : Machine.Core} {kind cause rail : Nat}

theorem getF_modPwr {f : Field} {g : Pwr → Pwr} : (c.modPwr g).getF f = c.getF f := rfl

theorem resetCause_spec : (d.resetCause c kind cause rail).getF PWR_RESET_CAUSE.KIND = kind % 4 ∧
    (d.resetCause c kind cause rail).getF PWR_RESET_CAUSE.CAUSE = cause % 16 ∧
    (d.resetCause c kind cause rail).getF PWR_RESET_CAUSE.RAIL = rail % 8 := by
  have apart (x : Machine.Core) (v : Nat) {g : Field} (hg : g ∈ [PWR_RESET_CAUSE.KIND, PWR_RESET_CAUSE.CAUSE,
      PWR_RESET_CAUSE.RAIL]) : (x.setF PWR_RESET_CAUSE.WDOG_RUN v).getF g = x.getF g := by
    simp only [List.mem_cons, List.not_mem_nil, or_false] at hg
    rcases hg with rfl | rfl | rfl <;> exact getF_setF_apart (by decide) rfl (by decide)
  unfold Machine.Core.resetCause
  dsimp only
  rw [apart _ _ (by simp), apart _ _ (by simp), apart _ _ (by simp), getF_setF_same (f := PWR_RESET_CAUSE.RAIL) (by decide),
    getF_setF_apart (f := PWR_RESET_CAUSE.RAIL) (g := PWR_RESET_CAUSE.CAUSE) (by decide) rfl (by decide),
    getF_setF_same (f := PWR_RESET_CAUSE.CAUSE) (by decide),
    getF_setF_apart (f := PWR_RESET_CAUSE.RAIL) (g := PWR_RESET_CAUSE.KIND) (by decide) rfl (by decide),
    getF_setF_apart (f := PWR_RESET_CAUSE.CAUSE) (g := PWR_RESET_CAUSE.KIND) (by decide) rfl (by decide),
    getF_setF_same (f := PWR_RESET_CAUSE.KIND) (by decide)]
  exact ⟨rfl, rfl, rfl⟩

/-- The mode, OTP and the stored configuration stand. -/
structure SameStores (c d : Machine.Core) : Prop where
  mode : d.mode.code = c.mode.code
  otp : d.sec.otp = c.sec.otp
  cfg : d.cfg = c.cfg

theorem SameStores.trans (h : SameStores c d) (k : SameStores d e) : SameStores c e :=
  ⟨k.mode.trans h.mode, k.otp.trans h.otp, k.cfg.trans h.cfg⟩

theorem sameStores_setF {f : Field} {v : Nat} : SameStores c (c.setF f v) := ⟨rfl, rfl, rfl⟩

theorem sameStores_copyF {f : Field} : SameStores c (c.copyF d f) := sameStores_setF

theorem sameStores_resetCause : SameStores c (c.resetCause d kind cause rail) :=
  ((sameStores_setF.trans sameStores_setF).trans sameStores_setF).trans sameStores_setF

theorem sameStores_modPwr {g : Pwr → Pwr} : SameStores c (c.modPwr g) := ⟨rfl, rfl, rfl⟩

theorem sameStores_clk_regs {x : Clk} {m : SMap Word} : SameStores c { c with clk := x, regs := m } := ⟨rfl, rfl, rfl⟩

theorem sameStores_keepMost : SameStores d (d.keepMost c) := by
  have losses (x : Machine.Core) :
      SameStores x ([0, 1, 2, 3].foldl (fun a p => a.copyF c (CLK_PLL_STAT.LOSSES p)) x) :=
    ((sameStores_copyF.trans sameStores_copyF).trans sameStores_copyF).trans sameStores_copyF
  refine SameStores.trans ?_ (sameStores_copyF (f := PAI_STATUS.TAKEOVERS))
  refine SameStores.trans ?_ (sameStores_copyF (f := PAI_STATUS.AUTH_IN))
  refine SameStores.trans ?_ (sameStores_copyF (f := SEC_AUTH.UNLOCKS))
  refine SameStores.trans ?_ (sameStores_copyF (f := CLK_STATUS.WALL_DEGRADED))
  refine SameStores.trans ?_ (sameStores_copyF (f := PWR_RAIL_STAT.WARN))
  refine SameStores.trans ?_ (sameStores_copyF (f := PWR_RAIL_STAT.GOOD))
  exact sameStores_clk_regs.trans (losses _)

theorem bare_kept :
    c.resetMem.bare.mode.code = .off ∧ c.resetMem.bare.sec.otp = c.sec.otp ∧ c.resetMem.bare.cfg = c.cfg :=
  ⟨rfl, rfl, rfl⟩

theorem sameStores_deviceReset : SameStores c.resetMem.bare (c.deviceReset kind cause rail) := by
  unfold Machine.Core.deviceReset
  generalize c.resetMem.bare = b
  refine SameStores.trans ?_ sameStores_modPwr
  refine SameStores.trans ?_ sameStores_resetCause
  split
  · refine SameStores.trans ?_ (sameStores_copyF (d := c) (f := PAI_STATUS.AUTH_IN))
    refine SameStores.trans ?_ (sameStores_copyF (d := c) (f := PWR_RAIL_STAT.WARN))
    refine SameStores.trans ?_ (sameStores_copyF (d := c) (f := PWR_RAIL_STAT.GOOD))
    exact ⟨rfl, rfl, rfl⟩
  · exact sameStores_keepMost

/-- The cause is the last that a reset records. -/
theorem deviceReset_eq : ∃ d g, c.deviceReset kind cause rail = (Machine.Core.resetCause d c kind cause rail).modPwr g := by
  unfold Machine.Core.deviceReset
  exact ⟨_, _, rfl⟩

/-- What a reset of the device leaves: OFF, its cause, OTP and the stored configuration (R420). -/
theorem deviceReset_spec :
    (c.deviceReset kind cause rail).mode.code = .off ∧
      (c.deviceReset kind cause rail).getF PWR_RESET_CAUSE.KIND = kind % 4 ∧
      (c.deviceReset kind cause rail).getF PWR_RESET_CAUSE.CAUSE = cause % 16 ∧
      (c.deviceReset kind cause rail).getF PWR_RESET_CAUSE.RAIL = rail % 8 ∧
      (c.deviceReset kind cause rail).sec.otp = c.sec.otp ∧ (c.deviceReset kind cause rail).cfg = c.cfg := by
  obtain ⟨hmode, hotp, hcfg⟩ := bare_kept (c := c)
  have kept := sameStores_deviceReset (c := c) (kind := kind) (cause := cause) (rail := rail)
  obtain ⟨d, g, heq⟩ := deviceReset_eq (c := c) (kind := kind) (cause := cause) (rail := rail)
  obtain ⟨hkind, hcause, hrail⟩ := resetCause_spec (c := c) (d := d) (kind := kind) (cause := cause) (rail := rail)
  refine ⟨kept.mode.trans hmode, ?_, ?_, ?_, kept.otp.trans hotp, kept.cfg.trans hcfg⟩
  · rw [heq, getF_modPwr]; exact hkind
  · rw [heq, getF_modPwr]; exact hcause
  · rw [heq, getF_modPwr]; exact hrail

end Reset

/-- A rail that is back is good and without a warning (R414). -/
theorem railBack_spec (hr : r < 7) :
    ((c.putBit PWR_RAIL_STAT.GOOD r true).putBit PWR_RAIL_STAT.WARN r false).getBit PWR_RAIL_STAT.GOOD r = true ∧
      ((c.putBit PWR_RAIL_STAT.GOOD r true).putBit PWR_RAIL_STAT.WARN r false).getBit PWR_RAIL_STAT.WARN r = false := by
  refine ⟨?_, by rw [getBit_putBit (by decide) hr, if_pos rfl]⟩
  rw [Machine.Core.getBit, Machine.Core.putBit,
    getF_setF_apart (f := PWR_RAIL_STAT.WARN) (g := PWR_RAIL_STAT.GOOD) (by decide) rfl (by decide)]
  exact getBit_putBit_same (by decide) hr
end Rails

section Clauses
variable (s : State) (r : Fin 7)

theorem gives_railsGood (hstep : s.core.pwr.step = 0 ∧ s.core.pwr.sleeping = false ∧ s.core.pwr.rstN = true)
    (hgood : s.core.getF PWR_RAIL_STAT.GOOD = 0x7F ∧ s.core.pwr.railAt + 100000 ≤ s.core.now) :
    Gives .railsGood s fun t => t.pwr.step = 1 ∧ t.pwr.stepAt = s.core.now := by
  obtain ⟨h0, hsleep, hrst⟩ := hstep
  refine gives_of_effect rfl ?_ fun _ h => h
  rw [if_pos ⟨h0, by simp [Laws.start, hsleep], hrst, hgood⟩]
  exact ⟨rfl, rfl⟩

theorem gives_railWarning (hwarn : s.core.getBit PWR_RAIL_STAT.WARN r.val = false) :
    Gives (.railWarning r) s fun t => t.getBit PWR_RAIL_STAT.WARN r.val = true ∧ t.flag PWR_EVENT.RAIL_WARNING = true ∧
      Listed t .railWarning r.val [r.val] := by
  refine gives_of_effect rfl ?_ fun _ h => h
  rw [if_neg (by rw [show (Laws.start s.core).getBit PWR_RAIL_STAT.WARN r.val = false from hwarn]; decide)]
  refine ⟨?_, event_raise_spec (by decide) (by decide) rfl (by decide)⟩
  rw [getBit_of_reg ((reg_raise_below (by decide)).trans (reg_event_other (by decide)))]
  exact getBit_putBit_same (by decide) r.isLt

theorem gives_railFault_reset (hr : r.val ≠ 1 ∧ r.val ≠ 4 ∧ r.val ≠ 6) :
    Gives (.railFault r) s fun t =>
      t.mode.code = .off ∧ t.getF PWR_RESET_CAUSE.KIND = 2 ∧ t.getF PWR_RESET_CAUSE.CAUSE = 2 ∧
      t.getF PWR_RESET_CAUSE.RAIL = r.val ∧ t.sec.otp = s.core.sec.otp ∧ t.cfg = s.core.cfg := by
  obtain ⟨hsafe, hnv, haon⟩ := hr
  have hcase : r = 0 ∨ r = 2 ∨ r = 3 ∨ r = 5 := by omega
  rcases hcase with rfl | rfl | rfl | rfl <;> exact gives_of_effect rfl deviceReset_spec fun _ h => h

theorem gives_railFault_aon (hr : r.val = 6) :
    Gives (.railFault r) s fun t =>
      t.mode.code = .off ∧ t.getF PWR_RESET_CAUSE.KIND = 0 ∧ t.getF PWR_RESET_CAUSE.CAUSE = 0 ∧
      t.sec.otp = s.core.sec.otp ∧ t.cfg = s.core.cfg := by
  obtain rfl : r = 6 := Fin.ext hr
  obtain ⟨hmode, hkind, hcause, -, hkept⟩ :=
    deviceReset_spec (c := (Laws.start s.core).railOut 6) (kind := 0) (cause := 0) (rail := 0)
  exact gives_of_effect rfl ⟨hmode, hkind, hcause, hkept⟩ fun _ h => h

theorem gives_railFault_nv (hr : r.val = 4 ∧ s.core.pwr.nvBad = false) :
    Gives (.railFault r) s fun t =>
      t.pwr.nvBad = true ∧ t.flag PWR_EVENT.NV_RAIL_FAULT = true ∧ Listed t .nvRailFault 0xFFFF [] := by
  obtain ⟨h4, hbad⟩ := hr
  obtain rfl : r = 4 := Fin.ext h4
  refine gives_of_effect rfl ?_ fun _ h => h
  dsimp only
  rw [if_neg (by rw [show (Laws.start s.core).pwr.nvBad = false from hbad]; decide)]
  refine ⟨?_, event_raise_spec (by decide) (by decide) rfl (by decide)⟩
  exact (congrArg (fun x : Machine.Core => x.pwr.nvBad) onlyAlarm_raise.1 :)

theorem gives_railFault_safe
    (h : r.val = 1 ∧ s.core.saf.internal = false ∧ s.core.mode.code ≠ .off ∧ s.core.mode.code ≠ .safe) :
    Gives (.railFault r) s fun t => t.mode.code = .safe ∧ t.saf.internal = true := by
  obtain ⟨h1, hint, hoff, hsafe⟩ := h
  obtain rfl : r = 1 := Fin.ext h1
  exact gives_of_effect rfl (islandFault_spec (c := (Laws.start s.core).railOut 1) hint hoff hsafe) fun _ h => h

theorem gives_railReturn :
    Gives (.railReturn r) s fun t =>
      t.getBit PWR_RAIL_STAT.GOOD r.val = true ∧ t.getBit PWR_RAIL_STAT.WARN r.val = false ∧
      (r.val = 4 → t.pwr.nvBad = false) := by
  obtain ⟨hgood, hwarn⟩ := railBack_spec (c := Laws.start s.core) r.isLt
  refine gives_of_effect rfl ?_ fun _ h => h
  dsimp only
  generalize ((Laws.start s.core).putBit PWR_RAIL_STAT.GOOD r.val true).putBit PWR_RAIL_STAT.WARN r.val false = d
    at hgood hwarn
  generalize he : (if (Laws.start s.core).getBit PWR_RAIL_STAT.GOOD r.val then d.clearCause .railWarning r.val
    else (d.clearCause .railWarning r.val).modPwr fun p => { p with railAt := (Laws.start s.core).now }) = e
  have hreg : e.bistWatch.reg PWR_RAIL_STAT.a = d.reg PWR_RAIL_STAT.a := by
    rw [← he]
    split <;> exact reg_clearCause_below (by decide)
  by_cases hr : r.val = 4
  · rw [if_pos hr]
    have hend : ((e.bistWatch.modPwr fun p => { p with nvBad := false }).clearCause .nvRailFault 0xFFFF).reg
        PWR_RAIL_STAT.a = d.reg PWR_RAIL_STAT.a := (reg_clearCause_below (by decide)).trans hreg
    exact ⟨(getBit_of_reg hend).trans hgood, (getBit_of_reg hend).trans hwarn, fun _ =>
      (congrArg (fun x : Machine.Core => x.pwr.nvBad) onlyTlm_clearCause.1 :)⟩
  · rw [if_neg hr]
    exact ⟨(getBit_of_reg hreg).trans hgood, (getBit_of_reg hreg).trans hwarn, fun h => absurd h hr⟩

end Clauses

/-- Settles O22: each rail's fault is one reset, one inhibition or the island's own fault (R414). -/
theorem railEvents : Obligations.RailEvents := by
  unfold Obligations.RailEvents
  exact ⟨gives_railsGood, gives_railWarning, gives_railFault_reset, gives_railFault_aon, gives_railFault_nv,
    gives_railFault_safe, gives_railReturn⟩

end Sys2Proof.Proofs
end

