-- ==== Sys2Proof/Proofs/FlushCompletion.lean ====
section
/-! What a completion writes that a flush holds back for a mailbox the device does not have. -/
namespace Sys2Proof.Proofs
open Sys2Proof.Machine Sys2Proof.Claims Sys2Proof.Laws

/-- A flush runs while VDD_NV inhibits the writes (R414), and holds the completion of a COMMISSION of "mailbox" 16 377, which a
command reference can name though R336 has sixteen. An assignment waits for that box; its MBX_MB_CFG would stand at 0x400E0008,
the address of LGR_EVENT, with PORT in bits 0 to 3. -/
def strayCompletion : State :=
  ⟨[], [], { Machine.Core.reset with
    mbx := { Machine.Core.reset.mbx with boxes := [(16377, { Mbox.reset with newCfg := some (0, 0, 0) })] }
    pwr := { Machine.Core.reset.pwr with nvBad := true }
    lgr := { Machine.Core.reset.lgr with running := true, active := [.commission ⟨16377, 0x0504, 0, 0, 0, 0, 0, 0⟩] } }⟩

/-- The end of the flush reports the failed banks, and the completion then clears the report. -/
theorem flushDone_strayCompletion :
    ∃ t, exec (.flushDone 1) strayCompletion = .next t ∧ t.core.flag LGR_EVENT.BANK_FAULT = false := by
  refine ⟨_, rfl, ?_⟩
  rw [run_core]
  decide +kernel

/-- Refutes O19: after the flush of `strayCompletion`, whose banks failed, BANK_FAULT reads 0. -/
theorem not_ledgerEvents : ¬ Obligations.LedgerEvents := by
  unfold Obligations.LedgerEvents
  rintro ⟨-, hdone, -⟩
  obtain ⟨t, ht, -, -, -, -, -, hbank⟩ := hdone strayCompletion 1 rfl
  obtain ⟨u, hu, hclear⟩ := flushDone_strayCompletion
  obtain rfl : t = u := Host.Outcome.next.inj (ht.symm.trans hu)
  exact absurd (hclear.symm.trans (hbank (by decide))) (by decide)

end Sys2Proof.Proofs
end

