-- ==== Sys2Proof/Proofs/Commissioning.lean ====
section
/-! COMMISSION while VDD_NV inhibits the writes to MRAM (R381, R414). -/
namespace Sys2Proof.Proofs
open Sys2Proof.Machine Sys2Proof.Claims Sys2Proof.Laws

/-- The hash of the integrator key that signs `signedCommission`. -/
def integratorKeyHash : List Byte :=
  be 48 0x76a6c29dbab9334948e3095ad88859f0317bbc16949bd42b41c01dccb661158b038da0251a3cc6947665788306f14416

/-- COMMISSION (UTC 0, integrator 7) at mailbox 3 with a trailer bound to device 7. -/
def signedCommission : Msg :=
  ⟨3, 1, 7, 9, zeros 8 ++ [7] ++ zeros 7 ++ be 220 0x314c52540100000007000000000000000405000000000000040e2a6dec9d2b66068f44d66230316468f879062b0062f6e64c81263eef27c80980c2b9ddd0434c02bd5a3759b069920f6b9f3967b78cd7e64532a1961333df2b0c0bb4935d975524971656187dc2513be780a0a11b855499043962c35f90b308000000ced4e56dee1285a6f34fbda6d26fb50edfff23f300d47af172cd3fb71bd8f7d531f1a001c73637da306e8b0b21860e6a73e813613165f60e5dfb24e7c817e8e7cf4ac95575142ddd78bd94f5e49e164294f7548f460ab38bd7e79bfcb1970e6f⟩

/-- A device in STANDBY whose ledger is not commissioned and that knows the key; VDD_NV is out of its window. -/
def unwritableLedger : State :=
  ⟨[], [], { Machine.Core.reset.setF (MBX_MB_CFG.PRIV 3) 1 with
    mode := { Machine.Core.reset.mode with code := .standby }
    pwr := { Machine.Core.reset.pwr with nvBad := true }
    sec := { Machine.Core.reset.sec with otp := { Machine.Core.reset.sec.otp with
      deviceId := 7, integratorHash := [integratorKeyHash, [], [], []] } } }⟩

/-- The message passes every check that the statement asks for. -/
theorem readySigned_signedCommission :
    ReadySigned unwritableLedger.core 0x0504 signedCommission (zeros 8 ++ [7] ++ zeros 7) := by decide +kernel

/-- R361, R414: the command is answered MEMORY_FAULT, and the ledger is as before. -/
theorem commission_unwritableLedger :
    ∃ t, exec (.commission signedCommission) unwritableLedger = .next t ∧ t.core.lgr.commissioned = false := by
  refine ⟨_, rfl, ?_⟩
  rw [run_core]
  decide +kernel

/-- Refutes O38: the fourth clause does not ask that MRAM can be written, and `unwritableLedger` is not commissioned by a
COMMISSION that verifies. -/
theorem not_ledgerCommands : ¬ Obligations.LedgerCommands := by
  unfold Obligations.LedgerCommands
  rintro ⟨-, -, -, hcommission, -⟩
  obtain ⟨t, ht, -, hdone, -⟩ := hcommission unwritableLedger signedCommission _ readySigned_signedCommission
    (by decide +kernel) (by decide +kernel)
  obtain ⟨u, hu, hnot⟩ := commission_unwritableLedger
  obtain rfl : t = u := Host.Outcome.next.inj (ht.symm.trans hu)
  exact absurd (hnot.symm.trans hdone) (by decide)

end Sys2Proof.Proofs
end

