-- ==== Sys2Proof/Proofs/SelfTestRetest.lean ====
section
/-! The retest of a memory of another stage (R398, R407): its time is that of the memory, not that of the stage. -/
namespace Sys2Proof.Proofs
open Sys2Proof.Machine Sys2Proof.Claims Sys2Proof.Laws

/-- BIST runs stage 4, whose time is 460 560 ns, and the retests of memories 1 and 2 are to come, which take 3 614 480 ns each:
the device retests a memory in its own stage, but the statement is about every state. -/
def retestOfStage2 : State :=
  ⟨[], [], { (Machine.Core.reset.setF BST_STATUS.RUNNING 1).setF BST_STATUS.STAGE 4 with
    now := 1000000, bist := { Machine.Core.reset.bist with retest := [1, 2] } }⟩

/-- 1 ms after the stage began the retest of memory 1 is not over, and its result is the one before. -/
theorem bistRetestDone_retestOfStage2 :
    ∃ t, exec (.bistRetestDone 1 true) retestOfStage2 = .next t ∧ t.core.getF (BST_MEM_RESULT.RESULT 1) = 0 := by
  refine ⟨_, rfl, ?_⟩
  rw [run_core]
  decide +kernel

/-- Refutes O21: the fourth clause takes the time of the stage for that of the retest, and `retestOfStage2` has no verdict on memory 1
when that time has passed. -/
theorem not_selfTestEvents : ¬ Obligations.SelfTestEvents := by
  unfold Obligations.SelfTestEvents
  rintro ⟨-, -, -, hretest, -⟩
  obtain ⟨t, ht, hverdict, -⟩ := hretest retestOfStage2 1 true (by decide +kernel) (by decide +kernel)
  obtain ⟨u, hu, hnone⟩ := bistRetestDone_retestOfStage2
  obtain rfl : t = u := Host.Outcome.next.inj (ht.symm.trans hu)
  exact absurd (hnone.symm.trans hverdict) (by decide)

end Sys2Proof.Proofs
end

