-- ==== Sys2Proof/Proofs/FirmwareCommit.lean ====
section
/-! FW_LOAD_COMMIT while VDD_NV inhibits the writes to MRAM (R438, R414). -/
namespace Sys2Proof.Proofs
open Sys2Proof.Machine Sys2Proof.Claims Sys2Proof.Laws

/-- The header of an image without a body: both hashes are those of no bytes. -/
def emptyImage : List Byte := zeros 28 ++ sha384 [] ++ sha384 [] ++ zeros 4

/-- A device in STANDBY that has taken the whole of `emptyImage` from mailbox 3; VDD_NV is out of its window. -/
def unwritableSlot : State :=
  ⟨[], [], { Machine.Core.reset.setF (MBX_MB_CFG.PRIV 3) 1 with
    mode := { Machine.Core.reset.mode with code := .standby }
    pwr := { Machine.Core.reset.pwr with nvBad := true }
    sec := { Machine.Core.reset.sec with session := some ⟨3, 0, emptyImage, 0, 0⟩ } }⟩

/-- FW_LOAD_COMMIT at mailbox 3. -/
def commitMessage : Msg := ⟨3, 0, 7, 9, []⟩

/-- R414: the commit is answered MEMORY_FAULT, and the session goes on. -/
theorem fwLoadCommit_unwritableSlot :
    ∃ t, exec (.fwLoadCommit commitMessage) unwritableSlot = .next t ∧ t.core.sec.session.isSome = true := by
  refine ⟨_, rfl, ?_⟩
  rw [run_core]
  decide +kernel

/-- Refutes O39: the third clause does not ask that MRAM can be written, and the session of `unwritableSlot`, whose hashes hold, does
not end. -/
theorem not_securityCommands : ¬ Obligations.SecurityCommands := by
  unfold Obligations.SecurityCommands
  rintro ⟨-, -, hcommit, -⟩
  obtain ⟨t, ht, -, -, hended⟩ := hcommit unwritableSlot commitMessage [] ⟨3, 0, emptyImage, 0, 0⟩ (.inl (by decide +kernel))
    (by decide +kernel) (by decide +kernel) (by decide +kernel)
  obtain ⟨u, hu, hgoes⟩ := fwLoadCommit_unwritableSlot
  obtain rfl : t = u := Host.Outcome.next.inj (ht.symm.trans hu)
  rw [hended] at hgoes
  exact absurd hgoes (by decide)

end Sys2Proof.Proofs
end

