-- ==== Sys2Proof/Proofs/PortRefusals.lean ====
section
/-! What the debug port refuses while DRIVE_LOCK stands (R446, R449). -/
namespace Sys2Proof.Proofs
open Sys2Proof.Machine Sys2Proof.Claims Sys2Proof.Laws

section Access
variable {c d : Machine.Core} {s : State} {mem : Memory} {r v : Nat} {write : Bool}

/-- R446: under DRIVE_LOCK an access to a register other than DDP_ID and DDP_STAT is a refused one. -/
theorem port_locked (hlock : c.driveLock = true) (hid : r ≠ 0) (hstat : r ≠ 2) :
    c.port mem r write v = Machine.Core.portAnswer (c.setF DDP_STAT.DENIED 0).portFault write := by
  unfold Machine.Core.port Machine.Core.portAccess
  dsimp only
  rw [if_pos ⟨hlock, hid, hstat⟩]

/-- A refused access writes DENIED, records its answer and sends it. -/
theorem portAnswer_portFault :
    Machine.Core.portAnswer c.portFault write = { c.event DDP_STAT.DENIED with
      dbg := { c.dbg with lastAck := ackFAULT, lastData := 0 }
      mbx := { c.mbx with tx := c.mbx.tx ++ [⟨7, ackFAULT, 0, []⟩] } } := by
  cases write <;> rfl

theorem driveLock_setF_stat {f : Field} (h : f.addr = DDP_STAT.a) : (c.setF f v).driveLock = c.driveLock := by
  have hgrade : (c.setF f v).grade = c.grade := getF_setF_other (by rw [h]; decide)
  unfold Machine.Core.driveLock
  rw [hgrade]
  rfl

/-- A command that ends with a refused access, before which at most DDP_STAT was written. -/
theorem portRefuses_of {i : Instr} {f : Machine.Core → Memory → Machine.Core} (hexec : exec i s = go f s)
    (hf : f (Laws.start s.core) s.mem = Machine.Core.portAnswer d.portFault write)
    (hregs : ∀ a, a ≠ DDP_STAT.a → d.reg a = s.core.reg a)
    (hrest : { d with regs := s.core.regs, evSet := s.core.evSet } = Laws.start s.core) : PortRefuses i s := by
  have hcore : f (Laws.start s.core) s.mem = _ := hf.trans portAnswer_portFault
  have hops : d.memOps = [] := (congrArg (fun x : Machine.Core => x.memOps) hrest :)
  have hmem : (f (Laws.start s.core) s.mem).memOps = [] := by rw [hcore]; exact hops
  refine ⟨run f s, hexec, fun a => by rw [run_mem_same hmem], ?_, fun a ha => ?_, ?_⟩
  · rw [run_core, hcore]
  · rw [run_core, hcore]
    exact (reg_event_other (f := DDP_STAT.DENIED) ha).trans (hregs a ha)
  · rw [run_core, hcore]
    exact congrArg (fun x : Machine.Core => quiet { x with
      dbg := { x.dbg with lastAck := s.core.dbg.lastAck, lastData := s.core.dbg.lastData } }) hrest

end Access

section Clauses
variable {s : State}

/-- A transaction under DRIVE_LOCK. -/
theorem portRefuses_port {i : Instr} {r v : Nat} {write : Bool} (hlock : s.core.driveLock = true)
    (hexec : exec i s = go (fun c mem => c.port mem r write v) s) (hid : r ≠ 0) (hstat : r ≠ 2) : PortRefuses i s :=
  portRefuses_of hexec (port_locked (c := Laws.start s.core) hlock hid hstat)
    (fun _ ha => reg_setF_other ha) rfl

/-- A command bit of DDP_CTRL under DRIVE_LOCK. -/
theorem portRefuses_ctrl {i : Instr} {f : Field} (hlock : s.core.driveLock = true)
    (hexec : exec i s = go (fun c mem => c.ctrlBit mem f) s) : PortRefuses i s :=
  portRefuses_of hexec (port_locked (c := Laws.start s.core) hlock (by decide) (by decide)) (fun _ ha => reg_setF_other ha)
    rfl

/-- R442: a well-formed write or read, before which a write clears PARITY_ERR. -/
theorem portRefuses_debugTransaction (req : BitVec 8) (data : BitVec 32) (parity : Bool) (hlock : s.core.driveLock = true)
    (hreset : s.core.dbg.lineReset = false) (hstart : bitOf req.toNat 0 = true) (hpark : bitOf req.toNat 7 = true)
    (hreq : bitOf req.toNat 6 = parityOf 5 (req.toNat / 2))
    (hdata : bitOf req.toNat 1 = false → parity = parityOf 32 data.toNat)
    (hid : req.toNat / 4 % 16 ≠ 0) (hstat : req.toNat / 4 % 16 ≠ 2) : PortRefuses (.debugTransaction req data parity) s := by
  have hgoes : (!bitOf req.toNat 0 || !bitOf req.toNat 7 || bitOf req.toNat 6 != parityOf 5 (req.toNat / 2)) = false := by
    simp [hstart, hpark, hreq]
  have hopen : ¬ (Laws.start s.core).dbg.lineReset = true := by
    rw [show (Laws.start s.core).dbg.lineReset = false from hreset]
    decide
  cases hread : bitOf req.toNat 1 with
  | true =>
    refine portRefuses_of (d := (Laws.start s.core).setF DDP_STAT.DENIED 0) (write := false) rfl ?_
      (fun _ ha => reg_setF_other ha) rfl
    dsimp only
    rw [if_neg hopen, hgoes, if_neg (by decide), hread]
    exact port_locked (c := Laws.start s.core) hlock hid hstat
  | false =>
    refine portRefuses_of (d := ((Laws.start s.core).setF DDP_STAT.PARITY_ERR 0).setF DDP_STAT.DENIED 0) (write := true) rfl ?_
      (fun _ ha => (reg_setF_other ha).trans (reg_setF_other ha)) rfl
    have hlock' : ((Laws.start s.core).setF DDP_STAT.PARITY_ERR 0).driveLock = true :=
      (driveLock_setF_stat rfl).trans hlock
    dsimp only
    rw [if_neg hopen, hgoes, if_neg (by decide), hread, if_neg fun h => h.2 (hdata hread)]
    exact port_locked hlock' hid hstat

/-- DRIVE_LOCK as DDP_STAT shows it (R449). -/
theorem driveLock_shown {c : Machine.Core} :
    bitOf (c.liveReg DDP_STAT.a) DDP_STAT.DRIVE_LOCK.lo = c.driveLock := by
  have hlive : c.liveReg DDP_STAT.a = putBits (pendingWord c.shadow DDP_STAT.a (c.reg DDP_STAT.a).toNat)
      DDP_STAT.DRIVE_LOCK.lo 1 (b2n c.driveLock) := rfl
  rw [hlive, bitOf_putBits, if_pos rfl]
  cases c.driveLock <;> rfl

end Clauses

/-- Settles O49: DRIVE_LOCK turns every access but those to DDP_ID and DDP_STAT into a refused one (`port_locked`). -/
theorem driveLockClosesThePort : Obligations.DriveLockClosesThePort := by
  unfold Obligations.DriveLockClosesThePort
  intro s
  exact ⟨fun h => portRefuses_ctrl h rfl, fun h => portRefuses_ctrl h rfl, fun h => portRefuses_ctrl h rfl,
    fun h => portRefuses_ctrl h rfl, fun h => portRefuses_ctrl h rfl, fun h => portRefuses_ctrl h rfl,
    fun _ _ h => portRefuses_port h rfl (by decide) (by decide), fun _ _ h => portRefuses_port h rfl (by decide) (by decide),
    fun _ _ h => portRefuses_port h rfl (by decide) (by decide), portRefuses_debugTransaction,
    fun hgrade hdrive => by rw [Machine.Core.driveLock, hgrade, hdrive]; rfl, driveLock_shown⟩

end Sys2Proof.Proofs
end

