-- ==== Sys2Proof/Proofs/DebugLevels.lean ====
section
/-! The levels of the debug port (R444): how an unlock sets one, how the port returns to level 0, and what ends each timer of
security. -/
namespace Sys2Proof.Proofs
open Sys2Proof.Machine Sys2Proof.Claims Sys2Proof.Laws

section Levels
variable {c d : Machine.Core} {f : Field} {n v : Nat} {p : List Byte}

/-! ### The injectors stop (R98) -/

/-- The registers of the links. -/
def linkReg (a : Nat) : Bool := decide (a < 0x40040000)

theorem linkReg_injStatus (h : n < 128) : linkReg (LNK_LANE_INJ_STATUS.a n) = true :=
  decide_eq_true (by dsimp only [LNK_LANE_INJ_STATUS.a]; omega)

theorem within_foldl {α : Type} {k : Tables} {W : Nat → Bool} {g : Machine.Core → α → Machine.Core} (l : List α)
    (hg : ∀ c, ∀ x ∈ l, Within k W c (g c x)) : ∀ c, Within k W c (l.foldl g c) := by
  induction l with
  | nil => exact fun _ => .refl
  | cons x xs ih =>
    exact fun c => (hg c x (by simp)).trans (ih (fun c y hy => hg c y (by simp [hy])) (g c x))

/-- The injectors work on their lanes and their registers. -/
theorem within_injCheck : Within { lanes := true } linkReg c c.injCheck := by
  unfold Machine.Core.injCheck
  split
  · exact .refl
  · refine within_foldl _ (fun c l hl => ?_) _
    have hown : linkReg (LNK_LANE_INJ_STATUS.a l) = true := linkReg_injStatus (List.mem_range.mp hl)
    split
    · exact (within_injSettle rfl hown).trans (within_setF hown)
    · exact .refl

theorem getF_injCheck (h : 0x40040000 ≤ f.addr) : c.injCheck.getF f = c.getF f :=
  getF_of_reg (within_injCheck.2 _ (decide_eq_false (by omega)))

theorem sec_injCheck : c.injCheck.sec = c.sec := (congrArg (fun x : Machine.Core => x.sec) within_injCheck.1 :)

theorem dbg_injCheck : c.injCheck.dbg = c.dbg := (congrArg (fun x : Machine.Core => x.dbg) within_injCheck.1 :)

/-! ### Halts in DDP_STAT (R445) -/

/-- The fields of DDP_STAT that do not show the halts. -/
theorem getF_haltStat (h : f.addr ≠ DDP_STAT.a ∨ f.lo + f.len ≤ 3 ∨ 11 ≤ f.lo) : c.haltStat.getF f = c.getF f := by
  have apart {g : Field} (ha : g.addr = DDP_STAT.a) (hlo : 3 ≤ g.lo) (hhi : g.lo + g.len ≤ 11) : Apart f g := by
    intro e
    rcases h with h | h | h
    · exact absurd (e.trans ha) h
    · exact ⟨.inl (by omega), by omega⟩
    · exact ⟨.inr (by omega), by omega⟩
  unfold Machine.Core.haltStat
  dsimp only
  rw [getF_setF_of_apart (apart rfl (by decide) (by decide)), getF_setF_of_apart (apart rfl (by decide) (by decide)),
    Machine.Core.setFlag, Machine.Core.setFlag, getF_setF_of_apart (apart rfl (by decide) (by decide)),
    getF_setF_of_apart (apart rfl (by decide) (by decide))]

theorem watchHold_only : { c.watchHold with pwr := c.pwr } = c := by
  unfold Machine.Core.watchHold
  split <;> rfl

theorem getF_watchHold : c.watchHold.getF f = c.getF f :=
  getF_of_reg (congrArg (fun x : Machine.Core => x.reg f.addr) watchHold_only :)

theorem dbg_watchHold : c.watchHold.dbg = c.dbg := (congrArg (fun x : Machine.Core => x.dbg) watchHold_only :)

theorem getF_resumePair (h : f.addr ≠ DDP_STAT.a ∨ f.lo + f.len ≤ 3 ∨ 11 ≤ f.lo) :
    (c.resumePair n).getF f = c.getF f := (getF_haltStat h).trans getF_watchHold

theorem dbg_resumePair :
    (c.resumePair n).dbg = { c.dbg with halted := setAt n false c.dbg.halted, causes := setAt n (0, 0) c.dbg.causes } :=
  dbg_watchHold

/-! ### Level 0 again (R444) -/

/-- The port without what a relocking takes away, before its events. -/
def unlevelled (c : Machine.Core) : Machine.Core :=
  let c1 := (((c.setLevel 0).clearBreaks).resumePair 0).resumePair 1
  { c1 with sec := { c1.sec with unlockEnd := none } }

theorem relock_eq : c.relock = if c.getF DDP_STAT.LEVEL = 0 then unlevelled c
    else ((unlevelled c).event SEC_EVENT.RELOCKED).event DDP_EVENT.RELOCKED := rfl

theorem getF_sec {x : Sec} : { c with sec := x }.getF f = c.getF f := rfl

theorem dbg_sec {x : Sec} : { c with sec := x }.dbg = c.dbg := rfl

theorem halted_clearBreaks : c.clearBreaks.dbg.halted = c.dbg.halted := rfl

theorem getF_clearBreaks : c.clearBreaks.getF f = c.getF f := rfl

theorem getF_setLevel_level : (c.setLevel v).getF DDP_STAT.LEVEL = v % 4 := by
  rw [Machine.Core.setLevel, getF_setF_other (by decide), getF_setF_same (by decide)]
  rfl

theorem getF_setLevel_shown : (c.setLevel v).getF SEC_STATUS.DEBUG_LEVEL = v % 4 := by
  rw [Machine.Core.setLevel, getF_setF_same (by decide)]
  rfl

theorem getF_unlevelled (h : f.addr ≠ DDP_STAT.a ∨ f.lo + f.len ≤ 3 ∨ 11 ≤ f.lo) :
    (unlevelled c).getF f = (c.setLevel 0).getF f := by
  unfold unlevelled
  dsimp only
  rw [getF_sec, getF_resumePair h, getF_resumePair h, getF_clearBreaks]

theorem dbg_unlevelled : (unlevelled c).dbg.halted = setAt 1 false (setAt 0 false c.dbg.halted) := by
  have hbreaks : (c.setLevel 0).clearBreaks.dbg.halted = c.dbg.halted := by
    rw [halted_clearBreaks, Machine.Core.setLevel, setF_dbg, setF_dbg]
  unfold unlevelled
  dsimp only
  rw [dbg_sec, dbg_resumePair, dbg_resumePair]
  dsimp only
  rw [hbreaks]

theorem any_setAt_false (l : List Bool) : (setAt 1 false (setAt 0 false l)).any id = (l.drop 2).any id := by
  match l with
  | [] => rfl
  | [_] => rfl
  | _ :: _ :: _ => rfl

/-- What a relocking leaves. -/
theorem relock_spec : c.relock.getF DDP_STAT.LEVEL = 0 ∧ c.relock.getF SEC_STATUS.DEBUG_LEVEL = 0 ∧
    c.relock.sec.unlockEnd = none ∧ c.relock.anyHalted = (c.dbg.halted.drop 2).any id := by
  have hlevel : (unlevelled c).getF DDP_STAT.LEVEL = 0 := (getF_unlevelled (by decide)).trans getF_setLevel_level
  have hshown : (unlevelled c).getF SEC_STATUS.DEBUG_LEVEL = 0 := (getF_unlevelled (by decide)).trans getF_setLevel_shown
  have hhalt : (unlevelled c).anyHalted = (c.dbg.halted.drop 2).any id := by
    rw [Machine.Core.anyHalted, dbg_unlevelled, any_setAt_false]
  have hunlock : (unlevelled c).sec.unlockEnd = none := by
    unfold unlevelled
    generalize (((c.setLevel 0).clearBreaks).resumePair 0).resumePair 1 = d
    rfl
  rw [relock_eq]
  generalize unlevelled c = d at hlevel hshown hhalt hunlock
  split
  · exact ⟨hlevel, hshown, hunlock, hhalt⟩
  · refine ⟨?_, ?_, hunlock, hhalt⟩
    · rw [getF_of_reg ((reg_event_other (by decide)).trans (reg_event_other (by decide))), hlevel]
    · rw [getF_of_reg ((reg_event_other (by decide)).trans (reg_event_other (by decide))), hshown]

/-- A relocking from a level is an event. -/
theorem relock_event (h : c.getF DDP_STAT.LEVEL ≠ 0) : c.relock.flag SEC_EVENT.RELOCKED = true := by
  rw [relock_eq, if_neg h, flag_of_reg (reg_event_other (by decide))]
  exact flag_event_same (by decide) rfl

/-! ### A response (R444) -/

theorem getF_raise {nm : AlarmName} {inst : Nat} {data : List Nat} {present : Bool} (ht : tlmReg f.addr = false)
    (hm : f.addr ≠ MBX_EVENT.a) : (c.raise nm inst data present).getF f = c.getF f :=
  getF_of_reg (onlyAlarm_raise.2 _ ht hm)

theorem sec_raise {nm : AlarmName} {inst : Nat} {data : List Nat} {present : Bool} :
    (c.raise nm inst data present).sec = c.sec := (congrArg (fun x : Machine.Core => x.sec) onlyAlarm_raise.1 :)

/-- The device at a verified response, before the injectors look at the level. -/
def levelSet (c : Machine.Core) (p : List Byte) : Machine.Core :=
  (((c.setLevel (u8 p 0)).setF SEC_AUTH.FAILS 0).bump SEC_AUTH.UNLOCKS 1).modSec fun x =>
    { x with chal := none, unlockEnd := some (c.now + u16 p 2 * 1000000000) }

theorem getF_modSec {g : Sec → Sec} : (c.modSec g).getF f = c.getF f := rfl

theorem sec_modSec {g : Sec → Sec} : (c.modSec g).sec = g c.sec := rfl

theorem sec_setLevel : (c.setLevel n).sec = c.sec := by
  rw [Machine.Core.setLevel, setF_sec, setF_sec]

theorem level_levelSet (h : u8 p 0 < 4) : (levelSet c p).getF DDP_STAT.LEVEL = u8 p 0 := by
  rw [levelSet, getF_modSec, Machine.Core.bump, getF_setF_other (by decide), getF_setF_other (by decide),
    getF_setLevel_level, Nat.mod_eq_of_lt h]

theorem fails_levelSet : (levelSet c p).getF SEC_AUTH.FAILS = 0 := by
  rw [levelSet, getF_modSec, Machine.Core.bump,
    getF_setF_apart (f := SEC_AUTH.UNLOCKS) (g := SEC_AUTH.FAILS) (by decide) rfl (by decide), getF_setF_same (by decide)]
  rfl

theorem busy_levelSet : (levelSet c p).getF DDP_STAT.AUTH_BUSY = c.getF DDP_STAT.AUTH_BUSY := by
  rw [levelSet, getF_modSec, Machine.Core.bump, getF_setF_other (by decide), getF_setF_other (by decide),
    Machine.Core.setLevel, getF_setF_other (by decide),
    getF_setF_apart (f := DDP_STAT.LEVEL) (g := DDP_STAT.AUTH_BUSY) (by decide) rfl (by decide)]

theorem sec_levelSet :
    (levelSet c p).sec = { c.sec with chal := none, unlockEnd := some (c.now + u16 p 2 * 1000000000) } := by
  rw [levelSet, sec_modSec, bump_sec, setF_sec, sec_setLevel]

/-- What a verified response leaves. -/
theorem unlock_spec (h : u8 p 0 < 4) : (c.unlock p).getF DDP_STAT.LEVEL = u8 p 0 ∧ (c.unlock p).getF SEC_AUTH.FAILS = 0 ∧
    (c.unlock p).getF DDP_STAT.AUTH_BUSY = c.getF DDP_STAT.AUTH_BUSY ∧
    (c.unlock p).sec = { c.sec with chal := none, unlockEnd := some (c.now + u16 p 2 * 1000000000) } ∧
    Listed (c.unlock p) .debugUnlocked 0xFFFF [u8 p 0, u16 p 2] := by
  have heq : c.unlock p = (((levelSet c p).injCheck.event SEC_EVENT.UNLOCKED).event DDP_EVENT.AUTH_DONE).raise
      .debugUnlocked 0xFFFF [u8 p 0, u16 p 2] false := by
    unfold Machine.Core.unlock levelSet
    rfl
  rw [heq]
  have shown {f : Field} (ht : tlmReg f.addr = false) (hm : f.addr ≠ MBX_EVENT.a) (hs : f.addr ≠ SEC_EVENT.a)
      (hd : f.addr ≠ DDP_EVENT.a) (hlink : 0x40040000 ≤ f.addr) :
      ((((levelSet c p).injCheck.event SEC_EVENT.UNLOCKED).event DDP_EVENT.AUTH_DONE).raise
      .debugUnlocked 0xFFFF [u8 p 0, u16 p 2] false).getF f = (levelSet c p).getF f :=
    (getF_raise ht hm).trans ((getF_of_reg ((reg_event_other hd).trans (reg_event_other hs))).trans (getF_injCheck hlink))
  refine ⟨?_, ?_, ?_, ?_, raise_listed (by decide)⟩
  · rw [shown (by decide) (by decide) (by decide) (by decide) (by decide), level_levelSet h]
  · rw [shown (by decide) (by decide) (by decide) (by decide) (by decide), fails_levelSet]
  · rw [shown (by decide) (by decide) (by decide) (by decide) (by decide), busy_levelSet]
  · rw [sec_raise, event_sec, event_sec, sec_injCheck, sec_levelSet]

/-- What a failed response leaves. -/
theorem authFail_spec : c.authFail.getF SEC_AUTH.FAILS = min 3 (c.getF SEC_AUTH.FAILS + 1) ∧
    c.authFail.flag SEC_EVENT.AUTH_FAIL = true ∧ c.authFail.getF DDP_STAT.LEVEL = c.getF DDP_STAT.LEVEL ∧
    c.authFail.getF DDP_STAT.AUTH_BUSY = c.getF DDP_STAT.AUTH_BUSY ∧ c.authFail.sec.submit = c.sec.submit := by
  have counted (n : Nat) (hn : n ≤ 3) :
      (((c.setF SEC_AUTH.FAILS n).event SEC_EVENT.AUTH_FAIL).event DDP_EVENT.AUTH_FAIL).getF SEC_AUTH.FAILS = n ∧
      (((c.setF SEC_AUTH.FAILS n).event SEC_EVENT.AUTH_FAIL).event DDP_EVENT.AUTH_FAIL).flag SEC_EVENT.AUTH_FAIL = true ∧
      (((c.setF SEC_AUTH.FAILS n).event SEC_EVENT.AUTH_FAIL).event DDP_EVENT.AUTH_FAIL).getF DDP_STAT.LEVEL =
        c.getF DDP_STAT.LEVEL ∧
      (((c.setF SEC_AUTH.FAILS n).event SEC_EVENT.AUTH_FAIL).event DDP_EVENT.AUTH_FAIL).getF DDP_STAT.AUTH_BUSY =
        c.getF DDP_STAT.AUTH_BUSY := by
    refine ⟨?_, ?_, ?_, ?_⟩
    · rw [getF_of_reg ((reg_event_other (by decide)).trans (reg_event_other (by decide))), getF_setF_same (by decide)]
      exact Nat.mod_eq_of_lt (by show n < 4; omega)
    · rw [flag_of_reg (reg_event_other (by decide))]
      exact flag_event_same (by decide) rfl
    · rw [getF_of_reg ((reg_event_other (by decide)).trans (reg_event_other (by decide))), getF_setF_other (by decide)]
    · rw [getF_of_reg ((reg_event_other (by decide)).trans (reg_event_other (by decide))), getF_setF_other (by decide)]
  obtain ⟨hfails, hevent, hlevel, hbusy⟩ := counted (min 3 (c.getF SEC_AUTH.FAILS + 1)) (by omega)
  unfold Machine.Core.authFail
  dsimp only
  generalize hd : ((c.setF SEC_AUTH.FAILS (min 3 (c.getF SEC_AUTH.FAILS + 1))).event SEC_EVENT.AUTH_FAIL).event
    DDP_EVENT.AUTH_FAIL = d at hfails hevent hlevel hbusy
  have hsubmit : d.sec.submit = c.sec.submit := by rw [← hd]; rfl
  split
  · refine ⟨?_, ?_, ?_, ?_, ?_⟩
    · rw [getF_raise (by decide) (by decide)]; exact hfails
    · rw [flag_of_getF (getF_raise (by decide) (by decide))]; exact hevent
    · rw [getF_raise (by decide) (by decide)]; exact hlevel
    · rw [getF_raise (by decide) (by decide)]; exact hbusy
    · rw [sec_raise]; exact hsubmit
  · exact ⟨hfails, hevent, hlevel, hbusy, hsubmit⟩

end Levels
end Sys2Proof.Proofs
end

