-- ==== Sys2Proof/Proofs/SecurityTimers.lean ====
section
/-! The timers of security and the end of a verification (R438, R444). -/
namespace Sys2Proof.Proofs
open Sys2Proof.Machine Sys2Proof.Claims Sys2Proof.Laws

section Clauses
variable (s : State)

theorem gives_fwSessionTimeout (x : FwSession)
    (h : s.core.sec.session = some x ∧ x.last + 10000000000 ≤ s.core.now) :
    Gives .fwSessionTimeout s fun t => t.sec.session = none ∧ t.sec.slots = s.core.sec.slots := by
  obtain ⟨hsession, hlast⟩ := h
  refine gives_of_effect rfl ?_ fun _ h => h
  rw [show (Laws.start s.core).sec.session = some x from hsession]
  dsimp only
  rw [if_pos (show x.last + 10000000000 ≤ (Laws.start s.core).now from hlast)]
  exact ⟨rfl, rfl⟩

theorem gives_challengeExpiry (x : Challenge) (h : s.core.sec.chal = some x ∧ x.issued + 60000000000 ≤ s.core.now) :
    Gives .challengeExpiry s fun t => t.sec.chal = none := by
  obtain ⟨hchal, hissued⟩ := h
  refine gives_of_effect rfl ?_ fun _ h => h
  have hdue : (Laws.start s.core).sec.chal.any (fun x => decide (x.issued + 60000000000 ≤ (Laws.start s.core).now)) = true := by
    rw [show (Laws.start s.core).sec.chal = some x from hchal, Option.any_some, decide_eq_true_iff]
    exact hissued
  rw [if_pos hdue]
  rfl

theorem gives_authLockoutEnd (k : Nat) (h : s.core.sec.lockEnd = some k ∧ k ≤ s.core.now) :
    Gives .authLockoutEnd s fun t => t.sec.lockEnd = none ∧ t.getF SEC_AUTH.FAILS = 0 := by
  obtain ⟨hlock, hend⟩ := h
  refine gives_of_effect rfl ?_ fun _ h => h
  rw [if_pos (by rw [show (Laws.start s.core).sec.lockEnd = some k from hlock]; exact decide_eq_true hend)]
  refine ⟨?_, ?_⟩
  · exact (congrArg (fun x : Machine.Core => x.sec.lockEnd) onlyTlm_clearCause.1 :)
  · rw [getF_of_reg (onlyTlm_clearCause.2 _ (by decide)), getF_setF_same (by decide)]
    rfl

theorem gives_debugDurationExpiry (k : Nat) (h : s.core.sec.unlockEnd = some k ∧ k ≤ s.core.now) :
    Gives .debugDurationExpiry s fun t =>
      t.sec.unlockEnd = none ∧ t.getF DDP_STAT.LEVEL = 0 ∧ t.getF SEC_STATUS.DEBUG_LEVEL = 0 ∧
      t.anyHalted = (s.core.dbg.halted.drop 2).any id := by
  obtain ⟨hunlock, hend⟩ := h
  obtain ⟨hlevel, hshown, hnone, hhalted⟩ := relock_spec (c := Laws.start s.core)
  refine gives_of_effect rfl ?_ fun _ h => h
  rw [if_pos (by rw [show (Laws.start s.core).sec.unlockEnd = some k from hunlock]; exact decide_eq_true hend)]
  refine ⟨?_, ?_, ?_, ?_⟩
  · rw [sec_injCheck, hnone]
  · rw [getF_injCheck (by decide), hlevel]
  · rw [getF_injCheck (by decide), hshown]
  · rw [Machine.Core.anyHalted, dbg_injCheck]
    exact hhalted

/-- The port no longer verifies. -/
theorem verified_spec {c : Machine.Core} : ((c.modSec fun x => { x with submit := none }).setF DDP_STAT.AUTH_BUSY 0).getF
    DDP_STAT.AUTH_BUSY = 0 ∧
    ((c.modSec fun x => { x with submit := none }).setF DDP_STAT.AUTH_BUSY 0).getF DDP_STAT.LEVEL = c.getF DDP_STAT.LEVEL ∧
    ((c.modSec fun x => { x with submit := none }).setF DDP_STAT.AUTH_BUSY 0).getF SEC_AUTH.FAILS = c.getF SEC_AUTH.FAILS := by
  refine ⟨?_, ?_, ?_⟩
  · rw [getF_setF_same (by decide)]
    rfl
  · rw [getF_setF_apart (f := DDP_STAT.AUTH_BUSY) (g := DDP_STAT.LEVEL) (by decide) rfl (by decide), getF_modSec]
  · rw [getF_setF_other (by decide), getF_modSec]

theorem flag_false_of_getF {c : Machine.Core} {f : Field} (h : c.getF f = 0) : c.flag f = false := by
  rw [Machine.Core.flag, h]
  rfl

/-- A response that verifies names level 1 or 2 (R444). -/
theorem level_of_responseFail {c : Machine.Core} {p : List Byte} (h : c.responseFail p = none) : u8 p 0 < 4 := by
  by_contra hlevel
  have hbad : ¬ (u8 p 0 = 1 ∨ u8 p 0 = 2) := by omega
  unfold Machine.Core.responseFail firstFail chk at h
  rw [decide_eq_false hbad] at h
  exact absurd h (by simp)

theorem gives_authVerifyDone (b : List Byte)
    (hsub : s.core.sec.submit = some b ∧ b.length = 288 ∧ s.core.driveLock = false)
    (hok : s.core.trailerOk 0x0612 (b.take 68) (b.drop 68) = true ∧ s.core.responseFail (b.take 68) = none) :
    Gives .authVerifyDone s fun t =>
      t.sec.submit = none ∧ t.getF DDP_STAT.LEVEL = u8 b 0 ∧
      t.sec.unlockEnd = some (s.core.now + u16 b 2 * 1000000000) ∧ t.getF SEC_AUTH.FAILS = 0 ∧
      t.sec.chal = none ∧ t.flag DDP_STAT.AUTH_BUSY = false ∧ Listed t .debugUnlocked 0xFFFF [u8 b 0, u16 b 2] := by
  obtain ⟨hsubmit, hlen, hlock⟩ := hsub
  obtain ⟨htrailer, hresp⟩ := hok
  have hb0 : u8 (b.take 68) 0 = u8 b 0 := by simp [u8, List.getD]
  have hb2 : u16 (b.take 68) 2 = u16 b 2 := by
    rw [u16, u16, uN, uN, List.drop_take, List.take_take]
    rfl
  refine gives_of_effect rfl ?_ fun _ h => h
  rw [show (Laws.start s.core).sec.submit = some b from hsubmit]
  dsimp only
  rw [if_neg (by rw [show (Laws.start s.core).driveLock = false from hlock]; decide),
    if_neg (by rw [decide_eq_true hlen, show (Laws.start s.core).trailerOk 0x0612 (b.take 68) (b.drop 68) = true from htrailer]; decide),
    if_neg (by rw [show (Laws.start s.core).responseFail (b.take 68) = none from hresp]; decide)]
  obtain ⟨hbusy, -, -⟩ := verified_spec (c := Laws.start s.core)
  obtain ⟨hlevel, hfails, hbusy', hsec, hlisted⟩ := unlock_spec
    (c := ((Laws.start s.core).modSec fun x => { x with submit := none }).setF DDP_STAT.AUTH_BUSY 0)
    (level_of_responseFail hresp)
  rw [hb0] at hlevel
  rw [hb2] at hsec
  rw [hb0, hb2] at hlisted
  exact ⟨by rw [hsec]; rfl, hlevel, by rw [hsec]; rfl, hfails, by rw [hsec], flag_false_of_getF (hbusy'.trans hbusy), hlisted⟩

theorem gives_authVerifyDone_failed (b : List Byte)
    (hsub : s.core.sec.submit = some b ∧ b.length ≠ 288 ∧ s.core.driveLock = false) :
    Gives .authVerifyDone s fun t =>
      t.sec.submit = none ∧ t.flag DDP_STAT.AUTH_BUSY = false ∧
      t.getF SEC_AUTH.FAILS = min 3 (s.core.getF SEC_AUTH.FAILS + 1) ∧ t.flag SEC_EVENT.AUTH_FAIL = true ∧
      t.getF DDP_STAT.LEVEL = s.core.getF DDP_STAT.LEVEL := by
  obtain ⟨hsubmit, hlen, hlock⟩ := hsub
  refine gives_of_effect rfl ?_ fun _ h => h
  rw [show (Laws.start s.core).sec.submit = some b from hsubmit]
  dsimp only
  rw [if_neg (by rw [show (Laws.start s.core).driveLock = false from hlock]; decide),
    if_pos (by rw [decide_eq_false hlen]; rfl)]
  obtain ⟨hbusy, hlevel, hfails⟩ := verified_spec (c := Laws.start s.core)
  generalize hd : ((Laws.start s.core).modSec fun x => { x with submit := none }).setF DDP_STAT.AUTH_BUSY 0 = d
    at hbusy hlevel hfails
  have hnone : d.sec.submit = none := by rw [← hd]; rfl
  obtain ⟨hcount, hevent, hkept, hbusy', hsubmit'⟩ := authFail_spec (c := d.event SEC_EVENT.SIG_FAIL)
  have shown {f : Field} (h : f.addr ≠ SEC_EVENT.a) : (d.event SEC_EVENT.SIG_FAIL).getF f = d.getF f :=
    getF_of_reg (reg_event_other h)
  rw [shown (by decide), hfails] at hcount
  rw [shown (by decide), hlevel] at hkept
  rw [shown (by decide), hbusy] at hbusy'
  exact ⟨hsubmit'.trans hnone, flag_false_of_getF hbusy', hcount, hevent, hkept⟩

end Clauses

/-- Settles O26: each timer ends what it times, and a response is an unlock or a failure (`unlock_spec`, `authFail_spec`). -/
theorem securityEvents : Obligations.SecurityEvents := by
  unfold Obligations.SecurityEvents
  exact ⟨gives_fwSessionTimeout, gives_challengeExpiry, gives_authLockoutEnd, gives_debugDurationExpiry,
    gives_authVerifyDone, gives_authVerifyDone_failed⟩

end Sys2Proof.Proofs
end

