-- ==== Sys2Proof/Proofs/DebugPort.lean ====
section
/-! What the debug port does where DRIVE_LOCK does not stand: its commands, its challenges and responses, memory and the
registers of a halted pair (R442 to R445, R449). -/
namespace Sys2Proof.Proofs
open Sys2Proof.Machine Sys2Proof.Claims Sys2Proof.Laws

section Halts
variable {c : Machine.Core} {n k i pair : Nat}

/-! ### Halts (R445) -/

/-- What a pair's program leaves is in the debug file's registers. -/
theorem ranCore_only : { c.ranCore pair with free := c.free, dbg := { (c.ranCore pair).dbg with regs := c.dbg.regs } } = c := by
  have files : ∀ (l : List Nat) (d : Machine.Core), ∃ x : SMap Word,
      l.foldl (fun a i => a.setDbgReg pair i (Config.coreReg d.free (i + 128 * pair))) d =
        { d with dbg := { d.dbg with regs := x } } := by
    intro l d
    suffices ∀ (g : Nat) (d : Machine.Core), ∃ x : SMap Word,
        l.foldl (fun a i => a.setDbgReg pair i (Config.coreReg g (i + 128 * pair))) d =
          { d with dbg := { d.dbg with regs := x } } from this d.free d
    intro g
    induction l with
    | nil => exact fun d => ⟨d.dbg.regs, rfl⟩
    | cons j l ih =>
      intro d
      obtain ⟨x, hx⟩ := ih (d.setDbgReg pair j (Config.coreReg g (j + 128 * pair)))
      exact ⟨x, hx⟩
  obtain ⟨x, hx⟩ := files (List.range 34) c
  unfold Machine.Core.ranCore
  rw [hx]
  rfl

theorem dbg_ranCore : (c.ranCore pair).dbg.halted = c.dbg.halted ∧ (c.ranCore pair).dbg.causes = c.dbg.causes :=
  ⟨(congrArg (fun x : Machine.Core => x.dbg.halted) (ranCore_only (c := c) (pair := pair)) :),
    (congrArg (fun x : Machine.Core => x.dbg.causes) (ranCore_only (c := c) (pair := pair)) :)⟩

/-- The device when a pair has halted, before the events of that. -/
def haltedPair (c : Machine.Core) (n k i : Nat) : Machine.Core :=
  (if c.isHalted n then c else c.ranCore n).modDbg fun d =>
    { d with halted := setAt n true d.halted, causes := setAt n (k, i) d.causes }

theorem dbg_haltedPair : (haltedPair c n k i).dbg.halted = setAt n true c.dbg.halted ∧
    (haltedPair c n k i).dbg.causes = setAt n (k, i) c.dbg.causes := by
  unfold haltedPair
  split
  · exact ⟨rfl, rfl⟩
  · obtain ⟨hhalted, hcauses⟩ := dbg_ranCore (c := c) (pair := n)
    exact ⟨congrArg (setAt n true) hhalted, congrArg (setAt n (k, i)) hcauses⟩

theorem getD_setAt_same {α : Type} {v d : α} {i : Nat} {l : List α} (h : i < l.length) : (setAt i v l).getD i d = v := by
  rw [setAt_eq_set, List.getD_eq_getElem?_getD, List.getElem?_set_self h]
  rfl

theorem dbg_haltStat : c.haltStat.dbg = c.dbg := rfl

theorem dbg_of_hideSaf {d : Machine.Core} (h : hideSaf d = hideSaf c) : d.dbg = c.dbg :=
  (congrArg (fun x : Machine.Core => x.dbg) h :)

/-- What a halt leaves. -/
theorem haltPair_spec (hh : n < c.dbg.halted.length) (hc : n < c.dbg.causes.length) :
    (c.haltPair n k i).isHalted n = true ∧ (c.haltPair n k i).dbg.causes.getD n (0, 0) = (k, i) ∧
      (c.haltPair n k i).flag DDP_EVENT.HALTED = true := by
  have heq : c.haltPair n k i =
      if n = 0 ∧ !c.isHalted 0 ∧ (c.mode.code = .chargeDc ∨ c.mode.code = .grid)
      then (((haltedPair c n k i).watchHold.haltStat).event DDP_EVENT.HALTED).raiseA .debugHalt 0 []
      else ((haltedPair c n k i).watchHold.haltStat).event DDP_EVENT.HALTED := rfl
  have hdbg : (((haltedPair c n k i).watchHold.haltStat).event DDP_EVENT.HALTED).dbg = (haltedPair c n k i).dbg := by
    rw [event_dbg, dbg_haltStat, dbg_watchHold]
  have hflag := flag_event_same (c := (haltedPair c n k i).watchHold.haltStat) (f := DDP_EVENT.HALTED) (by decide) rfl
  obtain ⟨hhalted, hcauses⟩ := dbg_haltedPair (c := c) (n := n) (k := k) (i := i)
  rw [heq]
  generalize ((haltedPair c n k i).watchHold.haltStat).event DDP_EVENT.HALTED = d at hdbg hflag
  have hd : d.isHalted n = true ∧ d.dbg.causes.getD n (0, 0) = (k, i) :=
    ⟨by rw [Machine.Core.isHalted, hdbg, hhalted, getD_setAt_same hh], by rw [hdbg, hcauses, getD_setAt_same hc]⟩
  split
  · have honly := alarmsOnly_raiseA (c := d) (nm := .debugHalt) (inst := 0) (data := [])
    have hsame : (d.raiseA .debugHalt 0 []).dbg = d.dbg := dbg_of_hideSaf honly.hidden
    refine ⟨?_, ?_, (flag_of_reg (honly.regs _ (by decide))).trans hflag⟩
    · rw [Machine.Core.isHalted, hsame]
      exact hd.1
    · rw [hsame]
      exact hd.2
  · exact ⟨hd.1, hd.2, hflag⟩

theorem isHalted_of_dbg {d : Machine.Core} (h : d.dbg = c.dbg) : d.isHalted n = c.isHalted n := by
  rw [Machine.Core.isHalted, h]
  rfl

end Halts

section Accesses
variable {c : Machine.Core} {s : State} {i : Instr} {P : Machine.Core → Prop} {mem : Memory} {r v ack data : Nat}
  {write : Bool}

/-! ### Accesses -/

/-- The device that keeps what an access answered. -/
def answeredAs (c : Machine.Core) (ack data : Nat) : Machine.Core :=
  { c with dbg := { c.dbg with lastAck := ack, lastData := BitVec.ofNat 32 data } }

theorem flag_answeredAs {f : Field} : (answeredAs c ack data).flag f = c.flag f := rfl

theorem port_eq : c.port mem r write v = Machine.Core.portAnswer (c.portAccess mem r write v) write := rfl

theorem ctrlBit_eq {f : Field} : c.ctrlBit mem f = c.port mem 1 true (setBit (c.reg DDP_CTRL.a).toNat f.lo) := rfl

/-- A transaction that answers: its effect and its answer. -/
theorem gives_port (hexec : exec i s = go (fun c mem => c.port mem r write v) s)
    (hacc : (Laws.start s.core).portAccess s.mem r write v = (c, ack, data)) (hP : P (answeredAs c ack data))
    (hinv : ∀ (d : Machine.Core) x, P d → P { d with mbx := x, memOps := [] }) : Gives i s P := by
  refine gives_of_go hexec ?_
  rw [port_eq, hacc]
  exact hinv (answeredAs c ack data) (Machine.Core.portAnswer (c, ack, data) write).mbx hP

/-- The state an access starts from: DENIED is cleared. -/
def opened (c : Machine.Core) : Machine.Core := (Laws.start c).setF DDP_STAT.DENIED 0

theorem getF_opened {f : Field} (h : f.addr ≠ DDP_STAT.a ∨ f.lo + f.len ≤ 12 ∨ 13 ≤ f.lo) :
    (opened c).getF f = c.getF f := by
  refine (getF_setF_of_apart fun e => ?_).trans rfl
  rcases h with h | h | h
  · exact absurd e h
  · exact ⟨.inl h, by decide⟩
  · exact ⟨.inr h, by decide⟩

theorem reg_opened {a : Nat} (h : a ≠ DDP_STAT.a) : (opened c).reg a = c.reg a := reg_setF_other h

theorem flag_opened {f : Field} (h : f.addr ≠ DDP_STAT.a ∨ f.lo + f.len ≤ 12 ∨ 13 ≤ f.lo) :
    (opened c).flag f = c.flag f := flag_of_getF (getF_opened h)

theorem not_locked (h : c.driveLock = false) : ¬ ((Laws.start c).driveLock = true ∧ r ≠ 0 ∧ r ≠ 2) := by
  rw [show (Laws.start c).driveLock = false from h]
  simp

/-- Without DRIVE_LOCK the register decides. -/
theorem portAccess_ctrl (h : c.driveLock = false) :
    (Laws.start c).portAccess mem 1 true v = (opened c).portCtrl v :=
  if_neg (not_locked h)

theorem portAccess_auth (h : c.driveLock = false) :
    (Laws.start c).portAccess mem 3 write v = (opened c).portAuth write v :=
  if_neg (not_locked h)

theorem portAccess_mem (h : c.driveLock = false) :
    (Laws.start c).portAccess mem 5 write v = (opened c).portMem mem write v :=
  if_neg (not_locked h)

theorem portAccess_reg (h : c.driveLock = false) :
    (Laws.start c).portAccess mem 7 write v = (opened c).portReg write v :=
  if_neg (not_locked h)

theorem portAccess_id {m : Memory} : c.portAccess m 0 false v = (c.setF DDP_STAT.DENIED 0, ackOK, (c.reg DDP_ID.a).toNat) :=
  if_neg (by simp)

/-- A word that an access answers is kept as it is. -/
theorem ofNat_toNat_word {w : Word} : BitVec.ofNat 32 w.toNat = w := by rw [BitVec.ofNat_toNat, BitVec.setWidth_eq]

/-! ### The commands of DDP_CTRL -/

/-- The RW fields of DDP_CTRL as a write of one command bit leaves them. -/
def chosen (c : Machine.Core) : Machine.Core :=
  let c1 := if c.level = 0 then c else (c.setFlag DDP_CTRL.PAIR_SEL false).setFlag DDP_CTRL.MEM_INC false
  if c.level = 2 then c1.setFlag DDP_CTRL.STEP_IRQ_MASK false else c1

theorem chosen_only : { chosen c with regs := c.regs } = c := by
  unfold chosen
  split <;> split <;> rfl

theorem reg_chosen_other {a : Nat} (h : a ≠ DDP_CTRL.a) : (chosen c).reg a = c.reg a := by
  unfold chosen
  dsimp only
  split <;> split
  · exact reg_setFlag_other h
  · exact (reg_setFlag_other h).trans ((reg_setFlag_other h).trans (reg_setFlag_other h))
  · rfl
  · exact (reg_setFlag_other h).trans (reg_setFlag_other h)

/-- A single command bit selects pair 0, or leaves the selection. -/
theorem pairSel_chosen (h : c.reg DDP_CTRL.a = 0) : (chosen c).pairSel = 0 := by
  have hsel : c.getF DDP_CTRL.PAIR_SEL = 0 := by
    rw [Machine.Core.getF, h]
    rfl
  have hset : ((c.setFlag DDP_CTRL.PAIR_SEL false).setFlag DDP_CTRL.MEM_INC false).getF DDP_CTRL.PAIR_SEL = 0 := by
    rw [Machine.Core.setFlag, Machine.Core.setFlag,
      getF_setF_apart (f := DDP_CTRL.MEM_INC) (g := DDP_CTRL.PAIR_SEL) (by decide) rfl (by decide),
      getF_setF_same (by decide)]
    rfl
  have hmask (d : Machine.Core) : (d.setFlag DDP_CTRL.STEP_IRQ_MASK false).getF DDP_CTRL.PAIR_SEL =
      d.getF DDP_CTRL.PAIR_SEL :=
    getF_setF_apart (f := DDP_CTRL.STEP_IRQ_MASK) (g := DDP_CTRL.PAIR_SEL) (by decide) rfl (by decide)
  unfold Machine.Core.pairSel chosen
  dsimp only
  split <;> split
  · rw [hmask, hsel]
  · rw [hmask, hset]
  · exact hsel
  · exact hset

theorem dbg_chosen : (chosen c).haltStat.dbg = c.dbg := (congrArg (fun x : Machine.Core => x.dbg) chosen_only :)

theorem sec_chosen : (chosen c).haltStat.sec = c.sec := (congrArg (fun x : Machine.Core => x.sec) chosen_only :)

theorem now_chosen : (chosen c).haltStat.now = c.now := (congrArg (fun x : Machine.Core => x.now) chosen_only :)

theorem free_chosen : (chosen c).haltStat.free = c.free := (congrArg (fun x : Machine.Core => x.free) chosen_only :)

theorem mode_chosen : (chosen c).haltStat.mode = c.mode := (congrArg (fun x : Machine.Core => x.mode) chosen_only :)

theorem getF_chosen {f : Field} (hctrl : f.addr ≠ DDP_CTRL.a) (h : f.addr ≠ DDP_STAT.a ∨ f.lo + f.len ≤ 3 ∨ 11 ≤ f.lo) :
    (chosen c).haltStat.getF f = c.getF f := (getF_haltStat h).trans (getF_of_reg (reg_chosen_other hctrl))

theorem challengeBytes_chosen : (chosen c).haltStat.challengeBytes = c.challengeBytes := by
  have hgrade : (chosen c).haltStat.grade = c.grade := getF_chosen (by decide) (by decide)
  unfold Machine.Core.challengeBytes Machine.Core.us
  rw [hgrade, free_chosen, sec_chosen, mode_chosen, now_chosen]

/-- The command bits of a word that writes no RW field, one after another. -/
theorem portCtrl_commands (hrw : bitOf v 0 = false ∧ bitOf v 4 = false ∧ bitOf v 8 = false)
    (hgrant : (bitOf v 1 || bitOf v 2 || bitOf v 3) = true → c.level = 2) (hlock : bitOf v 7 = true → 1 ≤ c.level) :
    c.portCtrl v =
      portThen (portThen (portThen (portThen (portThen (portThen ((chosen c).haltStat, ackOK, 0)
        (bitOf v 1) fun x => (x.haltPair (chosen c).pairSel 1 0, ackOK, 0))
        (bitOf v 2) fun x => (x.resumePair (chosen c).pairSel, ackOK, 0))
        (bitOf v 3) fun x => (x.stepPair (chosen c).pairSel, ackOK, 0))
        (bitOf v 5) Machine.Core.portChal) (bitOf v 6) Machine.Core.portSubmit)
        (bitOf v 7) fun x => (x.relock.injCheck, ackOK, 0) := by
  obtain ⟨hsel, hinc, hmask⟩ := hrw
  have hboth : ((!(bitOf v 1 || bitOf v 2 || bitOf v 3) || c.level == 2) && (!bitOf v 7 || decide (1 ≤ c.level))) = true := by
    rw [Bool.and_eq_true, Bool.or_eq_true, Bool.or_eq_true, Bool.not_eq_true', Bool.not_eq_true', beq_iff_eq, decide_eq_true_iff]
    exact ⟨(Bool.eq_false_or_eq_true _).symm.imp id hgrant, (Bool.eq_false_or_eq_true _).symm.imp id hlock⟩
  refine (if_pos hboth).trans ?_
  dsimp only [DDP_CTRL.PAIR_SEL, DDP_CTRL.MEM_INC, DDP_CTRL.STEP_IRQ_MASK, DDP_CTRL.HALT_REQ]
  rw [hsel, hinc, hmask]
  rfl

/-- What each command bit does, written alone. -/
theorem portCtrl_haltReq (h : c.level = 2) :
    c.portCtrl 2 = ((chosen c).haltStat.haltPair (chosen c).pairSel 1 0, ackOK, 0) :=
  portCtrl_commands (by decide) (fun _ => h) (absurd · (by decide))

theorem portCtrl_resume (h : c.level = 2) :
    c.portCtrl 4 = ((chosen c).haltStat.resumePair (chosen c).pairSel, ackOK, 0) :=
  portCtrl_commands (by decide) (fun _ => h) (absurd · (by decide))

theorem portCtrl_step (h : c.level = 2) :
    c.portCtrl 8 = ((chosen c).haltStat.stepPair (chosen c).pairSel, ackOK, 0) :=
  portCtrl_commands (by decide) (fun _ => h) (absurd · (by decide))

theorem portCtrl_authChal : c.portCtrl 32 = (chosen c).haltStat.portChal :=
  portCtrl_commands (by decide) (absurd · (by decide)) (absurd · (by decide))

theorem portCtrl_authSubmit : c.portCtrl 64 = (chosen c).haltStat.portSubmit :=
  portCtrl_commands (by decide) (absurd · (by decide)) (absurd · (by decide))

theorem portCtrl_lock (h : c.level = 1) : c.portCtrl 128 = ((chosen c).haltStat.relock.injCheck, ackOK, 0) :=
  portCtrl_commands (by decide) (absurd · (by decide)) (fun _ => h.ge)

/-- HALT_REQ below level 2 is refused. -/
theorem portCtrl_refused (h : c.level < 2) (hbit : bitOf v 1 = true) : c.portCtrl v = c.portFault := by
  have hne : (c.level == 2) = false := by simp; omega
  refine if_neg ?_
  show ¬ ((!(bitOf v 1 || bitOf v 2 || bitOf v 3) || c.level == 2) && (!bitOf v 7 || decide (1 ≤ c.level))) = true
  rw [hbit, hne]
  simp

/-! ### DDP_AUTH, memory and core registers -/

theorem portAuth_write (h : c.flag DDP_STAT.AUTH_BUSY = false) :
    c.portAuth true v = (c.modSec fun x => { x with resp := x.resp ++ [v] }, ackOK, 0) :=
  if_neg (by rw [h]; decide)

theorem portAuth_read {x : Challenge} (h : c.flag DDP_STAT.AUTH_BUSY = false) (hchal : c.sec.chal = some x)
    (hidx : c.sec.chalIdx < 16) :
    c.portAuth false v =
      (c.modSec fun y => { y with chalIdx := y.chalIdx + 1 }, ackOK, u32 x.bytes (4 * c.sec.chalIdx)) := by
  refine (if_neg (by rw [h]; decide)).trans ?_
  rw [if_neg (by decide), hchal]
  exact if_pos hidx

theorem portReg_write (hlevel : c.level = 2) (hidx : c.getF DDP_REG_SEL.INDEX < 34) (hhalt : c.isHalted c.pairSel = true) :
    c.portReg true v = (c.setDbgReg c.pairSel (c.getF DDP_REG_SEL.INDEX) (BitVec.ofNat 32 v), ackOK, 0) := by
  have hgrant : (c.level == 2 && (!decide (c.getF DDP_REG_SEL.INDEX < 34) || c.isHalted c.pairSel)) = true := by
    rw [hlevel, hhalt, Bool.or_true]
    rfl
  exact (if_pos hgrant).trans (if_pos (decide_eq_true hidx))

theorem portReg_read (hlevel : 1 ≤ c.level) (hidx : c.getF DDP_REG_SEL.INDEX < 34) (hhalt : c.isHalted c.pairSel = true) :
    c.portReg false v = (c, ackOK, (c.dbgReg c.pairSel (c.getF DDP_REG_SEL.INDEX)).toNat) := by
  have hcore := decide_eq_true hidx
  have hgrant : (if decide (c.getF DDP_REG_SEL.INDEX < 34) = true then decide (1 ≤ c.level) && c.isHalted c.pairSel
      else c.level == 2) = true := by
    rw [if_pos hcore, hhalt, decide_eq_true hlevel]
    rfl
  exact (if_pos hgrant).trans (congrArg (fun x => (c, ackOK, x)) (if_pos (.inl hcore)))

theorem portMem_write {d : Machine.Core} (hlevel : c.level = 2)
    (hbus : c.busWrite mem ((c.reg DDP_MEM_ADDR.a).toNat / 4 * 4) v .debug = (d, true)) :
    c.portMem mem true v = ((d.setF DDP_STAT.MEM_ERR 0).memNext, ackOK, 0) := by
  refine (if_pos (show (c.level == 2) = true from beq_iff_eq.mpr hlevel)).trans ?_
  rw [if_pos rfl, hbus]
  rfl

theorem portMem_read {d : Machine.Core} {w : Nat} (hlevel : 1 ≤ c.level)
    (hbus : c.busRead mem ((c.reg DDP_MEM_ADDR.a).toNat / 4 * 4) .debug = (d, some w)) :
    c.portMem mem false v = ((d.setF DDP_STAT.MEM_ERR 0).memNext, ackOK, w) := by
  refine (if_pos (show decide (1 ≤ c.level) = true from decide_eq_true hlevel)).trans ?_
  rw [if_neg (by decide), hbus]

end Accesses

/-! ### The events -/
section Clauses
variable (s : State)

theorem gives_debugBreak (pair : Fin 2) (addr : BitVec 32) (i : Nat)
    (h : s.core.isHalted pair.val = false ∧ s.core.dbg.halted.length = 2 ∧ s.core.dbg.causes.length = 2 ∧
      s.core.breakHit pair.val addr.toNat = some i) :
    Gives (.debugBreak pair addr 0) s fun t =>
      t.isHalted pair.val = true ∧ t.dbg.causes.getD pair.val (0, 0) = (3, i) ∧ t.flag DDP_EVENT.HALTED = true := by
  obtain ⟨hrun, hhalted, hcauses, hhit⟩ := h
  refine gives_of_effect rfl ?_ fun _ h => h
  dsimp only
  rw [if_neg (by rw [show (Laws.start s.core).isHalted pair.val = false from hrun]; decide),
    if_pos (show (0 : Fin 3).val = 0 from rfl), show (Laws.start s.core).breakHit pair.val addr.toNat = some i from hhit]
  exact haltPair_spec (c := Laws.start s.core) (n := pair.val) (pair.isLt.trans_eq hhalted.symm)
    (pair.isLt.trans_eq hcauses.symm)

theorem gives_debugTransaction_badParity (req : BitVec 8) (data : BitVec 32) (parity : Bool)
    (h : s.core.dbg.lineReset = false ∧ bitOf req.toNat 6 ≠ parityOf 5 (req.toNat / 2)) :
    Gives (.debugTransaction req data parity) s fun t => t.dbg.lineReset = true ∧ t.mbx.tx = [] := by
  obtain ⟨hreset, hparity⟩ := h
  refine gives_of_effect rfl ?_ fun _ h => h
  have hbad : (!bitOf req.toNat 0 || !bitOf req.toNat 7 || bitOf req.toNat 6 != parityOf 5 (req.toNat / 2)) = true := by
    rw [bne_iff_ne.mpr hparity, Bool.or_true]
  dsimp only
  rw [if_neg (by rw [show (Laws.start s.core).dbg.lineReset = false from hreset]; decide), hbad, if_pos rfl]
  exact ⟨rfl, rfl⟩

theorem gives_debugTransaction_id (req : BitVec 8) (data : BitVec 32) (parity : Bool)
    (h : s.core.dbg.lineReset = false ∧ req = 0xC3) :
    Gives (.debugTransaction req data parity) s fun t =>
      t.mbx.tx = [⟨7, ackOK, 0, le 4 (s.core.reg DDP_ID.a).toNat⟩] ∧ t.dbg.lastAck = ackOK ∧
      t.dbg.lastData = s.core.reg DDP_ID.a := by
  obtain ⟨hreset, rfl⟩ := h
  refine gives_of_effect rfl ?_ fun _ h => h
  have hgoes : (!bitOf (0xC3 : BitVec 8).toNat 0 || !bitOf (0xC3 : BitVec 8).toNat 7 ||
      bitOf (0xC3 : BitVec 8).toNat 6 != parityOf 5 ((0xC3 : BitVec 8).toNat / 2)) = false := by decide
  have hread : bitOf (0xC3 : BitVec 8).toNat 1 = true := by decide
  dsimp only
  rw [if_neg (by rw [show (Laws.start s.core).dbg.lineReset = false from hreset]; decide), hgoes, if_neg (by decide), hread,
    if_neg (by simp), if_neg (by decide), port_eq,
    show (0xC3 : BitVec 8).toNat / 4 % 16 = 0 from by decide, show (!true) = false from rfl, portAccess_id]
  exact ⟨rfl, rfl, ofNat_toNat_word⟩

theorem gives_lineReset : Gives .lineReset s fun t => t.dbg.lineReset = false := gives_of_effect rfl rfl fun _ h => h

/-- The word that a command bit writes where DDP_CTRL is 0. -/
theorem setBit_ctrl {f : Field} (h : s.core.reg DDP_CTRL.a = 0) :
    setBit ((Laws.start s.core).reg DDP_CTRL.a).toNat f.lo = 2 ^ f.lo := by
  rw [show (Laws.start s.core).reg DDP_CTRL.a = 0 from h, setBit, bitOf]
  simp

variable {s}

/-- A command bit where DDP_CTRL is 0. -/
theorem gives_ctrlBit {i : Instr} {f : Field} {P : Machine.Core → Prop} {c : Machine.Core} {ack data : Nat}
    (hexec : exec i s = go (fun c mem => c.ctrlBit mem f) s) (hreg : s.core.reg DDP_CTRL.a = 0)
    (hlock : s.core.driveLock = false) (hacc : (opened s.core).portCtrl (2 ^ f.lo) = (c, ack, data))
    (hP : P (answeredAs c ack data))
    (hinv : ∀ (d : Machine.Core) x, P d → P { d with mbx := x, memOps := [] }) : Gives i s P := by
  refine gives_of_go hexec ?_
  rw [ctrlBit_eq, setBit_ctrl s hreg, port_eq, portAccess_ctrl hlock, hacc]
  exact hinv (answeredAs c ack data) (Machine.Core.portAnswer (c, ack, data) true).mbx hP

theorem level_opened : (opened s.core).level = s.core.getF DDP_STAT.LEVEL := getF_opened (by decide)

theorem pairSel_opened (h : s.core.reg DDP_CTRL.a = 0) : (chosen (opened s.core)).pairSel = 0 :=
  pairSel_chosen ((reg_opened (by decide)).trans h)

theorem dbg_opened : (chosen (opened s.core)).haltStat.dbg = s.core.dbg := dbg_chosen

variable (s)

theorem gives_ddpHaltReq (hlevel : s.core.getF DDP_STAT.LEVEL = 2 ∧ s.core.driveLock = false)
    (h : s.core.reg DDP_CTRL.a = 0 ∧ s.core.isHalted 0 = false ∧ s.core.dbg.halted.length = 2 ∧
      s.core.dbg.causes.length = 2) :
    Gives .ddpHaltReq s fun t =>
      t.isHalted 0 = true ∧ t.dbg.causes.getD 0 (0, 0) = (1, 0) ∧ t.dbg.lastAck = ackOK ∧
      t.flag DDP_EVENT.HALTED = true := by
  obtain ⟨hreg, -, hhalted, hcauses⟩ := h
  refine gives_ctrlBit (f := DDP_CTRL.HALT_REQ) rfl hreg hlevel.2 (portCtrl_haltReq (level_opened.trans hlevel.1)) ?_
    fun _ _ h => h
  rw [pairSel_opened hreg]
  obtain ⟨hnow, hcause, hevent⟩ := haltPair_spec (c := (chosen (opened s.core)).haltStat) (n := 0) (k := 1) (i := 0)
    (by rw [dbg_opened, hhalted]; decide) (by rw [dbg_opened, hcauses]; decide)
  exact ⟨hnow, hcause, rfl, hevent⟩

theorem gives_ddpResume (hlevel : s.core.getF DDP_STAT.LEVEL = 2 ∧ s.core.driveLock = false)
    (h : s.core.reg DDP_CTRL.a = 0 ∧ s.core.dbg.halted.length = 2 ∧ s.core.dbg.causes.length = 2) :
    Gives .ddpResume s fun t =>
      t.isHalted 0 = false ∧ t.dbg.causes.getD 0 (0, 0) = (0, 0) ∧ t.dbg.lastAck = ackOK := by
  obtain ⟨hreg, hhalted, hcauses⟩ := h
  refine gives_ctrlBit (f := DDP_CTRL.RESUME) rfl hreg hlevel.2 (portCtrl_resume (level_opened.trans hlevel.1)) ?_
    fun _ _ h => h
  rw [pairSel_opened hreg]
  have hdbg := dbg_resumePair (c := (chosen (opened s.core)).haltStat) (n := 0)
  rw [dbg_opened] at hdbg
  refine ⟨?_, ?_, rfl⟩
  · show (((chosen (opened s.core)).haltStat.resumePair 0).dbg.halted).getD 0 false = false
    rw [hdbg]
    exact getD_setAt_same (by rw [hhalted]; decide)
  · show (((chosen (opened s.core)).haltStat.resumePair 0).dbg.causes).getD 0 (0, 0) = (0, 0)
    rw [hdbg]
    exact getD_setAt_same (by rw [hcauses]; decide)

theorem gives_ddpStep (hlevel : s.core.getF DDP_STAT.LEVEL = 2 ∧ s.core.driveLock = false)
    (h : s.core.reg DDP_CTRL.a = 0 ∧ s.core.isHalted 0 = true ∧ s.core.dbg.halted.length = 2 ∧
      s.core.dbg.causes.length = 2) :
    Gives .ddpStep s fun t => t.isHalted 0 = true ∧ t.dbg.causes.getD 0 (0, 0) = (2, 0) ∧ t.dbg.lastAck = ackOK := by
  obtain ⟨hreg, hstopped, hhalted, hcauses⟩ := h
  refine gives_ctrlBit (f := DDP_CTRL.STEP) rfl hreg hlevel.2 (portCtrl_step (level_opened.trans hlevel.1)) ?_
    fun _ _ h => h
  rw [pairSel_opened hreg, Machine.Core.stepPair, if_pos ((isHalted_of_dbg dbg_opened).trans hstopped)]
  obtain ⟨hranHalted, hranCauses⟩ := dbg_ranCore (c := (chosen (opened s.core)).haltStat) (pair := 0)
  obtain ⟨hnow, hcause, -⟩ := haltPair_spec (c := (chosen (opened s.core)).haltStat.ranCore 0) (n := 0) (k := 2) (i := 0)
    (by rw [hranHalted, dbg_opened, hhalted]; decide) (by rw [hranCauses, dbg_opened, hcauses]; decide)
  exact ⟨hnow, hcause, rfl⟩

/-- Below level 2 HALT_REQ is refused, whatever DDP_CTRL holds. -/
theorem gives_ddpHaltReq_refused (h : s.core.getF DDP_STAT.LEVEL < 2 ∧ s.core.driveLock = false) :
    Gives .ddpHaltReq s fun t =>
      t.dbg.lastAck = ackFAULT ∧ t.flag DDP_STAT.DENIED = true ∧ t.dbg.halted = s.core.dbg.halted := by
  refine gives_of_effect rfl ?_ fun _ h => h
  rw [ctrlBit_eq, port_eq, portAccess_ctrl h.2,
    portCtrl_refused (by rw [level_opened]; exact h.1) (bitOf_setBit _ _), portAnswer_portFault]
  exact ⟨rfl, flag_event_same (c := opened s.core) (f := DDP_STAT.DENIED) (by decide) rfl, rfl⟩

theorem gives_ddpAuthChal
    (h : s.core.driveLock = false ∧ s.core.flag DDP_STAT.AUTH_BUSY = false ∧ s.core.sec.lockEnd = none)
    (hreg : s.core.reg DDP_CTRL.a = 0) :
    Gives .ddpAuthChal s fun t =>
      t.sec.chal = some ⟨s.core.challengeBytes, s.core.now⟩ ∧ t.sec.chalIdx = 0 ∧ t.sec.resp = [] ∧
      t.dbg.lastAck = ackOK := by
  obtain ⟨hlock, hbusy, hopen⟩ := h
  have hidle : (chosen (opened s.core)).haltStat.flag DDP_STAT.AUTH_BUSY = false :=
    (flag_of_getF (getF_chosen (by decide) (by decide))).trans ((flag_opened (by decide)).trans hbusy)
  have hfree : (chosen (opened s.core)).haltStat.lockedOut = false := by
    rw [Machine.Core.lockedOut, sec_chosen, show (opened s.core).sec.lockEnd = none from hopen]
    rfl
  have hissue : (opened s.core).portCtrl 32 = ((chosen (opened s.core)).haltStat.newChallenge true, ackOK, 0) := by
    rw [portCtrl_authChal, Machine.Core.portChal, hidle, if_neg (by decide), hfree]
    rfl
  have hbytes : (opened s.core).challengeBytes = s.core.challengeBytes := by
    have hgrade : (opened s.core).grade = s.core.grade := getF_opened (by decide)
    unfold Machine.Core.challengeBytes
    rw [hgrade]
    rfl
  refine gives_ctrlBit (f := DDP_CTRL.AUTH_CHAL) rfl hreg hlock hissue ?_ fun _ _ h => h
  refine ⟨?_, rfl, rfl, rfl⟩
  show some (Challenge.mk (chosen (opened s.core)).haltStat.challengeBytes (chosen (opened s.core)).haltStat.now) = _
  rw [challengeBytes_chosen, now_chosen, hbytes]
  rfl

theorem gives_ddpAuthSubmit (h : s.core.driveLock = false ∧ s.core.flag DDP_STAT.AUTH_BUSY = false)
    (hreg : s.core.reg DDP_CTRL.a = 0) :
    Gives .ddpAuthSubmit s fun t =>
      t.sec.submit = some (words s.core.sec.resp) ∧ t.sec.resp = [] ∧ t.flag DDP_STAT.AUTH_BUSY = true ∧
      t.dbg.lastAck = ackOK := by
  obtain ⟨hlock, hbusy⟩ := h
  have hidle : (chosen (opened s.core)).haltStat.flag DDP_STAT.AUTH_BUSY = false :=
    (flag_of_getF (getF_chosen (by decide) (by decide))).trans ((flag_opened (by decide)).trans hbusy)
  have hsubmit : (opened s.core).portCtrl 64 = (((chosen (opened s.core)).haltStat.modSec fun x =>
      { x with submit := some (words x.resp), resp := [] }).setF DDP_STAT.AUTH_BUSY 1, ackOK, 0) := by
    rw [portCtrl_authSubmit, Machine.Core.portSubmit, hidle, if_neg (by decide)]
  refine gives_ctrlBit (f := DDP_CTRL.AUTH_SUBMIT) rfl hreg hlock hsubmit
    ⟨?_, rfl, flag_answeredAs.trans (flag_setF_same (f := DDP_STAT.AUTH_BUSY) (by decide) rfl), rfl⟩
    fun _ _ h => h
  show some (words (chosen (opened s.core)).haltStat.sec.resp) = _
  rw [sec_chosen]
  rfl

theorem gives_ddpLock (h : s.core.driveLock = false ∧ s.core.getF DDP_STAT.LEVEL = 1) (hreg : s.core.reg DDP_CTRL.a = 0) :
    Gives .ddpLock s fun t =>
      t.getF DDP_STAT.LEVEL = 0 ∧ t.sec.unlockEnd = none ∧ t.flag SEC_EVENT.RELOCKED = true ∧ t.dbg.lastAck = ackOK := by
  obtain ⟨hlock, hlevel⟩ := h
  refine gives_ctrlBit (f := DDP_CTRL.LOCK) rfl hreg hlock (portCtrl_lock (level_opened.trans hlevel)) ?_ fun _ _ h => h
  have hone : (chosen (opened s.core)).haltStat.getF DDP_STAT.LEVEL = 1 :=
    (getF_chosen (by decide) (by decide)).trans (level_opened.trans hlevel)
  obtain ⟨hzero, -, hend, -⟩ := relock_spec (c := (chosen (opened s.core)).haltStat)
  have hevent := relock_event (c := (chosen (opened s.core)).haltStat) (by rw [hone]; decide)
  generalize (chosen (opened s.core)).haltStat.relock = d at hzero hend hevent
  exact ⟨(getF_injCheck (by decide)).trans hzero, (congrArg Sec.unlockEnd sec_injCheck).trans hend,
    (flag_of_getF (getF_injCheck (by decide))).trans hevent, rfl⟩

theorem gives_ddpAuthAccess_write (w : BitVec 32)
    (h : s.core.driveLock = false ∧ s.core.flag DDP_STAT.AUTH_BUSY = false) :
    Gives (.ddpAuthAccess true w) s fun t => t.sec.resp = s.core.sec.resp ++ [w.toNat] ∧ t.dbg.lastAck = ackOK := by
  have hidle : (opened s.core).flag DDP_STAT.AUTH_BUSY = false := (flag_opened (by decide)).trans h.2
  refine gives_port rfl (c := (opened s.core).modSec fun x => { x with resp := x.resp ++ [w.toNat] }) (ack := ackOK)
    (data := 0) ?_ ⟨rfl, rfl⟩ fun _ _ h => h
  rw [portAccess_auth h.1, portAuth_write hidle]

theorem gives_ddpAuthAccess_read (w : BitVec 32) (x : Challenge)
    (h : s.core.driveLock = false ∧ s.core.flag DDP_STAT.AUTH_BUSY = false)
    (hchal : s.core.sec.chal = some x ∧ s.core.sec.chalIdx < 16) :
    Gives (.ddpAuthAccess false w) s fun t =>
      t.sec.chalIdx = s.core.sec.chalIdx + 1 ∧ t.dbg.lastAck = ackOK ∧
      t.dbg.lastData = BitVec.ofNat 32 (u32 x.bytes (4 * s.core.sec.chalIdx)) := by
  have hidle : (opened s.core).flag DDP_STAT.AUTH_BUSY = false := (flag_opened (by decide)).trans h.2
  refine gives_port rfl (c := (opened s.core).modSec fun y => { y with chalIdx := y.chalIdx + 1 }) (ack := ackOK)
    (data := u32 x.bytes (4 * s.core.sec.chalIdx)) ?_ ⟨rfl, rfl, rfl⟩ fun _ _ h => h
  rw [portAccess_auth h.1]
  exact portAuth_read hidle hchal.1 hchal.2

/-! ### Memory and core registers -/

theorem getF_memNext {c : Machine.Core} {f : Field} (h : f.addr ≠ DDP_MEM_ADDR.a) : c.memNext.getF f = c.getF f := by
  unfold Machine.Core.memNext
  split
  · exact getF_setF_other h
  · rfl

theorem setF_only {c : Machine.Core} {f : Field} {v : Nat} : { c.setF f v with regs := c.regs } = c := rfl

theorem memNext_only {c : Machine.Core} : { c.memNext with regs := c.regs } = c := by
  unfold Machine.Core.memNext
  split
  · exact setF_only
  · rfl

/-- The debug port reaches an open word of SRAM. -/
theorem busCheck_debug_sram {c : Machine.Core} {a : Nat} {write : Bool} (h4 : a % 4 = 0) (hr : regionOf a = .sram)
    (hopen : (memsAt a).any c.clamped.contains = false) : c.busCheck a write .debug = none := by
  have hreach : reaches a write .debug = true := by simp [reaches, hr]
  unfold Machine.Core.busCheck
  rw [if_neg (by simp [h4, hreach]), if_neg (by rw [hopen]; decide), if_pos (by rw [hr]; decide)]

/-- Where DDP_MEM_DATA reaches. -/
def memWord (c : Machine.Core) : Nat := (c.reg DDP_MEM_ADDR.a).toNat / 4 * 4

theorem busCheck_memWord {write : Bool} (h : regionOf (memWord s.core) = .sram ∧
    (memsAt (memWord s.core)).any s.core.clamped.contains = false) :
    (opened s.core).busCheck (memWord s.core) write .debug = none := by
  have hclamp : (opened s.core).clamped = s.core.clamped := by
    have hrun : (opened s.core).flag BST_STATUS.RUNNING = s.core.flag BST_STATUS.RUNNING := flag_opened (by decide)
    have hstage : (opened s.core).getF BST_STATUS.STAGE = s.core.getF BST_STATUS.STAGE := getF_opened (by decide)
    unfold Machine.Core.clamped
    rw [hrun, hstage]
    rfl
  exact busCheck_debug_sram (by unfold memWord; omega) h.1 (hclamp ▸ h.2)

theorem gives_ddpMemDataAccess_read (w : BitVec 32) (hlevel : 1 ≤ s.core.getF DDP_STAT.LEVEL ∧ s.core.driveLock = false)
    (h : regionOf (memWord s.core) = .sram ∧ (memsAt (memWord s.core)).any s.core.clamped.contains = false) :
    Gives (.ddpMemDataAccess false w) s fun t =>
      t.dbg.lastAck = ackOK ∧ t.dbg.lastData = BitVec.ofNat 32 (readWord s.mem (memWord s.core)) ∧
      t.flag DDP_STAT.MEM_ERR = false := by
  have haddr : (opened s.core).reg DDP_MEM_ADDR.a = s.core.reg DDP_MEM_ADDR.a := reg_opened (by decide)
  have hread : (opened s.core).busRead s.mem (memWord s.core) .debug = (opened s.core, some (readWord s.mem (memWord s.core))) := by
    rw [Machine.Core.busRead, busCheck_memWord s h]
    exact if_neg (by rw [h.1]; decide)
  refine gives_port rfl (c := ((opened s.core).setF DDP_STAT.MEM_ERR 0).memNext) (ack := ackOK)
    (data := readWord s.mem (memWord s.core)) ?_ ⟨rfl, rfl, ?_⟩ fun _ _ h => h
  · exact (portAccess_mem hlevel.2).trans (portMem_read (level_opened.symm ▸ hlevel.1) (haddr.symm ▸ hread))
  · exact flag_false_of_getF ((getF_memNext (by decide)).trans (getF_setF_same (by decide)))

theorem readBytes_mapSetAll {m : Memory} {l : List Byte} : ∀ {a : Nat}, (∀ i, i < l.length → regionOf (a + i) ≠ .rom) →
    readBytes (mapSetAll memDefault m a l) a l.length = l := by
  intro a hrom
  have hread : ∀ (n k : Nat), k + n = l.length →
      readBytes (mapSetAll memDefault m a l) (a + k) n = l.drop k := by
    intro n
    induction n with
    | zero => exact fun k hk => (List.drop_eq_nil_of_le (by omega)).symm
    | succ n ih =>
      intro k hk
      rw [readBytes, readByte, if_neg (hrom k (by omega)), mapGet_mapSetAll_in (by omega), Nat.add_assoc, ih (k + 1) (by omega)]
      exact (List.drop_eq_getElem_cons (by omega)).symm
  exact hread l.length 0 (by omega)

theorem gives_ddpMemDataAccess_write (w : BitVec 32) (hlevel : s.core.getF DDP_STAT.LEVEL = 2 ∧ s.core.driveLock = false)
    (h : regionOf (memWord s.core) = .sram ∧ (memsAt (memWord s.core)).any s.core.clamped.contains = false) :
    GivesM (.ddpMemDataAccess true w) s fun t u =>
      t.dbg.lastAck = ackOK ∧ readBytes u (memWord s.core) 4 = le 4 w.toNat := by
  have haddr : (opened s.core).reg DDP_MEM_ADDR.a = s.core.reg DDP_MEM_ADDR.a := reg_opened (by decide)
  have hwrite : (opened s.core).busWrite s.mem (memWord s.core) w.toNat .debug =
      ((opened s.core).writeMem (memWord s.core) (le 4 w.toNat), true) := by
    rw [Machine.Core.busWrite, busCheck_memWord s h]
    exact congrArg (·, true) (if_neg (by rw [h.1]; decide))
  have hacc : (Laws.start s.core).portAccess s.mem 5 true w.toNat =
      ((((opened s.core).writeMem (memWord s.core) (le 4 w.toNat)).setF DDP_STAT.MEM_ERR 0).memNext, ackOK, 0) := by
    exact (portAccess_mem hlevel.2).trans (portMem_write (level_opened.trans hlevel.1) (haddr.symm ▸ hwrite))
  have hops : (Machine.Core.port (Laws.start s.core) s.mem 5 true w.toNat).memOps =
      [.write (memWord s.core) (le 4 w.toNat)] := by
    rw [port_eq, hacc]
    exact (congrArg (fun x : Machine.Core => x.memOps) memNext_only :)
  have hsram : ∀ i, i < (le 4 w.toNat).length → regionOf (memWord s.core + i) ≠ .rom := by
    intro i _ hrom
    have hlow : memWord s.core + i < 0x10000 := by
      unfold regionOf at hrom
      by_contra hhigh
      rw [if_neg hhigh] at hrom
      split_ifs at hrom
    have : regionOf (memWord s.core) = .rom := if_pos (by omega)
    exact absurd (this.symm.trans h.1) (by decide)
  refine ⟨_, rfl, ?_, ?_⟩
  · rw [run_core, port_eq, hacc]
    rfl
  · rw [run_mem, hops]
    exact readBytes_mapSetAll hsram

theorem gives_ddpRegDataAccess_write (w : BitVec 32) (hlevel : s.core.getF DDP_STAT.LEVEL = 2 ∧ s.core.driveLock = false)
    (h : s.core.getF DDP_REG_SEL.INDEX < 34 ∧ s.core.isHalted s.core.pairSel = true) :
    Gives (.ddpRegDataAccess true w) s fun t =>
      t.dbg.lastAck = ackOK ∧ t.dbgReg s.core.pairSel (s.core.getF DDP_REG_SEL.INDEX) = w := by
  have hidx : (opened s.core).getF DDP_REG_SEL.INDEX = s.core.getF DDP_REG_SEL.INDEX := getF_opened (by decide)
  have hsel : (opened s.core).pairSel = s.core.pairSel := getF_opened (by decide)
  have hhalt : (opened s.core).isHalted s.core.pairSel = true := h.2
  refine gives_port rfl (c := (opened s.core).setDbgReg s.core.pairSel (s.core.getF DDP_REG_SEL.INDEX) w) (ack := ackOK)
    (data := 0) ?_ ⟨rfl, mapGet_mapSet.trans (if_pos rfl)⟩ fun _ _ h => h
  rw [portAccess_reg hlevel.2, portReg_write (level_opened.trans hlevel.1) (hidx.trans_lt h.1) (by rw [hsel]; exact hhalt),
    hidx, hsel, ofNat_toNat_word]

theorem gives_ddpRegDataAccess_read (w : BitVec 32) (hlevel : 1 ≤ s.core.getF DDP_STAT.LEVEL ∧ s.core.driveLock = false)
    (h : s.core.getF DDP_REG_SEL.INDEX < 34 ∧ s.core.isHalted s.core.pairSel = true) :
    Gives (.ddpRegDataAccess false w) s fun t =>
      t.dbg.lastAck = ackOK ∧ t.dbg.lastData = s.core.dbgReg s.core.pairSel (s.core.getF DDP_REG_SEL.INDEX) ∧
      t.dbg.regs = s.core.dbg.regs := by
  have hidx : (opened s.core).getF DDP_REG_SEL.INDEX = s.core.getF DDP_REG_SEL.INDEX := getF_opened (by decide)
  have hsel : (opened s.core).pairSel = s.core.pairSel := getF_opened (by decide)
  have hhalt : (opened s.core).isHalted s.core.pairSel = true := h.2
  refine gives_port rfl (c := opened s.core) (ack := ackOK)
    (data := (s.core.dbgReg s.core.pairSel (s.core.getF DDP_REG_SEL.INDEX)).toNat) ?_
    ⟨rfl, ofNat_toNat_word, rfl⟩ fun _ _ h => h
  rw [portAccess_reg hlevel.2, portReg_read (hlevel.1.trans_eq level_opened.symm) (hidx.trans_lt h.1)
    (by rw [hsel]; exact hhalt), hidx, hsel]
  rfl

end Clauses

/-- Settles O27: each command bit written alone is one action (`portCtrl_haltReq` and the lemmas beside it), and each access
is granted or refused by the level. -/
theorem debugPortEvents : Obligations.DebugPortEvents := by
  unfold Obligations.DebugPortEvents
  exact ⟨gives_debugBreak, gives_debugTransaction_badParity, gives_debugTransaction_id, gives_lineReset, gives_ddpHaltReq,
    gives_ddpResume, gives_ddpStep, gives_ddpHaltReq_refused, gives_ddpAuthChal, gives_ddpAuthSubmit, gives_ddpLock,
    gives_ddpAuthAccess_write, gives_ddpAuthAccess_read, gives_ddpMemDataAccess_read, gives_ddpMemDataAccess_write,
    gives_ddpRegDataAccess_write, gives_ddpRegDataAccess_read⟩

end Sys2Proof.Proofs
end

