-- ==== Sys2Proof/Proofs/PairAuthority.lean ====
section
/-! The redundant pair: authority taken and given up, the frame, the link's lanes, the comparison (R450, R452, R454 to
R456). -/
namespace Sys2Proof.Proofs
open Sys2Proof.Machine Sys2Proof.Claims Sys2Proof.Laws

section Authority
variable {c : Machine.Core} {f : Field} {n v : Nat} {nm other : AlarmName} {inst : Nat} {data : List Nat} {present : Bool}

/-! ### Alarms of the upper registers -/

/-- A field that an alarm leaves as it is. -/
def AlarmFree (f : Field) : Prop := tlmReg f.addr = false ∧ f.addr ≠ MBX_EVENT.a

theorem getF_raise_of_free (h : AlarmFree f) : (c.raise nm inst data present).getF f = c.getF f := getF_raise h.1 h.2

theorem flag_raise_of_free (h : AlarmFree f) : (c.raise nm inst data present).flag f = c.flag f :=
  flag_of_getF (getF_raise_of_free h)

/-- An event bit with its alarm. -/
theorem event_with_alarm (h : AlarmFree f) (hfits : f.lo + f.len ≤ 32) (hlen : f.len = 1) (hnm : nm ≠ .alarmTableFold) :
    ((c.event f).raise nm inst data present).flag f = true ∧ Listed ((c.event f).raise nm inst data present) nm inst data :=
  ⟨(flag_raise_of_free h).trans (flag_event_same hfits hlen), raise_listed hnm⟩

/-- An alarm of another name leaves an entry listed. -/
theorem listed_raiseA (h : Listed c nm inst data) (hne : nm ≠ other) (hfold : nm ≠ .alarmTableFold) {k : Nat} {l : List Nat} :
    Listed (c.raiseA other k l) nm inst data := by
  obtain ⟨a, ha, hname, hrest⟩ := h
  exact ⟨a, (alarmsOnly_raiseA.alarms a (by rw [hname]; exact hne) (by rw [hname]; exact hfold)).mpr ha, hname, hrest⟩

theorem flag_raiseA (h : requestReg f.addr = false) {k : Nat} {l : List Nat} : (c.raiseA nm k l).flag f = c.flag f :=
  flag_of_reg (alarmsOnly_raiseA.regs _ h)

/-! ### Authority (R450, R455) -/

theorem linkReg_laneCtrl (h : n < 128) : linkReg (LNK_LANE_CTRL.a n) = true :=
  decide_eq_true (by dsimp only [LNK_LANE_CTRL.a]; omega)

/-- The lanes' enables follow the map and the authority. -/
theorem within_laneCtrl : Within {} linkReg c c.laneCtrl := by
  refine within_foldl _ (fun c l hl => ?_) c
  have hown : linkReg (LNK_LANE_CTRL.a l) = true := linkReg_laneCtrl (List.mem_range.mp hl)
  exact (within_setF hown).trans (within_setF hown)

theorem getF_laneCtrl (h : 0x40040000 ≤ f.addr) : c.laneCtrl.getF f = c.getF f :=
  getF_of_reg (within_laneCtrl.2 _ (decide_eq_false (by omega)))

theorem pair_of_within {d : Machine.Core} (h : Within {} linkReg c d) : d.pair = c.pair :=
  (congrArg (fun x : Machine.Core => x.pair) h.1 :)

theorem pair_laneCtrl : c.laneCtrl.pair = c.pair := pair_of_within within_laneCtrl

theorem getF_modPair {g : Pair → Pair} : (c.modPair g).getF f = c.getF f := rfl

theorem pair_modPair {g : Pair → Pair} : (c.modPair g).pair = g c.pair := rfl

/-- What AUTHORITY shows. -/
theorem takeAuth_spec : c.takeAuth.auth = 2 ∧ c.takeAuth.flag PAI_STATUS.AUTH_OUT = true ∧
    c.takeAuth.flag PAI_STATUS.AUTH_IN = c.flag PAI_STATUS.AUTH_IN := by
  unfold Machine.Core.auth Machine.Core.takeAuth
  refine ⟨?_, ?_, flag_of_getF ?_⟩
  · rw [getF_laneCtrl (by decide), getF_modPair,
      getF_setF_apart (f := PAI_STATUS.AUTH_OUT) (g := PAI_STATUS.AUTH) (by decide) rfl (by decide), getF_setF_same (by decide)]
    rfl
  · rw [Machine.Core.flag, getF_laneCtrl (by decide), getF_modPair, getF_setF_same (by decide)]
    rfl
  · rw [getF_laneCtrl (by decide), getF_modPair,
      getF_setF_apart (f := PAI_STATUS.AUTH_OUT) (g := PAI_STATUS.AUTH_IN) (by decide) rfl (by decide),
      getF_setF_apart (f := PAI_STATUS.AUTH) (g := PAI_STATUS.AUTH_IN) (by decide) rfl (by decide)]

/-- What SHADOW shows. -/
theorem setAuth_spec : (c.setAuth 1).auth = 1 ∧ (c.setAuth 1).flag PAI_STATUS.AUTH_OUT = false ∧
    (c.setAuth 1).flag PAI_STATUS.AUTH_IN = c.flag PAI_STATUS.AUTH_IN ∧ (c.setAuth 1).pair.rel = c.pair.rel := by
  unfold Machine.Core.auth Machine.Core.setAuth
  refine ⟨?_, ?_, flag_of_getF ?_, ?_⟩
  · rw [getF_laneCtrl (by decide), getF_modPair,
      getF_setF_apart (f := PAI_STATUS.AUTH_OUT) (g := PAI_STATUS.AUTH) (by decide) rfl (by decide), getF_setF_same (by decide)]
    rfl
  · rw [Machine.Core.flag, getF_laneCtrl (by decide), getF_modPair, getF_setF_same (by decide)]
    rfl
  · rw [getF_laneCtrl (by decide), getF_modPair,
      getF_setF_apart (f := PAI_STATUS.AUTH_OUT) (g := PAI_STATUS.AUTH_IN) (by decide) rfl (by decide),
      getF_setF_apart (f := PAI_STATUS.AUTH) (g := PAI_STATUS.AUTH_IN) (by decide) rfl (by decide)]
  · rw [pair_laneCtrl, pair_modPair, setF_pair, setF_pair]

theorem relinquished_none (h : c.pair.rel = none) : c.relinquished = c := by
  rw [Machine.Core.relinquished, h]

theorem pair_raise : (c.raise nm inst data present).pair = c.pair :=
  (congrArg (fun x : Machine.Core => x.pair) onlyAlarm_raise.1 :)

/-! ### The link's lanes (R452) -/

theorem up_pairUp : c.pairUp.flag PAI_LINK.UP = decide (2 ≤ popcount 4 (c.pairUp.getF PAI_LINK.VALID)) := by
  have hvalid : c.pairUp.getF PAI_LINK.VALID = c.getF PAI_LINK.VALID :=
    getF_setF_apart (f := PAI_LINK.UP) (g := PAI_LINK.VALID) (by decide) rfl (by decide)
  rw [hvalid]
  exact flag_setFlag_same (by decide) rfl

theorem getBit_of_getF {d : Machine.Core} {i : Nat} (h : d.getF f = c.getF f) : d.getBit f i = c.getBit f i := by
  rw [Machine.Core.getBit, h]
  rfl

theorem faulty_keeps_valid {i j : Nat} {b : Bool} :
    (c.putBit PAI_LINK.FAULTY i b).getBit PAI_LINK.VALID j = c.getBit PAI_LINK.VALID j :=
  getBit_of_getF (getF_setF_apart (f := PAI_LINK.FAULTY) (g := PAI_LINK.VALID) (by decide) rfl (by decide))

theorem getBit_pairUp {i : Nat} (hf : f.addr = PAI_LINK.a) (h : f.lo + f.len ≤ 8) : c.pairUp.getBit f i = c.getBit f i :=
  getBit_of_getF (getF_setF_apart (f := PAI_LINK.UP) (by decide) hf (.inl h))

theorem reg_charEntry {a type index reason serial : Nat} {trips : List Nat} (htlm : tlmReg a = false)
    (hmbx : a ≠ MBX_EVENT.a) (hlgr : a ≠ LGR_EVENT.a) :
    (c.charEntry type index reason serial trips).reg a = c.reg a := by
  unfold Machine.Core.charEntry
  dsimp only
  split
  · rfl
  · exact (onlyAlarm_raise.2 a htlm hmbx).trans (reg_event_other hlgr)

end Authority

/-! ### The events -/
section Clauses
variable (s : State)

theorem gives_authInLow (h : s.core.flag PAI_STATUS.AUTH_IN = true ∧ s.core.auth = 1 ∧
      s.core.flag PAI_CTRL.TAKEOVER_EN = true) :
    Gives .authInLow s fun t =>
      t.flag PAI_STATUS.AUTH_IN = false ∧ t.auth = 2 ∧ t.flag PAI_STATUS.AUTH_OUT = true ∧
      t.flag PAI_EVENT.TAKEOVER = true ∧ Listed t .pairTakeover 0xFFFF [0, s.core.us] := by
  refine gives_of_effect rfl ?_ fun _ h => h
  dsimp only
  rw [if_pos (show (Laws.start s.core).flag PAI_STATUS.AUTH_IN = true ∧ (Laws.start s.core).auth = 1 ∧
    (Laws.start s.core).flag PAI_CTRL.TAKEOVER_EN = true from h)]
  obtain ⟨hauth, hout, hin⟩ := takeAuth_spec (c := (Laws.start s.core).setF PAI_STATUS.AUTH_IN 0)
  have hlow : ((Laws.start s.core).setF PAI_STATUS.AUTH_IN 0).flag PAI_STATUS.AUTH_IN = false :=
    flag_setF_same (by decide) rfl
  rw [hlow] at hin
  generalize ((Laws.start s.core).setF PAI_STATUS.AUTH_IN 0).takeAuth = d at hauth hout hin
  have counted {f : Field} (hf : f.addr = PAI_STATUS.a) (hlo : f.lo + f.len ≤ 16) :
      ((d.bump PAI_STATUS.TAKEOVERS 1).event PAI_EVENT.TAKEOVER).getF f = d.getF f :=
    (getF_of_reg (reg_event_other (by rw [hf]; decide))).trans
      (getF_setF_apart (f := PAI_STATUS.TAKEOVERS) (by decide) hf (.inl hlo))
  have raised : ∀ k : Machine.Core, (∀ f : Field, f.addr = PAI_STATUS.a → k.getF f =
      ((d.bump PAI_STATUS.TAKEOVERS 1).event PAI_EVENT.TAKEOVER).getF f) →
      k.flag PAI_STATUS.AUTH_IN = false ∧ k.auth = 2 ∧ k.flag PAI_STATUS.AUTH_OUT = true := fun k hk =>
    ⟨(flag_of_getF ((hk _ rfl).trans (counted rfl (by decide)))).trans hin, ((hk _ rfl).trans (counted rfl (by decide))).trans hauth,
      (flag_of_getF ((hk _ rfl).trans (counted rfl (by decide)))).trans hout⟩
  obtain ⟨htake, hlisted⟩ := event_with_alarm (c := d.bump PAI_STATUS.TAKEOVERS 1) (f := PAI_EVENT.TAKEOVER)
    (nm := .pairTakeover) (inst := 0xFFFF) (data := [0, s.core.us]) (present := true) ⟨by decide, by decide⟩ (by decide) rfl
    (by decide)
  have hshown : ∀ f : Field, f.addr = PAI_STATUS.a →
      (((d.bump PAI_STATUS.TAKEOVERS 1).event PAI_EVENT.TAKEOVER).raise .pairTakeover 0xFFFF [0, s.core.us] true).getF f =
      ((d.bump PAI_STATUS.TAKEOVERS 1).event PAI_EVENT.TAKEOVER).getF f := fun f hf =>
    getF_raise_of_free ⟨by rw [hf]; decide, by rw [hf]; decide⟩
  rw [show (Laws.start s.core).us = s.core.us from rfl]
  generalize ((d.bump PAI_STATUS.TAKEOVERS 1).event PAI_EVENT.TAKEOVER).raise .pairTakeover 0xFFFF [0, s.core.us] true = e
    at htake hlisted hshown
  split
  · obtain ⟨hin', hauth', hout'⟩ := raised e hshown
    exact ⟨hin', hauth', hout', htake, hlisted⟩
  · obtain ⟨hin', hauth', hout'⟩ := raised (e.raiseA .pairTakeoverUnready 0xFFFF []) fun f hf =>
      (getF_of_reg (alarmsOnly_raiseA.regs _ (by rw [hf]; decide))).trans (hshown f hf)
    exact ⟨hin', hauth', hout', (flag_raiseA (by decide)).trans htake, listed_raiseA hlisted (by decide) (by decide)⟩

theorem gives_authInHigh (h : s.core.auth = 2 ∧ s.core.lead = false ∧ s.core.pair.rel = none) :
    Gives .authInHigh s fun t =>
      t.flag PAI_STATUS.AUTH_IN = true ∧ t.auth = 1 ∧ t.flag PAI_STATUS.AUTH_OUT = false ∧
      t.flag PAI_EVENT.AUTHORITY_LOST = true ∧ Listed t .pairAuthorityLost 0xFFFF [] := by
  obtain ⟨hauth, hlead, hrel⟩ := h
  refine gives_of_effect rfl ?_ fun _ h => h
  dsimp only
  rw [if_pos ⟨hauth, by rw [show (Laws.start s.core).lead = false from hlead]; rfl⟩]
  obtain ⟨hshadow, hout, hin, hkept⟩ := setAuth_spec (c := (Laws.start s.core).setF PAI_STATUS.AUTH_IN 1)
  have hhigh : ((Laws.start s.core).setF PAI_STATUS.AUTH_IN 1).flag PAI_STATUS.AUTH_IN = true :=
    flag_setF_same (by decide) rfl
  rw [hhigh] at hin
  rw [setF_pair, show (Laws.start s.core).pair.rel = none from hrel] at hkept
  generalize ((Laws.start s.core).setF PAI_STATUS.AUTH_IN 1).setAuth 1 = d at hshadow hout hin hkept
  obtain ⟨hlost, hlisted⟩ := event_with_alarm (c := d) (f := PAI_EVENT.AUTHORITY_LOST) (nm := .pairAuthorityLost)
    (inst := 0xFFFF) (data := []) (present := true) ⟨by decide, by decide⟩ (by decide) rfl (by decide)
  have hshown {f : Field} (hf : f.addr = PAI_STATUS.a) :
      ((d.event PAI_EVENT.AUTHORITY_LOST).raise .pairAuthorityLost 0xFFFF [] true).getF f = d.getF f :=
    (getF_raise_of_free ⟨by rw [hf]; decide, by rw [hf]; decide⟩).trans (getF_of_reg (reg_event_other (by rw [hf]; decide)))
  rw [relinquished_none (by rw [pair_raise, event_pair]; exact hkept)]
  exact ⟨(flag_of_getF (hshown rfl)).trans hin, (hshown rfl).trans hshadow, (flag_of_getF (hshown rfl)).trans hout, hlost,
    hlisted⟩

theorem gives_pairPartnerAbsent
    (h : s.core.auth = 1 ∧ s.core.flag PAI_STATUS.AUTH_IN = false ∧ s.core.lead = true ∧ s.core.flag PAI_LINK.UP = false ∧
      heldFor s.core.pair.readyAt 50000000 s.core.now = true) :
    Gives .pairPartnerAbsent s fun t =>
      t.auth = 2 ∧ t.flag PAI_STATUS.AUTH_OUT = true ∧ Listed t .pairPartnerAbsent 0xFFFF [] := by
  obtain ⟨hauth, hin, hlead, hup, hheld⟩ := h
  refine gives_of_effect rfl ?_ fun _ h => h
  dsimp only
  rw [if_pos (show (Laws.start s.core).lead = true from hlead),
    if_pos ⟨hauth, by rw [show (Laws.start s.core).flag PAI_STATUS.AUTH_IN = false from hin]; rfl,
      by
        rw [show (Laws.start s.core).flag PAI_LINK.UP = false from hup,
          show heldFor (Laws.start s.core).pair.readyAt 50000000 (Laws.start s.core).now = true from hheld]
        rfl⟩]
  obtain ⟨htaken, hout, -⟩ := takeAuth_spec (c := Laws.start s.core)
  exact ⟨(getF_raise_of_free ⟨by decide, by decide⟩).trans htaken,
    (flag_raise_of_free ⟨by decide, by decide⟩).trans hout, raise_listed (by decide)⟩

theorem gives_relinquishTimeout (k i : Nat) (h : s.core.pair.rel = some (k, 1, [], i) ∧ k + 1000000 ≤ s.core.now)
    (hmode : s.core.mode.code ≠ .off ∧ s.core.mode.code ≠ .safe) :
    Gives .relinquishTimeout s fun t => t.pair.rel = none ∧ AlarmName.dispatchStall ∈ t.saf.req := by
  obtain ⟨hrel, hdue⟩ := h
  have hlate : ¬ (1 = 0 ∨ (Laws.start s.core).now < k + 1000000) := by
    rw [show (Laws.start s.core).now = s.core.now from rfl]
    omega
  refine gives_of_effect rfl ?_ fun _ h => h
  rw [show (Laws.start s.core).pair.rel = some (k, 1, [], i) from hrel]
  dsimp only
  rw [if_neg hlate, if_pos rfl]
  refine ⟨?_, mem_req_request hmode.1 hmode.2⟩
  exact (congrArg (fun x : Machine.Core => x.pair.rel) alarmsOnly_request.hidden :)

theorem gives_pairFrame (sender : BitVec 64) (f : List Byte)
    (h : s.core.flag PAI_CTRL.PAIR_EN = true ∧ s.core.flag PAI_LINK.UP = true ∧ frameOk f = true ∧ s.core.modu.stage ≠ 2 ∧
      s.core.modu.stage ≠ 3 ∧ sender.toNat = s.core.partnerId) :
    Gives (.pairFrame ⟨sender, f⟩) s fun t =>
      t.pair.frame = f ∧ t.pair.got = true ∧ t.pair.missRun = 0 ∧ t.pair.validAt = s.core.now ∧
      t.flag PAI_STATUS.READY_PARTNER = bitOf (u8 f 11) 0 := by
  obtain ⟨hen, hup, hok, hready, happlied, hsender⟩ := h
  have htime : (!((Laws.start s.core).modu.stage == 2 || (Laws.start s.core).modu.stage == 3)) = true := by
    rw [show (Laws.start s.core).modu = s.core.modu from rfl]
    simp [hready, happlied]
  refine gives_of_effect rfl ?_ fun _ h => h
  dsimp only
  rw [if_pos ⟨hen, hup, hok, htime, hsender⟩]
  have htaken {d : Machine.Core} {b b' : Bool} :
      ((((d.setFlag PAI_STATUS.READY_PARTNER b).setFlag PAI_STATUS.HASH_EQUAL b').clearCause .pairHbLost 0xFFFF).flag
        PAI_STATUS.READY_PARTNER = b) ∧
      (((d.setFlag PAI_STATUS.READY_PARTNER b).setFlag PAI_STATUS.HASH_EQUAL b').clearCause .pairHbLost 0xFFFF).pair =
        d.pair := by
    refine ⟨?_, (congrArg (fun x : Machine.Core => x.pair) onlyTlm_clearCause.1 :)⟩
    rw [flag_of_reg (onlyTlm_clearCause.2 _ (by decide)), Machine.Core.setFlag, flag_of_getF
      (getF_setF_apart (f := PAI_STATUS.HASH_EQUAL) (g := PAI_STATUS.READY_PARTNER) (by decide) rfl (by decide))]
    exact flag_setFlag_same (by decide) rfl
  obtain ⟨hflag, hpair⟩ := htaken (d := (Laws.start s.core).modPair fun p =>
      { p with frame := f, got := true, missRun := 0, validAt := (Laws.start s.core).now })
    (b := bitOf (u8 f 11) 0) (b' := (f.drop 12).take 8 == (((Laws.start s.core).modPair fun p =>
      { p with frame := f, got := true, missRun := 0, validAt := (Laws.start s.core).now }).setFlag PAI_STATUS.READY_PARTNER
      (bitOf (u8 f 11) 0)).configHash.take 8)
  have hpair := hpair.trans pair_modPair
  exact ⟨congrArg Pair.frame hpair, congrArg Pair.got hpair, congrArg Pair.missRun hpair, congrArg Pair.validAt hpair, hflag⟩

theorem gives_pairHbLost
    (h : s.core.flag PAI_CTRL.PAIR_EN = true ∧ s.core.hbMiss ≤ s.core.pair.missRun ∧
      s.core.causeOn .pairHbLost 0xFFFF = false) :
    Gives .pairHbLost s fun t =>
      t.flag PAI_EVENT.HB_LOST = true ∧ Listed t .pairHbLost 0xFFFF [s.core.pair.missRun] := by
  obtain ⟨hen, hmiss, hnew⟩ := h
  refine gives_of_effect rfl ?_ fun _ h => h
  rw [if_pos ⟨hen, hmiss, by rw [show (Laws.start s.core).causeOn .pairHbLost 0xFFFF = false from hnew]; rfl⟩]
  exact event_with_alarm ⟨by decide, by decide⟩ (by decide) rfl (by decide)

theorem gives_pairLaneFaulty (lane : Fin 4) (h : s.core.getBit PAI_LINK.FAULTY lane.val = false) :
    Gives (.pairLaneFaulty lane) s fun t =>
      t.getBit PAI_LINK.FAULTY lane.val = true ∧ t.getBit PAI_LINK.VALID lane.val = false ∧
      t.flag PAI_EVENT.LANE_FAULTY = true := by
  refine gives_of_effect rfl ?_ fun _ h => h
  dsimp only
  rw [if_neg (by rw [show (Laws.start s.core).getBit PAI_LINK.FAULTY lane.val = false from h]; decide)]
  have hfaulty : ((((Laws.start s.core).putBit PAI_LINK.VALID lane.val false).putBit PAI_LINK.FAULTY lane.val true).pairUp).getBit
      PAI_LINK.FAULTY lane.val = true := by
    rw [getBit_pairUp rfl (by decide), getBit_putBit (by decide) lane.isLt, if_pos rfl]
  have hvalid : ((((Laws.start s.core).putBit PAI_LINK.VALID lane.val false).putBit PAI_LINK.FAULTY lane.val true).pairUp).getBit
      PAI_LINK.VALID lane.val = false := by
    rw [getBit_pairUp rfl (by decide), faulty_keeps_valid, getBit_putBit (by decide) lane.isLt, if_pos rfl]
  generalize (((Laws.start s.core).putBit PAI_LINK.VALID lane.val false).putBit PAI_LINK.FAULTY lane.val true).pairUp = d
    at hfaulty hvalid
  obtain ⟨hevent, -⟩ := event_with_alarm (c := d) (f := PAI_EVENT.LANE_FAULTY) (nm := .pairLaneFaulty) (inst := lane.val)
    (data := [lane.val]) (present := true) ⟨by decide, by decide⟩ (by decide) rfl (by decide)
  have hkept {f : Field} (hf : f.addr = PAI_LINK.a) :
      (((d.event PAI_EVENT.LANE_FAULTY).raise .pairLaneFaulty lane.val [lane.val] true).charEntry 4 lane.val 4 0 []).getF f =
        d.getF f := by
    refine (getF_of_reg (reg_charEntry ?_ ?_ ?_)).trans ((getF_raise_of_free ⟨?_, ?_⟩).trans
      (getF_of_reg (reg_event_other ?_))) <;> (rw [hf]; decide)
  exact ⟨(getBit_of_getF (hkept rfl)).trans hfaulty, (getBit_of_getF (hkept rfl)).trans hvalid,
    (flag_of_reg (reg_charEntry (by decide) (by decide) (by decide))).trans hevent⟩

theorem gives_pairLaneValid (lane : Fin 4) (valid : Bool) (h : s.core.getBit PAI_LINK.FAULTY lane.val = false) :
    Gives (.pairLaneValid lane valid) s fun t =>
      t.getBit PAI_LINK.VALID lane.val = valid ∧
      t.flag PAI_LINK.UP = decide (2 ≤ popcount 4 (t.getF PAI_LINK.VALID)) := by
  refine gives_of_effect rfl ?_ fun _ h => h
  rw [if_neg (by rw [show (Laws.start s.core).getBit PAI_LINK.FAULTY lane.val = false from h]; decide)]
  refine ⟨?_, up_pairUp⟩
  rw [getBit_pairUp rfl (by decide), getBit_putBit (by decide) lane.isLt, if_pos rfl]

theorem gives_pairDisagree
    (h : s.core.auth = 1 ∧ 0 < s.core.pair.cmpRun ∧ u8 s.core.pairP 17 ≤ s.core.pair.cmpRun ∧
      s.core.causeOn .pairDisagree 0xFFFF = false) :
    Gives .pairDisagree s fun t =>
      t.flag PAI_EVENT.DISAGREE = true ∧ Listed t .pairDisagree 0xFFFF [s.core.pair.cmpRun] := by
  obtain ⟨hauth, hrun, hlong, hnew⟩ := h
  refine gives_of_effect rfl ?_ fun _ h => h
  rw [if_pos ⟨hauth, hrun, hlong, by rw [show (Laws.start s.core).causeOn .pairDisagree 0xFFFF = false from hnew]; rfl⟩]
  exact event_with_alarm ⟨by decide, by decide⟩ (by decide) rfl (by decide)

end Clauses

/-- Settles O28: authority is what `takeAuth` and `setAuth` show (`takeAuth_spec`, `setAuth_spec`); each other event records
what it met. -/
theorem pairEvents : Obligations.PairEvents := by
  unfold Obligations.PairEvents
  exact ⟨gives_authInLow, gives_authInHigh, gives_pairPartnerAbsent, gives_relinquishTimeout, gives_pairFrame,
    gives_pairHbLost, gives_pairLaneFaulty, gives_pairLaneValid, gives_pairDisagree⟩

end Sys2Proof.Proofs
end

