-- ==== Sys2Proof/Proofs/BackgroundWork.lean ====
section
/-! The work of the background: scrubbing, the MRAM check, calibration, tracking, equalisation, wear and trace (R384 to R389,
R393). -/
namespace Sys2Proof.Proofs
open Sys2Proof.Machine Sys2Proof.Claims Sys2Proof.Laws

section Telemetry
variable {c d e : Machine.Core} {f : Field} {n v i : Nat} {nm : AlarmName} {inst : Nat} {data : List Nat} {present : Bool}

/-! ### What the alarm table and the log leave of the telemetry state (R391, R392) -/

/-- The telemetry state without the alarm table and the log. -/
def tableless (t : Tlm) : Tlm :=
  { t with alarms := [], nextId := 0, foldEpisode := false, log := [], serial := 0, sumCounts := [], sumRecs := [] }

/-- Nothing of the telemetry state but the alarm table and the log, and no event of TLM_EVENT but their own, differs. -/
structure TableOnly (c d : Machine.Core) : Prop where
  apart : tableless d.tlm = tableless c.tlm
  events : ∀ f : Field, f.addr = TLM_EVENT.a → 3 ≤ f.lo → d.getF f = c.getF f

theorem TableOnly.refl : TableOnly c c := ⟨rfl, fun _ _ _ => rfl⟩

theorem TableOnly.trans (h : TableOnly c d) (k : TableOnly d e) : TableOnly c e :=
  ⟨k.apart.trans h.apart, fun f hf hlo => (k.events f hf hlo).trans (h.events f hf hlo)⟩

theorem tableOnly_tlm {t : Tlm} (h : tableless t = tableless c.tlm) : TableOnly c { c with tlm := t } := ⟨h, fun _ _ _ => rfl⟩

theorem tableOnly_setF (h : f.addr ≠ TLM_EVENT.a) : TableOnly c (c.setF f v) :=
  ⟨rfl, fun g hg _ => getF_setF_other (by rw [hg]; exact h.symm)⟩

theorem tableOnly_event (h : f.lo + f.len ≤ 3 ∨ f.addr ≠ TLM_EVENT.a) : TableOnly c (c.event f) := by
  refine ⟨rfl, fun g hg hlo => ?_⟩
  show (c.setF f 1).getF g = c.getF g
  rcases h with h | h
  · exact getF_setF_of_apart fun _ => ⟨.inr (by omega), by omega⟩
  · exact getF_setF_other (by rw [hg]; exact h.symm)

theorem tableOnly_logRecord {code cls count : Nat} : TableOnly c (c.logRecord code cls inst count data) := by
  have hloss (k : Nat) : (lossField k).addr ≠ TLM_EVENT.a := by
    unfold lossField
    split_ifs <;> decide
  have hfull (b : Bool) (k : Nat) :
      TableOnly c (if b then (c.bump (lossField k) 1).event TLM_EVENT.LOG_LOSS else c) := by
    split
    · exact (tableOnly_setF (hloss k)).trans (tableOnly_event (.inl (by decide)))
    · exact .refl
  unfold Machine.Core.logRecord
  dsimp only
  refine TableOnly.trans ?_ (tableOnly_setF (by decide))
  refine TableOnly.trans (hfull (decide (2048 ≤ c.tlm.log.length)) (dropLog c.tlm.log).2) ?_
  exact tableOnly_tlm rfl

theorem tableOnly_refreshAlarms : TableOnly c c.refreshAlarms := by
  have hstatus : TableOnly c ((c.setF TLM_STATUS.ALARMS c.tlm.alarms.length).setFlag TLM_STATUS.FOLDING
      (decide (448 ≤ keyedCount c.tlm.alarms))) :=
    (tableOnly_setF (by decide)).trans (tableOnly_setF (by decide))
  unfold Machine.Core.refreshAlarms
  dsimp only
  split
  · exact hstatus.trans (tableOnly_tlm rfl)
  · exact hstatus

theorem tableOnly_logAlarm {a : Alarm} : TableOnly c (c.logAlarm a n) := tableOnly_logRecord

theorem tableOnly_raiseEntry : TableOnly c (c.raiseEntry nm inst data present) := by
  have hnew {k : Nat} {b : Bool} {l : List Nat} : TableOnly c (c.newAlarm nm k b data present l) := by
    unfold Machine.Core.newAlarm
    refine TableOnly.trans ?_ tableOnly_refreshAlarms
    refine TableOnly.trans ?_ tableOnly_logAlarm
    exact tableOnly_tlm rfl
  have hrepeat {a : Alarm} : TableOnly c (c.repeatAlarm a inst data present) := by
    unfold Machine.Core.repeatAlarm
    dsimp only
    generalize replaceAlarm _ _ = l
    split
    · refine TableOnly.trans ?_ tableOnly_logAlarm
      exact tableOnly_tlm rfl
    · exact tableOnly_tlm rfl
  unfold Machine.Core.raiseEntry
  split
  · exact hrepeat
  · split <;> exact hnew

/-- Raising an alarm. -/
theorem tableOnly_raise : TableOnly c (c.raise nm inst data present) := by
  have hnote (x : Machine.Core) : TableOnly x (if nm.cls = .c then x else x.event MBX_EVENT.ALARM) := by
    split
    · exact .refl
    · exact tableOnly_event (.inr (by decide))
  have hfold (x : Machine.Core) : TableOnly x (({ x with tlm := { x.tlm with foldEpisode := true } }.event
      TLM_EVENT.ALARM_FOLD).raiseEntry .alarmTableFold 0xFFFF [0, 0, 0] false) := by
    refine TableOnly.trans ?_ tableOnly_raiseEntry
    refine TableOnly.trans ?_ (tableOnly_event (.inl (by decide)))
    exact tableOnly_tlm rfl
  have hentry := tableOnly_raiseEntry (c := c) (nm := nm) (inst := inst) (data := Machine.Core.raise.fit3 data)
    (present := present)
  unfold Machine.Core.raise
  dsimp only
  split
  · exact (hentry.trans (hnote _)).trans (hfold _)
  · exact hentry.trans (hnote _)

/-- The end of a cause. -/
theorem tableOnly_clearCause : TableOnly c (c.clearCause nm inst) := by
  unfold Machine.Core.clearCause
  split
  · exact .refl
  · dsimp only
    refine TableOnly.trans ?_ tableOnly_refreshAlarms
    refine TableOnly.trans ?_ (tableOnly_tlm rfl)
    split
    · exact .refl
    · exact tableOnly_logRecord

theorem TableOnly.scrubAddr (h : TableOnly c d) : d.tlm.scrubAddr = c.tlm.scrubAddr := (congrArg Tlm.scrubAddr h.apart :)

theorem TableOnly.mramAddr (h : TableOnly c d) : d.tlm.mramAddr = c.tlm.mramAddr := (congrArg Tlm.mramAddr h.apart :)

theorem TableOnly.calLast (h : TableOnly c d) : d.tlm.calLast = c.tlm.calLast := (congrArg Tlm.calLast h.apart :)

theorem TableOnly.flag (h : TableOnly c d) (hf : f.addr = TLM_EVENT.a) (hlo : 3 ≤ f.lo) : d.flag f = c.flag f :=
  flag_of_getF (h.events f hf hlo)

/-! ### Counting (R384, R385) -/

theorem getF_modTlm {g : Tlm → Tlm} : (c.modTlm g).getF f = c.getF f := rfl

theorem getF_bump (h : f.lo + f.len ≤ 32) : (c.bump f n).getF f = satN f.len (c.getF f + n) := by
  have hsat : satN f.len (c.getF f + n) < 2 ^ f.len := by
    have := Nat.two_pow_pos f.len
    unfold satN
    omega
  rw [Machine.Core.bump, getF_setF_same h, Nat.mod_eq_of_lt hsat]

theorem flag_event_other {g : Field} (h : g.addr ≠ f.addr) : (c.event f).flag g = c.flag g :=
  flag_of_reg (reg_event_other h)

/-- A record of the trace ring that is lost leaves the alarms, the scrubber and its events. -/
theorem traceDiscard_spec : (c.traceDiscard i).tlm.scrubAddr = c.tlm.scrubAddr ∧
    (c.traceDiscard i).tlm.alarms = c.tlm.alarms ∧
    (c.traceDiscard i).flag TLM_EVENT.SCRUB_UE = c.flag TLM_EVENT.SCRUB_UE := by
  unfold Machine.Core.traceDiscard
  split
  · exact ⟨rfl, rfl, rfl⟩
  · refine ⟨by rw [event_tlm, bump_tlm]; rfl, by rw [event_tlm, bump_tlm]; rfl, flag_of_getF ?_⟩
    rw [getF_event_apart fun _ => ⟨.inr (by decide), by decide⟩,
      getF_of_reg (reg_bump_other (by decide)), getF_modTlm]

theorem scrubTrace_spec : (c.scrubTrace n).tlm.scrubAddr = c.tlm.scrubAddr ∧ (c.scrubTrace n).tlm.alarms = c.tlm.alarms ∧
    (c.scrubTrace n).flag TLM_EVENT.SCRUB_UE = c.flag TLM_EVENT.SCRUB_UE := by
  unfold Machine.Core.scrubTrace
  split
  · exact traceDiscard_spec (c := c.fresh)
  · exact ⟨rfl, rfl, rfl⟩

/-! ### Calibration (R386) -/

/-- What a calibration leaves shown: its time, and the urgent slot done. -/
def CalShown (u at_ : Nat) (c : Machine.Core) : Prop :=
  c.flag (CNV_U_EVENT.URGENT_DONE u) = true ∧ c.flag (CNV_U_URG_RESULT.DONE u) = true ∧ c.tlm.calLast.getD u 0 = at_

theorem CalShown.of (h : CalShown v n c) (hregs : ∀ a, a < 0x400C0000 → d.reg a = c.reg a)
    (hlast : d.tlm.calLast = c.tlm.calLast) (hv : v < 3) : CalShown v n d := by
  obtain ⟨hevent, hdone, htime⟩ := h
  refine ⟨(flag_of_reg (hregs _ ?_)).trans hevent, (flag_of_reg (hregs _ ?_)).trans hdone, by rw [hlast]; exact htime⟩
  · dsimp only [CNV_U_EVENT.a]
    omega
  · dsimp only [CNV_U_URG_RESULT.a]
    omega

theorem CalShown.fresh (h : CalShown v n c) : CalShown v n c.fresh := h

theorem calLast_event : (c.event f).tlm.calLast = c.tlm.calLast := rfl

theorem calShown_calRefuse (h : CalShown v n c) (hv : v < 3) : CalShown v n (c.calRefuse v) := by
  have hcounted : CalShown v n (c.modTlm fun t => { t with calRefused := setAt v (c.tlm.calRefused.getD v 0 + 1) t.calRefused }) :=
    h.of (fun _ _ => rfl) rfl hv
  unfold Machine.Core.calRefuse
  dsimp only
  generalize (c.modTlm fun t => { t with calRefused := setAt v (c.tlm.calRefused.getD v 0 + 1) t.calRefused }) = d at hcounted
  split
  · exact hcounted.of (fun a ha => (reg_raise_below ha).trans (reg_event_other (ne_of_lt (ha.trans (by decide)))))
      (tableOnly_raise.calLast.trans calLast_event) hv
  · exact hcounted

/-- A calibration has its readings. -/
def calDone (c : Machine.Core) (v now : Nat) : Machine.Core :=
  let c1 := c.modTlm fun t => { t with calLast := setAt v now t.calLast }
  let c2 := (c1.event (CNV_U_EVENT.URGENT_DONE v)).setF (CNV_U_URG_RESULT.CODE v) (Config.freeWord c1.free).toNat
  (c2.setF (CNV_U_URG_RESULT.DONE v) 1).fresh

/-- What the readings of a calibration decide. -/
def calJudged (c : Machine.Core) (v gnd bandgap r1 r2 : Nat) : Machine.Core :=
  match calPair r1 r2 with
  | none => c.calRefuse v
  | some p => if c.calOk gnd bandgap p then
      ((c.addShadow (.reg (CNV_U_CAL.a v) (putBits (ofS 16 p.2) 16 16 (ofS 16 p.1)))).modTlm fun t =>
        { t with calRefused := setAt v 0 t.calRefused }).clearCause .calOutOfRange v
    else c.calRefuse v

/-- Whether a unit does not calibrate now. -/
def calWaits (c : Machine.Core) (v : Nat) : Bool :=
  !c.flag TLM_CTRL.CAL_EN || (c.unit v).urgent.isSome || decide (c.now < c.tlm.calLast.getD v 0 + 10000000000) ||
    ((c.unit v).phase == 2 || (c.unit v).bg.isSome) && decide (c.now < c.tlm.calLast.getD v 0 + 60000000000)

theorem exec_sarCalibration {s : State} {k : Fin 3} {gnd bandgap r1 r2 : BitVec 16} :
    exec (.sarCalibration k gnd bandgap r1 r2) s = go (fun c _ => if calWaits c k.val then c else
      calJudged (calDone (c.sarInterrupt k.val (2 * c.now)) k.val c.now) k.val gnd.toNat bandgap.toNat r1.toNat
        r2.toNat) s := rfl

theorem calShown_calDone (hlen : v < c.tlm.calLast.length) : CalShown v now (calDone c v now) := by
  have hne : CNV_U_EVENT.a v ≠ CNV_U_URG_RESULT.a v := by
    dsimp only [CNV_U_EVENT.a, CNV_U_URG_RESULT.a]
    omega
  unfold calDone
  dsimp only
  generalize hd : (c.modTlm fun t => { t with calLast := setAt v now t.calLast }) = d
  have hlast : d.tlm.calLast = setAt v now c.tlm.calLast := by rw [← hd]; rfl
  have hevent := flag_event_same (c := d) (f := CNV_U_EVENT.URGENT_DONE v) (show 7 + 1 ≤ 32 by decide) rfl
  generalize (Config.freeWord d.free).toNat = k
  have hlast' : (d.event (CNV_U_EVENT.URGENT_DONE v)).tlm.calLast = setAt v now c.tlm.calLast := by rw [event_tlm, hlast]
  generalize d.event (CNV_U_EVENT.URGENT_DONE v) = e at hevent hlast'
  refine CalShown.fresh ⟨?_, ?_, ?_⟩
  · have hother {x : Machine.Core} {f : Field} {w : Nat} (hf : f.addr = CNV_U_URG_RESULT.a v) :
        (x.setF f w).flag (CNV_U_EVENT.URGENT_DONE v) = x.flag (CNV_U_EVENT.URGENT_DONE v) :=
      flag_of_getF (getF_setF_other (by rw [hf]; exact hne))
    exact (hother rfl).trans ((hother rfl).trans hevent)
  · exact flag_setF_same (f := CNV_U_URG_RESULT.DONE v) (show 16 + 1 ≤ 32 by decide) rfl
  · rw [setF_tlm, setF_tlm, hlast', getD_setAt_same hlen]

theorem calShown_calJudged {now gnd bandgap r1 r2 : Nat} (h : CalShown v now c) (hv : v < 3) :
    CalShown v now (calJudged c v gnd bandgap r1 r2) := by
  unfold calJudged
  split
  · exact calShown_calRefuse h hv
  · split
    · refine CalShown.of ?_ (fun a ha => reg_clearCause_below ha) tableOnly_clearCause.calLast hv
      exact h.of (fun _ _ => rfl) rfl hv
    · exact calShown_calRefuse h hv

/-! ### Equalisation (R388) -/

theorem tlm_modLane {g : Lane → Lane} : (c.modLane n g).tlm = c.tlm := rfl

theorem eq_setEqCode {which : Nat} : (c.setEqCode n which v).tlm.eq = c.tlm.eq ∧
    (c.setEqCode n which v).tlm.eqLast = c.tlm.eqLast := by
  unfold Machine.Core.setEqCode
  split
  · exact ⟨rfl, rfl⟩
  · split
    · exact ⟨congrArg Tlm.eq (setF_tlm _ _ _), congrArg Tlm.eqLast (setF_tlm _ _ _)⟩
    · exact ⟨congrArg Tlm.eq (setF_tlm _ _ _), congrArg Tlm.eqLast (setF_tlm _ _ _)⟩
    · dsimp only
      rw [tlm_modLane]
      exact ⟨rfl, rfl⟩

theorem eq_setTrial {t : Option EqTrial} (h : n < c.tlm.eq.length) : (c.setTrial n t).tlm.eq.getD n none = t :=
  getD_setAt_same h

/-- An injector that is not active stays so. -/
theorem injSettle_inactive (h : c.flag (LNK_LANE_INJ_STATUS.ACTIVE n) = false) : c.injSettle n = c := by
  rw [Machine.Core.injSettle, Machine.Core.injDown, h]
  rfl

end Telemetry

/-! ### The events -/
section Clauses
variable (s : State)

theorem gives_scrubStep (err : EccResult) (h : s.core.flag TLM_CTRL.SCRUB_EN = true) :
    Gives (.scrubStep err) s fun t =>
      t.tlm.scrubAddr = (s.core.tlm.scrubAddr + 1) % 2621440 ∧
      (err = .corrected → t.flag TLM_EVENT.SCRUB_CE = true ∧ t.getF TLM_SCRUB.CE = satN TLM_SCRUB.CE.len
        (s.core.getF TLM_SCRUB.CE + 1)) ∧
      (err = .uncorrectable → t.flag TLM_EVENT.SCRUB_UE = true ∧ Listed t .memoryUncorrectable 0xFFFF
        [scrubWord s.core.tlm.scrubAddr]) := by
  refine gives_of_effect rfl ?_ fun _ h => h
  dsimp only
  rw [if_neg (by rw [show (Laws.start s.core).flag TLM_CTRL.SCRUB_EN = true from h]; decide)]
  cases err with
  | clean => exact ⟨rfl, nofun, nofun⟩
  | corrected =>
    refine ⟨by rw [event_tlm, bump_tlm]; rfl, fun _ => ⟨flag_event_same (by decide) rfl, ?_⟩, nofun⟩
    exact (getF_of_reg (reg_event_other (by decide))).trans (getF_bump (by decide))
  | uncorrectable =>
    dsimp only
    generalize hd : ((Laws.start s.core).modTlm fun t =>
      { t with scrubAddr := ((Laws.start s.core).tlm.scrubAddr + 1) % 2621440 }).bump TLM_SCRUB.UE 1 = d
    have haddr : d.tlm.scrubAddr = (s.core.tlm.scrubAddr + 1) % 2621440 := by rw [← hd, bump_tlm]; rfl
    have hraise := tableOnly_raise (c := d.event TLM_EVENT.SCRUB_UE) (nm := .memoryUncorrectable) (inst := 0xFFFF)
      (data := [scrubWord (Laws.start s.core).tlm.scrubAddr]) (present := false)
    obtain ⟨hsame, halarms, hflag⟩ := scrubTrace_spec (n := (Laws.start s.core).tlm.scrubAddr)
      (c := (d.event TLM_EVENT.SCRUB_UE).raise .memoryUncorrectable 0xFFFF [scrubWord (Laws.start s.core).tlm.scrubAddr] false)
    refine ⟨hsame.trans (hraise.scrubAddr.trans haddr), nofun, fun _ => ⟨?_, ?_⟩⟩
    · exact (hflag.trans (hraise.flag rfl (by decide))).trans (flag_event_same (by decide) rfl)
    · obtain ⟨a, ha, hrest⟩ := raise_listed (c := d.event TLM_EVENT.SCRUB_UE) (nm := .memoryUncorrectable) (inst := 0xFFFF)
        (data := [scrubWord (Laws.start s.core).tlm.scrubAddr]) (present := false) (by decide)
      exact ⟨a, by rw [halarms]; exact ha, hrest⟩

theorem gives_mramReadCheck (err : EccResult) (h : s.core.lgr.running = false) :
    Gives (.mramReadCheck err) s fun t =>
      t.tlm.mramAddr = (s.core.tlm.mramAddr + 32) % 0x1000000 ∧
      (err = .corrected → t.flag TLM_EVENT.MRAM_CE = true) ∧
      (err = .uncorrectable → t.flag TLM_EVENT.MRAM_UE = true ∧ Listed t .mramUncorrectable 0xFFFF
        [0x30000000 + s.core.tlm.mramAddr]) := by
  refine gives_of_effect rfl ?_ fun _ h => h
  dsimp only
  rw [if_neg (by rw [show (Laws.start s.core).lgr.running = false from h]; simp)]
  cases err with
  | clean => exact ⟨rfl, nofun, nofun⟩
  | corrected => exact ⟨rfl, fun _ => flag_event_same (by decide) rfl, nofun⟩
  | uncorrectable =>
    dsimp only
    generalize hd : ((Laws.start s.core).modTlm fun t =>
      { t with mramAddr := (t.mramAddr + 32) % 0x1000000 }).bump TLM_MRAM.UE 1 = d
    have haddr : d.tlm.mramAddr = (s.core.tlm.mramAddr + 32) % 0x1000000 := by rw [← hd]; rfl
    have hraise := tableOnly_raise (c := d.event TLM_EVENT.MRAM_UE) (nm := .mramUncorrectable) (inst := 0xFFFF)
      (data := [0x30000000 + (Laws.start s.core).tlm.mramAddr]) (present := false)
    have hlisted := raise_listed (c := d.event TLM_EVENT.MRAM_UE) (nm := .mramUncorrectable) (inst := 0xFFFF)
      (data := [0x30000000 + (Laws.start s.core).tlm.mramAddr]) (present := false) (by decide)
    have hshown : (d.event TLM_EVENT.MRAM_UE).flag TLM_EVENT.MRAM_UE = true := flag_event_same (by decide) rfl
    have haddr' : (d.event TLM_EVENT.MRAM_UE).tlm.mramAddr = d.tlm.mramAddr := rfl
    generalize (d.event TLM_EVENT.MRAM_UE).raise .mramUncorrectable 0xFFFF [0x30000000 + (Laws.start s.core).tlm.mramAddr]
      false = e at hraise hlisted
    have hflag := (hraise.flag (f := TLM_EVENT.MRAM_UE) rfl (by decide)).trans hshown
    split
    · exact ⟨hraise.mramAddr.trans (haddr'.trans haddr), nofun, fun _ => ⟨hflag, hlisted⟩⟩
    · rename_i k _
      have hslot : TableOnly e (e.setSlot k slDAMAGED false) := by
        refine ⟨rfl, fun f hf _ => ?_⟩
        unfold Machine.Core.setSlot
        dsimp only
        split <;> exact getF_setF_other (by rw [hf]; decide)
      have hfw := hslot.trans (tableOnly_raise (nm := .fwSlotDamaged) (inst := 0xFFFF) (data := [k]) (present := true))
      refine ⟨hfw.mramAddr.trans (hraise.mramAddr.trans (haddr'.trans haddr)), nofun, fun _ =>
        ⟨(hfw.flag rfl (by decide)).trans hflag, ?_⟩⟩
      obtain ⟨a, ha, hname, hrest⟩ := hlisted
      exact ⟨a, (raise_other (by rw [hname]; decide) (by rw [hname]; decide)).mpr ha, hname, hrest⟩

theorem gives_sarCalibration (k : Fin 3) (gnd bandgap r1 r2 : BitVec 16)
    (h : s.core.flag TLM_CTRL.CAL_EN = true ∧ (s.core.unit k.val).urgent = none ∧ (s.core.unit k.val).phase = 0 ∧
      (s.core.unit k.val).bg = none)
    (hdue : s.core.tlm.calLast.length = 3 ∧ s.core.tlm.calLast.getD k.val 0 + 10000000000 ≤ s.core.now) :
    Gives (.sarCalibration k gnd bandgap r1 r2) s fun t =>
      t.flag (CNV_U_EVENT.URGENT_DONE k.val) = true ∧ t.flag (CNV_U_URG_RESULT.DONE k.val) = true ∧
      t.tlm.calLast.getD k.val 0 = s.core.now := by
  obtain ⟨hen, hurgent, hphase, hbg⟩ := h
  obtain ⟨hlen, hlast⟩ := hdue
  have hgo : calWaits (Laws.start s.core) k.val = false := by
    unfold calWaits
    rw [show (Laws.start s.core).flag TLM_CTRL.CAL_EN = true from hen,
      show ((Laws.start s.core).unit k.val).urgent = none from hurgent,
      show ((Laws.start s.core).unit k.val).phase = 0 from hphase, show ((Laws.start s.core).unit k.val).bg = none from hbg,
      decide_eq_false (show ¬ (Laws.start s.core).now < (Laws.start s.core).tlm.calLast.getD k.val 0 + 10000000000
        from Nat.not_lt.mpr hlast)]
    rfl
  have hidle : (Laws.start s.core).sarInterrupt k.val (2 * (Laws.start s.core).now) = Laws.start s.core :=
    if_neg (by rw [show ((Laws.start s.core).unit k.val).phase = 0 from hphase]; decide)
  refine gives_of_effect exec_sarCalibration ?_ fun _ h => h
  rw [hgo, if_neg (by decide), hidle]
  exact calShown_calJudged (calShown_calDone (k.isLt.trans_eq hlen.symm)) k.isLt

theorem gives_thresholdTracking
    (h : s.core.flag TLM_CTRL.THR_EN = true ∧ s.core.tlm.thrLast + 100000000 ≤ s.core.now) :
    Gives .thresholdTracking s fun t => t.tlm.thrLast = s.core.now := by
  refine gives_of_effect rfl ?_ fun _ h => h
  rw [if_pos (by
    rw [show (Laws.start s.core).flag TLM_CTRL.THR_EN = true from h.1, Bool.true_and, decide_eq_true_iff]
    exact h.2)]
  rfl

theorem gives_eqTrialStart (l : Fin 128)
    (h : s.core.laneState l.val = 2 ∧ s.core.flag (LNK_LANE_EQ.AUTO l.val) = true ∧ s.core.tlm.eq.length = 2 ∧
      s.core.tlm.eq.getD (l.val / 64) none = none ∧ s.core.flag (LNK_LANE_INJ_STATUS.ACTIVE l.val) = false)
    (hdue : mapGet (fun _ => 0) s.core.tlm.eqLast l.val = 0 ∨
      mapGet (fun _ => 0) s.core.tlm.eqLast l.val + 180000000000 ≤ s.core.now + 1) :
    Gives (.eqTrialStart l) s fun t =>
      t.tlm.eq.getD (l.val / 64) none = some ⟨l.val, mapGet (fun _ => 0) s.core.tlm.eqNext l.val % 4, 0,
        s.core.eqCode l.val (mapGet (fun _ => 0) s.core.tlm.eqNext l.val % 4), [(s.core.lane l.val).errors, 0, 0], s.core.now⟩ ∧
      mapGet (fun _ => 0) t.tlm.eqLast l.val = s.core.now + 1 := by
  obtain ⟨hvalid, hauto, hlen, hnone, hinj⟩ := h
  have hisl : l.val / 64 < (Laws.start s.core).tlm.eq.length := by
    rw [show (Laws.start s.core).tlm.eq.length = 2 from hlen]
    have := l.isLt
    omega
  have hactive : ((Laws.start s.core).injSettle l.val).flag (LNK_LANE_INJ_STATUS.ACTIVE l.val) = false := by
    rw [injSettle_inactive (c := Laws.start s.core) hinj]
    exact hinj
  refine gives_of_effect rfl ?_ fun _ h => h
  dsimp only
  rw [if_pos ⟨hvalid, hauto, by rw [show (Laws.start s.core).tlm.eq.getD (l.val / 64) none = none from hnone]; rfl,
    by rw [hactive]; rfl, hdue⟩]
  constructor
  · show ((((Laws.start s.core).setTrial (l.val / 64) _).setEqCode l.val _ _).tlm.eq).getD (l.val / 64) none = _
    rw [eq_setEqCode.1, eq_setTrial hisl]
    rfl
  · show mapGet (fun _ => 0) (mapSet (fun _ => 0) _ l.val ((Laws.start s.core).now + 1)) l.val = _
    rw [mapGet_mapSet, if_pos rfl]
    rfl

theorem gives_eqTrialStep_first (isl : Fin 2) (x : EqTrial)
    (h : s.core.tlm.eq.length = 2 ∧ s.core.tlm.eq.getD isl.val none = some x ∧ x.stepAt + 1000000000 ≤ s.core.now ∧
      x.phase = 0) :
    Gives (.eqTrialStep isl) s fun t =>
      t.tlm.eq.getD isl.val none = some { x with phase := 1, stepAt := s.core.now } := by
  obtain ⟨hlen, htrial, hdue, hphase⟩ := h
  refine gives_of_effect rfl ?_ fun _ h => h
  rw [show (Laws.start s.core).tlm.eq.getD isl.val none = some x from htrial]
  dsimp only
  rw [if_neg (show ¬ (Laws.start s.core).now < x.stepAt + 1000000000 from Nat.not_lt.mpr hdue), if_pos hphase, eq_setEqCode.1, eq_setTrial (c := Laws.start s.core) (isl.isLt.trans_eq hlen.symm)]
  rfl

theorem gives_eqTrialStep_last (isl : Fin 2) (x : EqTrial)
    (h : s.core.tlm.eq.length = 2 ∧ s.core.tlm.eq.getD isl.val none = some x ∧ x.stepAt + 1000000000 ≤ s.core.now ∧
      x.phase ≠ 0) :
    Gives (.eqTrialStep isl) s fun t => t.tlm.eq.getD isl.val none = none := by
  obtain ⟨hlen, htrial, hdue, hphase⟩ := h
  refine gives_of_effect rfl ?_ fun _ h => h
  rw [show (Laws.start s.core).tlm.eq.getD isl.val none = some x from htrial]
  dsimp only
  rw [if_neg (show ¬ (Laws.start s.core).now < x.stepAt + 1000000000 from Nat.not_lt.mpr hdue), if_neg hphase, eq_setEqCode.1, eq_setTrial (c := Laws.start s.core) (isl.isLt.trans_eq hlen.symm)]

theorem gives_wearUpdate (h : s.core.flag TLM_CTRL.WEAR_EN = true ∧ s.core.tlm.wearLast + 60000000000 ≤ s.core.now) :
    Gives .wearUpdate s fun t => t.tlm.wearLast = s.core.now := by
  refine gives_of_effect rfl ?_ fun _ h => h
  rw [if_pos (by
    rw [show (Laws.start s.core).flag TLM_CTRL.WEAR_EN = true from h.1, Bool.true_and, decide_eq_true_iff]
    exact h.2)]
  rfl

theorem gives_traceSample (h : s.core.flag TLM_CTRL.TRACE_EN = true ∧ s.core.tlm.traceDiv ≤ s.core.modu.period) :
    Gives .traceSample s fun t => t.tlm.traceDiv = s.core.modu.period + max 1 (u16 s.core.tlmP 10) := by
  refine gives_of_effect rfl ?_ fun _ h => h
  rw [if_pos (by
    rw [show (Laws.start s.core).flag TLM_CTRL.TRACE_EN = true from h.1, Bool.true_and, decide_eq_true_iff]
    exact h.2)]
  rfl

end Clauses

/-- Settles O20: an alarm leaves the scrubber's, the check's and the calibration's times and events (`tableOnly_raise`), and a
trial's code leaves the trial (`eq_setEqCode`). -/
theorem backgroundEvents : Obligations.BackgroundEvents := by
  unfold Obligations.BackgroundEvents
  exact ⟨gives_scrubStep, gives_mramReadCheck, gives_sarCalibration, gives_thresholdTracking, gives_eqTrialStart,
    gives_eqTrialStep_first, gives_eqTrialStep_last, gives_wearUpdate, gives_traceSample⟩

end Sys2Proof.Proofs
end

