-- ==== Sys2Proof/Proofs/ConversionUnits.lean ====
section
/-! The SAR units: what a unit converts next, its triggers and its urgent requests, and the dwells of the auxiliary channels
(R290 to R297, R307). -/
namespace Sys2Proof.Proofs
open Sys2Proof.Machine Sys2Proof.Claims Sys2Proof.Laws

section Units
variable {c d e : Machine.Core} {f : Field} {u n t : Nat} {x : SarUnit}

/-! ### The state of a unit -/

theorem unit_setUnit : (c.setUnit u x).unit u = x := mapGet_mapSet.trans (if_pos rfl)

theorem unit_of_cnv (h : d.cnv = c.cnv) : d.unit u = c.unit u := by
  rw [Machine.Core.unit, h]
  rfl

/-- STATUS is all that a unit's state shows. -/
theorem within_sarStatus : Within {} (· == CNV_U_STATUS.a u) c (c.sarStatus u) := by
  have hput {d : Machine.Core} {f : Field} {v : Nat} (hf : f.addr = CNV_U_STATUS.a u) :
      Within {} (· == CNV_U_STATUS.a u) d (d.setF f v) := within_setF (beq_iff_eq.mpr hf)
  have hwork (d : Machine.Core) : Within {} (· == CNV_U_STATUS.a u) d
      (if (c.unit u).phase = 1 ∨ (c.unit u).phase = 2 then
        (d.setF (CNV_U_STATUS.ENTRY u) (c.unit u).work.entry).setF (CNV_U_STATUS.REMAIN u) (c.unit u).work.left
      else match (c.unit u).bg with
        | some (w, _) => (d.setF (CNV_U_STATUS.ENTRY u) w.entry).setF (CNV_U_STATUS.REMAIN u) w.left
        | none => d.setF (CNV_U_STATUS.REMAIN u) 0) := by
    split
    · exact (hput rfl).trans (hput rfl)
    · split
      · exact (hput rfl).trans (hput rfl)
      · exact hput rfl
  exact ((((hput rfl).trans (hput rfl)).trans (hwork _)).trans (hput rfl)).trans (hput rfl)

theorem cnv_of_within {W : Nat → Bool} (h : Within {} W c d) : d.cnv = c.cnv :=
  (congrArg (fun x : Machine.Core => x.cnv) h.1 :)

theorem cnv_sarStatus : (c.sarStatus u).cnv = c.cnv := cnv_of_within within_sarStatus

theorem unit_sarStatus : (c.sarStatus u).unit n = c.unit n := unit_of_cnv cnv_sarStatus

theorem unit_putUnit : (c.putUnit u x).unit u = x := unit_sarStatus.trans unit_setUnit

theorem reg_putUnit {a : Nat} (h : a ≠ CNV_U_STATUS.a u) : (c.putUnit u x).reg a = c.reg a :=
  within_sarStatus.2 a (beq_eq_false_iff_ne.mpr h)

/-! ### What the timing of a unit depends on -/

/-- The time, the mode, and every register but STATUS and EVENT of the unit are as before. -/
structure SameTiming (u : Nat) (c d : Machine.Core) : Prop where
  now : d.now = c.now
  mode : d.mode = c.mode
  regs : ∀ a, a ≠ CNV_U_STATUS.a u → a ≠ CNV_U_EVENT.a u → d.reg a = c.reg a

theorem SameTiming.trans (h : SameTiming u c d) (k : SameTiming u d e) : SameTiming u c e :=
  ⟨k.now.trans h.now, k.mode.trans h.mode, fun a hs he => (k.regs a hs he).trans (h.regs a hs he)⟩

theorem sameTiming_setUnit : SameTiming u c (c.setUnit n x) := ⟨rfl, rfl, fun _ _ _ => rfl⟩

theorem sameTiming_sarStatus : SameTiming u c (c.sarStatus u) :=
  ⟨(congrArg (fun x : Machine.Core => x.now) (within_sarStatus (c := c) (u := u)).1 :),
    (congrArg (fun x : Machine.Core => x.mode) (within_sarStatus (c := c) (u := u)).1 :),
    fun a hs _ => within_sarStatus.2 a (beq_eq_false_iff_ne.mpr hs)⟩

theorem sameTiming_putUnit : SameTiming u c (c.putUnit u x) :=
  sameTiming_setUnit.trans sameTiming_sarStatus

theorem sameTiming_sarAbort : SameTiming u c (c.sarAbort u t) := by
  unfold Machine.Core.sarAbort
  dsimp only
  split
  · exact ⟨rfl, rfl, fun a _ he => reg_event_other (f := CNV_U_EVENT.ABORTED u) he⟩
  · exact ⟨rfl, rfl, fun _ _ _ => rfl⟩

/-- A field of neither register. -/
def TimingField (u : Nat) (f : Field) : Prop := f.addr ≠ CNV_U_STATUS.a u ∧ f.addr ≠ CNV_U_EVENT.a u

theorem SameTiming.getF (h : SameTiming u c d) (hf : TimingField u f) : d.getF f = c.getF f :=
  getF_of_reg (h.regs _ hf.1 hf.2)

theorem timingField_table {k : Nat} : TimingField u (CNV_U_E_CH.SAMPLE u k) ∧ TimingField u (CNV_U_E_CH.REPEAT u k) := by
  dsimp only [TimingField, CNV_U_E_CH.SAMPLE, CNV_U_E_CH.REPEAT, CNV_U_E_CH.a, CNV_U_STATUS.a, CNV_U_EVENT.a]
  omega

theorem timingField_ctrl (h : f.addr = CNV_U_CTRL.a u) : TimingField u f := by
  dsimp only [TimingField, CNV_U_CTRL.a, CNV_U_STATUS.a, CNV_U_EVENT.a] at h ⊢
  omega

theorem timingField_low (h : f.addr < 0x400B0000) : TimingField u f := by
  dsimp only [TimingField, CNV_U_STATUS.a, CNV_U_EVENT.a]
  omega

theorem SameTiming.sarLp (h : SameTiming u c d) : d.sarLp u = c.sarLp u := by
  have hen : d.flag (CNV_U_CTRL.LP_EN u) = c.flag (CNV_U_CTRL.LP_EN u) := flag_of_getF (h.getF (timingField_ctrl rfl))
  rw [Machine.Core.sarLp, h.mode, h.now, hen]
  rfl

theorem SameTiming.sarCycle (h : SameTiming u c d) : d.sarCycle u = c.sarCycle u := by
  have hbypass : d.onBypass 7 = c.onBypass 7 := by
    have hshown : d.getF CLK_STATUS.ON_BYPASS = c.getF CLK_STATUS.ON_BYPASS := h.getF (timingField_low (by decide))
    rw [Machine.Core.onBypass, hshown]
    rfl
  rw [Machine.Core.sarCycle, h.sarLp, hbypass]
  rfl

theorem SameTiming.sarEdge (h : SameTiming u c d) : d.sarEdge u t = c.sarEdge u t := by
  rw [Machine.Core.sarEdge, h.sarCycle]
  rfl

theorem SameTiming.acqTime (h : SameTiming u c d) {k : Nat} : d.acqTime u k = c.acqTime u k := by
  rw [Machine.Core.acqTime, Machine.Core.acqCycles, h.sarLp, h.sarCycle, h.getF timingField_table.1]
  rfl

/-! ### The resolver pair (R241) -/

theorem pairCatch_idle (h : u = 0 → c.pairDue = none) : c.pairCatch u = c := by
  unfold Machine.Core.pairCatch
  split
  · rename_i hu
    rw [h hu.1]
  · rfl

/-- A unit that converts an urgent request takes no pair. -/
theorem pairCatch_busy (h : (c.unit u).phase = 3) : c.pairCatch u = c :=
  if_neg fun ⟨hu, hphase⟩ => by
    rw [hu] at h
    rw [h] at hphase
    exact absurd hphase (by decide)

theorem urgent_sarAbort : ((c.sarAbort u t).unit u).urgent = (c.unit u).urgent := by
  unfold Machine.Core.sarAbort
  dsimp only
  split
  · exact (congrArg SarUnit.urgent ((unit_of_cnv (event_cnv _ _)).trans unit_setUnit)).trans rfl
  · rfl

theorem urgent_pairBegin {a : Nat} : ((c.pairBegin n t a).unit 0).urgent = (c.unit 0).urgent := by
  have hunit : (c.pairBegin n t a).unit 0 = _ := unit_putUnit
  rw [hunit]

theorem urgent_pairCatch : ((c.pairCatch u).unit u).urgent = (c.unit u).urgent := by
  unfold Machine.Core.pairCatch
  split
  · rename_i hu
    split
    · rw [hu.1, urgent_pairBegin, urgent_sarAbort]
    · rfl
  · rfl

/-- The latest peak is due by the time, the excitation and the peak served. -/
theorem pairDue_of (hnow : d.now = c.now) (hfbk : d.fbk = c.fbk) (hexc : d.reg FBK_CTRL.a = c.reg FBK_CTRL.a)
    (hphase : d.reg FBK_RES_PHASE.a = c.reg FBK_RES_PHASE.a) (hpwr : d.reg PWR_STATUS.a = c.reg PWR_STATUS.a) :
    d.pairDue = c.pairDue := by
  have hsel : d.tExc = c.tExc := by
    have hf : d.getF FBK_CTRL.EXC_SEL = c.getF FBK_CTRL.EXC_SEL := getF_of_reg hexc
    rw [Machine.Core.tExc, hf]
    rfl
  have hdelay : d.getF FBK_RES_PHASE.EXC_DELAY = c.getF FBK_RES_PHASE.EXC_DELAY := getF_of_reg hphase
  have hrun : d.excitation = c.excitation := by
    have hon : d.domainOn 6 = c.domainOn 6 := getBit_of_reg hpwr
    have hf : d.flag FBK_CTRL.RES_EN = c.flag FBK_CTRL.RES_EN := flag_of_reg hexc
    rw [Machine.Core.excitation, hon, hf]
    rfl
  have hpeak : d.peak d.now = c.peak c.now := by
    rw [Machine.Core.peak, hsel, hdelay, hnow]
    rfl
  rw [Machine.Core.pairDue, hpeak, hrun, hfbk]
  rfl

/-! ### The urgent slot while the unit goes on (R297) -/

/-- The unit's urgent slot, its result and the event of that are as before. -/
structure UrgentKept (u : Nat) (c d : Machine.Core) : Prop where
  urgent : (d.unit u).urgent = (c.unit u).urgent
  result : d.reg (CNV_U_URG_RESULT.a u) = c.reg (CNV_U_URG_RESULT.a u)
  done : d.flag (CNV_U_EVENT.URGENT_DONE u) = c.flag (CNV_U_EVENT.URGENT_DONE u)

theorem UrgentKept.refl : UrgentKept u c c := ⟨rfl, rfl, rfl⟩

theorem UrgentKept.trans (h : UrgentKept u c d) (k : UrgentKept u d e) : UrgentKept u c e :=
  ⟨k.urgent.trans h.urgent, k.result.trans h.result, k.done.trans h.done⟩

theorem urgentKept_setUnit (h : x.urgent = (c.unit u).urgent) : UrgentKept u c (c.setUnit u x) :=
  ⟨(congrArg SarUnit.urgent unit_setUnit).trans h, rfl, rfl⟩

theorem urgentKept_setReg {a : Nat} {w : Word} (hr : CNV_U_URG_RESULT.a u ≠ a) (he : CNV_U_EVENT.a u ≠ a) :
    UrgentKept u c (c.setReg a w) := ⟨rfl, reg_setReg_other hr, flag_of_reg (reg_setReg_other he)⟩

theorem urgentKept_putUnit (h : x.urgent = (c.unit u).urgent) : UrgentKept u c (c.putUnit u x) := by
  refine (urgentKept_setUnit h).trans ⟨congrArg SarUnit.urgent unit_sarStatus, ?_, flag_of_reg ?_⟩
  · refine within_sarStatus.2 _ (beq_eq_false_iff_ne.mpr ?_)
    dsimp only [CNV_U_URG_RESULT.a, CNV_U_STATUS.a]
    omega
  · refine within_sarStatus.2 _ (beq_eq_false_iff_ne.mpr ?_)
    dsimp only [CNV_U_EVENT.a, CNV_U_STATUS.a]
    omega

theorem urgentKept_overflow : UrgentKept u c (c.event (CNV_U_EVENT.OVERFLOW u)) := by
  refine ⟨rfl, reg_event_other ?_, flag_of_getF (getF_event_apart fun _ => ⟨?_, ?_⟩)⟩
  · dsimp only [CNV_U_URG_RESULT.a, CNV_U_EVENT.a]
    omega
  · exact .inr (show 5 + 1 ≤ 7 by decide)
  · exact show 5 + 1 ≤ 32 by decide

theorem urgentKept_channel {k st : Nat} (hu : u < 4) : UrgentKept u c (c.setCh k st) := by
  have hput {d : Machine.Core} {f : Field} {v : Nat} (hf : 0x400C0000 ≤ f.addr) : UrgentKept u d (d.setF f v) := by
    refine urgentKept_setReg ?_ ?_
    · dsimp only [CNV_U_URG_RESULT.a]
      omega
    · dsimp only [CNV_U_EVENT.a]
      omega
  refine (hput ?_).trans (hput (by decide))
  dsimp only [STU_CH_STAT.STATE, STU_CH_STAT.a]
  omega

theorem urgentKept_pushRecord {w0 w1 : Nat} (hu : u < 4) : UrgentKept u c (c.pushRecord u w0 w1) := by
  have hdrop : UrgentKept u c (c.dropRecord u 1) := by
    refine UrgentKept.trans (urgentKept_setReg ?_ ?_) urgentKept_overflow
    · dsimp only [CNV_U_URG_RESULT.a, CNV_U_COUNT.DROPPED, CNV_U_COUNT.a]
      omega
    · dsimp only [CNV_U_EVENT.a, CNV_U_COUNT.DROPPED, CNV_U_COUNT.a]
      omega
  unfold Machine.Core.pushRecord
  dsimp only
  split
  · exact .refl
  · split
    · exact hdrop
    · split
      · refine UrgentKept.trans ?_ (urgentKept_channel hu)
        exact urgentKept_setUnit rfl
      · exact urgentKept_setUnit rfl

theorem urgentKept_sarRecord {w : Nat × Nat} {dma : Bool} (hu : u < 4) : UrgentKept u c (c.sarRecord u w dma) := by
  have hlast (d : Machine.Core) : UrgentKept u d ((d.setReg (CNV_U_LAST.a u) (BitVec.ofNat 32 w.1)).setReg
      (CNV_U_LAST_T.a u) (BitVec.ofNat 32 w.2)) := by
    refine (urgentKept_setReg ?_ ?_).trans (urgentKept_setReg ?_ ?_) <;>
      dsimp only [CNV_U_URG_RESULT.a, CNV_U_EVENT.a, CNV_U_LAST.a, CNV_U_LAST_T.a] <;> omega
  unfold Machine.Core.sarRecord
  dsimp only
  split
  · exact (hlast c).trans (urgentKept_pushRecord hu)
  · exact hlast c

theorem urgentKept_sarResume {w : SarWork} {a : Option Nat} (hu : u < 4) : UrgentKept u c (c.sarResume u w a t) := by
  have hstart : UrgentKept u c (c.setUnit u { c.unit u with bg := none }) := urgentKept_setUnit rfl
  cases a with
  | none => exact hstart.trans (urgentKept_putUnit rfl)
  | some a =>
    unfold Machine.Core.sarResume
    dsimp only
    refine UrgentKept.trans ?_ (urgentKept_putUnit rfl)
    refine UrgentKept.trans ?_ (urgentKept_setUnit rfl)
    exact hstart.trans (urgentKept_sarRecord hu)

theorem urgentKept_pairBegin {a : Nat} : UrgentKept 0 c (c.pairBegin n t a) := by
  unfold Machine.Core.pairBegin
  refine UrgentKept.trans (d := { c with fbk := { c.fbk with pair := some (n, t), served := t } }) ?_ (urgentKept_putUnit rfl)
  exact ⟨rfl, rfl, rfl⟩

/-- What a unit does next leaves its urgent slot. -/
theorem urgentKept_sarNext (hu : u < 4) : UrgentKept u c (c.sarNext u t) := by
  unfold Machine.Core.sarNext
  dsimp only
  split
  · exact urgentKept_putUnit rfl
  · split
    · rename_i hpair
      split at hpair
      · rename_i h0
        rw [h0]
        exact urgentKept_pairBegin
      · exact absurd hpair (by simp)
    · split
      · exact urgentKept_putUnit rfl
      · split
        · exact urgentKept_sarResume hu
        · exact urgentKept_putUnit rfl

/-! ### Triggers (R295, R296) -/

/-- A free unit that is triggered begins its background segment. -/
theorem sarTrigger_free (hpair : u = 0 → c.pairDue = none) (hen : c.flag (CNV_U_CTRL.EN u) = true)
    (hlen : c.fgLen u < c.tableLen u) (hfree : (c.unit u).phase = 0 ∧ (c.unit u).bg = none ∧ (c.unit u).bgEnd = 0) :
    c.sarTrigger u = c.sarEntryStart u 2 (c.fgLen u) (c.sarEdge u (2 * c.now)) := by
  obtain ⟨hphase, hbg, hend⟩ := hfree
  unfold Machine.Core.sarTrigger
  dsimp only
  rw [pairCatch_idle hpair, if_neg (by rw [hen]; simp; omega), if_neg (by rw [hphase, hbg, hend]; simp),
    if_pos (.inr hphase)]

/-- A trigger that finds the segment running is ignored where POLICY is 0. -/
theorem sarTrigger_ignored (hpair : u = 0 → c.pairDue = none) (hen : c.flag (CNV_U_CTRL.EN u) = true)
    (hlen : c.fgLen u < c.tableLen u) (hrun : (c.unit u).phase = 2) (hpolicy : c.getF (CNV_U_CTRL.POLICY u) = 0) :
    c.sarTrigger u = (c.bump (CNV_U_COUNT.IGNORED u) 1).event (CNV_U_EVENT.TRIG_IGNORED u) := by
  unfold Machine.Core.sarTrigger
  dsimp only
  rw [pairCatch_idle hpair, if_neg (by rw [hen]; simp; omega), if_pos (by rw [hrun]; simp), hpolicy]
  rfl

theorem unit_sarEntryStart {phase k : Nat} : ((c.sarEntryStart u phase k t).unit u).phase = phase ∧
    ((c.sarEntryStart u phase k t).unit u).work.entry = k := by
  have hunit : (c.sarEntryStart u phase k t).unit u = _ := unit_putUnit
  rw [hunit]
  exact ⟨rfl, rfl⟩

/-! ### Signed fields of 16 bits -/

theorem getI_setI_16 {y : Int} (hfits : f.lo + f.len ≤ 32) (hlen : f.len = 16) : (c.setI f y).getI f = satS f.len y := by
  have hsat : -32768 ≤ satS 16 y ∧ satS 16 y < 32768 := by
    rw [satS, clampI]
    simp only [Nat.add_one_sub_one, Nat.reducePow]
    omega
  rw [Machine.Core.getI, Machine.Core.setI, getF_setF_same hfits, hlen]
  generalize satS 16 y = z at hsat
  rw [toS, ofS]
  simp only [Nat.reduceSub, Nat.reducePow]
  split <;> omega

theorem auxField_fits {k : Nat} : (auxField n k).lo + (auxField n k).len ≤ 32 ∧ (auxField n k).len = 16 := by
  unfold auxField
  split <;> exact ⟨Nat.le_of_ble_eq_true rfl, rfl⟩

end Units

section Sequences
variable {c d : Machine.Core} {u ch sample si t raw : Nat}

/-! ### The pre-trigger (R293) -/

/-- What the pre-trigger leaves of a unit without foreground work before its next step. -/
theorem sarAbort_idle (h : (c.unit u).phase = 0 ∨ (c.unit u).phase = 2) : ((c.sarAbort u t).unit u).phase = 0 := by
  unfold Machine.Core.sarAbort
  dsimp only
  rcases h with h | h
  · rw [if_neg (by rw [h]; decide)]
    exact h
  · rw [if_pos h]
    exact congrArg SarUnit.phase ((unit_of_cnv (event_cnv _ _)).trans unit_setUnit)

/-- The foreground segment of a unit whose clock runs as in `c` begins. -/
theorem fgBegin_spec (h : SameTiming u c d) (hfg : (d.unit u).fg = []) :
    ((d.fgBegin u si t).unit u).phase = 1 ∧ ((d.fgBegin u si t).unit u).work.entry = 0 ∧
      ((d.fgBegin u si t).unit u).fg = [] ∧
      ((d.fgBegin u si t).unit u).due = c.sarEdge u (max si (t + c.acqTime u 0)) + 16 * c.sarCycle u := by
  have hunit : (d.fgBegin u si t).unit u = _ := unit_putUnit
  rw [hunit]
  exact ⟨rfl, rfl, hfg, by rw [h.sarEdge, h.acqTime, h.sarCycle]⟩

theorem sarNext_foreground (h : (c.unit u).fgWait = some si) : c.sarNext u t = c.fgBegin u si t := by
  rw [Machine.Core.sarNext, h]

/-- The pre-trigger of a unit. -/
def preTriggered (d : Machine.Core) (n : Nat) : Machine.Core :=
  let c := d.pairCatch n
  if !c.flag (CNV_U_CTRL.EN n) ∨ c.sarLp n ∨ 2 * c.now + 1200 < c.sampleHalf ∨ (c.unit n).phase = 1 ∨
      (c.unit n).fgWait.isSome then c
  else
    let e := c.sarAbort n (c.sampleHalf - 1200)
    let y := { e.unit n with fg := [], fgWait := if c.fgLen n = 0 then none else some c.sampleHalf }
    if y.phase = 0 then (e.putUnit n y).sarNext n (c.sampleHalf - 1200) else e.putUnit n y

theorem exec_sarPreTrigger {s : State} {n : Fin 4} : exec (.sarPreTrigger n) s = go (fun d _ => preTriggered d n.val) s := rfl

theorem preTriggered_spec (hen : c.flag (CNV_U_CTRL.EN u) = true) (hlp : c.sarLp u = false) (hlen : c.fgLen u ≠ 0)
    (hdue : c.sampleHalf ≤ 2 * c.now + 1200) (hphase : (c.unit u).phase = 0 ∨ (c.unit u).phase = 2)
    (hwait : (c.unit u).fgWait = none) (hpair : u = 0 → c.pairDue = none) :
    ((preTriggered c u).unit u).phase = 1 ∧ ((preTriggered c u).unit u).work.entry = 0 ∧
      ((preTriggered c u).unit u).fg = [] ∧
      ((preTriggered c u).unit u).due =
        c.sarEdge u (max c.sampleHalf (c.sampleHalf - 1200 + c.acqTime u 0)) + 16 * c.sarCycle u := by
  have hgo : ¬ ((!c.flag (CNV_U_CTRL.EN u)) = true ∨ c.sarLp u = true ∨ 2 * c.now + 1200 < c.sampleHalf ∨
      (c.unit u).phase = 1 ∨ (c.unit u).fgWait.isSome = true) := by
    rw [hen, hlp, hwait]
    simp only [Bool.not_true, Bool.false_eq_true, Option.isSome_none, false_or, or_false, not_or]
    omega
  unfold preTriggered
  dsimp only
  rw [pairCatch_idle hpair, if_neg hgo, if_neg hlen, if_pos (sarAbort_idle hphase)]
  have hsame : SameTiming u c (c.sarAbort u (c.sampleHalf - 1200)) := sameTiming_sarAbort
  generalize c.sarAbort u (c.sampleHalf - 1200) = d at hsame
  rw [sarNext_foreground (congrArg SarUnit.fgWait unit_putUnit)]
  exact fgBegin_spec (hsame.trans sameTiming_putUnit) (congrArg SarUnit.fg unit_putUnit)

/-! ### Urgent conversions (R297) -/

theorem getF_setUnit {x : SarUnit} {f : Field} : (c.setUnit u x).getF f = c.getF f := rfl

theorem flag_setUnit {x : SarUnit} {f : Field} : (c.setUnit u x).flag f = c.flag f := rfl

theorem reg_setUnit {x : SarUnit} {a : Nat} : (c.setUnit u x).reg a = c.reg a := rfl

theorem pairDue_setUnit {x : SarUnit} : (c.setUnit u x).pairDue = c.pairDue :=
  pairDue_of rfl rfl reg_setUnit reg_setUnit reg_setUnit

/-- The result of an urgent conversion is shown. -/
def urgentShown (c : Machine.Core) (u code : Nat) : Machine.Core :=
  ((c.setF (CNV_U_URG_RESULT.CODE u) code).setF (CNV_U_URG_RESULT.DONE u) 1).event (CNV_U_EVENT.URGENT_DONE u)

theorem urgentShown_spec {code : Nat} : (urgentShown c u code).getF (CNV_U_URG_RESULT.CODE u) = code % 2 ^ 16 ∧
    (urgentShown c u code).flag (CNV_U_URG_RESULT.DONE u) = true ∧
    (urgentShown c u code).flag (CNV_U_EVENT.URGENT_DONE u) = true := by
  have hne : CNV_U_URG_RESULT.a u ≠ CNV_U_EVENT.a u := by
    dsimp only [CNV_U_URG_RESULT.a, CNV_U_EVENT.a]
    omega
  refine ⟨?_, ?_, flag_event_same (f := CNV_U_EVENT.URGENT_DONE u) (show 7 + 1 ≤ 32 by decide) rfl⟩
  · refine (getF_of_reg (reg_event_other hne)).trans ((getF_setF_of_apart fun _ => ⟨.inl ?_, ?_⟩).trans (getF_setF_same ?_))
    · exact show 0 + 16 ≤ 16 by decide
    · exact show 16 + 1 ≤ 32 by decide
    · exact show 0 + 16 ≤ 32 by decide
  · exact (flag_of_reg (reg_event_other hne)).trans (flag_setF_same (show 16 + 1 ≤ 32 by decide) rfl)

/-- A conversion of a unit ends. -/
def conversionEnded (d : Machine.Core) (n raw : Nat) : Machine.Core :=
  let c := d.pairCatch n
  if (c.unit n).phase = 0 ∨ (c.unit n).phase = 4 ∨ 2 * c.now < (c.unit n).due then c
  else if (c.unit n).phase = 3 then
    ((urgentShown c n (c.sarCode n raw)).setUnit n { c.unit n with phase := 0, urgent := none }).sarNext n (c.unit n).due
  else c.sarTableDone n (c.sarCode n raw)

theorem exec_sarConversionDone {s : State} {n : Fin 4} {raw : BitVec 16} :
    exec (.sarConversionDone n raw) s = go (fun d _ => conversionEnded d n.val raw.toNat) s := rfl

theorem conversionEnded_spec (hu : u < 4) (hphase : (c.unit u).phase = 3) (hdue : (c.unit u).due ≤ 2 * c.now) :
    (conversionEnded c u raw).getF (CNV_U_URG_RESULT.CODE u) = c.sarCode u raw % 2 ^ 16 ∧
      (conversionEnded c u raw).flag (CNV_U_URG_RESULT.DONE u) = true ∧
      (conversionEnded c u raw).flag (CNV_U_EVENT.URGENT_DONE u) = true ∧
      ((conversionEnded c u raw).unit u).urgent = none := by
  unfold conversionEnded
  dsimp only
  rw [pairCatch_busy hphase, if_neg (by rw [hphase]; omega), if_pos hphase]
  obtain ⟨hcode, hdone, hevent⟩ := urgentShown_spec (c := c) (u := u) (code := c.sarCode u raw)
  generalize urgentShown c u (c.sarCode u raw) = d at hcode hdone hevent
  obtain ⟨hurgent, hresult, hkept⟩ := urgentKept_sarNext (c := d.setUnit u { c.unit u with phase := 0, urgent := none })
    (t := (c.unit u).due) hu
  exact ⟨((getF_of_reg hresult).trans getF_setUnit).trans hcode, ((flag_of_reg hresult).trans flag_setUnit).trans hdone,
    (hkept.trans flag_setUnit).trans hevent, hurgent.trans (congrArg SarUnit.urgent unit_setUnit)⟩

/-- A unit without foreground work and without a pair due converts its urgent request. -/
theorem sarNext_urgent (hwait : (c.unit u).fgWait = none) (hpair : u = 0 → c.pairDue = none)
    (hurgent : (c.unit u).urgent = some (ch, sample)) :
    c.sarNext u t = c.putUnit u { c.unit u with phase := 3, due := c.sarEdge u t + c.convTime u sample } := by
  have hnone : (if u = 0 then c.pairDue else none) = none := by
    split
    · rename_i hu
      exact hpair hu
    · rfl
  rw [Machine.Core.sarNext]
  dsimp only
  rw [hwait, hnone]
  dsimp only
  rw [hurgent]

/-- An urgent request waits in its slot, and DONE is cleared. -/
def urgentWaiting (c : Machine.Core) (u ch sample : Nat) : Machine.Core :=
  (c.setF (CNV_U_URG_RESULT.DONE u) 0).setUnit u { c.unit u with urgent := some (ch, sample) }

theorem unit_urgentWaiting : (urgentWaiting c u ch sample).unit u = { c.unit u with urgent := some (ch, sample) } := unit_setUnit

theorem flag_urgentWaiting : (urgentWaiting c u ch sample).flag (CNV_U_URG_RESULT.DONE u) = false := by
  rw [urgentWaiting, flag_setUnit]
  exact flag_setF_same (show 16 + 1 ≤ 32 by decide) rfl

theorem pairDue_urgentWaiting : (urgentWaiting c u ch sample).pairDue = c.pairDue := by
  have hbelow {a : Nat} (ha : a < 0x400B0000) : (c.setF (CNV_U_URG_RESULT.DONE u) 0).reg a = c.reg a := by
    refine reg_setF_other ?_
    dsimp only [CNV_U_URG_RESULT.DONE, CNV_U_URG_RESULT.a]
    omega
  rw [urgentWaiting, pairDue_setUnit]
  exact pairDue_of (setF_now _ _ _) (setF_fbk _ _ _) (hbelow (by decide)) (hbelow (by decide)) (hbelow (by decide))

/-- A request to an idle unit. -/
theorem urgent_idle (hurgent : (c.unit u).urgent = none) (hch : sarChannel u ch = true) (hphase : (c.unit u).phase = 0)
    (hwait : (c.unit u).fgWait = none) (hpair : u = 0 → c.pairDue = none) :
    c.urgent u ch sample = (urgentWaiting c u ch sample).putUnit u { (urgentWaiting c u ch sample).unit u with
      phase := 3
      due := (urgentWaiting c u ch sample).sarEdge u (2 * c.now) + (urgentWaiting c u ch sample).convTime u sample } := by
  have hstill : ((urgentWaiting c u ch sample).unit u).phase = 0 := (congrArg SarUnit.phase unit_urgentWaiting).trans hphase
  have hidle : (urgentWaiting c u ch sample).sarAbort u (2 * c.now) = urgentWaiting c u ch sample :=
    if_neg (by rw [hstill]; decide)
  have hnext : (urgentWaiting c u ch sample).sarNext u (2 * c.now) = _ :=
    sarNext_urgent ((congrArg SarUnit.fgWait unit_urgentWaiting).trans hwait)
      (fun hu => pairDue_urgentWaiting.trans (hpair hu)) (congrArg SarUnit.urgent unit_urgentWaiting)
  rw [← hnext, Machine.Core.urgent]
  dsimp only
  rw [pairCatch_idle hpair, if_neg (by rw [hurgent]; decide), if_neg (by rw [hch]; decide)]
  change (if (((urgentWaiting c u ch sample).sarAbort u (2 * c.now)).unit u).phase = 0
    then ((urgentWaiting c u ch sample).sarAbort u (2 * c.now)).sarNext u (2 * c.now)
    else ((urgentWaiting c u ch sample).sarAbort u (2 * c.now)).sarStatus u) = _
  rw [hidle, if_pos hstill]

theorem urgent_spec (hurgent : (c.unit u).urgent = none) (hch : sarChannel u ch = true) (hphase : (c.unit u).phase = 0)
    (hwait : (c.unit u).fgWait = none) (hpair : u = 0 → c.pairDue = none) :
    ((c.urgent u ch sample).unit u).phase = 3 ∧ ((c.urgent u ch sample).unit u).urgent = some (ch, sample) ∧
      (c.urgent u ch sample).flag (CNV_U_URG_RESULT.DONE u) = false := by
  rw [urgent_idle hurgent hch hphase hwait hpair]
  have hunit := unit_urgentWaiting (c := c) (u := u) (ch := ch) (sample := sample)
  have hcleared := flag_urgentWaiting (c := c) (u := u) (ch := ch) (sample := sample)
  generalize urgentWaiting c u ch sample = d at hunit hcleared
  refine ⟨congrArg SarUnit.phase unit_putUnit, (congrArg SarUnit.urgent unit_putUnit).trans (congrArg SarUnit.urgent hunit),
    (flag_of_reg (reg_putUnit ?_)).trans hcleared⟩
  dsimp only [CNV_U_URG_RESULT.DONE, CNV_U_URG_RESULT.a, CNV_U_STATUS.a]
  omega

end Sequences

/-! ### The events -/
section Clauses
variable (s : State)

theorem gives_sarPreTrigger (u : Fin 4)
    (h : s.core.flag (CNV_U_CTRL.EN u.val) = true ∧ s.core.sarLp u.val = false ∧ s.core.fgLen u.val ≠ 0 ∧
      s.core.sampleHalf ≤ 2 * s.core.now + 1200)
    (hfree : ((s.core.unit u.val).phase = 0 ∨ (s.core.unit u.val).phase = 2) ∧ (s.core.unit u.val).fgWait = none ∧
      (u.val = 0 → s.core.pairDue = none)) :
    Gives (.sarPreTrigger u) s fun t =>
      (t.unit u.val).phase = 1 ∧ (t.unit u.val).work.entry = 0 ∧ (t.unit u.val).fg = [] ∧
      (t.unit u.val).due = s.core.sarEdge u.val (max s.core.sampleHalf (s.core.sampleHalf - 1200 + s.core.acqTime u.val 0)) +
        16 * s.core.sarCycle u.val := by
  obtain ⟨hen, hlp, hlen, hdue⟩ := h
  obtain ⟨hphase, hwait, hpair⟩ := hfree
  exact gives_of_effect exec_sarPreTrigger
    (preTriggered_spec (c := Laws.start s.core) hen hlp hlen hdue hphase hwait hpair) fun _ h => h

theorem gives_sarConversionDone (u : Fin 4) (raw : BitVec 16)
    (h : (s.core.unit u.val).phase = 3 ∧ (s.core.unit u.val).due ≤ 2 * s.core.now) :
    Gives (.sarConversionDone u raw) s fun t =>
      t.getF (CNV_U_URG_RESULT.CODE u.val) = s.core.sarCode u.val raw.toNat % 2 ^ (CNV_U_URG_RESULT.CODE u.val).len ∧
      t.flag (CNV_U_URG_RESULT.DONE u.val) = true ∧ t.flag (CNV_U_EVENT.URGENT_DONE u.val) = true ∧
      (t.unit u.val).urgent = none :=
  gives_of_effect exec_sarConversionDone (conversionEnded_spec (c := Laws.start s.core) u.isLt h.1 h.2) fun _ h => h

theorem gives_cnvStart_ignored (u : Fin 3)
    (h : s.core.getF (CNV_U_CTRL.TRIG_SRC u.val) = 0 ∧ s.core.flag (CNV_U_CTRL.EN u.val) = true ∧
      s.core.fgLen u.val < s.core.tableLen u.val)
    (hrun : (s.core.unit u.val).phase = 2 ∧ s.core.getF (CNV_U_CTRL.POLICY u.val) = 0 ∧
      (u.val = 0 → s.core.pairDue = none)) :
    Gives (.cnvStart u) s fun t =>
      t.flag (CNV_U_EVENT.TRIG_IGNORED u.val) = true ∧
      t.getF (CNV_U_COUNT.IGNORED u.val) = satN (CNV_U_COUNT.IGNORED u.val).len (s.core.getF (CNV_U_COUNT.IGNORED u.val) + 1) := by
  obtain ⟨hsrc, hen, hlen⟩ := h
  obtain ⟨hphase, hpolicy, hpair⟩ := hrun
  refine gives_of_effect rfl ?_ fun _ h => h
  rw [if_pos (show (Laws.start s.core).getF (CNV_U_CTRL.TRIG_SRC u.val) = 0 from hsrc), sarTrigger_ignored (c := Laws.start s.core) hpair hen hlen hphase hpolicy]
  refine ⟨flag_event_same (f := CNV_U_EVENT.TRIG_IGNORED u.val) (show 0 + 1 ≤ 32 by decide) rfl, ?_⟩
  refine (getF_of_reg (reg_event_other ?_)).trans ((getF_bump (show 0 + 16 ≤ 32 by decide)).trans rfl)
  dsimp only [CNV_U_COUNT.IGNORED, CNV_U_COUNT.a, CNV_U_EVENT.TRIG_IGNORED, CNV_U_EVENT.a]
  omega

theorem gives_cnvStart_free (u : Fin 3)
    (h : s.core.getF (CNV_U_CTRL.TRIG_SRC u.val) = 0 ∧ s.core.flag (CNV_U_CTRL.EN u.val) = true ∧
      s.core.fgLen u.val < s.core.tableLen u.val)
    (hfree : (s.core.unit u.val).phase = 0 ∧ (s.core.unit u.val).bg = none ∧ (s.core.unit u.val).bgEnd = 0 ∧
      (u.val = 0 → s.core.pairDue = none)) :
    Gives (.cnvStart u) s fun t => (t.unit u.val).phase = 2 ∧ (t.unit u.val).work.entry = s.core.fgLen u.val := by
  obtain ⟨hsrc, hen, hlen⟩ := h
  obtain ⟨hphase, hbg, hend, hpair⟩ := hfree
  refine gives_of_effect rfl ?_ fun _ h => h
  rw [if_pos (show (Laws.start s.core).getF (CNV_U_CTRL.TRIG_SRC u.val) = 0 from hsrc), sarTrigger_free (c := Laws.start s.core) hpair hen hlen ⟨hphase, hbg, hend⟩]
  exact unit_sarEntryStart

theorem gives_backgroundTrigger (u : Fin 3)
    (h : s.core.getF (CNV_U_CTRL.TRIG_SRC u.val) = 1 ∧
      mapGet (fun _ => 0) s.core.modu.trig (s.core.getF (CNV_U_CTRL.TRIG_TCH u.val)) = s.core.now + 1 ∧
      s.core.flag (CNV_U_CTRL.EN u.val) = true ∧ s.core.fgLen u.val < s.core.tableLen u.val)
    (hfree : (s.core.unit u.val).phase = 0 ∧ (s.core.unit u.val).bg = none ∧ (s.core.unit u.val).bgEnd = 0 ∧
      (u.val = 0 → s.core.pairDue = none)) :
    Gives (.backgroundTrigger u) s fun t =>
      (t.unit u.val).phase = 2 ∧ (t.unit u.val).work.entry = s.core.fgLen u.val := by
  obtain ⟨hsrc, htrig, hen, hlen⟩ := h
  obtain ⟨hphase, hbg, hend, hpair⟩ := hfree
  refine gives_of_effect rfl ?_ fun _ h => h
  dsimp only
  rw [if_pos ⟨hsrc, htrig⟩, sarTrigger_free (c := Laws.start s.core) hpair hen hlen ⟨hphase, hbg, hend⟩]
  exact unit_sarEntryStart

theorem gives_urgentRequest_busy (u : Fin 3) (v : BitVec 32) (h : (s.core.unit u.val).urgent ≠ none) :
    Gives (.urgentRequest u v) s fun t => t.flag (CNV_U_EVENT.URGENT_BUSY u.val) = true := by
  have hwaits : (((Laws.start s.core).pairCatch u.val).unit u.val).urgent.isSome = true := by
    rw [urgent_pairCatch]
    exact Option.isSome_iff_ne_none.mpr h
  refine gives_of_effect rfl ?_ fun _ h => h
  rw [Machine.Core.urgent]
  dsimp only
  rw [if_pos hwaits]
  exact flag_event_same (f := CNV_U_EVENT.URGENT_BUSY u.val) (show 6 + 1 ≤ 32 by decide) rfl

theorem gives_urgentRequest_free (u : Fin 3) (v : BitVec 32)
    (h : (s.core.unit u.val).urgent = none ∧ sarChannel u.val (v.toNat % 128) = true)
    (hfree : (s.core.unit u.val).phase = 0 ∧ (s.core.unit u.val).fgWait = none ∧ (u.val = 0 → s.core.pairDue = none)) :
    Gives (.urgentRequest u v) s fun t =>
      (t.unit u.val).phase = 3 ∧ (t.unit u.val).urgent = some (v.toNat % 128, v.toNat / 128 % 16) ∧
      t.flag (CNV_U_URG_RESULT.DONE u.val) = false := by
  obtain ⟨hurgent, hch⟩ := h
  obtain ⟨hphase, hwait, hpair⟩ := hfree
  exact gives_of_effect rfl (urgent_spec (c := Laws.start s.core) hurgent hch hphase hwait hpair) fun _ h => h

theorem gives_auxDwellEnd_skipped (n : Fin 128) (chars : List Byte)
    (h : s.core.laneState n.val = 2 ∧ chars.length = 766 ∧ (s.core.cellVal n.val).auxIdx = none) :
    Gives (.auxDwellEnd n chars) s fun t =>
      t.flag CNV_EVENT.AUX_SKIP = true ∧
      t.getF (CNV_C_STAT.AUX_SKIPS n.val) = satN (CNV_C_STAT.AUX_SKIPS n.val).len
        (s.core.getF (CNV_C_STAT.AUX_SKIPS n.val) + 1) := by
  obtain ⟨hvalid, hlen, hmark⟩ := h
  refine gives_of_effect rfl ?_ fun _ h => h
  dsimp only
  rw [if_neg (by rw [show (Laws.start s.core).laneState n.val = 2 from hvalid, List.length_map, hlen]; simp),
    show ((Laws.start s.core).cellVal n.val).auxIdx = none from hmark]
  have hne : CNV_EVENT.a ≠ CNV_C_STAT.a n.val := by
    dsimp only [CNV_EVENT.a, CNV_C_STAT.a]
    omega
  refine ⟨(flag_of_reg (reg_bump_other hne)).trans (flag_event_same (f := CNV_EVENT.AUX_SKIP) (by decide) rfl), ?_⟩
  have hcount : ((Laws.start s.core).event CNV_EVENT.AUX_SKIP).getF (CNV_C_STAT.AUX_SKIPS n.val) =
      s.core.getF (CNV_C_STAT.AUX_SKIPS n.val) := getF_of_reg (reg_event_other hne.symm)
  rw [getF_bump (show 8 + 8 ≤ 32 by decide), hcount]

theorem getI_setCellVal {c : Machine.Core} {n : Nat} {v : CellVal} {f : Field} : (c.setCellVal n v).getI f = c.getI f := rfl

theorem gives_auxDwellEnd_taken (n : Fin 128) (chars : List Byte) (k : Nat)
    (h : s.core.laneState n.val = 2 ∧ chars.length = 766 ∧ (s.core.cellVal n.val).auxIdx = some k ∧ k < 7) :
    Gives (.auxDwellEnd n chars) s fun t =>
      (t.cellVal n.val).auxIdx = none ∧
      t.getI (auxField n.val k) = satS (auxField n.val k).len (rne (s.core.getI (CNV_AUX_GAIN.VALUE k) *
        sat16 (rne (sincSum 256 0 (chars.map (fun b => (upFields b).ab)) * 32768) (256 * 256 * 256))) 32768 +
        s.core.getI (CNV_AUX_OFS.VALUE k)) := by
  obtain ⟨hvalid, hlen, hmark, hk⟩ := h
  refine gives_of_effect rfl ?_ fun _ h => h
  dsimp only
  rw [if_neg (by rw [show (Laws.start s.core).laneState n.val = 2 from hvalid, List.length_map, hlen]; simp),
    show ((Laws.start s.core).cellVal n.val).auxIdx = some k from hmark]
  dsimp only
  rw [if_neg (by omega)]
  refine ⟨congrArg CellVal.auxIdx (mapGet_mapSet.trans (if_pos rfl)), ?_⟩
  rw [getI_setCellVal, getI_setI_16 (auxField_fits (n := n.val)).1 (auxField_fits (n := n.val)).2]
  rfl

end Clauses

/-- Settles O7: a unit with nothing of the resolver due goes on as `sarNext` says, which leaves its urgent slot
(`urgentKept_sarNext`). -/
theorem conversionEvents : Obligations.ConversionEvents := by
  unfold Obligations.ConversionEvents
  exact ⟨gives_sarPreTrigger, gives_sarConversionDone, gives_cnvStart_ignored, gives_cnvStart_free, gives_backgroundTrigger,
    gives_urgentRequest_busy, gives_urgentRequest_free, gives_auxDwellEnd_skipped, gives_auxDwellEnd_taken⟩

end Sys2Proof.Proofs
end

