-- ==== Sys2Proof/Proofs/ClockStates.lean ====
section
/-! The clocks: lock windows, the reference, holdover, the clock watch and the crystal (R28, R313 to R328). -/
namespace Sys2Proof.Proofs
open Sys2Proof.Machine Sys2Proof.Claims Sys2Proof.Laws

section Clocks
variable {c d e : Machine.Core} {f : Field} {p q n v i : Nat} {nm : AlarmName} {inst : Nat} {data : List Nat} {present : Bool}

/-! ### What the work of the clocks leaves -/

/-- A field and the record of a gap in the reference are as before. -/
structure ClockKeeps (f : Field) (c d : Machine.Core) : Prop where
  field : d.getF f = c.getF f
  gap : d.clk.gap = c.clk.gap

/-- A field that alarms and the origin of the time base leave. -/
structure OriginFree (f : Field) : Prop where
  alarm : AlarmFree f
  origin : Apart f CLK_STATUS.ORIGIN_SET
  period : f.addr ≠ MOD_PERIOD_COUNT.a

/-- … and that the states of the PLLs, their events and their measurements leave. -/
structure ClockFree (f : Field) : Prop extends OriginFree f where
  pll : ∀ k, f.addr ≠ CLK_PLL_STAT.a k
  event : f.addr ≠ CLK_EVENT.a
  phase : f.addr ≠ CLK_PHASE.a
  ppm : f.addr ≠ CLK_HOLD_PPM.a

theorem ClockKeeps.refl : ClockKeeps f c c := ⟨rfl, rfl⟩

theorem ClockKeeps.trans (h : ClockKeeps f c d) (k : ClockKeeps f d e) : ClockKeeps f c e :=
  ⟨k.field.trans h.field, k.gap.trans h.gap⟩

theorem ClockKeeps.flag (h : ClockKeeps f c d) : d.flag f = c.flag f := flag_of_getF h.field

theorem clockKeeps_ite {b : Prop} [Decidable b] (h : ClockKeeps f c d) (k : ClockKeeps f c e) :
    ClockKeeps f c (if b then d else e) := by
  split
  · exact h
  · exact k

theorem clockKeeps_foldl {α : Type} {g : Machine.Core → α → Machine.Core} (l : List α)
    (h : ∀ c x, ClockKeeps f c (g c x)) : ∀ c, ClockKeeps f c (l.foldl g c) := by
  induction l with
  | nil => exact fun _ => .refl
  | cons x xs ih => exact fun c => (h c x).trans (ih (g c x))

theorem clockKeeps_setF {g : Field} (h : Apart f g) : ClockKeeps f c (c.setF g v) := ⟨getF_setF_of_apart h, rfl⟩

theorem clockKeeps_event {g : Field} (h : Apart f g) : ClockKeeps f c (c.event g) := ⟨getF_event_apart h, rfl⟩

theorem clockKeeps_raise (h : OriginFree f) : ClockKeeps f c (c.raise nm inst data present) :=
  ⟨getF_raise_of_free h.alarm, congrArg Clk.gap (congrArg (fun x : Machine.Core => x.clk) onlyAlarm_raise.1 :)⟩

theorem clockKeeps_clearCause (h : OriginFree f) : ClockKeeps f c (c.clearCause nm inst) :=
  ⟨getF_of_reg (onlyTlm_clearCause.2 _ h.alarm.1),
    congrArg Clk.gap (congrArg (fun x : Machine.Core => x.clk) onlyTlm_clearCause.1 :)⟩

theorem clockKeeps_wantClock : ClockKeeps f c (c.wantClock i v) := ⟨rfl, rfl⟩

theorem clockKeeps_setOrigin (h : OriginFree f) : ClockKeeps f c c.setOrigin := by
  unfold Machine.Core.setOrigin
  dsimp only
  split
  · exact .refl
  · refine ClockKeeps.trans ?_ ⟨getF_setReg_other h.period, rfl⟩
    refine ClockKeeps.trans ?_ (clockKeeps_setF h.origin)
    exact ⟨rfl, rfl⟩

/-- What the entry into LOCKED does beside the state of the PLL. -/
theorem clockKeeps_afterLock (h : OriginFree f) : ClockKeeps f (c.setPll p pllLOCKED) (c.pllLock p) := by
  unfold Machine.Core.pllLock
  refine ClockKeeps.trans ?_ (clockKeeps_setOrigin h)
  exact (clockKeeps_clearCause h).trans (clockKeeps_foldl _ (fun _ _ => clockKeeps_wantClock) _)

/-! ### The states of the PLLs (R316) -/

theorem ClockFree.apart (h : ClockFree f) {g : Field} (hg : g.addr = CLK_PLL_STAT.a p) : Apart f g :=
  apart_of_ne (by rw [hg]; exact h.pll p)

theorem clockKeeps_setPll (h : ClockFree f) : ClockKeeps f c (c.setPll p v) := clockKeeps_setF (h.apart rfl)

theorem clockKeeps_pllLock (h : ClockFree f) : ClockKeeps f c (c.pllLock p) :=
  (clockKeeps_setPll h).trans (clockKeeps_afterLock h.toOriginFree)

theorem clockKeeps_follow (h : ClockFree f) {l : List Nat} : ClockKeeps f c (c.follow l v) :=
  clockKeeps_foldl _ (fun _ _ => clockKeeps_ite (clockKeeps_setPll h) .refl) c

theorem clockKeeps_pllLost (h : ClockFree f) {fault : Bool} : ClockKeeps f c (c.pllLost p fault) := by
  have hevent {g : Field} (hg : g.addr = CLK_EVENT.a) {x : Machine.Core} : ClockKeeps f x (x.event g) :=
    clockKeeps_event (apart_of_ne (by rw [hg]; exact h.event))
  have hloss (x : Machine.Core) : ClockKeeps f x (if p ≠ 1 then x
      else { x with clk := { x.clk with lossAt := some (x.clk.lossAt.getD c.now), exceeded := false } }) :=
    clockKeeps_ite .refl ⟨rfl, rfl⟩
  have hstate (st : Nat) : ClockKeeps f c ((pllIslands p).foldl (fun a i => a.wantClock i 1)
      (((c.setPll p st).bump (CLK_PLL_STAT.LOSSES p) 1).setF (CLK_PLL_STAT.RUN p) 0)) := by
    refine ClockKeeps.trans ?_ (clockKeeps_foldl _ (fun _ _ => clockKeeps_wantClock) _)
    exact ((clockKeeps_setPll h).trans (clockKeeps_setF (h.apart (p := p) rfl))).trans (clockKeeps_setF (h.apart (p := p) rfl))
  have hdone := (hstate (if p = 0 then pllFREE else pllBANKED)).trans (hloss _)
  unfold Machine.Core.pllLost
  dsimp only
  split
  · exact (hdone.trans (hevent rfl)).trans (clockKeeps_raise h.toOriginFree)
  · exact (hdone.trans (hevent rfl)).trans (clockKeeps_raise h.toOriginFree)

theorem clockKeeps_pllAbandon (h : ClockFree f) : ClockKeeps f c (c.pllAbandon p) := by
  have hbanked : ClockKeeps f c (((c.setPll p pllBANKED).setF (CLK_PLL_STAT.RUN p) 0).event CLK_EVENT.SLEW_ABANDONED) :=
    ((clockKeeps_setPll h).trans (clockKeeps_setF (h.apart (p := p) rfl))).trans (clockKeeps_event (apart_of_ne h.event))
  unfold Machine.Core.pllAbandon
  dsimp only
  split
  · exact hbanked.trans (clockKeeps_follow h)
  · exact hbanked

/-- What a loss of the reference does to the PLLs. -/
theorem clockKeeps_refLoss (h : ClockFree f) : ClockKeeps f (c.setF CLK_STATUS.REF_VALID 0) c.refLoss :=
  clockKeeps_foldl _ (fun _ _ => clockKeeps_ite (clockKeeps_pllLost h)
    (clockKeeps_ite (clockKeeps_pllAbandon h) .refl)) _

/-- REF_VALID is none of the PLLs' fields. -/
theorem clockFree_refValid : ClockFree CLK_STATUS.REF_VALID :=
  ⟨⟨⟨by decide, by decide⟩, fun _ => ⟨.inl (by decide), by decide⟩, by decide⟩, fun k => by
    dsimp only [CLK_STATUS.REF_VALID, CLK_STATUS.a, CLK_PLL_STAT.a]
    omega, by decide, by decide, by decide⟩

theorem clockFree_count (h : p < 4) : ClockFree (CLK_PLL_COUNT.COUNT p) := by
  have hp : p = 0 ∨ p = 1 ∨ p = 2 ∨ p = 3 := by omega
  refine ⟨⟨⟨?_, ?_⟩, apart_of_ne ?_, ?_⟩, fun k => ?_, ?_, ?_, ?_⟩
  case refine_5 =>
    dsimp only [CLK_PLL_COUNT.COUNT, CLK_PLL_COUNT.a, CLK_PLL_STAT.a]
    omega
  all_goals rcases hp with rfl | rfl | rfl | rfl <;> decide

theorem originFree_state (h : p < 4) : OriginFree (CLK_PLL_STAT.STATE p) := by
  have hp : p = 0 ∨ p = 1 ∨ p = 2 ∨ p = 3 := by omega
  refine ⟨⟨?_, ?_⟩, apart_of_ne ?_, ?_⟩ <;> rcases hp with rfl | rfl | rfl | rfl <;> decide

theorem refValid_refLoss : c.refLoss.flag CLK_STATUS.REF_VALID = false :=
  (clockKeeps_refLoss clockFree_refValid).flag.trans (flag_setF_same (by decide) rfl)

/-! ### LOCKED (R317) -/

theorem pll_setPll (h : v < 8) : (c.setPll p v).pll p = v := by
  rw [Machine.Core.pll, Machine.Core.setPll, getF_setF_same (show 0 + 3 ≤ 32 by decide)]
  exact Nat.mod_eq_of_lt h

theorem pll_pllLock (h : p < 4) : (c.pllLock p).pll p = pllLOCKED :=
  (clockKeeps_afterLock (originFree_state h)).field.trans (pll_setPll (by decide))

theorem pll_pllLock_other (h : q < 4) (hne : q ≠ p) : (c.pllLock p).pll q = c.pll q := by
  refine (clockKeeps_afterLock (originFree_state h)).field.trans (getF_setF_other ?_)
  dsimp only [CLK_PLL_STAT.STATE, CLK_PLL_STAT.a]
  omega

theorem getF_bistWatch : c.bistWatch.getF f = c.getF f := rfl

theorem flag_bistWatch : c.bistWatch.flag f = c.flag f := rfl

theorem clk_bistWatch : c.bistWatch.clk = c.clk := rfl

/-- PLL_M returns, with PLL_L and PLL_T where they wait for it (R319, R323). -/
def clocksBack (c : Machine.Core) : Machine.Core :=
  [1, 2, 3].foldl (fun a q => if [pllBANKED, pllFREQ, pllSLEW].contains (a.pll q) then a.pllLock q else a) c

theorem pll_clocksBack (h : c.pll 1 = pllSLEW) : (clocksBack c).pll 1 = pllLOCKED := by
  have hother (x : Machine.Core) (q : Nat) (hq : q ≠ 1) (hx : x.pll 1 = pllLOCKED) :
      (if [pllBANKED, pllFREQ, pllSLEW].contains (x.pll q) then x.pllLock q else x).pll 1 = pllLOCKED := by
    split
    · exact (pll_pllLock_other (by decide) hq.symm).trans hx
    · exact hx
  have hfirst : (if [pllBANKED, pllFREQ, pllSLEW].contains (c.pll 1) then c.pllLock 1 else c).pll 1 = pllLOCKED := by
    rw [h, if_pos (by decide)]
    exact pll_pllLock (by decide)
  exact hother _ 3 (by decide) (hother _ 2 (by decide) hfirst)

/-- PLL_M has returned: the holdover ends with its time in HOLD_TIME (R323). -/
def holdEnded (c : Machine.Core) : Machine.Core :=
  let d := (clocksBack c).setF CLK_HOLD_TIME.MS c.holdMs
  { d with clk := { d.clk with lossAt := none, exceeded := false } }

theorem pll_withClk {x : Clk} {k : Nat} : ({ c with clk := x } : Machine.Core).pll k = c.pll k := rfl

theorem pll_holdEnded (h : c.pll 1 = pllSLEW) : (holdEnded c).pll 1 = pllLOCKED := by
  have hback := pll_clocksBack h
  unfold holdEnded
  dsimp only
  generalize clocksBack c = d at hback
  rw [pll_withClk]
  exact (getF_setF_other (c := d) (f := CLK_HOLD_TIME.MS) (g := CLK_PLL_STAT.STATE 1) (by decide)).trans hback

theorem lossAt_holdEnded : (holdEnded c).clk.lossAt = none := rfl

/-- The event and the alarm of a restored phase. -/
def phaseShown (c : Machine.Core) (k : Nat) : Machine.Core :=
  (c.event CLK_EVENT.PHASE_RESTORED).raise .phaseRestored k [k] false

theorem clk_raise {nm : AlarmName} {i : Nat} {data : List Nat} {present : Bool} : (c.raise nm i data present).clk = c.clk :=
  (congrArg (fun x : Machine.Core => x.clk) onlyAlarm_raise.1 :)

theorem clk_clearCause {nm : AlarmName} {i : Nat} : (c.clearCause nm i).clk = c.clk :=
  (congrArg (fun x : Machine.Core => x.clk) onlyTlm_clearCause.1 :)

theorem locked_phaseShown {k : Nat} (hk : k < 4) (h : c.pll k = pllLOCKED) :
    (phaseShown c k).pll k = pllLOCKED ∧ (phaseShown c k).flag CLK_EVENT.PHASE_RESTORED = true ∧
      Listed (phaseShown c k) .phaseRestored k [k] ∧ (phaseShown c k).clk = c.clk := by
  obtain ⟨hevent, hlisted⟩ := event_with_alarm (c := c) (f := CLK_EVENT.PHASE_RESTORED) (nm := .phaseRestored) (inst := k)
    (data := [k]) (present := false) ⟨by decide, by decide⟩ (by decide) rfl (by decide)
  have hne : (CLK_PLL_STAT.STATE k).addr ≠ CLK_EVENT.PHASE_RESTORED.addr := by
    dsimp only [CLK_PLL_STAT.STATE, CLK_PLL_STAT.a, CLK_EVENT.PHASE_RESTORED, CLK_EVENT.a]
    omega
  exact ⟨((clockKeeps_event (apart_of_ne hne)).trans (clockKeeps_raise (originFree_state hk))).field.trans h, hevent, hlisted,
    clk_raise.trans (event_clk _ _)⟩

theorem exec_phaseRestored {s : State} {p : Fin 4} :
    exec (.phaseRestored p) s = go (fun c _ =>
      if p.val = 0 ∨ c.pll p.val ≠ pllSLEW ∨ (p.val = 1 ∧ 10 < c.slewRemain.natAbs) ∨ (1 < p.val ∧ c.pll 1 ≠ pllLOCKED) then c
      else if p.val = 1 then phaseShown ((holdEnded c).clearCause .holdoverExceeded 0) 1
      else phaseShown (c.pllLock p.val) p.val) s := rfl

/-! ### A lock window (R313) -/

/-- The reference as a window of a PLL judges it. -/
def windowRef (c : Machine.Core) (k bypass : Nat) : Machine.Core :=
  let ok := windowOk bypass && !c.clk.gap
  let c0 := if k = 0 then { c with clk := { c.clk with gap := false } } else c
  if k = 0 ∧ ok ∧ !c0.flag CLK_STATUS.REF_VALID then c0.refReturn
  else if k = 0 ∧ !ok ∧ c0.flag CLK_STATUS.REF_VALID then c0.refLoss else c0

/-- Good windows in a row. -/
def windowRun (c : Machine.Core) (k count : Nat) : Nat :=
  if ((count : Int) - pllExpect k).natAbs ≤ 2 then min 3 (c.getF (CLK_PLL_STAT.RUN k) + 1) else 0

/-- A window's count in the registers. -/
def lockCounted (c : Machine.Core) (k count : Nat) : Machine.Core :=
  ((c.setF (CLK_PLL_COUNT.COUNT k) count).setF (CLK_PLL_STAT.DEV k)
    (ofS 8 (clampI (-127) 127 ((count : Int) - pllExpect k)))).setF (CLK_PLL_STAT.RUN k) (windowRun c k count)

/-- The state of a PLL after a window. -/
def windowState (c2 : Machine.Core) (k run count : Nat) (phi ppm : Int) (now : Nat) : Machine.Core :=
  let far := decide (8 < ((count : Int) - pllExpect k).natAbs)
  let valid := c2.flag CLK_STATUS.REF_VALID
  let st := c2.pll k
  if st = pllACQUIRE ∧ valid ∧ run = 3 then c2.pllLock k
  else if st = pllLOCKED ∧ far then
    let c3 := c2.pllLost k true
    if k = 1 then (if c3.pll 2 = pllLOCKED then c3.wantClock 9 1 else c3).follow [pllLOCKED] pllBANKED else c3
  else if st = pllBANKED ∧ valid ∧ (k ≤ 1 ∨ c2.pll 1 ≠ pllBANKED) then (c2.setPll k pllFREQ).setF (CLK_PLL_STAT.RUN k) 0
  else if (st = pllFREQ ∨ st = pllSLEW) ∧ far then c2.pllAbandon k
  else if st = pllFREQ ∧ run = 3 then
    if k = 1 then
      let c3 := ((c2.setPll 1 pllSLEW).setI CLK_PHASE.PHI phi).setI CLK_HOLD_PPM.PPM ppm
      let c4 := c3.follow [pllFREQ] pllSLEW
      { c4 with clk := { c4.clk with slewAt := now, slewFrom := phi } }
    else if c2.pll 1 = pllLOCKED ∨ c2.pll 1 = pllSLEW then c2.setPll k pllSLEW else c2
  else c2

theorem exec_lockWindowEnd {s : State} {k : Fin 4} {count bypass : Nat} {phi ppm : Int} (h : s.core.pd7 = true) :
    exec (.lockWindowEnd k count bypass phi ppm) s = go (fun c _ => Machine.Core.bistWatch
      (windowState (lockCounted (windowRef c k.val bypass) k.val count) k.val (windowRun (windowRef c k.val bypass) k.val count)
        count phi ppm c.now)) s := by
  refine congrArg Host.Outcome.next (run_congr ?_)
  dsimp only
  rw [if_neg (by rw [show (Laws.start s.core).pd7 = true from h]; decide)]
  rfl

theorem clockKeeps_slewFrom {now : Nat} {phi : Int} :
    ClockKeeps f c { c with clk := { c.clk with slewAt := now, slewFrom := phi } } := ⟨rfl, rfl⟩

theorem clockKeeps_windowState (h : ClockFree f) {run count now : Nat} {phi ppm : Int} :
    ClockKeeps f c (windowState c p run count phi ppm now) := by
  unfold windowState
  dsimp only
  refine clockKeeps_ite (clockKeeps_pllLock h) (clockKeeps_ite ?_ (clockKeeps_ite ?_ (clockKeeps_ite (clockKeeps_pllAbandon h)
    (clockKeeps_ite (clockKeeps_ite ?_ (clockKeeps_ite (clockKeeps_setPll h) .refl)) .refl))))
  · refine (clockKeeps_pllLost h).trans (clockKeeps_ite ?_ .refl)
    exact (clockKeeps_ite clockKeeps_wantClock .refl).trans (clockKeeps_follow h)
  · exact (clockKeeps_setPll h).trans (clockKeeps_setF (h.apart (p := p) rfl))
  · refine ClockKeeps.trans ?_ clockKeeps_slewFrom
    refine ClockKeeps.trans ?_ (clockKeeps_follow h)
    exact ((clockKeeps_setPll h).trans (clockKeeps_setF (apart_of_ne h.phase))).trans (clockKeeps_setF (apart_of_ne h.ppm))

theorem ne_count_stat : CLK_PLL_COUNT.a p ≠ CLK_PLL_STAT.a q := by
  dsimp only [CLK_PLL_COUNT.a, CLK_PLL_STAT.a]
  omega

theorem count_lockCounted : (lockCounted c p n).getF (CLK_PLL_COUNT.COUNT p) = n % 2 ^ 20 := by
  unfold lockCounted
  rw [getF_setF_other ne_count_stat, getF_setF_other ne_count_stat, getF_setF_same (show 0 + 20 ≤ 32 by decide)]

theorem refValid_lockCounted : (lockCounted c p n).flag CLK_STATUS.REF_VALID = c.flag CLK_STATUS.REF_VALID := by
  have hne {a : Nat} (h : 0x40000020 ≤ a) : CLK_STATUS.REF_VALID.addr ≠ a := by
    dsimp only [CLK_STATUS.REF_VALID, CLK_STATUS.a]
    omega
  refine flag_of_getF ?_
  unfold lockCounted
  rw [getF_setF_other (hne (by dsimp only [CLK_PLL_STAT.RUN, CLK_PLL_STAT.a]; omega)),
    getF_setF_other (hne (by dsimp only [CLK_PLL_STAT.DEV, CLK_PLL_STAT.a]; omega)),
    getF_setF_other (hne (by dsimp only [CLK_PLL_COUNT.COUNT, CLK_PLL_COUNT.a]; omega))]

theorem pll_lockCounted : (lockCounted c p n).pll p = c.pll p := by
  unfold lockCounted Machine.Core.pll
  rw [getF_setF_apart (f := CLK_PLL_STAT.RUN p) (g := CLK_PLL_STAT.STATE p) (show 4 + 2 ≤ 32 by decide) rfl
      (.inl (show 0 + 3 ≤ 4 by decide)),
    getF_setF_apart (f := CLK_PLL_STAT.DEV p) (g := CLK_PLL_STAT.STATE p) (show 8 + 8 ≤ 32 by decide) rfl
      (.inl (show 0 + 3 ≤ 8 by decide)),
    getF_setF_other ne_count_stat.symm]

/-! ### The end of a cause (R327) -/

theorem not_alarmHit {l : List Alarm} (h : alarmHit l nm inst = none) {a : Alarm} (ha : a ∈ l) (hname : a.name = nm)
    (hfold : a.fold = false) : a.inst ≠ inst := by
  unfold alarmHit at h
  intro hinst
  cases hfind : l.find? (fun a => !a.fold && a.name == nm && a.inst == inst) with
  | some b =>
    rw [hfind] at h
    exact absurd h (by simp)
  | none => exact absurd (List.find?_eq_none.mp hfind a ha) (by simp [hname, hfold, hinst])

/-- Where an alarm has its keyed entry only, the end of its cause leaves none of its name with a cause. -/
theorem cause_clearCause (hkeyed : ∀ a ∈ c.tlm.alarms, a.name = nm → a.fold = false ∧ a.inst = inst) :
    ∀ a ∈ (c.clearCause nm inst).tlm.alarms, a.name = nm → a.cause = false := by
  unfold Machine.Core.clearCause
  split
  · rename_i hnone
    intro a ha hname
    obtain ⟨hfold, hinst⟩ := hkeyed a ha hname
    exact absurd hinst (not_alarmHit hnone ha hname hfold)
  · rename_i b hb
    obtain ⟨hmem, hbname, -⟩ := alarmHit_spec hb
    obtain ⟨hbfold, hbinst⟩ := hkeyed b hmem hbname
    dsimp only
    rw [refreshAlarms_alarms]
    dsimp only
    have hlog : (if (b.unrec = 0 || !b.cause || b.fold && !(b.flags.filter (· != inst)).isEmpty) then c
        else c.logAlarm b b.unrec).tlm.alarms = c.tlm.alarms := by
      split
      · rfl
      · exact logAlarm_alarms
    generalize hb2 : (if (b.unrec = 0 || !b.cause || b.fold && !(b.flags.filter (· != inst)).isEmpty) then
        ({ b with flags := b.flags.filter (· != inst), cause := b.fold && !(b.flags.filter (· != inst)).isEmpty } : Alarm)
      else { b with
        flags := b.flags.filter (· != inst), cause := b.fold && !(b.flags.filter (· != inst)).isEmpty, unrec := 0
        recAt := c.us }) = b2
    have hended : b2.cause = false ∧ b2.name = nm ∧ b2.inst = inst ∧ b2.fold = false := by
      rw [← hb2]
      split <;> exact ⟨by rw [hbfold]; rfl, hbname, hbinst, hbfold⟩
    obtain ⟨hcause, hname2, hinst2, hfold2⟩ := hended
    have hreplaced : ∀ a ∈ replaceAlarm c.tlm.alarms b2, a.name = nm → a.cause = false := by
      intro a ha hname
      obtain ⟨x, hx, rfl⟩ := List.mem_map.mp ha
      split
      · exact hcause
      · rename_i hsame
        rw [if_neg hsame] at hname
        obtain ⟨hxfold, hxinst⟩ := hkeyed x hx hname
        exact absurd (by simp [sameAlarm, hname, hname2, hxinst, hinst2, hxfold, hfold2]) hsame
    intro a ha hname
    refine hreplaced a ?_ hname
    rw [hlog] at ha
    split at ha
    · exact List.mem_of_mem_filter ha
    · exact ha

end Clocks

/-! ### The events -/
section Clauses
variable (s : State)

theorem gives_lockWindowEnd_locks (p : Fin 4) (count bypass : Nat) (phi ppm : Int)
    (href : s.core.pd7 = true ∧ s.core.flag CLK_STATUS.REF_VALID = true ∧ s.core.clk.gap = false ∧ windowOk bypass = true)
    (h : s.core.pll p.val = pllACQUIRE ∧ 2 ≤ s.core.getF (CLK_PLL_STAT.RUN p.val) ∧
      ((count : Int) - pllExpect p.val).natAbs ≤ 2) :
    Gives (.lockWindowEnd p count bypass phi ppm) s fun t =>
      t.pll p.val = pllLOCKED ∧ t.getF (CLK_PLL_COUNT.COUNT p.val) = count % 2 ^ (CLK_PLL_COUNT.COUNT p.val).len := by
  obtain ⟨hon, hvalid, hgap, hok⟩ := href
  obtain ⟨hacquire, hrun, hdev⟩ := h
  refine gives_of_effect (exec_lockWindowEnd hon) ?_ fun _ h => h
  have hkept : windowRef (Laws.start s.core) p.val bypass =
      if p.val = 0 then { Laws.start s.core with clk := { (Laws.start s.core).clk with gap := false } } else Laws.start s.core := by
    have hstill : (if p.val = 0 then { Laws.start s.core with clk := { (Laws.start s.core).clk with gap := false } }
        else Laws.start s.core).flag CLK_STATUS.REF_VALID = true := by
      split <;> exact hvalid
    unfold windowRef
    dsimp only
    rw [hstill, hok, show (Laws.start s.core).clk.gap = false from hgap, if_neg (by simp), if_neg (by simp)]
  have hsame : ∀ f : Field, (windowRef (Laws.start s.core) p.val bypass).getF f = s.core.getF f := by
    intro f
    rw [hkept]
    split <;> rfl
  generalize windowRef (Laws.start s.core) p.val bypass = c at hsame
  have hthree : windowRun c p.val count = 3 := by
    rw [windowRun, if_pos hdev, hsame]
    omega
  have hlock : windowState (lockCounted c p.val count) p.val (windowRun c p.val count) count phi ppm (Laws.start s.core).now =
      (lockCounted c p.val count).pllLock p.val := by
    unfold windowState
    dsimp only
    rw [if_pos ⟨pll_lockCounted.trans ((hsame _).trans hacquire), refValid_lockCounted.trans ((flag_of_getF (hsame _)).trans hvalid),
      hthree⟩]
  rw [hlock]
  exact ⟨pll_pllLock p.isLt, (clockKeeps_pllLock (clockFree_count p.isLt)).field.trans count_lockCounted⟩

theorem gives_lockWindowEnd_counts (p : Fin 4) (count bypass : Nat) (phi ppm : Int) (hon : s.core.pd7 = true) :
    Gives (.lockWindowEnd p count bypass phi ppm) s fun t =>
      t.getF (CLK_PLL_COUNT.COUNT p.val) = count % 2 ^ (CLK_PLL_COUNT.COUNT p.val).len ∧
      (p.val = 0 → (windowOk bypass = false ∨ s.core.clk.gap = true) → t.flag CLK_STATUS.REF_VALID = false) := by
  refine gives_of_effect (exec_lockWindowEnd hon) ?_ fun _ h => h
  rw [getF_bistWatch, flag_bistWatch]
  refine ⟨?_, fun hp hbad => ?_⟩
  · exact (clockKeeps_windowState (clockFree_count p.isLt)).field.trans count_lockCounted
  · refine (clockKeeps_windowState clockFree_refValid).flag.trans (refValid_lockCounted.trans ?_)
    have hnot : (windowOk bypass && !(Laws.start s.core).clk.gap) = false := by
      rw [show (Laws.start s.core).clk.gap = s.core.clk.gap from rfl]
      rcases hbad with h | h <;> simp [h]
    unfold windowRef
    dsimp only
    rw [hnot, if_neg (by simp), if_pos hp]
    split
    · exact refValid_refLoss
    · rename_i hvalid
      exact Bool.eq_false_iff.mpr fun h => hvalid ⟨hp, rfl, h⟩

theorem gives_referenceGap (src : Fin 2)
    (h : s.core.getF CLK_CTRL.REF_SEL = src.val ∧ s.core.flag CLK_STATUS.REF_VALID = true) :
    Gives (.referenceGap src) s fun t => t.flag CLK_STATUS.REF_VALID = false ∧ t.clk.gap = true := by
  obtain ⟨hsel, hvalid⟩ := h
  refine gives_of_effect rfl ?_ fun _ h => h
  dsimp only
  rw [flag_bistWatch, clk_bistWatch, if_neg (not_not.mpr (show (Laws.start s.core).getF CLK_CTRL.REF_SEL = src.val from hsel))]
  generalize hnoted : { Laws.start s.core with clk := { (Laws.start s.core).clk with gap := true } } = d
  have hgap : d.clk.gap = true := by rw [← hnoted]
  have hstill : d.flag CLK_STATUS.REF_VALID = true := by
    rw [← hnoted]
    exact hvalid
  rw [if_pos hstill]
  exact ⟨refValid_refLoss, (clockKeeps_refLoss clockFree_refValid).gap.trans hgap⟩

theorem gives_islandClockSwitch (i : Fin 12) (b d : Nat)
    (h : bypassBit i.val = some b ∧ s.core.clk.change.getD i.val 0 = d ∧ d ≠ 0) :
    Gives (.islandClockSwitch i) s fun t =>
      t.getBit CLK_STATUS.ON_BYPASS b = decide (d = 1) ∧ t.clk.change.getD i.val 0 = 0 := by
  obtain ⟨hbit, rfl, hd⟩ := h
  have hb : b < 5 := by
    unfold bypassBit at hbit
    split at hbit <;> simp at hbit <;> omega
  have hself (l : List Nat) : (setAt i.val 0 l).getD i.val 0 = 0 := by
    by_cases hi : i.val < l.length
    · exact getD_setAt_same hi
    · rw [setAt_eq_set, List.getD_eq_getElem?_getD, List.getElem?_eq_none (by rw [List.length_set]; omega)]
      rfl
  have hone : ((Laws.start s.core).clk.change.getD i.val 0 == 1) = decide (s.core.clk.change.getD i.val 0 = 1) := by
    exact beq_eq_decide _ _
  refine gives_of_effect rfl ?_ fun _ h => h
  dsimp only
  rw [hbit]
  dsimp only
  rw [if_neg (show ¬ (Laws.start s.core).clk.change.getD i.val 0 = 0 from hd), hone]
  generalize hc : { Laws.start s.core with
    clk := { (Laws.start s.core).clk with change := setAt i.val 0 (Laws.start s.core).clk.change } } = c
  have hchange : c.clk.change.getD i.val 0 = 0 := by
    rw [← hc]
    exact hself _
  generalize decide (s.core.clk.change.getD i.val 0 = 1) = x
  have hshown : (c.putBit CLK_STATUS.ON_BYPASS b x).getBit CLK_STATUS.ON_BYPASS b = x := by
    rw [getBit_putBit (by decide) hb, if_pos rfl]
  have hengine : ((if i.val = 3 then (c.putBit CLK_STATUS.ON_BYPASS b x).setFlag CEN_STATUS.BYPASS x
      else c.putBit CLK_STATUS.ON_BYPASS b x).getBit CLK_STATUS.ON_BYPASS b = x) ∧
      (if i.val = 3 then (c.putBit CLK_STATUS.ON_BYPASS b x).setFlag CEN_STATUS.BYPASS x
      else c.putBit CLK_STATUS.ON_BYPASS b x).clk.change.getD i.val 0 = 0 := by
    split
    · exact ⟨(getBit_of_reg (reg_setFlag_other (by decide))).trans hshown, hchange⟩
    · exact ⟨hshown, hchange⟩
  generalize (if i.val = 3 then (c.putBit CLK_STATUS.ON_BYPASS b x).setFlag CEN_STATUS.BYPASS x
      else c.putBit CLK_STATUS.ON_BYPASS b x) = e at hengine
  split
  · exact hengine
  · split <;> exact hengine

theorem gives_phaseRestored (p : Fin 4) (h : p.val ≠ 0 ∧ s.core.pll p.val = pllSLEW)
    (hready : (p.val = 1 ∧ s.core.slewRemain.natAbs ≤ 10) ∨ (p.val ≠ 1 ∧ s.core.pll 1 = pllLOCKED)) :
    Gives (.phaseRestored p) s fun t =>
      t.pll p.val = pllLOCKED ∧ t.flag CLK_EVENT.PHASE_RESTORED = true ∧ Listed t .phaseRestored p.val [p.val] ∧
      (p.val = 1 → t.slewRemain = 0 ∧ t.clk.lossAt = none) := by
  obtain ⟨hnot, hslew⟩ := h
  have hgo : ¬ (p.val = 0 ∨ (Laws.start s.core).pll p.val ≠ pllSLEW ∨
      (p.val = 1 ∧ 10 < (Laws.start s.core).slewRemain.natAbs) ∨ (1 < p.val ∧ (Laws.start s.core).pll 1 ≠ pllLOCKED)) := by
    rintro (h0 | hs | ⟨h1, hfar⟩ | ⟨h1, hfree⟩)
    · exact hnot h0
    · exact hs hslew
    · rcases hready with ⟨-, hnear⟩ | ⟨hp, -⟩
      · exact absurd hfar (Nat.not_lt.mpr hnear)
      · exact hp h1
    · rcases hready with ⟨hp, -⟩ | ⟨-, hlocked⟩
      · omega
      · exact hfree hlocked
  refine gives_of_effect (exec_phaseRestored (p := p)) ?_ fun _ h => h
  rw [if_neg hgo]
  split
  · rename_i h1
    have hp : p = 1 := Fin.ext h1
    subst hp
    have hback := pll_holdEnded (c := Laws.start s.core) hslew
    have hloss := lossAt_holdEnded (c := Laws.start s.core)
    generalize holdEnded (Laws.start s.core) = d at hback hloss
    have hcleared : (d.clearCause .holdoverExceeded 0).pll 1 = pllLOCKED :=
      (clockKeeps_clearCause (originFree_state (by decide))).field.trans hback
    have hclk : (d.clearCause .holdoverExceeded 0).clk = d.clk := clk_clearCause
    generalize d.clearCause .holdoverExceeded 0 = e at hcleared hclk
    obtain ⟨hstate, hevent, hlisted, hkept⟩ := locked_phaseShown (k := 1) (by decide) hcleared
    refine ⟨hstate, hevent, hlisted, fun _ => ⟨if_neg (by rw [hstate]; decide), ?_⟩⟩
    rw [hkept, hclk, hloss]
  · rename_i h1
    obtain ⟨hstate, hevent, hlisted, -⟩ := locked_phaseShown p.isLt (pll_pllLock (c := Laws.start s.core) p.isLt)
    exact ⟨hstate, hevent, hlisted, fun hp => absurd hp h1⟩

theorem gives_holdoverExceeded (u : Nat)
    (h : s.core.clk.lossAt = some u ∧ s.core.clk.exceeded = false ∧ s.core.holdMax ≤ s.core.holdMs) :
    Gives .holdoverExceeded s fun t =>
      t.clk.exceeded = true ∧ t.flag CLK_EVENT.HOLDOVER_EXCEEDED = true ∧ Listed t .holdoverExceeded 0 [s.core.holdMs] := by
  obtain ⟨hloss, hnew, hlong⟩ := h
  refine gives_of_effect rfl ?_ fun _ h => h
  dsimp only
  rw [if_pos ⟨by rw [show (Laws.start s.core).clk.lossAt = some u from hloss]; rfl,
    by rw [show (Laws.start s.core).clk.exceeded = false from hnew]; rfl, hlong⟩]
  obtain ⟨hevent, hlisted⟩ := event_with_alarm (c := { Laws.start s.core with
      clk := { (Laws.start s.core).clk with exceeded := true } }) (f := CLK_EVENT.HOLDOVER_EXCEEDED) (nm := .holdoverExceeded)
    (inst := 0) (data := [s.core.holdMs]) (present := true) ⟨by decide, by decide⟩ (by decide) rfl (by decide)
  exact ⟨congrArg Clk.exceeded (clk_raise.trans (event_clk _ _)), hevent, hlisted⟩

theorem gives_clockFault (count : Nat)
    (h : 125 < ((count : Int) - 2500).natAbs ∧ s.core.causeOn .clockFault 0 = false)
    (hmode : s.core.mode.code ≠ .off ∧ s.core.mode.code ≠ .safe) :
    Gives (.clockFault count) s fun t => Listed t .clockFault 0 [count] ∧ .clockFault ∈ t.saf.req := by
  refine gives_of_effect rfl ?_ fun _ h => h
  rw [if_pos ⟨h.1, by rw [show (Laws.start s.core).causeOn .clockFault 0 = false from h.2]; rfl⟩]
  exact ⟨hasAlarm_raiseA (by decide), mem_req_raiseA hmode.1 hmode.2⟩

theorem gives_clockFaultClear (count : Nat) (h : ((count : Int) - 2500).natAbs ≤ 125)
    (hkeyed : ∀ a ∈ s.core.tlm.alarms, a.name = .clockFault → a.fold = false ∧ a.inst = 0) :
    Gives (.clockFaultClear count) s fun t => ∀ a ∈ t.tlm.alarms, a.name = .clockFault → a.cause = false := by
  refine gives_of_effect rfl ?_ fun _ h => h
  rw [if_pos h, Machine.Core.endCause, refreshCause_tlm]
  exact cause_clearCause hkeyed

theorem gives_wallclockDegraded (h : s.core.flag CLK_STATUS.WALL_DEGRADED = false) :
    Gives .wallclockDegraded s fun t =>
      t.flag CLK_STATUS.WALL_DEGRADED = true ∧ t.flag CLK_EVENT.WALLCLOCK_DEGRADED = true ∧
      Listed t .wallclockDegraded 0 [] := by
  refine gives_of_effect rfl ?_ fun _ h => h
  rw [if_neg (by rw [show (Laws.start s.core).flag CLK_STATUS.WALL_DEGRADED = false from h]; decide)]
  dsimp only
  generalize Machine.Core.fresh _ = d
  obtain ⟨hevent, hlisted⟩ := event_with_alarm (c := d.setF CLK_STATUS.WALL_DEGRADED 1) (f := CLK_EVENT.WALLCLOCK_DEGRADED)
    (nm := .wallclockDegraded) (inst := 0) (data := []) (present := true) ⟨by decide, by decide⟩ (by decide) rfl (by decide)
  refine ⟨?_, hevent, hlisted⟩
  rw [flag_raise_of_free ⟨by decide, by decide⟩, flag_event_other (by decide)]
  exact flag_setF_same (by decide) rfl

theorem gives_aonCrystalReturn (h : s.core.flag CLK_STATUS.WALL_DEGRADED = true) :
    Gives .aonCrystalReturn s fun t => t.flag CLK_STATUS.WALL_DEGRADED = false := by
  refine gives_of_effect rfl ?_ fun _ h => h
  rw [if_pos (show (Laws.start s.core).flag CLK_STATUS.WALL_DEGRADED = true from h)]
  dsimp only
  rw [flag_of_reg (onlyTlm_clearCause.2 _ (by decide))]
  exact flag_setF_same (by decide) rfl

end Clauses

/-- Settles O9: the states of the PLLs, their alarms and the origin leave what a window counted and whether the reference is
valid (`clockKeeps_windowState`), and a PLL that locks stays so (`pll_pllLock`). -/
theorem clockEvents : Obligations.ClockEvents := by
  unfold Obligations.ClockEvents
  exact ⟨gives_lockWindowEnd_locks, gives_lockWindowEnd_counts, gives_referenceGap, gives_islandClockSwitch,
    gives_phaseRestored, gives_holdoverExceeded, gives_clockFault, gives_clockFaultClear, gives_wallclockDegraded,
    gives_aonCrystalReturn⟩

end Sys2Proof.Proofs
end

