-- ==== Sys2Proof/Proofs/HostPorts.lean ====
section
/-! The host ports: doorbells, quad-SPI transactions, datagrams, CAN segments, the link status, and a posted mailbox that is
taken (R336, R339, R342, R344, R346, R361). -/
namespace Sys2Proof.Proofs
open Sys2Proof.Machine Sys2Proof.Claims Sys2Proof.Laws

section Ports
variable {c : Machine.Core} {f g : Field} {k addr udp : Nat} {b l : List Byte} {x : Mbox} {s : State} {i : Instr}
  {mem : Memory}

/-! ### Events, mailboxes and memory -/

/-- An event beside one more count. -/
theorem counted_spec (hne : f.addr ≠ g.addr) (hf : f.lo + f.len ≤ 32) (hlen : f.len = 1) (hg : g.lo + g.len ≤ 32) :
    ((c.event f).bump g 1).flag f = true ∧ ((c.event f).bump g 1).getF g = satN g.len (c.getF g + 1) :=
  ⟨(flag_of_reg (reg_bump_other hne)).trans (flag_event_same hf hlen),
    (getF_bump hg).trans (by rw [getF_of_reg (reg_event_other hne.symm)])⟩

theorem spiError_spec : c.spiError.flag MBX_EVENT.SPI_ERROR = true ∧
    c.spiError.getF MBX_COUNT.REFUSED = satN MBX_COUNT.REFUSED.len (c.getF MBX_COUNT.REFUSED + 1) :=
  counted_spec (by decide) (by decide) rfl (by decide)

theorem dropDatagram_spec : c.dropDatagram.flag MBX_EVENT.UDP_DROPPED = true ∧
    c.dropDatagram.getF MBX_COUNT.DROPPED = satN MBX_COUNT.DROPPED.len (c.getF MBX_COUNT.DROPPED + 1) :=
  counted_spec (by decide) (by decide) rfl (by decide)

theorem box_setBox_same : (c.setBox k x).box k = x := mapGet_mapSet.trans (if_pos rfl)

theorem getF_setBox : (c.setBox k x).getF f = c.getF f := rfl

theorem state_bell (hk : k < 16) : (c.bell k).getF (mbState k) = 1 := by
  rw [Machine.Core.bell, getF_setBox]
  exact getF_setF_same (show 2 * k + 2 ≤ 32 by omega)

theorem box_bell : (c.bell k).box k = { c.box k with bell := c.now } := box_setBox_same

/-- Above the boot ROM memory keeps what is written. -/
theorem ne_rom {a : Nat} (h : 0x10000 ≤ a) : regionOf a ≠ .rom := by
  unfold regionOf
  rw [if_neg (by omega)]
  split_ifs <;> decide

theorem mbBuf_ge : 0x20800000 ≤ mbBuf k := Nat.le_add_right _ _

/-- A command that stores bytes above the boot ROM: they stand in memory after it. -/
theorem givesM_store {a : Nat} {e : Machine.Core → Memory → Machine.Core} {P : Machine.Core → Prop}
    (hexec : exec i s = go e s) (hops : (e (Laws.start s.core) s.mem).memOps = [.write a l]) (ha : 0x10000 ≤ a)
    (hP : P (e (Laws.start s.core) s.mem)) (hmem : ∀ d : Machine.Core, P d → P { d with memOps := [] }) :
    GivesM i s fun t u => P t ∧ readBytes u a l.length = l := by
  refine ⟨run e s, hexec, hmem _ hP, ?_⟩
  rw [run_mem, hops]
  exact readBytes_mapSetAll fun j _ => ne_rom (by omega)

theorem bitOf_eq_testBit {n j : Nat} : bitOf n j = n.testBit j := by
  rw [Nat.testBit_eq_decide_div_mod_eq]
  exact beq_eq_decide _ _

/-! ### Doorbells (R336) -/

theorem ring_free (hk : k < 16) (h : c.getF (mbState k) = 0) :
    (c.ring mem k).getF (mbState k) = 1 ∧ ((c.ring mem k).box k).bell = c.now := by
  rw [Machine.Core.ring, if_pos h]
  exact ⟨state_bell hk, congrArg Mbox.bell box_bell⟩

theorem ring_refused (h : c.getF (mbState k) ≠ 0) :
    (c.ring mem k).flag MBX_EVENT.DOORBELL_REFUSED = true ∧
      (c.ring mem k).getF MBX_COUNT.REFUSED = satN MBX_COUNT.REFUSED.len (c.getF MBX_COUNT.REFUSED + 1) ∧
      (c.ring mem k).getF (mbState k) = c.getF (mbState k) := by
  have hring : c.ring mem k = (c.event MBX_EVENT.DOORBELL_REFUSED).bump MBX_COUNT.REFUSED 1 := by
    rw [Machine.Core.ring, if_neg h, Machine.Core.refuseBell]
    exact if_pos rfl
  rw [hring]
  obtain ⟨hevent, hcount⟩ := counted_spec (c := c) (f := MBX_EVENT.DOORBELL_REFUSED) (g := MBX_COUNT.REFUSED) (by decide)
    (by decide) rfl (by decide)
  exact ⟨hevent, hcount, getF_of_reg ((reg_bump_other (show MBX_STATE.a ≠ MBX_COUNT.a by decide)).trans
    (reg_event_other (show MBX_STATE.a ≠ MBX_EVENT.a by decide)))⟩

/-! ### Quad-SPI writes (R342) -/

theorem exec_qspiWrite {addr : BitVec 24} {data : List Byte}
    (h : addr.toNat + data.length ≤ 0x10000 ∧ addr.toNat < 0x10000 ∧
      (touched addr.toNat data.length).all (fun m => s.core.getF (mbState m) == 0) = true) :
    exec (.qspiWrite addr data) s = go (fun c _ => c.writeMem (0x20800000 + addr.toNat) data) s := by
  obtain ⟨hend, hin, hfree⟩ := h
  refine congrArg Host.Outcome.next (run_congr (if_neg ?_))
  rw [show (touched addr.toNat data.length).all (fun m => (Laws.start s.core).getF (mbState m) == 0) = true from hfree]
  simp only [Bool.not_true, Bool.false_eq_true, or_false, not_or]
  omega

/-! ### A message from the network (R336, R344) -/

theorem arrive_free (h : c.getF (mbState k) = 0) :
    c.arrive k b addr udp =
      ((c.writeMem (mbBuf k) (b.take 4096)).setBox k { c.box k with addr := addr, udp := udp }).bell k := if_pos h

theorem arrive_spec (hk : k < 16) (h : c.getF (mbState k) = 0) :
    (c.arrive k b addr udp).getF (mbState k) = 1 ∧
      (c.arrive k b addr udp).box k = { c.box k with addr := addr, udp := udp, bell := c.now } := by
  rw [arrive_free h]
  refine ⟨state_bell hk, box_bell.trans ?_⟩
  rw [box_setBox_same]
  rfl

theorem memOps_arrive (h : c.getF (mbState k) = 0) (hlen : b.length ≤ 4096) :
    (c.arrive k b addr udp).memOps = c.memOps ++ [.write (mbBuf k) b] := by
  rw [arrive_free h, List.take_of_length_le hlen]
  rfl

/-- A datagram for the port of the mailboxes is for none of them, or not one that they take (R344). -/
def badDatagram (c : Machine.Core) (port : Fin 2) (d : Datagram) : Prop :=
  (!d.sumOk) = true ∨ d.data.length < 4 ∨ 4100 < d.data.length ∨ 16 ≤ u8 d.data 0 ∨ u8 d.data 1 ≠ 1 ∨ u16 d.data 2 ≠ 0 ∨
    c.getF (MBX_MB_CFG.PORT (u8 d.data 0)) ≠ 1 + port.val ∨
    ((c.box (u8 d.data 0)).peer ≠ 0 ∧ (c.box (u8 d.data 0)).peer ≠ d.src.toNat) ∨ c.ipOf port.val = 0

theorem taken_port {d : Datagram} (hup : s.core.onBypass 9 = false) (hport : d.dstPort.toNat = s.core.udpPort) :
    ¬ (d.dstPort.toNat ≠ (Laws.start s.core).udpPort ∨ (Laws.start s.core).onBypass 9 = true) := by
  rw [show (Laws.start s.core).onBypass 9 = false from hup]
  exact fun h => h.elim (absurd hport) (by decide)

theorem exec_udpDatagram_bad {port : Fin 2} {d : Datagram} (hup : s.core.onBypass 9 = false)
    (hport : d.dstPort.toNat = s.core.udpPort) (hbad : badDatagram s.core port d) :
    exec (.udpDatagram port d) s = go (fun c _ => c.dropDatagram) s := by
  refine congrArg Host.Outcome.next (run_congr ?_)
  dsimp only
  rw [if_neg (taken_port hup hport)]
  exact if_pos hbad

theorem exec_udpDatagram_good {port : Fin 2} {d : Datagram} (hup : s.core.onBypass 9 = false)
    (hport : d.dstPort.toNat = s.core.udpPort) (hgood : ¬ badDatagram s.core port d) :
    exec (.udpDatagram port d) s =
      go (fun c _ => c.arrive (u8 d.data 0) (d.data.drop 4) d.src.toNat d.srcPort.toNat) s := by
  refine congrArg Host.Outcome.next (run_congr ?_)
  dsimp only
  rw [if_neg (taken_port hup hport)]
  exact if_neg hgood

/-! ### A posted mailbox is taken (R336, R361) -/

/-- The state a posted mailbox is taken from: it counts as FREE. -/
def takenState (s : State) (m : Fin 16) : State := { s with core := s.core.setF (mbState m.val) 0 }

theorem state_takenState {m : Fin 16} : (takenState s m).core.getF (mbState m.val) = 0 :=
  getF_setF_same (show 2 * m.val + 2 ≤ 32 by omega)

theorem exec_mailboxTaken {m : Fin 16} (h : s.core.nextBox = some m) :
    exec (.mailboxTaken none) s = runOpcode (u16 (readBytes s.mem (mbBuf m.val) 2) 0) (postedMsg s.mem m) (takenState s m) := by
  show execMailboxTaken none s = _
  rw [execMailboxTaken, h]
  rfl

theorem exec_mailboxTaken_ecc {m : Fin 16} {a : BitVec 32} (h : s.core.nextBox = some m)
    (hnew : (s.core.setF (mbState m.val) 0).repeated (postedMsg s.mem m) = false) :
    exec (.mailboxTaken (some a)) s = go (fun c _ =>
      c.takeEcc (u16 (readBytes s.mem (mbBuf m.val) 2) 0) (postedMsg s.mem m) a.toNat) (takenState s m) := by
  show execMailboxTaken (some a) s = _
  rw [execMailboxTaken, h]
  exact if_neg (by rw [hnew]; decide)

theorem length_readBytes {n : Nat} : ∀ {a : Nat}, (readBytes mem a n).length = n := by
  induction n with
  | zero => exact rfl
  | succ n ih => exact congrArg (· + 1) ih

theorem length_postedMsg {m : Fin 16} (h : u32 (readBytes mem (mbBuf m.val) 16) 8 ≤ 4080) :
    (postedMsg mem m).body.length ≤ 4080 := by
  unfold postedMsg
  dsimp only
  rw [length_readBytes]
  omega

end Ports

/-! ### The events -/
section Clauses
variable (s : State)

theorem gives_doorbell_free (m : Fin 16) (h : s.core.getF (mbState m.val) = 0) :
    Gives (.doorbell m) s fun t => t.getF (mbState m.val) = 1 ∧ (t.box m.val).bell = s.core.now :=
  gives_of_effect rfl (ring_free (c := Laws.start s.core) m.isLt h) fun _ h => h

theorem gives_doorbell_refused (m : Fin 16) (h : s.core.getF (mbState m.val) ≠ 0) :
    Gives (.doorbell m) s fun t =>
      t.flag MBX_EVENT.DOORBELL_REFUSED = true ∧
      t.getF MBX_COUNT.REFUSED = satN MBX_COUNT.REFUSED.len (s.core.getF MBX_COUNT.REFUSED + 1) ∧
      t.getF (mbState m.val) = s.core.getF (mbState m.val) :=
  gives_of_effect rfl (ring_refused (c := Laws.start s.core) h) fun _ h => h

theorem gives_qspiDoorbell_free (m : Byte) (h : s.core.getF (mbState m.toNat) = 0) (hm : m.toNat < 16) :
    Gives (.qspiDoorbell m) s fun t => t.getF (mbState m.toNat) = 1 ∧ (t.box m.toNat).bell = s.core.now := by
  refine gives_of_effect rfl ?_ fun _ h => h
  rw [if_pos hm]
  exact ring_free (c := Laws.start s.core) hm h

theorem gives_qspiDoorbell_refused (m : Byte) (h : s.core.getF (mbState m.toNat) ≠ 0) (hm : m.toNat < 16) :
    Gives (.qspiDoorbell m) s fun t =>
      t.flag MBX_EVENT.DOORBELL_REFUSED = true ∧
      t.getF MBX_COUNT.REFUSED = satN MBX_COUNT.REFUSED.len (s.core.getF MBX_COUNT.REFUSED + 1) ∧
      t.getF (mbState m.toNat) = s.core.getF (mbState m.toNat) := by
  refine gives_of_effect rfl ?_ fun _ h => h
  rw [if_pos hm]
  exact ring_refused (c := Laws.start s.core) h

theorem gives_qspiWrite (addr : BitVec 24) (data : List Byte)
    (h : addr.toNat + data.length ≤ 0x10000 ∧ addr.toNat < 0x10000 ∧
      (touched addr.toNat data.length).all (fun m => s.core.getF (mbState m) == 0) = true) :
    GivesM (.qspiWrite addr data) s fun t u =>
      readBytes u (0x20800000 + addr.toNat) data.length = data ∧ t.reg MBX_EVENT.a = s.core.reg MBX_EVENT.a := by
  obtain ⟨t, hexec, hreg, hread⟩ := givesM_store (P := fun t => t.reg MBX_EVENT.a = s.core.reg MBX_EVENT.a)
    (exec_qspiWrite h) rfl (by omega) rfl fun _ h => h
  exact ⟨t, hexec, hread, hreg⟩

theorem gives_qspiWrite_outside (addr : BitVec 24) (data : List Byte) (h : 0x10000 < addr.toNat + data.length) :
    Gives (.qspiWrite addr data) s fun t =>
      t.flag MBX_EVENT.SPI_ERROR = true ∧
      t.getF MBX_COUNT.REFUSED = satN MBX_COUNT.REFUSED.len (s.core.getF MBX_COUNT.REFUSED + 1) := by
  refine gives_of_effect rfl ?_ fun _ h => h
  dsimp only
  rw [if_pos (.inl h)]
  exact spiError_spec (c := Laws.start s.core)

theorem gives_qspiRead (addr : BitVec 24) (n : Nat) (h : addr.toNat < 0x10000) :
    Gives (.qspiRead addr n) s fun t =>
      t.mbx.tx = [⟨0, 0, 0, readBytes s.mem (0x20800000 + addr.toNat) (min n (0x10000 - addr.toNat))⟩] := by
  refine gives_of_effect rfl ?_ fun _ h => h
  dsimp only
  rw [if_neg (Nat.not_le.mpr h)]
  rfl

theorem gives_qspiStatus : Gives .qspiStatus s fun t =>
    t.mbx.tx = [⟨0, 0, 0, le 4 (s.core.reg MBX_STATE.a).toNat ++ le 2 (s.core.getF MBX_REPLY_READY.READY) ++
      le 2 (s.core.reg MBX_EVENT.a).toNat⟩] := gives_of_effect rfl rfl fun _ h => h

theorem gives_qspiClearReady (mask : BitVec 16) :
    Gives (.qspiClearReady mask) s fun t => ∀ i : Fin 16, t.getBit MBX_REPLY_READY.READY i.val =
      (s.core.getBit MBX_REPLY_READY.READY i.val && !bitOf mask.toNat i.val) := by
  refine gives_of_effect rfl (fun i => ?_) fun _ h => h
  have hmask : (0xFFFF : Nat) = 2 ^ 16 - 1 := by decide
  rw [Machine.Core.getBit, getF_setF_same (by decide), bitOf_mod i.isLt, bitOf_eq_testBit, Nat.testBit_and, Nat.testBit_xor,
    hmask, Nat.testBit_two_pow_sub_one, decide_eq_true i.isLt, Bool.true_xor, ← bitOf_eq_testBit, ← bitOf_eq_testBit]
  rfl

theorem gives_spiError : Gives .spiError s fun t =>
    t.flag MBX_EVENT.SPI_ERROR = true ∧
    t.getF MBX_COUNT.REFUSED = satN MBX_COUNT.REFUSED.len (s.core.getF MBX_COUNT.REFUSED + 1) :=
  gives_of_effect rfl (spiError_spec (c := Laws.start s.core)) fun _ h => h

theorem gives_udpDatagram_dropped (port : Fin 2) (d : Datagram)
    (h : s.core.onBypass 9 = false ∧ d.dstPort.toNat = s.core.udpPort ∧
      (d.sumOk = false ∨ d.data.length < 4 ∨ 4100 < d.data.length)) :
    Gives (.udpDatagram port d) s fun t =>
      t.flag MBX_EVENT.UDP_DROPPED = true ∧
      t.getF MBX_COUNT.DROPPED = satN MBX_COUNT.DROPPED.len (s.core.getF MBX_COUNT.DROPPED + 1) := by
  obtain ⟨hup, hport, hbad⟩ := h
  refine gives_of_effect (exec_udpDatagram_bad hup hport ?_) (dropDatagram_spec (c := Laws.start s.core)) fun _ h => h
  rcases hbad with h | h | h
  · exact .inl (by rw [h]; rfl)
  · exact .inr (.inl h)
  · exact .inr (.inr (.inl h))

theorem gives_udpDatagram_arrives (port : Fin 2) (d : Datagram)
    (h : s.core.onBypass 9 = false ∧ d.dstPort.toNat = s.core.udpPort ∧ d.sumOk = true ∧ 4 ≤ d.data.length ∧
      d.data.length ≤ 4100)
    (hbox : u8 d.data 0 < 16 ∧ u8 d.data 1 = 1 ∧ u16 d.data 2 = 0 ∧
      s.core.getF (MBX_MB_CFG.PORT (u8 d.data 0)) = 1 + port.val)
    (hpeer : ((s.core.box (u8 d.data 0)).peer = 0 ∨ (s.core.box (u8 d.data 0)).peer = d.src.toNat) ∧
      s.core.ipOf port.val ≠ 0 ∧ s.core.getF (mbState (u8 d.data 0)) = 0) :
    GivesM (.udpDatagram port d) s fun t u =>
      t.getF (mbState (u8 d.data 0)) = 1 ∧ (t.box (u8 d.data 0)).addr = d.src.toNat ∧
      (t.box (u8 d.data 0)).udp = d.srcPort.toNat ∧ (t.box (u8 d.data 0)).bell = s.core.now ∧
      readBytes u (mbBuf (u8 d.data 0)) (d.data.length - 4) = d.data.drop 4 := by
  obtain ⟨hup, hport, hsum, hmin, hmax⟩ := h
  obtain ⟨hk, hversion, hzero, hcfg⟩ := hbox
  obtain ⟨hsrc, hip, hfree⟩ := hpeer
  have hgood : ¬ badDatagram s.core port d := by
    rintro (h | h | h | h | h | h | h | h | h)
    · rw [hsum] at h
      exact absurd h (by decide)
    · omega
    · omega
    · omega
    · exact h hversion
    · exact h hzero
    · exact h hcfg
    · exact hsrc.elim h.1 h.2
    · exact hip h
  have hlen : (d.data.drop 4).length = d.data.length - 4 := List.length_drop
  obtain ⟨hstate, hkept⟩ := arrive_spec (c := Laws.start s.core) (b := d.data.drop 4) (addr := d.src.toNat)
    (udp := d.srcPort.toNat) hk hfree
  have hops := memOps_arrive (c := Laws.start s.core) (b := d.data.drop 4) (addr := d.src.toNat) (udp := d.srcPort.toNat) hfree
    (by omega)
  obtain ⟨t, hexec, hP, hread⟩ := givesM_store (s := s)
    (P := fun t => t.getF (mbState (u8 d.data 0)) = 1 ∧ t.box (u8 d.data 0) =
      { (Laws.start s.core).box (u8 d.data 0) with addr := d.src.toNat, udp := d.srcPort.toNat, bell := (Laws.start s.core).now })
    (exec_udpDatagram_good hup hport hgood) hops (Nat.le_trans (by decide) mbBuf_ge) ⟨hstate, hkept⟩ fun _ h => h
  rw [hlen] at hread
  exact ⟨t, hexec, hP.1, congrArg Mbox.addr hP.2, congrArg Mbox.udp hP.2, congrArg Mbox.bell hP.2, hread⟩

theorem gives_fragmentTimeout (port : Fin 2) : Gives (.fragmentTimeout port) s fun t =>
    t.flag MBX_EVENT.UDP_DROPPED = true ∧
    t.getF MBX_COUNT.DROPPED = satN MBX_COUNT.DROPPED.len (s.core.getF MBX_COUNT.DROPPED + 1) :=
  gives_of_effect rfl (dropDatagram_spec (c := Laws.start s.core)) fun _ h => h

/-- What an Ethernet port sends leaves at once. -/
theorem tx_send_ethernet {c : Machine.Core} {port : Fin 2} {a : Nat} {b : List Byte} :
    (c.send ⟨1 + port.val, a, 0, b⟩).mbx.tx = c.mbx.tx ++ [⟨1 + port.val, a, 0, b⟩] := by
  have hport : canPort (1 + port.val) = false := decide_eq_false (by omega)
  rw [Machine.Core.send, hport]
  rfl

theorem gives_arpRequest (port : Fin 2) (target sender : BitVec 32) (senderMac : BitVec 48)
    (h : s.core.onBypass 9 = false ∧ s.core.ipOf port.val ≠ 0 ∧ target.toNat = s.core.ipOf port.val) :
    Gives (.arpRequest port target sender senderMac) s fun t => ∃ b, t.mbx.tx = [⟨1 + port.val, sender.toNat, 0, b⟩] := by
  obtain ⟨hup, hip, htarget⟩ := h
  refine gives_of_effect rfl ?_ fun _ h => h
  dsimp only
  rw [if_pos ⟨hip, htarget, by rw [show (Laws.start s.core).onBypass 9 = false from hup]; rfl⟩, tx_send_ethernet]
  exact ⟨_, rfl⟩

theorem gives_icmpEcho (port : Fin 2) (src dst : BitVec 32) (data : List Byte)
    (h : s.core.onBypass 9 = false ∧ s.core.ipOf port.val ≠ 0 ∧ dst.toNat = s.core.ipOf port.val) :
    Gives (.icmpEcho port src dst data) s fun t =>
      t.mbx.tx = [⟨1 + port.val, src.toNat, 0, zeros 2 ++ be 2 (inetSum data) ++ data⟩] := by
  obtain ⟨hup, hip, htarget⟩ := h
  refine gives_of_effect rfl ?_ fun _ h => h
  dsimp only
  rw [if_pos ⟨hip, htarget, by rw [show (Laws.start s.core).onBypass 9 = false from hup]; rfl⟩, tx_send_ethernet]
  rfl

/-- One segment of a CAN message for a mailbox. -/
def canTaken (c : Machine.Core) (k : Nat) (h : Byte) (rest : List Byte) : Machine.Core :=
  let b := c.box k
  let follows := b.canNext = some (h.toNat % 128) && decide (c.now ≤ b.canTime + 100000000)
  if h.toNat % 128 ≠ 0 ∧ !follows then
    ((c.setBox k { b with canNext := none, canBytes := [] }).event MBX_EVENT.CAN_SEGMENT_ERROR).bump MBX_COUNT.DROPPED 1
  else
    let bytes := (if h.toNat % 128 = 0 then [] else b.canBytes) ++ rest
    if 128 ≤ h.toNat then
      (c.setBox k { b with canNext := none, canBytes := [] }).arrive k bytes (c.canBase + 2 * k + 1) 0
    else c.setBox k { b with canNext := some (h.toNat % 128 + 1), canTime := c.now, canBytes := bytes }

variable {s}

theorem exec_canSegment {port : Fin 4} {id : BitVec 29} {h : Byte} {rest : List Byte} {k : Nat}
    (hup : s.core.onBypass 9 = false) (hbox : s.core.canBox port.val id.toNat = some k) :
    exec (.canSegment port id (h :: rest)) s = go (fun c _ => canTaken c k h rest) s := by
  refine congrArg Host.Outcome.next (run_congr ?_)
  dsimp only
  rw [show (Laws.start s.core).canBox port.val id.toNat = some k from hbox]
  exact if_neg (by rw [show (Laws.start s.core).onBypass 9 = false from hup]; decide)

variable (s)

theorem gives_canSegment_last (port : Fin 4) (id : BitVec 29) (h : Byte) (rest : List Byte) (k : Nat)
    (hseg : s.core.onBypass 9 = false ∧ s.core.canBox port.val id.toNat = some k ∧ k < 16 ∧ h.toNat = 0x80 ∧
      s.core.getF (mbState k) = 0 ∧ rest.length ≤ 4096) :
    GivesM (.canSegment port id (h :: rest)) s fun t u =>
      t.getF (mbState k) = 1 ∧ (t.box k).bell = s.core.now ∧ readBytes u (mbBuf k) rest.length = rest := by
  obtain ⟨hup, hbox, hk, hh, hfree, hlen⟩ := hseg
  have hdone : canTaken (Laws.start s.core) k h rest = ((Laws.start s.core).setBox k { (Laws.start s.core).box k with
      canNext := none, canBytes := [] }).arrive k rest ((Laws.start s.core).canBase + 2 * k + 1) 0 := by
    unfold canTaken
    dsimp only
    rw [hh]
    rfl
  generalize hd : (Laws.start s.core).setBox k { (Laws.start s.core).box k with canNext := none, canBytes := [] } = d at hdone
  have hstill : d.getF (mbState k) = 0 := by rw [← hd]; exact hfree
  have hnow : d.now = s.core.now := by rw [← hd]; rfl
  have hnone : d.memOps = [] := by rw [← hd]; rfl
  obtain ⟨hstate, hkept⟩ := arrive_spec (c := d) (b := rest) (addr := (Laws.start s.core).canBase + 2 * k + 1) (udp := 0) hk hstill
  have hops := memOps_arrive (c := d) (b := rest) (addr := (Laws.start s.core).canBase + 2 * k + 1) (udp := 0) hstill hlen
  rw [hnone, ← hdone] at hops
  rw [← hdone] at hstate hkept
  obtain ⟨t, hexec, hP, hread⟩ := givesM_store (s := s) (P := fun t => t.getF (mbState k) = 1 ∧ (t.box k).bell = d.now)
    (exec_canSegment hup hbox) hops (Nat.le_trans (by decide) mbBuf_ge) ⟨hstate, congrArg Mbox.bell hkept⟩ fun _ h => h
  exact ⟨t, hexec, hP.1, hP.2.trans hnow, hread⟩

theorem gives_canSegment_error (port : Fin 4) (id : BitVec 29) (h : Byte) (rest : List Byte) (k : Nat)
    (hseg : s.core.onBypass 9 = false ∧ s.core.canBox port.val id.toNat = some k ∧ 0 < h.toNat % 128 ∧
      ¬ ((s.core.box k).canNext = some (h.toNat % 128) ∧ s.core.now ≤ (s.core.box k).canTime + 100000000)) :
    Gives (.canSegment port id (h :: rest)) s fun t =>
      t.flag MBX_EVENT.CAN_SEGMENT_ERROR = true ∧ (t.box k).canNext = none ∧
      t.getF MBX_COUNT.DROPPED = satN MBX_COUNT.DROPPED.len (s.core.getF MBX_COUNT.DROPPED + 1) := by
  obtain ⟨hup, hbox, hpos, hgap⟩ := hseg
  refine gives_of_effect (exec_canSegment hup hbox) ?_ fun _ h => h
  have hnot : (decide (((Laws.start s.core).box k).canNext = some (h.toNat % 128)) &&
      decide ((Laws.start s.core).now ≤ ((Laws.start s.core).box k).canTime + 100000000)) = false := by
    rw [← Bool.decide_and]
    exact decide_eq_false hgap
  unfold canTaken
  dsimp only
  rw [hnot, if_pos ⟨hpos.ne', rfl⟩]
  obtain ⟨hevent, hcount⟩ := counted_spec (c := (Laws.start s.core).setBox k { (Laws.start s.core).box k with
      canNext := none, canBytes := [] }) (f := MBX_EVENT.CAN_SEGMENT_ERROR) (g := MBX_COUNT.DROPPED) (by decide) (by decide) rfl
    (by decide)
  refine ⟨hevent, ?_, hcount⟩
  rw [box_bump, box_event, box_setBox_same]

theorem gives_ethLinkStatus (port : Fin 2) (up : Bool) (h : s.core.mbx.ethUp.length = 2) :
    Gives (.ethLinkStatus port up) s fun t =>
      t.mbx.ethUp.getD port.val false = (up && !s.core.onBypass 9) ∧ t.mbx.ethUp.length = 2 :=
  gives_of_effect rfl ⟨getD_setAt_same (port.isLt.trans_eq h.symm), by
    show (setAt port.val _ s.core.mbx.ethUp).length = 2
    rw [setAt_eq_set, List.length_set, h]⟩ fun _ h => h

theorem gives_commandTimeout (m : Fin 16) (r : CmdRef)
    (h : (s.core.box m.val).cur = some r ∧ r.mb = m.val ∧ s.core.getF (mbState m.val) = 2 ∧
      (s.core.box m.val).taken + 100000000 ≤ s.core.now) :
    Gives (.commandTimeout m) s fun t =>
      t.getF (mbState m.val) = 0 ∧ ((t.box m.val).stored.map Reply.status) = some stTIMEOUT := by
  obtain ⟨hcur, hmb, hrun, hlong⟩ := h
  refine gives_of_effect rfl ?_ fun _ h => h
  rw [show ((Laws.start s.core).box m.val).cur = some r from hcur]
  dsimp only
  rw [if_pos ⟨hrun, hlong⟩, ← hmb]
  obtain ⟨hfree, -, ⟨x, hstored, -, hstatus, -⟩, -, -⟩ := reply_final (c := (Laws.start s.core).unwait r) (ref := r)
    (status := stTIMEOUT) (payload := words [0]) (hmb ▸ m.isLt) (by decide)
  exact ⟨hfree, by rw [Machine.Core.replyW, hstored, Option.map_some, hstatus]⟩

theorem gives_mailboxTaken_echo (m : Fin 16) (hnext : s.core.nextBox = some m ∧ s.core.mode.code ≠ .off)
    (hop : u16 (readBytes s.mem (mbBuf m.val) 2) 0 = 0x0102 ∧
      (s.core.setF (mbState m.val) 0).repeated (postedMsg s.mem m) = false)
    (hmsg : u16 (readBytes s.mem (mbBuf m.val) 16) 2 = 0 ∧ u32 (readBytes s.mem (mbBuf m.val) 16) 8 ≤ 4080) :
    Gives (.mailboxTaken none) s fun t =>
      t.getF (mbState m.val) = 0 ∧ Answered t (postedMsg s.mem m) 0x0102 stDONE (postedMsg s.mem m).body := by
  have hserved : (takenState s m).core.served m.val = true := by
    rw [Machine.Core.served, show (takenState s m).core.mode = s.core.mode from rfl, bne_iff_ne.mpr hnext.2, Bool.true_or]
  have hready : Ready (takenState s m).core 0x0102 (postedMsg s.mem m) (postedMsg s.mem m).body :=
    .inl ⟨⟨state_takenState, hserved, hop.2, length_postedMsg hmsg.2⟩, congrArg (BitVec.ofNat 16) hmsg.1, rfl⟩
  obtain ⟨e, hexec, he⟩ := exec_echo hready
  have hanswer : Answered (run e (takenState s m)).core (postedMsg s.mem m) 0x0102 stDONE (postedMsg s.mem m).body := by
    rw [run_core, he]
    exact answered_reply_to rfl (by decide)
  refine ⟨run e (takenState s m), ?_, hanswer.2.1, hanswer⟩
  rw [exec_mailboxTaken hnext.1, hop.1]
  exact hexec

theorem gives_mailboxTaken_ecc (m : Fin 16) (a : BitVec 32)
    (h : s.core.nextBox = some m ∧ (s.core.setF (mbState m.val) 0).repeated (postedMsg s.mem m) = false) :
    Gives (.mailboxTaken (some a)) s fun t =>
      t.getF (mbState m.val) = 0 ∧
      Answered t (postedMsg s.mem m) (u16 (readBytes s.mem (mbBuf m.val) 2) 0) stMEMORY_FAULT (words [0, a.toNat, 4]) := by
  have hanswer : Answered ((Laws.start (takenState s m).core).takeEcc (u16 (readBytes s.mem (mbBuf m.val) 2) 0)
      (postedMsg s.mem m) a.toNat) (postedMsg s.mem m) (u16 (readBytes s.mem (mbBuf m.val) 2) 0) stMEMORY_FAULT
      (words [0, a.toNat, 4]) := answered_reply_to rfl (by decide)
  refine ⟨_, exec_mailboxTaken_ecc h.1 h.2, ?_⟩
  rw [run_core]
  generalize (Laws.start (takenState s m).core).takeEcc (u16 (readBytes s.mem (mbBuf m.val) 2) 0) (postedMsg s.mem m) a.toNat = d
    at hanswer
  exact ⟨hanswer.2.1, hanswer⟩

end Clauses

/-- Settles O17: a FREE mailbox that a doorbell, a datagram or a CAN message reaches is POSTED with the bytes in its buffer
(`arrive_spec`, `givesM_store`), and a posted one is taken as its command given directly would be. -/
theorem hostPortEvents : Obligations.HostPortEvents := by
  unfold Obligations.HostPortEvents
  exact ⟨gives_doorbell_free, gives_doorbell_refused, gives_qspiDoorbell_free, gives_qspiDoorbell_refused, gives_qspiWrite,
    gives_qspiWrite_outside, gives_qspiRead, gives_qspiStatus, gives_qspiClearReady, gives_spiError,
    gives_udpDatagram_dropped, gives_udpDatagram_arrives, gives_fragmentTimeout, gives_arpRequest, gives_icmpEcho,
    gives_canSegment_last, gives_canSegment_error, gives_ethLinkStatus, gives_commandTimeout, gives_mailboxTaken_echo,
    gives_mailboxTaken_ecc⟩

end Sys2Proof.Proofs
end
